-- ==== Sys2Proof/Word.lean ====
section
/-! DEFINITION. The plain data every other file uses: bytes, words, lanes, and a sorted table from
numbers to values in which an absent key stands for a value that the reader of the table names. -/

namespace Sys2Proof

abbrev Byte := BitVec 8
abbrev Half := BitVec 16
abbrev Word := BitVec 32
abbrev DWord := BitVec 64
/-- The 32 lanes of a vector register, or one row of an accumulator (R15, R147). -/
abbrev Lanes := Vector Word 32

/-- A table from numbers to values, keys rising. -/
abbrev Tab (α : Type) := List (Nat × α)

/-- The entry under a key. -/
def Tab.find {α : Type} : Tab α → Nat → Option α
  | [], _ => none
  | (k, v) :: t, n => if k = n then some v else Tab.find t n

/-- The entry under a key, or a default. -/
def Tab.findD {α : Type} (t : Tab α) (n : Nat) (d : α) : α := (Tab.find t n).getD d

/-- Put an entry at its sorted place, replacing the entry of that key. -/
def Tab.put {α : Type} : Tab α → Nat → α → Tab α
  | [], n, v => [(n, v)]
  | (k, w) :: t, n, v =>
    if n < k then (n, v) :: (k, w) :: t
    else if n = k then (n, v) :: t
    else (k, w) :: Tab.put t n v

/-- Remove the entry of a key. -/
def Tab.del {α : Type} (t : Tab α) (n : Nat) : Tab α := t.filter fun e => e.1 ≠ n

/-- Change every entry. -/
def Tab.mapV {α : Type} (t : Tab α) (f : Nat → α → α) : Tab α := t.map fun e => (e.1, f e.1 e.2)

/-- Lanes made from a function of the lane number. -/
def Lanes.of (f : Fin 32 → Word) : Lanes := Vector.ofFn f

/-- One lane. -/
def Lanes.at (v : Lanes) (i : Nat) : Word := v.toArray.getD i 0

/-- Every lane the same. -/
def Lanes.all (x : Word) : Lanes := Lanes.of fun _ => x

/-- Lanes of `new` where the mask has a 1, lanes of `old` elsewhere. -/
def Lanes.merge (mask : Word) (new old : Lanes) : Lanes :=
  Lanes.of fun i => if mask.getLsbD i.val then new.at i.val else old.at i.val

/-- The numbers of the bits set in a 32-bit mask, rising (R24). -/
def maskLanes (m : Word) : List Nat := (List.range 32).filter fun i => m.getLsbD i

/-- The mask whose bit i is p i. -/
def maskOf (p : Nat → Bool) : Word :=
  BitVec.ofNat 32 ((List.range 32).foldl (fun a i => if p i then a + 2 ^ i else a) 0)

/-- How many bits are set. -/
def popCount (m : Word) : Nat := (maskLanes m).length

/-- The value of little-endian bytes (R6). -/
def leNat : List Byte → Nat
  | [] => 0
  | b :: t => b.toNat + 256 * leNat t

/-- The low n bytes of a number, little-endian (R6). -/
def leBytes : Nat → Nat → List Byte
  | 0, _ => []
  | n + 1, v => BitVec.ofNat 8 (v % 256) :: leBytes n (v / 256)

/-- Bits [hi:lo] of a number. -/
def bitsOf (v hi lo : Nat) : Nat := (v >>> lo) % 2 ^ (hi + 1 - lo)

/-- Replace the entry at a list position. -/
def listSet {α : Type} : List α → Nat → α → List α
  | [], _, _ => []
  | _ :: t, 0, v => v :: t
  | h :: t, n + 1, v => h :: listSet t n v

end Sys2Proof
end

