-- ==== Sys2Proof/Syntax.lean ====
section
/-! DEFINITION. The syntax of every step of the part: the 144 slot operations and the empty bundle (R97, R51),
the packets (R255), and the host actions and device events of the operations table. Register numbers and
codes are decoded here, so the machine never sees a raw encoding. -/

namespace Sys2Proof

/-- Register cluster A or B (R82, R85). -/
inductive Cluster where | A | B
  deriving DecidableEq, Repr

/-- Width W of shape SA (R77, R79). -/
inductive SWidth where | w64 | s32 | n32
  deriving DecidableEq, Repr

/-- Condition codes 0 to 12 (R80). -/
inductive Cond where | eq | ne | lt | le | gt | ge | ltu | leu | gtu | geu | any | none | all
  deriving DecidableEq, Repr

/-- Lane types (R95). -/
inductive Ty where | f32 | f16x2 | bf16x2 | s32 | n32 | s16x2 | n16x2 | s8x4 | n8x4
  deriving DecidableEq, Repr

/-- Tile element formats (R95). -/
inductive Fmt where | f32 | bf16 | f16 | e4m3 | e5m2 | s8 | n8 | fp4
  deriving DecidableEq, Repr

/-- Rounding modes (R95, R123). -/
inductive Rm where | rne | rtz | rup | rdn | rna | rsr
  deriving DecidableEq, Repr

/-- Scopes (R95, R220). -/
inductive Scope where | wave | core | convoy | die | device | system
  deriving DecidableEq, Repr

/-- Memory orders (R95). -/
inductive Order where | relaxed | acquire | release | acqRel
  deriving DecidableEq, Repr

/-- Access widths WID (R89). -/
inductive Wid where | b8 | b16 | b32 | b64 | b128
  deriving DecidableEq, Repr

/-- Cache hints (R89); they change no value (R340). -/
inductive Hint where | normal | evictFirst | keep | bypassL1
  deriving DecidableEq, Repr

/-- Address register class AC, the codes 00, 01 and 10 (R89). -/
inductive ACls where | perA | perB | unif
  deriving DecidableEq, Repr

/-- Data register class DC, the codes 00, 01 and 10 (R89). -/
inductive DCls where | A | B | s
  deriving DecidableEq, Repr

/-- VCMP conditions SUB 0 to 7 (R84). -/
inductive VCond where | eq | ne | lt | le | gt | ge | uo | ord
  deriving DecidableEq, Repr

/-- LRED and LSCAN operation codes 0 to 10 (R88). -/
inductive RedOp where | addI | addF | minS | maxS | minN | maxN | minF | maxF | band | bor | bxor
  deriving DecidableEq, Repr

/-- MATOM codes 0 to 9 (R92). -/
inductive AtomOp where | swap | add | band | bor | bxor | smin | smax | umin | umax | fadd
  deriving DecidableEq, Repr

/-- LSHUF.pat kinds (R86). -/
inductive PatKind where | xor | rotUp | rotDn | rev
  deriving DecidableEq, Repr

/-- Milestone context of a T operation: MS 00, 10, 11 (R93). -/
inductive TMs where | none | ms4 | ms5
  deriving DecidableEq, Repr

/-- Hadamard size of TQUANT (R94). -/
inductive Had where | none | h16 | h32
  deriving DecidableEq, Repr

/-- An S immediate: IMM12, or the stream immediate (R81). -/
inductive SImm where | inWord (v : BitVec 12) | stream
  deriving DecidableEq, Repr

/-- A V immediate: IMM12, or the 4-byte stream immediate (R83). -/
inductive VImm where | inWord (v : BitVec 12) | stream
  deriving DecidableEq, Repr

/-- An M displacement: DISP16, or the stream immediate (R91). -/
inductive MDisp where | inWord (v : BitVec 16) | stream
  deriving DecidableEq, Repr

/-- The register-or-IMM16 operand of shape SC: A = 63 selects IMM16 (R77). -/
inductive ScOp where | reg (a : BitVec 6) | imm (v : BitVec 16)
  deriving DecidableEq, Repr

/-! ### S slot -/

/-- Register forms of shape SA (R78). -/
structure SaReg where
  d : BitVec 6
  a : BitVec 6
  b : BitVec 6
  w : SWidth
  deriving DecidableEq, Repr

/-- Immediate forms of shape SA (R78). -/
structure SaImm where
  d : BitVec 6
  a : BitVec 6
  imm : SImm
  w : SWidth
  deriving DecidableEq, Repr

/-- SMIN and SMAX with MOD[0] (R78). -/
structure SaMinReg where
  r : SaReg
  uns : Bool
  deriving DecidableEq, Repr

structure SaMinImm where
  r : SaImm
  uns : Bool
  deriving DecidableEq, Repr

/-- SSET with its condition (R78, R362). -/
structure SsetReg where
  r : SaReg
  cc : Cond
  deriving DecidableEq, Repr

structure SsetImm where
  r : SaImm
  cc : Cond
  deriving DecidableEq, Repr

/-- SSEL (R361): c is the condition register in MOD. -/
structure SselF where
  r : SaReg
  cc : Cond
  c : BitVec 6
  deriving DecidableEq, Repr

structure SliF where
  d : BitVec 6
  imm : SImm
  deriving DecidableEq, Repr

structure SrdF where
  d : BitVec 6
  num : BitVec 8
  deriving DecidableEq, Repr

structure SwrF where
  a : BitVec 6
  num : BitVec 8
  deriving DecidableEq, Repr

structure FelrdF where
  d : BitVec 6
  clr : Bool
  deriving DecidableEq, Repr

/-- BRC (R313): a register compare (codes 0 to 9) or a mask test (codes 10 to 12). -/
structure BrcF where
  cc : Cond
  a : BitVec 6
  k : BitVec 4
  disp : BitVec 24
  deriving DecidableEq, Repr

/-- CALL and LOOP (R315, R333). -/
structure LinkF where
  a : BitVec 6
  disp : BitVec 24
  deriving DecidableEq, Repr

/-- BAR (R310): membership slot and mode. -/
structure BarF where
  cv : BitVec 2
  arriveOnly : Bool
  deriving DecidableEq, Repr

/-- FENCE (R322). -/
structure FenceF where
  scope : Scope
  ord : Order
  full : Bool
  deriving DecidableEq, Repr

/-- PHASE modes 1, 2 and 3 (R355). -/
inductive PhaseMode where | pub | ref | full
  deriving DecidableEq, Repr

/-- MWAIT, GWAIT and GOPEN (R353, R324, R323). -/
structure ScWait where
  idx : BitVec 6
  op : ScOp
  deriving DecidableEq, Repr

/-- INVPG (R325): class of one page, or the whole ASID. -/
structure InvpgF where
  a : BitVec 6
  cls : BitVec 3
  whole : Bool
  deriving DecidableEq, Repr

/-! ### V slot -/

/-- Common V fields (R82). The cluster is the slot: V0 is A, V1 is B. -/
structure VHdr where
  cl : Cluster
  k : BitVec 4
  d : BitVec 6
  a : BitVec 6
  deriving DecidableEq, Repr

/-- The modifiers of floating operations and SAT (R84). -/
structure VMod where
  rm : Rm
  na : Bool
  nb : Bool
  ab : Bool
  sat : Bool
  deriving DecidableEq, Repr

/-- VADD, VSUB, VMUL, VMIN, VMAX: register form. -/
structure VArith where
  h : VHdr
  b : BitVec 6
  ty : Ty
  m : VMod
  deriving DecidableEq, Repr

/-- Their immediate form. -/
structure VArithI where
  h : VHdr
  imm : VImm
  ty : Ty
  m : VMod
  deriving DecidableEq, Repr

structure VFmaF where
  h : VHdr
  b : BitVec 6
  c : BitVec 6
  ty : Ty
  m : VMod
  deriving DecidableEq, Repr

/-- VCMP: h.d[3:0] is the mask destination. -/
structure VCmpF where
  h : VHdr
  b : BitVec 6
  ty : Ty
  cond : VCond
  m : VMod
  deriving DecidableEq, Repr

structure VCmpI where
  h : VHdr
  imm : VImm
  ty : Ty
  cond : VCond
  m : VMod
  deriving DecidableEq, Repr

structure VSelF where
  h : VHdr
  b : BitVec 6
  sel : BitVec 4
  deriving DecidableEq, Repr

structure VSelI where
  h : VHdr
  imm : VImm
  sel : BitVec 3
  deriving DecidableEq, Repr

/-- VAND, VOR, VXOR (raw lanes). -/
structure VBitF where
  h : VHdr
  b : BitVec 6
  deriving DecidableEq, Repr

structure VBitI where
  h : VHdr
  imm : VImm
  deriving DecidableEq, Repr

/-- Shifts and VMULH: a type and a second register. -/
structure VTyF where
  h : VHdr
  b : BitVec 6
  ty : Ty
  deriving DecidableEq, Repr

structure VTyI where
  h : VHdr
  imm : VImm
  ty : Ty
  deriving DecidableEq, Repr

/-- VPOP, VCLZ. -/
structure VUn where
  h : VHdr
  ty : Ty
  deriving DecidableEq, Repr

structure VRndF where
  h : VHdr
  ty : Ty
  rm : Rm
  deriving DecidableEq, Repr

structure VCvtF where
  h : VHdr
  dst : Ty
  src : Ty
  rm : Rm
  sat : Bool
  deriving DecidableEq, Repr

/-- VIDX and the immediate VMOV read no register A. -/
structure VDst where
  cl : Cluster
  k : BitVec 4
  d : BitVec 6
  deriving DecidableEq, Repr

structure VMovI where
  h : VDst
  imm : VImm
  deriving DecidableEq, Repr

/-! ### F and L slots -/

/-- F-slot fields (R85). -/
structure FOp where
  ab : Bool
  na : Bool
  k : BitVec 4
  ac : Cluster
  a : BitVec 6
  dc : Cluster
  d : BitVec 6
  deriving DecidableEq, Repr

/-- KAND, KOR, KXOR, KANDN (R87). -/
structure KOp where
  kd : BitVec 4
  ka : BitVec 4
  kb : BitVec 4
  deriving DecidableEq, Repr

structure KsetS where
  kd : BitVec 4
  a : BitVec 6
  deriving DecidableEq, Repr

structure KpopF where
  d : BitVec 6
  ka : BitVec 4
  deriving DecidableEq, Repr

structure KfirstF where
  kd : BitVec 4
  ka : BitVec 4
  deriving DecidableEq, Repr

/-- Lane operations: source and destination cluster from DIR, execution mask (R86). -/
structure LHdr where
  sc : Cluster
  dc : Cluster
  k : BitVec 4
  d : BitVec 6
  a : BitVec 6
  deriving DecidableEq, Repr

structure LshufF where
  h : LHdr
  b : BitVec 6
  deriving DecidableEq, Repr

structure LpatF where
  h : LHdr
  kind : PatKind
  n : BitVec 5
  deriving DecidableEq, Repr

structure LbcastF where
  h : LHdr
  lane : BitVec 5
  deriving DecidableEq, Repr

structure LredF where
  h : LHdr
  op : RedOp
  deriving DecidableEq, Repr

structure LscanF where
  h : LHdr
  op : RedOp
  excl : Bool
  deriving DecidableEq, Repr

structure LgetF where
  d : BitVec 6
  sc : Cluster
  a : BitVec 6
  lane : BitVec 5
  deriving DecidableEq, Repr

structure LputF where
  dc : Cluster
  d : BitVec 6
  a : BitVec 6
  lane : BitVec 5
  deriving DecidableEq, Repr

/-! ### M slot -/

/-- Fields every M operation may carry (R89, R90). -/
structure MHdr where
  k : BitVec 4
  hint : Hint
  seg : BitVec 6
  disp : MDisp
  deriving DecidableEq, Repr

/-- MLD and MST: per-lane data. -/
structure MAcc where
  h : MHdr
  dc : Cluster
  d : BitVec 6
  ac : ACls
  a : BitVec 6
  wid : Wid
  scope : Scope
  ord : Order
  deriving DecidableEq, Repr

/-- The strided forms: AC is uniform. -/
structure MStr where
  h : MHdr
  dc : Cluster
  d : BitVec 6
  a : BitVec 6
  wid : Wid
  scope : Scope
  ord : Order
  deriving DecidableEq, Repr

/-- Local (scratchpad) forms. -/
structure MLoc where
  k : BitVec 4
  hint : Hint
  disp : MDisp
  dc : Cluster
  d : BitVec 6
  ac : ACls
  a : BitVec 6
  wid : Wid
  deriving DecidableEq, Repr

structure MLocStr where
  k : BitVec 4
  hint : Hint
  disp : MDisp
  dc : Cluster
  d : BitVec 6
  a : BitVec 6
  wid : Wid
  deriving DecidableEq, Repr

/-- MLDU and MSTU. -/
structure MUni where
  h : MHdr
  d : BitVec 6
  a : BitVec 6
  wid : Wid
  scope : Scope
  ord : Order
  deriving DecidableEq, Repr

structure MAtomF where
  k : BitVec 4
  hint : Hint
  seg : BitVec 6
  disp : BitVec 16
  dc : DCls
  d : BitVec 6
  ac : ACls
  a : BitVec 6
  wide : Bool
  scope : Scope
  ord : Order
  op : AtomOp
  ret : Bool
  deriving DecidableEq, Repr

structure MCasF where
  k : BitVec 4
  hint : Hint
  seg : BitVec 6
  disp : BitVec 16
  dc : DCls
  d : BitVec 6
  ac : ACls
  a : BitVec 6
  wide : Bool
  scope : Scope
  ord : Order
  deriving DecidableEq, Repr

structure MWatchF where
  h : MHdr
  d : BitVec 6
  a : BitVec 6
  wide : Bool
  scope : Scope
  acq : Bool
  deriving DecidableEq, Repr

structure MPrefF where
  h : MHdr
  ac : ACls
  a : BitVec 6
  deriving DecidableEq, Repr

/-- MFLUSH actions SUB 0 to 2 (R347). -/
inductive FlushOp where | wb | inv | wbinv
  deriving DecidableEq, Repr

structure MFlushF where
  h : MHdr
  ac : ACls
  a : BitVec 6
  op : FlushOp
  deriving DecidableEq, Repr

structure MCopyF where
  h : MHdr
  d : BitVec 6
  a : BitVec 6
  ctx : BitVec 2
  out : Bool
  slot : Bool
  deriving DecidableEq, Repr

structure MGatherF where
  h : MHdr
  d : BitVec 6
  a : BitVec 6
  ctx : BitVec 2
  deriving DecidableEq, Repr

structure MCastF where
  h : MHdr
  d : BitVec 6
  a : BitVec 6
  ctx : BitVec 2
  targets : BitVec 4
  deriving DecidableEq, Repr

/-- MSPUSH and MSPOP; ep is the endpoint's number within its direction, ms7 selects the context. -/
structure MStream where
  k : BitVec 4
  hint : Hint
  d : BitVec 6
  a : BitVec 6
  ep : BitVec 2
  ms7 : Bool
  deriving DecidableEq, Repr

structure MSfreeF where
  k : BitVec 4
  hint : Hint
  d : BitVec 6
  ep : BitVec 2
  ms7 : Bool
  deriving DecidableEq, Repr

/-! ### T slot -/

structure TClaimF where
  k : BitVec 4
  oa : BitVec 5
  n : BitVec 4
  deriving DecidableEq, Repr

/-- Where a tile access has its data: an operand slot or an accumulator (R370). -/
inductive TData where | slot (oa : BitVec 5) | acc (c : BitVec 4)
  deriving DecidableEq, Repr

/-- TLOAD and TSTORE (R370): loc selects the scratchpad; imm says that the stream immediate is added. -/
structure TMem where
  k : BitVec 4
  ms : TMs
  a : BitVec 6
  seg : BitVec 6
  kc : Bool
  fmt : Fmt
  data : TData
  loc : Bool
  scope : Scope
  imm : Bool
  deriving DecidableEq, Repr

/-- TZERO of an accumulator or a partial. -/
inductive TZTarget where | acc (c : BitVec 4) | part (p : BitVec 3)
  deriving DecidableEq, Repr

structure TZeroF where
  k : BitVec 4
  t : TZTarget
  deriving DecidableEq, Repr

structure TMmaF where
  k : BitVec 4
  ms : TMs
  n : BitVec 4
  kca : Bool
  kcb : Bool
  fmt : Fmt
  ob : BitVec 5
  oa : BitVec 5
  c : BitVec 4
  deriving DecidableEq, Repr

structure TBmmF where
  k : BitVec 4
  ms : TMs
  kca : Bool
  kcb : Bool
  p : BitVec 3
  ob : BitVec 5
  oa : BitVec 5
  deriving DecidableEq, Repr

structure TScacF where
  k : BitVec 4
  ms : TMs
  p : BitVec 3
  ob : BitVec 5
  oa : BitVec 5
  c : BitVec 4
  deriving DecidableEq, Repr

/-- TQUANT's slot form and memory form (R375). -/
inductive TQDest where | slot (oa : BitVec 5) | mem (seg : BitVec 6) (imm : Bool)
  deriving DecidableEq, Repr

structure TQuantF where
  k : BitVec 4
  ms : TMs
  a : BitVec 6
  kc : Bool
  had : Had
  c : BitVec 4
  dest : TQDest
  deriving DecidableEq, Repr

structure TCvtF where
  k : BitVec 4
  ms : TMs
  kc : Bool
  fmt : Fmt
  sat : Bool
  oa : BitVec 5
  c : BitVec 4
  deriving DecidableEq, Repr

structure TMovvF where
  k : BitVec 4
  n : BitVec 4
  a : BitVec 6
  c : BitVec 4
  cl : Cluster
  toAcc : Bool
  row4 : BitVec 3
  deriving DecidableEq, Repr

structure TStatF where
  k : BitVec 4
  a : BitVec 6
  oa : BitVec 5
  deriving DecidableEq, Repr

structure TMmaoF where
  k : BitVec 4
  ms : TMs
  kca : Bool
  kcb : Bool
  ob : BitVec 5
  oa : BitVec 5
  c : BitVec 4
  deriving DecidableEq, Repr

structure TLdoF where
  k : BitVec 4
  ms : TMs
  a : BitVec 6
  seg : BitVec 6
  oa : BitVec 5
  imm : Bool
  deriving DecidableEq, Repr

/-! ### Host actions and events -/

/-- A queue: virtual function and queue number (R246). -/
structure QId where
  vf : BitVec 4
  q : BitVec 6
  deriving DecidableEq, Repr

/-- A host register write: the function that sees the block (none is the physical function), the capability
that locates it, the offset within the block, and the 64 bits written (R9, R264). -/
structure RegW where
  vf : Option (BitVec 4)
  cap : BitVec 16
  off : Nat
  val : DWord
  deriving DecidableEq, Repr

/-- A CXL.mem access of the host to far memory (R298). -/
structure HostAcc where
  addr : Nat
  len : Nat
  data : List Byte
  write : Bool
  deriving DecidableEq, Repr

/-- One sensor sample of a stage die (R296): current sensors count amperes and thermal sensors degrees, both
in tenths; `near` is the sum and number of its valid neighbours. -/
structure Sample where
  die : BitVec 3
  current : Bool
  sensor : BitVec 5
  value : Int
  deriving DecidableEq, Repr

/-- Every step of the operations table, one constructor a row. -/
inductive Instr where
  | sadd (f : SaReg)
  | ssub (f : SaReg)
  | smul (f : SaReg)
  | smulh (f : SaReg)
  | sand (f : SaReg)
  | sor (f : SaReg)
  | sxor (f : SaReg)
  | sshl (f : SaReg)
  | sshr (f : SaReg)
  | ssar (f : SaReg)
  | smin (f : SaMinReg)
  | smax (f : SaMinReg)
  | sset (f : SsetReg)
  | ssel (f : SselF)
  | srd (f : SrdF)
  | saddI (f : SaImm)
  | ssubI (f : SaImm)
  | smulI (f : SaImm)
  | sandI (f : SaImm)
  | sorI (f : SaImm)
  | sxorI (f : SaImm)
  | sshlI (f : SaImm)
  | sshrI (f : SaImm)
  | ssarI (f : SaImm)
  | sminI (f : SaMinImm)
  | smaxI (f : SaMinImm)
  | ssetI (f : SsetImm)
  | sli (f : SliF)
  | swr (f : SwrF)
  | br (disp : BitVec 24)
  | brc (f : BrcF)
  | brx (a : BitVec 6)
  | call (f : LinkF)
  | ret (a : BitVec 6)
  | loop (f : LinkF)
  | exit (k : BitVec 4)
  | yield
  | trap (code : BitVec 8)
  | bkpt (code : BitVec 8)
  | svc (code : BitVec 8)
  | eret
  | bar (f : BarF)
  | fence (f : FenceF)
  | phase (f : PhaseMode)
  | mwait (f : ScWait)
  | gwait (f : ScWait)
  | gopen (f : ScWait)
  | felrd (f : FelrdF)
  | replay (f : ScOp)
  | invpg (f : InvpgF)
  | vadd (f : VArith)
  | vsub (f : VArith)
  | vmul (f : VArith)
  | vfma (f : VFmaF)
  | vmin (f : VArith)
  | vmax (f : VArith)
  | vcmp (f : VCmpF)
  | vsel (f : VSelF)
  | vand (f : VBitF)
  | vor (f : VBitF)
  | vxor (f : VBitF)
  | vshl (f : VTyF)
  | vshr (f : VTyF)
  | vsar (f : VTyF)
  | vmov (f : VHdr)
  | vpop (f : VUn)
  | vclz (f : VUn)
  | vcvt (f : VCvtF)
  | vmulh (f : VTyF)
  | vrnd (f : VRndF)
  | vidx (f : VDst)
  | vaddI (f : VArithI)
  | vsubI (f : VArithI)
  | vmulI (f : VArithI)
  | vfmaI (f : VArithI)
  | vminI (f : VArithI)
  | vmaxI (f : VArithI)
  | vcmpI (f : VCmpI)
  | vselI (f : VSelI)
  | vandI (f : VBitI)
  | vorI (f : VBitI)
  | vxorI (f : VBitI)
  | vshlI (f : VTyI)
  | vshrI (f : VTyI)
  | vsarI (f : VTyI)
  | vmovI (f : VMovI)
  | fdiv (f : FOp)
  | fsqrt (f : FOp)
  | frcp (f : FOp)
  | frsq (f : FOp)
  | fexp2 (f : FOp)
  | flog2 (f : FOp)
  | ftanh (f : FOp)
  | kand (f : KOp)
  | kor (f : KOp)
  | kxor (f : KOp)
  | kandn (f : KOp)
  | kset (k : BitVec 4)
  | ksetSreg (f : KsetS)
  | kpop (f : KpopF)
  | kfirst (f : KfirstF)
  | lmov (f : LHdr)
  | lshuf (f : LshufF)
  | lshufPat (f : LpatF)
  | lbcast (f : LbcastF)
  | lred (f : LredF)
  | lscan (f : LscanF)
  | lget (f : LgetF)
  | lput (f : LputF)
  | mld (f : MAcc)
  | mldStride (f : MStr)
  | mst (f : MAcc)
  | mstStride (f : MStr)
  | mldl (f : MLoc)
  | mldlStride (f : MLocStr)
  | mstl (f : MLoc)
  | mstlStride (f : MLocStr)
  | mldu (f : MUni)
  | mstu (f : MUni)
  | matom (f : MAtomF)
  | mcas (f : MCasF)
  | mwatch (f : MWatchF)
  | mpref (f : MPrefF)
  | mflush (f : MFlushF)
  | mcopy (f : MCopyF)
  | mgather (f : MGatherF)
  | mcast (f : MCastF)
  | mspush (f : MStream)
  | mspop (f : MStream)
  | msfree (f : MSfreeF)
  | tclaim (f : TClaimF)
  | trel (f : TClaimF)
  | tload (f : TMem)
  | tstore (f : TMem)
  | tzero (f : TZeroF)
  | tmma (f : TMmaF)
  | tbmm (f : TBmmF)
  | tscac (f : TScacF)
  | tquant (f : TQuantF)
  | tcvt (f : TCvtF)
  | tmovv (f : TMovvF)
  | tstat (f : TStatF)
  | tmmao (f : TMmaoF)
  | tldo (f : TLdoF)
  | emptyBundle
  | deviceReset
  | functionLevelReset (v : BitVec 4)
  | stageDieReset (die : BitVec 3)
  | firmwarePush (len : BitVec 31)
  | registerImageKey
  | newDebugChallenge
  | debugUnlock
  | checkpoint
  | restoreFromCheckpoint
  | decommission
  | unknownCommand (op : BitVec 8)
  | spdmMeasurements (nonce : BitVec 256)
  | getCertificate
  | hostMemAccess (a : HostAcc)
  | biasTableWrite (n : BitVec 4) (val : DWord)
  | queueEnable (q : QId) (val : DWord)
  | queueDisable (q : QId)
  | qtailDoorbell (q : QId) (tail : Word)
  | queueReset (q : QId)
  | handlerTableEnable (v : BitVec 4) (val : DWord)
  | debugHaltRequest (val : DWord)
  | debugResume (val : DWord)
  | sliceLimitClear (die : BitVec 3) (mask : BitVec 3)
  | fwinWrite (die : BitVec 3) (val : DWord)
  | sensorRevalidate (die : BitVec 3) (val : DWord)
  | clbudWrite (die : BitVec 3) (val : DWord)
  | tollBucketEnable (die : BitVec 3) (v : BitVec 4) (far : Bool) (val : DWord)
  | oppwinWrite (die : BitVec 3) (v : BitVec 4) (lo : BitVec 3) (hi : BitVec 3)
  | registerWrite (w : RegW)
  | launch (q : QId)
  | route (q : QId)
  | mark (q : QId)
  | waitmark (q : QId)
  | waitmarkPoll (q : QId)
  | gatecfg (q : QId)
  | timestamp (q : QId)
  | energy (q : QId)
  | hostcopy (q : QId)
  | nopkt (q : QId)
  | gateRaise (lid : Nat)
  | partyPlace (lid : Nat)
  | waveRelease (wid : Nat)
  | tokenFetch (wid : Nat)
  | ostlerRefill (core : Nat)
  | exposedResultLand (wid : Nat)
  | loadReturn (id : Nat)
  | pageWalk (id : Nat) (va : Nat)
  | storeTranslate (id : Nat)
  | storeCommit (id : Nat)
  | publicationComplete (core : Nat)
  | releaseApply (id : Nat)
  | convoyPhaseComplete (cv : Nat)
  | milestoneAdvance (party : Nat) (ctx : BitVec 3)
  | gateWaitWake (wid : Nat)
  | mwatchWake (wid : Nat)
  | mwatchTimeout (wid : Nat)
  | handlerEntry (wid : Nat)
  | copyComplete (id : Nat)
  | mcastLanding (id : Nat) (pos : BitVec 2)
  | streamPushComplete (ep : Nat)
  | mspopAcquire (wid : Nat)
  | overflowLodging (ep : Nat)
  | cyclicWait (route : Nat)
  | tollRefill (die : BitVec 3) (v : BitVec 4)
  | tileFillComplete (core : Nat) (id : Nat)
  | tileDrainComplete (core : Nat) (id : Nat)
  | tileOpRetire (core : Nat)
  | preemptRequest (lid : Nat)
  | safePointStop (wid : Nat)
  | bodySave (lid : Nat)
  | bodyResume (lid : Nat) (die : BitVec 3)
  | watchdogExpiry (wid : Nat)
  | sliceEnd (die : BitVec 3)
  | waveHalt (wid : Nat)
  | waveRetire (wid : Nat)
  | launchComplete (lid : Nat)
  | yieldMarkExpiry (wid : Nat)
  | powerExempt (wid : Nat)
  | oppPhaseEnd (core : Nat)
  | oppTransitionEnd (core : Nat)
  | allowStep (core : Nat)
  | rampStep (core : Nat)
  | arrayFillDown (core : Nat)
  | capMeasurement (pwr : Nat)
  | droopAlarm (cluster : Nat)
  | droopStretchEnd (cluster : Nat)
  | droopHalvingEnd (cluster : Nat)
  | sliceRailLoop (core : Nat) (slice : BitVec 2)
  | sensorSample (x : Sample)
  | counterSample
  | eccErrorNoConsumer (loc : Nat)
  | allowanceGain (cluster : Nat)
  | l1DirtyEviction (id : Nat)
  | ideKmKeySet (key : BitVec 256)
  deriving DecidableEq, Repr

end Sys2Proof
end

