-- ==== Sys2Proof/WellFormed.lean ====
section
/-! DEFINITION. Which instructions the encoding tables admit (R75 to R97 and the entries R308 to R396): the limits that a
constructor's types do not already express. Events and packets name no register, so each of them is well formed. -/

namespace Sys2Proof

/-- Floating lane types (R116). -/
def Ty.isFloat (t : Ty) : Bool :=
  match t with
  | .f32 => true
  | .f16x2 => true
  | .bf16x2 => true
  | _ => false

/-- Condition codes that SSET and SSEL accept (R78, R80). -/
def Cond.isCompare (c : Cond) : Bool :=
  match c with
  | .any => false
  | .none => false
  | .all => false
  | _ => true

/-- A plain access has scope wave, core or convoy (R91). -/
def Scope.isPlain (s : Scope) : Bool :=
  match s with
  | .wave => true
  | .core => true
  | .convoy => true
  | _ => false

/-- The count N: 0 means 1 (R93). -/
def tcount (n : BitVec 4) : Nat := if n = 0 then 1 else n.toNat

/-- Register operands of shape SC: s63 cannot serve (R77). -/
def ScOp.wf (o : ScOp) : Bool :=
  match o with
  | .reg a => a != 63
  | .imm _ => true

/-- No negation and no absolute value. -/
def VMod.noSign (m : VMod) : Bool := !m.na && !m.nb && !m.ab

/-- VADD, VSUB, VMUL (R383). -/
def VMod.wfArith (m : VMod) (t : Ty) : Bool :=
  if t.isFloat then !m.sat else m.rm == .rne && m.noSign

/-- VMIN, VMAX, VCMP (R386, R390). -/
def VMod.wfCompare (m : VMod) (t : Ty) : Bool :=
  m.rm == .rne && !m.sat && (t.isFloat || m.noSign)

/-- VFMA (R388). -/
def VMod.wfFma (m : VMod) (t : Ty) : Bool := t.isFloat && !m.sat

/-- VCMP conditions 6 and 7 need a floating type, and the destination is k1 to k15 (R386). -/
def vcmpOk (d : BitVec 6) (t : Ty) (c : VCond) : Bool :=
  d != 0 && d.toNat < 16 && (t.isFloat || !(c == .uo || c == .ord))

/-- The index rule of pairs and quads (R76, check 11 of R57). -/
def Wid.regOk (w : Wid) (d : BitVec 6) : Bool :=
  match w with
  | .b64 => d.toNat % 2 == 0
  | .b128 => d.toNat % 4 == 0
  | _ => true

/-- An order other than relaxed needs a strong scope; a load may acquire (R90, R91). -/
def loadOrd (s : Scope) (o : Order) : Bool :=
  o == .relaxed || (o == .acquire && !s.isPlain)

/-- A store may release (R90, R91). -/
def storeOrd (s : Scope) (o : Order) : Bool :=
  o == .relaxed || (o == .release && !s.isPlain)

/-- Uniform data has at most 64 bits (R90). -/
def Wid.uniOk (w : Wid) : Bool := w != .b128

/-- MATOM's and MCAS's uniform data has a uniform address (R343, R344). -/
def atomCls (dc : DCls) (ac : ACls) : Bool := dc != .s || ac == .unif

/-- TLOAD and TSTORE (R370). -/
def TMem.wf (f : TMem) : Bool :=
  (match f.data with
   | .slot _ => f.fmt != .f32
   | .acc _ => f.fmt == .f32) &&
  (!f.loc || (f.seg == 0 && f.scope == .wave)) &&
  (f.a.toNat ≤ (if f.fmt = .fp4 then 61 else 62))

/-- TMMA's element formats (R372). -/
def Fmt.isTmma (f : Fmt) : Bool := f != .f32 && f != .fp4

/-- TCVT's formats, and the accumulators it starts at (R368). -/
def TCvtF.wf (f : TCvtF) : Bool :=
  match f.fmt with
  | .bf16 => f.c.toNat % 2 == 0
  | .f16 => f.c.toNat % 2 == 0
  | .e4m3 => f.c.toNat % 4 == 0
  | .e5m2 => f.c.toNat % 4 == 0
  | _ => false

/-- Special registers of SRD (R96). -/
def srdNum (n : BitVec 8) : Bool :=
  let v := n.toNat
  v ≤ 0x12 || (0x18 ≤ v && v ≤ 0x1C) || (0x20 ≤ v && v ≤ 0x28) || (0x30 ≤ v && v ≤ 0x35)

/-- Special registers of SWR (R96, R364). -/
def swrNum (n : BitVec 8) : Bool :=
  let v := n.toNat
  v == 0x19 || v == 0x1B || v == 0x1C || v == 0x28

/-- What the encoding tables admit. -/
def Instr.wf (i : Instr) : Bool :=
  match i with
  | .sset f => f.cc.isCompare
  | .ssetI f => f.cc.isCompare
  | .ssel f => f.cc.isCompare
  | .srd f => srdNum f.num
  | .swr f => swrNum f.num
  | .brc f => if f.cc.isCompare then f.k == 0 else f.a == 0
  | .fence f => f.ord != .relaxed && (!f.full || (f.ord == .acqRel && !f.scope.isPlain))
  | .mwait f => f.op.wf && f.idx.toNat ≤ 7
  | .gwait f => f.op.wf
  | .gopen f => f.op.wf
  | .replay o =>
    match o with
    | .reg a => a != 63
    | .imm v => v.toNat ≤ 63
  | .invpg f => f.a != 63 && f.cls.toNat ≤ 5 && (!f.whole || f.cls == 0)
  | .vadd f => f.m.wfArith f.ty
  | .vsub f => f.m.wfArith f.ty
  | .vmul f => f.m.wfArith f.ty
  | .vaddI f => f.m.wfArith f.ty
  | .vsubI f => f.m.wfArith f.ty
  | .vmulI f => f.m.wfArith f.ty
  | .vmin f => f.m.wfCompare f.ty
  | .vmax f => f.m.wfCompare f.ty
  | .vminI f => f.m.wfCompare f.ty
  | .vmaxI f => f.m.wfCompare f.ty
  | .vfma f => f.m.wfFma f.ty
  | .vfmaI f => f.m.wfFma f.ty
  | .vcmp f => f.m.wfCompare f.ty && vcmpOk f.h.d f.ty f.cond
  | .vcmpI f => f.m.wfCompare f.ty && vcmpOk f.h.d f.ty f.cond
  | .vshl f => !f.ty.isFloat
  | .vshr f => !f.ty.isFloat
  | .vsar f => !f.ty.isFloat
  | .vshlI f => !f.ty.isFloat
  | .vshrI f => !f.ty.isFloat
  | .vsarI f => !f.ty.isFloat
  | .vpop f => !f.ty.isFloat
  | .vclz f => !f.ty.isFloat
  | .vmulh f => f.ty == .s32 || f.ty == .n32 || f.ty == .s16x2 || f.ty == .n16x2
  | .vrnd f => f.ty.isFloat
  | .fdiv f => f.a.toNat % 2 == 0
  | .kand f => f.kd != 0
  | .kor f => f.kd != 0
  | .kxor f => f.kd != 0
  | .kandn f => f.kd != 0
  | .kset k => k != 0
  | .ksetSreg f => f.kd != 0
  | .kfirst f => f.kd != 0
  | .lshufPat f => !(f.kind == .rev) || f.n == 0
  | .mld f => loadOrd f.scope f.ord && f.wid.regOk f.d
  | .mldStride f => loadOrd f.scope f.ord && f.wid.regOk f.d && f.a.toNat ≤ 62
  | .mst f => storeOrd f.scope f.ord && f.wid.regOk f.d
  | .mstStride f => storeOrd f.scope f.ord && f.wid.regOk f.d && f.a.toNat ≤ 62
  | .mldl f => f.wid.regOk f.d
  | .mstl f => f.wid.regOk f.d
  | .mldlStride f => f.wid.regOk f.d && f.a.toNat ≤ 62
  | .mstlStride f => f.wid.regOk f.d && f.a.toNat ≤ 62
  | .mldu f => loadOrd f.scope f.ord && f.wid.uniOk
  | .mstu f => storeOrd f.scope f.ord && f.wid.uniOk
  | .matom f => !f.scope.isPlain && atomCls f.dc f.ac && (f.op != .fadd || !f.wide) &&
      (f.dc == .s || !f.wide || f.d.toNat % 2 == 0)
  | .mcas f => !f.scope.isPlain && atomCls f.dc f.ac && f.d.toNat % 2 == 0 && (f.dc == .s || !f.wide || f.d.toNat % 4 == 0)
  | .mwatch f => !f.scope.isPlain && f.d.toNat % 2 == 0
  | .mcopy f => f.a.toNat ≤ 61
  | .mgather f => f.a.toNat ≤ 60
  | .mcast f => f.a.toNat ≤ 60 && f.targets != 0
  | .mspush f => f.a.toNat ≤ 61
  | .mspop f => f.a.toNat ≤ 61
  | .tclaim f => f.oa.toNat + tcount f.n ≤ 32
  | .trel f => f.oa.toNat + tcount f.n ≤ 32
  | .tload f => f.wf
  | .tstore f => f.wf
  | .tmma f => f.fmt.isTmma && f.oa.toNat + tcount f.n ≤ 32 && f.ob.toNat + tcount f.n ≤ 32
  | .tquant f => f.c.toNat % 8 == 0 &&
      (match f.dest with | .slot _ => true | .mem _ _ => f.a.toNat ≤ 60)
  | .tcvt f => f.wf
  | .tmovv f => 4 * f.row4.toNat + tcount f.n ≤ 32 && f.a.toNat + tcount f.n ≤ 64
  | .tldo f => f.a.toNat ≤ 62
  | _ => true

end Sys2Proof
end

