-- ==== Sys2Proof/Machine/Num.lean ====
section
/-! DEFINITION. Number formats and exact arithmetic (R116 to R136): a pattern denotes an exact value, operations are exact
on those values, and one rounding makes a pattern again. Nothing here reads or writes the state. -/

namespace Sys2Proof.Machine

/-! ### Floating values (R120) -/

/-- What a pattern denotes: a NaN, an infinity, or the finite value (−1)^neg × m × 2^e (a zero keeps its sign). -/
inductive FVal where
  | nan
  | inf (neg : Bool)
  | fin (neg : Bool) (m : Nat) (e : Int)
  deriving DecidableEq, Repr

/-- A floating format: exponent and mantissa bits, bias, and whether the top exponent holds infinities (R120). -/
structure FFmt where
  eb : Nat
  mb : Nat
  bias : Int
  hasInf : Bool
  deriving DecidableEq, Repr

def f32F : FFmt := ⟨8, 23, 127, true⟩
def f16F : FFmt := ⟨5, 10, 15, true⟩
def bf16F : FFmt := ⟨8, 7, 127, true⟩
def e5m2F : FFmt := ⟨5, 2, 15, true⟩
def e4m3F : FFmt := ⟨4, 3, 7, false⟩

namespace FFmt

def width (f : FFmt) : Nat := 1 + f.eb + f.mb
/-- The biased exponent that only infinities and NaNs use, or e4m3's top binade. -/
def emax (f : FFmt) : Nat := 2 ^ f.eb - 1
/-- The largest finite magnitude as a pattern without sign. -/
def maxPat (f : FFmt) : Nat := if f.hasInf then (f.emax - 1) * 2 ^ f.mb + (2 ^ f.mb - 1) else f.emax * 2 ^ f.mb + (2 ^ f.mb - 2)
def infPat (f : FFmt) : Nat := f.emax * 2 ^ f.mb
/-- The canonical NaN (R120). -/
def nanPat (f : FFmt) : Nat := if f.hasInf then f.emax * 2 ^ f.mb + 2 ^ (f.mb - 1) else f.emax * 2 ^ f.mb + (2 ^ f.mb - 1)
def signBit (f : FFmt) (neg : Bool) : Nat := if neg then 2 ^ (f.eb + f.mb) else 0
/-- The exponent of the least normal value. -/
def emin (f : FFmt) : Int := 1 - f.bias

/-- The value of a pattern (R120). -/
def decode (f : FFmt) (w : Nat) : FVal :=
  let neg := w / 2 ^ (f.eb + f.mb) % 2 == 1
  let e := w / 2 ^ f.mb % 2 ^ f.eb
  let m := w % 2 ^ f.mb
  if f.hasInf && e == f.emax then (if m == 0 then .inf neg else .nan)
  else if !f.hasInf && e == f.emax && m == 2 ^ f.mb - 1 then .nan
  else if e == 0 then .fin neg m (f.emin - f.mb)
  else .fin neg (2 ^ f.mb + m) ((e : Int) - f.bias - f.mb)

end FFmt

/-- The kinds of event (R72). -/
inductive Ev where | invalid | divZero | overflow | underflow | saturated
  deriving DecidableEq, Repr

/-- A rounded pattern and the event it reports, if any. -/
structure Rounded where
  bits : Nat
  ev : Option Ev
  deriving DecidableEq, Repr

/-- n × 2^k for an integer k, as a fraction. -/
def scaleFrac (n d : Nat) (k : Int) : Nat × Nat :=
  if 0 ≤ k then (n * 2 ^ k.toNat, d) else (n, d * 2 ^ (-k).toNat)

/-- ⌊log₂ (n/d × 2^e)⌋ for positive n and d. -/
def fracLog (n d : Nat) (e : Int) : Int :=
  let k : Int := (Nat.log2 n : Int) - (Nat.log2 d : Int) + e
  let p := scaleFrac n d (e - k)
  if p.2 ≤ p.1 then k else k - 1

/-- Whether a magnitude q + r/d is moved up by the mode (R123, R127): v is the stochastic draw. -/
def roundUp (rm : Rm) (neg : Bool) (q r d : Nat) (v : Nat) : Bool :=
  match rm with
  | .rne => d < 2 * r || (2 * r == d && q % 2 == 1)
  | .rtz => false
  | .rup => !neg && r != 0
  | .rdn => neg && r != 0
  | .rna => d ≤ 2 * r
  | .rsr => 2 ^ 16 ≤ r * 2 ^ 16 / d + v

/-- What an overflowing value of sign neg becomes (R124); sat is TCVT's and gives the largest finite value. -/
def overflowed (f : FFmt) (rm : Rm) (sat neg : Bool) : Rounded :=
  let big := f.signBit neg + f.maxPat
  let toMax := match rm with | .rtz => true | .rup => neg | .rdn => !neg | _ => false
  if sat then ⟨big, some .saturated⟩
  else if toMax then ⟨big, some .overflow⟩
  else if f.hasInf then ⟨f.signBit neg + f.infPat, some .overflow⟩
  else ⟨f.nanPat, some .overflow⟩

/-- Round the exact value (−1)^neg × n/d × 2^e, n and d positive, to a format (R123 to R127). -/
def roundFrac (f : FFmt) (rm : Rm) (sat : Bool) (v : Nat) (neg : Bool) (n d : Nat) (e : Int) : Rounded :=
  let top := fracLog n d e
  let ex := if top < f.emin then f.emin else top
  let p := scaleFrac n d (e - (ex - f.mb))
  let q := p.1 / p.2
  let r := p.1 % p.2
  let q' := if roundUp rm neg q r p.2 v then q + 1 else q
  -- q' counts units of 2^(ex − mb); a carry moves to the next binade by itself
  let pat : Int := (ex - f.emin) * 2 ^ f.mb + q'
  if (f.maxPat : Int) < pat then overflowed f rm sat neg
  else ⟨f.signBit neg + pat.toNat, if top < f.emin ∧ r ≠ 0 then some .underflow else none⟩

/-- A zero of a sign. -/
def FFmt.zero (f : FFmt) (neg : Bool) : Rounded := ⟨f.signBit neg, none⟩

/-- Round any value. -/
def roundVal (f : FFmt) (rm : Rm) (sat : Bool) (v : Nat) (x : FVal) : Rounded :=
  match x with
  | .nan => ⟨f.nanPat, none⟩
  | .inf neg =>
    if f.hasInf then ⟨f.signBit neg + f.infPat, none⟩
    else if sat then ⟨f.signBit neg + f.maxPat, none⟩ else ⟨f.nanPat, none⟩
  | .fin neg 0 _ => f.zero neg
  | .fin neg (m + 1) e => roundFrac f rm sat v neg (m + 1) 1 e

/-! ### Exact operations with NaN rules (R121) -/

def FVal.neg (x : FVal) : FVal :=
  match x with
  | .nan => .nan
  | .inf n => .inf (!n)
  | .fin n m e => .fin (!n) m e

def FVal.abs (x : FVal) : FVal :=
  match x with
  | .nan => .nan
  | .inf _ => .inf false
  | .fin _ m e => .fin false m e

def FVal.isNan (x : FVal) : Bool := match x with | .nan => true | _ => false
def FVal.isZero (x : FVal) : Bool := match x with | .fin _ 0 _ => true | _ => false
def FVal.sign (x : FVal) : Bool := match x with | .nan => false | .inf n => n | .fin n _ _ => n

/-- A finite value as an integer multiple of 2^e', e' ≤ e. -/
def finInt (neg : Bool) (m : Nat) (e e' : Int) : Int :=
  let a : Int := m * 2 ^ (e - e').toNat
  if neg then -a else a

/-- The exact sum; none says invalid (∞ − ∞). rdn is the mode RDN, which makes an exact cancellation −0. -/
def FVal.add (rdn : Bool) (x y : FVal) : Option FVal :=
  match x, y with
  | .nan, _ => some .nan
  | _, .nan => some .nan
  | .inf a, .inf b => if a == b then some (.inf a) else none
  | .inf a, _ => some (.inf a)
  | _, .inf b => some (.inf b)
  | .fin na ma ea, .fin nb mb eb =>
    let e := if ea ≤ eb then ea else eb
    let t := finInt na ma ea e + finInt nb mb eb e
    if t = 0 then
      if ma = 0 ∧ mb = 0 ∧ na = nb then some (.fin na 0 0) else some (.fin rdn 0 0)
    else some (.fin (t < 0) t.natAbs e)

/-- The exact product; none says invalid (0 × ∞). -/
def FVal.mul (x y : FVal) : Option FVal :=
  match x, y with
  | .nan, _ => some .nan
  | _, .nan => some .nan
  | .inf a, y => if y.isZero then none else some (.inf (a != y.sign))
  | x, .inf b => if x.isZero then none else some (.inf (x.sign != b))
  | .fin na ma ea, .fin nb mb eb => some (.fin (na != nb) (ma * mb) (ea + eb))

/-- x < y on values that are not NaN; −0 equals +0. -/
def FVal.lt (x y : FVal) : Bool :=
  match x, y with
  | .nan, _ => false
  | _, .nan => false
  | .inf a, .inf b => a && !b
  | .inf a, _ => a
  | _, .inf b => !b
  | .fin na ma ea, .fin nb mb eb =>
    let e := if ea ≤ eb then ea else eb
    decide (finInt na ma ea e < finInt nb mb eb e)

/-- x = y on values that are not NaN. -/
def FVal.eqv (x y : FVal) : Bool := !x.isNan && !y.isNan && !x.lt y && !y.lt x

/-- The smaller of two values that are not NaN, −0 below +0 (R121). -/
def FVal.below (x y : FVal) : Bool := x.lt y || (x.eqv y && x.sign && !y.sign)

/-- VCMP's conditions on floating elements (R121). -/
def fcond (c : VCond) (x y : FVal) : Bool :=
  let u := x.isNan || y.isNan
  match c with
  | .eq => x.eqv y
  | .ne => u || !x.eqv y
  | .lt => x.lt y
  | .le => !u && !y.lt x
  | .gt => y.lt x
  | .ge => !u && !x.lt y
  | .uo => u
  | .ord => !u

/-- VCMP's conditions on integer elements. -/
def icond (c : VCond) (x y : Int) : Bool :=
  match c with
  | .eq => x == y
  | .ne => x != y
  | .lt => x < y
  | .le => x ≤ y
  | .gt => y < x
  | .ge => y ≤ x
  | .uo => false
  | .ord => true

/-- Round a result that may be invalid: the canonical NaN and its event (R121). -/
def roundOpt (f : FFmt) (rm : Rm) (v : Nat) (x : Option FVal) : Rounded :=
  match x with
  | none => ⟨f.nanPat, some .invalid⟩
  | some y => roundVal f rm false v y

/-- x + y rounded once. -/
def fAdd (f : FFmt) (rm : Rm) (v : Nat) (x y : FVal) : Rounded := roundOpt f rm v (x.add (rm == .rdn) y)

/-- x × y rounded once. -/
def fMul (f : FFmt) (rm : Rm) (v : Nat) (x y : FVal) : Rounded := roundOpt f rm v (x.mul y)

/-- x × y + z rounded once: 0 × ∞ is invalid whatever the addend (R388), and a NaN operand gives NaN. -/
def fFma (f : FFmt) (rm : Rm) (v : Nat) (x y z : FVal) : Rounded :=
  match x.mul y with
  | none => ⟨f.nanPat, some .invalid⟩
  | some p => roundOpt f rm v (p.add (rm == .rdn) z)

/-- VMIN on patterns: the chosen operand (R121, R390). -/
def fMin (f : FFmt) (x y : FVal) : Nat :=
  if x.isNan && y.isNan then f.nanPat
  else if x.isNan then (roundVal f .rne false 0 y).bits
  else if y.isNan then (roundVal f .rne false 0 x).bits
  else (roundVal f .rne false 0 (if y.below x then y else x)).bits

/-- VMAX on patterns. -/
def fMax (f : FFmt) (x y : FVal) : Nat :=
  if x.isNan && y.isNan then f.nanPat
  else if x.isNan then (roundVal f .rne false 0 y).bits
  else if y.isNan then (roundVal f .rne false 0 x).bits
  else (roundVal f .rne false 0 (if x.below y then y else x)).bits

/-- x / y rounded once by RNE (R319). -/
def fDiv (x y : FVal) : Rounded :=
  let f := f32F
  match x, y with
  | .nan, _ => ⟨f.nanPat, none⟩
  | _, .nan => ⟨f.nanPat, none⟩
  | .inf _, .inf _ => ⟨f.nanPat, some .invalid⟩
  | .inf a, y => ⟨f.signBit (a != y.sign) + f.infPat, none⟩
  | x, .inf b => f.zero (x.sign != b)
  | .fin na ma ea, .fin nb mb eb =>
    if mb = 0 then
      (if ma = 0 then ⟨f.nanPat, some .invalid⟩ else ⟨f.signBit (na != nb) + f.infPat, some .divZero⟩)
    else if ma = 0 then f.zero (na != nb)
    else roundFrac f .rne false 0 (na != nb) ma mb (ea - eb)

/-! ### Square roots -/

/-- ⌊√n⌋ by bisection from the top bit down: after k bits, `a` is ⌊√(n / 4^rest)⌋ × 2^rest. -/
def isqrtGo (n : Nat) : Nat → Nat → Nat
  | 0, a => a
  | k + 1, a => let t := a + 2 ^ k; isqrtGo n k (if t * t ≤ n then t else a)

def isqrt (n : Nat) : Nat := isqrtGo n (Nat.log2 n / 2 + 1) 0

/-- Round √(n/d × 2^e) by RNE: with s of e's parity, r = ⌊√(n × 2^s / d)⌋ has at least 88 bits, and a half unit stands for
what is dropped. -/
def roundSqrt (n d : Nat) (e : Int) : Rounded :=
  let s : Int := 200 + e % 2
  let num := n * 2 ^ s.toNat
  let q := num / d
  let r := isqrt q
  let exact := r * r == q && num % d == 0
  roundFrac f32F .rne false 0 false (if exact then 2 * r else 2 * r + 1) 1 ((e - s) / 2 - 1)

/-- FSQRT (R128). -/
def fSqrt (x : FVal) : Rounded :=
  match x with
  | .nan => ⟨f32F.nanPat, none⟩
  | .inf true => ⟨f32F.nanPat, some .invalid⟩
  | .inf false => ⟨f32F.infPat, none⟩
  | .fin n 0 _ => f32F.zero n
  | .fin true (_ + 1) _ => ⟨f32F.nanPat, some .invalid⟩
  | .fin false (m + 1) e => roundSqrt (m + 1) 1 e

/-- FRSQ (R128). -/
def fRsq (x : FVal) : Rounded :=
  match x with
  | .nan => ⟨f32F.nanPat, none⟩
  | .inf true => ⟨f32F.nanPat, some .invalid⟩
  | .inf false => f32F.zero false
  | .fin n 0 _ => ⟨f32F.signBit n + f32F.infPat, some .divZero⟩
  | .fin true (_ + 1) _ => ⟨f32F.nanPat, some .invalid⟩
  | .fin false (m + 1) e => roundSqrt 1 (m + 1) (-e)

/-- FRCP (R128). -/
def fRcp (x : FVal) : Rounded := fDiv (.fin false 1 0) x

/-! ### Integers -/

/-- Bits of an element of a lane type (R116). -/
def Ty.bits (t : Ty) : Nat :=
  match t with
  | .f32 => 32 | .s32 => 32 | .n32 => 32
  | .f16x2 => 16 | .bf16x2 => 16 | .s16x2 => 16 | .n16x2 => 16
  | .s8x4 => 8 | .n8x4 => 8

/-- Elements of a lane (R116). -/
def Ty.count (t : Ty) : Nat := 32 / Ty.bits t

/-- Signed integer types. -/
def Ty.signed (t : Ty) : Bool :=
  match t with
  | .s32 => true | .s16x2 => true | .s8x4 => true
  | _ => false

/-- The format of a floating type. -/
def Ty.fmt (t : Ty) : FFmt :=
  match t with
  | .f16x2 => f16F
  | .bf16x2 => bf16F
  | _ => f32F

/-- Element j of a lane (R116). -/
def elem (t : Ty) (w : Word) (j : Nat) : Nat := w.toNat / 2 ^ (Ty.bits t * j) % 2 ^ Ty.bits t

/-- A lane from its elements. -/
def pack (t : Ty) (es : List Nat) : Word :=
  BitVec.ofNat 32 (es.foldr (fun e a => e % 2 ^ Ty.bits t + 2 ^ Ty.bits t * a) 0)

/-- A w-bit pattern as a signed or unsigned integer. -/
def toInt (signed : Bool) (w v : Nat) : Int :=
  if signed && v / 2 ^ (w - 1) % 2 == 1 then (v : Int) - 2 ^ w else v

/-- An integer mod 2^w. -/
def wrapInt (w : Nat) (x : Int) : Nat := (x % 2 ^ w).toNat

def intMin (signed : Bool) (w : Nat) : Int := if signed then -(2 ^ (w - 1)) else 0
def intMax (signed : Bool) (w : Nat) : Int := if signed then 2 ^ (w - 1) - 1 else 2 ^ w - 1

/-- Clamp to a type's range, with the event (R117). -/
def satInt (signed : Bool) (w : Nat) (x : Int) : Rounded :=
  if x < intMin signed w then ⟨wrapInt w (intMin signed w), some .saturated⟩
  else if intMax signed w < x then ⟨wrapInt w (intMax signed w), some .saturated⟩
  else ⟨wrapInt w x, none⟩

/-- Round a finite value to an integer by a mode (R131, R127 with u = 1). -/
def roundInt (rm : Rm) (v : Nat) (neg : Bool) (m : Nat) (e : Int) : Int :=
  let p := scaleFrac m 1 e
  let q := p.1 / p.2
  let q' := if roundUp rm neg q (p.1 % p.2) p.2 v then q + 1 else q
  if neg then -(q' : Int) else q'

/-! ### Conversions (R130, R131) -/

/-- One element from a source type to a destination type. -/
def convert (dst src : Ty) (rm : Rm) (sat : Bool) (v : Nat) (x : Nat) : Rounded :=
  match src.isFloat, dst.isFloat with
  | true, true =>
    let y := (Ty.fmt src).decode x
    if src = dst then (if y.isNan then ⟨(Ty.fmt dst).nanPat, none⟩ else ⟨x, none⟩)
    else roundVal (Ty.fmt dst) rm false v y
  | true, false =>
    let sg := Ty.signed dst
    let w := Ty.bits dst
    let indef : Rounded := ⟨wrapInt w (intMin sg w), some .invalid⟩
    match (Ty.fmt src).decode x with
    | .nan => if sat then ⟨0, some .invalid⟩ else indef
    | .inf n =>
      if sat then ⟨wrapInt w (if n then intMin sg w else intMax sg w), some .saturated⟩ else indef
    | .fin n m e =>
      let r := roundInt rm v n m e
      if intMin sg w ≤ r ∧ r ≤ intMax sg w then ⟨wrapInt w r, none⟩
      else if sat then satInt sg w r else indef
  | false, true =>
    let i := toInt (Ty.signed src) (Ty.bits src) x
    roundVal (Ty.fmt dst) rm false v (.fin (i < 0) i.natAbs 0)
  | false, false =>
    let i := toInt (Ty.signed src) (Ty.bits src) x
    if sat && (Ty.bits dst < Ty.bits src || i < 0) then satInt (Ty.signed dst) (Ty.bits dst) i
    else ⟨wrapInt (Ty.bits dst) i, none⟩

/-- VRND: to an integral value of the same format (R393). -/
def roundIntegral (f : FFmt) (rm : Rm) (v : Nat) (x : Nat) : Nat :=
  match f.decode x with
  | .nan => f.nanPat
  | .inf _ => x
  | .fin n m e => (roundVal f .rne false 0 (.fin n (roundInt rm v n m e).natAbs 0)).bits

/-! ### The fp4-block family (R133 to R136) -/

/-- Eight times the value of a 4-bit code (R134). -/
def code8 (typ code : Nat) : Int :=
  let mags : List Int := match typ with
    | 1 => [0, 4, 8, 12, 16, 24, 32, 48]
    | 2 => [0, 1, 2, 4, 8, 16, 32, 64]
    | _ => [0, 8, 16, 24, 32, 48, 64, 96]
  if typ = 0 then 8 * toInt true 4 code
  else if code < 8 then mags.getD code 0 else -(mags.getD (code - 8) 0)

/-- The TYP, E and M fields of a scale word (R133). -/
def scTyp (w : Nat) : Nat := w / 2 ^ 10 % 4
def scE (w : Nat) : Nat := w / 2 ^ 4 % 64
def scM (w : Nat) : Nat := w % 16

/-- Scale12 as m × 2^e (R133). -/
def scale12 (w : Nat) : Nat × Int := if scE w = 0 then (0, 0) else (16 + scM w, (scE w : Int) - 31 - 4)

/-- The largest magnitude of a type, times 8: for a positive and for a negative value (R136). -/
def codeMax8 (typ : Nat) (neg : Bool) : Int :=
  match typ with
  | 0 => if neg then 64 else 56
  | 1 => 48
  | 2 => 64
  | _ => 96

/-- The code of the largest magnitude with a sign (R136). -/
def codeMax (typ : Nat) (neg : Bool) : Nat :=
  if typ = 0 then (if neg then 8 else 7) else (if neg then 15 else 7)

/-- Whether a tie goes to this code: bits [2:0] even, or an even integer for UI (R136). -/
def codeEven (code : Nat) : Bool := code % 2 == 0

/-- The nearest of the codes 0 to 15 to t = n/d × 2^e with a sign; a zero result is code 0x0 (R136). -/
def quantCode (typ : Nat) (neg : Bool) (n d : Nat) (e : Int) : Rounded :=
  let p := scaleFrac (8 * n) d e
  let t : Int := if neg then -(p.1 : Int) else p.1
  let den : Int := p.2
  if codeMax8 typ neg * den < (t.natAbs : Int) then ⟨codeMax typ neg, some .saturated⟩
  else
    let dist : Nat → Nat := fun c => (code8 typ c * den - t).natAbs
    let best := (List.range 15).foldl (fun b c =>
      if dist (c + 1) < dist b ∨ (dist (c + 1) = dist b ∧ codeEven (c + 1) ∧ ¬ codeEven b) then c + 1 else b) 0
    ⟨if code8 typ best = 0 then 0 else best, none⟩

end Sys2Proof.Machine
end

