-- ==== Sys2Proof/Decode.lean ====
section
/-! DEFINITION. Reading control words and tokens (R50, R59, R75 to R97), rejecting by the number of the
hazard-filter check that fails (R57), and after it the encoder of the same tables. A raw slot is a number; each shape
is unpacked into its fields once and packed from them once. -/

namespace Sys2Proof

/-- Bits [lo+len-1 : lo] of a raw word. -/
def fld (w lo len : Nat) : BitVec len := BitVec.ofNat len (w / 2 ^ lo)

/-- One bit of a raw word. -/
def bit1 (w lo : Nat) : Bool := w / 2 ^ lo % 2 == 1

/-- A bit as a number. -/
def bn (b : Bool) : Nat := if b then 1 else 0

/-- The fields of shape SA (R77), lowest first. -/
structure SAw where
  op : BitVec 6
  d : BitVec 6
  a : BitVec 6
  b : BitVec 6
  imm : BitVec 12
  cc : BitVec 4
  w : BitVec 2
  md : BitVec 6
  deriving DecidableEq, Repr

def SAw.unpack (w : Nat) : SAw :=
  { op := fld w 0 6,
    d := fld w 6 6,
    a := fld w 12 6,
    b := fld w 18 6,
    imm := fld w 24 12,
    cc := fld w 36 4,
    w := fld w 40 2,
    md := fld w 42 6 }

def SAw.pack (r : SAw) : Nat :=
  r.op.toNat +
  r.d.toNat * 2 ^ 6 +
  r.a.toNat * 2 ^ 12 +
  r.b.toNat * 2 ^ 18 +
  r.imm.toNat * 2 ^ 24 +
  r.cc.toNat * 2 ^ 36 +
  r.w.toNat * 2 ^ 40 +
  r.md.toNat * 2 ^ 42

/-- The fields of shape SB (R77), lowest first. -/
structure SBw where
  op : BitVec 6
  a : BitVec 6
  k : BitVec 4
  cc : BitVec 4
  disp : BitVec 24
  md : BitVec 4
  deriving DecidableEq, Repr

def SBw.unpack (w : Nat) : SBw :=
  { op := fld w 0 6,
    a := fld w 6 6,
    k := fld w 12 4,
    cc := fld w 16 4,
    disp := fld w 20 24,
    md := fld w 44 4 }

def SBw.pack (r : SBw) : Nat :=
  r.op.toNat +
  r.a.toNat * 2 ^ 6 +
  r.k.toNat * 2 ^ 12 +
  r.cc.toNat * 2 ^ 16 +
  r.disp.toNat * 2 ^ 20 +
  r.md.toNat * 2 ^ 44

/-- The fields of shape SC (R77), lowest first. -/
structure SCw where
  op : BitVec 6
  a : BitVec 6
  idx : BitVec 6
  scope : BitVec 3
  ord : BitVec 2
  mode : BitVec 3
  imm : BitVec 16
  md : BitVec 6
  deriving DecidableEq, Repr

def SCw.unpack (w : Nat) : SCw :=
  { op := fld w 0 6,
    a := fld w 6 6,
    idx := fld w 12 6,
    scope := fld w 18 3,
    ord := fld w 21 2,
    mode := fld w 23 3,
    imm := fld w 26 16,
    md := fld w 42 6 }

def SCw.pack (r : SCw) : Nat :=
  r.op.toNat +
  r.a.toNat * 2 ^ 6 +
  r.idx.toNat * 2 ^ 12 +
  r.scope.toNat * 2 ^ 18 +
  r.ord.toNat * 2 ^ 21 +
  r.mode.toNat * 2 ^ 23 +
  r.imm.toNat * 2 ^ 26 +
  r.md.toNat * 2 ^ 42

/-- The fields of the V slot (R82), lowest first. -/
structure Vw where
  op : BitVec 6
  d : BitVec 6
  a : BitVec 6
  b : BitVec 6
  c : BitVec 6
  ty : BitVec 4
  k : BitVec 4
  rm : BitVec 3
  na : Bool
  nb : Bool
  ab : Bool
  sat : Bool
  sub : BitVec 3
  deriving DecidableEq, Repr

def Vw.unpack (w : Nat) : Vw :=
  { op := fld w 0 6,
    d := fld w 6 6,
    a := fld w 12 6,
    b := fld w 18 6,
    c := fld w 24 6,
    ty := fld w 30 4,
    k := fld w 34 4,
    rm := fld w 38 3,
    na := bit1 w 41,
    nb := bit1 w 42,
    ab := bit1 w 43,
    sat := bit1 w 44,
    sub := fld w 45 3 }

def Vw.pack (r : Vw) : Nat :=
  r.op.toNat +
  r.d.toNat * 2 ^ 6 +
  r.a.toNat * 2 ^ 12 +
  r.b.toNat * 2 ^ 18 +
  r.c.toNat * 2 ^ 24 +
  r.ty.toNat * 2 ^ 30 +
  r.k.toNat * 2 ^ 34 +
  r.rm.toNat * 2 ^ 38 +
  bn r.na * 2 ^ 41 +
  bn r.nb * 2 ^ 42 +
  bn r.ab * 2 ^ 43 +
  bn r.sat * 2 ^ 44 +
  r.sub.toNat * 2 ^ 45

/-- The fields of the F slot (R85), lowest first. -/
structure Fw where
  op : BitVec 6
  d : BitVec 6
  dc : Bool
  a : BitVec 6
  ac : Bool
  k : BitVec 4
  na : Bool
  ab : Bool
  z : BitVec 6
  deriving DecidableEq, Repr

def Fw.unpack (w : Nat) : Fw :=
  { op := fld w 0 6,
    d := fld w 6 6,
    dc := bit1 w 12,
    a := fld w 13 6,
    ac := bit1 w 19,
    k := fld w 20 4,
    na := bit1 w 24,
    ab := bit1 w 25,
    z := fld w 26 6 }

def Fw.pack (r : Fw) : Nat :=
  r.op.toNat +
  r.d.toNat * 2 ^ 6 +
  bn r.dc * 2 ^ 12 +
  r.a.toNat * 2 ^ 13 +
  bn r.ac * 2 ^ 19 +
  r.k.toNat * 2 ^ 20 +
  bn r.na * 2 ^ 24 +
  bn r.ab * 2 ^ 25 +
  r.z.toNat * 2 ^ 26

/-- The fields of the L slot (R86), lowest first. -/
structure Lw where
  op : BitVec 6
  d : BitVec 6
  a : BitVec 6
  b : BitVec 6
  kd : BitVec 4
  ka : BitVec 4
  kb : BitVec 4
  dir : BitVec 2
  md : BitVec 2
  deriving DecidableEq, Repr

def Lw.unpack (w : Nat) : Lw :=
  { op := fld w 0 6,
    d := fld w 6 6,
    a := fld w 12 6,
    b := fld w 18 6,
    kd := fld w 24 4,
    ka := fld w 28 4,
    kb := fld w 32 4,
    dir := fld w 36 2,
    md := fld w 38 2 }

def Lw.pack (r : Lw) : Nat :=
  r.op.toNat +
  r.d.toNat * 2 ^ 6 +
  r.a.toNat * 2 ^ 12 +
  r.b.toNat * 2 ^ 18 +
  r.kd.toNat * 2 ^ 24 +
  r.ka.toNat * 2 ^ 28 +
  r.kb.toNat * 2 ^ 32 +
  r.dir.toNat * 2 ^ 36 +
  r.md.toNat * 2 ^ 38

/-- The fields of the M slot (R89), lowest first. -/
structure Mw where
  op : BitVec 6
  d : BitVec 6
  dc : BitVec 2
  seg : BitVec 6
  a : BitVec 6
  ac : BitVec 2
  wid : BitVec 3
  k : BitVec 4
  scope : BitVec 3
  ord : BitVec 2
  hint : BitVec 2
  disp : BitVec 16
  sub : BitVec 6
  deriving DecidableEq, Repr

def Mw.unpack (w : Nat) : Mw :=
  { op := fld w 0 6,
    d := fld w 6 6,
    dc := fld w 12 2,
    seg := fld w 14 6,
    a := fld w 20 6,
    ac := fld w 26 2,
    wid := fld w 28 3,
    k := fld w 31 4,
    scope := fld w 35 3,
    ord := fld w 38 2,
    hint := fld w 40 2,
    disp := fld w 42 16,
    sub := fld w 58 6 }

def Mw.pack (r : Mw) : Nat :=
  r.op.toNat +
  r.d.toNat * 2 ^ 6 +
  r.dc.toNat * 2 ^ 12 +
  r.seg.toNat * 2 ^ 14 +
  r.a.toNat * 2 ^ 20 +
  r.ac.toNat * 2 ^ 26 +
  r.wid.toNat * 2 ^ 28 +
  r.k.toNat * 2 ^ 31 +
  r.scope.toNat * 2 ^ 35 +
  r.ord.toNat * 2 ^ 38 +
  r.hint.toNat * 2 ^ 40 +
  r.disp.toNat * 2 ^ 42 +
  r.sub.toNat * 2 ^ 58

/-- The fields of the T slot (R93), lowest first. -/
structure Tw where
  op : BitVec 6
  c : BitVec 4
  oa : BitVec 5
  ob : BitVec 5
  p : BitVec 3
  fmt : BitVec 4
  orb : BitVec 2
  seg : BitVec 6
  a : BitVec 6
  n : BitVec 4
  ms : BitVec 2
  k : BitVec 4
  sub : BitVec 5
  deriving DecidableEq, Repr

def Tw.unpack (w : Nat) : Tw :=
  { op := fld w 0 6,
    c := fld w 6 4,
    oa := fld w 10 5,
    ob := fld w 15 5,
    p := fld w 20 3,
    fmt := fld w 23 4,
    orb := fld w 27 2,
    seg := fld w 29 6,
    a := fld w 35 6,
    n := fld w 41 4,
    ms := fld w 45 2,
    k := fld w 47 4,
    sub := fld w 51 5 }

def Tw.pack (r : Tw) : Nat :=
  r.op.toNat +
  r.c.toNat * 2 ^ 6 +
  r.oa.toNat * 2 ^ 10 +
  r.ob.toNat * 2 ^ 15 +
  r.p.toNat * 2 ^ 20 +
  r.fmt.toNat * 2 ^ 23 +
  r.orb.toNat * 2 ^ 27 +
  r.seg.toNat * 2 ^ 29 +
  r.a.toNat * 2 ^ 35 +
  r.n.toNat * 2 ^ 41 +
  r.ms.toNat * 2 ^ 45 +
  r.k.toNat * 2 ^ 47 +
  r.sub.toNat * 2 ^ 51

/-- Width W (R77). -/
def swidth (c : BitVec 2) : Option SWidth :=
  match c.toNat with
  | 0 => some .w64
  | 1 => some .s32
  | 2 => some .n32
  | _ => none

/-- The code of width W (R77). -/
def swidthC (x : SWidth) : BitVec 2 :=
  match x with
  | .w64 => 0
  | .s32 => 1
  | .n32 => 2

/-- Condition codes (R80). -/
def cond (c : BitVec 4) : Option Cond :=
  match c.toNat with
  | 0 => some .eq
  | 1 => some .ne
  | 2 => some .lt
  | 3 => some .le
  | 4 => some .gt
  | 5 => some .ge
  | 6 => some .ltu
  | 7 => some .leu
  | 8 => some .gtu
  | 9 => some .geu
  | 10 => some .any
  | 11 => some .none
  | 12 => some .all
  | _ => none

/-- The code of condition codes (R80). -/
def condC (x : Cond) : BitVec 4 :=
  match x with
  | .eq => 0
  | .ne => 1
  | .lt => 2
  | .le => 3
  | .gt => 4
  | .ge => 5
  | .ltu => 6
  | .leu => 7
  | .gtu => 8
  | .geu => 9
  | .any => 10
  | .none => 11
  | .all => 12

/-- Lane types (R95). -/
def vty (c : BitVec 4) : Option Ty :=
  match c.toNat with
  | 0 => some .f32
  | 1 => some .f16x2
  | 2 => some .bf16x2
  | 3 => some .s32
  | 4 => some .n32
  | 5 => some .s16x2
  | 6 => some .n16x2
  | 7 => some .s8x4
  | 8 => some .n8x4
  | _ => none

/-- The code of lane types (R95). -/
def vtyC (x : Ty) : BitVec 4 :=
  match x with
  | .f32 => 0
  | .f16x2 => 1
  | .bf16x2 => 2
  | .s32 => 3
  | .n32 => 4
  | .s16x2 => 5
  | .n16x2 => 6
  | .s8x4 => 7
  | .n8x4 => 8

/-- Tile formats (R95). -/
def tfmt (c : BitVec 4) : Option Fmt :=
  match c.toNat with
  | 0 => some .f32
  | 1 => some .bf16
  | 2 => some .f16
  | 3 => some .e4m3
  | 4 => some .e5m2
  | 5 => some .s8
  | 6 => some .n8
  | 7 => some .fp4
  | _ => none

/-- The code of tile formats (R95). -/
def tfmtC (x : Fmt) : BitVec 4 :=
  match x with
  | .f32 => 0
  | .bf16 => 1
  | .f16 => 2
  | .e4m3 => 3
  | .e5m2 => 4
  | .s8 => 5
  | .n8 => 6
  | .fp4 => 7

/-- Rounding modes (R95). -/
def vrm (c : BitVec 3) : Option Rm :=
  match c.toNat with
  | 0 => some .rne
  | 1 => some .rtz
  | 2 => some .rup
  | 3 => some .rdn
  | 4 => some .rna
  | 5 => some .rsr
  | _ => none

/-- The code of rounding modes (R95). -/
def vrmC (x : Rm) : BitVec 3 :=
  match x with
  | .rne => 0
  | .rtz => 1
  | .rup => 2
  | .rdn => 3
  | .rna => 4
  | .rsr => 5

/-- Scopes (R95). -/
def scopeOf (c : BitVec 3) : Option Scope :=
  match c.toNat with
  | 0 => some .wave
  | 1 => some .core
  | 2 => some .convoy
  | 3 => some .die
  | 4 => some .device
  | 5 => some .system
  | _ => none

/-- The code of scopes (R95). -/
def scopeOfC (x : Scope) : BitVec 3 :=
  match x with
  | .wave => 0
  | .core => 1
  | .convoy => 2
  | .die => 3
  | .device => 4
  | .system => 5

/-- Orders (R95). -/
def orderOf (c : BitVec 2) : Option Order :=
  match c.toNat with
  | 0 => some .relaxed
  | 1 => some .acquire
  | 2 => some .release
  | 3 => some .acqRel
  | _ => none

/-- The code of orders (R95). -/
def orderOfC (x : Order) : BitVec 2 :=
  match x with
  | .relaxed => 0
  | .acquire => 1
  | .release => 2
  | .acqRel => 3

/-- Access widths (R89). -/
def widOf (c : BitVec 3) : Option Wid :=
  match c.toNat with
  | 0 => some .b8
  | 1 => some .b16
  | 2 => some .b32
  | 3 => some .b64
  | 4 => some .b128
  | _ => none

/-- The code of access widths (R89). -/
def widOfC (x : Wid) : BitVec 3 :=
  match x with
  | .b8 => 0
  | .b16 => 1
  | .b32 => 2
  | .b64 => 3
  | .b128 => 4

/-- Hints (R89). -/
def hintOf (c : BitVec 2) : Option Hint :=
  match c.toNat with
  | 0 => some .normal
  | 1 => some .evictFirst
  | 2 => some .keep
  | 3 => some .bypassL1
  | _ => none

/-- The code of hints (R89). -/
def hintOfC (x : Hint) : BitVec 2 :=
  match x with
  | .normal => 0
  | .evictFirst => 1
  | .keep => 2
  | .bypassL1 => 3

/-- Address classes that name a register (R89). -/
def aclsOf (c : BitVec 2) : Option ACls :=
  match c.toNat with
  | 0 => some .perA
  | 1 => some .perB
  | 2 => some .unif
  | _ => none

/-- The code of address classes that name a register (R89). -/
def aclsOfC (x : ACls) : BitVec 2 :=
  match x with
  | .perA => 0
  | .perB => 1
  | .unif => 2

/-- Data classes that name a register (R89). -/
def dclsOf (c : BitVec 2) : Option DCls :=
  match c.toNat with
  | 0 => some .A
  | 1 => some .B
  | 2 => some .s
  | _ => none

/-- The code of data classes that name a register (R89). -/
def dclsOfC (x : DCls) : BitVec 2 :=
  match x with
  | .A => 0
  | .B => 1
  | .s => 2

/-- VCMP conditions (R84). -/
def vcondOf (c : BitVec 3) : Option VCond :=
  match c.toNat with
  | 0 => some .eq
  | 1 => some .ne
  | 2 => some .lt
  | 3 => some .le
  | 4 => some .gt
  | 5 => some .ge
  | 6 => some .uo
  | 7 => some .ord
  | _ => none

/-- The code of VCMP conditions (R84). -/
def vcondOfC (x : VCond) : BitVec 3 :=
  match x with
  | .eq => 0
  | .ne => 1
  | .lt => 2
  | .le => 3
  | .gt => 4
  | .ge => 5
  | .uo => 6
  | .ord => 7

/-- LRED and LSCAN codes (R88). -/
def redOf (c : BitVec 4) : Option RedOp :=
  match c.toNat with
  | 0 => some .addI
  | 1 => some .addF
  | 2 => some .minS
  | 3 => some .maxS
  | 4 => some .minN
  | 5 => some .maxN
  | 6 => some .minF
  | 7 => some .maxF
  | 8 => some .band
  | 9 => some .bor
  | 10 => some .bxor
  | _ => none

/-- The code of LRED and LSCAN codes (R88). -/
def redOfC (x : RedOp) : BitVec 4 :=
  match x with
  | .addI => 0
  | .addF => 1
  | .minS => 2
  | .maxS => 3
  | .minN => 4
  | .maxN => 5
  | .minF => 6
  | .maxF => 7
  | .band => 8
  | .bor => 9
  | .bxor => 10

/-- MATOM codes (R92). -/
def atomOf (c : BitVec 4) : Option AtomOp :=
  match c.toNat with
  | 0 => some .swap
  | 1 => some .add
  | 2 => some .band
  | 3 => some .bor
  | 4 => some .bxor
  | 5 => some .smin
  | 6 => some .smax
  | 7 => some .umin
  | 8 => some .umax
  | 9 => some .fadd
  | _ => none

/-- The code of MATOM codes (R92). -/
def atomOfC (x : AtomOp) : BitVec 4 :=
  match x with
  | .swap => 0
  | .add => 1
  | .band => 2
  | .bor => 3
  | .bxor => 4
  | .smin => 5
  | .smax => 6
  | .umin => 7
  | .umax => 8
  | .fadd => 9

/-- LSHUF.pat kinds (R86). -/
def patOf (c : BitVec 2) : Option PatKind :=
  match c.toNat with
  | 0 => some .xor
  | 1 => some .rotUp
  | 2 => some .rotDn
  | 3 => some .rev
  | _ => none

/-- The code of LSHUF.pat kinds (R86). -/
def patOfC (x : PatKind) : BitVec 2 :=
  match x with
  | .xor => 0
  | .rotUp => 1
  | .rotDn => 2
  | .rev => 3

/-- T milestone contexts (R93). -/
def tmsOf (c : BitVec 2) : Option TMs :=
  match c.toNat with
  | 0 => some .none
  | 2 => some .ms4
  | 3 => some .ms5
  | _ => none

/-- The code of T milestone contexts (R93). -/
def tmsOfC (x : TMs) : BitVec 2 :=
  match x with
  | .none => 0
  | .ms4 => 2
  | .ms5 => 3

/-- Hadamard sizes (R94). -/
def hadOf (c : BitVec 2) : Option Had :=
  match c.toNat with
  | 0 => some .none
  | 1 => some .h16
  | 2 => some .h32
  | _ => none

/-- The code of hadamard sizes (R94). -/
def hadOfC (x : Had) : BitVec 2 :=
  match x with
  | .none => 0
  | .h16 => 1
  | .h32 => 2

/-- PHASE modes (R78). -/
def phaseOf (c : BitVec 3) : Option PhaseMode :=
  match c.toNat with
  | 1 => some .pub
  | 2 => some .ref
  | 3 => some .full
  | _ => none

/-- The code of PHASE modes (R78). -/
def phaseOfC (x : PhaseMode) : BitVec 3 :=
  match x with
  | .pub => 1
  | .ref => 2
  | .full => 3

/-- MFLUSH actions (R347). -/
def flushOf (c : BitVec 6) : Option FlushOp :=
  match c.toNat with
  | 0 => some .wb
  | 1 => some .inv
  | 2 => some .wbinv
  | _ => none

/-- The code of MFLUSH actions (R347). -/
def flushOfC (x : FlushOp) : BitVec 6 :=
  match x with
  | .wb => 0
  | .inv => 1
  | .wbinv => 2

/-- A cluster bit (R85). -/
def clus (b : Bool) : Cluster := if b then .B else .A
def clusC (c : Cluster) : Bool := match c with | .A => false | .B => true

/-- What a slot decodes to: the numbers of the checks that fail, and the operation when its codes denote one. -/
structure SlotRes where
  fails : List Nat
  i : Option Instr
  deriving DecidableEq, Repr

/-- Gather the failing checks; codes that denote nothing fail check 5 (R57). -/
def chk (cs : List (Nat × Bool)) (i : Option Instr) : SlotRes :=
  { fails := ((if i.isSome then [] else [5]) ++ (cs.filter fun c => !c.2).map (·.1)), i := i }

/-- An opcode that is not in the map fails check 3. -/
def noOp : SlotRes := { fails := [3], i := none }

/-- The smallest of the failing checks. -/
def lowest : List Nat → Option Nat
  | [] => none
  | n :: t => match lowest t with
    | none => some n
    | some m => some (if n < m then n else m)

def z {n : Nat} (v : BitVec n) : Bool := v == 0#n

/-- An S immediate field (R81). -/
def simm (st : Bool) (v : BitVec 12) : SImm := if st then .stream else .inWord v
def simmC (i : SImm) : BitVec 12 := match i with | .stream => 0 | .inWord v => v
def simmSt (i : SImm) : Bool := match i with | .stream => true | .inWord _ => false
/-- Bits [29:18] of a V immediate form: C above B (R82). -/
def vimm (st : Bool) (b c : BitVec 6) : VImm := if st then .stream else .inWord (c ++ b)
def vimmB (i : VImm) : BitVec 6 := match i with | .stream => 0 | .inWord v => v.extractLsb' 0 6
def vimmCF (i : VImm) : BitVec 6 := match i with | .stream => 0 | .inWord v => v.extractLsb' 6 6
def vimmSt (i : VImm) : Bool := match i with | .stream => true | .inWord _ => false
/-- An M displacement field (R91). -/
def mdisp (st : Bool) (v : BitVec 16) : MDisp := if st then .stream else .inWord v
def mdispC (i : MDisp) : BitVec 16 := match i with | .stream => 0 | .inWord v => v
def mdispSt (i : MDisp) : Bool := match i with | .stream => true | .inWord _ => false
/-- The A operand of shape SC (R77). -/
def scop (a : BitVec 6) (v : BitVec 16) : ScOp := if a = 63 then .imm v else .reg a
def scopA (o : ScOp) : BitVec 6 := match o with | .reg a => a | .imm _ => 63
def scopI (o : ScOp) : BitVec 16 := match o with | .reg _ => 0 | .imm v => v

/-! ### The S slot -/

/-- Register forms of the arithmetic of shape SA (R78, R358). -/
def decSaReg (r : SAw) (st : Bool) (mk : SaReg → Instr) : SlotRes :=
  chk [(6, !st), (4, z r.imm), (4, z r.cc), (4, z r.md)]
    ((swidth r.w).map fun w => mk ⟨r.d, r.a, r.b, w⟩)

/-- Immediate forms of the arithmetic of shape SA: IMM12 in [35:24] with B zero (R78, R81). -/
def decSaImm (r : SAw) (st : Bool) (mk : SaImm → Instr) : SlotRes :=
  chk [(4, z r.b), (4, z r.cc), (4, z r.md), (4, !st || z r.imm)]
    ((swidth r.w).map fun w => mk ⟨r.d, r.a, simm st r.imm, w⟩)

def decSA (r : SAw) (st : Bool) : SlotRes :=
  match r.op.toNat with
  | 0x01 => decSaReg r st .sadd
  | 0x02 => decSaReg r st .ssub
  | 0x03 => decSaReg r st .smul
  | 0x04 => decSaReg r st .smulh
  | 0x05 => decSaReg r st .sand
  | 0x06 => decSaReg r st .sor
  | 0x07 => decSaReg r st .sxor
  | 0x08 => decSaReg r st .sshl
  | 0x09 => decSaReg r st .sshr
  | 0x0a => decSaReg r st .ssar
  | 0x0b => chk [(6, !st), (4, z r.imm), (4, z r.cc), (4, z (r.md >>> 1))]
      ((swidth r.w).map fun w => .smin ⟨⟨r.d, r.a, r.b, w⟩, r.md.getLsbD 0⟩)
  | 0x0c => chk [(6, !st), (4, z r.imm), (4, z r.cc), (4, z (r.md >>> 1))]
      ((swidth r.w).map fun w => .smax ⟨⟨r.d, r.a, r.b, w⟩, r.md.getLsbD 0⟩)
  | 0x0d => chk [(6, !st), (4, z r.imm), (4, z r.md), (5, r.cc.toNat ≤ 9)]
      (do let w ← swidth r.w; let c ← cond r.cc; pure (.sset ⟨⟨r.d, r.a, r.b, w⟩, c⟩))
  | 0x0e => chk [(6, !st), (4, z r.imm), (5, r.cc.toNat ≤ 9)]
      (do let w ← swidth r.w; let c ← cond r.cc; pure (.ssel ⟨⟨r.d, r.a, r.b, w⟩, c, r.md⟩))
  | 0x0f => chk [(6, !st), (4, z r.a), (4, z r.b), (4, z r.cc), (4, z r.w), (4, z r.md), (4, z (r.imm >>> 8)),
        (9, srdNum (r.imm.setWidth 8))]
      (some (.srd ⟨r.d, r.imm.setWidth 8⟩))
  | 0x11 => decSaImm r st .saddI
  | 0x12 => decSaImm r st .ssubI
  | 0x13 => decSaImm r st .smulI
  | 0x15 => decSaImm r st .sandI
  | 0x16 => decSaImm r st .sorI
  | 0x17 => decSaImm r st .sxorI
  | 0x18 => decSaImm r st .sshlI
  | 0x19 => decSaImm r st .sshrI
  | 0x1a => decSaImm r st .ssarI
  | 0x1b => chk [(4, z r.b), (4, z r.cc), (4, z (r.md >>> 1)), (4, !st || z r.imm)]
      ((swidth r.w).map fun w => .sminI ⟨⟨r.d, r.a, simm st r.imm, w⟩, r.md.getLsbD 0⟩)
  | 0x1c => chk [(4, z r.b), (4, z r.cc), (4, z (r.md >>> 1)), (4, !st || z r.imm)]
      ((swidth r.w).map fun w => .smaxI ⟨⟨r.d, r.a, simm st r.imm, w⟩, r.md.getLsbD 0⟩)
  | 0x1d => chk [(4, z r.b), (4, z r.md), (4, !st || z r.imm), (5, r.cc.toNat ≤ 9)]
      (do let w ← swidth r.w; let c ← cond r.cc; pure (.ssetI ⟨⟨r.d, r.a, simm st r.imm, w⟩, c⟩))
  | 0x1e => chk [(4, z r.a), (4, z r.b), (4, z r.cc), (4, z r.w), (4, z r.md), (4, !st || z r.imm)]
      (some (.sli ⟨r.d, simm st r.imm⟩))
  | 0x1f => chk [(6, !st), (4, z r.d), (4, z r.b), (4, z r.cc), (4, z r.w), (4, z r.md), (4, z (r.imm >>> 8)),
        (9, swrNum (r.imm.setWidth 8))]
      (some (.swr ⟨r.a, r.imm.setWidth 8⟩))
  | 0x36 => chk [(6, !st), (4, z r.a), (4, z r.b), (4, z r.imm), (4, z r.cc), (4, z r.w), (4, z (r.md >>> 1))]
      (some (.felrd ⟨r.d, r.md.getLsbD 0⟩))
  | _ => noOp

/-- The code field DISP24[7:0] of TRAP, BKPT and SVC (R78). -/
def decCode (r : SBw) (st : Bool) (mk : BitVec 8 → Instr) : SlotRes :=
  chk [(6, !st), (4, z r.a), (4, z r.k), (4, z r.cc), (4, z r.md), (4, z (r.disp >>> 8))]
    (some (mk (r.disp.setWidth 8)))

def decSB (r : SBw) (st : Bool) : SlotRes :=
  match r.op.toNat with
  | 0x20 => chk [(6, !st), (4, z r.a), (4, z r.k), (4, z r.cc), (4, z r.md)] (some (.br r.disp))
  | 0x21 => chk [(6, !st), (4, z r.md), (4, r.cc.toNat ≥ 10 || z r.k), (4, r.cc.toNat ≤ 9 || z r.a)]
      ((cond r.cc).map fun c => .brc ⟨c, r.a, r.k, r.disp⟩)
  | 0x22 => chk [(6, !st), (4, z r.k), (4, z r.cc), (4, z r.disp), (4, z r.md)] (some (.brx r.a))
  | 0x23 => chk [(6, !st), (4, z r.k), (4, z r.cc), (4, z r.md)] (some (.call ⟨r.a, r.disp⟩))
  | 0x24 => chk [(6, !st), (4, z r.k), (4, z r.cc), (4, z r.disp), (4, z r.md)] (some (.ret r.a))
  | 0x25 => chk [(6, !st), (4, z r.k), (4, z r.cc), (4, z r.md)] (some (.loop ⟨r.a, r.disp⟩))
  | 0x26 => chk [(6, !st), (4, z r.a), (4, z r.cc), (4, z r.disp), (4, z r.md)] (some (.exit r.k))
  | 0x27 => chk [(6, !st), (4, z r.a), (4, z r.k), (4, z r.cc), (4, z r.disp), (4, z r.md)] (some .yield)
  | 0x28 => decCode r st .trap
  | 0x29 => decCode r st .bkpt
  | 0x2a => decCode r st .svc
  | 0x2b => chk [(6, !st), (4, z r.a), (4, z r.k), (4, z r.cc), (4, z r.disp), (4, z r.md)] (some .eret)
  | _ => noOp

def decSC (r : SCw) (st : Bool) : SlotRes :=
  let immOk := r.a == 63 || z r.imm
  match r.op.toNat with
  | 0x30 => chk [(6, !st), (4, z r.a), (4, z r.scope), (4, z r.ord), (4, z r.imm), (4, z r.md),
        (5, r.idx.toNat ≤ 3), (5, r.mode.toNat ≤ 1)]
      (some (.bar ⟨r.idx.setWidth 2, r.mode == 1⟩))
  | 0x31 => chk [(6, !st), (4, z r.a), (4, z r.idx), (4, z r.imm), (4, z r.md), (5, r.ord != 0), (5, r.mode.toNat ≤ 1),
        (5, r.mode != 1 || (r.ord == 3 && r.scope.toNat ≥ 3))]
      (do let s ← scopeOf r.scope; let o ← orderOf r.ord; pure (.fence ⟨s, o, r.mode == 1⟩))
  | 0x32 => chk [(6, !st), (4, z r.a), (4, z r.idx), (4, z r.scope), (4, z r.ord), (4, z r.imm), (4, z r.md)]
      ((phaseOf r.mode).map .phase)
  | 0x33 => chk [(6, !st), (4, z r.scope), (4, z r.ord), (4, z r.mode), (4, z r.md), (4, immOk), (5, r.idx.toNat ≤ 7)]
      (some (.mwait ⟨r.idx, scop r.a r.imm⟩))
  | 0x34 => chk [(6, !st), (4, z r.scope), (4, z r.ord), (4, z r.mode), (4, z r.md), (4, immOk)]
      (some (.gwait ⟨r.idx, scop r.a r.imm⟩))
  | 0x35 => chk [(6, !st), (4, z r.scope), (4, z r.ord), (4, z r.mode), (4, z r.md), (4, immOk)]
      (some (.gopen ⟨r.idx, scop r.a r.imm⟩))
  | 0x38 => chk [(6, !st), (4, z r.idx), (4, z r.scope), (4, z r.ord), (4, z r.mode), (4, z r.md), (4, immOk),
        (5, r.imm.toNat ≤ 63)]
      (some (.replay (scop r.a r.imm)))
  | 0x39 => chk [(6, !st), (4, z r.scope), (4, z r.ord), (4, z r.imm), (4, z r.md), (5, r.a != 63), (5, r.mode.toNat ≤ 1),
        (5, r.idx.toNat ≤ 5), (5, r.mode != 1 || z r.idx)]
      (some (.invpg ⟨r.a, r.idx.setWidth 3, r.mode == 1⟩))
  | _ => noOp

/-- The S slot: the opcode selects the shape (R77). `st` says that IMMR names the slot. -/
def decS (w : Nat) (st : Bool) : SlotRes :=
  let op := (fld w 0 6).toNat
  if op < 0x20 ∨ op = 0x36 then decSA (SAw.unpack w) st
  else if op < 0x30 then decSB (SBw.unpack w) st
  else decSC (SCw.unpack w) st

/-! ### The V slot -/

/-- A modifier that the operation accepts only at the types where `ok` holds fails check 5 elsewhere; one that it never
accepts fails check 4 (R382). -/
def vmods (ok : Bool) (r : Vw) : List (Nat × Bool) :=
  [(5, ok || (!r.na && !r.nb && !r.ab))]

def vmodOf (r : Vw) (rm : Rm) : VMod := ⟨rm, r.na, r.nb, r.ab, r.sat⟩

/-- VADD, VSUB, VMUL (R383). -/
def decVArith (r : Vw) : List (Nat × Bool) :=
  let f := r.ty.toNat ≤ 2
  [(4, z r.sub), (5, f || z r.rm), (5, !f || !r.sat)] ++ vmods f r

/-- VMIN, VMAX (R390): RM and SAT are accepted at no type. -/
def decVMinMax (r : Vw) : List (Nat × Bool) :=
  [(4, z r.sub), (4, z r.rm), (4, !r.sat)] ++ vmods (r.ty.toNat ≤ 2) r

/-- No modifier at all. -/
def vplain (r : Vw) : List (Nat × Bool) :=
  [(4, z r.sub), (4, z r.rm), (4, !r.sat), (4, !r.na && !r.nb && !r.ab)]

def vhdr (cl : Cluster) (r : Vw) : VHdr := ⟨cl, r.k, r.d, r.a⟩

/-- The V slot, from its fields. -/
def decVf (cl : Cluster) (r : Vw) (st : Bool) : SlotRes :=
  let h := vhdr cl r
  let iz : Nat × Bool := (4, !st || (z r.b && z r.c))
  let im := vimm st r.b r.c
  match r.op.toNat with
  | 0x01 => chk ([(6, !st), (4, z r.c)] ++ decVArith r)
      (do let t ← vty r.ty; let m ← vrm r.rm; pure (.vadd ⟨h, r.b, t, vmodOf r m⟩))
  | 0x21 => chk (iz :: decVArith r)
      (do let t ← vty r.ty; let m ← vrm r.rm; pure (.vaddI ⟨h, im, t, vmodOf r m⟩))
  | 0x02 => chk ([(6, !st), (4, z r.c)] ++ decVArith r)
      (do let t ← vty r.ty; let m ← vrm r.rm; pure (.vsub ⟨h, r.b, t, vmodOf r m⟩))
  | 0x22 => chk (iz :: decVArith r)
      (do let t ← vty r.ty; let m ← vrm r.rm; pure (.vsubI ⟨h, im, t, vmodOf r m⟩))
  | 0x03 => chk ([(6, !st), (4, z r.c)] ++ decVArith r)
      (do let t ← vty r.ty; let m ← vrm r.rm; pure (.vmul ⟨h, r.b, t, vmodOf r m⟩))
  | 0x23 => chk (iz :: decVArith r)
      (do let t ← vty r.ty; let m ← vrm r.rm; pure (.vmulI ⟨h, im, t, vmodOf r m⟩))
  | 0x05 => chk ([(6, !st), (4, z r.c)] ++ decVMinMax r)
      (do let t ← vty r.ty; let m ← vrm r.rm; pure (.vmin ⟨h, r.b, t, vmodOf r m⟩))
  | 0x25 => chk (iz :: decVMinMax r)
      (do let t ← vty r.ty; let m ← vrm r.rm; pure (.vminI ⟨h, im, t, vmodOf r m⟩))
  | 0x06 => chk ([(6, !st), (4, z r.c)] ++ decVMinMax r)
      (do let t ← vty r.ty; let m ← vrm r.rm; pure (.vmax ⟨h, r.b, t, vmodOf r m⟩))
  | 0x26 => chk (iz :: decVMinMax r)
      (do let t ← vty r.ty; let m ← vrm r.rm; pure (.vmaxI ⟨h, im, t, vmodOf r m⟩))
  | 0x04 => chk [(6, !st), (4, z r.sub), (4, !r.sat), (5, r.ty.toNat ≤ 2)]
      (do let t ← vty r.ty; let m ← vrm r.rm; pure (.vfma ⟨h, r.b, r.c, t, vmodOf r m⟩))
  | 0x24 => chk [iz, (4, z r.sub), (4, !r.sat), (5, r.ty.toNat ≤ 2)]
      (do let t ← vty r.ty; let m ← vrm r.rm; pure (.vfmaI ⟨h, im, t, vmodOf r m⟩))
  | 0x07 => chk ([(6, !st), (4, z r.c), (4, z r.rm), (4, !r.sat), (4, z (r.d >>> 4)), (7, !z (r.d.setWidth 4)),
        (5, r.sub.toNat ≤ 5 || r.ty.toNat ≤ 2)] ++ vmods (r.ty.toNat ≤ 2) r)
      (do let t ← vty r.ty; let m ← vrm r.rm; let c ← vcondOf r.sub; pure (.vcmp ⟨h, r.b, t, c, vmodOf r m⟩))
  | 0x27 => chk ([iz, (4, z r.rm), (4, !r.sat), (4, z (r.d >>> 4)), (7, !z (r.d.setWidth 4)),
        (5, r.sub.toNat ≤ 5 || r.ty.toNat ≤ 2)] ++ vmods (r.ty.toNat ≤ 2) r)
      (do let t ← vty r.ty; let m ← vrm r.rm; let c ← vcondOf r.sub; pure (.vcmpI ⟨h, im, t, c, vmodOf r m⟩))
  | 0x08 => chk ([(6, !st), (5, z r.ty), (4, z (r.c >>> 4))] ++ vplain r)
      (some (.vsel ⟨h, r.b, r.c.setWidth 4⟩))
  | 0x28 => chk [iz, (5, z r.ty), (4, z r.rm), (4, !r.sat), (4, !r.na && !r.nb && !r.ab)]
      (some (.vselI ⟨h, im, r.sub⟩))
  | 0x09 => chk ([(6, !st), (5, z r.ty), (4, z r.c)] ++ vplain r) (some (.vand ⟨h, r.b⟩))
  | 0x29 => chk ([iz, (5, z r.ty)] ++ vplain r) (some (.vandI ⟨h, im⟩))
  | 0x0a => chk ([(6, !st), (5, z r.ty), (4, z r.c)] ++ vplain r) (some (.vor ⟨h, r.b⟩))
  | 0x2a => chk ([iz, (5, z r.ty)] ++ vplain r) (some (.vorI ⟨h, im⟩))
  | 0x0b => chk ([(6, !st), (5, z r.ty), (4, z r.c)] ++ vplain r) (some (.vxor ⟨h, r.b⟩))
  | 0x2b => chk ([iz, (5, z r.ty)] ++ vplain r) (some (.vxorI ⟨h, im⟩))
  | 0x0c => chk ([(6, !st), (5, 3 ≤ r.ty.toNat), (4, z r.c)] ++ vplain r) ((vty r.ty).map fun t => .vshl ⟨h, r.b, t⟩)
  | 0x2c => chk ([iz, (5, 3 ≤ r.ty.toNat)] ++ vplain r) ((vty r.ty).map fun t => .vshlI ⟨h, im, t⟩)
  | 0x0d => chk ([(6, !st), (5, 3 ≤ r.ty.toNat), (4, z r.c)] ++ vplain r) ((vty r.ty).map fun t => .vshr ⟨h, r.b, t⟩)
  | 0x2d => chk ([iz, (5, 3 ≤ r.ty.toNat)] ++ vplain r) ((vty r.ty).map fun t => .vshrI ⟨h, im, t⟩)
  | 0x0e => chk ([(6, !st), (5, 3 ≤ r.ty.toNat), (4, z r.c)] ++ vplain r) ((vty r.ty).map fun t => .vsar ⟨h, r.b, t⟩)
  | 0x2e => chk ([iz, (5, 3 ≤ r.ty.toNat)] ++ vplain r) ((vty r.ty).map fun t => .vsarI ⟨h, im, t⟩)
  | 0x0f => chk ([(6, !st), (5, z r.ty), (4, z r.b), (4, z r.c)] ++ vplain r) (some (.vmov h))
  | 0x2f => chk ([iz, (5, z r.ty), (4, z r.a)] ++ vplain r) (some (.vmovI ⟨⟨cl, r.k, r.d⟩, im⟩))
  | 0x10 => chk ([(6, !st), (5, 3 ≤ r.ty.toNat), (4, z r.b), (4, z r.c)] ++ vplain r)
      ((vty r.ty).map fun t => .vpop ⟨h, t⟩)
  | 0x11 => chk ([(6, !st), (5, 3 ≤ r.ty.toNat), (4, z r.b), (4, z r.c)] ++ vplain r)
      ((vty r.ty).map fun t => .vclz ⟨h, t⟩)
  | 0x12 => chk [(6, !st), (4, z r.b), (4, z (r.c >>> 4)), (4, z r.sub), (4, !r.na && !r.nb && !r.ab)]
      (do let d ← vty r.ty; let s ← vty (r.c.setWidth 4); let m ← vrm r.rm; pure (.vcvt ⟨h, d, s, m, r.sat⟩))
  | 0x13 => chk ([(6, !st), (5, 3 ≤ r.ty.toNat && r.ty.toNat ≤ 6), (4, z r.c)] ++ vplain r)
      ((vty r.ty).map fun t => .vmulh ⟨h, r.b, t⟩)
  | 0x14 => chk [(6, !st), (5, r.ty.toNat ≤ 2), (4, z r.b), (4, z r.c), (4, z r.sub), (4, !r.sat), (4, !r.na && !r.nb && !r.ab)]
      (do let t ← vty r.ty; let m ← vrm r.rm; pure (.vrnd ⟨h, t, m⟩))
  | 0x15 => chk ([(6, !st), (5, z r.ty), (4, z r.a), (4, z r.b), (4, z r.c)] ++ vplain r)
      (some (.vidx ⟨cl, r.k, r.d⟩))
  | _ => noOp

/-- The V slot. -/
def decV (cl : Cluster) (w : Nat) (st : Bool) : SlotRes := decVf cl (Vw.unpack w) st

/-! ### The F slot -/

/-- The F slot, from its fields. -/
def decFf (r : Fw) (st : Bool) : SlotRes :=
  let f : FOp := ⟨r.ab, r.na, r.k, clus r.ac, r.a, clus r.dc, r.d⟩
  let c := [(6, !st), (4, z r.z)]
  match r.op.toNat with
  | 0x01 => chk (c ++ [(5, !r.a.getLsbD 0)]) (some (.fdiv f))
  | 0x02 => chk c (some (.fsqrt f))
  | 0x03 => chk c (some (.frcp f))
  | 0x04 => chk c (some (.frsq f))
  | 0x05 => chk c (some (.fexp2 f))
  | 0x06 => chk c (some (.flog2 f))
  | 0x07 => chk c (some (.ftanh f))
  | _ => noOp

/-- The F slot. -/
def decF (w : Nat) (st : Bool) : SlotRes := decFf (Fw.unpack w) st

/-! ### The L slot -/

def lhdr (r : Lw) (k : BitVec 4) : LHdr := ⟨clus (r.dir.getLsbD 1), clus (r.dir.getLsbD 0), k, r.d, r.a⟩

def decK (r : Lw) (st : Bool) (mk : KOp → Instr) : SlotRes :=
  chk [(6, !st), (4, z r.d), (4, z r.a), (4, z r.b), (4, z r.dir), (4, z r.md), (7, !z r.kd)] (some (mk ⟨r.kd, r.ka, r.kb⟩))

/-- The L slot, from its fields. -/
def decLf (r : Lw) (st : Bool) : SlotRes :=
  match r.op.toNat with
  | 0x01 => decK r st .kand
  | 0x02 => decK r st .kor
  | 0x03 => decK r st .kxor
  | 0x04 => decK r st .kandn
  | 0x05 => chk [(6, st), (4, z r.d), (4, z r.a), (4, z r.b), (4, z r.ka), (4, z r.kb), (4, z r.dir), (4, z r.md), (7, !z r.kd)]
      (some (.kset r.kd))
  | 0x06 => chk [(6, !st), (4, z r.d), (4, z r.b), (4, z r.ka), (4, z r.kb), (4, z r.dir), (4, z r.md), (7, !z r.kd)]
      (some (.ksetSreg ⟨r.kd, r.a⟩))
  | 0x07 => chk [(6, !st), (4, z r.a), (4, z r.b), (4, z r.kd), (4, z r.kb), (4, z r.dir), (4, z r.md)]
      (some (.kpop ⟨r.d, r.ka⟩))
  | 0x08 => chk [(6, !st), (4, z r.d), (4, z r.a), (4, z r.b), (4, z r.kb), (4, z r.dir), (4, z r.md), (7, !z r.kd)]
      (some (.kfirst ⟨r.kd, r.ka⟩))
  | 0x10 => chk [(6, !st), (4, z r.b), (4, z r.ka), (4, z r.kb), (4, z r.md)] (some (.lmov (lhdr r r.kd)))
  | 0x11 => chk [(6, !st), (4, z r.ka), (4, z r.kb), (4, z r.md)] (some (.lshuf ⟨lhdr r r.kd, r.b⟩))
  | 0x12 => chk [(6, !st), (4, z r.kb), (4, z r.md), (4, z (r.kd >>> 1)),
        (5, !(r.b.getLsbD 5 && r.kd.getLsbD 0) || z (r.b.setWidth 5))]
      ((patOf ((r.kd.setWidth 1) ++ (r.b.extractLsb' 5 1))).map fun p => .lshufPat ⟨lhdr r r.ka, p, r.b.setWidth 5⟩)
  | 0x13 => chk [(6, !st), (4, z r.ka), (4, z r.kb), (4, z r.md), (5, !r.b.getLsbD 5)]
      (some (.lbcast ⟨lhdr r r.kd, r.b.setWidth 5⟩))
  | 0x14 => chk [(6, !st), (4, z r.b), (4, z r.ka), (4, z r.md)]
      ((redOf r.kb).map fun o => .lred ⟨lhdr r r.kd, o⟩)
  | 0x15 => chk [(6, !st), (4, z r.b), (4, z r.ka), (4, !r.md.getLsbD 1)]
      ((redOf r.kb).map fun o => .lscan ⟨lhdr r r.kd, o, r.md.getLsbD 0⟩)
  | 0x16 => chk [(6, !st), (4, z r.kd), (4, z r.ka), (4, z r.kb), (4, z r.md), (4, !r.dir.getLsbD 0), (5, !r.b.getLsbD 5)]
      (some (.lget ⟨r.d, clus (r.dir.getLsbD 1), r.a, r.b.setWidth 5⟩))
  | 0x17 => chk [(6, !st), (4, z r.kd), (4, z r.ka), (4, z r.kb), (4, z r.md), (5, r.dir.getLsbD 0 == r.dir.getLsbD 1),
        (5, !r.b.getLsbD 5)]
      (some (.lput ⟨clus (r.dir.getLsbD 0), r.d, r.a, r.b.setWidth 5⟩))
  | _ => noOp

/-- The L slot. -/
def decL (w : Nat) (st : Bool) : SlotRes := decLf (Lw.unpack w) st

/-! ### The M slot -/

/-- The index rule of pairs and quads for per-lane data (check 11 of R57). -/
def pairOk (wid : BitVec 3) (d : BitVec 6) : Bool :=
  match wid.toNat with
  | 3 => d.toNat % 2 == 0
  | 4 => d.toNat % 4 == 0
  | _ => true

def ordLoad (r : Mw) : List (Nat × Bool) := [(5, r.ord.toNat ≤ 1), (5, z r.ord || 3 ≤ r.scope.toNat)]
def ordStore (r : Mw) : List (Nat × Bool) := [(5, z r.ord || r.ord == 2), (5, z r.ord || 3 ≤ r.scope.toNat)]

def mhdr (r : Mw) (st : Bool) (hi : Hint) : MHdr := ⟨r.k, hi, r.seg, mdisp st r.disp⟩

/-- A cluster data class: DC 00 or 01. -/
def mdcOk (r : Mw) : Bool := r.dc.toNat ≤ 1
def mdc (r : Mw) : Cluster := clus (r.dc.getLsbD 0)

def decMAcc (r : Mw) (st : Bool) (o : List (Nat × Bool)) (mk : MAcc → Instr) : SlotRes :=
  chk ([(4, !st || z r.disp), (4, z r.sub), (5, mdcOk r), (11, pairOk r.wid r.d)] ++ o)
    (do let ac ← aclsOf r.ac; let wd ← widOf r.wid; let sc ← scopeOf r.scope; let od ← orderOf r.ord
        let hi ← hintOf r.hint
        pure (mk ⟨mhdr r st hi, mdc r, r.d, ac, r.a, wd, sc, od⟩))

def decMStr (r : Mw) (st : Bool) (o : List (Nat × Bool)) (mk : MStr → Instr) : SlotRes :=
  chk ([(4, !st || z r.disp), (4, z r.sub), (5, mdcOk r), (5, r.ac == 2), (5, r.a.toNat ≤ 62), (11, pairOk r.wid r.d)] ++ o)
    (do let wd ← widOf r.wid; let sc ← scopeOf r.scope; let od ← orderOf r.ord; let hi ← hintOf r.hint
        pure (mk ⟨mhdr r st hi, mdc r, r.d, r.a, wd, sc, od⟩))

/-- A scratchpad access uses no SEG, SCOPE, ORD or SUB (R349). -/
def locZero (r : Mw) (st : Bool) : List (Nat × Bool) :=
  [(4, !st || z r.disp), (4, z r.sub), (4, z r.seg), (4, z r.scope), (4, z r.ord), (5, mdcOk r), (11, pairOk r.wid r.d)]

def decMLoc (r : Mw) (st : Bool) (mk : MLoc → Instr) : SlotRes :=
  chk (locZero r st)
    (do let ac ← aclsOf r.ac; let wd ← widOf r.wid; let hi ← hintOf r.hint
        pure (mk ⟨r.k, hi, mdisp st r.disp, mdc r, r.d, ac, r.a, wd⟩))

def decMLocStr (r : Mw) (st : Bool) (mk : MLocStr → Instr) : SlotRes :=
  chk (locZero r st ++ [(5, r.ac == 2), (5, r.a.toNat ≤ 62)])
    (do let wd ← widOf r.wid; let hi ← hintOf r.hint
        pure (mk ⟨r.k, hi, mdisp st r.disp, mdc r, r.d, r.a, wd⟩))

def decMUni (r : Mw) (st : Bool) (o : List (Nat × Bool)) (mk : MUni → Instr) : SlotRes :=
  chk ([(4, !st || z r.disp), (4, z r.sub), (5, r.dc == 2), (5, r.ac == 2), (5, r.wid.toNat ≤ 3)] ++ o)
    (do let wd ← widOf r.wid; let sc ← scopeOf r.scope; let od ← orderOf r.ord; let hi ← hintOf r.hint
        pure (mk ⟨mhdr r st hi, r.d, r.a, wd, sc, od⟩))

/-- The copy class: DC 10 and WID 000, and no SCOPE or ORD (R90). -/
def copyZero (r : Mw) : List (Nat × Bool) :=
  [(5, z r.wid), (4, z r.scope), (4, z r.ord), (5, r.dc == 2)]

/-- The M slot, from its fields. -/
def decMf (r : Mw) (st : Bool) : SlotRes :=
  match r.op.toNat with
  | 0x01 => decMAcc r st (ordLoad r) .mld
  | 0x02 => decMStr r st (ordLoad r) .mldStride
  | 0x03 => decMAcc r st (ordStore r) .mst
  | 0x04 => decMStr r st (ordStore r) .mstStride
  | 0x05 => decMLoc r st .mldl
  | 0x06 => decMLocStr r st .mldlStride
  | 0x07 => decMLoc r st .mstl
  | 0x08 => decMLocStr r st .mstlStride
  | 0x09 => decMUni r st (ordLoad r) .mldu
  | 0x0a => decMUni r st (ordStore r) .mstu
  | 0x0b => chk [(6, !st), (4, !r.sub.getLsbD 4), (5, r.wid.toNat == 2 || r.wid.toNat == 3), (5, 3 ≤ r.scope.toNat),
        (5, r.dc != 2 || r.ac == 2), (5, (r.sub.setWidth 4 : BitVec 4) != 9 || r.wid == 2), (11, r.dc == 2 || pairOk r.wid r.d)]
      (do let ac ← aclsOf r.ac; let dc ← dclsOf r.dc; let sc ← scopeOf r.scope; let od ← orderOf r.ord
          let hi ← hintOf r.hint; let op ← atomOf (r.sub.setWidth 4)
          pure (.matom ⟨r.k, hi, r.seg, r.disp, dc, r.d, ac, r.a, r.wid == 3, sc, od, op, r.sub.getLsbD 5⟩))
  | 0x0c => chk [(6, !st), (4, z r.sub), (5, r.wid.toNat == 2 || r.wid.toNat == 3), (5, 3 ≤ r.scope.toNat),
        (5, r.dc != 2 || r.ac == 2), (5, r.d.toNat % 2 == 0), (5, r.dc == 2 || r.wid != 3 || r.d.toNat % 4 == 0)]
      (do let ac ← aclsOf r.ac; let dc ← dclsOf r.dc; let sc ← scopeOf r.scope; let od ← orderOf r.ord
          let hi ← hintOf r.hint
          pure (.mcas ⟨r.k, hi, r.seg, r.disp, dc, r.d, ac, r.a, r.wid == 3, sc, od⟩))
  | 0x0d => chk [(4, !st || z r.disp), (4, z r.sub), (5, r.wid.toNat == 2 || r.wid.toNat == 3), (5, 3 ≤ r.scope.toNat),
        (5, r.ord.toNat ≤ 1), (5, r.dc == 2), (5, r.ac == 2), (5, r.d.toNat % 2 == 0)]
      (do let sc ← scopeOf r.scope; let hi ← hintOf r.hint
          pure (.mwatch ⟨mhdr r st hi, r.d, r.a, r.wid == 3, sc, r.ord == 1⟩))
  | 0x0e => chk [(4, !st || z r.disp), (4, z r.d), (5, z r.wid), (4, z r.scope), (4, z r.ord), (4, z r.sub), (5, r.dc == 3)]
      (do let ac ← aclsOf r.ac; let hi ← hintOf r.hint; pure (.mpref ⟨mhdr r st hi, ac, r.a⟩))
  | 0x0f => chk [(4, !st || z r.disp), (4, z r.d), (5, z r.wid), (4, z r.scope), (4, z r.ord), (5, r.dc == 3)]
      (do let ac ← aclsOf r.ac; let hi ← hintOf r.hint; let f ← flushOf r.sub; pure (.mflush ⟨mhdr r st hi, ac, r.a, f⟩))
  | 0x10 => chk ([(4, !st || z r.disp), (5, r.ac == 2), (5, r.a.toNat ≤ 61), (4, z (r.sub >>> 4))] ++ copyZero r)
      ((hintOf r.hint).map fun hi => .mcopy ⟨mhdr r st hi, r.d, r.a, r.sub.setWidth 2, r.sub.getLsbD 2, r.sub.getLsbD 3⟩)
  | 0x11 => chk ([(4, !st || z r.disp), (5, r.ac == 2), (5, r.a.toNat ≤ 60), (4, z (r.sub >>> 2))] ++ copyZero r)
      ((hintOf r.hint).map fun hi => .mgather ⟨mhdr r st hi, r.d, r.a, r.sub.setWidth 2⟩)
  | 0x12 => chk ([(4, !st || z r.disp), (5, r.ac == 2), (5, r.a.toNat ≤ 60), (5, !z (r.sub >>> 2))] ++ copyZero r)
      ((hintOf r.hint).map fun hi => .mcast ⟨mhdr r st hi, r.d, r.a, r.sub.setWidth 2, r.sub.extractLsb' 2 4⟩)
  | 0x13 => chk ([(6, !st), (4, z r.disp), (4, z r.seg), (5, r.ac == 2), (5, r.a.toNat ≤ 61), (4, z (r.sub >>> 4)),
        (5, !r.sub.getLsbD 2)] ++ copyZero r)
      ((hintOf r.hint).map fun hi => .mspush ⟨r.k, hi, r.d, r.a, r.sub.setWidth 2, r.sub.getLsbD 3⟩)
  | 0x14 => chk ([(6, !st), (4, z r.disp), (4, z r.seg), (5, r.ac == 2), (5, r.a.toNat ≤ 61), (4, z (r.sub >>> 4)),
        (5, r.sub.getLsbD 2)] ++ copyZero r)
      ((hintOf r.hint).map fun hi => .mspop ⟨r.k, hi, r.d, r.a, r.sub.setWidth 2, r.sub.getLsbD 3⟩)
  | 0x15 => chk ([(6, !st), (4, z r.disp), (4, z r.seg), (4, z r.a), (5, r.ac == 3), (4, z (r.sub >>> 4)),
        (5, r.sub.getLsbD 2)] ++ copyZero r)
      ((hintOf r.hint).map fun hi => .msfree ⟨r.k, hi, r.d, r.sub.setWidth 2, r.sub.getLsbD 3⟩)
  | _ => noOp

/-- The M slot. -/
def decM (w : Nat) (st : Bool) : SlotRes := decMf (Mw.unpack w) st

/-! ### The T slot -/

def decTClaim (r : Tw) (st : Bool) (mk : TClaimF → Instr) : SlotRes :=
  chk [(6, !st), (4, z r.c), (4, z r.ob), (4, z r.p), (4, z r.fmt), (4, z r.orb), (4, z r.seg), (4, z r.a), (4, z r.ms),
      (4, z r.sub), (5, r.oa.toNat + tcount r.n ≤ 32)]
    (some (mk ⟨r.k, r.oa, r.n⟩))

/-- TLOAD and TSTORE (R370). DESIGN CHOICE (log 62): OA or C of the form that does not use it fails check 4, SEG or a scope in the
scratchpad form fails check 5; R57 and R75 leave open which of the two reports them. -/
def decTMem (r : Tw) (st : Bool) (mk : TMem → Instr) : SlotRes :=
  let acc := r.sub.getLsbD 3
  let loc := r.sub.getLsbD 4
  chk [(4, z r.ob), (4, z r.p), (4, z r.n), (4, !r.orb.getLsbD 1), (4, if acc then z r.oa else z r.c),
      (5, if acc then z r.fmt else !z r.fmt), (5, !loc || z r.seg), (5, !loc || z (r.sub.setWidth 3)),
      (5, r.a.toNat ≤ (if r.fmt = 7 then 61 else 62))]
    (do let f ← tfmt r.fmt; let m ← tmsOf r.ms; let sc ← scopeOf (r.sub.setWidth 3)
        pure (mk ⟨r.k, m, r.a, r.seg, r.orb.getLsbD 0, f, if acc then .acc r.c else .slot r.oa, loc, sc, st⟩))

/-- The T slot, from its fields. -/
def decTf (r : Tw) (st : Bool) : SlotRes :=
  match r.op.toNat with
  | 0x01 => decTClaim r st .tclaim
  | 0x02 => decTClaim r st .trel
  | 0x03 => decTMem r st .tload
  | 0x04 => decTMem r st .tstore
  | 0x05 => chk [(6, !st), (4, z r.oa), (4, z r.ob), (4, z r.fmt), (4, z r.orb), (4, z r.seg), (4, z r.a), (4, z r.n), (4, z r.ms),
        (4, z (r.sub >>> 1)), (4, if r.sub.getLsbD 0 then z r.c else z r.p)]
      (some (.tzero ⟨r.k, if r.sub.getLsbD 0 then .part r.p else .acc r.c⟩))
  | 0x06 => chk [(6, !st), (4, z r.p), (4, z r.seg), (4, z r.a), (4, z r.sub), (5, 1 ≤ r.fmt.toNat && r.fmt.toNat ≤ 6),
        (5, r.oa.toNat + tcount r.n ≤ 32), (5, r.ob.toNat + tcount r.n ≤ 32)]
      (do let f ← tfmt r.fmt; let m ← tmsOf r.ms
          pure (.tmma ⟨r.k, m, r.n, r.orb.getLsbD 0, r.orb.getLsbD 1, f, r.ob, r.oa, r.c⟩))
  | 0x07 => chk [(6, !st), (4, z r.c), (4, z r.seg), (4, z r.a), (4, z r.n), (4, z r.sub), (5, r.fmt == 7)]
      ((tmsOf r.ms).map fun m => .tbmm ⟨r.k, m, r.orb.getLsbD 0, r.orb.getLsbD 1, r.p, r.ob, r.oa⟩)
  | 0x08 => chk [(6, !st), (4, z r.fmt), (4, z r.orb), (4, z r.seg), (4, z r.a), (4, z r.n), (4, z r.sub)]
      ((tmsOf r.ms).map fun m => .tscac ⟨r.k, m, r.p, r.ob, r.oa, r.c⟩)
  | 0x09 =>
      let mem := r.sub.getLsbD 2
      chk [(6, !st || mem), (4, z r.ob), (4, z r.p), (4, z r.n), (4, !r.orb.getLsbD 1), (4, z (r.sub >>> 3)), (5, r.fmt == 7),
        (5, r.c.toNat % 8 == 0), (4, if mem then z r.oa else z r.seg), (5, !mem || r.a.toNat ≤ 60)]
      (do let m ← tmsOf r.ms; let h ← hadOf (r.sub.setWidth 2)
          pure (.tquant ⟨r.k, m, r.a, r.orb.getLsbD 0, h, r.c, if mem then .mem r.seg st else .slot r.oa⟩))
  | 0x0a => chk [(6, !st), (4, z r.ob), (4, z r.p), (4, z r.seg), (4, z r.a), (4, z r.n), (4, !r.orb.getLsbD 1), (4, z (r.sub >>> 1)),
        (5, 1 ≤ r.fmt.toNat && r.fmt.toNat ≤ 4), (5, if r.fmt.toNat ≤ 2 then r.c.toNat % 2 == 0 else r.c.toNat % 4 == 0)]
      (do let f ← tfmt r.fmt; let m ← tmsOf r.ms
          pure (.tcvt ⟨r.k, m, r.orb.getLsbD 0, f, r.sub.getLsbD 0, r.oa, r.c⟩))
  | 0x0b => chk [(6, !st), (4, z r.oa), (4, z r.ob), (4, z r.p), (4, z r.fmt), (4, z r.orb), (4, z r.seg), (4, z r.ms),
        (5, 4 * (r.sub.toNat / 4) + tcount r.n ≤ 32), (5, r.a.toNat + tcount r.n ≤ 64)]
      (some (.tmovv ⟨r.k, r.n, r.a, r.c, clus (r.sub.getLsbD 0), r.sub.getLsbD 1, r.sub.extractLsb' 2 3⟩))
  | 0x0c => chk [(6, !st), (4, z r.c), (4, z r.ob), (4, z r.p), (4, z r.fmt), (4, z r.orb), (4, z r.seg), (4, z r.n), (4, z r.ms), (4, z r.sub)]
      (some (.tstat ⟨r.k, r.a, r.oa⟩))
  | 0x3e => chk [(6, !st), (4, z r.p), (4, z r.seg), (4, z r.a), (4, z r.n), (4, z r.sub), (5, r.fmt == 1)]
      ((tmsOf r.ms).map fun m => .tmmao ⟨r.k, m, r.orb.getLsbD 0, r.orb.getLsbD 1, r.ob, r.oa, r.c⟩)
  | 0x3f => chk [(4, z r.c), (4, z r.ob), (4, z r.p), (4, z r.orb), (4, z r.n), (4, z r.sub), (5, r.fmt == 1), (5, r.a.toNat ≤ 62)]
      ((tmsOf r.ms).map fun m => .tldo ⟨r.k, m, r.a, r.seg, r.oa, st⟩)
  | _ => noOp

/-- The T slot. -/
def decT (w : Nat) (st : Bool) : SlotRes := decTf (Tw.unpack w) st

/-! ### The control word (R50) -/

/-- The seven slots. -/
inductive SlotId where | S | V0 | V1 | F | L | M | T
  deriving DecidableEq, Repr

/-- A decoded control word: OPPSEL request, WAIT, SP, IMMR and the operations present. -/
structure Bundle where
  opp : Option (BitVec 3)
  wait : BitVec 3
  sp : Bool
  immr : BitVec 3
  slots : List (SlotId × Instr)
  deriving DecidableEq, Repr

/-- Position of a slot in the word: lowest bit and width (R50). -/
def slotPos (x : SlotId) : Nat × Nat :=
  match x with
  | .S => (32, 48) | .V0 => (80, 48) | .V1 => (128, 48) | .F => (176, 32) | .L => (208, 40) | .M => (248, 64) | .T => (312, 56)

/-- The slot's place in PRESENT and its IMMR code less one (R50). -/
def slotNum (x : SlotId) : Nat :=
  match x with | .S => 0 | .V0 => 1 | .V1 => 2 | .F => 3 | .L => 4 | .M => 5 | .T => 6

def allSlots : List SlotId := [.S, .V0, .V1, .F, .L, .M, .T]

def slotRaw (cw : Nat) (x : SlotId) : Nat := cw / 2 ^ (slotPos x).1 % 2 ^ (slotPos x).2

def slotPresent (cw : Nat) (x : SlotId) : Bool := bit1 cw (12 + slotNum x)

def immrOf (cw : Nat) : Nat := (fld cw 9 3).toNat

/-- One slot of a word. -/
def decSlot (x : SlotId) (w : Nat) (st : Bool) : SlotRes :=
  match x with
  | .S => decS w st
  | .V0 => decV .A w st
  | .V1 => decV .B w st
  | .F => decF w st
  | .L => decL w st
  | .M => decM w st
  | .T => decT w st

def presentRes (cw : Nat) : List (SlotId × SlotRes) :=
  (allSlots.filter (slotPresent cw)).map fun x => (x, decSlot x (slotRaw cw x) (immrOf cw == slotNum x + 1))

/-- Checks 1, 2 and the absent-slot part of 6 (R57). -/
def wordChecks (cw : Nat) : List Nat :=
  let opp := (fld cw 2 4).toNat
  (if bit1 cw 0 && (fld cw 19 13 == 0) && (opp == 0 || 8 ≤ opp) then [] else [1]) ++
  (if (allSlots.all fun x => slotPresent cw x || slotRaw cw x == 0) && fld cw 368 16 == 0 then [] else [2]) ++
  (if immrOf cw == 0 || (allSlots.any fun x => immrOf cw == slotNum x + 1 && slotPresent cw x) then [] else [6])

/-- The bundle that a word denotes when no check fails. -/
def bundleOf (cw : Nat) : Bundle :=
  { opp := if bit1 cw 5 then some (fld cw 2 3) else none
    wait := fld cw 6 3
    sp := bit1 cw 1
    immr := fld cw 9 3
    slots := (presentRes cw).filterMap fun p => p.2.i.map fun i => (p.1, i) }

/-! ### Tokens (R59) -/

/-- A token: its dictionary index, how long it is, and what follows the index. -/
inductive TokTail where
  | plain
  | imm (wide : Bool) (v : DWord)
  | safe (mask : DWord)
  deriving DecidableEq, Repr

inductive Tok where
  | pad
  | reserved
  | short
  | ok (idx : Nat) (len : Nat) (tail : TokTail)
  deriving DecidableEq, Repr

/-- The length that a first byte announces (R59); 0 for a reserved byte. -/
def tokLen (b : Nat) : Nat :=
  if b < 0x80 then 1 else if b < 0xC0 then 2 else if b < 0xE0 then (if b / 16 % 2 = 0 then 6 else 10)
  else if b < 0xF0 then 10 else if b = 0xF0 then 1 else 0

/-- Read a token from the bytes at its start; `short` when they end too soon. -/
def decTok (bs : List Byte) : Tok :=
  match bs with
  | [] => .short
  | b0 :: t =>
    let b := b0.toNat
    if bs.length < tokLen b then .short
    else if b < 0x80 then .ok b 1 .plain
    else if b < 0xC0 then .ok (b % 64 * 256 + leNat (t.take 1)) 2 .plain
    else if b < 0xD0 then .ok (b % 16 * 256 + leNat (t.take 1)) 6 (.imm false (((BitVec.ofNat 32 (leNat ((t.drop 1).take 4))).signExtend 64)))
    else if b < 0xE0 then .ok (b % 16 * 256 + leNat (t.take 1)) 10 (.imm true (BitVec.ofNat 64 (leNat ((t.drop 1).take 8))))
    else if b < 0xF0 then .ok (b % 16 * 256 + leNat (t.take 1)) 10 (.safe (BitVec.ofNat 64 (leNat ((t.drop 1).take 8))))
    else if b = 0xF0 then .pad
    else .reserved

/-! ### The encoder -/

def SAw.zero : SAw := ⟨0, 0, 0, 0, 0, 0, 0, 0⟩
def SBw.zero : SBw := ⟨0, 0, 0, 0, 0, 0⟩
def SCw.zero : SCw := ⟨0, 0, 0, 0, 0, 0, 0, 0⟩
def Vw.zero : Vw := ⟨0, 0, 0, 0, 0, 0, 0, 0, false, false, false, false, 0⟩
def Lw.zero : Lw := ⟨0, 0, 0, 0, 0, 0, 0, 0, 0⟩
def Mw.zero : Mw := ⟨0, 0, 0, 0, 0, 0, 0, 0, 0, 0, 0, 0, 0⟩
def Tw.zero : Tw := ⟨0, 0, 0, 0, 0, 0, 0, 0, 0, 0, 0, 0, 0⟩

/-- A bit as a code. -/
def b1 (b : Bool) : BitVec 1 := if b then 1 else 0

/-- A slot word of an operation: its slot, its bits, and whether it takes the stream immediate. -/
structure SlotWord where
  slot : SlotId
  bits : Nat
  stream : Bool
  deriving DecidableEq, Repr

def encSA (st : Bool) (r : SAw) : Option SlotWord := some ⟨.S, r.pack, st⟩
def encSB (r : SBw) : Option SlotWord := some ⟨.S, r.pack, false⟩
def encSC (r : SCw) : Option SlotWord := some ⟨.S, r.pack, false⟩

def encSaReg (op : BitVec 6) (r : SaReg) (cc : BitVec 4) (md : BitVec 6) : Option SlotWord :=
  encSA false ⟨op, r.d, r.a, r.b, 0, cc, swidthC r.w, md⟩
def encSaImm (op : BitVec 6) (r : SaImm) (cc : BitVec 4) (md : BitVec 6) : Option SlotWord :=
  encSA (simmSt r.imm) ⟨op, r.d, r.a, 0, simmC r.imm, cc, swidthC r.w, md⟩
def encScWait (op : BitVec 6) (f : ScWait) : Option SlotWord :=
  encSC { SCw.zero with op := op, a := scopA f.op, idx := f.idx, imm := scopI f.op }
def encCode (op : BitVec 6) (c : BitVec 8) : Option SlotWord :=
  encSB { SBw.zero with op := op, disp := c.setWidth 24 }

/-- The slot of a cluster's vector operations (R82). -/
def vslot (c : Cluster) : SlotId := match c with | .A => .V0 | .B => .V1

def encV (cl : Cluster) (st : Bool) (r : Vw) : Option SlotWord := some ⟨vslot cl, r.pack, st⟩

def encVr (op : BitVec 6) (h : VHdr) (b c : BitVec 6) (t : Ty) (m : VMod) (sub : BitVec 3) : Option SlotWord :=
  encV h.cl false ⟨op, h.d, h.a, b, c, vtyC t, h.k, vrmC m.rm, m.na, m.nb, m.ab, m.sat, sub⟩
def encVi (op : BitVec 6) (h : VHdr) (i : VImm) (t : Ty) (m : VMod) (sub : BitVec 3) : Option SlotWord :=
  encV h.cl (vimmSt i) ⟨op, h.d, h.a, vimmB i, vimmCF i, vtyC t, h.k, vrmC m.rm, m.na, m.nb, m.ab, m.sat, sub⟩
/-- No modifier. -/
def VMod.zero : VMod := ⟨.rne, false, false, false, false⟩

def encF (op : BitVec 6) (f : FOp) : Option SlotWord :=
  some ⟨.F, Fw.pack ⟨op, f.d, clusC f.dc, f.a, clusC f.ac, f.k, f.na, f.ab, 0⟩, false⟩

def encL (st : Bool) (r : Lw) : Option SlotWord := some ⟨.L, r.pack, st⟩
def encK (op : BitVec 6) (f : KOp) : Option SlotWord :=
  encL false { Lw.zero with op := op, kd := f.kd, ka := f.ka, kb := f.kb }
/-- DIR: source cluster above destination cluster (R86). -/
def dirC (s d : Cluster) : BitVec 2 := b1 (clusC s) ++ b1 (clusC d)
def encLh (op : BitVec 6) (h : LHdr) (b : BitVec 6) (kb : BitVec 4) (md : BitVec 2) : Option SlotWord :=
  encL false ⟨op, h.d, h.a, b, h.k, 0, kb, dirC h.sc h.dc, md⟩

def encM (st : Bool) (r : Mw) : Option SlotWord := some ⟨.M, r.pack, st⟩
def dcC (c : Cluster) : BitVec 2 := match c with | .A => 0 | .B => 1
def encMAcc (op : BitVec 6) (f : MAcc) : Option SlotWord :=
  encM (mdispSt f.h.disp) ⟨op, f.d, dcC f.dc, f.h.seg, f.a, aclsOfC f.ac, widOfC f.wid, f.h.k, scopeOfC f.scope,
    orderOfC f.ord, hintOfC f.h.hint, mdispC f.h.disp, 0⟩
def encMStr (op : BitVec 6) (f : MStr) : Option SlotWord :=
  encM (mdispSt f.h.disp) ⟨op, f.d, dcC f.dc, f.h.seg, f.a, 2, widOfC f.wid, f.h.k, scopeOfC f.scope,
    orderOfC f.ord, hintOfC f.h.hint, mdispC f.h.disp, 0⟩
def encMLoc (op : BitVec 6) (f : MLoc) : Option SlotWord :=
  encM (mdispSt f.disp) ⟨op, f.d, dcC f.dc, 0, f.a, aclsOfC f.ac, widOfC f.wid, f.k, 0, 0, hintOfC f.hint,
    mdispC f.disp, 0⟩
def encMLocStr (op : BitVec 6) (f : MLocStr) : Option SlotWord :=
  encM (mdispSt f.disp) ⟨op, f.d, dcC f.dc, 0, f.a, 2, widOfC f.wid, f.k, 0, 0, hintOfC f.hint, mdispC f.disp, 0⟩
def encMUni (op : BitVec 6) (f : MUni) : Option SlotWord :=
  encM (mdispSt f.h.disp) ⟨op, f.d, 2, f.h.seg, f.a, 2, widOfC f.wid, f.h.k, scopeOfC f.scope,
    orderOfC f.ord, hintOfC f.h.hint, mdispC f.h.disp, 0⟩
def encCopy (op : BitVec 6) (h : MHdr) (d a : BitVec 6) (sub : BitVec 6) : Option SlotWord :=
  encM (mdispSt h.disp) ⟨op, d, 2, h.seg, a, 2, 0, h.k, 0, 0, hintOfC h.hint, mdispC h.disp, sub⟩
def encStream (op : BitVec 6) (k : BitVec 4) (hint : Hint) (d a : BitVec 6) (ac : BitVec 2) (sub : BitVec 6) :
    Option SlotWord :=
  encM false ⟨op, d, 2, 0, a, ac, 0, k, 0, 0, hintOfC hint, 0, sub⟩

def encT (st : Bool) (r : Tw) : Option SlotWord := some ⟨.T, r.pack, st⟩
/-- OR: bit 0 operand A, bit 1 operand B (R93). -/
def orC (a b : Bool) : BitVec 2 := b1 b ++ b1 a
def encTMem (op : BitVec 6) (f : TMem) : Option SlotWord :=
  encT f.imm ⟨op,
    (match f.data with | .slot _ => 0 | .acc c => c),
    (match f.data with | .slot o => o | .acc _ => 0), 0, 0, tfmtC f.fmt, orC f.kc false, f.seg, f.a, 0, tmsOfC f.ms, f.k,
    b1 f.loc ++ b1 (match f.data with | .slot _ => false | .acc _ => true) ++ scopeOfC f.scope⟩

/-- The slot word of an operation (R75 to R95), or nothing for a step that no slot holds. -/
def encode (i : Instr) : Option SlotWord :=
  match i with
  | .sadd f => encSaReg 1 f 0 0
  | .saddI f => encSaImm 17 f 0 0
  | .ssub f => encSaReg 2 f 0 0
  | .ssubI f => encSaImm 18 f 0 0
  | .smul f => encSaReg 3 f 0 0
  | .smulI f => encSaImm 19 f 0 0
  | .smulh f => encSaReg 4 f 0 0
  | .sand f => encSaReg 5 f 0 0
  | .sandI f => encSaImm 21 f 0 0
  | .sor f => encSaReg 6 f 0 0
  | .sorI f => encSaImm 22 f 0 0
  | .sxor f => encSaReg 7 f 0 0
  | .sxorI f => encSaImm 23 f 0 0
  | .sshl f => encSaReg 8 f 0 0
  | .sshlI f => encSaImm 24 f 0 0
  | .sshr f => encSaReg 9 f 0 0
  | .sshrI f => encSaImm 25 f 0 0
  | .ssar f => encSaReg 10 f 0 0
  | .ssarI f => encSaImm 26 f 0 0
  | .smin f => encSaReg 11 f.r 0 ((b1 f.uns).setWidth 6)
  | .sminI f => encSaImm 27 f.r 0 ((b1 f.uns).setWidth 6)
  | .smax f => encSaReg 12 f.r 0 ((b1 f.uns).setWidth 6)
  | .smaxI f => encSaImm 28 f.r 0 ((b1 f.uns).setWidth 6)
  | .sset f => encSaReg 13 f.r (condC f.cc) 0
  | .ssetI f => encSaImm 29 f.r (condC f.cc) 0
  | .ssel f => encSaReg 14 f.r (condC f.cc) f.c
  | .srd f => encSA false { SAw.zero with op := 15, d := f.d, imm := f.num.setWidth 12 }
  | .sli f => encSA (simmSt f.imm) { SAw.zero with op := 30, d := f.d, imm := simmC f.imm }
  | .swr f => encSA false { SAw.zero with op := 31, a := f.a, imm := f.num.setWidth 12 }
  | .felrd f => encSA false { SAw.zero with op := 0x36, d := f.d, md := (b1 f.clr).setWidth 6 }
  | .br d => encSB { SBw.zero with op := 0x20, disp := d }
  | .brc f => encSB { SBw.zero with op := 0x21, a := f.a, k := f.k, cc := condC f.cc, disp := f.disp }
  | .brx a => encSB { SBw.zero with op := 0x22, a := a }
  | .call f => encSB { SBw.zero with op := 0x23, a := f.a, disp := f.disp }
  | .ret a => encSB { SBw.zero with op := 0x24, a := a }
  | .loop f => encSB { SBw.zero with op := 0x25, a := f.a, disp := f.disp }
  | .exit k => encSB { SBw.zero with op := 0x26, k := k }
  | .yield => encSB { SBw.zero with op := 0x27 }
  | .trap c => encCode 0x28 c
  | .bkpt c => encCode 0x29 c
  | .svc c => encCode 0x2a c
  | .eret => encSB { SBw.zero with op := 0x2b }
  | .bar f => encSC { SCw.zero with op := 0x30, idx := f.cv.setWidth 6, mode := (b1 f.arriveOnly).setWidth 3 }
  | .fence f => encSC { SCw.zero with op := 0x31, scope := scopeOfC f.scope, ord := orderOfC f.ord, mode := (b1 f.full).setWidth 3 }
  | .phase m => encSC { SCw.zero with op := 0x32, mode := phaseOfC m }
  | .mwait f => encScWait 0x33 f
  | .gwait f => encScWait 0x34 f
  | .gopen f => encScWait 0x35 f
  | .replay o => encSC { SCw.zero with op := 0x38, a := scopA o, imm := scopI o }
  | .invpg f => encSC { SCw.zero with op := 0x39, a := f.a, idx := f.cls.setWidth 6, mode := (b1 f.whole).setWidth 3 }
  | .vadd f => encVr 1 f.h f.b 0 f.ty f.m 0
  | .vaddI f => encVi 33 f.h f.imm f.ty f.m 0
  | .vsub f => encVr 2 f.h f.b 0 f.ty f.m 0
  | .vsubI f => encVi 34 f.h f.imm f.ty f.m 0
  | .vmul f => encVr 3 f.h f.b 0 f.ty f.m 0
  | .vmulI f => encVi 35 f.h f.imm f.ty f.m 0
  | .vmin f => encVr 5 f.h f.b 0 f.ty f.m 0
  | .vminI f => encVi 37 f.h f.imm f.ty f.m 0
  | .vmax f => encVr 6 f.h f.b 0 f.ty f.m 0
  | .vmaxI f => encVi 38 f.h f.imm f.ty f.m 0
  | .vfma f => encVr 4 f.h f.b f.c f.ty f.m 0
  | .vfmaI f => encVi 36 f.h f.imm f.ty f.m 0
  | .vcmp f => encVr 7 f.h f.b 0 f.ty f.m (vcondOfC f.cond)
  | .vcmpI f => encVi 39 f.h f.imm f.ty f.m (vcondOfC f.cond)
  | .vsel f => encVr 8 f.h f.b (f.sel.setWidth 6) .f32 .zero 0
  | .vselI f => encVi 40 f.h f.imm .f32 .zero f.sel
  | .vand f => encVr 9 f.h f.b 0 .f32 .zero 0
  | .vandI f => encVi 41 f.h f.imm .f32 .zero 0
  | .vor f => encVr 10 f.h f.b 0 .f32 .zero 0
  | .vorI f => encVi 42 f.h f.imm .f32 .zero 0
  | .vxor f => encVr 11 f.h f.b 0 .f32 .zero 0
  | .vxorI f => encVi 43 f.h f.imm .f32 .zero 0
  | .vshl f => encVr 12 f.h f.b 0 f.ty .zero 0
  | .vshlI f => encVi 44 f.h f.imm f.ty .zero 0
  | .vshr f => encVr 13 f.h f.b 0 f.ty .zero 0
  | .vshrI f => encVi 45 f.h f.imm f.ty .zero 0
  | .vsar f => encVr 14 f.h f.b 0 f.ty .zero 0
  | .vsarI f => encVi 46 f.h f.imm f.ty .zero 0
  | .vmov h => encVr 15 h 0 0 .f32 .zero 0
  | .vmovI f => encVi 47 ⟨f.h.cl, f.h.k, f.h.d, 0⟩ f.imm .f32 .zero 0
  | .vpop f => encVr 16 f.h 0 0 f.ty .zero 0
  | .vclz f => encVr 17 f.h 0 0 f.ty .zero 0
  | .vcvt f => encVr 18 f.h 0 ((vtyC f.src).setWidth 6) f.dst ⟨f.rm, false, false, false, f.sat⟩ 0
  | .vmulh f => encVr 19 f.h f.b 0 f.ty .zero 0
  | .vrnd f => encVr 20 f.h 0 0 f.ty ⟨f.rm, false, false, false, false⟩ 0
  | .vidx f => encVr 21 ⟨f.cl, f.k, f.d, 0⟩ 0 0 .f32 .zero 0
  | .fdiv f => encF 1 f
  | .fsqrt f => encF 2 f
  | .frcp f => encF 3 f
  | .frsq f => encF 4 f
  | .fexp2 f => encF 5 f
  | .flog2 f => encF 6 f
  | .ftanh f => encF 7 f
  | .kand f => encK 1 f
  | .kor f => encK 2 f
  | .kxor f => encK 3 f
  | .kandn f => encK 4 f
  | .kset k => encL true { Lw.zero with op := 5, kd := k }
  | .ksetSreg f => encL false { Lw.zero with op := 6, a := f.a, kd := f.kd }
  | .kpop f => encL false { Lw.zero with op := 7, d := f.d, ka := f.ka }
  | .kfirst f => encL false { Lw.zero with op := 8, kd := f.kd, ka := f.ka }
  | .lmov h => encLh 0x10 h 0 0 0
  | .lshuf f => encLh 0x11 f.h f.b 0 0
  | .lshufPat f => encL false ⟨0x12, f.h.d, f.h.a, (patOfC f.kind).extractLsb' 0 1 ++ f.n, ((patOfC f.kind).extractLsb' 1 1).setWidth 4, f.h.k, 0, dirC f.h.sc f.h.dc, 0⟩
  | .lbcast f => encLh 0x13 f.h (f.lane.setWidth 6) 0 0
  | .lred f => encLh 0x14 f.h 0 (redOfC f.op) 0
  | .lscan f => encLh 0x15 f.h 0 (redOfC f.op) ((b1 f.excl).setWidth 2)
  | .lget f => encL false { Lw.zero with op := 0x16, d := f.d, a := f.a, b := f.lane.setWidth 6, dir := dirC f.sc .A }
  | .lput f => encL false { Lw.zero with op := 0x17, d := f.d, a := f.a, b := f.lane.setWidth 6, dir := dirC f.dc f.dc }
  | .mld f => encMAcc 1 f
  | .mldStride f => encMStr 2 f
  | .mst f => encMAcc 3 f
  | .mstStride f => encMStr 4 f
  | .mldl f => encMLoc 5 f
  | .mldlStride f => encMLocStr 6 f
  | .mstl f => encMLoc 7 f
  | .mstlStride f => encMLocStr 8 f
  | .mldu f => encMUni 9 f
  | .mstu f => encMUni 10 f
  | .matom f => encM false ⟨0x0b, f.d, dclsOfC f.dc, f.seg, f.a, aclsOfC f.ac, if f.wide then 3 else 2, f.k, scopeOfC f.scope, orderOfC f.ord, hintOfC f.hint, f.disp, b1 f.ret ++ (0 : BitVec 1) ++ atomOfC f.op⟩
  | .mcas f => encM false ⟨0x0c, f.d, dclsOfC f.dc, f.seg, f.a, aclsOfC f.ac, if f.wide then 3 else 2, f.k, scopeOfC f.scope, orderOfC f.ord, hintOfC f.hint, f.disp, 0⟩
  | .mwatch f => encM (mdispSt f.h.disp) ⟨0x0d, f.d, 2, f.h.seg, f.a, 2, if f.wide then 3 else 2, f.h.k, scopeOfC f.scope, if f.acq then 1 else 0, hintOfC f.h.hint, mdispC f.h.disp, 0⟩
  | .mpref f => encM (mdispSt f.h.disp) ⟨0x0e, 0, 3, f.h.seg, f.a, aclsOfC f.ac, 0, f.h.k, 0, 0, hintOfC f.h.hint, mdispC f.h.disp, 0⟩
  | .mflush f => encM (mdispSt f.h.disp) ⟨0x0f, 0, 3, f.h.seg, f.a, aclsOfC f.ac, 0, f.h.k, 0, 0, hintOfC f.h.hint, mdispC f.h.disp, flushOfC f.op⟩
  | .mcopy f => encCopy 0x10 f.h f.d f.a ((b1 f.slot ++ b1 f.out ++ f.ctx).setWidth 6)
  | .mgather f => encCopy 0x11 f.h f.d f.a (f.ctx.setWidth 6)
  | .mcast f => encCopy 0x12 f.h f.d f.a (f.targets ++ f.ctx)
  | .mspush f => encStream 0x13 f.k f.hint f.d f.a 2 ((b1 f.ms7 ++ (0 : BitVec 1) ++ f.ep).setWidth 6)
  | .mspop f => encStream 0x14 f.k f.hint f.d f.a 2 ((b1 f.ms7 ++ (1 : BitVec 1) ++ f.ep).setWidth 6)
  | .msfree f => encStream 0x15 f.k f.hint f.d 0 3 ((b1 f.ms7 ++ (1 : BitVec 1) ++ f.ep).setWidth 6)
  | .tclaim f => encT false { Tw.zero with op := 1, oa := f.oa, n := f.n, k := f.k }
  | .trel f => encT false { Tw.zero with op := 2, oa := f.oa, n := f.n, k := f.k }
  | .tload f => encTMem 3 f
  | .tstore f => encTMem 4 f
  | .tzero f => encT false (match f.t with | .acc c => { Tw.zero with op := 5, c := c, k := f.k } | .part p => { Tw.zero with op := 5, p := p, k := f.k, sub := 1 })
  | .tmma f => encT false { Tw.zero with op := 6, c := f.c, oa := f.oa, ob := f.ob, fmt := tfmtC f.fmt, orb := orC f.kca f.kcb, n := f.n, ms := tmsOfC f.ms, k := f.k }
  | .tbmm f => encT false { Tw.zero with op := 7, oa := f.oa, ob := f.ob, p := f.p, fmt := 7, orb := orC f.kca f.kcb, ms := tmsOfC f.ms, k := f.k }
  | .tscac f => encT false { Tw.zero with op := 8, c := f.c, oa := f.oa, ob := f.ob, p := f.p, ms := tmsOfC f.ms, k := f.k }
  | .tquant f => encT (match f.dest with | .slot _ => false | .mem _ im => im) { Tw.zero with op := 9, c := f.c, oa := (match f.dest with | .slot o => o | .mem _ _ => 0), fmt := 7, orb := orC f.kc false, seg := (match f.dest with | .slot _ => 0 | .mem g _ => g), a := f.a, ms := tmsOfC f.ms, k := f.k, sub := (b1 (match f.dest with | .slot _ => false | .mem _ _ => true) ++ hadOfC f.had).setWidth 5 }
  | .tcvt f => encT false { Tw.zero with op := 10, c := f.c, oa := f.oa, fmt := tfmtC f.fmt, orb := orC f.kc false, ms := tmsOfC f.ms, k := f.k, sub := (b1 f.sat).setWidth 5 }
  | .tmovv f => encT false { Tw.zero with op := 11, c := f.c, a := f.a, n := f.n, k := f.k, sub := f.row4 ++ b1 f.toAcc ++ b1 (clusC f.cl) }
  | .tstat f => encT false { Tw.zero with op := 12, oa := f.oa, a := f.a, k := f.k }
  | .tmmao f => encT false { Tw.zero with op := 0x3e, c := f.c, oa := f.oa, ob := f.ob, fmt := 1, orb := orC f.kca f.kcb, ms := tmsOfC f.ms, k := f.k }
  | .tldo f => encT f.imm { Tw.zero with op := 0x3f, oa := f.oa, fmt := 1, seg := f.seg, a := f.a, ms := tmsOfC f.ms, k := f.k }
  | _ => none

/-- Whether the operation belongs in a control word. -/
def Instr.inSlot (i : Instr) : Bool := (encode i).isSome

/-- Decode a slot word. -/
def decodeSlot (w : SlotWord) : SlotRes := decSlot w.slot w.bits w.stream

/-- The control word of a bundle: the header, then each slot at its place (R50). -/
def encodeWord (b : Bundle) : Nat :=
  1 + bn b.sp * 2 + (match b.opp with | none => 0 | some o => (8 + o.toNat) * 4) + b.wait.toNat * 64 +
    b.immr.toNat * 512 +
    (b.slots.foldl (fun a p => a + 2 ^ (12 + slotNum p.1)) 0) +
    (b.slots.foldl (fun a p => a + (match encode p.2 with | none => 0 | some w => w.bits * 2 ^ (slotPos p.1).1)) 0)

/-- The control word's 48 bytes (R50). -/
def wordBytes (cw : Nat) : List Byte := leBytes 48 cw

/-- The token of a dictionary entry, in the shortest form without a safe-point mask (R59, R108). -/
def encTok (idx : Nat) (imm : Option (Bool × DWord)) : List Byte :=
  match imm with
  | some (false, v) => BitVec.ofNat 8 (0xC0 + idx / 256) :: BitVec.ofNat 8 idx :: leBytes 4 v.toNat
  | some (true, v) => BitVec.ofNat 8 (0xD0 + idx / 256) :: BitVec.ofNat 8 idx :: leBytes 8 v.toNat
  | none => if idx < 128 then [BitVec.ofNat 8 idx]
      else [BitVec.ofNat 8 (0x80 + idx / 256), BitVec.ofNat 8 idx]

/-- The host's numbering of a row's bits is that of its slot; the seven F operations are the rows whose bits the
table gives. -/
def decodeTableWord (nbits w : Nat) : Option Instr :=
  if nbits ≤ 32 ∧ w < 2 ^ 32 then
    let r := decF w false
    if r.fails = [] then r.i else none
  else none

end Sys2Proof
end

