-- ==== Sys2Proof/Config.lean ====
section
/-! DEFINITION. What an implementation fixes and what the manual leaves open. A free value is an opaque
constant with no body, so no proof can learn what it is. -/

namespace Sys2Proof.Config

/-- DESIGN CHOICE (log 2). An undefined value in the sense of R4: the first argument is State.serial,
which every step advances, the second tells the uses inside one step apart. -/
opaque freeValue : Nat → Nat → BitVec 64

/-- DESIGN CHOICE (log 2). A choice among n outcomes that the manual leaves unspecified (R4, R210,
R188): taken mod n by its user. -/
opaque freePick : Nat → Nat → Nat

/-- DESIGN CHOICE (log 12). The delivered significand product of a sliced product at a fidelity level below 3 is
free within the bound of R165: arguments serial, tag. -/
opaque sliceError : Nat → Nat → Int

/-- DESIGN CHOICE (log 4). The fused device identifier (R302). -/
opaque devId : BitVec 64

/-- DESIGN CHOICE (log 4). The stepping that the device identification registers give (R2): the manual gives no register of theirs. -/
opaque stepping : BitVec 32

/-- DESIGN CHOICE (log 4). The gap in front of a capability's entry in the first memory BAR of a function, in units of 16 bytes, taken
modulo 256 (R264): the manual gives no place and no order. Arguments: virtual function, none for the physical function; identifier. -/
opaque capabilityGap : Option Nat → Nat → Nat

/-- DESIGN CHOICE (log 4). The fused identity key signs a message (R304); the manual gives no key. -/
opaque identitySign : List Byte → List Byte

/-- DESIGN CHOICE (log 4). The identity key's certificate chain (R304). -/
opaque certificateChain : List Byte

/-- DESIGN CHOICE (log 4). SHA-256 of the security processor's ROM (R300). -/
opaque romHash : BitVec 256

/-- DESIGN CHOICE (log 4). The firmware image that the package flash holds when the part is shipped (R300). -/
opaque shippedFirmware : List Byte

/-- DESIGN CHOICE (log 4). The parts of a firmware image that its check uses, where the manual does not say where in the image they
stand (R301): the key's modulus, the bytes that are signed, and the signature. -/
opaque firmwareModulus : List Byte → List Byte
opaque firmwareSigned : List Byte → List Byte
opaque firmwareSignature : List Byte → List Byte

/-- DESIGN CHOICE (log 4). The fused firmware key hash (R300, R301). -/
opaque firmwareKeyHash : BitVec 256

/-- DESIGN CHOICE (log 4). The bytes that describe the firmware configuration in MR1 (R304): their layout is not given. -/
opaque firmwareConfig : List Byte

/-- DESIGN CHOICE (log 4). The modulus of the debug authority key, as the token's checker holds it (R306). -/
opaque debugModulus : Nat

/-- DESIGN CHOICE (log 4). What a lifecycle change other than a debug unlock extends MR2 with (R304): the manual does not say. -/
opaque lifecycleData : List Byte

/-- DESIGN CHOICE (log 27). The 4 KiB header of a checkpoint, made from the device identifier and the hashes of the 1,152 GiB in
order (R307): the manual gives no layout, and 1,152 hashes do not fit it one by one. -/
opaque ckptHeader : BitVec 64 → List (BitVec 256) → List Byte

/-- DESIGN CHOICE (log 4). A byte of the header of a core area (R277): the manual names its content, the launch identifier, the parties with
their wave slots, the TILE flag and the count of `slerr`, and gives no layout. The last argument is the byte's offset. -/
opaque coreHeader : Nat → List (Nat × List Nat) → Bool → Nat → Nat → Byte

/-- DESIGN CHOICE (log 4). A nonce drawn by the security processor (R303): argument serial. -/
opaque freshNonce : Nat → BitVec 256

/-- DESIGN CHOICE (log 9). Which sensors of a die are neighbours (R296): the manual gives no layout. Arguments: current sensors,
the two numbers. -/
opaque sensorNear : Bool → Nat → Nat → Bool

/-- DESIGN CHOICE (log 19). The energy in microjoules charged to a launch in one 10 us sample (R295): the
manual gives no figures for the sensors' share. Arguments serial and launch identifier. -/
opaque sampleEnergy : Nat → Nat → Nat

/-- One tick of the 1.2 GHz reference in units of 1/126 GHz (log 3). -/
def tickUnits : Nat := 105

/-- DEDUCED (log 3). One clock period of operating point op in units of 1/126 GHz: 126,000 divided by
the megahertz of R283. -/
def period (op : Nat) : Nat := [420, 280, 210, 168, 140, 120, 105, 90].getD op 420

/-- The core rail of an operating point in tenths of millivolts times ten (R283): hundredths of a volt. -/
def centiVolt (op : Nat) : Nat := [50, 55, 60, 65, 70, 76, 82, 92].getD op 50

/-- Near memory of one stage die, 16 GiB (R177). -/
def nearSize : Nat := 2 ^ 34
/-- Far memory, 1 TiB (R177). -/
def farSize : Nat := 2 ^ 40
/-- Device memory key of a stage die's near memory (the model's numbering of homes, log 3). -/
def nearBase (die : Nat) : Nat := die * nearSize
/-- Device memory key of far memory. -/
def farBase : Nat := 8 * nearSize
/-- All device memory, 1,152 GiB (R177). -/
def devSize : Nat := farBase + farSize
/-- One landing-buffer unit (R234). -/
def landUnit : Nat := 6144
/-- One slot image (R141). -/
def slotBytes : Nat := 4160
/-- The context region of each stage die's near memory (R276). -/
def ctxBase : Nat := 0x3C0000000
def ctxSize : Nat := 0x40000000
/-- Decode-table entries per core (R54). -/
def decodeEntries : Nat := 512
/-- Attribute TLB entries per core (R188). -/
def atlbEntries : Nat := 192
/-- Lines of 128 bytes in an L1, in a die's L2 and in its remote-data cache (R12, R15). -/
def l1Lines : Nat := 1024
def l2Lines : Nat := 786432
/-- Lines of one of the 32 slices of a die's L2: 3 MiB (R12, R16). -/
def l2SliceLines : Nat := 24576
def rdcLines : Nat := 131072
/-- Translation cache entries per controller (R192). -/
def xlatEntries : Nat := 4096
/-- Late-fault store-buffer entries per die (R193). -/
def lateEntries : Nat := 4096
/-- Power withholding turns a wave exempt after this many cycles (R42). -/
def exemptAfter : Nat := 192

end Sys2Proof.Config
end

