-- ==== Sys2Proof/Machine/Sha.lean ====
section
/-! DEFINITION. SHA-256 and the verification of RSASSA-PSS signatures, which the image, firmware and token checks use (R113,
R301, R306). PRESUMED (log 22): the manual names the algorithms; their definitions are those of FIPS 180-4 and RFC 8017. -/

namespace Sys2Proof.Machine

/-- The greatest r of at most i bits above r0 whose k-th power is at most n. -/
def rootFrom (k n : Nat) : Nat → Nat → Nat
  | 0, r => r
  | i + 1, r => rootFrom k n i (if (r + 2 ^ i) ^ k ≤ n then r + 2 ^ i else r)

/-- The first 32 bits of the fraction of the k-th root of p, for roots below 8. -/
def rootBits (k p : Nat) : Word := BitVec.ofNat 32 (rootFrom k (p * 2 ^ (32 * k)) 35 0)

/-- The primes from 2 to 311. -/
def shaPrimes : List Nat :=
  (List.range 312).filter fun p => 2 ≤ p && (List.range 18).all fun d => d < 2 || p ≤ d || p % d != 0

/-- The constants of the 64 rounds: cube roots of the primes. -/
def roundWords : List Word := shaPrimes.map (rootBits 3)

/-- The chain before the first block: square roots of the first eight primes. -/
def firstChain : List Word := (shaPrimes.take 8).map (rootBits 2)

/-- The exclusive or of two right rotations and a third term. -/
def mix (x : Word) (i j : Nat) (last : Word) : Word := x.rotateRight i ^^^ (x.rotateRight j ^^^ last)

/-- One round on the chain a to h, with the sum of its constant and its message word. -/
def chainStep (kw : Word) : List Word → List Word
  | [a, b, c, d, e, f, g, h] =>
    let low := h + kw + mix e 6 11 (e.rotateRight 25) + (g ^^^ (e &&& (f ^^^ g)))
    [low + mix a 2 13 (a.rotateRight 22) + ((a &&& b) ||| (c &&& (a ||| b))), a, b, c, d + low, e, f, g]
  | other => other

/-- The message word that follows a window of sixteen. -/
def nextWord (win : List Word) : Word :=
  let at_ := fun i => win.getD i 0
  at_ 0 + mix (at_ 1) 7 18 (at_ 1 >>> 3) + at_ 9 + mix (at_ 14) 17 19 (at_ 14 >>> 10)

/-- The rounds of the given constants, over a window that starts at the next message word. -/
def chainRounds : List Word → List Word → List Word → List Word
  | [], _, chain => chain
  | k :: ks, win, chain => chainRounds ks (win.tail ++ [nextWord win]) (chainStep (k + win.headD 0) chain)

/-- The chain after a block of sixteen words. -/
def absorb (chain block : List Word) : List Word := List.zipWith (· + ·) chain (chainRounds roundWords block chain)

/-- A number from big-endian bytes. -/
def beNat (bs : List Byte) : Nat := bs.foldl (fun a b => a * 256 + b.toNat) 0

/-- The low n bytes of a number, big-endian. -/
def beBytes (n v : Nat) : List Byte := (leBytes n v).reverse

/-- The message with its padding: a 1 bit, zeros, and the length in bits as 64 bits. -/
def padded (bs : List Byte) : List Byte :=
  bs ++ 128#8 :: (List.replicate ((119 - bs.length % 64) % 64) 0 ++ beBytes 8 (8 * bs.length))

/-- The big-endian words of the first n groups of four bytes. -/
def beWords : Nat → List Byte → List Word
  | 0, _ => []
  | n + 1, bs => BitVec.ofNat 32 (beNat (bs.take 4)) :: beWords n (bs.drop 4)

/-- Absorb n blocks of 64 bytes. -/
def absorbBlocks : Nat → List Byte → List Word → List Word
  | 0, _, chain => chain
  | n + 1, bs, chain => absorbBlocks n (bs.drop 64) (absorb chain (beWords 16 bs))

/-- SHA-256: the chain words, most significant first. -/
def sha256 (bs : List Byte) : BitVec 256 :=
  let p := padded bs
  BitVec.ofNat 256 ((absorbBlocks (p.length / 64) p firstChain).foldl (fun n x => n * 2 ^ 32 + x.toNat) 0)

def hashBytes (h : BitVec 256) : List Byte := beBytes 32 h.toNat

/-- An extend of a measurement register (R304). -/
def extend (mr : BitVec 256) (data : List Byte) : BitVec 256 := sha256 (hashBytes mr ++ data)

/-- MGF1 with SHA-256. -/
def mgf1 (seed : List Byte) : Nat → Nat → List Byte
  | 0, _ => []
  | n + 1, i => hashBytes (sha256 (seed ++ beBytes 4 i)) ++ mgf1 seed n (i + 1)

/-- Modular exponentiation by squaring, k squarings. -/
def sqMod (m : Nat) : Nat → Nat → Nat
  | 0, x => x
  | k + 1, x => sqMod m k (x * x % m)

/-- x to the power 65,537. -/
def rsaPub (x m : Nat) : Nat := sqMod m 16 x * x % m

def xorBytes : List Byte → List Byte → List Byte
  | a :: s, b :: t => (a ^^^ b) :: xorBytes s t
  | _, _ => []

/-- RSASSA-PSS verification with SHA-256, MGF1-SHA-256, a 32-byte salt and a 3,072-bit modulus (R113, R301). -/
def pssVerify (modulus : Nat) (msg sig : List Byte) : Bool :=
  let s := beNat sig
  if modulus ≤ s ∨ sig.length ≠ 384 then false
  else
    let bits := Nat.log2 modulus
    let emLen := (bits + 7) / 8
    let m := rsaPub s modulus
    if 256 ^ emLen ≤ m then false
    else
      let em := beBytes emLen m
      let db := em.take (emLen - 33)
      let hsh := (em.drop (emLen - 33)).take 32
      let top := 8 * emLen - bits
      let dbm := xorBytes db ((mgf1 hsh (emLen / 32 + 1) 0).take (emLen - 33))
      let clear := match dbm with
        | [] => []
        | b :: t => BitVec.ofNat 8 (b.toNat % 2 ^ (8 - top)) :: t
      (em.getLast? == some 0xbc) && (64 ≤ emLen - 2) &&
        ((db.headD 0).toNat < 2 ^ (8 - top)) &&
        ((clear.take (emLen - 66)).all (· == 0)) && ((clear.drop (emLen - 66)).headD 0 == 1) &&
        (hashBytes (sha256 (List.replicate 8 0 ++ hashBytes (sha256 msg) ++ clear.drop (emLen - 65))) == hsh)

end Sys2Proof.Machine
end

