-- ==== Sys2Proof/Machine/State.lean ====
section
/-! DEFINITION. The state of the whole part as plain data: every register, memory, table, queue and transfer in progress
that the manual names, the host memory the device reaches, and a few fields of the model's own (turns, serial, now, cur,
hist), which the assumption log names. A table entry that is absent stands for the value that the reader of the table
names beside it. -/

namespace Sys2Proof.Machine

/-- How the machine can stop with a fault. -/
inductive Fault where
  /-- A host access names bytes past the 1 TiB of far memory (R177, R298), or an error is reported for bytes that no memory of the part
  holds. Raised by the host actions of Host.lean; safe: the manual gives such an access no effect on the part (log 43). -/
  | noSuchAddress (addr : Nat)
  deriving DecidableEq, Repr

/-- Why a step has no meaning. -/
inductive Refusal where
  /-- No meaning has been written for the instruction; raised by Dispatch.lean alone; safe. -/
  | notModelled (mnemonic : String)
  /-- The event or the host action cannot take place in this state: what it is about does not exist or its condition does
  not hold (log 1). Raised by the meanings of events; safe: the manual lets no such step happen. -/
  | notEnabled
  deriving DecidableEq, Repr

/-! ### Registers of a wave -/

/-- An s or h register; `und` says that its value is undefined (R67, R228). -/
structure SReg where
  val : DWord
  und : Bool
  deriving DecidableEq, Repr

/-- A mask register; the lanes in `und` are undefined. -/
structure KReg where
  val : Word
  und : Word
  deriving DecidableEq, Repr

/-- A vector register; the lanes in `und` are undefined. -/
structure VReg where
  val : Lanes
  und : Word
  deriving DecidableEq, Repr

/-- The name of a register of a wave, h registers under their own names (R269). -/
inductive Reg where
  | s (n : Nat)
  | h (n : Nat)
  | k (n : Nat)
  | v (cl : Cluster) (n : Nat)
  deriving DecidableEq, Repr

/-- A write to a register: the lanes (bits) of `mask` take the value. -/
inductive RegWrite where
  | s (n : Nat) (v : DWord)
  | h (n : Nat) (v : DWord)
  | k (n : Nat) (mask v : Word)
  | v (cl : Cluster) (n : Nat) (mask : Word) (v : Lanes)
  deriving DecidableEq, Repr

/-- An exposed result on its way (R65): `left` cycles before it lands; the window is open once left < total. `clash` says
that another window on the register was open in the same cycle (R67). -/
structure Window where
  w : RegWrite
  total : Nat
  left : Nat
  clash : Bool
  deriving DecidableEq, Repr

/-- A scoreboard mark: access or operation `by` has still to write the register (R70, R341). -/
structure Busy where
  reg : Reg
  by_ : Nat
  deriving DecidableEq, Repr

/-- The first-event log (R72, R73); `ord` is the issue position of the recorded event, which a T operation's events take when it
retires. -/
structure Fel where
  valid : Bool
  ord : Nat
  addr : Word
  slot : Nat
  lane : Nat
  kind : Nat
  sticky : BitVec 5
  deriving DecidableEq, Repr

/-- Wave states (R48), in the order of their codes. -/
inductive WState where
  | carved | running | waiting | handler | halted | stopped | saved | retired
  deriving DecidableEq, Repr

/-- The blocking waits of R40 that belong to an issued bundle; the bundle's address is in the wave. -/
inductive WaitOn where
  | bar (entry phase : Nat)
  | mwait (ctx n : Nat)
  | gwait (gate n : Nat)
  | mwatch (acc : Nat)
  | mspop (pop : Nat)
  deriving DecidableEq, Repr

/-- A blocking wait: what is waited for, the bundle it belongs to, the token after it, whether that bundle has SP = 1, and for
a BAR that has still to arrive in the next phase whether it is arrive-only (R310); `since` is the tick at which it began (R241). -/
structure Waiting where
  on : WaitOn
  here : Word
  next : Word
  sp : Bool
  mask : DWord
  rearm : Option Bool
  /-- What the wait goes on with once this one ends: the S slot's wait, with its rearm, behind the M slot's. -/
  also : Option (WaitOn × Option Bool)
  since : Nat
  deriving DecidableEq, Repr

/-- A fetched token (R59): its index, bytes, immediate and live mask. -/
structure Fetched where
  idx : Nat
  len : Nat
  imm : Option DWord
  immWide : Bool
  mask : Option DWord
  deriving DecidableEq, Repr

/-- The yielded mark (R47): the waves of other parties that were candidates and have not issued since, and the cycles that
have passed. -/
structure Yield where
  others : List Nat
  age : Nat
  deriving DecidableEq, Repr

/-- A fault record in the queue of a wave (R199): its 32 bytes as a number, the access or copy it is about (0 for a record of the
attribute TLB), and its lanes. -/
structure FRec where
  bits : BitVec 256
  acc : Nat
  lanes : Word
  cause : Nat
  store : Bool
  copy : Bool
  watch : Bool
  /-- Where the record was written, in device memory (R202). -/
  loc : Option Nat
  deriving DecidableEq, Repr

/-- A wave by its launch, its party and its number in it. -/
structure WaveId where
  lid : Nat
  party : Nat
  num : Nat
  deriving DecidableEq, Repr

/-- Who made a store: the wave, and the slot in which it stands or last stood. -/
structure Writer where
  key : Nat
  id : WaveId
  deriving DecidableEq, Repr

/-- What happens before a point of a core (R221): for each core the operations numbered below the entry, and under 1024 + core the copies'
bytes of its waves that were committed by the commit of the entry; and the locations that a scope race has left without a floor (R222). -/
structure View where
  clock : Tab Nat
  low : List Nat
  deriving DecidableEq, Repr

/-- A release that an acquire has read (R221): its writer, its core and number, what happened before it, and whether the pair is a scope
race (R222). -/
structure Sync where
  by_ : Writer
  core : Nat
  op : Nat
  view : View
  race : Bool
  deriving DecidableEq, Repr

/-- The address through which a location was reached (R190): address space, virtual address less location, and the segment's ALIAS and
PAGE. -/
structure Via where
  asid : Nat
  delta : Int
  isAlias : Bool
  paged : Bool
  deriving DecidableEq, Repr

/-- What made a store: the wave (none for the host and the device itself), whether the host did (R5), the number of its access or copy, the
scope of a strong store, what happened before a release, whether an atomic made it (R221), and the address (R190). -/
structure Origin where
  by_ : Option Writer
  host : Bool
  op : Nat
  copy : Bool
  strong : Option Scope
  rel : Option View
  atom : Bool
  via : Option Via
  deriving DecidableEq, Repr

/-- One wave. Its key in State.waves is its core-wide slot: 16 × device core number + core-local slot (R14, R258). -/
structure Wave where
  lid : Nat
  party : Nat
  num : Nat
  role : Nat
  aAllot : Nat
  bAllot : Nat
  st : WState
  /-- The state in which a wait or a halt began (R48). -/
  back : WState
  sup : Bool
  wait : Option Waiting
  /-- The blocking wait that a trap ended, which ERET returns into (R195, R271). -/
  outer : Option Waiting
  pc : Word
  live : Word
  s : Tab SReg
  h : Tab SReg
  k : Tab KReg
  a : Tab VReg
  b : Tab VReg
  wins : List Window
  busy : List Busy
  lfsr : Lanes
  fel : Fel
  trapcause : DWord
  trappc : Word
  trapmask : Word
  /-- faultbase as written, bits [47:5] (R202). -/
  faultbase : DWord
  head : Nat
  count : Nat
  recs : Tab FRec
  seq : Word
  tollstall : Word
  denied : Bool
  dencnt : BitVec 16
  waitCnt : Nat
  age : Nat
  yielded : Option Yield
  withheld : Nat
  exempt : Bool
  /-- A landing-conflict cause that is due (R235, R236); one that a conflict inside the handler raised. -/
  landDue : Bool
  landSup : Bool
  /-- Records of a page-permission trap that found the queue full (R188, R196). -/
  more : List FRec
  /-- Status registers of faulted copies that software has written since the copy issued: undefined (R228). -/
  tainted : List Reg
  /-- Outbound stream endpoints whose binding is undefined for the wave since its last resumption (R63). -/
  epUnd : BitVec 4
  /-- Pre-emption requested for the wave's body, and its watchdog count (R45, R46). -/
  preempt : Bool
  watchdog : Nat
  /-- The wave reached a safe point and waits under R275 step 3; the live mask of its save. -/
  stopping : Option DWord
  tok : Option Fetched
  /-- The token's entry missed and was asked for (R55). -/
  missed : Bool
  wrotePc : Bool
  /-- The stream state that the wave's area took when it halted (R281). -/
  haltSt : List Byte
  /-- EXIT emptied k0 and the wave waits under R49. -/
  exiting : Bool
  /-- Later memory accesses wait until every access numbered below has been performed (FENCE at scope 0 to 2, R214). -/
  fenceUpto : Nat
  /-- An acquire's refresh is due once every load-class access numbered below has returned (R215); the handler's own. -/
  acqUpto : Option Nat
  supAcq : Option Nat
  /-- FENCE.full: later loads wait for this release (R214). -/
  fullUpto : Option Nat
  /-- The releases that the acquire in progress has read; where the two scopes miss, and the latitude of R222 is taken, a scope race. -/
  sync : List Sync
  supSync : List Sync
  deriving DecidableEq, Repr

/-! ### Memory accesses -/

/-- One lane, row or word of an access (R181, R339). `pa` is the home location once translated, `fault` the cause of R200,
`data` the datum of a store or atomic, `cmp` the comparand of MCAS, `val` what a load returned. -/
structure Piece where
  lane : Nat
  va : Nat
  size : Nat
  pa : Option Nat
  fault : Option Nat
  data : List Byte
  cmp : List Byte
  val : List Byte
  done : Bool
  deriving DecidableEq, Repr

/-- Kinds of access. -/
inductive AKind where
  | load | store | atomic (op : AtomOp) | cas | watch | tload | tstore
  deriving DecidableEq, Repr

/-- What a returning access writes. -/
inductive Dest where
  | none
  | lanes (cl : Cluster) (d : Nat) (wid : Wid)
  | uni (d : Nat) (sup : Bool) (wid : Wid)
  | slot (o : Nat) (fmt : Fmt) (kc : Bool)
  | acc (c : Nat) (kc : Bool)
  | tldo (o : Nat)
  deriving DecidableEq, Repr

/-- An access in flight (R208): its instruction's place, its segment's home, and its pieces; a load's pieces leave the list as
they return. `epoch` is the publication that took a plain store; `rel` the release that holds a release store or atomic (R217). -/
structure Acc where
  wid : Nat
  /-- Issued in the handler. -/
  sup : Bool
  /-- A scratchpad access (R183). -/
  loc : Bool
  lid : Nat
  core : Nat
  party : Nat
  num : Nat
  asid : Nat
  kind : AKind
  addr : Word
  slot : Nat
  opcode : Nat
  seg : Nat
  widCode : Nat
  scope : Scope
  ord : Order
  seq : Word
  far : Bool
  pageable : Bool
  /-- A segment with ALIAS: past L1 and RDC, at its home (R191). -/
  direct : Bool
  /-- A plain access that may use L1: HINT does not bypass it (R189, R340). -/
  l1 : Bool
  /-- A plain store that has left L1 for its home ahead of its publication: evicted, or written back (R203, R211, R347). -/
  sent : Bool
  cls : Nat
  pieces : List Piece
  dest : Dest
  ret : Bool
  epoch : Option Nat
  rel : Option Nat
  /-- What happened before a release access when it issued (R221). -/
  view : View
  /-- The commits that had been made when the access issued, and the ASDT's base then (none while TRBASE.EN is 0): its write-back uses a
  translation of that moment (R189). -/
  born : Nat
  asdt : Option Nat
  /-- Translated, or failed with a record (R195). -/
  resolved : Bool
  /-- Held in a late-fault store buffer (R193). -/
  held : Bool
  /-- A failing page had no room in the record queue (R196). -/
  unrecorded : Bool
  /-- MWATCH: expected value, deadline tick, register pair and supervisor names. -/
  watch : DWord
  deadline : Nat
  /-- Milestone context and number of a tile access. -/
  ms : Option (Nat × Nat)
  /-- Pilot step a deprecated expansion reached (R161). -/
  step : Nat
  /-- The tile access has been accepted or has reached its destination (R149). -/
  accepted : Bool
  deriving DecidableEq, Repr

/-- What a release is held at (R217): a store or atomic, an arrival at a convoy entry, a gate (64 × queue + number), or the
core itself. -/
inductive RelTarget where
  | access (id : Nat)
  | arrival (entry : Nat) (member : Nat × Nat)
  | gate (gate n : Nat)
  | fence
  deriving DecidableEq, Repr

/-- A release waiting for its counted set (R217): publication `epoch` of `core`, and the wave's earlier strong stores, whose
identifiers are below `before`; what happens before it (R221), and the scope of a FENCE.full (R187). -/
structure Rel where
  target : RelTarget
  core : Nat
  wid : Nat
  lid : Nat
  epoch : Nat
  before : Nat
  view : View
  full : Option Scope
  deriving DecidableEq, Repr

/-- One committed store of one byte (R207): what made it, and whether a FENCE.full of its wave makes every later walk see it (R187). -/
structure Commit where
  seq : Nat
  loc : Nat
  old : Byte
  new : Byte
  org : Origin
  fenced : Bool
  deriving DecidableEq, Repr

/-- Kinds of copy-class operation in flight (R230 to R233). -/
inductive CKind where
  | inLocal | outLocal | inSlot | outSlot | gather | cast
  deriving DecidableEq, Repr

/-- One target of an MCAST: landed, refused or without a receiver (R235). -/
structure Target where
  pos : Nat
  done : Bool
  refused : Bool
  norecv : Bool
  deriving DecidableEq, Repr

/-- A copy, gather or multicast in flight (R228 to R235). Its bytes are numbered along its local side. -/
structure Copy where
  kind : CKind
  wid : Nat
  lid : Nat
  core : Nat
  party : Nat
  wnum : Nat
  /-- The number of the copy among the core's operations (R221). -/
  op : Nat
  asid : Nat
  addr : Word
  seq : Word
  opcode : Nat
  seg : Nat
  far : Bool
  /-- A segment with ALIAS (R191). -/
  direct : Bool
  cls : Nat
  /-- The global side: runs of bytes (virtual address, length) in the order of the local side. -/
  runs : List (Nat × Nat)
  /-- A segment that is not pageable: its base and the location of its base. -/
  lin : Option (Nat × Nat)
  /-- Pageable: the location of each 4 KiB region translated, and the cause of each that failed. -/
  pages : Tab Nat
  fails : Tab Nat
  /-- Bytes still to be moved, as intervals (first, length). -/
  todo : List (Nat × Nat)
  /-- The offset in the region, or 8192 × slot + offset for a slot. -/
  loff : Nat
  len : Nat
  rowlen : Nat
  count : Nat
  pitch : Nat
  list : Nat
  /-- A gather: the segment offset of row 0, and the base and the limit of its segment (limit 0 where it cannot be read). -/
  row0 : Int
  base : Nat
  lim : Nat
  ctx : Nat
  num : Nat
  dreg : Reg
  tick : Nat
  /-- MCAST: the bytes read so far; outbound from a slot: the bytes drained. -/
  got : Tab Byte
  drained : Bool
  targets : List Target
  /-- Faulted, waiting for REPLAY. -/
  faulted : Bool
  deriving DecidableEq, Repr

/-- A pending stream push (R238, R240): its scoreboard mark, and its source bytes as they stood at issue; `fixed` says that those
are what is pushed. -/
structure Push where
  id : Nat
  addr : Word
  wid : Nat
  lid : Nat
  core : Nat
  party : Nat
  wnum : Nat
  src : Nat
  len : Nat
  tag : Nat
  ctx : Nat
  num : Nat
  dreg : Reg
  since : Nat
  src0 : List Byte
  fixed : Bool
  deriving DecidableEq, Repr

/-- A slot of a ring: full with its length, tag and bytes, acquired, freed out of order, or empty (R237). -/
structure RSlot where
  full : Bool
  acquired : Bool
  freed : Bool
  len : Nat
  tag : Nat
  lodged : Bool
  deriving DecidableEq, Repr

/-- A lodged push (R240): it occupies a slot size of its function's budget. -/
structure Lodged where
  len : Nat
  tag : Nat
  bytes : List Byte
  deriving DecidableEq, Repr

/-- A bound stream (R237): sender launch and endpoint, receiver launch and endpoint, ring geometry; `wr` the next slot to
fill, `acq` the oldest unacquired, `old` the oldest not returned; `head` the first byte of the ring (a home location); `todo` the bytes
of the push that fills slot `wr` which have still to be moved, as intervals (first, length). -/
structure Stream where
  sLid : Nat
  sEp : Nat
  rLid : Nat
  rEp : Nat
  slots : Nat
  size : Nat
  head : Nat
  die : Nat
  ring : Tab RSlot
  wr : Nat
  acq : Nat
  old : Nat
  inUse : Nat
  pend : List Push
  lodged : List Lodged
  todo : Option (List (Nat × Nat))
  /-- The tick of the last push, free or lodging move (R241). -/
  moved : Nat
  deriving DecidableEq, Repr

/-- An MSPOP (R238): it waits for a full slot, or has acquired `slot` and has the bytes in `todo` still to copy. -/
structure Pop where
  addr : Word
  wid : Nat
  lid : Nat
  core : Nat
  party : Nat
  stream : Nat
  dst : Nat
  len : Nat
  ctx : Nat
  num : Nat
  dreg : Reg
  slot : Option Nat
  /-- The slot as it was acquired: its TAG, LEN and LODGED go into the status (R239). -/
  took : RSlot
  todo : List (Nat × Nat)
  deriving DecidableEq, Repr

/-! ### The tile engine -/

/-- STATE of a tile-table entry (R142). -/
inductive OState where | empty | filling | ready | draining
  deriving DecidableEq, Repr

/-- A tile-table entry (R142). -/
structure TEntry where
  step : Nat
  readers : Nat
  ort : Bool
  fmtt : Nat
  flt : Bool
  owner : Nat
  claimed : Bool
  st : OState
  deriving DecidableEq, Repr

/-- An accumulator or partial: rows by number, each with its undefined elements; an absent row is undefined (R33, R147). -/
abbrev TileRows := Tab VReg

/-- What the Pilot runs (R149). -/
inductive POp where
  | zero (t : TZTarget)
  | mma (f : TMmaF)
  | bmm (f : TBmmF)
  | sca (f : TScacF)
  | quant (f : TQuantF) (typ : Nat) (acc : Nat)
  | cvt (f : TCvtF)
  | movv (f : TMovvF) (rows : List Lanes)
  | mmao (f : TMmaoF)
  deriving DecidableEq, Repr

/-- A Pilot operation: issue position and step reached (R148, R149). `num` is its milestone. -/
structure PilotOp where
  id : Nat
  op : POp
  wid : Nat
  addr : Word
  steps : Nat
  step : Nat
  ms : Option (Nat × Nat)
  serial : Nat
  deriving DecidableEq, Repr

/-- The slice state of one core and slice (R174): offsets per operating point, integrator in units of 2^-40, limited steps, the tile
party for which it is held, and the interval's slice-operations and detections. -/
structure Slice where
  offs : List Nat
  int : Int
  lim : Nat
  held : Option (Nat × Nat)
  ops : Nat
  det : Nat
  /-- The tick at which the current interval began. -/
  since : Nat
  deriving DecidableEq, Repr

/-! ### Cores, clusters, dies -/

/-- Which dictionary a decode entry came from (R55). -/
structure DKey where
  lid : Nat
  hand : Bool
  idx : Nat
  deriving DecidableEq, Repr

/-- An installed decode-table entry: its word, and the waves for which it is pinned (R55). Entries stand in order of last
use, most recent first. -/
structure DEntry where
  key : DKey
  word : Nat
  pins : List Nat
  deriving DecidableEq, Repr

/-- A launch's share of a core (R54, R233, R258). -/
structure Share where
  window : Nat
  unit : Nat
  units : Nat
  landbusy : DWord
  owners : Tab Nat
  dictmiss : Word
  req : Nat
  pfissued : Word
  pfuseful : Word
  pflate : Word
  /-- Lines (virtual address / 128) that MPREF asked for and that no demand access has met since (R295). -/
  pfLines : List Nat
  deriving DecidableEq, Repr

/-- A line of 128 bytes in an L1, an L2 or an RDC (R189): its tag (ASID, virtual address / 128), in L2 the physical tag of a line of
an ALIAS segment beside it, the ECC words of the line that hold an uncorrectable error (R205, R206), and for a line of L2 the
commit up to which its contents have been written back to memory. What the line's bytes read as is said by the commit order and
the core's snapshot (log 20). -/
structure CLine where
  asid : Nat
  line : Nat
  phys : Option Nat
  bad : List Nat
  back : Nat
  deriving DecidableEq, Repr

/-- An attribute TLB entry (R188). -/
structure AEntry where
  asid : Nat
  page : Nat
  cls : Nat
  r : Bool
  w : Bool
  deriving DecidableEq, Repr

/-- An operating-point transition (R285): phases left. -/
structure Trans where
  target : Nat
  up : Bool
  phase2 : Bool
  /-- The moment (fine time) at which the phase ends. -/
  end_ : Nat
  deriving DecidableEq, Repr

/-- A wave that has asked the Ostler for an entry, with the bundle address of its token (R56); `live` until it stops, halts or retires: a
fetch that fails later is still that token's (R273). -/
structure Ask where
  wid : Nat
  pc : Word
  live : Bool
  deriving DecidableEq, Repr

/-- One core. -/
structure Core where
  cyc : DWord
  op : Nat
  trans : Option Trans
  /-- The moment of the next clock edge, in 1/126 GHz (log 3). -/
  edge : Nat
  dtab : List DEntry
  /-- Misses in request order, with the waves that asked (R56, R273). -/
  ostler : List (DKey × List Ask)
  fnext : DWord
  freserve : Option Nat
  lastSlot : Nat
  pad : Tab Byte
  shares : Tab Share
  atlb : List AEntry
  /-- The lines of the L1 data cache, most recently used first (R189). -/
  l1 : List CLine
  /-- Publications started and completed (R211). -/
  epoch : Nat
  pubDone : Nat
  /-- The snapshot: every location's floor is at least this commit; locations above it in `raised` (R210, R212). -/
  floor : Nat
  raised : Tab Nat
  /-- Locations that a scope race leaves without a floor (R222), and what happens before the core's next accesses (R221). -/
  lowered : List Nat
  clock : Tab Nat
  /-- What the waves of resumed bodies had done on the cores that they left: it happens before their releases here (R221). -/
  gone : Tab Nat
  tile : Option (Nat × Nat)
  images : Tab (Tab Byte)
  table : Tab TEntry
  accs : Tab TileRows
  parts : Tab TileRows
  pilot : List PilotOp
  ramp : Nat
  allow : Nat
  /-- Cycles since the last fall of RAMP, from 1 at the first array step; 0 before it (R289). -/
  rampCyc : Nat
  /-- Cycles before ALLOW may rise again, and consecutive cycles with the counter at least CLBUD (R288). -/
  allowUp : Nat
  above : Nat
  /-- The fill-down (R289): its level from 1, the tick of its last step, the step estimate of the array step that ran last (0 where
  none has run since the last fill-down), and the tile party that made it. -/
  lastArray : Nat
  filling : Option Nat
  lastKind : Nat
  fillFor : Option (Nat × Nat)
  /-- Stretched and halved cycles still to come; 0 is due to end (R293). -/
  stretch : Option Nat
  halve : Option Nat
  /-- Halved cycles since the last stretched one (R407). -/
  pair : Nat
  whled : Word
  slerr : Nat
  slices : List Slice
  stallSeq : BitVec 16
  stallIssue : BitVec 16
  stallMem : BitVec 16
  smpCyc : Nat
  smpIssue : Nat
  smpMem : Nat
  deriving DecidableEq, Repr

/-- One core cluster (R287, R294). -/
structure Cluster4 where
  /-- In units of 1/256 pJ. -/
  allow : Int
  /-- Cycles of its fastest core whose gain has still to be credited, and the moment up to which they have been counted. -/
  due : Nat
  at_ : Nat
  thresh : BitVec 8
  alarms : Word
  deriving DecidableEq, Repr

/-- A convoy-table entry in use (R34, R36): members (launch wave numbers), recorded arrivals that have reported and those
that have not, and the phase. -/
structure Convoy where
  lid : Nat
  index : Nat
  members : List (Nat × Nat)
  arrived : List (Nat × Nat)
  reported : List (Nat × Nat)
  retired : List (Nat × Nat)
  phase : Nat
  /-- The releases of the arrivals of this phase that have reported, and those of the last phase (R36, R221). -/
  syncs : List Sync
  past : List Sync
  deriving DecidableEq, Repr

/-- A translation-cache entry (R192). -/
structure XEntry where
  asid : Nat
  page : Nat
  cls : Nat
  frame : Nat
  r : Bool
  w : Bool
  deriving DecidableEq, Repr

/-- A toll bucket (R242); `at_` is the tick up to which its refill has been credited. -/
structure Toll where
  en : Bool
  depth : Nat
  rate : Nat
  level : Int
  at_ : Nat
  deriving DecidableEq, Repr

/-- A sensor (R296): last reading and when it was taken, when it last changed, and the neighbours' mean then as a sum and a number. -/
structure Sensor where
  last : Option Int
  lastAt : Nat
  changedAt : Nat
  meanAt : Int × Nat
  valid : Bool
  rearm : Bool
  deriving DecidableEq, Repr

/-- One stage die. -/
structure Die where
  off : Bool
  xlat : Tab (List XEntry)
  /-- The lines of L2, under their home location / 128, and of the remote-data cache, most recently used first (R189). -/
  l2 : Tab CLine
  rdc : List CLine
  opp : Tab (Nat × Nat)
  tollS : Tab Toll
  tollF : Tab Toll
  loopen : Bool
  texp : Nat
  minoff : Nat
  maxoff : Nat
  limit : BitVec 3
  ftot : List Nat
  clbud : Nat
  thermal : Tab Sensor
  current : Tab Sensor
  held : Bool
  /-- The function that holds the die, the one that it took the die from, and the tick at which its slice ends (R261). -/
  granted : Nat
  outgoing : Nat
  sliceEnd : Nat
  /-- Save areas in the context region: (launch, party, wave or none, area number) (R276). -/
  areas : List (Nat × Nat × Nat × Nat)
  coreAreas : List (Nat × Nat × Nat)
  deriving DecidableEq, Repr

/-! ### The front end -/

/-- A segment-table entry (R179). -/
structure Seg where
  base : Nat
  limit : Nat
  flags : BitVec 16
  pbase : Nat
  deriving DecidableEq, Repr

/-- A role descriptor (R111). -/
structure RoleDesc where
  role : Nat
  minA : Nat
  minB : Nat
  maxWaves : Nat
  entry : Word
  convoys : List Nat
  deriving DecidableEq, Repr

/-- An image header (R111). -/
structure ImgHdr where
  pages : Nat
  dictN : Nat
  dictOff : Nat
  streamLen : Nat
  streamOff : Nat
  mapOff : Nat
  segOff : Nat
  segs : Nat
  ceiling : Nat
  fidelity : Nat
  window : Nat
  roles : Nat
  roleOff : Nat
  constOff : Nat
  constLen : Nat
  keyid : BitVec 256
  deriving DecidableEq, Repr

/-- An image as a launch or a handler table holds it: where it lies, its header, its hash list and what the launch page
gave (R113, R114). `phys` says that its address is not translated (R272). -/
structure Image where
  far : Bool
  phys : Bool
  addr : Nat
  hdr : ImgHdr
  hashes : List (BitVec 256)
  segs : List Seg
  roles : List RoleDesc
  deriving DecidableEq, Repr

/-- A handler entry (R272). -/
structure HEntry where
  valid : Bool
  entry : Word
  deriving DecidableEq, Repr

/-- A handler block as a launch captures it at acceptance (R272). -/
structure HTab where
  en : Bool
  image : Option Image
  entries : Tab HEntry
  wd : Nat
  deriving DecidableEq, Repr

/-- A LAUNCH packet's fields (R251). -/
structure LPkt where
  flags : BitVec 8
  image : Nat
  far : Bool
  parties : Nat
  die : Nat
  oppLo : Nat
  oppHi : Nat
  window : Nat
  cwaves : Nat
  pwaves : Nat
  centry : Word
  pentry : Word
  callotA : Nat
  callotB : Nat
  pallotA : Nat
  pallotB : Nat
  fidel : Nat
  gate : Nat
  gcount : Nat
  region : Nat
  route : Nat
  stage : Nat
  cvaddr : Nat
  cvcount : Nat
  energy : Nat
  deriving DecidableEq, Repr

/-- A convoy descriptor of a convoy image (R257). -/
structure CvDesc where
  index : Nat
  waves : BitVec 16
  nparty : Nat
  first : Nat
  deriving DecidableEq, Repr

/-- Where a launch stands. -/
inductive LState where | accepted | complete | killed
  deriving DecidableEq, Repr

/-- An image page that a launch has checked on a die (R114): where it stands, and the commit at which it was read. -/
structure Checked where
  die : Nat
  hand : Bool
  page : Nat
  loc : Nat
  seq : Nat
  deriving DecidableEq, Repr

/-- A launch (R251 to R258). `die` is where it runs now; `cvmap` maps its convoy indices to die entries (R256). -/
structure Launch where
  vf : Nat
  q : Nat
  pkt : Nat
  asid : Nat
  p : LPkt
  img : Image
  htab : HTab
  floor : Nat
  asked : Nat
  level : Nat
  cvs : List CvDesc
  cvmap : Tab Nat
  die : Nat
  placed : Nat
  retired : Nat
  st : LState
  energy : Nat
  /-- It has drawn energy or had traffic since the last sample (R295). -/
  drew : Bool
  /-- Image pages checked on a die, and the commit at which the launch was accepted (R114, R115). -/
  verified : List Checked
  born : Nat
  /-- The dispatcher's checks of the launch page and constants have passed (R114). -/
  checked : Bool
  /-- The body is saved, or its stop has been requested (R275). -/
  saved : Bool
  stopping : Bool
  /-- The Steward has raised its gate (R253). -/
  raised : Bool
  deriving DecidableEq, Repr

/-- Milestone context (R148, R219): numbers taken, counter, and numbers completed above the counter. -/
structure Ms where
  taken : Nat
  count : Nat
  done : List Nat
  deriving DecidableEq, Repr

/-- A party of a launch; its key is 65,536 × launch + index. -/
structure Party where
  core : Nat
  waves : Nat
  prod : Bool
  tile : Bool
  released : Bool
  left : Nat
  ms : Tab Ms
  /-- Slots acquired and not yet freed per inbound endpoint st4 to st7, oldest first (R238). -/
  acq : Tab (List Nat)
  deriving DecidableEq, Repr

/-- Queue states (R246). -/
inductive QState where | disabled | running | faulted
  deriving DecidableEq, Repr

/-- A queue (R246). -/
structure Queue where
  loc : Bool
  addr : Nat
  asid : Nat
  rev : Nat
  log2 : Nat
  en : Bool
  tail : Word
  head : Word
  done : Word
  irq : Bool
  fault : Bool
  st : QState
  qerra : Nat
  gates : Tab Word
  /-- Per gate: the tick of its last change; and of the Steward's last raise the tick, the value without it, and GCOUNT (R254). -/
  moved : Tab Nat
  raised : Tab (Nat × Nat × Nat)
  /-- Per gate: the latest GOPEN of each wave that has raised it, with which a GWAIT synchronises (R37, R221). -/
  opens : Tab (List Sync)
  /-- Launches with this identifier or a higher one have been accepted since the queue was enabled or reset. -/
  base : Nat
  /-- Packets consumed and complete out of ring order (R248). -/
  ended : List Nat
  /-- Packet numbers read, in order, with INTR; packets since the queue was enabled. -/
  intr : List Nat
  /-- A WAITMARK packet at HEAD waits: the tick of its next read of ADDR, and the packet as it was read and checked (R249, R255). -/
  poll : Option (Nat × List Byte)
  deriving DecidableEq, Repr

/-- A route in use (R259, R260). -/
structure Route where
  vf : Nat
  q : Nat
  tag : Nat
  pkt : Nat
  first : Nat
  stages : Nat
  binds : List (List Nat)
  lids : List Nat
  done : List Nat
  /-- The tick at which a wave of the route last retired (R241). -/
  stirred : Nat
  deriving DecidableEq, Repr

/-- A virtual function's handler block, Steward memory and scheduling (R245, R261, R272, R303). -/
structure Func where
  himage : Nat
  hen : Bool
  hbad : Bool
  wd : Nat
  hentry : Tab HEntry
  hcur : Option Image
  key : Option Nat
  keyid : BitVec 256
  floor : Nat
  weight : Nat
  lodgeBud : Nat
  lodgeUse : Nat
  energy : Nat
  /-- The queue that its Steward served last (R248). -/
  turn : Nat
  deriving DecidableEq, Repr

/-- A saved body (R275 to R278): its launch, the die it left, and the parties, waves, convoys and core state that the
Innkeeper and the save areas hold. -/
structure SavedCore where
  old : Nat
  /-- What happens before the next accesses of its waves, the locations that races leave them without a floor, and what they have done
  (R221, R222). -/
  view : View
  did : Tab Nat
  share : Share
  dict : List DKey
  waves : Tab Wave
  tile : Option (Nat × Nat)
  slerr : Nat
  pilot : List PilotOp
  accs : Tab TileRows
  parts : Tab TileRows
  images : Tab (Tab Byte)
  table : Tab TEntry
  pad : Tab Byte
  deriving DecidableEq, Repr

structure Body where
  lid : Nat
  die : Nat
  cores : List SavedCore
  convoys : List (Nat × Convoy)
  accs : Tab Acc
  copies : Tab Copy
  /-- Stopped for a checkpoint: it resumes whoever holds the die (R307). -/
  byCkpt : Bool
  deriving DecidableEq, Repr

/-- The cap block (R291, R292): windows of measurements in joules × 10^6. -/
structure Caps where
  avg : Nat
  peak : Nat
  f : Nat
  pwr : Nat
  avgLim : Bool
  peakLim : Bool
  /-- The measurements of the last second, newest first (R291), and how many have been made. -/
  e1 : List Nat
  made : Nat
  deriving DecidableEq, Repr

/-- The security block (R302) with what stands behind it. -/
structure Sec where
  stage : Nat
  recov : Bool
  lc : Nat
  fwsrc : DWord
  result : Nat
  len : Nat
  busy : Bool
  status : Nat
  op : BitVec 8
  arg0 : DWord
  arg1 : DWord
  chal : BitVec 256
  mr : List (BitVec 256)
  dbgPerm : Nat
  dbgSel : Nat
  /-- Slots (by wave key) with HALT and BKHALT set (R280). -/
  halt : List Nat
  bkhalt : List Nat
  ideSecure : Bool
  ideKey : BitVec 256
  /-- Generation of each function's data key (R300, R306). -/
  keyGen : Nat
  /-- The firmware image in package flash (R301). -/
  flash : List Byte
  /-- A push runs (FWCTL.GO, R10, R302): the image's address and length when it started. -/
  go : Option (Nat × Nat)
  fused : Bool
  blown : Bool
  /-- A checkpoint runs: the address of the safe tier, and the launches that it asked to stop (R307). -/
  ckpt : Option (Nat × List Nat)
  deriving DecidableEq, Repr

/-- SPDM responses the host has received (R304). -/
inductive SpdmMsg where
  | measurements (nonce : BitVec 256) (mr : List (BitVec 256)) (sig : List Byte)
  | certificate (chain : List Byte)
  deriving DecidableEq, Repr

/-- ECC errors logged for the host (R206). -/
structure EccEntry where
  loc : Nat
  at_ : Nat
  deriving DecidableEq, Repr

/-- What moves next where the manual leaves the order open (log 1). -/
inductive Turn where
  | event (i : Instr)
  | cycle (core : Nat)
  deriving DecidableEq, Repr

/-- The bundle that issues, for its slot operations (log 1): the wave, `Here`, `Next` and the stream immediate. -/
structure Cur where
  wid : Nat
  here : Word
  next : Word
  imm : DWord
  immWide : Bool
  sp : Bool
  mask : DWord
  /-- The counter under which undefined registers are read, so that a bundle's checks and its effects see one value (R4, R181). -/
  ser : Nat
  /-- The bundle has passed its checks at issue: its operations take effect without waiting for one another (R52). -/
  go : Bool
  deriving DecidableEq, Repr

/-- The whole part. -/
structure State where
  /-- Order of moves; reset empty (log 1). -/
  turns : List Turn
  /-- Counter of free values (log 2). -/
  serial : Nat
  /-- Fine time in 1/126 GHz (log 3). -/
  now : Nat
  cur : Cur
  /-- Device memory, canonical; an unlisted byte reads 0 (R300 step 4). -/
  mem : List Host.Cell
  /-- Runs (first byte, length) of device memory whose bytes are undefined since their data keys were replaced (R306). -/
  wiped : List (Nat × Nat)
  hostMem : List Host.Cell
  hist : List Commit
  commits : Nat
  waves : Tab Wave
  parties : Tab Party
  cores : Tab Core
  clusters : Tab Cluster4
  dies : Tab Die
  convoys : Tab Convoy
  launches : Tab Launch
  queues : Tab Queue
  funcs : Tab Func
  routes : Tab Route
  streams : Tab Stream
  pops : Tab Pop
  acc : Tab Acc
  rels : Tab Rel
  copies : Tab Copy
  bodies : Tab Body
  nextId : Nat
  /-- Translation caches of the FE die (R192). -/
  feXlat : Tab (List XEntry)
  trbase : Nat
  tren : Bool
  quantum : Nat
  caps : Caps
  /-- Grid points of R295 that have been sampled. -/
  grid : Nat
  /-- The bias table as written: the far GiB in host bias; what it was before the last write, and the stores that this write waits for
  (R298). -/
  bias : List Nat
  biasOld : List Nat
  biasWait : List Nat
  sec : Sec
  spdm : List SpdmMsg
  ecc : List Nat
  eccPad : List Nat
  eccLog : List EccEntry
  /-- INVPG operations waiting for acknowledgements: their wave and a mask of the isolated dies (R203, R204). -/
  invpg : Tab (Nat × Nat)
  deriving DecidableEq, Repr

/-- The security block after a boot order that reached step 5 on a secured part (R300, R302, R304; log 4). -/
def Sec.reset : Sec :=
  { stage := 5, recov := false, lc := 1, fwsrc := 0, result := 0, len := 0, busy := false, status := 0, op := 0,
    arg0 := 0, arg1 := 0, chal := 0,
    mr := [extend (extend 0 (hashBytes Config.romHash)) (hashBytes (sha256 Config.shippedFirmware)),
      extend 0 Config.firmwareConfig, 0, 0, 0, 0, 0, 0],
    dbgPerm := 0, dbgSel := 0, halt := [], bkhalt := [], ideSecure := false, ideKey := 0, keyGen := 0, flash := Config.shippedFirmware, go := none,
    fused := true, blown := false, ckpt := none }

/-- The cap block at device reset (R292). -/
def Caps.reset : Caps :=
  { avg := 1600, peak := 2300, f := 256, pwr := 0, avgLim := false, peakLim := false, e1 := [], made := 0 }

/-- The part right after a device reset whose boot order completed (R300): memory zero, nothing resident, every table at
the defaults that Base.lean gives its absent entries. -/
def State.reset : State :=
  { turns := [], serial := 0, now := 0,
    cur := { wid := 0, here := 0, next := 0, imm := 0, immWide := false, sp := false, mask := 0, ser := 0, go := false },
    mem := [], wiped := [], hostMem := [], hist := [], commits := 0, waves := [], parties := [], cores := [], clusters := [],
    dies := [], convoys := [], launches := [], queues := [], funcs := [], routes := [], streams := [], pops := [], acc := [],
    rels := [], copies := [], bodies := [], nextId := 1, feXlat := [], trbase := 0, tren := false,
    quantum := 2400000, caps := Caps.reset, grid := 0, bias := [], biasOld := [], biasWait := [], sec := Sec.reset, spdm := [], ecc := [], eccPad := [],
    eccLog := [], invpg := [] }

end Sys2Proof.Machine
end

