-- ==== Sys2Proof/Machine/Base.lean ====
section
/-! DEFINITION. The values that absent table entries stand for, and one reader and one writer for each table of State. -/

namespace Sys2Proof.Machine

abbrev Out := Host.Outcome State Fault Refusal

/-! ### Entries that no table lists -/

/-- A slice with no offset and no history (R174); its first interval starts at tick 0 of the device reset (DESIGN CHOICE, log 54). -/
def Slice.init : Slice := { offs := [0, 0, 0, 0, 0, 0, 0, 0], int := 0, lim := 0, held := none, ops := 0, det := 0, since := 0 }

/-- A core at device reset: op0, the target of an empty core (R284); the round robin starts at slot 0 (log 7). -/
def Core.init : Core :=
  { cyc := 0, op := 0, trans := none, edge := Config.period 0, dtab := [], ostler := [], fnext := 0, freserve := none, lastSlot := 15,
    pad := [], shares := [], atlb := [], l1 := [], epoch := 0, pubDone := 0, floor := 0, raised := [], lowered := [], clock := [], gone := [], tile := none, images := [], table := [],
    accs := [], parts := [], pilot := [], ramp := 7, allow := 0, rampCyc := 0, allowUp := 0, above := 0, lastArray := 0,
    filling := none, lastKind := 0, fillFor := none, stretch := none, halve := none, pair := 0, whled := 0, slerr := 0, slices := [Slice.init, Slice.init, Slice.init, Slice.init], stallSeq := 0,
    stallIssue := 0, stallMem := 0, smpCyc := 0, smpIssue := 0, smpMem := 0 }

/-- Four times the per-cluster budget, in 1/256 pJ, after device reset (R287, R292). -/
def Cluster4.init : Cluster4 :=
  { allow := 24576000, due := 0, at_ := 0, thresh := 8, alarms := 0 }

/-- A stage die at device reset (R176, R292, R296). -/
def Die.init : Die :=
  { off := false, xlat := [], l2 := [], rdc := [], opp := [], tollS := [], tollF := [], loopen := true, texp := 10, minoff := 0, maxoff := 16,
    limit := 0, ftot := [0, 0, 0], clbud := 24000, thermal := [], current := [], held := false, granted := 0, outgoing := 0,
    sliceEnd := 2400000, areas := [], coreAreas := [] }

/-- A sensor that has read nothing yet (R296; log 9). -/
def Sensor.init : Sensor := { last := none, lastAt := 0, changedAt := 0, meanAt := (0, 0), valid := true, rearm := false }

def Toll.init : Toll := { en := false, depth := 0, rate := 0, level := 0, at_ := 0 }

/-- A queue at function-level reset (R246). -/
def Queue.init : Queue :=
  { loc := false, addr := 0, asid := 0, rev := 4, log2 := 4, en := false, tail := 0, head := 0, done := 0, irq := false,
    fault := false, st := .disabled, qerra := 0, gates := [], moved := [], raised := [], opens := [], base := 0, ended := [], intr := [], poll := none }

/-- A function at function-level reset (R242, R261, R272); its Steward starts at queue 0, which the manual
leaves open (DESIGN CHOICE, log 56). -/
def Func.init : Func :=
  { himage := 0, hen := false, hbad := false, wd := 26, hentry := [], hcur := none, key := none, keyid := 0, floor := 0, weight := 1,
    lodgeBud := 0, lodgeUse := 0, energy := 0, turn := 63 }

def Ms.init : Ms := { taken := 0, count := 0, done := [] }

/-- A tile-table entry at the release of the tile party (R142). -/
def TEntry.init : TEntry :=
  { step := 0, readers := 0, ort := false, fmtt := 0, flt := false, owner := 0, claimed := false, st := .empty }

def HEntry.init : HEntry := { valid := false, entry := 0 }

/-- An invalid segment (R180). -/
def Seg.init : Seg := { base := 0, limit := 0, flags := 0, pbase := 0 }

def Fel.init : Fel := { valid := false, ord := 0, addr := 0, slot := 0, lane := 0, kind := 0, sticky := 0 }

def SReg.init : SReg := { val := 0, und := false }
/-- An h register at release is undefined (R269). -/
def SReg.undef : SReg := { val := 0, und := true }
def KReg.init : KReg := { val := 0, und := 0 }
/-- An a or b register at release is undefined (R33). -/
def VReg.undef : VReg := { val := Lanes.all 0, und := BitVec.allOnes 32 }

/-- A seeded lane state (R126): lane i of wave w of party p. -/
def lfsrSeed (p w i : Nat) : Word :=
  0xACE10000#32 ^^^ (BitVec.ofNat 32 (p % 2048) <<< 9) ^^^ (BitVec.ofNat 32 (w % 16) <<< 5) ^^^ BitVec.ofNat 32 i

/-- A wave at release (R33, R202, R268), but for what its launch and party give. -/
def Wave.init : Wave :=
  { lid := 0, party := 0, num := 0, role := 0, aAllot := 0, bAllot := 0, st := .running, back := .running, sup := false, wait := none, outer := none,
    pc := 0, live := BitVec.allOnes 32, s := [], h := [], k := [], a := [], b := [], wins := [], busy := [],
    lfsr := Lanes.of fun i => lfsrSeed 0 0 i.val, fel := Fel.init, trapcause := 0, trappc := 0, trapmask := 0, faultbase := 0x400, head := 0,
    count := 0, recs := [], seq := 0, tollstall := 0, denied := false, dencnt := 0, waitCnt := 0, age := 0, yielded := none,
    withheld := 0, exempt := false, landDue := false, landSup := false, more := [], tainted := [], epUnd := 0, preempt := false, watchdog := 0, stopping := none, tok := none,
    missed := false, wrotePc := false, haltSt := [], exiting := false, fenceUpto := 0, acqUpto := none, supAcq := none, fullUpto := none, sync := [], supSync := [] }

/-! ### Places -/

/-- The device core number of a wave key, its die, its core on the die, its cluster and its slot (R14, R15). -/
def coreNo (wid : Nat) : Nat := wid / 16
def dieOfCore (c : Nat) : Nat := c / 32
def dieNo (wid : Nat) : Nat := wid / 512
def coreOnDie (wid : Nat) : Nat := wid / 16 % 32
def slotNo (wid : Nat) : Nat := wid % 16
def clusterOf (c : Nat) : Nat := c / 4

/-- Device ticks of 1.2 GHz (R295). -/
def ticks (s : State) : Nat := s.now / Config.tickUnits

/-! ### Readers and writers of the tables -/

def coreOf (s : State) (c : Nat) : Core := Tab.findD s.cores c Core.init
def setCore (s : State) (c : Nat) (x : Core) : State := { s with cores := Tab.put s.cores c x }
def modCore (s : State) (c : Nat) (f : Core → Core) : State := setCore s c (f (coreOf s c))

def dieOf (s : State) (d : Nat) : Die := Tab.findD s.dies d Die.init
def setDie (s : State) (d : Nat) (x : Die) : State := { s with dies := Tab.put s.dies d x }
def modDie (s : State) (d : Nat) (f : Die → Die) : State := setDie s d (f (dieOf s d))

def clus (s : State) (c : Nat) : Cluster4 := Tab.findD s.clusters c Cluster4.init
def setClus (s : State) (c : Nat) (x : Cluster4) : State := { s with clusters := Tab.put s.clusters c x }
def modClus (s : State) (c : Nat) (f : Cluster4 → Cluster4) : State := setClus s c (f (clus s c))

def waveOf (s : State) (wid : Nat) : Option Wave := Tab.find s.waves wid
def setWave (s : State) (wid : Nat) (w : Wave) : State := { s with waves := Tab.put s.waves wid w }
/-- Change a wave; nothing where the slot is empty. -/
def modWave (s : State) (wid : Nat) (f : Wave → Wave) : State :=
  match waveOf s wid with
  | some w => setWave s wid (f w)
  | none => s

def launchOf (s : State) (lid : Nat) : Option Launch := Tab.find s.launches lid
def setLaunch (s : State) (lid : Nat) (l : Launch) : State := { s with launches := Tab.put s.launches lid l }
def modLaunch (s : State) (lid : Nat) (f : Launch → Launch) : State :=
  match launchOf s lid with
  | some l => setLaunch s lid (f l)
  | none => s

def partyKey (lid p : Nat) : Nat := 65536 * lid + p
def partyOf (s : State) (lid p : Nat) : Option Party := Tab.find s.parties (partyKey lid p)
def setParty (s : State) (lid p : Nat) (x : Party) : State := { s with parties := Tab.put s.parties (partyKey lid p) x }
def modParty (s : State) (lid p : Nat) (f : Party → Party) : State :=
  match partyOf s lid p with
  | some x => setParty s lid p (f x)
  | none => s

def queueKey (vf q : Nat) : Nat := 64 * vf + q
def queueOf (s : State) (k : Nat) : Queue := Tab.findD s.queues k Queue.init
def setQueue (s : State) (k : Nat) (x : Queue) : State := { s with queues := Tab.put s.queues k x }
def modQueue (s : State) (k : Nat) (f : Queue → Queue) : State := setQueue s k (f (queueOf s k))

def funcOf (s : State) (v : Nat) : Func := Tab.findD s.funcs v Func.init
def setFunc (s : State) (v : Nat) (x : Func) : State := { s with funcs := Tab.put s.funcs v x }
def modFunc (s : State) (v : Nat) (f : Func → Func) : State := setFunc s v (f (funcOf s v))

def accOf (s : State) (id : Nat) : Option Acc := Tab.find s.acc id
def setAcc (s : State) (id : Nat) (a : Acc) : State := { s with acc := Tab.put s.acc id a }
def delAcc (s : State) (id : Nat) : State := { s with acc := Tab.del s.acc id }

def copyOf (s : State) (id : Nat) : Option Copy := Tab.find s.copies id
def setCopy (s : State) (id : Nat) (c : Copy) : State := { s with copies := Tab.put s.copies id c }
def delCopy (s : State) (id : Nat) : State := { s with copies := Tab.del s.copies id }

/-- A launch's share of a core. -/
def Share.init : Share :=
  { window := 0, unit := 0, units := 0, landbusy := 0, owners := [], dictmiss := 0, req := 0, pfissued := 0, pfuseful := 0, pflate := 0, pfLines := [] }
def shareOf (s : State) (c lid : Nat) : Share := Tab.findD (coreOf s c).shares lid Share.init
def modShare (s : State) (c lid : Nat) (f : Share → Share) : State :=
  modCore s c fun x => { x with shares := Tab.put x.shares lid (f (Tab.findD x.shares lid Share.init)) }

def msOf (p : Party) (ctx : Nat) : Ms := Tab.findD p.ms ctx Ms.init

/-- The queue of a launch. -/
def queueOfLaunch (l : Launch) : Nat := queueKey l.vf l.q

/-- Gate g of a queue (R37). -/
def gateOf (q : Queue) (g : Nat) : Word := Tab.findD q.gates g 0

/-- A gate takes a value at a tick. -/
def setGate (q : Queue) (g v now : Nat) : Queue :=
  { q with gates := Tab.put q.gates g (BitVec.ofNat 32 v), moved := Tab.put q.moved g now }

/-- A gate raised by n, saturating (R37); with a raise of the Steward in the same cycle the gate takes the larger of the sum and GCOUNT
(R254). -/
def gateAdd (q : Queue) (g n now : Nat) : Queue :=
  let x := Tab.findD q.raised g (now + 1, 0, 0)
  if x.1 = now then
    let v := min (x.2.1 + n) (2 ^ 32 - 1)
    { setGate q g (max v x.2.2) now with raised := Tab.put q.raised g (now, v, x.2.2) }
  else setGate q g (min ((gateOf q g).toNat + n) (2 ^ 32 - 1)) now

/-- The Steward raises a gate to at least n, never lower (R253). -/
def gateRaise (q : Queue) (g n now : Nat) : Queue :=
  let v := (gateOf q g).toNat
  { setGate q g (max v n) now with raised := Tab.put q.raised g (now, v, n) }

/-- The waves of a launch, with their keys. -/
def wavesOf (s : State) (lid : Nat) : List (Nat × Wave) := s.waves.filter fun e => e.2.lid == lid
/-- The waves of a core. -/
def wavesOn (s : State) (c : Nat) : List (Nat × Wave) := s.waves.filter fun e => coreNo e.1 == c

/-! ### Choosing -/

/-- The best of a list under an order. -/
def best {α : Type} (lt : α → α → Bool) : List α → Option α
  | [] => none
  | x :: t => match best lt t with
    | none => some x
    | some y => if lt y x then some y else some x

/-! ### Outcomes -/

/-- Every step advances the counter of free values (log 2). -/
def bump (s : State) : State := { s with serial := s.serial + 1 }
/-- A completed step. -/
def done (s : State) : Out := .next (bump s)
/-- An event whose condition does not hold (log 1). -/
def notEnabled : Out := .refused .notEnabled

/-- A free value (log 2), told from the others of its step by a tag. -/
def free (s : State) (tag : Nat) : DWord := Config.freeValue s.serial tag
/-- An undefined register as a bundle reads it: one value from its checks to its effects. -/
def undef (s : State) (tag : Nat) : DWord := Config.freeValue s.cur.ser tag
/-- One of n outcomes that the manual leaves unspecified (log 2). -/
def pick (s : State) (tag n : Nat) : Nat := if n ≤ 1 then 0 else Config.freePick s.serial tag % n

end Sys2Proof.Machine
end

