-- ==== Sys2Proof/Machine/Flags.lean ====
section
/-! DEFINITION. Every flag computation: the first-event log and its sticky bits (R72, R73), and the stochastic-rounding
state of a lane (R126). -/

namespace Sys2Proof.Machine

/-- The KIND code of an event, which is also its sticky bit (R73). -/
def evCode (e : Ev) : Nat :=
  match e with
  | .invalid => 0
  | .divZero => 1
  | .overflow => 2
  | .underflow => 3
  | .saturated => 4

/-- Report one event of the operation at issue position ord: the first in issue order fills the log, and each sets its sticky
bit (R72). -/
def report (f : Fel) (ord : Nat) (addr : Word) (slot lane : Nat) (e : Ev) : Fel :=
  let st := f.sticky ||| BitVec.ofNat 5 (2 ^ evCode e)
  if f.valid && f.ord ≤ ord then { f with sticky := st }
  else { valid := true, ord := ord, addr := addr, slot := slot, lane := lane, kind := evCode e, sticky := st }

/-- Report a list of lane events in order (R72). -/
def reportAll (f : Fel) (ord : Nat) (addr : Word) (slot : Nat) (es : List (Nat × Ev)) : Fel :=
  es.foldl (fun a e => report a ord addr slot e.1 e.2) f

/-- `fel.addr` (R73). -/
def felAddr (f : Fel) : DWord := if f.valid then BitVec.ofNat 64 (2 ^ 32 + f.addr.toNat) else 0
/-- `fel.info` (R73). -/
def felInfo (f : Fel) : DWord := if f.valid then BitVec.ofNat 64 (256 * f.kind + 8 * f.lane + f.slot) else 0
/-- `fel.sticky` (R73). -/
def felSticky (f : Fel) : DWord := f.sticky.zeroExtend 64

/-- One step of a lane's stochastic-rounding state (R126). -/
def lfsrStep (x : Word) : Word := if x.getLsbD 0 then (x >>> 1) ^^^ 0x80200003#32 else x >>> 1

def lfsrSteps : Nat → Word → Word
  | 0, x => x
  | n + 1, x => lfsrSteps n (lfsrStep x)

/-- The 16 steps that one element takes (R126, R127). -/
def lfsrDraw (x : Word) : Word := lfsrSteps 16 x

/-- The draw v of R127. -/
def lfsrV (x : Word) : Nat := x.toNat % 2 ^ 16

end Sys2Proof.Machine
end

