-- ==== Sys2Proof/Machine/Mem.lean ====
section
/-! DEFINITION. Bytes of memory in one canonical form; the commit order of each location (R207); the snapshot a core reads
through (R210 to R212); and where the homes and the host memory lie (R177). -/

namespace Sys2Proof.Machine

/-! ### Bytes -/

/-- The byte at an address; an unlisted one is 0 (R300 step 4; log 5 for host memory). -/
def getByte (m : List Host.Cell) (a : Nat) : Byte := Tab.findD m a 0

/-- Write a byte and keep the canonical form: an entry equal to 0 is not listed. -/
def putByte (m : List Host.Cell) (a : Nat) (v : Byte) : List Host.Cell := if v = 0 then Tab.del m a else Tab.put m a v

def getBytes (m : List Host.Cell) (a : Nat) : Nat → List Byte
  | 0 => []
  | n + 1 => getByte m a :: getBytes m (a + 1) n

def putBytes (m : List Host.Cell) (a : Nat) : List Byte → List Host.Cell
  | [] => m
  | v :: t => putBytes (putByte m a v) (a + 1) t

/-- Addresses strictly rising from a bound, and no entry 0. -/
def cellsFrom : Nat → List Host.Cell → Bool
  | _, [] => true
  | n, (a, v) :: t => n ≤ a && v != 0 && cellsFrom (a + 1) t

/-- The canonical form of memory. -/
def Memory.wf (m : List Host.Cell) : Bool := cellsFrom 0 m

/-! ### Homes -/

/-- The device memory key of a physical address: far, or near on a die (log 3). -/
def homeLoc (far : Bool) (die pa : Nat) : Nat := if far then Config.farBase + pa else Config.nearBase die + pa

/-- Size of a home (R177). -/
def homeSize (far : Bool) : Nat := if far then Config.farSize else Config.nearSize

/-- A location whose byte is undefined since its data key was replaced (R306). -/
def isWiped (l : List (Nat × Nat)) (loc : Nat) : Bool := l.any fun r => r.1 ≤ loc && loc < r.1 + r.2

/-- The run without one of its bytes. -/
def cutRun (loc : Nat) (r : Nat × Nat) : List (Nat × Nat) :=
  if r.1 ≤ loc ∧ loc < r.1 + r.2 then [(r.1, loc - r.1), (loc + 1, r.1 + r.2 - (loc + 1))].filter fun x => x.2 != 0 else [r]

/-- A byte of device memory as it stands at its home. -/
def devByte (s : State) (loc : Nat) : Byte := if isWiped s.wiped loc then (free s (70000000 + loc)).truncate 8 else getByte s.mem loc

def devGo (s : State) (loc : Nat) : Nat → List Byte
  | 0 => []
  | n + 1 => devByte s loc :: devGo s (loc + 1) n

/-- Read device memory as it stands at its homes. -/
def devBytes (s : State) (loc n : Nat) : List Byte := if s.wiped.isEmpty then getBytes s.mem loc n else devGo s loc n

/-! ### Commits (R207) -/

/-- A store of the device itself. -/
def Origin.device : Origin := { by_ := none, host := false, op := 0, copy := false, strong := none, rel := none, atom := false, via := none }

/-- A store of the host (R298). -/
def Origin.ofHost : Origin := { Origin.device with host := true }

/-- One byte of an event takes its place in coherence order: it follows every store already committed there. The bytes of one event
share its number. -/
def putCommit (s : State) (o : Origin) (loc : Nat) (v : Byte) : State :=
  { s with
    mem := putByte s.mem loc v
    wiped := s.wiped.flatMap (cutRun loc)
    hist := { seq := s.commits + 1, loc := loc, old := devByte s loc, new := v, org := o, fenced := false } :: s.hist }

/-- Bytes of an event at consecutive locations. -/
def putCommits (s : State) (o : Origin) : Nat → List Byte → State
  | _, [] => s
  | loc, v :: t => putCommits (putCommit s o loc v) o (loc + 1) t

/-- An event is complete. -/
def endEvent (s : State) : State := { s with commits := s.commits + 1 }

/-- Commit one byte as an event of its own (R207, R208). -/
def commitByte (s : State) (o : Origin) (loc : Nat) (v : Byte) : State := endEvent (putCommit s o loc v)

/-- Commit bytes at consecutive locations as one event: a lane's access is single-copy-atomic (R340). -/
def commitBytes (s : State) (o : Origin) (loc : Nat) (bs : List Byte) : State := endEvent (putCommits s o loc bs)

/-- The wave of a slot as a writer. -/
def writerAt (s : State) (wid : Nat) : Option Writer :=
  (waveOf s wid).map fun w => { key := wid, id := { lid := w.lid, party := w.party, num := w.num } }

/-- The slot in which a writer stands now, or last stood: a wave that has migrated is judged where it runs (R220). -/
def standing (s : State) (x : Writer) : Nat :=
  match s.waves.find? fun e => e.2.lid == x.id.lid && e.2.party == x.id.party && e.2.num == x.id.num with
  | some e => e.1
  | none => x.key

/-- The wave of an access as a writer. -/
def accWriter (a : Acc) : Writer := { key := 16 * a.core + a.wid % 16, id := { lid := a.lid, party := a.party, num := a.num } }

/-- The addresses through which an access and a copy reach a location. -/
def accVia (a : Acc) (va loc : Nat) : Via := { asid := a.asid, delta := (va : Int) - loc, isAlias := a.direct, paged := a.pageable }
def copyVia (c : Copy) (va loc : Nat) : Via := { asid := c.asid, delta := (va : Int) - loc, isAlias := c.direct, paged := c.lin.isNone }

/-- An access as the origin of a store of the byte at a virtual address to a location. -/
def accOrigin (id : Nat) (a : Acc) (va loc : Nat) (atom : Bool) : Origin :=
  { by_ := some (accWriter a)
    host := false
    op := id
    copy := false
    strong := if a.scope.isPlain then none else some a.scope
    rel := if a.ord == .release || a.ord == .acqRel then some a.view else none
    atom := atom
    via := some (accVia a va loc) }

/-- The same of a copy. -/
def copyOrigin (c : Copy) (va loc : Nat) : Origin :=
  { Origin.device with
    by_ := some { key := 16 * c.core + c.wid % 16, id := { lid := c.lid, party := c.party, num := c.wnum } }
    op := c.op
    copy := true
    via := some (copyVia c va loc) }

/-- The same of a push into a ring slot. -/
def pushOrigin (p : Push) : Origin :=
  { Origin.device with by_ := some { key := 16 * p.core + p.wid % 16, id := { lid := p.lid, party := p.party, num := p.wnum } }, op := p.id, copy := true }

/-- A write by the device itself. -/
def devWrite (s : State) (loc : Nat) (bs : List Byte) : State := commitBytes s Origin.device loc bs

/-- Host memory writes are no device commits. -/
def hostWrite (s : State) (a : Nat) (bs : List Byte) : State := { s with hostMem := putBytes s.hostMem a bs }

/-- A structure that lies in far memory or in host memory (R246 LOC). -/
def writeSide (s : State) (host : Bool) (a : Nat) (bs : List Byte) : State :=
  if host then hostWrite s a bs else devWrite s (Config.farBase + a) bs
def readSide (s : State) (host : Bool) (a n : Nat) : List Byte :=
  if host then getBytes s.hostMem a n else devBytes s (Config.farBase + a) n

/-! ### Snapshots -/

/-- The contents of a location after commit c: newest commits undone first. -/
def valueAt (h : List Commit) (loc c : Nat) (v : Byte) : Byte :=
  match h with
  | [] => v
  | x :: t => if x.seq ≤ c then v else valueAt t loc c (if x.loc = loc then x.old else v)

/-- The bytes from loc as they stood after commit c. -/
def bytesAt (s : State) (loc n c : Nat) : List Byte :=
  (List.range n).map fun i => valueAt s.hist (loc + i) c (devByte s (loc + i))

/-- The floor of a location for a core (R210); a scope race leaves none (R222). -/
def floorOf (c : Core) (loc : Nat) : Nat := if c.lowered.contains loc then 0 else max c.floor (Tab.findD c.raised loc 0)

/-- The highest floor of n locations. -/
def floorMax (c : Core) (loc n : Nat) : Nat := (List.range n).foldl (fun a i => max a (floorOf c (loc + i))) 0

/-- The cuts at which a read of n bytes may be taken, the latest first: the present and every moment before a later commit
to one of the bytes (R210). -/
def cuts (s : State) (loc n f : Nat) : List Nat :=
  s.commits :: (s.hist.filter fun x => f < x.seq && loc ≤ x.loc && x.loc < loc + n).map fun x => x.seq - 1

/-- The cut of a snapshot read: unspecified among the candidates (log 2). -/
def cutOf (s : State) (core loc n tag : Nat) : Nat :=
  let cs := cuts s loc n (floorMax (coreOf s core) loc n)
  cs.getD (pick s tag cs.length) s.commits

/-- A read raises the floor of each byte to the cut (R210). -/
def raiseTo (c : Core) (loc n cut : Nat) : Core :=
  { c with raised := (List.range n).foldl (fun r i => if floorOf c (loc + i) < cut then Tab.put r (loc + i) cut else r) c.raised }

/-- One cut for a list of spans (location, length): a tile is read as one event (R223). -/
def cutMany (s : State) (core : Nat) (l : List (Nat × Nat)) (tag : Nat) : Nat :=
  let f := l.foldl (fun m x => max m (floorMax (coreOf s core) x.1 x.2)) 0
  let cs := s.commits :: l.flatMap fun x => (cuts s x.1 x.2 f).tail
  cs.getD (pick s tag cs.length) s.commits

/-- Read n bytes through the snapshot of a core. -/
def snapRead (s : State) (core loc n tag : Nat) : List Byte × State :=
  let c := cutOf s core loc n tag
  (bytesAt s loc n c, modCore s core fun x => raiseTo x loc n c)

/-- A piece of an access touches a line. -/
def onLine (line : Nat) (p : Piece) : Bool := !p.done && p.va / 128 ≤ line && line ≤ (p.va + p.size - 1) / 128

/-- A plain store that its core's L1 still holds: no publication has taken it, and it has not left early (R211). -/
def inL1 (core : Nat) (a : Acc) : Bool :=
  a.core == core && !a.loc && a.scope.isPlain && (a.kind == .store || a.kind == .tstore) && a.epoch.isNone && !a.sent && !a.direct

/-- A line of a core's L1 is dirty. -/
def dirtyLine (s : State) (core asid line : Nat) : Bool :=
  s.acc.any fun e => inL1 core e.2 && e.2.asid == asid && e.2.pieces.any (onLine line)

/-- A line of a core's L1 with an error whose stores have still to reach their home: they take the error there (R206). -/
def spoiling (s : State) (core : Nat) (x : CLine) : Bool :=
  !x.bad.isEmpty && s.acc.any fun e => e.2.core == core && !e.2.loc && e.2.scope.isPlain && (e.2.kind == .store || e.2.kind == .tstore) &&
    e.2.asid == x.asid && e.2.pieces.any (onLine x.line)

/-- A refresh raises every floor to what is committed (R212) and drops the clean lines of the core's L1: those that no plain store
of the core, still to commit, keeps dirty. -/
def refresh (s : State) (core : Nat) : State :=
  modCore s core fun c => { c with
    floor := s.commits
    raised := []
    l1 := c.l1.filter fun x => dirtyLine s core x.asid x.line || spoiling s core x }

/-! ### Cache lines (R189) -/

/-- Put a line at the front of a list of at most n most recently used lines; in a full one the last line without an error leaves. -/
def frontLine (n : Nat) (asid line : Nat) (l : List CLine) : List CLine :=
  let x := (l.find? fun y => y.asid == asid && y.line == line).getD { asid := asid, line := line, phys := none, bad := [], back := 0 }
  let r := l.filter fun y => !(y.asid == asid && y.line == line)
  x :: if r.length < n then r else
    match r.reverse.find? fun y => y.bad.isEmpty with
    | some y => r.filter (· != y)
    | none => r.dropLast

/-- The lines that n bytes touch. -/
def linesOf (a n : Nat) : List Nat := if n = 0 then [] else (List.range ((a + n - 1) / 128 - a / 128 + 1)).map (a / 128 + ·)

/-- A core's L1 holds a line that it uses. -/
def holdL1 (s : State) (core asid va n : Nat) : State :=
  modCore s core fun c => { c with l1 := (linesOf va n).foldl (fun l x => frontLine Config.l1Lines asid x l) c.l1 }

/-- A die's remote-data cache holds a far line that its cores read. -/
def holdRdc (s : State) (die asid va n : Nat) : State :=
  modDie s die fun d => { d with rdc := (linesOf va n).foldl (fun l x => frontLine Config.rdcLines asid x l) d.rdc }

/-- The slice of L2 that holds a line: of its virtual address, or of its physical address under a physical tag (R178, R189, R191). -/
def sliceOf (home : Nat) (x : CLine) : Nat := (if x.phys.isSome then home else x.line) / 32 % 32

/-- A line of L2 that is used, under its home location: a new one has been written back up to now. An alias records its own address
(R189, R203). Where the line's slice is full (R12), another line of it leaves, written back: the first without an error. -/
def useL2 (commits asid va : Nat) (direct : Bool) (t : Tab CLine) (loc : Nat) : Tab CLine :=
  let x := Tab.findD t (loc / 128) { asid := asid, line := va / 128, phys := none, bad := [], back := commits }
  let y := if direct then { x with asid := asid, line := va / 128, phys := some (loc / 128) } else x
  let t1 := Tab.put t (loc / 128) y
  let mates := if t1.length ≤ Config.l2SliceLines then [] else t1.filter fun e => sliceOf e.1 e.2 == sliceOf (loc / 128) y
  if mates.length ≤ Config.l2SliceLines then t1
  else
    match mates.find? fun e => e.1 != loc / 128 && e.2.bad.isEmpty with
    | some e => Tab.del t1 e.1
    | none => match mates.find? fun e => e.1 != loc / 128 with
      | some e => Tab.del t1 e.1
      | none => t1

/-- The L2 of the home die holds the near lines that an access uses; far lines stand in no L2 (R18). -/
def holdL2 (s : State) (asid va loc n : Nat) (direct : Bool) : State :=
  if Config.farBase ≤ loc then s
  else
    modDie s (loc / Config.nearSize) fun d =>
      { d with l2 := (linesOf loc n).foldl (fun t x => useL2 s.commits asid (va + 128 * x - loc) direct t (128 * x)) d.l2 }

/-! ### Scratchpad and slot images -/

def padBytes (s : State) (core a n : Nat) : List Byte := (List.range n).map fun i => Tab.findD (coreOf s core).pad (a + i) 0
def padWrite (s : State) (core : Nat) (a : Nat) (bs : List Byte) : State :=
  modCore s core fun c => { c with pad := putBytes c.pad a bs }

/-- Bytes of a slot image; one not written since the slot was claimed is undefined (R146). -/
def slotBytes (s : State) (core o a n tag : Nat) : List Byte :=
  (List.range n).map fun i =>
    match Tab.find (Tab.findD (coreOf s core).images o []) (a + i) with
    | some v => v
    | none => (free s (tag + a + i)).truncate 8

/-- Put bytes into a table of listed bytes. -/
def tabBytes (t : Tab Byte) (a : Nat) : List Byte → Tab Byte
  | [] => t
  | v :: bs => tabBytes (Tab.put t a v) (a + 1) bs

/-- The contents of a slot are undefined (R143). -/
def dropImage (s : State) (core o : Nat) : State := modCore s core fun c => { c with images := Tab.del c.images o }

def slotWrite (s : State) (core o a : Nat) (bs : List Byte) : State :=
  modCore s core fun c => { c with images := Tab.put c.images o (tabBytes (Tab.findD c.images o []) a bs) }

end Sys2Proof.Machine
end

