-- ==== Sys2Proof/Machine/Regs.lean ====
section
/-! DEFINITION. The registers of a wave: reads that deliver a free value where the manual leaves the register undefined
(R33, R65, R67, R269), exposed results on their way (R65, R67, R71), and the scoreboard (R70, R341). -/

namespace Sys2Proof.Machine

def writeReg (x : RegWrite) : Reg :=
  match x with
  | .s n _ => .s n
  | .h n _ => .h n
  | .k n _ _ => .k n
  | .v cl n _ _ => .v cl n

/-- The lanes that a write covers; all ones for an s or h register. -/
def writeMask (x : RegWrite) : Word :=
  match x with
  | .s _ _ => BitVec.allOnes 32
  | .h _ _ => BitVec.allOnes 32
  | .k _ m _ => m
  | .v _ _ m _ => m

/-- The open windows on a register (R65). -/
def openOn (ws : List Window) (r : Reg) : List Window := ws.filter fun x => decide (x.left < x.total) && writeReg x.w == r

/-- The lanes of a register that open windows make undefined: those that the write covers (R65), the whole register while two are open
(R67). -/
def openMask (ws : List Window) (r : Reg) : Word :=
  match openOn ws r with
  | [] => 0
  | [x] => writeMask x.w
  | _ => BitVec.allOnes 32

/-- The register that an s index names: h0 to h7 for 56 to 63 in supervisor mode (R269). -/
def nameS (sup : Bool) (n : Nat) : Reg := if sup && 56 ≤ n then .h (n - 56) else .s n

def holdS (w : Wave) (n : Nat) : SReg :=
  if w.sup && 56 ≤ n then Tab.findD w.h (n - 56) SReg.undef else Tab.findD w.s n SReg.init
def holdK (w : Wave) (n : Nat) : KReg := Tab.findD w.k n KReg.init
def holdV (w : Wave) (cl : Cluster) (n : Nat) : VReg :=
  match cl with
  | .A => Tab.findD w.a n VReg.undef
  | .B => Tab.findD w.b n VReg.undef

/-- `s[n]` as a bundle reads it. -/
def rdS (s : State) (w : Wave) (tag n : Nat) : DWord :=
  if (holdS w n).und || openMask w.wins (nameS w.sup n) != 0 || w.tainted.contains (nameS w.sup n) then undef s tag else (holdS w n).val

/-- `k[n]` as a bundle reads it; k0 is the live mask (R23). -/
def rdK (s : State) (w : Wave) (tag n : Nat) : Word :=
  if n = 0 then w.live
  else
    let u := (holdK w n).und ||| openMask w.wins (.k n)
    if u = 0 then (holdK w n).val else ((holdK w n).val &&& ~~~u) ||| ((undef s tag).truncate 32 &&& u)

/-- A vector register as a bundle reads it. -/
def rdV (s : State) (w : Wave) (tag : Nat) (cl : Cluster) (n : Nat) : Lanes :=
  let u := (holdV w cl n).und ||| openMask w.wins (.v cl n)
  if u = 0 then (holdV w cl n).val
  else Lanes.of fun i => if u.getLsbD i.val then (undef s (tag + i.val)).truncate 32 else (holdV w cl n).val.at i.val

/-- The effective mask of a K field (R24). -/
def effMask (s : State) (w : Wave) (tag : Nat) (k : Nat) : Word := rdK s w tag k &&& w.live

/-- The tag of operand o of a slot, for free values. -/
def tagOf (slot o : Nat) : Nat := slot * 65536 + o * 64

/-- Carry out a write; `clash` leaves the whole register undefined (R67). -/
def applyWrite (w : Wave) (x : RegWrite) (clash : Bool) : Wave :=
  match x with
  | .s n v => { w with s := Tab.put w.s n { val := v, und := clash } }
  | .h n v => { w with h := Tab.put w.h n { val := v, und := clash } }
  | .k n m v =>
    let o := holdK w n
    { w with k := Tab.put w.k n { val := (o.val &&& ~~~m) ||| (v &&& m), und := if clash then BitVec.allOnes 32 else o.und &&& ~~~m } }
  | .v .A n m v =>
    let o := holdV w .A n
    { w with a := Tab.put w.a n { val := Lanes.merge m v o.val, und := if clash then BitVec.allOnes 32 else o.und &&& ~~~m } }
  | .v .B n m v =>
    let o := holdV w .B n
    { w with b := Tab.put w.b n { val := Lanes.merge m v o.val, und := if clash then BitVec.allOnes 32 else o.und &&& ~~~m } }

/-- Whether a new write with bound L and an outstanding window will be open in one cycle (R67). -/
def overlaps (L : Nat) (x : RegWrite) (o : Window) : Bool := 2 ≤ L && 2 ≤ o.left && writeReg o.w == writeReg x

/-- Issue an exposed write with bound L (R65). -/
def pushWin (w : Wave) (x : RegWrite) (L : Nat) : Wave :=
  { w with wins := (w.wins.map fun o => if overlaps L x o then { o with clash := true } else o) ++
      [{ w := x, total := L, left := L, clash := w.wins.any (overlaps L x) }] }

/-- Issue several exposed writes. -/
def pushWins (w : Wave) (xs : List RegWrite) (L : Nat) : Wave := xs.foldl (fun a x => pushWin a x L) w

/-- The write to an s index, an h register in supervisor mode (R269). -/
def sWrite (sup : Bool) (n : Nat) (v : DWord) : RegWrite := if sup && 56 ≤ n then .h (n - 56) v else .s n v

/-- One cycle nearer to landing. -/
def tickWins (w : Wave) : Wave := { w with wins := w.wins.map fun x => { x with left := x.left - 1 } }

/-- Land the windows whose time has come (R65). DESIGN CHOICE (log 46): of two results without overlapping windows that land in one
cycle, the one that issued later prevails. -/
def landDone (w : Wave) : Wave :=
  (w.wins.filter fun x => x.left == 0).foldl (fun a x => applyWrite a x.w x.clash)
    { w with wins := w.wins.filter fun x => x.left != 0 }

/-- Put a window into a list sorted by the time of landing, after its equals. -/
def insertWin (x : Window) : List Window → List Window
  | [] => [x]
  | y :: t => if x.left < y.left then x :: y :: t else y :: insertWin x t

/-- Wait until every open exposed window has closed (R71). -/
def drainWins (w : Wave) : Wave :=
  (w.wins.foldl (fun l x => insertWin x l) []).foldl (fun a x => applyWrite a x.w x.clash) { w with wins := [] }

/-! ### The scoreboard -/

/-- Mark registers that access or operation id has still to write (R341). -/
def addBusy (w : Wave) (id : Nat) (rs : List Reg) : Wave :=
  { w with busy := w.busy ++ rs.map fun r => { reg := r, by_ := id } }

/-- Drop the marks of an access. -/
def clearBusy (w : Wave) (id : Nat) : Wave := { w with busy := w.busy.filter fun b => b.by_ != id }

def isBusy (w : Wave) (r : Reg) : Bool := w.busy.any fun b => b.reg == r

/-- A scoreboarded result arrives: written at once (R70). -/
def landNow (w : Wave) (xs : List RegWrite) : Wave := xs.foldl (fun a x => applyWrite a x false) w

end Sys2Proof.Machine
end

