-- ==== Sys2Proof/Machine/Ops.lean ====
section
/-! DEFINITION. The shared operations: operating-point targets (R284, R285), queue error records (R250), killing a launch (R273),
fault-record queues (R199 to R202), taking an exception (R267) and returning from it (R271), publication and release
(R211, R217). -/

namespace Sys2Proof.Machine

/-! ### Operating points (R284, R285) -/

/-- OPPWIN of a function on a die; op0 to op7 at reset (log 8). -/
def oppWin (s : State) (die vf : Nat) : Nat × Nat := Tab.findD (dieOf s die).opp vf (0, 7)

/-- The granted window of a launch on its die (R284). -/
def granted (s : State) (l : Launch) : Nat × Nat :=
  let h := oppWin s l.die l.vf
  let lo := max l.p.oppLo h.1
  let hi := min l.p.oppHi h.2
  let g := if lo ≤ hi then (lo, hi) else if h.2 < l.p.oppLo then (h.2, h.2) else (h.1, h.1)
  if (dieOf s l.die).held then (min g.1 1, min g.2 1) else g

/-- The target of a core: the highest request, clamped to every resident ceiling; op0 when empty. -/
def targetOf (s : State) (c : Nat) : Nat :=
  (coreOf s c).shares.foldl (fun m e => match launchOf s e.1 with
    | some l => min m (granted s l).2
    | none => m) ((coreOf s c).shares.foldl (fun m e => max m e.2.req) 0)

/-- 150 ns of rail slew, in 1/126 GHz. -/
def slewTime : Nat := 18900

/-- Begin a transition when the core stands elsewhere than its target and none is in progress (R285). Offsets of its slices are
suspended while it settles (R175). -/
def retarget (s : State) (c : Nat) : State :=
  let x := coreOf s c
  let t := targetOf s c
  match x.trans with
  | some _ => s
  | none =>
    if t = x.op then s
    else
      let up := x.op < t
      setCore s c { x with
        trans := some { target := t, up := up, phase2 := false, end_ := s.now + (if up then slewTime else 48 * Config.period x.op) } }

/-- The period at which a core issues: the lower of the two frequencies during a transition (R285), and twice the period
while stretched (R293). -/
def periodOf (s : State) (c : Nat) : Nat :=
  let x := coreOf s c
  let p := match x.trans with
    | some t => max (Config.period x.op) (Config.period t.target)
    | none => Config.period x.op
  match x.stretch with
  | some (_ + 1) => 2 * p
  | _ => p

/-! ### Queue faults (R250, R411) -/

/-- The 32 bytes of a queue error record. -/
def errBytes (pkt code die core slot : Nat) (addr detail : Nat) (time : Nat) : List Byte :=
  leBytes 4 pkt ++ leBytes 1 code ++ leBytes 1 die ++ leBytes 1 core ++ leBytes 1 slot ++ leBytes 4 addr ++ leBytes 4 detail ++
    leBytes 8 time ++ leBytes 8 0

/-- Write the error record at QERRA, set FAULT and stop reading the queue (R250). -/
def faultQueue (s : State) (k pkt code die core slot addr detail : Nat) : State :=
  let q := queueOf s k
  let s1 := writeSide s q.loc q.qerra (errBytes pkt code die core slot addr detail (ticks s))
  setQueue s1 k { q with fault := true, st := .faulted, poll := none }

/-! ### Killing a launch (R273) -/

/-- The launches that a kill of one ends: it and, in a route, every stage (R273). -/
def killSet (s : State) (lid : Nat) : List Nat :=
  match launchOf s lid with
  | none => []
  | some l =>
    if l.p.route = 0 then [lid]
    else (s.launches.filter fun e => e.2.vf == l.vf && e.2.q == l.q && e.2.p.route == l.p.route && e.2.st == .accepted).map (·.1)

/-- Each unpublished store of a killed launch either lands or does not (R273): chosen freely. -/
def settlePieces (s : State) (id : Nat) (a : Acc) (tag : Nat) : List Piece → Nat → State
  | [], _ => s
  | p :: t, n =>
    let s1 := match p.pa, p.done with
      | some loc, false => if pick s (tag + n) 2 = 0 then s else commitBytes s (accOrigin id a p.va loc false) loc p.data
      | _, _ => s
    settlePieces s1 id a tag t (n + 1)

/-- A tile store lands whole or not at all. -/
def settleTile (s : State) (id : Nat) (a : Acc) (tag : Nat) (ps : List Piece) : State :=
  if pick s tag 2 = 0 ∨ ps.any (fun p => p.pa.isNone || p.data.length != p.size) then s
  else endEvent (ps.foldl (fun t p => match p.pa with
    | some loc => putCommits t (accOrigin id a p.va loc false) loc p.data
    | none => t) s)

/-- The stores of a killed launch that are on their way, neither held nor releases that wait for their counted set. -/
def settleAcc (s : State) (e : Nat × Acc) : State :=
  if e.2.held ∨ e.2.rel.isSome then s
  else
    match e.2.kind with
    | .store => settlePieces s e.1 e.2 (1000000 + 64 * e.1) e.2.pieces 0
    | .tstore => settleTile s e.1 e.2 (1000000 + 64 * e.1) e.2.pieces
    | _ => s

/-- The virtual address of byte k of a copy. -/
def runVa : List (Nat × Nat) → Nat → Nat
  | [], _ => 0
  | r :: t, k => if k < r.2 then r.1 + k else runVa t (k - r.2)

/-- The device location of a virtual address of a copy. -/
def copyLoc (c : Copy) (va : Nat) : Option Nat :=
  match c.lin with
  | some x => some (x.2 + (va - x.1))
  | none => (Tab.find c.pages (va / 4096)).map (· + va % 4096)

/-- The bytes of an interval list, by number. -/
def numbers (l : List (Nat × Nat)) : List Nat := l.flatMap fun r => (List.range r.2).map (r.1 + ·)

/-- The first byte of a launch's region in the scratchpad of a core (R183). -/
def padBase (s : State) (core lid : Nat) : Nat := 6144 * (shareOf s core lid).unit

/-- Byte k of the local side of an outbound copy. -/
def copySource (s : State) (c : Copy) (k : Nat) : Byte :=
  match c.kind with
  | .outSlot => if c.drained then Tab.findD c.got k 0 else ((slotBytes s c.core (c.loff / 8192) (c.loff % 8192 + k) 1 (6000000 + k)).headD 0)
  | _ => (padBytes s c.core (padBase s c.core c.lid + c.loff + k) 1).headD 0

/-- The bytes of a killed outbound copy that are still to be moved: each lands or does not (R273). -/
def settleBytes (s : State) (c : Copy) (tag : Nat) : List Nat → State
  | k :: t =>
    settleBytes (match copyLoc c (runVa c.runs k) with
      | some loc => if pick s (tag + k) 2 = 0 then s else commitByte s (copyOrigin c (runVa c.runs k) loc) loc (copySource s c k)
      | none => s) c tag t
  | [] => s

/-- Drop the tile engine's state of a core (R147, R174); a held slice stays held until its tile party has retired. -/
def dropTile (c : Core) : Core :=
  let slices := c.slices.map fun x => { x with int := 0, lim := 0 }
  { c with tile := none, images := [], table := [], accs := [], parts := [], pilot := [], slices := slices }

/-- Slices held for tile parties that have retired are held no longer (R174). -/
def freeHolds (gone : Nat × Nat → Bool) (c : Core) : Core :=
  { c with slices := c.slices.map fun x => { x with held := x.held.filter fun t => !gone t } }

/-- Remove a launch's claims from one core. -/
def leaveCore (lid : Nat) (c : Core) : Core :=
  let c1 := if (c.tile.map (·.1)) == some lid then dropTile c else c
  { c1 with
    shares := Tab.del c1.shares lid
    dtab := c1.dtab.filter fun d => d.key.lid != lid
    ostler := c1.ostler.filter fun o => o.1.lid != lid }

/-- Remove a launch from a die: its areas. -/
def leaveDie (lid : Nat) (d : Die) : Die :=
  { d with areas := d.areas.filter fun a => a.1 != lid, coreAreas := d.coreAreas.filter fun a => a.1 != lid }

/-- End one launch everywhere, freeing what it holds (R273). -/
def endLaunch (s : State) (lid : Nat) : State :=
  let s1 := (s.acc.filter fun e => e.2.lid == lid).foldl settleAcc s
  let onCores := (s.cores.filter fun e => (Tab.find e.2.shares lid).isSome).map (·.1)
  let vf := match launchOf s lid with | some l => l.vf | none => 0
  let lodgedBack := (s.streams.filter fun e => e.2.sLid == lid || e.2.rLid == lid).foldl
    (fun a e => a + e.2.lodged.length * (e.2.size / 4096)) 0
  let s2 := { s1 with
    waves := s1.waves.filter fun e => e.2.lid != lid
    parties := s1.parties.filter fun e => e.1 / 65536 != lid
    cores := s1.cores.map fun e => (e.1, freeHolds (fun t => t.1 == lid) (leaveCore lid e.2))
    dies := s1.dies.map fun e => (e.1, leaveDie lid e.2)
    convoys := s1.convoys.filter fun e => e.2.lid != lid
    acc := s1.acc.filter fun e => e.2.lid != lid
    rels := s1.rels.filter fun e => e.2.lid != lid
    copies := s1.copies.filter fun e => e.2.lid != lid
    pops := s1.pops.filter fun e => e.2.lid != lid
    streams := s1.streams.filter fun e => !(e.2.sLid == lid || e.2.rLid == lid)
    bodies := s1.bodies.filter fun e => e.2.lid != lid
    invpg := s1.invpg.filter fun e => match waveOf s e.2.1 with | some w => w.lid != lid | none => false }
  let s3 := modFunc (modLaunch s2 lid fun l => { l with st := .killed }) vf fun f => { f with lodgeUse := f.lodgeUse - lodgedBack }
  onCores.foldl retarget s3

/-- A killed launch's copies towards global memory. -/
def settleCopy (s : State) (e : Nat × Copy) : State :=
  match e.2.kind with
  | .outLocal | .outSlot => settleBytes s e.2 5000000 (numbers e.2.todo)
  | _ => s

/-- Kill a launch with its route: everything ends, then Lonal writes the record and faults the queue (R273). -/
def killLaunch (s : State) (lid code die core slot addr detail : Nat) : State :=
  match launchOf s lid with
  | none => s
  | some l =>
    let ks := killSet s lid
    let s1 := (s.copies.filter fun e => ks.contains e.2.lid).foldl settleCopy s
    let s2 := ks.foldl endLaunch s1
    let s3 := { s2 with routes := s2.routes.filter fun e => !(e.2.vf == l.vf && e.2.q == l.q && l.p.route != 0 && e.2.tag == l.p.route) }
    faultQueue s3 (queueOfLaunch l) l.pkt code die core slot addr detail

/-- Kill the launch of a wave, for a trap at a bundle address (R250). -/
def killWave (s : State) (wid : Nat) (w : Wave) (code : Nat) (addr : Word) (detail : Nat) : State :=
  killLaunch s w.lid code (dieNo wid) (coreOnDie wid) (slotNo wid) addr.toNat detail

/-! ### Fault records (R199 to R202) -/

/-- The wave area of a wave on its die, as a device location (R276). -/
def waveArea (s : State) (wid : Nat) (w : Wave) : Option Nat :=
  ((dieOf s (dieNo wid)).areas.find? fun a => a.1 == w.lid && a.2.1 == w.party && a.2.2.1 == w.num).map fun a =>
    Config.nearBase (dieNo wid) + Config.ctxBase + 32768 * a.2.2.2

/-- The device location of an address as the handler sees it: the context segment, else a segment of the handler image
(R202, R269). -/
def handlerLoc (s : State) (wid : Nat) (w : Wave) (a : Nat) : Option Nat :=
  if a + 32 ≤ 32768 then (waveArea s wid w).map (· + a)
  else
    match launchOf s w.lid with
    | none => none
    | some l =>
      match l.htab.image with
      | none => none
      | some im =>
        (im.segs.find? fun g => g.flags.getLsbD 0 && g.base ≤ a && a + 32 ≤ g.base + g.limit).map fun g =>
          homeLoc (g.flags.getLsbD 4) (dieNo wid) (g.pbase + (a - g.base))

/-- The device writes bytes of a record queue: the core of the wave sees them at once, so that the handler reads them with plain loads
(R202, R405; log 59). -/
def recWrite (s : State) (wid loc : Nat) (bs : List Byte) : State :=
  let s1 := devWrite s loc bs
  modCore s1 (coreNo wid) fun c => raiseTo c loc bs.length s1.commits

/-- Queue a record (R201, R202); a full queue leaves it at its controller (R196). -/
def pushRecord (s : State) (wid : Nat) (w : Wave) (r : FRec) : State × Wave × Bool :=
  if 64 ≤ w.count then (s, w, false)
  else
    let k := (w.head + w.count) % 64
    let loc := handlerLoc s wid w (w.faultbase.toNat + 32 * k)
    let s1 := match loc with
      | some l => recWrite s wid l (leBytes 32 r.bits.toNat)
      | none => s
    (s1, { w with recs := Tab.put w.recs k { r with loc := loc }, count := w.count + 1 }, true)

/-- The span from HEAD to the newest unfreed record, and HEAD past freed slots (R202): n slots remain to be looked at. -/
def trimSpan (recs : Tab FRec) : Nat → Nat → Nat → Nat × Nat
  | 0, head, count => (head, count)
  | n + 1, head, count =>
    if count = 0 then (head, 0)
    else if (Tab.find recs head).isNone then trimSpan recs n ((head + 1) % 64) (count - 1)
    else if (Tab.find recs ((head + count - 1) % 64)).isNone then trimSpan recs n head (count - 1)
    else (head, count)

/-- Free the record in a slot: its CAUSE byte becomes 0 and HEAD and COUNT follow (R198, R202). -/
def freeRecord (s : State) (wid : Nat) (w : Wave) (k : Nat) : State :=
  match Tab.find w.recs k with
  | none => s
  | some r =>
    let s1 := match r.loc with
      | some l => recWrite s wid (l + 5) [0]
      | none => s
    let recs := Tab.del w.recs k
    let t := trimSpan recs 128 w.head w.count
    -- with no record left, HEAD is the slot that the next record takes
    let hc := if recs.isEmpty then ((w.head + w.count) % 64, 0) else t
    setWave s1 wid { w with recs := recs, head := hc.1, count := hc.2 }

/-- The record at HEAD. -/
def headRec (w : Wave) : Option FRec := Tab.find w.recs w.head

/-- The trap cause of a record (R266). -/
def recCause (r : FRec) : Nat := if r.cause = 9 ∨ r.cause = 10 then 0x07 else if r.store then 0x09 else 0x08

/-- A store record is queued (R195). -/
def storeRec (w : Wave) : Bool := w.recs.any fun e => e.2.store
/-- A record of another class is queued (R197, R316). -/
def loadRec (w : Wave) : Bool := w.recs.any fun e => !e.2.store

/-! ### Taking an exception and returning from it -/

/-- A trap at issue: its cause, the DETAIL of a kill, the code of TRAP, SVC or BKPT and whether it is SVC's (R268), and the records of a
page-permission trap (R188). -/
structure Trap where
  cause : Nat
  detail : Nat
  code : Nat
  svc : Bool
  recs : List FRec
  deriving DecidableEq, Repr

def trapOf (c : Nat) : Trap := { cause := c, detail := 0, code := 0, svc := false, recs := [] }

/-- Causes with the handler disposition (R265). -/
def handlerCause (c : Nat) : Bool := c == 0x07 || c == 0x08 || c == 0x09 || c == 0x0A || c == 0x0B || c == 0x10 || c == 0x11 || c == 0x13

/-- The handler's entry for a cause in the launch's table (R267, R272). -/
def entryFor (s : State) (lid cause : Nat) : Option Word :=
  match launchOf s lid with
  | none => none
  | some l =>
    let e := Tab.findD l.htab.entries cause HEntry.init
    if l.htab.en && l.htab.image.isSome && e.valid then some e.entry else none

/-- `trapcause` (R268). -/
def trapWord (cause code : Nat) (svc inwait reissue : Bool) : DWord :=
  BitVec.ofNat 64 (cause + (if reissue then 256 else 0) + (if inwait then 512 else 0) + 65536 * (code % 256) +
    (if svc then 16777216 else 0))

/-- A wave that stops, halts or retires pins no entry and waits for none (R55). -/
def unpin (s : State) (wid : Nat) : State :=
  modCore s (coreNo wid) fun c => { c with
    dtab := c.dtab.map fun d => { d with pins := d.pins.filter (· != wid) }
    ostler := c.ostler.map fun o => (o.1, o.2.map fun x => if x.wid == wid then { x with live := false } else x) }

/-- A wave that issues an entry no longer pins it (R55). -/
def unpinEntry (s : State) (wid : Nat) (k : DKey) : State :=
  modCore s (coreNo wid) fun c => { c with
    dtab := c.dtab.map fun d => if d.key == k then { d with pins := d.pins.filter (· != wid) } else d }

/-- Enter the handler (R267): windows close, `trapmask` takes k15, k15 takes the faulting lanes, `trappc` and `trapcause` are
written, and the wave fetches in supervisor mode at the entry. The WAIT count of the last bundle runs on (R66). A wait that the trap
ends is kept with the token after its bundle. -/
def enterWave (s : State) (w : Wave) (entry : Word) (cause : DWord) (pc : Word) (lanes : Word) (inwait : Bool) : Wave :=
  let d := drainWins w
  { d with
    trapmask := rdK s d (tagOf 7 0) 15
    k := Tab.put d.k 15 { val := lanes, und := 0 }
    trappc := pc
    trapcause := cause
    sup := true
    st := .handler
    pc := entry
    tok := none
    missed := false
    stopping := none
    wrotePc := false
    outer := if inwait then d.wait.map fun x => { x with next := d.pc } else none
    wait := none }

/-- What names the instruction of a record: its bundle address, slot and sequence number (R199). -/
def recKey (r : FRec) : Nat × Nat := (r.bits.toNat % 2 ^ 35, r.bits.toNat / 2 ^ 128 % 2 ^ 32)

/-- The lanes that a record of pieces of an access names: all of them for a tile access (R198, log 47). -/
def pieceLanes (a : Acc) (ps : List Piece) : Word := if a.slot = 6 then BitVec.allOnes 32 else maskOf fun n => ps.any fun p => p.lane == n

/-- The faulting lanes of the instruction of a record: those of all its queued records, and of pages that had no room (R196, R198). -/
def instrLanes (s : State) (w : Wave) (r : FRec) : Word :=
  let queued := (w.recs.map (·.2) ++ w.more).foldl (fun m e => if recKey e == recKey r then m ||| e.lanes else m) 0
  match accOf s r.acc with
  | some a => if a.unrecorded then queued ||| pieceLanes a (a.pieces.filter fun p => p.fault.isSome) else queued
  | none => queued

/-- The lanes that k15 takes (R267 step 3). -/
def trapLanes (s : State) (w : Wave) (cause : Nat) : Word :=
  if cause = 0x07 ∨ cause = 0x08 ∨ cause = 0x09 then
    match headRec w with
    | some r => instrLanes s w r
    | none => 0
  else w.live

/-- Take a handler cause (R265 to R267, R270): a wave in the handler, an invalid entry or a disabled table make it a kill; DETAIL is the
code of a trap that ends the launch from its handler, else 0 (R411). `at_` is
the trapping bundle, `pc` the bundle that ERET resumes at. -/
def enterHandler (s : State) (wid : Nat) (w : Wave) (cause code : Nat) (svc inwait : Bool) (at_ pc : Word) : State :=
  if w.sup then killWave s wid w cause at_ code
  else
    match entryFor s w.lid cause with
    | none => killWave s wid w cause at_ 0
    | some e =>
      setWave s wid (enterWave s w e (trapWord cause code svc inwait (!inwait)) pc (trapLanes s w cause) inwait)

/-- Queue records in order; those that find the queue full wait for room (R188, R196). -/
def pushRecords (s : State) (wid : Nat) (w : Wave) : List FRec → State × Wave
  | [] => (s, w)
  | r :: t =>
    let x := pushRecord s wid w r
    if x.2.2 then pushRecords x.1 wid x.2.1 t else (x.1, { x.2.1 with more := r :: t })

/-- Whether the wave's party may use the tile engine (R139). -/
def tileParty (s : State) (w : Wave) : Bool :=
  match partyOf s w.lid w.party with
  | some p => p.tile
  | none => false

/-- Take a trap raised at issue: the bundle has no effect and is the one to resume at (R71, R265). -/
def takeTrap (s : State) (wid : Nat) (w : Wave) (t : Trap) : State :=
  if handlerCause t.cause && !(t.cause == 0x0A && !tileParty s w) then
    let x := pushRecords s wid { w with more := [] } t.recs
    enterHandler (setWave x.1 wid x.2) wid x.2 t.cause t.code t.svc false s.cur.here s.cur.here
  else killWave s wid w t.cause s.cur.here t.detail

/-- Return from the handler (R271): k15 takes `trapmask`, supervisor mode ends, and the wave fetches at `trappc`, or returns
into the wait that the trap ended. The WAIT count of the ERET bundle runs on (R66). -/
def leaveHandler (w : Wave) : Wave :=
  let w1 := { w with
    k := Tab.put w.k 15 { val := w.trapmask, und := 0 }
    sup := false
    tok := none
    missed := false }
  match w.trapcause.getLsbD 9 && !w.wrotePc, w.outer with
  | true, some x => { w1 with st := .waiting, back := .running, pc := x.next, wait := some x, outer := none }
  | _, _ => { w1 with st := .running, pc := w.trappc, wait := none, outer := none }

/-! ### Publication and release (R211, R217) -/

/-- A plain store of a core that no publication has taken. -/
def unpublished (core : Nat) (a : Acc) : Bool :=
  a.core == core && !a.loc && a.scope.isPlain && (a.kind == .store || a.kind == .tstore) && a.epoch.isNone

/-- Start a publication of a core (R211). -/
def publish (s : State) (core : Nat) : State :=
  let e := (coreOf s core).epoch + 1
  modCore { s with acc := s.acc.map fun x => if unpublished core x.2 then (x.1, { x.2 with epoch := some e }) else x } core
    fun c => { c with epoch := e }

/-- A clock raised at one entry, and to another clock. -/
def tickTo (t : Tab Nat) (k n : Nat) : Tab Nat := if Tab.findD t k 0 < n then Tab.put t k n else t
def joinClock (a b : Tab Nat) : Tab Nat := b.foldl (fun t e => tickTo t e.1 e.2) a

/-- What happens before a core's next releases: with what has synchronised, what its resumed waves did elsewhere (R221). -/
def viewOf (s : State) (core : Nat) : View :=
  { clock := joinClock (coreOf s core).clock (coreOf s core).gone, low := (coreOf s core).lowered }

/-- Start a release by a wave at a target (R215, R217): its publication, the counted set, and for FENCE.full its scope. -/
def releaseAt (s : State) (wid : Nat) (w : Wave) (t : RelTarget) (full : Option Scope) : State :=
  let s1 := publish s (coreNo wid)
  { s1 with
    rels := Tab.put s1.rels s1.nextId
      { target := t, core := coreNo wid, wid := wid, lid := w.lid, epoch := (coreOf s1 (coreNo wid)).epoch, before := s1.nextId,
        view := viewOf s (coreNo wid), full := full }
    nextId := s1.nextId + 1 }

def release (s : State) (wid : Nat) (w : Wave) (t : RelTarget) : State := releaseAt s wid w t none

/-- Accesses that write their location. -/
def writes (k : AKind) : Bool :=
  match k with
  | .store | .tstore | .atomic _ | .cas => true
  | _ => false

/-- Whether every store of a release's counted set has committed (R217); a write that an atomic has still to make counts as a
strong store. -/
def releaseReady (s : State) (r : Rel) : Bool :=
  r.epoch ≤ (coreOf s r.core).pubDone &&
    !(s.acc.any fun e => e.2.wid == r.wid && e.1 < r.before && !e.2.scope.isPlain && writes e.2.kind && r.target != .access e.1 &&
      e.2.pieces.any fun p => !p.done)

/-- Two accesses of the same wave share a 128-byte line (R194). -/
def sameLine (p q : Piece) : Bool := p.va / 128 ≤ (q.va + q.size - 1) / 128 && q.va / 128 ≤ (p.va + p.size - 1) / 128

/-- A piece waits for translation. -/
def unlooked (p : Piece) : Bool := p.pa.isNone && p.fault.isNone && !p.done

/-- A piece stands in a held late-fault entry: it has failed, or it belongs to a tile that is held whole (R193). -/
def inHeld (a : Acc) (q : Piece) : Bool := !q.done && (q.fault.isSome || (a.kind == .tstore && a.held))

/-- Load-class accesses and tile loads of a wave that have not returned (R197, R212). -/
def loadClass (k : AKind) : Bool :=
  match k with
  | .store => false
  | .tstore => false
  | _ => true

/-- Stores to segments. -/
def isStore (k : AKind) : Bool := !loadClass k

/-- Two accesses share a location: by home location where both are known, else by the address in one pageable space of one home. -/
def overlap (a b : Acc) (p q : Piece) : Bool :=
  match p.pa, q.pa with
  | some x, some y => x < y + q.size && y < x + p.size
  | _, _ => a.pageable && b.pageable && a.far == b.far && a.asid == b.asid && p.va < q.va + q.size && q.va < p.va + p.size

/-- Two ALIAS accesses to one home of which one has still to be translated may share a location where their offsets in a 4 KiB frame do
(R191): a page's frame keeps the offset of an address, and what is not pageable has its location. -/
def mayAlias (a b : Acc) (p q : Piece) : Bool :=
  let x := p.pa.getD p.va % 4096
  let y := q.pa.getD q.va % 4096
  a.direct && b.direct && a.far == b.far && !(p.pa.isSome && q.pa.isSome) &&
    (decide ((x + 4096 - y) % 4096 < q.size) || decide ((y + 4096 - x) % 4096 < p.size))

/-- They share a location, or may share one. -/
def mayMeet (a b : Acc) (p q : Piece) : Bool := overlap a b p q || mayAlias a b p q

/-- A piece q of an earlier access b that does not go on keeps a piece p of access a from going on: behind it in its line (R193, R194), by
the order of their wave at one location or of its strong accesses (R209, R213), or by the core's issue order (R210). The handler's accesses
wait for no such piece of the kernel's (log 45). -/
def holdsBack (b : Acc) (q : Piece) (a : Acc) (p : Piece) : Bool :=
  let plain := a.scope.isPlain && b.scope.isPlain
  (a.wid == b.wid && a.sup == b.sup &&
    ((unlooked p && isStore b.kind && a.asid == b.asid && sameLine p q && (isStore a.kind || inHeld b q)) ||
      (mayMeet a b p q && (loadClass b.kind || isStore a.kind || !b.scope.isPlain || (!a.scope.isPlain && b.epoch.isSome))) ||
      (!a.scope.isPlain && !b.scope.isPlain && loadClass b.kind))) ||
    (a.core == b.core && plain && !(a.sup && !b.sup) &&
      ((isStore a.kind && mayMeet a b p q && (isStore b.kind || q.fault.isNone)) ||
        (loadClass a.kind && isStore b.kind && a.direct && b.direct && a.far == b.far && q.pa.isNone)))

/-- The pieces of one access that do not go on, given those of earlier accesses: a lane of a load behind one that waits returns after it
(R340). -/
def stallPieces (id : Nat) (a : Acc) : List (Nat × Acc × Piece) → Bool → List Piece → List (Nat × Acc × Piece)
  | _, _, [] => []
  | l, behind, p :: t =>
    if !p.done && (behind || p.fault.isSome || inHeld a p || l.any fun x => (x.1 < id || isStore a.kind) && holdsBack x.2.1 x.2.2 a p) then
      (id, a, p) :: stallPieces id a ((id, a, p) :: l) (behind || (loadClass a.kind && p.fault.isNone)) t
    else stallPieces id a l behind t

/-- The same of accesses in issue order; a tile goes on whole (R152, R224). -/
def stallsGo : List (Nat × Acc) → List (Nat × Acc × Piece) → List (Nat × Acc × Piece)
  | [], l => l
  | e :: t, l =>
    let r := if e.2.loc || e.2.kind == .watch then [] else stallPieces e.1 e.2 l false e.2.pieces
    let whole := (e.2.kind == .tstore || e.2.kind == .tload) && !r.isEmpty
    stallsGo t ((if whole then (e.2.pieces.filter fun p => !p.done).map fun p => (e.1, e.2, p) else r) ++ l)

/-- The pieces that REPLAY alone lets go on: their page has failed, they are held, or they stand behind such a piece. -/
def stalls (s : State) : List (Nat × Acc × Piece) := stallsGo s.acc []

def needsReplay (s : State) (id : Nat) (p : Piece) : Bool := (stalls s).any fun x => x.1 == id && x.2.2 == p

/-- What a FENCE.full has still to wait for in the handler (log 45): the stores of its counted set that REPLAY does not hold,
among publications that no such store stops (R226). -/
def handlerFenceDone (s : State) (r : Rel) : Bool :=
  let l := stalls s
  let still := fun (e : Nat × Acc) (p : Piece) => l.any fun x => x.1 == e.1 && x.2.2 == p
  let mine := s.acc.filter fun e => e.2.core == r.core && match e.2.epoch with | some n => decide (n ≤ r.epoch) | none => false
  let stuck := mine.filterMap fun e => if e.2.pieces.any fun p => !p.done && still e p then e.2.epoch else none
  let waits := fun (e : Nat × Acc) => e.2.pieces.any fun p => !p.done && !still e p
  !(mine.any fun e => waits e && stuck.all fun n => decide (e.2.epoch.getD 0 ≤ n)) &&
    !(s.acc.any fun e => e.2.wid == r.wid && e.1 < r.before && !e.2.scope.isPlain && writes e.2.kind && waits e)

/-! ### Waves that a trap, a stop or a barrier concerns -/

/-- A global load-class access has lanes that have not returned; lanes that a queued record holds are not waited for (R212), which
for a tile load are all of it (R152). The handler (`sup`) does not wait for what REPLAY alone lets go on (log 45). -/
def awaited (s : State) (sup : Bool) (id : Nat) (a : Acc) : Bool :=
  loadClass a.kind && !a.loc && (a.pieces.any fun p => p.fault.isNone && !(sup && needsReplay s id p)) &&
    !(a.kind == .tload && a.pieces.any fun p => p.fault.isSome)

/-- The access is the MWATCH of a wait that a trap has ended: the handler does not wait for it (R195, R354). -/
def parked (s : State) (wid id : Nat) : Bool :=
  match (waveOf s wid).bind (·.outer) with
  | some x => x.on == .mwatch id
  | none => false

/-- A watch whose next test translates its address anew, as an access of its own (R187, R354); a faulted one waits for REPLAY. -/
def freshWatch (a : Acc) : Acc :=
  if a.pageable && a.pieces.all fun p => p.fault.isNone then { a with resolved := false, pieces := a.pieces.map fun p => { p with pa := none } } else a

/-- The watches of a wave are evaluated afresh (R40, R354). -/
def freshWatches (s : State) (wid : Nat) : State :=
  { s with acc := s.acc.map fun e => (e.1, if e.2.wid == wid && e.2.kind == .watch then freshWatch e.2 else e.2) }

/-- A wave's earlier loads have returned (R212). -/
def loadsBack (s : State) (wid : Nat) (below : Nat) : Bool :=
  let sup := match waveOf s wid with | some w => w.sup | none => false
  !(s.acc.any fun e => e.2.wid == wid && e.1 < below && awaited s sup e.1 e.2 && !parked s wid e.1)

/-- The acquire of a wave has performed: its own lanes have returned, replayed lanes included, and so has every earlier load
(R212, R215); `sup` says that it is the handler's own, whose accesses meet no fault (R269). -/
def acqDone (s : State) (wid : Nat) (sup : Bool) (below : Nat) : Bool :=
  !(s.acc.any fun e => e.2.wid == wid && e.1 < below && !e.2.loc && loadClass e.2.kind &&
    ((awaited s sup e.1 e.2 && !parked s wid e.1) || (!sup && (e.2.ord == .acquire || e.2.ord == .acqRel) && !e.2.sup)))

/-- The locations that the writer of a release had written before it. -/
def writtenBefore (s : State) (x : Sync) : List Nat :=
  (s.hist.filter fun c => decide (c.org.op < x.op) && match c.org.by_ with | some y => y.id == x.by_.id | none => false).map (·.loc)

/-- A store happens before, by a clock (R221): one of a core's operations, or a copy's byte that its core has waited for. -/
def happened (clock : Tab Nat) (c : Commit) : Bool :=
  match c.org.by_ with
  | some w =>
    if c.org.copy then decide (c.seq ≤ Tab.findD clock (1024 + coreNo w.key) 0) else decide (c.org.op < Tab.findD clock (coreNo w.key) 0)
  | none => false

/-- The locations to which no store happens before through an edge that synchronises: the latitude of R222 lasts for them alone. -/
def stillLow (s : State) (clock : Tab Nat) (l : List Nat) : List Nat :=
  l.filter fun n => !(s.hist.any fun c => c.loc == n && happened clock c)

/-- Two views joined (R221). -/
def joinView (s : State) (v x : View) : View :=
  let clock := joinClock v.clock x.clock
  { clock := clock, low := stillLow s clock ((x.low.filter fun n => !v.low.contains n) ++ v.low) }

/-- What a release that has been read makes of a core's view (R221, R222): a scope race leaves the locations that its writer had written
without a floor, where no store happens before by then; an edge that synchronises brings all that happened before the release, with the
locations that its core had without a floor, and gives back those to which a store now happens before. -/
def takeSync (s : State) (v : View) (x : Sync) : View :=
  if x.race then
    { v with low := (stillLow s v.clock (writtenBefore s x).eraseDups).filter (fun n => !v.low.contains n) ++ v.low }
  else joinView s v { x.view with clock := tickTo x.view.clock x.core x.op }

/-- The view of a core's next accesses. -/
def ownView (s : State) (core : Nat) : View := { clock := (coreOf s core).clock, low := (coreOf s core).lowered }

/-- A core takes a view. -/
def takeView (s : State) (core : Nat) (v : View) : State := modCore s core fun c => { c with lowered := v.low, clock := v.clock }

/-- The refresh that a performed acquire brings (R215), with the releases that it has read. -/
def refreshFor (s : State) (core : Nat) (l : List Sync) : State :=
  takeView (refresh s core) core (l.foldl (takeSync s) (ownView s core))

/-- A core has waited for copies of its waves: their bytes happen before its next accesses (R218, R221). -/
def waitCopies (s : State) (core : Nat) : State :=
  takeView s core (joinView s (ownView s core) { clock := [(1024 + core, s.commits)], low := [] })

/-- End an acquire whose loads are back (R215): the refresh, and later accesses of the wave may issue. -/
def endAcquire (s : State) (wid : Nat) : State :=
  match waveOf s wid with
  | none => s
  | some w =>
    match w.acqUpto with
    | none => s
    | some n => if acqDone s wid false n then setWave (refreshFor s (coreNo wid) w.sync) wid { w with acqUpto := none, sync := [] } else s

/-- The same of the handler's own acquire. -/
def endSupAcquire (s : State) (wid : Nat) : State :=
  match waveOf s wid with
  | none => s
  | some w =>
    match w.supAcq with
    | none => s
    | some n => if acqDone s wid true n then setWave (refreshFor s (coreNo wid) w.supSync) wid { w with supAcq := none, supSync := [] } else s

/-- Acquires of a wave that may end now, end. -/
def tryAcquire (s : State) (wid : Nat) : State := endSupAcquire (endAcquire s wid) wid

/-- An acquire of the wave is due once its accesses numbered below n have returned. -/
def wantAcquire (w : Wave) (n : Nat) : Wave := if w.sup then { w with supAcq := some n } else { w with acqUpto := some n }

/-- The acquire of a completed wait or of an access with no lane (R212, R215). -/
def acquireOp (s : State) (wid : Nat) (w : Wave) : State := tryAcquire (setWave s wid (wantAcquire w s.nextId)) wid

/-- Every earlier store-class access to a global segment is translated or recorded (R195); the handler does not wait for what
REPLAY alone lets go on (log 45). -/
def storesResolved (s : State) (wid : Nat) : Bool :=
  let sup := match waveOf s wid with | some w => w.sup | none => false
  !(s.acc.any fun e => e.2.wid == wid && (e.2.kind == .store || e.2.kind == .tstore) && !e.2.resolved &&
    !(sup && e.2.pieces.all fun p => !unlooked p || needsReplay s e.1 p))

end Sys2Proof.Machine
end

