-- ==== Sys2Proof/Machine/Operands.lean ====
section
/-! DEFINITION. Every operand form: scalar sources and widths (R79, R81), conditions (R80), vector immediates (R83), address
offsets (R181), data in registers (R339), and the segment a number names (R179, R180, R269). -/

namespace Sys2Proof.Machine

/-! ### S slot -/

/-- `Ext` and `Narrow` of R358 on 64-bit patterns. -/
def ext (w : SWidth) (v : DWord) : DWord :=
  match w with
  | .w64 => v
  | .s32 => (v.truncate 32).signExtend 64
  | .n32 => (v.truncate 32).zeroExtend 64

/-- Shift amounts are taken mod 64 or 32 (R79). -/
def shiftMod (w : SWidth) : Nat := match w with | .w64 => 64 | _ => 32

/-- An S immediate before Ext: IMM12 sign-extended, or the stream immediate (R81). -/
def sImm (s : State) (x : SImm) : DWord :=
  match x with
  | .inWord v => v.signExtend 64
  | .stream => s.cur.imm

/-- Compare conditions 0 to 9 on 64-bit values (R80); codes 10 to 12 are mask tests and hold of no pair. -/
def condS (c : Cond) (x y : DWord) : Bool :=
  match c with
  | .eq => x == y
  | .ne => x != y
  | .lt => x.toInt < y.toInt
  | .le => x.toInt ≤ y.toInt
  | .gt => y.toInt < x.toInt
  | .ge => y.toInt ≤ x.toInt
  | .ltu => x.toNat < y.toNat
  | .leu => x.toNat ≤ y.toNat
  | .gtu => y.toNat < x.toNat
  | .geu => y.toNat ≤ x.toNat
  | .any => false
  | .none => false
  | .all => false

/-- Mask conditions 10 to 12 (R80). -/
def condK (c : Cond) (k live : Word) : Bool :=
  match c with
  | .any => k &&& live != 0
  | .none => k &&& live == 0
  | .all => k &&& live == live
  | _ => false

/-- The operand of shape SC: a register or IMM16. -/
def scVal (s : State) (w : Wave) (o : ScOp) : DWord :=
  match o with
  | .reg a => rdS s w (tagOf 0 0) a.toNat
  | .imm v => v.zeroExtend 64

/-! ### V slot -/

/-- The low 8 or 16 bits in every element (R83). -/
def splat (t : Ty) (v : BitVec 12) : Word :=
  match t with
  | .f32 => BitVec.ofNat 32 (v.toNat * 2 ^ 20)
  | .f16x2 => BitVec.ofNat 32 (v.toNat * 2 ^ 4 * 65537)
  | .bf16x2 => BitVec.ofNat 32 (v.toNat * 2 ^ 4 * 65537)
  | .s32 => v.signExtend 32
  | .n32 => v.signExtend 32
  | .s16x2 => BitVec.ofNat 32 ((v.signExtend 16).toNat * 65537)
  | .n16x2 => BitVec.ofNat 32 ((v.signExtend 16).toNat * 65537)
  | .s8x4 => BitVec.ofNat 32 (v.toNat % 256 * 0x1010101)
  | .n8x4 => BitVec.ofNat 32 (v.toNat % 256 * 0x1010101)

/-- The lane value of a V immediate (R83). -/
def vImm (s : State) (t : Ty) (x : VImm) : Word :=
  match x with
  | .inWord v => splat t v
  | .stream => s.cur.imm.truncate 32

/-- The slot number of a vector slot in the log (R73). -/
def vSlot (cl : Cluster) : Nat := match cl with | .A => 1 | .B => 2

/-! ### M slot -/

/-- Bytes of an access width (R89). -/
def widBytes (w : Wid) : Nat :=
  match w with
  | .b8 => 1 | .b16 => 2 | .b32 => 4 | .b64 => 8 | .b128 => 16

/-- The WID code (R89). -/
def widCode (w : Wid) : Nat :=
  match w with
  | .b8 => 0 | .b16 => 1 | .b32 => 2 | .b64 => 3 | .b128 => 4

def wordWid (wide : Bool) : Wid := if wide then .b64 else .b32

/-- The SCOPE and ORD codes (R95). -/
def scopeCode (s : Scope) : Nat :=
  match s with
  | .wave => 0 | .core => 1 | .convoy => 2 | .die => 3 | .device => 4 | .system => 5
def orderCode (o : Order) : Nat :=
  match o with
  | .relaxed => 0 | .acquire => 1 | .release => 2 | .acqRel => 3
def acquires (o : Order) : Bool := o == .acquire || o == .acqRel
def releases (o : Order) : Bool := o == .release || o == .acqRel

/-- The displacement of R181: DISP16 sign-extended; a 4-byte stream immediate sign-extended; an 8-byte one as it stands. -/
def mDisp (s : State) (d : MDisp) : Int :=
  match d with
  | .inWord v => v.toInt
  | .stream => if s.cur.immWide then s.cur.imm.toNat else s.cur.imm.toInt

/-- The registers that hold data of a width: one, a pair or a quad (R339). -/
def dataRegs (w : Wid) (d : Nat) : List Nat :=
  match w with
  | .b64 => [d, d + 1]
  | .b128 => [d, d + 1, d + 2, d + 3]
  | _ => [d]

/-- The little-endian datum of a lane: the low bytes of the registers in order (R339). -/
def laneData (vs : List Lanes) (w : Wid) (i : Nat) : List Byte := ((vs.flatMap fun v => leBytes 4 (v.at i).toNat)).take (widBytes w)

/-- Bytes of a load as the words of registers D, D + 1, ...: a byte or half is zero-extended (R339). -/
def laneWords (w : Wid) (bs : List Byte) : List Word :=
  (List.range (dataRegs w 0).length).map fun q => BitVec.ofNat 32 (leNat ((bs.drop (4 * q)).take 4))

/-- The offset of a lane (R181). -/
inductive Addr where
  | lanes (v : Lanes) (d : Int)
  | uni (b : DWord) (d : Int)
  | stride (b : DWord) (p : DWord) (d : Int)
  deriving DecidableEq, Repr

def offsetOf (a : Addr) (i : Nat) : Int :=
  match a with
  | .lanes v d => ((v.at i).toNat : Int) + d
  | .uni b d => (b.toNat : Int) + d
  | .stride b p d => (b.toNat : Int) + d + i * p.toInt

/-- The address operand of an M operation: register A is operand 1 of slot 5. -/
def addrOf (s : State) (w : Wave) (ac : ACls) (a : BitVec 6) (d : Int) : Addr :=
  match ac with
  | .perA => .lanes (rdV s w (tagOf 5 1) .A a.toNat) d
  | .perB => .lanes (rdV s w (tagOf 5 1) .B a.toNat) d
  | .unif => .uni (rdS s w (tagOf 5 1) a.toNat) d

def strideOf (s : State) (w : Wave) (a : BitVec 6) (d : Int) : Addr :=
  .stride (rdS s w (tagOf 5 1) a.toNat) (rdS s w (tagOf 5 2) (a.toNat + 1)) d

/-! ### Segments -/

/-- The context segment of a wave (R269). -/
def ctxSeg (s : State) (wid : Nat) (w : Wave) : Seg :=
  match waveArea s wid w with
  | some loc => { base := 0, limit := 32768, flags := 0x0007, pbase := loc - Config.nearBase (dieNo wid) }
  | none => Seg.init

/-- The segment that a number names for a wave: the launch's table, or the handler image's template (R180, R269). -/
def segOf (s : State) (wid : Nat) (w : Wave) (n : Nat) : Seg :=
  match launchOf s w.lid with
  | none => Seg.init
  | some l =>
    if w.sup then
      if n = 63 then ctxSeg s wid w
      else match l.htab.image with
        | some im => im.segs.getD n Seg.init
        | none => Seg.init
    else l.img.segs.getD n Seg.init

def segValid (g : Seg) : Bool := g.flags.getLsbD 0
def segRd (g : Seg) : Bool := g.flags.getLsbD 1
def segW (g : Seg) : Bool := g.flags.getLsbD 2
def segPage (g : Seg) : Bool := g.flags.getLsbD 3
def segFar (g : Seg) : Bool := g.flags.getLsbD 4
def segAlias (g : Seg) : Bool := g.flags.getLsbD 5
def segClass (g : Seg) : Nat := g.flags.toNat / 256 % 8

/-- `SegCheck` of R181 for n bytes at an offset. -/
def segCheck (g : Seg) (rd wr : Bool) (off : Int) (n : Nat) : Bool :=
  segValid g && (!rd || segRd g) && (!wr || segW g) && decide (0 ≤ off) && decide (off + n ≤ g.limit)

/-- Bytes of a page of a class (R179). -/
def classSize (c : Nat) : Nat := [4096, 65536, 2 ^ 21, 2 ^ 25, 2 ^ 30, 2 ^ 34].getD c 4096

/-- The launch's region on a core in bytes (R183). -/
def regionSize (s : State) (wid : Nat) (w : Wave) : Nat := 6144 * (shareOf s (coreNo wid) w.lid).units
/-- Where the region begins in the scratchpad. -/
def regionBase (s : State) (wid : Nat) (w : Wave) : Nat := 6144 * (shareOf s (coreNo wid) w.lid).unit

/-- The ASID of a wave (R177). -/
def asidOf (s : State) (w : Wave) : Nat := match launchOf s w.lid with | some l => l.asid | none => 0

end Sys2Proof.Machine
end

