-- ==== Sys2Proof/Machine/Uses.lean ====
section
/-! DEFINITION. Which registers each slot operation reads and writes: the scoreboard (R70, R341), the allotment and ceiling
checks (R32, R57 check 10) and the double-write check (R57 check 7) all use this one list. s indices stand for themselves;
the supervisor names are applied by the users (R269). -/

namespace Sys2Proof.Machine

def sR (n : BitVec 6) : Reg := .s n.toNat
def kR (n : BitVec 4) : Reg := .k n.toNat
def vR (cl : Cluster) (n : BitVec 6) : Reg := .v cl n.toNat

/-- s[A] to s[A + n − 1]. -/
def sRun (a : BitVec 6) (n : Nat) : List Reg := (List.range n).map fun i => .s (a.toNat + i)
def vRun (cl : Cluster) (a : BitVec 6) (n : Nat) : List Reg := (List.range n).map fun i => .v cl (a.toNat + i)

def scRegs (o : ScOp) : List Reg := match o with | .reg a => [sR a] | .imm _ => []

/-- The address register of an access. -/
def acRegs (ac : ACls) (a : BitVec 6) : List Reg :=
  match ac with
  | .perA => [vR .A a]
  | .perB => [vR .B a]
  | .unif => [sR a]

/-- Data registers of an atomic: n data of the width (R339, R344). -/
def atomRegs (dc : DCls) (d : BitVec 6) (wide : Bool) (n : Nat) : List Reg :=
  match dc with
  | .A => vRun .A d (if wide then 2 * n else n)
  | .B => vRun .B d (if wide then 2 * n else n)
  | .s => sRun d n

def widRun (cl : Cluster) (d : BitVec 6) (w : Wid) : List Reg := (dataRegs w d.toNat).map fun n => .v cl n

/-- Source registers. -/
def readsOf (i : Instr) : List Reg :=
  match i with
  | .sadd f | .ssub f | .smul f | .smulh f | .sand f | .sor f | .sxor f | .sshl f | .sshr f | .ssar f => [sR f.a, sR f.b]
  | .smin f | .smax f => [sR f.r.a, sR f.r.b]
  | .sset f => [sR f.r.a, sR f.r.b]
  | .ssel f => [sR f.r.a, sR f.r.b, sR f.c]
  | .saddI f | .ssubI f | .smulI f | .sandI f | .sorI f | .sxorI f | .sshlI f | .sshrI f | .ssarI f => [sR f.a]
  | .sminI f | .smaxI f => [sR f.r.a]
  | .ssetI f => [sR f.r.a]
  | .swr f => [sR f.a]
  | .brc f => (match f.cc with | .any | .none | .all => [kR f.k] | _ => [sR f.a])
  | .brx a => [sR a]
  | .ret a => [sR a]
  | .loop f => [sR f.a]
  | .exit k => [kR k]
  | .mwait f | .gwait f | .gopen f => scRegs f.op
  | .replay o => scRegs o
  | .invpg f => if f.whole then [] else [sR f.a]
  | .vadd f | .vsub f | .vmul f | .vmin f | .vmax f => [kR f.h.k, vR f.h.cl f.h.a, vR f.h.cl f.b]
  | .vfma f => [kR f.h.k, vR f.h.cl f.h.a, vR f.h.cl f.b, vR f.h.cl f.c]
  | .vaddI f | .vsubI f | .vmulI f | .vminI f | .vmaxI f => [kR f.h.k, vR f.h.cl f.h.a]
  | .vfmaI f => [kR f.h.k, vR f.h.cl f.h.a, vR f.h.cl f.h.d]
  | .vcmp f => [kR f.h.k, vR f.h.cl f.h.a, vR f.h.cl f.b]
  | .vcmpI f => [kR f.h.k, vR f.h.cl f.h.a]
  | .vsel f => [kR f.h.k, kR f.sel, vR f.h.cl f.h.a, vR f.h.cl f.b]
  | .vselI f => [kR f.h.k, .k f.sel.toNat, vR f.h.cl f.h.a]
  | .vand f | .vor f | .vxor f => [kR f.h.k, vR f.h.cl f.h.a, vR f.h.cl f.b]
  | .vandI f | .vorI f | .vxorI f => [kR f.h.k, vR f.h.cl f.h.a]
  | .vshl f | .vshr f | .vsar f | .vmulh f => [kR f.h.k, vR f.h.cl f.h.a, vR f.h.cl f.b]
  | .vshlI f | .vshrI f | .vsarI f => [kR f.h.k, vR f.h.cl f.h.a]
  | .vmov h => [kR h.k, vR h.cl h.a]
  | .vpop f | .vclz f => [kR f.h.k, vR f.h.cl f.h.a]
  | .vcvt f => [kR f.h.k, vR f.h.cl f.h.a]
  | .vrnd f => [kR f.h.k, vR f.h.cl f.h.a]
  | .vidx h => [kR h.k]
  | .vmovI f => [kR f.h.k]
  | .fdiv f => [kR f.k, vR f.ac f.a, .v f.ac (f.a.toNat + 1)]
  | .fsqrt f | .frcp f | .frsq f | .fexp2 f | .flog2 f | .ftanh f => [kR f.k, vR f.ac f.a]
  | .kand f | .kor f | .kxor f | .kandn f => [kR f.ka, kR f.kb]
  | .ksetSreg f => [sR f.a]
  | .kpop f => [kR f.ka]
  | .kfirst f => [kR f.ka]
  | .lmov h => [kR h.k, vR h.sc h.a]
  | .lshuf f => [kR f.h.k, vR f.h.sc f.h.a, vR f.h.sc f.b]
  | .lshufPat f => [kR f.h.k, vR f.h.sc f.h.a]
  | .lbcast f => [kR f.h.k, vR f.h.sc f.h.a]
  | .lred f => [kR f.h.k, vR f.h.sc f.h.a]
  | .lscan f => [kR f.h.k, vR f.h.sc f.h.a]
  | .lget f => [vR f.sc f.a]
  | .lput f => [sR f.a]
  | .mld f => kR f.h.k :: acRegs f.ac f.a
  | .mldStride f => kR f.h.k :: sRun f.a 2
  | .mst f => kR f.h.k :: acRegs f.ac f.a ++ widRun f.dc f.d f.wid
  | .mstStride f => kR f.h.k :: sRun f.a 2 ++ widRun f.dc f.d f.wid
  | .mldl f => kR f.k :: acRegs f.ac f.a
  | .mldlStride f => kR f.k :: sRun f.a 2
  | .mstl f => kR f.k :: acRegs f.ac f.a ++ widRun f.dc f.d f.wid
  | .mstlStride f => kR f.k :: sRun f.a 2 ++ widRun f.dc f.d f.wid
  | .mldu f => [kR f.h.k, sR f.a]
  | .mstu f => [kR f.h.k, sR f.a, sR f.d]
  | .matom f => kR f.k :: acRegs f.ac f.a ++ atomRegs f.dc f.d f.wide 1
  | .mcas f => kR f.k :: acRegs f.ac f.a ++ atomRegs f.dc f.d f.wide 2
  | .mwatch f => kR f.h.k :: sR f.a :: sRun f.d 2
  | .mpref f => kR f.h.k :: acRegs f.ac f.a
  | .mflush f => kR f.h.k :: acRegs f.ac f.a
  | .mcopy f => kR f.h.k :: sRun f.a 3
  | .mgather f => kR f.h.k :: sRun f.a 4
  | .mcast f => kR f.h.k :: sRun f.a 4
  | .mspush f => kR f.k :: sRun f.a 3
  | .mspop f => kR f.k :: [.s (f.a.toNat + 1), .s (f.a.toNat + 2)]
  | .msfree f => [kR f.k]
  | .tclaim f | .trel f => [kR f.k]
  | .tload f | .tstore f => kR f.k :: sRun f.a (if f.fmt = .fp4 then 3 else 2)
  | .tzero f => [kR f.k]
  | .tmma f => [kR f.k]
  | .tbmm f => [kR f.k]
  | .tscac f => [kR f.k]
  | .tquant f => kR f.k :: (match f.dest with | .slot _ => [sR f.a] | .mem _ _ => sRun f.a 4)
  | .tcvt f => [kR f.k]
  | .tmovv f => kR f.k :: (if f.toAcc then vRun f.cl f.a (tcount f.n) else [])
  | .tstat f => [kR f.k]
  | .tmmao f => [kR f.k]
  | .tldo f => kR f.k :: sRun f.a 2
  | _ => []

/-- Destination registers. -/
def writesOf (i : Instr) : List Reg :=
  match i with
  | .sadd f | .ssub f | .smul f | .smulh f | .sand f | .sor f | .sxor f | .sshl f | .sshr f | .ssar f => [sR f.d]
  | .smin f | .smax f => [sR f.r.d]
  | .sset f => [sR f.r.d]
  | .ssel f => [sR f.r.d]
  | .srd f => [sR f.d]
  | .saddI f | .ssubI f | .smulI f | .sandI f | .sorI f | .sxorI f | .sshlI f | .sshrI f | .ssarI f => [sR f.d]
  | .sminI f | .smaxI f => [sR f.r.d]
  | .ssetI f => [sR f.r.d]
  | .sli f => [sR f.d]
  | .call f => [sR f.a]
  | .loop f => [sR f.a]
  | .felrd f => [sR f.d]
  | .invpg f => [sR f.a]
  | .vadd f | .vsub f | .vmul f | .vmin f | .vmax f => [vR f.h.cl f.h.d]
  | .vfma f => [vR f.h.cl f.h.d]
  | .vaddI f | .vsubI f | .vmulI f | .vminI f | .vmaxI f | .vfmaI f => [vR f.h.cl f.h.d]
  | .vcmp f => [.k (f.h.d.toNat % 16)]
  | .vcmpI f => [.k (f.h.d.toNat % 16)]
  | .vsel f => [vR f.h.cl f.h.d]
  | .vselI f => [vR f.h.cl f.h.d]
  | .vand f | .vor f | .vxor f => [vR f.h.cl f.h.d]
  | .vandI f | .vorI f | .vxorI f => [vR f.h.cl f.h.d]
  | .vshl f | .vshr f | .vsar f | .vmulh f => [vR f.h.cl f.h.d]
  | .vshlI f | .vshrI f | .vsarI f => [vR f.h.cl f.h.d]
  | .vmov h => [vR h.cl h.d]
  | .vpop f | .vclz f => [vR f.h.cl f.h.d]
  | .vcvt f => [vR f.h.cl f.h.d]
  | .vrnd f => [vR f.h.cl f.h.d]
  | .vidx h => [vR h.cl h.d]
  | .vmovI f => [vR f.h.cl f.h.d]
  | .fdiv f | .fsqrt f | .frcp f | .frsq f | .fexp2 f | .flog2 f | .ftanh f => [vR f.dc f.d]
  | .kand f | .kor f | .kxor f | .kandn f => [kR f.kd]
  | .kset k => [kR k]
  | .ksetSreg f => [kR f.kd]
  | .kpop f => [sR f.d]
  | .kfirst f => [kR f.kd]
  | .lmov h => [vR h.dc h.d]
  | .lshuf f => [vR f.h.dc f.h.d]
  | .lshufPat f => [vR f.h.dc f.h.d]
  | .lbcast f => [vR f.h.dc f.h.d]
  | .lred f => [vR f.h.dc f.h.d]
  | .lscan f => [vR f.h.dc f.h.d]
  | .lget f => [sR f.d]
  | .lput f => [vR f.dc f.d]
  | .mld f => widRun f.dc f.d f.wid
  | .mldStride f => widRun f.dc f.d f.wid
  | .mldl f => widRun f.dc f.d f.wid
  | .mldlStride f => widRun f.dc f.d f.wid
  | .mldu f => [sR f.d]
  | .matom f => if f.ret then atomRegs f.dc f.d f.wide 1 else []
  | .mcas f => atomRegs f.dc f.d f.wide 1
  | .mwatch f => sRun f.d 2
  | .mcopy f => [sR f.d]
  | .mgather f => [sR f.d]
  | .mcast f => [sR f.d]
  | .mspush f | .mspop f => [sR f.d]
  | .msfree f => [sR f.d]
  | .tstat f => [sR f.a]
  | .tmovv f => if f.toAcc then [] else vRun f.cl f.a (tcount f.n)
  | _ => []

/-- A register by the name a wave uses (R269). -/
def viewReg (sup : Bool) (r : Reg) : Reg := match r with | .s n => nameS sup n | r => r

/-- A vector register at or above the wave's allotment (R32). -/
def overAllot (w : Wave) (r : Reg) : Bool :=
  match r with
  | .v .A n => w.aAllot ≤ n
  | .v .B n => w.bAllot ≤ n
  | _ => false

/-- The registers that the allotment check looks at: the index of each a or b register that is named (R32). -/
def allotBad (i : Instr) (w : Wave) : Bool := (readsOf i).any (overAllot w) || (writesOf i).any (overAllot w)

/-- A register that the instruction reads or writes still awaits an M or T result (R70, R341). -/
def scoreHeld (i : Instr) (w : Wave) : Bool :=
  (readsOf i).any (fun r => isBusy w (viewReg w.sup r)) || (writesOf i).any (fun r => isBusy w (viewReg w.sup r))

end Sys2Proof.Machine
end

