-- ==== Sys2Proof/Machine/MemIssue.lean ====
section
/-! DEFINITION. What an M-slot operation asks of memory at issue, the checks of R181, R183 and R188, fault-record words (R199),
and the reasons for which an M-slot operation waits unissued (R70, R195, R211, R213 to R215, R238, R242). -/

namespace Sys2Proof.Machine

/-- An access as its instruction states it: its lanes (31 for a uniform access), its address form and its width. -/
structure MReq where
  loc : Bool
  seg : Nat
  addr : Addr
  size : Nat
  lanes : List Nat
  rd : Bool
  wr : Bool
  opcode : Nat
  scope : Scope
  ord : Order
  widc : Nat
  deriving DecidableEq, Repr

def laneList (uniform : Bool) (m : Word) : List Nat := if uniform then (if m = 0 then [] else [31]) else maskLanes m

/-- An access from its parts. -/
def mkReq (loc : Bool) (seg : Nat) (addr : Addr) (size : Nat) (lanes : List Nat) (rd wr : Bool) (opcode : Nat) (scope : Scope)
    (ord : Order) (widc : Nat) : MReq :=
  { loc := loc, seg := seg, addr := addr, size := size, lanes := lanes, rd := rd, wr := wr, opcode := opcode, scope := scope,
    ord := ord, widc := widc }

/-- The access of a load, a store, an atomic or a watch. -/
def memReq (i : Instr) (s : State) (w : Wave) : Option MReq :=
  let eff := fun (k : BitVec 4) => effMask s w (tagOf 5 0) k.toNat
  match i with
  | .mld f =>
    some (mkReq false (f.h.seg.toNat) (addrOf s w f.ac f.a (mDisp s f.h.disp)) (widBytes f.wid) (laneList false (eff f.h.k)) true false 0x01 (f.scope) (f.ord) (widCode f.wid))
  | .mldStride f =>
    some (mkReq false (f.h.seg.toNat) (strideOf s w f.a (mDisp s f.h.disp)) (widBytes f.wid) (laneList false (eff f.h.k)) true false 0x02 (f.scope) (f.ord) (widCode f.wid))
  | .mst f =>
    some (mkReq false (f.h.seg.toNat) (addrOf s w f.ac f.a (mDisp s f.h.disp)) (widBytes f.wid) (laneList false (eff f.h.k)) false true 0x03 (f.scope) (f.ord) (widCode f.wid))
  | .mstStride f =>
    some (mkReq false (f.h.seg.toNat) (strideOf s w f.a (mDisp s f.h.disp)) (widBytes f.wid) (laneList false (eff f.h.k)) false true 0x04 (f.scope) (f.ord) (widCode f.wid))
  | .mldl f =>
    some (mkReq true (0) (addrOf s w f.ac f.a (mDisp s f.disp)) (widBytes f.wid) (laneList false (eff f.k)) true false 0x05 (.wave) (.relaxed) (widCode f.wid))
  | .mldlStride f =>
    some (mkReq true (0) (strideOf s w f.a (mDisp s f.disp)) (widBytes f.wid) (laneList false (eff f.k)) true false 0x06 (.wave) (.relaxed) (widCode f.wid))
  | .mstl f =>
    some (mkReq true (0) (addrOf s w f.ac f.a (mDisp s f.disp)) (widBytes f.wid) (laneList false (eff f.k)) false true 0x07 (.wave) (.relaxed) (widCode f.wid))
  | .mstlStride f =>
    some (mkReq true (0) (strideOf s w f.a (mDisp s f.disp)) (widBytes f.wid) (laneList false (eff f.k)) false true 0x08 (.wave) (.relaxed) (widCode f.wid))
  | .mldu f =>
    some (mkReq false (f.h.seg.toNat) (addrOf s w .unif f.a (mDisp s f.h.disp)) (widBytes f.wid) (laneList true (eff f.h.k)) true false 0x09 (f.scope) (f.ord) (widCode f.wid))
  | .mstu f =>
    some (mkReq false (f.h.seg.toNat) (addrOf s w .unif f.a (mDisp s f.h.disp)) (widBytes f.wid) (laneList true (eff f.h.k)) false true 0x0A (f.scope) (f.ord) (widCode f.wid))
  | .matom f =>
    some (mkReq false (f.seg.toNat) (addrOf s w f.ac f.a f.disp.toInt) (widBytes (wordWid f.wide)) (laneList (f.dc == .s) (eff f.k)) true true 0x0B (f.scope) (f.ord) (widCode (wordWid f.wide)))
  | .mcas f =>
    some (mkReq false (f.seg.toNat) (addrOf s w f.ac f.a f.disp.toInt) (widBytes (wordWid f.wide)) (laneList (f.dc == .s) (eff f.k)) true true 0x0C (f.scope) (f.ord) (widCode (wordWid f.wide)))
  | .mwatch f =>
    some (mkReq false (f.h.seg.toNat) (addrOf s w .unif f.a (mDisp s f.h.disp)) (widBytes (wordWid f.wide)) (laneList true (eff f.h.k)) true false 0x0D (f.scope) (if f.acq then .acquire else .relaxed) (widCode (wordWid f.wide)))
  | _ => none

/-- The lanes of an access with their offsets. -/
def spansOf (r : MReq) : List (Nat × Int) := r.lanes.map fun i => (i, offsetOf r.addr i)

/-! ### Fault records (R199) -/

/-- The words of a record, from bit 0 up. -/
structure RecWords where
  addr : Word
  slot : Nat
  lane : Nat
  cause : Nat
  asid : Nat
  va : Nat
  widc : Nat
  seg : Nat
  seq : Word
  step : Nat
  opcode : Nat
  scope : Nat
  ord : Nat
  again : Bool
  cls : Nat
  whr : Nat
  deriving DecidableEq, Repr

def recBits (r : RecWords) : BitVec 256 :=
  BitVec.ofNat 256 (r.addr.toNat + r.slot * 2 ^ 32 + r.lane * 2 ^ 35 + r.cause * 2 ^ 40 + r.asid * 2 ^ 48 + r.va * 2 ^ 64 +
    r.widc * 2 ^ 119 + r.seg * 2 ^ 122 + r.seq.toNat * 2 ^ 128 + r.step * 2 ^ 160 + r.opcode * 2 ^ 170 + r.scope * 2 ^ 176 +
    r.ord * 2 ^ 179 + (if r.again then 2 ^ 181 else 0) + r.cls * 2 ^ 182 + r.whr * 2 ^ 192)

/-- Distinct values in order of first appearance. -/
def distinct : List Nat → List Nat
  | [] => []
  | x :: t => x :: (distinct t).filter (· != x)

/-! ### The attribute TLB (R188) -/

/-- Whether the ATLB denies an access: an entry that lacks the right, and the hit is taken (unspecified between hit and miss). -/
def atlbDenies (s : State) (core asid : Nat) (g : Seg) (rd wr : Bool) (va tag : Nat) : Option Nat :=
  if segPage g then
    match (coreOf s core).atlb.find? fun e => e.asid == asid && e.cls == segClass g && e.page == va / classSize (segClass g) with
    | some e =>
      if rd && !e.r then (if pick s tag 2 = 0 then some 9 else none)
      else if wr && !e.w then (if pick s tag 2 = 0 then some 10 else none)
      else none
    | none => none
  else none

/-- The record of an ATLB trap for one page: the lanes (lane, va, cause) that fell on it; a tile's is every lane's (log 47). Its store was
never made and holds no late-fault entry: WHERE names the home, with entry and count 0, and its SEQ is the number that it would have
taken (DESIGN CHOICE, log 48). -/
def atlbRecord (s : State) (w : Wave) (asid : Nat) (r : RecWords) (load : Bool) (die : Nat) (ls : List (Nat × Nat × Nat)) : FRec :=
  let lane := match ls with | x :: _ => x.1 | [] => 31
  let va := match ls with | x :: _ => x.2.1 | [] => 0
  let cause := match ls with | x :: _ => x.2.2 | [] => 9
  let lanes := if r.slot = 6 then BitVec.allOnes 32 else maskOf fun n => ls.any fun x => x.1 == n
  let words := { r with
    lane := lane
    va := va
    cause := cause
    asid := asid
    seq := w.seq + 1
    addr := s.cur.here
    whr := if load then lanes.toNat else die * 4096 }
  { bits := recBits words
    acc := 0, lanes := lanes, cause := cause, store := false, copy := false, watch := false, loc := none }

/-- The page-permission trap of the lanes that fail, if any: a record for each distinct page in order of lowest lane. -/
def atlbTrap (s : State) (wid : Nat) (w : Wave) (g : Seg) (rd wr load : Bool) (r : RecWords) (lanes : List (Nat × Nat)) : Option Trap :=
  let asid := asidOf s w
  let bad := lanes.filterMap fun x => (atlbDenies s (coreNo wid) asid g rd wr x.2 (tagOf 5 32 + x.1)).map fun c => (x.1, x.2, c)
  match bad with
  | [] => none
  | _ =>
    let size := classSize (segClass g)
    let pages := distinct (bad.map fun x => x.2.1 / size)
    some { trapOf 0x07 with
      recs := pages.map fun p => atlbRecord s w asid r load (if segFar g then 8 else dieNo wid) (bad.filter fun x => x.2.1 / size == p) }

/-- The class of a record (R199). -/
def clsOf (rd wr : Bool) : Nat := if rd && wr then 2 else if wr then 1 else 0

/-- The three checks of R181, or those of R183, in order over all lanes. -/
def accessTrap (s : State) (wid : Nat) (w : Wave) (r : MReq) : Option Trap :=
  let sp := spansOf r
  if r.loc then
    if sp.any fun x => !(decide (0 ≤ x.2) && decide (x.2 + r.size ≤ regionSize s wid w)) then some (trapOf 0x06)
    else if sp.any fun x => x.2 % r.size != 0 then some (trapOf 0x14) else none
  else
    let g := segOf s wid w r.seg
    if sp.any fun x => !segCheck g r.rd r.wr x.2 r.size then some (trapOf 0x06)
    else if sp.any fun x => ((g.base : Int) + x.2) % r.size != 0 then some (trapOf 0x14)
    else
      atlbTrap s wid w g r.rd r.wr r.rd
        { addr := 0, slot := 5, lane := 0, cause := 0, asid := 0, va := 0, widc := r.widc, seg := r.seg, seq := 0, step := 0,
          opcode := r.opcode, scope := scopeCode r.scope, ord := orderCode r.ord, again := false, cls := clsOf r.rd r.wr, whr := 0 }
        (sp.map fun x => (x.1, ((g.base : Int) + x.2).toNat))

/-! ### Copies and streams at issue -/

/-- The registers of a copy as they are read: s[A], s[A+1], s[A+2], s[A+3]. -/
def copyReg (s : State) (w : Wave) (a : BitVec 6) (n : Nat) : DWord := rdS s w (tagOf 5 (1 + n)) (a.toNat + n)

/-- Whether a local range lies in the region (R183). -/
def inRegion (s : State) (wid : Nat) (w : Wave) (off len : Nat) : Bool := off + len ≤ regionSize s wid w

/-- Segment 63 and the context region are the handler's; a launch's non-pageable ranges never meet them (R276). The record words
of a copy. -/
def copyRec (seg opcode cls : Nat) : RecWords :=
  { addr := 0, slot := 5, lane := 31, cause := 0, asid := 0, va := 0, widc := 7, seg := seg, seq := 0, step := 0, opcode := opcode,
    scope := 0, ord := 0, again := false, cls := cls, whr := 0 }

/-- The pages of a class that a range touches, by their lowest address. -/
def rangePages (va len size : Nat) : List Nat :=
  if len = 0 then [] else (List.range ((va + len - 1) / size - va / size + 1)).map fun i => max va ((va / size + i) * size)

/-- SegCheck of a contiguous global range, and its ATLB check (R228). -/
def rangeTrap (s : State) (wid : Nat) (w : Wave) (seg opcode : Nat) (wr : Bool) (off : Int) (len : Nat) : Option Trap :=
  let g := segOf s wid w seg
  if len ≠ 0 ∧ !segCheck g (!wr) wr off len then some (trapOf 0x06)
  else
    atlbTrap s wid w g (!wr) wr (!wr) (copyRec seg opcode (if wr then 1 else 0))
      ((rangePages ((g.base : Int) + off).toNat len (classSize (segClass g))).map fun va => (31, va))

/-- The issue checks of the copy class (R146, R228, R232, R233, R237, R238); `bound` says that an endpoint is bound. -/
def copyTrap (i : Instr) (s : State) (wid : Nat) (w : Wave) (bound : Bool → Nat → Option Nat) : Option Trap :=
  match i with
  | .mcopy f =>
    if effMask s w (tagOf 5 0) f.h.k.toNat = 0 then none
    else
      let len := (copyReg s w f.a 2).toNat
      let lo := (copyReg s w f.a 1).toNat
      if 2 ^ 40 ≤ len then some (trapOf 0x06)
      else
        match rangeTrap s wid w f.h.seg.toNat 0x10 f.out ((copyReg s w f.a 0).toNat + mDisp s f.h.disp) len with
        | some t => some t
        | none =>
          if f.slot then none else if inRegion s wid w lo len then none else some (trapOf 0x06)
  | .mgather f =>
    if effMask s w (tagOf 5 0) f.h.k.toNat = 0 then none
    else
      let r2 := (copyReg s w f.a 2).toNat
      let r3 := (copyReg s w f.a 3).toNat
      let rowlen := r2 % 2 ^ 32
      let count := r2 / 2 ^ 32 % 65536
      let ok := 1 ≤ rowlen && rowlen ≤ 4096 && 1 ≤ count && r2 / 2 ^ 48 == 0 && 1 ≤ r3 / 2 ^ 32 &&
        inRegion s wid w (r3 % 2 ^ 32) (4 * count) && inRegion s wid w (copyReg s w f.a 1).toNat (count * rowlen)
      if ok then none else some (trapOf 0x06)
  | .mcast f =>
    if effMask s w (tagOf 5 0) f.h.k.toNat = 0 then none
    else
      let len := (copyReg s w f.a 2).toNat
      if 2 ^ 40 ≤ len ∨ !inRegion s wid w (copyReg s w f.a 1).toNat len then some (trapOf 0x06)
      else rangeTrap s wid w f.h.seg.toNat 0x12 false ((copyReg s w f.a 0).toNat + mDisp s f.h.disp) len
  | .mspush f =>
    if effMask s w (tagOf 5 0) f.k.toNat = 0 then none
    else
      match bound true f.ep.toNat with
      | none => some (trapOf 0x06)
      | some size =>
        let len := (copyReg s w f.a 2).toNat
        if 1 ≤ len && len ≤ size && inRegion s wid w (copyReg s w f.a 1).toNat len then none else some (trapOf 0x06)
  | .mspop f =>
    if effMask s w (tagOf 5 0) f.k.toNat = 0 then none
    else
      match bound false f.ep.toNat with
      | none => some (trapOf 0x06)
      | some size =>
        let len := (copyReg s w f.a 2).toNat
        if len ≤ size && (len == 0 || inRegion s wid w (copyReg s w f.a 1).toNat len) then none else some (trapOf 0x06)
  | .msfree f =>
    if effMask s w (tagOf 5 0) f.k.toNat = 0 then none
    else match bound false f.ep.toNat with | none => some (trapOf 0x06) | some _ => none
  | _ => none

/-- Copy-class instructions (R30). -/
def copyClass (i : Instr) : Bool :=
  match i with
  | .mcopy _ | .mgather _ | .mcast _ | .mspush _ | .mspop _ | .msfree _ => true
  | _ => false

/-- The slot and the offset that s[A+1] names for a slot copy, when they are in range (R146). -/
def slotAddr (v len : Nat) : Option (Nat × Nat) :=
  let off := v % 2 ^ 13
  if v / 2 ^ 18 ≠ 0 ∨ 4159 < off ∨ 4160 < off + len then none else some (v / 2 ^ 13 % 32, off)

/-- The stream bound to an endpoint of a launch: outbound st0 to st3, inbound st4 to st7 (R237). -/
def streamOf (s : State) (lid : Nat) (out : Bool) (ep : Nat) : Option (Nat × Stream) :=
  s.streams.find? fun e => if out then e.2.sLid == lid && e.2.sEp == ep else e.2.rLid == lid && e.2.rEp == ep

/-- The slot size of a bound endpoint. -/
def boundSize (s : State) (lid : Nat) (out : Bool) (ep : Nat) : Option Nat := (streamOf s lid out ep).map (·.2.size)

/-- The slot size of an endpoint as a wave of the launch finds it: one whose binding is undefined since a resumption is bound or not (R63). -/
def boundFor (s : State) (w : Wave) (out : Bool) (ep : Nat) : Option Nat :=
  if out && w.epUnd.getLsbD ep && Config.freePick s.cur.ser (80000 + ep) % 2 == 1 then none else boundSize s w.lid out ep

/-! ### Reasons to wait -/

/-- An acquire of the wave has still to take place: later accesses issue only then (R215). The kernel's holds none of the handler's; one
that the handler has begun holds the kernel's too. -/
def acquireHeld (w : Wave) : Bool := w.supAcq.isSome || (!w.sup && w.acqUpto.isSome)

/-- A FENCE.full of the wave is not complete (R214); in the handler it does not wait for stores that a record holds (log 45). -/
def fenceHeld (s : State) (w : Wave) : Bool :=
  match w.fullUpto.bind (Tab.find s.rels) with | some r => !(w.sup && handlerFenceDone s r) | none => false

/-- Memory operations that an earlier FENCE, acquire or FENCE.full of the wave holds back (R214, R215). `load` says that the
operation is a load, which FENCE.full alone holds. -/
def orderHeld (s : State) (wid : Nat) (w : Wave) (load : Bool) : Bool :=
  acquireHeld w ||
    (load && fenceHeld s w) ||
    (s.acc.any fun e => e.2.wid == wid && e.1 < w.fenceUpto &&
      (if e.2.scope.isPlain && e.2.kind == .store then false
       else if e.2.scope.isPlain && e.2.kind == .tstore then !e.2.accepted
       else if loadClass e.2.kind then awaited s w.sup e.1 e.2 && !parked s wid e.1
       else e.2.pieces.any fun p => !p.done && (p.fault.isNone || !w.sup)))

/-- The 128-byte lines of pieces. -/
def pieceLines (ps : List Piece) : List Nat := distinct (ps.flatMap fun p => linesOf p.va p.size)

/-- The lines that a store holds in late-fault entries (R193), as numbers of an address space and a line of a wave: stores of one wave to
one line share an entry. -/
def heldLines (a : Acc) : List Nat :=
  if a.held then (pieceLines (a.pieces.filter (inHeld a))).map fun n => (a.wid * 65536 + a.asid) * 2 ^ 48 + n else []

/-- The stores that are held on a home: a stage die's, or the FE die's. -/
def heldOn (s : State) (far : Bool) (die : Nat) : List (Nat × Acc) :=
  s.acc.filter fun e => e.2.held && e.2.far == far && (far || dieOfCore e.2.core == die)

/-- Late-fault entries in use on a home (R193). -/
def lateUsed (s : State) (far : Bool) (die : Nat) : Nat := (distinct ((heldOn s far die).flatMap fun e => heldLines e.2)).length

/-- A pageable store waits while its home has no free entry (R196). -/
def lateFull (s : State) (wid : Nat) (g : Seg) : Bool := segPage g && Config.lateEntries ≤ lateUsed s (segFar g) (dieNo wid)

/-- A store whose pieces have reached its home finds an entry for each of its lines; else it waits in the die network (R196). -/
def lateRoom (s : State) (a : Acc) : Bool :=
  !a.pageable || decide (lateUsed s a.far (dieOfCore a.core) + (pieceLines a.pieces).length ≤ Config.lateEntries)

/-- A toll bucket withholds the traffic of a wave's function (R242). -/
def tollOf (s : State) (wid : Nat) (w : Wave) (far : Bool) : Toll :=
  match launchOf s w.lid with
  | none => Toll.init
  | some l => Tab.findD (if far then (dieOf s (dieNo wid)).tollF else (dieOf s (dieNo wid)).tollS) l.vf Toll.init
def tollHeld (s : State) (wid : Nat) (w : Wave) (far : Bool) : Bool := (tollOf s wid w far).en && decide ((tollOf s wid w far).level ≤ 0)

/-- Debit a bucket (R242). -/
def tollDebit (s : State) (wid : Nat) (w : Wave) (far : Bool) (n : Nat) : State :=
  match launchOf s w.lid with
  | none => s
  | some l =>
    let f := fun (t : Tab Toll) => let x := Tab.findD t l.vf Toll.init; if x.en then Tab.put t l.vf { x with level := x.level - n } else t
    modDie s (dieNo wid) fun d => if far then { d with tollF := f d.tollF } else { d with tollS := f d.tollS }

/-- Bytes that an access debits to the far bucket. -/
def reqBytes (r : MReq) : Nat := r.lanes.length * r.size

/-- Whether an M operation would debit the far bucket, or the stream bucket. MPREF and MFLUSH debit nothing and are never withheld: R242 names
accesses, and the lines of a prefetch are none of the wave's (DESIGN CHOICE, log 64). -/
def tollWaits (i : Instr) (s : State) (wid : Nat) (w : Wave) : Bool :=
  match i with
  | .mspush f => effMask s w (tagOf 5 0) f.k.toNat != 0 && tollHeld s wid w false
  | .mcopy f => effMask s w (tagOf 5 0) f.h.k.toNat != 0 && segFar (segOf s wid w f.h.seg.toNat) && (copyReg s w f.a 2).toNat != 0 && tollHeld s wid w true
  | .mgather f => effMask s w (tagOf 5 0) f.h.k.toNat != 0 && segFar (segOf s wid w f.h.seg.toNat) && tollHeld s wid w true
  | .mcast f => effMask s w (tagOf 5 0) f.h.k.toNat != 0 && segFar (segOf s wid w f.h.seg.toNat) && (copyReg s w f.a 2).toNat != 0 && tollHeld s wid w true
  | _ =>
    match memReq i s w with
    | some r => !r.loc && !r.lanes.isEmpty && segFar (segOf s wid w r.seg) && tollHeld s wid w true
    | none => false

/-- Why a memory operation of the M slot waits unissued, apart from the registers, the toll buckets and the publish points. No FENCE
orders copy-class or stream operations (R214); an acquire holds their accesses (R215), and with a zero mask they make none (R228). Only
a store waits for late-fault entries (R196). -/
def memHold (i : Instr) (s : State) (wid : Nat) (w : Wave) : Bool :=
  let acts := fun (k : BitVec 4) => effMask s w (tagOf 5 0) k.toNat != 0
  match i with
  | .mspush f => acts f.k && (acquireHeld w || match streamOf s w.lid true f.ep.toNat with | some e => 8 ≤ e.2.pend.length | none => false)
  | .msfree f => acts f.k && !loadsBack s wid s.nextId
  | .mpref _ => false
  | .mflush _ => false
  | .mcopy f => acts f.h.k && acquireHeld w
  | .mgather f => acts f.h.k && acquireHeld w
  | .mcast f => acts f.h.k && acquireHeld w
  | .mspop f => acts f.k && acquireHeld w
  | _ =>
    match memReq i s w with
    | some r => orderHeld s wid w r.rd || (r.wr && !r.rd && !r.loc && lateFull s wid (segOf s wid w r.seg))
    | none => false

end Sys2Proof.Machine
end

