-- ==== Sys2Proof/Machine/TileIssue.lean ====
section
/-! DEFINITION. What a T-slot operation needs at issue: convergence (R140), the tile party (R139), SegCheck of every byte of
a tile (R151), the slot rules (R145) and the accumulator interlock (R147), in the order of R365. -/

namespace Sys2Proof.Machine

/-- The FMT code (R95). -/
def fmtCode (f : Fmt) : Nat :=
  match f with
  | .f32 => 0 | .bf16 => 1 | .f16 => 2 | .e4m3 => 3 | .e5m2 => 4 | .s8 => 5 | .n8 => 6 | .fp4 => 7

/-- Memory rows of a tile and their length (R151). -/
def tileRows (acc : Bool) (f : Fmt) (kc : Bool) : Nat × Nat :=
  if acc then (32, 128)
  else match f, kc with
    | _, false => (32, 128)
    | .bf16, true => (64, 64)
    | .f16, true => (64, 64)
    | .fp4, true => (256, 16)
    | _, true => (128, 32)

/-- A tile's place in a segment or in the scratchpad: its rows, and the scale array of an fp4 slot, as offsets and lengths (R151). -/
structure TReq where
  loc : Bool
  seg : Nat
  spans : List (Int × Nat)
  rd : Bool
  wr : Bool
  opcode : Nat
  scope : Scope
  deriving DecidableEq, Repr

/-- The 8-byte stream immediate of a T operation, when it has one: an unsigned number in an unbounded sum (DESIGN CHOICE, log 62). -/
def tImm (s : State) (imm : Bool) : Nat := if imm then s.cur.imm.toNat else 0

/-- `s[A]` onward as a T operation reads them. -/
def tReg (s : State) (w : Wave) (a : BitVec 6) (n : Nat) : DWord := rdS s w (tagOf 6 (1 + n)) (a.toNat + n)

def rowSpans (off : Int) (pitch : Int) (n len : Nat) : List (Int × Nat) := (List.range n).map fun (r : Nat) => (off + r * pitch, len)

def scaleSpan (has : Bool) (off : Nat) : List (Int × Nat) := if has then [((off : Int), 64)] else []

/-- The tile access of an operation, if it makes one. -/
def tileReq (i : Instr) (s : State) (w : Wave) : Option TReq :=
  let base := fun (a : BitVec 6) (imm : Bool) => ((tReg s w a 0).toNat + tImm s imm : Nat)
  let mk := fun (loc : Bool) (seg : Nat) (spans : List (Int × Nat)) (wr : Bool) (opcode : Nat) (scope : Scope) =>
    some ({ loc := loc, seg := seg, spans := spans, rd := !wr, wr := wr, opcode := opcode, scope := scope } : TReq)
  let tile := fun (f : TMem) (wr : Bool) (op : Nat) =>
    let acc := match f.data with | .acc _ => true | .slot _ => false
    let g := tileRows acc f.fmt f.kc
    mk f.loc f.seg.toNat (rowSpans (base f.a f.imm) (tReg s w f.a 1).toInt g.1 g.2 ++ scaleSpan (!acc && f.fmt == .fp4) (tReg s w f.a 2).toNat)
      wr op f.scope
  match i with
  | .tload f => tile f false 0x03
  | .tstore f => tile f true 0x04
  | .tquant f =>
    (match f.dest with
    | .slot _ => none
    | .mem seg imm =>
      let g := tileRows false .fp4 f.kc
      mk false seg.toNat (rowSpans (base f.a imm) (tReg s w f.a 1).toInt g.1 g.2 ++ scaleSpan true (tReg s w f.a 2).toNat) true 0x09 .core)
  | .tldo f => mk false f.seg.toNat (rowSpans (base f.a f.imm) (tReg s w f.a 1).toInt 16 32) false 0x3F .wave
  | _ => none

/-! ### Slots and accumulators -/

def entryOf (s : State) (c o : Nat) : TEntry := Tab.findD (coreOf s c).table o TEntry.init
def setEntry (s : State) (c o : Nat) (e : TEntry) : State := modCore s c fun x => { x with table := Tab.put x.table o e }
def modEntry (s : State) (c o : Nat) (f : TEntry → TEntry) : State := setEntry s c o (f (entryOf s c o))

/-- A reader's slot: which slot, which FMT its tag must have (none: any), and its OR bit (none: no orientation rule). -/
structure SlotUse where
  o : Nat
  fmt : Option Nat
  ort : Option Bool
  deriving DecidableEq, Repr

def slotUse (o : Nat) (fmt : Option Nat) (ort : Option Bool) : SlotUse := { o := o, fmt := fmt, ort := ort }

/-- The run of slots that a TMMA side names (R154). -/
def slotRun (o n : Nat) (fmt : Nat) (ort : Bool) : List SlotUse := (List.range n).map fun i => slotUse (o + i) (some fmt) (some ort)

/-- Slots that an operation reads, OA before OB (R365). -/
def slotReads (i : Instr) (s : State) (w : Wave) : List SlotUse :=
  match i with
  | .tmma f => slotRun f.oa.toNat (tcount f.n) (fmtCode f.fmt) f.kca ++ slotRun f.ob.toNat (tcount f.n) (fmtCode f.fmt) f.kcb
  | .tbmm f => [slotUse f.oa.toNat (some 7) (some f.kca), slotUse f.ob.toNat (some 7) (some f.kcb)]
  | .tscac f => [slotUse f.oa.toNat (some 7) none, slotUse f.ob.toNat (some 7) none]
  | .tmmao f => [slotUse f.oa.toNat (some 1) (some false), slotUse f.ob.toNat (some 1) (some false)]
  | .tstore f => (match f.data with
      | .slot o => [slotUse o.toNat (some (fmtCode f.fmt)) (some f.kc)]
      | .acc _ => [])
  | .mcopy f =>
    if f.slot && f.out && effMask s w (tagOf 5 0) f.h.k.toNat != 0 then
      (match slotAddr (copyReg s w f.a 1).toNat (copyReg s w f.a 2).toNat with
      | some x => [slotUse x.1 none none]
      | none => [])
    else []
  | _ => []

/-- The slot that an operation fills (R143). -/
def slotFills (i : Instr) (s : State) (w : Wave) : List Nat :=
  match i with
  | .tload f => (match f.data with | .slot o => [o.toNat] | .acc _ => [])
  | .tldo f => [f.oa.toNat]
  | .tcvt f => [f.oa.toNat]
  | .tquant f => (match f.dest with | .slot o => [o.toNat] | .mem _ _ => [])
  | .mcopy f =>
    if f.slot && !f.out && effMask s w (tagOf 5 0) f.h.k.toNat != 0 then
      (match slotAddr (copyReg s w f.a 1).toNat (copyReg s w f.a 2).toNat with
      | some x => [x.1]
      | none => [])
    else []
  | _ => []

/-- Whether a slot is claimed by the wave's party: the tile party of the core is the wave's own (R139, R144). -/
def claimedBy (s : State) (wid : Nat) (w : Wave) (o : Nat) : Bool :=
  (entryOf s (coreNo wid) o).claimed && (coreOf s (coreNo wid)).tile == some (w.lid, w.party)

/-- The tile-state rule for a reader (R145). The tags of a slot that is filling or draining are tested once it is ready: the operation waits
first, and traps then (R145 gives both rows for a draining slot with the wrong FMTT; DESIGN CHOICE, log 69). -/
def readerBad (s : State) (wid : Nat) (w : Wave) (u : SlotUse) : Bool :=
  let e := entryOf s (coreNo wid) u.o
  !claimedBy s wid w u.o || e.st == .empty ||
    (e.st == .ready && match u.fmt with | some f => e.fmtt != f && e.fmtt != 15 | none => false)

/-- The orientation rule (R145), tested once the slot is ready, as the tag FMTT is (DESIGN CHOICE, log 69). -/
def ortBad (s : State) (wid : Nat) (u : SlotUse) : Bool :=
  let e := entryOf s (coreNo wid) u.o
  e.st == .ready && match u.ort with | some b => e.ort != b | none => false

/-- A slot copy's address is out of range (R146). -/
def slotCopyBad (i : Instr) (s : State) (w : Wave) : Bool :=
  match i with
  | .mcopy f => f.slot && effMask s w (tagOf 5 0) f.h.k.toNat != 0 &&
      (slotAddr (copyReg s w f.a 1).toNat (copyReg s w f.a 2).toNat).isNone
  | _ => false

/-- The slot rules at issue of a T operation or of a slot copy. A slot copy whose range fails R146 traps 0x0A, as R146 and R265 have it, and not
with the segment violation of R228 (DESIGN CHOICE, log 69). -/
def slotTrap (i : Instr) (s : State) (wid : Nat) (w : Wave) : Option Trap :=
  if slotCopyBad i s w then some (trapOf 0x0A)
  else if (slotReads i s w).any (readerBad s wid w) || (slotFills i s w).any (fun o => !claimedBy s wid w o) then some (trapOf 0x0A)
  else if (slotReads i s w).any (ortBad s wid) then some (trapOf 0x13)
  else match i with
    | .tmmao f => if f.kca || f.kcb then some (trapOf 0x13) else none
    | _ => none

/-- The slots of a TCLAIM or TREL (R144). -/
def claimRun (f : TClaimF) : List Nat := (List.range (tcount f.n)).map (f.oa.toNat + ·)

/-- T-slot operations. -/
def isTile (i : Instr) : Bool :=
  match i with
  | .tclaim _ | .trel _ | .tload _ | .tstore _ | .tzero _ | .tmma _ | .tbmm _ | .tscac _ | .tquant _ | .tcvt _ | .tmovv _ | .tstat _
  | .tmmao _ | .tldo _ => true
  | _ => false

/-- The K field of a T operation. -/
def tileK (i : Instr) : BitVec 4 :=
  match i with
  | .tclaim f | .trel f => f.k
  | .tload f | .tstore f => f.k
  | .tzero f => f.k
  | .tmma f => f.k
  | .tbmm f => f.k
  | .tscac f => f.k
  | .tquant f => f.k
  | .tcvt f => f.k
  | .tmovv f => f.k
  | .tstat f => f.k
  | .tmmao f => f.k
  | .tldo f => f.k
  | _ => 0

/-- SegCheck of every byte of a tile (R151), then the ATLB for a load of a pageable segment (R188). -/
def tileSegTrap (s : State) (wid : Nat) (w : Wave) (r : TReq) : Option Trap :=
  if r.loc then
    if r.spans.any fun x => !(decide (0 ≤ x.1) && decide (x.1 + x.2 ≤ regionSize s wid w)) then some (trapOf 0x06) else none
  else
    let g := segOf s wid w r.seg
    if r.spans.any fun x => !segCheck g r.rd r.wr x.1 x.2 then some (trapOf 0x06) else none

/-- The page rights of a tile at the ATLB (R188): a record of CLASS 3 for each page that fails. -/
def tileAtlbTrap (s : State) (wid : Nat) (w : Wave) (r : TReq) : Option Trap :=
  if r.loc then none
  else
    let g := segOf s wid w r.seg
    let size := classSize (segClass g)
    let vas := r.spans.flatMap fun x => rangePages ((g.base : Int) + x.1).toNat x.2 size
    let firsts := (distinct (vas.map (· / size))).map fun p => (vas.filter fun v => v / size == p).foldl min (p * size + size)
    atlbTrap s wid w g r.rd r.wr r.rd
      { addr := 0, slot := 6, lane := 31, cause := 0, asid := 0, va := 0, widc := 7, seg := r.seg, seq := 0, step := 0, opcode := r.opcode,
        scope := scopeCode r.scope, ord := 0, again := false, cls := 3, whr := 0 } (firsts.map fun v => (31, v))

/-- The first failing check of R365; the right of the attribute TLB, which its list does not name, comes before the slot rules (DESIGN
CHOICE, log 51). -/
def tileTrap (i : Instr) (s : State) (wid : Nat) (w : Wave) : Option Trap :=
  let all := BitVec.allOnes 32
  if !(rdK s w (tagOf 6 0) (tileK i).toNat == all && w.live == all) then some (trapOf 0x03)
  else if !tileParty s w then some (trapOf 0x0A)
  else
    match (tileReq i s w).bind (tileSegTrap s wid w) with
    | some t => some t
    | none =>
      if allotBad i w then some (trapOf 0x05)
      else
        match (tileReq i s w).bind (tileAtlbTrap s wid w) with
        | some t => some t
        | none =>
          match i with
          | .trel f => if (claimRun f).any fun o => !claimedBy s wid w o then some (trapOf 0x0A) else none
          | _ => slotTrap i s wid w

/-- Accumulators (c0 to c15 as 0 to 15) and partials (16 to 23) that an operation reads or writes (R147). -/
def accUse (i : Instr) : List Nat :=
  match i with
  | .tload f | .tstore f => (match f.data with | .slot _ => [] | .acc c => [c.toNat])
  | .tzero f => (match f.t with | .acc c => [c.toNat] | .part p => [16 + p.toNat])
  | .tmma f => [f.c.toNat]
  | .tbmm f => [16 + f.p.toNat]
  | .tscac f => [f.c.toNat, 16 + f.p.toNat]
  | .tquant f => (List.range 8).map (f.c.toNat + ·)
  | .tcvt f => (List.range (if f.fmt = .bf16 ∨ f.fmt = .f16 then 2 else 4)).map (f.c.toNat + ·)
  | .tmovv f => [f.c.toNat]
  | .tmmao f => [f.c.toNat]
  | _ => []

/-- The same of a Pilot operation. -/
def pilotUse (p : POp) : List Nat :=
  match p with
  | .zero t => (match t with | .acc c => [c.toNat] | .part p => [16 + p.toNat])
  | .mma f => accUse (.tmma f)
  | .bmm f => accUse (.tbmm f)
  | .sca f => accUse (.tscac f)
  | .quant f _ _ => accUse (.tquant f)
  | .cvt f => accUse (.tcvt f)
  | .movv f _ => accUse (.tmovv f)
  | .mmao f => accUse (.tmmao f)

/-- Accumulators of a core that earlier operations have still to read or write: the Pilot's, and the tile accesses' (R147). -/
def accsBusy (s : State) (c : Nat) : List Nat :=
  ((coreOf s c).pilot.flatMap fun p => pilotUse p.op) ++
    s.acc.filterMap fun e => if e.2.core == c && !e.2.accepted then (match e.2.dest with | .acc n _ => some n | _ => none) else none

/-- A slot that makes an operation wait (R145). -/
def slotWaits (i : Instr) (s : State) (wid : Nat) (w : Wave) : Bool :=
  let c := coreNo wid
  (slotReads i s w).any (fun u => let e := entryOf s c u.o; e.st == .filling || e.st == .draining) ||
  (slotFills i s w).any (fun o => let e := entryOf s c o; e.st == .filling || e.st == .draining || (e.st == .ready && e.readers != 0))

/-- Why a T operation waits unissued (R365). -/
def tileHold (i : Instr) (s : State) (wid : Nat) (w : Wave) : Bool :=
  slotWaits i s wid w || (accUse i).any (fun a => (accsBusy s (coreNo wid)).contains a) ||
  (match i with
  | .trel f => (claimRun f).any fun o => let e := entryOf s (coreNo wid) o; !(e.st == .empty || (e.st == .ready && e.readers == 0))
  | _ => false) ||
  (match tileReq i s w with
  | some r => orderHeld s wid w r.rd || (!r.loc && r.wr && lateFull s wid (segOf s wid w r.seg))
  | none => false)

/-- A toll bucket withholds an operation (R242). -/
def tollStops (i : Instr) (s : State) (wid : Nat) (w : Wave) : Bool :=
  tollWaits i s wid w || (match tileReq i s w with
    | some r => isTile i && !r.loc && segFar (segOf s wid w r.seg) && tollHeld s wid w true
    | none => false)

end Sys2Proof.Machine
end

