-- ==== Sys2Proof/Machine/Issue.lean ====
section
/-! DEFINITION. Issue of one slot operation: the trap it raises at issue (R265, R266), the publish points (R195), the waits that
hold it unissued (R40), and `slotOp`, through which every meaning of a slot operation runs. -/

namespace Sys2Proof.Machine

/-- A special register that only supervisor mode may read (R96). -/
def srdPriv (n : Nat) : Bool := n == 0x19
/-- A special register that only supervisor mode may write (R96). -/
def swrPriv (n : Nat) : Bool := n == 0x19 || n == 0x1B || n == 0x1C

/-- The privilege trap (R96, R99, R316, R317, R325, R356). -/
def privTrap (i : Instr) (w : Wave) : Bool :=
  match i with
  | .eret => !w.sup
  | .replay _ => !w.sup
  | .invpg _ => !w.sup
  | .srd f => !w.sup && srdPriv f.num.toNat
  | .swr f => !w.sup && swrPriv f.num.toNat
  | .exit _ => w.sup
  | _ => false

/-- Only the producer of a split party, or any wave of a whole one, issues the copy class (R30). -/
def copyRights (w : Wave) : Bool := w.role == 0 || w.role == 1

/-- The cause that a slot operation raises at issue, if any; the deferred store fault of a publish point is judged apart
(R266). -/
def issueTrap (i : Instr) (s : State) (wid : Nat) (w : Wave) : Option Trap :=
  if isTile i then tileTrap i s wid w
  else if privTrap i w then some (trapOf 0x12)
  else if allotBad i w then some (trapOf 0x05)
  else if copyClass i then
    if !copyRights w then some (trapOf 0x04)
    else match copyTrap i s wid w (boundFor s w) with
      | some t => some t
      | none => slotTrap i s wid w
  else match memReq i s w with
    | some r => accessTrap s wid w r
    | none => match i with
      | .mflush f =>
        if (laneList (f.ac == .unif) (effMask s w (tagOf 5 0) f.h.k.toNat)).any fun l =>
            !segCheck (segOf s wid w f.h.seg.toNat) false false (offsetOf (addrOf s w f.ac f.a (mDisp s f.h.disp)) l) 1
        then some (trapOf 0x06) else none
      | _ => none

/-- The publish points, and a YIELD that a pre-emption request makes a safe point (R195, R396). -/
def isPublish (i : Instr) (w : Wave) : Bool :=
  match i with
  | .yield => w.preempt && !w.sup
  | .phase _ | .bar _ | .gopen _ | .exit _ => true
  | .fence f => !f.scope.isPlain
  | .mst f => releases f.ord
  | .mstStride f => releases f.ord
  | .mstu f => releases f.ord
  | .matom f => releases f.ord
  | .mcas f => releases f.ord
  | _ => false

/-- The T operations that a wave has issued have retired (R49, R74). -/
def tileIdle (s : State) (wid : Nat) : Bool :=
  !((coreOf s (coreNo wid)).pilot.any fun p => p.wid == wid) &&
    !(s.acc.any fun e => e.2.wid == wid && e.2.slot == 6 && !e.2.accepted)

/-- Reads of the first-event log wait for every window and every T operation (R74). -/
def logHeld (s : State) (wid : Nat) (w : Wave) : Bool := !w.wins.isEmpty || !tileIdle s wid

/-- Why an S operation waits unissued, apart from its registers: a refresh waits for earlier loads (R212, R215), a read of the log
under R74, and REPLAY, whose accesses load and whose walks read new table entries, for an earlier FENCE.full (R187, R214, R405). -/
def scalarHold (i : Instr) (s : State) (wid : Nat) (w : Wave) : Bool :=
  match i with
  | .srd f => f.num.toNat ∈ [0x10, 0x11, 0x12] && logHeld s wid w
  | .felrd _ => logHeld s wid w
  | .replay _ => fenceHeld s w
  | .phase .ref => !loadsBack s wid s.nextId
  | .phase .full => !loadsBack s wid s.nextId
  | .fence f => !f.scope.isPlain && (acquires f.ord || f.full) && !loadsBack s wid s.nextId
  | _ => false

/-- A slot operation waits unissued, apart from the toll buckets: on the scoreboard, on memory order, on a tile interlock, or at a publish
point for its earlier stores (R40, R195). -/
def interlocks (i : Instr) (s : State) (wid : Nat) (w : Wave) : Bool :=
  scoreHeld i w || scalarHold i s wid w || memHold i s wid w || (if isTile i then tileHold i s wid w else slotWaits i s wid w) ||
    (isPublish i w && !storesResolved s wid)

/-- A slot operation waits unissued, for an interlock or a toll bucket. -/
def holds (i : Instr) (s : State) (wid : Nat) (w : Wave) : Bool := interlocks i s wid w || tollStops i s wid w

/-- A publish point with a store record queued traps at issue (R195), but not inside the handler (R270). -/
def delivers (i : Instr) (w : Wave) : Bool := isPublish i w && !w.sup && storeRec w

/-- The deferred store fault at a publish point: the bundle is unissued (R195); `trapcause` names the record at HEAD (R266). -/
def deliver (s : State) (wid : Nat) (w : Wave) : State :=
  enterHandler s wid w (match headRec w with | some r => recCause r | none => 0x09) 0 false false s.cur.here s.cur.here

/-- The issue of one slot operation: it waits for its registers (R70), traps, waits unissued, or takes effect. A bundle whose checks
have been made takes effect in every slot. -/
def slotOp (i : Instr) (s : State) (body : Nat → Wave → State → State) : Out :=
  match waveOf s s.cur.wid with
  | none => notEnabled
  | some w =>
    if s.cur.go then done (body s.cur.wid w s)
    else if scoreHeld i w then done s
    else match issueTrap i s s.cur.wid w with
    | some t => done (takeTrap s s.cur.wid w t)
    | none =>
      if holds i s s.cur.wid w then done s
      else if delivers i w then done (deliver s s.cur.wid w)
      else done (body s.cur.wid w s)

end Sys2Proof.Machine
end

