-- ==== Sys2Proof/Machine/Area.lean ====
section
/-! DEFINITION. The wave area (R276): how a halted, stopped or saved wave's registers are written to near memory and read back, and how
results that reach a halted wave reach its area (R281). -/

namespace Sys2Proof.Machine

/-- State codes (R48). -/
def stCode (x : WState) : Nat :=
  match x with
  | .carved => 0 | .running => 1 | .waiting => 2 | .handler => 3 | .halted => 4 | .stopped => 5 | .saved => 6 | .retired => 7

/-- WAITK of a blocking wait (R280). -/
def waitCode (w : Wave) : Nat :=
  match w.wait with
  | none => 0
  | some x =>
    match x.on with
    | .bar _ _ => 1 | .mwait _ _ => 2 | .gwait _ _ => 3 | .mwatch _ => 4 | .mspop _ => 5

/-- A free tag base for register saves. -/
def areaTag : Nat := 900000

def sBytes (s : State) (w : Wave) (n : Nat) : List Byte :=
  let r := Tab.findD w.s n SReg.init
  leBytes 8 (if r.und then free s (areaTag + n) else r.val).toNat
def hBytes (s : State) (w : Wave) (n : Nat) : List Byte :=
  let r := Tab.findD w.h n SReg.undef
  leBytes 8 (if r.und then free s (areaTag + 64 + n) else r.val).toNat
def kBytes (s : State) (w : Wave) (n : Nat) : List Byte := leBytes 4 (rdK s { w with wins := [] } (areaTag + 80 + n) n).toNat
def vBytes (s : State) (w : Wave) (cl : Cluster) (n : Nat) : List Byte :=
  let v := rdV s { w with wins := [] } (areaTag + 4096 + 64 * n + (match cl with | .A => 0 | .B => 8192)) cl n
  (List.range 32).flatMap fun i => leBytes 4 (v.at i).toNat

def rangeBytes (n : Nat) (f : Nat → List Byte) : List Byte := (List.range n).flatMap f

/-- Stream state of the wave's party (R276): pending pushes of st0 to st3, then per inbound endpoint the oldest acquired slot
and how many are acquired. -/
def streamBytes (s : State) (w : Wave) : List Byte :=
  let pend := fun ep => match streamOf s w.lid true ep with
    | some e => (e.2.pend.filter fun p => p.party == w.party).length
    | none => 0
  let acq := fun (ep : Nat) => match partyOf s w.lid w.party with
    | some p => (match Tab.findD p.acq ep [] with
      | [] => 0
      | k :: t => k + 256 * (t.length + 1))
    | none => 0
  rangeBytes 4 (fun e => leBytes 1 (pend e)) ++ rangeBytes 4 (fun e => leBytes 4 (acq e)) ++ leBytes 20 0

/-- The record queue as it stands in slots (R202). -/
def recBytes (w : Wave) (k : Nat) : List Byte :=
  match Tab.find w.recs k with
  | some r => leBytes 32 r.bits.toNat
  | none => leBytes 32 0

/-- The area in front of the record queue (R276). -/
def areaHead (s : State) (w : Wave) (st : WState) (mask : DWord) : List Byte :=
  leBytes 4 w.pc.toNat ++ leBytes 4 (stCode st + (if w.sup then 8 else 0) + 16 * waitCode w) ++ leBytes 8 mask.toNat ++
    leBytes 8 (felAddr w.fel).toNat ++ leBytes 8 (felInfo w.fel).toNat ++ leBytes 8 (felSticky w.fel).toNat ++
    leBytes 8 w.trapcause.toNat ++ leBytes 8 w.trappc.toNat ++ leBytes 8 w.trapmask.toNat ++ leBytes 8 (w.head * 256 + w.count) ++
    leBytes 8 w.faultbase.toNat ++ leBytes 4 w.seq.toNat ++ leBytes 4 w.tollstall.toNat ++ streamBytes s w ++ leBytes 128 0 ++
    rangeBytes 64 (sBytes s w) ++ rangeBytes 8 (hBytes s w) ++ rangeBytes 16 (kBytes s w) ++
    rangeBytes 32 (fun i => leBytes 4 (w.lfsr.at i).toNat)

/-- Write the wave area (R276); records already written stay in the queue. -/
def writeArea (s : State) (wid : Nat) (w : Wave) (st : WState) (mask : DWord) : State :=
  match waveArea s wid w with
  | none => s
  | some loc =>
    let s1 := devWrite (devWrite s loc (areaHead s w st mask)) (loc + 0xC00) (leBytes 1024 0)
    let s2 := devWrite s1 (loc + 0x1000) (rangeBytes 64 (vBytes s w .A))
    devWrite s2 (loc + 0x3000) (rangeBytes 64 (vBytes s w .B) ++ leBytes 12288 0)

/-! ### Results that reach a halted wave (R281, R282) -/

/-- The lanes of a vector register that a change has touched, as words of the area. -/
def vChange (s : State) (w v : Wave) (cl : Cluster) (base n : Nat) : List (Nat × List Byte) :=
  let file := fun (u : Wave) => match cl with | .A => u.a | .B => u.b
  let x := Tab.findD (file w) n VReg.undef
  let y := Tab.findD (file v) n VReg.undef
  (List.range 32).filterMap fun i =>
    if x.val.at i == y.val.at i && x.und.getLsbD i == y.und.getLsbD i then none
    else some (base + 128 * n + 4 * i, ((vBytes s v cl n).drop (4 * i)).take 4)

/-- What of a wave's area a change of the wave touches: offsets and bytes. -/
def areaChange (s : State) (w v : Wave) : List (Nat × List Byte) :=
  (if w.fel == v.fel then [] else [(0x10, leBytes 8 (felAddr v.fel).toNat ++ leBytes 8 (felInfo v.fel).toNat ++ leBytes 8 (felSticky v.fel).toNat)]) ++
    (if w.head == v.head && w.count == v.count then [] else [(0x40, leBytes 8 (v.head * 256 + v.count))]) ++
    ((List.range 64).filter fun n => Tab.find w.s n != Tab.find v.s n).map (fun n => (0x100 + 8 * n, sBytes s v n)) ++
    ((List.range 8).filter fun n => Tab.find w.h n != Tab.find v.h n).map (fun n => (0x300 + 8 * n, hBytes s v n)) ++
    ((List.range 16).filter fun n => Tab.find w.k n != Tab.find v.k n).map (fun n => (0x340 + 4 * n, kBytes s v n)) ++
    (List.range 64).flatMap (vChange s w v .A 0x1000) ++ (List.range 64).flatMap (vChange s w v .B 0x3000)

/-- A wave that a result or a record reaches: where it is halted, its area follows, so that the result is there when the area is
reloaded (R281). -/
def reach (s : State) (wid : Nat) (v : Wave) : State :=
  let s1 := setWave s wid v
  match waveOf s wid, waveArea s wid v with
  | some w, some loc => if v.st = .halted ∧ w.st = .halted then (areaChange s w v).foldl (fun a x => devWrite a (loc + x.1) x.2) s1 else s1
  | _, _ => s1

/-- Change a wave that a result reaches; nothing where the slot is empty. -/
def modReach (s : State) (wid : Nat) (f : Wave → Wave) : State :=
  match waveOf s wid with
  | some w => reach s wid (f w)
  | none => s

/-- Words of the area as the machine reads them back. -/
def areaNat (s : State) (loc n : Nat) : Nat := leNat (devBytes s loc n)

def loadS (s : State) (loc n : Nat) : Tab SReg := (List.range n).map fun i => (i, { val := BitVec.ofNat 64 (areaNat s (loc + 8 * i) 8), und := false })
def loadK (s : State) (loc : Nat) : Tab KReg := (List.range 16).map fun i => (i, { val := BitVec.ofNat 32 (areaNat s (loc + 4 * i) 4), und := 0 })
def loadV (s : State) (loc : Nat) : Tab VReg :=
  (List.range 64).map fun n => (n, { val := Lanes.of fun i => BitVec.ofNat 32 (areaNat s (loc + 128 * n + 4 * i.val) 4), und := 0 })

/-- The first-event log from its three registers (R73), at the issue position that the part keeps with it. -/
def loadFel (ord a i st : Nat) : Fel :=
  { valid := a / 2 ^ 32 % 2 == 1, ord := ord, addr := BitVec.ofNat 32 a, slot := i % 8, lane := i / 8 % 32, kind := i / 256 % 8,
    sticky := BitVec.ofNat 5 st }

/-- The records of a wave with the bytes that its area has for those that stand there (R276). -/
def loadRecs (s : State) (loc : Nat) (t : Tab FRec) : Tab FRec :=
  t.map fun e => (e.1, match e.2.loc with
    | some p => if loc + 0x400 ≤ p ∧ p < loc + 0xC00 then { e.2 with bits := BitVec.ofNat 256 (areaNat s p 32) } else e.2
    | none => e.2)

/-- A wave with the registers of its area (R281). A debugger's write of the k0 word becomes the live mask, also where it sets a bit that had left
k0 (R23 speaks of the wave's own instructions; DESIGN CHOICE, log 68). -/
def readArea (s : State) (wid : Nat) (w : Wave) : Wave :=
  match waveArea s wid w with
  | none => w
  | some loc =>
    { w with
      pc := BitVec.ofNat 32 (areaNat s loc 4)
      fel := loadFel w.fel.ord (areaNat s (loc + 0x10) 8) (areaNat s (loc + 0x18) 8) (areaNat s (loc + 0x20) 8)
      trapcause := BitVec.ofNat 64 (areaNat s (loc + 0x28) 8)
      trappc := BitVec.ofNat 32 (areaNat s (loc + 0x30) 4)
      trapmask := BitVec.ofNat 32 (areaNat s (loc + 0x38) 4)
      head := areaNat s (loc + 0x41) 1 % 64
      count := areaNat s (loc + 0x40) 1 % 128
      recs := loadRecs s loc w.recs
      faultbase := BitVec.ofNat 64 (areaNat s (loc + 0x48) 8)
      seq := BitVec.ofNat 32 (areaNat s (loc + 0x50) 4)
      tollstall := BitVec.ofNat 32 (areaNat s (loc + 0x54) 4)
      s := loadS s (loc + 0x100) 64
      h := loadS s (loc + 0x300) 8
      k := loadK s (loc + 0x340)
      live := BitVec.ofNat 32 (areaNat s (loc + 0x340) 4)
      lfsr := Lanes.of fun i => BitVec.ofNat 32 (areaNat s (loc + 0x380 + 4 * i.val) 4)
      a := loadV s (loc + 0x1000)
      b := loadV s (loc + 0x3000) }

/-- All ones: the live mask of a halt or of an unmasked YIELD (R276). -/
def allLive : DWord := BitVec.allOnes 64

/-- Halt a wave: its windows close, its area is written as for a save without reduction, and it issues nothing (R281). -/
def haltWave (s : State) (wid : Nat) (w : Wave) : State :=
  let d := drainWins w
  let h := { d with st := .halted, back := w.st, tok := none, missed := false, age := 0, haltSt := streamBytes s d }
  unpin (setWave (writeArea s wid d .halted allLive) wid h) wid

end Sys2Proof.Machine
end

