-- ==== Sys2Proof/Machine/Scalar.lean ====
section
/-! DEFINITION. The S-slot arithmetic, logic, compare and select operations (R358 to R362), and the special registers
(R360, R364). -/

namespace Sys2Proof.Machine

/-- Write an S result with a bound (R65, R68). -/
def putS (d : BitVec 6) (L : Nat) (v : State → Wave → DWord) (wid : Nat) (w : Wave) (s : State) : State :=
  setWave s wid (pushWin w (sWrite w.sup d.toNat (v s w)) L)

/-- Sources of a register form (R358). -/
def srcA (s : State) (w : Wave) (a : BitVec 6) (wd : SWidth) : DWord := ext wd (rdS s w (tagOf 0 0) a.toNat)
def srcB (s : State) (w : Wave) (b : BitVec 6) (wd : SWidth) : DWord := ext wd (rdS s w (tagOf 0 1) b.toNat)

/-- A register form computing op. -/
def binR (op : SWidth → DWord → DWord → DWord) (f : SaReg) (s : State) (w : Wave) : DWord :=
  ext f.w (op f.w (srcA s w f.a f.w) (srcB s w f.b f.w))

/-- An immediate form computing op. -/
def binI (op : SWidth → DWord → DWord → DWord) (f : SaImm) (s : State) (w : Wave) : DWord :=
  ext f.w (op f.w (srcA s w f.a f.w) (ext f.w (sImm s f.imm)))

def opAdd (_ : SWidth) (x y : DWord) : DWord := x + y
def opSub (_ : SWidth) (x y : DWord) : DWord := x - y
def opMul (_ : SWidth) (x y : DWord) : DWord := x * y
/-- The high half (R358): of 128 bits for W = 00, else bits [63:32] of the product of the extended sources. -/
def opMulh (wd : SWidth) (x y : DWord) : DWord :=
  match wd with
  | .w64 => BitVec.ofInt 64 (x.toInt * y.toInt / 2 ^ 64)
  | _ => BitVec.ofInt 64 (x.toInt * y.toInt / 2 ^ 32)
def opAnd (_ : SWidth) (x y : DWord) : DWord := x &&& y
def opOr (_ : SWidth) (x y : DWord) : DWord := x ||| y
def opXor (_ : SWidth) (x y : DWord) : DWord := x ^^^ y
def opShl (wd : SWidth) (x y : DWord) : DWord := x <<< (y.toNat % shiftMod wd)
def opShr (wd : SWidth) (x y : DWord) : DWord := x >>> (y.toNat % shiftMod wd)
def opSar (wd : SWidth) (x y : DWord) : DWord := x.sshiftRight (y.toNat % shiftMod wd)
def opMin (uns : Bool) (_ : SWidth) (x y : DWord) : DWord := if condS (if uns then .ltu else .lt) y x then y else x
def opMax (uns : Bool) (_ : SWidth) (x y : DWord) : DWord := if condS (if uns then .ltu else .lt) x y then y else x

/-- SADD (R358). -/
def execSadd (f : SaReg) (s : State) : Out := slotOp (.sadd f) s (putS f.d 1 (binR opAdd f))
/-- SSUB (R358). -/
def execSsub (f : SaReg) (s : State) : Out := slotOp (.ssub f) s (putS f.d 1 (binR opSub f))
/-- SMUL, bound 3 (R358, R68). -/
def execSmul (f : SaReg) (s : State) : Out := slotOp (.smul f) s (putS f.d 3 (binR opMul f))
/-- SMULH, bound 3 (R358, R68). -/
def execSmulh (f : SaReg) (s : State) : Out := slotOp (.smulh f) s (putS f.d 3 (binR opMulh f))
/-- SAND (R358). -/
def execSand (f : SaReg) (s : State) : Out := slotOp (.sand f) s (putS f.d 1 (binR opAnd f))
/-- SOR (R358). -/
def execSor (f : SaReg) (s : State) : Out := slotOp (.sor f) s (putS f.d 1 (binR opOr f))
/-- SXOR (R358). -/
def execSxor (f : SaReg) (s : State) : Out := slotOp (.sxor f) s (putS f.d 1 (binR opXor f))
/-- SSHL (R358). -/
def execSshl (f : SaReg) (s : State) : Out := slotOp (.sshl f) s (putS f.d 1 (binR opShl f))
/-- SSHR (R358). -/
def execSshr (f : SaReg) (s : State) : Out := slotOp (.sshr f) s (putS f.d 1 (binR opShr f))
/-- SSAR (R358). -/
def execSsar (f : SaReg) (s : State) : Out := slotOp (.ssar f) s (putS f.d 1 (binR opSar f))
/-- SMIN (R358). -/
def execSmin (f : SaMinReg) (s : State) : Out := slotOp (.smin f) s (putS f.r.d 1 (binR (opMin f.uns) f.r))
/-- SMAX (R358). -/
def execSmax (f : SaMinReg) (s : State) : Out := slotOp (.smax f) s (putS f.r.d 1 (binR (opMax f.uns) f.r))
/-- SADD, immediate (R358). -/
def execSaddI (f : SaImm) (s : State) : Out := slotOp (.saddI f) s (putS f.d 1 (binI opAdd f))
/-- SSUB, immediate (R358). -/
def execSsubI (f : SaImm) (s : State) : Out := slotOp (.ssubI f) s (putS f.d 1 (binI opSub f))
/-- SMUL, immediate, bound 3 (R358, R68). -/
def execSmulI (f : SaImm) (s : State) : Out := slotOp (.smulI f) s (putS f.d 3 (binI opMul f))
/-- SAND, immediate (R358). -/
def execSandI (f : SaImm) (s : State) : Out := slotOp (.sandI f) s (putS f.d 1 (binI opAnd f))
/-- SOR, immediate (R358). -/
def execSorI (f : SaImm) (s : State) : Out := slotOp (.sorI f) s (putS f.d 1 (binI opOr f))
/-- SXOR, immediate (R358). -/
def execSxorI (f : SaImm) (s : State) : Out := slotOp (.sxorI f) s (putS f.d 1 (binI opXor f))
/-- SSHL, immediate (R358). -/
def execSshlI (f : SaImm) (s : State) : Out := slotOp (.sshlI f) s (putS f.d 1 (binI opShl f))
/-- SSHR, immediate (R358). -/
def execSshrI (f : SaImm) (s : State) : Out := slotOp (.sshrI f) s (putS f.d 1 (binI opShr f))
/-- SSAR, immediate (R358). -/
def execSsarI (f : SaImm) (s : State) : Out := slotOp (.ssarI f) s (putS f.d 1 (binI opSar f))
/-- SMIN, immediate (R358). -/
def execSminI (f : SaMinImm) (s : State) : Out := slotOp (.sminI f) s (putS f.r.d 1 (binI (opMin f.uns) f.r))
/-- SMAX, immediate (R358). -/
def execSmaxI (f : SaMinImm) (s : State) : Out := slotOp (.smaxI f) s (putS f.r.d 1 (binI (opMax f.uns) f.r))

/-- 1 or 0, whatever W is (R79, R362). -/
def boolWord (b : Bool) : DWord := if b then 1 else 0

/-- SSET (R362). -/
def execSset (f : SsetReg) (s : State) : Out :=
  slotOp (.sset f) s (putS f.r.d 1 fun s w => boolWord (condS f.cc (srcA s w f.r.a f.r.w) (srcB s w f.r.b f.r.w)))
/-- SSET, immediate (R362). -/
def execSsetI (f : SsetImm) (s : State) : Out :=
  slotOp (.ssetI f) s (putS f.r.d 1 fun s w => boolWord (condS f.cc (srcA s w f.r.a f.r.w) (ext f.r.w (sImm s f.r.imm))))

/-- The value that SSEL delivers (R361). -/
def selValue (f : SselF) (s : State) (w : Wave) : DWord :=
  if condS f.cc (ext f.r.w (rdS s w (tagOf 0 2) f.c.toNat)) 0 then ext f.r.w (srcA s w f.r.a f.r.w)
  else ext f.r.w (srcB s w f.r.b f.r.w)

/-- SSEL (R361). -/
def execSsel (f : SselF) (s : State) : Out := slotOp (.ssel f) s (putS f.r.d 1 (selValue f))

/-- SLI (R359). -/
def execSli (f : SliF) (s : State) : Out := slotOp (.sli f) s (putS f.d 1 fun s _ => sImm s f.imm)

/-! ### Special registers (R96) -/

/-- `role` (R29): NCONS is the wave count in a whole party. -/
def roleWord (s : State) (w : Wave) : DWord :=
  match partyOf s w.lid w.party with
  | none => 0
  | some p =>
    let cons := if p.prod then p.waves - 1 else p.waves
    BitVec.ofNat 64 (w.bAllot * 2 ^ 40 + w.aAllot * 2 ^ 32 + cons * 2 ^ 16 + (if p.prod then 256 else 0) + w.role)

/-- The matrix step in force (R288). -/
def matrixStep (s : State) (c : Nat) : Nat :=
  max (max (coreOf s c).ramp (coreOf s c).allow) (if (dieOf s (dieOfCore c)).held then 4 else 0)

/-- `thrstat` (R290). -/
def thrWord (s : State) (c : Nat) : DWord :=
  BitVec.ofNat 64 ((coreOf s c).whled.toNat * 2 ^ 16 + (if (dieOf s (dieOfCore c)).held then 2 ^ 11 else 0) +
    (if s.caps.f < 256 then 2 ^ 10 else 0) + (if (coreOf s c).halve.isSome then 2 ^ 9 else 0) + (coreOf s c).allow * 64 +
    (coreOf s c).ramp * 8 + matrixStep s c)

/-- `oppstat` (R286). -/
def oppWord (s : State) (wid : Nat) (w : Wave) : DWord :=
  let g := match launchOf s w.lid with | some l => granted s l | none => (0, 0)
  let c := coreOf s (coreNo wid)
  BitVec.ofNat 64 (w.dencnt.toNat * 65536 + (if w.denied then 2 ^ 13 else 0) + (if c.trans.isSome then 2 ^ 12 else 0) + g.2 * 512 + g.1 * 64 +
    (shareOf s (coreNo wid) w.lid).req * 8 + c.op)

/-- `fidelity` (R170). -/
def fidelWord (s : State) (w : Wave) : DWord :=
  match launchOf s w.lid with
  | some l => BitVec.ofNat 64 (l.floor * 64 + l.img.hdr.fidelity % 4 * 16 + l.asked * 4 + l.level)
  | none => 0

/-- `slerr` (R172): a wave outside the tile party reads 0. -/
def slerrWord (s : State) (wid : Nat) (w : Wave) : DWord :=
  if (coreOf s (coreNo wid)).tile = some (w.lid, w.party) then BitVec.ofNat 64 (coreOf s (coreNo wid)).slerr else 0

/-- `stallr` (R295). -/
def stallWord (c : Core) : DWord := BitVec.ofNat 64 (c.stallSeq.toNat * 2 ^ 32 + c.stallIssue.toNat * 65536 + c.stallMem.toNat)

/-- `faultcnt` (R202). -/
def faultcntWord (w : Wave) : DWord := BitVec.ofNat 64 (w.head * 256 + w.count)

/-- `droopth` (R294). -/
def droopWord (c : Cluster4) : DWord := BitVec.ofNat 64 (c.alarms.toNat * 256 + c.thresh.toNat)

/-- Milestone counter n of the wave's party (R219). -/
def msWord (s : State) (w : Wave) (n : Nat) : DWord :=
  match partyOf s w.lid w.party with
  | some p => BitVec.ofNat 64 (msOf p n).count
  | none => 0

/-- `landbusy` (R234): bits beyond the region read 0. -/
def landMask (s : State) (wid : Nat) (w : Wave) : DWord :=
  BitVec.ofNat 64 (2 ^ (shareOf s (coreNo wid) w.lid).units - 1)
def landWord (s : State) (wid : Nat) (w : Wave) : DWord := (shareOf s (coreNo wid) w.lid).landbusy &&& landMask s wid w

/-- What SRD reads (R96, R360); a number that no register has reads 0 and is refused by the filter. -/
def specialRead (s : State) (wid : Nat) (w : Wave) (n : Nat) : DWord :=
  let c := coreNo wid
  match n with
  | 0x00 => BitVec.ofNat 64 w.num
  | 0x01 => BitVec.ofNat 64 w.party
  | 0x02 => roleWord s w
  | 0x03 => BitVec.ofNat 64 (coreOnDie wid)
  | 0x04 => BitVec.ofNat 64 (dieNo wid)
  | 0x05 => 32
  | 0x06 => BitVec.ofNat 64 w.lid
  | 0x07 => (match launchOf s w.lid with | some l => BitVec.ofNat 64 l.vf | none => 0)
  | 0x08 => (coreOf s c).cyc
  | 0x09 => BitVec.ofNat 64 (ticks s)
  | 0x0A => (match launchOf s w.lid with | some l => BitVec.ofNat 64 l.energy | none => 0)
  | 0x0B => thrWord s c
  | 0x0C => oppWord s wid w
  | 0x0D => fidelWord s w
  | 0x0E => slerrWord s wid w
  | 0x0F => stallWord (coreOf s c)
  | 0x10 => felAddr w.fel
  | 0x11 => felInfo w.fel
  | 0x12 => felSticky w.fel
  | 0x18 => faultcntWord w
  | 0x19 => w.faultbase
  | 0x1A => w.trapcause
  | 0x1B => w.trappc.zeroExtend 64
  | 0x1C => w.trapmask.zeroExtend 64
  | 0x20 => msWord s w 0
  | 0x21 => msWord s w 1
  | 0x22 => msWord s w 2
  | 0x23 => msWord s w 3
  | 0x24 => msWord s w 4
  | 0x25 => msWord s w 5
  | 0x26 => msWord s w 6
  | 0x27 => msWord s w 7
  | 0x28 => landWord s wid w
  | 0x30 => droopWord (clus s (clusterOf c))
  | 0x31 => (shareOf s c w.lid).pfissued.zeroExtend 64
  | 0x32 => (shareOf s c w.lid).pfuseful.zeroExtend 64
  | 0x33 => (shareOf s c w.lid).pflate.zeroExtend 64
  | 0x34 => (shareOf s c w.lid).dictmiss.zeroExtend 64
  | 0x35 => w.tollstall.zeroExtend 64
  | _ => 0

/-- SRD (R360). -/
def execSrd (f : SrdF) (s : State) : Out :=
  slotOp (.srd f) s (putS f.d 1 fun s w => specialRead s s.cur.wid w f.num.toNat)

/-- Clear bits of `landbusy` and become their owner (R234). -/
def clearLand (s : State) (wid : Nat) (w : Wave) (v : DWord) : State :=
  modShare s (coreNo wid) w.lid fun x =>
    let bits := x.landbusy &&& v
    { x with
      landbusy := x.landbusy &&& ~~~v
      owners := (List.range 64).foldl (fun t b => if bits.getLsbD b then Tab.put t b wid else t) x.owners }

/-- What SWR writes (R364). -/
def specialWrite (s : State) (wid : Nat) (w : Wave) (n : Nat) (v : DWord) : State :=
  match n with
  | 0x28 => clearLand s wid w v
  | 0x1B => setWave s wid { w with trappc := v.truncate 32, wrotePc := true }
  | 0x1C => setWave s wid { w with trapmask := v.truncate 32 }
  | 0x19 => setWave s wid { w with faultbase := v &&& 0xFFFFFFFFFFE0#64 }
  | _ => s

/-- SWR (R364). -/
def execSwr (f : SwrF) (s : State) : Out :=
  slotOp (.swr f) s fun wid w s => specialWrite s wid w f.num.toNat (rdS s w (tagOf 0 0) f.a.toNat)

end Sys2Proof.Machine
end

