-- ==== Sys2Proof/Machine/Control.lean ====
section
/-! DEFINITION. Control transfers (R309 to R315, R333, R357), traps taken by the S slot (R311, R363, R376), ERET (R316), EXIT
(R317), YIELD (R396) and FELRD (R321). -/

namespace Sys2Proof.Machine

/-- `Taken(t)`: the wave's next token is fetched at t (R308). -/
def takenW (w : Wave) (t : Word) : Wave := { w with pc := t, tok := none }

/-- A displacement target (R309). -/
def target (s : State) (disp : BitVec 24) : Word := s.cur.here + disp.signExtend 32

/-- BR (R312). -/
def execBr (disp : BitVec 24) (s : State) : Out :=
  slotOp (.br disp) s fun wid w s => setWave s wid (takenW w (target s disp))

/-- Whether BRC branches (R313). -/
def brcTaken (f : BrcF) (s : State) (w : Wave) : Bool :=
  if f.cc.isCompare then condS f.cc (rdS s w (tagOf 0 0) f.a.toNat) 0 else condK f.cc (rdK s w (tagOf 0 0) f.k.toNat) w.live

/-- BRC (R313). -/
def execBrc (f : BrcF) (s : State) : Out :=
  slotOp (.brc f) s fun wid w s => if brcTaken f s w then setWave s wid (takenW w (target s f.disp)) else s

/-- BRX (R314). -/
def execBrx (a : BitVec 6) (s : State) : Out :=
  slotOp (.brx a) s fun wid w s => setWave s wid (takenW w ((rdS s w (tagOf 0 0) a.toNat).truncate 32))

/-- RET (R357). -/
def execRet (a : BitVec 6) (s : State) : Out :=
  slotOp (.ret a) s fun wid w s => setWave s wid (takenW w ((rdS s w (tagOf 0 0) a.toNat).truncate 32))

/-- CALL (R315): the link has bound 1. -/
def execCall (f : LinkF) (s : State) : Out :=
  slotOp (.call f) s fun wid w s =>
    setWave s wid (takenW (pushWin w (sWrite w.sup f.a.toNat (s.cur.next.zeroExtend 64)) 1) (target s f.disp))

/-- LOOP (R333): the counter falls by 1 and the branch is taken while it is not 0. -/
def execLoop (f : LinkF) (s : State) : Out :=
  slotOp (.loop f) s fun wid w s =>
    let n := rdS s w (tagOf 0 0) f.a.toNat - 1
    let w1 := pushWin w (sWrite w.sup f.a.toNat n) 1
    setWave s wid (if n = 0 then w1 else takenW w1 (target s f.disp))

/-- TRAP (R376): the bundle after it is the one to resume at. -/
def execTrap (code : BitVec 8) (s : State) : Out :=
  slotOp (.trap code) s fun wid w s => enterHandler s wid w 0x10 code.toNat false false s.cur.here s.cur.next

/-- SVC (R363). -/
def execSvc (code : BitVec 8) (s : State) : Out :=
  slotOp (.svc code) s fun wid w s => enterHandler s wid w 0x10 code.toNat true false s.cur.here s.cur.next

/-- BKPT (R311): a halt where the debugger has set BKHALT for the slot (R280, R281). -/
def execBkpt (code : BitVec 8) (s : State) : Out :=
  slotOp (.bkpt code) s fun wid w s =>
    if !w.sup && s.sec.bkhalt.contains wid then
      haltWave s wid { w with trapcause := trapWord 0x11 code.toNat false false false, pc := s.cur.next }
    else enterHandler s wid w 0x11 code.toNat false false s.cur.here s.cur.next

/-- A wait that the handler abandons leaves nothing on its way (R195): the watch or the pop goes. -/
def dropOuter (s : State) (wid : Nat) (w : Wave) : State :=
  match w.outer with
  | some x =>
    (match x.on with
    | .mwatch id => setWave (delAcc s id) wid (clearBusy w id)
    | .mspop id => setWave { s with pops := Tab.del s.pops id } wid (clearBusy w id)
    | _ => s)
  | none => s

/-- ERET (R271, R316); a watch that the wave returns into is evaluated afresh (R40, R354). -/
def execEret (s : State) : Out :=
  slotOp .eret s fun wid w s =>
    let s1 := if w.wrotePc then dropOuter s wid w else s
    freshWatches (modWave s1 wid fun w =>
      let w1 := leaveHandler w
      { w1 with wait := w1.wait.map fun x => { x with since := ticks s } }) wid

/-- EXIT (R317): its release has the core as target; a wave with no lane left waits under R49. DEDUCED (log 49): until WAVE_RETIRE such
a wave shows the state running, where R48 enters retired at EXIT and R49 has the wave wait first. -/
def execExit (k : BitVec 4) (s : State) : Out :=
  slotOp (.exit k) s fun wid w s =>
    let m := effMask s w (tagOf 0 0) k.toNat
    let live := w.live &&& ~~~m
    setWave (release s wid w .fence) wid { w with live := live, exiting := live == 0 }

/-- The yielded mark (R47): the waves of other parties that can issue now. -/
def yieldMark (s : State) (wid : Nat) (w : Wave) : Yield :=
  { others := ((wavesOn s (coreNo wid)).filter fun e =>
      e.1 != wid && !(e.2.lid == w.lid && e.2.party == w.party) && (e.2.st == .running || e.2.st == .handler) && e.2.tok.isSome &&
        e.2.waitCnt == 0).map (·.1),
    age := 0 }

/-- YIELD (R396): a safe point under a request, else the yielded mark. -/
def execYield (s : State) : Out :=
  slotOp .yield s fun wid w s =>
    if w.sup then setWave s wid { w with age := 0 }
    else if w.preempt then setWave s wid { w with stopping := some allLive }
    else setWave s wid { w with age := 0, yielded := some (yieldMark s wid w) }

/-- The word of FELRD (R321). -/
def felWord (f : Fel) : DWord :=
  if f.valid then
    BitVec.ofNat 64 (2 ^ 63 + f.sticky.toNat * 2 ^ 43 + f.kind * 2 ^ 40 + f.lane * 2 ^ 35 + f.slot * 2 ^ 32 + f.addr.toNat)
  else BitVec.ofNat 64 (f.sticky.toNat * 2 ^ 43)

/-- FELRD (R321). -/
def execFelrd (f : FelrdF) (s : State) : Out :=
  slotOp (.felrd f) s fun wid w s =>
    let w1 := pushWin w (sWrite w.sup f.d.toNat (felWord w.fel)) 1
    setWave s wid (if f.clr then { w1 with fel := Fel.init } else w1)

/-- The empty bundle takes one issue cycle and its WAIT and does nothing (R51). -/
def execEmptyBundle (s : State) : Out :=
  match waveOf s s.cur.wid with
  | none => notEnabled
  | some _ => done s

end Sys2Proof.Machine
end

