-- ==== Sys2Proof/Machine/Sync.lean ====
section
/-! DEFINITION. Synchronising operations of the S slot (R214, R310, R322 to R324, R353, R355), the blocking waits they begin
(R40), and the events that end those waits (R36, R218, R254). -/

namespace Sys2Proof.Machine

/-- Begin a blocking wait of the bundle that issues (R40, R48). -/
def startWait (s : State) (wid : Nat) (w : Wave) (on : WaitOn) (rearm : Option Bool) : State :=
  setWave s wid { w with
    st := .waiting
    back := if w.st = .waiting then w.back else w.st
    wait := some {
      on := on
      here := s.cur.here
      next := s.cur.next
      sp := s.cur.sp
      mask := s.cur.mask
      rearm := rearm
      also := w.wait.map fun x => (x.on, x.rearm)
      since := ticks s } }

/-- End a blocking wait: the wave is back in the state in which the wait was issued (R48), or in the bundle's other wait. -/
def wakeW (w : Wave) : Wave :=
  match w.wait.bind fun x => x.also.map fun y => { x with on := y.1, rearm := y.2, also := none } with
  | some x => { w with wait := some x }
  | none => { w with st := w.back, wait := none }

/-- End a wait and acquire (R36, R37, R218). -/
def wakeAcquire (s : State) (wid : Nat) (w : Wave) : State := acquireOp (setWave s wid (wakeW w)) wid (wakeW w)

/-! ### Convoys -/

/-- The convoy-table entry that a membership slot names (R34): none when it is unbound. -/
def cvEntry (s : State) (w : Wave) (idx : Nat) : Option Nat :=
  match launchOf s w.lid with
  | none => none
  | some l =>
    match l.img.roles.find? fun r => r.role == w.role with
    | none => none
    | some r => if r.convoys.getD idx 0xFF = 0xFF then none else Tab.find l.cvmap (r.convoys.getD idx 0xFF)

/-- The wave as a member (R34). -/
def member (w : Wave) : Nat × Nat := (w.party, w.num)

/-- Whether a member's arrival in the current phase is recorded. -/
def hasArrived (c : Convoy) (m : Nat × Nat) : Bool := c.arrived.contains m || c.reported.contains m

/-- The wave's next acquire has read these releases. -/
def withSyncs (w : Wave) (l : List Sync) : Wave :=
  let m := l.filter fun x => x.by_.id != { lid := w.lid, party := w.party, num := w.num }
  if w.sup then { w with supSync := m ++ w.supSync } else { w with sync := m ++ w.sync }

/-- Record an arrival: a release at convoy scope whose target is the arrival (R310). -/
def arrive (s : State) (wid : Nat) (w : Wave) (entry : Nat) (c : Convoy) : State :=
  let s1 := release s wid w (.arrival entry (member w))
  { s1 with convoys := Tab.put s1.convoys entry { c with arrived := c.arrived ++ [member w] } }

/-- BAR (R310). -/
def execBar (f : BarF) (s : State) : Out :=
  slotOp (.bar f) s fun wid w s =>
    match cvEntry s w f.cv.toNat with
    | none => publish s (coreNo wid)
    | some e =>
      match Tab.find s.convoys e with
      | none => publish s (coreNo wid)
      | some c =>
        if hasArrived c (member w) then startWait s wid w (.bar e c.phase) (some f.arriveOnly)
        else
          let s1 := arrive s wid w e c
          if f.arriveOnly then s1 else startWait s1 wid w (.bar e c.phase) none

/-- Every member has reported or retired (R36). -/
def phaseFull (c : Convoy) : Bool := c.members.all fun m => c.reported.contains m || c.retired.contains m

/-- A wave that waited for a completed phase: past its BAR it acquires; a BAR that had still to arrive arrives in the next phase
(R310). -/
def barWake (s : State) (wid : Nat) (w : Wave) (e : Nat) : State :=
  match w.wait, Tab.find s.convoys e with
  | some x, some c =>
    match x.rearm with
    | none => wakeAcquire s wid (withSyncs w c.past)
    | some only =>
      let s1 := arrive s wid w e c
      if only then setWave s1 wid (wakeW w)
      else setWave s1 wid { w with wait := some { x with on := .bar e c.phase, rearm := none, since := ticks s } }
  | _, _ => s

/-- A wave's wait may end: one that stops stays in it (R275). -/
def mayEnd (w : Wave) : Bool := w.st == .waiting && w.stopping.isNone

/-- The waves that wait in a phase of an entry. -/
def barWaiters (s : State) (e phase : Nat) : List (Nat × Wave) :=
  s.waves.filter fun x => mayEnd x.2 && match x.2.wait with | some y => y.on == .bar e phase | none => false

/-- Waves that came back to a wait whose phase has completed meanwhile: from the handler, or resumed (R36, R195). -/
def lateWaiters (s : State) (e phase : Nat) : List (Nat × Wave) :=
  s.waves.filter fun x => mayEnd x.2 && match x.2.wait with
    | some y => (match y.on with | .bar f n => f == e && decide (n < phase) | _ => false)
    | none => false

/-- CONVOY_PHASE_COMPLETE (R36): the count reaches the member count, the phase advances, and every waiting member is released in
the same cycle. A wave that came back to a wait of an earlier phase is released too. -/
def execConvoyPhaseComplete (cv : Nat) (s : State) : Out :=
  match Tab.find s.convoys cv with
  | none => notEnabled
  | some c =>
    let late := lateWaiters s cv c.phase
    if !late.isEmpty then done (late.foldl (fun a x => barWake a x.1 x.2 cv) s)
    else if phaseFull c && (!c.reported.isEmpty || !(barWaiters s cv c.phase).isEmpty) then
      let ws := barWaiters s cv c.phase
      let s1 := { s with convoys := Tab.put s.convoys cv { c with phase := c.phase + 1, arrived := [], reported := [], past := c.syncs, syncs := [] } }
      done (ws.foldl (fun a x => barWake a x.1 x.2 cv) s1)
    else notEnabled

/-! ### FENCE and PHASE -/

/-- FENCE (R214, R322). -/
def execFence (f : FenceF) (s : State) : Out :=
  slotOp (.fence f) s fun wid w s =>
    if f.scope.isPlain then setWave s wid { w with fenceUpto := s.nextId }
    else
      let s1 := if releases f.ord || f.full then releaseAt s wid w .fence (if f.full then some f.scope else none) else s
      let s2 := if acquires f.ord || f.full then refresh s1 (coreNo wid) else s1
      if f.full then modWave s2 wid fun w => { w with fullUpto := some s.nextId } else s2

/-- PHASE (R355). -/
def execPhase (f : PhaseMode) (s : State) : Out :=
  slotOp (.phase f) s fun wid _ s =>
    match f with
    | .pub => publish s (coreNo wid)
    | .ref => refresh s (coreNo wid)
    | .full => refresh (publish s (coreNo wid)) (coreNo wid)

/-! ### Milestones and gates -/

/-- Counter of a context of the wave's party. -/
def msCount (s : State) (w : Wave) (ctx : Nat) : Nat :=
  match partyOf s w.lid w.party with
  | some p => (msOf p ctx).count
  | none => 0

/-- MWAIT (R353). -/
def execMwait (f : ScWait) (s : State) : Out :=
  slotOp (.mwait f) s fun wid w s =>
    let n := (scVal s w f.op).toNat
    if n ≤ msCount s w f.idx.toNat then acquireOp (waitCopies s (coreNo wid)) wid w else startWait s wid w (.mwait f.idx.toNat n) none

/-- The gate that an instruction of the wave names (R323). -/
def gateKey (s : State) (w : Wave) (idx : Nat) : Nat :=
  match launchOf s w.lid with
  | some l => 64 * queueOfLaunch l + idx
  | none => 0
def gateVal (s : State) (g : Nat) : Nat := (gateOf (queueOf s (g / 64)) (g % 64)).toNat

/-- A wave that waits for a gate which has reached its operand has still to be woken; a wave that stops is not. -/
def gateOwes (s : State) (g : Nat) : Bool :=
  s.waves.any fun e => mayEnd e.2 && match e.2.wait with
    | some x => (match x.on with | .gwait h n => h == g && decide (n ≤ gateVal s g) | _ => false)
    | none => false

/-- The GOPENs that have raised a gate, whose releases a GWAIT of it acquires (R37, R221). -/
def gateSyncs (s : State) (g : Nat) : List Sync := Tab.findD (queueOf s (g / 64)).opens (g % 64) []

/-- GWAIT (R324). -/
def execGwait (f : ScWait) (s : State) : Out :=
  slotOp (.gwait f) s fun wid w s =>
    let n := (scVal s w f.op).toNat % 2 ^ 32
    let g := gateKey s w f.idx.toNat
    if n ≤ gateVal s g then acquireOp s wid (withSyncs w (gateSyncs s g)) else startWait s wid w (.gwait g n) none

/-- GOPEN (R323): the gate is the target of the release. -/
def execGopen (f : ScWait) (s : State) : Out :=
  slotOp (.gopen f) s fun wid w s =>
    release s wid w (.gate (gateKey s w f.idx.toNat) ((scVal s w f.op).toNat % 2 ^ 32))

/-- GATE_WAIT_WAKE (R254, R324): the gate has reached the operand. -/
def execGateWaitWake (wid : Nat) (s : State) : Out :=
  match waveOf s wid with
  | none => notEnabled
  | some w =>
    match w.st, w.wait with
    | .waiting, some x =>
      (match x.on with
      | .gwait g n => if n ≤ gateVal s g ∧ mayEnd w then done (wakeAcquire s wid (withSyncs w (gateSyncs s g))) else notEnabled
      | _ => notEnabled)
    | _, _ => notEnabled

/-- The waves of a party that wait on a context for at most n. -/
def msWaiters (s : State) (lid p ctx n : Nat) : List (Nat × Wave) :=
  s.waves.filter fun x => x.2.lid == lid && x.2.party == p && mayEnd x.2 && match x.2.wait with
    | some y => (match y.on with | .mwait c m => c == ctx && m ≤ n | _ => false)
    | none => false

/-- Numbers that have completed next after a count (R148, R218): k are looked for. -/
def advanceMs : Nat → Ms → Ms
  | 0, m => m
  | k + 1, m => if m.done.contains (m.count + 1) then
      advanceMs k { m with count := m.count + 1, done := m.done.filter (· != m.count + 1) }
    else m

/-- Wake the waves whose number has been reached. -/
def wakeMs (s : State) (lid p ctx n : Nat) : State :=
  (msWaiters s lid p ctx n).foldl (fun a x => wakeAcquire (waitCopies a (coreNo x.1)) x.1 x.2) s

/-- MILESTONE_ADVANCE (R148, R218, R353): the counter passes every number that has completed in order; a wave that came back to a
wait whose number has been reached meanwhile is woken too (R40, R195). -/
def execMilestoneAdvance (party : Nat) (ctx : BitVec 3) (s : State) : Out :=
  match Tab.find s.parties party with
  | none => notEnabled
  | some p =>
    let m := msOf p ctx.toNat
    if m.done.contains (m.count + 1) then
      let m1 := advanceMs m.done.length m
      let s1 := { s with parties := Tab.put s.parties party { p with ms := Tab.put p.ms ctx.toNat m1 } }
      done (wakeMs s1 (party / 65536) (party % 65536) ctx.toNat m1.count)
    else if (msWaiters s (party / 65536) (party % 65536) ctx.toNat m.count).isEmpty then notEnabled
    else done (wakeMs s (party / 65536) (party % 65536) ctx.toNat m.count)

/-- Take the next number of a context (R148, R228). -/
def takeMs (s : State) (lid p ctx : Nat) : Nat × State :=
  match partyOf s lid p with
  | none => (0, s)
  | some x =>
    let m := msOf x ctx
    (m.taken + 1, setParty s lid p { x with ms := Tab.put x.ms ctx { m with taken := m.taken + 1 } })

/-- A number has completed (R218); the counter advances by its own event. -/
def finishMs (s : State) (lid p ctx n : Nat) : State :=
  modParty s lid p fun x =>
    let m := msOf x ctx
    { x with ms := Tab.put x.ms ctx { m with done := m.done ++ [n] } }

end Sys2Proof.Machine
end

