-- ==== Sys2Proof/Machine/MemOps.lean ====
section
/-! DEFINITION. Issue of the loads, stores, atomics and watches of the M slot (R338 to R354): each takes a sequence number (R193),
makes its local accesses at once (R208), and leaves its global accesses in flight for the events of Loads.lean and Stores.lean. -/

namespace Sys2Proof.Machine

/-! ### Uncorrectable errors (R205, R206) -/

/-- A read of bytes of DRAM meets a word with bad check bits: State.ecc lists words of 32 bytes. -/
def eccMem (s : State) (loc n : Nat) : Bool := s.ecc.any fun e => loc / 32 ≤ e && e * 32 < loc + n

/-- A line has a bad word of a size among n bytes from an address. -/
def lineBad (unit first : Nat) (x : CLine) (a n : Nat) : Bool := x.bad.any fun b => a < first + unit * (b + 1) && first + unit * b < a + n

/-- The line of L2 under a home line number (R18: near lines alone). -/
def l2Line (s : State) (n : Nat) : Option CLine :=
  if Config.farBase ≤ 128 * n then none else Tab.find (dieOf s (128 * n / Config.nearSize)).l2 n

/-- The words of 32 bytes of a home line that its line in L2 holds with bad check bits are met. -/
def l2Bad (s : State) (loc n : Nat) : Bool :=
  (linesOf loc n).any fun k => match l2Line s k with | some x => lineBad 32 (128 * k) x loc n | none => false

/-- A read of n bytes at their home meets an uncorrectable error, in memory or in L2. -/
def eccHit (s : State) (loc n : Nat) : Bool := eccMem s loc n || l2Bad s loc n

/-- The words that a cache tagged by virtual address holds with bad check bits are met: words of 8 bytes in L1, of 32 in the RDC. -/
def tagBad (unit : Nat) (l : List CLine) (asid va n : Nat) : Bool := l.any fun x => x.asid == asid && lineBad unit (128 * x.line) x va n
/-- The same of the scratchpad of a core: State.eccPad lists words of 8 bytes under 65536 × core + word. -/
def eccPadHit (s : State) (core a n : Nat) : Bool := s.eccPad.any fun e => e / 65536 == core && a / 8 ≤ e % 65536 && e % 65536 * 8 < a + n

/-- Spans (first byte, length) together cover n bytes. -/
def covers (spans : List (Nat × Nat)) (a n : Nat) : Bool := (List.range n).all fun i => spans.any fun x => x.1 ≤ a + i && a + i < x.1 + x.2

/-- A line without the bad words that spans of its address cover whole (R206). -/
def cleanLine (unit first : Nat) (spans : List (Nat × Nat)) (x : CLine) : CLine :=
  if x.bad.isEmpty then x else { x with bad := x.bad.filter fun b => !covers spans (first + unit * b) unit }

/-- A store of whole words clears their errors, in memory and in L2; the spans are those of one store (R206). -/
def eccClearAll (s : State) (spans : List (Nat × Nat)) : State :=
  { s with
    ecc := s.ecc.filter fun e => !covers spans (32 * e) 32
    dies := s.dies.map fun d => (d.1, { d.2 with l2 := d.2.l2.map fun x => (x.1, cleanLine 32 (128 * x.1) spans x.2) }) }

def eccClear (s : State) (loc n : Nat) : State := eccClearAll s [(loc, n)]

/-- The same of a scratchpad. -/
def eccPadClearAll (s : State) (core : Nat) (spans : List (Nat × Nat)) : State :=
  { s with eccPad := s.eccPad.filter fun e => !(e / 65536 == core && covers spans (8 * (e % 65536)) 8) }

def eccPadClear (s : State) (core a n : Nat) : State := eccPadClearAll s core [(a, n)]

/-- A plain store clears the bad words of the core's L1 that it overwrites whole (R206). -/
def eccL1Clear (s : State) (core asid : Nat) (spans : List (Nat × Nat)) : State :=
  modCore s core fun c => { c with l1 := c.l1.map fun x => if x.asid == asid then cleanLine 8 (128 * x.line) spans x else x }

/-- The data-error trap of an instruction of a wave (R205). -/
def dataError (s : State) (wid : Nat) (addr : Word) : State :=
  match waveOf s wid with
  | some w => killWave s wid w 0x0D addr 0
  | none => s

/-! ### Pieces -/

/-- A lane's access to a segment: its home location is known at once where the segment is not pageable (R182). -/
def mkPiece (s : State) (wid : Nat) (w : Wave) (r : MReq) (data cmp : Nat → List Byte) (x : Nat × Int) : Piece :=
  let g := segOf s wid w r.seg
  { lane := x.1
    va := ((g.base : Int) + x.2).toNat
    size := r.size
    pa := if segPage g then none else some (homeLoc (segFar g) (dieNo wid) ((g.pbase : Int) + x.2).toNat)
    fault := none, data := data x.1, cmp := cmp x.1, val := [], done := false }

/-- The access of a request, before the fields that particular kinds set. -/
def baseAcc (s : State) (wid : Nat) (w : Wave) (r : MReq) (kind : AKind) (ps : List Piece) (dest : Dest) (ret : Bool) : Acc :=
  let g := segOf s wid w r.seg
  { wid := wid, sup := w.sup, loc := r.loc, lid := w.lid, core := coreNo wid, party := w.party, num := w.num, asid := asidOf s w, kind := kind,
    addr := s.cur.here, slot := 5, opcode := r.opcode, seg := r.seg, widCode := r.widc, scope := r.scope, ord := r.ord, seq := w.seq + 1,
    far := segFar g, pageable := !r.loc && segPage g, direct := segAlias g, l1 := false, sent := false, cls := segClass g, pieces := ps, dest := dest, ret := ret,
    epoch := none, rel := none, view := { clock := [], low := [] }, born := s.commits, asdt := if s.tren then some s.trbase else none, resolved := r.loc || !segPage g, held := false, unrecorded := false, watch := 0, deadline := 0,
    ms := none, step := 0, accepted := false }

/-- Every issued M operation but MPREF and MFLUSH takes the next sequence number: the first takes 1 (R193, log 24). -/
def nextSeq (w : Wave) : Wave := { w with seq := w.seq + 1 }

/-- Put an access in flight, with its scoreboard marks and its toll (R242). -/
def addAcc (s : State) (wid : Nat) (w : Wave) (a : Acc) (regs : List Reg) (bytes : Nat) : State :=
  let s1 := setWave { s with acc := Tab.put s.acc s.nextId a, nextId := s.nextId + 1 } wid (addBusy w s.nextId regs)
  if a.far && !a.loc then tollDebit s1 wid w true bytes else s1

/-- The release half of an access: its publication starts and its target is the access (R215, R217). -/
def relAcc (s : State) (wid : Nat) (w : Wave) (id : Nat) : State :=
  let rel := s.nextId
  let s1 := release s wid w (.access id)
  match accOf s1 id with
  | some a => setAcc s1 id { a with rel := some rel, view := viewOf s (coreNo wid) }
  | none => s1

/-- The instruction lets its lines stand in L1 (R340, R349, R352). -/
def usesL1 (i : Instr) : Bool :=
  match i with
  | .mld f => f.h.hint != .bypassL1
  | .mldStride f => f.h.hint != .bypassL1
  | .mldu f => f.h.hint != .bypassL1
  | .mst f => f.h.hint != .bypassL1
  | .mstStride f => f.h.hint != .bypassL1
  | .mstu f => f.h.hint != .bypassL1
  | _ => false

/-- A launch's demand access meets lines that it had prefetched: the prefetch has arrived, is still in flight, or has been dropped or
evicted; free (R295, log 21). -/
def prefHit (s : State) (core lid : Nat) (lines : List Nat) : State :=
  if lines.any fun n => (shareOf s core lid).pfLines.contains n then
    modShare s core lid fun x => (x.pfLines.filter fun n => lines.contains n).foldl (fun y n =>
      match pick s (50000 + n) 3 with
      | 0 => { y with pfuseful := y.pfuseful + 1, pfLines := y.pfLines.filter (· != n) }
      | 1 => { y with pflate := y.pflate + 1 }
      | _ => { y with pfLines := y.pfLines.filter (· != n) }) x
  else s

/-- A plain store to far memory leaves L1 at once while any GiB is in host bias: no L1 holds a line of one (R193, R298). -/
def leavesL1 (s : State) (a : Acc) : Bool := a.far && !a.loc && a.scope.isPlain && isStore a.kind && !(s.bias.isEmpty && s.biasWait.isEmpty)

/-- A plain store enters its core's write set: its lines stand in L1, and whole words that it overwrites there are good again. -/
def enterL1 (s : State) (a : Acc) : State :=
  if a.kind == .store && a.scope.isPlain && !a.direct then
    let s1 := if a.l1 && !a.sent then a.pieces.foldl (fun t p => holdL1 t a.core a.asid p.va p.size) s else s
    eccL1Clear s1 a.core a.asid (a.pieces.map fun p => (p.va, p.size))
  else s

/-- Issue a global access (R349, R352, R343, R344): with no active lane only its publication, release and acquire remain. -/
def issueAcc (i : Instr) (s : State) (wid : Nat) (w : Wave) (r : MReq) (kind : AKind) (data cmp : Nat → List Byte) (dest : Dest)
    (ret : Bool) : State :=
  let w1 := nextSeq w
  if r.lanes.isEmpty then
    let s1 := setWave s wid w1
    let s2 := if releases r.ord then release s1 wid w1 .fence else s1
    if acquires r.ord then acquireOp s2 wid w1 else s2
  else
    let b := baseAcc s wid w r kind ((spansOf r).map (mkPiece s wid w r data cmp)) dest ret
    let a := { b with l1 := usesL1 i && r.scope.isPlain && !segAlias (segOf s wid w r.seg), sent := leavesL1 s b }
    let w2 := if acquires r.ord then wantAcquire w1 (s.nextId + 1) else w1
    let s0 := addAcc s wid w2 a ((writesOf i).map (viewReg w.sup)) (reqBytes r)
    let s1 := if isStore kind then prefHit (enterL1 s0 a) a.core a.lid (pieceLines a.pieces) else s0
    if releases r.ord then relAcc s1 wid w2 s.nextId else s1

/-- A body over the request of the instruction. -/
def withReq (i : Instr) (f : MReq → Nat → Wave → State → State) (wid : Nat) (w : Wave) (s : State) : State :=
  match memReq i s w with
  | some r => f r wid w s
  | none => s

def noBytes (_ : Nat) : List Byte := []

/-! ### Data (R339) -/

/-- Per-lane data of a width from register n on. -/
def vecData (s : State) (w : Wave) (cl : Cluster) (n : Nat) (wd : Wid) (lane : Nat) : List Byte :=
  laneData ((dataRegs wd n).map fun q => rdV s w (tagOf 5 (8 + q)) cl q) wd lane
/-- Uniform data. -/
def uniData (s : State) (w : Wave) (n : Nat) (wd : Wid) (_ : Nat) : List Byte :=
  (leBytes 8 (rdS s w (tagOf 5 (8 + n)) n).toNat).take (widBytes wd)

/-! ### Global loads and stores -/

/-- MLD (R349). -/
def execMld (f : MAcc) (s : State) : Out :=
  slotOp (.mld f) s (withReq (.mld f) fun r wid w s =>
    issueAcc (.mld f) s wid w r .load noBytes noBytes (.lanes f.dc f.d.toNat f.wid) true)
/-- MLD.stride (R349). -/
def execMldStride (f : MStr) (s : State) : Out :=
  slotOp (.mldStride f) s (withReq (.mldStride f) fun r wid w s =>
    issueAcc (.mldStride f) s wid w r .load noBytes noBytes (.lanes f.dc f.d.toNat f.wid) true)
/-- MLDU (R349). -/
def execMldu (f : MUni) (s : State) : Out :=
  slotOp (.mldu f) s (withReq (.mldu f) fun r wid w s =>
    issueAcc (.mldu f) s wid w r .load noBytes noBytes (.uni f.d.toNat w.sup f.wid) true)
/-- MST (R352). -/
def execMst (f : MAcc) (s : State) : Out :=
  slotOp (.mst f) s (withReq (.mst f) fun r wid w s =>
    issueAcc (.mst f) s wid w r .store (vecData s w f.dc f.d.toNat f.wid) noBytes .none false)
/-- MST.stride (R352). -/
def execMstStride (f : MStr) (s : State) : Out :=
  slotOp (.mstStride f) s (withReq (.mstStride f) fun r wid w s =>
    issueAcc (.mstStride f) s wid w r .store (vecData s w f.dc f.d.toNat f.wid) noBytes .none false)
/-- MSTU (R352). -/
def execMstu (f : MUni) (s : State) : Out :=
  slotOp (.mstu f) s (withReq (.mstu f) fun r wid w s =>
    issueAcc (.mstu f) s wid w r .store (uniData s w f.d.toNat f.wid) noBytes .none false)

/-! ### Local loads and stores -/

/-- The scratchpad address of a lane's access. -/
def padAddr (s : State) (wid : Nat) (w : Wave) (off : Int) : Nat := regionBase s wid w + off.toNat

/-- A local load takes its bytes at issue (R208); they reach the scoreboarded destination by LOAD_RETURN. -/
def localLoad (i : Instr) (dest : Dest) (r : MReq) (wid : Nat) (w : Wave) (s : State) : State :=
  if r.lanes.isEmpty then setWave s wid (nextSeq w)
  else if (spansOf r).any fun x => eccPadHit s (coreNo wid) (padAddr s wid w x.2) r.size then killWave s wid w 0x0D s.cur.here 0
  else
    let ps := (spansOf r).map fun x =>
      ({ lane := x.1, va := padAddr s wid w x.2, size := r.size, pa := none, fault := none, data := [], cmp := [],
         val := padBytes s (coreNo wid) (padAddr s wid w x.2) r.size, done := true } : Piece)
    addAcc s wid (nextSeq w) (baseAcc s wid w r .load ps dest true) ((writesOf i).map (viewReg w.sup)) 0

/-- Local stores in ascending lane order (R340). -/
def padStores (s : State) (core base : Nat) (data : Nat → List Byte) : List (Nat × Int) → State
  | [] => s
  | x :: t => padStores (padWrite s core (base + x.2.toNat) (data x.1)) core base data t

/-- A local store; the ECC words that its lanes together overwrite whole are good again (R206). -/
def localStore (data : Nat → List Byte) (r : MReq) (wid : Nat) (w : Wave) (s : State) : State :=
  let base := regionBase s wid w
  setWave (eccPadClearAll (padStores s (coreNo wid) base data (spansOf r)) (coreNo wid) ((spansOf r).map fun x => (base + x.2.toNat, r.size)))
    wid (nextSeq w)

/-- MLDL (R349). -/
def execMldl (f : MLoc) (s : State) : Out :=
  slotOp (.mldl f) s (withReq (.mldl f) (localLoad (.mldl f) (.lanes f.dc f.d.toNat f.wid)))
/-- MLDL.stride (R349). -/
def execMldlStride (f : MLocStr) (s : State) : Out :=
  slotOp (.mldlStride f) s (withReq (.mldlStride f) (localLoad (.mldlStride f) (.lanes f.dc f.d.toNat f.wid)))
/-- MSTL (R352). -/
def execMstl (f : MLoc) (s : State) : Out :=
  slotOp (.mstl f) s (withReq (.mstl f) fun r wid w s => localStore (vecData s w f.dc f.d.toNat f.wid) r wid w s)
/-- MSTL.stride (R352). -/
def execMstlStride (f : MLocStr) (s : State) : Out :=
  slotOp (.mstlStride f) s (withReq (.mstlStride f) fun r wid w s => localStore (vecData s w f.dc f.d.toNat f.wid) r wid w s)

/-! ### Atomics and watches -/

/-- Datum n of an atomic: registers D + n onward, by its data class (R339, R344). -/
def atomData (s : State) (w : Wave) (dc : DCls) (d : BitVec 6) (wide : Bool) (n : Nat) (lane : Nat) : List Byte :=
  match dc with
  | .A => vecData s w .A (d.toNat + n * (if wide then 2 else 1)) (wordWid wide) lane
  | .B => vecData s w .B (d.toNat + n * (if wide then 2 else 1)) (wordWid wide) lane
  | .s => uniData s w (d.toNat + n) (wordWid wide) lane

/-- Where an atomic returns the old value. -/
def atomDest (w : Wave) (dc : DCls) (d : BitVec 6) (wide : Bool) : Dest :=
  match dc with
  | .A => .lanes .A d.toNat (wordWid wide)
  | .B => .lanes .B d.toNat (wordWid wide)
  | .s => .uni d.toNat w.sup (wordWid wide)

/-- MATOM (R343). -/
def execMatom (f : MAtomF) (s : State) : Out :=
  slotOp (.matom f) s (withReq (.matom f) fun r wid w s =>
    issueAcc (.matom f) s wid w r (.atomic f.op) (atomData s w f.dc f.d f.wide 0) noBytes
      (if f.ret then atomDest w f.dc f.d f.wide else .none) f.ret)
/-- MCAS: the comparand and then the new value (R344). -/
def execMcas (f : MCasF) (s : State) : Out :=
  slotOp (.mcas f) s (withReq (.mcas f) fun r wid w s =>
    issueAcc (.mcas f) s wid w r .cas (atomData s w f.dc f.d f.wide 1) (atomData s w f.dc f.d f.wide 0) (atomDest w f.dc f.d f.wide) true)

/-- MWATCH: the wave is in the wait from issue on (R354, R40). -/
def execMwatch (f : MWatchF) (s : State) : Out :=
  slotOp (.mwatch f) s (withReq (.mwatch f) fun r wid w s =>
    if r.lanes.isEmpty then
      let w1 := nextSeq w
      if f.acq then acquireOp s wid w1 else setWave s wid w1
    else
      let e := (rdS s w (tagOf 5 8) f.d.toNat)
      let t := (rdS s w (tagOf 5 9) (f.d.toNat + 1)).toNat % 2 ^ 32
      let a := baseAcc s wid w r .watch ((spansOf r).map (mkPiece s wid w r noBytes noBytes)) (.uni f.d.toNat w.sup (wordWid f.wide)) true
      let w1 := nextSeq w
      let w2 := if f.acq then wantAcquire w1 (s.nextId + 1) else w1
      let s1 := addAcc s wid w2 { a with watch := e, deadline := ticks s + t } ((writesOf (.mwatch f)).map (viewReg w.sup)) (reqBytes r)
      match waveOf s1 wid with
      | some w3 => startWait s1 wid w3 (.mwatch s.nextId) none
      | none => s1)

end Sys2Proof.Machine
end

