-- ==== Sys2Proof/Machine/Xlate.lean ====
section
/-! DEFINITION. Translation at the home controllers: the address-space descriptor table and the page walk (R184 to R186), the
translation caches (R192), the attribute TLB's filling (R188), and the fault records of accesses that fail (R199 to R201). -/

namespace Sys2Proof.Machine

/-! ### Walks (R184 to R186) -/

/-- What a translation finds: a page, a cause of R200, or an uncorrectable error in table memory (R205). -/
inductive Tr where
  | page (e : XEntry)
  | bad (cause : Nat)
  | ecc
  deriving DecidableEq, Repr

/-- n bytes at an offset of a byte list, as a number. -/
def fieldAt (bs : List Byte) (o n : Nat) : Nat := leNat ((bs.drop o).take n)

/-- A strong store of a wave that a FENCE.full of it covers, at scopes that R187 asks for: die or wider for near memory, device or wider for
far memory. -/
def fencedBy (r : Rel) (me : WaveId) (c : Commit) : Bool :=
  let wide := fun (x : Option Scope) => match x with
    | some .die => decide (c.loc < Config.farBase)
    | some .device => true
    | some .system => true
    | _ => false
  wide r.full && wide c.org.strong && decide (c.org.op < r.before) && match c.org.by_ with | some p => p.id == me | none => false

/-- A wave's FENCE.full that covers a store is complete, but for what waits in its handler (log 45). -/
def fenceOver (s : State) (c : Commit) : Bool :=
  s.waves.any fun e => match e.2.fullUpto.bind (Tab.find s.rels) with
    | some r => fencedBy r { lid := e.2.lid, party := e.2.party, num := e.2.num } c && handlerFenceDone s r
    | none => false

/-- A committed store stands in the memory that a walker reads, past every cache (R186): one of the host or the device, one that a
FENCE.full covers (R187), and a near one whose line has left L2 or has been written back since. Of any other store a walk may or may
not see the bytes (DESIGN CHOICE, log 60). -/
def inDram (s : State) (c : Commit) : Bool :=
  c.org.by_.isNone || c.fenced ||
    (decide (c.loc < Config.farBase) && match l2Line s (c.loc / 128) with | some x => decide (c.seq ≤ x.back) | none => true) ||
    fenceOver s c

/-- When a walk reads table memory: at a moment `cut` for the stores that it may or may not see, or as memory stood at a past commit. -/
structure WalkAt where
  cut : Nat
  past : Bool
  deriving DecidableEq, Repr

/-- n bytes of table memory as a walk reads them. -/
def walkBytes (s : State) (m : WalkAt) (loc n : Nat) : List Byte :=
  let h := s.hist.filter fun c => decide (loc ≤ c.loc ∧ c.loc < loc + n) && (!m.past || decide (m.cut < c.seq))
  if h.isEmpty || (!m.past && h.all (inDram s)) then devBytes s loc n
  else
    (List.range n).map fun i =>
      let mine := h.filter fun c => c.loc == loc + i
      let floor := if m.past then 0 else ((mine.find? (inDram s)).map (·.seq)).getD 0
      valueAt mine (loc + i) (max m.cut floor) (devByte s (loc + i))

/-- n bytes of table memory, little-endian, at a home-relative address. -/
def tableNat (s : State) (m : WalkAt) (far : Bool) (die a n : Nat) : Nat := leNat (walkBytes s m (homeLoc far die a) n)

/-- A location as the commits that count last wrote it: the others are undone. -/
def valueOf (counts : Commit → Bool) (loc : Nat) : List Commit → Byte → Byte
  | [], v => v
  | c :: t, v => if c.loc ≠ loc then valueOf counts loc t v else if counts c then c.new else valueOf counts loc t c.old

/-- The ASDT entry of an ASID (R184), in an ASDT at a base. Only the physical function writes it: a kernel that reaches it through a window
which the host should have kept off it, or what the device writes for a virtual function (packets' results, fault records), leaves every
translation unaffected (R5; DESIGN CHOICE, log 60). -/
def asdtAt (s : State) (base : Nat) (m : WalkAt) (asid : Nat) : List Byte :=
  let loc := Config.farBase + base + 128 * asid
  let counts := fun (c : Commit) => c.org.host && (!m.past || decide (c.seq ≤ m.cut))
  let h := s.hist.filter fun c => decide (loc ≤ c.loc ∧ c.loc < loc + 128)
  if h.all counts then devBytes s loc 128
  else (List.range 128).map fun i => valueOf counts (loc + i) h (devByte s (loc + i))
def asdtLoc (s : State) (asid : Nat) : Nat := Config.farBase + s.trbase + 128 * asid
def asdtEntry (s : State) (asid : Nat) : List Byte := asdtAt s s.trbase { cut := s.commits, past := false } asid
/-- The window of a home: base and size. -/
def windowOf (far : Bool) (e : List Byte) : Nat × Nat :=
  if far then (fieldAt e 80 8, fieldAt e 88 8) else (fieldAt e 96 8, fieldAt e 104 8)
def rootOf (far : Bool) (die : Nat) (e : List Byte) : Nat := if far then fieldAt e 0 8 else fieldAt e (8 + 8 * die) 8
/-- The owner of an ASDT entry. -/
def asdtVf (e : List Byte) : Nat := fieldAt e 72 1
/-- The VALID flag of an ASDT entry. FLAGS [7:1] and the entry's zero bytes are ignored, whatever they hold (DESIGN CHOICE, log 60). -/
def asdtValid (e : List Byte) : Bool := fieldAt e 73 1 % 2 == 1

def inWindow (w : Nat × Nat) (a n : Nat) : Bool := w.1 ≤ a && a + n ≤ w.1 + w.2
/-- An address range of a home that a walk may reach: in the window, and in the home's memory (R17, R177, R184). -/
def inHome (far : Bool) (w : Nat × Nat) (a n : Nat) : Bool := inWindow w a n && decide (a + n ≤ homeSize far)

/-- Page-table entry fields (R185). -/
def pteV (e : Nat) : Bool := e % 2 == 1
def pteR (e : Nat) : Bool := e / 2 % 2 == 1
def pteW (e : Nat) : Bool := e / 4 % 2 == 1
def pteLeaf (e : Nat) : Bool := e / 8 % 2 == 1
def pteSz (e : Nat) : Nat := e / 16 % 8
def pteAddr (e : Nat) : Nat := e % 2 ^ 48 / 4096 * 4096
/-- The zero fields are zero. -/
def pteZero (e : Nat) : Bool := e / 2 ^ 48 == 0 && e / 2 ^ 7 % 32 == 0
/-- A table entry has RD, W and SZ zero. -/
def pteTable (e : Nat) : Bool := e / 2 % 4 == 0 && pteSz e == 0

/-- Leaf sizes allowed at a level (R186). -/
def szOk (lvl sz : Nat) : Bool := if lvl = 2 then sz == 4 || sz == 5 else if lvl = 1 then sz == 2 || sz == 3 else lvl == 0 && sz ≤ 1

/-- A read of table memory meets an error (R205); what is found of a past moment had none, since a write-back never faults (R189). -/
def walkEcc (s : State) (m : WalkAt) (loc n : Nat) : Bool := !m.past && eccMem s loc n

/-- A leaf: the frame of its page, checked as a run where its class is one (R186). -/
def leafPage (s : State) (m : WalkAt) (far : Bool) (die asid va table idx e : Nat) (win : Nat × Nat) : Tr :=
  let sz := pteSz e
  let size := classSize sz
  let first := table + 8 * (idx / 16 * 16)
  let step := size / 16
  let frame := if sz % 2 = 1 then pteAddr (tableNat s m far die first 8) else pteAddr e
  let runOk := (List.range 16).all fun i =>
    let x := tableNat s m far die (first + 8 * i) 8
    pteZero x && x % 128 == e % 128 && pteAddr x == frame + i * step
  if sz % 2 = 1 ∧ walkEcc s m (homeLoc far die first) 128 then .ecc
  else if sz % 2 = 1 ∧ !runOk then .bad 5
  else if frame % size ≠ 0 ∨ !inHome far win frame size then .bad 5
  else .page { asid := asid, page := va / size, cls := sz, frame := frame, r := pteR e, w := pteW e }

/-- The levels still to walk, from a table. -/
def walkGo (s : State) (m : WalkAt) (far : Bool) (die asid va : Nat) (win : Nat × Nat) : List Nat → Nat → Tr
  | [], _ => .bad 5
  | lvl :: rest, table =>
    let idx := va / 2 ^ (12 + 9 * lvl) % 512
    let e := tableNat s m far die (table + 8 * idx) 8
    if table % 4096 ≠ 0 ∨ !inHome far win table 4096 then .bad 5
    else if walkEcc s m (homeLoc far die (table + 8 * idx)) 8 then .ecc
    else if !pteV e then .bad 1
    else if !pteZero e ∨ (lvl = 3 ∧ pteLeaf e) ∨ (lvl = 0 ∧ !pteLeaf e) then .bad 5
    else if pteLeaf e then
      if szOk lvl (pteSz e) then leafPage s m far die asid va table idx e win else .bad 5
    else if pteTable e then walkGo s m far die asid va win rest (pteAddr e)
    else .bad 5

/-- The base of the ASDT; none while TRBASE.EN is 0 (R184). -/
def asdtBase (s : State) : Option Nat := if s.tren then some s.trbase else none

/-- The walk of a home controller (R186) from an ASDT, up to the page: size and rights are checked by its users. -/
def walkFrom (s : State) (base : Option Nat) (m : WalkAt) (far : Bool) (die asid va : Nat) : Tr :=
  match base with
  | none => .bad 6
  | some b =>
    if walkEcc s m (Config.farBase + b + 128 * asid) 128 then .ecc
    else
      let e := asdtAt s b m asid
      if !asdtValid e then .bad 6 else walkGo s m far die asid va (windowOf far e) [3, 2, 1, 0] (rootOf far die e)

def walkWith (s : State) (m : WalkAt) (far : Bool) (die asid va : Nat) : Tr := walkFrom s (asdtBase s) m far die asid va

/-- A walk now: one moment for all its reads, so that it finds the old entries or the new ones (R187). -/
def walk (s : State) (far : Bool) (die asid va : Nat) : Tr :=
  walkWith s { cut := s.commits - pick s (6500000 + va / 4096) (s.commits + 1), past := false } far die asid va

/-- The words of 32 bytes with bad check bits that n bytes of DRAM meet. -/
def badAt (s : State) (loc n : Nat) : List Nat := s.ecc.filter fun e => loc / 32 ≤ e && e * 32 < loc + n

def walkBadGo (s : State) (far : Bool) (die va : Nat) : List Nat → Nat → List Nat
  | [], _ => []
  | lvl :: rest, table =>
    let idx := va / 2 ^ (12 + 9 * lvl) % 512
    let ws := badAt s (homeLoc far die (table + 8 * idx)) 8
    let e := tableNat s { cut := s.commits, past := false } far die (table + 8 * idx) 8
    if !ws.isEmpty then ws
    else if pteV e && !pteLeaf e then walkBadGo s far die va rest (pteAddr e)
    else badAt s (homeLoc far die (table + 8 * (idx / 16 * 16))) 128

/-- The bad words that stop a walk (R205, R206). -/
def walkWords (s : State) (far : Bool) (die asid va : Nat) : List Nat :=
  let ws := badAt s (asdtLoc s asid) 128
  if ws.isEmpty then walkBadGo s far die va [3, 2, 1, 0] (rootOf far die (asdtEntry s asid)) else ws

/-! ### Translation caches (R192) -/

/-- Controller n of a home: n = VA[16:12] (R178). -/
def ctlOf (va : Nat) : Nat := va / 4096 % 32

def xcache (s : State) (far : Bool) (die n : Nat) : List XEntry :=
  if far then Tab.findD s.feXlat n [] else Tab.findD (dieOf s die).xlat n []
def setXcache (s : State) (far : Bool) (die n : Nat) (l : List XEntry) : State :=
  if far then { s with feXlat := Tab.put s.feXlat n l } else modDie s die fun d => { d with xlat := Tab.put d.xlat n l }

/-- The entry that a virtual address hits. -/
def xhit (l : List XEntry) (asid va : Nat) : Option XEntry := l.find? fun e => e.asid == asid && va / classSize e.cls == e.page

/-- The checks of an access through a segment on a page (R186): class, then rights; without a class only the rights. -/
def pageCause (e : XEntry) (cls : Option Nat) (rd wr : Bool) : Option Nat :=
  if (match cls with | some c => c != e.cls | none => false) then some 4
  else if rd && !e.r then some 2
  else if wr && !e.w then some 3
  else none

/-- Translate at the home controller: a hit becomes the most recently used entry, a miss walks, and a walk that succeeds, with the class and
the rights that the access needs, fills (R186, R192). -/
def translate (s : State) (far : Bool) (die asid va : Nat) (cls : Option Nat) (rd wr : Bool) : Tr × State :=
  let n := ctlOf va
  let l := xcache s far die n
  match xhit l asid va with
  | some e => (.page e, setXcache s far die n (e :: l.filter (· != e)))
  | none =>
    match walk s far die asid va with
    | .page e => (.page e, if (pageCause e cls rd wr).isNone then setXcache s far die n ((e :: l).take Config.xlatEntries) else s)
    | r => (r, s)

/-- The device location of a virtual address on a page. -/
def pageLoc (far : Bool) (die : Nat) (e : XEntry) (va : Nat) : Nat := homeLoc far die (e.frame + va % classSize e.cls)

/-- The place of a store's byte by the translation that stood when its data was stored, with the right to write (R189). -/
def backLoc (s : State) (a : Acc) (va : Nat) : Option Nat :=
  match walkFrom s a.asdt { cut := a.born, past := true } a.far (dieOfCore a.core) a.asid va with
  | .page e => if (pageCause e (some a.cls) false true).isNone then some (pageLoc a.far (dieOfCore a.core) e va) else none
  | _ => none

/-- Fill the attribute TLB of a core from a successful translation (R188); an entry may be dropped at any time (R188), which
reads of it allow for. -/
def fillAtlb (s : State) (core : Nat) (e : XEntry) : State :=
  modCore s core fun c =>
    let x : AEntry := { asid := e.asid, page := e.page, cls := e.cls, r := e.r, w := e.w }
    { c with atlb := (x :: c.atlb.filter fun y => !(y.asid == x.asid && y.page == x.page && y.cls == x.cls)).take Config.atlbEntries }

/-! ### Accesses -/

def accRd (k : AKind) : Bool := match k with | .store => false | .tstore => false | _ => true
def accWr (k : AKind) : Bool := match k with | .store => true | .tstore => true | .atomic _ => true | .cas => true | _ => false

/-- What became of an address of an access. -/
inductive Looked where
  | at_ (loc : Nat)
  | fault (cause : Nat)
  | ecc
  deriving DecidableEq, Repr

/-- Translate an address for a core's access through a segment of a class; while TRBASE.EN is 0 every one faults (R184). -/
def lookAt (s : State) (core : Nat) (far : Bool) (asid cls : Nat) (rd wr : Bool) (va : Nat) : Looked × State :=
  let die := dieOfCore core
  let t := if s.tren then translate s far die asid va (some cls) rd wr else (.bad 6, s)
  match t.1 with
  | .ecc => (.ecc, t.2)
  | .bad c => (.fault c, t.2)
  | .page e =>
    match pageCause e (some cls) rd wr with
    | some c => (.fault c, t.2)
    | none => (.at_ (pageLoc far die e va), fillAtlb t.2 core e)

/-- An earlier store of the wave to the line is held, or has still to be translated (R193, R194). -/
def lineHeld (s : State) (id : Nat) (a : Acc) (stores : Bool) (p : Piece) : Bool :=
  s.acc.any fun e => e.1 < id && e.2.wid == a.wid && e.2.asid == a.asid && (e.2.kind == .store || e.2.kind == .tstore) &&
    (e.2.held || (stores && !e.2.resolved)) &&
    e.2.pieces.any fun q => (inHeld e.2 q || (stores && unlooked q)) && sameLine p q

/-- Translate the pieces of one 4 KiB region, or of every region (none), that nothing holds back: the pieces, the state, and whether an
uncorrectable error was met. A plain load needs its own translation, and faults on an absent page, also where a sibling's untranslated store
in the core's write set covers it (R194 lets it take the bytes; DESIGN CHOICE, log 70). -/
def lookPieces (s : State) (id : Nat) (a : Acc) (region : Option Nat) : List Piece → List Piece × State × Bool
  | [] => ([], s, false)
  | p :: t =>
    if unlooked p && (match region with | some r => p.va / 4096 == r | none => true) && !lineHeld s id a (a.kind == .store || a.kind == .tstore) p then
      let x := lookAt s a.core a.far a.asid a.cls (accRd a.kind) (accWr a.kind) p.va
      let r := lookPieces x.2 id a region t
      match x.1 with
      | .at_ loc => ({ p with pa := some loc } :: r.1, r.2.1, r.2.2)
      | .fault c => ({ p with fault := some c } :: r.1, r.2.1, r.2.2)
      | .ecc => (p :: r.1, r.2.1, true)
    else
      let r := lookPieces s id a region t
      (p :: r.1, r.2.1, r.2.2)

/-! ### Records of failing accesses (R199, R201) -/

/-- CLASS of an access's record (R199). -/
def accClass (k : AKind) : Nat :=
  match k with
  | .load => 0 | .watch => 0 | .store => 1 | .atomic _ => 2 | .cas => 2 | .tload => 3 | .tstore => 3

/-- The page number of a piece in its segment's class. -/
def piecePage (a : Acc) (p : Piece) : Nat := p.va / classSize a.cls

/-- The virtual address of a record (R199). -/
def recVa (r : FRec) : Nat := r.bits.toNat / 2 ^ 64 % 2 ^ 48

/-- Whether a queued record stands for a failing piece. -/
def hasRecord (w : Wave) (id : Nat) (a : Acc) (p : Piece) : Bool :=
  w.recs.any fun e => e.2.acc == id && !e.2.copy && recVa e.2 / classSize a.cls == piecePage a p

/-- The pieces of a TLDO with their rows, of 32 bytes each (R161); n bytes stand before them. -/
def ldoRows : List Piece → Nat → List (Nat × Piece)
  | [], _ => []
  | p :: t, n => (n / 32, p) :: ldoRows t (n + p.size)

/-- The step that an access had reached when a piece failed (R161, R369). -/
def failStep (a : Acc) (ps : List Piece) : Nat :=
  match a.dest, ps with
  | .tldo _, p :: _ => (((ldoRows a.pieces 0).find? fun x => x.2 == p).map (·.1)).getD a.step
  | _, _ => a.step

/-- The record of the failing pieces of one page, in lane order; tiles give their lowest address (R199). The late-fault entry
number is free among 4,096; the entries counted are the record's lines, and all its lines for a tile, which is held whole (log 48). -/
def accRecord (s : State) (id : Nat) (a : Acc) (ps : List Piece) (again : Bool) : FRec :=
  let lane := match ps with | p :: _ => p.lane | [] => 31
  let va := match ps with
    | [] => 0
    | p :: t => if a.slot = 6 then t.foldl (fun m q => min m q.va) p.va else p.va
  let cause := (ps.head?.bind (·.fault)).getD 1
  let lanes := pieceLanes a ps
  let lines := (pieceLines (if a.kind == .tstore then a.pieces else ps)).length
  let die := if a.far then 8 else dieOfCore a.core
  let words : RecWords :=
    { addr := a.addr, slot := a.slot, lane := lane, cause := cause, asid := a.asid, va := va, widc := a.widCode, seg := a.seg, seq := a.seq,
      step := failStep a ps, opcode := a.opcode, scope := scopeCode a.scope, ord := orderCode a.ord, again := again, cls := accClass a.kind,
      whr := if isStore a.kind then pick s (2000000 + id) 4096 + 4096 * die + 65536 * (lines % 4096) else lanes.toNat }
  { bits := recBits words, acc := id, lanes := lanes, cause := cause, store := isStore a.kind, copy := false, watch := a.kind == .watch,
    loc := none }

/-- The pages of the failing pieces that have no record yet, in order of lowest lane; a TLDO stops at its first failing row. -/
def newPages (w : Wave) (id : Nat) (a : Acc) : List Nat :=
  match a.dest with
  | .tldo _ =>
    if w.recs.any (fun e => e.2.acc == id && !e.2.copy) then [] else ((a.pieces.filter fun p => p.fault.isSome).map (piecePage a)).take 1
  | _ => distinct ((a.pieces.filter fun p => p.fault.isSome && !hasRecord w id a p).map (piecePage a))

/-- A slot whose fill fails is empty with FLT 1, its contents undefined (R143, R152). -/
def faultFill (s : State) (id : Nat) : State :=
  match accOf s id with
  | none => s
  | some a =>
    match a.dest with
    | .slot o _ _ | .tldo o =>
      if a.kind == .tload && a.pieces.any (fun p => p.fault.isSome) then
        dropImage (modEntry s a.core o fun e => { e with st := .empty, flt := true, step := 0 }) a.core o
      else s
    | _ => s

/-- Queue records in order; false where one had no room (R196). -/
def pushAll (s : State) (wid : Nat) (w : Wave) : List FRec → State × Wave × Bool
  | [] => (s, w, true)
  | r :: t =>
    let x := pushRecord s wid w r
    let y := pushAll x.1 wid x.2.1 t
    (y.1, y.2.1, x.2.2 && y.2.2)

/-- Queue the records that an access's failing pages have still to give. -/
def recordFaults (s : State) (id : Nat) : State :=
  match accOf s id with
  | none => s
  | some a =>
    match waveOf s a.wid with
    | none => s
    | some w =>
      let rs := (newPages w id a).map fun pg => accRecord s id a (a.pieces.filter fun p => p.fault.isSome && piecePage a p == pg) false
      let x := pushAll s a.wid w rs
      let held := isStore a.kind && a.pieces.any fun p => p.fault.isSome
      setAcc (reach x.1 a.wid x.2.1) id { a with unrecorded := !x.2.2, held := held, resolved := x.2.2 }

/-- The source of a tile store has been read. -/
def tileFull (a : Acc) : Bool := a.pieces.all fun p => p.data.length == p.size

/-- A tile store is accepted once it is in the core's write set, or held whole, or committed (R149, R152): its milestone number is
reached. -/
def tileAccept (s : State) (id : Nat) : State :=
  match accOf s id with
  | none => s
  | some a =>
    if a.kind == .tstore && !a.accepted && tileFull a && (a.scope.isPlain || a.held || a.pieces.all (·.done)) then
      let s1 := setAcc s id { a with accepted := true }
      match a.ms with
      | some m => finishMs s1 a.lid a.party m.1 m.2
      | none => s1
    else s

/-- Every piece has been translated or has failed: the records enter the queue together (R201). -/
def settleLook (s : State) (id : Nat) : State :=
  match accOf s id with
  | none => s
  | some a => if a.pieces.any unlooked then s else tryAcquire (faultFill (tileAccept (recordFaults s id) id) id) a.wid

/-- Records of a page-permission trap that found the queue full enter it (R188, R196). -/
def recordMore (s : State) (wid : Nat) : State :=
  match waveOf s wid with
  | some w =>
    if w.more.isEmpty then s
    else
      let x := pushRecords s wid { w with more := [] } w.more
      reach x.1 wid x.2
  | none => s

/-- Records that found the queue full enter it as room appears (R196). -/
def recordWaiting (s : State) (wid : Nat) : State :=
  recordMore ((s.acc.filter fun e => e.2.wid == wid && e.2.unrecorded).foldl (fun a e => recordFaults a e.1) s) wid

/-- Translate part of an access: PAGE_WALK for one region, STORE_TRANSLATE for all. -/
def lookAcc (s : State) (id : Nat) (a : Acc) (region : Option Nat) : State :=
  let x := lookPieces s id a region a.pieces
  if x.2.2 then dataError x.2.1 a.wid a.addr
  else settleLook (setAcc x.2.1 id { a with pieces := x.1 }) id

/-- Some piece that the call would translate. -/
def canLook (s : State) (id : Nat) (a : Acc) (region : Option Nat) : Bool :=
  a.pieces.any fun p => unlooked p && (match region with | some r => p.va / 4096 == r | none => true) &&
    !lineHeld s id a (isStore a.kind) p

/-! ### Events -/

/-- STORE_TRANSLATE (R193 to R196): the whole store is translated, or held with its records queued; it waits in the die network while
its home has no entries for it. -/
def execStoreTranslate (id : Nat) (s : State) : Out :=
  match accOf s id with
  | none => notEnabled
  | some a => if isStore a.kind && canLook s id a none && lateRoom s a then done (lookAcc s id a none) else notEnabled

/-- The plain stores that a core's L1 holds on lines of an address space (R211). -/
def storesOn (s : State) (core asid : Nat) (lines : Nat → Bool) : List (Nat × Acc) :=
  s.acc.filter fun e => inL1 core e.2 && e.2.asid == asid && (pieceLines (e.2.pieces.filter fun p => !p.done)).any lines

/-- They leave for their home early; they stay invisible to other cores (R211). -/
def sendStores (s : State) (l : List (Nat × Acc)) : State :=
  { s with acc := s.acc.map fun e => if l.any fun x => x.1 == e.1 then (e.1, { e.2 with sent := true }) else e }

/-- A write-back places the pieces of a store that nothing holds back by the translations of its time (R189, R203). -/
def backLook (s : State) (id : Nat) (a : Acc) : State :=
  let ps := a.pieces.map fun p => if unlooked p && !lineHeld s id a true p then { p with pa := backLoc s a p.va } else p
  settleLook (setAcc s id { a with pieces := ps }) id

/-- Stores written back take the places that they had when they were made; what had none has still to be translated (R189). -/
def placeBack (s : State) (l : List (Nat × Acc)) : State :=
  l.foldl (fun b e => match accOf b e.1 with
    | some a => if canLook b e.1 a none then backLook b e.1 a else b
    | none => b) s

/-- A store written back to its home is placed by the translations of its time; what had none is translated there, or held. -/
def lookStore (s : State) (id : Nat) : State :=
  let s1 := match accOf s id with
    | some a => if canLook s id a none then backLook s id a else s
    | none => s
  match accOf s1 id with
  | some a => if canLook s1 id a none && lateRoom s1 a then lookAcc s1 id a none else s1
  | none => s1

def lookStores (s : State) (l : List (Nat × Acc)) : State := l.foldl (fun b e => lookStore b e.1) s

/-- Lines of an L1 that a test selects are gone. -/
def dropL1 (s : State) (core asid : Nat) (lines : Nat → Bool) : State :=
  modCore s core fun c => { c with l1 := c.l1.filter fun x => !(x.asid == asid && lines x.line) || spoiling s core x }

/-- L1_DIRTY_EVICTION (R211): the unpublished plain stores of the line leave for their home early, where they are translated or
held; they stay invisible to other cores. -/
def execL1DirtyEviction (id : Nat) (s : State) : Out :=
  match accOf s id with
  | none => notEnabled
  | some a =>
    if inL1 a.core a then
      let lines := fun n => (pieceLines a.pieces).contains n
      let l := storesOn s a.core a.asid lines
      done (lookStores (dropL1 (sendStores s l) a.core a.asid lines) l)
    else notEnabled

end Sys2Proof.Machine
end

