-- ==== Sys2Proof/Machine/Loads.lean ====
section
/-! DEFINITION. Performing load-class accesses: plain loads through the snapshot of their core (R210), strong loads at their home in
the order of R213, their return through the scoreboard (R70, R341), and the events that end an MWATCH (R354). -/

namespace Sys2Proof.Machine

/-! ### Order among the accesses of a wave (R209, R213) -/

/-- A piece of an access meets a piece of another: they share a location, or may share one; the handler does not wait so for what REPLAY
alone lets go on (log 45). -/
def meets (s : State) (a : Acc) (p : Piece) (e : Nat × Acc) (q : Piece) : Bool :=
  overlap a e.2 p q || (mayAlias a e.2 p q && !(a.sup && needsReplay s e.1 q))

/-- The earlier global accesses of the wave. -/
def earlier (s : State) (id : Nat) (a : Acc) : List (Nat × Acc) := s.acc.filter fun e => e.1 < id && e.2.wid == a.wid && !e.2.loc && !parked s a.wid e.1

/-- A piece of an earlier access of the wave stands still before the handler's own accesses: they do not wait for what REPLAY alone lets go
on (log 45). -/
def passedBy (s : State) (a : Acc) (e : Nat × Acc) (q : Piece) : Bool := a.sup && !e.2.sup && needsReplay s e.1 q

/-- Strong loads are performed in issue order, and before later strong stores (R213); the kernel's wait for REPLAY of a faulted lane. -/
def strongHeld (s : State) (id : Nat) (a : Acc) : Bool :=
  !a.scope.isPlain && (earlier s id a).any fun e =>
    !e.2.scope.isPlain && loadClass e.2.kind && e.2.pieces.any fun q => !q.done && !passedBy s a e q

/-- A plain load must read an earlier plain store of its core that cannot be read yet: a tile whose source has not been drained, or a
store that reaches its location through another address of an ALIAS segment and has still to be translated (R191, R209, R210). -/
def unreadStore (s : State) (id : Nat) (a : Acc) (p : Piece) : Bool :=
  a.scope.isPlain && s.acc.any fun e => decide (e.1 < id) && e.2.core == a.core && isStore e.2.kind && e.2.scope.isPlain && !e.2.loc &&
    e.2.pieces.any fun q => !q.done &&
      ((q.data.length != q.size && overlap a e.2 p q) ||
        (a.direct && e.2.direct && e.2.far == a.far && q.pa.isNone && !passedBy s a e q))

/-- Accesses to one location follow the wave's issue order (R209), behind a lane that waits for REPLAY too; an unpublished plain store of
the core is passed by a strong access, and read by a plain one. -/
def placeHeld (s : State) (id : Nat) (a : Acc) (p : Piece) : Bool :=
  unreadStore s id a p ||
  (earlier s id a).any fun e =>
    (if isStore e.2.kind then !e.2.scope.isPlain || (!a.scope.isPlain && e.2.epoch.isSome) else true) &&
      e.2.pieces.any fun q => !q.done && (isStore e.2.kind || !passedBy s a e q) && meets s a p e q

/-- A translated load lane may be performed now. -/
def loadReady (s : State) (id : Nat) (a : Acc) (p : Piece) : Bool :=
  p.pa.isSome && p.fault.isNone && !p.done && !strongHeld s id a && !placeHeld s id a p

/-! ### Reading -/

/-- An address reaches a location by the translation that its controller holds, else by the tables as they are stored. -/
def reaches (s : State) (far : Bool) (die asid va loc : Nat) : Bool :=
  match xhit (xcache s far die (ctlOf va)) asid va with
  | some e => pageLoc far die e va == loc
  | none => match walkWith s { cut := s.commits, past := true } far die asid va with
    | .page e => pageLoc far die e va == loc
    | _ => false

/-- The address through which a store was made still reaches its location. -/
def viaLive (s : State) (c : Commit) : Bool :=
  match c.org.by_, c.org.via with
  | some w, some v =>
    let va := (v.delta + c.loc).toNat
    let far := decide (Config.farBase ≤ c.loc)
    let die := if far then dieNo w.key else c.loc / Config.nearSize
    (match launchOf s w.id.lid with
      | some l => l.st == .accepted
      | none => false) &&
    (!v.paged || reaches s far die v.asid va c.loc)
  | _, _ => false

/-- A store was made through another address of a location, without ALIAS on both, and that address still reaches it (R190). -/
def otherVia (s : State) (v : Via) (c : Commit) : Bool :=
  (match c.org.via with
    | some u => (u.asid != v.asid || u.delta != v.delta) && !(u.isAlias && v.isAlias)
    | none => false) && viaLive s c

/-- Software makes one of n bytes reachable through two addresses without ALIAS on both (R190): another address stored there. -/
def brokenAlias (s : State) (v : Via) (loc n : Nat) : Bool :=
  s.hist.any fun c => decide (loc ≤ c.loc ∧ c.loc < loc + n) && otherVia s v c

/-- A store was made through the address itself. -/
def sameVia (v : Via) (c : Commit) : Bool := match c.org.via with | some u => u.asid == v.asid && u.delta == v.delta | none => false

/-- The newest of the stores that one of the two addresses made to a location, up to a commit. -/
def aliasCommit (s : State) (v : Via) (loc cut : Nat) : Option Commit :=
  s.hist.find? fun c => c.loc == loc && decide (c.seq ≤ cut) && (sameVia v c || otherVia s v c)

/-- A read through such an address returns any value written through either, or what memory holds (R190; log 44). -/
def aliasRead (s : State) (v : Via) (loc n tag : Nat) (r : List Byte × State) : List Byte × State :=
  if brokenAlias s v loc n then
    let cut := pick s (4700000 + tag) (s.commits + 1)
    ((List.range n).map fun i => match aliasCommit s v (loc + i) cut with
      | some c => c.new
      | none => devByte s (loc + i), r.2)
  else r

/-- A store through such an address leaves memory with its value or with an earlier one written through either, whichever comes last (R190;
log 44): `s` after it, `before` before it. -/
def aliasStore (s before : State) (o : Origin) (loc n : Nat) : State :=
  match o.via with
  | some v =>
    let cut := pick s (4800000 + loc) (s.commits + 1)
    if brokenAlias before v loc n && decide (cut < s.commits) then
      endEvent ((List.range n).foldl (fun t i => match aliasCommit before v (loc + i) cut with
        | some c => putCommit t c.org (loc + i) c.new
        | none => t) s)
    else s
  | none => s

/-- Byte n of a store is seen through another (ASID, virtual address) without ALIAS on both sides: it need not be read (R190). -/
def passesAlias (s : State) (a : Acc) (va : Nat) (b : Acc) (q : Piece) (n : Nat) : Bool :=
  !(a.direct && b.direct) && !(b.asid == a.asid && q.va + n == va) && pick s (4500000 + va) 2 == 1

/-- The byte that a store of the core, earlier in issue order than access `id` and not yet committed, gives a location (R210). -/
def ownByte (s : State) (id : Nat) (a : Acc) (va loc : Nat) : Option Byte :=
  s.acc.foldl (fun r e =>
    if e.1 < id ∧ e.2.core = a.core ∧ isStore e.2.kind ∧ e.2.scope.isPlain then
      e.2.pieces.foldl (fun r q =>
        if q.done then r
        else match q.pa with
          | some b => if b ≤ loc ∧ loc < b + q.data.length ∧ !passesAlias s a va e.2 q (loc - b) then q.data[loc - b]? else r
          | none => if e.2.asid = a.asid ∧ q.va ≤ va ∧ va < q.va + q.data.length then q.data[va - q.va]? else r) r
    else r) none

/-- A store of the core that has not committed overwrites the whole ECC word at a location, its lanes or rows together (R206). -/
def ownWord (s : State) (core id asid va loc : Nat) : Bool :=
  s.acc.any fun e => decide (e.1 < id) && e.2.core == core && isStore e.2.kind && e.2.scope.isPlain &&
    covers (e.2.pieces.filterMap fun q =>
      if q.done then none
      else match q.pa with
        | some b => some (b, q.data.length)
        | none => if e.2.asid == asid && decide (va ≤ q.va + loc) then some (q.va + loc - va, q.data.length) else none) loc 32

/-- A write of the bias table has still to take effect: a line that it wrote back has not reached its home (R298). -/
def biasBusy (s : State) : Bool := s.biasWait.any fun id => match accOf s id with | some a => !a.resolved | none => false

/-- A far GiB is in host bias; while a switch is under way an access finds the old bias or the new one (R298). -/
def hostBias (s : State) (g : Nat) : Bool :=
  let now := s.bias.contains g
  if biasBusy s && s.biasOld.contains g != now then pick s (4600000 + g) 2 == 1 else now

/-- An access is performed at the home, past L1 and RDC: a strong one, one to an ALIAS segment (R191), or one to a granule in host
bias (R298). -/
def atHome (s : State) (a : Acc) (loc : Nat) : Bool :=
  !a.scope.isPlain || a.direct || (decide (Config.farBase ≤ loc) && hostBias s ((loc - Config.farBase) / 2 ^ 30))

/-- The caches that a plain load reads through hold a bad word of it: the core's L1, and the die's RDC for far bytes (R189, R205). -/
def cacheBad (s : State) (a : Acc) (va loc n : Nat) : Bool :=
  !atHome s a loc && (tagBad 8 (coreOf s a.core).l1 a.asid va n || (a.far && tagBad 32 (dieOf s (dieOfCore a.core)).rdc a.asid va n))

/-- The bad words of 32 bytes that a read at the home meets, by number, in memory and in L2. -/
def badWords (s : State) (loc n : Nat) : List Nat :=
  (List.range ((loc + n - 1) / 32 - loc / 32 + 1)).filterMap fun i => if eccHit s (32 * (loc / 32 + i)) 32 then some (loc / 32 + i) else none

/-- A load meets an uncorrectable error (R205): in a cache that it reads through, or at the home; a plain one not in a word that its
core has overwritten whole (R206). -/
def eccLoad (s : State) (id : Nat) (a : Acc) (va loc n : Nat) : Bool :=
  cacheBad s a va loc n ||
    (eccHit s loc n && !(a.scope.isPlain && (badWords s loc n).all fun e => ownWord s a.core id a.asid (va + 32 * e - loc) (32 * e)))

/-- A plain load holds its lines: in L1 and, of far memory, in the RDC; near lines in the L2 of their home. Of a granule that a switch under
way takes to host bias no cache keeps a line, whichever bias the access finds (R298). -/
def holdLines (s : State) (a : Acc) (va loc n : Nat) : State :=
  if atHome s a loc then holdL2 s a.asid va loc n a.direct
  else if decide (Config.farBase ≤ loc) && s.bias.contains ((loc - Config.farBase) / 2 ^ 30) then s
  else
    let s1 := if a.l1 then holdL1 s a.core a.asid va n else s
    if a.far then holdRdc s1 (dieOfCore a.core) a.asid va n else holdL2 s1 a.asid va loc n false

/-- A read at the home; the core's floor follows, so that later plain loads read no older value (R209). -/
def homeRead (s : State) (core loc n : Nat) : List Byte × State :=
  (devBytes s loc n, modCore s core fun c => raiseTo c loc n s.commits)

/-- A plain load of n bytes (R210): its core's own stores first, then the snapshot, or the home where it is read past the caches. -/
def plainRead (s : State) (id : Nat) (a : Acc) (va loc n tag : Nat) : List Byte × State :=
  let own := (List.range n).map fun i => ownByte s id a (va + i) (loc + i)
  if own.all Option.isSome then (own.map (·.getD 0), s)
  else
    let r := aliasRead s (accVia a va loc) loc n tag (if atHome s a loc then homeRead s a.core loc n else snapRead s a.core loc n tag)
    (List.zipWith (fun o b => o.getD b) own r.1, r.2)

/-- Whether a scope of wave p includes wave q (R220). -/
def inScope (s : State) (sc : Scope) (p q : Writer) : Bool :=
  match sc with
  | .wave => p.id == q.id
  | .core => coreNo (standing s p) == coreNo (standing s q)
  | .convoy => coreNo (standing s p) == coreNo (standing s q) || s.convoys.any fun e => e.2.lid == p.id.lid && e.2.lid == q.id.lid &&
      e.2.members.contains (p.id.party, p.id.num) && e.2.members.contains (q.id.party, q.id.num)
  | .die => dieNo (standing s p) == dieNo (standing s q)
  | .device => true
  | .system => true

/-- The releases that an acquire of wave `me` at scope t reads, through an unbroken chain of atomics, each judged where the two waves
now stand (R220, R221): whether both scopes include the other wave. -/
def syncGo (s : State) (me : Writer) (t : Scope) (loc : Nat) : List Commit → List Sync
  | [] => []
  | x :: rest =>
    if x.loc ≠ loc then syncGo s me t loc rest
    else
      let here := match x.org.by_, x.org.rel with
        | some p, some v =>
          if p.id = me.id then []
          else [{ by_ := p, core := coreNo p.key, op := x.org.op, view := v,
                  race := !(inScope s (x.org.strong.getD .core) p me && inScope s t me p) }]
        | _, _ => []
      here ++ if x.org.atom then syncGo s me t loc rest else []

/-- Note the releases that an acquire reads; the latitude of a scope race is taken or not (R222). -/
def noteSyncs (s : State) (id : Nat) (a : Acc) (loc : Nat) : State :=
  if acquires a.ord then
    let l := (syncGo s (accWriter a) a.scope loc s.hist).filter fun x => !x.race || pick s (3000000 + id) 2 == 1
    modWave s a.wid fun w => if a.sup then { w with supSync := l ++ w.supSync } else { w with sync := l ++ w.sync }
  else s

/-- Perform one load lane: its bytes. -/
def performLoad (s : State) (id : Nat) (a : Acc) (p : Piece) (loc : Nat) : List Byte × State :=
  if a.scope.isPlain then plainRead (holdLines s a p.va loc p.size) id a p.va loc p.size (4000000 + 64 * id + p.lane)
  else
    let s1 := noteSyncs (holdLines s a p.va loc p.size) id a loc
    aliasRead s1 (accVia a p.va loc) loc p.size (64 * id + p.lane) (homeRead s1 a.core loc p.size)

/-! ### Returning -/

/-- The register writes of a returned lane (R339). -/
def returnWrites (dest : Dest) (p : Piece) : List RegWrite :=
  match dest with
  | .lanes cl d wd => List.zipWith (fun n v => .v cl n (BitVec.ofNat 32 (2 ^ p.lane)) (Lanes.all v)) (dataRegs wd d) (laneWords wd p.val)
  | .uni d sup _ => [sWrite sup d (BitVec.ofNat 64 (leNat p.val))]
  | _ => []

/-- Return up to n lanes in order; a lane that cannot be performed yet stops those behind it (R340). The lanes left, the lanes
returned, the state, and whether an uncorrectable error was met. -/
def returnGo (s : State) (id : Nat) (a : Acc) : Nat → List Piece → List Piece × List Piece × State × Bool
  | _, [] => ([], [], s, false)
  | n, p :: t =>
    if p.fault.isSome then
      let r := returnGo s id a n t
      (p :: r.1, r.2)
    else
      match n with
      | 0 => (p :: t, [], s, false)
      | k + 1 =>
        if p.done then
          let r := returnGo s id a k t
          (r.1, p :: r.2.1, r.2.2)
        else if a.kind == .load && loadReady s id a p then
          match p.pa with
          | none => (p :: t, [], s, false)
          | some loc =>
            if eccLoad s id a p.va loc p.size then (p :: t, [], s, true)
            else
              let x := performLoad s id a p loc
              let r := returnGo x.2 id a k t
              (r.1, { p with val := x.1, done := true } :: r.2.1, r.2.2)
        else (p :: t, [], s, false)

/-- An access of load class has ended: its marks go, and the acquire that waited for it goes on (R215). -/
def finishAcc (s : State) (id : Nat) (a : Acc) : State :=
  tryAcquire (modWave (delAcc s id) a.wid fun w => clearBusy w id) a.wid

/-- The status word of INVPG (R203). -/
def invpgStatus (isol : Nat) : DWord := BitVec.ofNat 64 (2 ^ 63 + isol % 256)

/-- Every die has acknowledged an INVPG, or is isolated: its status reaches the register that it marked (R203, R204). -/
def invpgDone (s : State) (id wid isol : Nat) : State :=
  modReach { s with invpg := Tab.del s.invpg id } wid fun w =>
    clearBusy (landNow w ((w.busy.filter fun b => b.by_ == id).map fun b => match b.reg with
      | .h n => .h n (invpgStatus isol)
      | .s n => .s n (invpgStatus isol)
      | _ => .s 0 0)) id

/-- LOAD_RETURN (R70, R197, R209 to R215): lanes of a load or atomic return to their destination; the acknowledgements of an
INVPG count as its return. -/
def execLoadReturn (id : Nat) (s : State) : Out :=
  match Tab.find s.invpg id with
  | some x => done (invpgDone s id x.1 x.2)
  | none =>
    match accOf s id with
    | none => notEnabled
    | some a =>
      match a.kind with
      | .load | .atomic _ | .cas =>
        let r := returnGo s id a (1 + pick s 52 a.pieces.length) a.pieces
        if r.2.2.2 then done (dataError s a.wid a.addr)
        else if r.2.1.isEmpty then notEnabled
        else
          let s1 := modReach r.2.2.1 a.wid fun w => landNow w (r.2.1.flatMap (returnWrites a.dest))
          let s2 := if a.loc then s1 else prefHit s1 a.core a.lid (pieceLines r.2.1)
          if r.1.isEmpty then done (finishAcc s2 id a) else done (setAcc s2 id { a with pieces := r.1 })
      | _ => notEnabled

/-! ### MWATCH (R354) -/

/-- What a wait, or the M slot's wait behind it, is on. -/
def waitsFor (on : WaitOn) (w : Wave) : Bool :=
  match w.wait with
  | some x => x.on == on || (match x.also with | some y => y.1 == on | none => false)
  | none => false

/-- A wait that a trap ended holds its watch or pop until ERET returns into it (R195, R354). -/
def heldOuter (on : WaitOn) (w : Wave) : Bool := match w.outer with | some x => x.on == on | none => false

/-- Whether an M slot's wait may end now: the wave waits in it; or no wait of the wave is on it any more, because the S slot of its
bundle took a trap, halted or returned from the handler: then it goes on behind the wave (log 49). A wave that stops stays in its
wait (R275). -/
def waitLive (on : WaitOn) (w : Wave) : Bool :=
  w.stopping.isNone && match w.wait with
  | some x => if x.on == on then w.st == .waiting else !waitsFor on w && !heldOuter on w
  | none => !heldOuter on w

/-- End the wave's wait on something, where it is in it. -/
def wakeFrom (on : WaitOn) (w : Wave) : Wave := match w.wait with | some x => if x.on == on then wakeW w else w | none => w

/-- The oldest watch of a wave that may be tested, with its lane. -/
def watchOf (s : State) (wid : Nat) : Option (Nat × Acc × Piece) :=
  match waveOf s wid with
  | none => none
  | some w =>
    match s.acc.find? fun e => e.2.wid == wid && e.2.kind == .watch && waitLive (.mwatch e.1) w with
    | some e => (match e.2.pieces with
      | p :: _ => some (e.1, e.2, p)
      | [] => none)
    | none => none

/-- End a watch with the value read: s[D] takes it, s[D+1] says whether the timeout ended it. -/
def finishWatch (s : State) (wid : Nat) (id : Nat) (a : Acc) (v : Nat) (timeout : Bool) : State :=
  let s1 := modReach s wid fun w => wakeFrom (.mwatch id) (match a.dest with
    | .uni d sup _ => landNow w [sWrite sup d (BitVec.ofNat 64 v), sWrite sup (d + 1) (if timeout then 1 else 0)]
    | _ => w)
  finishAcc s1 id a

def watchAgain (s : State) (id : Nat) (a : Acc) : State := setAcc s id (freshWatch a)

/-- One test of a watch: `late` says that the timeout has passed. -/
def testWatch (s : State) (wid : Nat) (late : Bool) : Out :=
  match watchOf s wid with
  | none => notEnabled
  | some (id, a, p) =>
    match p.pa with
    | none => notEnabled
    | some loc =>
      if !loadReady s id a p then notEnabled
      else if eccHit s loc p.size then done (dataError s wid a.addr)
      else
        let s1 := holdLines s a p.va loc p.size
        let r := aliasRead s1 (accVia a p.va loc) loc p.size (64 * id) (homeRead s1 a.core loc p.size)
        let v := leNat r.1
        if v ≠ a.watch.toNat % 2 ^ (8 * p.size) then done (finishWatch (noteSyncs r.2 id a loc) wid id a v false)
        else if late then done (finishWatch (noteSyncs r.2 id a loc) wid id a v true)
        else done (watchAgain r.2 id a)

/-- MWATCH_WAKE (R354): a test of the watched value; an equal value leaves the wave waiting. -/
def execMwatchWake (wid : Nat) (s : State) : Out := testWatch s wid false

/-- MWATCH_TIMEOUT (R354): the last test, once the ticks since issue have reached the timeout. -/
def execMwatchTimeout (wid : Nat) (s : State) : Out :=
  match watchOf s wid with
  | none => notEnabled
  | some (_, a, _) => if a.deadline ≤ ticks s then testWatch s wid true else notEnabled

end Sys2Proof.Machine
end

