-- ==== Sys2Proof/Machine/Stores.lean ====
section
/-! DEFINITION. Commits (R207): plain stores through their publication (R211), strong stores and atomics at their home (R213), tile
stores as one event (R223), and the releases that wait for them (R217). -/

namespace Sys2Proof.Machine

/-! ### Order of commits -/

/-- Earlier undone stores of a kind of access meet a piece of an access. -/
def storeAhead (s : State) (a : Acc) (p : Piece) (sel : Nat × Acc → Bool) : Bool :=
  s.acc.any fun e => isStore e.2.kind && sel e && e.2.pieces.any fun q => !q.done && meets s a p e q

/-- Earlier loads that have not taken their value meet a piece of an access: of its own wave those too that wait for REPLAY (R209). -/
def loadAhead (s : State) (a : Acc) (p : Piece) (sel : Nat × Acc → Bool) : Bool :=
  s.acc.any fun e => loadClass e.2.kind && !e.2.loc && sel e && !parked s e.2.wid e.1 && e.2.pieces.any fun q =>
    !q.done && (q.fault.isNone || e.2.wid == a.wid) && !passedBy s a e q && meets s a p e q

/-- A strong store passes the unpublished plain M-slot stores of its wave (which commit just before it), but waits for a tile and for
one whose place is not known. -/
def passable (s : State) (a : Acc) (e : Nat × Acc) (p : Piece) : Bool :=
  e.2.kind == .store && e.2.epoch.isNone && e.2.pieces.all fun q => q.done || !meets s a p e q || q.pa.isSome

/-- What holds a strong write back (R209, R213). -/
def strongAhead (s : State) (id : Nat) (a : Acc) (p : Piece) : Bool :=
  strongHeld s id a || storeAhead s a p (fun e => e.1 < id && e.2.wid == a.wid && !(e.2.scope.isPlain && passable s a e p))

/-- What holds a plain store back: its publication (R211), the core's issue order (R210), and its wave's strong stores (R209). -/
def plainAhead (s : State) (id : Nat) (a : Acc) (p : Piece) : Bool :=
  (match a.epoch with
    | some e => (coreOf s a.core).pubDone + 1 < e
    | none => true) ||
  storeAhead s a p (fun e => e.1 < id && ((e.2.core == a.core && e.2.scope.isPlain) || (e.2.wid == a.wid && !e.2.scope.isPlain))) ||
  loadAhead s a p (fun e => e.1 < id && e.2.core == a.core && e.2.scope.isPlain)

/-- A store's piece may commit now, whatever its neighbours in the access. -/
def commitReady (s : State) (id : Nat) (a : Acc) (p : Piece) : Bool :=
  p.pa.isSome && p.fault.isNone && !p.done && a.rel.isNone &&
    !(loadAhead s a p fun e => e.1 < id && e.2.wid == a.wid) &&
    !(if a.scope.isPlain then plainAhead s id a p else strongAhead s id a p)

/-! ### Committing -/

/-- The bytes of a piece outside [lo, hi). -/
def outside (q : Piece) (loc lo hi : Nat) : List Piece :=
  let left := lo - loc
  let right := hi - loc
  (if loc < lo then [{ q with size := left, data := q.data.take left }] else []) ++
    (if hi < loc + q.size then
      [{ q with va := q.va + right, pa := some hi, size := q.size - right, data := q.data.drop right }] else [])

/-- What a strong write to [lo, hi) leaves of a piece of an earlier plain store of its wave that no publication has taken: the bytes
below it stand just before it in coherence order, where no read can meet them (R209, R211, R213). -/
def passOne (lo hi : Nat) (q : Piece) : List Piece :=
  match q.pa with
  | some loc => if q.done || !(loc < hi && lo < loc + q.size) then [q] else outside q loc (max lo loc) (min hi (loc + q.size))
  | none => [q]

/-- Drop an access of which nothing is left. -/
def putAcc (s : State) (id : Nat) (a : Acc) : State := if a.pieces.all (·.done) then delAcc s id else setAcc s id a

def passStores (s : State) (id wid lo hi : Nat) : State :=
  (s.acc.filter fun e => e.1 < id && e.2.wid == wid && e.2.kind == .store && e.2.scope.isPlain && e.2.epoch.isNone).foldl
    (fun t e => putAcc t e.1 { e.2 with pieces := e.2.pieces.flatMap (passOne lo hi) }) s

/-- The bad words that a plain store leaves its core's L1 from, as words of 32 bytes of its home (R206): byte `va` stands at `loc`. -/
def spoiled (s : State) (a : Acc) (va loc n : Nat) : List Nat :=
  if !a.scope.isPlain || a.direct then []
  else distinct ((coreOf s a.core).l1.flatMap fun x =>
    if x.asid == a.asid then x.bad.filterMap fun b =>
      let w := 128 * x.line + 8 * b
      if va < w + 8 ∧ w < va + n then some ((loc + w - va) / 32) else none
    else [])

/-- A write-back finds errors: they are logged for the host, and the words keep their bad check bits at the home (R206). -/
def spoil (s : State) (ws : List Nat) : State :=
  if ws.isEmpty then s
  else { s with
    ecc := (ws.filter fun e => !s.ecc.contains e) ++ s.ecc
    eccLog := s.eccLog ++ ws.map fun e => { loc := 32 * e, at_ := ticks s } }

/-- Stale copies of a far line leave the remote-data cache of every die (R212). -/
def dropRdc (s : State) (asid : Nat) (lines : Nat → Bool) : State :=
  { s with dies := s.dies.map fun d => (d.1, { d.2 with rdc := d.2.rdc.filter fun x => !(x.asid == asid && lines x.line) }) }

/-- A store of an access has reached its home: near lines stand in L2, copies of far ones elsewhere are stale; whole ECC words that
the access overwrites with this piece and the ones before it are good (R206). -/
def atL2 (s : State) (a : Acc) (va loc n : Nat) : State :=
  let s1 := if Config.farBase ≤ loc then dropRdc s a.asid (linesOf va n).contains else holdL2 s a.asid va loc n a.direct
  let spans := a.pieces.filterMap fun p => if p.done then p.pa.map fun x => (x, p.size) else none
  spoil (eccClearAll s1 ((loc, n) :: spans)) (spoiled s a va loc n)

/-- Commit bytes of an access at a location; the floor of its core follows (R209, R211). -/
def commitAt (s : State) (id : Nat) (a : Acc) (va loc : Nat) (bs : List Byte) (atom : Bool) : State :=
  let s1 := if a.scope.isPlain then s else passStores s id a.wid loc (loc + bs.length)
  let o := accOrigin id a va loc atom
  let s2 := aliasStore (atL2 (commitBytes s1 o loc bs) a va loc bs.length) s1 o loc bs.length
  modCore s2 a.core fun c => raiseTo c loc bs.length s2.commits

/-- The pieces of a store that may commit now: positions whose lower lanes do not overlap them (R340). -/
def readyAt (s : State) (id : Nat) (a : Acc) : List Nat :=
  (List.range a.pieces.length).filter fun i =>
    match a.pieces[i]? with
    | none => false
    | some p => commitReady s id a p && !((a.pieces.take i).any fun q => !q.done && meets s a p (id, a) q)

/-- Commit one piece. -/
def commitPiece (s : State) (id i : Nat) : State :=
  match accOf s id with
  | none => s
  | some a =>
    match a.pieces[i]? with
    | none => s
    | some p =>
      match p.pa with
      | none => s
      | some loc =>
        let s1 := commitAt s id a p.va loc p.data false
        putAcc s1 id { a with pieces := listSet a.pieces i { p with done := true } }

/-! ### Atomics (R343, R344) -/

/-- `AtomOp` on w-byte values (R343). -/
def atomOp (op : AtomOp) (w old v : Nat) : Nat :=
  let b := 8 * w
  match op with
  | .swap => v
  | .add => (old + v) % 2 ^ b
  | .band => old &&& v
  | .bor => old ||| v
  | .bxor => old ^^^ v
  | .smin => if toInt true b v < toInt true b old then v else old
  | .smax => if toInt true b old < toInt true b v then v else old
  | .umin => if v < old then v else old
  | .umax => if old < v then v else old
  | .fadd => (fAdd f32F .rne 0 (f32F.decode old) (f32F.decode v)).bits

/-- The new value of a lane, if it writes. -/
def atomNew (k : AKind) (p : Piece) (old : Nat) : Option Nat :=
  match k with
  | .atomic op => some (atomOp op p.size old (leNat p.data))
  | .cas => if old = leNat p.cmp then some (leNat p.data) else none
  | _ => none

/-- One `Run`: the lanes at a location, in ascending order, with nothing between them (R340). -/
def runGo (id : Nat) (a : Acc) (loc : Nat) : List Piece → State → List Piece × State
  | [], s => ([], s)
  | p :: t, s =>
    if p.pa = some loc ∧ !p.done then
      let old := leNat (aliasRead s (accVia a p.va loc) loc p.size (64 * id + p.lane) (devBytes s loc p.size, s)).1
      let s1 := match atomNew a.kind p old with
        | some v => commitAt s id a p.va loc (leBytes p.size v) true
        | none => modCore s a.core fun c => raiseTo c loc p.size s.commits
      let r := runGo id a loc t s1
      ({ p with val := leBytes p.size old, done := true } :: r.1, r.2)
    else
      let r := runGo id a loc t s
      (p :: r.1, r.2)

/-- The lane of an atomic that is performed next: the lowest that has not failed (R213, R340). -/
def nextLane (a : Acc) : Option Piece := a.pieces.find? fun p => !p.done && p.fault.isNone

def atomReady (s : State) (id : Nat) (a : Acc) : Bool :=
  match nextLane a with
  | some p => p.pa.isSome && a.rel.isNone && !strongAhead s id a p && !placeHeld s id a p
  | none => false

/-- Perform the next run of an atomic. -/
def runAtom (s : State) (id : Nat) (a : Acc) : State :=
  match nextLane a with
  | none => s
  | some p =>
    match p.pa with
    | none => s
    | some loc =>
      if eccHit s loc p.size then dataError s a.wid a.addr
      else
        let r := runGo id a loc a.pieces (noteSyncs (holdL2 s a.asid p.va loc p.size a.direct) id a loc)
        match accOf r.2 id with
        | some b => setAcc r.2 id { b with pieces := r.1 }
        | none => r.2

/-! ### Tile stores (R223, R224) -/

/-- A tile may commit: read, translated whole, and nothing ahead of any of its rows. -/
def tileReady (s : State) (id : Nat) (a : Acc) : Bool :=
  tileFull a && (a.scope.isPlain → a.accepted) && a.pieces.all fun p => commitReady s id a p

/-- The rows of a tile in order, later rows over earlier ones (R152), in one event. -/
def putRows (s : State) (id : Nat) (a : Acc) : List Piece → State
  | [] => endEvent s
  | p :: t => putRows (match p.pa with
    | some loc => putCommits s (accOrigin id a p.va loc false) loc p.data
    | none => s) id a t

/-- A committed tile stands in L2, and the error words that its rows together overwrite whole are good; an error that a plain one brings from
its core's L1 is met at the home (R206). -/
def tileAtL2 (s : State) (a : Acc) : State :=
  let s1 := a.pieces.foldl (fun t p => match p.pa with
    | some loc =>
      if Config.farBase ≤ loc then dropRdc t a.asid (linesOf p.va p.size).contains else holdL2 t a.asid p.va loc p.size a.direct
    | none => t) s
  spoil (eccClearAll s1 (a.pieces.filterMap fun p => p.pa.map fun x => (x, p.size)))
    (distinct (a.pieces.flatMap fun p => match p.pa with | some loc => spoiled s a p.va loc p.size | none => []))

/-- Commit a tile whole. -/
def commitTile (s : State) (id : Nat) (a : Acc) : State :=
  let s1 := if a.scope.isPlain then s else a.pieces.foldl (fun t p => match p.pa with
    | some loc => passStores t id a.wid loc (loc + p.size)
    | none => t) s
  let s2 := a.pieces.foldl (fun t p => match p.pa with
    | some loc => aliasStore t s1 (accOrigin id a p.va loc false) loc p.size
    | none => t) (tileAtL2 (putRows s1 id a a.pieces) a)
  let s3 := a.pieces.foldl (fun t p => match p.pa with
    | some loc => modCore t a.core fun c => raiseTo c loc p.size s2.commits
    | none => t) s2
  let s4 := setAcc s3 id { a with pieces := a.pieces.map fun p => { p with done := true } }
  delAcc (tileAccept s4 id) id

/-! ### Events -/

/-- STORE_COMMIT (R207): one piece of a store, one run of an atomic, or a whole tile takes its place in coherence order. -/
def execStoreCommit (id : Nat) (s : State) : Out :=
  match accOf s id with
  | none => notEnabled
  | some a =>
    match a.kind with
    | .store =>
      let l := readyAt s id a
      if l.isEmpty then notEnabled else done (commitPiece s id (l.getD (pick s 60 l.length) 0))
    | .tstore => if tileReady s id a then done (commitTile s id a) else notEnabled
    | .atomic _ | .cas => if atomReady s id a then done (runAtom s id a) else notEnabled
    | _ => notEnabled

/-- PUBLICATION_COMPLETE (R211, R226): the oldest publication of a core has no store left. -/
def execPublicationComplete (core : Nat) (s : State) : Out :=
  let c := coreOf s core
  if c.pubDone < c.epoch && !(s.acc.any fun e => e.2.core == core && e.2.epoch == some (c.pubDone + 1)) then
    done (modCore s core fun c => { c with pubDone := c.pubDone + 1 })
  else notEnabled

/-- Commit what a released store can commit now, n times at most. -/
def commitAll : Nat → Nat → State → State
  | 0, _, s => s
  | n + 1, id, s =>
    match accOf s id with
    | none => s
    | some a =>
      match a.kind with
      | .store => (match readyAt s id a with
        | i :: _ => commitAll n id (commitPiece s id i)
        | [] => s)
      | .atomic _ | .cas => if atomReady s id a then commitAll n id (runAtom s id a) else s
      | _ => s

/-- A release as what an acquire that meets it reads (R221). -/
def relSync (r : Rel) (party num : Nat) : Sync :=
  { by_ := { key := r.wid, id := { lid := r.lid, party := party, num := num } }, core := r.core, op := r.before, view := r.view, race := false }

/-- A wave's GOPEN has raised a gate (R37, R221). -/
def noteOpen (s : State) (r : Rel) (q : Queue) (g : Nat) : Queue :=
  match waveOf s r.wid with
  | some w =>
    let x := relSync r w.party w.num
    if w.lid == r.lid then { q with opens := Tab.put q.opens g (x :: (Tab.findD q.opens g []).filter fun y => y.by_.id != x.by_.id) } else q
  | none => q

/-- A completed FENCE.full makes the strong stores of its wave before it seen by every later walk (R187). -/
def fenceWalks (s : State) (r : Rel) : State :=
  match r.full, waveOf s r.wid with
  | some _, some w =>
    let me : WaveId := { lid := w.lid, party := w.party, num := w.num }
    { s with hist := s.hist.map fun c => if fencedBy r me c then { c with fenced := true } else c }
  | _, _ => s

/-- What a release does at its target (R217). -/
def applyRelease (s : State) (r : Rel) : State :=
  match r.target with
  | .access id =>
    (match accOf s id with
    | some a => commitAll a.pieces.length id (setAcc s id { a with rel := none })
    | none => s)
  | .arrival e m =>
    (match Tab.find s.convoys e with
    | some c => { s with convoys := Tab.put s.convoys e { c with
        arrived := c.arrived.filter (· != m)
        reported := c.reported ++ [m]
        syncs := relSync r m.1 m.2 :: c.syncs } }
    | none => s)
  | .gate g n => modQueue s (g / 64) fun q => noteOpen s r (gateAdd q (g % 64) n (ticks s)) (g % 64)
  | .fence => fenceWalks s r

/-- RELEASE_APPLY (R217): every home has reported, and the target applies the release. -/
def execReleaseApply (id : Nat) (s : State) : Out :=
  match Tab.find s.rels id with
  | none => notEnabled
  | some r => if releaseReady s r then done (applyRelease { s with rels := Tab.del s.rels id } r) else notEnabled

end Sys2Proof.Machine
end

