-- ==== Sys2Proof/Machine/Copies.lean ====
section
/-! DEFINITION. MCOPY, MGATHER and MCAST (R228 to R236): their issue, the moves of their bytes in no defined order, their faults and
their completion. -/

namespace Sys2Proof.Machine

/-! ### Status words and milestone numbers (R228, R229) -/

def copyStatus (isDone : Bool) (refused norecv err rec bytes : Nat) : DWord :=
  BitVec.ofNat 64 ((if isDone then 2 ^ 63 else 0) + refused * 2 ^ 56 + norecv * 2 ^ 52 + err * 2 ^ 48 + rec * 2 ^ 42 + bytes % 2 ^ 40)

/-- A status arrives at its register; where software has written the register since the copy issued, it stays undefined (R228), and so
does what is on its way to it. -/
def statusWrite (w : Wave) (r : Reg) (v : DWord) : Wave :=
  let clash := w.tainted.contains r
  let w1 := if clash then { w with
    tainted := w.tainted.filter (· != r)
    wins := w.wins.map fun x => if writeReg x.w == r then { x with clash := true } else x } else w
  match r with
  | .h n => applyWrite w1 (.h n v) clash
  | .s n => applyWrite w1 (.s n v) clash
  | _ => w1

/-- The status of an operation that completes at its issue: it lands after the bundle has read its sources. -/
def statusAtIssue (w : Wave) (r : Reg) (v : DWord) : Wave :=
  match r with
  | .h n => pushWin w (.h n v) 1
  | .s n => pushWin w (.s n v) 1
  | _ => w

/-- Complete a copy: its status, its number, and the slot that it filled (R146, R218). -/
def finishCopy (s : State) (id : Nat) (c : Copy) (v : DWord) : State :=
  let s1 := modReach (delCopy s id) c.wid fun w => clearBusy (statusWrite w c.dreg v) id
  let s2 := match c.kind with
    | .inSlot => modEntry s1 c.core (c.loff / 8192) fun e => { e with st := .ready, fmtt := 15, ort := false, flt := false, step := 0 }
    | _ => s1
  finishMs s2 c.lid c.party c.ctx c.num

/-! ### Issue -/

/-- An operation with no byte to move: DONE and BYTES 0 at once (R228, R230). -/
def emptyCopy (s : State) (wid : Nat) (w : Wave) (ctx : Nat) (dreg : Reg) (v : DWord) : State :=
  let t := takeMs s w.lid w.party ctx
  setWave (finishMs t.2 w.lid w.party ctx t.1) wid (statusAtIssue (nextSeq w) dreg v)

/-- The parts that every copy has at issue. -/
def baseCopy (s : State) (wid : Nat) (w : Wave) (kind : CKind) (seg opcode ctx num : Nat) (dreg : Reg) : Copy :=
  let g := segOf s wid w seg
  { kind := kind, wid := wid, lid := w.lid, core := coreNo wid, party := w.party, wnum := w.num,
    op := s.nextId, asid := asidOf s w, addr := s.cur.here, seq := w.seq + 1,
    opcode := opcode, seg := seg, far := segFar g, direct := segAlias g, cls := segClass g, runs := [],
    lin := if segPage g then none else some (g.base, homeLoc (segFar g) (dieNo wid) g.pbase),
    pages := [], fails := [], todo := [], loff := 0, len := 0, rowlen := 0, count := 0, pitch := 0, list := 0, row0 := 0, base := g.base,
    lim := if segValid g && segRd g then g.limit else 0, ctx := ctx, num := num, dreg := dreg, tick := 0, got := [], drained := false,
    targets := [], faulted := false }

/-- Put a copy in flight: its number, its sequence number, its mark and its toll. -/
def addCopy (s : State) (wid : Nat) (w : Wave) (seg ctx : Nat) (dreg : Reg) (bytes : Nat) (mk : Nat → Copy) : State :=
  let t := takeMs s w.lid w.party ctx
  let s1 := setWave { t.2 with copies := Tab.put t.2.copies s.nextId (mk t.1), nextId := s.nextId + 1 } wid
    (addBusy (nextSeq w) s.nextId [dreg])
  if segFar (segOf s wid w seg) then tollDebit s1 wid w true bytes else s1

/-- MCOPY (R230). -/
def execMcopy (f : MCopyF) (s : State) : Out :=
  slotOp (.mcopy f) s fun wid w s =>
    let dreg := nameS w.sup f.d.toNat
    let len := (copyReg s w f.a 2).toNat
    let la := (copyReg s w f.a 1).toNat
    let slot := match slotAddr la len with | some x => x | none => (0, 0)
    if effMask s w (tagOf 5 0) f.h.k.toNat = 0 then emptyCopy s wid w f.ctx.toNat dreg (copyStatus true 0 0 0 0 0)
    else if len = 0 then
      let s1 := emptyCopy s wid w f.ctx.toNat dreg (copyStatus true 0 0 0 0 0)
      if f.slot && !f.out then modEntry s1 (coreNo wid) slot.1 fun e => { e with st := .ready, fmtt := 15, ort := false, flt := false, step := 0 }
      else s1
    else
      let off : Int := (copyReg s w f.a 0).toNat + mDisp s f.h.disp
      let kind : CKind := if f.slot then (if f.out then .outSlot else .inSlot) else if f.out then .outLocal else .inLocal
      let s1 := addCopy s wid w f.h.seg.toNat f.ctx.toNat dreg len fun num =>
        { baseCopy s wid w kind f.h.seg.toNat 0x10 f.ctx.toNat num dreg with
          runs := [(((segOf s wid w f.h.seg.toNat).base + off).toNat, len)]
          todo := [(0, len)]
          loff := if f.slot then 8192 * slot.1 + slot.2 else la
          len := len }
      if f.slot then modEntry s1 (coreNo wid) slot.1 fun e => { e with st := if f.out then .draining else .filling, step := 0 } else s1

/-- MGATHER (R232). -/
def execMgather (f : MGatherF) (s : State) : Out :=
  slotOp (.mgather f) s fun wid w s =>
    let dreg := nameS w.sup f.d.toNat
    if effMask s w (tagOf 5 0) f.h.k.toNat = 0 then emptyCopy s wid w f.ctx.toNat dreg (copyStatus true 0 0 0 0 0)
    else
      let r2 := (copyReg s w f.a 2).toNat
      let r3 := (copyReg s w f.a 3).toNat
      let len := r2 % 2 ^ 32 * (r2 / 2 ^ 32 % 65536)
      addCopy s wid w f.h.seg.toNat f.ctx.toNat dreg len fun num =>
        { baseCopy s wid w .gather f.h.seg.toNat 0x11 f.ctx.toNat num dreg with
          loff := (copyReg s w f.a 1).toNat
          len := len
          rowlen := r2 % 2 ^ 32
          count := r2 / 2 ^ 32 % 65536
          pitch := r3 / 2 ^ 32
          list := r3 % 2 ^ 32
          row0 := (copyReg s w f.a 0).toNat + mDisp s f.h.disp }

/-- The targets of an MCAST by position in the cluster (R233). -/
def castTargets (m : BitVec 4) : List Target :=
  ((List.range 4).filter fun i => m.getLsbD i).map fun i => { pos := i, done := false, refused := false, norecv := false }

/-- MCAST (R233, R345). -/
def execMcast (f : MCastF) (s : State) : Out :=
  slotOp (.mcast f) s fun wid w s =>
    let dreg := nameS w.sup f.d.toNat
    let len := (copyReg s w f.a 2).toNat
    if effMask s w (tagOf 5 0) f.h.k.toNat = 0 then emptyCopy s wid w f.ctx.toNat dreg (copyStatus true 0 0 0 0 0)
    else
      let off : Int := (copyReg s w f.a 0).toNat + mDisp s f.h.disp
      addCopy s wid w f.h.seg.toNat f.ctx.toNat dreg len fun num =>
        { baseCopy s wid w .cast f.h.seg.toNat 0x12 f.ctx.toNat num dreg with
          runs := if len = 0 then [] else [(((segOf s wid w f.h.seg.toNat).base + off).toNat, len)]
          todo := if len = 0 then [] else [(0, len)]
          loff := (copyReg s w f.a 1).toNat
          len := len
          tick := (copyReg s w f.a 3).toNat
          targets := castTargets f.targets }

/-! ### Moving bytes -/

def isOut (k : CKind) : Bool := match k with | .outLocal => true | .outSlot => true | _ => false

/-- The 4 KiB regions of a copy's global side. -/
def copyRegions (c : Copy) : List Nat :=
  distinct (c.runs.flatMap fun r => if r.2 = 0 then [] else (List.range ((r.1 + r.2 - 1) / 4096 - r.1 / 4096 + 1)).map (r.1 / 4096 + ·))

/-- Every row's index has been read, and every region translated or found to fail. -/
def copyLooked (c : Copy) : Bool :=
  (c.kind != .gather || c.runs.length == c.count) &&
    (c.lin.isSome || (copyRegions c).all fun r => (Tab.find c.pages r).isSome || (Tab.find c.fails r).isSome)

/-- The bytes still to be moved whose place is known. -/
def movable (c : Copy) : List Nat := (numbers c.todo).filter fun k => (copyLoc c (runVa c.runs k)).isSome

/-- Intervals without [a, b). -/
def cutOut (a b : Nat) (l : List (Nat × Nat)) : List (Nat × Nat) :=
  l.flatMap fun r =>
    if b ≤ r.1 ∨ r.1 + r.2 ≤ a then [r]
    else (if r.1 < a then [(r.1, a - r.1)] else []) ++ (if b < r.1 + r.2 then [(b, r.1 + r.2 - b)] else [])

/-- A byte that a copy reads at its home (R208). -/
def copyByte (s : State) (c : Copy) (va loc : Nat) : Byte :=
  ((aliasRead s (copyVia c va loc) loc 1 (1000 + va) (devBytes s loc 1, s)).1).headD 0

/-- Move byte k: its near line stands in L2 (R18, R189). -/
def moveByte (c : Copy) (s0 : State) (k : Nat) : State :=
  let va := runVa c.runs k
  match copyLoc c va with
  | none => s0
  | some loc =>
    let s := holdL2 s0 c.asid va loc 1 c.direct
    match c.kind with
    | .outLocal | .outSlot =>
      let o := copyOrigin c va loc
      aliasStore (commitByte s o loc (copySource s c k)) s o loc 1
    | .inSlot => slotWrite s c.core (c.loff / 8192) (c.loff % 8192 + k) [copyByte s c va loc]
    | .cast => s
    | _ => padWrite s c.core (padBase s c.core c.lid + c.loff + k) [copyByte s c va loc]

/-- The move of byte k would read bad data (R205). -/
def moveBad (s : State) (c : Copy) (k : Nat) : Bool :=
  match copyLoc c (runVa c.runs k) with
  | none => false
  | some loc =>
    match c.kind with
    | .outLocal => eccPadHit s c.core (padBase s c.core c.lid + c.loff + k) 1
    | .outSlot => false
    | _ => eccHit s loc 1

/-- The error words that the bytes a copy has moved so far, these among them, overwrite whole (R206); c is the copy before the move of
the run. -/
def moveClear (s : State) (c : Copy) (a n : Nat) : State :=
  let moved := (List.range c.len).filter fun k => !((cutOut a (a + n) c.todo).any fun r => decide (r.1 ≤ k ∧ k < r.1 + r.2))
  match c.kind with
  | .outLocal | .outSlot =>
    if s.ecc.isEmpty && s.dies.all (fun d => d.2.l2.all fun x => x.2.bad.isEmpty) then s
    else eccClearAll s (moved.filterMap fun k => (copyLoc c (runVa c.runs k)).map fun x => (x, 1))
  | .inSlot => s
  | .cast => s
  | _ =>
    if s.eccPad.isEmpty then s
    else
      let base := padBase s c.core c.lid + c.loff
      eccPadClearAll s c.core (moved.map fun k => (base + k, 1))

/-- The final status of a copy; an MCAST that landed gives its length once, on however many targets (DESIGN CHOICE, log 63). -/
def finalStatus (c : Copy) : DWord :=
  let refused := c.targets.foldl (fun a t => if t.refused then a + 2 ^ t.pos else a) 0
  let norecv := c.targets.foldl (fun a t => if t.norecv then a + 2 ^ t.pos else a) 0
  let landed := c.kind != .cast || c.targets.any fun t => !t.refused && !t.norecv
  copyStatus true refused norecv (if refused ≠ 0 then 2 else if norecv ≠ 0 then 3 else 0) 0 (if landed then c.len else 0)

/-- How many numbers count on from a at the head of a list. -/
def runLen : Nat → List Nat → Nat
  | _, [] => 0
  | a, k :: t => if k = a then runLen (a + 1) t + 1 else 0

/-- Move a run of bytes, chosen freely among those whose place is known (R230). -/
def moveSome (s : State) (id : Nat) (c : Copy) (ks : List Nat) : State :=
  let i := pick s 70 ks.length
  let a := ks.getD i 0
  let most := runLen a (ks.drop i)
  let n := 1 + pick s 71 most
  let run := (List.range n).map (a + ·)
  if run.any (moveBad s c) then dataError s c.wid c.addr
  else
    let s1 := moveClear (run.foldl (moveByte c) s) c a n
    let got := if c.kind = .cast then run.foldl (fun t k => match copyLoc c (runVa c.runs k) with
      | some loc => Tab.put t k (copyByte s c (runVa c.runs k) loc)
      | none => t) c.got else c.got
    let c1 := { c with todo := cutOut a (a + n) c.todo, got := got }
    if c1.todo.isEmpty && c1.kind != .cast && (c1.kind != .gather || c1.runs.length == c1.count) then finishCopy s1 id c1 (finalStatus c1)
    else setCopy s1 id c1

/-- Read the next index of a gather and check its row (R232). -/
def readRow (s : State) (id : Nat) (c : Copy) : State :=
  let q := c.runs.length
  let at_ := padBase s c.core c.lid + c.list + 4 * q
  if eccPadHit s c.core at_ 4 then dataError s c.wid c.addr
  else
    let off : Int := c.row0 + (leNat (padBytes s c.core at_ 4) : Int) * c.pitch
    if 0 ≤ off ∧ off + c.rowlen ≤ c.lim then
      setCopy s id { c with runs := c.runs ++ [(c.base + off.toNat, c.rowlen)], todo := c.todo ++ [(q * c.rowlen, c.rowlen)] }
    else
      match waveOf s c.wid with
      | some w => killWave s c.wid w 0x06 c.addr 0
      | none => s

/-! ### Faults (R231) -/

/-- Pages of the segment's class that failed, in order of address. -/
def failPages (c : Copy) : List Nat := distinct (c.fails.map fun e => e.1 * 4096 / classSize c.cls)

def hasCopyRecord (w : Wave) (id : Nat) (c : Copy) (pg : Nat) : Bool :=
  w.recs.any fun e => e.2.acc == id && e.2.copy && recVa e.2 / classSize c.cls == pg

/-- The lowest address of a copy in a page. -/
def lowVa (c : Copy) (pg : Nat) : Nat :=
  let size := classSize c.cls
  (c.runs.filterMap fun r => if r.1 < (pg + 1) * size ∧ pg * size < r.1 + r.2 then some (max r.1 (pg * size)) else none).foldl min
    ((pg + 1) * size - 1)

/-- The record of a copy for a page. An outbound copy holds no late-fault entry: WHERE names the home, with entry and count 0 (DESIGN
CHOICE, log 48). -/
def copyRecord (id : Nat) (c : Copy) (pg : Nat) (again : Bool) : FRec :=
  let cause := ((c.fails.find? fun e => e.1 * 4096 / classSize c.cls == pg).map (·.2)).getD 1
  let words : RecWords :=
    { addr := c.addr, slot := 5, lane := 31, cause := cause, asid := c.asid, va := lowVa c pg, widc := 7, seg := c.seg, seq := c.seq,
      step := 0, opcode := c.opcode, scope := 0, ord := 0, again := again, cls := if isOut c.kind then 1 else 0,
      whr := if isOut c.kind then 4096 * (if c.far then 8 else dieOfCore c.core) else 2 ^ 31 }
  { bits := recBits words, acc := id, lanes := BitVec.ofNat 32 (2 ^ 31), cause := cause, store := isOut c.kind, copy := true, watch := false,
    loc := none }

/-- BYTES of a fault (R229): an MCAST has written nothing before it lands. -/
def faultBytes (c : Copy) : Nat := if c.kind == .cast then 0 else (c.todo.foldl (fun m r => min m r.1) c.len) / 4096 * 4096

/-- The slot in which a copy's first record lies. -/
def copyRecSlot (w : Wave) (id : Nat) : Nat := ((w.recs.find? fun e => e.2.acc == id && e.2.copy).map (·.1)).getD 0

/-- Queue the records that a faulted copy has still to give. -/
def recordCopy (s : State) (id : Nat) (c : Copy) : State :=
  match waveOf s c.wid with
  | none => s
  | some w =>
    let x := pushAll s c.wid w (((failPages c).filter fun pg => !hasCopyRecord w id c pg).map fun pg => copyRecord id c pg false)
    reach x.1 c.wid x.2.1

/-- Write the status of a fault. -/
def faultStatus (s : State) (id : Nat) (c : Copy) : State :=
  match waveOf s c.wid with
  | none => s
  | some w =>
    let v := copyStatus false 0 0 1 (copyRecSlot w id) (faultBytes c)
    setCopy (reach s c.wid (clearBusy (statusWrite w c.dreg v) id)) id { c with faulted := true }

/-- A copy into a slot keeps the BYTES that a fault leaves it while the contents of its slot are undefined (R143, R231). -/
def keepBytes (s : State) (c : Copy) : Copy :=
  match c.kind with
  | .inSlot =>
    let im := Tab.findD (coreOf s c.core).images (c.loff / 8192) []
    { c with got := (List.range (faultBytes c)).foldl (fun t k => match Tab.find im (c.loff % 8192 + k) with
        | some v => Tab.put t k v
        | none => t) [] }
  | _ => c

/-- The fault of a copy: records, status, and a slot that was being filled is empty with undefined contents (R143, R231). -/
def copyFault (s : State) (id : Nat) (c : Copy) : State :=
  let s1 := faultStatus (recordCopy s id c) id (keepBytes s c)
  match c.kind with
  | .inSlot => dropImage (modEntry s1 c.core (c.loff / 8192) fun e => { e with st := .empty, flt := true, step := 0 }) c.core (c.loff / 8192)
  | _ => s1

/-! ### Events -/

/-- Room for a first record. -/
def hasRoom (s : State) (wid : Nat) : Bool := match waveOf s wid with | some w => w.count < 64 | none => false

/-- COPY_COMPLETE (R228, R230 to R232): a copy reads an index, moves bytes, faults or completes. -/
def execCopyComplete (id : Nat) (s : State) : Out :=
  match copyOf s id with
  | none => notEnabled
  | some c =>
    if c.faulted || (c.kind == .outSlot && !c.drained) then notEnabled
    else if c.kind == .cast && c.todo.isEmpty then
      if c.targets.all (·.done) then done (finishCopy s id c (finalStatus c)) else notEnabled
    else
      let ks := movable c
      if c.kind == .gather && c.runs.length < c.count && (ks.isEmpty || pick s 72 2 == 0) then done (readRow s id c)
      else if !c.fails.isEmpty && copyLooked c && hasRoom s c.wid && (ks.isEmpty || pick s 73 2 == 0) then done (copyFault s id c)
      else if ks.isEmpty then notEnabled
      else done (moveSome s id c ks)

/-- Translate one region of a copy. -/
def lookCopy (s : State) (id : Nat) (c : Copy) (r : Nat) : State :=
  let x := lookAt s c.core c.far c.asid c.cls (!isOut c.kind) (isOut c.kind) (r * 4096)
  match x.1 with
  | .ecc => dataError x.2 c.wid c.addr
  | .at_ loc => setCopy x.2 id { c with pages := Tab.put c.pages r loc, fails := Tab.del c.fails r }
  | .fault k => setCopy x.2 id { c with fails := Tab.put c.fails r k }

/-- PAGE_WALK (R186, R192): the home controller of a 4 KiB region translates it for a load-class access or a copy. -/
def execPageWalk (id va : Nat) (s : State) : Out :=
  match accOf s id with
  | some a => if !isStore a.kind && canLook s id a (some (va / 4096)) then done (lookAcc s id a (some (va / 4096))) else notEnabled
  | none =>
    match copyOf s id with
    | none => notEnabled
    | some c =>
      let r := va / 4096
      if c.lin.isNone && !c.faulted && (copyRegions c).contains r && (Tab.find c.pages r).isNone && (Tab.find c.fails r).isNone then
        done (lookCopy s id c r)
      else notEnabled

/-! ### Landing (R233 to R236) -/

/-- The landing buffers that n bytes from an offset touch. -/
def buffers (off n : Nat) : DWord :=
  if n = 0 then 0 else BitVec.ofNat 64 ((List.range ((off + n - 1) / 6144 - off / 6144 + 1)).foldl (fun a i => a + 2 ^ (off / 6144 + i)) 0)

/-- The lowest bit that is set. -/
def lowBit (v : DWord) : Nat := ((List.range 64).find? fun b => v.getLsbD b).getD 0

/-- The resident wave of a launch on a core with the lowest slot. -/
def lowestWave (s : State) (core lid : Nat) : Option Nat := ((wavesOn s core).find? fun e => e.2.lid == lid && e.2.st != .retired).map (·.1)

/-- The owner of a buffer (R234, R236). Once the owner has retired the lowest wave is looked up afresh at each landing, so a wave placed later in
a lower slot takes the buffer over (R236 does not say; DESIGN CHOICE, log 71). -/
def ownerOf (s : State) (core lid b : Nat) : Option Nat :=
  match Tab.find (shareOf s core lid).owners b with
  | some wid =>
    (match waveOf s wid with
    | some w => if w.lid == lid && w.st != .retired then some wid else lowestWave s core lid
    | none => lowestWave s core lid)
  | none => lowestWave s core lid

def setTarget (c : Copy) (pos : Nat) (f : Target → Target) : Copy :=
  { c with targets := c.targets.map fun t => if t.pos == pos then f t else t }

/-- Land, or be refused with a landing conflict due at the owner (R235). -/
def land (s : State) (id : Nat) (c : Copy) (core pos : Nat) : State :=
  let bits := buffers c.loff c.len
  let sh := shareOf s core c.lid
  if (lowestWave s core c.lid).isNone then setCopy s id (setTarget c pos fun t => { t with done := true, norecv := true })
  else if sh.landbusy &&& bits = 0 then
    let bs := (List.range c.len).map fun k => Tab.findD c.got k 0
    let s1 := eccPadClear (padWrite s core (padBase s core c.lid + c.loff) bs) core (padBase s core c.lid + c.loff) c.len
    setCopy (modShare s1 core c.lid fun x => { x with landbusy := x.landbusy ||| bits }) id (setTarget c pos fun t => { t with done := true })
  else
    let s1 := setCopy s id (setTarget c pos fun t => { t with done := true, refused := true })
    match ownerOf s core c.lid (lowBit (sh.landbusy &&& bits)) with
    | some wid => modWave s1 wid fun w => if w.sup then { w with landSup := true } else { w with landDue := true }
    | none => s1

/-- MCAST_LANDING (R235): at the later of arrival and the tick, one target lands or is refused. -/
def execMcastLanding (id : Nat) (pos : BitVec 2) (s : State) : Out :=
  match copyOf s id with
  | none => notEnabled
  | some c =>
    if c.kind == .cast && c.todo.isEmpty && !c.faulted && c.tick ≤ ticks s && c.targets.any fun t => t.pos == pos.toNat && !t.done then
      done (land s id c (c.core / 4 * 4 + pos.toNat) pos.toNat)
    else notEnabled

end Sys2Proof.Machine
end

