-- ==== Sys2Proof/Machine/Power.lean ====
section
/-! DEFINITION. The power controls: operating-point transitions (R285), allowance and matrix throttle (R287 to R289), what power
withholds (R287, R407), caps (R291), droop (R293, R407), sensors (R296), samples (R295), slice rails (R171, R174, R175), and the ends
of power withholding and of a yielded mark (R42, R47). -/

namespace Sys2Proof.Machine

/-! ### Operating points -/

/-- A core whose cycles are carried out one by one: it has a launch, or filler steps to run (R289). The clock of another core runs on
and is counted when it is looked at. -/
def clocked (x : Core) : Bool := !x.shares.isEmpty || x.lastKind != 0

/-- The period of a core at which it is not stretched (R285). -/
def flatPeriod (s : State) (c : Nat) : Nat := periodOf (modCore s c fun x => { x with stretch := none }) c

/-- The edges of a core that is not clocked that have passed by the present, of which the first k cycles are stretched (R293). -/
def idleEdges (s : State) (c : Nat) : Nat :=
  let x := coreOf s c
  let p := flatPeriod s c
  let k := x.stretch.getD 0
  let d := s.now - x.edge
  if s.now < x.edge then 0 else if d < 2 * p * k then d / (2 * p) + 1 else k + (d - 2 * p * k) / p + 1

/-- Bring the cycle counter of a core that is not clocked up to the present (R295), and its droop's counters with it. -/
def catchUp (s : State) (c : Nat) : State :=
  let x := coreOf s c
  if clocked x then s
  else
    let n := idleEdges s c
    let k := x.stretch.getD 0
    let e := x.edge + (if n ≤ k then 2 * n else n + k) * flatPeriod s c
    let after := fun (left past : Nat) => if left ≤ past then none else some (left - past)
    setCore s c { x with
      cyc := x.cyc + BitVec.ofNat 64 n
      edge := e
      stretch := after k n
      halve := if x.stretch.isSome then (if n < k then none else after 64 (n - k)) else x.halve.bind fun h => after h n
      pair := if x.stretch.isSome then n - k else if x.halve.isSome then x.pair + n else x.pair }

/-- A core leads another of its cluster: its clock is faster, or as fast where it alone is clocked. -/
def leadsOver (s : State) (y x : Nat) : Bool :=
  decide (flatPeriod s y < flatPeriod s x) || (flatPeriod s y == flatPeriod s x && clocked (coreOf s y) && !clocked (coreOf s x))

/-- The fastest core of a cluster, whose cycles its allowance follows (R287): a clocked one among equals, the lowest of those. -/
def leader (s : State) (cl : Nat) : Nat := (best (leadsOver s) ((List.range 4).map (4 * cl + ·))).getD (4 * cl)

/-- The fastest core of a cluster is not clocked: the allowance is credited with its cycles when it is looked at. -/
def idleLed (s : State) (cl : Nat) : Bool := !clocked (coreOf s (leader s cl))

/-- The moment up to which the clock of a core that is not clocked is stretched (R293). -/
def stretchedTo (s : State) (c : Nat) : Nat :=
  let k := (coreOf s c).stretch.getD 0
  if k = 0 then 0 else (coreOf s c).edge + 2 * flatPeriod s c * k

/-- Credit a cluster whose fastest core is not clocked with that core's cycles since it was last credited (R287). -/
def quietGain (s : State) (cl : Nat) : State :=
  if idleLed s cl then
    let x := clus s cl
    let p := flatPeriod s (leader s cl)
    let t := max x.at_ (min s.now (stretchedTo s (leader s cl)))
    let n := (t - x.at_) / (2 * p) + (s.now - t) / p
    let b := (dieOf s (cl / 8)).clbud
    setClus s cl { x with
      at_ := if t < s.now then t + (s.now - t) / p * p else x.at_ + 2 * p * n
      allow := min (x.allow + n * b * s.caps.f) (1024 * b) }
  else s

/-- A core, and its cluster, up to the present. -/
def wake (s : State) (c : Nat) : State := catchUp (quietGain s (clusterOf c)) c

/-- OPP_PHASE_END (R285). -/
def execOppPhaseEnd (core : Nat) (s : State) : Out :=
  let x := coreOf s core
  match x.trans with
  | none => notEnabled
  | some t =>
    if !t.phase2 && t.end_ ≤ s.now then
      let e := t.end_ + (if t.up then 48 * Config.period x.op else slewTime)
      done (setCore s core { x with trans := some { t with phase2 := true, end_ := e } })
    else notEnabled

/-- OPP_TRANSITION_END (R285): the new point takes effect; a target that has changed meanwhile starts another transition. -/
def execOppTransitionEnd (core : Nat) (s : State) : Out :=
  match (coreOf s core).trans with
  | none => notEnabled
  | some t =>
    if t.phase2 && t.end_ ≤ s.now then
      done (retarget (modCore (wake s core) core fun x => { x with op := t.target, trans := none }) core)
    else notEnabled

/-! ### Allowance and matrix throttle -/

/-- The step estimate of an array operation, 0 for another one (R287). -/
def arrayCost (p : POp) : Nat :=
  match p with
  | .mma f => if f.fmt = .bf16 ∨ f.fmt = .f16 then 2600 else 3000
  | .mmao _ => 2600
  | .bmm _ => 3600
  | _ => 0

/-- Debit the allowance of a core's cluster, in pJ. -/
def debit (s : State) (core n : Nat) : State := modClus s (clusterOf core) fun c => { c with allow := c.allow - 256 * n }

/-- The budget of a core's cluster. -/
def budget (s : State) (core : Nat) : Nat := (dieOf s (dieOfCore core)).clbud

/-- ALLOWANCE_GAIN (R287, R291). -/
def execAllowanceGain (cluster : Nat) (s : State) : Out :=
  let x := clus s cluster
  if x.due = 0 then notEnabled
  else
    let b := budget s (4 * cluster)
    done (setClus s cluster { x with due := x.due - 1, allow := min (x.allow + b * s.caps.f) (1024 * b) })

/-- ALLOW_STEP (R288). -/
def execAllowStep (core : Nat) (s : State) : Out :=
  let x := coreOf s core
  if x.allow ≠ 0 ∧ 1024 ≤ x.above then done (setCore s core { x with allow := x.allow - 1, above := 0 }) else notEnabled

/-- RAMP_STEP (R289). -/
def execRampStep (core : Nat) (s : State) : Out :=
  let x := coreOf s core
  if x.ramp ≠ 0 ∧ 256 < x.rampCyc then done (setCore s core { x with ramp := x.ramp - 1, rampCyc := 1 }) else notEnabled

/-- The array has work queued. -/
def arrayWork (x : Core) : Bool := x.pilot.any fun p => arrayCost p.op != 0

/-- A filler step runs in a cycle of the fill-down: at level k in the first 9 - k cycles of each frame of eight (R289). -/
def fillerDue (x : Core) : Bool := match x.filling with | some k => decide (x.cyc.toNat % 8 + k < 9) | none => false

/-- The launch of a tile party has drawn energy (R295). -/
def drewBy (s : State) (lid : Nat) : State := modLaunch s lid fun l => { l with drew := true }

/-- A tile store that the Pilot has still to fill, the memory form of TQUANT (R375). -/
def quantStore (s : State) (p : PilotOp) : Option Acc := match p.op with | .quant _ _ id => accOf s id | _ => none

/-- A publication has taken a tile store that the Pilot has still to fill: the publication waits for it, and a stop with it (log 45). -/
def pilotOwes (s : State) (core : Nat) : Bool :=
  (coreOf s core).pilot.any fun p => match quantStore s p with | some a => a.epoch.isSome | none => false

/-- The Pilot of a core has been told to stop (R149): every wave of the tile party has reached its safe point. -/
def pilotPaused (s : State) (core : Nat) : Bool :=
  match (coreOf s core).tile with
  | none => false
  | some t =>
    !pilotOwes s core && (match launchOf s t.1 with | some l => l.stopping | none => false) &&
      (wavesOn s core).all fun e => !(e.2.lid == t.1 && e.2.party == t.2) || e.2.stopping.isSome || e.2.st == .stopped || e.2.st == .retired || e.2.st == .carved

/-- The Pilot has no step to run before it rests: no operation is queued, or its head stands at a multiple of 64 steps (R149). -/
def pilotAtRest (x : Core) : Bool := match x.pilot with | [] => true | p :: _ => p.step % 64 == 0 && p.step < p.steps

/-- The array has no work for the party that used it last: none is queued, another party's is, or the Pilot rests before a stop (R289). -/
def fillIdle (s : State) (core : Nat) : Bool :=
  let x := coreOf s core
  !arrayWork x || x.fillFor != x.tile || (pilotPaused s core && pilotAtRest x)

/-- The filler step of a cycle in which the array has no work: it is debited like the array step that the core ran last, and charged to the
launch that ended the work (R287, R289). -/
def fillerStep (s : State) (core : Nat) : State :=
  let x := coreOf s core
  if fillerDue x && fillIdle s core then (x.fillFor.map (·.1)).toList.foldl drewBy (debit s core x.lastKind) else s

/-- ARRAY_FILL_DOWN (R289): the fill-down begins when the array has no work for the party that used it last, or ends a level; after
the eighth the array is idle. It also runs before a stop is saved, once the Pilot rests. The filler steps run in the core's cycles. -/
def execArrayFillDown (core : Nat) (s : State) : Out :=
  let x := coreOf s core
  match x.filling with
  | none =>
    if x.lastKind ≠ 0 ∧ fillIdle s core then done (setCore s core { x with filling := some 1, lastArray := ticks s }) else notEnabled
  | some k =>
    if x.lastArray + 300 ≤ ticks s then
      if 8 ≤ k then done (setCore (quietGain s (clusterOf core)) core { x with filling := none, lastKind := 0, fillFor := none, ramp := 7, rampCyc := 0 })
      else done (setCore s core { x with filling := some (k + 1), lastArray := x.lastArray + 300 })
    else notEnabled

/-! ### What power withholds (R287, R407) -/

/-- The slot estimates of R287, in pJ. -/
def slotCost (x : SlotId) : Nat := match x with | .S => 20 | .V0 => 150 | .V1 => 150 | .F => 100 | .L => 40 | .M => 200 | .T => 20
def bundleCost (b : Bundle) : Nat := b.slots.foldl (fun n e => n + slotCost e.1) 0
def hasSlot (b : Bundle) (x : SlotId) : Bool := b.slots.any fun e => e.1 == x

/-- A droop halving bars the cycle (R407): the first of each pair is admitted. -/
def halvedOut (x : Core) : Bool := x.halve.isSome && x.pair % 2 == 0

/-- Power withholds a bundle (R287, R407). -/
def powerHeld (s : State) (core : Nat) (b : Bundle) : Bool :=
  let a := (clus s (clusterOf core)).allow
  halvedOut (coreOf s core) || decide (a < ((256 * bundleCost b : Nat) : Int)) || (hasSlot b .T && decide (a < ((256 * budget s core : Nat) : Int)))

/-- POWER_EXEMPT (R42). -/
def execPowerExempt (wid : Nat) (s : State) : Out :=
  match waveOf s wid with
  | none => notEnabled
  | some w => if Config.exemptAfter ≤ w.withheld && !w.exempt then done (setWave s wid { w with exempt := true }) else notEnabled

/-- YIELD_MARK_EXPIRY (R47). -/
def execYieldMarkExpiry (wid : Nat) (s : State) : Out :=
  match waveOf s wid with
  | none => notEnabled
  | some w =>
    match w.yielded with
    | some y => if 1024 ≤ y.age then done (setWave s wid { w with yielded := none }) else notEnabled
    | none => notEnabled

/-! ### Caps (R291, R292) -/

/-- The scale F after a measurement: energies in microjoules. -/
def nextF (f peak avg e10 e1 : Nat) : Nat :=
  if peak * 10 < e10 then max (f / 2) 1
  else if peak * 150 < 16 * e10 ∨ avg * 15000000 < 16 * e1 then max (f - 16) 1
  else if 8 * e10 < peak * 70 ∧ 8 * e1 < avg * 7000000 then min (f + 1) 256
  else f

/-- CAP_MEASUREMENT (R291): package power over the last microsecond, in W. -/
def execCapMeasurement (pwr : Nat) (s0 : State) : Out :=
  let s := s0.clusters.foldl (fun a e => quietGain a e.1) s0
  let c := s.caps
  if (c.made + 1) * 1200 ≤ ticks s then
    let es := (pwr :: c.e1).take 1000000
    let e10 := (es.take 10).sum
    let e1 := es.sum
    let f := nextF c.f c.peak c.avg e10 e1
    let low := decide (f < c.f)
    done { s with caps := { c with
      f := f
      pwr := pwr
      peakLim := low && decide (c.peak * 150 < 16 * e10)
      avgLim := low && decide (e10 ≤ c.peak * 10 ∧ c.avg * 15000000 < 16 * e1)
      e1 := es
      made := c.made + 1 } }
  else notEnabled

/-! ### Droop (R293, R407) -/

/-- Apply a function to the cores of a cluster. -/
def modCluster (s : State) (cluster : Nat) (f : Core → Core) : State := (List.range 4).foldl (fun a i => modCore a (4 * cluster + i) f) s

/-- An alarm on one core: ignored while stretching; it restarts a halving, whose pairs go on (R407), else six cycles are stretched. -/
def alarmCore (x : Core) : Core :=
  match x.stretch, x.halve with
  | some _, _ => x
  | none, some _ => { x with halve := some 64 }
  | none, none => { x with stretch := some 6 }

/-- A cluster and its idle cores up to the present. -/
def catchCluster (s : State) (cluster : Nat) : State := (List.range 4).foldl (fun a i => catchUp a (4 * cluster + i)) (quietGain s cluster)

/-- DROOP_ALARM (R293): the rail of the cluster has fallen past its threshold. -/
def execDroopAlarm (cluster : Nat) (s0 : State) : Out :=
  let s := catchCluster s0 cluster
  let heard := (List.range 4).any fun i => (coreOf s (4 * cluster + i)).stretch.isNone
  let s1 := modCluster s cluster alarmCore
  done (if heard then modClus s1 cluster fun c => { c with alarms := BitVec.ofNat 32 (min (c.alarms.toNat + 1) (2 ^ 32 - 1)) } else s1)

/-- DROOP_STRETCH_END (R293): halving follows the sixth stretched cycle. -/
def execDroopStretchEnd (cluster : Nat) (s : State) : Out :=
  if (List.range 4).any fun i => (coreOf s (4 * cluster + i)).stretch == some 0 then
    done (modCluster s cluster fun x => if x.stretch = some 0 then { x with stretch := none, halve := some 64, pair := 0 } else x)
  else notEnabled

/-- DROOP_HALVING_END (R293). -/
def execDroopHalvingEnd (cluster : Nat) (s : State) : Out :=
  if (List.range 4).any fun i => (coreOf s (4 * cluster + i)).halve == some 0 then
    done (modCluster s cluster fun x => if x.halve = some 0 then { x with halve := none } else x)
  else notEnabled

/-! ### Slice rails (R174, R176) -/

/-- Keep an offset in the window (R176); a MINOFF above MAXOFF acts as MAXOFF. -/
def clampOff (lo hi x : Nat) : Nat := max (min lo hi) (min x hi)

/-- The effective level of a core's tile party, 3 where it has none (R169, R171). -/
def tileLevel (s : State) (core : Nat) : Nat :=
  match (coreOf s core).tile with
  | some t => (match launchOf s t.1 with | some l => l.level | none => 3)
  | none => 3

/-- The slices of a core that are undervolted at a level: a held one stands on the core rail (R165, R174). -/
def undervolted (s : State) (core lvl : Nat) : List Nat :=
  (List.range 3).filter fun q => q + lvl < 3 && ((coreOf s core).slices.getD q Slice.init).held.isNone

/-- The offset in use of a slice, in steps of 5 mV below the core rail: none for a slice on the core rail (R171, R174) and while the
operating point settles (R175), else the stored offset of the point, as far as the rail stays at 0.40 V (R174). -/
def railOffset (s : State) (core slice : Nat) : Nat :=
  let c := coreOf s core
  if c.trans.isSome || !(undervolted s core (tileLevel s core)).contains slice then 0
  else min ((c.slices.getD slice Slice.init).offs.getD c.op 0) (2 * (Config.centiVolt c.op - 40))

/-- One interval of the rail loop, for a slice that performed slice-operations: it steps the offset of the operating point in force at
the interval's end (log 54). -/
def railStep (x : Slice) (op texp lo hi : Nat) : Slice :=
  let i := x.int + (x.det : Int) * 2 ^ 40 - (2 ^ texp * x.ops : Nat)
  let off := x.offs.getD op 0
  if 4 * 2 ^ 40 ≤ i then
    if min lo hi < off then { x with offs := listSet x.offs op (off - 1), lim := 0, int := 0 } else { x with lim := x.lim + 1, int := 0 }
  else if i ≤ -(4 * 2 ^ 40) then { x with offs := listSet x.offs op (min (off + 1) hi), int := 0, lim := 0 }
  else { x with int := i }

/-- The products that an array step forms in slices: a TMMA's in equal parts, the 4,096 of a TMMAO over its steps 0 to 10 (R149, R161,
R164; log 54). -/
def stepProducts (p : PilotOp) : Nat :=
  match p.op with
  | .mma f => if f.fmt = .bf16 ∨ f.fmt = .f16 then 8192 else 16384
  | .mmao _ => if p.step < 11 then 4096 * (p.step + 1) / 11 - 4096 * p.step / 11 else 0
  | _ => 0

/-- Count the slice-operations of an array step in the interval in which it runs (R173, R174). -/
def countOps (s : State) (core : Nat) (p : PilotOp) : State :=
  let und := undervolted s core (tileLevel s core)
  modCore s core fun x => { x with
    slices := (List.range 4).map fun q =>
      let y := x.slices.getD q Slice.init
      if und.contains q then { y with ops := y.ops + stepProducts p } else y }

/-- SLICE_RAIL_LOOP (R174): a slice that is undervolted and has worked is stepped; after 16 limited steps it is held on the core rail
for its tile party. Offsets outside the window move to its edge, also where the loop is frozen (R176, log 54). -/
def execSliceRailLoop (core : Nat) (slice : BitVec 2) (s : State) : Out :=
  let c := coreOf s core
  let d := dieOf s (dieOfCore core)
  let x := c.slices.getD slice.toNat Slice.init
  if slice = 3 ∨ ticks s < x.since + 60000 then notEnabled
  else
    let y := { x with offs := x.offs.map (clampOff d.minoff d.maxoff) }
    let runs := (undervolted s core (tileLevel s core)).contains slice.toNat
    let acts := d.loopen && x.ops != 0 && runs
    let z := if acts then railStep y c.op d.texp d.minoff d.maxoff else y
    let hold := acts && z.lim == 16
    let z1 := { z with ops := 0, det := 0, since := x.since + 60000, held := if hold then c.tile else z.held }
    let s1 := setCore s core { c with slices := listSet c.slices slice.toNat z1 }
    done (if hold then modDie s1 (dieOfCore core) fun d => { d with limit := d.limit ||| BitVec.ofNat 3 (2 ^ slice.toNat) } else s1)

/-! ### Sensors (R296) -/

def sensorTab (d : Die) (current : Bool) : Tab Sensor := if current then d.current else d.thermal

/-- Sum and number of the last readings of a sensor's valid neighbours. -/
def nearMean (t : Tab Sensor) (current : Bool) (n : Nat) : Int × Nat :=
  t.foldl (fun (a : Int × Nat) e => match e.2.last with
    | some v => if e.1 ≠ n ∧ e.2.valid ∧ Config.sensorNear current n e.1 then (a.1 + v, a.2 + 1) else a
    | none => a) (0, 0)

/-- What a sensor reads as, in tenths: an invalid one as the largest reading among its valid neighbours and 5 degrees, or 6 amperes,
more (R296). -/
def sensorReading (t : Tab Sensor) (current : Bool) (n : Nat) : Option Int :=
  let x := Tab.findD t n Sensor.init
  if x.valid then x.last
  else
    let near := t.filterMap fun e => if e.1 ≠ n ∧ e.2.valid ∧ Config.sensorNear current n e.1 then e.2.last else none
    (near.foldl (fun (m : Option Int) v => some (match m with | some u => max u v | none => v)) none).map
      (· + if current then 60 else 50)

/-- The four checks of a sample, in tenths of a degree or of an ampere. -/
def sampleOk (x : Sensor) (current droop : Bool) (now : Nat) (m : Int × Nat) (v : Int) : Bool :=
  let range := if current then decide (0 ≤ v ∧ v ≤ 4000) else decide (-400 ≤ v ∧ v ≤ 1500)
  let rate := match x.last with
    | none => true
    | some l => if current then droop || decide ((v - l).natAbs * 1200 ≤ 500 * (now - x.lastAt)) else decide ((v - l).natAbs * 1200000 ≤ 200 * (now - x.lastAt))
  let agree := decide ((v * m.2 - m.1).natAbs ≤ (if current then 120 else 80) * m.2)
  let stuck := x.last == some v && decide (x.changedAt + 120000000 ≤ now) &&
    decide ((if current then 60 else 40) * m.2 * x.meanAt.2 < (m.1 * x.meanAt.2 - x.meanAt.1 * m.2).natAbs)
  range && rate && agree && !stuck

/-- A sensor after a sample: an invalid one becomes valid only when the host has written its bit (R296). -/
def sampled (x : Sensor) (ok : Bool) (now : Nat) (m : Int × Nat) (v : Int) : Sensor :=
  { last := some v, lastAt := now, changedAt := if x.last = some v then x.changedAt else now,
    meanAt := if x.last = some v then x.meanAt else m, valid := ok && (x.valid || x.rearm), rearm := false }

/-- Invalid sensors of a die. -/
def invalidSensors (d : Die) : Nat := ((d.thermal ++ d.current).filter fun e => !e.2.valid).length

/-- Set or clear the hold of a die and form every core's target again (R284, R296). -/
def judgeHold (s : State) (die : Nat) : State :=
  let h := decide (2 < invalidSensors (dieOf s die))
  if h = (dieOf s die).held then s
  else (List.range 32).foldl (fun a i => retarget a (32 * die + i)) (modDie s die fun d => { d with held := h })

/-- A droop alarm is in force on a cluster. -/
def inDroop (s : State) (cluster : Nat) : Bool :=
  (List.range 4).any fun i => (coreOf s (4 * cluster + i)).stretch.isSome || (coreOf s (4 * cluster + i)).halve.isSome

/-- SENSOR_SAMPLE (R296). -/
def execSensorSample (x : Sample) (s0 : State) : Out :=
  let s := catchCluster s0 (8 * x.die.toNat + x.sensor.toNat % 8)
  let d := dieOf s x.die.toNat
  let n := x.sensor.toNat
  if x.current && 8 ≤ n then notEnabled
  else
    let t := sensorTab d x.current
    let y := Tab.findD t n Sensor.init
    let m := nearMean t x.current n
    let ok := sampleOk y x.current (inDroop s (8 * x.die.toNat + n)) (ticks s) m x.value
    let t1 := Tab.put t n (sampled y ok (ticks s) m x.value)
    done (judgeHold (setDie s x.die.toNat (if x.current then { d with current := t1 } else { d with thermal := t1 })) x.die.toNat)

/-! ### Samples (R295) -/

/-- A fraction of 65,536, kept in 16 bits. -/
def fraction (n total : Nat) : BitVec 16 := BitVec.ofNat 16 (min (if total = 0 then 0 else n * 65536 / total) 65535)

/-- One sample of a core. -/
def sampleCore (x : Core) : Core :=
  if x.shares.isEmpty then x
  else
    { x with
      stallSeq := x.stallSeq + 1
      stallIssue := fraction x.smpIssue x.smpCyc
      stallMem := fraction x.smpMem x.smpCyc
      smpCyc := 0
      smpIssue := 0
      smpMem := 0 }

/-- A launch has traffic under way. -/
def hasTraffic (s : State) (lid : Nat) : Bool :=
  (s.acc.any fun e => e.2.lid == lid) || (s.copies.any fun e => e.2.lid == lid) || (s.pops.any fun e => e.2.lid == lid) ||
    s.streams.any fun e => e.2.pend.any fun p => p.lid == lid

/-- Charge a launch and its function for an interval: by its issue and array debits, and by its traffic (R295); the filler steps of one
that has retired are charged to it as well (R289). -/
def chargeLaunch (s : State) (lid : Nat) (l : Launch) : State :=
  let e := if l.drew then Config.sampleEnergy s.serial lid else 0
  modFunc (setLaunch s lid { l with energy := l.energy + e, drew := hasTraffic s lid }) l.vf fun f => { f with energy := f.energy + e }

/-- COUNTER_SAMPLE (R295). -/
def execCounterSample (s : State) : Out :=
  if (s.grid + 1) * 12000 ≤ ticks s then
    let s1 := { s with grid := s.grid + 1, cores := s.cores.map fun e => (e.1, sampleCore e.2) }
    done (s.launches.foldl (fun a e => chargeLaunch a e.1 e.2) s1)
  else notEnabled

end Sys2Proof.Machine
end

