-- ==== Sys2Proof/Machine/Bundle.lean ====
section
/-! DEFINITION. The hazard filter's checks over a whole word (R57), the bundle that a wave would issue next, the mismatches of a
token with its entry (R60), and what holds a bundle unissued (R40, R195), as a debugger sees it (R280). -/

namespace Sys2Proof.Machine

/-! ### The hazard filter (R57) -/

/-- Whether a list of registers holds one of them twice. -/
def twice : List Reg → Bool
  | [] => false
  | r :: t => t.contains r || twice t

/-- Check 7: two slots write the same register, or a slot writes k0. Only the T slot writes accumulators and partials. -/
def doubleWrite (is : List Instr) : Bool :=
  twice (is.flatMap writesOf) || is.any fun i => (writesOf i).contains (.k 0)

/-- The cluster whose side-read bus a store-class M operation uses (R57). -/
def storeBus (i : Instr) : Option Cluster :=
  match i with
  | .mst f => some f.dc
  | .mstStride f => some f.dc
  | .mstl f => some f.dc
  | .mstlStride f => some f.dc
  | .matom f => (match f.dc with | .A => some .A | .B => some .B | .s => none)
  | .mcas f => (match f.dc with | .A => some .A | .B => some .B | .s => none)
  | _ => none

/-- The cluster whose side-read bus an L operation uses (R57); LPUT reads its destination over it (R87). -/
def laneBus (i : Instr) : Option Cluster :=
  match i with
  | .lmov h => some h.sc
  | .lshuf f => some f.h.sc
  | .lshufPat f => some f.h.sc
  | .lbcast f => some f.h.sc
  | .lred f => some f.h.sc
  | .lscan f => some f.h.sc
  | .lget f => some f.sc
  | .lput f => some f.dc
  | _ => none

/-- Check 8. -/
def busClash (is : List Instr) : Bool :=
  is.any fun i => match storeBus i with
    | some c => is.any fun j => laneBus j == some c
    | none => false

/-- Check 10: an a or b index at or above the ceiling (R32). -/
def overCeiling (ceil : Nat) (is : List Instr) : Bool :=
  is.any fun i => (readsOf i ++ writesOf i).any fun r => match r with | .v _ n => ceil ≤ n | _ => false

/-- The lowest-numbered check that a word fails (R57, R58). -/
def filterWord (cw ceil : Nat) : Option Nat :=
  let rs := (presentRes cw).map (·.2)
  let is := rs.filterMap (·.i)
  lowest (wordChecks cw ++ rs.flatMap (·.fails) ++ (if doubleWrite is then [7] else []) ++ (if busClash is then [8] else []) ++
    (if overCeiling ceil is then [10] else []))

/-! ### The bundle that a wave would issue -/

/-- The dictionary entry of a wave's token. -/
def keyOf (w : Wave) (idx : Nat) : DKey := { lid := w.lid, hand := w.sup, idx := idx }

def entryIn (s : State) (core : Nat) (k : DKey) : Option DEntry := (coreOf s core).dtab.find? fun d => d.key == k

/-- The token, with the bundle of its resident entry. -/
def nextBundle (s : State) (wid : Nat) (w : Wave) : Option (Fetched × Bundle) :=
  match w.tok with
  | none => none
  | some t => (entryIn s (coreNo wid) (keyOf w t.idx)).map fun d => (t, bundleOf d.word)

/-- Widths that a slot takes: S and M both, V0, V1 and L four bytes, T eight (R60). -/
def widthOk (immr : Nat) (wide : Bool) : Bool :=
  if immr = 1 ∨ immr = 6 then true else if immr = 2 ∨ immr = 3 ∨ immr = 5 then !wide else immr == 7 && wide

/-- The mismatches of a token with its entry (R60). -/
def tokenBad (t : Fetched) (b : Bundle) : Bool :=
  (match t.imm with
  | some _ => b.immr == 0 || !widthOk b.immr.toNat t.immWide
  | none => b.immr != 0) ||
  (match t.mask with
  | some _ => !b.sp
  | none => b.sp)

/-- The bundle becomes the one that issues. -/
def withCur (s : State) (wid : Nat) (w : Wave) (t : Fetched) (b : Bundle) : State :=
  { s with cur := {
      wid := wid
      here := w.pc
      next := w.pc + BitVec.ofNat 32 t.len
      imm := t.imm.getD 0
      immWide := t.immWide
      sp := b.sp
      mask := t.mask.getD 0
      ser := s.serial
      go := false } }

/-- The operations of a bundle, in slot order. -/
def bundleOps (b : Bundle) : List Instr := b.slots.map (·.2)

/-- A scoreboarded register of the bundle is not yet written (R70). -/
def bundleScore (w : Wave) (b : Bundle) : Bool := (bundleOps b).any fun i => scoreHeld i w

/-- A slot holds the bundle unissued (R40); `s` has the bundle as the current one. -/
def bundleHolds (s : State) (wid : Nat) (w : Wave) (b : Bundle) : Bool := (bundleOps b).any fun i => interlocks i s wid w

/-- A toll bucket withholds the bundle (R242). -/
def bundleToll (s : State) (wid : Nat) (w : Wave) (b : Bundle) : Bool := (bundleOps b).any fun i => tollStops i s wid w

/-- A disposition that ends the launch (R139, R265, R270). -/
def killTrap (s : State) (w : Wave) (t : Trap) : Bool := !handlerCause t.cause || (t.cause == 0x0A && !tileParty s w) || w.sup

/-- The cause that the S slot raises by TRAP, SVC or BKPT (R265), unless the breakpoint halts the wave (R281). -/
def softTrap (s : State) (wid : Nat) (w : Wave) (i : Instr) : Option Trap :=
  match i with
  | .trap c => some { trapOf 0x10 with code := c.toNat }
  | .svc c => some { trapOf 0x10 with code := c.toNat, svc := true }
  | .bkpt c => if !w.sup && s.sec.bkhalt.contains wid then none else some { trapOf 0x11 with code := c.toNat }
  | _ => none

/-- The trap that the bundle raises at issue: a kill first, else the first in slot order, S first and M before T (R266). A software trap or
breakpoint raises its cause by its own meaning, after the other slots, unless another slot traps: it is then the cause that is named, the
bundle takes no effect in any slot (R71) and is the one to resume at, and what the other slot raised stays due: its records are queued, and it
is raised again with the bundle (DESIGN CHOICE, log 66). -/
def bundleTrap (s : State) (wid : Nat) (w : Wave) (b : Bundle) : Option Trap :=
  let ts := (bundleOps b).filterMap fun i => issueTrap i s wid w
  match ts with
  | [] => none
  | first :: _ =>
    let all := ((bundleOps b).filterMap (softTrap s wid w)).map (fun t => { t with recs := first.recs }) ++ ts
    some ((all.find? (killTrap s w)).getD (all.headD first))

/-- A wave of an INVPG that awaits its acknowledgements issues nothing (R325). -/
def inInvpg (s : State) (wid : Nat) : Bool := s.invpg.any fun e => e.2.1 == wid

/-- A store record is delivered at the bundle (R195). -/
def bundleDelivers (w : Wave) (b : Bundle) : Bool := (bundleOps b).any fun i => delivers i w

/-- Why a wave waits with an unissued bundle, in the WAITK codes of R280, 0 where it does not: a decode miss; a scoreboard, an
interlock or earlier stores; a toll bucket; withholding for power (R40, R195). A bundle that traps at issue does not wait. -/
def holdKind (s : State) (wid : Nat) (w : Wave) : Nat :=
  if w.missed then 7
  else
    match nextBundle s wid w with
    | none => 0
    | some (t, b) =>
      let s1 := withCur s wid w t b
      if w.waitCnt ≠ 0 ∨ tokenBad t b then 0
      else if bundleScore w b then 6
      else if (bundleTrap s1 wid w b).isSome then 0
      else if bundleHolds s1 wid w b then 6
      else if bundleToll s1 wid w b then 9
      else if !w.exempt && powerHeld s (coreNo wid) b then 8 else 0

/-- The wave waits with an unissued bundle. -/
def heldNow (s : State) (wid : Nat) (w : Wave) : Bool := holdKind s wid w != 0

/-- A wave that is free to issue, apart from its bundle. -/
def issuing (s : State) (wid : Nat) (w : Wave) : Bool :=
  (w.st == .running || w.st == .handler) && w.stopping.isNone && (!w.exiting || w.sup) && !inInvpg s wid

/-- The state that a wave shows (R48, R280): a wait of R40 with an unissued bundle, a WAIT count among them, shows as waiting (log 53), and so
does an INVPG's for its acknowledgements, on its scoreboarded status (R203). -/
def shownState (s : State) (wid : Nat) (w : Wave) : WState :=
  if issuing s wid w && (w.waitCnt != 0 || heldNow s wid w) || (inInvpg s wid && (w.st == .running || w.st == .handler)) then .waiting else w.st

/-- A wave stops in front of a safe-point bundle under a request (R45, R63). -/
def stopsHere (w : Wave) (t : Fetched) : Bool := w.preempt && !w.sup && t.mask.isSome

/-- The bundle that the wave is about to issue raises a cause now: it comes before a queued record or a landing conflict (R266). -/
def raisesNow (s : State) (wid : Nat) (w : Wave) : Bool :=
  issuing s wid w && w.waitCnt == 0 && !w.missed && match nextBundle s wid w with
    | none => false
    | some (t, b) => tokenBad t b || (!stopsHere w t && !bundleScore w b && (bundleTrap (withCur s wid w t b) wid w b).isSome)

/-- The bundle that the wave is about to issue is a publish point with a store record to deliver (R195). -/
def deliversNow (s : State) (wid : Nat) (w : Wave) : Bool :=
  issuing s wid w && w.waitCnt == 0 && !w.missed && match nextBundle s wid w with
    | none => false
    | some (t, b) =>
      let s1 := withCur s wid w t b
      !tokenBad t b && !stopsHere w t && !bundleScore w b && (bundleTrap s1 wid w b).isNone && !bundleHolds s1 wid w b && !bundleToll s1 wid w b &&
        bundleDelivers w b

/-- The registers that a bundle writes among the status registers of the wave's copies that have faulted and not completed since, restarted
by REPLAY or not: they are undefined from then on (R228). Before a fault the scoreboard holds such a bundle. -/
def taints (s : State) (wid : Nat) (w : Wave) (b : Bundle) : List Reg :=
  let mine := (s.copies.filter fun e => e.2.wid == wid).map fun e => e.2.dreg
  ((bundleOps b).flatMap writesOf |>.map (viewReg w.sup)).filter fun r => mine.contains r

end Sys2Proof.Machine
end

