-- ==== Sys2Proof/Machine/Fetch.lean ====
section
/-! DEFINITION. The image as the part reads it: its own mapping (R53, R269, R272), the check of each page (R53, R114), the token
fetch (R59 to R61), and the Ostler (R55 to R58, R64). -/

namespace Sys2Proof.Machine

/-! ### Image bytes -/

/-- What a read of image bytes gives: bytes, a page that fails verification or translation (R252), or bad data (R205). -/
inductive ImgRes where
  | ok (bs : List Byte)
  | bad (page : Nat)
  | ecc
  deriving DecidableEq, Repr

/-- The image that a launch runs, or its handler image. -/
def imageOf (l : Launch) (hand : Bool) : Option Image := if hand then l.htab.image else some l.img

/-- The device location of a page of an image (R53, R272): the near root is that of the die that the LAUNCH names. -/
def imgPlace (s : State) (l : Launch) (im : Image) (page : Nat) : Looked × State :=
  let va := im.addr + 4096 * page
  if im.phys then (.at_ (homeLoc true 0 va), s)
  else
    let t := translate s im.far l.p.die l.asid va none true false
    match t.1 with
    | .page e => if e.r then (.at_ (pageLoc im.far l.p.die e va), t.2) else (.fault 2, t.2)
    | .bad c => (.fault c, t.2)
    | .ecc => (.ecc, t.2)

/-- The hash of a page in the copied list (R111). -/
def pageHash (im : Image) (page : Nat) : Option (BitVec 256) :=
  if im.hdr.dictOff / 4096 ≤ page then im.hashes[page - im.hdr.dictOff / 4096]? else none

/-- The check of a page by a launch on a die. -/
def checkOf (l : Launch) (hand : Bool) (die page : Nat) : Option Checked :=
  l.verified.find? fun c => c.die == die && c.hand == hand && c.page == page

/-- n bytes at a location as they stood after a commit. -/
def bytesThen (s : State) (loc n cut : Nat) : List Byte :=
  let h := s.hist.filter fun x => cut < x.seq && loc ≤ x.loc && x.loc < loc + n
  if h.isEmpty then devBytes s loc n else bytesAt { s with hist := h } loc n cut

/-- The moment as of which an unchecked page is read: since the launch was accepted, software that writes it may leave old bytes to be
read (R115, log 55). -/
def pageCut (s : State) (l : Launch) (loc page : Nat) : Nat :=
  let cs := cuts s loc 4096 l.born
  cs.getD (pick s (9900000 + page) cs.length) s.commits

/-- Place a page and check it once for a launch on a die; a checked page keeps the bytes that passed (R53, R114, R115). -/
def imgPage (s : State) (lid : Nat) (l : Launch) (hand : Bool) (im : Image) (die page : Nat) : Looked × State :=
  match checkOf l hand die page with
  | some c => (.at_ c.loc, s)
  | none =>
    let x := imgPlace s l im page
    match x.1 with
    | .at_ loc =>
      let cut := pageCut x.2 l loc page
      if eccHit x.2 loc 4096 then (.ecc, x.2)
      else if pageHash im page == some (sha256 (bytesThen x.2 loc 4096 cut)) then
        (.at_ loc, modLaunch x.2 lid fun l => { l with verified := { die := die, hand := hand, page := page, loc := loc, seq := cut } :: l.verified })
      else (.fault 0, x.2)
    | r => (r, x.2)

/-- Bytes of a page that a launch has checked on a die. -/
def checkedBytes (s : State) (lid : Nat) (hand : Bool) (die page loc n : Nat) : List Byte :=
  match (launchOf s lid).bind fun l => checkOf l hand die page with
  | some c => bytesThen s loc n c.seq
  | none => []

/-- Read bytes of an image page by page. -/
def imgGo (lid : Nat) (hand : Bool) (die off n : Nat) : List Nat → State → ImgRes × State
  | [], s => (.ok [], s)
  | pg :: t, s =>
    match launchOf s lid with
    | none => (.bad pg, s)
    | some l =>
      match imageOf l hand with
      | none => (.bad pg, s)
      | some im =>
        let x := imgPage s lid l hand im die pg
        match x.1 with
        | .at_ loc =>
          let lo := max off (4096 * pg)
          let k := min (off + n) (4096 * (pg + 1)) - lo
          if eccHit x.2 (loc + lo % 4096) k then (.ecc, x.2)
          else
            let r := imgGo lid hand die off n t x.2
            (match r.1 with
            | .ok bs => (.ok (checkedBytes x.2 lid hand die pg (loc + lo % 4096) k ++ bs), r.2)
            | e => (e, r.2))
        | .fault _ => (.bad pg, x.2)
        | .ecc => (.ecc, x.2)

/-- n bytes at an offset of an image, for a launch on a die. -/
def imgBytes (s : State) (lid : Nat) (hand : Bool) (die off n : Nat) : ImgRes × State :=
  imgGo lid hand die off n ((List.range ((off + n - 1) / 4096 - off / 4096 + 1)).map (off / 4096 + ·)) s

/-! ### Tokens -/

/-- What a fetch comes to. -/
inductive Fetch where
  | tok (pc : Word) (t : Fetched)
  | kill (cause : Nat) (pc : Word) (detail : Nat)
  deriving DecidableEq, Repr

/-- The token at a bundle address whose first byte is marked (R60). -/
def readTok (hdr : ImgHdr) (bs : List Byte) : Option (Option Fetched) :=
  match decTok bs with
  | .pad => some none
  | .ok idx len tail =>
    if hdr.dictN ≤ idx then none
    else
      (match tail with
      | .plain => some (some { idx := idx, len := len, imm := none, immWide := false, mask := none })
      | .imm wide v => some (some { idx := idx, len := len, imm := some v, immWide := wide, mask := none })
      | .safe m => if m.toNat / 2 ^ 60 = 0 then some (some { idx := idx, len := len, imm := none, immWide := false, mask := some m }) else none)
  | _ => none

/-- Fetch from a bundle address: pads are passed over. Each token must begin on a marked byte inside the stream (R61). -/
def fetchGo (lid : Nat) (hand : Bool) (die : Nat) (hdr : ImgHdr) : Nat → Word → State → Fetch × State
  | 0, pc, s => (.kill 0x15 pc 0, s)
  | n + 1, pc, s =>
    let a := pc.toNat
    if hdr.streamLen ≤ a then (.kill 0x15 pc 0, s)
    else
      let m := imgBytes s lid hand die (hdr.mapOff + a / 8) 1
      match m.1 with
      | .bad pg => (.kill 0x0C pc pg, m.2)
      | .ecc => (.kill 0x0D pc 0, m.2)
      | .ok mb =>
        if (mb.headD 0).toNat / 2 ^ (a % 8) % 2 = 0 then (.kill 0x15 pc 0, m.2)
        else
          let b := imgBytes m.2 lid hand die (hdr.streamOff + a) 1
          match b.1 with
          | .bad pg => (.kill 0x0C pc pg, b.2)
          | .ecc => (.kill 0x0D pc 0, b.2)
          | .ok b0 =>
            let len := max 1 (tokLen (b0.headD 0).toNat)
            if hdr.streamLen < a + len then (.kill 0x02 pc 0, b.2)
            else
              let r := imgBytes b.2 lid hand die (hdr.streamOff + a) len
              match r.1 with
              | .bad pg => (.kill 0x0C pc pg, r.2)
              | .ecc => (.kill 0x0D pc 0, r.2)
              | .ok bs =>
                match readTok hdr bs with
                | none => (.kill 0x02 pc 0, r.2)
                | some none => fetchGo lid hand die hdr n (pc + 1) r.2
                | some (some t) => (.tok pc t, r.2)

/-- A wave among those that ask for an entry, with the bundle address of its token. -/
def addAsker (wid : Nat) (pc : Word) (l : List Ask) : List Ask :=
  let a : Ask := { wid := wid, pc := pc, live := true }
  if l.any fun x => x.wid == wid then l.map fun x => if x.wid == wid then a else x else l ++ [a]

/-- Ask the Ostler for an entry: waves that miss on one index share a fetch (R56). -/
def askOstler (s : State) (core : Nat) (k : DKey) (wid : Nat) (pc : Word) : State :=
  modCore s core fun c =>
    let q :=
      if c.ostler.any fun o => o.1 == k then c.ostler.map fun o => if o.1 == k then (o.1, addAsker wid pc o.2) else o
      else c.ostler ++ [(k, addAsker wid pc [])]
    { c with ostler := q }

/-- A hit or an issue makes an entry the most recently used (R55). -/
def touchEntry (s : State) (core : Nat) (k : DKey) : State :=
  modCore s core fun c => { c with dtab := (c.dtab.filter fun d => d.key == k) ++ c.dtab.filter fun d => d.key != k }

/-- Look a fetched token up in the launch's window (R55). A wave that is to stop in front of its safe-point token does not issue it: the
entry is found, and its place in the order of use is that of its last issue (R64, R403). -/
def lookToken (s : State) (wid : Nat) (w : Wave) (pc : Word) (t : Fetched) : State :=
  let core := coreNo wid
  let k := keyOf w t.idx
  let w1 := { w with pc := pc, tok := some t }
  match entryIn s core k with
  | some _ => setWave (if stopsHere w t then s else touchEntry s core k) wid { w1 with missed := false }
  | none => setWave (askOstler s core k wid pc) wid { w1 with missed := true }

/-- A wave that fetches its next token. -/
def fetches (s : State) (wid : Nat) (w : Wave) : Bool :=
  (w.st == .running || w.st == .handler) && w.tok.isNone && w.stopping.isNone && !(w.exiting && !w.sup) && !inInvpg s wid

/-- TOKEN_FETCH (R59 to R61). -/
def execTokenFetch (wid : Nat) (s : State) : Out :=
  match waveOf s wid with
  | none => notEnabled
  | some w =>
    if !fetches s wid w then notEnabled
    else
      match (launchOf s w.lid).bind fun l => imageOf l w.sup with
      | none => notEnabled
      | some im =>
        let r := fetchGo w.lid w.sup (dieNo wid) im.hdr (im.hdr.streamLen - w.pc.toNat + 1) w.pc s
        match r.1 with
        | .kill c pc d => done (killWave r.2 wid w c pc d)
        | .tok pc t => done (lookToken r.2 wid w pc t)

/-! ### The Ostler -/

/-- The entries of a launch in a decode table. -/
def windowUse (c : Core) (lid : Nat) : Nat := (c.dtab.filter fun d => d.key.lid == lid).length

/-- The least recently used entry of a launch that is not pinned. -/
def victim (c : Core) (lid : Nat) : Option DKey := (c.dtab.reverse.find? fun d => d.key.lid == lid && d.pins.isEmpty).map (·.key)

/-- A refill can be installed: the window has room, or an entry to replace (R55). -/
def canInstall (s : State) (core : Nat) (lid : Nat) : Bool :=
  decide (windowUse (coreOf s core) lid < (shareOf s core lid).window) || (victim (coreOf s core) lid).isSome

/-- Put an entry into its window as the most recently used one. -/
def installEntry (s : State) (core : Nat) (e : DEntry) : State :=
  let full := decide ((shareOf s core e.key.lid).window ≤ windowUse (coreOf s core) e.key.lid)
  modCore s core fun c =>
    let keep := if full then (match victim c e.key.lid with | some k => c.dtab.filter fun d => d.key != k | none => c.dtab) else c.dtab
    { c with dtab := e :: keep }

/-- Fetch and filter one dictionary word: the word, or the kill it raises with its DETAIL (R53, R57, R58, R411). -/
def fetchWord (s : State) (die : Nat) (k : DKey) : (Nat ⊕ (Nat × Nat)) × State :=
  match (launchOf s k.lid).bind fun l => imageOf l k.hand with
  | none => (.inr (0x0C, 0), s)
  | some im =>
    let r := imgBytes s k.lid k.hand die (im.hdr.dictOff + 48 * k.idx) 48
    match r.1 with
    | .bad pg => (.inr (0x0C, pg), r.2)
    | .ecc => (.inr (0x0D, 0), r.2)
    | .ok bs =>
      match filterWord (leNat bs) im.hdr.ceiling with
      | some c => (.inr (0x01, k.idx + (if k.hand then 2 ^ 14 else 0) + 65536 * c), r.2)
      | none => (.inl (leNat bs), r.2)

/-- The waves, of those that asked, that still wait for an entry. -/
def stillWait (s : State) (k : DKey) (ws : List Nat) : List Nat :=
  ws.filter fun x => match waveOf s x with
    | some w => w.missed && (match w.tok with | some t => keyOf w t.idx == k | none => false)
    | none => false

/-- The waves that asked and neither stopped, halted nor retired since. -/
def liveAsks (ws : List Ask) : List Nat := (ws.filter (·.live)).map (·.wid)

/-- The Ostler's fetch of a word has failed: the launch is killed, for the token of the wave that asked first among those that still ask,
else among all; a preload names no slot and no address (R58, R114, R273; log 61). -/
def ostlerKill (s : State) (core : Nat) (k : DKey) (ws : List Ask) (cause detail : Nat) : State :=
  match ws.filter (·.live) ++ ws with
  | x :: _ => killLaunch s k.lid cause (dieNo x.wid) (coreOnDie x.wid) (slotNo x.wid) x.pc.toNat detail
  | [] => killLaunch s k.lid cause (dieOfCore core) (core % 32) 0xFF 0 detail

/-- Serve a request: install, pinned for every wave that asked (R55), or kill. DESIGN CHOICE (log 61): a wave that has entered its
handler in between neither issued the entry, stopped, halted nor was killed, so its pin lasts through the handler, and a miss in the
handler image pins a second entry for it; the manual's count of 16 pinned entries does not meet this case. -/
def serve (s : State) (core : Nat) (k : DKey) (ws : List Ask) : State :=
  let s0 := modCore s core fun c => { c with ostler := c.ostler.filter fun o => o.1 != k }
  let r := fetchWord s0 (dieOfCore core) k
  match r.1 with
  | .inl cw =>
    let pins := (liveAsks ws).filter fun x => (waveOf r.2 x).isSome
    let s1 := modShare (installEntry r.2 core { key := k, word := cw, pins := pins }) core k.lid fun x => { x with dictmiss := x.dictmiss + 1 }
    (stillWait r.2 k (liveAsks ws)).foldl (fun a x => modWave a x fun w => { w with missed := false }) s1
  | .inr (c, d) => ostlerKill r.2 core k ws c d

/-- OSTLER_REFILL (R55 to R58): one of the four refills in flight ends. A miss whose window is pinned whole waits in the queue and takes
none of the four places (DESIGN CHOICE, log 61). -/
def execOstlerRefill (core : Nat) (s : State) : Out :=
  let q := ((coreOf s core).ostler.filter fun o => canInstall s core o.1.lid).take 4
  match q[pick s 1 q.length]? with
  | none => notEnabled
  | some o => done (serve s core o.1 o.2)

/-- Preload a saved list into a window (R64): it stops at the window's size. A page or a word that fails kills the launch, as any fetch
of it does (R58, R114). -/
def preload (core : Nat) : List DKey → State → State
  | [], s => s
  | k :: t, s =>
    if (shareOf s core k.lid).window ≤ windowUse (coreOf s core) k.lid then s
    else
      let r := fetchWord s (dieOfCore core) k
      match r.1 with
      | .inl cw => preload core t (modCore r.2 core fun c => { c with dtab := c.dtab ++ [{ key := k, word := cw, pins := [] }] })
      | .inr (c, d) => ostlerKill r.2 core k [] c d

end Sys2Proof.Machine
end

