-- ==== Sys2Proof/Machine/Func.lean ====
section
/-! DEFINITION. FEXP2, FLOG2 and FTANH (R128): the exact mathematical result rounded once. A result that is not a power of two
or a zero is irrational, so it is enclosed between two integers over 2^prec, and the two ends round alike; where they did
not, the result is a free value (log 23). All sums below are structural recursions on a number of terms. -/

namespace Sys2Proof.Machine

/-- Bits of the enclosures. -/
def prec : Nat := 192
def one : Nat := 2 ^ prec

/-- An enclosure lo < x × 2^prec < hi. -/
structure Encl where
  lo : Nat
  hi : Nat
  deriving DecidableEq, Repr

/-- Σ over k below n of z^(2k+1)/(2k+1) in units of 2^-prec, rounded down (up = 0) or up (up = 1): z2 = z², t = z^(2k+1). -/
def atanhSum (up z2 : Nat) : Nat → Nat → Nat → Nat → Nat
  | 0, _, _, acc => acc
  | n + 1, k, t, acc => atanhSum up z2 n (k + 1) (t * z2 / one + up) (acc + t / (2 * k + 1) + up)

/-- 2 × atanh(z) for an enclosure of z at most 1/3: 70 terms leave a tail below one unit. -/
def ln1 (z : Encl) : Encl :=
  ⟨2 * atanhSum 0 (z.lo * z.lo / one) 70 0 z.lo 0, 2 * atanhSum 1 (z.hi * z.hi / one + 1) 70 0 z.hi 0 + 4⟩

/-- ln 2 = 2 atanh(1/3). -/
def ln2 : Encl := ln1 ⟨one / 3, one / 3 + 1⟩

/-- Σ y^k/k! for y below 1, term t = y^k/k!. -/
def expSum (up y : Nat) : Nat → Nat → Nat → Nat → Nat
  | 0, _, _, acc => acc
  | n + 1, k, t, acc => expSum up y n (k + 1) (t * y / ((k + 1) * one) + up) (acc + t)

/-- e^y for y below 1: after 60 terms the tail is below one unit beside the rounding of the last terms. -/
def expE (y : Encl) : Encl := ⟨expSum 0 y.lo 60 0 one 0, expSum 1 y.hi 60 0 one 0 + 8⟩

/-- Round the number between lo × 2^e and hi × 2^e if both ends agree; the number itself is neither end. -/
def roundEncl (neg : Bool) (x : Encl) (e : Int) : Option Rounded :=
  if x.lo = 0 then none
  else
    let a := roundFrac f32F .rne false 0 neg (2 * x.lo + 1) 1 (e - 1)
    let b := roundFrac f32F .rne false 0 neg (2 * x.hi - 1) 1 (e - 1)
    if a = b then some a else none

/-- 2^(m × 2^e) with its sign, |value| below 256. -/
def exp2Fin (neg : Bool) (m : Nat) (e : Int) : Option Rounded :=
  let p := scaleFrac m 1 e
  let q := p.1 / p.2
  let r := p.1 % p.2
  let n : Int := if neg then -(q : Int) else q
  if r = 0 then some (roundFrac f32F .rne false 0 false 1 1 n)
  else
    let n' := if neg then n - 1 else n
    let f := if neg then p.2 - r else r
    let y : Encl := ⟨f * ln2.lo / p.2, f * ln2.hi / p.2 + 1⟩
    roundEncl false (expE y) (n' - prec)

/-- FEXP2 (R128). -/
def fExp2 (x : FVal) : Option Rounded :=
  match x with
  | .nan => some ⟨f32F.nanPat, none⟩
  | .inf true => some (f32F.zero false)
  | .inf false => some ⟨f32F.infPat, none⟩
  | .fin _ 0 _ => some (roundFrac f32F .rne false 0 false 1 1 0)
  | .fin n (m + 1) e =>
    if 8 ≤ fracLog (m + 1) 1 e then some (roundFrac f32F .rne false 0 false 1 1 (if n then -256 else 256))
    else exp2Fin n (m + 1) e

/-- FLOG2 (R128). -/
def fLog2 (x : FVal) : Option Rounded :=
  match x with
  | .nan => some ⟨f32F.nanPat, none⟩
  | .inf true => some ⟨f32F.nanPat, some .invalid⟩
  | .inf false => some ⟨f32F.infPat, none⟩
  | .fin _ 0 _ => some ⟨f32F.signBit true + f32F.infPat, some .divZero⟩
  | .fin true (_ + 1) _ => some ⟨f32F.nanPat, some .invalid⟩
  | .fin false (m + 1) e =>
    let l := Nat.log2 (m + 1)
    let n : Int := e + l
    let g := m + 1 - 2 ^ l
    if g = 0 then some (roundVal f32F .rne false 0 (.fin (n < 0) n.natAbs 0))
    else
      let z := g * one / (m + 1 + 2 ^ l)
      let ln := ln1 ⟨z, z + 1⟩
      let lo := n * one + (ln.lo * one / ln2.hi : Nat)
      let hi := n * one + (ln.hi * one / ln2.lo + 1 : Nat)
      if 0 ≤ lo then roundEncl false ⟨lo.toNat, hi.toNat⟩ (-prec)
      else if hi ≤ 0 then roundEncl true ⟨(-hi).toNat, (-lo).toNat⟩ (-prec)
      else none

/-- Square an enclosure n times. -/
def squares : Nat → Encl → Encl
  | 0, x => x
  | n + 1, x => squares n ⟨x.lo * x.lo / one, x.hi * x.hi / one + 1⟩

/-- FTANH (R128): below 2^-16 the result lies just below x; from 16 up just below 1; between, (E − 1)/(E + 1) with
E = (e^(x/16))^32. -/
def fTanh (x : FVal) : Option Rounded :=
  match x with
  | .nan => some ⟨f32F.nanPat, none⟩
  | .inf n => some (roundFrac f32F .rne false 0 n 1 1 0)
  | .fin n 0 _ => some (f32F.zero n)
  | .fin n (m + 1) e =>
    let t := fracLog (m + 1) 1 e
    if t < -16 then some (roundFrac f32F .rne false 0 n ((m + 1) * 2 ^ 40 - 1) 1 (e - 40))
    else if 4 ≤ t then some (roundFrac f32F .rne false 0 n (2 ^ 40 - 1) 1 (-40))
    else
      let p := scaleFrac ((m + 1) * one) 16 e
      let y : Encl := ⟨p.1 / p.2, p.1 / p.2 + 1⟩
      let ex := squares 5 (expE y)
      roundEncl n ⟨(ex.lo - one) * one / (ex.lo + one), (ex.hi - one) * one / (ex.hi + one) + 1⟩ (-prec)

end Sys2Proof.Machine
end

