-- ==== Sys2Proof/Machine/Vector.lean ====
section
/-! DEFINITION. The V-slot operations (R382 to R395): one frame over active lanes and their elements, with the stochastic-rounding
state (R126) and the events of R129. -/

namespace Sys2Proof.Machine

/-- What one active lane delivers: its value, its events in element order, and its stochastic-rounding state afterwards. -/
structure LaneOut where
  val : Word
  evs : List Ev
  lfsr : Word
  deriving DecidableEq, Repr

/-- Elements 0 to n − 1 of a lane in order; under RSR each takes 16 steps before it is rounded (R126, R127). -/
def elemsGo (rsr : Bool) (op : Nat → Nat → Rounded) : List Nat → Word → List Rounded × Word
  | [], l => ([], l)
  | j :: t, l =>
    let l1 := if rsr then lfsrDraw l else l
    let r := elemsGo rsr op t l1
    (op (lfsrV l1) j :: r.1, r.2)

/-- One lane: n elements of destination type t, those above n zero (R130). -/
def elemLane (t : Ty) (n : Nat) (rsr : Bool) (op : Nat → Nat → Rounded) (l : Word) : LaneOut :=
  let r := elemsGo rsr op (List.range n) l
  { val := pack t (r.1.map (·.bits)), evs := r.1.filterMap (·.ev), lfsr := r.2 }

/-- A lane that takes no elements. -/
def rawLane (v : Word) (l : Word) : LaneOut := { val := v, evs := [], lfsr := l }

/-- The frame of R382: an exposed write to the active lanes, with their events in lane order at issue. -/
def laneWrite (slot : Nat) (mask : Word) (cl : Cluster) (d : BitVec 6) (L : Nat) (g : Nat → Word → LaneOut) (wid : Nat) (w : Wave)
    (s : State) : State :=
  let outs := (List.range 32).map fun i => if mask.getLsbD i then g i (w.lfsr.at i) else rawLane 0 (w.lfsr.at i)
  let at_ := fun i : Fin 32 => outs.getD i.val (rawLane 0 0)
  let evs := (List.range 32).flatMap fun i => (outs.getD i (rawLane 0 0)).evs.map fun e => (i, e)
  setWave s wid { pushWin w (.v cl d.toNat mask (Lanes.of fun i => (at_ i).val)) L with
    lfsr := Lanes.of fun i => (at_ i).lfsr
    fel := reportAll w.fel s.serial s.cur.here slot evs }

/-- The mask of a vector slot: operand 0. -/
def vMask (s : State) (w : Wave) (h : VHdr) : Word := effMask s w (tagOf (vSlot h.cl) 0) h.k.toNat
/-- Register operand o of a vector slot. -/
def vOp (s : State) (w : Wave) (cl : Cluster) (o : Nat) (n : BitVec 6) : Lanes := rdV s w (tagOf (vSlot cl) o) cl n.toNat

/-- A V operation whose lane is a function of lane numbers and register A. -/
def vecOp (h : VHdr) (L : Nat) (g : State → Wave → Lanes → Nat → Word → LaneOut) (wid : Nat) (w : Wave) (s : State) : State :=
  laneWrite (vSlot h.cl) (vMask s w h) h.cl h.d L (g s w (vOp s w h.cl 1 h.a)) wid w s

/-! ### Element operations -/

/-- Source A of a floating element: absolute value, then negation (R382). -/
def fSrcA (t : Ty) (m : VMod) (x : Nat) : FVal :=
  let a := (Ty.fmt t).decode x
  let b := if m.ab then a.abs else a
  if m.na then b.neg else b
/-- Source B of a floating element. -/
def fSrcB (t : Ty) (m : VMod) (y : Nat) : FVal :=
  let b := (Ty.fmt t).decode y
  if m.nb then b.neg else b

/-- VADD, VSUB and VMUL on one element (R383, R117). -/
def arithElem (t : Ty) (m : VMod) (fop : FFmt → Rm → Nat → FVal → FVal → Rounded) (iop : Int → Int → Int) (x y : Word) (v j : Nat) :
    Rounded :=
  if t.isFloat then fop (Ty.fmt t) m.rm v (fSrcA t m (elem t x j)) (fSrcB t m (elem t y j))
  else
    let r := iop (toInt (Ty.signed t) (Ty.bits t) (elem t x j)) (toInt (Ty.signed t) (Ty.bits t) (elem t y j))
    if m.sat then satInt (Ty.signed t) (Ty.bits t) r else ⟨wrapInt (Ty.bits t) r, none⟩

def fSub (f : FFmt) (rm : Rm) (v : Nat) (x y : FVal) : Rounded := fAdd f rm v x y.neg

/-- VMIN and VMAX on one element (R390): no event. -/
def minElem (t : Ty) (m : VMod) (fop : FFmt → FVal → FVal → Nat) (iop : Int → Int → Int) (x y : Word) (_ j : Nat) : Rounded :=
  if t.isFloat then ⟨fop (Ty.fmt t) (fSrcA t m (elem t x j)) (fSrcB t m (elem t y j)), none⟩
  else ⟨wrapInt (Ty.bits t) (iop (toInt (Ty.signed t) (Ty.bits t) (elem t x j)) (toInt (Ty.signed t) (Ty.bits t) (elem t y j))), none⟩

/-- A two-operand elementwise form: `second` is register B or the immediate. -/
def vecBin (h : VHdr) (t : Ty) (rsr : Bool) (L : Nat) (second : State → Wave → Nat → Word) (op : Word → Word → Nat → Nat → Rounded) :
    Nat → Wave → State → State :=
  vecOp h L fun s w a i l => elemLane t (Ty.count t) rsr (op (a.at i) (second s w i)) l

/-- `Second(i)` of a register form. -/
def regB (cl : Cluster) (b : BitVec 6) (s : State) (w : Wave) (i : Nat) : Word := (vOp s w cl 2 b).at i
/-- `Second(i)` of an immediate form (R83). -/
def immB (t : Ty) (x : VImm) (s : State) (_ : Wave) (_ : Nat) : Word := vImm s t x

def vArith (f : VArith) (fop : FFmt → Rm → Nat → FVal → FVal → Rounded) (iop : Int → Int → Int) : Nat → Wave → State → State :=
  vecBin f.h f.ty (f.m.rm == .rsr) 4 (regB f.h.cl f.b) (arithElem f.ty f.m fop iop)
def vArithI (f : VArithI) (fop : FFmt → Rm → Nat → FVal → FVal → Rounded) (iop : Int → Int → Int) : Nat → Wave → State → State :=
  vecBin f.h f.ty (f.m.rm == .rsr) 4 (immB f.ty f.imm) (arithElem f.ty f.m fop iop)

/-- VADD (R383). -/
def execVadd (f : VArith) (s : State) : Out := slotOp (.vadd f) s (vArith f fAdd (· + ·))
/-- VSUB (R383). -/
def execVsub (f : VArith) (s : State) : Out := slotOp (.vsub f) s (vArith f fSub (· - ·))
/-- VMUL (R383). -/
def execVmul (f : VArith) (s : State) : Out := slotOp (.vmul f) s (vArith f fMul (· * ·))
/-- VADD, immediate (R383). -/
def execVaddI (f : VArithI) (s : State) : Out := slotOp (.vaddI f) s (vArithI f fAdd (· + ·))
/-- VSUB, immediate (R383). -/
def execVsubI (f : VArithI) (s : State) : Out := slotOp (.vsubI f) s (vArithI f fSub (· - ·))
/-- VMUL, immediate (R383). -/
def execVmulI (f : VArithI) (s : State) : Out := slotOp (.vmulI f) s (vArithI f fMul (· * ·))

def vMinMax (f : VArith) (fop : FFmt → FVal → FVal → Nat) (iop : Int → Int → Int) : Nat → Wave → State → State :=
  vecBin f.h f.ty false 4 (regB f.h.cl f.b) (minElem f.ty f.m fop iop)
def vMinMaxI (f : VArithI) (fop : FFmt → FVal → FVal → Nat) (iop : Int → Int → Int) : Nat → Wave → State → State :=
  vecBin f.h f.ty false 4 (immB f.ty f.imm) (minElem f.ty f.m fop iop)

/-- VMIN (R390). -/
def execVmin (f : VArith) (s : State) : Out := slotOp (.vmin f) s (vMinMax f fMin min)
/-- VMAX (R390). -/
def execVmax (f : VArith) (s : State) : Out := slotOp (.vmax f) s (vMinMax f fMax max)
/-- VMIN, immediate (R390). -/
def execVminI (f : VArithI) (s : State) : Out := slotOp (.vminI f) s (vMinMaxI f fMin min)
/-- VMAX, immediate (R390). -/
def execVmaxI (f : VArithI) (s : State) : Out := slotOp (.vmaxI f) s (vMinMaxI f fMax max)

/-- VFMA on one element, z an element pattern (R388). -/
def fmaElem (t : Ty) (m : VMod) (x y z : Word) (v j : Nat) : Rounded :=
  fFma (Ty.fmt t) m.rm v (fSrcA t m (elem t x j)) (fSrcB t m (elem t y j)) ((Ty.fmt t).decode (elem t z j))

/-- VFMA (R388). -/
def execVfma (f : VFmaF) (s : State) : Out :=
  slotOp (.vfma f) s (vecOp f.h 5 fun s w a i l => elemLane f.ty (Ty.count f.ty) (f.m.rm == .rsr)
    (fmaElem f.ty f.m (a.at i) (regB f.h.cl f.b s w i) ((vOp s w f.h.cl 3 f.c).at i)) l)
/-- VFMA, immediate: the addend is the old D (R388). -/
def execVfmaI (f : VArithI) (s : State) : Out :=
  slotOp (.vfmaI f) s (vecOp f.h 5 fun s w a i l => elemLane f.ty (Ty.count f.ty) (f.m.rm == .rsr)
    (fmaElem f.ty f.m (a.at i) (vImm s f.ty f.imm) ((vOp s w f.h.cl 3 f.h.d).at i)) l)

/-! ### Compare and select -/

/-- Whether a VCMP condition holds of element j (R386). -/
def cmpElem (t : Ty) (m : VMod) (c : VCond) (x y : Word) (j : Nat) : Bool :=
  if t.isFloat then fcond c (fSrcA t m (elem t x j)) (fSrcB t m (elem t y j))
  else icond c (toInt (Ty.signed t) (Ty.bits t) (elem t x j)) (toInt (Ty.signed t) (Ty.bits t) (elem t y j))

/-- VCMP: the exposed write covers the mask bits of the effective mask (R24, R386). -/
def vecCmp (h : VHdr) (t : Ty) (m : VMod) (c : VCond) (second : State → Wave → Nat → Word) (wid : Nat) (w : Wave) (s : State) : State :=
  let a := vOp s w h.cl 1 h.a
  let bits := maskOf fun i => (List.range (Ty.count t)).all (cmpElem t m c (a.at i) (second s w i))
  setWave s wid (pushWin w (.k (h.d.toNat % 16) (vMask s w h) bits) 4)

/-- VCMP (R386). -/
def execVcmp (f : VCmpF) (s : State) : Out := slotOp (.vcmp f) s (vecCmp f.h f.ty f.m f.cond (regB f.h.cl f.b))
/-- VCMP, immediate (R386). -/
def execVcmpI (f : VCmpI) (s : State) : Out := slotOp (.vcmpI f) s (vecCmp f.h f.ty f.m f.cond (immB f.ty f.imm))

/-- VSEL: k[s] whole, not ANDed with k0 (R395). -/
def vecSel (h : VHdr) (ks : Nat) (second : State → Wave → Nat → Word) : Nat → Wave → State → State :=
  vecOp h 4 fun s w a i l => rawLane (if (rdK s w (tagOf (vSlot h.cl) 4) ks).getLsbD i then a.at i else second s w i) l

/-- VSEL (R395). -/
def execVsel (f : VSelF) (s : State) : Out := slotOp (.vsel f) s (vecSel f.h f.sel.toNat (regB f.h.cl f.b))
/-- VSEL, immediate (R395). -/
def execVselI (f : VSelI) (s : State) : Out := slotOp (.vselI f) s (vecSel f.h f.sel.toNat (immB .f32 f.imm))

/-! ### Raw lanes -/

def vecBits (h : VHdr) (op : Word → Word → Word) (second : State → Wave → Nat → Word) : Nat → Wave → State → State :=
  vecOp h 4 fun s w a i l => rawLane (op (a.at i) (second s w i)) l

/-- VAND (R384). -/
def execVand (f : VBitF) (s : State) : Out := slotOp (.vand f) s (vecBits f.h (· &&& ·) (regB f.h.cl f.b))
/-- VOR (R384). -/
def execVor (f : VBitF) (s : State) : Out := slotOp (.vor f) s (vecBits f.h (· ||| ·) (regB f.h.cl f.b))
/-- VXOR (R384). -/
def execVxor (f : VBitF) (s : State) : Out := slotOp (.vxor f) s (vecBits f.h (· ^^^ ·) (regB f.h.cl f.b))
/-- VAND, immediate (R384). -/
def execVandI (f : VBitI) (s : State) : Out := slotOp (.vandI f) s (vecBits f.h (· &&& ·) (immB .f32 f.imm))
/-- VOR, immediate (R384). -/
def execVorI (f : VBitI) (s : State) : Out := slotOp (.vorI f) s (vecBits f.h (· ||| ·) (immB .f32 f.imm))
/-- VXOR, immediate (R384). -/
def execVxorI (f : VBitI) (s : State) : Out := slotOp (.vxorI f) s (vecBits f.h (· ^^^ ·) (immB .f32 f.imm))

/-- VMOV (R391). -/
def execVmov (h : VHdr) (s : State) : Out := slotOp (.vmov h) s (vecOp h 4 fun _ _ a i l => rawLane (a.at i) l)

/-- The mask of a form with no register A. -/
def dstMask (s : State) (w : Wave) (h : VDst) : Word := effMask s w (tagOf (vSlot h.cl) 0) h.k.toNat

/-- VMOV, immediate (R391). -/
def execVmovI (f : VMovI) (s : State) : Out :=
  slotOp (.vmovI f) s fun wid w s =>
    laneWrite (vSlot f.h.cl) (dstMask s w f.h) f.h.cl f.h.d 4 (fun _ l => rawLane (vImm s .f32 f.imm) l) wid w s
/-- VIDX (R389). -/
def execVidx (h : VDst) (s : State) : Out :=
  slotOp (.vidx h) s fun wid w s =>
    laneWrite (vSlot h.cl) (dstMask s w h) h.cl h.d 4 (fun i l => rawLane (BitVec.ofNat 32 i) l) wid w s

/-! ### Shifts, counts, products, rounding and conversion -/

/-- Element x shifted by element y mod the width (R118). -/
def shiftElem (t : Ty) (op : Nat → Nat → Nat → Nat) (x y : Word) (_ j : Nat) : Rounded :=
  ⟨op (Ty.bits t) (elem t x j) (elem t y j % Ty.bits t), none⟩

def eShl (w x n : Nat) : Nat := x * 2 ^ n % 2 ^ w
def eShr (_ x n : Nat) : Nat := x / 2 ^ n
/-- Filling with the sign bit at every TYPE (R118). -/
def eSar (w x n : Nat) : Nat := wrapInt w (toInt true w x / 2 ^ n)

def vShift (f : VTyF) (op : Nat → Nat → Nat → Nat) : Nat → Wave → State → State :=
  vecBin f.h f.ty false 4 (regB f.h.cl f.b) (shiftElem f.ty op)
def vShiftI (f : VTyI) (op : Nat → Nat → Nat → Nat) : Nat → Wave → State → State :=
  vecBin f.h f.ty false 4 (immB f.ty f.imm) (shiftElem f.ty op)

/-- VSHL (R394). -/
def execVshl (f : VTyF) (s : State) : Out := slotOp (.vshl f) s (vShift f eShl)
/-- VSHR (R394). -/
def execVshr (f : VTyF) (s : State) : Out := slotOp (.vshr f) s (vShift f eShr)
/-- VSAR (R394). -/
def execVsar (f : VTyF) (s : State) : Out := slotOp (.vsar f) s (vShift f eSar)
/-- VSHL, immediate (R394). -/
def execVshlI (f : VTyI) (s : State) : Out := slotOp (.vshlI f) s (vShiftI f eShl)
/-- VSHR, immediate (R394). -/
def execVshrI (f : VTyI) (s : State) : Out := slotOp (.vshrI f) s (vShiftI f eShr)
/-- VSAR, immediate (R394). -/
def execVsarI (f : VTyI) (s : State) : Out := slotOp (.vsarI f) s (vShiftI f eSar)

/-- VMULH: the upper half of the full product (R119, R392), bound 5. -/
def execVmulh (f : VTyF) (s : State) : Out :=
  slotOp (.vmulh f) s (vecBin f.h f.ty false 5 (regB f.h.cl f.b) fun x y _ j =>
    ⟨wrapInt (Ty.bits f.ty) (toInt (Ty.signed f.ty) (Ty.bits f.ty) (elem f.ty x j) * toInt (Ty.signed f.ty) (Ty.bits f.ty) (elem f.ty y j)
      / 2 ^ Ty.bits f.ty), none⟩)

/-- A one-operand elementwise form. -/
def vecUn (h : VHdr) (t : Ty) (n : Nat) (rsr : Bool) (L : Nat) (op : Word → Nat → Nat → Rounded) : Nat → Wave → State → State :=
  vecOp h L fun _ _ a i l => elemLane t n rsr (op (a.at i)) l

/-- Set bits among the low n bits. -/
def bitCount (n x : Nat) : Nat := ((List.range n).filter fun i => x.testBit i).length
/-- Leading zeros of a w-bit element (R118). -/
def leadZeros (w x : Nat) : Nat := if x = 0 then w else w - 1 - Nat.log2 x

/-- VPOP (R385). -/
def execVpop (f : VUn) (s : State) : Out :=
  slotOp (.vpop f) s (vecUn f.h f.ty (Ty.count f.ty) false 4 fun x _ j => ⟨bitCount (Ty.bits f.ty) (elem f.ty x j), none⟩)
/-- VCLZ (R385). -/
def execVclz (f : VUn) (s : State) : Out :=
  slotOp (.vclz f) s (vecUn f.h f.ty (Ty.count f.ty) false 4 fun x _ j => ⟨leadZeros (Ty.bits f.ty) (elem f.ty x j), none⟩)

/-- VRND (R393): no event. -/
def execVrnd (f : VRndF) (s : State) : Out :=
  slotOp (.vrnd f) s (vecUn f.h f.ty (Ty.count f.ty) (f.rm == .rsr) 5 fun x v j =>
    ⟨roundIntegral (Ty.fmt f.ty) f.rm v (elem f.ty x j), none⟩)

/-- VCVT (R387, R130, R131). -/
def execVcvt (f : VCvtF) (s : State) : Out :=
  slotOp (.vcvt f) s (vecUn f.h f.dst (min (Ty.count f.dst) (Ty.count f.src)) (f.rm == .rsr) 5 fun x v j =>
    convert f.dst f.src f.rm f.sat v (elem f.src x j))

end Sys2Proof.Machine
end

