-- ==== Sys2Proof/Machine/Fpipe.lean ====
section
/-! DEFINITION. The F-slot functions (R318 to R320, R128). The pipe's acceptance (R69) delays issue and belongs to the core
cycle. -/

namespace Sys2Proof.Machine

/-- A rounded result, or a free value where the enclosures of Func.lean do not decide it (log 23). -/
def orFree (s : State) (tag : Nat) (r : Option Rounded) : Rounded :=
  match r with
  | some x => x
  | none => ⟨(free s tag).toNat % 2 ^ 32, none⟩

/-- Source A of an F operation, absolute value then negation (R318). -/
def fSource (f : FOp) (v : Word) : FVal :=
  let a := f32F.decode v.toNat
  let b := if f.ab then a.abs else a
  if f.na then b.neg else b

/-- The frame of R318: g maps a lane number, x and the raw lanes of register A + 1 to the result. -/
def fRun (f : FOp) (L : Nat) (g : State → Nat → FVal → Word → Rounded) (wid : Nat) (w : Wave) (s : State) : State :=
  let a := rdV s w (tagOf 3 1) f.ac f.a.toNat
  let a1 := rdV s w (tagOf 3 2) f.ac (f.a.toNat + 1)
  laneWrite 3 (effMask s w (tagOf 3 0) f.k.toNat) f.dc f.d L
    (fun i l =>
      let r := g s i (fSource f (a.at i)) (a1.at i)
      { val := BitVec.ofNat 32 r.bits, evs := r.ev.toList, lfsr := l }) wid w s

/-- FDIV, bound 14 (R318, R319). -/
def execFdiv (f : FOp) (s : State) : Out := slotOp (.fdiv f) s (fRun f 14 fun _ _ x y => fDiv x (f32F.decode y.toNat))
/-- FSQRT, bound 14 (R318, R128). -/
def execFsqrt (f : FOp) (s : State) : Out := slotOp (.fsqrt f) s (fRun f 14 fun _ _ x _ => fSqrt x)
/-- FRCP, bound 8 (R318, R128). -/
def execFrcp (f : FOp) (s : State) : Out := slotOp (.frcp f) s (fRun f 8 fun _ _ x _ => fRcp x)
/-- FRSQ, bound 8 (R318, R128). -/
def execFrsq (f : FOp) (s : State) : Out := slotOp (.frsq f) s (fRun f 8 fun _ _ x _ => fRsq x)
/-- FEXP2, bound 10 (R318, R128). -/
def execFexp2 (f : FOp) (s : State) : Out := slotOp (.fexp2 f) s (fRun f 10 fun s i x _ => orFree s (tagOf 3 4 + i) (fExp2 x))
/-- FLOG2, bound 10 (R318, R128). -/
def execFlog2 (f : FOp) (s : State) : Out := slotOp (.flog2 f) s (fRun f 10 fun s i x _ => orFree s (tagOf 3 4 + i) (fLog2 x))
/-- FTANH, bound 12 (R318, R128). -/
def execFtanh (f : FOp) (s : State) : Out := slotOp (.ftanh f) s (fRun f 12 fun s i x _ => orFree s (tagOf 3 4 + i) (fTanh x))

end Sys2Proof.Machine
end

