-- ==== Sys2Proof/Machine/Handler.lean ====
section
/-! DEFINITION. HANDLER_ENTRY (R195 to R197, R266, R267, R354): which queued record or landing conflict takes a wave to its
handler, and when. A waiting wave takes a conflict when its wait ends (R236). -/

namespace Sys2Proof.Machine

/-- The cause of the record at HEAD (R266). -/
def headCause (w : Wave) : Nat := match headRec w with | some r => recCause r | none => 0x08

/-- A record ends a blocking wait: a deferred store fault, or a load fault of the wait's own MWATCH (R195, R354). -/
def endsWait (w : Wave) (x : Waiting) : Bool :=
  storeRec w || (match x.on with
    | .mwatch id => w.recs.any fun e => e.2.acc == id && e.2.watch
    | _ => false)

/-- A record takes the wave to its handler before its next bundle issues: a record of the load class (R197), a full queue (R196),
or a store record where the wave waits with an unissued bundle, is about to issue a publish point, stops (R195, R275), or has only to retire
(R19). A record without
room keeps a wave from stopping. -/
def recordDue (s : State) (wid : Nat) (w : Wave) : Bool :=
  if w.stopping.isSome then storeRec w || s.acc.any fun e => e.2.wid == wid && e.2.unrecorded
  else loadRec w || w.count == 64 || (storeRec w && (w.exiting || heldNow s wid w || deliversNow s wid w))

/-- HANDLER_ENTRY (R267): a cause that the bundle about to issue raises comes first (R266). A landing conflict that falls due inside the handler ends the launch (R270); one that was due before stays
due until after ERET (R266). -/
def execHandlerEntry (wid : Nat) (s : State) : Out :=
  match waveOf s wid with
  | none => notEnabled
  | some w =>
    if w.sup then
      if w.landSup && (w.st == .handler || w.st == .waiting) then done (killWave s wid w 0x0B w.pc 0) else notEnabled
    else
      match w.st, w.wait with
      | .waiting, some x =>
        if endsWait w x then done (enterHandler s wid w (headCause w) 0 false true x.here x.here) else notEnabled
      | .running, _ =>
        if raisesNow s wid w then notEnabled
        else if recordDue s wid w then done (enterHandler s wid w (headCause w) 0 false false w.pc w.pc)
        else if w.landDue && w.stopping.isNone && !heldNow s wid w then
          done (enterHandler (setWave s wid { w with landDue := false }) wid { w with landDue := false } 0x0B 0 false false w.pc w.pc)
        else notEnabled
      | _, _ => notEnabled

end Sys2Proof.Machine
end

