-- ==== Sys2Proof/Machine/Hints.lean ====
section
/-! DEFINITION. MPREF and MFLUSH: which lines the caches hold, and no value that an observer reads (R340, R347, R350). -/

namespace Sys2Proof.Machine

/-- The lanes of MPREF whose checks would all pass (R181, R188, R350), as virtual addresses. -/
def prefVas (f : MPrefF) (s : State) (wid : Nat) (w : Wave) : List Nat :=
  let g := segOf s wid w f.h.seg.toNat
  (laneList (f.ac == .unif) (effMask s w (tagOf 5 0) f.h.k.toNat)).filterMap fun l =>
    let off := offsetOf (addrOf s w f.ac f.a (mDisp s f.h.disp)) l
    let va := ((g.base : Int) + off).toNat
    if segCheck g true false off 1 && (atlbDenies s (coreNo wid) (asidOf s w) g true false va (tagOf 5 32 + l)).isNone then some va
    else none

/-- The first address on each distinct line of 128 bytes. -/
def lineVas (vas : List Nat) : List Nat := (distinct (vas.map (· / 128))).filterMap fun n => vas.find? fun v => v / 128 == n

/-- Where a prefetch finds its line: a pageable one is translated at its home, and a fault drops the request (R350). -/
def prefLook (s : State) (wid : Nat) (w : Wave) (g : Seg) (va : Nat) : Looked × State :=
  if segPage g then lookAt s (coreNo wid) (segFar g) (asidOf s w) (segClass g) true false va
  else (.at_ (homeLoc (segFar g) (dieNo wid) (g.pbase + (va - g.base))), s)

/-- A line that evict-first marks is the next to go. -/
def backLine (asid line : Nat) (l : List CLine) : List CLine :=
  l.filter (fun x => !(x.asid == asid && x.line == line)) ++ l.filter fun x => x.asid == asid && x.line == line

/-- A prefetched line enters L1, unless the hint, ALIAS or host bias bypasses it, and L2 or the remote-data cache (R350). -/
def prefHold (s : State) (wid : Nat) (w : Wave) (g : Seg) (hint : Hint) (va loc : Nat) : State :=
  let core := coreNo wid
  let asid := asidOf s w
  let gib := (loc - Config.farBase) / 2 ^ 30
  let past := segAlias g || (decide (Config.farBase ≤ loc) && (hostBias s gib || s.bias.contains gib))
  let s1 := if segFar g then (if past then s else holdRdc s (dieNo wid) asid va 1) else holdL2 s asid va loc 1 (segAlias g)
  if past then s1
  else match hint with
    | .bypassL1 => s1
    | .evictFirst => modCore (holdL1 s1 core asid va 1) core fun c => { c with l1 := backLine asid (va / 128) c.l1 }
    | .normal => holdL1 s1 core asid va 1
    | .keep => holdL1 s1 core asid va 1

/-- A prefetch that meets a bad word logs it for the host (R206). -/
def prefLog (s : State) (loc : Nat) : State :=
  { s with eccLog := s.eccLog ++ (badWords s (loc / 128 * 128) 128).map fun e => { loc := 32 * e, at_ := ticks s } }

/-- A prefetch whose walk meets a bad word of table memory logs it for the host (R206): the words of the address-space entry and of the
tables of its home that hold an error. -/
def walkLog (s : State) (far : Bool) (die asid va : Nat) : State :=
  { s with eccLog := s.eccLog ++ (walkWords s far die asid va).map fun e => { loc := 32 * e, at_ := ticks s } }

/-- One request of MPREF: a line whose translation would fault is dropped with no record. -/
def prefLine (wid : Nat) (w : Wave) (g : Seg) (hint : Hint) (s : State) (va : Nat) : State :=
  let x := prefLook s wid w g va
  match x.1 with
  | .ecc => walkLog x.2 (segFar g) (dieNo wid) (asidOf s w) va
  | .at_ loc => modShare (prefHold (prefLog x.2 loc) wid w g hint va loc) (coreNo wid) w.lid fun y =>
      { y with pfLines := (va / 128) :: y.pfLines.filter (· != va / 128) }
  | _ => x.2

/-- MPREF: each distinct line of 128 bytes counts in `pfissued` (R350). -/
def execMpref (f : MPrefF) (s : State) : Out :=
  slotOp (.mpref f) s fun wid w s =>
    let vas := lineVas (prefVas f s wid w)
    let s1 := vas.foldl (prefLine wid w (segOf s wid w f.h.seg.toNat) f.h.hint) s
    modShare s1 (coreNo wid) w.lid fun x => { x with pfissued := x.pfissued + BitVec.ofNat 32 vas.length }

/-- The lines that MFLUSH acts on (R347). -/
def flushLines (f : MFlushF) (s : State) (wid : Nat) (w : Wave) : List Nat :=
  let g := segOf s wid w f.h.seg.toNat
  distinct ((laneList (f.ac == .unif) (effMask s w (tagOf 5 0) f.h.k.toNat)).map fun l =>
    ((g.base : Int) + offsetOf (addrOf s w f.ac f.a (mDisp s f.h.disp)) l).toNat / 128)

/-- MFLUSH: `.wb` sends the dirty lines to their homes, where they take the translations of the time at which their data was stored (R189);
`.inv` and `.wbinv` also drop the lines from the core's L1 and the die's remote-data cache; nothing is translated anew by it and no value that
anyone reads changes (R347). -/
def execMflush (f : MFlushF) (s : State) : Out :=
  slotOp (.mflush f) s fun wid w s =>
    let core := coreNo wid
    let asid := asidOf s w
    let lines := (flushLines f s wid w).contains
    let l := storesOn s core asid lines
    let s1 := placeBack (sendStores s l) l
    match f.op with
    | .wb => s1
    | .inv | .wbinv =>
      modDie (dropL1 s1 core asid lines) (dieNo wid) fun d => { d with rdc := d.rdc.filter fun x => !(x.asid == asid && lines x.line) }

end Sys2Proof.Machine
end

