-- ==== Sys2Proof/Machine/Streams.lean ====
section
/-! DEFINITION. Stage streams: MSPUSH, MSPOP and MSFREE (R238, R239), the rings they use, overflow lodging (R240), the cyclic wait
(R241) and the toll buckets' refill (R242). -/

namespace Sys2Proof.Machine

/-- The milestone context of a stream form (R238). -/
def streamCtx (ms7 : Bool) : Nat := if ms7 then 7 else 6

/-- A stream status word (R239). -/
def streamStatus (lodged : Bool) (slot tag err len : Nat) : DWord :=
  BitVec.ofNat 64 (2 ^ 63 + (if lodged then 2 ^ 62 else 0) + slot * 2 ^ 48 + tag * 2 ^ 32 + err * 2 ^ 28 + len)

/-- The wave of a saved body. -/
def savedWave (b : Body) (wid : Nat) : Option Wave := (b.cores.find? fun c => (Tab.find c.waves wid).isSome).bind fun c => Tab.find c.waves wid

/-- The s and h registers of a saved wave go to its area (R276). -/
def areaScalars (s : State) (wid : Nat) (w : Wave) : State :=
  match waveArea s wid w with
  | none => s
  | some loc => devWrite s (loc + 0x100) (rangeBytes 64 (sBytes s w) ++ rangeBytes 8 (hBytes s w))

/-- Change a wave wherever it stands: resident, or in its launch's saved body (R244). -/
def modOwner (s : State) (lid wid : Nat) (f : Wave → Wave) : State :=
  match Tab.find s.bodies lid with
  | some b =>
    let cores := b.cores.map fun c => { c with waves := c.waves.map fun e => if e.1 = wid then (e.1, f e.2) else e }
    let s1 := { s with bodies := Tab.put s.bodies lid { b with cores := cores } }
    (match savedWave b wid with
    | some w => areaScalars s1 wid (f w)
    | none => s1)
  | none => modReach s wid f

/-- Microseconds and the waits of R240 and R241, in ticks. -/
def lodgeTicks : Nat := 120000

def setStream (s : State) (k : Nat) (x : Stream) : State := { s with streams := Tab.put s.streams k x }

/-- The first byte of a ring slot (R237). -/
def slotLoc (x : Stream) (k : Nat) : Nat := x.head + k * x.size

/-- A ring slot that is empty. -/
def RSlot.init : RSlot := { full := false, acquired := false, freed := false, len := 0, tag := 0, lodged := false }
def ringAt (x : Stream) (k : Nat) : RSlot := Tab.findD x.ring k RSlot.init

/-- Byte k of a push: read at a time between issue and completion, so that one written meanwhile is old or new (R228). -/
def pushByte (s : State) (p : Push) (k : Nat) : Byte :=
  if p.fixed || pick s (7000000 + k) 2 == 1 then p.src0.getD k 0
  else (padBytes s p.core (padBase s p.core p.lid + p.src + k) 1).headD 0

/-- A run of bytes among those still to be moved: its first byte and its length, chosen freely (R208, R230). -/
def freeRun (s : State) (todo : List (Nat × Nat)) : Nat × Nat :=
  let ks := numbers todo
  let i := pick s 70 ks.length
  (ks.getD i 0, 1 + pick s 71 (runLen (ks.getD i 0) (ks.drop i)))

/-- The spans of n bytes from an address that no interval of a list still to be moved covers. -/
def gapsOf (base n : Nat) (todo : List (Nat × Nat)) : List (Nat × Nat) :=
  (todo.foldl (fun l r => cutOut r.1 (r.1 + r.2) l) [(0, n)]).map fun r => (base + r.1, r.2)

/-- Move some bytes of a push into the next ring slot, each of them an access of its own at the receiving die's home (R208, R238): the
state, and the bytes still to be moved. -/
def moveInto (s : State) (x : Stream) (len : Nat) (o : Origin) (byte : Nat → Byte) : State × List (Nat × Nat) :=
  let todo := x.todo.getD [(0, len)]
  let r := freeRun s todo
  let s1 := ((List.range r.2).map (r.1 + ·)).foldl (fun t k => commitByte t o (slotLoc x x.wr + k) (byte k)) s
  let rest := cutOut r.1 (r.1 + r.2) todo
  (eccClearAll s1 (gapsOf (slotLoc x x.wr) len rest), rest)

/-- Every byte has been committed: the next ring slot is full (R238). -/
def fillSlot (s : State) (k : Nat) (x : Stream) (len tag : Nat) (lodged : Bool) : State :=
  setStream s k { x with
    ring := Tab.put x.ring x.wr { RSlot.init with full := true, len := len, tag := tag, lodged := lodged }
    wr := (x.wr + 1) % x.slots
    inUse := x.inUse + 1
    todo := none
    moved := ticks s }

/-- End a push: its status and its number (R218, R239). -/
def finishPush (s : State) (p : Push) (v : DWord) : State :=
  finishMs (modOwner s p.lid p.wid fun w => clearBusy (statusWrite w p.dreg v) p.id) p.lid p.party p.ctx p.num

/-! ### Issue -/

/-- MSPUSH (R238): the push joins the endpoint's queue. -/
def execMspush (f : MStream) (s : State) : Out :=
  slotOp (.mspush f) s fun wid w s =>
    let dreg := nameS w.sup f.d.toNat
    let ctx := streamCtx f.ms7
    if effMask s w (tagOf 5 0) f.k.toNat = 0 then emptyCopy s wid w ctx dreg (copyStatus true 0 0 0 0 0)
    else
      match streamOf s w.lid true f.ep.toNat with
      | none => s
      | some e =>
        let t := takeMs s w.lid w.party ctx
        let src := (copyReg s w f.a 1).toNat
        let len := (copyReg s w f.a 2).toNat
        let p : Push :=
          { id := s.nextId, addr := s.cur.here, wid := wid, lid := w.lid, core := coreNo wid, party := w.party, wnum := w.num, src := src, len := len,
            tag := (copyReg s w f.a 0).toNat % 65536, ctx := ctx, num := t.1, dreg := dreg, since := ticks s,
            src0 := padBytes s (coreNo wid) (padBase s (coreNo wid) w.lid + src) len, fixed := false }
        let s1 := setStream { t.2 with nextId := s.nextId + 1 } e.1 { e.2 with pend := e.2.pend ++ [p] }
        tollDebit (setWave s1 wid (addBusy (nextSeq w) p.id [dreg])) wid w false len

/-- MSPOP (R238): the wave blocks until the oldest unacquired slot is full; the status comes when the slot has been copied. -/
def execMspop (f : MStream) (s : State) : Out :=
  slotOp (.mspop f) s fun wid w s =>
    let dreg := nameS w.sup f.d.toNat
    let ctx := streamCtx f.ms7
    if effMask s w (tagOf 5 0) f.k.toNat = 0 then emptyCopy s wid w ctx dreg (copyStatus true 0 0 0 0 0)
    else
      match streamOf s w.lid false f.ep.toNat with
      | none => s
      | some e =>
        let t := takeMs s w.lid w.party ctx
        let p : Pop :=
          { addr := s.cur.here, wid := wid, lid := w.lid, core := coreNo wid, party := w.party, stream := e.1,
            dst := (copyReg s w f.a 1).toNat, len := (copyReg s w f.a 2).toNat, ctx := ctx, num := t.1, dreg := dreg,
            slot := none, took := RSlot.init, todo := [] }
        startWait { t.2 with pops := Tab.put s.pops s.nextId p, nextId := s.nextId + 1 } wid (addBusy (nextSeq w) s.nextId [dreg])
          (.mspop s.nextId) none

/-- Slots freed in ring order return to the sender (R238). -/
def returnSlots : Nat → Stream → Stream
  | 0, x => x
  | n + 1, x =>
    if (ringAt x x.old).freed then
      returnSlots n { x with ring := Tab.del x.ring x.old, old := (x.old + 1) % x.slots, inUse := x.inUse - 1 }
    else x

/-- MSFREE (R238): the oldest slot that the party has acquired and not yet freed. -/
def execMsfree (f : MSfreeF) (s : State) : Out :=
  slotOp (.msfree f) s fun wid w s =>
    let dreg := nameS w.sup f.d.toNat
    let ctx := streamCtx f.ms7
    if effMask s w (tagOf 5 0) f.k.toNat = 0 then emptyCopy s wid w ctx dreg (copyStatus true 0 0 0 0 0)
    else
      match streamOf s w.lid false f.ep.toNat, (partyOf s w.lid w.party).map fun p => Tab.findD p.acq f.ep.toNat [] with
      | some e, some (k :: rest) =>
        let r := ringAt e.2 k
        let s1 := modParty s w.lid w.party fun p => { p with acq := Tab.put p.acq f.ep.toNat rest }
        let s2 := setStream s1 e.1 (returnSlots e.2.slots { e.2 with
          ring := Tab.put e.2.ring k { r with freed := true }
          moved := ticks s })
        emptyCopy s2 wid w ctx dreg (streamStatus r.lodged k 0 0 r.len)
      | _, _ => emptyCopy s wid w ctx dreg (streamStatus false 0 0 2 0)

/-! ### Events -/

/-- What a wave waits for. -/
def waitOn (w : Wave) : Option WaitOn := w.wait.map (·.on)

/-- The bytes of a push that have still to be moved into slot `wr`. -/
def leaveTodo (s : State) (k : Nat) (x : Stream) (todo : List (Nat × Nat)) : State := setStream s k { x with todo := some todo, moved := ticks s }

/-- The function of a launch. -/
def vfOf (s : State) (lid : Nat) : Nat := match launchOf s lid with | some l => l.vf | none => 0

/-- STREAM_PUSH_COMPLETE (R208, R238, R240): bytes of the oldest lodged push, else of the oldest pending one, move into a free ring
slot; with the last of them the push completes. -/
def execStreamPushComplete (ep : Nat) (s : State) : Out :=
  match Tab.find s.streams ep with
  | none => notEnabled
  | some x =>
    if x.slots ≤ x.inUse then notEnabled
    else
      match x.lodged, x.pend with
      | l :: rest, _ =>
        let m := moveInto s x l.len { Origin.device with copy := true } fun k => l.bytes.getD k 0
        if !m.2.isEmpty then done (leaveTodo m.1 ep x m.2)
        else
          done (modFunc (fillSlot m.1 ep { x with lodged := rest } l.len l.tag true) (vfOf s x.sLid)
            fun f => { f with lodgeUse := f.lodgeUse - x.size / 4096 })
      | [], p :: rest =>
        if !p.fixed && eccPadHit s p.core (padBase s p.core p.lid + p.src) p.len then done (dataError s p.wid p.addr)
        else
          let m := moveInto s x p.len (pushOrigin p) (pushByte s p)
          if !m.2.isEmpty then done (leaveTodo m.1 ep x m.2)
          else done (finishPush (fillSlot m.1 ep { x with pend := rest } p.len p.tag false) p (streamStatus false x.wr 0 0 p.len))
      | [], [] => notEnabled

/-- OVERFLOW_LODGING (R240): the oldest pending push is lodged, or its launch is killed when the budget cannot cover it. -/
def execOverflowLodging (ep : Nat) (s : State) : Out :=
  match Tab.find s.streams ep with
  | none => notEnabled
  | some x =>
    match x.pend with
    | [] => notEnabled
    | p :: rest =>
      if !x.lodged.isEmpty || (x.slots ≤ x.inUse && p.since + lodgeTicks ≤ ticks s) then
        let v := vfOf s x.sLid
        let f := funcOf s v
        if f.lodgeUse + x.size / 4096 ≤ f.lodgeBud then
          if !p.fixed && eccPadHit s p.core (padBase s p.core p.lid + p.src) p.len then done (dataError s p.wid p.addr)
          else
            let s1 := setStream s ep { x with
              pend := rest
              lodged := x.lodged ++ [{ len := p.len, tag := p.tag, bytes := (List.range p.len).map (pushByte s p) }]
              moved := ticks s }
            done (finishPush (modFunc s1 v fun f => { f with lodgeUse := f.lodgeUse + x.size / 4096 }) p (streamStatus true 0 0 0 p.len))
        else done (killLaunch s p.lid 0x0F (dieNo p.wid) (coreOnDie p.wid) (slotNo p.wid) p.addr.toNat 1)
      else notEnabled

/-- A pop can go on: it waits with its wave and the oldest unacquired slot is full; or it has acquired its slot, and has bytes to copy or
waits with its refresh for no earlier load of its wave (R212, R238). -/
def popGoes (s : State) (w : Wave) (id : Nat) (p : Pop) (x : Stream) : Bool :=
  match p.slot with
  | none => (ringAt x x.acq).full && !(ringAt x x.acq).acquired && waitLive (.mspop id) w
  | some _ => !p.todo.isEmpty || loadsBack s p.wid id

/-- A pop of a wave that can go on, with its stream and the wave: any one of those that can. -/
def popReady (s : State) (wid : Nat) : Option (Nat × Pop × Stream × Wave) :=
  match waveOf s wid with
  | none => none
  | some w =>
    let l := s.pops.filterMap fun e => (Tab.find s.streams e.2.stream).bind fun x =>
      if e.2.wid == wid && popGoes s w e.1 e.2 x then some (e.1, e.2, x, w) else none
    l[pick s 74 l.length]?

/-- A pop acquires the oldest unacquired slot of its stream, and its wave goes on (R238). -/
def acquireSlot (s : State) (id : Nat) (p : Pop) (x : Stream) : State :=
  let s1 := setStream s p.stream { x with
    ring := Tab.put x.ring x.acq { ringAt x x.acq with acquired := true }
    acq := (x.acq + 1) % x.slots }
  let s2 := modParty s1 p.lid p.party fun y => { y with acq := Tab.put y.acq x.rEp (Tab.findD y.acq x.rEp [] ++ [x.acq]) }
  let q := { p with slot := some x.acq, took := ringAt x x.acq, todo := if p.len = 0 then [] else [(0, p.len)] }
  modReach { s2 with pops := Tab.put s2.pops id q } p.wid (wakeFrom (.mspop id))

/-- Copy some bytes of a slot into the scratchpad, each of them an access of its own (R208): the state, and the bytes still to be
copied. -/
def popBytes (s : State) (p : Pop) (loc : Nat) : State × List (Nat × Nat) :=
  if p.todo.isEmpty then (s, [])
  else
    let r := freeRun s p.todo
    let pad := padBase s p.core p.lid + p.dst + r.1
    let rest := cutOut r.1 (r.1 + r.2) p.todo
    (eccPadClearAll (padWrite s p.core pad (devBytes s (loc + r.1) r.2)) p.core (gapsOf (padBase s p.core p.lid + p.dst) p.len rest), rest)

/-- A pop has its bytes: the core refreshes, the status is written, and its number is reached (R212, R218, R239). -/
def finishPop (s : State) (id : Nat) (p : Pop) (k : Nat) (r : RSlot) : State :=
  let s1 := modReach { s with pops := Tab.del s.pops id } p.wid fun w =>
    clearBusy (statusWrite w p.dreg (streamStatus r.lodged k r.tag 0 r.len)) id
  finishMs (refresh s1 p.core) p.lid p.party p.ctx p.num

/-- MSPOP_ACQUIRE (R208, R238): the oldest unacquired slot is acquired and the wave's wait ends; then its bytes are copied while the wave runs
on, and the pop completes. -/
def execMspopAcquire (wid : Nat) (s : State) : Out :=
  match popReady s wid with
  | none => notEnabled
  | some (id, p, x, _) =>
    match p.slot with
    | none => done (acquireSlot s id p x)
    | some k =>
      if p.todo.isEmpty then done (finishPop s id p k p.took)
      else if eccHit s (slotLoc x k) p.len then done (dataError s wid p.addr)
      else
        let b := popBytes s p (slotLoc x k)
        done { b.1 with pops := Tab.put b.1.pops id { p with todo := b.2 } }

/-! ### Cyclic waits (R241) -/

/-- A wave of a route is blocked in a wait that counts towards the report. -/
def cyclicWave (s : State) (w : Wave) : Bool :=
  w.st == .waiting && match waitOn w with
    | some (.bar _ _) => true
    | some (.mwait ctx _) => ctx == 6 || ctx == 7
    | some (.mspop id) => (match (Tab.find s.pops id).bind fun p => Tab.find s.streams p.stream with
        | some x => !(ringAt x x.acq).full && (match Tab.find s.pops id with | some p => p.slot.isNone | none => false)
        | none => false)
    | _ => false

/-- Every unretired wave of the route is blocked, and no push, free or lodging move is in flight. -/
def cyclicNow (s : State) (r : Route) : Bool :=
  r.lids.length == r.stages &&
  (r.lids.any fun lid => match launchOf s lid with | some l => l.st == .accepted | none => false) &&
  (r.lids.all fun lid => match launchOf s lid with
    | some l => l.st != .accepted || (l.placed == l.p.parties && !l.saved)
    | none => true) &&
  (s.waves.all fun e => !r.lids.contains e.2.lid || e.2.st == .retired || cyclicWave s e.2) &&
  s.streams.all fun e => !r.lids.contains e.2.sLid || (e.2.pend.isEmpty && e.2.lodged.isEmpty)

/-- The tick since which that has held: the latest start of a wait, or return into one, retirement of a wave, or move of a stream. -/
def cyclicSince (s : State) (r : Route) : Nat :=
  s.streams.foldl (fun m e => if r.lids.contains e.2.sLid then max m e.2.moved else m)
    (s.waves.foldl (fun m e => if r.lids.contains e.2.lid then
      (match e.2.wait with | some x => max m x.since | none => m) else m) r.stirred)

/-- CYCLIC_WAIT (R241): every stage's launch is killed with detail 2. -/
def execCyclicWait (route : Nat) (s : State) : Out :=
  match Tab.find s.routes route with
  | none => notEnabled
  | some r =>
    match r.lids.find? fun lid => match launchOf s lid with | some l => l.st == .accepted | none => false with
    | none => notEnabled
    | some lid =>
      if cyclicNow s r && cyclicSince s r + lodgeTicks ≤ ticks s then done (killLaunch s lid 0x0F 0xFF 0xFF 0xFF 0 2) else notEnabled

/-! ### Toll buckets (R242) -/

/-- The depth of a bucket in bytes. -/
def tollDepth (t : Toll) : Nat := 1024 * (if t.depth = 0 then 1 else t.depth)

/-- The refill of the whole microseconds since the last one; a level above a depth that has been lowered stays until debits take it below
(DESIGN CHOICE, log 64). -/
def refillToll (now : Nat) (t : Toll) : Toll :=
  let n := (now - t.at_) / 1200
  { t with
    level := if t.en && decide (t.level < tollDepth t) then min (t.level + n * t.rate) (tollDepth t) else t.level
    at_ := t.at_ + 1200 * n }

def tollDue (now : Nat) (t : Toll) : Bool := t.en && t.at_ + 1200 ≤ now

/-- TOLL_REFILL (R242): the two buckets of a function on a die refill. -/
def execTollRefill (die : BitVec 3) (v : BitVec 4) (s : State) : Out :=
  let d := dieOf s die.toNat
  let a := Tab.findD d.tollS v.toNat Toll.init
  let b := Tab.findD d.tollF v.toNat Toll.init
  if tollDue (ticks s) a || tollDue (ticks s) b then
    done (modDie s die.toNat fun d => { d with
      tollS := Tab.put d.tollS v.toNat (refillToll (ticks s) a)
      tollF := Tab.put d.tollF v.toNat (refillToll (ticks s) b) })
  else notEnabled

end Sys2Proof.Machine
end

