-- ==== Sys2Proof/Machine/Replay.lean ====
section
/-! DEFINITION. REPLAY (R198, R231, R356) and INVPG (R203, R204, R325). -/

namespace Sys2Proof.Machine

/-! ### REPLAY -/

/-- The page number that a record stands for, in the class of its segment. -/
def recPage (r : FRec) (cls : Nat) : Nat := recVa r / classSize cls

/-- Write a record again into the slot of an earlier one (R198). -/
def rewriteRecord (s : State) (wid k : Nat) (old new : FRec) : State :=
  let s1 := match old.loc with
    | some l => recWrite s wid l (leBytes 32 new.bits.toNat)
    | none => s
  modWave s1 wid fun w => { w with recs := Tab.put w.recs k { new with loc := old.loc } }

/-- Free the record of a slot of a wave (R202). -/
def freeSlot (s : State) (wid k : Nat) : State :=
  match waveOf s wid with
  | some w => freeRecord s wid w k
  | none => s

/-- A TLDO. -/
def isLdo (d : Dest) : Bool := match d with | .tldo _ => true | _ => false

/-- Translate the failed pieces of a page again, and every piece of a tile load, which is reissued whole (R152): the pieces, the state,
and whether an uncorrectable error was met. -/
def relook (s : State) (a : Acc) (pg : Nat) : List Piece → List Piece × State × Bool
  | [] => ([], s, false)
  | p :: t =>
    if (p.fault.isSome && piecePage a p == pg) || a.kind == .tload then
      let x := lookAt s a.core a.far a.asid a.cls (accRd a.kind) (accWr a.kind) p.va
      let r := relook x.2 a pg t
      match x.1 with
      | .at_ loc => ({ p with pa := some loc, fault := none } :: r.1, r.2.1, r.2.2)
      | .fault c => ({ p with fault := some c } :: r.1, r.2.1, r.2.2)
      | .ecc => (p :: r.1, r.2.1, true)
    else
      let r := relook s a pg t
      (p :: r.1, r.2.1, r.2.2)

/-- A slot whose fill had faulted fills again once no row of it fails (R143, R152). -/
def refill (s : State) (a : Acc) : State :=
  match a.dest with
  | .slot o _ _ | .tldo o =>
    if a.kind == .tload && a.pieces.all (fun p => p.fault.isNone) then modEntry s a.core o fun e => { e with st := .filling, flt := false } else s
  | _ => s

/-- A TLDO starts again at step 0: no row of it has been read (R161). -/
def unread (a : Acc) : Acc :=
  if isLdo a.dest then { a with step := 0, pieces := a.pieces.map fun p => { p with val := [], done := false } } else a

/-- The pieces that a record of a page stands for: for a TLDO its first failing ones (R161). -/
def recPieces (a : Acc) (pg : Nat) : List Piece :=
  match a.dest with
  | .tldo _ =>
    let l := a.pieces.filter fun p => p.fault.isSome
    l.filter fun p => (l.head?.map (piecePage a)) == some (piecePage a p)
  | _ => a.pieces.filter fun p => p.fault.isSome && piecePage a p == pg

/-- REPLAY of the record of an access. -/
def replayAcc (s : State) (wid k id : Nat) (a : Acc) (r : FRec) : State :=
  let pg := recPage r a.cls
  let x := relook s a pg (unread a).pieces
  if x.2.2 then dataError x.2.1 wid a.addr
  else
    let b := { unread a with
      pieces := x.1
      held := a.held && x.1.any fun p => p.fault.isSome }
    let s1 := setAcc x.2.1 id b
    match recPieces b pg with
    | [] => recordFaults (tileAccept (refill (freeSlot s1 wid k) b) id) id
    | ps => rewriteRecord s1 wid k r (accRecord s1 id b ps true)

/-- Translate the failed regions of a page of a copy again. -/
def relookCopy (s : State) (c : Copy) : List Nat → Copy × State × Bool
  | [] => (c, s, false)
  | r :: t =>
    let x := lookAt s c.core c.far c.asid c.cls (!isOut c.kind) (isOut c.kind) (r * 4096)
    match x.1 with
    | .at_ loc => relookCopy x.2 { c with pages := Tab.put c.pages r loc, fails := Tab.del c.fails r } t
    | .fault e => relookCopy x.2 { c with fails := Tab.put c.fails r e } t
    | .ecc => (c, x.2, true)

/-- A copy that goes on moves the bytes from BYTES on (R231). -/
def restartCopy (s : State) (id : Nat) (c : Copy) : State :=
  let s1 := match c.kind with
    | .inSlot =>
      c.got.foldl (fun t e => slotWrite t c.core (c.loff / 8192) (c.loff % 8192 + e.1) [e.2])
        (modEntry s c.core (c.loff / 8192) fun e => { e with st := .filling, flt := false })
    | _ => s
  setCopy s1 id { c with faulted := false, todo := [(faultBytes c, c.len - faultBytes c)] }

/-- REPLAY of the record of a copy. -/
def replayCopy (s : State) (wid k id : Nat) (c : Copy) (r : FRec) : State :=
  let pg := recPage r c.cls
  let x := relookCopy s c ((c.fails.filter fun e => e.1 * 4096 / classSize c.cls == pg).map (·.1))
  if x.2.2 then dataError x.2.1 wid c.addr
  else
    let d := x.1
    if (failPages d).contains pg then
      let s1 := rewriteRecord (setCopy x.2.1 id d) wid k r (copyRecord id d pg true)
      faultStatus s1 id d
    else
      let s1 := freeSlot (setCopy x.2.1 id d) wid k
      if d.fails.isEmpty then restartCopy s1 id d else s1

/-- Records of copies that found the queue full enter it as room appears (R196). -/
def recordCopies (s : State) (wid : Nat) : State :=
  (s.copies.filter fun e => e.2.wid == wid && e.2.faulted).foldl (fun t e => recordCopy t e.1 e.2) s

/-- REPLAY n (R198): a slot that holds no unfreed record is left alone; a record of the attribute TLB, or of an abandoned watch, is
freed. -/
def replayRec (s : State) (wid k : Nat) (w : Wave) : State :=
  match Tab.find w.recs k with
  | none => s
  | some r =>
    let s1 :=
      if r.copy then (match copyOf s r.acc with
        | some c => replayCopy s wid k r.acc c r
        | none => freeSlot s wid k)
      else match accOf s r.acc with
        | some a => replayAcc s wid k r.acc a r
        | none => freeSlot s wid k
    recordCopies (recordWaiting s1 wid) wid

/-- REPLAY (R356): the slot number is the low 6 bits of its operand. -/
def execReplay (f : ScOp) (s : State) : Out :=
  slotOp (.replay f) s fun wid w s => replayRec s wid ((scVal s w f).toNat % 64) w

/-! ### INVPG -/

/-- A page of a class overlaps a region (base, size). -/
def pageOverlaps (cls page : Nat) (g : Nat × Nat) : Bool := page * classSize cls < g.1 + g.2 && g.1 < (page + 1) * classSize cls

/-- The region that INVPG names: everything for a whole address space. -/
def invRegion (f : InvpgF) (va : Nat) : Nat × Nat :=
  if f.whole then (0, 2 ^ 48) else (va / classSize f.cls.toNat * classSize f.cls.toNat, classSize f.cls.toNat)

def dropX (asid : Nat) (g : Nat × Nat) (l : List XEntry) : List XEntry := l.filter fun e => !(e.asid == asid && pageOverlaps e.cls e.page g)

/-- A line of an address space overlaps a region. -/
def lineIn (g : Nat × Nat) (line : Nat) : Bool := 128 * line < g.1 + g.2 && g.1 < 128 * (line + 1)

/-- Remove the translations of a region from every attribute TLB and translation cache (R203); the next test of a watch there translates
its address again (R187, R354). -/
def invalidate (s : State) (asid : Nat) (g : Nat × Nat) : State :=
  { s with
    cores := s.cores.map fun e => (e.1, { e.2 with atlb := e.2.atlb.filter fun x => !(x.asid == asid && pageOverlaps x.cls x.page g) })
    dies := s.dies.map fun e => (e.1, { e.2 with xlat := e.2.xlat.map fun x => (x.1, dropX asid g x.2) })
    feXlat := s.feXlat.map fun x => (x.1, dropX asid g x.2)
    acc := s.acc.map fun e => (e.1, if e.2.kind == .watch && e.2.asid == asid && e.2.pieces.any fun p => lineIn g (p.va / 128) then freshWatch e.2 else e.2) }

/-- The dies that stand isolated (R204). -/
def offMask (s : State) : Nat := s.dies.foldl (fun m e => if e.2.off then m ||| 2 ^ e.1 else m) 0

/-- The dirty lines of a region in every L1 leave for their homes, and those on their way there already, taken by a publication or written
back before, arrive: the translations that still stand place them (R203); lines of L1 and of the remote-data caches are gone. -/
def flushL1 (s : State) (asid : Nat) (g : Nat × Nat) : State :=
  let l := s.acc.filter fun e => isStore e.2.kind && e.2.scope.isPlain && !e.2.loc && !e.2.direct && e.2.asid == asid &&
    (pieceLines (e.2.pieces.filter fun p => !p.done)).any (lineIn g)
  let s1 := lookStores (sendStores s l) l
  dropRdc (s1.cores.foldl (fun t e => dropL1 t e.1 asid (lineIn g)) s1) asid (lineIn g)

/-- A line of L2 holds commits that have not been written back. -/
def dirtyL2 (s : State) (n : Nat) (x : CLine) : Bool := s.hist.any fun c => c.loc / 128 == n && decide (x.back < c.seq)

/-- The lines of L2 of a region are written back and gone: those of its addresses, and those under a physical tag that were last reached
through it (R18, R203); bad words of a dirty line keep their bad check bits in memory (R206). -/
def flushL2 (s : State) (asid : Nat) (g : Nat × Nat) : State :=
  let hit := fun (x : CLine) => x.asid == asid && lineIn g x.line
  let bad := s.dies.flatMap fun d => d.2.l2.flatMap fun x => if hit x.2 && dirtyL2 s x.1 x.2 then x.2.bad.map (4 * x.1 + ·) else []
  spoil { s with dies := s.dies.map fun d => (d.1, { d.2 with l2 := d.2.l2.filter fun x => !hit x.2 }) } bad

/-- INVPG (R203, R325): the dirty lines of the region are written back by the old translations, then the translations go; the status
arrives once every die has acknowledged, by LOAD_RETURN. -/
def execInvpg (f : InvpgF) (s : State) : Out :=
  slotOp (.invpg f) s fun wid w s =>
    let va := (rdS s w (tagOf 0 0) f.a.toNat).toNat % 2 ^ 48
    let g := invRegion f va
    let asid := asidOf s w
    let s1 := invalidate (flushL2 (flushL1 s asid g) asid g) asid g
    match waveOf s1 wid with
    | none => s1
    | some v =>
      setWave { s1 with invpg := Tab.put s1.invpg s.nextId (wid, offMask s), nextId := s.nextId + 1 } wid
        (addBusy v s.nextId [nameS w.sup f.a.toNat])

end Sys2Proof.Machine
end

