-- ==== Sys2Proof/Machine/TileMath.lean ====
section
/-! DEFINITION. The arithmetic of the tile engine on plain data: memory images of a tile (R151), slot lines (R141), the products
and sums of TMMA (R154) with their fidelity (R163 to R168), TBMM, TSCAC (R155, R156), TQUANT and TCVT (R157, R158). -/

namespace Sys2Proof.Machine

/-! ### Slot images (R141) and memory images (R151) -/

/-- A slot image, byte by byte; a byte past its end is 0. -/
abbrev Img := Array Byte

/-- Bits of an element of a slot format. -/
def fmtBits (f : Fmt) : Nat :=
  match f with
  | .bf16 => 16 | .f16 => 16 | .fp4 => 4 | .f32 => 32 | _ => 8

/-- Element k of line n of a slot image. -/
def lineElem (g : Img) (f : Fmt) (n k : Nat) : Nat :=
  match f with
  | .bf16 | .f16 => leNat [g.getD (128 * n + 2 * k) 0, g.getD (128 * n + 2 * k + 1) 0]
  | .fp4 => (g.getD (128 * n + k / 2) 0).toNat / 16 ^ (k % 2) % 16
  | _ => (g.getD (128 * n + k) 0).toNat

/-- Scale word n of the side field. -/
def scaleWord (g : Img) (n : Nat) : Nat := leNat [g.getD (4096 + 2 * n) 0, g.getD (4097 + 2 * n) 0]

def bytesFrom (g : Img) (a n : Nat) : List Byte := (List.range n).map fun i => g.getD (a + i) 0

/-- Memory row r of a slot (R151). -/
def slotRow (g : Img) (f : Fmt) (kc : Bool) (r : Nat) : List Byte :=
  if kc then
    match f with
    | .bf16 | .f16 => (List.range 32).flatMap fun n => leBytes 2 (lineElem g f n r)
    | .fp4 => (List.range 16).map fun m => BitVec.ofNat 8 (lineElem g f (2 * m) r + 16 * lineElem g f (2 * m + 1) r)
    | _ => (List.range 32).map fun n => g.getD (128 * n + r) 0
  else bytesFrom g (128 * r) 128

/-- Byte i of the slot image that memory rows make (R151). -/
def imgByte (row : Nat → Nat → Byte) (f : Fmt) (kc : Bool) (i : Nat) : Byte :=
  let n := i / 128
  let b := i % 128
  if kc then
    match f with
    | .bf16 | .f16 => row (b / 2) (2 * n + b % 2)
    | .fp4 =>
      BitVec.ofNat 8 ((row (2 * b) (n / 2)).toNat / 16 ^ (n % 2) % 16 + 16 * ((row (2 * b + 1) (n / 2)).toNat / 16 ^ (n % 2) % 16))
    | _ => row b n
  else row n b

/-- The 4,160 bytes of a slot from its memory rows and its scale array. -/
def imgOf (row : Nat → Nat → Byte) (f : Fmt) (kc : Bool) (scale : Nat → Byte) : List Byte :=
  (List.range 4096).map (imgByte row f kc) ++ (List.range 64).map fun i => if f = .fp4 then scale i else 0

/-- A table of listed bytes from a list. -/
def tabOf (bs : List Byte) : Tab Byte := (List.range bs.length).zip bs

/-- Bytes by number from a list. -/
def byteAt (bs : List Byte) (i : Nat) : Byte := bs.getD i 0

/-! ### Fidelity (R163 to R166) -/

/-- Product width W of a format. -/
def prodWidth (f : Fmt) : Nat :=
  match f with
  | .bf16 => 16 | .f16 => 24 | .s8 => 16 | .n8 => 16 | _ => 8

/-- The lowest column on the core rail (R165). -/
def railCol (f : Fmt) (lvl : Nat) : Nat := prodWidth f / 4 * (3 - lvl)

/-- The magnitude of a product of significands, 0 where the array forms none in slices (R163). -/
def prodMag (x y : FVal) : Nat :=
  match x, y with
  | .fin _ m _, .fin _ n _ => m * n
  | _, _ => 0

/-- The deviations that undervolted slices give one product of magnitude p, each a free multiple of the slice's lowest column, the product's
within 2^(b+2) units of column 0 (R163, R165) and never below -p, since no slice forms the sign (log 12). `sum` is what slices before them
have given. -/
def deviate (serial : Nat) (f : Fmt) (lvl p tag : Nat) : List Nat → Int → List Int
  | [], _ => []
  | q :: rest, sum =>
    let e : Int := 2 ^ (railCol f lvl + 2)
    let low := max (1 - e) (-(p : Int))
    let unit : Int := 2 ^ (prodWidth f / 4 * q)
    let d := (Config.sliceError serial (4 * tag + q) % (e - low) + low - sum).tdiv unit * unit
    d :: deviate serial f lvl p tag rest (sum + d)

/-- The deviations of a product of the slices that run undervolted. -/
def sliceDevs (serial : Nat) (f : Fmt) (lvl : Nat) (und : List Nat) (tag : Nat) (x y : FVal) : List Int :=
  deviate serial f lvl (prodMag x y) tag und 0

/-- The deviation of a delivered product. -/
def sliceDev (serial : Nat) (f : Fmt) (lvl : Nat) (und : List Nat) (tag : Nat) (x y : FVal) : Int :=
  (sliceDevs serial f lvl und tag x y).foldl (fun a d => a + d) 0

/-! ### TMMA (R154) -/

/-- An operand as the array reads it: bf16 and f16 subnormals are zeros of their sign (R122). -/
def tileDecode (f : Fmt) (x : Nat) : FVal :=
  let flush := fun (g : FFmt) => match g.decode x with
    | .fin n m e => if m < 2 ^ g.mb then .fin n 0 e else .fin n m e
    | v => v
  match f with
  | .bf16 => flush bf16F
  | .f16 => flush f16F
  | .e4m3 => e4m3F.decode x
  | .e5m2 => e5m2F.decode x
  | .s8 => let v := toInt true 8 x; .fin (decide (v < 0)) v.natAbs 0
  | .n8 => .fin false x 0
  | _ => .nan

/-- A delivered product: exact but for the slices' deviation where both operands are finite and not zero; its sign is formed on the core
rail (R163). -/
def delivered (dev : Int) (x y : FVal) : Option FVal :=
  match x, y with
  | .fin nx (mx + 1) ex, .fin ny (my + 1) ey =>
    some (.fin (nx != ny) (((mx + 1) * (my + 1) : Nat) + dev).toNat (ex + ey))
  | _, _ => x.mul y

/-- A group's sum so far; none where a NaN was made of operands that are no NaNs (R121, R154). -/
abbrev GSum := Option FVal

def gAdd (a : GSum) (x y : FVal) (dev : Int) : GSum :=
  match a, delivered dev x y with
  | some s, some p => s.add false p
  | _, _ => none

/-- The sum over one group of products (tag base t). DEDUCED (log 50): a NaN among the operands makes the sum a NaN with no event,
whatever other products the group holds. -/
def groupSum (serial : Nat) (f : Fmt) (lvl : Nat) (und : List Nat) (t : Nat) (xs ys : List FVal) : GSum :=
  if xs.any FVal.isNan || ys.any FVal.isNan then some .nan
  else
    ((List.range xs.length).zip (xs.zip ys)).foldl (fun a e => gAdd a e.2.1 e.2.2 (sliceDev serial f lvl und (t + e.1) e.2.1 e.2.2)) (some (.fin false 0 0))

/-- A product that the array forms in slices: of two finite operands that are not zero (R163). -/
def sliced (x y : FVal) : Bool :=
  match x, y with
  | .fin _ (_ + 1) _, .fin _ (_ + 1) _ => true
  | _, _ => false

/-- What the mod 7 checkers of the undervolted slices find in one group: 1 for a slice whose column sum is off by no multiple of 7 (R173). -/
def groupDet (serial : Nat) (f : Fmt) (lvl : Nat) (und : List Nat) (t : Nat) (xs ys : List FVal) : List Nat :=
  let devs := ((List.range xs.length).zip (xs.zip ys)).filterMap fun e =>
    if sliced e.2.1 e.2.2 then some (sliceDevs serial f lvl und (t + e.1) e.2.1 e.2.2) else none
  (List.range und.length).map fun k => if (devs.foldl (fun a l => a + l.getD k 0) 0) % 7 = 0 then 0 else 1

/-- Sum counts slice by slice. -/
def addDets (a b : List Nat) : List Nat := (List.range (max a.length b.length)).map fun i => a.getD i 0 + b.getD i 0

/-- The events that tile sums report: no underflow (R129). -/
def noUnder (r : Rounded) : Rounded := match r.ev with | some .underflow => ⟨r.bits, none⟩ | _ => r

/-- Add a group's sum to an accumulator element by one rounding. -/
def addGroup (c : Nat) (g : GSum) : Rounded := noUnder (roundOpt f32F .rne 0 (g.bind fun s => (f32F.decode c).add false s))

/-- Add a group's sum of an integer form: it wraps (R154). -/
def addInt (c : Nat) (g : GSum) : Rounded :=
  match g with
  | some (.fin n m e) => ⟨wrapInt 32 (c + finInt n m e 0), none⟩
  | _ => ⟨c, none⟩

/-- Runs of 32. -/
def chunks : Nat → List FVal → List (List FVal)
  | 0, _ => []
  | n + 1, l => l.take 32 :: chunks n (l.drop 32)

/-- One accumulator element after groups in order: xs and ys are lines a and b as operands; the element's value and its events. -/
def mmaGo (serial : Nat) (f : Fmt) (lvl : Nat) (und : List Nat) : Nat → List (List FVal × List FVal) → Nat → Nat × List Ev
  | _, [], c => (c, [])
  | t, g :: rest, c =>
    let s := groupSum serial f lvl und t g.1 g.2
    let r := if f = .s8 ∨ f = .n8 then addInt c s else addGroup c s
    let x := mmaGo serial f lvl und (t + 32) rest r.bits
    (x.1, r.ev.toList ++ x.2)

/-- The detections of one element's groups. -/
def detGo (serial : Nat) (f : Fmt) (lvl : Nat) (und : List Nat) : Nat → List (List FVal × List FVal) → List Nat
  | _, [] => []
  | t, g :: rest => addDets (groupDet serial f lvl und t g.1 g.2) (detGo serial f lvl und (t + 32) rest)

/-- Detections over all 32 × 32 elements, or over n × n of them. -/
def allDets (n : Nat) (f : Nat → Nat → List Nat) : List Nat :=
  (List.range n).foldl (fun a i => (List.range n).foldl (fun b j => addDets b (f i j)) a) []

/-- The lines of one slot as operands. -/
def operandLines (g : Img) (f : Fmt) : List (List FVal) :=
  (List.range 32).map fun n => (List.range (if fmtBits f = 16 then 64 else 128)).map fun k => tileDecode f (lineElem g f n k)

/-- Line i of A against line j of B over all slot pairs, as groups in order (R154). -/
def pairGroups (f : Fmt) (as bs : List (List (List FVal))) (i j : Nat) : List (List FVal × List FVal) :=
  let n := if fmtBits f = 16 then 2 else 4
  (as.zip bs).flatMap fun p => (chunks n (p.1.getD i [])).zip (chunks n (p.2.getD j []))

/-- The element i, j of C after TMMA over slot pairs. -/
def mmaElem (serial : Nat) (f : Fmt) (lvl : Nat) (und : List Nat) (as bs : List (List (List FVal))) (i j c : Nat) : Nat × List Ev :=
  mmaGo serial f lvl und (65536 * (32 * i + j)) (pairGroups f as bs i j) c

/-- The detections of a TMMA by undervolted slice (R173). -/
def mmaDets (serial : Nat) (f : Fmt) (lvl : Nat) (und : List Nat) (as bs : List (List (List FVal))) : List Nat :=
  if und.isEmpty then [] else allDets 32 fun i j => detGo serial f lvl und (65536 * (32 * i + j)) (pairGroups f as bs i j)

/-- TMMAO's element: one group of 16 products (R161). -/
def mmaoElem (serial lvl : Nat) (und : List Nat) (a b : List (List FVal)) (i j c : Nat) : Nat × List Ev :=
  let r := addGroup c (groupSum serial .bf16 lvl und (65536 * (32 * i + j)) ((a.getD i []).take 16) ((b.getD j []).take 16))
  (r.bits, r.ev.toList)

/-- The detections of a TMMAO. DESIGN CHOICE (log 52): the 16 products of an element are one group. -/
def mmaoDets (serial lvl : Nat) (und : List Nat) (a b : List (List FVal)) : List Nat :=
  if und.isEmpty then []
  else allDets 16 fun i j => groupDet serial .bf16 lvl und (65536 * (32 * i + j)) ((a.getD i []).take 16) ((b.getD j []).take 16)

/-! ### TBMM and TSCAC (R155, R156) -/

/-- The blocks of a slot as codes of their types, in units of 2^-3 (R134). -/
def codeLines (g : Img) : List (List Int) :=
  (List.range 32).map fun i => (List.range 256).map fun k => code8 (scTyp (scaleWord g i)) (lineElem g .fp4 i k)

/-- The exact product of two fp4 blocks, as an f32 pattern: the sum is in units of 2^-6. -/
def bmmElem (as bs : List (List Int)) (i j : Nat) : Nat :=
  let s := (List.zipWith (fun x y => x * y) (as.getD i []) (bs.getD j [])).foldl (fun a x => a + x) (0 : Int)
  (roundVal f32F .rne false 0 (.fin (decide (s < 0)) s.natAbs (-6))).bits

/-- P × t + C rounded once. -/
def scacElem (wa wb p c : Nat) : Rounded :=
  let a := scale12 wa
  let b := scale12 wb
  let t : FVal := .fin false (a.1 * b.1) (a.2 + b.2)
  noUnder (fFma f32F .rne 0 (f32F.decode p) t (f32F.decode c))

/-! ### TQUANT (R157) and TCVT (R158) -/

/-- RoundF32 of an exact sum over the square root of h. -/
def hadRound (h32 : Bool) (x : Option FVal) : Rounded :=
  match x with
  | none => ⟨f32F.nanPat, some .invalid⟩
  | some (.fin n (m + 1) e) =>
    if h32 then
      let r := roundSqrt ((m + 1) * (m + 1)) 1 (2 * e - 5)
      let inf := r.bits == f32F.infPat
      ⟨f32F.signBit n + r.bits, if inf then some .overflow else r.ev⟩
    else roundFrac f32F .rne false 0 n (m + 1) 1 (e - 2)
  | some v => roundVal f32F .rne false 0 v

/-- The transformed element r of a run (step 1 of R157). -/
def hadElem (h32 : Bool) (ys : List FVal) (r : Nat) : Rounded :=
  if ys.any FVal.isNan then ⟨f32F.nanPat, none⟩
  else
    hadRound h32 (((List.range ys.length).zip ys).foldl (fun a e => match a with
      | none => none
      | some s => s.add false (if popCount (BitVec.ofNat 32 (r &&& e.1)) % 2 = 1 then e.2.neg else e.2)) (some (.fin false 0 0)))

/-- Step 1 over a block, n runs of h. -/
def hadRuns (h32 : Bool) (h : Nat) : Nat → List FVal → List Rounded
  | 0, _ => []
  | n + 1, ys => (List.range h).map (hadElem h32 (ys.take h)) ++ hadRuns h32 h n (ys.drop h)

/-- qmax of a type (R157). -/
def qmax (typ : Nat) : Nat := match typ with | 0 => 7 | 1 => 6 | 2 => 8 | _ => 12

/-- The larger magnitude. -/
def magMax (a x : FVal) : FVal := if x.isNan then a else if a.abs.lt x.abs then x.abs else a

/-- Scale words in rising order of Scale12. -/
def scaleList : List Nat := (List.range 1008).map (· + 16)

/-- The least scale that is at least amax / qmax, held to the range (step 4 of R157), as the fields E and M. -/
def chooseScale (typ : Nat) (amax : FVal) : Nat :=
  match amax with
  | .fin _ m e =>
    (scaleList.find? fun w =>
      let s := scale12 w
      !(FVal.lt (.fin false (s.1 * qmax typ) s.2) (.fin false m e))).getD 1023
  | _ => 1023

/-- The code of one element under a scale word's fields (R136). -/
def quantElem (typ w : Nat) (z : FVal) : Rounded :=
  match z with
  | .nan => ⟨0, some .invalid⟩
  | .inf n => ⟨codeMax typ n, some .saturated⟩
  | .fin _ 0 _ => ⟨0, none⟩
  | .fin n (m + 1) e => quantCode typ n (m + 1) (scale12 w).1 (e - (scale12 w).2)

/-- A quantised block: its scale word, its codes and its events in order. -/
structure Block where
  scale : Nat
  codes : List Nat
  evs : List Ev
  deriving DecidableEq, Repr

/-- Steps 2 to 5 of R157. -/
def quantFrom (typ : Nat) (zs : List Rounded) : Block :=
  let vs := zs.map fun z => f32F.decode z.bits
  let amax := vs.foldl magMax (.fin false 0 0)
  let pre := zs.filterMap (·.ev)
  if amax.isZero then
    { scale := typ * 1024, codes := vs.map fun _ => 0, evs := pre ++ vs.filterMap fun v => if v.isNan then some .invalid else none }
  else
    let w := chooseScale typ amax
    let cs := vs.map (quantElem typ w)
    { scale := typ * 1024 + w, codes := cs.map (·.bits), evs := pre ++ cs.filterMap (·.ev) }

/-- Quantise the 256 f32 patterns of a block. -/
def quantBlock (typ : Nat) (had : Had) (ys : List Nat) : Block :=
  let vs := ys.map f32F.decode
  match had with
  | .none => quantFrom typ (ys.map fun y => ⟨y, none⟩)
  | .h16 => quantFrom typ (hadRuns false 16 16 vs)
  | .h32 => quantFrom typ (hadRuns true 32 8 vs)

/-- Two codes to a byte (R135). -/
def packCodes : List Nat → List Byte
  | a :: b :: t => BitVec.ofNat 8 (a + 16 * b) :: packCodes t
  | _ => []

/-- The slot image of 32 blocks. -/
def blocksImg (bs : List Block) : List Byte := bs.flatMap (fun b => packCodes b.codes) ++ bs.flatMap fun b => leBytes 2 b.scale

/-- The format of a slot of TCVT. -/
def cvtFmt (f : Fmt) : FFmt :=
  match f with
  | .bf16 => bf16F | .f16 => f16F | .e4m3 => e4m3F | _ => e5m2F

/-- One line of TCVT: its bytes and its events. -/
def cvtLine (f : Fmt) (sat : Bool) (ys : List Nat) : List Byte × List Ev :=
  let rs := ys.map fun y => roundVal (cvtFmt f) .rne sat 0 (f32F.decode y)
  (rs.flatMap fun r => leBytes (fmtBits f / 8) r.bits, rs.filterMap (·.ev))

end Sys2Proof.Machine
end

