-- ==== Sys2Proof/Machine/Tile.lean ====
section
/-! DEFINITION. The T slot: claims (R144), tile accesses (R151, R152, R223), the Pilot's operations and their retirement (R148, R149),
TSTAT (R142), and the slices' error counters (R172, R173). -/

namespace Sys2Proof.Machine

/-! ### Shared pieces -/

/-- The milestone context of a T operation. -/
def tileCtx (m : TMs) : Option Nat := match m with | .none => none | .ms4 => some 4 | .ms5 => some 5

/-- Take a number in the context, where there is one (R148). -/
def takeTile (s : State) (lid p : Nat) (m : TMs) : Option (Nat × Nat) × State :=
  match tileCtx m with
  | none => (none, s)
  | some c =>
    let t := takeMs s lid p c
    (some (c, t.1), t.2)

/-- A number is reached. -/
def doneMs (s : State) (lid p : Nat) (m : Option (Nat × Nat)) : State :=
  match m with
  | some x => finishMs s lid p x.1 x.2
  | none => s

/-- An accumulator (0 to 15) or a partial (16 to 23). -/
def tileRowsOf (s : State) (core c : Nat) : TileRows :=
  if c < 16 then Tab.findD (coreOf s core).accs c [] else Tab.findD (coreOf s core).parts (c - 16) []
def setRows (s : State) (core c : Nat) (r : TileRows) : State :=
  modCore s core fun x => if c < 16 then { x with accs := Tab.put x.accs c r } else { x with parts := Tab.put x.parts (c - 16) r }

/-- A row whose elements are all known. -/
def knownRow (v : Lanes) : VReg := { val := v, und := 0 }

/-- Element i, j; one that nothing has written is undefined (R147). -/
def elemAt (s : State) (core c i j : Nat) : Word :=
  match Tab.find (tileRowsOf s core c) i with
  | some v => if v.und.getLsbD j then (free s (8000000 + 1024 * c + 32 * i + j)).truncate 32 else v.val.at j
  | none => (free s (8000000 + 1024 * c + 32 * i + j)).truncate 32

/-- The slot image. -/
def slotImg (s : State) (core o : Nat) : Img := (slotBytes s core o 0 Config.slotBytes (8100000 + 8192 * o)).toArray

def putImg (s : State) (core o : Nat) (bs : List Byte) : State := modCore s core fun x => { x with images := Tab.put x.images o (tabOf bs) }

/-- A fill has completed (R143). -/
def fillDone (s : State) (core o fmtt : Nat) (ort : Bool) : State :=
  modEntry s core o fun e => { e with st := .ready, fmtt := fmtt, ort := ort, flt := false, step := 0 }

/-! ### Claims -/

/-- One slot of TCLAIM (R144, R367): one that was unclaimed becomes claimed and empty. -/
def claimSlot (core num : Nat) (s : State) (o : Nat) : State :=
  let e := entryOf s core o
  if e.claimed then setEntry s core o { e with owner := num }
  else setEntry (dropImage s core o) core o { e with owner := num, claimed := true, st := .empty }

/-- TCLAIM (R144). -/
def execTclaim (f : TClaimF) (s : State) : Out :=
  slotOp (.tclaim f) s fun wid w s => (claimRun f).foldl (claimSlot (coreNo wid) w.num) s

/-- A slot is released: empty, unclaimed, FMTT 0, contents undefined; FLT, ORT and OWNER stay (R143). -/
def freeTile (core : Nat) (s : State) (o : Nat) : State :=
  modEntry (dropImage s core o) core o fun e => { e with st := .empty, claimed := false, fmtt := 0 }

/-- TREL (R144, R377). -/
def execTrel (f : TClaimF) (s : State) : Out :=
  slotOp (.trel f) s fun wid _ s => (claimRun f).foldl (freeTile (coreNo wid)) s

/-! ### Tile accesses -/

/-- A span cut at 4 KiB boundaries: pieces of a tile lie in one region each. -/
def cutSpan : Nat → Nat → Nat → List (Nat × Nat)
  | 0, _, _ => []
  | k + 1, a, n =>
    if n = 0 then []
    else
      let m := min n (4096 - a % 4096)
      (a, m) :: cutSpan k (a + m) (n - m)

/-- The pieces of a tile access: rows in order, then the scale array, whose bytes prevail where it overlaps a row (DESIGN CHOICE, log 51). -/
def tilePieces (s : State) (wid : Nat) (w : Wave) (r : TReq) : List Piece :=
  let g := segOf s wid w r.seg
  r.spans.flatMap fun x => (cutSpan 3 ((g.base : Int) + x.1).toNat x.2).map fun y =>
    { lane := 31
      va := y.1
      size := y.2
      pa := if segPage g then none else some (homeLoc (segFar g) (dieNo wid) (g.pbase + (y.1 - g.base)))
      fault := none, data := [], cmp := [], val := [], done := false }

/-- A tile access before it is put in flight. -/
def tileAcc (s : State) (wid : Nat) (w : Wave) (r : TReq) (kind : AKind) (dest : Dest) (ms : Option (Nat × Nat)) : Acc :=
  let g := segOf s wid w r.seg
  let a : Acc := {
    wid := wid, sup := w.sup, loc := r.loc, lid := w.lid, core := coreNo wid, party := w.party, num := w.num, asid := asidOf s w, kind := kind,
    addr := s.cur.here, slot := 6, opcode := r.opcode, seg := r.seg, widCode := 7, scope := r.scope, ord := .relaxed, seq := w.seq + 1,
    far := segFar g && !r.loc, pageable := !r.loc && segPage g, direct := segAlias g, l1 := false, sent := false, cls := segClass g,
    pieces := if r.loc then [] else tilePieces s wid w r, dest := dest, ret := false, epoch := none, rel := none,
    view := { clock := [], low := [] }, born := s.commits, asdt := if s.tren then some s.trbase else none, resolved := r.loc || !segPage g, held := false, unrecorded := false, watch := 0, deadline := 0, ms := ms, step := 0, accepted := false }
  { a with sent := leavesL1 s a }

def tileBytes (r : TReq) : Nat := r.spans.foldl (fun n x => n + x.2) 0

/-- The bytes of the scratchpad that a local tile covers. -/
def localTile (s : State) (wid : Nat) (w : Wave) (r : TReq) : List Byte :=
  r.spans.flatMap fun x => padBytes s (coreNo wid) (regionBase s wid w + x.1.toNat) x.2

/-- A local tile meets bad data. -/
def localBad (s : State) (wid : Nat) (w : Wave) (r : TReq) : Bool :=
  r.spans.any fun x => eccPadHit s (coreNo wid) (regionBase s wid w + x.1.toNat) x.2

/-- Write the rows of a tile into the scratchpad in order (R152). -/
def putLocal (s : State) (core base : Nat) : List (Int × Nat) → List Byte → State
  | [], _ => s
  | x :: t, bs => putLocal (padWrite s core (base + x.1.toNat) (bs.take x.2)) core base t (bs.drop x.2)

/-- The destination or source of a tile access. -/
def tileDest (f : TMem) : Dest := match f.data with | .slot o => .slot o.toNat f.fmt f.kc | .acc c => .acc c.toNat f.kc

/-- Mark the slot of a tile access. -/
def markSlot (s : State) (core : Nat) (d : Dest) (st : OState) : State :=
  match d with
  | .slot o _ _ | .tldo o => modEntry s core o fun e => { e with st := st, step := 0 }
  | _ => s

/-- The scale array as a tile store writes it: bits [15:12] of each scale word are zero (R133). -/
def scaleBytes (bs : List Byte) : List Byte := (List.range bs.length).map fun i => if i % 2 = 1 then bs.getD i 0 &&& 0x0F else bs.getD i 0

/-- The memory image of a source, its rows and then the scale array (R151). -/
def sourceBytes (s : State) (core : Nat) (d : Dest) : List Byte :=
  match d with
  | .slot o f kc =>
    let g := slotImg s core o
    (List.range (tileRows false f kc).1).flatMap (slotRow g f kc) ++ if f = .fp4 then scaleBytes (bytesFrom g 4096 64) else []
  | .acc c kc => (List.range 32).flatMap fun r => (List.range 32).flatMap fun x =>
      leBytes 4 (if kc then elemAt s core c x r else elemAt s core c r x).toNat
  | _ => []

/-- Put the bytes of a memory image into a slot or an accumulator (R151, R371). -/
def deliverTile (s : State) (core : Nat) (d : Dest) (bs : List Byte) : State :=
  let arr := bs.toArray
  match d with
  | .slot o f kc =>
    let len := (tileRows false f kc).2
    let img := imgOf (fun r b => arr.getD (len * r + b) 0) f kc (fun i => arr.getD (4096 + i) 0)
    fillDone (putImg s core o img) core o (fmtCode f) kc
  | .acc c kc =>
    setRows s core c ((List.range 32).map fun i => (i, knownRow (Lanes.of fun j =>
      BitVec.ofNat 32 (leNat ((List.range 4).map fun b => arr.getD (if kc then 128 * j.val + 4 * i + b else 128 * i + 4 * j.val + b) 0)))))
  | .tldo o =>
    let img := (List.range Config.slotBytes).map fun i => if i / 128 < 16 ∧ i % 128 < 32 then arr.getD (32 * (i / 128) + i % 128) 0 else 0
    fillDone (putImg s core o img) core o 1 false
  | _ => s

/-- Issue a tile load: a local one takes its bytes at issue (R208). -/
def issueLoad (r : TReq) (d : Dest) (m : TMs) (wid : Nat) (w : Wave) (s : State) : State :=
  if r.loc && localBad s wid w r then killWave s wid w 0x0D s.cur.here 0
  else
    let t := takeTile s w.lid w.party m
    let a := tileAcc s wid w r .tload d t.1
    let p : Piece :=
      { lane := 31, va := 0, size := tileBytes r, pa := none, fault := none, data := [], cmp := [], val := localTile s wid w r, done := true }
    let a1 := if r.loc then { a with pieces := [p] } else a
    markSlot (addAcc t.2 wid (nextSeq w) a1 [] (tileBytes r)) (coreNo wid) d .filling

/-- Issue a tile store: a local one writes at issue (R208). -/
def issueStore (r : TReq) (d : Dest) (ms : Option (Nat × Nat)) (wid : Nat) (w : Wave) (s : State) : State :=
  let base := regionBase s wid w
  let s1 :=
    if r.loc then
      eccPadClearAll (putLocal s (coreNo wid) base r.spans (sourceBytes s (coreNo wid) d)) (coreNo wid) (r.spans.map fun x => (base + x.1.toNat, x.2))
    else s
  markSlot (addAcc s1 wid (nextSeq w) (tileAcc s wid w r .tstore d ms) [] (tileBytes r)) (coreNo wid) d .draining

/-- A body over the tile request of the instruction. -/
def withTile (i : Instr) (f : TReq → Nat → Wave → State → State) (wid : Nat) (w : Wave) (s : State) : State :=
  match tileReq i s w with
  | some r => f r wid w s
  | none => s

/-- TLOAD (R371). -/
def execTload (f : TMem) (s : State) : Out := slotOp (.tload f) s (withTile (.tload f) fun r => issueLoad r (tileDest f) f.ms)

/-- TSTORE (R380). -/
def execTstore (f : TMem) (s : State) : Out :=
  slotOp (.tstore f) s (withTile (.tstore f) fun r wid w s =>
    let t := takeTile s w.lid w.party f.ms
    issueStore r (tileDest f) t.1 wid w t.2)

/-- TLDO (R161, R369). -/
def execTldo (f : TLdoF) (s : State) : Out := slotOp (.tldo f) s (withTile (.tldo f) fun r => issueLoad r (.tldo f.oa.toNat) f.ms)

/-! ### Pilot operations at issue -/

/-- Steps of an operation (R149). -/
def pilotSteps (p : POp) : Nat :=
  match p with
  | .zero _ => 1
  | .mma f => 8 * tcount f.n
  | .bmm _ => 8
  | .sca _ => 8
  | .quant f _ _ => if f.had = .none then 64 else 128
  | .cvt f => if f.fmt = .bf16 ∨ f.fmt = .f16 then 16 else 32
  | .movv f _ => tcount f.n
  | .mmao _ => 12

/-- The instruction of an operation. -/
def pilotInstr (p : POp) : Instr :=
  match p with
  | .zero t => .tzero { k := 0, t := t }
  | .mma f => .tmma f
  | .bmm f => .tbmm f
  | .sca f => .tscac f
  | .quant f _ _ => .tquant f
  | .cvt f => .tcvt f
  | .movv f _ => .tmovv f
  | .mmao f => .tmmao f

/-- The slots that an operation of the Pilot reads. -/
def pilotReads (s : State) (w : Wave) (p : POp) : List Nat := distinct ((slotReads (pilotInstr p) s w).map (·.o))

/-- READERS of a slot (R143). -/
def addReaders (s : State) (core : Nat) (l : List Nat) : State := l.foldl (fun a o => modEntry a core o fun e => { e with readers := e.readers + 1 }) s
def dropReaders (s : State) (core : Nat) (l : List Nat) : State := l.foldl (fun a o => modEntry a core o fun e => { e with readers := e.readers - 1 }) s

/-- Queue an operation for the Pilot (R148). -/
def queuePilot (p : POp) (m : TMs) (marks : List Reg) (wid : Nat) (w : Wave) (s : State) : State :=
  let t := takeTile s w.lid w.party m
  let core := coreNo wid
  let op : PilotOp := { id := s.nextId, op := p, wid := wid, addr := s.cur.here, steps := pilotSteps p, step := 0, ms := t.1, serial := s.serial }
  let s1 := modCore { t.2 with nextId := s.nextId + 1 } core fun x => { x with pilot := x.pilot ++ [op] }
  let s2 := addReaders (setWave s1 wid (addBusy w op.id marks)) core (pilotReads s w p)
  (slotFills (pilotInstr p) s w).foldl (fun a o => modEntry a core o fun e => { e with st := .filling, step := 0 }) s2

/-- TZERO (R153, R381). -/
def execTzero (f : TZeroF) (s : State) : Out := slotOp (.tzero f) s (queuePilot (.zero f.t) .none [])
/-- TMMA (R154, R372). -/
def execTmma (f : TMmaF) (s : State) : Out := slotOp (.tmma f) s (queuePilot (.mma f) f.ms [])
/-- TBMM (R155, R366). -/
def execTbmm (f : TBmmF) (s : State) : Out := slotOp (.tbmm f) s (queuePilot (.bmm f) f.ms [])
/-- TSCAC (R156, R378). -/
def execTscac (f : TScacF) (s : State) : Out := slotOp (.tscac f) s (queuePilot (.sca f) f.ms [])
/-- TCVT (R158, R368). -/
def execTcvt (f : TCvtF) (s : State) : Out := slotOp (.tcvt f) s (queuePilot (.cvt f) f.ms [])
/-- TMMAO (R161, R373). -/
def execTmmao (f : TMmaoF) (s : State) : Out := slotOp (.tmmao f) s (queuePilot (.mmao f) f.ms [])

/-- TMOVV (R159, R374): toward the accumulator the registers are read at issue. -/
def execTmovv (f : TMovvF) (s : State) : Out :=
  slotOp (.tmovv f) s fun wid w s =>
    let rows := if f.toAcc then (List.range (tcount f.n)).map fun q => rdV s w (tagOf 6 (8 + q)) f.cl (f.a.toNat + q) else []
    queuePilot (.movv f rows) .none (writesOf (.tmovv f)) wid w s

/-- TQUANT (R157, R375): the code type is read at issue; the memory form's tile store is put in flight without its data. -/
def execTquant (f : TQuantF) (s : State) : Out :=
  slotOp (.tquant f) s fun wid w s =>
    match f.dest with
    | .slot _ => queuePilot (.quant f ((tReg s w f.a 0).toNat % 4) 0) f.ms [] wid w s
    | .mem _ _ =>
      let typ := (tReg s w f.a 3).toNat % 4
      let id := s.nextId
      let t := takeTile s w.lid w.party f.ms
      let s1 := withTile (.tquant f) (fun r => issueStore r .none t.1) wid w t.2
      match waveOf s1 wid with
      | some w1 => queuePilot (.quant f typ id) .none [] wid w1 s1
      | none => s1

/-- The tile-table entry (R142). -/
def entryWord (e : TEntry) : DWord :=
  let st := match e.st with | .empty => 0 | .filling => 1 | .ready => 2 | .draining => 3
  BitVec.ofNat 64 (st + (if e.claimed then 4 else 0) + e.owner % 16 * 8 + (if e.flt then 128 else 0) + e.fmtt % 16 * 256 +
    (if e.ort then 4096 else 0) + e.readers % 64 * 65536 + e.step % 1024 * 2 ^ 22)

/-- TSTAT (R142, R379). -/
def execTstat (f : TStatF) (s : State) : Out :=
  slotOp (.tstat f) s fun wid w s =>
    setWave s wid (statusAtIssue w (nameS w.sup f.a.toNat) (entryWord (entryOf s (coreNo wid) f.oa.toNat)))

/-! ### Tile accesses complete -/

/-- Every piece of a tile load may be read now. -/
def tileLoadReady (s : State) (id : Nat) (a : Acc) : Bool := a.pieces.all fun p => p.done || loadReady s id a p

/-- A store that a tile load's core may read was made by a wave outside the load's scope, and does not happen before the load through an edge
that synchronises (R222, R223). -/
def racedBy (s : State) (a : Acc) (c : Commit) : Bool :=
  (match c.org.by_ with
    | some p => !inScope s a.scope (accWriter a) p
    | none => false) &&
    !happened (coreOf s a.core).clock c && !(s.hist.any fun x => x.loc == c.loc && decide (c.seq < x.seq ∧ x.seq ≤ floorOf (coreOf s a.core) c.loc))

/-- The read of a tile may show such a store: a scope race (R223). -/
def tornTile (s : State) (a : Acc) (spans : List (Nat × Nat)) : Bool :=
  s.hist.any fun c => (spans.any fun x => x.1 ≤ c.loc && c.loc < x.1 + x.2) && racedBy s a c

/-- The commit that a byte of a torn tile is no older than: where a store races, the last store that happens before the read through an edge
that synchronises (R222); elsewhere its core's floor. -/
def tornFloor (s : State) (a : Acc) (loc : Nat) : Nat :=
  if s.hist.any fun c => c.loc == loc && racedBy s a c then
    ((s.hist.find? fun c => c.loc == loc && happened (coreOf s a.core).clock c).map (·.seq)).getD 0
  else floorOf (coreOf s a.core) loc

/-- Byte i of a piece of a plain tile load: the core's own store, else the home's or the snapshot's byte at a cut. -/
def tileByte (s : State) (id : Nat) (a : Acc) (p : Piece) (cut i : Nat) : Byte :=
  let loc := p.pa.getD 0 + i
  (ownByte s id a (p.va + i) loc).getD (valueAt s.hist loc (if atHome s a loc then s.commits else cut) (devByte s loc))

/-- The bytes of one piece read one by one, each at a cut of its own (R223). -/
def tornPiece (id : Nat) (a : Acc) (r : List Byte × State) (p : Piece) : List Byte × State :=
  (List.range p.size).foldl (fun x i =>
    let loc := p.pa.getD 0 + i
    let cs := cuts x.2 loc 1 (tornFloor x.2 a loc)
    let c := cs.getD (pick x.2 (8250000 + 8192 * id + x.1.length) cs.length) x.2.commits
    (x.1 ++ [tileByte x.2 id a p c i], modCore x.2 a.core fun y => raiseTo y loc 1 c)) r

/-- The bytes of a tile's pieces, of which those that software makes reachable through two addresses may have any of the values written
through either (R190; log 44). -/
def aliasTile (s : State) (id : Nat) (a : Acc) : List Piece → List Byte → List Byte
  | [], _ => []
  | p :: t, bs =>
    let loc := p.pa.getD 0
    (aliasRead s (accVia a p.va loc) loc p.size (8192 * id + p.va) (bs.take p.size, s)).1 ++ aliasTile s id a t (bs.drop p.size)

/-- Read a tile as one event (R223): through the snapshot at one cut, with the core's own stores, or at its home; one that races with a
store outside its scope may show bytes of different stores. -/
def readTile (s0 : State) (id : Nat) (a : Acc) : List Byte × State :=
  let spans := a.pieces.filterMap fun p => p.pa.map fun loc => (loc, p.size)
  let s := a.pieces.foldl (fun t p => match p.pa with | some loc => holdLines t a p.va loc p.size | none => t) s0
  if a.loc then (a.pieces.flatMap (·.val), s)
  else if !a.scope.isPlain then
    (aliasTile s id a a.pieces (a.pieces.flatMap fun p => devBytes s (p.pa.getD 0) p.size), spans.foldl (fun t x => modCore t a.core fun y => raiseTo y x.1 x.2 s.commits) s)
  else if tornTile s a spans then
    let r := a.pieces.foldl (tornPiece id a) ([], s)
    (aliasTile s id a a.pieces r.1, r.2)
  else
    let c := cutMany s a.core spans (8200000 + id)
    (aliasTile s id a a.pieces (a.pieces.flatMap fun p => (List.range p.size).map (tileByte s id a p c)), spans.foldl (fun t x => modCore t a.core fun y => raiseTo y x.1 x.2 c) s)

/-- A tile load has reached its destination: its number is reached, and marks and acquires follow. -/
def finishTile (s : State) (id : Nat) (a : Acc) (bs : List Byte) : State :=
  finishAcc (doneMs (deliverTile s a.core a.dest bs) a.lid a.party a.ms) id a

/-- One step of a TLDO (R161): a row, or the last step. -/
def ldoStep (s : State) (id : Nat) (a : Acc) (o : Nat) : Out :=
  match a.pieces.find? fun p => !p.done with
  | none => done (finishTile s id a (a.pieces.flatMap (·.val)))
  | some _ =>
    -- the pieces of the row that the step reads
    let rows := ldoRows a.pieces 0
    let now := fun (x : Nat × Piece) => !x.2.done && x.1 == a.step
    let row := (rows.filter now).map (·.2)
    if a.pieces.all (fun p => p.fault.isNone) && row.all fun p => loadReady s id a p then
      if row.any fun p => eccLoad s id a p.va (p.pa.getD 0) p.size then done (dataError s a.wid a.addr)
      else
        let r := rows.foldl (fun (x : List Piece × State) e =>
          let p := e.2
          let y := plainRead (holdLines x.2 a p.va (p.pa.getD 0) p.size) id a p.va (p.pa.getD 0) p.size (8300000 + 64 * id + x.1.length)
          if now e then (x.1 ++ [{ p with val := y.1, done := true }], y.2) else (x.1 ++ [p], x.2)) ([], s)
        done (modEntry (setAcc r.2 id { a with pieces := r.1, step := a.step + 1 }) a.core o fun e => { e with step := a.step + 1 })
    else notEnabled

/-- TILE_FILL_COMPLETE (R143, R151, R152): a tile load reads its image and its destination is ready; a TLDO takes a step. -/
def execTileFillComplete (core id : Nat) (s : State) : Out :=
  match accOf s id with
  | none => notEnabled
  | some a =>
    if a.kind != .tload || a.core != core then notEnabled
    else match a.dest with
      | .tldo o => ldoStep s id a o
      | _ =>
        if !tileLoadReady s id a then notEnabled
        else if a.pieces.any fun p => !p.done && eccLoad s id a p.va (p.pa.getD 0) p.size then done (dataError s a.wid a.addr)
        else
          let r := readTile s id a
          done (finishTile r.2 id a r.1)

/-- Give the pieces of a tile store their bytes. -/
def sliceData : List Piece → List Byte → List Piece
  | [], _ => []
  | p :: t, bs => { p with data := bs.take p.size } :: sliceData t (bs.drop p.size)

/-- The tile of a store is known: it enters the core's write set, where a plain one makes the whole words that it overwrites in L1 good
again (R206), or goes to its home (R152). -/
def fillStore (s : State) (id : Nat) (a : Acc) (bs : List Byte) : State :=
  if a.loc then delAcc (doneMs s a.lid a.party a.ms) id
  else
    let s1 := tileAccept (setAcc s id { a with pieces := sliceData a.pieces bs }) id
    if a.scope.isPlain && !a.direct then eccL1Clear s1 a.core a.asid (a.pieces.map fun p => (p.va, p.size)) else s1

/-- A slot that was drained is ready again (R143). -/
def drained (s : State) (core : Nat) (d : Dest) : State :=
  match d with
  | .slot o _ _ => modEntry s core o fun e => { e with st := .ready, step := 0 }
  | _ => s

/-- TILE_DRAIN_COMPLETE (R143, R152): a tile store, or an outbound copy of a slot, has read its last byte. -/
def execTileDrainComplete (core id : Nat) (s : State) : Out :=
  match accOf s id with
  | some a =>
    if a.kind == .tstore && a.core == core && a.dest != .none && (a.loc || a.pieces.all fun p => p.data.isEmpty) then
      done (drained (fillStore s id a (sourceBytes s core a.dest)) core a.dest)
    else notEnabled
  | none =>
    match copyOf s id with
    | none => notEnabled
    | some c =>
      if c.kind == .outSlot && c.core == core && !c.drained then
        let got := (List.range c.len).map fun k => (k, copySource s c k)
        done (modEntry (setCopy s id { c with got := got, drained := true }) core (c.loff / 8192) fun e => { e with st := .ready, step := 0 })
      else notEnabled

/-! ### The Pilot's results -/

/-- Rows made element by element, with their events by row (R162). -/
def makeRows (g : Nat → Nat → Nat × List Ev) : TileRows × List (Nat × Ev) :=
  let rows := (List.range 32).map fun i => (List.range 32).map fun j => g i j
  ((List.range 32).zip (rows.map fun r => knownRow (Lanes.of fun j => BitVec.ofNat 32 ((r.getD j.val (0, [])).1))),
    (List.range 32).flatMap fun i => (rows.getD i []).flatMap fun x => x.2.map fun e => (i, e))

/-- Block i of eight or fewer accumulators from c on, along K (R157). -/
def accLine (s : State) (core c n : Nat) (kc : Bool) (i : Nat) : List Nat :=
  (List.range (32 * n)).map fun k => (if kc then elemAt s core (c + k / 32) (k % 32) i else elemAt s core (c + k / 32) i (k % 32)).toNat

/-- The effective level of a wave's launch (R169). -/
def levelOf (s : State) (lid : Nat) : Nat := match launchOf s lid with | some l => l.level | none => 3

/-- Count what the checkers of the undervolted slices of a core have found (R172, R173). -/
def countDets (s : State) (core lvl : Nat) (dets : List Nat) : State :=
  let c := coreOf s core
  let und := undervolted s core lvl
  let det := fun (q : Nat) => ((und.zip dets).find? fun e => e.1 == q).map (·.2) |>.getD 0
  let total := det 0 + det 1 + det 2
  let s1 := setCore s core { c with
    slerr := min (c.slerr + total) (2 ^ 48 - 1)
    slices := (List.range 4).map fun q =>
      let x := c.slices.getD q Slice.init
      if und.contains q then { x with det := x.det + det q } else x }
  modDie s1 (dieOfCore core) fun d => { d with ftot := (List.range 3).map fun q => min (d.ftot.getD q 0 + det q) (2 ^ 64 - 1) }

/-- Rows with the elements below 16, 16 taken from others; every other element stays as it is, an undefined one undefined (R161). -/
def quadrant (old new : TileRows) : TileRows :=
  (List.range 16).foldl (fun t i =>
    let x := Tab.findD old i VReg.undef
    let y := Tab.findD new i VReg.undef
    Tab.put t i { val := Lanes.merge 0xFFFF y.val x.val, und := x.und &&& ~~~0xFFFF#32 }) old

/-- What an operation does at its retirement: the state and its events (R153 to R161). -/
def pilotEffect (s : State) (core : Nat) (w : Wave) (p : PilotOp) : State × List (Nat × Ev) :=
  match p.op with
  | .zero t => (setRows s core (match t with | .acc c => c.toNat | .part q => 16 + q.toNat) ((List.range 32).map fun i => (i, knownRow (Lanes.all 0))), [])
  | .mma f =>
    let lvl := levelOf s w.lid
    let und := undervolted s core lvl
    let n := tcount f.n
    let as := (List.range n).map fun q => operandLines (slotImg s core (f.oa.toNat + q)) f.fmt
    let bs := (List.range n).map fun q => operandLines (slotImg s core (f.ob.toNat + q)) f.fmt
    let r := makeRows fun i j => mmaElem s.serial f.fmt lvl und as bs i j (elemAt s core f.c.toNat i j).toNat
    (countDets (setRows s core f.c.toNat r.1) core lvl (mmaDets s.serial f.fmt lvl und as bs), r.2)
  | .bmm f =>
    let as := codeLines (slotImg s core f.oa.toNat)
    let bs := codeLines (slotImg s core f.ob.toNat)
    let r := makeRows fun i j => (bmmElem as bs i j, [])
    (setRows s core (16 + f.p.toNat) r.1, [])
  | .sca f =>
    let ga := slotImg s core f.oa.toNat
    let gb := slotImg s core f.ob.toNat
    let r := makeRows fun i j =>
      let x := scacElem (scaleWord ga i) (scaleWord gb j) (elemAt s core (16 + f.p.toNat) i j).toNat (elemAt s core f.c.toNat i j).toNat
      (x.bits, x.ev.toList)
    (setRows s core f.c.toNat r.1, r.2)
  | .quant f typ id =>
    let bs := (List.range 32).map fun i => quantBlock typ f.had (accLine s core f.c.toNat 8 f.kc i)
    let img := blocksImg bs
    let evs := (List.range 32).flatMap fun i => ((bs.map (·.evs)).getD i []).map fun e => (i, e)
    (match f.dest with
    | .slot o => (fillDone (putImg s core o.toNat img) core o.toNat 7 f.kc, evs)
    | .mem _ _ =>
      match accOf s id with
      | some a =>
        let g : Img := img.toArray
        (fillStore s id a ((List.range (tileRows false .fp4 f.kc).1).flatMap (slotRow g .fp4 f.kc) ++ bytesFrom g 4096 64), evs)
      | none => (s, evs))
  | .cvt f =>
    let n := if f.fmt = .bf16 ∨ f.fmt = .f16 then 2 else 4
    let ls := (List.range 32).map fun i => cvtLine f.fmt f.sat (accLine s core f.c.toNat n f.kc i)
    let evs := (List.range 32).flatMap fun i => ((ls.map (·.2)).getD i []).map fun e => (i, e)
    (fillDone (putImg s core f.oa.toNat (ls.flatMap (·.1) ++ leBytes 64 0)) core f.oa.toNat (fmtCode f.fmt) f.kc, evs)
  | .movv f rows =>
    let r0 := 4 * f.row4.toNat
    if f.toAcc then
      (setRows s core f.c.toNat (((List.range rows.length).zip rows).foldl (fun t e => Tab.put t (r0 + e.1) (knownRow e.2)) (tileRowsOf s core f.c.toNat)), [])
    else
      (modReach s p.wid fun w => landNow w ((List.range (tcount f.n)).map fun q =>
        .v f.cl (f.a.toNat + q) (BitVec.allOnes 32) (Lanes.of fun x => elemAt s core f.c.toNat (r0 + q) x.val)), [])
  | .mmao f =>
    let lvl := levelOf s w.lid
    let und := undervolted s core lvl
    let a := operandLines (slotImg s core f.oa.toNat) .bf16
    let b := operandLines (slotImg s core f.ob.toNat) .bf16
    let r := makeRows fun i j => if i < 16 ∧ j < 16 then mmaoElem s.serial lvl und a b i j (elemAt s core f.c.toNat i j).toNat else (0, [])
    (countDets (setRows s core f.c.toNat (quadrant (tileRowsOf s core f.c.toNat) r.1)) core lvl (mmaoDets s.serial lvl und a b), r.2)

/-- Retire the operation at the head (R148, R149). -/
def retireOp (s : State) (core : Nat) (w : Wave) (p : PilotOp) (rest : List PilotOp) : State :=
  let r := pilotEffect s core w p
  let s1 := modCore r.1 core fun x => { x with pilot := rest }
  let s2 := modReach s1 p.wid fun w => { clearBusy w p.id with fel := reportAll w.fel p.serial p.addr 6 r.2 }
  doneMs (dropReaders s2 core (pilotReads s w p.op)) w.lid w.party p.ms

/-- TILE_OP_RETIRE (R149): the Pilot's operation has made its last step. -/
def execTileOpRetire (core : Nat) (s : State) : Out :=
  match (coreOf s core).pilot with
  | [] => notEnabled
  | p :: rest =>
    match waveOf s p.wid with
    | none => notEnabled
    | some w => if p.steps ≤ p.step then done (retireOp s core w p rest) else notEnabled

end Sys2Proof.Machine
end

