-- ==== Sys2Proof/Machine/Image.lean ====
section
/-! DEFINITION. How Lonal reads and writes memory in an address space (R255), and the kernel image's header, hash list, segment
template and role descriptors (R111, R113, R179, R180). -/

namespace Sys2Proof.Machine

/-! ### Memory in an address space -/

/-- Where a range lies: translated by 4 KiB chunks through the root of a home; none where a chunk does not translate or lacks a
right (R186, R255). -/
def asidSpans (far : Bool) (die asid : Nat) (rd wr : Bool) : List (Nat × Nat) → State → Option (List (Nat × Nat)) × State
  | [], s => (some [], s)
  | x :: t, s =>
    if 2 ^ 48 ≤ x.1 then (none, s)
    else
      let r := translate s far die asid x.1 none rd wr
      match r.1 with
      | .page e =>
        if (pageCause e none rd wr).isSome then (none, r.2)
        else
          let y := asidSpans far die asid rd wr t r.2
          (y.1.map fun l => (pageLoc far die e x.1, x.2) :: l, y.2)
      | _ => (none, r.2)

def rangeCuts (va n : Nat) : List (Nat × Nat) := cutSpan (n / 4096 + 2) va n

/-- Read n bytes in an address space. -/
def asidRead (s : State) (far : Bool) (die asid va n : Nat) : Option (List Byte) × State :=
  let r := asidSpans far die asid true false (rangeCuts va n) s
  (r.1.map fun l => l.flatMap fun x => devBytes r.2 x.1 x.2, r.2)

/-- Write the bytes at translated spans, as Lonal's release at system scope (R255). -/
def putSpans (s : State) : List (Nat × Nat) → List Byte → State
  | [], _ => s
  | x :: t, bs => putSpans (eccClear (commitBytes s Origin.device x.1 (bs.take x.2)) x.1 x.2) t (bs.drop x.2)

/-- Write in far memory of an address space; none where it does not translate. -/
def asidWrite (s : State) (asid va : Nat) (bs : List Byte) : Option State × State :=
  let r := asidSpans true 0 asid false true (rangeCuts va bs.length) s
  (r.1.map fun l => putSpans r.2 l bs, r.2)

/-! ### The image header (R111) -/

def magic : Nat := 0x4E45485A

/-- The header's fields. Bytes that R111 has zero and no check of R113 tests are ignored, whatever they hold (DESIGN CHOICE, log 31). -/
def hdrOf (b : List Byte) : ImgHdr :=
  { pages := fieldAt b 8 4, dictN := fieldAt b 12 4, dictOff := fieldAt b 16 4, streamLen := fieldAt b 20 4, streamOff := fieldAt b 24 4,
    mapOff := fieldAt b 28 4, segOff := fieldAt b 32 4, segs := fieldAt b 36 2, ceiling := fieldAt b 38 1, fidelity := fieldAt b 39 1,
    window := fieldAt b 40 2, roles := fieldAt b 42 1, roleOff := fieldAt b 44 4, constOff := fieldAt b 48 4, constLen := fieldAt b 52 4,
    keyid := BitVec.ofNat 256 (beNat ((b.drop 64).take 32)) }

/-- Hashes in the manifest: one for each page from the first dictionary page on. -/
def hashCount (h : ImgHdr) : Nat := h.pages - h.dictOff / 4096

/-- Cut a hash list. -/
def hashesOf : Nat → List Byte → List (BitVec 256)
  | 0, _ => []
  | n + 1, bs => BitVec.ofNat 256 (beNat (bs.take 32)) :: hashesOf n (bs.drop 32)

/-- The failed check of R113, 1 to 3: MAGIC and VERSION, KEYID, signature. -/
def sigCheck (f : Func) (page0 : List Byte) (manifest : List Byte) : Option Nat :=
  if fieldAt page0 0 4 ≠ magic ∨ fieldAt page0 4 2 ≠ 1 then some 1
  else
    match f.key with
    | none => some 2
    | some m =>
      if (hdrOf page0).keyid ≠ f.keyid then some 2
      else if pssVerify m (page0.take 128 ++ manifest) ((page0.drop 128).take 384) then none else some 3

/-! ### Segments and roles (R111, R179, R180) -/

def segFrom (b : List Byte) : Seg :=
  { base := fieldAt b 0 8, limit := fieldAt b 8 8, flags := BitVec.ofNat 16 (fieldAt b 16 2), pbase := fieldAt b 20 8 }

/-- A non-pageable near range meets the context region (R276). -/
def meetsContext (g : Seg) : Bool :=
  !segPage g && !segFar g && decide (Config.ctxBase < g.pbase + g.limit ∧ g.pbase < Config.ctxBase + Config.ctxSize)

/-- Whether the 32 bytes of an entry pass R180 and R276. -/
def segOk (b : List Byte) : Bool :=
  let g := segFrom b
  if !segValid g then b.all (· == 0)
  else
    let zero := fieldAt b 28 4 == 0 && fieldAt b 18 2 == 0 && decide (g.base < 2 ^ 48) && g.flags.toNat / 2 ^ 11 == 0 && g.flags.toNat / 64 % 4 == 0
    let span := decide (1 ≤ g.limit ∧ g.base + g.limit ≤ 2 ^ 48) && decide (segClass g ≤ 5)
    let kind := if segPage g then g.base % classSize (segClass g) == 0 && g.pbase == 0
      else segClass g == 0 && g.pbase % 4096 == 0 && decide (g.pbase + g.limit ≤ homeSize (segFar g))
    zero && span && kind && !meetsContext g

/-- Cut a table into entries of n bytes. -/
def entriesOf (n : Nat) : Nat → List Byte → List (List Byte)
  | 0, _ => []
  | k + 1, bs => bs.take n :: entriesOf n k (bs.drop n)

/-- The first entry that fails. -/
def firstBadSeg (l : List (List Byte)) : Option Nat := l.findIdx? fun b => !segOk b

/-- A role descriptor. Its zero bytes are ignored, whatever they hold (DESIGN CHOICE, log 31). -/
def roleFrom (b : List Byte) : RoleDesc :=
  { role := fieldAt b 0 1, minA := fieldAt b 1 1, minB := fieldAt b 2 1, maxWaves := fieldAt b 3 1, entry := BitVec.ofNat 32 (fieldAt b 4 4),
    convoys := (List.range 4).map fun i => fieldAt b (8 + i) 1 }

/-! ### Reading an image -/

/-- Read image bytes before the launch exists: none and the image page that does not translate (R252). -/
def readImage (s : State) (l : Bool × Nat × Nat × Nat) (off n : Nat) : (List Byte ⊕ Nat) × State :=
  let r := asidRead s l.1 l.2.1 l.2.2.1 (l.2.2.2 + off) n
  match r.1 with
  | some bs => (.inl bs, r.2)
  | none =>
    -- the first page that fails
    let pages := (rangeCuts (l.2.2.2 + off) n).map (·.1)
    let p := (pages.find? fun va => (asidSpans l.1 l.2.1 l.2.2.1 true false [(va, 1)] r.2).1.isNone).getD (l.2.2.2 + off)
    (.inr ((p - l.2.2.2) / 4096), r.2)

/-- What the check of an image's parts gives. -/
inductive ImgCheck where
  | ok (im : Image)
  /-- A rejection: its code and DETAIL. -/
  | reject (code detail : Nat)
  deriving DecidableEq, Repr

/-- Build the image from its bytes once the signature holds: the segment table is judged by the caller. -/
def buildImage (far phys : Bool) (addr : Nat) (h : ImgHdr) (hashes : List (BitVec 256)) (segs roles : List (List Byte)) : Image :=
  { far := far, phys := phys, addr := addr, hdr := h, hashes := hashes, segs := segs.map segFrom, roles := roles.map roleFrom }

end Sys2Proof.Machine
end

