-- ==== Sys2Proof/Machine/Packets.lean ====
section
/-! DEFINITION. The Stewards' reading of a queue (R246 to R250) and the packets other than LAUNCH and ROUTE (R255). -/

namespace Sys2Proof.Machine

/-! ### Reading a queue -/

/-- The key of a queue. -/
def qKey (q : QId) : Nat := queueKey q.vf.toNat q.q.toNat

/-- TAIL stands further ahead of DONE than the ring is long (R247). -/
def overrun (q : Queue) : Bool := decide (2 ^ q.log2 < (q.tail - q.done).toNat)

/-- Packet n of a queue's ring (R246). In a ring that has been overrun it is read with its new or with old bytes (R247): with those of
far memory at some earlier moment, or for a ring in host memory, of which the part holds no past, with any bytes (log 57). -/
def packetAt (s : State) (q : Queue) (n : Nat) : List Byte :=
  let a := q.addr + 64 * (n % 2 ^ q.log2)
  let new := readSide s q.loc a 64
  if overrun q && pick s (9950000 + n % 2 ^ q.log2) 2 == 1 then
    if q.loc then List.zipWith (fun i _ => (free s (9960000 + 64 * (n % 2 ^ q.log2) + i)).truncate 8) (List.range 64) new
    else
      let cs := cuts s (Config.farBase + a) 64 0
      bytesAt s (Config.farBase + a) 64 (cs.getD (pick s (9970000 + n % 2 ^ q.log2) cs.length) s.commits)
  else new

/-- Byte and field readers of a packet. -/
def pByte (p : List Byte) (o : Nat) : Nat := fieldAt p o 1
def pFlag (p : List Byte) (b : Nat) : Bool := (fieldAt p 3 1).testBit b

/-- The lowest offset whose check fails, of a list in rising order (R411). -/
def firstBad (l : List (Nat × Bool)) : Option Nat := (l.find? fun x => !x.2).map (·.1)

/-- Bytes that must be zero. -/
def zeros (p : List Byte) (lo hi : Nat) : List (Nat × Bool) := (List.range (hi - lo)).map fun i => (lo + i, pByte p (lo + i) == 0)

/-- The header's offending field (R249). -/
def headerBad (rev : Nat) (p : List Byte) : Option Nat :=
  let fl := pByte p 3
  firstBad [(0, 1 ≤ pByte p 0 && pByte p 0 ≤ 9), (1, pByte p 1 == rev), (2, pByte p 2 == 4),
    (3, fl / 4 % 4 == 0 && (if pByte p 0 = 1 then fl < 128 else fl < 16))]

/-- An accepted launch of the queue has still parties to place (R248). -/
def placing (s : State) (k : Nat) : Bool :=
  s.launches.any fun e => queueOfLaunch e.2 == k && e.2.st == .accepted && decide (e.2.placed < e.2.p.parties)

/-- The Steward reads the queue: it runs, holds a packet, and nothing before the packet holds it back. -/
def reads (s : State) (k : Nat) : Bool :=
  let q := queueOf s k
  q.en && q.st == .running && q.head != q.tail && q.poll.isNone && !placing s k && s.sec.ckpt.isNone && !s.sec.recov

/-- Every earlier launch of the queue has completed (R255). -/
def launchesDone (s : State) (k : Nat) : Bool := !(s.launches.any fun e => queueOfLaunch e.2 == k && e.2.st == .accepted)

/-- The packet at HEAD waits: for its BARRIER flag, for what a MARK or a GATECFG comes after, or for the rest of a ROUTE (R248, R249,
R255, R260). -/
def packetWaits (s : State) (k : Nat) : Bool :=
  let q := queueOf s k
  let p := packetAt s q q.head.toNat
  (pFlag p 0 && q.done != q.head) ||
    match pByte p 0 with
    | 2 => decide ((q.tail - q.head).toNat < 1 + pByte p 10)
    | 3 => q.done != q.head
    | 5 => !launchesDone s k
    | _ => false

/-- A queue is its Steward's next: the first that is ready after the queue served last, in ascending order round the 64 (R248). -/
def inTurn (s : State) (k : Nat) : Bool :=
  let far := fun n => (n % 64 + 63 - (funcOf s (k / 64)).turn) % 64
  !(s.queues.any fun e => e.1 / 64 == k / 64 && decide (far e.1 < far k) && reads s e.1 && !packetWaits s e.1)

/-- The Steward of the queue's function has turned to the queue. -/
def served (s : State) (q : QId) : State := modFunc s q.vf.toNat fun x => { x with turn := q.q.toNat }

/-- Numbers complete in ring order (R248). -/
def advanceDone : Nat → Queue → Queue
  | 0, q => q
  | n + 1, q => if q.ended.contains q.done.toNat then
      advanceDone n { q with done := q.done + 1, ended := q.ended.filter (· != q.done.toNat) }
    else q

/-- Packet n has completed: INTR sets IRQ (R246), and DONE follows. -/
def completePkt (q : Queue) (n : Nat) : Queue :=
  let q1 := { q with ended := q.ended ++ [n], irq := q.irq || q.intr.contains n, intr := q.intr.filter (· != n) }
  advanceDone q1.ended.length q1

/-- The packet at HEAD is consumed. -/
def consumePkt (p : List Byte) (q : Queue) : Queue :=
  { q with head := q.head + 1, intr := if pFlag p 1 then q.intr ++ [q.head.toNat] else q.intr }

/-- The packet at HEAD is consumed and complete. -/
def endPkt (s : State) (k : Nat) (p : List Byte) : State :=
  modQueue s k fun q => { completePkt (consumePkt p q) q.head.toNat with poll := none }

/-- A rejection (R250). Its record names no die, core or slot: DIE is 0xFF, though Lonal rejects on the FE die (DESIGN CHOICE, log 72). -/
def reject (s : State) (k pkt code detail : Nat) : State := faultQueue s k pkt code 0xFF 0xFF 0xFF 0 detail

/-- Read the packet at HEAD, which the event takes when its TYPE is the event's; BARRIER waits for every earlier packet (R249). A
TYPE that no packet has goes to the event of NOPKT. -/
def packetStep (s : State) (id : QId) (typ : Nat) (f : Nat → Queue → List Byte → State → Out) : Out :=
  let k := qKey id
  let q := queueOf s k
  if !reads s k || !inTurn s k then notEnabled
  else
    let p := packetAt s q q.head.toNat
    let t := pByte p 0
    if pFlag p 0 && q.done != q.head then notEnabled
    else if !(t == typ || (typ == 9 && (t == 0 || 9 < t))) then notEnabled
    else
      let s1 := served s id
      match headerBad q.rev p with
      | some o => done (reject s1 k q.head.toNat 0x40 o)
      | none => f k q p s1

/-- A packet other than LAUNCH and ROUTE: its body's limits, then its effect (R249, R255). -/
def plainPacket (s : State) (id : QId) (typ : Nat) (body : List Byte → List (Nat × Bool)) (f : Nat → Queue → List Byte → State → Out) : Out :=
  packetStep s id typ fun k q p s =>
    match firstBad (body p) with
    | some o => done (reject s k q.head.toNat 0x40 o)
    | none => f k q p s

/-- Every earlier packet of the queue has completed. -/
def allDone (q : Queue) : Bool := q.done == q.head

/-- Write bytes for the packet at HEAD and end it, or reject it with 0x47. -/
def writeAndEnd (s : State) (k : Nat) (q : Queue) (p : List Byte) (va : Nat) (bs : List Byte) (off : Nat) : State :=
  let r := asidWrite s q.asid va bs
  match r.1 with
  | some t => endPkt t k p
  | none => reject r.2 k q.head.toNat 0x47 off

/-! ### The packets (R255) -/

/-- NOPKT. -/
def execNopkt (q : QId) (s : State) : Out :=
  plainPacket s q 9 (fun p => zeros p 4 64) fun k _ p s => done (endPkt s k p)

/-- MARK: after every earlier packet completes, a system-scope release of VALUE. -/
def execMark (q : QId) (s : State) : Out :=
  plainPacket s q 3 (fun p => zeros p 4 8 ++ [(8, fieldAt p 8 8 % 8 == 0)] ++ zeros p 24 64) fun k qu p s =>
    if allDone qu then done (writeAndEnd s k qu p (fieldAt p 8 8) ((p.drop 16).take 8) 8) else notEnabled

/-- The condition of a WAITMARK on the value read. -/
def markHolds (p : List Byte) (v : Nat) : Bool := if pByte p 24 = 0 then fieldAt p 16 8 ≤ v else v == fieldAt p 16 8

/-- Read ADDR of a WAITMARK: it completes, waits for the next read, or is rejected. -/
def pollMark (s : State) (k : Nat) (q : Queue) (p : List Byte) : State :=
  let r := asidRead s true 0 q.asid (fieldAt p 8 8) 8
  match r.1 with
  | none => reject r.2 k q.head.toNat 0x47 8
  | some bs => if markHolds p (leNat bs) then endPkt r.2 k p else modQueue r.2 k fun x => { x with poll := some (ticks s + 1200, p) }

/-- WAITMARK. -/
def execWaitmark (q : QId) (s : State) : Out :=
  plainPacket s q 4 (fun p => zeros p 4 8 ++ [(24, decide (pByte p 24 ≤ 1))] ++ zeros p 25 64) fun k qu p s => done (pollMark s k qu p)

/-- WAITMARK_POLL: the read of ADDR every 1,200 ticks, for the packet that the Steward has read and checked. -/
def execWaitmarkPoll (q : QId) (s : State) : Out :=
  let k := qKey q
  let qu := queueOf s k
  match qu.poll with
  | none => notEnabled
  | some (t, p) => if t ≤ ticks s && qu.st == .running && s.sec.ckpt.isNone && !s.sec.recov then done (pollMark s k qu p) else notEnabled

/-- A gate may change: waves that its last change has let go have been woken in the cycle after it (R254). -/
def gateSettled (s : State) (g : Nat) : Bool := !gateOwes s g || Tab.find (queueOf s (g / 64)).moved (g % 64) == some (ticks s)

/-- GATECFG: after every earlier launch completes. -/
def execGatecfg (q : QId) (s : State) : Out :=
  plainPacket s q 5 (fun p => zeros p 4 8 ++ [(8, decide (pByte p 8 ≤ 63)), (9, decide (pByte p 9 ≤ 1))] ++ zeros p 10 12 ++ zeros p 16 64) fun k _ p s =>
    if launchesDone s k && gateSettled s (64 * k + pByte p 8) then
      let v := fieldAt p 12 4
      let g := pByte p 8
      done (endPkt (modQueue s k fun x =>
        if pByte p 9 = 0 then { setGate x g v (ticks s) with raised := Tab.del x.raised g } else gateAdd x g v (ticks s)) k p)
    else notEnabled

/-- TIMESTAMP. -/
def execTimestamp (q : QId) (s : State) : Out :=
  plainPacket s q 6 (fun p => zeros p 4 8 ++ zeros p 16 64) fun k qu p s =>
    done (writeAndEnd s k qu p (fieldAt p 8 8) (leBytes 8 (ticks s)) 8)

/-- ENERGY: the function's cumulative energy. -/
def execEnergy (q : QId) (s : State) : Out :=
  plainPacket s q 7 (fun p => zeros p 4 8 ++ zeros p 16 64) fun k qu p s =>
    done (writeAndEnd s k qu p (fieldAt p 8 8) (leBytes 8 (funcOf s (k / 64)).energy) 8)

/-- HOSTCOPY: SRC at 8 and DST at 16; the device side is far memory in the queue's ASID. -/
def execHostcopy (q : QId) (s : State) : Out :=
  plainPacket s q 8 (fun p => zeros p 4 8 ++ [(24, 1 ≤ fieldAt p 24 8 && fieldAt p 24 8 ≤ 2 ^ 32), (32, pByte p 32 ≤ 1)] ++ zeros p 33 64)
    fun k qu p s =>
      let src := fieldAt p 8 8
      let dst := fieldAt p 16 8
      let len := fieldAt p 24 8
      if pByte p 32 = 0 then done (writeAndEnd s k qu p dst (getBytes s.hostMem src len) 16)
      else
        let r := asidRead s true 0 qu.asid src len
        match r.1 with
        | none => done (reject r.2 k qu.head.toNat 0x47 8)
        | some bs => done (endPkt (hostWrite r.2 dst bs) k p)

/-! ### Doorbell, enable and disable (R246 to R248) -/

/-- Fields of QCTL. -/
def qctlRev (v : DWord) : Nat := v.toNat / 2 ^ 16 % 256
def qctlLog2 (v : DWord) : Nat := v.toNat / 16 % 16
def qctlAsid (v : DWord) : Nat := v.toNat / 2 ^ 24 % 65536

/-- QCTL's fields are stored (EN was 0). -/
def setQctl (v : DWord) (q : Queue) : Queue := { q with rev := qctlRev v, log2 := qctlLog2 v, asid := qctlAsid v }

/-- QUEUE_ENABLE (R247): the fields are stored; EN is set when they pass and no launch of the queue is resident. -/
def execQueueEnable (q : QId) (val : DWord) (s : State) : Out :=
  let k := qKey q
  let qu := queueOf s k
  if qu.en || !val.getLsbD 0 || s.sec.stage != 5 || s.sec.recov then notEnabled
  else
    let e := asdtEntry s (qctlAsid val)
    let ok := (qctlRev val == 3 || qctlRev val == 4) && decide (4 ≤ qctlLog2 val) && asdtValid e && asdtVf e == q.vf.toNat &&
      launchesDone s k
    let q1 := setQctl val qu
    done (setQueue s k (if ok then
      { q1 with
        en := true, st := .running, head := 0, done := 0, tail := 0, gates := [], moved := [], raised := [], opens := [], base := s.nextId, ended := [],
        intr := [], poll := none }
      else q1))

/-- QUEUE_DISABLE (R246, R247): every other bit of the write is ignored; launches run on. -/
def execQueueDisable (q : QId) (s : State) : Out :=
  let k := qKey q
  let qu := queueOf s k
  if qu.en && !s.sec.recov then done (setQueue s k { qu with en := false, st := .disabled, poll := none }) else notEnabled

/-- QTAIL_DOORBELL (R247, R248): ignored while EN is 0. -/
def execQtailDoorbell (q : QId) (tail : Word) (s : State) : Out :=
  let k := qKey q
  let qu := queueOf s k
  done (if qu.en && !s.sec.recov then setQueue s k { qu with tail := tail } else s)

/-! ### Gates raised by the Steward (R253) -/

/-- Every earlier launch of a launch's queue has completed; one that was killed has not. -/
def earlierDone (s : State) (lid : Nat) (l : Launch) : Bool :=
  !(s.launches.any fun e => e.1 < lid && (queueOf s (queueOfLaunch l)).base ≤ e.1 && queueOfLaunch e.2 == queueOfLaunch l && e.2.st != .complete)

/-- GATE_RAISE (R253): at least GCOUNT, never lower, whatever the gated launch itself has come to. -/
def execGateRaise (lid : Nat) (s : State) : Out :=
  match launchOf s lid with
  | none => notEnabled
  | some l =>
    if (queueOf s (queueOfLaunch l)).base ≤ lid && l.p.flags.getLsbD 6 && !l.raised && earlierDone s lid l then
      let k := queueOfLaunch l
      done (setLaunch (modQueue s k fun q => gateRaise q l.p.gate l.p.gcount (ticks s)) lid { l with raised := true })
    else notEnabled

end Sys2Proof.Machine
end

