-- ==== Sys2Proof/Machine/Launch.lean ====
section
/-! DEFINITION. LAUNCH (R251 to R253, R257) and ROUTE (R259, R260): the checks, in the order of log 31, and the acceptance. -/

namespace Sys2Proof.Machine

/-! ### The LAUNCH packet -/

def splitFlag (p : List Byte) : Bool := pFlag p 5

/-- An allotment byte: two nibbles of at most 8. -/
def allotOk (v : Nat) : Bool := decide (v % 16 ≤ 8 ∧ v / 16 ≤ 8)

/-- The limits of R251 and the operating-point window of R284, in rising offset (R411). -/
def launchFields (s : State) (vf rev : Nat) (p : List Byte) : List (Nat × Bool) :=
  let b := pByte p
  let img := fieldAt p 4 8
  let win := fieldAt p 16 2
  let cv := fieldAt p 40 6
  let en := fieldAt p 48 8
  let lo := b 15 % 8
  let hi := b 15 / 8
  let h := oppWin s (b 14) vf
  [(4, decide (img < 2 ^ 48 ∧ img % 4096 ≤ 1)), (12, fieldAt p 12 2 != 0), (14, decide (b 14 < 8)),
   (15, decide (b 15 < 64 ∧ lo ≤ hi ∧ max lo h.1 ≤ min hi h.2)), (16, win == 0 || decide (8 ≤ win ∧ win ≤ 512)),
   (18, decide (1 ≤ b 18 ∧ b 18 ≤ (if splitFlag p then 15 else 16))), (19, decide (b 19 ≤ (if splitFlag p then 1 else 0))),
   (24, b 19 != 0 || fieldAt p 24 4 == 0), (28, allotOk (b 28)), (29, allotOk (b 29) && (b 19 != 0 || b 29 == 0)),
   (30, decide (b 30 ≤ (if rev = 4 then 3 else 0))), (31, decide (b 31 < 64)), (36, decide (1 ≤ b 36 ∧ b 36 ≤ 64)),
   (38, decide (b 38 < 8) && (b 37 != 0 || b 38 == 0)), (39, b 39 == 0),
   (40, cv % 8 == 0 && (fieldAt p 46 2 != 0 || cv == 0)), (46, decide (fieldAt p 46 2 ≤ 256)),
   (48, if rev = 4 then decide (en < 2 ^ 48) && en % 8 == 0 else en == 0), (56, fieldAt p 56 8 == 0)]

def lpktOf (p : List Byte) : LPkt :=
  let b := pByte p
  { flags := BitVec.ofNat 8 (b 3), image := fieldAt p 4 8 / 4096 * 4096, far := (b 4).testBit 0, parties := fieldAt p 12 2, die := b 14 % 8,
    oppLo := b 15 % 8, oppHi := b 15 / 8, window := fieldAt p 16 2, cwaves := b 18, pwaves := b 19, centry := BitVec.ofNat 32 (fieldAt p 20 4),
    pentry := BitVec.ofNat 32 (fieldAt p 24 4), callotA := 8 * (b 28 % 16), callotB := 8 * (b 28 / 16), pallotA := 8 * (b 29 % 16),
    pallotB := 8 * (b 29 / 16), fidel := b 30, gate := b 31, gcount := fieldAt p 32 4, region := b 36, route := b 37, stage := b 38,
    cvaddr := fieldAt p 40 6, cvcount := fieldAt p 46 2, energy := fieldAt p 48 8 }

/-- Waves of a party, and the role of wave w (R28). -/
def partyWaves (p : LPkt) : Nat := p.cwaves + p.pwaves
def isSplit (p : LPkt) : Bool := p.flags.getLsbD 5
def roleOf (p : LPkt) (w : Nat) : Nat := if isSplit p then (if w < p.pwaves then 1 else 2) else 0

/-- What a role of a launch uses: role, waves, allotments, entry. -/
structure RoleUse where
  role : Nat
  waves : Nat
  a : Nat
  b : Nat
  entry : Word
  deriving DecidableEq, Repr

def roleUses (p : LPkt) : List RoleUse :=
  { role := if isSplit p then 2 else 0, waves := p.cwaves, a := p.callotA, b := p.callotB, entry := p.centry } ::
    (if p.pwaves = 0 then [] else [{ role := 1, waves := 1, a := p.pallotA, b := p.pallotB, entry := p.pentry }])

/-- The roles, entries, allotments and wave counts agree with the role descriptors (R113, R252). An image with the one role
`consumer`, which R110 lets it carry, matches no LAUNCH by R252's words and is rejected (log 31). -/
def rolesOk (p : LPkt) (h : ImgHdr) (ds : List RoleDesc) : Bool :=
  h.roles == (if isSplit p then 2 else 1) &&
    (roleUses p).all fun u => match ds.find? fun d => d.role == u.role with
      | some d => decide (u.waves ≤ d.maxWaves ∧ d.minA ≤ u.a ∧ d.minB ≤ u.b) && d.entry == u.entry
      | none => false

/-- Registers of a party in each cluster (R31). -/
def partyA (p : LPkt) : Nat := (roleUses p).foldl (fun n u => n + u.waves * u.a) 0
def partyB (p : LPkt) : Nat := (roleUses p).foldl (fun n u => n + u.waves * u.b) 0

/-! ### Convoy images (R257) -/

def cvDesc (b : List Byte) : CvDesc :=
  { index := fieldAt b 6 1, waves := BitVec.ofNat 16 (fieldAt b 4 2), nparty := fieldAt b 2 2, first := fieldAt b 0 2 }

/-- Waves of a party that a descriptor names. -/
def cvWaves (p : LPkt) (d : CvDesc) : List Nat := (List.range (partyWaves p)).filter fun w => d.waves.getLsbD w

/-- The indices that the descriptor of a wave's role binds. -/
def boundOf (p : LPkt) (ds : List RoleDesc) (w : Nat) : List Nat :=
  match ds.find? fun d => d.role == roleOf p w with
  | some d => d.convoys.filter (· != 0xFF)
  | none => []

/-- One descriptor agrees with the launch and its roles; `before` are those in front of it. -/
def cvOk (p : LPkt) (ds : List RoleDesc) (before : List CvDesc) (raw : List Byte) : Bool :=
  let d := cvDesc raw
  pByte raw 7 == 0 && !(before.any fun x => x.index == d.index) && d.nparty != 0 && decide (d.first + d.nparty ≤ p.parties) &&
    decide (d.waves.toNat < 2 ^ partyWaves p) && ((cvWaves p d).all fun w => (boundOf p ds w).contains d.index) &&
    ((List.range (partyWaves p)).all fun w => !(boundOf p ds w).contains d.index ||
      (d.waves.getLsbD w && d.first == 0 && d.nparty == p.parties))

/-- The first rejected descriptor. -/
def firstBadCv (p : LPkt) (ds : List RoleDesc) : List CvDesc → List (List Byte) → Nat → Option Nat
  | _, [], _ => none
  | before, r :: t, n => if cvOk p ds before r then firstBadCv p ds (before ++ [cvDesc r]) t (n + 1) else some n

/-- A role binds an index that no descriptor describes: its waves are not members. -/
def unbound (p : LPkt) (ds : List RoleDesc) (cvs : List CvDesc) : Bool :=
  (List.range (partyWaves p)).any fun w => (boundOf p ds w).any fun i => !(cvs.any fun d => d.index == i)

/-- Parties of one launch that a core of an empty die holds (R35). -/
def perCore (p : LPkt) : Nat :=
  let r := min (16 / partyWaves p) (min (if partyA p = 0 then 16 else 1024 / partyA p) (if partyB p = 0 then 16 else 1024 / partyB p))
  if p.flags.getLsbD 4 then min r 1 else r

/-! ### Judging a LAUNCH -/

/-- What the Steward finds: the launch, or a rejection with its CODE and DETAIL. -/
inductive Verdict where
  | ok (l : Launch)
  | bad (code detail : Nat)
  deriving DecidableEq, Repr

/-- The handler block as a launch captures it (R272). -/
def captureHandler (f : Func) : HTab := { en := f.hen, image := if f.hen then f.hcur else none, entries := f.hentry, wd := f.wd }

/-- The checks of the convoy image, then of placement; a code for a convoy image that does not translate is the model's choice
(log 31). -/
def judgeConvoys (s : State) (l : Launch) : Verdict × State :=
  let p := l.p
  let r := if p.cvcount = 0 then (some [], s) else asidRead s true 0 l.asid p.cvaddr (8 * p.cvcount)
  match r.1 with
  | none => (.bad 0x45 0, r.2)
  | some bs =>
    let raw := entriesOf 8 p.cvcount bs
    let cvs := raw.map cvDesc
    match firstBadCv p l.img.roles [] raw 0 with
    | some n => (.bad 0x45 n, r.2)
    | none =>
      if unbound p l.img.roles cvs then (.bad 0x45 (pick s 45 65536), r.2)
      else if 1024 < partyA p ∨ 1024 < partyB p then (.bad 0x44 3, r.2)
      else if (cvs.any fun d => d.waves != 0) && decide (32 * perCore p < p.parties) then (.bad 0x44 2, r.2)
      else (.ok { l with cvs := cvs }, r.2)

/-- The checks of the role descriptors, the ceiling, the region and the segment table. The image's FIDELITY byte counts by its two
bits (R169), and WINDOW, CEILING, SEGS and DICTN outside the ranges of R111 count as they stand (DESIGN CHOICE, log 31). -/
def judgeBody (s : State) (vf qn pkt asid rev : Nat) (p : LPkt) (h : ImgHdr) (hashes : List (BitVec 256)) : Verdict × State :=
  let src := (p.far, p.die, asid, p.image)
  let r := readImage s src h.roleOff (16 * h.roles)
  match r.1 with
  | .inr pg => (.bad 0x0C pg, r.2)
  | .inl rb =>
    let roles := entriesOf 16 h.roles rb
    if !rolesOk p h (roles.map roleFrom) then (.bad 0x42 4, r.2)
    else if (roleUses p).any fun u => h.ceiling < u.a || h.ceiling < u.b then (.bad 0x44 1, r.2)
    else if 6144 * p.region < h.constLen then (.bad 0x41 36, r.2)
    else
      let g := readImage r.2 src h.segOff (32 * h.segs)
      match g.1 with
      | .inr pg => (.bad 0x0C pg, g.2)
      | .inl sb =>
        let segs := entriesOf 32 h.segs sb
        match firstBadSeg segs with
        | some n => (.bad 0x43 n, g.2)
        | none =>
          let f := funcOf s vf
          let asked := if rev = 4 then p.fidel else 3
          judgeConvoys g.2
            { vf := vf, q := qn, pkt := pkt, asid := asid, p := p, img := buildImage p.far false p.image h hashes segs roles,
              htab := captureHandler f, floor := f.floor, asked := asked, level := max asked (max (h.fidelity % 4) f.floor), cvs := [], cvmap := [],
              die := p.die, placed := 0, retired := 0, st := .accepted, energy := 0, drew := false, verified := [], born := s.commits, checked := false, saved := false,
              stopping := false, raised := false }

/-- The Steward's judgement of a LAUNCH (R113, R180, R252, R257). -/
def judgeLaunch (s : State) (vf qn pkt : Nat) (q : Queue) (b : List Byte) : Verdict × State :=
  match firstBad (launchFields s vf q.rev b) with
  | some o => (.bad 0x41 o, s)
  | none =>
    let p := lpktOf b
    let src := (p.far, p.die, q.asid, p.image)
    let r := readImage s src 0 512
    match r.1 with
    | .inr pg => (.bad 0x0C pg, r.2)
    | .inl page0 =>
      let f := funcOf s vf
      let h := hdrOf page0
      if fieldAt page0 0 4 ≠ magic ∨ fieldAt page0 4 2 ≠ 1 then (.bad 0x42 1, r.2)
      else if f.key.isNone ∨ h.keyid ≠ f.keyid then (.bad 0x42 2, r.2)
      else
        let m := readImage r.2 src 4096 (32 * hashCount h)
        match m.1 with
        | .inr pg => (.bad 0x0C pg, m.2)
        | .inl mb =>
          match sigCheck f page0 mb with
          | some c => (.bad 0x42 c, m.2)
          | none => judgeBody m.2 vf qn pkt q.asid q.rev p h (hashesOf (hashCount h) mb)

/-- The record of a rejection: a page that did not translate names the die whose fetch failed (R252, R273). For the Steward's own read that is 8
for an image in far memory and the LAUNCH's die for a near one (DESIGN CHOICE, log 72). -/
def rejectLaunch (s : State) (k pkt code detail : Nat) (b : List Byte) : State :=
  if code = 0x0C then faultQueue s k pkt code (if (lpktOf b).far then 8 else (lpktOf b).die) 0xFF 0xFF 0 detail else reject s k pkt code detail

/-- LAUNCH (R252): accepted for placement, or rejected with the queue faulted. A stage's LAUNCH belongs to its ROUTE (R260). -/
def execLaunch (q : QId) (s : State) : Out :=
  packetStep s q 1 fun k qu p s =>
    let n := qu.head.toNat
    if pByte p 37 ≠ 0 then
      done (match firstBad (launchFields s q.vf.toNat qu.rev p) with
      | some o => reject s k n 0x41 o
      | none => reject s k n 0x46 37)
    else
      let r := judgeLaunch s q.vf.toNat q.q.toNat n qu p
      match r.1 with
      | .bad c d => done (rejectLaunch r.2 k n c d p)
      | .ok l => done (modQueue (setLaunch { r.2 with nextId := r.2.nextId + 1 } r.2.nextId l) k (consumePkt p))

/-! ### Routes (R259, R260) -/

/-- The limits of R259. -/
def routeFields (p : List Byte) : List (Nat × Bool) :=
  let b := pByte p
  let a := fieldAt p 16 8
  [(4, fieldAt p 4 4 == 0), (8, b 8 != 0), (9, decide (b 9 < 8)), (10, decide (2 ≤ b 10 ∧ b 10 ≤ 8 ∧ b 9 % 8 + b 10 ≤ 8)),
   (11, decide (1 ≤ b 11 ∧ b 11 ≤ 28)), (12, fieldAt p 12 4 == 0), (16, a % 16 == 0 && decide (a < 2 ^ 48))] ++
    [(24, (firstBad (zeros p 24 64)).isNone)]

/-- A stage's LAUNCH carries the route's tag, its stage and its die (R260). -/
def stageFields (tag first i : Nat) (b : List Byte) : List (Nat × Bool) :=
  [(0, pByte b 0 == 1), (14, pByte b 14 == first + i), (37, pByte b 37 == tag), (38, pByte b 38 == i)]

/-- The field of a stage's LAUNCH that a failed check is about (R260, R411; log 31). -/
def stageOffset (code detail : Nat) : Nat :=
  if code = 0x41 then detail else if code = 0x45 then 40 else if code = 0x44 then (if detail = 2 then 12 else if detail = 1 then 28 else 18) else 4

/-- Judge the stages in order: their launches, or the packet and the DETAIL with which the route is rejected, for the first that
fails (R260). The BARRIER flag of a stage's LAUNCH is ignored, because its ROUTE completes last (DESIGN CHOICE, log 31). -/
def judgeStages (vf qn : Nat) (q : Queue) (tag first base : Nat) : List Nat → State → (List Launch ⊕ (Nat × Nat)) × State
  | [], s => (.inl [], s)
  | i :: t, s =>
    let n := (base + 1 + i) % 2 ^ 32
    let b := packetAt s q n
    match headerBad q.rev b, firstBad (stageFields tag first i b) with
    | some o, _ => (.inr (n, o), s)
    | none, some o => (.inr (n, o), s)
    | none, none =>
      let r := judgeLaunch s vf qn n q b
      match r.1 with
      | .bad c d => (.inr (n, stageOffset c d), r.2)
      | .ok l =>
        let y := judgeStages vf qn q tag first base t r.2
        (match y.1 with
        | .inl ls => (.inl (l :: ls), y.2)
        | e => (e, y.2))

/-- A binding as five numbers: stage, outbound endpoint, inbound endpoint, slots, log2 size, segment; none where a field is outside
its limits. -/
def bindOf (stages : Nat) (b : List Byte) : Option (List Nat) :=
  let v := pByte b
  if decide (v 0 + 2 ≤ stages) && decide (v 1 < 16) && v 2 != 0 && decide (12 ≤ v 3 ∧ v 3 ≤ 20) && decide (v 4 < 64) && (b.drop 5).all (· == 0) then
    some [v 0, v 1 % 4, v 1 / 4, v 2 + 1, v 3, v 4]
  else none

def bAt (l : List Nat) (n : Nat) : Nat := l.getD n 0

/-- The ring segment of a binding meets its limits (R259). -/
def ringOk (ls : List Launch) (b : List Nat) : Bool :=
  match ls[bAt b 0 + 1]? with
  | none => false
  | some l =>
    let g := l.img.segs.getD (bAt b 5) Seg.init
    segValid g && segRd g && !segW g && !segPage g && !segFar g && decide (bAt b 3 * 2 ^ bAt b 4 ≤ g.limit)

/-- Two bindings share a sending endpoint, or a receiving one on one stage. -/
def bindTwice (bs : List (List Nat)) : Bool :=
  let send := bs.map fun b => 4 * bAt b 0 + bAt b 1
  let recv := bs.map fun b => 4 * bAt b 0 + bAt b 2
  (distinct send).length != bs.length || (distinct recv).length != bs.length

/-- The stream of a binding. -/
def streamFor (s : State) (ls : List Launch) (lid0 : Nat) (b : List Nat) : Stream :=
  let r := bAt b 0 + 1
  let die := match ls[r]? with | some l => l.die | none => 0
  let base := match ls[r]? with | some l => (l.img.segs.getD (bAt b 5) Seg.init).pbase | none => 0
  { sLid := lid0 + bAt b 0, sEp := bAt b 1, rLid := lid0 + r, rEp := bAt b 2, slots := bAt b 3, size := 2 ^ bAt b 4,
    head := Config.nearBase die + base, die := die, ring := [], wr := 0, acq := 0, old := 0, inUse := 0, pend := [], lodged := [], todo := none,
    moved := ticks s }

/-- Put launches in under consecutive identifiers. -/
def addLaunches : List Launch → State → State
  | [], s => s
  | l :: t, s => addLaunches t (setLaunch { s with nextId := s.nextId + 1 } s.nextId l)

/-- Bind the rings. -/
def addStreams (ls : List Launch) (lid0 : Nat) : List (List Nat) → State → State
  | [], s => s
  | b :: t, s => addStreams ls lid0 t { s with streams := Tab.put s.streams s.nextId (streamFor s ls lid0 b), nextId := s.nextId + 1 }

/-- Consume packets. -/
def consumeAll : List (List Byte) → Queue → Queue
  | [], q => q
  | p :: t, q => consumeAll t (consumePkt p q)

/-- Accept a route: its launches, its streams and its packets. -/
def acceptRoute (s : State) (vf qn k : Nat) (q : Queue) (p : List Byte) (ls : List Launch) (bs : List (List Nat)) : State :=
  let lid0 := s.nextId
  let ps := p :: (List.range ls.length).map fun i => packetAt s q (q.head.toNat + 1 + i)
  let s1 := addStreams ls lid0 bs (addLaunches ls s)
  let r : Route :=
    { vf := vf, q := qn, tag := pByte p 8, pkt := q.head.toNat, first := pByte p 9, stages := ls.length, binds := bs,
      lids := (List.range ls.length).map (lid0 + ·), done := [], stirred := ticks s }
  modQueue { s1 with routes := Tab.put s1.routes s1.nextId r, nextId := s1.nextId + 1 } k (consumeAll ps)

/-- ROUTE (R260): it waits until its LAUNCH packets have been written; then all are accepted, or the route is rejected. A binding whose
own fields break their limits gives 0x46 with offset 16, as an inconsistent one does (DESIGN CHOICE, log 31). -/
def execRoute (q : QId) (s : State) : Out :=
  packetStep s q 2 fun k qu p s =>
    let n := qu.head.toNat
    let stages := pByte p 10
    match firstBad (routeFields p) with
    | some o => done (reject s k n 0x41 o)
    | none =>
      if s.routes.any fun e => queueKey e.2.vf e.2.q == k && e.2.tag == pByte p 8 then done (reject s k n 0x46 8)
      else if (qu.tail - qu.head).toNat < 1 + stages then notEnabled
      else
        let r := judgeStages q.vf.toNat q.q.toNat qu (pByte p 8) (pByte p 9) n (List.range stages) s
        match r.1 with
        | .inr (m, d) => done (reject r.2 k m 0x46 d)
        | .inl ls =>
          let a := asidRead r.2 true 0 qu.asid (fieldAt p 16 8) (16 * pByte p 11)
          match a.1 with
          | none => done (reject a.2 k n 0x47 16)
          | some bb =>
            let raw := (entriesOf 16 (pByte p 11) bb).map (bindOf stages)
            let bs := raw.filterMap id
            if raw.any Option.isNone || bindTwice bs || !(bs.all (ringOk ls)) then done (reject a.2 k n 0x46 16)
            else done (acceptRoute a.2 q.vf.toNat q.q.toNat k qu p ls bs)

end Sys2Proof.Machine
end

