-- ==== Sys2Proof/Machine/Place.lean ====
section
/-! DEFINITION. Placement of a party (R253, R256, R258, R114, R276), release of a wave (R33, R35), landing of exposed results
(R65), retirement of waves and parties (R49, R236) and completion of launches and routes (R19, R39, R255). -/

namespace Sys2Proof.Machine

/-! ### Where a party fits (R258) -/

/-- Free wave slots of a core, lowest first. -/
def freeSlots (s : State) (core : Nat) : List Nat := (List.range 16).filter fun i => (waveOf s (16 * core + i)).isNone

/-- Registers of each cluster that are reserved on a core (R31). -/
def usedA (s : State) (core : Nat) : Nat := (wavesOn s core).foldl (fun n e => n + e.2.aAllot) 0
def usedB (s : State) (core : Nat) : Nat := (wavesOn s core).foldl (fun n e => n + e.2.bAllot) 0

/-- The decode window of a launch (R251). -/
def launchWindow (l : Launch) : Nat := if l.p.window = 0 then l.img.hdr.window else l.p.window

def usedWindow (c : Core) : Nat := c.shares.foldl (fun n e => n + e.2.window) 0

/-- A run of n units from u is free. -/
def runFree (c : Core) (u n : Nat) : Bool := c.shares.all fun e => u + n ≤ e.2.unit || e.2.unit + e.2.units ≤ u

/-- The lowest free run of n landing-buffer units of a core's 64. -/
def lowRun (c : Core) (n : Nat) : Option Nat := (List.range 64).find? fun u => u + n ≤ 64 && runFree c u n

/-- A core has room for the next party of a launch (R258). -/
def fitsCore (s : State) (lid : Nat) (l : Launch) (core : Nat) : Bool :=
  let c := coreOf s core
  decide (partyWaves l.p ≤ (freeSlots s core).length) && decide (usedA s core + partyA l.p ≤ 1024) && decide (usedB s core + partyB l.p ≤ 1024) &&
    ((Tab.find c.shares lid).isSome || (decide (usedWindow c + launchWindow l ≤ 512) && (lowRun c l.p.region).isSome)) &&
    !(l.p.flags.getLsbD 4 && c.tile.isSome)

/-- The lowest-numbered core of a die that fits. -/
def chooseCore (s : State) (lid : Nat) (l : Launch) (die : Nat) : Option Nat := ((List.range 32).map (32 * die + ·)).find? (fitsCore s lid l)

/-- Free entries of a die's convoy table, by their keys in State.convoys. -/
def freeConvoys (s : State) (die : Nat) : List Nat := ((List.range 256).map (256 * die + ·)).filter fun e => (Tab.find s.convoys e).isNone

/-! ### When placement starts (R253, R258, R261) -/

/-- The packet before which everything must have completed: that of the ROUTE for a stage. -/
def startPkt (s : State) (l : Launch) : Nat :=
  if l.p.route = 0 then l.pkt
  else match s.routes.find? fun e => queueKey e.2.vf e.2.q == queueOfLaunch l && e.2.tag == l.p.route with
    | some e => e.2.pkt
    | none => l.pkt

/-- Every earlier launch of the queue has all its parties placed (R38, R258). -/
def earlierPlaced (s : State) (lid : Nat) (l : Launch) : Bool :=
  !(s.launches.any fun e => e.1 < lid && queueOfLaunch e.2 == queueOfLaunch l && e.2.st == .accepted && decide (e.2.placed < e.2.p.parties))

/-- A saved body of the function waits to resume on the die. -/
def bodyWaits (s : State) (vf die : Nat) : Bool :=
  s.bodies.any fun e => e.2.die == die && match launchOf s e.1 with | some l => l.vf == vf | none => false

/-- A launch has a party that may be placed now. -/
def wantsPlace (s : State) (lid : Nat) (l : Launch) : Bool :=
  l.st == .accepted && !l.saved && !l.stopping && decide (l.placed < l.p.parties) && earlierPlaced s lid l &&
    (l.p.flags.getLsbD 6 || (queueOf s (queueOfLaunch l)).done.toNat == startPkt s l)

/-- The die serves the launch: it is not in reset, its function holds it, and none of the function's own bodies waits for it (R261). -/
def dieServes (s : State) (l : Launch) : Bool :=
  !(dieOf s l.die).off && (dieOf s l.die).granted == l.vf && !bodyWaits s l.vf l.die && s.sec.ckpt.isNone

/-! ### What the dispatcher checks and copies (R114) -/

/-- Pages of a byte range of an image. -/
def pagesOf (off n : Nat) : List Nat := if n = 0 then [] else (List.range ((off + n - 1) / 4096 - off / 4096 + 1)).map (off / 4096 + ·)

/-- The kill that a read of image bytes raises, with its DETAIL (R114, R205, R411). -/
def imgKill (r : ImgRes) : Option (Nat × Nat) :=
  match r with
  | .ok _ => none
  | .bad pg => some (0x0C, pg)
  | .ecc => some (0x0D, 0)

/-- Check pages of a launch's image on a die; the kill of the first page that fails. -/
def verifyPages (lid die : Nat) : List Nat → State → Option (Nat × Nat) × State
  | [], s => (none, s)
  | pg :: t, s =>
    let x := imgBytes s lid false die (4096 * pg) 1
    match imgKill x.1 with
    | none => verifyPages lid die t x.2
    | some k => (some k, x.2)

/-- The launch page and the constants pages. -/
def launchPages (l : Launch) : List Nat := (l.img.hdr.segOff / 4096) :: pagesOf l.img.hdr.constOff l.img.hdr.constLen

/-- The segment template as the checked launch page has it (R114). The page may have changed since its entries were judged (R252): one that
fails R180 now reads as all zero, so that no segment names another die's memory (R17; DESIGN CHOICE, log 65). -/
def loadTemplate (s : State) (lid : Nat) (l : Launch) : Option (Nat × Nat) × State :=
  let r := imgBytes s lid false l.die l.img.hdr.segOff (32 * l.img.hdr.segs)
  match r.1 with
  | .ok bs => (none, modLaunch r.2 lid fun x => { x with img := { x.img with segs := (entriesOf 32 l.img.hdr.segs bs).map fun b => segFrom (if segOk b then b else []) }, checked := true })
  | e => (imgKill e, r.2)

/-- Copy the constants to the launch's region on a core, which clears the errors of the words that they overwrite whole (R206 speaks of stores; DESIGN CHOICE, log 39);
the kill where they cannot be read. -/
def copyConsts (s : State) (lid : Nat) (l : Launch) (core : Nat) : Option (Nat × Nat) × State :=
  if l.img.hdr.constLen = 0 then (none, s)
  else
    let r := imgBytes s lid false (dieOfCore core) l.img.hdr.constOff l.img.hdr.constLen
    match r.1 with
    | .ok bs => (none, eccPadClear (padWrite r.2 core (padBase r.2 core lid) bs) core (padBase r.2 core lid) bs.length)
    | e => (imgKill e, r.2)

/-- What the dispatcher checks before a launch's first wave is released: the launch page and the constants pages, and the segment
template out of the first (R114). -/
def checkLaunch (s : State) (lid : Nat) (l : Launch) : Option (Nat × Nat) × State :=
  if l.checked then (none, s)
  else
    let v := verifyPages lid l.die (launchPages l) s
    match v.1 with
    | some k => (some k, v.2)
    | none => loadTemplate v.2 lid l

/-! ### Save areas (R276) -/

/-- The wave areas below the core areas of the context region. -/
def areaRoom (d : Die) : Nat := (Config.ctxSize - 1048576 * (d.coreAreas.foldl (fun m a => max m (a.2.2 + 1)) 0)) / 32768

/-- Give a wave the lowest area that is free; it is kept for the launch's life, and a region with no room gives none (R276). -/
def giveArea (s : State) (die lid party num : Nat) : State :=
  let d := dieOf s die
  match (List.range (min (areaRoom d) (d.areas.length + 1))).find? fun n => !(d.areas.any fun a => a.2.2.2 == n) with
  | some n => setDie s die { d with areas := d.areas ++ [(lid, party, num, n)] }
  | none => s

/-- Core areas that the wave areas leave room for. -/
def coreAreaRoom (d : Die) : Nat := (Config.ctxSize - 32768 * (d.areas.foldl (fun m a => max m (a.2.2.2 + 1)) 0)) / 1048576

/-- Give a launch an area for a core, unless it has one (R276). -/
def giveCoreArea (s : State) (lid core : Nat) : State :=
  let die := dieOfCore core
  let d := dieOf s die
  if d.coreAreas.any fun a => a.1 == lid && a.2.1 == core then s
  else
    match (List.range (min (coreAreaRoom d) (d.coreAreas.length + 1))).find? fun n => !(d.coreAreas.any fun a => a.2.2 == n) with
    | some n => setDie s die { d with coreAreas := d.coreAreas ++ [(lid, core, n)] }
    | none => s

/-! ### Placement -/

/-- What a role of a launch uses. -/
def useOf (l : Launch) (num : Nat) : RoleUse :=
  ((roleUses l.p).find? fun u => u.role == roleOf l.p num).getD { role := 0, waves := 0, a := 0, b := 0, entry := 0 }

/-- A carved wave (R33, R126, R202): its registers are reserved and its state at release is ready. -/
def carve (lid : Nat) (l : Launch) (party num : Nat) : Wave :=
  let u := useOf l num
  { Wave.init with
    lid := lid
    party := party
    num := num
    role := u.role
    aAllot := u.a
    bAllot := u.b
    st := .carved
    pc := u.entry
    lfsr := Lanes.of fun i => lfsrSeed party num i.val }

/-- Put the waves of a party into slots of a core. -/
def putWaves (lid : Nat) (l : Launch) (party core : Nat) : List Nat → Nat → State → State
  | [], _, s => s
  | slot :: t, num, s =>
    putWaves lid l party core t (num + 1)
      (giveArea (setWave s (16 * core + slot) (carve lid l party num)) (dieOfCore core) lid party num)

/-- The share of a launch that is new on a core: its request is its granted floor (R284). -/
def newShare (s : State) (l : Launch) (c : Core) : Share :=
  { Share.init with window := launchWindow l, unit := (lowRun c l.p.region).getD 0, units := l.p.region, req := (granted s l).1 }

/-- Add the share of a launch to a core, and its constants; nothing where the launch already stands there. -/
def joinCore (s : State) (lid : Nat) (l : Launch) (core : Nat) : Option (Nat × Nat) × State :=
  if (Tab.find (coreOf s core).shares lid).isSome then (none, s)
  else
    let sh := newShare s l (coreOf s core)
    copyConsts (giveCoreArea (modCore s core fun c => { c with shares := Tab.put c.shares lid sh }) lid core) lid l core

/-- The tile engine of a core becomes a party's (R139, R142, R147). -/
def joinTile (c : Core) (lid party : Nat) : Core := { dropTile c with tile := some (lid, party), slerr := 0 }

/-- Counters and translations of a core at a launch's placement or resumption there (R188, R212): the attribute TLB is empty, the core
has refreshed, and the throttle, the samples and the launch's prefetch counts start again (R289, R290, R295). -/
def freshCore (s : State) (core lid : Nat) : State :=
  modShare (modCore (refresh s core) core fun c => { c with
    atlb := []
    whled := 0
    ramp := 7
    allow := 0
    rampCyc := min c.rampCyc 1
    stallSeq := 0
    stallIssue := 0
    stallMem := 0
    smpCyc := 0
    smpIssue := 0
    smpMem := 0 }) core lid fun x => { x with pfissued := 0, pfuseful := 0, pflate := 0, pfLines := [] }

/-- Convoy entries for the descriptors of a launch (R256), with what each starts with. -/
def cvMembers (l : Launch) (d : CvDesc) : List (Nat × Nat) :=
  (List.range d.nparty).flatMap fun p => (cvWaves l.p d).map fun w => (d.first + p, w)

def mapConvoys (lid : Nat) (l : Launch) : List CvDesc → List Nat → State → State
  | d :: t, e :: es, s =>
    let c : Convoy := {
      lid := lid
      index := d.index
      members := cvMembers l d
      arrived := [], reported := [], retired := [], phase := 0, syncs := [], past := [] }
    mapConvoys lid l t es (modLaunch { s with convoys := Tab.put s.convoys e c } lid fun x => { x with cvmap := Tab.put x.cvmap d.index e })
  | _, _, s => s

/-- Convoys are mapped at the launch's first placement. -/
def firstConvoys (s : State) (lid : Nat) (l : Launch) : State :=
  if l.placed = 0 then mapConvoys lid l l.cvs (freeConvoys s l.die) s else s

/-- Carry out a placement on a core that the launch stands on. -/
def placeOn (s : State) (lid : Nat) (l : Launch) (core : Nat) : State :=
  let party := l.placed
  let slots := (freeSlots s core).take (partyWaves l.p)
  let tile := l.p.flags.getLsbD 4
  let s1 := firstConvoys s lid l
  let n := partyWaves l.p
  let s2 := setParty s1 lid party { core := core, waves := n, prod := l.p.pwaves != 0, tile := tile, released := false, left := n, ms := [], acq := [] }
  let s3 := putWaves lid l party core slots 0 s2
  let s4 := if tile then modCore s3 core fun c => joinTile c lid party else s3
  retarget (freshCore (modLaunch s4 lid fun x => { x with placed := x.placed + 1 }) core lid) core

/-- PARTY_PLACE (R258): the next party of a launch goes to the lowest core of its die that fits it; a launch page or constants page
that fails kills the launch instead (R114, R273). -/
def execPartyPlace (lid : Nat) (s : State) : Out :=
  match launchOf s lid with
  | none => notEnabled
  | some l =>
    if !wantsPlace s lid l || !dieServes s l || (l.placed == 0 && decide ((freeConvoys s l.die).length < l.cvs.length)) then notEnabled
    else
      match chooseCore s lid l l.die with
      | none => notEnabled
      | some core =>
        let v := checkLaunch s lid l
        let l1 := (launchOf v.2 lid).getD l
        let j := if v.1.isSome then v else joinCore (wake v.2 core) lid l1 core
        match j.1 with
        | some (c, d) => done (killLaunch j.2 lid c l.die 0xFF 0xFF 0 d)
        | none => done (placeOn j.2 lid ((launchOf j.2 lid).getD l1) core)

/-! ### Release (R33, R35) -/

/-- Every party with a member in a convoy of the wave has been placed. -/
def convoysPlaced (l : Launch) (w : Wave) : Bool :=
  l.cvs.all fun d => !(d.waves.getLsbD w.num && decide (d.first ≤ w.party ∧ w.party < d.first + d.nparty)) || decide (d.first + d.nparty ≤ l.placed)

/-- WAVE_RELEASE. -/
def execWaveRelease (wid : Nat) (s : State) : Out :=
  match waveOf s wid with
  | none => notEnabled
  | some w =>
    match launchOf s w.lid with
    | none => notEnabled
    | some l =>
      if w.st == .carved && convoysPlaced l w then
        done (modParty (setWave s wid { w with st := .running, age := 0 }) w.lid w.party fun p => { p with released := true })
      else notEnabled

/-- EXPOSED_RESULT_LAND (R65): the windows whose bound has run out. -/
def execExposedResultLand (wid : Nat) (s : State) : Out :=
  match waveOf s wid with
  | none => notEnabled
  | some w => if w.wins.any fun x => x.left == 0 then done (setWave s wid (landDone w)) else notEnabled

/-! ### Retirement (R49) -/

/-- Identifier that an access keeps when its wave has gone. -/
def nobody : Nat := 1000000

/-- A plain store that only a later publication can commit (R211): it does not hold its wave. -/
def leftBehind (a : Acc) : Bool :=
  a.scope.isPlain && (a.kind == .store || a.kind == .tstore) && a.epoch.isNone && a.resolved && !a.held && !a.unrecorded && !a.loc &&
    (a.kind == .store || a.accepted)

/-- The wave's own operations have completed. -/
def wavesWorkDone (s : State) (wid : Nat) (w : Wave) : Bool :=
  w.wins.isEmpty && (s.acc.all fun e => e.2.wid != wid || leftBehind e.2) && (s.copies.all fun e => e.2.wid != wid) &&
    (s.pops.all fun e => e.2.wid != wid) && (s.streams.all fun e => e.2.pend.all fun p => p.wid != wid || p.lid != w.lid) &&
    ((coreOf s (coreNo wid)).pilot.all fun p => p.wid != wid) && !inInvpg s wid && (s.rels.all fun e => e.2.wid != wid)

/-- The operand slots that a wave holds claimed. -/
def ownSlots (s : State) (wid : Nat) (w : Wave) : List Nat :=
  if (coreOf s (coreNo wid)).tile = some (w.lid, w.party) then
    (List.range 32).filter fun o => (entryOf s (coreNo wid) o).claimed && (entryOf s (coreNo wid) o).owner == w.num
  else []

/-- The slots of a wave can be released as though by TREL: each is empty, or ready with no reader (R49, R144). -/
def slotsRest (s : State) (wid : Nat) (w : Wave) : Bool :=
  (ownSlots s wid w).all fun o => let e := entryOf s (coreNo wid) o; e.st == .empty || (e.st == .ready && e.readers == 0)

/-- The wave counts as arrived from now on in each of its convoys (R36). -/
def leaveConvoys (s : State) (w : Wave) : State :=
  { s with convoys := s.convoys.map fun e =>
      (e.1, if e.2.lid == w.lid && e.2.members.contains (member w) && !e.2.retired.contains (member w) then
        { e.2 with retired := e.2.retired ++ [member w] } else e.2) }

/-- A launch with no wave left on a core leaves it (R236, R284). -/
def leaveIfLast (s : State) (core lid : Nat) : State :=
  if (wavesOn s core).any fun e => e.2.lid == lid then s else retarget (modCore s core (leaveCore lid)) core

/-- A party retires when its last wave has (R49): registers, milestones and the tile engine are freed. -/
def retireParty (s : State) (core lid party : Nat) : State :=
  let s1 := { s with
    waves := s.waves.filter fun e => !(e.2.lid == lid && e.2.party == party)
    parties := Tab.del s.parties (partyKey lid party) }
  let s2 := if (coreOf s1 core).tile = some (lid, party) then modCore s1 core dropTile else s1
  let s2 := { s2 with cores := s2.cores.map fun e => (e.1, freeHolds (· == (lid, party)) e.2) }
  leaveIfLast (modLaunch s2 lid fun l => { l with retired := l.retired + 1 }) core lid

/-- What a retired wave leaves: its landing buffers have another owner (R236), and its route has moved (R241). -/
def leaveWave (s : State) (wid : Nat) (w : Wave) : State :=
  modShare { s with routes := s.routes.map fun e => (e.1, if e.2.lids.contains w.lid then { e.2 with stirred := ticks s } else e.2) }
    (coreNo wid) w.lid fun x => { x with owners := x.owners.filter fun e => e.2 != wid }

/-- A wave retires. -/
def retireWave (s : State) (wid : Nat) (w : Wave) : State :=
  let core := coreNo wid
  let s1 := (ownSlots s wid w).foldl (freeTile core) s
  let s2 := leaveConvoys { s1 with acc := s1.acc.map fun e => (e.1, if e.2.wid = wid then { e.2 with wid := nobody } else e.2) } w
  let s3 := unpin (setWave (leaveWave s2 wid w) wid { w with st := .retired, tok := none, missed := false }) wid
  match partyOf s3 w.lid w.party with
  | none => s3
  | some p =>
    let s4 := setParty s3 w.lid w.party { p with left := p.left - 1 }
    if p.left ≤ 1 then retireParty s4 core w.lid w.party else s4

/-- WAVE_RETIRE. -/
def execWaveRetire (wid : Nat) (s : State) : Out :=
  match waveOf s wid with
  | none => notEnabled
  | some w => if w.exiting && !w.sup && w.st == .running && w.stopping.isNone && wavesWorkDone s wid w && slotsRest s wid w then done (retireWave s wid w) else notEnabled

/-! ### Completion (R19) -/

/-- A store of the launch remains in a late-fault store buffer. -/
def storeHeld (s : State) (lid : Nat) : Bool :=
  s.acc.any fun e => e.2.lid == lid && !e.2.loc && (e.2.kind == .store || e.2.kind == .tstore) && (e.2.held || !e.2.resolved)

/-- A route ends: its packet completes, and its rings and what they lodged go (R39, R240). -/
def endRoute (s : State) (k : Nat) (e : Nat × Route) : State :=
  let back := (s.streams.filter fun x => e.2.lids.contains x.2.sLid).foldl (fun a x => a + x.2.lodged.length * (x.2.size / 4096)) 0
  modFunc (modQueue { s with
    routes := Tab.del s.routes e.1
    streams := s.streams.filter fun x => !e.2.lids.contains x.2.sLid } k fun q => completePkt q e.2.pkt) e.2.vf
    fun f => { f with lodgeUse := f.lodgeUse - back }

/-- A stage is complete; the route with it when it was the last. -/
def completeStage (s : State) (k lid : Nat) : State :=
  match s.routes.find? fun e => e.2.lids.contains lid with
  | none => s
  | some e =>
    let r := { e.2 with done := e.2.done ++ [lid] }
    if r.lids.all fun x => r.done.contains x then endRoute s k (e.1, r) else { s with routes := Tab.put s.routes e.1 r }

/-- The launch's energy goes to its slot (R251, R295). -/
def writeEnergy (s : State) (lid : Nat) (l0 : Launch) : State :=
  let l := (launchOf s lid).getD l0
  if l.p.energy = 0 then s
  else
    let r := asidWrite s l.asid l.p.energy (leBytes 8 l.energy)
    r.1.getD r.2

/-- LAUNCH_COMPLETE: the launch is charged for what it drew since the last sample, the packet completes after the energy slot is written,
and convoys and areas are freed (R34, R276, R295). -/
def execLaunchComplete (lid : Nat) (s : State) : Out :=
  match launchOf s lid with
  | none => notEnabled
  | some l =>
    if l.st == .accepted && l.retired == l.p.parties && !storeHeld s lid then
      let k := queueOfLaunch l
      let s1 := writeEnergy (chargeLaunch s lid l) lid l
      let s2 := modLaunch { s1 with
        convoys := s1.convoys.filter fun e => e.2.lid != lid
        dies := s1.dies.map fun e => (e.1, leaveDie lid e.2) } lid fun x => { x with st := .complete }
      done (completeStage (modQueue s2 k fun q => completePkt q l.pkt) k lid)
    else notEnabled

end Sys2Proof.Machine
end

