-- ==== Sys2Proof/Machine/Preempt.lean ====
section
/-! DEFINITION. Time slices (R261), the stop of a body for pre-emption (R45, R46, R62, R63, R275), its save areas (R276, R277), its
resumption and migration (R64, R278, R279), and halts for the debugger (R280 to R282). -/

namespace Sys2Proof.Machine

/-! ### Which bodies can be stopped -/

/-- The unretired waves of a launch. -/
def liveWaves (s : State) (lid : Nat) : List (Nat × Wave) := (wavesOf s lid).filter fun e => e.2.st != .retired

/-- The cores of a launch. -/
def coresOf (s : State) (lid : Nat) : List Nat := (s.cores.filter fun e => (Tab.find e.2.shares lid).isSome).map (·.1)

/-- The save area of a core of a launch, as a device location (R276). -/
def coreArea (s : State) (core lid : Nat) : Option Nat :=
  ((dieOf s (dieOfCore core)).coreAreas.find? fun a => a.1 == lid && a.2.1 == core).map fun a =>
    Config.nearBase (dieOfCore core) + Config.ctxBase + Config.ctxSize - 1048576 * (a.2.2 + 1)

/-- A body holds no halted wave, and the context region has room for it (R275, R276). -/
def canStop (s : State) (lid : Nat) : Bool :=
  ((liveWaves s lid).all fun e => e.2.st != .halted && (waveArea s e.1 e.2).isSome) && (coresOf s lid).all fun c => (coreArea s c lid).isSome

/-- The launch has waves resident. -/
def resident (s : State) (lid : Nat) : Bool := !(wavesOf s lid).isEmpty

/-- Post a request to every core of a body (R275 step 1). -/
def postRequest (s : State) (lid : Nat) : State :=
  modLaunch { s with waves := s.waves.map fun e =>
      (e.1, if e.2.lid = lid ∧ e.2.st ≠ .retired then { e.2 with preempt := true, watchdog := 0 } else e.2) } lid
    fun l => { l with stopping := true }

/-! ### The incoming function (R261) -/

/-- A function's launches that wait for a die, oldest first. -/
def waitingLaunches (s : State) (vf die : Nat) : List (Nat × Launch) :=
  s.launches.filter fun e => e.2.vf == vf && e.2.die == die && wantsPlace s e.1 e.2

/-- A function has something waiting on a die. -/
def waitsOn (s : State) (vf die : Nat) : Bool := bodyWaits s vf die || !(waitingLaunches s vf die).isEmpty

/-- The next function in ascending order, with wrap-around, that waits. -/
def nextFunc (s : State) (die vf : Nat) : Option Nat := ((List.range 15).map fun i => (vf + 1 + i) % 16).find? fun v => waitsOn s v die

/-- A saved unit of a body fits a core that does not hold another unit of it: the parties of one core stay together (R258, R278). -/
def fitsUnit (s : State) (lid : Nat) (b : SavedCore) (core : Nat) : Bool :=
  let c := coreOf s core
  let a := b.waves.foldl (fun n e => n + e.2.aAllot) 0
  let bb := b.waves.foldl (fun n e => n + e.2.bAllot) 0
  (Tab.find c.shares lid).isNone && decide (b.waves.length ≤ (freeSlots s core).length) && decide (usedA s core + a ≤ 1024) && decide (usedB s core + bb ≤ 1024) &&
    decide (usedWindow c + b.share.window ≤ 512) && (lowRun c b.share.units).isSome && !(b.tile.isSome && c.tile.isSome)

def unitCore (s : State) (lid : Nat) (b : SavedCore) (die : Nat) : Option Nat := ((List.range 32).map (32 * die + ·)).find? (fitsUnit s lid b)

/-! ### Resumption (R278) -/

/-- The registers and outbound endpoints outside a saved set become undefined (R62, R63). -/
def reduceWave (w : Wave) (mask : DWord) : Wave :=
  let lost (base g : Nat) : Bool := !mask.getLsbD (base + g)
  let dropS (t : Tab SReg) : Tab SReg := (List.range 64).foldl (fun t n => if lost 16 (n / 8) then Tab.put t n SReg.undef else t) t
  let dropK (t : Tab KReg) : Tab KReg :=
    (List.range 15).foldl (fun t n => if lost 24 (n + 1) then Tab.put t (n + 1) { val := 0, und := BitVec.allOnes 32 } else t) t
  let dropV (base : Nat) (t : Tab VReg) : Tab VReg := (List.range 64).foldl (fun t n => if lost base (n / 8) then Tab.del t n else t) t
  { w with s := dropS w.s, k := dropK w.k, a := dropV 0 w.a, b := dropV 8 w.b, epUnd := w.epUnd ||| ~~~((mask >>> 56).truncate 4) }

/-- Map an old wave slot of a body to its new one. -/
def newSlot (m : List (Nat × Nat)) (wid : Nat) : Nat := match m.find? fun e => e.1 == wid with | some e => e.2 | none => wid

/-- The wave area of a saved wave, and how it is read back: registers from the area, but for what is undefined. -/
def reload (s : State) (wid : Nat) (w : Wave) : Wave :=
  match w.stopping with
  | some m =>
    let r := reduceWave (readArea s wid w) m
    { r with pc := w.pc, sup := false, h := r.h, stopping := none }
  | none => w

/-- The area bytes of a wave move with it to another die (R279). -/
def moveArea (s : State) (old wid : Nat) (w : Wave) : State :=
  match waveArea s old w, waveArea s wid w with
  | some a, some b => if a = b then s else devWrite s b (devBytes s a 32768)
  | _, _ => s

/-- A wave as it stands after resumption (R48, R262): back to running or to its wait. Its yielded mark, if it had one, has ended: the waves that
it names are those of a core that it has left (R47 does not list this end; DESIGN CHOICE, log 68). -/
def resumed (s : State) (w : Wave) : Wave :=
  { w with
    st := if w.st = .retired ∨ w.st = .carved then w.st else w.back
    back := if w.back = .waiting then .running else w.back
    preempt := false
    watchdog := 0
    age := 0
    withheld := 0
    exempt := false
    yielded := none
    tok := none
    missed := false
    wait := w.wait.map fun x => { x with since := ticks s } }

/-- Where a record stands once its wave's area has moved: one written elsewhere stays there (R202). -/
def movedRec (old new : Option Nat) (r : FRec) : FRec :=
  match old, new, r.loc with
  | some a, some b, some p => if a ≤ p ∧ p < a + 32768 then { r with loc := some (b + (p - a)) } else r
  | _, _, _ => r

/-- Put the waves of a unit into their slots, and list the moves. -/
def loadWaves (core : Nat) : List (Nat × Wave) → List Nat → State → State × List (Nat × Nat)
  | (old, w) :: t, slot :: ts, s =>
    let wid := 16 * core + slot
    let s1 := if dieNo old = dieNo wid then s else moveArea (giveArea s (dieNo wid) w.lid w.party w.num) old wid w
    let w1 := reload s1 wid w
    let w2 := resumed s { w1 with recs := w1.recs.map fun r => (r.1, movedRec (waveArea s1 old w) (waveArea s1 wid w) r.2) }
    let r := loadWaves core t ts (setWave s1 wid w2)
    (r.1, (old, wid) :: r.2)
  | _, _, s => (s, [])

/-- The areas of the cores of a body go on with its units, all at once, to other cores of the die; a new die gives new ones (R276). `m` maps
the cores of one die, where the body was saved, to those of another. -/
def moveCoreAreas (s : State) (lid old new : Nat) (m : List (Nat × Nat)) : State :=
  if old = new then
    modDie s new fun d => { d with coreAreas := d.coreAreas.map fun a => if a.1 = lid then (lid, newSlot m a.2.1, a.2.2) else a }
  else m.foldl (fun t e => giveCoreArea t lid e.2) s

/-- A launch that has ended, killed while its body was being loaded. -/
def launchEnded (s : State) (lid : Nat) : Bool := match launchOf s lid with | some l => l.st != .accepted | none => true

/-- Load one unit into a core (R278 steps 1, 3, 4 and 5), with what its waves' accesses follow (R221, R222); a page that the Ostler finds bad while it preloads kills the launch (R114). -/
def loadUnit (s : State) (lid : Nat) (l : Launch) (b : SavedCore) (core : Nat) : State × List (Nat × Nat) :=
  let s0 := wake s core
  let c := coreOf s0 core
  let unit := (lowRun c b.share.units).getD 0
  let slots := freeSlots s0 core
  let m := b.waves.map (·.1) |>.zip (slots.map (16 * core + ·))
  let sh := { b.share with
    unit := unit
    req := (granted s0 l).1
    owners := b.share.owners.map fun e => (e.1, newSlot m e.2) }
  let s1 := modCore s0 core fun c => { c with shares := Tab.put c.shares lid sh }
  let sp := preload core b.dict s1
  if launchEnded sp lid then (sp, []) else
  let s2 := eccPadClear (padWrite sp core (6144 * unit) ((List.range (6144 * b.share.units)).map fun i => Tab.findD b.pad i 0)) core
    (6144 * unit) (6144 * b.share.units)
  let s3 := match b.tile with
    | none => s2
    | some t => modCore s2 core fun c => { joinTile c t.1 t.2 with
        slerr := b.slerr
        pilot := b.pilot.map fun p => { p with wid := newSlot m p.wid }
        accs := b.accs
        parts := b.parts
        images := b.images
        table := b.table }
  let s4 := modCore (takeView s3 core (joinView s3 (ownView s3 core) b.view)) core fun c => { c with gone := joinClock c.gone b.did }
  let r := loadWaves core b.waves slots s4
  (freshCore r.1 core lid, r.2)

/-- Load the units of a body in order; none where one does not fit. -/
def loadUnits (lid : Nat) (l : Launch) (die : Nat) : List SavedCore → State → Option (State × List (Nat × Nat))
  | [], s => some (s, [])
  | b :: t, s =>
    match unitCore s lid b die with
    | none => none
    | some core =>
      let r := loadUnit s lid l b core
      if launchEnded r.1 lid then some r else (loadUnits lid l die t r.1).map fun x => (x.1, r.2 ++ x.2)

/-- Entries of a die for the convoys of a body (R278 step 2): pairs of old and new keys. -/
def convoyMoves (s : State) (die : Nat) (cs : List (Nat × Convoy)) : List (Nat × Nat) := (cs.map (·.1)).zip (freeConvoys s die)

/-- Put a body's convoys into their new entries, with their phases and arrivals. -/
def putConvoys (lid : Nat) (m : List (Nat × Nat)) : List (Nat × Convoy) → State → State
  | [], s => s
  | (old, c) :: t, s =>
    let e := newSlot m old
    putConvoys lid m t (modLaunch { s with convoys := Tab.put s.convoys e c } lid fun l => { l with cvmap := Tab.put l.cvmap c.index e })

/-- A wait of a resumed wave names its convoy by the new entry. -/
def moveWait (m : List (Nat × Nat)) (w : Wave) : Wave :=
  let f := fun (x : Waiting) => match x.on with
    | .bar e n => { x with on := .bar (newSlot m e) n }
    | _ => x
  { w with wait := w.wait.map f, outer := w.outer.map f }

/-- An access of a resumed body under its new slot; a watch is evaluated afresh (R275), and a tile store that the Pilot has still to fill
is translated again. -/
def resumedAcc (m : List (Nat × Nat)) (a : Acc) : Acc :=
  let b := { a with wid := newSlot m a.wid, core := coreNo (newSlot m a.wid) }
  if (a.kind == .watch || a.kind == .tstore) && a.pageable then
    { b with pieces := a.pieces.map fun p => if p.fault.isNone then { p with pa := none } else p, resolved := false }
  else b

/-- What the rest of the part holds of a resumed body: its waves, accesses, copies, pops and pushes under their new slots. -/
def rename (s : State) (lid : Nat) (b : Body) (m cm : List (Nat × Nat)) : State :=
  { s with
    waves := s.waves.map fun e => (e.1, if e.2.lid = lid then moveWait cm e.2 else e.2)
    acc := b.accs.foldl (fun t e => Tab.put t e.1 (resumedAcc m e.2)) s.acc
    copies := b.copies.foldl (fun t e => Tab.put t e.1 { e.2 with wid := newSlot m e.2.wid, core := coreNo (newSlot m e.2.wid) }) s.copies
    pops := s.pops.map fun e => (e.1, if e.2.lid = lid then { e.2 with wid := newSlot m e.2.wid, core := coreNo (newSlot m e.2.wid) } else e.2)
    streams := s.streams.map fun e =>
      let pend := e.2.pend.map fun p => if p.lid = lid then { p with wid := newSlot m p.wid, core := coreNo (newSlot m p.wid) } else p
      (e.1, { e.2 with pend := pend }) }

/-- The slots that an endpoint of the area's stream state names as acquired: those of the party where the two agree (R276). -/
def acqFrom (old : List Nat) (slots first n : Nat) : List Nat :=
  if old.headD 0 = first ∧ old.length = n then old else (List.range n).map fun i => (first + i) % max slots 1

/-- A party takes the stream state of an area: its acquired slots (R276). -/
def loadStreams (s : State) (lid party : Nat) (bs : List Byte) : State :=
  modParty s lid party fun p => { p with acq := (List.range 4).foldl (fun t e =>
    let v := leNat ((bs.drop (4 + 4 * e)).take 4)
    let slots := match streamOf s lid false (4 + e) with | some x => x.2.slots | none => 256
    Tab.put t (4 + e) (acqFrom (Tab.findD t (4 + e) []) slots (v % 256) (v / 256 % 512))) p.acq }

/-- The parties of a body take the stream state of their lowest-numbered waves' areas (R276). -/
def resumeStreams (s : State) (lid : Nat) : State :=
  ((s.parties.filter fun e => e.1 / 65536 == lid).map fun e => e.1 % 65536).foldl (fun a party =>
    match best (fun x y => decide (x.2.num < y.2.num)) ((wavesOf a lid).filter fun e => e.2.party == party && e.2.st != .carved && e.2.st != .retired) with
    | some e => (match waveArea a e.1 e.2 with
      | some loc => loadStreams a lid party (devBytes a (loc + 0x58) 40)
      | none => a)
    | none => a) s

/-- Parties stand where their waves do. -/
def reparty (s : State) (lid : Nat) : State :=
  (wavesOf s lid).foldl (fun a e => modParty a lid e.2.party fun p => { p with core := coreNo e.1 }) s

/-- The state after a body has resumed on a die, or after a preload has killed it; none where it does not fit there. -/
def resumeBody (s : State) (lid : Nat) (l : Launch) (b : Body) (die : Nat) : Option State :=
  if (freeConvoys s die).length < b.convoys.length then none
  else
    match loadUnits lid { l with die := die } die b.cores s with
    | none => none
    | some r =>
      if launchEnded r.1 lid then some r.1 else
      let cm := convoyMoves s die b.convoys
      let s1 := rename (putConvoys lid cm b.convoys (moveCoreAreas r.1 lid b.die die (r.2.map fun e => (coreNo e.1, coreNo e.2)))) lid b r.2 cm
      let s2 := if die = b.die then s1 else modDie s1 b.die (leaveDie lid)
      let s3 := resumeStreams (reparty { s2 with bodies := Tab.del s2.bodies lid } lid) lid
      let s4 := modLaunch s3 lid fun l => { l with die := die, saved := false, stopping := false }
      some ((coresOf s4 lid).foldl retarget s4)

/-- A body may move to another die (R279). -/
def mayMigrate (l : Launch) (b : Body) : Bool :=
  (l.img.segs.all fun g => !segValid g || segFar g) && l.p.route == 0 && b.copies.all fun e => e.2.kind != .cast

/-- BODY_RESUME (R278, R279): bodies of the function that holds the die, and those stopped for a checkpoint. -/
def execBodyResume (lid : Nat) (die : BitVec 3) (s : State) : Out :=
  match launchOf s lid, Tab.find s.bodies lid with
  | some l, some b =>
    if l.st == .accepted && !(dieOf s die.toNat).off && s.sec.ckpt.isNone && ((dieOf s die.toNat).granted == l.vf || b.byCkpt) &&
        (die.toNat == b.die || mayMigrate l b) then
      match resumeBody s lid l b die.toNat with
      | some t => done t
      | none => notEnabled
    else notEnabled
  | _, _ => notEnabled

/-! ### Slices and requests -/

/-- The incoming function's oldest waiting work fits as the die stands: its saved bodies come before its new launches. -/
def incomingFits (s : State) (vf die : Nat) : Bool :=
  match s.bodies.find? fun e => e.2.die == die && match launchOf s e.1 with | some l => l.vf == vf | none => false with
  | some e => (match launchOf s e.1 with
    | some l => (resumeBody s e.1 l e.2 die).isSome
    | none => false)
  | none =>
    match waitingLaunches s vf die with
    | e :: _ => (chooseCore s e.1 e.2 die).isSome && !(e.2.placed == 0 && decide ((freeConvoys s die).length < e.2.cvs.length))
    | [] => true

/-- Launches resident on a die. -/
def onDie (s : State) (die : Nat) : List (Nat × Launch) := s.launches.filter fun e => e.2.st == .accepted && e.2.die == die && resident s e.1

/-- SLICE_END (R261): the die passes to the next function that waits; no pass while a body on it cannot be stopped (R275, R276). -/
def execSliceEnd (die : BitVec 3) (s : State) : Out :=
  let d := dieOf s die.toNat
  if ticks s < d.sliceEnd ∨ d.off ∨ (onDie s die.toNat).any fun e => !canStop s e.1 then notEnabled
  else
    match nextFunc s die.toNat d.granted with
    | none => notEnabled
    | some v => done (setDie s die.toNat { d with granted := v, outgoing := d.granted, sliceEnd := ticks s + (funcOf s v).weight * s.quantum })

/-- The outgoing function's launches that can be asked to stop, newest first. -/
def toStop (s : State) (die : Nat) : List Nat :=
  (((onDie s die).filter fun e => e.2.vf == (dieOf s die).outgoing && !e.2.stopping && canStop s e.1).map (·.1)).reverse

/-- PREEMPT_REQUEST (R261, R275): one body after another of the outgoing function, until the incoming work fits. -/
def execPreemptRequest (lid : Nat) (s : State) : Out :=
  match launchOf s lid with
  | none => notEnabled
  | some l =>
    let d := dieOf s l.die
    if d.granted != d.outgoing && (toStop s l.die).head? == some lid && !((onDie s l.die).any fun e => e.2.stopping) &&
        waitsOn s d.granted l.die && !incomingFits s d.granted l.die then done (postRequest s lid)
    else notEnabled

/-! ### Stopping (R275 steps 2 and 3) -/

/-- A tile store that the Pilot has still to fill, and that no publication has taken: it rests with the Pilot's operation (R149). -/
def restsWithPilot (s : State) (id : Nat) (a : Acc) : Bool :=
  a.epoch.isNone && !a.held && !a.unrecorded && (coreOf s a.core).pilot.any fun p => match p.op with | .quant _ _ n => n == id | _ => false

/-- An access that a stop does not wait for: stores that have been translated, a watch, and lanes or tiles that queued records hold. -/
def restsAtStop (s : State) (id : Nat) (a : Acc) : Bool :=
  match a.kind with
  | .store => a.resolved && !a.held
  | .tstore => (a.resolved && !a.held && a.accepted) || restsWithPilot s id a
  | .watch => true
  | .tload => !a.loc && !a.unrecorded && a.resolved && a.pieces.any fun p => p.fault.isSome
  | _ => !a.loc && !a.unrecorded && a.pieces.all fun p => p.fault.isSome

/-- The Pilot of a wave's party stands at a multiple of 64 steps (R149). -/
def pilotRests (s : State) (wid : Nat) (w : Wave) : Bool :=
  (coreOf s (coreNo wid)).tile != some (w.lid, w.party) || !pilotOwes s (coreNo wid) &&
    match (coreOf s (coreNo wid)).pilot with
    | [] => true
    | p :: _ => p.step % 64 == 0 && p.step < p.steps

/-- A wave's work has drained (R275 step 3); a pop that has acquired its slot ends first. -/
def stopDrained (s : State) (wid : Nat) (w : Wave) : Bool :=
  (s.acc.all fun e => e.2.wid != wid || restsAtStop s e.1 e.2) && (s.copies.all fun e => e.2.wid != wid || e.2.faulted) &&
    (s.pops.all fun e => e.2.wid != wid || e.2.slot.isNone) && pilotRests s wid w

/-- The pop of a wave has acquired its slot: its wait is ending. -/
def popEnds (s : State) (x : Waiting) : Bool :=
  match x.on with
  | .mspop id => (match Tab.find s.pops id with | some p => p.slot.isSome | none => true)
  | _ => false

/-- The live mask of a safe point that the wave has reached (R45): a safe-point token whose bundle waits for nothing (R40), or a blocking
wait in an SP = 1 bundle. -/
def safePoint (s : State) (wid : Nat) (w : Wave) : Option DWord :=
  match w.stopping with
  | some m => some m
  | none =>
    match w.st, w.wait with
    | .running, _ =>
      if w.waitCnt = 0 ∧ !w.exiting ∧ !heldNow s wid w then
        (match nextBundle s wid w with
        | some (t, b) => if tokenBad t b then none else t.mask
        | none => none)
      else none
    | .waiting, some x => if x.sp ∧ w.back = .running ∧ !popEnds s x then some x.mask else none
    | _, _ => none

/-- Stop a wave: its windows close (R71). -/
def stopWave (s : State) (wid : Nat) (w : Wave) (m : DWord) : State :=
  unpin (setWave s wid { drainWins w with st := .stopped, back := w.st, stopping := some m, tok := none, missed := false }) wid

/-- SAFE_POINT_STOP (R63, R275): the wave reaches its safe point and waits there, in a blocking wait too, then stops once its work has
drained; a store record traps first. -/
def execSafePointStop (wid : Nat) (s : State) : Out :=
  match waveOf s wid with
  | none => notEnabled
  | some w =>
    if !w.preempt || w.sup || inInvpg s wid || !(w.st == .running || w.st == .waiting) then notEnabled
    else
      match safePoint s wid w with
      | none => notEnabled
      | some m =>
        if !storeRec w && stopDrained s wid w then done (stopWave s wid w m)
        else if w.stopping.isNone then done (setWave s wid { w with stopping := some m })
        else notEnabled

/-- WATCHDOG_EXPIRY (R46). -/
def execWatchdogExpiry (wid : Nat) (s : State) : Out :=
  match waveOf s wid with
  | none => notEnabled
  | some w =>
    match launchOf s w.lid with
    | none => notEnabled
    | some l =>
      if w.preempt && w.st != .stopped && w.st != .halted && w.st != .retired && decide (2 ^ l.htab.wd ≤ w.watchdog) then
        done (killWave s wid w 0x0E w.pc 0)
      else notEnabled

/-! ### The save (R275 to R277) -/

/-- The safe-point bundle of a stopped wave. -/
def stopPc (w : Wave) : Word := match w.wait with | some x => x.here | none => w.pc

/-- Accumulators (0 to 15) and partials (16 to 23) that a unit keeps: those that the Pilot's operations name or a live mask covers. -/
def keptTiles (s : State) (core lid party : Nat) : List Nat :=
  let ws := (wavesOn s core).filter fun e => e.2.lid == lid && e.2.party == party
  let named := (coreOf s core).pilot.flatMap fun p => pilotUse p.op
  (List.range 24).filter fun n => named.contains n || ws.any fun e => match e.2.stopping with
    | some m => m.getLsbD (if n < 16 then 40 + n / 2 else 32 + n)
    | none => false

/-- The list of resident entries of a launch, most recent first (R64). -/
def dictList (c : Core) (lid : Nat) : List DKey := (c.dtab.filter fun d => d.key.lid == lid).map (·.key)

/-- The parties of a launch on a core, with their wave slots (R277). -/
def partySlots (s : State) (lid core : Nat) : List (Nat × List Nat) :=
  let ws := (wavesOn s core).filter fun e => e.2.lid == lid
  (distinct (ws.map fun e => e.2.party)).map fun p => (p, (ws.filter fun e => e.2.party == p).map fun e => slotNo e.1)

/-- A unit as the Innkeeper and the areas hold it. -/
def saveUnit (s : State) (lid core : Nat) : SavedCore :=
  let c := coreOf s core
  let mine := (c.tile.map (·.1)) == some lid
  let kept := keptTiles s core lid (match c.tile with | some t => t.2 | none => 0)
  let sh := Tab.findD c.shares lid Share.init
  let claimed := fun o => (entryOf s core o).claimed
  { old := core, view := ownView s core, did := tickTo c.gone core s.nextId, share := sh, dict := dictList c lid,
    waves := (wavesOn s core).filter fun e => e.2.lid == lid,
    tile := if mine then c.tile else none, slerr := if mine then c.slerr else 0, pilot := if mine then c.pilot else [],
    accs := if mine then c.accs.filter fun e => kept.contains e.1 else [],
    parts := if mine then c.parts.filter fun e => kept.contains (16 + e.1) else [],
    images := if mine then c.images.filter fun e => claimed e.1 else [], table := if mine then c.table else [],
    pad := (List.range (6144 * sh.units)).map fun i => (i, Tab.findD c.pad (6144 * sh.unit + i) 0) }

/-! The bytes of the core area (R277). -/

/-- Tile table, in the layout of TSTAT; zero where the tile party is another launch's. -/
def tableBytes (s : State) (core lid : Nat) : List Byte :=
  if ((coreOf s core).tile.map (·.1)) == some lid then rangeBytes 32 fun o => leBytes 8 (entryWord (entryOf s core o)).toNat else leBytes 256 0

/-- An element of an accumulator or partial: free where it is undefined. -/
def accImage (s : State) (tag : Nat) (t : Tab TileRows) (n : Nat) : List Byte :=
  rangeBytes 32 fun i => rangeBytes 32 fun j => leBytes 4 (match Tab.find (Tab.findD t n []) i with
    | some v => if v.und.getLsbD j then (free s (tag + 1024 * n + 32 * i + j)).truncate 32 else v.val.at j
    | none => (free s (tag + 1024 * n + 32 * i + j)).truncate 32).toNat

/-- Milestone counters of the parties on the core, in ascending order of parties. -/
def msBytes (s : State) (core lid : Nat) : List Byte :=
  let ps := (s.parties.filter fun e => e.1 / 65536 == lid && e.2.core == core).map (·.2)
  rangeBytes 16 fun i => rangeBytes 8 fun n => match ps[i]? with
    | some p => leBytes 8 (msOf p n).count
    | none => leBytes 8 0

/-- The resident dictionary list (R277). -/
def dictBytes (l : List DKey) : List Byte :=
  rangeBytes 512 fun i => leBytes 2 (match l[i]? with
    | some k => k.idx % 16384 + (if k.hand then 16384 else 0)
    | none => 0xFFFF)

/-- The header of a core area: the bytes that its content takes are not given (R277, log 4). -/
def headerBytes (s : State) (lid core : Nat) : List Byte :=
  let mine := ((coreOf s core).tile.map (·.1)) == some lid
  (List.range 1024).map (Config.coreHeader lid (partySlots s lid core) mine (if mine then (coreOf s core).slerr else 0))

/-- Write the core area. -/
def writeCoreArea (s : State) (lid : Nat) (u : SavedCore) : State :=
  match coreArea s u.old lid with
  | none => s
  | some loc =>
    let s1 := devWrite s loc (headerBytes s lid u.old)
    let s2 := devWrite s1 (loc + 0x400) (msBytes s u.old lid ++ dictBytes u.dict ++ tableBytes s u.old lid ++ leBytes 768 0)
    let s3 := u.accs.foldl (fun a e => devWrite a (loc + 0x1000 + 4096 * e.1) (accImage s 9600000 u.accs e.1)) s2
    let s4 := u.parts.foldl (fun a e => devWrite a (loc + 0x11000 + 4096 * e.1) (accImage s 9700000 u.parts e.1)) s3
    let s5 := u.images.foldl (fun a e => devWrite a (loc + 0x19000 + 4160 * e.1) (slotBytes s u.old e.1 0 4160 (9800000 + 8192 * e.1))) s4
    devWrite s5 (loc + 0x40000) ((List.range (6144 * u.share.units)).map fun i => Tab.findD u.pad i 0)

/-- Every wave of a body has stopped; a carved wave has issued nothing, and stands as it is. -/
def bodyStopped (s : State) (lid : Nat) : Bool :=
  (wavesOf s lid).all fun e => e.2.st == .stopped || e.2.st == .carved || e.2.st == .retired

/-- The rest of a body's work has drained: its strong accesses and releases, its copies (R244), its Pilots and their
fill-down (R289). -/
def bodyDrained (s : State) (lid : Nat) : Bool :=
  (s.acc.all fun e => e.2.lid != lid || (restsAtStop s e.1 e.2 && (e.2.scope.isPlain || !(e.2.kind == .store || e.2.kind == .tstore)))) &&
    (s.rels.all fun e => e.2.lid != lid) && (s.copies.all fun e => e.2.lid != lid || e.2.faulted) &&
    ((wavesOf s lid).all fun e => pilotRests s e.1 e.2) &&
    (coresOf s lid).all fun c => (coreOf s c).tile.map (·.1) != some lid || (coreOf s c).lastKind == 0

/-- A stopped wave as it is saved: its area is written with what its live mask names. -/
def saveWave (s : State) (e : Nat × Wave) : State :=
  if e.2.st = .stopped then
    let m := e.2.stopping.getD allLive
    let w := reduceWave e.2 m
    setWave (writeArea s e.1 { w with pc := stopPc w } .saved m) e.1 { w with st := .saved }
  else s

/-- An access stays with its body (R279), or is a plain store that its core still holds. -/
def travels (s : State) (lid : Nat) (e : Nat × Acc) : Bool :=
  e.2.lid == lid && (!(e.2.kind == .store || e.2.kind == .tstore) || restsWithPilot s e.1 e.2)

/-- The bytes of pending pushes of a saved body no longer change. -/
def fixPushes (s : State) (lid : Nat) : State :=
  { s with streams := s.streams.map fun e =>
      let pend := e.2.pend.map fun p => if p.lid = lid ∧ !p.fixed then { p with src0 := (List.range p.len).map (pushByte s p), fixed := true } else p
      (e.1, { e.2 with pend := pend }) }

/-- Take a launch off a core. -/
def vacate (lid : Nat) (s : State) (core : Nat) : State := retarget (modCore s core (leaveCore lid)) core

/-- BODY_SAVE (R275 steps 4 and 5). -/
def saveBody (s : State) (lid : Nat) (l : Launch) (ckpt : Bool) : State :=
  let cores := coresOf s lid
  let s1 := fixPushes ((wavesOf s lid).foldl saveWave s) lid
  let units := cores.map fun c => saveUnit s1 lid c
  let b : Body :=
    { lid := lid, die := l.die, cores := units, convoys := s1.convoys.filter fun e => e.2.lid == lid,
      accs := s1.acc.filter (travels s1 lid), copies := s1.copies.filter fun e => e.2.lid == lid, byCkpt := ckpt }
  let s2 := units.foldl (fun a u => writeCoreArea a lid u) s1
  let s3 := { s2 with
    waves := s2.waves.filter fun e => e.2.lid != lid
    convoys := s2.convoys.filter fun e => e.2.lid != lid
    acc := (s2.acc.filter fun e => !travels s1 lid e).map fun e => (e.1, if e.2.lid = lid then { e.2 with wid := nobody } else e.2)
    copies := s2.copies.filter fun e => e.2.lid != lid
    bodies := Tab.put s2.bodies lid b }
  modLaunch (cores.foldl (vacate lid) s3) lid fun l => { l with saved := true, stopping := false, cvmap := [] }

/-- BODY_SAVE. -/
def execBodySave (lid : Nat) (s : State) : Out :=
  match launchOf s lid with
  | none => notEnabled
  | some l =>
    if l.stopping && resident s lid && bodyStopped s lid && bodyDrained s lid && canStop s lid then
      done (saveBody s lid l s.sec.ckpt.isSome)
    else notEnabled

/-- A wave from which a request is withdrawn: one that had stopped has been saved and resumes from its area (R48). -/
def released (s : State) (wid : Nat) (w : Wave) : Wave :=
  { (if w.st = .saved then resumed s (reload s wid w) else w) with preempt := false, watchdog := 0, stopping := none }

/-- A request is withdrawn: waves that have stopped are saved and go on where they are (R48, R307). -/
def cancelStop (s : State) (lid : Nat) : State :=
  let s1 := (wavesOf s lid).foldl saveWave s
  modLaunch { s1 with waves := s1.waves.map fun e => (e.1, if e.2.lid = lid then released s1 e.1 e.2 else e.2) } lid fun l => { l with stopping := false }

/-! ### Debug (R280, R281) -/

/-- WAVE_HALT (R281): at the next issue opportunity, in running or handler state; a waiting wave halts when its wait ends. -/
def execWaveHalt (wid : Nat) (s : State) : Out :=
  match waveOf s wid with
  | none => notEnabled
  | some w =>
    if s.sec.halt.contains wid && (w.st == .running || w.st == .handler) && w.waitCnt == 0 && w.stopping.isNone && (!w.exiting || w.sup) &&
        !inInvpg s wid && !heldNow s wid w then done (haltWave s wid w)
    else notEnabled

/-- The debug group answers, and its token allows halts (R280, R306). -/
def haltAllowed (s : State) : Bool := s.sec.lc == 2 && s.sec.dbgPerm.testBit 0

/-- A bit of the selected slot in a list of slots. -/
def slotBit (l : List Nat) (wid : Nat) (b : Bool) : List Nat := if b then (if l.contains wid then l else l ++ [wid]) else l.filter (· != wid)

/-- Resume a halted wave from its area (R281). -/
def resumeHalted (s : State) (wid : Nat) : State :=
  match waveOf s wid with
  | none => s
  | some w =>
    if w.st = .halted then
      let r := readArea s wid w
      let s1 := setWave s wid { r with st := w.back, back := .running, age := 0, tok := none, missed := false,
                                       wait := w.wait.map fun x => { x with since := ticks s } }
      match waveArea s wid w with
      | some loc =>
        let now := devBytes s (loc + 0x58) 40
        if now = w.haltSt then s1 else loadStreams s1 w.lid w.party now
      | none => s1
    else s

/-- A write of DBGCTL for the selected slot. -/
def writeDbgctl (s : State) (v : DWord) : State :=
  let wid := s.sec.dbgSel
  let s1 := { s with sec := { s.sec with halt := slotBit s.sec.halt wid (v.getLsbD 0), bkhalt := slotBit s.sec.bkhalt wid (v.getLsbD 1) } }
  if v.getLsbD 0 then s1 else resumeHalted s1 wid

/-- DEBUG_HALT_REQUEST (R281): without the debug group, or without the permission, the write does nothing. -/
def execDebugHaltRequest (val : DWord) (s : State) : Out :=
  if val.getLsbD 0 then done (if haltAllowed s then writeDbgctl s val else s) else notEnabled

/-- DEBUG_RESUME (R281). -/
def execDebugResume (val : DWord) (s : State) : Out :=
  if val.getLsbD 0 then notEnabled else done (if haltAllowed s then writeDbgctl s val else s)

end Sys2Proof.Machine
end

