-- ==== Sys2Proof/Machine/Security.lean ====
section
/-! DEFINITION. Kills by queue reset, function-level reset and debug unlock (R250, R274, R299, R306), the resets (R204, R299, R300), the
security processor's commands (R303, R305 to R307), firmware pushes (R301), measurements (R304) and the link's keys (R297). -/

namespace Sys2Proof.Machine

/-! ### Kills that are no rejections (R250) -/

/-- End launches one by one, each with its own record (R250); its routes go with it. -/
def killEach (code : Nat) : List (Nat × Launch) → State → State
  | [], s => s
  | (lid, l) :: t, s =>
    let s1 := endLaunch ((s.copies.filter fun e => e.2.lid == lid).foldl settleCopy s) lid
    let s2 := { s1 with routes := s1.routes.filter fun e => !e.2.lids.contains lid }
    killEach code t (faultQueue s2 (queueOfLaunch l) l.pkt code 0xFF 0xFF 0xFF 0 0)

/-- The accepted launches that meet a test, in order of acceptance. -/
def acceptedOf (s : State) (p : Launch → Bool) : List (Nat × Launch) := s.launches.filter fun e => e.2.st == .accepted && p e.2

/-- Restart a faulted queue (R250): a disabled one stays disabled. Launches accepted from now on have identifier `next` or a higher one. -/
def restartQueue (next : Nat) (q : Queue) : Queue :=
  { q with
    fault := false, st := if q.en then .running else .disabled, head := q.tail, done := q.tail, gates := [], moved := [], raised := [], opens := [],
    base := next, ended := [], intr := [], poll := none }

/-- Writing 1 to QSTAT.FAULT (R250, R274). -/
def resetQueue (s : State) (k : Nat) : State :=
  if (queueOf s k).fault then
    modQueue (killEach 0x48 (acceptedOf s fun l => queueOfLaunch l == k) s) k (restartQueue s.nextId)
  else s

/-- The registers outside the security block answer: boot has ended, and not in recovery (R300, R301). -/
def answers (s : State) : Bool := s.sec.stage == 5 && !s.sec.recov

/-- A write to a register outside the security block: nothing where the block does not answer. -/
def answered (s : State) (f : State → State) : Out := done (if answers s then f s else s)

/-- QUEUE_RESET: a queue that has not faulted ignores the write. -/
def execQueueReset (q : QId) (s : State) : Out := answered s fun s => resetQueue s (qKey q)

/-! ### Resets -/

/-- A function's handler block and Steward memory at function-level reset; what the physical function's blocks hold stays (R299). -/
def resetFunc (f : Func) : Func :=
  { Func.init with floor := f.floor, weight := f.weight, lodgeBud := f.lodgeBud, lodgeUse := f.lodgeUse, energy := f.energy }

/-- FUNCTION_LEVEL_RESET (R299). -/
def execFunctionLevelReset (v : BitVec 4) (s : State) : Out :=
  let s1 := killEach 0x48 (acceptedOf s fun l => l.vf == v.toNat) s
  done (modFunc { s1 with queues := s1.queues.filter fun e => e.1 / 64 != v.toNat } v.toNat resetFunc)

/-- A dirty line of an L2 is lost (R204): its bytes go back to what memory held when the line was last written back, which is at the
earliest what `back` records and otherwise free. -/
def loseLine (s a : State) (n : Nat) (x : CLine) : State :=
  let cut := x.back + pick s (30000000 + n) (s.commits + 1 - x.back)
  (distinct ((s.hist.filter fun c => c.loc / 128 == n && decide (x.back < c.seq)).map (·.loc))).foldl (fun a loc =>
    putCommit a Origin.device loc (valueAt s.hist loc cut (devByte s loc))) a

/-- What is left of a store of a die's core when the die is reset: nothing where its line is still in an L1 of the die, else what has
left for homes elsewhere (R204). -/
def leftStore (die : Nat) (a : Acc) : Option Acc :=
  if dieOfCore a.core = die ∧ !a.loc ∧ a.scope.isPlain ∧ isStore a.kind then
    let ps := if a.sent || a.direct || a.epoch.isSome then
        a.pieces.filter fun p => match p.pa with | some loc => loc / Config.nearSize != die | none => a.far
      else []
    if ps.isEmpty then none else some { a with pieces := ps }
  else some a

/-- The dirty lines lost with a die's caches (R204): those of its L2, which hold near lines alone, and those of its cores' L1. -/
def loseLines (s : State) (die : Nat) : State :=
  let s1 := endEvent ((dieOf s die).l2.foldl (fun a e => loseLine s a e.1 e.2) s)
  { s1 with acc := s1.acc.filterMap fun e => (leftStore die e.2).map fun a => (e.1, a) }

/-- Kill the launches resident on a die, one record each; the manual names no CODE for it, so that byte is free. -/
def killOnDie (s : State) (die : Nat) : State :=
  let code := (free s 31).toNat % 256
  killEach code ((onDie s die).filter fun e => e.2.p.route == 0)
    ((onDie s die).foldl (fun a e => if e.2.p.route = 0 then a else killLaunch a e.1 code die 0xFF 0xFF 0 0) s)

/-- STAGE_DIE_RESET (R204): launches are killed, translations and dirty lines are lost, and INVPG no longer waits for the die. -/
def execStageDieReset (die : BitVec 3) (s : State) : Out :=
  let d := die.toNat
  let s1 := loseLines (killOnDie s d) d
  let s2 := modDie s1 d fun x => { x with off := true, xlat := [], l2 := [], rdc := [] }
  done { s2 with
    cores := s2.cores.map fun e => (e.1, if dieOfCore e.1 = d then { e.2 with atlb := [], l1 := [] } else e.2)
    invpg := s2.invpg.map fun e => (e.1, (e.2.1, e.2.2 ||| 2 ^ d)) }

/-! ### Boot (R300, R301) -/

/-- Extend a measurement register. -/
def extendMr (x : Sec) (n : Nat) (data : List Byte) : Sec := { x with mr := listSet x.mr n (extend (x.mr.getD n 0) data) }

/-- The lifecycle state that the fuses give (R305). -/
def fuseLc (x : Sec) : Nat := if x.blown then 3 else if x.fused then 1 else 0

/-- The check of a firmware image (R301): a modulus of 3,072 bits that hashes to the fused key hash, and a signature under it; after
decommissioning no key hash is left. -/
def firmwareGood (x : Sec) (b : List Byte) : Bool :=
  let m := Config.firmwareModulus b
  !x.blown && m.length == 384 && decide (2 ^ 3071 ≤ beNat m) && sha256 m == Config.firmwareKeyHash &&
    pssVerify (beNat m) (Config.firmwareSigned b) (Config.firmwareSignature b)

/-- The security block in step 1: every register at 0, and what fuses and flash hold (R300). -/
def coldSec (x : Sec) : Sec :=
  { Sec.reset with
    stage := 1, lc := 0, mr := [0, 0, 0, 0, 0, 0, 0, 0], flash := x.flash, fused := x.fused, blown := x.blown, keyGen := x.keyGen }

/-- The boot order from step 1 (R300). Fuse and memory errors happen or do not: free. -/
def boot (s : State) : State :=
  let x := s.sec
  if pick s 61 2 = 1 then { s with sec := coldSec x }
  else
    let x2 := extendMr { x with lc := fuseLc x, stage := 2 } 0 (hashBytes Config.romHash)
    if !firmwareGood x x.flash then { s with sec := { x2 with stage := 3, recov := true } }
    else
      let x3 := extendMr x2 0 (hashBytes (sha256 x.flash))
      if pick s 62 2 = 1 then { s with sec := { x3 with stage := 4, recov := true } }
      else
        { s with
          mem := []
          wiped := []
          ecc := []
          hist := []
          sec := { extendMr x3 1 Config.firmwareConfig with stage := 5, recov := false, keyGen := x.keyGen + 1 } }

/-- The part at the start of a device reset: everything at its reset value but fuses, flash, the host's memory and the model's own
counters. -/
def coldState (s : State) : State :=
  { State.reset with turns := s.turns, serial := s.serial, hostMem := s.hostMem, spdm := s.spdm, sec := coldSec s.sec }

/-- DEVICE_RESET (R299, R300). -/
def execDeviceReset (s : State) : Out := done (boot (coldState s))

/-- A write of 1 to FWCTL.GO (R301, R302): outside recovery it is refused, else a push starts; while one runs, the write stores LEN
alone (log 43). -/
def pushFirmware (s : State) (len : Nat) : State :=
  let x := { s.sec with len := len }
  { s with sec :=
    if x.go.isSome then x else if !x.recov then { x with result := 3 } else { x with go := some (x.fwsrc.toNat, len) } }

/-- A push ends (R301): the image is read and checked; one that passes goes to flash, and the boot order runs. -/
def endPush (s : State) (at_ len : Nat) : State :=
  let img := getBytes s.hostMem at_ (4096 * len)
  let x := { s.sec with go := none }
  if firmwareGood x img then boot { s with sec := { x with result := 1, flash := img } } else { s with sec := { x with result := 2 } }

/-- FIRMWARE_PUSH (R301, R302): the write of GO, or the end of the push that it started; after a fuse error the block does not answer. -/
def execFirmwarePush (len : BitVec 31) (s : State) : Out :=
  done (if s.sec.stage = 1 then s else match s.sec.go with
    | some x => endPush s x.1 x.2
    | none => pushFirmware s len.toNat)

/-! ### Commands (R303) -/

/-- A command has ended with a STATUS. -/
def ended (s : State) (op : BitVec 8) (st : Nat) : State := { s with sec := { s.sec with op := op, status := st, busy := false } }

/-- Secured or debug-unlocked. -/
def inService (x : Sec) : Bool := x.lc == 1 || x.lc == 2

/-- Command 0x01. -/
def registerKey (s : State) : State :=
  let v := s.sec.arg0.toNat
  if !inService s.sec then ended s 1 3
  else if 15 < v then ended s 1 1
  else
    let bs := getBytes s.hostMem s.sec.arg1.toNat 384
    let id := sha256 bs
    let s1 := modFunc s v fun f => { f with key := some (beNat bs), keyid := id }
    ended { s1 with sec := extendMr s1.sec 3 (BitVec.ofNat 8 v :: hashBytes id) } 1 0

/-- Command 0x02. -/
def newChallenge (s : State) : State := if s.sec.lc = 1 then ended { s with sec := { s.sec with chal := Config.freshNonce s.serial } } 2 0 else ended s 2 3

/-- The token's checks (R306 step 1). -/
def tokenGood (x : Sec) (t : List Byte) : Bool :=
  fieldAt t 0 4 == 0x4B424744 && BitVec.ofNat 64 (fieldAt t 4 8) == Config.devId && fieldAt t 12 1 == 1 && fieldAt t 13 3 == 0 &&
    decide (fieldAt t 48 4 < 4) && ((t.drop 52).take 12).all (· == 0) && fieldAt t 16 32 == x.chal.toNat &&
    pssVerify Config.debugModulus (t.take 64) (t.drop 64)

/-- Every queue of every function faults (R306 step 2). One that no killed launch has faulted writes a record as well (R250): the manual
names no code and no packet for it, so those are free (log 18). -/
def faultAll (s : State) : State :=
  (List.range 1024).foldl (fun a k =>
    if (queueOf a k).fault then a
    else faultQueue a k ((free s (34000 + k)).toNat % 2 ^ 32) ((free s (35100 + k)).toNat % 256) 0xFF 0xFF 0xFF 0 0) s

/-- Command 0x03 (R306). -/
def unlock (s : State) : State :=
  if s.sec.lc ≠ 1 then ended s 3 3
  else
    let t := getBytes s.hostMem s.sec.arg0.toNat 448
    if !tokenGood s.sec t then ended s 3 2
    else
      let s1 := faultAll (killEach 0x49 (acceptedOf s fun _ => true) { s with sec := { s.sec with chal := 0 } })
      let x := { extendMr s1.sec 2 (hashBytes (sha256 t)) with
        ideSecure := false, ideKey := 0, keyGen := s1.sec.keyGen + 1, lc := 2, dbgPerm := fieldAt t 48 4, dbgSel := 0, halt := [], bkhalt := [] }
      ended { s1 with mem := [], wiped := [(0, Config.devSize)], hist := [], sec := x } 3 0

/-! #### Checkpoint (R307) -/

/-- The least length of the safe tier. -/
def ckptSize : Nat := Config.devSize + 4096

/-- The hashes of the 1,152 GiB of a memory. -/
def gibHashes (m : List Host.Cell) (at_ : Nat) : List (BitVec 256) := (List.range 1152).map fun g => sha256 (getBytes m (at_ + g * 2 ^ 30) (2 ^ 30))

/-- Copy n bytes between two canonical memories. -/
def copyCells (src : List Host.Cell) (from_ n : Nat) (dst : List Host.Cell) (a : Nat) : List Host.Cell :=
  (src.filter fun c => from_ ≤ c.1 && c.1 < from_ + n).foldl (fun m c => putByte m (c.1 - from_ + a) c.2)
    (dst.filter fun c => !(a ≤ c.1 && c.1 < a + n))

/-- Device memory as a checkpoint reads it: a byte that is undefined since its data key was replaced is read once (R4, R306). -/
def wholeMem (s : State) : List Host.Cell :=
  if s.wiped.isEmpty then s.mem
  else (List.range Config.devSize).filterMap fun loc => if devByte s loc = 0 then none else some (loc, devByte s loc)

/-- Step 3: memory, then the header in front of it (log 27). -/
def copyOut (s : State) (a : Nat) : State :=
  let m := wholeMem s
  let h := copyCells m 0 Config.devSize s.hostMem (a + 4096)
  { s with hostMem := putBytes h a ((Config.ckptHeader Config.devId (gibHashes m 0)).take 4096) }

/-- Bodies that a checkpoint has still to wait for. -/
def stillStopping (s : State) (lids : List Nat) : Bool :=
  lids.any fun lid => resident s lid && match launchOf s lid with | some l => l.st == .accepted | none => false

/-- Launches with waves resident. -/
def allBodies (s : State) : List Nat := ((acceptedOf s fun _ => true).filter fun e => resident s e.1).map (·.1)

/-- A checkpoint ends: queue service resumes, and so do the bodies (R278). -/
def endCkpt (s : State) (lids : List Nat) (st : Nat) : State :=
  let s1 := lids.foldl (fun a lid => match launchOf a lid with | some l => if l.stopping then cancelStop a lid else a | none => a) s
  ended { s1 with sec := { s1.sec with ckpt := none } } 4 st

/-- Command 0x04 begins: every body is asked to stop, and the Stewards stop reading. -/
def startCkpt (s : State) : State :=
  if !inService s.sec then ended s 4 3
  else if s.sec.arg1.toNat < ckptSize then ended s 4 1
  else if (allBodies s).any fun lid => !canStop s lid then ended s 4 4
  else
    let ls := allBodies s
    let s1 := ls.foldl (fun a lid => match launchOf a lid with | some l => if l.stopping then a else postRequest a lid | none => a) s
    { s1 with sec := { s1.sec with op := 4, busy := true, ckpt := some (s.sec.arg0.toNat, ls) } }

/-- A write of CMD.OP: ignored while a command runs, or while the block does not answer (R300, R302). -/
def command (s : State) (f : State → State) : Out := done (if s.sec.busy || s.sec.stage == 1 then s else f s)

/-- CHECKPOINT: it begins; and once every body has stopped it copies and ends, or ends early where one cannot be stopped. -/
def execCheckpoint (s : State) : Out :=
  match s.sec.ckpt with
  | none => command s startCkpt
  | some x =>
    if x.2.any fun lid => resident s lid && !canStop s lid then done (endCkpt s x.2 4)
    else if stillStopping s x.2 then notEnabled
    else done (endCkpt (copyOut s x.1) x.2 0)

/-- Command 0x05: the header must be the one that this device makes from the data (R307). -/
def restore (s : State) : State :=
  if !inService s.sec then ended s 5 3
  else if s.sec.arg1.toNat < ckptSize then ended s 5 1
  else
    let a := s.sec.arg0.toNat
    if getBytes s.hostMem a 4096 = (Config.ckptHeader Config.devId (gibHashes s.hostMem (a + 4096))).take 4096 then
      ended { s with mem := copyCells s.hostMem (a + 4096) Config.devSize [] 0, wiped := [], hist := [], commits := s.commits + 1 } 5 0
    else ended s 5 2

/-- Command 0x06 (R305). -/
def decommissionPart (s : State) : State :=
  if s.sec.lc = 3 then ended s 6 3
  else if s.sec.arg0 ≠ 0x4445434F then ended s 6 1
  else ended { s with sec := { extendMr s.sec 2 Config.lifecycleData with lc := 3, blown := true, recov := true } } 6 0

/-- REGISTER_IMAGE_KEY. -/
def execRegisterImageKey (s : State) : Out := command s registerKey
/-- NEW_DEBUG_CHALLENGE. -/
def execNewDebugChallenge (s : State) : Out := command s newChallenge
/-- DEBUG_UNLOCK. -/
def execDebugUnlock (s : State) : Out := command s unlock
/-- RESTORE_FROM_CHECKPOINT. -/
def execRestoreFromCheckpoint (s : State) : Out := command s restore
/-- DECOMMISSION. -/
def execDecommission (s : State) : Out := command s decommissionPart
/-- UNKNOWN_COMMAND (R303): OP 0x01 to 0x06 have steps of their own. -/
def execUnknownCommand (op : BitVec 8) (s : State) : Out :=
  if decide (1 ≤ op.toNat) && decide (op.toNat ≤ 6) then notEnabled else command s fun s => ended s op 1

/-- The command that a write of CMD starts. -/
def startCommand (s : State) (op : BitVec 8) : State :=
  if s.sec.busy || s.sec.stage == 1 then s
  else match op.toNat with
    | 1 => registerKey s
    | 2 => newChallenge s
    | 3 => unlock s
    | 4 => startCkpt s
    | 5 => restore s
    | 6 => decommissionPart s
    | _ => ended s op 1

/-! ### Attestation and the link (R297, R304) -/

/-- SPDM_MEASUREMENTS: the eight registers, signed over the nonce; a blown identity key signs nothing (R305). -/
def execSpdmMeasurements (nonce : BitVec 256) (s : State) : Out :=
  if s.sec.blown || s.sec.stage == 1 then notEnabled
  else
    let sig := Config.identitySign (hashBytes nonce ++ s.sec.mr.flatMap hashBytes)
    done { s with spdm := s.spdm ++ [.measurements nonce s.sec.mr sig] }

/-- GET_CERTIFICATE. -/
def execGetCertificate (s : State) : Out :=
  if s.sec.stage = 1 then notEnabled else done { s with spdm := s.spdm ++ [.certificate Config.certificateChain] }

/-- IDE_KM_KEY_SET (R297, R306). -/
def execIdeKmKeySet (key : BitVec 256) (s : State) : Out := done { s with sec := { s.sec with ideSecure := true, ideKey := key } }

end Sys2Proof.Machine
end

