-- ==== Sys2Proof/Machine/Host.lean ====
section
/-! DEFINITION. What the host does to the part: its accesses to far memory (R298), its register writes (R9, R10, R264) and what each
block makes of them (R176, R184, R242, R246, R247, R261, R272, R280, R284, R287, R292, R294, R296, R302), and errors logged for it
(R206). -/

namespace Sys2Proof.Machine

/-! ### Memory (R298, R206) -/

/-- The L1 of some core holds a store to a far location, or to one that its home has still to find: its line is written back before a
host access to it is served (R298). -/
def writeBack (s : State) (hit : Nat → Bool) : State :=
  let l := s.acc.filter fun e => inL1 e.2.core e.2 && e.2.far && e.2.pieces.any fun p =>
    !p.done && match p.pa with | some loc => (linesOf loc p.size).any hit | none => true
  lookStores (sendStores s l) l

/-- A host access to far memory. -/
def hostAccess (s : State) (a : HostAcc) : State :=
  let loc := Config.farBase + a.addr
  let s1 := writeBack s (linesOf loc (if a.write then a.data.length else a.len)).contains
  if a.write then eccClear (commitBytes s1 Origin.ofHost loc a.data) loc a.data.length else s1

/-- Bytes of the wave area of a halted wave, which the debugger reaches through an access of its own (R281): in near memory, by
location. -/
def inHaltedArea (s : State) (loc n : Nat) : Bool :=
  haltAllowed s && s.waves.any fun e => e.2.st == .halted && match waveArea s e.1 e.2 with
    | some b => decide (b ≤ loc ∧ loc + n ≤ b + 32768)
    | none => false

/-- HOST_MEM_ACCESS (R298): an untranslated access to far memory once it is enabled (R300 step 5); above far memory the model numbers
the near locations that the debugger reaches (R281, log 43). -/
def execHostMemAccess (a : HostAcc) (s : State) : Out :=
  let n := if a.write then a.data.length else a.len
  if !answers s then notEnabled
  else if a.addr + n ≤ Config.farSize then done (hostAccess s a)
  else if decide (Config.farSize ≤ a.addr) && inHaltedArea s (a.addr - Config.farSize) n then
    done (if a.write then devWrite s (a.addr - Config.farSize) a.data else s)
  else .fault (.noSuchAddress a.addr)

/-- The granules of a word of the bias table. -/
def biasWord (n : Nat) (v : DWord) : List Nat := ((List.range 64).filter fun i => v.getLsbD i).map (64 * n + ·)

/-- The bias table with one word written. -/
def biasWith (s : State) (w : Nat) (v : DWord) : List Nat :=
  s.bias.filter (fun g => g / 64 < w) ++ biasWord w v ++ s.bias.filter (fun g => w < g / 64)

/-- A store to a granule whose bias changes stands in an L1, or one whose location is not known yet (R298). -/
def biasStores (s : State) (new : List Nat) : List (Nat × Acc) :=
  s.acc.filter fun e => inL1 e.2.core e.2 && e.2.far && e.2.pieces.any fun p => !p.done && match p.pa with
    | some loc => let g := (loc - Config.farBase) / 2 ^ 30; s.bias.contains g != new.contains g
    | none => true

/-- The L1s and the remote-data caches drop their clean lines: their tags do not say which granule a line belongs to (R189, R298). -/
def dropLines (s : State) : State :=
  { s with
    cores := s.cores.map fun e => (e.1, { e.2 with l1 := e.2.l1.filter fun x => dirtyLine s e.1 x.asid x.line || spoiling s e.1 x })
    dies := s.dies.map fun e => (e.1, { e.2 with rdc := [] }) }

/-- A write of the bias table: the lines of the granules that it switches are written back, and it has taken effect when they have
reached their homes (R298). -/
def switchBias (s : State) (w : Nat) (v : DWord) : State :=
  let new := biasWith s w v
  let l := biasStores s new
  let s1 := { sendStores s l with
    bias := new
    biasOld := if biasBusy s then s.biasOld else s.bias
    biasWait := l.map (·.1) ++ if biasBusy s then s.biasWait else [] }
  lookStores (dropLines s1) l

/-- BIAS_TABLE_WRITE (R298). -/
def execBiasTableWrite (n : BitVec 4) (val : DWord) (s : State) : Out := answered s fun s => switchBias s n.toNat val

/-! #### Errors (R206): bytes of device memory are numbered by their location, and above them, in this order, the 8-byte words of the
scratchpads by 65,536 × core + word, the 8-byte words of the L1s by 16,384 × core + 16 × line + word, the 32-byte words of the L2s by
home location, and those of the remote-data caches by 2^19 × die + 4 × line + word (log 4). -/

/-- A line gets a bad word. -/
def badLine (b : Nat) (x : CLine) : CLine := if x.bad.contains b then x else { x with bad := b :: x.bad }

/-- An error in a word of an L1. -/
def l1Error (s : State) (n : Nat) : Option State :=
  ((coreOf s (n / 16384)).l1[n % 16384 / 16]?).map fun x =>
    modCore s (n / 16384) fun c => { c with l1 := listSet c.l1 (n % 16384 / 16) (badLine (n % 16) x) }

/-- An error in a word of an L2, by the number of the near word of 32 bytes. -/
def l2Error (s : State) (n : Nat) : Option State :=
  (l2Line s (n / 4)).map fun x => modDie s (32 * n / Config.nearSize) fun d => { d with l2 := Tab.put d.l2 (n / 4) (badLine (n % 4) x) }

/-- An error in a word of a remote-data cache. -/
def rdcError (s : State) (n : Nat) : Option State :=
  ((dieOf s (n / 2 ^ 19)).rdc[n % 2 ^ 19 / 4]?).map fun x =>
    modDie s (n / 2 ^ 19) fun d => { d with rdc := listSet d.rdc (n % 2 ^ 19 / 4) (badLine (n % 4) x) }

/-- The part with an error at a number; nothing where no cache holds the line. -/
def withError (s : State) (loc : Nat) : Option State :=
  let n := loc - Config.devSize
  if loc < Config.devSize then some { s with ecc := loc / 32 :: s.ecc }
  else if n < 2 ^ 24 then (if n % 65536 < 49152 then some { s with eccPad := n :: s.eccPad } else none)
  else if n < 2 ^ 24 + 2 ^ 22 then l1Error s (n - 2 ^ 24)
  else if n < 2 ^ 24 + 2 ^ 22 + 2 ^ 32 then l2Error s (n - 2 ^ 24 - 2 ^ 22)
  else if n < 2 ^ 24 + 2 ^ 22 + 2 ^ 32 + 2 ^ 22 then rdcError s (n - 2 ^ 24 - 2 ^ 22 - 2 ^ 32)
  else none

/-- ECC_ERROR_NO_CONSUMER (R206): a prefetch, write-back or scrub finds the error and logs it. -/
def execEccErrorNoConsumer (loc : Nat) (s : State) : Out :=
  match withError s loc with
  | some t => done { t with eccLog := s.eccLog ++ [{ loc := loc, at_ := ticks s }] }
  | none => .fault (.noSuchAddress loc)

/-! ### Slice fidelity (R176) -/

/-- Writing 1 to bits of FSTAT.LIMIT releases every hold of those slices on the die. `lim` stays: it returns to 0 with a rail move or a new
tile party only (R174, R176). -/
def clearLimit (s : State) (die mask : Nat) : State :=
  let hit := fun q => mask.testBit q && (dieOf s die).limit.getLsbD q
  let slices := fun (l : List Slice) => (List.range 4).map fun q =>
    let x := l.getD q Slice.init
    if hit q then { x with held := none } else x
  modDie { s with cores := s.cores.map fun e => (e.1, if dieOfCore e.1 = die then { e.2 with slices := slices e.2.slices } else e.2) } die
    fun d => { d with limit := d.limit &&& ~~~(BitVec.ofNat 3 mask) }

/-- SLICE_LIMIT_CLEAR. -/
def execSliceLimitClear (die : BitVec 3) (mask : BitVec 3) (s : State) : Out := answered s fun s => clearLimit s die.toNat mask.toNat

/-- FWIN: MINOFF and MAXOFF, the latter at most 40. -/
def writeFwin (s : State) (die : Nat) (v : DWord) : State :=
  modDie s die fun d => { d with minoff := bitsOf v.toNat 15 8, maxoff := min (bitsOf v.toNat 7 0) 40 }

/-- FWIN_WRITE: stored offsets move at each slice's next interval. -/
def execFwinWrite (die : BitVec 3) (val : DWord) (s : State) : Out := answered s fun s => writeFwin s die.toNat val

def writeFctl (s : State) (die : Nat) (v : DWord) : State :=
  modDie s die fun d => { d with loopen := v.getLsbD 8, texp := min (bitsOf v.toNat 4 0) 16 }

/-! ### Sensors, budgets, buckets, operating points -/

/-- Ones written to invalid bits let the sensors become valid again with their next good sample (R296). -/
def rearmSensors (s : State) (die : Nat) (v : DWord) : State :=
  modDie s die fun d => { d with
    thermal := d.thermal.map fun e => (e.1, if v.getLsbD e.1 && !e.2.valid then { e.2 with rearm := true } else e.2)
    current := d.current.map fun e => (e.1, if v.getLsbD (32 + e.1) && !e.2.valid then { e.2 with rearm := true } else e.2) }

/-- SENSOR_REVALIDATE. -/
def execSensorRevalidate (die : BitVec 3) (val : DWord) (s : State) : Out := answered s fun s => rearmSensors s die.toNat val

/-- CLBUD of a die (R287): the cycles that have passed gain under the old budget, and counters above the new cap fall to it. -/
def writeClbud (s : State) (die : Nat) (v : DWord) : State :=
  let b := bitsOf v.toNat 31 0
  let s1 := (List.range 8).foldl (fun a i => quietGain a (8 * die + i)) s
  (List.range 8).foldl (fun a i => modClus a (8 * die + i) fun c => { c with allow := min c.allow (1024 * b) }) (modDie s1 die fun d => { d with clbud := b })

/-- CLBUD_WRITE. -/
def execClbudWrite (die : BitVec 3) (val : DWord) (s : State) : Out := answered s fun s => writeClbud s die.toNat val

/-- STRCFG or FARCFG (R242). -/
def setToll (now : Nat) (v : DWord) (t0 : Toll) : Toll :=
  let t := refillToll now t0
  let d := bitsOf v.toNat 55 32
  let en := v.getLsbD 63
  { en := en, depth := d, rate := bitsOf v.toNat 31 0, level := if en && !t.en then 1024 * (if d = 0 then 1 else d : Nat) else t.level,
    at_ := if en && !t.en then now else t.at_ }

def writeToll (s : State) (die vf : Nat) (far : Bool) (v : DWord) : State :=
  modDie s die fun d =>
    if far then { d with tollF := Tab.put d.tollF vf (setToll (ticks s) v (Tab.findD d.tollF vf Toll.init)) }
    else { d with tollS := Tab.put d.tollS vf (setToll (ticks s) v (Tab.findD d.tollS vf Toll.init)) }

/-- The bucket of a group. -/
def tollAt (s : State) (die vf : Nat) (far : Bool) : Toll :=
  if far then Tab.findD (dieOf s die).tollF vf Toll.init else Tab.findD (dieOf s die).tollS vf Toll.init

/-- TOLL_BUCKET_ENABLE: EN goes from 0 to 1. -/
def execTollBucketEnable (die : BitVec 3) (v : BitVec 4) (far : Bool) (val : DWord) (s : State) : Out :=
  if !answers s then done s
  else if val.getLsbD 63 && !(tollAt s die.toNat v.toNat far).en then done (writeToll s die.toNat v.toNat far val)
  else notEnabled

/-- OPPWIN_WRITE (R284): granted windows follow, and each core's target is formed again. -/
def execOppwinWrite (die : BitVec 3) (v : BitVec 4) (lo : BitVec 3) (hi : BitVec 3) (s : State) : Out :=
  answered s fun s =>
    let s1 := modDie s die.toNat fun d => { d with opp := Tab.put d.opp v.toNat (lo.toNat, hi.toNat) }
    (List.range 32).foldl (fun a i => retarget a (32 * die.toNat + i)) s1

/-! ### The handler table (R272) -/

/-- A segment of a handler image is non-pageable and lies inside a window of an address space that the function owns (R269). -/
def handlerSegOk (s : State) (vf : Nat) (b : List Byte) : Bool :=
  let g := segFrom b
  segOk b && (!segValid g || (!segPage g && (List.range 65536).any fun a =>
    let e := asdtEntry s a
    asdtValid e && asdtVf e == vf && inWindow (windowOf (segFar g) e) g.pbase g.limit))

/-- Bytes of a handler image, which is not translated. -/
def rawImage (s : State) (addr off n : Nat) : List Byte := devBytes s (Config.farBase + addr + off) n

/-- The handler image at an address, if it passes R113 with ROLES 1 and R269, and what MR4 is extended with. -/
def checkHandler (s : State) (vf addr : Nat) : Option (Image × List Byte) :=
  let page0 := rawImage s addr 0 512
  let h := hdrOf page0
  let manifest := rawImage s addr 4096 (32 * hashCount h)
  if Config.farSize < addr + 4096 * h.pages ∨ (sigCheck (funcOf s vf) page0 manifest).isSome ∨ h.roles ≠ 1 then none
  else
    let segs := entriesOf 32 h.segs (rawImage s addr h.segOff (32 * h.segs))
    if segs.all (handlerSegOk s vf) then
      some (buildImage true true addr h (hashesOf (hashCount h) manifest) segs (entriesOf 16 h.roles (rawImage s addr h.roleOff (16 * h.roles))),
        page0.take 128 ++ manifest)
    else none

/-- HCTL (R272): WDLOG2 is kept between 20 and 32; EN from 0 to 1 verifies, and a failure sets BAD. -/
def writeHctl (s : State) (vf : Nat) (v : DWord) : State :=
  let s1 := modFunc s vf fun f => { f with wd := max 20 (min 32 (bitsOf v.toNat 5 0)) }
  if !v.getLsbD 16 then modFunc s1 vf fun f => { f with hen := false }
  else if (funcOf s1 vf).hen then s1
  else
    match checkHandler s1 vf (funcOf s1 vf).himage with
    | some x =>
      let s2 := modFunc s1 vf fun f => { f with hen := true, hbad := false, hcur := some x.1 }
      { s2 with sec := extendMr s2.sec 4 (BitVec.ofNat 8 vf :: hashBytes (sha256 x.2)) }
    | none => modFunc s1 vf fun f => { f with hbad := true }

/-- HANDLER_TABLE_ENABLE. -/
def execHandlerTableEnable (v : BitVec 4) (val : DWord) (s : State) : Out :=
  if val.getLsbD 16 && !(funcOf s v.toNat).hen && answers s then done (writeHctl s v.toNat val) else notEnabled

/-- HIMAGE and HENTRY accept writes only while EN is 0. -/
def writeHandler (s : State) (vf off : Nat) (v : DWord) : State :=
  if off = 8 then writeHctl s vf v
  else if (funcOf s vf).hen then s
  else if off = 0 then modFunc s vf fun f => { f with himage := bitsOf v.toNat 39 12 * 4096 }
  else if 0x100 ≤ off ∧ off % 8 = 0 ∧ handlerCause ((off - 0x100) / 8) then
    modFunc s vf fun f => { f with hentry := Tab.put f.hentry ((off - 0x100) / 8) { valid := v.getLsbD 32, entry := v.truncate 32 } }
  else s

/-! ### Queues (R246, R247) -/

/-- The queue group: QBASE, QCTL and QERRA accept writes while EN is 0, but for the write that disables the queue. -/
def writeQueue (s : State) (k off : Nat) (v : DWord) : Out :=
  let q := queueOf s k
  let id : QId := { vf := BitVec.ofNat 4 (k / 64), q := BitVec.ofNat 6 (k % 64) }
  if off = 0 then
    done (if q.en then s else setQueue s k { q with loc := v.getLsbD 63, addr := bitsOf v.toNat 47 12 * 4096 })
  else if off = 8 then
    if q.en then (if v.getLsbD 0 then done s else execQueueDisable id s)
    else if v.getLsbD 0 then execQueueEnable id v s
    else done (setQueue s k (setQctl v q))
  else if off = 0x10 then execQtailDoorbell id (v.truncate 32) s
  else if off = 0x28 then
    let s1 := if v.getLsbD 9 then setQueue s k { q with irq := false } else s
    done (if v.getLsbD 8 then resetQueue s1 k else s1)
  else if off = 0x30 then done (if q.en then s else setQueue s k { q with qerra := bitsOf v.toNat 47 5 * 32 })
  else done s

/-! ### The physical function's blocks -/

/-- Time slices (R261). -/
def writeSlices (s : State) (off : Nat) (v : DWord) : State :=
  if off = 0 then { s with quantum := max 120000 (min 120000000 (bitsOf v.toNat 31 0)) }
  else if off % 8 = 0 ∧ 8 ≤ off ∧ off < 8 + 8 * 16 then modFunc s ((off - 8) / 8) fun f => { f with weight := max 1 (bitsOf v.toNat 7 0) }
  else s

/-- Caps (R292). -/
def writeCaps (s : State) (off : Nat) (v : DWord) : State :=
  if off = 0 then
    { s with caps := { s.caps with avg := max 100 (min 1600 (bitsOf v.toNat 43 32)), peak := max 100 (min 2300 (bitsOf v.toNat 11 0)) } }
  else if off % 8 = 0 ∧ 0x10 ≤ off ∧ off < 0x10 + 64 then writeClbud s ((off - 0x10) / 8) v
  else s

/-- Droop thresholds and sensor bits (R294, R296). -/
def writeDroop (s : State) (off : Nat) (v : DWord) : State :=
  if off % 8 ≠ 0 then s
  else if off < 0x200 then modClus s (off / 8) fun c => { c with thresh := v.truncate 8 }
  else if off < 0x200 + 64 then rearmSensors s ((off - 0x200) / 8) v
  else s

/-- The debug group (R280): it exists only in the debug-unlocked state. -/
def writeDebug (s : State) (off : Nat) (v : DWord) : State :=
  if s.sec.lc ≠ 2 then s
  else if off = 0 then { s with sec := { s.sec with dbgSel := bitsOf v.toNat 11 0 } }
  else if off = 8 ∧ haltAllowed s then writeDbgctl s v
  else s

/-- The security block (R302). -/
def writeSec (s : State) (off : Nat) (v : DWord) : State :=
  if s.sec.stage = 1 then s
  else if off = 0x10 then { s with sec := { s.sec with fwsrc := v } }
  else if off = 0x18 then
    if v.getLsbD 0 then pushFirmware s (bitsOf v.toNat 31 1) else { s with sec := { s.sec with len := bitsOf v.toNat 31 1 } }
  else if off = 0x20 then startCommand s (v.truncate 8)
  else if off = 0x28 then { s with sec := { s.sec with arg0 := v } }
  else if off = 0x30 then { s with sec := { s.sec with arg1 := v } }
  else if 0x800 ≤ off ∧ off < 0x818 then writeDebug s (off - 0x800) v
  else s

/-- Slice fidelity (R176). -/
def writeSliceBlock (s : State) (off : Nat) (v : DWord) : State :=
  if off < 0x400 then
    match off % 0x80 with
    | 0x00 => writeFctl s (off / 0x80) v
    | 0x08 => writeFwin s (off / 0x80) v
    | 0x10 => clearLimit s (off / 0x80) (bitsOf v.toNat 2 0)
    | _ => s
  else if off % 8 = 0 ∧ off < 0x400 + 128 then modFunc s ((off - 0x400) / 8) fun f => { f with floor := bitsOf v.toNat 1 0 }
  else s

/-- TRBASE (R184). -/
def writeTrbase (s : State) (off : Nat) (v : DWord) : State :=
  if off = 0 then { s with trbase := bitsOf v.toNat 39 23 * 2 ^ 23, tren := v.getLsbD 0 } else s

/-- Toll buckets and lodging budgets (R242). -/
def writeTolls (s : State) (off : Nat) (v : DWord) : State :=
  if off < 0x1000 then
    match off % 0x20 with
    | 0x00 => writeToll s (off / 0x200) (off / 0x20 % 16) false v
    | 0x10 => writeToll s (off / 0x200) (off / 0x20 % 16) true v
    | _ => s
  else if off % 16 = 0 ∧ off < 0x1100 then modFunc s ((off - 0x1000) / 16) fun f => { f with lodgeBud := bitsOf v.toNat 31 0 }
  else s

/-- A write to a block of the physical function (R264). OPPWIN has a step of its own: the manual gives its block no layout. -/
def writePhysical (s : State) (cap off : Nat) (v : DWord) : Out :=
  match cap with
  | 0x0002 => done (writeSlices s off v)
  | 0x0004 => notEnabled
  | 0x0005 => done (writeCaps s off v)
  | 0x0006 => done (writeDroop s off v)
  | 0x0007 => done (writeSec s off v)
  | 0x0008 => done (writeSliceBlock s off v)
  | 0x0009 => done (writeTrbase s off v)
  | 0x000A => done (writeTolls s off v)
  | _ => done s

/-- REGISTER_WRITE (R9): writes to read-only registers, and where no register is, do nothing. Before boot has ended and in recovery
only the security block answers (R300, R301). -/
def execRegisterWrite (w : RegW) (s : State) : Out :=
  if !answers s && !(w.vf.isNone && w.cap == 7) then done s
  else
    match w.vf with
    | none => writePhysical s w.cap.toNat w.off w.val
    | some v =>
      if w.cap = 1 then (if w.off < 0x1000 then writeQueue s (queueKey v.toNat (w.off / 0x40)) (w.off % 0x40) w.val else done s)
      else if w.cap = 3 then done (writeHandler s v.toNat w.off w.val)
      else done s

end Sys2Proof.Machine
end

