-- ==== Sys2Proof/Machine/Lane.lean ====
section
/-! DEFINITION. The L-slot operations: mask logic (R326 to R329) and the lane operations (R330 to R337). -/

namespace Sys2Proof.Machine

/-! ### Mask registers -/

/-- An exposed write of a whole mask register. -/
def putK (d : BitVec 4) (L : Nat) (v : State → Wave → Word) (wid : Nat) (w : Wave) (s : State) : State :=
  setWave s wid (pushWin w (.k d.toNat (BitVec.allOnes 32) (v s w)) L)

def kA (s : State) (w : Wave) (k : BitVec 4) : Word := rdK s w (tagOf 4 0) k.toNat
def kB (s : State) (w : Wave) (k : BitVec 4) : Word := rdK s w (tagOf 4 1) k.toNat

/-- KAND (R326). -/
def execKand (f : KOp) (s : State) : Out := slotOp (.kand f) s (putK f.kd 1 fun s w => kA s w f.ka &&& kB s w f.kb)
/-- KOR (R326). -/
def execKor (f : KOp) (s : State) : Out := slotOp (.kor f) s (putK f.kd 1 fun s w => kA s w f.ka ||| kB s w f.kb)
/-- KXOR (R326). -/
def execKxor (f : KOp) (s : State) : Out := slotOp (.kxor f) s (putK f.kd 1 fun s w => kA s w f.ka ^^^ kB s w f.kb)
/-- KANDN (R326). -/
def execKandn (f : KOp) (s : State) : Out := slotOp (.kandn f) s (putK f.kd 1 fun s w => kA s w f.ka &&& ~~~(kB s w f.kb))
/-- KSET, the stream immediate (R329). -/
def execKset (k : BitVec 4) (s : State) : Out := slotOp (.kset k) s (putK k 1 fun s _ => s.cur.imm.truncate 32)
/-- KSET.sreg (R329). -/
def execKsetSreg (f : KsetS) (s : State) : Out :=
  slotOp (.ksetSreg f) s (putK f.kd 1 fun s w => (rdS s w (tagOf 4 0) f.a.toNat).truncate 32)
/-- KPOP (R328). -/
def execKpop (f : KpopF) (s : State) : Out :=
  slotOp (.kpop f) s (putS f.d 2 fun s w => BitVec.ofNat 64 (popCount (kA s w f.ka)))
/-- KFIRST (R327). -/
def execKfirst (f : KfirstF) (s : State) : Out :=
  slotOp (.kfirst f) s (putK f.kd 2 fun s w => kA s w f.ka &&& (0 - kA s w f.ka))

/-! ### Moves between lanes and clusters -/

/-- An exposed lane write of raw values: register A read whole, whatever the masks hold (R330). -/
def laneOp (h : LHdr) (L : Nat) (g : State → Wave → Lanes → Nat → Word) (wid : Nat) (w : Wave) (s : State) : State :=
  laneWrite 4 (effMask s w (tagOf 4 0) h.k.toNat) h.dc h.d L (fun i l => rawLane (g s w (rdV s w (tagOf 4 1) h.sc h.a.toNat) i) l) wid w s

/-- LMOV (R332). -/
def execLmov (h : LHdr) (s : State) : Out := slotOp (.lmov h) s (laneOp h 2 fun _ _ a i => a.at i)
/-- LBCAST (R330). -/
def execLbcast (f : LbcastF) (s : State) : Out := slotOp (.lbcast f) s (laneOp f.h 2 fun _ _ a _ => a.at f.lane.toNat)
/-- LSHUF (R337). -/
def execLshuf (f : LshufF) (s : State) : Out :=
  slotOp (.lshuf f) s (laneOp f.h 3 fun s w a i => a.at (((rdV s w (tagOf 4 2) f.h.sc f.b.toNat).at i).toNat % 32))

/-- The source lane of LSHUF.pat (R337). -/
def patLane (kind : PatKind) (m i : Nat) : Nat :=
  match kind with
  | .xor => i ^^^ m
  | .rotUp => (i + 32 - m) % 32
  | .rotDn => (i + m) % 32
  | .rev => 31 - i

/-- LSHUF.pat (R337). -/
def execLshufPat (f : LpatF) (s : State) : Out :=
  slotOp (.lshufPat f) s (laneOp f.h 3 fun _ _ a i => a.at (patLane f.kind f.n.toNat i))

/-- LGET (R331). -/
def execLget (f : LgetF) (s : State) : Out :=
  slotOp (.lget f) s (putS f.d 3 fun s w => ((rdV s w (tagOf 4 1) f.sc f.a.toNat).at f.lane.toNat).zeroExtend 64)

/-- LPUT: all 32 lanes of D are written, lane B with s[A] (R334). -/
def execLput (f : LputF) (s : State) : Out :=
  slotOp (.lput f) s fun wid w s =>
    let old := rdV s w (tagOf 4 1) f.dc f.d.toNat
    let x := (rdS s w (tagOf 4 2) f.a.toNat).truncate 32
    setWave s wid (pushWin w (.v f.dc f.d.toNat (BitVec.allOnes 32)
      (Lanes.of fun i => if i.val = f.lane.toNat then x else old.at i.val)) 2)

/-! ### Reductions and scans -/

def wordMinMax (signed isMax : Bool) (x y : Word) : Word :=
  let lt := if signed then x.toInt < y.toInt else x.toNat < y.toNat
  if decide lt = isMax then y else x

/-- `Op` of R335 on two lanes; of its events only invalid and overflow are reported (R129). -/
def redOp (op : RedOp) (x y : Word) : Rounded :=
  let fx := f32F.decode x.toNat
  let fy := f32F.decode y.toNat
  match op with
  | .addI => ⟨(x + y).toNat, none⟩
  | .addF =>
    let r := fAdd f32F .rne 0 fx fy
    ⟨r.bits, if r.ev = some .underflow then none else r.ev⟩
  | .minS => ⟨(wordMinMax true false x y).toNat, none⟩
  | .maxS => ⟨(wordMinMax true true x y).toNat, none⟩
  | .minN => ⟨(wordMinMax false false x y).toNat, none⟩
  | .maxN => ⟨(wordMinMax false true x y).toNat, none⟩
  | .minF => ⟨fMin f32F fx fy, none⟩
  | .maxF => ⟨fMax f32F fx fy, none⟩
  | .band => ⟨(x &&& y).toNat, none⟩
  | .bor => ⟨(x ||| y).toNat, none⟩
  | .bxor => ⟨(x ^^^ y).toNat, none⟩

/-- A value that passes alone: a NaN of a floating operation becomes the canonical one (R121). -/
def loneVal (op : RedOp) (x : Word) : Word :=
  match op with
  | .addF | .minF | .maxF => if (f32F.decode x.toNat).isNan then BitVec.ofNat 32 f32F.nanPat else x
  | .addI | .minS | .maxS | .minN | .maxN | .band | .bor | .bxor => x

/-- `Comb` with the event of its operation (R335). -/
def comb (op : RedOp) (x y : Option Word) : Option Word × List Ev :=
  match x, y with
  | none, y => (y.map (loneVal op), [])
  | x, none => (x.map (loneVal op), [])
  | some a, some b => let r := redOp op a b; (some (BitVec.ofNat 32 r.bits), r.ev.toList)

/-- One level of the tree: neighbours combine, their events follow in order. -/
def combLevel (op : RedOp) : List (Option Word) → List (Option Word) × List Ev
  | x :: y :: t =>
    let c := comb op x y
    let r := combLevel op t
    (c.1 :: r.1, c.2 ++ r.2)
  | l => (l, [])

def combTree (op : RedOp) : Nat → List (Option Word) × List Ev → List (Option Word) × List Ev
  | 0, x => x
  | n + 1, x => let r := combLevel op x.1; combTree op n (r.1, x.2 ++ r.2)

/-- LRED's five levels over the active lanes (R335). -/
def redTree (op : RedOp) (mask : Word) (a : Lanes) : Word × List Ev :=
  let r := combTree op 5 ((List.range 32).map (fun i => if mask.getLsbD i then some (a.at i) else none), [])
  ((r.1.headD none).getD 0, r.2)

/-- LRED (R335): each kind of event is reported at the lowest active lane, in the order in which the tree meets them. -/
def execLred (f : LredF) (s : State) : Out :=
  slotOp (.lred f) s fun wid w s =>
    let mask := effMask s w (tagOf 4 0) f.h.k.toNat
    let r := redTree f.op mask (rdV s w (tagOf 4 1) f.h.sc f.h.a.toNat)
    let low := (maskLanes mask).headD 0
    laneWrite 4 mask f.h.dc f.h.d 6 (fun i l => { val := r.1, evs := if i = low then r.2 else [], lfsr := l }) wid w s

/-- `Ident` of R336. -/
def ident (op : RedOp) : Word :=
  match op with
  | .addI => 0 | .addF => 0
  | .minS => 0x7FFFFFFF | .maxS => 0x80000000 | .minN => 0xFFFFFFFF | .maxN => 0
  | .minF => 0x7F800000 | .maxF => 0xFF800000
  | .band => 0xFFFFFFFF | .bor => 0 | .bxor => 0

/-- LSCAN's results for the active lanes in ascending order: (lane, value, events) (R336). -/
def scanGo (op : RedOp) (excl : Bool) (a : Lanes) : List Nat → Option Word → List (Nat × Word × List Ev)
  | [], _ => []
  | i :: t, acc =>
    let c := comb op acc (some (a.at i))
    (i, if excl then acc.getD (ident op) else c.1.getD 0, c.2) :: scanGo op excl a t c.1

/-- LSCAN (R336). -/
def execLscan (f : LscanF) (s : State) : Out :=
  slotOp (.lscan f) s fun wid w s =>
    let mask := effMask s w (tagOf 4 0) f.h.k.toNat
    let rs := scanGo f.op f.excl (rdV s w (tagOf 4 1) f.h.sc f.h.a.toNat) (maskLanes mask) none
    laneWrite 4 mask f.h.dc f.h.d 6
      (fun i l => let r := Tab.findD rs i (0, []); { val := r.1, evs := r.2, lfsr := l }) wid w s

end Sys2Proof.Machine
end

