-- ==== Sys2Proof/Machine/Dispatch.lean ====
section
/-! DEFINITION. One arm for each constructor of Instr: the meaning of every step of the operations table. -/

namespace Sys2Proof.Machine

def exec (i : Instr) (s : State) : Host.Outcome State Fault Refusal :=
  match i with
  | .sadd f => Sys2Proof.Machine.execSadd f s
  | .ssub f => Sys2Proof.Machine.execSsub f s
  | .smul f => Sys2Proof.Machine.execSmul f s
  | .smulh f => Sys2Proof.Machine.execSmulh f s
  | .sand f => Sys2Proof.Machine.execSand f s
  | .sor f => Sys2Proof.Machine.execSor f s
  | .sxor f => Sys2Proof.Machine.execSxor f s
  | .sshl f => Sys2Proof.Machine.execSshl f s
  | .sshr f => Sys2Proof.Machine.execSshr f s
  | .ssar f => Sys2Proof.Machine.execSsar f s
  | .smin f => Sys2Proof.Machine.execSmin f s
  | .smax f => Sys2Proof.Machine.execSmax f s
  | .sset f => Sys2Proof.Machine.execSset f s
  | .ssel f => Sys2Proof.Machine.execSsel f s
  | .srd f => Sys2Proof.Machine.execSrd f s
  | .saddI f => Sys2Proof.Machine.execSaddI f s
  | .ssubI f => Sys2Proof.Machine.execSsubI f s
  | .smulI f => Sys2Proof.Machine.execSmulI f s
  | .sandI f => Sys2Proof.Machine.execSandI f s
  | .sorI f => Sys2Proof.Machine.execSorI f s
  | .sxorI f => Sys2Proof.Machine.execSxorI f s
  | .sshlI f => Sys2Proof.Machine.execSshlI f s
  | .sshrI f => Sys2Proof.Machine.execSshrI f s
  | .ssarI f => Sys2Proof.Machine.execSsarI f s
  | .sminI f => Sys2Proof.Machine.execSminI f s
  | .smaxI f => Sys2Proof.Machine.execSmaxI f s
  | .ssetI f => Sys2Proof.Machine.execSsetI f s
  | .sli f => Sys2Proof.Machine.execSli f s
  | .swr f => Sys2Proof.Machine.execSwr f s
  | .br disp => Sys2Proof.Machine.execBr disp s
  | .brc f => Sys2Proof.Machine.execBrc f s
  | .brx a => Sys2Proof.Machine.execBrx a s
  | .call f => Sys2Proof.Machine.execCall f s
  | .ret a => Sys2Proof.Machine.execRet a s
  | .loop f => Sys2Proof.Machine.execLoop f s
  | .exit k => Sys2Proof.Machine.execExit k s
  | .yield => Sys2Proof.Machine.execYield s
  | .trap code => Sys2Proof.Machine.execTrap code s
  | .bkpt code => Sys2Proof.Machine.execBkpt code s
  | .svc code => Sys2Proof.Machine.execSvc code s
  | .eret => Sys2Proof.Machine.execEret s
  | .bar f => Sys2Proof.Machine.execBar f s
  | .fence f => Sys2Proof.Machine.execFence f s
  | .phase f => Sys2Proof.Machine.execPhase f s
  | .mwait f => Sys2Proof.Machine.execMwait f s
  | .gwait f => Sys2Proof.Machine.execGwait f s
  | .gopen f => Sys2Proof.Machine.execGopen f s
  | .felrd f => Sys2Proof.Machine.execFelrd f s
  | .replay f => Sys2Proof.Machine.execReplay f s
  | .invpg f => Sys2Proof.Machine.execInvpg f s
  | .vadd f => Sys2Proof.Machine.execVadd f s
  | .vsub f => Sys2Proof.Machine.execVsub f s
  | .vmul f => Sys2Proof.Machine.execVmul f s
  | .vfma f => Sys2Proof.Machine.execVfma f s
  | .vmin f => Sys2Proof.Machine.execVmin f s
  | .vmax f => Sys2Proof.Machine.execVmax f s
  | .vcmp f => Sys2Proof.Machine.execVcmp f s
  | .vsel f => Sys2Proof.Machine.execVsel f s
  | .vand f => Sys2Proof.Machine.execVand f s
  | .vor f => Sys2Proof.Machine.execVor f s
  | .vxor f => Sys2Proof.Machine.execVxor f s
  | .vshl f => Sys2Proof.Machine.execVshl f s
  | .vshr f => Sys2Proof.Machine.execVshr f s
  | .vsar f => Sys2Proof.Machine.execVsar f s
  | .vmov f => Sys2Proof.Machine.execVmov f s
  | .vpop f => Sys2Proof.Machine.execVpop f s
  | .vclz f => Sys2Proof.Machine.execVclz f s
  | .vcvt f => Sys2Proof.Machine.execVcvt f s
  | .vmulh f => Sys2Proof.Machine.execVmulh f s
  | .vrnd f => Sys2Proof.Machine.execVrnd f s
  | .vidx f => Sys2Proof.Machine.execVidx f s
  | .vaddI f => Sys2Proof.Machine.execVaddI f s
  | .vsubI f => Sys2Proof.Machine.execVsubI f s
  | .vmulI f => Sys2Proof.Machine.execVmulI f s
  | .vfmaI f => Sys2Proof.Machine.execVfmaI f s
  | .vminI f => Sys2Proof.Machine.execVminI f s
  | .vmaxI f => Sys2Proof.Machine.execVmaxI f s
  | .vcmpI f => Sys2Proof.Machine.execVcmpI f s
  | .vselI f => Sys2Proof.Machine.execVselI f s
  | .vandI f => Sys2Proof.Machine.execVandI f s
  | .vorI f => Sys2Proof.Machine.execVorI f s
  | .vxorI f => Sys2Proof.Machine.execVxorI f s
  | .vshlI f => Sys2Proof.Machine.execVshlI f s
  | .vshrI f => Sys2Proof.Machine.execVshrI f s
  | .vsarI f => Sys2Proof.Machine.execVsarI f s
  | .vmovI f => Sys2Proof.Machine.execVmovI f s
  | .fdiv f => Sys2Proof.Machine.execFdiv f s
  | .fsqrt f => Sys2Proof.Machine.execFsqrt f s
  | .frcp f => Sys2Proof.Machine.execFrcp f s
  | .frsq f => Sys2Proof.Machine.execFrsq f s
  | .fexp2 f => Sys2Proof.Machine.execFexp2 f s
  | .flog2 f => Sys2Proof.Machine.execFlog2 f s
  | .ftanh f => Sys2Proof.Machine.execFtanh f s
  | .kand f => Sys2Proof.Machine.execKand f s
  | .kor f => Sys2Proof.Machine.execKor f s
  | .kxor f => Sys2Proof.Machine.execKxor f s
  | .kandn f => Sys2Proof.Machine.execKandn f s
  | .kset k => Sys2Proof.Machine.execKset k s
  | .ksetSreg f => Sys2Proof.Machine.execKsetSreg f s
  | .kpop f => Sys2Proof.Machine.execKpop f s
  | .kfirst f => Sys2Proof.Machine.execKfirst f s
  | .lmov f => Sys2Proof.Machine.execLmov f s
  | .lshuf f => Sys2Proof.Machine.execLshuf f s
  | .lshufPat f => Sys2Proof.Machine.execLshufPat f s
  | .lbcast f => Sys2Proof.Machine.execLbcast f s
  | .lred f => Sys2Proof.Machine.execLred f s
  | .lscan f => Sys2Proof.Machine.execLscan f s
  | .lget f => Sys2Proof.Machine.execLget f s
  | .lput f => Sys2Proof.Machine.execLput f s
  | .mld f => Sys2Proof.Machine.execMld f s
  | .mldStride f => Sys2Proof.Machine.execMldStride f s
  | .mst f => Sys2Proof.Machine.execMst f s
  | .mstStride f => Sys2Proof.Machine.execMstStride f s
  | .mldl f => Sys2Proof.Machine.execMldl f s
  | .mldlStride f => Sys2Proof.Machine.execMldlStride f s
  | .mstl f => Sys2Proof.Machine.execMstl f s
  | .mstlStride f => Sys2Proof.Machine.execMstlStride f s
  | .mldu f => Sys2Proof.Machine.execMldu f s
  | .mstu f => Sys2Proof.Machine.execMstu f s
  | .matom f => Sys2Proof.Machine.execMatom f s
  | .mcas f => Sys2Proof.Machine.execMcas f s
  | .mwatch f => Sys2Proof.Machine.execMwatch f s
  | .mpref f => Sys2Proof.Machine.execMpref f s
  | .mflush f => Sys2Proof.Machine.execMflush f s
  | .mcopy f => Sys2Proof.Machine.execMcopy f s
  | .mgather f => Sys2Proof.Machine.execMgather f s
  | .mcast f => Sys2Proof.Machine.execMcast f s
  | .mspush f => Sys2Proof.Machine.execMspush f s
  | .mspop f => Sys2Proof.Machine.execMspop f s
  | .msfree f => Sys2Proof.Machine.execMsfree f s
  | .tclaim f => Sys2Proof.Machine.execTclaim f s
  | .trel f => Sys2Proof.Machine.execTrel f s
  | .tload f => Sys2Proof.Machine.execTload f s
  | .tstore f => Sys2Proof.Machine.execTstore f s
  | .tzero f => Sys2Proof.Machine.execTzero f s
  | .tmma f => Sys2Proof.Machine.execTmma f s
  | .tbmm f => Sys2Proof.Machine.execTbmm f s
  | .tscac f => Sys2Proof.Machine.execTscac f s
  | .tquant f => Sys2Proof.Machine.execTquant f s
  | .tcvt f => Sys2Proof.Machine.execTcvt f s
  | .tmovv f => Sys2Proof.Machine.execTmovv f s
  | .tstat f => Sys2Proof.Machine.execTstat f s
  | .tmmao f => Sys2Proof.Machine.execTmmao f s
  | .tldo f => Sys2Proof.Machine.execTldo f s
  | .emptyBundle => Sys2Proof.Machine.execEmptyBundle s
  | .deviceReset => Sys2Proof.Machine.execDeviceReset s
  | .functionLevelReset v => Sys2Proof.Machine.execFunctionLevelReset v s
  | .stageDieReset die => Sys2Proof.Machine.execStageDieReset die s
  | .firmwarePush len => Sys2Proof.Machine.execFirmwarePush len s
  | .registerImageKey => Sys2Proof.Machine.execRegisterImageKey s
  | .newDebugChallenge => Sys2Proof.Machine.execNewDebugChallenge s
  | .debugUnlock => Sys2Proof.Machine.execDebugUnlock s
  | .checkpoint => Sys2Proof.Machine.execCheckpoint s
  | .restoreFromCheckpoint => Sys2Proof.Machine.execRestoreFromCheckpoint s
  | .decommission => Sys2Proof.Machine.execDecommission s
  | .unknownCommand op => Sys2Proof.Machine.execUnknownCommand op s
  | .spdmMeasurements nonce => Sys2Proof.Machine.execSpdmMeasurements nonce s
  | .getCertificate => Sys2Proof.Machine.execGetCertificate s
  | .hostMemAccess a => Sys2Proof.Machine.execHostMemAccess a s
  | .biasTableWrite n val => Sys2Proof.Machine.execBiasTableWrite n val s
  | .queueEnable q val => Sys2Proof.Machine.execQueueEnable q val s
  | .queueDisable q => Sys2Proof.Machine.execQueueDisable q s
  | .qtailDoorbell q tail => Sys2Proof.Machine.execQtailDoorbell q tail s
  | .queueReset q => Sys2Proof.Machine.execQueueReset q s
  | .handlerTableEnable v val => Sys2Proof.Machine.execHandlerTableEnable v val s
  | .debugHaltRequest val => Sys2Proof.Machine.execDebugHaltRequest val s
  | .debugResume val => Sys2Proof.Machine.execDebugResume val s
  | .sliceLimitClear die mask => Sys2Proof.Machine.execSliceLimitClear die mask s
  | .fwinWrite die val => Sys2Proof.Machine.execFwinWrite die val s
  | .sensorRevalidate die val => Sys2Proof.Machine.execSensorRevalidate die val s
  | .clbudWrite die val => Sys2Proof.Machine.execClbudWrite die val s
  | .tollBucketEnable die v far val => Sys2Proof.Machine.execTollBucketEnable die v far val s
  | .oppwinWrite die v lo hi => Sys2Proof.Machine.execOppwinWrite die v lo hi s
  | .registerWrite w => Sys2Proof.Machine.execRegisterWrite w s
  | .launch q => Sys2Proof.Machine.execLaunch q s
  | .route q => Sys2Proof.Machine.execRoute q s
  | .mark q => Sys2Proof.Machine.execMark q s
  | .waitmark q => Sys2Proof.Machine.execWaitmark q s
  | .waitmarkPoll q => Sys2Proof.Machine.execWaitmarkPoll q s
  | .gatecfg q => Sys2Proof.Machine.execGatecfg q s
  | .timestamp q => Sys2Proof.Machine.execTimestamp q s
  | .energy q => Sys2Proof.Machine.execEnergy q s
  | .hostcopy q => Sys2Proof.Machine.execHostcopy q s
  | .nopkt q => Sys2Proof.Machine.execNopkt q s
  | .gateRaise lid => Sys2Proof.Machine.execGateRaise lid s
  | .partyPlace lid => Sys2Proof.Machine.execPartyPlace lid s
  | .waveRelease wid => Sys2Proof.Machine.execWaveRelease wid s
  | .tokenFetch wid => Sys2Proof.Machine.execTokenFetch wid s
  | .ostlerRefill core => Sys2Proof.Machine.execOstlerRefill core s
  | .exposedResultLand wid => Sys2Proof.Machine.execExposedResultLand wid s
  | .loadReturn id => Sys2Proof.Machine.execLoadReturn id s
  | .pageWalk id va => Sys2Proof.Machine.execPageWalk id va s
  | .storeTranslate id => Sys2Proof.Machine.execStoreTranslate id s
  | .storeCommit id => Sys2Proof.Machine.execStoreCommit id s
  | .publicationComplete core => Sys2Proof.Machine.execPublicationComplete core s
  | .releaseApply id => Sys2Proof.Machine.execReleaseApply id s
  | .convoyPhaseComplete cv => Sys2Proof.Machine.execConvoyPhaseComplete cv s
  | .milestoneAdvance party ctx => Sys2Proof.Machine.execMilestoneAdvance party ctx s
  | .gateWaitWake wid => Sys2Proof.Machine.execGateWaitWake wid s
  | .mwatchWake wid => Sys2Proof.Machine.execMwatchWake wid s
  | .mwatchTimeout wid => Sys2Proof.Machine.execMwatchTimeout wid s
  | .handlerEntry wid => Sys2Proof.Machine.execHandlerEntry wid s
  | .copyComplete id => Sys2Proof.Machine.execCopyComplete id s
  | .mcastLanding id pos => Sys2Proof.Machine.execMcastLanding id pos s
  | .streamPushComplete ep => Sys2Proof.Machine.execStreamPushComplete ep s
  | .mspopAcquire wid => Sys2Proof.Machine.execMspopAcquire wid s
  | .overflowLodging ep => Sys2Proof.Machine.execOverflowLodging ep s
  | .cyclicWait route => Sys2Proof.Machine.execCyclicWait route s
  | .tollRefill die v => Sys2Proof.Machine.execTollRefill die v s
  | .tileFillComplete core id => Sys2Proof.Machine.execTileFillComplete core id s
  | .tileDrainComplete core id => Sys2Proof.Machine.execTileDrainComplete core id s
  | .tileOpRetire core => Sys2Proof.Machine.execTileOpRetire core s
  | .preemptRequest lid => Sys2Proof.Machine.execPreemptRequest lid s
  | .safePointStop wid => Sys2Proof.Machine.execSafePointStop wid s
  | .bodySave lid => Sys2Proof.Machine.execBodySave lid s
  | .bodyResume lid die => Sys2Proof.Machine.execBodyResume lid die s
  | .watchdogExpiry wid => Sys2Proof.Machine.execWatchdogExpiry wid s
  | .sliceEnd die => Sys2Proof.Machine.execSliceEnd die s
  | .waveHalt wid => Sys2Proof.Machine.execWaveHalt wid s
  | .waveRetire wid => Sys2Proof.Machine.execWaveRetire wid s
  | .launchComplete lid => Sys2Proof.Machine.execLaunchComplete lid s
  | .yieldMarkExpiry wid => Sys2Proof.Machine.execYieldMarkExpiry wid s
  | .powerExempt wid => Sys2Proof.Machine.execPowerExempt wid s
  | .oppPhaseEnd core => Sys2Proof.Machine.execOppPhaseEnd core s
  | .oppTransitionEnd core => Sys2Proof.Machine.execOppTransitionEnd core s
  | .allowStep core => Sys2Proof.Machine.execAllowStep core s
  | .rampStep core => Sys2Proof.Machine.execRampStep core s
  | .arrayFillDown core => Sys2Proof.Machine.execArrayFillDown core s
  | .capMeasurement pwr => Sys2Proof.Machine.execCapMeasurement pwr s
  | .droopAlarm cluster => Sys2Proof.Machine.execDroopAlarm cluster s
  | .droopStretchEnd cluster => Sys2Proof.Machine.execDroopStretchEnd cluster s
  | .droopHalvingEnd cluster => Sys2Proof.Machine.execDroopHalvingEnd cluster s
  | .sliceRailLoop core slice => Sys2Proof.Machine.execSliceRailLoop core slice s
  | .sensorSample x => Sys2Proof.Machine.execSensorSample x s
  | .counterSample => Sys2Proof.Machine.execCounterSample s
  | .eccErrorNoConsumer loc => Sys2Proof.Machine.execEccErrorNoConsumer loc s
  | .allowanceGain cluster => Sys2Proof.Machine.execAllowanceGain cluster s
  | .l1DirtyEviction id => Sys2Proof.Machine.execL1DirtyEviction id s
  | .ideKmKeySet key => Sys2Proof.Machine.execIdeKmKeySet key s

end Sys2Proof.Machine
end

