-- ==== Sys2Proof/Machine/HostRead.lean ====
section
/-! DEFINITION. What a host read returns (R9, R10): the device identification (R2), the capability list (R264), and the registers of
each block (R176, R184, R242, R246, R261, R272, R280, R292, R294, R296, R298, R302). A read changes nothing. -/

namespace Sys2Proof.Machine

/-- Fields of a register as (lowest bit, value). -/
def fields (l : List (Nat × Nat)) : DWord := BitVec.ofNat 64 (l.foldl (fun a x => a + x.2 * 2 ^ x.1) 0)

def bitNat (b : Bool) : Nat := if b then 1 else 0

/-- Word i of 8 bytes of a list of bytes. -/
def wordAt (l : List Byte) (i : Nat) : DWord := BitVec.ofNat 64 (leNat ((l.drop (8 * i)).take 8))

/-! ### Identification and the capability list -/

/-- The device identification registers (R2). -/
def steppingRead : Word := Config.stepping

/-- The identifiers that a function's list holds (R264, R299). -/
def capIds (vf : Option Nat) : List Nat := match vf with | some _ => [1, 3] | none => [2, 4, 5, 6, 7, 8, 9, 10]

/-- The bytes that a block's registers take. -/
def blockSize (n : Nat) : Nat :=
  match n with
  | 1 => 0x1000 | 2 => 0x88 | 3 => 0x1B0 | 5 => 0x50 | 6 => 0x240 | 7 => 0x200000 | 8 => 0x480 | 9 => 0x8 | 10 => 0x1100 | _ => 0

/-- The identifiers in the order of their places: the largest block stands last, so that every entry fits NEXT's 12 bits. -/
def capOrder (vf : Option Nat) : List Nat := (capIds vf).filter (· != 7) ++ (capIds vf).filter (· == 7)

/-- Where an entry stands, in units of 16 bytes, at or after a place: a gap that the manual leaves open before each entry, then the
entry and its block (DESIGN CHOICE, log 4). -/
def capGo (vf : Option Nat) (n : Nat) : List Nat → Nat → Nat
  | [], p => p
  | k :: t, p =>
    let a := p + Config.capabilityGap vf k % 256
    if k = n then a else capGo vf n t (a + 1 + (blockSize k + 15) / 16)

/-- The place of a function's entry, above the registers that the manual places itself (R264, R298). -/
def capPlace (vf : Option Nat) (n : Nat) : Nat := capGo vf n (capOrder vf) 0x108

/-- The register at 0x10 of the first memory BAR: the offset of the first entry (R264). -/
def capHead (vf : Option Nat) : Nat := match capIds vf with | [] => 0 | n :: _ => 16 * capPlace vf n

/-- The entry after one in the list, in units of 16 bytes; 0 ends the list. -/
def capNext (vf : Option Nat) (n : Nat) : Nat :=
  match (capIds vf).dropWhile (· != n) with
  | _ :: k :: _ => capPlace vf k
  | _ => 0

/-- The word that an entry begins with (R264): NEXT, VER 1 and ID. -/
def capWord (vf : Option Nat) (n : Nat) : Word := BitVec.ofNat 32 (capNext vf n % 4096 * 2 ^ 20 + 2 ^ 16 + n)

/-- Where a block's registers begin (R264). -/
def blockBase (vf : Option Nat) (n : Nat) : Nat := 16 * capPlace vf n + 16

/-! ### Blocks of a virtual function -/

def queueState (x : QState) : Nat := match x with | .disabled => 0 | .running => 1 | .faulted => 2

/-- A queue's group (R246). -/
def queueRead (s : State) (k off : Nat) : DWord :=
  let q := queueOf s k
  match off with
  | 0x00 => fields [(63, bitNat q.loc), (0, q.addr)]
  | 0x08 => fields [(24, q.asid), (16, q.rev), (4, q.log2), (0, bitNat q.en)]
  | 0x10 => q.tail.zeroExtend 64
  | 0x18 => q.head.zeroExtend 64
  | 0x20 => q.done.zeroExtend 64
  | 0x28 => fields [(9, bitNat q.irq), (8, bitNat q.fault), (0, queueState q.st)]
  | 0x30 => BitVec.ofNat 64 q.qerra
  | _ => 0

/-- The handler block (R272): entries of causes that no handler takes read as zero. -/
def handlerRead (s : State) (vf off : Nat) : DWord :=
  let f := funcOf s vf
  if off = 0 then BitVec.ofNat 64 f.himage
  else if off = 8 then fields [(17, bitNat f.hbad), (16, bitNat f.hen), (0, f.wd)]
  else if 0x100 ≤ off ∧ off % 8 = 0 ∧ handlerCause ((off - 0x100) / 8) then
    match Tab.find f.hentry ((off - 0x100) / 8) with
    | some e => fields [(32, bitNat e.valid), (0, e.entry.toNat)]
    | none => 0
  else 0

/-! ### Blocks of the physical function -/

/-- Time slices (R261). -/
def slicesRead (s : State) (off : Nat) : DWord :=
  if off = 0 then BitVec.ofNat 64 s.quantum
  else if off % 8 = 0 ∧ off < 0x88 then BitVec.ofNat 64 (funcOf s ((off - 8) / 8)).weight
  else 0

/-- The cap block (R292). -/
def capsRead (s : State) (off : Nat) : DWord :=
  let c := s.caps
  if off = 0 then fields [(32, c.avg), (0, c.peak)]
  else if off = 8 then fields [(32, c.pwr % 2 ^ 32), (10, bitNat c.avgLim), (9, bitNat c.peakLim), (0, c.f)]
  else if off % 8 = 0 ∧ 0x10 ≤ off ∧ off < 0x50 then BitVec.ofNat 64 (dieOf s ((off - 0x10) / 8)).clbud
  else 0

/-- The bits of sensors that show as invalid: a 1 that the host has written clears the bit until the next sample (R9, R296). -/
def invalidBits (t : Tab Sensor) : Nat := t.foldl (fun a e => if !e.2.valid && !e.2.rearm then a ||| 2 ^ e.1 else a) 0

/-- SENSTAT of a die (R296). -/
def senstat (s : State) (die : Nat) : DWord :=
  let d := dieOf s die
  fields [(40, bitNat d.held), (32, invalidBits d.current % 256), (0, invalidBits d.thermal % 2 ^ 32)]

/-- Droop and sensors (R294, R296). -/
def droopRead (s : State) (off : Nat) : DWord :=
  if off % 8 ≠ 0 then 0
  else if off < 0x200 then let c := clus s (off / 8); fields [(8, c.alarms.toNat), (0, c.thresh.toNat)]
  else if off < 0x240 then senstat s ((off - 0x200) / 8)
  else 0

/-- Some core of a die holds a slice on the core rail (R176). -/
def sliceHeld (s : State) (die q : Nat) : Bool :=
  s.cores.any fun e => dieOfCore e.1 == die && (e.2.slices.getD q Slice.init).held.isSome

/-- FSTAT of a die (R176). -/
def fstat (s : State) (die : Nat) : DWord :=
  fields [(10, bitNat (sliceHeld s die 2)), (9, bitNat (sliceHeld s die 1)), (8, bitNat (sliceHeld s die 0)), (0, (dieOf s die).limit.toNat)]

/-- Slice fidelity (R176). -/
def sliceRead (s : State) (off : Nat) : DWord :=
  let d := dieOf s (off / 0x80)
  if off < 0x400 then
    match off % 0x80 with
    | 0x00 => fields [(8, bitNat d.loopen), (0, d.texp)]
    | 0x08 => fields [(8, d.minoff), (0, d.maxoff)]
    | 0x10 => fstat s (off / 0x80)
    | 0x18 => BitVec.ofNat 64 (d.ftot.getD 0 0)
    | 0x20 => BitVec.ofNat 64 (d.ftot.getD 1 0)
    | 0x28 => BitVec.ofNat 64 (d.ftot.getD 2 0)
    | _ => 0
  else if off % 8 = 0 ∧ off < 0x480 then BitVec.ofNat 64 (funcOf s ((off - 0x400) / 8)).floor
  else 0

/-- TRBASE (R184). -/
def trbaseRead (s : State) (off : Nat) : DWord := if off = 0 then fields [(0, s.trbase), (0, bitNat s.tren)] else 0

/-- STRCFG or FARCFG, and the level with the refill up to now (R242). -/
def tollRead (s : State) (t : Toll) (level : Bool) : DWord :=
  if level then BitVec.ofInt 64 (refillToll (ticks s) t).level else fields [(63, bitNat t.en), (32, t.depth), (0, t.rate)]

/-- Toll buckets and lodging budgets (R242). -/
def tollsRead (s : State) (off : Nat) : DWord :=
  let die := off / 0x200
  let vf := off / 0x20 % 16
  if off < 0x1000 then
    match off % 0x20 with
    | 0x00 => tollRead s (tollAt s die vf false) false
    | 0x08 => tollRead s (tollAt s die vf false) true
    | 0x10 => tollRead s (tollAt s die vf true) false
    | 0x18 => tollRead s (tollAt s die vf true) true
    | _ => 0
  else if off < 0x1100 then
    match off % 16 with
    | 0 => BitVec.ofNat 64 (funcOf s ((off - 0x1000) / 16)).lodgeBud
    | 8 => BitVec.ofNat 64 (funcOf s ((off - 0x1000) / 16)).lodgeUse
    | _ => 0
  else 0

/-! ### The debug group (R280, R282) -/

/-- WAITK of a wave; one that awaits the acknowledgements of its INVPG waits on the scoreboard, which its status passes through (R203). -/
def waitKind (s : State) (wid : Nat) (w : Wave) : Nat :=
  if w.st = .waiting then waitCode w
  else if issuing s wid w then holdKind s wid w
  else if inInvpg s wid && (w.st == .running || w.st == .handler) then 6 else 0

/-- DBGSTAT of a slot; an empty one reads 7. -/
def dbgstat (s : State) (wid : Nat) : DWord :=
  match waveOf s wid with
  | some w => fields [(32, w.pc.toNat), (8, waitKind s wid w), (3, bitNat w.sup), (0, stCode (shownState s wid w))]
  | none => 7

/-- The launch whose share of the core the window shows: the selected slot's, else one that is resident there, which the manual leaves
open (log 43). -/
def windowLaunch (s : State) (core : Nat) : Nat :=
  match waveOf s s.sec.dbgSel with
  | some w => w.lid
  | none => let l := (coreOf s core).shares.map (·.1); l.getD (pick s 4700000 l.length) 0

/-- A byte of the core window (R277, R280): the core's live state; what the layout leaves out reads free. -/
def windowByte (s : State) (off : Nat) : Byte :=
  let core := s.sec.dbgSel / 16
  let lid := windowLaunch s core
  let c := coreOf s core
  let sh := Tab.findD c.shares lid Share.init
  let open_ := (free s (4800000 + off)).truncate 8
  if off < 0x400 then (headerBytes s lid core).getD off 0
  else if off < 0xD00 then (msBytes s core lid ++ dictBytes (dictList c lid) ++ tableBytes s core lid).getD (off - 0x400) 0
  else if off < 0x1000 then 0
  else if off < 0x11000 then (accImage s 9600000 c.accs ((off - 0x1000) / 4096)).getD ((off - 0x1000) % 4096) 0
  else if off < 0x19000 then (accImage s 9700000 c.parts ((off - 0x11000) / 4096)).getD ((off - 0x11000) % 4096) 0
  else if off < 0x39800 then
    let o := (off - 0x19000) / 4160
    (slotBytes s core o ((off - 0x19000) % 4160) 1 (9800000 + 8192 * o)).headD 0
  else if 0x40000 ≤ off ∧ off - 0x40000 < 6144 * sh.units then Tab.findD c.pad (6144 * sh.unit + (off - 0x40000)) 0
  else open_

/-- The debug group: it exists only in the debug-unlocked state, and the core window as far as the token allows it (R280, R306). -/
def debugRead (s : State) (off : Nat) : DWord :=
  if s.sec.lc ≠ 2 then 0
  else if off = 0x800 then BitVec.ofNat 64 s.sec.dbgSel
  else if off = 0x808 then fields [(1, bitNat (s.sec.bkhalt.contains s.sec.dbgSel)), (0, bitNat (s.sec.halt.contains s.sec.dbgSel))]
  else if off = 0x810 then dbgstat s s.sec.dbgSel
  else if 0x100000 ≤ off ∧ off < 0x200000 ∧ off % 8 = 0 ∧ s.sec.dbgPerm.testBit 1 then
    BitVec.ofNat 64 (leNat ((List.range 8).map fun i => windowByte s (off - 0x100000 + i)))
  else 0

/-- The security block (R302): in step 1 and after a fuse error nothing but STAGE reads other than 0 (R300). -/
def secRead (s : State) (off : Nat) : DWord :=
  let x := s.sec
  if x.stage = 1 then (if off = 0 then fields [(5, 1)] else 0)
  else
    match off with
    | 0x00 => fields [(5, x.stage), (4, bitNat x.recov), (2, x.lc)]
    | 0x08 => Config.devId
    | 0x10 => x.fwsrc
    | 0x18 => fields [(32, x.result), (1, x.len), (0, bitNat x.go.isSome)]
    | 0x20 => fields [(16, bitNat x.busy), (8, x.status), (0, x.op.toNat)]
    | 0x28 => x.arg0
    | 0x30 => x.arg1
    | _ =>
      if 0x40 ≤ off ∧ off < 0x60 ∧ off % 8 = 0 then wordAt (leBytes 32 x.chal.toNat) ((off - 0x40) / 8)
      else if 0x100 ≤ off ∧ off < 0x200 ∧ off % 8 = 0 then wordAt (x.mr.flatMap hashBytes) ((off - 0x100) / 8)
      else if 0x800 ≤ off then debugRead s off
      else 0

/-- The bias table and its busy bit, in the physical function's BAR (R298). -/
def biasRead (s : State) (off : Nat) : DWord :=
  if off = 0xFF8 then fields [(0, bitNat (biasBusy s))]
  else fields ((List.range 64).map fun i => (i, bitNat (s.bias.contains (8 * (off - 0x1000) + i))))

/-! ### A read -/

/-- A register of a block: of one that the function does not see, 0. The block of operating-point windows has no layout in the manual:
what it reads as is free (log 58). -/
def registerRead (s : State) (vf : Option Nat) (cap off : Nat) : DWord :=
  match vf with
  | some v =>
    if cap = 1 then (if off < 0x1000 then queueRead s (queueKey v (off / 0x40)) (off % 0x40) else 0)
    else if cap = 3 then handlerRead s v off
    else 0
  | none =>
    match cap with
    | 2 => slicesRead s off
    | 4 => free s (4900000 + off)
    | 5 => capsRead s off
    | 6 => droopRead s off
    | 7 => secRead s off
    | 8 => sliceRead s off
    | 9 => trbaseRead s off
    | 10 => tollsRead s off
    | _ => 0

/-- A host read of a block's register: before boot has ended and in recovery only the security block answers (R300, R301); none is no
answer. -/
def hostRead (s : State) (vf : Option Nat) (cap off : Nat) : Option DWord :=
  if answers s || (vf.isNone && cap == 7) then some (registerRead s vf cap off) else none

/-- A host read of the first memory BAR of a function: the list's head and entries, the bias table, and the blocks (R264, R298). -/
def barRead (s : State) (vf : Option Nat) (off : Nat) : Option DWord :=
  if off = 0x10 then some (BitVec.ofNat 64 (capHead vf))
  else if vf.isNone && (off == 0xFF8 || (decide (0x1000 ≤ off) && decide (off < 0x1080) && off % 8 == 0)) then
    (if answers s then some (biasRead s off) else none)
  else match (capIds vf).find? fun n => off == 16 * capPlace vf n with
    | some n => some ((capWord vf n).zeroExtend 64)
    | none => match (capIds vf).find? fun n => blockBase vf n ≤ off && off < blockBase vf n + blockSize n with
      | some n => hostRead s vf n (off - blockBase vf n)
      | none => none

end Sys2Proof.Machine
end

