-- ==== Sys2Proof/Machine/Cycle.lean ====
section
/-! DEFINITION. One cycle of a core: its clock edge (R285, R293, R407), exposed results (R65), traps and stops that are due, token
fetch (R59), the Pilot (R149, R288, R289), the choice of a wave (R262, R263), the issue of its bundle (R52), and the counters of
R41, R42, R46, R47, R287 to R290 and R295. The meanings of instructions come in as the argument `ex`. -/

namespace Sys2Proof.Machine

abbrev Exec := Instr → State → Out

/-! ### Sequencing -/

/-- An event takes place if it can. -/
def attempt (ex : Exec) (i : Instr) (s : State) : Out :=
  match ex i s with
  | .refused .notEnabled => .next s
  | o => o

def andThen (o : Out) (f : State → Out) : Out :=
  match o with
  | .next s => f s
  | .fault x => .fault x
  | .refused r => .refused r

def attemptAll (ex : Exec) : List Instr → State → Out
  | [], s => .next s
  | i :: t, s => andThen (attempt ex i s) (attemptAll ex t)

/-- The wave slots of a core in use, rising. -/
def slotsOf (s : State) (core : Nat) : List Nat := (wavesOn s core).map (·.1)

/-- An event for each wave of a core. -/
def forWaves (ex : Exec) (core : Nat) (f : Nat → List Instr) (s : State) : Out := attemptAll ex ((slotsOf s core).flatMap f) s

/-! ### The clock edge -/

/-- Time, the cycle counter and the droop's counters move by one cycle; the allowance gains with the cluster's fastest core (R287). -/
def clockEdge (s : State) (core : Nat) : State :=
  let x := coreOf s core
  let p := periodOf s core
  let s1 := setCore { s with now := max s.now x.edge } core { x with
    edge := x.edge + p
    cyc := x.cyc + 1
    stretch := x.stretch.map (· - 1)
    halve := x.halve.map (· - 1)
    pair := if x.halve.isSome then x.pair + 1 else x.pair
    allowUp := x.allowUp - 1
    rampCyc := if x.rampCyc = 0 ∨ x.ramp = 0 then x.rampCyc else x.rampCyc + 1
    smpCyc := x.smpCyc + 1 }
  if leader s (clusterOf core) = core then modClus s1 (clusterOf core) fun c => { c with due := c.due + 1, at_ := s1.now }
  else quietGain s1 (clusterOf core)

/-- A wave that the watchdog counts (R46, R275). -/
def watched (w : Wave) : Bool := w.preempt && (w.st == .running || w.st == .waiting || w.st == .handler)

/-- One cycle of a wave's own counters. -/
def tickWave (w : Wave) : Wave :=
  { tickWins w with
    waitCnt := w.waitCnt - 1
    watchdog := if watched w then w.watchdog + 1 else w.watchdog
    yielded := w.yielded.map fun y => { y with age := y.age + 1 } }

def tickWaves (s : State) (core : Nat) : State :=
  { s with waves := s.waves.map fun e => (e.1, if coreNo e.1 = core then tickWave e.2 else e.2) }

/-! ### The Pilot -/

/-- One step of the operation at the Pilot's head: slots that it fills show the step reached. -/
def pilotStep (s : State) (core : Nat) (p : PilotOp) (rest : List PilotOp) : State :=
  let s1 := modCore s core fun x => { x with pilot := { p with step := p.step + 1 } :: rest }
  match waveOf s p.wid with
  | none => s1
  | some w => (slotFills (pilotInstr p.op) s w).foldl (fun a o => modEntry a core o fun e => { e with step := p.step + 1 }) s1

/-- The debit of a Pilot step, charged to the launch of the tile party (R287, R295). -/
def pilotDebit (s : State) (core n : Nat) : State := ((coreOf s core).tile.map (·.1)).toList.foldl drewBy (debit s core n)

/-- An array step: its slice-operations, its debit, the throttle that follows, and the fill-down's bookkeeping (R174, R287 to R289). -/
def arrayStep (s : State) (core : Nat) (p : PilotOp) (rest : List PilotOp) : State :=
  let before := (clus s (clusterOf core)).allow
  let s1 := pilotDebit (pilotStep (countOps s core p) core p rest) core (arrayCost p.op)
  let below := decide (0 ≤ before ∧ (clus s1 (clusterOf core)).allow < 0)
  modCore s1 core fun x =>
    let up := below && x.allowUp == 0
    { x with
      allow := if up then min (x.allow + 1) 7 else x.allow
      allowUp := if up then 256 else x.allowUp
      rampCyc := max x.rampCyc 1
      lastArray := ticks s
      lastKind := arrayCost p.op
      filling := none
      fillFor := x.tile }

/-- RAMP is 7 again when an array step is due after 2,400 ticks without one. -/
def rampDue (s : State) (core : Nat) : State :=
  modCore s core fun x => if x.lastArray + 2400 ≤ ticks s ∧ x.filling.isNone then { x with ramp := 7, rampCyc := 0 } else x

/-- The Pilot's cycle: a stop holds it at a multiple of 64 steps (R149), STEP and another party's fill-down hold array steps. -/
def pilotCycle (ex : Exec) (core : Nat) (s : State) : Out :=
  match (coreOf s core).pilot with
  | [] => .next s
  | p :: rest =>
    if p.steps ≤ p.step then attempt ex (.tileOpRetire core) s
    else if pilotPaused s core && p.step % 64 == 0 then .next s
    else if arrayCost p.op = 0 then attempt ex (.tileOpRetire core) (pilotDebit (pilotStep s core p rest) core 400)
    else
      let s1 := rampDue s core
      let x := coreOf s1 core
      if (x.lastKind != 0 && x.fillFor != x.tile) || decide (8 ≤ x.cyc.toNat % 8 + matrixStep s1 core) then .next s1
      else attempt ex (.tileOpRetire core) (arrayStep s1 core p rest)

/-! ### Which waves can issue -/

/-- A wave whose bundle has passed every check but the toll, the F pipe and power; `stop` says that it is to stop in front of it. -/
structure Cand where
  wid : Nat
  w : Wave
  t : Fetched
  b : Bundle
  stop : Bool
  toll : Bool
  fop : Bool
  fok : Bool
  power : Bool
  deriving DecidableEq, Repr

/-- The F pipe accepts an operation of a wave (R69, R263). -/
def pipeOk (x : Core) (wid : Nat) : Bool := decide (x.fnext.toNat ≤ x.cyc.toNat) && (x.freserve.isNone || x.freserve == some wid)

/-- A wave that may issue at all in this cycle; `idle` are those whose WAIT count has not run out (R263). -/
def mayIssue (s : State) (idle : List Nat) (wid : Nat) (w : Wave) : Bool :=
  (w.st == .running || w.st == .handler) && !idle.contains wid && !w.missed && w.stopping.isNone && !(w.exiting && !w.sup) && !inInvpg s wid

/-- The wave's next bundle with the state that has it as the current one. -/
def nextOf (s : State) (idle : List Nat) (wid : Nat) : Option (Wave × Fetched × Bundle × State) :=
  match waveOf s wid with
  | none => none
  | some w => if mayIssue s idle wid w then (nextBundle s wid w).map fun x => (w, x.1, x.2, withCur s wid w x.1 x.2) else none

def candOf (s : State) (core : Nat) (idle : List Nat) (wid : Nat) : Option Cand :=
  match nextOf s idle wid with
  | none => none
  | some (w, t, b, s1) =>
    if tokenBad t b || bundleScore w b || (bundleTrap s1 wid w b).isSome || bundleHolds s1 wid w b || bundleDelivers w b then none
    else
      let fop := hasSlot b .F
      some { wid := wid, w := w, t := t, b := b, stop := stopsHere w t, toll := bundleToll s1 wid w b, fop := fop, fok := !fop || pipeOk (coreOf s core) wid,
             power := !w.exempt && powerHeld s core b }

/-- What a wave's next bundle raises in this cycle: a bad token, a trap at issue, or a store record at a publish point (R60, R195,
R265). A bundle that waits on the scoreboard, or in front of which the wave stops, has not reached issue. -/
def settleWave (idle : List Nat) (s : State) (wid : Nat) : State :=
  match nextOf s idle wid with
  | none => s
  | some (w, t, b, s1) =>
    if tokenBad t b then killWave s wid w 0x02 w.pc 0
    else if stopsHere w t || bundleScore w b then s
    else
      -- a cycle in which the wave was issuable and did not issue (R41, R262)
      let v := { w with age := min (w.age + 1) 1023 }
      match bundleTrap s1 wid w b with
      | some x => bump (takeTrap s1 wid v x)
      | none => if !bundleHolds s1 wid w b && !bundleToll s1 wid w b && bundleDelivers w b then bump (deliver s1 wid v) else s

/-! ### The choice (R262) -/

/-- Rank 1: exempt waves, the longest withheld first. -/
def rank1 (cs : List Cand) : Option Cand := best (fun y x => decide (x.w.withheld < y.w.withheld)) (cs.filter fun c => c.w.exempt)
/-- Rank 2: waves of AGE 512 or more, the oldest first. -/
def rank2 (cs : List Cand) : Option Cand := best (fun y x => decide (x.w.age < y.w.age)) (cs.filter fun c => decide (512 ≤ c.w.age))
/-- Rank 3: circular slot order after the last slot; waves with a yielded mark only when nothing else is there. -/
def rank3 (last : Nat) (cs : List Cand) : Option Cand :=
  let near := best fun (y x : Cand) => decide ((slotNo y.wid + 15 - last) % 16 < (slotNo x.wid + 15 - last) % 16)
  match near (cs.filter fun c => c.w.yielded.isNone) with
  | some c => some c
  | none => near cs

/-- The waves that the order ranks. -/
def chosen (last : Nat) (cs : List Cand) : Option Cand :=
  match rank1 cs with
  | some c => some c
  | none => match rank2 cs with
    | some c => some c
    | none => rank3 last cs

/-- The issuable waves that power and the pipe admit. -/
def admitted (cs : List Cand) : List Cand := cs.filter fun c => !c.stop && !c.toll && c.fok && !c.power

/-- The wave of rank 1 or 2 that waits for the pipe (R263). -/
def reserver (cs : List Cand) : Option Nat :=
  let l := cs.filter fun c => !c.stop && !c.toll && !c.power && !c.fok
  match rank1 l with
  | some c => some c.wid
  | none => (rank2 l).map (·.wid)

/-- A wave still has the F operation for which it reserved the pipe before it, whatever else holds its bundle: it runs, and its next bundle,
where that is known, holds one. A wave that stops, halts or goes on past it reserves nothing any more (DESIGN CHOICE, log 67). -/
def stillReserves (s : State) (wid : Nat) : Bool :=
  match waveOf s wid with
  | none => false
  | some w => (w.st == .running || w.st == .handler) && match nextBundle s wid w with
    | some x => hasSlot x.2 .F
    | none => true

/-- Keep, make or drop the reservation: no other wave's F operation comes before that of the wave which has reserved the pipe (R263). -/
def reserve (s : State) (core : Nat) (cs : List Cand) : State :=
  let kept := (coreOf s core).freserve.filter (stillReserves s)
  modCore s core fun x => { x with freserve := if kept.isSome then kept else reserver cs }

/-! ### The issue of a bundle (R52) -/

/-- S operations that come last: what they do to the wave would hide the bundle's other slots. -/
def comesLast (i : Instr) : Bool :=
  match i with
  | .trap _ | .bkpt _ | .svc _ | .eret | .exit _ | .yield => true
  | _ => false

/-- The operations of a bundle in the order in which the model carries them out. -/
def issueOrder (b : Bundle) : List Instr :=
  match bundleOps b with
  | [] => [.emptyBundle]
  | l => (l.filter fun i => !comesLast i) ++ l.filter comesLast

/-- An OPPSEL request (R284). -/
def oppRequest (s : State) (wid : Nat) (o : BitVec 3) : State :=
  match waveOf s wid with
  | none => s
  | some w =>
    match launchOf s w.lid with
    | none => s
    | some l =>
      let g := granted s l
      if g.1 ≤ o.toNat ∧ o.toNat ≤ g.2 then
        retarget (setWave (modShare s (coreNo wid) w.lid fun x => { x with req := o.toNat }) wid { w with denied := false }) (coreNo wid)
      else setWave s wid { w with denied := true, dencnt := if w.dencnt = 65535 then w.dencnt else w.dencnt + 1 }

/-- The pipe takes an F operation: 4 cycles after an FDIV or FSQRT, else 2 (R69). -/
def takePipe (x : Core) (b : Bundle) : Core :=
  if hasSlot b .F then
    let slow := (bundleOps b).any fun i => match i with | .fdiv _ => true | .fsqrt _ => true | _ => false
    { x with fnext := x.cyc + (if slow then 4 else 2), freserve := none }
  else x

/-- What the core and the wave note before the slots act: the entry's use and pin (R55), the debit, the pipe, the round robin. -/
def beginIssue (s : State) (core : Nat) (c : Cand) : State :=
  let s1 := withCur s c.wid c.w c.t c.b
  let s2 := touchEntry (debit { s1 with cur := { s1.cur with go := true } } core (bundleCost c.b)) core (keyOf c.w c.t.idx)
  let s3 := modCore (drewBy s2 c.w.lid) core fun x => { takePipe x c.b with lastSlot := slotNo c.wid, smpIssue := x.smpIssue + 1 }
  unpinEntry (setWave s3 c.wid { c.w with
    pc := s1.cur.next
    tok := none
    waitCnt := c.b.wait.toNat
    age := 0
    withheld := 0
    exempt := false
    yielded := none }) c.wid (keyOf c.w c.t.idx)

/-- The yielded mark of a wave that yielded in this cycle: the candidates of other parties (R47). -/
def markYield (s : State) (c : Cand) (cs : List Cand) : State :=
  modWave s c.wid fun w =>
    match w.yielded with
    | none => w
    | some y =>
      let others := (cs.filter fun d => d.wid != c.wid && !(d.w.lid == c.w.lid && d.w.party == c.w.party)).map (·.wid)
      { w with yielded := if others.isEmpty then none else some { y with others := others } }

/-- A wave that issued leaves every mark; a mark that waits for nobody ends (R47). -/
def unmark (core wid : Nat) (s : State) : State :=
  { s with waves := s.waves.map fun e =>
      (e.1, if coreNo e.1 = core ∧ e.1 ≠ wid then
        (match e.2.yielded with
        | some y =>
          let others := y.others.filter (· != wid)
          { e.2 with yielded := if others.isEmpty then none else some { y with others := others } }
        | none => e.2)
      else e.2) }

/-- Issue one bundle whole. -/
def issueBundle (ex : Exec) (core : Nat) (c : Cand) (cs : List Cand) (s : State) : Out :=
  andThen (attemptAll ex (issueOrder c.b) (beginIssue s core c)) fun s1 =>
    let s2 := modWave { s1 with cur := { s1.cur with go := false } } c.wid fun w => { w with
      tainted := w.tainted ++ (taints s c.wid c.w c.b).filter fun r => s1.copies.any fun e => e.2.wid == c.wid && e.2.dreg == r }
    let s3 := match c.b.opp with
      | some o => oppRequest s2 c.wid o
      | none => s2
    .next (bump (unmark core c.wid (markYield s3 c cs)))

/-! ### Counters of the cycle -/

/-- A wave that could issue and did not (R41, R42, R262); a cycle that a toll bucket withholds counts in `tollstall` (R243). -/
def passOver (c : Cand) (s : State) : State :=
  if c.toll then modWave s c.wid fun w => { w with
    withheld := if w.exempt then w.withheld else 0
    tollstall := if w.tollstall = BitVec.allOnes 32 then w.tollstall else w.tollstall + 1 }
  else
    modWave s c.wid fun w => { w with
      age := min (w.age + 1) 1023
      withheld := if c.power ∨ w.exempt then w.withheld + 1 else 0 }

/-- A wave that could not issue is not withheld for power. -/
def notHeld (core : Nat) (cs : List Cand) (s : State) : State :=
  { s with waves := s.waves.map fun e =>
      (e.1, if coreNo e.1 = core ∧ !(cs.any fun c => c.wid == e.1) ∧ !e.2.exempt then { e.2 with withheld := 0 } else e.2) }

/-- A mark that an M-slot operation, a copy or a stream operation has still to clear (R295). -/
def memoryMark (s : State) (id : Nat) : Bool :=
  (match accOf s id with | some a => a.slot != 6 | none => false) || (copyOf s id).isSome || (Tab.find s.pops id).isSome ||
    s.streams.any fun e => e.2.pend.any fun p => p.id == id

/-- A wave waits on the scoreboard for such a result. -/
def memoryWait (s : State) (idle : List Nat) (wid : Nat) : Bool :=
  match nextOf s idle wid with
  | none => false
  | some (w, _, b, _) => bundleScore w b && (bundleOps b).any fun i =>
      (readsOf i ++ writesOf i).any fun r => w.busy.any fun m => m.reg == viewReg w.sup r && memoryMark s m.by_

/-- What the core counts at the end of a cycle. -/
def countCycle (s : State) (core : Nat) (idle : List Nat) (cs : List Cand) (issued : Option Nat) : State :=
  let held := cs.any fun c => c.power && !c.toll && issued != some c.wid
  let mem := (admitted cs).isEmpty && (slotsOf s core).any (memoryWait s idle)
  let high := decide ((256 * budget s core : Nat) ≤ (clus s (clusterOf core)).allow)
  modCore s core fun x => { x with
    whled := if held ∧ x.whled ≠ BitVec.allOnes 32 then x.whled + 1 else x.whled
    smpMem := if mem then x.smpMem + 1 else x.smpMem
    above := if high then x.above + 1 else 0 }

/-! ### The cycle -/

/-- A token whose entry has been replaced meanwhile is asked for again (R55). -/
def askAgain (core : Nat) (s : State) (wid : Nat) : State :=
  match waveOf s wid with
  | none => s
  | some w =>
    match w.tok with
    | none => s
    | some t =>
      if w.missed ∨ (entryIn s core (keyOf w t.idx)).isSome ∨ !(w.st == .running || w.st == .handler) then s
      else setWave (askOstler s core (keyOf w t.idx) wid w.pc) wid { w with missed := true }

/-- Choose and issue. -/
def issueCycle (ex : Exec) (core : Nat) (idle : List Nat) (s : State) : Out :=
  let cs0 := (slotsOf s core).filterMap (candOf s core idle)
  let s2 := reserve s core cs0
  let cs := cs0.map fun c => { c with fok := !c.fop || pipeOk (coreOf s2 core) c.wid }
  match chosen (coreOf s2 core).lastSlot (admitted cs) with
  | none => .next (countCycle (notHeld core cs (cs.foldl (fun a c => passOver c a) s2)) core idle cs none)
  | some c =>
    let s3 := notHeld core cs ((cs.filter fun d => d.wid != c.wid).foldl (fun a d => passOver d a) s2)
    let s4 := countCycle s3 core idle cs (some c.wid)
    issueBundle ex core c (admitted cs) s4

/-- Time comes to the core's next clock edge: what is due by then has taken effect before the cycle begins. -/
def toEdge (s : State) (core : Nat) : State := { s with now := max s.now (coreOf s core).edge }

/-- One cycle of a core: a transition that has ended by its edge is over (R285), and an interval of the samples or of a slice's loop that has
ended by it does not count the cycle (R174, R295). A wave released from GWAIT in it issues from the next one on (R263). -/
def coreCycle (ex : Exec) (core : Nat) (s : State) : Out :=
  let cl := clusterOf core
  let wait := ((wavesOn s core).filter fun e => e.2.waitCnt != 0).map (·.1)
  andThen (attemptAll ex [.droopStretchEnd cl, .droopHalvingEnd cl, .oppPhaseEnd core, .oppTransitionEnd core, .counterSample,
    .sliceRailLoop core 0, .sliceRailLoop core 1, .sliceRailLoop core 2] (toEdge s core)) fun s =>
  andThen (attemptAll ex [.allowanceGain cl, .rampStep core, .allowStep core] (fillerStep (tickWaves (clockEdge s core) core) core)) fun s =>
  andThen (forWaves ex core (fun k => [.exposedResultLand k, .watchdogExpiry k, .yieldMarkExpiry k, .powerExempt k, .waveHalt k, .tokenFetch k]) s) fun s =>
  andThen (forWaves ex core (fun k => [.handlerEntry k, .safePointStop k]) ((slotsOf s core).foldl (settleWave wait) ((slotsOf s core).foldl (askAgain core) s))) fun s =>
  andThen (pilotCycle ex core s) fun s =>
  andThen (issueCycle ex core wait s) fun s =>
  forWaves ex core (fun k => [.gateWaitWake k]) s

end Sys2Proof.Machine
end

