-- ==== Sys2Proof/Machine/Auto.lean ====
section
/-! DEFINITION. What moves where the order of moves names nothing (log 1): the first event that is due, else a cycle of the resident
core whose clock edge comes first, else the passing of a tick. A test of a watched value is due when it ends the wait. -/

namespace Sys2Proof.Machine

/-! ### Events that can be due -/

/-- The queue of a key. -/
def qOf (k : Nat) : QId := { vf := BitVec.ofNat 4 (k / 64), q := BitVec.ofNat 6 (k % 64) }

/-- The event of the packet at HEAD of a queue (R248). -/
def packetEvent (s : State) (k : Nat) : Instr :=
  let q := queueOf s k
  match pByte (packetAt s q q.head.toNat) 0 with
  | 1 => .launch (qOf k)
  | 2 => .route (qOf k)
  | 3 => .mark (qOf k)
  | 4 => .waitmark (qOf k)
  | 5 => .gatecfg (qOf k)
  | 6 => .timestamp (qOf k)
  | 7 => .energy (qOf k)
  | 8 => .hostcopy (qOf k)
  | _ => .nopkt (qOf k)

def queueEvents (s : State) (k : Nat) : List Instr := (if reads s k then [packetEvent s k] else []) ++ [.waitmarkPoll (qOf k)]

/-- The die that a launch runs on or resumes on. -/
def dieBits (n : Nat) : BitVec 3 := BitVec.ofNat 3 n

def launchEvents (e : Nat × Launch) : List Instr :=
  [.gateRaise e.1, .partyPlace e.1, .launchComplete e.1, .preemptRequest e.1, .bodySave e.1, .bodyResume e.1 (dieBits e.2.die)]

def waveEvents (k : Nat) : List Instr :=
  [.waveRelease k, .gateWaitWake k, .mwatchTimeout k, .mwatchWake k, .mspopAcquire k, .handlerEntry k, .safePointStop k, .waveRetire k, .waveHalt k]

/-- The virtual addresses of an access that walks can be for, one a page. -/
def pageVas (a : Acc) : List Nat := distinct (a.pieces.map fun p => p.va / 4096 * 4096)

def accEvents (e : Nat × Acc) : List Instr :=
  (if isStore e.2.kind then [] else (pageVas e.2).map fun va => .pageWalk e.1 va) ++
    [.storeTranslate e.1, .tileFillComplete e.2.core e.1, .tileDrainComplete e.2.core e.1, .storeCommit e.1, .loadReturn e.1]

def copyEvents (e : Nat × Copy) : List Instr :=
  ((copyRegions e.2).map fun r => .pageWalk e.1 (4096 * r)) ++
    [.tileDrainComplete e.2.core e.1, .copyComplete e.1, .mcastLanding e.1 0, .mcastLanding e.1 1, .mcastLanding e.1 2, .mcastLanding e.1 3]

def coreEvents (c : Nat) : List Instr :=
  [.ostlerRefill c, .publicationComplete c, .arrayFillDown c, .sliceRailLoop c 0, .sliceRailLoop c 1, .sliceRailLoop c 2, .oppPhaseEnd c,
    .oppTransitionEnd c]

def partyEvents (k : Nat) : List Instr := (List.range 8).map fun x => .milestoneAdvance k (BitVec.ofNat 3 x)

def tollEvents (e : Nat × Die) : List Instr :=
  (distinct (e.2.tollS.map (·.1) ++ e.2.tollF.map (·.1))).map fun v => .tollRefill (dieBits e.1) (BitVec.ofNat 4 v)

/-- What the security processor has under way. -/
def secEvents (x : Sec) : List Instr :=
  (if x.ckpt.isSome then [.checkpoint] else []) ++ if x.go.isSome then [.firmwarePush 0] else []

/-- Everything that may be due, in the order in which it is looked at. -/
def autoEvents (s : State) : List Instr :=
  s.copies.flatMap copyEvents ++ s.acc.flatMap accEvents ++ s.invpg.map (fun e => .loadReturn e.1) ++
    s.rels.map (fun e => .releaseApply e.1) ++ s.parties.flatMap (fun e => partyEvents e.1) ++
    s.convoys.map (fun e => .convoyPhaseComplete e.1) ++ s.streams.flatMap (fun e => [.streamPushComplete e.1, .overflowLodging e.1]) ++
    s.waves.flatMap (fun e => waveEvents e.1) ++ s.cores.flatMap (fun e => coreEvents e.1) ++ s.launches.flatMap launchEvents ++
    s.routes.map (fun e => .cyclicWait e.1) ++ s.queues.flatMap (fun e => queueEvents s e.1) ++ s.dies.flatMap tollEvents ++
    (List.range 8).map (fun d => .sliceEnd (dieBits d)) ++ secEvents s.sec ++ [.counterSample]

/-! ### The move -/

/-- An event takes place when it does anything: a test of a watched value that leaves the wave waiting does not. -/
def happens (ex : Exec) (s : State) (i : Instr) : Bool :=
  match ex i s with
  | .refused _ => false
  | .fault _ => true
  | .next t =>
    match i with
    | .mwatchWake k => (waveOf t k).map (·.st) != (waveOf s k).map (·.st)
    | .mwatchTimeout k => (waveOf t k).map (·.st) != (waveOf s k).map (·.st)
    | _ => true

/-- The clocked core whose edge comes first. -/
def nextCore (s : State) : Option Nat := (best (fun x y => decide (x.2.edge < y.2.edge)) (s.cores.filter fun e => clocked e.2)).map (·.1)

/-- One tick passes. -/
def idleTick (s : State) : State := { s with now := (ticks s + 1) * Config.tickUnits }

/-- The move that the model chooses. -/
def autoMove (ex : Exec) (s : State) : Out :=
  match (autoEvents s).find? (happens ex s) with
  | some i => ex i s
  | none => match nextCore s with
    | some c => coreCycle ex c s
    | none => .next (idleTick s)

/-- One move: what the order of moves names, else the model's own choice (log 1). -/
def move (ex : Exec) (s : State) : Out :=
  match s.turns with
  | .event i :: t => ex i { s with turns := t }
  | .cycle c :: t => coreCycle ex c { s with turns := t }
  | [] => autoMove ex s

end Sys2Proof.Machine
end

