-- ==== Sys2Proof/Machine/Loaded.lean ====
section
/-! DEFINITION. A part that is about to run one operation: a resident launch of one wave on core 0, whose image in far memory holds
one token, and whose decode entry holds the operation's slot word alone (R50, R53, R55, R59). It stands for the packets that the
host would queue (log 6). -/

namespace Sys2Proof.Machine

/-- The control word with only the F slot present (R50). -/
def fWord (w : Nat) : Nat := 1 + 2 ^ 15 + w % 2 ^ 32 * 2 ^ 176

/-- The image's header: the dictionary in page 1, the token stream in page 2, its boundary map in page 3. -/
def loadedHdr : ImgHdr :=
  { pages := 4, dictN := 1, dictOff := 4096, streamLen := 1, streamOff := 8192, mapOff := 12288, segOff := 1024, segs := 0,
    ceiling := 64, fidelity := 3, window := 1, roles := 1, roleOff := 2048, constOff := 0, constLen := 0, keyid := 0 }

/-- The LAUNCH packet's fields: one party of one wave, 64 registers of each cluster. -/
def loadedPkt : LPkt :=
  { flags := 0, image := 0, far := true, parties := 1, die := 0, oppLo := 0, oppHi := 7, window := 1, cwaves := 1, pwaves := 0, centry := 0,
    pentry := 0, callotA := 64, callotB := 64, pallotA := 0, pallotB := 0, fidel := 0, gate := 0, gcount := 0, region := 1, route := 0,
    stage := 0, cvaddr := 0, cvcount := 0, energy := 0 }

def loadedImage : Image := { far := true, phys := true, addr := 0, hdr := loadedHdr, hashes := [], segs := [], roles := [] }

/-- No handler table. -/
def loadedHTab : HTab := { en := false, image := none, entries := [], wd := 26 }

def loadedLaunch : Launch :=
  { vf := 0, q := 0, pkt := 0, asid := 0, p := loadedPkt, img := loadedImage, htab := loadedHTab, floor := 0, asked := 3, level := 3, cvs := [],
    cvmap := [], die := 0, placed := 1, retired := 0, st := .accepted, energy := 0, drew := false, verified := [], born := 0,
    checked := true, saved := false, stopping := false, raised := true }

def loadedParty : Party := { core := 0, waves := 1, prod := false, tile := false, released := true, left := 1, ms := [], acq := [] }

def loadedWave (lid : Nat) : Wave := { Wave.init with lid := lid, aAllot := 64, bAllot := 64, lfsr := Lanes.of fun i => lfsrSeed 0 0 i.val }

def loadedShare : Share := { Share.init with window := 1, units := 1 }

/-- Core 0 with the launch alone on it, its decode entry filled. -/
def loadedCore (lid w : Nat) : Core :=
  { Core.init with dtab := [{ key := { lid := lid, hand := false, idx := 0 }, word := fWord w, pins := [] }], shares := [(lid, loadedShare)] }

/-- The image's bytes: the dictionary word, the token, and its mark. -/
def loadedMem (s : State) (w : Nat) : State :=
  devWrite (devWrite (devWrite s (Config.farBase + 4096) (wordBytes (fWord w))) (Config.farBase + 8192) [0]) (Config.farBase + 12288) [1]

/-- Its pages stand checked on the die as of a commit (R114). -/
def loadedPages (seq : Nat) : List Checked :=
  (List.range 4).map fun n => { die := 0, hand := false, page := n, loc := Config.farBase + 4096 * n, seq := seq }

/-- The loaded part. -/
def loaded (s : State) (w : Nat) : State :=
  let lid := s.nextId
  let s1 := loadedMem s w
  { s1 with
    turns := [.cycle 0]
    waves := Tab.put (s1.waves.filter fun e => coreNo e.1 != 0) 0 (loadedWave lid)
    parties := Tab.put s1.parties (partyKey lid 0) loadedParty
    cores := Tab.put s1.cores 0 (loadedCore lid w)
    clusters := Tab.put s1.clusters 0 Cluster4.init
    launches := Tab.put s1.launches lid { loadedLaunch with verified := loadedPages s1.commits, born := s1.commits }
    nextId := lid + 1 }

end Sys2Proof.Machine
end

