-- ==== Sys2Proof/Machine/Step.lean ====
section
/-! DEFINITION. One step of the part, and a part that is about to run one instruction. -/

namespace Sys2Proof.Machine

/-- One step: one event, one host action or one cycle of one core (log 1). -/
def step (s : State) : Host.Outcome State Fault Refusal := move exec s

/-- The part with one operation placed where the next step fetches it (log 6). -/
def State.withFetchWord (s : State) (nbits w : Nat) : State := loaded s (w % 2 ^ nbits)

end Sys2Proof.Machine
end

