-- ==== Sys2Proof/Safety.lean ====
section
/-! DEFINITION. The terms in which claims are made: when a slot operation of the issuing bundle takes effect, the state after an
exposed result has been issued, and the form that the part's memory keeps. -/

namespace Sys2Proof.Machine

/-- None of these registers, s indices by the names that the wave's mode gives them, awaits an M or T result (R70, R269). -/
def AllBack (w : Wave) (rs : List Reg) : Prop := ∀ r ∈ rs, isBusy w (viewReg w.sup r) = false

/-- The wave of the issuing bundle. -/
def Issuing (s : State) (w : Wave) : Prop := waveOf s s.cur.wid = some w

/-- An operation of the issuing wave that raises nothing at issue and that nothing holds unissued (R40, R70, R195, R265). -/
def Issues (i : Instr) (s : State) (w : Wave) : Prop :=
  Issuing s w ∧ scoreHeld i w = false ∧ issueTrap i s s.cur.wid w = none ∧ holds i s s.cur.wid w = false ∧ delivers i w = false

/-- An operation that touches registers alone: its wave issues it once its registers are back and lie in the allotment (R32, R70). -/
def RegsReady (i : Instr) (s : State) (w : Wave) : Prop := Issuing s w ∧ scoreHeld i w = false ∧ allotBad i w = false

/-- The issuing wave after the step, nothing else changed but the counter of free values. -/
def waveBecomes (s : State) (w : Wave) : State := bump (setWave s s.cur.wid w)

/-- The state after the issue of an exposed result with bound L (R65). -/
def issued (s : State) (w : Wave) (x : RegWrite) (L : Nat) : State := waveBecomes s (pushWin w x L)

/-- The memory of the part in canonical form: device memory, host memory and each core's scratchpad. -/
def MemOk (s : State) : Prop :=
  Memory.wf s.mem = true ∧ Memory.wf s.hostMem = true ∧ ∀ e ∈ s.cores, Memory.wf e.2.pad = true

/-- Keys strictly rising: one entry a key, in one order. -/
def TabOk {α : Type} (t : Tab α) : Prop := t.Pairwise fun x y => x.1 < y.1

/-- What every step keeps: memory in canonical form, and one entry for a wave slot. -/
def Inv (s : State) : Prop := MemOk s ∧ TabOk s.waves

/-- The state after a vector-lane operation has issued (R65, R72, R126, R382): an exposed write with bound L of the active lanes' values to
one vector register, the stochastic-rounding states of the active lanes, and their events in lane order; nothing else changes. -/
def LanesIssued (slot : Nat) (cl : Cluster) (d : BitVec 6) (mask : Word) (L : Nat) (out : Nat → LaneOut) (s : State) (w : Wave) (t : State) : Prop :=
  ∃ vals lf : Lanes, t = waveBecomes s { pushWin w (.v cl d.toNat mask vals) L with
      lfsr := lf
      fel := reportAll w.fel s.serial s.cur.here slot ((maskLanes mask).flatMap fun i => (out i).evs.map fun e => (i, e)) } ∧
    ∀ i, i < 32 → if mask.getLsbD i then vals.at i = (out i).val ∧ lf.at i = (out i).lfsr else lf.at i = w.lfsr.at i

/-- The same for values that report nothing and draw nothing. -/
def LanesMoved (cl : Cluster) (d : BitVec 6) (mask : Word) (L : Nat) (val : Nat → Word) (s : State) (w : Wave) (t : State) : Prop :=
  ∃ vals : Lanes, t = issued s w (.v cl d.toNat mask vals) L ∧ ∀ i, i < 32 → mask.getLsbD i = true → vals.at i = val i

/-- One lane of n elements of a type (R116, R126, R127, R130): element j is what `el` gives for it and its draw, taken after 16 steps for
each element so far under RSR; elements from n on are 0; the events follow in element order. -/
def LaneIs (t : Ty) (n : Nat) (rsr : Bool) (l : Word) (el : Nat → Nat → Rounded) (o : LaneOut) : Prop :=
  let draw := fun j => lfsrV (lfsrSteps (if rsr then 16 * (j + 1) else 0) l)
  (∀ j, j < Ty.count t → elem t o.val j = if j < n then (el (draw j) j).bits % 2 ^ Ty.bits t else 0) ∧
  o.evs = ((List.range n).filterMap fun j => (el (draw j) j).ev) ∧
  o.lfsr = lfsrSteps (if rsr then 16 * n else 0) l

/-- An exact integer result in a signed or unsigned field of b bits: wrapped, or clamped with the saturation event (R117). -/
def fits (sg : Bool) (b : Nat) (sat : Bool) (r : Int) : Rounded :=
  let lo : Int := if sg then -(2 ^ (b - 1)) else 0
  let hi : Int := if sg then 2 ^ (b - 1) - 1 else 2 ^ b - 1
  if sat ∧ r < lo then ⟨(lo % 2 ^ b).toNat, some .saturated⟩
  else if sat ∧ hi < r then ⟨(hi % 2 ^ b).toNat, some .saturated⟩
  else ⟨(r % 2 ^ b).toNat, none⟩

/-- `Comb` of R335 on floating lanes: two values make the operation's result, of whose events only invalid and overflow count (R129); a value that
meets none passes, a NaN as the canonical one (R121). -/
def floatComb (op : RedOp) (x y : Option Word) : Option Word × Option Ev :=
  let lone (z : Word) : Word := if (f32F.decode z.toNat).isNan then BitVec.ofNat 32 f32F.nanPat else z
  match x, y with
  | some a, some b =>
    let p := f32F.decode a.toNat
    let q := f32F.decode b.toNat
    let r : Rounded := match op with
      | .addF => fAdd f32F .rne 0 p q
      | .minF => ⟨fMin f32F p q, none⟩
      | _ => ⟨fMax f32F p q, none⟩
    (some (BitVec.ofNat 32 r.bits), if r.ev = some .underflow then none else r.ev)
  | some a, none => (some (lone a), none)
  | none, some b => (some (lone b), none)
  | none, none => (none, none)

/-- What the tree of R335 holds for run q of 2^lv lanes, from the lanes' values. -/
def treeOver (op : RedOp) (t : Nat → Option Word) : Nat → Nat → Option Word
  | 0, q => t q
  | lv + 1, q => (floatComb op (treeOver op t lv (2 * q)) (treeOver op t lv (2 * q + 1))).1

/-- The events of the tree, level by level and within one in rising order. -/
def treeEvents (op : RedOp) (t : Nat → Option Word) : List Ev :=
  (List.range 5).flatMap fun lv => (List.range (16 / 2 ^ lv)).filterMap fun q =>
    (floatComb op (treeOver op t lv (2 * q)) (treeOver op t lv (2 * q + 1))).2

/-- The combination of lanes one by one in their order (R336). -/
def scanOver (op : RedOp) (ls : List Word) : Option Word := ls.foldl (fun a x => (floatComb op a (some x)).1) none

/-- Elements 32 g to 32 g + 31 of line n of a slot, as operands of the array (R122, R154). -/
def lineGroup (s : State) (core o : Nat) (f : Fmt) (n g : Nat) : List FVal :=
  (List.range 32).map fun k => tileDecode f (lineElem (slotImg s core o) f n (32 * g + k))

/-- The groups of element i, j of TMMA: ascending in K within a slot pair, pairs ascending (R154). -/
def mmaGroups (s : State) (core oa ob n : Nat) (f : Fmt) (i j : Nat) : List (List FVal × List FVal) :=
  (List.range n).flatMap fun p => (List.range (if fmtBits f = 16 then 2 else 4)).map fun g =>
    (lineGroup s core (oa + p) f i g, lineGroup s core (ob + p) f j g)

/-- What the array delivers for a product (R163, R165, R168): of two finite operands that are not zero, at level 3 the exact product and below
it one of the same sign, less than 2^(b + 2) units of column 0 away; of any others the exact product. -/
def Delivers (f : Fmt) (lvl : Nat) (x y : FVal) (p : Option FVal) : Prop :=
  match x, y with
  | .fin nx (mx + 1) ex, .fin ny (my + 1) ey => ∃ m : Nat, p = some (.fin (nx != ny) m (ex + ey)) ∧
      (lvl = 3 → m = (mx + 1) * (my + 1)) ∧ ((m : Int) - (mx + 1) * (my + 1)).natAbs < 2 ^ (railCol f lvl + 2)
  | _, _ => p = x.mul y

/-- The exact sum of products in order; none where a NaN was made. -/
def exactSum (ps : List (Option FVal)) : Option FVal :=
  ps.foldl (fun a p => match a, p with
    | some x, some y => x.add false y
    | _, _ => none) (some (.fin false 0 0))

/-- A group's sum added to an element: one rounding, or a wrap in the integer forms (R154). -/
def groupAdded (f : Fmt) (c : Nat) (sum : Option FVal) : Nat :=
  if f = .s8 ∨ f = .n8 then
    match sum with
    | some (.fin n m e) => wrapInt 32 (c + finInt n m e 0)
    | _ => c
  else (roundOpt f32F .rne 0 (sum.bind fun x => (f32F.decode c).add false x)).bits

/-- Element c ends as r once the groups have been added to it one after another, each with one rounding of its exact sum (R154, R167); a NaN
among the operands makes the sum a NaN. -/
def MmaSums (f : Fmt) (lvl : Nat) : List (List FVal × List FVal) → Nat → Nat → Prop
  | [], c, r => r = c
  | g :: rest, c, r => ∃ ps : List (Option FVal), ps.length = g.1.length ∧
      (∀ (k : Nat) (x y : FVal), g.1[k]? = some x → g.2[k]? = some y → ∃ p, ps[k]? = some p ∧ Delivers f lvl x y p) ∧
      MmaSums f lvl rest (groupAdded f c (if g.1.any FVal.isNan || g.2.any FVal.isNan then some .nan else exactSum ps)) r

/-- Element k of block i of eight accumulators, or of line i of TCVT (R157, R158). -/
def accElem (s : State) (core c : Nat) (kc : Bool) (i k : Nat) : FVal :=
  f32F.decode (if kc then elemAt s core (c + k / 32) (k % 32) i else elemAt s core (c + k / 32) i (k % 32)).toNat

/-- Element k of block i after step 1 of R157: its aligned run transformed, or the element as it is. -/
def blockElem (s : State) (core c : Nat) (kc : Bool) (had : Had) (i k : Nat) : FVal :=
  let run := fun (h : Nat) => (List.range h).map fun x => accElem s core c kc i (k / h * h + x)
  match had with
  | .none => accElem s core c kc i k
  | .h16 => f32F.decode (hadElem false (run 16) (k % 16)).bits
  | .h32 => f32F.decode (hadElem true (run 32) (k % 32)).bits

/-- Steps 2 to 5 of R157: from 256 elements a scale word and codes. The scale is the least that is at least the largest magnitude over qmax, or the
largest scale. -/
def BlockQuantised (typ : Nat) (z : Nat → FVal) (word : Nat) (code : Nat → Nat) : Prop :=
  let big := ((List.range 256).map z).foldl magMax (.fin false 0 0)
  let reaches := fun (w : Nat) => !(FVal.lt (.fin false ((scale12 w).1 * qmax typ) (scale12 w).2) big)
  if big.isZero then word = 1024 * typ ∧ ∀ k, k < 256 → code k = 0
  else ∃ w, 16 ≤ w ∧ w ≤ 1023 ∧ (w ≠ 1023 → reaches w = true) ∧ (∀ x, 16 ≤ x → x < w → reaches x = false) ∧ word = 1024 * typ + w ∧
    ∀ k, k < 256 → code k = (quantElem typ w (z k)).bits

/-- A slot image holds the 32 blocks that TQUANT makes of eight accumulators (R157). -/
def HoldsBlocks (s : State) (core c : Nat) (kc : Bool) (had : Had) (typ : Nat) (g : Img) : Prop :=
  ∀ i, i < 32 → BlockQuantised typ (blockElem s core c kc had i) (scaleWord g i) (lineElem g .fp4 i)

/-- A global access that issues (R24, R181, R182, R193, R339 to R341): the wave takes the next sequence number, no byte of memory changes, and
with an active lane access `s.nextId` is in flight, one piece a lane at BASE plus its offset, placed at once where the segment is
not pageable, with the destination's registers marked on the scoreboard. -/
def AccessStarts (s : State) (w : Wave) (t : State) (seg size : Nat) (lanes : List Nat) (off : Nat → Int) (kind : AKind) (dest : Dest)
    (data cmp : Nat → List Byte) (regs : List Reg) (scope : Scope) (ord : Order) : Prop :=
  let g := segOf s s.cur.wid w seg
  t.mem = s.mem ∧ t.hostMem = s.hostMem ∧ ∃ v, waveOf t s.cur.wid = some v ∧ v.seq = w.seq + 1 ∧ v.pc = w.pc ∧ v.live = w.live ∧
    v.s = w.s ∧ v.k = w.k ∧ v.a = w.a ∧ v.b = w.b ∧ v.wins = w.wins ∧
    (lanes = [] → t.acc.map (·.1) = s.acc.map (·.1) ∧ v.busy = w.busy) ∧
    (lanes ≠ [] → (∀ r ∈ regs, isBusy v (viewReg w.sup r) = true) ∧ ∃ a, accOf t s.nextId = some a ∧
      a.wid = s.cur.wid ∧ a.kind = kind ∧ a.dest = dest ∧ a.seq = w.seq + 1 ∧ a.scope = scope ∧ a.ord = ord ∧ a.loc = false ∧
      a.pageable = segPage g ∧ a.pieces.map (·.lane) = lanes ∧
      ∀ p ∈ a.pieces, (p.va : Int) = g.base + off p.lane ∧ p.size = size ∧ p.data = data p.lane ∧ p.cmp = cmp p.lane ∧ p.done = false ∧
        p.fault = none ∧ p.pa = if segPage g then none else some (homeLoc (segFar g) (s.cur.wid / 512) (g.pbase + (off p.lane).toNat)))

/-- A byte of device memory stands as it stood: the same contents, undefined only where it was (R4, R306). -/
def ByteKept (s t : State) (x : Nat) : Prop := getByte t.mem x = getByte s.mem x ∧ isWiped t.wiped x = isWiped s.wiped x

/-- The ten compare conditions on 64-bit values, as the manual's table words them (R80); the mask tests compare nothing. -/
def Compares (c : Cond) (x y : DWord) : Prop :=
  match c with
  | .eq => x = y
  | .ne => x ≠ y
  | .lt => x.toInt < y.toInt
  | .le => x.toInt ≤ y.toInt
  | .gt => x.toInt > y.toInt
  | .ge => x.toInt ≥ y.toInt
  | .ltu => x.toNat < y.toNat
  | .leu => x.toNat ≤ y.toNat
  | .gtu => x.toNat > y.toNat
  | .geu => x.toNat ≥ y.toNat
  | .any => False
  | .none => False
  | .all => False

/-- The Steward reads packet p of a type at HEAD of a queue (R248, R249): it is the queue's turn, nothing before the packet holds it back,
and its header is as it should be. -/
def PacketRead (s : State) (id : QId) (typ : Nat) (q : Queue) (p : List Byte) : Prop :=
  q = queueOf s (qKey id) ∧ reads s (qKey id) = true ∧ inTurn s (qKey id) = true ∧ p = packetAt s q q.head.toNat ∧ pByte p 0 = typ ∧ headerBad q.rev p = none ∧
  (pFlag p 0 = true → q.done = q.head)

/-- Bytes lo to hi − 1 of a packet are 0. -/
def ZeroBytes (p : List Byte) (lo hi : Nat) : Prop := ∀ i, lo ≤ i → i < hi → pByte p i = 0

/-- The packet of a queue that was at HEAD has been consumed and is complete, in ring order where everything before it is (R246,
R248). -/
def PacketEnds (t : State) (id : QId) (q : Queue) : Prop :=
  let u := queueOf t (qKey id)
  u.head = q.head + 1 ∧ u.poll = none ∧ u.st = q.st ∧ u.fault = q.fault ∧ u.tail = q.tail ∧
  (q.ended = [] → q.done = q.head → u.done = q.done + 1) ∧ (q.ended = [] → q.done ≠ q.head → u.done = q.done)

/-- A queue is faulted for a packet, with a record of the CODE and DETAIL (R250). -/
def PacketFaults (s : State) (id : QId) (q : Queue) (code detail : Nat) (t : State) : Prop :=
  t = bump (faultQueue s (qKey id) q.head.toNat code 0xFF 0xFF 0xFF 0 detail)

/-- A range of an address space that lies in one run of far memory which may be read or written (R186, R255). -/
def LiesAt (s : State) (asid va n loc : Nat) (rd wr : Bool) : Prop := (asidSpans true 0 asid rd wr (rangeCuts va n) s).1 = some [(loc, n)]

/-- Bytes of an image that lies untranslated in far memory (R272). -/
def imgAt (s : State) (im : Image) (off n : Nat) : List Byte := devBytes s (Config.farBase + im.addr + off) n

/-- An image that a die may read without any further check: it is not translated, the parts that fetches read lie in its pages, and
each page has been checked for the launch on that die where it stands, and has not been written since (R53, R114, R115). No memory has
bad check bits. -/
def ImageReady (s : State) (lid : Nat) (l : Launch) (hand : Bool) (im : Image) (die : Nat) : Prop :=
  launchOf s lid = some l ∧ imageOf l hand = some im ∧ im.phys = true ∧ im.addr % 4096 = 0 ∧ s.ecc = [] ∧
  (∀ page, page < im.hdr.pages → ∃ c, checkOf l hand die page = some c ∧ c.loc = Config.farBase + im.addr + 4096 * page ∧
    ∀ x ∈ s.hist, x.loc / 4096 = c.loc / 4096 → x.seq ≤ c.seq) ∧
  im.hdr.mapOff + im.hdr.streamLen / 8 < 4096 * im.hdr.pages ∧ im.hdr.streamOff + im.hdr.streamLen ≤ 4096 * im.hdr.pages ∧
  im.hdr.dictOff + 48 * im.hdr.dictN ≤ 4096 * im.hdr.pages

end Sys2Proof.Machine
end

