-- ==== Sys2Proof/Certificates/Slice0/Obligations.lean ====
section
/-! DEFINITION. The statements about the part that are to be proved. Each docstring names the rules of the manual that the statement
formalises, and the log entry where a clause is the model's choice. -/

open Sys2Proof Sys2Proof.Machine

/-! ### Encoding -/

/-- Slot words that the manual writes out decode to the operations it gives for them, one or two of every slot (R75 to R95): for
example `sadd s4, s4, #8` is S slot 0x0000_0800_4111 and `vfma.f32 a4:k1, a5, a6, a7` is V0 slot 0x0004_0718_5104. -/
def Obligations.SpecWordsDecode : Prop :=
  let is (x : SlotId) (w : Nat) (i : Instr) := decodeSlot { slot := x, bits := w, stream := false } = { fails := [], i := some i }
  is .S 0x00000800008F (.srd ⟨2, 8⟩) ∧
  is .S 0x000008004111 (.saddI ⟨4, 4, .inWord 8, .w64⟩) ∧
  is .S 0x0FFFFC0A3021 (.brc ⟨.any, 0, 3, 0xFFFFC0⟩) ∧
  is .S 0x000000EC0031 (.fence ⟨.die, .acqRel, true⟩) ∧
  is .V0 0x0008000810C1 (.vadd ⟨⟨.A, 2, 3, 1⟩, 2, .f32, ⟨.rne, false, false, false, false⟩⟩) ∧
  is .V0 0x000407185104 (.vfma ⟨⟨.A, 1, 4, 5⟩, 6, 7, .f32, ⟨.rne, false, false, false, false⟩⟩) ∧
  is .V0 0x014080001092 (.vcvt ⟨⟨.A, 0, 2, 1⟩, .bf16x2, .f32, .rsr, false⟩) ∧
  is .F 0x00005102 (.fsqrt ⟨false, false, 0, .A, 2, .B, 4⟩) ∧
  is .L 0x0010044112 (.lshufPat ⟨⟨.A, .A, 1, 4, 4⟩, .xor, 1⟩) ∧
  is .M 0x0000000020100081 (.mld ⟨⟨0, .normal, 0, .inWord 0⟩, .A, 2, .perA, 1, .b32, .wave, .relaxed⟩) ∧
  is .M 0x840000E0A860C14B (.matom ⟨1, .normal, 3, 0, .A, 5, .unif, 6, false, .device, .acqRel, .add, true⟩) ∧
  is .T 0x002040404B801003 (.tload ⟨0, .ms4, 8, 2, true, .fp4, .slot 4, false, .device, false⟩) ∧
  is .T 0x0000680001880006 (.tmma ⟨0, .ms5, 4, false, false, .e4m3, 16, 0, 0⟩)

/-- DECODE AND ENCODE AGREE for every slot operation at every operand its encoding admits: the word that the encoder writes decodes
to the operation and fails no check of the hazard filter on that slot (R57, R75 to R95). -/
def Obligations.DecodeEncodeRoundTrip : Prop :=
  ∀ i : Instr, i.wf = true → ∀ x, encode i = some x → decodeSlot x = { fails := [], i := some i }

/-- A token names its dictionary entry and carries its immediate in little-endian order (R59): an index below 16,384 without an
immediate, and one below 4,096 with a 4-byte immediate (delivered sign-extended, R81) or an 8-byte one, is read back from the
bytes that the encoder writes, whatever bytes follow. -/
def Obligations.TokenRoundTrip : Prop :=
  ∀ (idx : Nat) (v : DWord) (rest : List Byte),
    (idx < 16384 → decTok (encTok idx none ++ rest) = .ok idx (if idx < 128 then 1 else 2) .plain) ∧
    (idx < 4096 → decTok (encTok idx (some (true, v)) ++ rest) = .ok idx 10 (.imm true v)) ∧
    (idx < 4096 → decTok (encTok idx (some (false, v)) ++ rest) = .ok idx 6 (.imm false ((v.truncate 32).signExtend 64)))

/-! ### The S slot -/

/-- The register forms of S arithmetic (R358): with x and y the extended sources, SADD, SSUB and SMUL give the exact sum, difference
and product, SMULH the high half of the signed product, the shifts multiply or divide by a power of two (SSAR rounding down), SMIN
and SMAX choose by the signed or unsigned order; the result narrows to W and is exposed with bound 1, or 3 for the two products
(R65, R68). Nothing else of the part changes.
The immediate forms of S arithmetic (R358, R81): the second source is IMM12 sign-extended, or the stream immediate as the token
delivered it, extended to W; each operation is otherwise as in its register form. -/
def Obligations.ScalarArithmetic : Prop :=
  (∀ (f : SaReg) (u : Bool) (s : State) (w : Wave), Issuing s w → AllBack w [sR f.a, sR f.b, sR f.d] →
    let x := ext f.w (rdS s w (tagOf 0 0) f.a.toNat)
    let y := ext f.w (rdS s w (tagOf 0 1) f.b.toNat)
    let m := if f.w = .w64 then 64 else 32
    let below (p q : DWord) : Prop := if u then p.toNat < q.toNat else p.toInt < q.toInt
    let gives (L : Nat) (r : DWord) : Out := .next (issued s w (sWrite w.sup f.d.toNat (ext f.w r)) L)
    exec (.sadd f) s = gives 1 (BitVec.ofInt 64 (x.toInt + y.toInt)) ∧
    exec (.ssub f) s = gives 1 (BitVec.ofInt 64 (x.toInt - y.toInt)) ∧
    exec (.smul f) s = gives 3 (BitVec.ofInt 64 (x.toInt * y.toInt)) ∧
    exec (.smulh f) s = gives 3 (BitVec.ofInt 64 (x.toInt * y.toInt / 2 ^ m)) ∧
    exec (.sand f) s = gives 1 (x &&& y) ∧
    exec (.sor f) s = gives 1 (x ||| y) ∧
    exec (.sxor f) s = gives 1 (x ^^^ y) ∧
    exec (.sshl f) s = gives 1 (BitVec.ofNat 64 (x.toNat * 2 ^ (y.toNat % m))) ∧
    exec (.sshr f) s = gives 1 (BitVec.ofNat 64 (x.toNat / 2 ^ (y.toNat % m))) ∧
    exec (.ssar f) s = gives 1 (BitVec.ofInt 64 (x.toInt / 2 ^ (y.toNat % m))) ∧
    (∃ r, exec (.smin ⟨f, u⟩) s = gives 1 r ∧ (r = x ∨ r = y) ∧ ¬ below x r ∧ ¬ below y r) ∧
    (∃ r, exec (.smax ⟨f, u⟩) s = gives 1 r ∧ (r = x ∨ r = y) ∧ ¬ below r x ∧ ¬ below r y)) ∧
  (∀ (f : SaImm) (u : Bool) (s : State) (w : Wave), Issuing s w → AllBack w [sR f.a, sR f.d] →
    let x := ext f.w (rdS s w (tagOf 0 0) f.a.toNat)
    let y := ext f.w (match f.imm with | .inWord v => BitVec.ofInt 64 v.toInt | .stream => s.cur.imm)
    let m := if f.w = .w64 then 64 else 32
    let below (p q : DWord) : Prop := if u then p.toNat < q.toNat else p.toInt < q.toInt
    let gives (L : Nat) (r : DWord) : Out := .next (issued s w (sWrite w.sup f.d.toNat (ext f.w r)) L)
    exec (.saddI f) s = gives 1 (BitVec.ofInt 64 (x.toInt + y.toInt)) ∧
    exec (.ssubI f) s = gives 1 (BitVec.ofInt 64 (x.toInt - y.toInt)) ∧
    exec (.smulI f) s = gives 3 (BitVec.ofInt 64 (x.toInt * y.toInt)) ∧
    exec (.sandI f) s = gives 1 (x &&& y) ∧
    exec (.sorI f) s = gives 1 (x ||| y) ∧
    exec (.sxorI f) s = gives 1 (x ^^^ y) ∧
    exec (.sshlI f) s = gives 1 (BitVec.ofNat 64 (x.toNat * 2 ^ (y.toNat % m))) ∧
    exec (.sshrI f) s = gives 1 (BitVec.ofNat 64 (x.toNat / 2 ^ (y.toNat % m))) ∧
    exec (.ssarI f) s = gives 1 (BitVec.ofInt 64 (x.toInt / 2 ^ (y.toNat % m))) ∧
    (∃ r, exec (.sminI ⟨f, u⟩) s = gives 1 r ∧ (r = x ∨ r = y) ∧ ¬ below x r ∧ ¬ below y r) ∧
    (∃ r, exec (.smaxI ⟨f, u⟩) s = gives 1 r ∧ (r = x ∨ r = y) ∧ ¬ below r x ∧ ¬ below r y))

/-- SSET gives 1 when its condition holds of the extended sources and 0 otherwise, whatever W is (R362, R80); SSEL tests its
condition register, extended, against 0 and gives one source or the other, narrowed (R361); SLI gives IMM12 sign-extended or the
stream immediate (R359). Each is exposed with bound 1 and changes nothing else. -/
def Obligations.ScalarCompareAndSelect : Prop :=
  ∀ (s : State) (w : Wave), Issuing s w →
    let gives (d : BitVec 6) (r : DWord) : Out := .next (issued s w (sWrite w.sup d.toNat r) 1)
    (∀ (f : SaReg) (cc : Cond), AllBack w [sR f.a, sR f.b, sR f.d] →
      let x := ext f.w (rdS s w (tagOf 0 0) f.a.toNat)
      let y := ext f.w (rdS s w (tagOf 0 1) f.b.toNat)
      (Compares cc x y → exec (.sset ⟨f, cc⟩) s = gives f.d 1) ∧ (¬ Compares cc x y → exec (.sset ⟨f, cc⟩) s = gives f.d 0)) ∧
    (∀ (f : SaImm) (cc : Cond), AllBack w [sR f.a, sR f.d] →
      let x := ext f.w (rdS s w (tagOf 0 0) f.a.toNat)
      let y := ext f.w (match f.imm with | .inWord v => v.signExtend 64 | .stream => s.cur.imm)
      (Compares cc x y → exec (.ssetI ⟨f, cc⟩) s = gives f.d 1) ∧ (¬ Compares cc x y → exec (.ssetI ⟨f, cc⟩) s = gives f.d 0)) ∧
    (∀ (f : SaReg) (cc : Cond) (c : BitVec 6), AllBack w [sR f.a, sR f.b, sR c, sR f.d] →
      let t := ext f.w (rdS s w (tagOf 0 2) c.toNat)
      (Compares cc t 0 → exec (.ssel ⟨f, cc, c⟩) s = gives f.d (ext f.w (rdS s w (tagOf 0 0) f.a.toNat))) ∧
      (¬ Compares cc t 0 → exec (.ssel ⟨f, cc, c⟩) s = gives f.d (ext f.w (rdS s w (tagOf 0 1) f.b.toNat)))) ∧
    (∀ d : BitVec 6, AllBack w [sR d] →
      (∀ v : BitVec 12, exec (.sli ⟨d, .inWord v⟩) s = gives d (BitVec.ofInt 64 v.toInt)) ∧
      exec (.sli ⟨d, .stream⟩) s = gives d s.cur.imm)

/-- What SRD reads (R96, R360), register by register: identities and the role (R14, R29), the core's cycle counter, the 1.2 GHz time, the
stall sample, and the prefetch, dictionary and toll counters (R295), the fidelity levels (R170) and the slice errors, which only the tile party
sees (R172), the operating point (R286) and the throttle (R290), the first-event log (R73), the record queue (R202), the exception registers
(R268), a milestone counter (R219), the landing buffers of the region (R234) and the droop detector (R294); a read changes nothing
but its destination, which is exposed with bound 1.
SWR (R364): `trappc`, `trapmask` and `faultbase` take the value in supervisor mode (of `faultbase` bits [47:5], R202), and
`landbusy` bits that the value names become 0 (R234); the destination registers of the wave, its flags and the memory stay as
they are. -/
def Obligations.SpecialRegisterAccess : Prop :=
  (∀ (s : State) (w : Wave) (l : Launch) (p : Party) (d : BitVec 6), Issuing s w → AllBack w [sR d] →
    launchOf s w.lid = some l → partyOf s w.lid w.party = some p →
    let wid := s.cur.wid
    let gives (n : BitVec 8) (r : DWord) : Prop := exec (.srd ⟨d, n⟩) s = .next (issued s w (sWrite w.sup d.toNat r) 1)
    gives 0x00 (BitVec.ofNat 64 w.num) ∧ gives 0x01 (BitVec.ofNat 64 w.party) ∧
    gives 0x03 (BitVec.ofNat 64 (wid / 16 % 32)) ∧ gives 0x04 (BitVec.ofNat 64 (wid / 512)) ∧ gives 0x05 32 ∧
    gives 0x06 (BitVec.ofNat 64 w.lid) ∧ gives 0x07 (BitVec.ofNat 64 l.vf) ∧
    gives 0x08 (coreOf s (wid / 16)).cyc ∧ gives 0x09 (BitVec.ofNat 64 (s.now / 105)) ∧ gives 0x0A (BitVec.ofNat 64 l.energy) ∧
    gives 0x18 (BitVec.ofNat 64 (w.head * 256 + w.count)) ∧ gives 0x1A w.trapcause ∧
    gives 0x1B (w.trappc.zeroExtend 64) ∧ gives 0x1C (w.trapmask.zeroExtend 64) ∧
    (w.sup = true → gives 0x19 w.faultbase) ∧
    (∀ n : Nat, n < 8 → gives (BitVec.ofNat 8 (0x20 + n)) (BitVec.ofNat 64 (msOf p n).count)) ∧
    (let c := coreOf s (wid / 16)
     let x := shareOf s (wid / 16) w.lid
     let d := dieOf s (wid / 512)
     let y := clus s (wid / 64)
     let step := max (max c.ramp c.allow) (if d.held then 4 else 0)
     gives 0x02 (BitVec.ofNat 64 (w.role + (if p.prod then 2 ^ 8 else 0) + (if p.prod then p.waves - 1 else p.waves) * 2 ^ 16 +
       w.aAllot * 2 ^ 32 + w.bAllot * 2 ^ 40)) ∧
     gives 0x0B (BitVec.ofNat 64 (step + c.ramp * 2 ^ 3 + c.allow * 2 ^ 6 + (if c.halve.isSome then 2 ^ 9 else 0) +
       (if s.caps.f < 256 then 2 ^ 10 else 0) + (if d.held then 2 ^ 11 else 0) + c.whled.toNat * 2 ^ 16)) ∧
     gives 0x0C (BitVec.ofNat 64 (c.op + x.req * 2 ^ 3 + (granted s l).1 * 2 ^ 6 + (granted s l).2 * 2 ^ 9 +
       (if c.trans.isSome then 2 ^ 12 else 0) + (if w.denied then 2 ^ 13 else 0) + w.dencnt.toNat * 2 ^ 16)) ∧
     gives 0x0D (BitVec.ofNat 64 (l.level + l.asked * 2 ^ 2 + l.img.hdr.fidelity % 4 * 2 ^ 4 + l.floor * 2 ^ 6)) ∧
     gives 0x0E (if c.tile = some (w.lid, w.party) then BitVec.ofNat 64 c.slerr else 0) ∧
     gives 0x0F (BitVec.ofNat 64 (c.stallMem.toNat + c.stallIssue.toNat * 2 ^ 16 + c.stallSeq.toNat * 2 ^ 32)) ∧
     gives 0x28 (BitVec.ofNat 64 (x.landbusy.toNat % 2 ^ x.units)) ∧
     gives 0x30 (BitVec.ofNat 64 (y.thresh.toNat + y.alarms.toNat * 2 ^ 8)) ∧
     gives 0x31 (x.pfissued.zeroExtend 64) ∧ gives 0x32 (x.pfuseful.zeroExtend 64) ∧ gives 0x33 (x.pflate.zeroExtend 64) ∧
     gives 0x34 (x.dictmiss.zeroExtend 64)) ∧
    gives 0x35 (w.tollstall.zeroExtend 64) ∧
    (logHeld s wid w = false → gives 0x10 (felAddr w.fel) ∧ gives 0x11 (felInfo w.fel) ∧ gives 0x12 (w.fel.sticky.zeroExtend 64))) ∧
  (∀ (s : State) (w : Wave) (a : BitVec 6), Issuing s w → AllBack w [sR a] →
    let v := rdS s w (tagOf 0 0) a.toNat
    (w.sup = true →
      exec (.swr ⟨a, 0x1B⟩) s = .next (waveBecomes s { w with trappc := v.truncate 32, wrotePc := true }) ∧
      exec (.swr ⟨a, 0x1C⟩) s = .next (waveBecomes s { w with trapmask := v.truncate 32 }) ∧
      exec (.swr ⟨a, 0x19⟩) s = .next (waveBecomes s { w with faultbase := v &&& 0x0000FFFFFFFFFFE0#64 })) ∧
    ∃ t, exec (.swr ⟨a, 0x28⟩) s = .next t ∧ t.waves = s.waves ∧ t.mem = s.mem ∧
      (shareOf t (s.cur.wid / 16) w.lid).landbusy = (shareOf s (s.cur.wid / 16) w.lid).landbusy &&& ~~~v)

/-- Branches (R308, R309, R312 to R315, R333, R357): the next token is fetched at the displacement target, counted from the bundle's
own address, or at the register's low 32 bits; CALL leaves the address after its token, LOOP its counter less 1, in their register
with bound 1; BRC and a LOOP whose counter reaches 0 may fall through, with the address after the token kept. -/
def Obligations.BranchesAndLinks : Prop :=
  ∀ (s : State) (w : Wave), Issuing s w →
    let at_ (d : BitVec 24) : Word := s.cur.here + BitVec.ofInt 32 d.toInt
    let jumps (v : Wave) (t : Word) : Out := .next (waveBecomes s { v with pc := t, tok := none })
    (∀ d, exec (.br d) s = jumps w (at_ d)) ∧
    (∀ a : BitVec 6, AllBack w [sR a] →
      exec (.brx a) s = jumps w ((rdS s w (tagOf 0 0) a.toNat).truncate 32) ∧
      exec (.ret a) s = jumps w ((rdS s w (tagOf 0 0) a.toNat).truncate 32)) ∧
    (∀ f : LinkF, AllBack w [sR f.a] →
      exec (.call f) s = jumps (pushWin w (sWrite w.sup f.a.toNat (s.cur.next.zeroExtend 64)) 1) (at_ f.disp) ∧
      (let n := rdS s w (tagOf 0 0) f.a.toNat
       let v := pushWin w (sWrite w.sup f.a.toNat (n - 1)) 1
       (n ≠ 1 → exec (.loop f) s = jumps v (at_ f.disp)) ∧ (n = 1 → exec (.loop f) s = .next (waveBecomes s v)))) ∧
    (∀ f : BrcF, f.cc.isCompare = true → AllBack w [sR f.a] →
      let x := rdS s w (tagOf 0 0) f.a.toNat
      (Compares f.cc x 0 → exec (.brc f) s = jumps w (at_ f.disp)) ∧
      (¬ Compares f.cc x 0 → exec (.brc f) s = .next (bump s))) ∧
    (∀ f : BrcF, AllBack w [kR f.k] →
      let k := rdK s w (tagOf 0 0) f.k.toNat
      let go (c : Cond) : Out := exec (.brc { f with cc := c }) s
      (k &&& w.live ≠ 0 → go .any = jumps w (at_ f.disp) ∧ go .none = .next (bump s)) ∧
      (k &&& w.live = 0 → go .any = .next (bump s) ∧ go .none = jumps w (at_ f.disp)) ∧
      (k &&& w.live = w.live → go .all = jumps w (at_ f.disp)) ∧
      (k &&& w.live ≠ w.live → go .all = .next (bump s)))

/-! ### Exceptions and returning from them -/

/-- HANDLER ENTRY by TRAP, SVC and BKPT (R267, R268, R311, R363, R376) in user mode, with a valid entry for the cause: the windows
close, `trapmask` takes k15, k15 takes the live mask, `trappc` the bundle after the token, `trapcause` the cause, the code and the
SVC bit, and the wave fetches at the entry in supervisor mode. k0, the first-event log, the lane states and the memory keep their
values (R271); no other wave and no launch changes. A BKPT whose slot the debugger marked halts instead and is not meant here. For
these three the model writes 1 in REISSUE, as for every entry that is not in a wait (R268). -/
def Obligations.SoftwareTrapEntersHandler : Prop :=
  ∀ (s : State) (w : Wave) (c : BitVec 8) (e : Word) (i : Instr) (cause svc : Nat),
    Issuing s w → w.sup = false →
    ((i = .trap c ∧ cause = 0x10 ∧ svc = 0) ∨ (i = .svc c ∧ cause = 0x10 ∧ svc = 1) ∨
      (i = .bkpt c ∧ cause = 0x11 ∧ svc = 0 ∧ s.cur.wid ∉ s.sec.bkhalt)) →
    entryFor s w.lid cause = some e →
    ∃ t v, exec i s = .next t ∧ waveOf t s.cur.wid = some v ∧
      v.sup = true ∧ v.st = .handler ∧ v.pc = e ∧ v.tok = none ∧ v.wins = [] ∧
      v.trapmask = rdK s (drainWins w) (tagOf 7 0) 15 ∧ holdK v 15 = { val := w.live, und := 0 } ∧
      v.trappc = s.cur.next ∧ v.trapcause = BitVec.ofNat 64 (cause + 256 + 65536 * c.toNat + 16777216 * svc) ∧
      v.live = w.live ∧ v.fel = w.fel ∧ v.lfsr = w.lfsr ∧ v.recs = w.recs ∧
      (∀ x, x ≠ s.cur.wid → waveOf t x = waveOf s x) ∧
      t.mem = s.mem ∧ t.launches = s.launches ∧ t.parties = s.parties ∧ t.acc = s.acc

/-- A cause with the handler disposition becomes a kill of the launch with the same code where the wave is already in the handler, or
where the handler table has no valid entry for it (R265, R267, R270): shown for TRAP and SVC, whose code the record of the kill carries
in DETAIL only where the trap ended the launch from its handler (R376, R411).
The privilege trap (R96, R99, R316, R317, R325, R356): in user mode ERET, REPLAY, INVPG, a read or write of `faultbase` and a
write of `trappc` or `trapmask`, and in the handler EXIT, end the launch with code 0x12. -/
def Obligations.TrapsWithoutHandlerKill : Prop :=
  (∀ (s : State) (w : Wave) (c : BitVec 8), Issuing s w → (w.sup = true ∨ entryFor s w.lid 0x10 = none) →
    let detail := if w.sup then c.toNat else 0
    exec (.trap c) s = .next (bump (killWave s s.cur.wid w 0x10 s.cur.here detail)) ∧
    exec (.svc c) s = .next (bump (killWave s s.cur.wid w 0x10 s.cur.here detail))) ∧
  (∀ (s : State) (w : Wave) (i : Instr), Issuing s w → s.cur.go = false → scoreHeld i w = false →
    ((w.sup = false ∧ (i = .eret ∨ (∃ o, i = .replay o) ∨ (∃ f, i = .invpg f) ∨ (∃ d, i = .srd ⟨d, 0x19⟩) ∨
        (∃ a, i = .swr ⟨a, 0x19⟩ ∨ i = .swr ⟨a, 0x1B⟩ ∨ i = .swr ⟨a, 0x1C⟩))) ∨
      (w.sup = true ∧ ∃ k, i = .exit k)) →
    exec i s = .next (bump (killWave s s.cur.wid w 0x12 s.cur.here 0)))

/-- A KILL (R273): the launch of the wave is killed; its waves, its parties and their places on the cores and in the context regions, its
accesses, copies, stream operations, releases and convoys are gone from the part, waves of launches outside its route stay as they were,
and its queue is faulted with the error record of 32 bytes at QERRA, in far memory or in the host's. Stated for a launch that is no
stage of a route.
The 32 bytes of a queue error record (R250): packet number, code, die, core, slot, bundle address, DETAIL, the 1.2 GHz time and
zero, little-endian, each at its place. -/
def Obligations.KillEndsLaunchWithItsRecord : Prop :=
  (∀ (s : State) (lid code die core slot addr detail : Nat) (l : Launch), launchOf s lid = some l → l.p.route = 0 →
    let t := killLaunch s lid code die core slot addr detail
    (∃ l', launchOf t lid = some l' ∧ l'.st = .killed) ∧
    (∀ k w, waveOf t k = some w → w.lid ≠ lid) ∧
    (∀ k w, waveOf s k = some w → w.lid ≠ lid → waveOf t k = some w) ∧
    (∀ k a, accOf t k = some a → a.lid ≠ lid) ∧
    (∀ k c, copyOf t k = some c → c.lid ≠ lid) ∧
    (∀ e ∈ t.convoys, e.2.lid ≠ lid) ∧ (∀ e ∈ t.rels, e.2.lid ≠ lid) ∧ (∀ e ∈ t.pops, e.2.lid ≠ lid) ∧
    (∀ e ∈ t.streams, e.2.sLid ≠ lid ∧ e.2.rLid ≠ lid) ∧ (∀ e ∈ t.parties, e.1 / 65536 ≠ lid) ∧
    (∀ e ∈ t.cores, (∀ x ∈ e.2.shares, x.1 ≠ lid) ∧ (∀ n, e.2.tile ≠ some (lid, n)) ∧ (∀ x ∈ e.2.dtab, x.key.lid ≠ lid) ∧
      ∀ x ∈ e.2.ostler, x.1.lid ≠ lid) ∧
    (∀ e ∈ t.dies, (∀ x ∈ e.2.areas, x.1 ≠ lid) ∧ ∀ x ∈ e.2.coreAreas, x.1 ≠ lid) ∧
    (let q := queueOf s (queueOfLaunch l)
     queueOf t (queueOfLaunch l) = { q with fault := true, st := .faulted, poll := none } ∧
     readSide t q.loc q.qerra 32 = errBytes l.pkt code die core slot addr detail (s.now / 105))) ∧
  (∀ (pkt code die core slot addr detail time : Nat), pkt < 2 ^ 32 → code < 256 → die < 256 → core < 256 → slot < 256 →
    addr < 2 ^ 32 → detail < 2 ^ 32 → time < 2 ^ 64 →
    let r := errBytes pkt code die core slot addr detail time
    r.length = 32 ∧ leNat (r.take 4) = pkt ∧ leNat ((r.drop 4).take 1) = code ∧ leNat ((r.drop 5).take 1) = die ∧
    leNat ((r.drop 6).take 1) = core ∧ leNat ((r.drop 7).take 1) = slot ∧ leNat ((r.drop 8).take 4) = addr ∧
    leNat ((r.drop 12).take 4) = detail ∧ leNat ((r.drop 16).take 8) = time ∧ leNat (r.drop 24) = 0)

/-- ERET (R271, R316) in the handler: in one step k15 takes `trapmask`, supervisor mode ends, and the wave fetches at `trappc`; where
the entry was taken in a wait and the handler has not written `trappc`, the wave is back in that wait without issuing its bundle
again. k0, the first-event log and the lane states are unchanged. -/
def Obligations.EretReturns : Prop :=
  ∀ (s : State) (w : Wave), Issuing s w → w.sup = true →
    ∃ t v, exec .eret s = .next t ∧ waveOf t s.cur.wid = some v ∧
      v.sup = false ∧ holdK v 15 = { val := w.trapmask, und := 0 } ∧ v.tok = none ∧
      v.live = w.live ∧ v.fel = w.fel ∧ v.lfsr = w.lfsr ∧ v.s = w.s ∧ v.h = w.h ∧ v.a = w.a ∧ v.b = w.b ∧
      (w.trapcause.getLsbD 9 = false ∨ w.wrotePc = true ∨ w.outer = none → v.st = .running ∧ v.pc = w.trappc ∧ v.wait = none) ∧
      (∀ x, w.trapcause.getLsbD 9 = true → w.wrotePc = false → w.outer = some x →
        v.st = .waiting ∧ v.wait = some { x with since := s.now / 105 } ∧ v.pc = x.next) ∧
      t.mem = s.mem ∧ ∀ k, k ≠ s.cur.wid → waveOf t k = waveOf s k
/-! ### Synchronisation, and the end of a wave -/

/-- EXIT, YIELD, FELRD and the empty bundle. EXIT (R317) starts a publication and a release of the core, takes the effective mask out
of k0 and out of nothing else of its wave, and marks a wave with no lane left for retirement (R49); that such a wave keeps the state it has
until WAVE_RETIRE, where R48 enters retired at EXIT, is the model's choice (log 49, DEDUCED). YIELD (R396) sets AGE to 0 in
the handler, stops the wave where a pre-emption is requested, and else sets AGE to 0 with the yielded mark. FELRD (R321) writes the
log in its layout with bound 1 and clears it when asked. The empty bundle does nothing (R51). -/
def Obligations.WaveControl : Prop :=
  ∀ (s : State) (w : Wave), Issuing s w →
    (∀ k : BitVec 4, Issues (.exit k) s w →
      let core := s.cur.wid / 16
      let left := w.live &&& ~~~(rdK s w (tagOf 0 0) k.toNat)
      ∃ t, exec (.exit k) s = .next t ∧ waveOf t s.cur.wid = some { w with live := left, exiting := left == 0 } ∧
        (coreOf t core).epoch = (coreOf s core).epoch + 1 ∧ (∃ r, Tab.find t.rels s.nextId = some r ∧ r.target = .fence ∧
          r.epoch = (coreOf s core).epoch + 1 ∧ r.wid = s.cur.wid) ∧
        t.mem = s.mem ∧ ∀ x, x ≠ s.cur.wid → waveOf t x = waveOf s x) ∧
    (Issues .yield s w →
      (w.sup = true → exec .yield s = .next (waveBecomes s { w with age := 0 })) ∧
      (w.sup = false → w.preempt = true → exec .yield s = .next (waveBecomes s { w with stopping := some (BitVec.allOnes 64) })) ∧
      (w.sup = false → w.preempt = false → ∃ y, exec .yield s = .next (waveBecomes s { w with age := 0, yielded := some y }))) ∧
    (∀ f : FelrdF, Issues (.felrd f) s w →
      let e := w.fel
      let r := if e.valid then 2 ^ 63 + e.sticky.toNat * 2 ^ 43 + e.kind * 2 ^ 40 + e.lane * 2 ^ 35 + e.slot * 2 ^ 32 + e.addr.toNat
        else e.sticky.toNat * 2 ^ 43
      exec (.felrd f) s = .next (waveBecomes s
        { pushWin w (sWrite w.sup f.d.toNat (BitVec.ofNat 64 r)) 1 with fel := if f.clr then Fel.init else w.fel })) ∧
    exec .emptyBundle s = .next (bump s)

/-- BAR (R310): an unbound slot only publishes; an arrival is recorded with its release pending at the convoy entry, and unless the
form is arrive-only the wave then waits for that phase; a member whose arrival the phase already has waits first. The convoy's
phase does not advance at issue. -/
def Obligations.BarArrivesAndWaits : Prop :=
  ∀ (f : BarF) (s : State) (w : Wave), Issues (.bar f) s w →
    let wid := s.cur.wid
    (cvEntry s w f.cv.toNat = none → exec (.bar f) s = .next (bump (publish s (wid / 16)))) ∧
    (∀ e c, cvEntry s w f.cv.toNat = some e → Tab.find s.convoys e = some c → (w.party, w.num) ∉ c.arrived → (w.party, w.num) ∉ c.reported →
      ∃ t, exec (.bar f) s = .next t ∧
        Tab.find t.convoys e = some { c with arrived := c.arrived ++ [(w.party, w.num)] } ∧
        (∃ r, Tab.find t.rels s.nextId = some r ∧ r.target = .arrival e (w.party, w.num)) ∧
        (coreOf t (wid / 16)).epoch = (coreOf s (wid / 16)).epoch + 1 ∧
        (f.arriveOnly = true → t.waves = s.waves) ∧
        (f.arriveOnly = false → ∃ v x, waveOf t wid = some v ∧ v.st = .waiting ∧ v.wait = some x ∧ x.on = .bar e c.phase ∧
          x.here = s.cur.here ∧ x.next = s.cur.next ∧ x.rearm = none)) ∧
    (∀ e c, cvEntry s w f.cv.toNat = some e → Tab.find s.convoys e = some c →
      ((w.party, w.num) ∈ c.arrived ∨ (w.party, w.num) ∈ c.reported) →
      ∃ t v x, exec (.bar f) s = .next t ∧ t.convoys = s.convoys ∧ t.rels = s.rels ∧ waveOf t wid = some v ∧ v.st = .waiting ∧
        v.wait = some x ∧ x.on = .bar e c.phase ∧ x.rearm = some f.arriveOnly)

/-- PHASE and FENCE (R214, R322, R355) once their delivery is over. PHASE.pub starts a publication, PHASE.ref refreshes, PHASE.full does
both; a FENCE at wave to convoy scope only orders the wave's later accesses behind its earlier ones; at die scope or wider it starts
a release where its order releases, refreshes where it acquires, and in its full form holds the wave's later loads for that
release. No value in memory and no register changes.
MWAIT, GWAIT and GOPEN (R323, R324, R353): a wait whose counter or gate has reached the operand ends at once and acquires (with no
earlier load outstanding, its core's floor is every committed store); otherwise the wave is in its blocking wait, with the bundle's
address and the token after it. GOPEN never blocks: it starts a release whose target is the gate, which keeps its value until the
release is applied (R217). GWAIT and GOPEN take the operand's low 32 bits, MWAIT all 64. -/
def Obligations.PhasesFencesWaitsAndGates : Prop :=
  (∀ (s : State) (w : Wave),
    let c := s.cur.wid / 16
    let epochs (t : State) (n : Nat) : Prop := (coreOf t c).epoch = (coreOf s c).epoch + n
    let fresh (t : State) : Prop := (coreOf t c).floor = s.commits ∧ (coreOf t c).raised = []
    let stale (t : State) : Prop := (coreOf t c).floor = (coreOf s c).floor ∧ (coreOf t c).raised = (coreOf s c).raised
    (Issues (.phase .pub) s w → ∃ t, exec (.phase .pub) s = .next t ∧ epochs t 1 ∧ stale t ∧ t.waves = s.waves ∧ t.mem = s.mem) ∧
    (Issues (.phase .ref) s w → ∃ t, exec (.phase .ref) s = .next t ∧ epochs t 0 ∧ fresh t ∧ t.waves = s.waves ∧ t.mem = s.mem) ∧
    (Issues (.phase .full) s w → ∃ t, exec (.phase .full) s = .next t ∧ epochs t 1 ∧ fresh t ∧ t.waves = s.waves ∧ t.mem = s.mem) ∧
    (∀ f : FenceF, Issues (.fence f) s w →
      (f.scope.isPlain = true → exec (.fence f) s = .next (waveBecomes s { w with fenceUpto := s.nextId })) ∧
      (f.scope.isPlain = false → ∃ t v, exec (.fence f) s = .next t ∧ t.mem = s.mem ∧ waveOf t s.cur.wid = some v ∧
        v.s = w.s ∧ v.k = w.k ∧ v.a = w.a ∧ v.b = w.b ∧ v.pc = w.pc ∧
        (f.full = true → v = { w with fullUpto := some s.nextId }) ∧ (f.full = false → v = w) ∧
        ((f.full = true ∨ f.ord = .release ∨ f.ord = .acqRel) → epochs t 1 ∧ ∃ r, Tab.find t.rels s.nextId = some r ∧ r.target = .fence) ∧
        ((f.full = false ∧ f.ord = .acquire) → epochs t 0 ∧ t.rels = s.rels) ∧
        ((f.full = true ∨ f.ord = .acquire ∨ f.ord = .acqRel) → fresh t) ∧
        ((f.full = false ∧ f.ord = .release) → stale t)))) ∧
  (∀ (f : ScWait) (s : State) (w : Wave),
    let c := s.cur.wid / 16
    let n := (match f.op with | .reg a => rdS s w (tagOf 0 0) a.toNat | .imm v => v.zeroExtend 64).toNat
    let reached (t : State) : Prop := ∃ v, waveOf t s.cur.wid = some v ∧ v.st = w.st ∧ v.wait = w.wait ∧ v.s = w.s ∧
      (acqDone s s.cur.wid w.sup s.nextId = true → (if w.sup then v.supAcq else v.acqUpto) = none ∧ (coreOf t c).floor = s.commits)
    let waits (t : State) (on : WaitOn) : Prop := ∃ v x, waveOf t s.cur.wid = some v ∧ v.st = .waiting ∧ v.wait = some x ∧ x.on = on ∧
      x.here = s.cur.here ∧ x.next = s.cur.next ∧ x.sp = s.cur.sp ∧ x.since = s.now / 105
    (Issues (.mwait f) s w → ∃ t, exec (.mwait f) s = .next t ∧ t.mem = s.mem ∧
      (n ≤ msCount s w f.idx.toNat → reached t) ∧ (msCount s w f.idx.toNat < n → waits t (.mwait f.idx.toNat n))) ∧
    (Issues (.gwait f) s w → ∃ t, exec (.gwait f) s = .next t ∧ t.mem = s.mem ∧ t.queues = s.queues ∧
      (let g := gateKey s w f.idx.toNat
       (n % 2 ^ 32 ≤ gateVal s g → reached t) ∧ (gateVal s g < n % 2 ^ 32 → waits t (.gwait g (n % 2 ^ 32))))) ∧
    (Issues (.gopen f) s w → ∃ t r, exec (.gopen f) s = .next t ∧ t.waves = s.waves ∧ t.mem = s.mem ∧ t.queues = s.queues ∧
      Tab.find t.rels s.nextId = some r ∧ r.target = .gate (gateKey s w f.idx.toNat) (n % 2 ^ 32) ∧
      (coreOf t c).epoch = (coreOf s c).epoch + 1))

/-- REPLAY (R198, R356) takes the low 6 bits of its operand as the slot: a slot without an unfreed record is left alone; a record that
no access stands behind any more is freed, its CAUSE byte 0, and the other records stay; a load record whose page now translates
for its one failing lane leaves that lane translated and unfailed and the slot free. Stated where no record waits for room in the queue
(R196), which the freed slot would take in.
INVPG (R203, R204, R325): every attribute TLB and translation cache loses the wave's translations that overlap the named page, or
all of its address space, and every L1, remote-data cache and L2 its lines there, but for a line of L1 whose error has still to reach the home
(R206); `s[A]` awaits the status, which arrives with DONE and the isolated dies once the dies have acknowledged,
and until then the wave issues nothing. Stated where no plain store through an L1 is under way, which INVPG would first write back by the old
translations. -/
def Obligations.ReplayAndInvpg : Prop :=
  (∀ (o : ScOp) (s : State) (w : Wave), Issues (.replay o) s w →
    (∀ e ∈ s.acc, e.2.wid = s.cur.wid → e.2.unrecorded = false) → (∀ e ∈ s.copies, e.2.wid = s.cur.wid → e.2.faulted = false) → w.more = [] →
    let k := (match o with | .reg a => rdS s w (tagOf 0 0) a.toNat | .imm v => v.zeroExtend 64).toNat % 64
    (Tab.find w.recs k = none → exec (.replay o) s = .next (bump s)) ∧
    (∀ r, Tab.find w.recs k = some r → r.copy = false → accOf s r.acc = none →
      ∃ t v, exec (.replay o) s = .next t ∧ waveOf t s.cur.wid = some v ∧ v.recs = Tab.del w.recs k ∧
        (∀ l, r.loc = some l → devByte t (l + 5) = 0 ∧ ∀ x, x ≠ l + 5 → ByteKept s t x) ∧ (r.loc = none → t.mem = s.mem)) ∧
    (∀ r a p loc st, Tab.find w.recs k = some r → r.copy = false → accOf s r.acc = some a → a.kind = .load → a.pieces = [p] →
      p.fault.isSome = true → recPage r a.cls = piecePage a p → isLdo a.dest = false →
      lookAt s a.core a.far a.asid a.cls true false p.va = (.at_ loc, st) →
      ∃ t v, exec (.replay o) s = .next t ∧ waveOf t s.cur.wid = some v ∧ v.recs = Tab.del w.recs k ∧
        (∀ l, r.loc = some l → devByte t (l + 5) = 0 ∧ ∀ x, x ≠ l + 5 → ByteKept s t x) ∧ (r.loc = none → t.mem = s.mem) ∧
        ∃ b, accOf t r.acc = some b ∧ b.pieces = [{ p with pa := some loc, fault := none }])) ∧
  (∀ (f : InvpgF) (s : State) (w : Wave), Issues (.invpg f) s w →
    (∀ e ∈ s.acc, isStore e.2.kind = true → e.2.scope.isPlain = true → e.2.loc = true ∨ e.2.direct = true ∨ ∀ p ∈ e.2.pieces, p.done = true) →
    let va := (rdS s w (tagOf 0 0) f.a.toNat).toNat % 2 ^ 48
    let size := classSize f.cls.toNat
    let lo := if f.whole then 0 else va / size * size
    let hi := if f.whole then 2 ^ 48 else va / size * size + size
    let named (from_ n : Nat) : Prop := from_ < hi ∧ lo < from_ + n
    ∃ t v, exec (.invpg f) s = .next t ∧ waveOf t s.cur.wid = some v ∧ isBusy v (nameS w.sup f.a.toNat) = true ∧ inInvpg t s.cur.wid = true ∧
      (∀ e ∈ t.cores, ∀ x ∈ e.2.atlb, x.asid = asidOf s w → ¬ named (x.page * classSize x.cls) (classSize x.cls)) ∧
      (∀ e ∈ t.dies, ∀ c ∈ e.2.xlat, ∀ x ∈ c.2, x.asid = asidOf s w → ¬ named (x.page * classSize x.cls) (classSize x.cls)) ∧
      (∀ c ∈ t.feXlat, ∀ x ∈ c.2, x.asid = asidOf s w → ¬ named (x.page * classSize x.cls) (classSize x.cls)) ∧
      (∀ c, ∀ x ∈ (coreOf t c).l1, x.asid = asidOf s w → named (128 * x.line) 128 → x.bad ≠ []) ∧
      (∀ d, ∀ x ∈ (dieOf t d).rdc, x.asid = asidOf s w → ¬ named (128 * x.line) 128) ∧
      (∀ e ∈ t.dies, ∀ x ∈ e.2.l2, x.2.asid = asidOf s w → ¬ named (128 * x.2.line) 128) ∧
      t.mem = s.mem ∧
      ∃ u x, exec (.loadReturn s.nextId) t = .next u ∧ waveOf u s.cur.wid = some x ∧
        holdS x f.a.toNat = { val := BitVec.ofNat 64 (2 ^ 63 + offMask s % 256), und := false } ∧ isBusy x (nameS w.sup f.a.toNat) = false)

/-! ### The V slots -/

/-- VADD, VSUB and VMUL, register and immediate forms (R83, R117, R382, R383), bound 4: an integer element is the exact sum, difference
or product, wrapped, or clamped with an event under SAT; a floating element is the one rounding, in the named mode, of the sources
after absolute value and negation. Only active lanes are written, draw or report. -/
def Obligations.VectorAddSubMul : Prop :=
  ∀ (h : VHdr) (b : BitVec 6) (imm : VImm) (ty : Ty) (m : VMod) (s : State) (w : Wave),
    let a := rdV s w (tagOf (vSlot h.cl) 1) h.cl h.a.toNat
    let mask := effMask s w (tagOf (vSlot h.cl) 0) h.k.toNat
    let rsr := m.rm == .rsr
    let is (i : Instr) (y : Nat → Word) (fop : FFmt → Rm → Nat → FVal → FVal → Rounded) (iop : Int → Int → Int) : Prop :=
      RegsReady i s w → ∃ t out, exec i s = .next t ∧ LanesIssued (vSlot h.cl) h.cl h.d mask 4 out s w t ∧
        ∀ n, n < 32 → LaneIs ty (Ty.count ty) rsr (w.lfsr.at n) (fun v j =>
          let p := elem ty (a.at n) j
          let q := elem ty (y n) j
          if ty.isFloat then fop (Ty.fmt ty) m.rm v (fSrcA ty m p) (fSrcB ty m q)
          else fits (Ty.signed ty) (Ty.bits ty) m.sat (iop (toInt (Ty.signed ty) (Ty.bits ty) p) (toInt (Ty.signed ty) (Ty.bits ty) q))) (out n)
    let yr := fun n => (rdV s w (tagOf (vSlot h.cl) 2) h.cl b.toNat).at n
    let yi := fun (_ : Nat) => vImm s ty imm
    is (.vadd ⟨h, b, ty, m⟩) yr fAdd (· + ·) ∧ is (.vaddI ⟨h, imm, ty, m⟩) yi fAdd (· + ·) ∧
    is (.vsub ⟨h, b, ty, m⟩) yr (fun f rm v x y => fAdd f rm v x y.neg) (· - ·) ∧
    is (.vsubI ⟨h, imm, ty, m⟩) yi (fun f rm v x y => fAdd f rm v x y.neg) (· - ·) ∧
    is (.vmul ⟨h, b, ty, m⟩) yr fMul (· * ·) ∧ is (.vmulI ⟨h, imm, ty, m⟩) yi fMul (· * ·)

/-- VFMA, VMIN and VMAX (R388, R390, R121): a fused product and sum rounded once, bound 5, the addend being register C or in the
immediate form the old destination; the smaller or larger element, bound 4, with no event, integers by their type's order and floating
elements with a NaN giving way to the other operand. -/
def Obligations.VectorFmaMinMax : Prop :=
  ∀ (h : VHdr) (b c : BitVec 6) (imm : VImm) (ty : Ty) (m : VMod) (s : State) (w : Wave),
    let a := rdV s w (tagOf (vSlot h.cl) 1) h.cl h.a.toNat
    let mask := effMask s w (tagOf (vSlot h.cl) 0) h.k.toNat
    let is (i : Instr) (L : Nat) (rsr : Bool) (y : Nat → Word) (op : Nat → Nat → Nat → Nat → Nat → Rounded) : Prop :=
      RegsReady i s w → ∃ t out, exec i s = .next t ∧ LanesIssued (vSlot h.cl) h.cl h.d mask L out s w t ∧
        ∀ n, n < 32 → LaneIs ty (Ty.count ty) rsr (w.lfsr.at n) (fun v j => op n v j (elem ty (a.at n) j) (elem ty (y n) j)) (out n)
    let yr := fun n => (rdV s w (tagOf (vSlot h.cl) 2) h.cl b.toNat).at n
    let yi := fun (_ : Nat) => vImm s ty imm
    let third (z : BitVec 6) : Nat → Nat → Nat → Nat → Nat → Rounded := fun n v j p q =>
      fFma (Ty.fmt ty) m.rm v (fSrcA ty m p) (fSrcB ty m q) ((Ty.fmt ty).decode (elem ty ((rdV s w (tagOf (vSlot h.cl) 3) h.cl z.toNat).at n) j))
    let pickOf (fop : FFmt → FVal → FVal → Nat) (iop : Int → Int → Int) : Nat → Nat → Nat → Nat → Nat → Rounded := fun _ _ _ p q =>
      if ty.isFloat then ⟨fop (Ty.fmt ty) (fSrcA ty m p) (fSrcB ty m q), none⟩
      else fits (Ty.signed ty) (Ty.bits ty) false (iop (toInt (Ty.signed ty) (Ty.bits ty) p) (toInt (Ty.signed ty) (Ty.bits ty) q))
    is (.vfma ⟨h, b, c, ty, m⟩) 5 (m.rm == .rsr) yr (third c) ∧ is (.vfmaI ⟨h, imm, ty, m⟩) 5 (m.rm == .rsr) yi (third h.d) ∧
    is (.vmin ⟨h, b, ty, m⟩) 4 false yr (pickOf fMin min) ∧ is (.vminI ⟨h, imm, ty, m⟩) 4 false yi (pickOf fMin min) ∧
    is (.vmax ⟨h, b, ty, m⟩) 4 false yr (pickOf fMax max) ∧ is (.vmaxI ⟨h, imm, ty, m⟩) 4 false yi (pickOf fMax max)

/-- VCMP and VSEL (R24, R386, R395), bound 4: a mask bit is 1 where the condition holds of every element of the lane, and only mask bits
of the effective mask are written; VSEL gives register A where the selecting mask, whole, has a 1 and the second source elsewhere.
Bit logic, moves and lane numbers (R384, R389, R391) on raw 32-bit lanes, bound 4, with no event. -/
def Obligations.VectorCompareSelectAndBits : Prop :=
  (∀ (h : VHdr) (b : BitVec 6) (imm : VImm) (ty : Ty) (m : VMod) (c : VCond) (ks : BitVec 4) (ki : BitVec 3) (s : State) (w : Wave),
    let a := rdV s w (tagOf (vSlot h.cl) 1) h.cl h.a.toNat
    let mask := effMask s w (tagOf (vSlot h.cl) 0) h.k.toNat
    let yr := fun n => (rdV s w (tagOf (vSlot h.cl) 2) h.cl b.toNat).at n
    let num := fun (x : Word) (j : Nat) => toInt (Ty.signed ty) (Ty.bits ty) (elem ty x j)
    let each (x y : Word) (j : Nat) : Bool :=
      if ty.isFloat then fcond c (fSrcA ty m (elem ty x j)) (fSrcB ty m (elem ty y j))
      else match c with
        | .eq => num x j == num y j | .ne => num x j != num y j | .lt => num x j < num y j | .le => num x j ≤ num y j
        | .gt => num x j > num y j | .ge => num x j ≥ num y j | .uo => false | .ord => true
    let compares (i : Instr) (y : Nat → Word) : Prop := RegsReady i s w → ∃ bits : Word,
      exec i s = .next (issued s w (.k (h.d.toNat % 16) mask bits) 4) ∧
      ∀ n, n < 32 → (bits.getLsbD n = true ↔ ∀ j, j < Ty.count ty → each (a.at n) (y n) j = true)
    let selects (i : Instr) (k : Nat) (y : Nat → Word) : Prop := RegsReady i s w → ∃ t, exec i s = .next t ∧
      LanesMoved h.cl h.d mask 4 (fun n => if (rdK s w (tagOf (vSlot h.cl) 4) k).getLsbD n then a.at n else y n) s w t
    compares (.vcmp ⟨h, b, ty, c, m⟩) yr ∧ compares (.vcmpI ⟨h, imm, ty, c, m⟩) (fun _ => vImm s ty imm) ∧
    selects (.vsel ⟨h, b, ks⟩) ks.toNat yr ∧ selects (.vselI ⟨h, imm, ki⟩) ki.toNat (fun _ => vImm s .f32 imm)) ∧
  (∀ (h : VHdr) (g : VDst) (b : BitVec 6) (imm : VImm) (s : State) (w : Wave),
    let a := rdV s w (tagOf (vSlot h.cl) 1) h.cl h.a.toNat
    let yr := fun n => (rdV s w (tagOf (vSlot h.cl) 2) h.cl b.toNat).at n
    let yi := vImm s .f32 imm
    let is (i : Instr) (v : Nat → Word) : Prop := RegsReady i s w → ∃ t, exec i s = .next t ∧
      LanesMoved h.cl h.d (effMask s w (tagOf (vSlot h.cl) 0) h.k.toNat) 4 v s w t
    let fresh (i : Instr) (v : Nat → Word) : Prop := RegsReady i s w → ∃ t, exec i s = .next t ∧
      LanesMoved g.cl g.d (effMask s w (tagOf (vSlot g.cl) 0) g.k.toNat) 4 v s w t
    is (.vand ⟨h, b⟩) (fun n => a.at n &&& yr n) ∧ is (.vandI ⟨h, imm⟩) (fun n => a.at n &&& yi) ∧
    is (.vor ⟨h, b⟩) (fun n => a.at n ||| yr n) ∧ is (.vorI ⟨h, imm⟩) (fun n => a.at n ||| yi) ∧
    is (.vxor ⟨h, b⟩) (fun n => a.at n ^^^ yr n) ∧ is (.vxorI ⟨h, imm⟩) (fun n => a.at n ^^^ yi) ∧
    is (.vmov h) (fun n => a.at n) ∧ fresh (.vmovI ⟨g, imm⟩) (fun _ => yi) ∧ fresh (.vidx g) (fun n => BitVec.ofNat 32 n))

/-- Shifts, high products, counts, conversion and rounding (R118, R119, R130, R385, R387, R392 to R394): element by element, a shift by
the second element mod the width (VSAR fills with the sign bit at every type), the upper half of the exact product (bound 5), the
number of ones, the number of leading zeros, a conversion between lane types whose missing elements are 0 (bound 5), a rounding to
an integral value (bound 5). Of these only a conversion reports events. -/
def Obligations.VectorShiftsCountsConversions : Prop :=
  ∀ (h : VHdr) (b : BitVec 6) (imm : VImm) (ty src : Ty) (rm : Rm) (sat : Bool) (s : State) (w : Wave),
    let a := rdV s w (tagOf (vSlot h.cl) 1) h.cl h.a.toNat
    let mask := effMask s w (tagOf (vSlot h.cl) 0) h.k.toNat
    let yr := fun n => (rdV s w (tagOf (vSlot h.cl) 2) h.cl b.toNat).at n
    let yi := fun (_ : Nat) => vImm s ty imm
    let wd := Ty.bits ty
    let num := fun (x : Word) (j : Nat) => toInt (Ty.signed ty) wd (elem ty x j)
    let is (i : Instr) (L n : Nat) (rsr : Bool) (op : Nat → Nat → Nat → Rounded) : Prop :=
      RegsReady i s w → ∃ t out, exec i s = .next t ∧ LanesIssued (vSlot h.cl) h.cl h.d mask L out s w t ∧
        ∀ q, q < 32 → LaneIs ty n rsr (w.lfsr.at q) (op q) (out q)
    let shifts (y : Nat → Word) (op : Nat → Nat → Int) : Nat → Nat → Nat → Rounded := fun q _ j =>
      fits false wd false (op (elem ty (a.at q) j) (elem ty (y q) j % wd))
    let left := fun (x k : Nat) => (x : Int) * 2 ^ k
    let right := fun (x k : Nat) => (x : Int) / 2 ^ k
    let arith := fun (x k : Nat) => toInt true wd x / 2 ^ k
    is (.vshl ⟨h, b, ty⟩) 4 (Ty.count ty) false (shifts yr left) ∧ is (.vshlI ⟨h, imm, ty⟩) 4 (Ty.count ty) false (shifts yi left) ∧
    is (.vshr ⟨h, b, ty⟩) 4 (Ty.count ty) false (shifts yr right) ∧ is (.vshrI ⟨h, imm, ty⟩) 4 (Ty.count ty) false (shifts yi right) ∧
    is (.vsar ⟨h, b, ty⟩) 4 (Ty.count ty) false (shifts yr arith) ∧ is (.vsarI ⟨h, imm, ty⟩) 4 (Ty.count ty) false (shifts yi arith) ∧
    is (.vmulh ⟨h, b, ty⟩) 5 (Ty.count ty) false (fun q _ j => fits false wd false (num (a.at q) j * num (yr q) j / 2 ^ wd)) ∧
    is (.vpop ⟨h, ty⟩) 4 (Ty.count ty) false (fun q _ j => ⟨((List.range wd).filter fun z => (elem ty (a.at q) j).testBit z).length, none⟩) ∧
    is (.vclz ⟨h, ty⟩) 4 (Ty.count ty) false (fun q _ j => ⟨leadZeros wd (elem ty (a.at q) j), none⟩) ∧
    is (.vcvt ⟨h, ty, src, rm, sat⟩) 5 (min (Ty.count ty) (Ty.count src)) (rm == .rsr) (fun q v j => convert ty src rm sat v (elem src (a.at q) j)) ∧
    is (.vrnd ⟨h, ty, rm⟩) 5 (Ty.count ty) (rm == .rsr) (fun q v j => ⟨roundIntegral (Ty.fmt ty) rm v (elem ty (a.at q) j), none⟩)

/-- The first-event log (R72, R73): of the events of one operation the first in order fills an empty log, whose position an entry of an
earlier operation keeps; every event sets its sticky bit, and no bit is ever lost by an event.
The stochastic-rounding state (R126) is a 32-bit shift register that never reaches 0 from a value other than 0, as no lane's seed
of any wave is 0: a step shifts right and, where the bit shifted out is 1, takes the tap word 0x8020_0003. -/
def Obligations.EventLogAndLaneState : Prop :=
  (∀ (f : Fel) (ord : Nat) (addr : Word) (slot : Nat) (es : List (Nat × Ev)),
    let g := reportAll f ord addr slot es
    (∀ k, k < 5 → (g.sticky.getLsbD k = true ↔ f.sticky.getLsbD k = true ∨ ∃ e ∈ es, evCode e.2 = k)) ∧
    (es = [] → g = f) ∧
    (f.valid = true → f.ord ≤ ord → g = { f with sticky := g.sticky }) ∧
    (∀ e rest, es = e :: rest → (f.valid = false ∨ ord < f.ord) →
      g.valid = true ∧ g.ord = ord ∧ g.addr = addr ∧ g.slot = slot ∧ g.lane = e.1 ∧ g.kind = evCode e.2)) ∧
  ((∀ x : Word, x ≠ 0 → lfsrStep x ≠ 0) ∧ (∀ x y : Word, lfsrStep x = lfsrStep y → x = y) ∧
  (∀ p w i : Nat, i < 32 → lfsrSeed p w i ≠ 0) ∧
  (∀ (n : Nat) (x : Word), x ≠ 0 → lfsrSteps n x ≠ 0))

/-! ### The F and L slots -/

/-- The F-slot functions (R318, R319, R128), f32 lanes between any two clusters: FDIV and FSQRT have bound 14, FRCP and FRSQ 8, FEXP2 and
FLOG2 10, FTANH 12; each active lane takes the function's result for its source after absolute value and negation, with its event.
Where the enclosures of the model do not decide a rounding of FEXP2, FLOG2 or FTANH the value is free (log 23). -/
def Obligations.FunctionsInTheFSlot : Prop :=
  ∀ (f : FOp) (s : State) (w : Wave),
    let src := rdV s w (tagOf 3 1) f.ac f.a.toNat
    let den := rdV s w (tagOf 3 2) f.ac (f.a.toNat + 1)
    let x := fun n =>
      let v := f32F.decode (src.at n).toNat
      let u := if f.ab then v.abs else v
      if f.na then u.neg else u
    let is (i : Instr) (L : Nat) (res : Nat → Rounded → Prop) : Prop := RegsReady i s w → ∃ t out, exec i s = .next t ∧
      LanesIssued 3 f.dc f.d (effMask s w (tagOf 3 0) f.k.toNat) L out s w t ∧
      ∀ n, n < 32 → ∃ r, res n r ∧ (out n).val = BitVec.ofNat 32 r.bits ∧ (out n).evs = r.ev.toList ∧ (out n).lfsr = w.lfsr.at n
    let known (o : Nat → Option Rounded) : Nat → Rounded → Prop := fun n r => ∀ e, o n = some e → r = e
    is (.fdiv f) 14 (fun n r => r = fDiv (x n) (f32F.decode (den.at n).toNat)) ∧
    is (.fsqrt f) 14 (fun n r => r = fSqrt (x n)) ∧
    is (.frcp f) 8 (fun n r => r = fDiv (.fin false 1 0) (x n)) ∧
    is (.frsq f) 8 (fun n r => r = fRsq (x n)) ∧
    is (.fexp2 f) 10 (known fun n => fExp2 (x n)) ∧
    is (.flog2 f) 10 (known fun n => fLog2 (x n)) ∧
    is (.ftanh f) 12 (known fun n => fTanh (x n))

/-- Mask logic (R326 to R329): KAND, KOR, KXOR and KANDN of two mask registers, KSET from the stream immediate or the low 32 bits of an
s register, with bound 1; KFIRST keeps the lowest 1 and KPOP counts the ones, with bound 2. The whole register is written, the
live mask having no part in it but where k0 is read.
Moves between lanes and clusters (R330 to R334, R337): the source register is read whole, whatever the masks hold; LMOV and LBCAST have
bound 2, the shuffles 3, LGET 3 and LPUT 2. LGET delivers its lane even where that lane has left k0; LPUT writes all 32 lanes, one of
them new. -/
def Obligations.MaskLogicAndLaneMoves : Prop :=
  (∀ (s : State) (w : Wave),
    let k := fun (n : BitVec 4) (o : Nat) => rdK s w (tagOf 4 o) n.toNat
    let puts (i : Instr) (d : BitVec 4) (L : Nat) (v : Word) : Prop :=
      RegsReady i s w → exec i s = .next (issued s w (.k d.toNat (BitVec.allOnes 32) v) L)
    (∀ f : KOp, puts (.kand f) f.kd 1 (k f.ka 0 &&& k f.kb 1) ∧ puts (.kor f) f.kd 1 (k f.ka 0 ||| k f.kb 1) ∧
      puts (.kxor f) f.kd 1 (k f.ka 0 ^^^ k f.kb 1) ∧ puts (.kandn f) f.kd 1 (k f.ka 0 &&& ~~~ k f.kb 1)) ∧
    (∀ d, puts (.kset d) d 1 (s.cur.imm.truncate 32)) ∧
    (∀ f : KsetS, puts (.ksetSreg f) f.kd 1 ((rdS s w (tagOf 4 0) f.a.toNat).truncate 32)) ∧
    (∀ f : KfirstF, RegsReady (.kfirst f) s w → ∃ v : Word,
      exec (.kfirst f) s = .next (issued s w (.k f.kd.toNat (BitVec.allOnes 32) v) 2) ∧
      ∀ n, n < 32 → (v.getLsbD n = true ↔ (k f.ka 0).getLsbD n = true ∧ ∀ m, m < n → (k f.ka 0).getLsbD m = false)) ∧
    (∀ f : KpopF, RegsReady (.kpop f) s w →
      exec (.kpop f) s = .next (issued s w (sWrite w.sup f.d.toNat
        (BitVec.ofNat 64 ((List.range 32).filter fun n => (k f.ka 0).getLsbD n).length)) 2))) ∧
  (∀ (s : State) (w : Wave),
    let v := fun (o : Nat) (cl : Cluster) (n : BitVec 6) => rdV s w (tagOf 4 o) cl n.toNat
    let is (i : Instr) (h : LHdr) (L : Nat) (from_ : Nat → Nat) : Prop := RegsReady i s w → ∃ t, exec i s = .next t ∧
      LanesMoved h.dc h.d (effMask s w (tagOf 4 0) h.k.toNat) L (fun n => (v 1 h.sc h.a).at (from_ n)) s w t
    (∀ h, is (.lmov h) h 2 fun n => n) ∧
    (∀ f : LbcastF, is (.lbcast f) f.h 2 fun _ => f.lane.toNat) ∧
    (∀ f : LshufF, is (.lshuf f) f.h 3 fun n => ((v 2 f.h.sc f.b).at n).toNat % 32) ∧
    (∀ f : LpatF, is (.lshufPat f) f.h 3 fun n => match f.kind with
      | .xor => n ^^^ f.n.toNat | .rotUp => (n + 32 - f.n.toNat) % 32 | .rotDn => (n + f.n.toNat) % 32 | .rev => 31 - n) ∧
    (∀ f : LgetF, RegsReady (.lget f) s w →
      exec (.lget f) s = .next (issued s w (sWrite w.sup f.d.toNat (((v 1 f.sc f.a).at f.lane.toNat).zeroExtend 64)) 3)) ∧
    (∀ f : LputF, RegsReady (.lput f) s w → ∃ vals : Lanes,
      exec (.lput f) s = .next (issued s w (.v f.dc f.d.toNat (BitVec.allOnes 32) vals) 2) ∧
      ∀ n, n < 32 → vals.at n = if n = f.lane.toNat then (rdS s w (tagOf 4 2) f.a.toNat).truncate 32 else (v 1 f.dc f.d).at n))

/-- LRED and LSCAN on the integer and bitwise operations (R335, R336), bound 6: every active lane of LRED takes the combination of all
active lanes, whatever the order of combining; LSCAN gives each active lane the combination of the active lanes up to it, or
below it in the exclusive form, the first taking the identity. No event is reported.
LRED and LSCAN on floating operations (R129, R335, R336) issue like every lane operation: an exposed write with bound 6 of the active lanes.
Every lane of LRED takes what the fixed tree over lane positions makes of the active lanes, and the lowest active lane reports the tree's
events; LSCAN gives each active lane the combination, one by one in rising order, of the active lanes up to it, or below it in the
exclusive form, the first taking the identity, and reports the events of its own combination. Of the events only invalid and overflow count. -/
def Obligations.ReductionsAndScans : Prop :=
  (∀ (s : State) (w : Wave) (op : RedOp), op ≠ .addF → op ≠ .minF → op ≠ .maxF →
    let f := fun (x y : Word) => match op with
      | .addI => x + y
      | .minS => if x.toInt ≤ y.toInt then x else y
      | .maxS => if x.toInt ≤ y.toInt then y else x
      | .minN => if x.toNat ≤ y.toNat then x else y
      | .maxN => if x.toNat ≤ y.toNat then y else x
      | .band => x &&& y
      | .bor => x ||| y
      | _ => x ^^^ y
    let unit : Word := match op with
      | .minS => 0x7FFFFFFF | .maxS => 0x80000000 | .minN => 0xFFFFFFFF | .band => 0xFFFFFFFF | _ => 0
    (∀ h : LHdr, RegsReady (.lred ⟨h, op⟩) s w → ∃ t, exec (.lred ⟨h, op⟩) s = .next t ∧
      LanesMoved h.dc h.d (effMask s w (tagOf 4 0) h.k.toNat) 6
        (fun _ => ((maskLanes (effMask s w (tagOf 4 0) h.k.toNat)).map (rdV s w (tagOf 4 1) h.sc h.a.toNat).at).foldl f unit) s w t) ∧
    (∀ (h : LHdr) (excl : Bool), RegsReady (.lscan ⟨h, op, excl⟩) s w → ∃ t, exec (.lscan ⟨h, op, excl⟩) s = .next t ∧
      LanesMoved h.dc h.d (effMask s w (tagOf 4 0) h.k.toNat) 6
        (fun n => (((maskLanes (effMask s w (tagOf 4 0) h.k.toNat)).filter fun m => if excl then m < n else m ≤ n).map
          (rdV s w (tagOf 4 1) h.sc h.a.toNat).at).foldl f unit) s w t)) ∧
  (∀ (s : State) (w : Wave) (h : LHdr) (op : RedOp) (excl : Bool), op = .addF ∨ op = .minF ∨ op = .maxF →
    let mask := effMask s w (tagOf 4 0) h.k.toNat
    let a := (rdV s w (tagOf 4 1) h.sc h.a.toNat).at
    let active := fun (i : Nat) => if mask.getLsbD i then some (a i) else none
    let below := fun (n : Nat) => scanOver op (((maskLanes mask).filter (· < n)).map a)
    let unit : Word := match op with | .minF => 0x7F800000 | .maxF => 0xFF800000 | _ => 0
    (RegsReady (.lred ⟨h, op⟩) s w → ∃ t out, exec (.lred ⟨h, op⟩) s = .next t ∧ LanesIssued 4 h.dc h.d mask 6 out s w t ∧
      ∀ n, n < 32 → mask.getLsbD n = true → some (out n).val = treeOver op active 5 0 ∧ (out n).lfsr = w.lfsr.at n ∧
        ((∀ m, m < n → mask.getLsbD m = false) → (out n).evs = treeEvents op active) ∧
        ((∃ m, m < n ∧ mask.getLsbD m = true) → (out n).evs = [])) ∧
    (RegsReady (.lscan ⟨h, op, excl⟩) s w → ∃ t out, exec (.lscan ⟨h, op, excl⟩) s = .next t ∧ LanesIssued 4 h.dc h.d mask 6 out s w t ∧
      ∀ n, n < 32 → mask.getLsbD n = true → (out n).lfsr = w.lfsr.at n ∧
        (out n).val = (if excl then (below n).getD unit else ((floatComb op (below n) (some (a n))).1).getD 0) ∧
        (out n).evs = (floatComb op (below n) (some (a n))).2.toList))

/-! ### The M slot -/

/-- GLOBAL LOADS (R181, R339, R349): MLD, MLD.stride and MLDU start one access of the width at each active lane's address (once, as lane 31,
for MLDU), with the offset of their address form, and their destination waits on the scoreboard. No byte of memory and no register
value changes at issue. -/
def Obligations.GlobalLoadsIssue : Prop :=
  ∀ (s : State) (w : Wave),
    let lanes := fun (k : BitVec 4) => maskLanes (effMask s w (tagOf 5 0) k.toNat)
    let once := fun (k : BitVec 4) => if effMask s w (tagOf 5 0) k.toNat = 0 then [] else [31]
    let base := fun (a : BitVec 6) => ((rdS s w (tagOf 5 1) a.toNat).toNat : Int)
    let none_ := fun (_ : Nat) => ([] : List Byte)
    (∀ f : MAcc, Issues (.mld f) s w → ∃ t, exec (.mld f) s = .next t ∧
      AccessStarts s w t f.h.seg.toNat (widBytes f.wid) (lanes f.h.k)
        (fun i => (match f.ac with
          | .perA => (((rdV s w (tagOf 5 1) .A f.a.toNat).at i).toNat : Int)
          | .perB => (((rdV s w (tagOf 5 1) .B f.a.toNat).at i).toNat : Int)
          | .unif => base f.a) + mDisp s f.h.disp)
        .load (.lanes f.dc f.d.toNat f.wid) none_ none_ (widRun f.dc f.d f.wid) f.scope f.ord) ∧
    (∀ f : MStr, Issues (.mldStride f) s w → ∃ t, exec (.mldStride f) s = .next t ∧
      AccessStarts s w t f.h.seg.toNat (widBytes f.wid) (lanes f.h.k)
        (fun i => base f.a + mDisp s f.h.disp + i * (rdS s w (tagOf 5 2) (f.a.toNat + 1)).toInt)
        .load (.lanes f.dc f.d.toNat f.wid) none_ none_ (widRun f.dc f.d f.wid) f.scope f.ord) ∧
    (∀ f : MUni, Issues (.mldu f) s w → ∃ t, exec (.mldu f) s = .next t ∧
      AccessStarts s w t f.h.seg.toNat (widBytes f.wid) (once f.h.k) (fun _ => base f.a + mDisp s f.h.disp)
        .load (.uni f.d.toNat w.sup f.wid) none_ none_ [sR f.d] f.scope f.ord)

/-- GLOBAL STORES (R181, R339, R352): MST, MST.stride and MSTU put one piece for each active lane into the core's write set or on its way to
its home, with the little-endian datum of the source registers; memory is unchanged until the piece commits. A release store also
starts a publication and is held at its location (R217). -/
def Obligations.GlobalStoresIssue : Prop :=
  ∀ (s : State) (w : Wave),
    let lanes := fun (k : BitVec 4) => maskLanes (effMask s w (tagOf 5 0) k.toNat)
    let once := fun (k : BitVec 4) => if effMask s w (tagOf 5 0) k.toNat = 0 then [] else [31]
    let base := fun (a : BitVec 6) => ((rdS s w (tagOf 5 1) a.toNat).toNat : Int)
    let none_ := fun (_ : Nat) => ([] : List Byte)
    let word := fun (dc : Cluster) (n i : Nat) => leBytes 4 ((rdV s w (tagOf 5 (8 + n)) dc n).at i).toNat
    let datum := fun (dc : Cluster) (d : Nat) (wd : Wid) (i : Nat) => match wd with
      | .b8 => (word dc d i).take 1 | .b16 => (word dc d i).take 2 | .b32 => word dc d i
      | .b64 => word dc d i ++ word dc (d + 1) i
      | .b128 => word dc d i ++ word dc (d + 1) i ++ word dc (d + 2) i ++ word dc (d + 3) i
    let held (t : State) (lanes : List Nat) (o : Order) : Prop :=
      (releases o = true → (coreOf t (s.cur.wid / 16)).epoch = (coreOf s (s.cur.wid / 16)).epoch + 1) ∧
      (releases o = true → lanes ≠ [] → ∃ a r, accOf t s.nextId = some a ∧ a.rel = some (s.nextId + 1) ∧
        Tab.find t.rels (s.nextId + 1) = some r ∧ r.target = .access s.nextId)
    (∀ f : MAcc, Issues (.mst f) s w → ∃ t, exec (.mst f) s = .next t ∧ held t (lanes f.h.k) f.ord ∧
      AccessStarts s w t f.h.seg.toNat (widBytes f.wid) (lanes f.h.k)
        (fun i => (match f.ac with
          | .perA => (((rdV s w (tagOf 5 1) .A f.a.toNat).at i).toNat : Int)
          | .perB => (((rdV s w (tagOf 5 1) .B f.a.toNat).at i).toNat : Int)
          | .unif => base f.a) + mDisp s f.h.disp)
        .store .none (datum f.dc f.d.toNat f.wid) none_ [] f.scope f.ord) ∧
    (∀ f : MStr, Issues (.mstStride f) s w → ∃ t, exec (.mstStride f) s = .next t ∧ held t (lanes f.h.k) f.ord ∧
      AccessStarts s w t f.h.seg.toNat (widBytes f.wid) (lanes f.h.k)
        (fun i => base f.a + mDisp s f.h.disp + i * (rdS s w (tagOf 5 2) (f.a.toNat + 1)).toInt)
        .store .none (datum f.dc f.d.toNat f.wid) none_ [] f.scope f.ord) ∧
    (∀ f : MUni, Issues (.mstu f) s w → ∃ t, exec (.mstu f) s = .next t ∧ held t (once f.h.k) f.ord ∧
      AccessStarts s w t f.h.seg.toNat (widBytes f.wid) (once f.h.k) (fun _ => base f.a + mDisp s f.h.disp)
        .store .none (fun _ => (leBytes 8 (rdS s w (tagOf 5 (8 + f.d.toNat)) f.d.toNat).toNat).take (widBytes f.wid)) none_ [] f.scope f.ord)

/-- ATOMICS AND WATCHES (R343, R344, R354): MATOM and MCAS start one access for each active lane (once, as lane 31, with uniform data), MCAS
with its comparand from register D and its new value from the next datum; only a returning form marks its destination. MWATCH
starts its access with the expected value of `s[D]` and the timeout of `s[D+1]` in ticks, and its wave is in the blocking wait from
issue on. -/
def Obligations.AtomicsAndWatchesIssue : Prop :=
  ∀ (s : State) (w : Wave),
    let mask := fun (k : BitVec 4) => effMask s w (tagOf 5 0) k.toNat
    let lanes := fun (dc : DCls) (k : BitVec 4) => if dc = .s then (if mask k = 0 then [] else [31]) else maskLanes (mask k)
    let base := fun (a : BitVec 6) => ((rdS s w (tagOf 5 1) a.toNat).toNat : Int)
    let none_ := fun (_ : Nat) => ([] : List Byte)
    let off := fun (ac : ACls) (a : BitVec 6) (d : Int) (i : Nat) => (match ac with
          | .perA => (((rdV s w (tagOf 5 1) .A a.toNat).at i).toNat : Int)
          | .perB => (((rdV s w (tagOf 5 1) .B a.toNat).at i).toNat : Int)
          | .unif => base a) + d
    (∀ f : MAtomF, Issues (.matom f) s w → ∃ t, exec (.matom f) s = .next t ∧
      AccessStarts s w t f.seg.toNat (if f.wide then 8 else 4) (lanes f.dc f.k) (off f.ac f.a f.disp.toInt)
        (.atomic f.op) (if f.ret then atomDest w f.dc f.d f.wide else .none) (atomData s w f.dc f.d f.wide 0) none_
        (if f.ret then atomRegs f.dc f.d f.wide 1 else []) f.scope f.ord) ∧
    (∀ f : MCasF, Issues (.mcas f) s w → ∃ t, exec (.mcas f) s = .next t ∧
      AccessStarts s w t f.seg.toNat (if f.wide then 8 else 4) (lanes f.dc f.k) (off f.ac f.a f.disp.toInt)
        .cas (atomDest w f.dc f.d f.wide) (atomData s w f.dc f.d f.wide 1) (atomData s w f.dc f.d f.wide 0)
        (atomRegs f.dc f.d f.wide 1) f.scope f.ord) ∧
    (∀ f : MWatchF, Issues (.mwatch f) s w → ∃ t, exec (.mwatch f) s = .next t ∧
      AccessStarts s w t f.h.seg.toNat (if f.wide then 8 else 4) (lanes .s f.h.k) (fun _ => base f.a + mDisp s f.h.disp)
        .watch (.uni f.d.toNat w.sup (if f.wide then .b64 else .b32)) none_ none_ (sRun f.d 2) f.scope (if f.acq then .acquire else .relaxed) ∧
      (mask f.h.k ≠ 0 → ∃ v x a, waveOf t s.cur.wid = some v ∧ v.st = .waiting ∧ v.wait = some x ∧ x.on = .mwatch s.nextId ∧
        x.here = s.cur.here ∧ x.next = s.cur.next ∧ accOf t s.nextId = some a ∧ a.watch = rdS s w (tagOf 5 8) f.d.toNat ∧
        a.deadline = s.now / 105 + (rdS s w (tagOf 5 9) (f.d.toNat + 1)).toNat % 2 ^ 32) ∧
      (mask f.h.k = 0 → ∃ v, waveOf t s.cur.wid = some v ∧ v.st = w.st))

/-- LOCAL LOADS (R183, R208, R349): MLDL and MLDL.stride take each active lane's bytes from the launch's region of the core's scratchpad at
issue; the destination waits on the scoreboard for them. With no bad check bits in those bytes.
LOCAL STORES (R183, R208, R340, R352): MSTL and MSTL.stride write each active lane's datum into the launch's region at once, the higher
lane prevailing where two overlap, and touch no other byte of the scratchpad, no other core's scratchpad and no byte of memory; no
register changes. -/
def Obligations.LocalAccesses : Prop :=
  (∀ (s : State) (w : Wave), s.eccPad = [] →
    let core := s.cur.wid / 16
    let region := 6144 * (shareOf s core w.lid).unit
    let lanes := fun (k : BitVec 4) => maskLanes (effMask s w (tagOf 5 0) k.toNat)
    let base := fun (a : BitVec 6) => ((rdS s w (tagOf 5 1) a.toNat).toNat : Int)
    let takes (i : Instr) (k : BitVec 4) (wd : Wid) (dc : Cluster) (d : BitVec 6) (off : Nat → Int) : Prop := Issues i s w →
      ∃ t v, exec i s = .next t ∧ waveOf t s.cur.wid = some v ∧ v.seq = w.seq + 1 ∧ t.mem = s.mem ∧ (coreOf t core).pad = (coreOf s core).pad ∧
        (lanes k = [] → t.acc = s.acc) ∧
        (lanes k ≠ [] → (∀ r ∈ widRun dc d wd, isBusy v r = true) ∧ ∃ a, accOf t s.nextId = some a ∧ a.loc = true ∧ a.kind = .load ∧
          a.dest = .lanes dc d.toNat wd ∧ a.pieces.map (·.lane) = lanes k ∧
          ∀ p ∈ a.pieces, p.done = true ∧ p.val = (List.range (widBytes wd)).map fun n => getByte (coreOf s core).pad (region + (off p.lane).toNat + n))
    (∀ f : MLoc, takes (.mldl f) f.k f.wid f.dc f.d (fun i => (match f.ac with
        | .perA => (((rdV s w (tagOf 5 1) .A f.a.toNat).at i).toNat : Int)
        | .perB => (((rdV s w (tagOf 5 1) .B f.a.toNat).at i).toNat : Int)
        | .unif => base f.a) + mDisp s f.disp)) ∧
    (∀ f : MLocStr, takes (.mldlStride f) f.k f.wid f.dc f.d
      (fun i => base f.a + mDisp s f.disp + i * (rdS s w (tagOf 5 2) (f.a.toNat + 1)).toInt))) ∧
  (∀ (s : State) (w : Wave),
    let core := s.cur.wid / 16
    let region := 6144 * (shareOf s core w.lid).unit
    let lanes := fun (k : BitVec 4) => maskLanes (effMask s w (tagOf 5 0) k.toNat)
    let base := fun (a : BitVec 6) => ((rdS s w (tagOf 5 1) a.toNat).toNat : Int)
    let puts (i : Instr) (k : BitVec 4) (wd : Wid) (dc : Cluster) (d : BitVec 6) (off : Nat → Int) : Prop := Issues i s w →
      let at_ := fun n => region + (off n).toNat
      let covers := fun n x => at_ n ≤ x ∧ x < at_ n + widBytes wd
      ∃ t, exec i s = .next t ∧ waveOf t s.cur.wid = some { w with seq := w.seq + 1 } ∧ t.mem = s.mem ∧ t.acc = s.acc ∧
        (∀ c, c ≠ core → coreOf t c = coreOf s c) ∧
        (∀ x, (∀ n ∈ lanes k, ¬ covers n x) → getByte (coreOf t core).pad x = getByte (coreOf s core).pad x) ∧
        (∀ x n, n ∈ lanes k → covers n x → (∀ m ∈ lanes k, n < m → ¬ covers m x) →
          getByte (coreOf t core).pad x = (vecData s w dc d.toNat wd n).getD (x - at_ n) 0)
    (∀ f : MLoc, puts (.mstl f) f.k f.wid f.dc f.d (fun i => (match f.ac with
        | .perA => (((rdV s w (tagOf 5 1) .A f.a.toNat).at i).toNat : Int)
        | .perB => (((rdV s w (tagOf 5 1) .B f.a.toNat).at i).toNat : Int)
        | .unif => base f.a) + mDisp s f.disp)) ∧
    (∀ f : MLocStr, puts (.mstlStride f) f.k f.wid f.dc f.d
      (fun i => base f.a + mDisp s f.disp + i * (rdS s w (tagOf 5 2) (f.a.toNat + 1)).toInt)))

/-- HINTS (R347, R350) complete wherever they issue, whatever their masks and segments are. MPREF counts the distinct lines of its lanes
whose checks pass in `pfissued`; MFLUSH sends the dirty lines that it names to their homes, and its `.inv` and `.wbinv` forms drop
the lines from the core's L1, but for one whose error has still to reach the home (R206). A store of the L1 that has still to be translated
takes the place that the tables gave when it was made (R189): shown for a single one. Where every store of the L1 has its place already, as for
MPREF, none takes a sequence number, changes a register, a byte of memory or of a scratchpad, what any core may read (R210), or starts or ends
an access. -/
def Obligations.CacheHintsChangeNoValue : Prop :=
  ∀ (s : State) (w : Wave),
    let core := s.cur.wid / 16
    let quiet (t : State) : Prop := t.waves = s.waves ∧ t.mem = s.mem ∧ t.wiped = s.wiped ∧ t.hostMem = s.hostMem ∧ t.hist = s.hist ∧
      t.commits = s.commits ∧ (∀ id, (accOf t id).map (fun a => { a with sent := false }) = (accOf s id).map fun a => { a with sent := false }) ∧
      ∀ c, (coreOf t c).pad = (coreOf s c).pad ∧ (coreOf t c).floor = (coreOf s c).floor ∧ (coreOf t c).raised = (coreOf s c).raised ∧
        (coreOf t c).lowered = (coreOf s c).lowered
    (∀ f : MPrefF, Issues (.mpref f) s w → ∃ t, exec (.mpref f) s = .next t ∧ quiet t ∧ t.acc = s.acc ∧
      (shareOf t core w.lid).pfissued = (shareOf s core w.lid).pfissued +
        BitVec.ofNat 32 (distinct ((prefVas f s s.cur.wid w).map (· / 128))).length) ∧
    (∀ f : MFlushF, Issues (.mflush f) s w → ∃ t, exec (.mflush f) s = .next t ∧ t.hostMem = s.hostMem ∧
      (∀ c, (coreOf t c).pad = (coreOf s c).pad) ∧
      ((∀ e ∈ s.acc, inL1 core e.2 = true → ∀ p ∈ e.2.pieces, unlooked p = false) → quiet t) ∧
      (∀ id a p loc, s.acc = [(id, a)] → a.pieces = [p] → inL1 core a = true → a.asid = asidOf s w → unlooked p = true → 0 < p.size →
        p.va / 128 ∈ flushLines f s s.cur.wid w → backLoc s a p.va = some loc → ∃ b, accOf t id = some b ∧ b.pieces = [{ p with pa := some loc }]) ∧
      (∀ id a p, accOf s id = some a → inL1 core a = true → a.asid = asidOf s w → p ∈ a.pieces → p.done = false → 0 < p.size →
        p.va / 128 ∈ flushLines f s s.cur.wid w → ∃ b, accOf t id = some b ∧ b.sent = true) ∧
      (f.op ≠ .wb → ∀ x ∈ (coreOf t core).l1, x.asid = asidOf s w → x.line ∈ flushLines f s s.cur.wid w → x.bad ≠ []))

/-- A local access outside its launch's region, or a misaligned access, and a global access that fails SegCheck or alignment, end the launch
with codes 0x06 and 0x14 and take no effect (R71, R181, R183): shown for the loads and stores. -/
def Obligations.SegmentAndAlignmentTraps : Prop :=
  ∀ (i : Instr) (s : State) (w : Wave) (r : MReq), Issuing s w → s.cur.go = false → scoreHeld i w = false → allotBad i w = false →
    memReq i s w = some r →
    let g := segOf s s.cur.wid w r.seg
    let inside := fun (n : Nat) => 0 ≤ offsetOf r.addr n ∧
      offsetOf r.addr n + r.size ≤ (if r.loc then 6144 * (shareOf s (s.cur.wid / 16) w.lid).units else g.limit : Nat)
    let granted := r.loc = true ∨ (segValid g = true ∧ (r.rd = true → segRd g = true) ∧ (r.wr = true → segW g = true))
    let aligned := fun (n : Nat) => ((if r.loc then 0 else (g.base : Int)) + offsetOf r.addr n) % r.size = 0
    ((∃ n ∈ r.lanes, ¬ inside n ∨ ¬ granted) → exec i s = .next (bump (killWave s s.cur.wid w 0x06 s.cur.here 0))) ∧
    ((∀ n ∈ r.lanes, inside n ∧ granted) → (∃ n ∈ r.lanes, ¬ aligned n) →
      exec i s = .next (bump (killWave s s.cur.wid w 0x14 s.cur.here 0)))

/-! ### Accesses in flight -/

/-- LOAD_RETURN (R70, R207, R210, R213, R339, R343, R344): lanes that have returned write their destination and nothing else: a lane the
words of its bytes in as many registers as the width takes, a byte or half zero-extended, a uniform access its s register (an h register in the
handler, R269) zero-extended; of an access whose lanes are all performed, a local load, MATOM or MCAS, one or more lanes in order. When none
is left the access is over and its marks go. Memory is unchanged, but for the area of a wave that stands halted (R281). Of a load of one
lane that is performed as it returns, its place known and nothing ahead of it: a strong one, and a plain one that is performed at the home (R191,
R298), take the home's bytes as they stand; any other plain load, with no store of its own core to see, the bytes of one moment not before its
core's floor. Where software has made the location reachable through two addresses without ALIAS on both (R190), it takes bytes that memory
holds or that some store left (log 44). -/
def Obligations.LoadReturnWritesItsLane : Prop :=
  ∀ (id : Nat) (s : State) (a : Acc) (w : Wave), Tab.find s.invpg id = none → accOf s id = some a → waveOf s a.wid = some w →
    let words (wd : Wid) : Nat := match wd with | .b64 => 2 | .b128 => 4 | _ => 1
    let lands (t : State) (ps : List Piece) : Prop := (w.st ≠ .halted → t.mem = s.mem) ∧ ∃ v, waveOf t a.wid = some v ∧ v.k = w.k ∧ v.fel = w.fel ∧
      (accOf t id = none → ∀ b ∈ v.busy, b.by_ ≠ id) ∧
      (∀ cl d wd, a.dest = .lanes cl d wd → v.s = w.s ∧ v.h = w.h ∧
        (∀ p ∈ ps, ∀ n, n < words wd → (holdV v cl (d + n)).val.at p.lane = BitVec.ofNat 32 (leNat ((p.val.drop (4 * n)).take 4)) ∧
          (holdV v cl (d + n)).und.getLsbD p.lane = false) ∧
        (∀ c n m, m < 32 → (c ≠ cl ∨ n < d ∨ d + words wd ≤ n ∨ ∀ p ∈ ps, p.lane ≠ m) →
          (holdV v c n).val.at m = (holdV w c n).val.at m ∧ (holdV v c n).und.getLsbD m = (holdV w c n).und.getLsbD m)) ∧
      (∀ d sup wd p, a.dest = .uni d sup wd → ps = [p] → v.a = w.a ∧ v.b = w.b ∧
        let r : SReg := { val := BitVec.ofNat 64 (leNat p.val), und := false }
        (sup = true ∧ 56 ≤ d → v.s = w.s ∧ Tab.find v.h (d - 56) = some r ∧ ∀ n, n ≠ d - 56 → Tab.find v.h n = Tab.find w.h n) ∧
        (sup = false ∨ d < 56 → v.h = w.h ∧ Tab.find v.s d = some r ∧ ∀ n, n ≠ d → Tab.find v.s n = Tab.find w.s n)) ∧
      (a.dest = .none → v.s = w.s ∧ v.h = w.h ∧ v.a = w.a ∧ v.b = w.b)
    (∀ (p : Piece) (loc : Nat), a.kind = .load → a.pieces = [p] → p.lane < 32 → p.pa = some loc → loadReady s id a p = true →
      eccLoad s id a p.va loc p.size = false →
      ∃ t val, exec (.loadReturn id) s = .next t ∧ accOf t id = none ∧ val.length = p.size ∧ lands t [{ p with val := val, done := true }] ∧
        let two := brokenAlias s (accVia a p.va loc) loc p.size
        let any_ : Prop := ∀ i, i < p.size → val.getD i 0 = devByte s (loc + i) ∨ ∃ c ∈ s.hist, c.loc = loc + i ∧ val.getD i 0 = c.new
        (a.scope.isPlain = false → (two = false → val = devBytes s loc p.size) ∧ (two = true → any_)) ∧
        (a.scope.isPlain = true → (∀ e ∈ s.acc, e.1 < id → e.2.core = a.core → isStore e.2.kind = false) →
          (two = false → atHome s a loc = true → val = devBytes s loc p.size) ∧
          (two = false → atHome s a loc = false →
            ∃ c, val = bytesAt s loc p.size c ∧ (c = s.commits ∨ floorMax (coreOf s a.core) loc p.size ≤ c)) ∧
          (two = true → any_))) ∧
    ((a.kind = .load ∨ a.kind = .cas ∨ ∃ op, a.kind = .atomic op) → a.pieces ≠ [] → (∀ p ∈ a.pieces, p.done = true ∧ p.fault = none ∧ p.lane < 32) →
      (a.pieces.map (·.lane)).Nodup → ∃ t m, exec (.loadReturn id) s = .next t ∧ 0 < m ∧ m ≤ a.pieces.length ∧ lands t (a.pieces.take m) ∧
        accOf t id = if m = a.pieces.length then none else some { a with pieces := a.pieces.drop m })

/-- STORE_COMMIT of a store (R207, R209, R211, R213): one of its pieces that nothing holds back takes its bytes, and no others, at its place, the
coherence order grows, no register changes, and an access with nothing left is gone. Where software has made the location reachable through
two addresses without ALIAS on both (R190), each byte is its new value or one that an earlier store left (log 44).
STORE_COMMIT of a tile store (R152, R223, R224): read, placed and with nothing ahead of it, all its pieces commit as one event, a later piece over
an earlier one, and no other byte changes; shown where software keeps to R190. -/
def Obligations.StoreCommitWritesItsBytes : Prop :=
  ∀ (id : Nat) (s : State) (a : Acc), accOf s id = some a → (∀ p ∈ a.pieces, p.data.length = p.size) →
    (a.kind = .store → readyAt s id a ≠ [] → ∃ (t : State) (i : Nat) (p : Piece) (loc : Nat), exec (.storeCommit id) s = .next t ∧ a.pieces[i]? = some p ∧ p.pa = some loc ∧
      commitReady s id a p = true ∧ s.commits < t.commits ∧ t.waves = s.waves ∧
      (let b := { a with pieces := listSet a.pieces i { p with done := true } }
       accOf t id = if b.pieces.all (·.done) then none else some b) ∧
      (brokenAlias s (accVia a p.va loc) loc p.size = false → ∀ n, n < p.size → some (devByte t (loc + n)) = p.data[n]?) ∧
      (∀ n, n < p.size → some (devByte t (loc + n)) = p.data[n]? ∨ ∃ c ∈ s.hist, c.loc = loc + n ∧ devByte t (loc + n) = c.new) ∧
      (∀ x, x < loc ∨ loc + p.size ≤ x → ByteKept s t x)) ∧
    (a.kind = .tstore → tileReady s id a = true →
      (∀ p ∈ a.pieces, ∀ loc, p.pa = some loc → brokenAlias s (accVia a p.va loc) loc p.size = false) →
      let covers (p : Piece) (x : Nat) : Prop := ∃ loc, p.pa = some loc ∧ loc ≤ x ∧ x < loc + p.size
      ∃ t, exec (.storeCommit id) s = .next t ∧ accOf t id = none ∧ t.commits = s.commits + 1 ∧ t.waves = s.waves ∧
        (∀ c ∈ t.hist, c ∈ s.hist ∨ c.seq = s.commits + 1) ∧
        (∀ (i : Nat) (p : Piece) (loc x : Nat), a.pieces[i]? = some p → p.pa = some loc → loc ≤ x → x < loc + p.size →
          (∀ (j : Nat) (q : Piece), i < j → a.pieces[j]? = some q → ¬ covers q x) → some (devByte t x) = p.data[x - loc]?) ∧
        (∀ x, (∀ p ∈ a.pieces, ¬ covers p x) → ByteKept s t x))

/-- ATOMICS AT THEIR HOME (R340, R343, R344): the run of a one-lane atomic with nothing ahead of it writes the operation's result of the old value
and its datum, MCAS writes its new value only where the old value equals its comparand, and the old value is what the access holds
to return; no other byte changes. The old value is the home's, and what stands there afterwards is said, for a location that software has not made
reachable through two addresses without ALIAS on both (R190, log 44). -/
def Obligations.AtomicRunIsReadModifyWrite : Prop :=
  ∀ (id : Nat) (s : State) (a : Acc) (p : Piece) (loc : Nat),
    accOf s id = some a → a.pieces = [p] → p.pa = some loc → p.fault = none → p.done = false → (p.size = 4 ∨ p.size = 8) →
    p.data.length = p.size → p.cmp.length = p.size → atomReady s id a = true → eccHit s loc p.size = false →
    (∀ e ∈ s.acc, e.2.wid = a.wid → e.2.kind ≠ .store) →
    let one : Prop := brokenAlias s (accVia a p.va loc) loc p.size = false
    let datum := leNat p.data
    let sgn := fun (v : Nat) => toInt true (8 * p.size) v
    ∃ old, old < 2 ^ (8 * p.size) ∧ (one → old = leNat (devBytes s loc p.size)) ∧
    let writes (v : Nat) : Prop := ∃ t b, exec (.storeCommit id) s = .next t ∧ (one → leNat (devBytes t loc p.size) = v % 2 ^ (8 * p.size)) ∧
      (∀ x, x < loc ∨ loc + p.size ≤ x → ByteKept s t x) ∧ accOf t id = some b ∧ b.pieces = [{ p with val := leBytes p.size old, done := true }]
    let keeps : Prop := ∃ t b, exec (.storeCommit id) s = .next t ∧ (∀ x, ByteKept s t x) ∧ accOf t id = some b ∧
      b.pieces = [{ p with val := leBytes p.size old, done := true }]
    (a.kind = .atomic .swap → writes datum) ∧ (a.kind = .atomic .add → writes (old + datum)) ∧
    (a.kind = .atomic .band → writes (old &&& datum)) ∧ (a.kind = .atomic .bor → writes (old ||| datum)) ∧
    (a.kind = .atomic .bxor → writes (old ^^^ datum)) ∧
    (a.kind = .atomic .smin → writes (if sgn old ≤ sgn datum then old else datum)) ∧
    (a.kind = .atomic .smax → writes (if sgn datum ≤ sgn old then old else datum)) ∧
    (a.kind = .atomic .umin → writes (min old datum)) ∧ (a.kind = .atomic .umax → writes (max old datum)) ∧
    (a.kind = .atomic .fadd → p.size = 4 → writes (fAdd f32F .rne 0 (f32F.decode old) (f32F.decode datum)).bits) ∧
    (a.kind = .cas → (old = leNat p.cmp → writes datum) ∧ (old ≠ leNat p.cmp → keeps))

/-- TRANSLATION OF ACCESSES (R186, R188, R193, R195 to R197, R199, R201): a PAGE_WALK for a load-class access, or a STORE_TRANSLATE for a store,
wherever some piece that nothing holds back has still to be translated, and a store's home has
entries for its lines, takes place. With one piece: where the walk finds the page and its rights the piece has its place; where it fails,
a record with the cause of R200, the bundle's address and the lane is queued at the wave's tail (an earlier queue not being full, and
none of its records being the access's), the records before it stay, and a store is held. The same holds of a tile access, whose record
names every lane (log 47); the slot of a tile load that fails is empty with FLT 1. Neither changes a register of the wave. A PAGE_WALK for a
copy gives its 4 KiB region a place or a cause. -/
def Obligations.TranslationPlacesOrRecords : Prop :=
  ∀ (id : Nat) (s : State),
    (∀ (a : Acc) (va : Nat), accOf s id = some a → isStore a.kind = false →
      (∃ p ∈ a.pieces, unlooked p = true ∧ p.va / 4096 = va / 4096 ∧ lineHeld s id a false p = false) →
      ∃ t, exec (.pageWalk id va) s = .next t) ∧
    (∀ a : Acc, accOf s id = some a → isStore a.kind = true → lateRoom s a = true →
      (∃ p ∈ a.pieces, unlooked p = true ∧ lineHeld s id a true p = false) → ∃ t, exec (.storeTranslate id) s = .next t) ∧
    (∀ (a : Acc) (p : Piece) (w : Wave) (i : Instr),
      accOf s id = some a → a.pieces = [p] → unlooked p = true → lineHeld s id a (isStore a.kind) p = false → waveOf s a.wid = some w →
      ((isStore a.kind = false ∧ i = .pageWalk id p.va) ∨ (isStore a.kind = true ∧ i = .storeTranslate id ∧ lateRoom s a = true)) →
      w.count < 64 → (∀ e ∈ w.recs, e.2.acc ≠ id) →
      let l := lookAt s a.core a.far a.asid a.cls (accRd a.kind) (accWr a.kind) p.va
      let same (v u : Wave) : Prop := v = { u with acqUpto := v.acqUpto, supAcq := v.supAcq, sync := v.sync, supSync := v.supSync }
      (∀ loc, l.1 = .at_ loc → ∃ t b v, exec i s = .next t ∧ waveOf t a.wid = some v ∧ same v w ∧ accOf t id = some b ∧
        b.pieces = [{ p with pa := some loc }] ∧ b.held = false ∧ b.resolved = true ∧ t.mem = s.mem) ∧
      (∀ c, l.1 = .fault c → ∃ t b v r, exec i s = .next t ∧ accOf t id = some b ∧ b.pieces = [{ p with fault := some c }] ∧
        b.held = isStore a.kind ∧ waveOf t a.wid = some v ∧ v.count = w.count + 1 ∧ v.head = w.head ∧
        Tab.find v.recs ((w.head + w.count) % 64) = some r ∧ r.cause = c ∧ r.acc = id ∧ r.store = isStore a.kind ∧
        r.bits.toNat % 2 ^ 32 = a.addr.toNat ∧ (a.slot < 8 → p.lane < 32 → r.bits.toNat / 2 ^ 35 % 32 = p.lane) ∧
        (∀ n, n < 32 → (r.lanes.getLsbD n = true ↔ a.slot = 6 ∨ n = p.lane)) ∧
        (∀ n, n ≠ (w.head + w.count) % 64 → Tab.find v.recs n = Tab.find w.recs n) ∧
        (a.kind = .tload → ∀ o, ((∃ f kc, a.dest = .slot o f kc) ∨ a.dest = .tldo o) →
          (entryOf t a.core o).st = .empty ∧ (entryOf t a.core o).flt = true) ∧
        same v { w with recs := v.recs, count := v.count })) ∧
    (∀ (c : Copy) (va : Nat), accOf s id = none → copyOf s id = some c → c.lin = none → c.faulted = false → va / 4096 ∈ copyRegions c →
      Tab.find c.pages (va / 4096) = none → Tab.find c.fails (va / 4096) = none →
      let l := lookAt s c.core c.far c.asid c.cls (!isOut c.kind) (isOut c.kind) (va / 4096 * 4096)
      (∀ loc, l.1 = .at_ loc → ∃ t d, exec (.pageWalk id va) s = .next t ∧ copyOf t id = some d ∧ Tab.find d.pages (va / 4096) = some loc ∧
        t.waves = s.waves ∧ t.mem = s.mem) ∧
      (∀ k, l.1 = .fault k → ∃ t d, exec (.pageWalk id va) s = .next t ∧ copyOf t id = some d ∧ Tab.find d.fails (va / 4096) = some k ∧
        t.waves = s.waves ∧ t.mem = s.mem) ∧
      (l.1 = .ecc → exec (.pageWalk id va) s = .next (bump (dataError l.2 c.wid c.addr))))

/-- PUBLICATIONS AND RELEASES (R37, R211, R217): the oldest publication of a core completes when no store of it is left; a release whose
counted set has committed is applied at its target: an arrival is reported, a gate rises by its amount and saturates (with a raise of
the Steward at the same tick, to the larger of that sum and GCOUNT, R254, log 58), a fence or EXIT leaves nothing more, and the release is
gone; before that it is not applied. An early eviction completes for every store that L1 holds, and sends it to its home: shown where
every store is translated, so that nothing else happens; a store that L1 does not hold is not meant. -/
def Obligations.PublicationsAndReleasesComplete : Prop :=
  ∀ (s : State),
    (∀ core : Nat, let c := coreOf s core
      (c.pubDone < c.epoch → (∀ e ∈ s.acc, e.2.core = core → e.2.epoch ≠ some (c.pubDone + 1)) → ∃ t,
        exec (.publicationComplete core) s = .next t ∧ (coreOf t core).pubDone = c.pubDone + 1 ∧ t.mem = s.mem ∧ t.waves = s.waves) ∧
      (c.epoch ≤ c.pubDone ∨ (∃ e ∈ s.acc, e.2.core = core ∧ e.2.epoch = some (c.pubDone + 1)) →
        exec (.publicationComplete core) s = .refused .notEnabled)) ∧
    (∀ (id : Nat) (r : Rel), Tab.find s.rels id = some r →
      (releaseReady s r = false → exec (.releaseApply id) s = .refused .notEnabled) ∧
      (releaseReady s r = true → ∃ t, exec (.releaseApply id) s = .next t ∧ Tab.find t.rels id = none ∧
        (r.target = .fence → t.waves = s.waves ∧ t.mem = s.mem ∧ t.queues = s.queues ∧ t.convoys = s.convoys) ∧
        (∀ g n, r.target = .gate g n → t.waves = s.waves ∧ t.mem = s.mem ∧
          let raise := Tab.findD (queueOf s (g / 64)).raised (g % 64) (s.now / 105 + 1, 0, 0)
          let now := (gateOf (queueOf t (g / 64)) (g % 64)).toNat
          (raise.1 ≠ s.now / 105 → now = min ((gateOf (queueOf s (g / 64)) (g % 64)).toNat + n) (2 ^ 32 - 1)) ∧
          (raise.1 = s.now / 105 → now = max (min (raise.2.1 + n) (2 ^ 32 - 1)) raise.2.2 % 2 ^ 32)) ∧
        (∀ e m c, r.target = .arrival e m → Tab.find s.convoys e = some c → ∃ d, Tab.find t.convoys e = some d ∧
          d.phase = c.phase ∧ m ∈ d.reported ∧ m ∉ d.arrived))) ∧
    (∀ (id : Nat) (a : Acc), accOf s id = some a → isStore a.kind = true →
      (inL1 a.core a = false → exec (.l1DirtyEviction id) s = .refused .notEnabled) ∧
      (inL1 a.core a = true → ∃ t, exec (.l1DirtyEviction id) s = .next t ∧
        ((∃ p ∈ a.pieces, p.done = false ∧ 0 < p.size) → (∀ e ∈ s.acc, ∀ p ∈ e.2.pieces, unlooked p = false) →
          accOf t id = some { a with sent := true } ∧ t.waves = s.waves ∧ t.mem = s.mem ∧ t.commits = s.commits)))

/-- WATCHES (R354): a test of a watched value that differs from the expected one ends the wait, with the value in `s[D]` and 0 in `s[D+1]`; an
equal value leaves the wave waiting, the next test of a pageable address being translated again (R187), unless the timeout has passed,
when the last test ends the wait with 1 in `s[D+1]`. The wave returns to the state in which the wait began. The value is the home's as it
stands, at a location that software has not made reachable through two addresses without ALIAS on both (R190, log 44). -/
def Obligations.WatchEndsOnChangeOrTimeout : Prop :=
  ∀ (wid : Nat) (s : State) (w : Wave) (x : Waiting) (id : Nat) (a : Acc) (p : Piece) (loc d : Nat) (wd : Wid),
    watchOf s wid = some (id, a, p) → accOf s id = some a → waveOf s wid = some w → w.wait = some x → x.on = .mwatch id → x.also = none → a.wid = wid → a.kind = .watch → a.dest = .uni d false wd → p.pa = some loc →
    loadReady s id a p = true → eccHit s loc p.size = false → a.ord = .relaxed →
    let e := a.watch.toNat % 2 ^ (8 * p.size)
    ∃ v, (brokenAlias s (accVia a p.va loc) loc p.size = false → v = leNat (devBytes s loc p.size)) ∧
    let ends (t : State) (flag : DWord) : Prop := ∃ u, waveOf t wid = some u ∧ u.st = w.back ∧ u.wait = none ∧ accOf t id = none ∧
      holdS { u with sup := false } (d + 1) = { val := flag, und := false } ∧
      holdS { u with sup := false } d = { val := BitVec.ofNat 64 v, und := false } ∧ t.mem = s.mem
    (v ≠ e → ∃ t, exec (.mwatchWake wid) s = .next t ∧ ends t 0) ∧
    (v = e → ∃ t, exec (.mwatchWake wid) s = .next t ∧ waveOf t wid = some w ∧ accOf t id = some
      (if a.pageable then { a with resolved := false, pieces := a.pieces.map fun q => { q with pa := none } } else a)) ∧
    (v = e → a.deadline ≤ s.now / 105 → ∃ t, exec (.mwatchTimeout wid) s = .next t ∧ ends t 1) ∧
    (s.now / 105 < a.deadline → exec (.mwatchTimeout wid) s = .refused .notEnabled)

/-! ### Copies and streams -/

/-- COPIES ISSUE (R218, R228, R230, R232, R233): with a live effective mask and a length that is not 0, MCOPY, MGATHER and MCAST take the next
number of their milestone context and the next sequence number, mark their status register, and put one operation in flight, whose
bytes move later; no byte of memory or scratchpad changes at issue. With an empty mask, and MCOPY with length 0, the operation is complete at issue:
its number has completed and its status (DONE, BYTES 0) is on its way. -/
def Obligations.CopiesIssue : Prop :=
  ∀ (s : State) (w : Wave) (q : Party), partyOf s w.lid w.party = some q →
    let reg := fun (a : BitVec 6) (n : Nat) => (rdS s w (tagOf 5 (1 + n)) (a.toNat + n)).toNat
    let live := fun (k : BitVec 4) => effMask s w (tagOf 5 0) k.toNat ≠ 0
    let calm (t : State) : Prop := t.mem = s.mem ∧ (∀ c, (coreOf t c).pad = (coreOf s c).pad) ∧ t.acc = s.acc
    let begins (t : State) (d : BitVec 6) (ctx : Nat) (ok : Copy → Prop) : Prop := calm t ∧ ∃ v c u, waveOf t s.cur.wid = some v ∧
      v.seq = w.seq + 1 ∧ isBusy v (nameS w.sup d.toNat) = true ∧ copyOf t s.nextId = some c ∧ c.wid = s.cur.wid ∧ c.addr = s.cur.here ∧
      c.ctx = ctx ∧ c.num = (msOf q ctx).taken + 1 ∧ c.dreg = nameS w.sup d.toNat ∧ c.faulted = false ∧ ok c ∧
      partyOf t w.lid w.party = some u ∧ (msOf u ctx).taken = (msOf q ctx).taken + 1 ∧ (msOf u ctx).count = (msOf q ctx).count
    let ends (t : State) (d : BitVec 6) (ctx : Nat) : Prop := calm t ∧ t.copies = s.copies ∧ ∃ v u, waveOf t s.cur.wid = some v ∧
      v = { pushWin w (sWrite w.sup d.toNat (BitVec.ofNat 64 (2 ^ 63))) 1 with seq := w.seq + 1 } ∧
      partyOf t w.lid w.party = some u ∧ (msOf u ctx).taken = (msOf q ctx).taken + 1 ∧ (msOf q ctx).taken + 1 ∈ (msOf u ctx).done
    (∀ f : MCopyF, Issues (.mcopy f) s w → ∃ t, exec (.mcopy f) s = .next t ∧
      (live f.h.k → reg f.a 2 ≠ 0 → begins t f.d f.ctx.toNat fun c =>
        c.len = reg f.a 2 ∧ c.todo = [(0, reg f.a 2)] ∧
        c.runs = [(((segOf s s.cur.wid w f.h.seg.toNat).base + (reg f.a 0 + mDisp s f.h.disp) : Int).toNat, reg f.a 2)] ∧
        c.kind = (if f.slot then (if f.out then .outSlot else .inSlot) else if f.out then .outLocal else .inLocal) ∧
        (f.slot = false → c.loff = reg f.a 1)) ∧
      (live f.h.k → reg f.a 2 = 0 → ends t f.d f.ctx.toNat) ∧
      (¬ live f.h.k → ends t f.d f.ctx.toNat)) ∧
    (∀ f : MGatherF, Issues (.mgather f) s w → ∃ t, exec (.mgather f) s = .next t ∧
      (live f.h.k → begins t f.d f.ctx.toNat fun c => c.kind = .gather ∧ c.loff = reg f.a 1 ∧ c.rowlen = reg f.a 2 % 2 ^ 32 ∧
        c.count = reg f.a 2 / 2 ^ 32 % 65536 ∧ c.pitch = reg f.a 3 / 2 ^ 32 ∧ c.list = reg f.a 3 % 2 ^ 32 ∧
        c.len = c.rowlen * c.count ∧ c.row0 = reg f.a 0 + mDisp s f.h.disp) ∧
      (¬ live f.h.k → ends t f.d f.ctx.toNat)) ∧
    (∀ f : MCastF, Issues (.mcast f) s w → ∃ t, exec (.mcast f) s = .next t ∧
      (live f.h.k → begins t f.d f.ctx.toNat fun c => c.kind = .cast ∧ c.len = reg f.a 2 ∧ c.loff = reg f.a 1 ∧ c.tick = reg f.a 3 ∧
        c.targets.map (·.pos) = (List.range 4).filter fun n => f.targets.getLsbD n) ∧
      (¬ live f.h.k → ends t f.d f.ctx.toNat))

/-- A COPY TO ITS END (R146, R218, R228 to R230): COPY_COMPLETE takes place for every unfaulted copy that has a byte to move whose place is
known. In a copy from a segment to the scratchpad, whatever bytes are left, it moves one or more of them: every byte moved equals the byte
of its place in memory (where software keeps to R190, log 44), no other byte of the scratchpad changes, and memory does not. While some are
left the copy goes on with those; when none is left the operation is over: its status register, marked until then, takes DONE
with the whole length, undefined where software has written it meanwhile (R228), and its milestone number has completed. An MCAST that has landed
or been refused at every target is over in the same way (its BYTES: log 63).
MCAST LANDING (R233 to R236): once the bytes are read and the tick has come, a target core whose buffers are free takes every byte at
the region's offset and marks the buffers busy; where a buffer is busy the landing is refused, no byte of the target changes, and the
buffer's owner has a landing conflict due; a core with no wave of the launch has no receiver. -/
def Obligations.InboundCopiesMoveAndComplete : Prop :=
  (∀ (id : Nat) (s : State) (c : Copy), copyOf s id = some c → c.faulted = false → (c.kind = .outSlot → c.drained = true) → movable c ≠ [] →
    ∃ t, exec (.copyComplete id) s = .next t) ∧
  (∀ (id : Nat) (s : State) (c : Copy) (w : Wave) (q : Party), copyOf s id = some c → c.faulted = false → waveOf s c.wid = some w →
    partyOf s c.lid c.party = some q → w.st ≠ .halted →
    let ended (t : State) (status : DWord) : Prop := copyOf t id = none ∧ ∃ v u, waveOf t c.wid = some v ∧
      (∀ i, c.dreg = .s i → Tab.find v.s i = some { val := status, und := w.tainted.contains c.dreg }) ∧
      (∀ i, c.dreg = .h i → Tab.find v.h i = some { val := status, und := w.tainted.contains c.dreg }) ∧
      (∀ b ∈ v.busy, b.by_ ≠ id) ∧ partyOf t c.lid c.party = some u ∧ c.num ∈ (msOf u c.ctx).done
    (∀ base loc : Nat, c.kind = .inLocal → c.lin = some (base, loc) → c.fails = [] → c.runs = [(base, c.len)] → c.targets = [] →
      0 < (numbers c.todo).length → (∀ r ∈ c.todo, 0 < r.2) → (∀ k ∈ numbers c.todo, k < c.len) →
      (∀ k, k < c.len → eccHit s (loc + k) 1 = false) →
      let pad := 6144 * (shareOf s c.core c.lid).unit + c.loff
      let byte := fun (t : State) (k : Nat) => getByte (coreOf t c.core).pad k
      ∃ t left, exec (.copyComplete id) s = .next t ∧ t.mem = s.mem ∧
        (numbers left).length < (numbers c.todo).length ∧ (∀ r ∈ left, 0 < r.2) ∧ (∀ k ∈ numbers left, k ∈ numbers c.todo) ∧
        (∀ x, (∀ k ∈ numbers c.todo, k ∉ numbers left → x ≠ pad + k) → byte t x = byte s x) ∧
        (∀ k ∈ numbers c.todo, k ∉ numbers left → brokenAlias s (copyVia c (base + k) (loc + k)) (loc + k) 1 = false →
          byte t (pad + k) = devByte s (loc + k)) ∧
        (left ≠ [] → copyOf t id = some { c with todo := left } ∧ t.waves = s.waves) ∧
        (left = [] → ended t (BitVec.ofNat 64 (2 ^ 63 + c.len % 2 ^ 40)))) ∧
    (c.kind = .cast → c.todo = [] → (∀ x ∈ c.targets, x.done = true) → ∃ t, exec (.copyComplete id) s = .next t ∧ t.mem = s.mem ∧
      ended t (finalStatus c))) ∧
  (∀ (id : Nat) (pos : BitVec 2) (s : State) (c : Copy) (x : Target),
    copyOf s id = some c → c.kind = .cast → c.todo = [] → c.faulted = false → c.tick ≤ s.now / 105 → c.targets = [x] →
    x.pos = pos.toNat → x.done = false →
    let core := c.core / 4 * 4 + pos.toNat
    let bits := buffers c.loff c.len
    let pad := 6144 * (shareOf s core c.lid).unit + c.loff
    let free_ := (shareOf s core c.lid).landbusy &&& bits = 0
    ∃ t d, exec (.mcastLanding id pos) s = .next t ∧ copyOf t id = some d ∧ t.mem = s.mem ∧
      ((lowestWave s core c.lid).isSome = true → free_ →
        d.targets = [{ x with done := true }] ∧ (shareOf t core c.lid).landbusy = (shareOf s core c.lid).landbusy ||| bits ∧
        (∀ k, k < c.len → getByte (coreOf t core).pad (pad + k) = Tab.findD c.got k 0) ∧
        (∀ k, k < pad ∨ pad + c.len ≤ k → getByte (coreOf t core).pad k = getByte (coreOf s core).pad k)) ∧
      ((lowestWave s core c.lid).isSome = true → ¬ free_ →
        d.targets = [{ x with done := true, refused := true }] ∧ (coreOf t core).pad = (coreOf s core).pad ∧
        ∀ o w, ownerOf s core c.lid (lowBit ((shareOf s core c.lid).landbusy &&& bits)) = some o → waveOf s o = some w →
          ∃ v, waveOf t o = some v ∧ (w.sup = false → v.landDue = true) ∧ (w.sup = true → v.landSup = true)) ∧
      ((lowestWave s core c.lid).isSome = false → d.targets = [{ x with done := true, norecv := true }] ∧ t.waves = s.waves))

/-- STREAMS ISSUE (R238, R239): MSPUSH joins the queue of its endpoint without blocking; MSPOP takes a number and blocks its wave;
MSFREE gives back the oldest slot its party holds, in ring order, and completes at once. Each takes the next number of its context
and the next sequence number; with an empty effective mask each is complete at once.
STREAMS MOVE (R238 to R240): while a ring slot is free, one or more of the bytes that the oldest pending push has left move to the ring's
place, each by itself (R208); while some are left it goes on with those, and with none left the slot is full and the push has its status
with the slot's number. A full slot that a waiting MSPOP asks for is acquired, which ends the wave's wait; then one or more of the bytes left are
copied to the receiver's region at a time, while the wave runs on; with none left the core is refreshed and the pop has its status with the tag and
length of the slot as it was acquired. With the ring full for 100 microseconds
a push is lodged within its function's budget, or else its launch is killed. Stated for sources and slots without bad check bits, and
for a push whose launch is not saved. -/
def Obligations.StreamsIssueAndMove : Prop :=
  (∀ (s : State) (w : Wave) (q : Party), partyOf s w.lid w.party = some q →
    let reg := fun (a : BitVec 6) (n : Nat) => (rdS s w (tagOf 5 (1 + n)) (a.toNat + n)).toNat
    let live := fun (k : BitVec 4) => effMask s w (tagOf 5 0) k.toNat ≠ 0
    let ctx := fun (b : Bool) => if b then 7 else 6
    let taken (t : State) (b : Bool) : Prop := ∃ u, partyOf t w.lid w.party = some u ∧ (msOf u (ctx b)).taken = (msOf q (ctx b)).taken + 1
    (∀ f : MStream, Issues (.mspush f) s w → ∃ t v, exec (.mspush f) s = .next t ∧ t.mem = s.mem ∧ waveOf t s.cur.wid = some v ∧
      v.seq = w.seq + 1 ∧ taken t f.ms7 ∧ v.st = w.st ∧
      (live f.k → ∀ k x, streamOf s w.lid true f.ep.toNat = some (k, x) → isBusy v (nameS w.sup f.d.toNat) = true ∧ ∃ y p,
        Tab.find t.streams k = some y ∧ y.pend = x.pend ++ [p] ∧ p.wid = s.cur.wid ∧ p.src = reg f.a 1 ∧ p.len = reg f.a 2 ∧
        p.tag = reg f.a 0 % 65536 ∧ y.inUse = x.inUse ∧ y.ring = x.ring)) ∧
    (∀ f : MStream, Issues (.mspop f) s w → ∃ t v, exec (.mspop f) s = .next t ∧ t.mem = s.mem ∧ t.streams = s.streams ∧
      waveOf t s.cur.wid = some v ∧ v.seq = w.seq + 1 ∧ taken t f.ms7 ∧ (¬ live f.k → v.st = w.st) ∧
      (live f.k → v.st = .waiting ∧ isBusy v (nameS w.sup f.d.toNat) = true ∧ ∃ x p, v.wait = some x ∧ x.on = .mspop s.nextId ∧
        Tab.find t.pops s.nextId = some p ∧ p.dst = reg f.a 1 ∧ p.len = reg f.a 2 ∧ p.wid = s.cur.wid)) ∧
    (∀ f : MSfreeF, Issues (.msfree f) s w → ∃ t v, exec (.msfree f) s = .next t ∧ t.mem = s.mem ∧ waveOf t s.cur.wid = some v ∧
      v.seq = w.seq + 1 ∧ taken t f.ms7 ∧ v.st = w.st ∧ (¬ live f.k → t.streams = s.streams) ∧
      (live f.k → ∀ k x o rest, streamOf s w.lid false f.ep.toNat = some (k, x) → Tab.findD q.acq f.ep.toNat [] = o :: rest → o = x.old →
        (ringAt x ((x.old + 1) % x.slots)).freed = false → 2 ≤ x.slots → x.old < x.slots →
        ∃ y u, Tab.find t.streams k = some y ∧ y.old = (x.old + 1) % x.slots ∧ y.inUse = x.inUse - 1 ∧ ringAt y o = RSlot.init ∧
          partyOf t w.lid w.party = some u ∧ Tab.findD u.acq f.ep.toNat [] = rest) ∧
      (live f.k → Tab.findD q.acq f.ep.toNat [] = [] → t.streams = s.streams ∧
        v = { pushWin w (sWrite w.sup f.d.toNat (BitVec.ofNat 64 (2 ^ 63 + 2 * 2 ^ 28))) 1 with seq := w.seq + 1 }))) ∧
  (∀ (s : State), (∀ ep x, Tab.find s.streams ep = some x → x.inUse < x.slots → x.lodged ≠ [] ∨ x.pend ≠ [] →
      ∃ t, exec (.streamPushComplete ep) s = .next t) ∧
    (∀ wid x, popReady s wid = some x → ∃ t, exec (.mspopAcquire wid) s = .next t) ∧
    (∀ ep x p rest, Tab.find s.streams ep = some x → x.pend = p :: rest → x.lodged ≠ [] ∨ x.slots ≤ x.inUse ∧ p.since + 120000 ≤ s.now / 105 →
      ∃ t, exec (.overflowLodging ep) s = .next t) ∧
    (s.eccPad = [] →
    (∀ (ep : Nat) (x : Stream) (p : Push) (rest : List Push) (w : Wave) (todo : List (Nat × Nat)), Tab.find s.streams ep = some x →
      x.inUse < x.slots → x.lodged = [] → x.pend = p :: rest → x.todo.getD [(0, p.len)] = todo → 0 < (numbers todo).length →
      (∀ r ∈ todo, 0 < r.2) → (∀ k ∈ numbers todo, k < p.len) → waveOf s p.wid = some w → w.st ≠ .halted → Tab.find s.bodies p.lid = none →
      let loc := x.head + x.wr * x.size
      let moved (left : List (Nat × Nat)) (k : Nat) : Prop := k ∈ numbers todo ∧ k ∉ numbers left
      ∃ t y left, exec (.streamPushComplete ep) s = .next t ∧ Tab.find t.streams ep = some y ∧
        (numbers left).length < (numbers todo).length ∧ (∀ r ∈ left, 0 < r.2) ∧ (∀ k ∈ numbers left, k ∈ numbers todo) ∧
        (∀ k, moved left k → devByte t (loc + k) = p.src0.getD k 0 ∨
          (p.fixed = false ∧ devByte t (loc + k) = getByte (coreOf s p.core).pad (6144 * (shareOf s p.core p.lid).unit + p.src + k))) ∧
        (∀ a, (∀ k, moved left k → a ≠ loc + k) → ByteKept s t a) ∧
        (left ≠ [] → y = { x with todo := some left, moved := s.now / 105 } ∧ t.waves = s.waves) ∧
        (left = [] → y.todo = none ∧ y.pend = rest ∧ y.inUse = x.inUse + 1 ∧ y.wr = (x.wr + 1) % x.slots ∧
          ringAt y x.wr = { RSlot.init with full := true, len := p.len, tag := p.tag } ∧
          ∃ v, waveOf t p.wid = some v ∧ (∀ b ∈ v.busy, b.by_ ≠ p.id) ∧
            let r : SReg := { val := BitVec.ofNat 64 (2 ^ 63 + x.wr * 2 ^ 48 + p.len), und := w.tainted.contains p.dreg }
            (∀ i, p.dreg = .s i → Tab.find v.s i = some r) ∧ ∀ i, p.dreg = .h i → Tab.find v.h i = some r)) ∧
    (∀ (wid id : Nat) (p : Pop) (x : Stream) (w : Wave), popReady s wid = some (id, p, x, w) → w.st ≠ .halted →
      (p.slot = none → ∃ t y v, exec (.mspopAcquire wid) s = .next t ∧ t.mem = s.mem ∧ t.cores = s.cores ∧ Tab.find t.streams p.stream = some y ∧
        y.acq = (x.acq + 1) % x.slots ∧ ringAt y x.acq = { ringAt x x.acq with acquired := true } ∧
        Tab.find t.pops id = some { p with slot := some x.acq, took := ringAt x x.acq, todo := if p.len = 0 then [] else [(0, p.len)] } ∧
        (∀ q, partyOf s p.lid p.party = some q → ∃ u, partyOf t p.lid p.party = some u ∧
          Tab.findD u.acq x.rEp [] = Tab.findD q.acq x.rEp [] ++ [x.acq]) ∧
        waveOf t wid = some v ∧ v.busy = w.busy ∧ (∀ z, w.wait = some z → z.on = .mspop id → z.also = none → v.st = w.back ∧ v.wait = none)) ∧
      (∀ k, p.slot = some k →
        let loc := x.head + k * x.size
        let pad := 6144 * (shareOf s p.core p.lid).unit + p.dst
        let byte := fun (t : State) (a : Nat) => getByte (coreOf t p.core).pad a
        let moved (left : List (Nat × Nat)) (j : Nat) : Prop := j ∈ numbers p.todo ∧ j ∉ numbers left
        (p.todo ≠ [] → (∀ r ∈ p.todo, 0 < r.2) → eccHit s loc p.len = false →
          ∃ t left, exec (.mspopAcquire wid) s = .next t ∧ t.streams = s.streams ∧ t.mem = s.mem ∧ t.waves = s.waves ∧
            Tab.find t.pops id = some { p with todo := left } ∧ (numbers left).length < (numbers p.todo).length ∧ (∀ r ∈ left, 0 < r.2) ∧
            (∀ j ∈ numbers left, j ∈ numbers p.todo) ∧ (∀ j, moved left j → byte t (pad + j) = devByte s (loc + j)) ∧
            (∀ a, (∀ j, moved left j → a ≠ pad + j) → byte t a = byte s a)) ∧
        (p.todo = [] → ∃ t v, exec (.mspopAcquire wid) s = .next t ∧ t.streams = s.streams ∧ t.mem = s.mem ∧
          (coreOf t p.core).pad = (coreOf s p.core).pad ∧ Tab.find t.pops id = none ∧ (coreOf t p.core).floor = s.commits ∧
          waveOf t wid = some v ∧ v.st = w.st ∧ v.wait = w.wait ∧ (∀ b ∈ v.busy, b.by_ ≠ id) ∧
            let r := p.took
            let u : SReg := { val := BitVec.ofNat 64 (2 ^ 63 + (if r.lodged then 2 ^ 62 else 0) + k * 2 ^ 48 + r.tag * 2 ^ 32 + r.len),
                              und := w.tainted.contains p.dreg }
            (∀ i, p.dreg = .s i → Tab.find v.s i = some u) ∧ ∀ i, p.dreg = .h i → Tab.find v.h i = some u))) ∧
    (∀ (ep : Nat) (x : Stream) (p : Push) (rest : List Push) (l : Launch), Tab.find s.streams ep = some x → x.lodged = [] → x.pend = p :: rest →
      launchOf s x.sLid = some l → x.slots ≤ x.inUse → p.since + 120000 ≤ s.now / 105 →
      let f := funcOf s l.vf
      (f.lodgeUse + x.size / 4096 ≤ f.lodgeBud → ∃ t y, exec (.overflowLodging ep) s = .next t ∧ Tab.find t.streams ep = some y ∧
        y.pend = rest ∧ y.lodged.length = 1 ∧ y.ring = x.ring ∧ (funcOf t l.vf).lodgeUse = f.lodgeUse + x.size / 4096) ∧
      (f.lodgeBud < f.lodgeUse + x.size / 4096 → exec (.overflowLodging ep) s =
        .next (bump (killLaunch s p.lid 0x0F (p.wid / 512) (p.wid / 16 % 32) (p.wid % 16) p.addr.toNat 1))))))

/-! ### The step -/

/-- A STEP RUNS THE DECODED BUNDLE (R52, R59, R262, log 1): a step that the order of moves names is that event, or a cycle of that core; the
wave that a cycle may choose has a fetched token, and its bundle is the decoding of the resident entry's word; when the
chosen bundle is issued, each of its operations runs through exec in a state whose current bundle is that one, at the token's
address with the address after it, and with the wave already moved past the token. Shown for bundles of one operation and of none:
what the issue adds around exec is the end of the bundle's turn, the status registers that the bundle has written of copies that have faulted and not
completed since (R228), and the yielded marks of R47. -/
def Obligations.StepRunsTheDecodedBundle : Prop :=
  ∀ s : State,
    (∀ i t, s.turns = .event i :: t → step s = exec i { s with turns := t }) ∧
    (∀ c t, s.turns = .cycle c :: t → step s = coreCycle exec c { s with turns := t }) ∧
    (∀ core idle wid c, candOf s core idle wid = some c → ∃ d, c.wid = wid ∧ waveOf s wid = some c.w ∧ c.w.tok = some c.t ∧
      entryIn s (wid / 16) { lid := c.w.lid, hand := c.w.sup, idx := c.t.idx } = some d ∧ c.b = bundleOf d.word) ∧
    (∀ core c, let t := beginIssue s core c
      t.cur = { wid := c.wid, here := c.w.pc, next := c.w.pc + BitVec.ofNat 32 c.t.len, imm := c.t.imm.getD 0, immWide := c.t.immWide,
                sp := c.b.sp, mask := c.t.mask.getD 0, ser := s.serial, go := true } ∧
      t.mem = s.mem ∧ waveOf t c.wid = some { c.w with
        pc := c.w.pc + BitVec.ofNat 32 c.t.len
        tok := none
        waitCnt := c.b.wait.toNat
        age := 0
        withheld := 0
        exempt := false
        yielded := none }) ∧
    (∀ core c cs i t, (bundleOps c.b = [i] ∨ (bundleOps c.b = [] ∧ i = .emptyBundle)) → c.b.opp = none →
      exec i (beginIssue s core c) = .next t →
      let written := (taints s c.wid c.w c.b).filter fun r => t.copies.any fun e => e.2.wid == c.wid && e.2.dreg == r
      let marked := modWave { t with cur := { t.cur with go := false } } c.wid fun w => { w with tainted := w.tainted ++ written }
      issueBundle exec core c cs s = .next (bump (unmark core c.wid (markYield marked c cs))))

/-! ### Reset and the canonical form of memory -/

/-- RESET (R176, R246, R261, R284, R287, R292, R294, R300, R302): after a device reset whose boot order has completed every byte of memory
reads 0 in its canonical form, nothing is resident, every queue is disabled with its registers 0, every stage die has the values of
its registers, every core is at op0, and the security block is at boot stage 5. That the lifecycle is secured is the model's choice
(log 4). -/
def Obligations.ResetState : Prop :=
  let r := State.reset
  Inv r ∧ (∀ a, devByte r a = 0) ∧ r.waves = [] ∧ r.launches = [] ∧ r.acc = [] ∧ r.copies = [] ∧ r.now = 0 ∧ r.quantum = 2400000 ∧
  r.caps.avg = 1600 ∧ r.caps.peak = 2300 ∧ r.caps.f = 256 ∧ r.tren = false ∧ r.trbase = 0 ∧ r.bias = [] ∧
  (∀ k, let q := queueOf r k
    q.en = false ∧ q.st = .disabled ∧ q.tail = 0 ∧ q.head = 0 ∧ q.done = 0 ∧ q.irq = false ∧ q.fault = false) ∧
  (∀ d, let x := dieOf r d
    x.off = false ∧ x.clbud = 24000 ∧ x.loopen = true ∧ x.texp = 10 ∧ x.minoff = 0 ∧ x.maxoff = 16 ∧ x.limit = 0 ∧ x.ftot = [0, 0, 0]) ∧
  (∀ c, (coreOf r c).op = 0 ∧ (coreOf r c).cyc = 0 ∧ (coreOf r c).ramp = 7 ∧ (coreOf r c).allow = 0) ∧
  (∀ c, (clus r c).allow = 1024 * 24000 ∧ (clus r c).thresh = 8 ∧ (clus r c).alarms = 0) ∧
  r.sec.stage = 5 ∧ r.sec.busy = false ∧ r.sec.recov = false ∧ r.sec.status = 0

/-- AN INVARIANT OF EVERY STEP: device memory, host memory and every core's scratchpad keep their canonical form, addresses strictly
rising and no entry equal to what an unlisted address reads as, so that equal memories are equal data; and a wave slot has one entry. -/
def Obligations.EveryStepKeepsTheInvariant : Prop :=
  ∀ s t : State, Inv s → step s = .next t → Inv t

/-- READ AFTER WRITE (R5, R6): bytes written to memory read back in their order, every byte outside them reads as before, the canonical form
is kept, and two canonical memories that read alike are equal. -/
def Obligations.MemoryReadAfterWrite : Prop :=
  ∀ (m m' : List Host.Cell) (a : Nat) (bs : List Byte), Memory.wf m = true →
    getBytes (putBytes m a bs) a bs.length = bs ∧ Memory.wf (putBytes m a bs) = true ∧
    (∀ x, x < a ∨ a + bs.length ≤ x → getByte (putBytes m a bs) x = getByte m x) ∧
    (Memory.wf m' = true → (∀ x, getByte m x = getByte m' x) → m = m')

/-! ### The tile engine -/

/-- CLAIMS AND STATUS OF SLOTS (R142, R144, R367, R377, R379): TCLAIM gives each slot of its run to the wave's number, an unclaimed one
becoming claimed, empty and without contents; TREL leaves each unclaimed, empty, without a format and contents; TSTAT reads an entry in its layout, with bound 1.
The other slots, the accumulators, memory and, but for TSTAT's destination, the wave stay as they were.
OPERATIONS OF THE PILOT AT ISSUE (R143, R148, R149, R153 to R159, R161): each joins the end of its core's queue with its number of
steps, takes the next number of the milestone context that it names, and raises READERS of the slots that it reads; a slot that it fills is
filling. No accumulator, no slot contents and no byte of memory changes at issue, and of the wave only the marks of TMOVV's
destination registers. The memory form of TQUANT also puts its tile store in flight, without data as yet. -/
def Obligations.TileClaimsAndPilotQueue : Prop :=
  (∀ (s : State) (w : Wave),
    let core := s.cur.wid / 16
    let rest (t : State) (o : Nat) : Prop := entryOf t core o = entryOf s core o ∧ Tab.find (coreOf t core).images o = Tab.find (coreOf s core).images o
    let only (t : State) : Prop := t.waves = s.waves ∧ t.mem = s.mem ∧ (coreOf t core).accs = (coreOf s core).accs ∧
      (coreOf t core).parts = (coreOf s core).parts ∧ (coreOf t core).pilot = (coreOf s core).pilot ∧ (coreOf t core).pad = (coreOf s core).pad
    let run := fun (f : TClaimF) (o : Nat) => f.oa.toNat ≤ o ∧ o < f.oa.toNat + tcount f.n
    (∀ f : TClaimF, Issues (.tclaim f) s w → ∃ t, exec (.tclaim f) s = .next t ∧ only t ∧ (∀ o, ¬ run f o → rest t o) ∧
      ∀ o, run f o → ((entryOf s core o).claimed = true → entryOf t core o = { entryOf s core o with owner := w.num }) ∧
        ((entryOf s core o).claimed = false → entryOf t core o = { entryOf s core o with owner := w.num, claimed := true, st := .empty } ∧
          Tab.find (coreOf t core).images o = none)) ∧
    (∀ f : TClaimF, Issues (.trel f) s w → ∃ t, exec (.trel f) s = .next t ∧ only t ∧ (∀ o, ¬ run f o → rest t o) ∧
      ∀ o, run f o → entryOf t core o = { entryOf s core o with st := .empty, claimed := false, fmtt := 0 } ∧ Tab.find (coreOf t core).images o = none) ∧
    (∀ f : TStatF, Issues (.tstat f) s w →
      let e := entryOf s core f.oa.toNat
      let st := match e.st with | .empty => 0 | .filling => 1 | .ready => 2 | .draining => 3
      exec (.tstat f) s = .next (issued s w (sWrite w.sup f.a.toNat (BitVec.ofNat 64
        (st + (if e.claimed then 2 ^ 2 else 0) + e.owner % 16 * 2 ^ 3 + (if e.flt then 2 ^ 7 else 0) + e.fmtt % 16 * 2 ^ 8 +
          (if e.ort then 2 ^ 12 else 0) + e.readers % 64 * 2 ^ 16 + e.step % 1024 * 2 ^ 22))) 1))) ∧
  (∀ (s : State) (w : Wave) (q : Party), partyOf s w.lid w.party = some q →
    let core := s.cur.wid / 16
    let quiet (t : State) : Prop := t.mem = s.mem ∧ (coreOf t core).accs = (coreOf s core).accs ∧ (coreOf t core).parts = (coreOf s core).parts ∧
      (coreOf t core).images = (coreOf s core).images ∧ (coreOf t core).pad = (coreOf s core).pad
    let takes (t : State) (m : TMs) : Prop := match m with
      | .none => t.parties = s.parties
      | .ms4 => ∃ u, partyOf t w.lid w.party = some u ∧ (msOf u 4).taken = (msOf q 4).taken + 1
      | .ms5 => ∃ u, partyOf t w.lid w.party = some u ∧ (msOf u 5).taken = (msOf q 5).taken + 1
    let number (m : TMs) : Option (Nat × Nat) := match m with
      | .none => none
      | .ms4 => some (4, (msOf q 4).taken + 1)
      | .ms5 => some (5, (msOf q 5).taken + 1)
    let queues (i : Instr) (p : POp) (n : Nat) (m : TMs) (marks : List Reg) : Prop := Issues i s w → ∃ t op, exec i s = .next t ∧ quiet t ∧
      takes t m ∧ waveOf t s.cur.wid = some (addBusy w s.nextId marks) ∧ t.acc = s.acc ∧ (coreOf t core).pilot = (coreOf s core).pilot ++ [op] ∧
      op = { id := s.nextId, op := p, wid := s.cur.wid, addr := s.cur.here, steps := n, step := 0, ms := number m, serial := s.serial } ∧
      (∀ o, o ∉ slotFills i s w → (entryOf t core o).st = (entryOf s core o).st) ∧ (∀ o ∈ slotFills i s w, (entryOf t core o).st = .filling) ∧
      ∀ o, (entryOf t core o).readers = (entryOf s core o).readers + (if ∃ u ∈ slotReads i s w, u.o = o then 1 else 0)
    (∀ f : TZeroF, queues (.tzero f) (.zero f.t) 1 .none []) ∧
    (∀ f : TMmaF, queues (.tmma f) (.mma f) (8 * tcount f.n) f.ms []) ∧
    (∀ f : TBmmF, queues (.tbmm f) (.bmm f) 8 f.ms []) ∧
    (∀ f : TScacF, queues (.tscac f) (.sca f) 8 f.ms []) ∧
    (∀ f : TCvtF, queues (.tcvt f) (.cvt f) (if f.fmt = .bf16 ∨ f.fmt = .f16 then 16 else 32) f.ms []) ∧
    (∀ f : TMmaoF, queues (.tmmao f) (.mmao f) 12 f.ms []) ∧
    (∀ f : TMovvF, f.toAcc = false → queues (.tmovv f) (.movv f []) (tcount f.n) .none (writesOf (.tmovv f))) ∧
    (∀ f : TMovvF, f.toAcc = true → queues (.tmovv f)
      (.movv f ((List.range (tcount f.n)).map fun n => rdV s w (tagOf 6 (8 + n)) f.cl (f.a.toNat + n))) (tcount f.n) .none (writesOf (.tmovv f))) ∧
    (∀ (f : TQuantF) (o : BitVec 5), f.dest = .slot o →
      queues (.tquant f) (.quant f ((rdS s w (tagOf 6 1) f.a.toNat).toNat % 4) 0) (if f.had = .none then 64 else 128) f.ms []) ∧
    (∀ (f : TQuantF) (seg : BitVec 6) (imm : Bool), f.dest = .mem seg imm → Issues (.tquant f) s w → ∃ t op a, exec (.tquant f) s = .next t ∧
      quiet t ∧ takes t f.ms ∧ (coreOf t core).pilot = (coreOf s core).pilot ++ [op] ∧
      op.op = .quant f ((rdS s w (tagOf 6 4) (f.a.toNat + 3)).toNat % 4) s.nextId ∧ op.steps = (if f.had = .none then 64 else 128) ∧ op.ms = none ∧
      accOf t s.nextId = some a ∧ a.kind = .tstore ∧ a.dest = .none ∧ a.ms = number f.ms ∧ ∀ p ∈ a.pieces, p.data = []))

/-- TILE ACCESSES AT ISSUE (R143, R148, R151, R371, R380): TLOAD, TSTORE and TLDO put one access in flight that covers every row of the tile, and
an fp4 slot's scale array, in order, and take their milestone number; the slot is filling or draining. A tile load of the scratchpad
takes its bytes at issue, and a tile store to it writes them at issue; no byte of global memory changes yet. -/
def Obligations.TileAccessesIssue : Prop :=
  ∀ (s : State) (w : Wave), s.eccPad = [] →
    let core := s.cur.wid / 16
    let region := 6144 * (shareOf s core w.lid).unit
    let moves (i : Instr) (r : TReq) (k : AKind) (st : OState) (m : TMs) (src : List Byte) : Prop := ∃ t a, exec i s = .next t ∧ t.mem = s.mem ∧
      (∀ q, partyOf s w.lid w.party = some q → a.ms = match m with
        | .none => none
        | .ms4 => some (4, (msOf q 4).taken + 1)
        | .ms5 => some (5, (msOf q 5).taken + 1)) ∧
      accOf t s.nextId = some a ∧ a.kind = k ∧ a.wid = s.cur.wid ∧ a.loc = r.loc ∧ a.seq = w.seq + 1 ∧ a.scope = r.scope ∧
      (r.loc = false → (a.pieces.map (·.size)).sum = (r.spans.map (·.2)).sum ∧ a.pieces.flatMap (fun p => (List.range p.size).map (p.va + ·)) =
        r.spans.flatMap fun x => (List.range x.2).map (((segOf s s.cur.wid w r.seg).base + x.1 : Int).toNat + ·)) ∧
      (∃ v, waveOf t s.cur.wid = some v ∧ v.seq = w.seq + 1 ∧ v.s = w.s ∧ v.a = w.a ∧ v.b = w.b ∧ v.k = w.k) ∧
      (coreOf t core).accs = (coreOf s core).accs ∧ (coreOf t core).images = (coreOf s core).images ∧
      (∀ o, (entryOf t core o).st = if o ∈ slotFills i s w ∨ ∃ u ∈ slotReads i s w, u.o = o then st else (entryOf s core o).st) ∧
      (k = .tload → r.loc = true → (coreOf t core).pad = (coreOf s core).pad ∧ a.pieces.flatMap (·.val) =
        r.spans.flatMap fun x => (List.range x.2).map fun n => getByte (coreOf s core).pad (region + x.1.toNat + n)) ∧
      (k = .tstore → r.loc = true →
        let dst := r.spans.flatMap fun x => (List.range x.2).map (region + x.1.toNat + ·)
        (∀ b : Nat, b ∉ dst → getByte (coreOf t core).pad b = getByte (coreOf s core).pad b) ∧
        ∀ (n b : Nat), dst[n]? = some b → (∀ j : Nat, n < j → dst[j]? ≠ some b) → some (getByte (coreOf t core).pad b) = src[n]?)
    (∀ f r, Issues (.tload f) s w → tileReq (.tload f) s w = some r → moves (.tload f) r .tload .filling f.ms []) ∧
    (∀ f r, Issues (.tstore f) s w → tileReq (.tstore f) s w = some r →
      moves (.tstore f) r .tstore .draining f.ms (sourceBytes s core (tileDest f))) ∧
    (∀ f r, Issues (.tldo f) s w → tileReq (.tldo f) s w = some r → moves (.tldo f) r .tload .filling f.ms [])

/-- TILE ACCESSES TO THEIR END (R143, R148, R152, R223, R230): a strong tile load whose pieces may all be read fills its slot with the tile as it
stands at its home, byte for byte where the form is not K-major, and the slot is ready in its format and orientation; a tile store
that has read its slot holds the slot's bytes, and the slot is ready again, as it is once an outbound copy has read it. Each keeps
memory as it is; the load's access is over and its milestone number has completed. The bytes are the home's at locations that software has not
made reachable through two addresses without ALIAS on both (R190, log 44). -/
def Obligations.TileAccessesComplete : Prop :=
  ∀ (core id : Nat) (s : State),
    let kept (t : State) (o : Nat) : Prop := ∀ x, x ≠ o → entryOf t core x = entryOf s core x ∧
      Tab.find (coreOf t core).images x = Tab.find (coreOf s core).images x
    (∀ a o fmt kc, accOf s id = some a → a.kind = .tload → a.core = core → a.dest = .slot o fmt kc → a.loc = false → a.scope.isPlain = false →
      (∀ p ∈ a.pieces, p.done = false ∧ loadReady s id a p = true ∧ eccLoad s id a p.va (p.pa.getD 0) p.size = false) →
      let bs := a.pieces.flatMap fun p => devBytes s (p.pa.getD 0) p.size
      ∃ t, exec (.tileFillComplete core id) s = .next t ∧ accOf t id = none ∧ t.mem = s.mem ∧ kept t o ∧
        entryOf t core o = { entryOf s core o with st := .ready, fmtt := fmtCode fmt, ort := kc, flt := false, step := 0 } ∧
        (kc = false → (∀ p ∈ a.pieces, brokenAlias s (accVia a p.va (p.pa.getD 0)) (p.pa.getD 0) p.size = false) → ∀ i, i < 4096 → Tab.find (Tab.findD (coreOf t core).images o []) i = some (bs.getD i 0)) ∧
        (∀ c n q, a.ms = some (c, n) → partyOf s a.lid a.party = some q → ∃ u, partyOf t a.lid a.party = some u ∧ n ∈ (msOf u c).done)) ∧
    (∀ a o fmt kc, accOf s id = some a → a.kind = .tstore → a.core = core → a.dest = .slot o fmt kc →
      let src := sourceBytes s core (.slot o fmt kc)
      (a.loc = false → (∀ p ∈ a.pieces, p.data = []) → (a.pieces.map (·.size)).sum = src.length → ∃ t b,
        exec (.tileDrainComplete core id) s = .next t ∧ t.mem = s.mem ∧ t.waves = s.waves ∧ kept t o ∧
        entryOf t core o = { entryOf s core o with st := .ready, step := 0 } ∧ accOf t id = some b ∧ b.pieces.flatMap (·.data) = src) ∧
      (a.loc = true → ∃ t, exec (.tileDrainComplete core id) s = .next t ∧ t.mem = s.mem ∧ t.waves = s.waves ∧ kept t o ∧ accOf t id = none ∧
        entryOf t core o = { entryOf s core o with st := .ready, step := 0 })) ∧
    (∀ c, accOf s id = none → copyOf s id = some c → c.kind = .outSlot → c.core = core → c.drained = false → ∃ t d,
      exec (.tileDrainComplete core id) s = .next t ∧ t.mem = s.mem ∧ t.waves = s.waves ∧ kept t (c.loff / 8192) ∧
      entryOf t core (c.loff / 8192) = { entryOf s core (c.loff / 8192) with st := .ready, step := 0 } ∧ copyOf t id = some d ∧
      d.drained = true ∧ d.todo = c.todo ∧ ∀ k, k < c.len → Tab.find d.got k = some (copySource s c k))

/-- RETIREMENT OF A PILOT OPERATION (R148, R149, R153, R154, R157 to R159): the operation at the head, and no earlier one, retires once its
last step is made: it leaves the queue, its marks and READERS go, its number has completed, and no accumulator but its destination
changes. TZERO leaves zeros; TMOVV moves rows of an accumulator to vector registers or from them. TMMA of every format, at every level, adds each
group's exact sum of delivered products in its order with one rounding, or wraps (R154, R163, R165): of signed bytes at full fidelity the exact
dot products. TMMAO does so for one group of 16 products in its quadrant and keeps the other elements (R161). TBMM sets the partial to the exact
products of the blocks (R155); TSCAC adds it times the two scales with one rounding (R156). TCVT leaves a ready slot of its
format whose lines hold the elements rounded, clamped where it saturates, and whose side field is zero (R158); TQUANT leaves a ready slot that holds the blocks of R157,
and in its memory form gives its tile store the memory image of such a slot. That a NaN among a group's operands makes its sum a NaN with no event is the model's choice
(log 50), as is that no slice error turns a product's sign (log 12). Stated for a wave that
does not stand halted, whose area would follow its registers (R281). -/
def Obligations.TileOperationRetires : Prop :=
  ∀ (core : Nat) (s : State) (p : PilotOp) (rest : List PilotOp) (w : Wave) (q : Party), (coreOf s core).pilot = p :: rest →
    waveOf s p.wid = some w → w.st ≠ .halted → partyOf s w.lid w.party = some q →
    (p.step < p.steps → exec (.tileOpRetire core) s = .refused .notEnabled) ∧
    (p.steps ≤ p.step → ∃ t v, exec (.tileOpRetire core) s = .next t ∧
      (coreOf t core).pilot = rest ∧ t.mem = s.mem ∧ waveOf t p.wid = some v ∧ v.s = w.s ∧ v.k = w.k ∧ v.pc = w.pc ∧ v.live = w.live ∧
      (∀ b ∈ v.busy, b.by_ ≠ p.id) ∧ (∀ x, x ≠ p.wid → waveOf t x = waveOf s x) ∧
      (∀ c n, p.ms = some (c, n) → ∃ u, partyOf t w.lid w.party = some u ∧ n ∈ (msOf u c).done) ∧
      (∀ o, (entryOf t core o).readers = (entryOf s core o).readers - (if ∃ u ∈ slotReads (pilotInstr p.op) s w, u.o = o then 1 else 0)) ∧
      (let dest := match p.op with
        | .zero (.acc c) => some c.toNat
        | .zero (.part n) => some (16 + n.toNat)
        | .mma f => some f.c.toNat
        | .bmm f => some (16 + f.p.toNat)
        | .sca f => some f.c.toNat
        | .mmao f => some f.c.toNat
        | .movv f _ => if f.toAcc then some f.c.toNat else none
        | _ => none
       ∀ c, c < 24 → dest ≠ some c → tileRowsOf t core c = tileRowsOf s core c) ∧
      ((∀ f rows, p.op = .movv f rows → f.toAcc = true) → v.a = w.a ∧ v.b = w.b) ∧
      (∀ c, p.op = .zero (.acc c) → ∀ i j, i < 32 → j < 32 → elemAt t core c.toNat i j = 0) ∧
      (∀ n, p.op = .zero (.part n) → ∀ i j, i < 32 → j < 32 → elemAt t core (16 + n.toNat) i j = 0) ∧
      (∀ f rows, p.op = .movv f rows → f.toAcc = true → ∀ n j r, rows[n]? = some r → j < 32 →
        elemAt t core f.c.toNat (4 * f.row4.toNat + n) j = r.at j) ∧
      (∀ f rows, p.op = .movv f rows → f.toAcc = false → ∀ n j, n < tcount f.n → j < 32 →
        (holdV v f.cl (f.a.toNat + n)).und = 0 ∧
        (holdV v f.cl (f.a.toNat + n)).val.at j = elemAt s core f.c.toNat (4 * f.row4.toNat + n) j) ∧
      (∀ f l, p.op = .mma f → f.fmt = .s8 → launchOf s w.lid = some l → l.level = 3 → ∀ i j, i < 32 → j < 32 →
        elemAt t core f.c.toNat i j = BitVec.ofInt 32 ((elemAt s core f.c.toNat i j).toNat +
          ((List.range (tcount f.n)).flatMap fun n => (List.range 128).map fun k =>
            toInt true 8 ((slotImg s core (f.oa.toNat + n)).getD (128 * i + k) 0).toNat *
              toInt true 8 ((slotImg s core (f.ob.toNat + n)).getD (128 * j + k) 0).toNat).sum)) ∧
      (∀ f, p.op = .mma f → ∀ i j, i < 32 → j < 32 → ∃ r, elemAt t core f.c.toNat i j = BitVec.ofNat 32 r ∧
        MmaSums f.fmt (levelOf s w.lid) (mmaGroups s core f.oa.toNat f.ob.toNat (tcount f.n) f.fmt i j) (elemAt s core f.c.toNat i j).toNat r) ∧
      (∀ f, p.op = .mmao f →
        (∀ i j, i < 16 → j < 16 → ∃ r, elemAt t core f.c.toNat i j = BitVec.ofNat 32 r ∧
          MmaSums .bf16 (levelOf s w.lid) [((lineGroup s core f.oa.toNat .bf16 i 0).take 16, (lineGroup s core f.ob.toNat .bf16 j 0).take 16)]
            (elemAt s core f.c.toNat i j).toNat r) ∧
        ∀ i j, i < 32 → j < 32 → 16 ≤ i ∨ 16 ≤ j → ∀ x, Tab.find (tileRowsOf s core f.c.toNat) i = some x → x.und.getLsbD j = false →
          elemAt t core f.c.toNat i j = x.val.at j) ∧
      (∀ f, p.op = .bmm f → ∀ i j, i < 32 → j < 32 →
        let ga := slotImg s core f.oa.toNat
        let gb := slotImg s core f.ob.toNat
        -- in units of 2^-6
        let sum := ((List.range 256).map fun k => code8 (scTyp (scaleWord ga i)) (lineElem ga .fp4 i k) *
          code8 (scTyp (scaleWord gb j)) (lineElem gb .fp4 j k)).sum
        elemAt t core (16 + f.p.toNat) i j = BitVec.ofNat 32 (roundVal f32F .rne false 0 (.fin (decide (sum < 0)) sum.natAbs (-6))).bits) ∧
      (∀ f, p.op = .sca f → ∀ i j, i < 32 → j < 32 →
        let a := scale12 (scaleWord (slotImg s core f.oa.toNat) i)
        let b := scale12 (scaleWord (slotImg s core f.ob.toNat) j)
        elemAt t core f.c.toNat i j = BitVec.ofNat 32 (fFma f32F .rne 0 (f32F.decode (elemAt s core (16 + f.p.toNat) i j).toNat)
          (.fin false (a.1 * b.1) (a.2 + b.2)) (f32F.decode (elemAt s core f.c.toNat i j).toNat)).bits) ∧
      (∀ f, p.op = .cvt f → (entryOf t core f.oa.toNat).st = .ready ∧ (entryOf t core f.oa.toNat).fmtt = fmtCode f.fmt ∧
        (entryOf t core f.oa.toNat).ort = f.kc ∧
        (f.fmt ∈ [Fmt.bf16, .f16, .e4m3, .e5m2] → ∀ i, i < 32 → scaleWord (slotImg t core f.oa.toNat) i = 0 ∧
          ∀ k, k < 1024 / fmtBits f.fmt → lineElem (slotImg t core f.oa.toNat) f.fmt i k =
            (roundVal (cvtFmt f.fmt) .rne f.sat 0 (accElem s core f.c.toNat f.kc i k)).bits % 2 ^ fmtBits f.fmt)) ∧
      (∀ f typ id, p.op = .quant f typ id →
        (∀ o, f.dest = .slot o → (entryOf t core o.toNat).st = .ready ∧ (entryOf t core o.toNat).fmtt = 7 ∧ (entryOf t core o.toNat).ort = f.kc ∧
          (typ < 4 → HoldsBlocks s core f.c.toNat f.kc f.had typ (slotImg t core o.toNat))) ∧
        (∀ seg imm a, typ < 4 → f.dest = .mem seg imm → accOf s id = some a → a.loc = false → (a.pieces.map (·.size)).sum = 4160 → ∃ g b,
          HoldsBlocks s core f.c.toNat f.kc f.had typ g ∧ accOf t id = some b ∧
          b.pieces.flatMap (·.data) = (List.range (tileRows false .fp4 f.kc).1).flatMap (slotRow g .fp4 f.kc) ++ bytesFrom g 4096 64)))

/-! ### Fetch, landing, handler entry -/

/-- TOKEN_FETCH (R55, R56, R59 to R61) takes place for every wave that fetches. A wave's token begins on a marked byte of the stream,
else its launch is killed with 0x15; a token that ends past the stream, is reserved, names no entry of the dictionary or has a live mask
with its zero bits set kills with 0x02; a pad is passed over; any other is the wave's token, with its immediate or its live mask, and its
entry is found in the decode table or asked for. Registers and memory stay as they are. What the token is: for an image whose pages are
checked and readable.
OSTLER_REFILL (R53, R55 to R58) takes place wherever one of the four refills in flight can be installed. The word asked for is read from the image's dictionary and filtered: a good one is installed as the most
recently used entry, pinned for the wave that waits, which goes on; a failing one kills the launch of the wave that asked first with 0x01 and the
index and the failed check in its detail, at that wave's token. For one request, a window with room, and an image whose pages are checked and readable. -/
def Obligations.TokenFetchAndRefill : Prop :=
  (∀ (s : State) (wid : Nat) (w : Wave) (l : Launch) (im : Image), waveOf s wid = some w → fetches s wid w = true →
    (launchOf s w.lid = some l → imageOf l w.sup = some im → ∃ t, exec (.tokenFetch wid) s = .next t) ∧
    (ImageReady s w.lid l w.sup im (wid / 512) →
    let a := w.pc.toNat
    let h := im.hdr
    let marked := ((imgAt s im (h.mapOff + a / 8) 1).headD 0).toNat / 2 ^ (a % 8) % 2 = 1
    let n := max 1 (tokLen ((imgAt s im (h.streamOff + a) 1).headD 0).toNat)
    let tok := decTok (imgAt s im (h.streamOff + a) n)
    let dies (code : Nat) : Prop := exec (.tokenFetch wid) s = .next (bump (killWave s wid w code w.pc 0))
    (h.streamLen ≤ a ∨ ¬ marked → dies 0x15) ∧
    (a < h.streamLen → marked → (h.streamLen < a + n ∨ tok = .reserved → dies 0x02) ∧
      (tok = .pad → a + n ≤ h.streamLen → a + 1 < 2 ^ 32 →
        exec (.tokenFetch wid) s = exec (.tokenFetch wid) (setWave s wid { w with pc := w.pc + 1 })) ∧
      (a + n ≤ h.streamLen → ∀ idx len tail, tok = .ok idx len tail →
        (h.dictN ≤ idx ∨ (∃ m, tail = .safe m ∧ 2 ^ 60 ≤ m.toNat) → dies 0x02) ∧
        (idx < h.dictN → ∀ imm wide mask, (tail = .plain ∧ imm = none ∧ wide = false ∧ mask = none) ∨
            (∃ v, tail = .imm wide v ∧ imm = some v ∧ mask = none) ∨
            (∃ m, tail = .safe m ∧ m.toNat < 2 ^ 60 ∧ imm = none ∧ wide = false ∧ mask = some m) →
          let key : DKey := { lid := w.lid, hand := w.sup, idx := idx }
          let miss := (entryIn s (wid / 16) key).isNone
          ∃ t, exec (.tokenFetch wid) s = .next t ∧ t.mem = s.mem ∧ waveOf t wid = some { w with
              tok := some { idx := idx, len := len, imm := imm, immWide := wide, mask := mask }
              missed := miss } ∧
            (miss = true → ∃ o ∈ (coreOf t (wid / 16)).ostler, o.1 = key ∧ { wid := wid, pc := w.pc, live := true } ∈ o.2)))))) ∧
  ((∀ (s : State) (core : Nat), (∃ o ∈ (coreOf s core).ostler, canInstall s core o.1.lid = true) → ∃ t,
    exec (.ostlerRefill core) s = .next t) ∧
  ∀ (s : State) (core : Nat) (k : DKey) (x : Nat) (pc : Word) (w : Wave) (l : Launch) (im : Image) (f : Fetched),
    (coreOf s core).ostler = [(k, [{ wid := x, pc := pc, live := true }])] → windowUse (coreOf s core) k.lid < (shareOf s core k.lid).window → waveOf s x = some w →
    ImageReady s k.lid l k.hand im (core / 32) → k.idx < im.hdr.dictN →
    w.missed = true → w.tok = some f → k = { lid := w.lid, hand := w.sup, idx := f.idx } →
    let cw := leNat (imgAt s im (im.hdr.dictOff + 48 * k.idx) 48)
    (filterWord cw im.hdr.ceiling = none → ∃ t, exec (.ostlerRefill core) s = .next t ∧ t.mem = s.mem ∧ (coreOf t core).ostler = [] ∧
      (coreOf t core).dtab = { key := k, word := cw, pins := [x] } :: (coreOf s core).dtab ∧ waveOf t x = some { w with missed := false } ∧
      (shareOf t core k.lid).dictmiss = (shareOf s core k.lid).dictmiss + 1) ∧
    (∀ c, filterWord cw im.hdr.ceiling = some c → exec (.ostlerRefill core) s =
      .next (bump (killWave (modCore s core fun y => { y with ostler := [] }) x w 0x01 pc
        (k.idx + (if k.hand then 2 ^ 14 else 0) + 65536 * c)))))

/-- EXPOSED RESULTS LAND (R65, R67, R71): a window whose bound has run out closes and its value is in the register, in the lanes of its mask
alone, or the whole register is undefined after a clash; windows with time left stay open, and with none due nothing can land.
HANDLER_ENTRY from a record or a landing conflict (R195 to R197, R236, R266 to R268): a running wave with a load record, or whose landing
buffer was hit, enters at its next bundle, which ERET resumes at, where that bundle raises no cause of its own, which would come first; a waiting wave that has a store record leaves its wait, to which the bundle's
own address and the INWAIT bit return it. k15 takes the faulting lanes, and the lanes that are live for a landing
conflict. -/
def Obligations.ResultsLandAndRecordsTrap : Prop :=
  (∀ (wid : Nat) (s : State) (w : Wave), waveOf s wid = some w →
    ((∀ x ∈ w.wins, x.left ≠ 0) → exec (.exposedResultLand wid) s = .refused .notEnabled) ∧
    (∀ x, w.wins.filter (fun y => y.left == 0) = [x] → ∃ v, exec (.exposedResultLand wid) s = .next (bump (setWave s wid v)) ∧
      v.wins = w.wins.filter (fun y => y.left != 0) ∧ v.live = w.live ∧ v.fel = w.fel ∧ v.pc = w.pc ∧ v.busy = w.busy ∧
      (∀ n d, x.w = .s n d → v.s = Tab.put w.s n { val := d, und := x.clash } ∧ v.h = w.h ∧ v.k = w.k ∧ v.a = w.a ∧ v.b = w.b) ∧
      (∀ n d, x.w = .h n d → v.h = Tab.put w.h n { val := d, und := x.clash } ∧ v.s = w.s ∧ v.k = w.k ∧ v.a = w.a ∧ v.b = w.b) ∧
      (∀ n m d, x.w = .k n m d → v.s = w.s ∧ v.h = w.h ∧ v.a = w.a ∧ v.b = w.b ∧ (∀ r, r ≠ n → holdK v r = holdK w r) ∧
        (x.clash = true → (holdK v n).und = BitVec.allOnes 32) ∧
        ∀ i, i < 32 → (holdK v n).val.getLsbD i = (if m.getLsbD i then d.getLsbD i else (holdK w n).val.getLsbD i) ∧
          (x.clash = false → (holdK v n).und.getLsbD i = (!m.getLsbD i && (holdK w n).und.getLsbD i))) ∧
      (∀ cl n m d, x.w = .v cl n m d → v.s = w.s ∧ v.h = w.h ∧ v.k = w.k ∧
        (∀ c r, (c, r) ≠ (cl, n) → holdV v c r = holdV w c r) ∧ (x.clash = true → (holdV v cl n).und = BitVec.allOnes 32) ∧
        ∀ i, i < 32 → (holdV v cl n).val.at i = (if m.getLsbD i then d.at i else (holdV w cl n).val.at i) ∧
          (x.clash = false → (holdV v cl n).und.getLsbD i = (!m.getLsbD i && (holdV w cl n).und.getLsbD i))))) ∧
  (∀ (wid : Nat) (s : State) (w : Wave) (e : Word), waveOf s wid = some w → w.sup = false → w.stopping = none →
    let enters (cause : Nat) (pc : Word) (word : Nat) (lanes : Word) (outer : Option Waiting) : Prop := ∃ t v,
      exec (.handlerEntry wid) s = .next t ∧ waveOf t wid = some v ∧ v.sup = true ∧ v.st = .handler ∧ v.pc = e ∧ v.tok = none ∧
      v.trappc = pc ∧ v.trapcause = BitVec.ofNat 64 word ∧ holdK v 15 = { val := lanes, und := 0 } ∧
      v.trapmask = rdK s (drainWins w) (tagOf 7 0) 15 ∧ v.outer = outer ∧ v.wins = [] ∧ v.live = w.live ∧ v.fel = w.fel ∧ v.recs = w.recs ∧
      (cause = 0x0B → v.landDue = false) ∧ t.mem = s.mem ∧ ∀ x, x ≠ wid → waveOf t x = waveOf s x
    (∀ r, w.st = .running → raisesNow s wid w = false → Tab.find w.recs w.head = some r → loadRec w = true → entryFor s w.lid (recCause r) = some e →
      enters (recCause r) w.pc (recCause r + 2 ^ 8) (instrLanes s w r) none) ∧
    (∀ r x, w.st = .waiting → w.wait = some x → Tab.find w.recs w.head = some r → storeRec w = true → entryFor s w.lid (recCause r) = some e →
      enters (recCause r) x.here (recCause r + 2 ^ 9) (instrLanes s w r) (some { x with next := w.pc })) ∧
    (w.st = .running → raisesNow s wid w = false → w.recs = [] → w.count = 0 → heldNow s wid w = false → w.landDue = true →
      entryFor s w.lid 0x0B = some e → enters 0x0B w.pc (0x0B + 2 ^ 8) w.live none))

/-! ### Launches, parties and waves -/

/-- PLACEMENT AND RELEASE (R33, R35, R126, R253, R258): the next party of a launch goes to the lowest core of its die that has room for it,
its waves, numbered from 0, to the lowest free slots, carved, with every s and mask register 0, every lane live and their vector
registers undefined; other waves stay as they are (what is placed is stated for a launch whose pages are checked, and which has no constants to copy
to the core). A carved wave is released once every party of its convoys is placed, and not
before; a launch with the early flag raises its gate to at least its count once every earlier launch of its queue has completed, whatever
has become of the launch itself.
THE END OF WAVES, PARTIES AND LAUNCHES (R19, R36, R49, R144, R248): a wave whose EXIT emptied its live mask retires once its own work is
done and its operand slots are at rest, where what it must have finished and what it may leave behind is the model's reading (log 15, DEDUCED), as is
that it stands running until then (log 49, DEDUCED);
with other waves of its party left it stands retired and its convoys count it as arrived; as the last one it takes the party
with it. A launch all of whose parties have retired completes: it and its function are charged what it drew since the last sample (R295;
the amount is free, log 19), its convoys are freed and its packet is complete in ring order. -/
def Obligations.PartiesArePlacedAndRetire : Prop :=
  (∀ s : State,
    (∀ lid l core, launchOf s lid = some l → wantsPlace s lid l = true → dieServes s l = true → chooseCore s lid l l.die = some core →
      (l.placed = 0 → l.cvs.length ≤ (freeConvoys s l.die).length) →
      (∃ t, exec (.partyPlace lid) s = .next t) ∧
      (l.checked = true → (l.img.hdr.constLen = 0 ∨ (Tab.find (coreOf s core).shares lid).isSome = true) →
      core / 32 = l.die ∧ fitsCore s lid l core = true ∧ (∀ c, c / 32 = l.die → c < core → fitsCore s lid l c = false) ∧
      ∃ t m q, exec (.partyPlace lid) s = .next t ∧ launchOf t lid = some m ∧ m.placed = l.placed + 1 ∧ m.st = l.st ∧ m.p = l.p ∧
        partyOf t lid l.placed = some q ∧ q.core = core ∧ q.waves = partyWaves l.p ∧ q.left = partyWaves l.p ∧ q.released = false ∧
        (∀ i slot, ((freeSlots s core).take (partyWaves l.p))[i]? = some slot → ∃ v, waveOf t (16 * core + slot) = some v ∧
          v.lid = lid ∧ v.party = l.placed ∧ v.num = i ∧ v.role = roleOf l.p i ∧ v.st = .carved ∧ v.live = BitVec.allOnes 32 ∧ v.sup = false ∧
          (∀ n, holdS v n = { val := 0, und := false }) ∧ (∀ n, holdK v n = { val := 0, und := 0 }) ∧
          (∀ cl n, (holdV v cl n).und = BitVec.allOnes 32) ∧ v.fel = Fel.init ∧ v.recs = [] ∧ v.faultbase = 0x400 ∧ v.seq = 0 ∧
          ∀ n, n < 32 → v.lfsr.at n = 0xACE10000#32 ^^^ BitVec.ofNat 32 (2 ^ 9 * (l.placed % 2 ^ 11) + 2 ^ 5 * (i % 16) + n)) ∧
        (∀ k, (∀ slot ∈ (freeSlots s core).take (partyWaves l.p), k ≠ 16 * core + slot) → waveOf t k = waveOf s k))) ∧
    (∀ wid w l, waveOf s wid = some w → launchOf s w.lid = some l →
      (w.st = .carved → convoysPlaced l w = true → ∃ t, exec (.waveRelease wid) s = .next t ∧
        waveOf t wid = some { w with st := .running, age := 0 } ∧ t.mem = s.mem ∧ ∀ k, k ≠ wid → waveOf t k = waveOf s k) ∧
      (w.st ≠ .carved ∨ convoysPlaced l w = false → exec (.waveRelease wid) s = .refused .notEnabled)) ∧
    (∀ lid l, launchOf s lid = some l → (queueOf s (queueOfLaunch l)).base ≤ lid → l.p.flags.getLsbD 6 = true → l.raised = false →
      l.p.gcount < 2 ^ 32 →
      (earlierDone s lid l = true → ∃ t m, exec (.gateRaise lid) s = .next t ∧ launchOf t lid = some m ∧ m.raised = true ∧ t.waves = s.waves ∧
        (gateOf (queueOf t (queueOfLaunch l)) l.p.gate).toNat = max (gateOf (queueOf s (queueOfLaunch l)) l.p.gate).toNat l.p.gcount) ∧
      (earlierDone s lid l = false → exec (.gateRaise lid) s = .refused .notEnabled))) ∧
  (∀ s : State,
    (∀ wid w q, waveOf s wid = some w → partyOf s w.lid w.party = some q →
      let ready := w.exiting = true ∧ w.sup = false ∧ w.st = .running ∧ w.stopping = none ∧ wavesWorkDone s wid w = true ∧ slotsRest s wid w = true
      (ready → 1 < q.left → ∃ t u, exec (.waveRetire wid) s = .next t ∧
        waveOf t wid = some { w with st := .retired, tok := none, missed := false } ∧
        partyOf t w.lid w.party = some u ∧ u.left = q.left - 1 ∧ t.mem = s.mem ∧ (∀ k, k ≠ wid → waveOf t k = waveOf s k) ∧
        ∀ e c, Tab.find s.convoys e = some c → c.lid = w.lid → (w.party, w.num) ∈ c.members → ∃ d, Tab.find t.convoys e = some d ∧
          (w.party, w.num) ∈ d.retired ∧ d.phase = c.phase) ∧
      (ready → q.left ≤ 1 → ∃ t, exec (.waveRetire wid) s = .next t ∧ partyOf t w.lid w.party = none ∧ t.mem = s.mem ∧
        (∀ k v, waveOf t k = some v → v.lid = w.lid → v.party ≠ w.party) ∧
        (∀ l, launchOf s w.lid = some l → ∃ m, launchOf t w.lid = some m ∧ m.retired = l.retired + 1)) ∧
      (¬ ready → exec (.waveRetire wid) s = .refused .notEnabled)) ∧
    (∀ lid l, launchOf s lid = some l →
      let k := queueOfLaunch l
      let q := queueOf s k
      (l.st = .accepted → l.retired = l.p.parties → storeHeld s lid = false → ∃ t, exec (.launchComplete lid) s = .next t) ∧
      (l.st = .accepted → l.retired = l.p.parties → storeHeld s lid = false → l.p.energy = 0 → (∀ r ∈ s.routes, lid ∉ r.2.lids) → ∃ t m,
        exec (.launchComplete lid) s = .next t ∧ launchOf t lid = some m ∧
        (let e := if l.drew then Config.sampleEnergy s.serial lid else 0
         m = { l with st := .complete, energy := l.energy + e, drew := hasTraffic s lid } ∧
         (funcOf t l.vf).energy = (funcOf s l.vf).energy + e) ∧ t.waves = s.waves ∧ t.mem = s.mem ∧
        (∀ e ∈ t.convoys, e.2.lid ≠ lid) ∧ (l.pkt ∈ q.intr → (queueOf t k).irq = true) ∧
        (q.ended = [] → l.pkt = q.done.toNat → (queueOf t k).done = q.done + 1 ∧ (queueOf t k).ended = []) ∧
        (q.ended = [] → l.pkt ≠ q.done.toNat → (queueOf t k).done = q.done ∧ (queueOf t k).ended = [l.pkt])) ∧
      (l.st ≠ .accepted ∨ l.retired ≠ l.p.parties ∨ storeHeld s lid = true → exec (.launchComplete lid) s = .refused .notEnabled)))

/-- WAITS END (R36, R37, R148, R218, R254, R310, R324, R353): a convoy whose every member has reported or retired, and no other, goes to its
next phase and releases every wave that waits, in one step: those that arrived go on, those whose BAR had still to arrive arrive in the new
phase, and no other wave changes; a milestone counter passes exactly the numbers that have completed in order and wakes every wave
that waits for one of them; a GWAIT ends once its gate has reached its operand, and a wave that came back from the handler to a wait whose number has been reached
is woken too; one that stops stays in its wait (R275). The wave is back in the state in which its wait began,
and with no earlier load outstanding its core has refreshed.
CYCLIC WAIT AND TOLLS (R241, R242): when every unretired wave of a whole route has been blocked, with nothing in flight, for 100
microseconds, its launches are killed with code 0x0F and detail 2 (the record's other fields are the model's, log 25); a toll bucket
that is due gains its rate for each whole microsecond, never above its depth. R242 gives a rate in bytes a microsecond; that it comes in whole steps of
1,200 ticks is the model's choice (log 64, DESIGN CHOICE). -/
def Obligations.WaitsEndTollsRefill : Prop :=
  (∀ s : State,
    let goesOn (t : State) (k : Nat) (w : Wave) : Prop := (w.wait.bind fun x => x.also) = none → ∃ v, waveOf t k = some v ∧ v.st = w.back ∧
      v.wait = none ∧ v.s = w.s ∧ v.k = w.k ∧ v.pc = w.pc
    let wakes (t : State) (k : Nat) (w : Wave) : Prop := goesOn t k w ∧ (acqDone s k w.sup s.nextId = true → (coreOf t (k / 16)).floor = s.commits)
    let released (t : State) (cv phase k : Nat) (w : Wave) : Prop := ∀ x, w.wait = some x →
      (x.rearm = none → goesOn t k w ∧ ((∀ n, s.nextId ≤ n → acqDone s k w.sup n = true) → (coreOf t (k / 16)).floor = s.commits)) ∧
      (x.rearm = some true → goesOn t k w) ∧
      (x.rearm = some false → waveOf t k = some { w with wait := some { x with on := .bar cv phase, rearm := none, since := s.now / 105 } })
    (∀ cv c, Tab.find s.convoys cv = some c →
      (lateWaiters s cv c.phase ≠ [] → ∃ t, exec (.convoyPhaseComplete cv) s = .next t ∧ t.mem = s.mem ∧
        (TabOk s.waves → ∀ e ∈ lateWaiters s cv c.phase, released t cv c.phase e.1 e.2)) ∧
      (lateWaiters s cv c.phase = [] →
      (phaseFull c = true → c.reported ≠ [] → barWaiters s cv c.phase = [] → exec (.convoyPhaseComplete cv) s = .next (bump { s with
        convoys := Tab.put s.convoys cv { c with phase := c.phase + 1, arrived := [], reported := [], past := c.syncs, syncs := [] } })) ∧
      (phaseFull c = true → c.reported ≠ [] ∨ barWaiters s cv c.phase ≠ [] → ∃ t d, exec (.convoyPhaseComplete cv) s = .next t ∧ t.mem = s.mem ∧
        Tab.find t.convoys cv = some d ∧ d.phase = c.phase + 1 ∧ d.reported = [] ∧ d.members = c.members ∧ d.retired = c.retired ∧
        (∀ m, m ∈ d.arrived ↔ ∃ e ∈ barWaiters s cv c.phase, (e.2.party, e.2.num) = m ∧ (e.2.wait.bind fun x => x.rearm).isSome = true) ∧
        (TabOk s.waves → (∀ e ∈ barWaiters s cv c.phase, released t cv (c.phase + 1) e.1 e.2) ∧
          ∀ k, (∀ e ∈ barWaiters s cv c.phase, e.1 ≠ k) → waveOf t k = waveOf s k)) ∧
      (phaseFull c = false → exec (.convoyPhaseComplete cv) s = .refused .notEnabled))) ∧
    (∀ party (ctx : BitVec 3) p, Tab.find s.parties party = some p →
      let m := msOf p ctx.toNat
      (m.count + 1 ∉ m.done → msWaiters s (party / 65536) (party % 65536) ctx.toNat m.count = [] →
        exec (.milestoneAdvance party ctx) s = .refused .notEnabled) ∧
      (m.count + 1 ∉ m.done → msWaiters s (party / 65536) (party % 65536) ctx.toNat m.count ≠ [] → ∃ t,
        exec (.milestoneAdvance party ctx) s = .next t ∧ t.mem = s.mem ∧
        (TabOk s.waves → ∀ e ∈ msWaiters s (party / 65536) (party % 65536) ctx.toNat m.count, wakes t e.1 e.2)) ∧
      (m.count + 1 ∈ m.done → ∃ t u, exec (.milestoneAdvance party ctx) s = .next t ∧ Tab.find t.parties party = some u ∧ t.mem = s.mem ∧
        (let c := (msOf u ctx.toNat).count
         m.count < c ∧ (∀ n, m.count < n → n ≤ c → n ∈ m.done) ∧ c + 1 ∉ m.done ∧ (msOf u ctx.toNat).taken = m.taken ∧
         (TabOk s.waves → ∀ e ∈ msWaiters s (party / 65536) (party % 65536) ctx.toNat c, wakes t e.1 e.2) ∧
         (msWaiters s (party / 65536) (party % 65536) ctx.toNat c = [] → t.waves = s.waves)))) ∧
    (∀ wid w x g n, waveOf s wid = some w → w.st = .waiting → w.wait = some x → x.on = .gwait g n →
      (n ≤ gateVal s g → w.stopping = none → ∃ t, exec (.gateWaitWake wid) s = .next t ∧ t.mem = s.mem ∧ t.queues = s.queues ∧ wakes t wid w) ∧
      (gateVal s g < n ∨ w.stopping ≠ none → exec (.gateWaitWake wid) s = .refused .notEnabled))) ∧
  (∀ (s : State),
    (∀ (k lid : Nat) (r : Route), Tab.find s.routes k = some r → r.lids.find? (fun n => match launchOf s n with
        | some l => l.st == .accepted | none => false) = some lid →
      (cyclicNow s r = true → cyclicSince s r + 120000 ≤ s.now / 105 →
        exec (.cyclicWait k) s = .next (bump (killLaunch s lid 0x0F 0xFF 0xFF 0xFF 0 2))) ∧
      ((cyclicNow s r = false ∨ s.now / 105 < cyclicSince s r + 120000) → exec (.cyclicWait k) s = .refused .notEnabled)) ∧
    (∀ (die : BitVec 3) (v : BitVec 4),
      let b := fun (t : State) => Tab.findD (dieOf t die.toNat).tollF v.toNat Toll.init
      let depth := fun (t : State) => (1024 * (if (b t).depth = 0 then 1 else (b t).depth) : Nat)
      (b s).en = true → (b s).at_ + 1200 ≤ s.now / 105 → (b s).level < depth s →
      ∃ t, exec (.tollRefill die v) s = .next t ∧ t.waves = s.waves ∧ t.mem = s.mem ∧
        (b t).level = min ((b s).level + ((s.now / 105 - (b s).at_) / 1200 : Nat) * (b s).rate) (depth s) ∧
        s.now / 105 < (b t).at_ + 1200))

/-! ### Pre-emption and halts -/

/-- SLICES, REQUESTS AND THE WATCHDOG (R46, R261, R275): at the end of a slice a die passes to the next function that has work waiting, for its weight
times the quantum, and to none while a body on it cannot be stopped; a request marks every unretired wave of the one body that it names, restarting its
watchdog; a wave whose watchdog reaches its limit before it stops ends its launch with 0x0E. -/
def Obligations.SlicesRequestsAndWatchdog : Prop :=
  ∀ s : State,
    (∀ die : BitVec 3, let d := dieOf s die.toNat
      (s.now / 105 < d.sliceEnd ∨ d.off = true ∨ (∃ e ∈ onDie s die.toNat, canStop s e.1 = false) ∨ nextFunc s die.toNat d.granted = none →
        exec (.sliceEnd die) s = .refused .notEnabled) ∧
      (∀ v, d.sliceEnd ≤ s.now / 105 → d.off = false → (∀ e ∈ onDie s die.toNat, canStop s e.1 = true) →
        nextFunc s die.toNat d.granted = some v → waitsOn s v die.toNat = true ∧ exec (.sliceEnd die) s = .next (bump { s with
          dies := Tab.put s.dies die.toNat { d with
            granted := v
            outgoing := d.granted
            sliceEnd := s.now / 105 + (funcOf s v).weight * s.quantum } }))) ∧
    (∀ lid l, launchOf s lid = some l → let d := dieOf s l.die
      (d.granted ≠ d.outgoing → (toStop s l.die).head? = some lid → (∀ e ∈ onDie s l.die, e.2.stopping = false) →
        waitsOn s d.granted l.die = true → incomingFits s d.granted l.die = false → ∃ t, exec (.preemptRequest lid) s = .next t ∧
          launchOf t lid = some { l with stopping := true } ∧ t.mem = s.mem ∧
          ∀ k w, waveOf s k = some w → waveOf t k = some (if w.lid = lid ∧ w.st ≠ .retired then { w with preempt := true, watchdog := 0 } else w)) ∧
      (d.granted = d.outgoing ∨ waitsOn s d.granted l.die = false ∨ incomingFits s d.granted l.die = true →
        exec (.preemptRequest lid) s = .refused .notEnabled)) ∧
    (∀ wid w l, waveOf s wid = some w → launchOf s w.lid = some l → w.preempt = true →
      (w.st ≠ .stopped → w.st ≠ .halted → w.st ≠ .retired → 2 ^ l.htab.wd ≤ w.watchdog →
        exec (.watchdogExpiry wid) s = .next (bump (killWave s wid w 0x0E w.pc 0))) ∧
      (w.watchdog < 2 ^ l.htab.wd → exec (.watchdogExpiry wid) s = .refused .notEnabled))

/-- STOPPING, SAVING AND RESUMING A BODY (R45, R63, R71, R275 to R279): a requested wave stops at a safe-point token whose bundle matches it and
waits for nothing, or in a wait of a safe-point bundle that is not ending, once its work has drained, keeping the live mask and with its
windows closed; until the work has drained it stands there, and without such a point it does not stop; a body whose waves have all stopped and whose work has
drained is saved and leaves its cores: each stopped wave's area holds its pc, its state and wait, its live mask and every defined register, mask
and lane that the live mask names, at the offsets of R276; each core's area holds the milestone counters, the dictionary list, the tile table, the kept
accumulators, partials and claimed slots and the scratchpad allotment at the offsets of R277; and the same is kept with the body. A body that resumes,
where its units fit and no page of a dictionary is found bad, is resident again on that die: each unit has a core with its units of scratchpad, their bytes and
its tile contents, and each of its waves a free slot of that core, in the state in which it stopped, in user mode, with its pc, and with the s, k and vector registers of
its area under its live mask, the others undefined; no request is outstanding. Other launches' waves stay as they are. That a carved wave counts as stopped and
is saved and resumed carved, and what the body's work is that must have drained, are the model's reading (log 16, DEDUCED). Stated where a wave slot
has one entry, which every step keeps, and where no two areas of the body overlap. -/
def Obligations.BodiesStopAndResume : Prop :=
  ∀ s : State, TabOk s.waves →
    (∀ wid w, waveOf s wid = some w → w.preempt = true → w.sup = false → inInvpg s wid = false → w.stopping = none →
      let stops (m : DWord) (back : WState) : Prop := ∃ t v, exec (.safePointStop wid) s = .next t ∧ waveOf t wid = some v ∧ v.st = .stopped ∧
        v.back = back ∧ v.stopping = some m ∧ v.wins = [] ∧ v.tok = none ∧ v.pc = w.pc ∧ v.wait = w.wait ∧ v.live = w.live ∧ t.mem = s.mem
      (∀ f b m, w.st = .running → w.waitCnt = 0 → w.exiting = false → heldNow s wid w = false → nextBundle s wid w = some (f, b) →
          tokenBad f b = false → f.mask = some m →
        (storeRec w = false → stopDrained s wid w = true → stops m .running) ∧
        (storeRec w = true ∨ stopDrained s wid w = false →
          exec (.safePointStop wid) s = .next (bump (setWave s wid { w with stopping := some m })))) ∧
      (∀ x, w.st = .waiting → w.wait = some x → x.sp = true → w.back = .running → popEnds s x = false →
        (storeRec w = false → stopDrained s wid w = true → stops x.mask .waiting) ∧
        (storeRec w = true ∨ stopDrained s wid w = false →
          exec (.safePointStop wid) s = .next (bump (setWave s wid { w with stopping := some x.mask })))) ∧
      ((w.st = .running ∧ (heldNow s wid w = true ∨ ∀ f b, nextBundle s wid w = some (f, b) → f.mask = none ∨ tokenBad f b = true)) ∨
          (w.st = .waiting ∧ ∀ x, w.wait = some x → x.sp = false) →
        exec (.safePointStop wid) s = .refused .notEnabled)) ∧
    (∀ lid l, launchOf s lid = some l →
      (l.stopping = true → resident s lid = true → bodyStopped s lid = true → bodyDrained s lid = true → canStop s lid = true → ∃ t b m,
        exec (.bodySave lid) s = .next t ∧ Tab.find t.bodies lid = some b ∧ b.lid = lid ∧ b.die = l.die ∧ b.cores.map (·.old) = coresOf s lid ∧
        b.convoys = s.convoys.filter (fun e => e.2.lid == lid) ∧ launchOf t lid = some m ∧ m.saved = true ∧ m.stopping = false ∧ m.st = l.st ∧
        (∀ k w, waveOf t k = some w → w.lid ≠ lid) ∧ (∀ k w, waveOf s k = some w → w.lid ≠ lid → waveOf t k = some w) ∧
        (∀ e ∈ t.convoys, e.2.lid ≠ lid) ∧ (∀ c ∈ coresOf s lid, Tab.find (coreOf t c).shares lid = none) ∧
        (∀ u ∈ b.cores, { u with waves := [] } = { saveUnit s lid u.old with waves := [] } ∧
          ∀ k w, waveOf s k = some w → w.lid = lid → k / 16 = u.old → Tab.find u.waves k =
            some (if w.st = .stopped then { reduceWave w (w.stopping.getD allLive) with st := .saved } else w)) ∧
        let waveAt (k a : Nat) : Prop := ∃ w, waveOf s k = some w ∧ w.lid = lid ∧ waveArea s k w = some a
        let coreAt (c a : Nat) : Prop := c ∈ coresOf s lid ∧ coreArea s c lid = some a
        ((∀ k k' a a', waveAt k a → waveAt k' a' → k ≠ k' → a + 0x8000 ≤ a' ∨ a' + 0x8000 ≤ a) →
          (∀ c c' a a', coreAt c a → coreAt c' a' → c ≠ c' → a + 0x100000 ≤ a' ∨ a' + 0x100000 ≤ a) →
          (∀ k c a a', waveAt k a → coreAt c a' → a + 0x8000 ≤ a' ∨ a' + 0x100000 ≤ a) →
          (∀ c ∈ coresOf s lid, (shareOf s c lid).units ≤ 128 ∧ ∀ e ∈ (coreOf s c).images, e.1 < 32) →
          let word := fun (a : Nat) => leNat (devBytes t a 4)
          (∀ k w a, waveOf s k = some w → w.lid = lid → w.st = .stopped → waveArea s k w = some a →
            let m := w.stopping.getD allLive
            word a = (stopPc w).toNat ∧ word (a + 4) = 6 + (if w.sup then 8 else 0) + 16 * waitCode w ∧ leNat (devBytes t (a + 8) 8) = m.toNat ∧
            (∀ n x, n < 64 → m.getLsbD (16 + n / 8) = true → Tab.find w.s n = some x → x.und = false →
              leNat (devBytes t (a + 0x100 + 8 * n) 8) = x.val.toNat) ∧
            (∀ n x, 1 ≤ n → n < 16 → m.getLsbD (24 + n) = true → Tab.find w.k n = some x → x.und = 0 → word (a + 0x340 + 4 * n) = x.val.toNat) ∧
            (∀ n x i, n < 64 → i < 32 → m.getLsbD (n / 8) = true → Tab.find w.a n = some x → x.und.getLsbD i = false →
              word (a + 0x1000 + 128 * n + 4 * i) = (x.val.at i).toNat) ∧
            (∀ n x i, n < 64 → i < 32 → m.getLsbD (8 + n / 8) = true → Tab.find w.b n = some x → x.und.getLsbD i = false →
              word (a + 0x3000 + 128 * n + 4 * i) = (x.val.at i).toNat)) ∧
          (∀ c a, c ∈ coresOf s lid → coreArea s c lid = some a →
            let x := coreOf s c
            devBytes t (a + 0x400) 1024 = msBytes s c lid ∧ devBytes t (a + 0x800) 1024 = dictBytes (dictList x lid) ∧
            devBytes t (a + 0xC00) 256 = tableBytes s c lid ∧
            (∀ p n i j rows v, x.tile = some (lid, p) → i < 32 → j < 32 → Tab.find rows i = some v → v.und.getLsbD j = false →
              (n < 16 → n ∈ keptTiles s c lid p → Tab.find x.accs n = some rows → word (a + 0x1000 + 4096 * n + 128 * i + 4 * j) = (v.val.at j).toNat) ∧
              (n < 8 → 16 + n ∈ keptTiles s c lid p → Tab.find x.parts n = some rows →
                word (a + 0x11000 + 4096 * n + 128 * i + 4 * j) = (v.val.at j).toNat)) ∧
            (∀ p o img i v, x.tile = some (lid, p) → (entryOf s c o).claimed = true → Tab.find x.images o = some img → i < 4160 → Tab.find img i = some v →
              devByte t (a + 0x19000 + 4160 * o + i) = v) ∧
            ∀ i, i < 6144 * (shareOf s c lid).units → devByte t (a + 0x40000 + i) = getByte x.pad (6144 * (shareOf s c lid).unit + i)))) ∧
      (l.stopping = false ∨ bodyStopped s lid = false ∨ bodyDrained s lid = false → exec (.bodySave lid) s = .refused .notEnabled)) ∧
    (∀ lid (die : BitVec 3) l b r, launchOf s lid = some l → Tab.find s.bodies lid = some b → l.st = .accepted → (dieOf s die.toNat).off = false →
      s.sec.ckpt = none → ((dieOf s die.toNat).granted = l.vf ∨ b.byCkpt = true) → (die.toNat = b.die ∨ mayMigrate l b = true) →
      resumeBody s lid l b die.toNat = some r → (∀ k w, waveOf s k = some w → w.lid ≠ lid) →
      (∀ c ∈ b.cores, (∀ e ∈ c.waves, e.2.lid = lid) ∧ ∀ k ∈ c.dict, k.lid = lid) → exec (.bodyResume lid die) s = .next (bump r) ∧
      (launchEnded r lid = false → ∃ m, launchOf r lid = some m ∧ m.die = die.toNat ∧ m.saved = false ∧ m.stopping = false ∧
        Tab.find r.bodies lid = none ∧ (∀ k w, waveOf s k = some w → waveOf r k = some w) ∧
        (∀ k w, waveOf r k = some w → w.lid = lid → w.preempt = false ∧ w.tok = none ∧ w.age = 0) ∧
        ∀ c ∈ b.cores, ∃ core x sh, core / 32 = die.toNat ∧ x = coreOf r core ∧ Tab.find x.shares lid = some sh ∧ sh.units = c.share.units ∧
          (∀ i, i < 6144 * sh.units → getByte x.pad (6144 * sh.unit + i) = Tab.findD c.pad i 0) ∧
          (∀ p, c.tile = some p → x.tile = some p ∧ x.accs = c.accs ∧ x.parts = c.parts ∧ x.images = c.images ∧ x.table = c.table) ∧
          ∀ e ∈ c.waves, ∃ k v, k / 16 = core ∧ waveOf s k = none ∧ waveOf r k = some v ∧ v.lid = lid ∧ v.party = e.2.party ∧ v.num = e.2.num ∧
            v.st = (if e.2.st = .retired ∨ e.2.st = .carved then e.2.st else e.2.back) ∧ v.wait.isSome = e.2.wait.isSome ∧
            ∀ live, e.2.stopping = some live → v.stopping = none ∧ v.sup = false ∧ v.pc = e.2.pc ∧
              ((∀ c ∈ b.cores, ∀ y ∈ c.waves, ∀ d ∈ b.cores, ∀ z ∈ d.waves, (y.2.party, y.2.num) = (z.2.party, z.2.num) → y = z) →
              (∀ c ∈ b.cores, ∀ y ∈ c.waves, y.1 / 512 = die.toNat ∨ ((∀ a ∈ (dieOf s die.toNat).areas, a.1 ≠ lid) ∧
                ∀ a, waveArea s y.1 y.2 = some a → a < Config.nearBase (y.1 / 512 + 1) - 32768)) →
              ∀ a, waveArea s e.1 e.2 = some a → (waveArea r k v).isSome = true →
                let word := fun (o : Nat) => BitVec.ofNat 32 (leNat (devBytes s (a + o) 4))
                v.live = word 0x340 ∧
                (∀ n, n < 64 → Tab.find v.s n = some (if live.getLsbD (16 + n / 8) = true then
                  { val := BitVec.ofNat 64 (leNat (devBytes s (a + 0x100 + 8 * n) 8)), und := false } else SReg.undef)) ∧
                (∀ n, 1 ≤ n → n < 16 → Tab.find v.k n = some (if live.getLsbD (24 + n) = true then { val := word (0x340 + 4 * n), und := 0 }
                  else { val := 0, und := BitVec.allOnes 32 })) ∧
                (∀ n, n < 64 → Tab.find v.a n = if live.getLsbD (n / 8) = true then
                  some { val := Lanes.of fun i => word (0x1000 + 128 * n + 4 * i.val), und := 0 } else none) ∧
                ∀ n, n < 64 → Tab.find v.b n = if live.getLsbD (8 + n / 8) = true then
                  some { val := Lanes.of fun i => word (0x3000 + 128 * n + 4 * i.val), und := 0 } else none)))

/-- BREAKPOINTS, HALTS AND RESUMING FROM THEM (R280, R281, R306): a BKPT in a slot that the debugger marked, and a halt request at a wave's
next issue opportunity, its next bundle waiting for nothing, halt the wave, BKPT with cause 0x11, its code and the bundle after it as the
one to resume at; a halt closes the windows and writes the wave's area. The debug register acts on the selected slot, only in the debug-unlocked state and only under a token that
allows halts; clearing the halt bit gives a halted wave back the state in which it was halted, with the pc, the live mask and the s registers that its
area holds. -/
def Obligations.BreakpointsAndHalts : Prop :=
  ∀ s : State,
    (∀ (w : Wave) (c : BitVec 8), Issuing s w → w.sup = false → s.cur.wid ∈ s.sec.bkhalt →
      ∃ t v, exec (.bkpt c) s = .next t ∧ waveOf t s.cur.wid = some v ∧ v.st = .halted ∧ v.back = w.st ∧ v.pc = s.cur.next ∧
        v.trapcause = BitVec.ofNat 64 (0x11 + 65536 * c.toNat) ∧ v.wins = [] ∧ v.live = w.live ∧ v.sup = false) ∧
    (∀ wid w, waveOf s wid = some w →
      let can := wid ∈ s.sec.halt ∧ (w.st = .running ∨ w.st = .handler) ∧ w.waitCnt = 0 ∧ w.stopping = none ∧
        (w.exiting = false ∨ w.sup = true) ∧ inInvpg s wid = false ∧
        heldNow s wid w = false
      (¬ can → exec (.waveHalt wid) s = .refused .notEnabled) ∧
      (can → ∃ t v, exec (.waveHalt wid) s = .next t ∧ waveOf t wid = some v ∧ v.st = .halted ∧ v.back = w.st ∧ v.wins = [] ∧ v.pc = w.pc ∧
        v.live = w.live ∧ v.sup = w.sup ∧ (∀ k, k ≠ wid → waveOf t k = waveOf s k) ∧
        ∀ loc, waveArea s wid w = some loc → leNat (devBytes t loc 4) = w.pc.toNat ∧
          (∀ x, x < loc ∨ loc + 32768 ≤ x → ByteKept s t x) ∧
          ∀ n, n < 64 → (Tab.findD v.s n SReg.init).und = false →
            leNat (devBytes t (loc + 0x100 + 8 * n) 8) = (Tab.findD v.s n SReg.init).val.toNat)) ∧
    (∀ val : DWord, let wid := s.sec.dbgSel
      let allowed := s.sec.lc = 2 ∧ s.sec.dbgPerm % 2 = 1
      (val.getLsbD 0 = true → (¬ allowed → exec (.debugHaltRequest val) s = .next (bump s)) ∧
        (allowed → ∃ t, exec (.debugHaltRequest val) s = .next t ∧ t.waves = s.waves ∧ t.mem = s.mem ∧ wid ∈ t.sec.halt ∧
          (∀ k, k ≠ wid → (k ∈ t.sec.halt ↔ k ∈ s.sec.halt)) ∧ (wid ∈ t.sec.bkhalt ↔ val.getLsbD 1 = true))) ∧
      (val.getLsbD 0 = false → (¬ allowed → exec (.debugResume val) s = .next (bump s)) ∧
        (allowed → ∃ t, exec (.debugResume val) s = .next t ∧ wid ∉ t.sec.halt ∧ t.mem = s.mem ∧
          (∀ k, k ≠ wid → waveOf t k = waveOf s k) ∧ (wid ∈ t.sec.bkhalt ↔ val.getLsbD 1 = true) ∧
          (∀ w, waveOf s wid = some w → w.st = .halted → ∃ v, waveOf t wid = some v ∧ v.st = w.back ∧ v.sup = w.sup ∧ v.wins = w.wins ∧
            ∀ loc, waveArea s wid w = some loc → v.pc.toNat = leNat (devBytes s loc 4) ∧ v.live.toNat = leNat (devBytes s (loc + 0x340) 4) ∧
              ∀ n, n < 64 → (Tab.findD v.s n SReg.init).val.toNat = leNat (devBytes s (loc + 0x100 + 8 * n) 8)) ∧
          (∀ w, waveOf s wid = some w → w.st ≠ .halted → waveOf t wid = some w))))

/-! ### Packets -/

/-- PACKETS THAT WAIT, SIGNAL AND REPORT (R248, R249, R254, R255): NOPKT completes; MARK and TIMESTAMP and ENERGY write their 8 bytes at the address that
they name and nothing else of memory; GATECFG sets or raises a gate once every earlier launch has ended and waves that the gate has let go are awake, with a raise of the
Steward in the same tick to the larger of the sum and GCOUNT, which is the model's choice (log 58: R254 speaks of GOPEN only); HOSTCOPY moves its bytes between
the host's memory and far memory; WAITMARK completes when its location meets its condition, and otherwise reads it again after
1,200 ticks, by the packet as it was read and checked. A packet with a reserved byte that is not 0 is rejected with 0x40, one whose address does not translate with 0x47. -/
def Obligations.PacketsSignalAndReport : Prop :=
  ∀ (s : State) (id : QId) (q : Queue) (p : List Byte),
    let at_ (o n : Nat) : Nat := leNat ((p.drop o).take n)
    let now := s.now / 105
    let writes (i : Instr) (va n off : Nat) (val : Nat) : Prop :=
      (∀ loc, LiesAt s q.asid va n loc false true → ∃ t, exec i s = .next t ∧ PacketEnds t id q ∧ leNat (devBytes t loc n) = val ∧
        (∀ x, x < loc ∨ loc + n ≤ x → ByteKept s t x) ∧ t.waves = s.waves ∧ t.hostMem = s.hostMem) ∧
      (∀ u, asidSpans true 0 q.asid false true (rangeCuts va n) (served s id) = (none, u) → ∃ t, exec i s = .next t ∧ PacketFaults u id q 0x47 off t)
    (PacketRead s id 9 q p → (ZeroBytes p 4 64 → ∃ t, exec (.nopkt id) s = .next t ∧ PacketEnds t id q ∧ t.mem = s.mem ∧ t.waves = s.waves) ∧
      (∀ o, 4 ≤ o → o < 64 → ZeroBytes p 4 o → pByte p o ≠ 0 → ∃ t, exec (.nopkt id) s = .next t ∧ PacketFaults (served s id) id q 0x40 o t)) ∧
    (PacketRead s id 3 q p → ZeroBytes p 4 8 → ZeroBytes p 24 64 → at_ 8 8 % 8 = 0 →
      (q.done ≠ q.head → exec (.mark id) s = .refused .notEnabled) ∧ (q.done = q.head → writes (.mark id) (at_ 8 8) 8 8 (at_ 16 8))) ∧
    (PacketRead s id 6 q p → ZeroBytes p 4 8 → ZeroBytes p 16 64 → writes (.timestamp id) (at_ 8 8) 8 8 (s.now / 105 % 2 ^ 64)) ∧
    (PacketRead s id 7 q p → ZeroBytes p 4 8 → ZeroBytes p 16 64 → writes (.energy id) (at_ 8 8) 8 8 ((funcOf s (qKey id / 64)).energy % 2 ^ 64)) ∧
    (PacketRead s id 5 q p → ZeroBytes p 4 8 → ZeroBytes p 10 12 → ZeroBytes p 16 64 → pByte p 8 ≤ 63 → pByte p 9 ≤ 1 →
      (launchesDone s (qKey id) = false ∨ gateSettled s (64 * qKey id + pByte p 8) = false → exec (.gatecfg id) s = .refused .notEnabled) ∧
      (launchesDone s (qKey id) = true → gateSettled s (64 * qKey id + pByte p 8) = true → ∃ t, exec (.gatecfg id) s = .next t ∧ PacketEnds t id q ∧ t.mem = s.mem ∧ t.waves = s.waves ∧
        (∀ g, g ≠ pByte p 8 → gateOf (queueOf t (qKey id)) g = gateOf q g) ∧
        (pByte p 9 = 0 → (gateOf (queueOf t (qKey id)) (pByte p 8)).toNat = at_ 12 4) ∧
        (pByte p 9 = 1 → (∀ x, Tab.find q.raised (pByte p 8) = some x → x.1 ≠ now) →
          (gateOf (queueOf t (qKey id)) (pByte p 8)).toNat = min ((gateOf q (pByte p 8)).toNat + at_ 12 4) (2 ^ 32 - 1)) ∧
        (∀ v g, pByte p 9 = 1 → Tab.find q.raised (pByte p 8) = some (now, v, g) → g < 2 ^ 32 →
          (gateOf (queueOf t (qKey id)) (pByte p 8)).toNat = max (min (v + at_ 12 4) (2 ^ 32 - 1)) g))) ∧
    (PacketRead s id 8 q p → ZeroBytes p 4 8 → ZeroBytes p 33 64 → 1 ≤ at_ 24 8 → at_ 24 8 ≤ 2 ^ 32 →
      (pByte p 32 = 0 → writes (.hostcopy id) (at_ 16 8) (at_ 24 8) 16 (leNat (getBytes s.hostMem (at_ 8 8) (at_ 24 8)))) ∧
      (∀ loc, pByte p 32 = 1 → LiesAt s q.asid (at_ 8 8) (at_ 24 8) loc true false → ∃ t, exec (.hostcopy id) s = .next t ∧ PacketEnds t id q ∧
        t.mem = s.mem ∧ t.waves = s.waves ∧ getBytes t.hostMem (at_ 16 8) (at_ 24 8) = devBytes s loc (at_ 24 8) ∧
        ∀ x, x < at_ 16 8 ∨ at_ 16 8 + at_ 24 8 ≤ x → getByte t.hostMem x = getByte s.hostMem x)) ∧
    (∀ loc (i : Instr), ((PacketRead s id 4 q p ∧ ZeroBytes p 4 8 ∧ ZeroBytes p 25 64 ∧ pByte p 24 ≤ 1 ∧ i = .waitmark id) ∨
        (q = queueOf s (qKey id) ∧ q.st = .running ∧ s.sec.ckpt = none ∧ s.sec.recov = false ∧
          (∃ n, q.poll = some (n, p) ∧ n ≤ now) ∧ i = .waitmarkPoll id)) →
      LiesAt s q.asid (at_ 8 8) 8 loc true false →
      let holds_ := if pByte p 24 = 0 then at_ 16 8 ≤ leNat (devBytes s loc 8) else leNat (devBytes s loc 8) = at_ 16 8
      (holds_ → ∃ t, exec i s = .next t ∧ PacketEnds t id q ∧ t.mem = s.mem ∧ t.waves = s.waves) ∧
      (¬ holds_ → ∃ t, exec i s = .next t ∧ queueOf t (qKey id) = { q with poll := some (now + 1200, p) } ∧ t.mem = s.mem ∧
        t.waves = s.waves)) ∧
    (∀ n, q = queueOf s (qKey id) → q.poll = some (n, p) → now < n ∨ s.sec.ckpt.isSome = true → exec (.waitmarkPoll id) s = .refused .notEnabled)

/-- LAUNCH AND ROUTE PACKETS (R169, R248, R250 to R253, R259, R260): a LAUNCH that the Steward's checks pass is accepted, with the handler table as
it stands and the highest of the three fidelity levels; one that they reject leaves no launch and a faulted queue. That the fields are checked first, in the
order of their offsets, each failing at its own offset, and that of an image's FIDELITY byte the low two bits count, is the model's choice (log 31). A ROUTE waits for its LAUNCH packets to be written; when every stage and every binding passes, all of
its launches are accepted in order, each binding is a stream, and all of its packets are consumed; a stage that fails rejects the whole
route with 0x46 at the packet and offset at which the stage failed (the order of the stages' checks: log 31). -/
def Obligations.LaunchesAndRoutesAccepted : Prop :=
  ∀ (s : State) (id : QId) (q : Queue) (p : List Byte),
    let k := qKey id
    let vf := id.vf.toNat
    (PacketRead s id 1 q p → pByte p 37 = 0 →
      let r := judgeLaunch (served s id) vf id.q.toNat q.head.toNat q p
      (∀ o, firstBad (launchFields (served s id) vf q.rev p) = some o → r.1 = .bad 0x41 o) ∧
      (∀ l, r.1 = .ok l → ∃ t u, exec (.launch id) s = .next t ∧ launchOf t s.nextId = some l ∧ t.nextId = s.nextId + 1 ∧ u = queueOf t k ∧
        u.head = q.head + 1 ∧ u.done = q.done ∧ l.vf = vf ∧ l.q = id.q.toNat ∧ l.pkt = q.head.toNat ∧ l.asid = q.asid ∧ l.p = lpktOf p ∧
        l.st = .accepted ∧ l.placed = 0 ∧ l.htab.en = (funcOf s vf).hen ∧ l.htab.entries = (funcOf s vf).hentry ∧
        l.level = max (if q.rev = 4 then l.p.fidel else 3) (max (l.img.hdr.fidelity % 4) (funcOf s vf).floor) ∧ t.waves = s.waves ∧ t.mem = s.mem) ∧
      (∀ c d, r.1 = .bad c d → ∃ t, exec (.launch id) s = .next t ∧ t.launches = s.launches ∧ (queueOf t k).fault = true ∧
        (queueOf t k).st = .faulted ∧ (queueOf t k).head = q.head ∧ t.waves = s.waves)) ∧
    (PacketRead s id 1 q p → pByte p 37 ≠ 0 → ∃ t, exec (.launch id) s = .next t ∧ t.launches = s.launches ∧ (queueOf t k).fault = true) ∧
    (PacketRead s id 2 q p → firstBad (routeFields p) = none →
      (s.routes.any fun e => queueKey e.2.vf e.2.q == k && e.2.tag == pByte p 8) = false →
      let n := pByte p 10
      ((q.tail - q.head).toNat < 1 + n → exec (.route id) s = .refused .notEnabled) ∧
      (∀ ls s1 bb s2 bs, 1 + n ≤ (q.tail - q.head).toNat →
        judgeStages vf id.q.toNat q (pByte p 8) (pByte p 9) q.head.toNat (List.range n) (served s id) = (.inl ls, s1) →
        asidRead s1 true 0 q.asid (leNat ((p.drop 16).take 8)) (16 * pByte p 11) = (some bb, s2) →
        (entriesOf 16 (pByte p 11) bb).map (bindOf n) = bs.map some → bindTwice bs = false → bs.all (ringOk ls) = true →
        ∃ t r, exec (.route id) s = .next t ∧ ls.length = n ∧ (∀ i l, ls[i]? = some l → launchOf t (s.nextId + i) = some l ∧ l.st = .accepted) ∧
          (queueOf t k).head = q.head + BitVec.ofNat 32 (1 + n) ∧ (∃ e, Tab.find t.routes e = some r) ∧ r.tag = pByte p 8 ∧
          r.lids = (List.range n).map (s.nextId + ·) ∧ t.nextId = s.nextId + n + bs.length + 1 ∧ t.waves = s.waves ∧ t.mem = s.mem) ∧
      (∀ m d s1, 1 + n ≤ (q.tail - q.head).toNat →
        judgeStages vf id.q.toNat q (pByte p 8) (pByte p 9) q.head.toNat (List.range n) (served s id) = (.inr (m, d), s1) →
        ∃ t, exec (.route id) s = .next t ∧ t = bump (faultQueue s1 k m 0x46 0xFF 0xFF 0xFF 0 d)))

/-! ### The host -/

/-- QUEUES UNDER THE HOST'S HAND (R246 to R248, R250, R274): enabling stores the fields of QCTL and starts an empty queue where they pass, and leaves it
disabled where they do not; disabling leaves its launches alone; a doorbell moves TAIL of an enabled queue and nothing of another;
a reset of a faulted queue ends its launches, empties the ring up to TAIL and lets it run again. That it leaves a queue disabled whose EN is 0 and
does nothing to a queue that has not faulted is the model's choice (log 18); nor does it anything where the registers do not answer.
HOST ACCESSES, TABLES AND REGISTERS (R10, R176, R206, R242, R264, R269, R272, R284, R287, R296 to R298): a host write to far memory changes exactly
its bytes and a read none, the debugger writes the area of a halted wave, and elsewhere the access faults; each register block takes its
fields once boot has ended; a write to a register for which the manual names a step is that step; and FWCTL.GO reads 1 while a push runs. The
numbers above far memory by which the debugger's access names near memory are the model's (log 43); that clearing a LIMIT bit ends the hold and leaves the slice's count
of limited steps (log 54), and that a write of FWIN leaves the offsets to the next interval (log 29), are its choices, and so is that a write to an offset which no register
names does nothing (log 36). -/
def Obligations.HostWrites : Prop :=
  (∀ (s : State) (id : QId),
    let k := qKey id
    let q := queueOf s k
    (∀ val : DWord, q.en = false → val.getLsbD 0 = true → s.sec.stage = 5 → s.sec.recov = false →
      let rev := val.toNat / 2 ^ 16 % 2 ^ 8
      let size := val.toNat / 2 ^ 4 % 2 ^ 4
      let asid := val.toNat / 2 ^ 24 % 2 ^ 16
      let good := (rev = 3 ∨ rev = 4) ∧ 4 ≤ size ∧ asdtValid (asdtEntry s asid) = true ∧ asdtVf (asdtEntry s asid) = id.vf.toNat ∧
        launchesDone s k = true
      ∃ t u, exec (.queueEnable id val) s = .next t ∧ u = queueOf t k ∧ u.rev = rev ∧ u.log2 = size ∧ u.asid = asid ∧ t.mem = s.mem ∧
        t.waves = s.waves ∧ u.addr = q.addr ∧ u.loc = q.loc ∧
        (good → u.en = true ∧ u.st = .running ∧ u.head = 0 ∧ u.tail = 0 ∧ u.done = 0 ∧ ∀ g, gateOf u g = 0) ∧ (¬ good → u.en = false ∧ u.st = q.st)) ∧
    (q.en = true → s.sec.recov = false → exec (.queueDisable id) s = .next (bump (setQueue s k { q with en := false, st := .disabled, poll := none }))) ∧
    (q.en = false → exec (.queueDisable id) s = .refused .notEnabled) ∧
    (∀ tail, (q.en = true → s.sec.recov = false → exec (.qtailDoorbell id tail) s = .next (bump (setQueue s k { q with tail := tail }))) ∧
      (q.en = false → exec (.qtailDoorbell id tail) s = .next (bump s))) ∧
    (q.fault = false ∨ answers s = false → exec (.queueReset id) s = .next (bump s)) ∧
    (q.fault = true → answers s = true → ∃ t u, exec (.queueReset id) s = .next t ∧ u = queueOf t k ∧ u.fault = false ∧ u.head = q.tail ∧ u.done = q.tail ∧ u.tail = q.tail ∧
      u.st = (if q.en then .running else .disabled) ∧ (∀ g, gateOf u g = 0) ∧
      ∀ lid l, launchOf t lid = some l → queueOfLaunch l = k → l.st ≠ .accepted)) ∧
  (∀ s : State,
    (∀ a : HostAcc, s.sec.stage = 5 → s.sec.recov = false →
      (a.write = true → a.addr + a.data.length ≤ Config.farSize → ∃ t, exec (.hostMemAccess a) s = .next t ∧ t.waves = s.waves ∧
        devBytes t (Config.farBase + a.addr) a.data.length = a.data ∧
        ∀ x, x < Config.farBase + a.addr ∨ Config.farBase + a.addr + a.data.length ≤ x → ByteKept s t x) ∧
      (a.write = true → Config.farSize ≤ a.addr → inHaltedArea s (a.addr - Config.farSize) a.data.length = true → ∃ t,
        exec (.hostMemAccess a) s = .next t ∧ t.waves = s.waves ∧ devBytes t (a.addr - Config.farSize) a.data.length = a.data ∧
        ∀ x, x < a.addr - Config.farSize ∨ a.addr - Config.farSize + a.data.length ≤ x → ByteKept s t x) ∧
      (a.write = true → Config.farSize < a.addr + a.data.length →
        (a.addr < Config.farSize ∨ inHaltedArea s (a.addr - Config.farSize) a.data.length = false) → exec (.hostMemAccess a) s = .fault (.noSuchAddress a.addr)) ∧
      (a.write = false → a.addr + a.len ≤ Config.farSize → ∃ t, exec (.hostMemAccess a) s = .next t ∧ t.mem = s.mem ∧ t.waves = s.waves)) ∧
    (∀ (n : BitVec 4) (val : DWord), answers s = true → ∃ t, exec (.biasTableWrite n val) s = .next t ∧
      (biasStores s (biasWith s n.toNat val) = [] → t.mem = s.mem ∧ t.waves = s.waves ∧ biasBusy t = biasBusy s) ∧
      ∀ g, g ∈ t.bias ↔ if g / 64 = n.toNat then val.getLsbD (g % 64) = true else g ∈ s.bias) ∧
    (∀ loc, loc < Config.devSize → ∃ t, exec (.eccErrorNoConsumer loc) s = .next t ∧ t.mem = s.mem ∧ t.waves = s.waves ∧ t.ecc = loc / 32 :: s.ecc ∧
      t.eccLog = s.eccLog ++ [{ loc := loc, at_ := s.now / 105 }]) ∧
    (∀ die mask : BitVec 3, answers s = true → ∃ t, exec (.sliceLimitClear die mask) s = .next t ∧
      (dieOf t die.toNat).limit = (dieOf s die.toNat).limit &&& ~~~mask ∧ t.waves = s.waves ∧ t.mem = s.mem ∧
      ∀ c n, c / 32 = die.toNat → n < 4 → (coreOf t c).slices.getD n Slice.init =
        let x := (coreOf s c).slices.getD n Slice.init
        if mask.getLsbD n && (dieOf s die.toNat).limit.getLsbD n then { x with held := none } else x) ∧
    (∀ (die : BitVec 3) (val : DWord), answers s = true → exec (.fwinWrite die val) s = .next (bump (modDie s die.toNat fun d =>
      { d with minoff := val.toNat / 2 ^ 8 % 2 ^ 8, maxoff := min (val.toNat % 2 ^ 8) 40 }))) ∧
    (∀ (die : BitVec 3) (val : DWord), answers s = true → ∃ t, exec (.sensorRevalidate die val) s = .next t ∧ t.waves = s.waves ∧ t.cores = s.cores ∧
      (∀ n x, Tab.find (dieOf s die.toNat).thermal n = some x → Tab.find (dieOf t die.toNat).thermal n =
        some (if val.getLsbD n && !x.valid then { x with rearm := true } else x)) ∧
      (∀ n x, Tab.find (dieOf s die.toNat).current n = some x → Tab.find (dieOf t die.toNat).current n =
        some (if val.getLsbD (32 + n) && !x.valid then { x with rearm := true } else x))) ∧
    (∀ (die : BitVec 3) (val : DWord), answers s = true → ∃ t, exec (.clbudWrite die val) s = .next t ∧ (dieOf t die.toNat).clbud = val.toNat % 2 ^ 32 ∧
      t.cores = s.cores ∧ t.waves = s.waves ∧ (∀ c, c / 8 = die.toNat → (clus t c).allow = min (clus (quietGain s c) c).allow (1024 * (val.toNat % 2 ^ 32) : Nat)) ∧
      ∀ c, c / 8 ≠ die.toNat → clus t c = clus s c) ∧
    (∀ (die : BitVec 3) (v : BitVec 4) (far : Bool) (val : DWord), answers s = true → (tollAt s die.toNat v.toNat far).en = false →
      (val.getLsbD 63 = false → exec (.tollBucketEnable die v far val) s = .refused .notEnabled) ∧
      (val.getLsbD 63 = true → let d := val.toNat / 2 ^ 32 % 2 ^ 24
        ∃ t b, exec (.tollBucketEnable die v far val) s = .next t ∧ b = tollAt t die.toNat v.toNat far ∧ b.en = true ∧ b.depth = d ∧
          b.rate = val.toNat % 2 ^ 32 ∧ b.level = (1024 * (if d = 0 then 1 else d) : Nat) ∧ b.at_ = s.now / 105 ∧
          tollAt t die.toNat v.toNat (!far) = tollAt s die.toNat v.toNat (!far))) ∧
    (∀ (die lo hi : BitVec 3) (v : BitVec 4), answers s = true → ∃ t, exec (.oppwinWrite die v lo hi) s = .next t ∧
      oppWin t die.toNat v.toNat = (lo.toNat, hi.toNat) ∧ t.waves = s.waves ∧ ∀ c, (coreOf t c).op = (coreOf s c).op) ∧
    (∀ (v : BitVec 4) (val : DWord), val.getLsbD 16 = true → (funcOf s v.toNat).hen = false → s.sec.stage = 5 → s.sec.recov = false →
      let f := modFunc s v.toNat fun f => { f with wd := max 20 (min 32 (val.toNat % 2 ^ 6)) }
      ∃ t u, exec (.handlerTableEnable v val) s = .next t ∧ u = funcOf t v.toNat ∧ u.wd = max 20 (min 32 (val.toNat % 2 ^ 6)) ∧ t.waves = s.waves ∧
        (∀ x, checkHandler f v.toNat (funcOf s v.toNat).himage = some x → u.hen = true ∧ u.hbad = false ∧ u.hcur = some x.1) ∧
        (checkHandler f v.toNat (funcOf s v.toNat).himage = none → u.hen = false ∧ u.hbad = true)) ∧
    (∀ key : BitVec 256, exec (.ideKmKeySet key) s = .next (bump { s with sec := { s.sec with ideSecure := true, ideKey := key } })) ∧
    (answers s = false → ∀ n val die mask v lo hi far, exec (.biasTableWrite n val) s = .next (bump s) ∧ exec (.sliceLimitClear die mask) s = .next (bump s) ∧
      exec (.fwinWrite die val) s = .next (bump s) ∧ exec (.sensorRevalidate die val) s = .next (bump s) ∧
      exec (.clbudWrite die val) s = .next (bump s) ∧ exec (.tollBucketEnable die v far val) s = .next (bump s) ∧
      exec (.oppwinWrite die v lo hi) s = .next (bump s)) ∧
    (s.sec.stage ≠ 1 → hostRead s none 7 0x18 =
      some (BitVec.ofNat 64 (s.sec.result * 2 ^ 32 + s.sec.len * 2 + if s.sec.go.isSome then 1 else 0))) ∧
    (s.sec.stage = 5 → s.sec.recov = false → ∀ (val : DWord) (v : BitVec 4) (die : BitVec 3) (n : BitVec 6),
      let wr (vf : Option (BitVec 4)) (cap : BitVec 16) (off : Nat) : Out := exec (.registerWrite { vf := vf, cap := cap, off := off, val := val }) s
      wr (some v) 1 (0x40 * n.toNat + 0x10) = exec (.qtailDoorbell ⟨v, n⟩ (val.truncate 32)) s ∧
      wr none 8 (0x80 * die.toNat + 8) = exec (.fwinWrite die val) s ∧ wr none 5 (0x10 + 8 * die.toNat) = exec (.clbudWrite die val) s ∧
      wr none 6 (0x200 + 8 * die.toNat) = exec (.sensorRevalidate die val) s ∧
      wr none 9 0 = .next (bump { s with trbase := val.toNat / 2 ^ 23 % 2 ^ 17 * 2 ^ 23, tren := val.getLsbD 0 }) ∧
      wr none 7 0x30 = .next (bump { s with sec := { s.sec with arg1 := val } }) ∧ wr (some v) 2 0 = .next (bump s)))

/-! ### Power and sensors -/

/-- OPERATING POINTS, ALLOWANCE, THROTTLE AND CAPS (R42, R47, R285, R287 to R289, R291): a transition's first phase gives way to its second after its time, and
the second to the new point; each cycle of a cluster credits CLBUD × F / 256 pJ up to four times CLBUD; ALLOW falls after 1,024 cycles at the
budget or above and RAMP every 256 cycles; the fill-down takes eight levels of 300 ticks; F follows the measurements; a wave withheld for
192 cycles becomes exempt, and a yielded mark ends after 1,024 cycles. -/
def Obligations.PowerControlsMove : Prop :=
  ∀ s : State,
    (∀ core x t, coreOf s core = x → x.trans = some t →
      (t.phase2 = false → t.end_ ≤ s.now → exec (.oppPhaseEnd core) s = .next (bump (setCore s core { x with
        trans := some { t with phase2 := true, end_ := t.end_ + if t.up then 48 * Config.period x.op else 150 * 126 } }))) ∧
      (t.phase2 = true ∨ s.now < t.end_ → exec (.oppPhaseEnd core) s = .refused .notEnabled) ∧
      (t.phase2 = true → t.end_ ≤ s.now → ∃ u, exec (.oppTransitionEnd core) s = .next u ∧ (coreOf u core).op = t.target ∧ u.waves = s.waves ∧
        (∀ c, c ≠ core → coreOf u c = coreOf s c) ∧ (targetOf s core = t.target → (coreOf u core).trans = none) ∧
        (targetOf s core ≠ t.target → ∃ v, (coreOf u core).trans = some v ∧ v.target = targetOf s core ∧ v.phase2 = false)) ∧
      (t.phase2 = false ∨ s.now < t.end_ → exec (.oppTransitionEnd core) s = .refused .notEnabled)) ∧
    (∀ cl, let x := clus s cl
      let b := (dieOf s (cl / 8)).clbud
      (x.due = 0 → exec (.allowanceGain cl) s = .refused .notEnabled) ∧
      (x.due ≠ 0 → exec (.allowanceGain cl) s = .next (bump (setClus s cl { x with
        due := x.due - 1
        allow := min (x.allow + b * s.caps.f) (1024 * b) })))) ∧
    (∀ core, let x := coreOf s core
      (x.allow ≠ 0 → 1024 ≤ x.above → exec (.allowStep core) s = .next (bump (setCore s core { x with allow := x.allow - 1, above := 0 }))) ∧
      (x.allow = 0 ∨ x.above < 1024 → exec (.allowStep core) s = .refused .notEnabled) ∧
      (x.ramp ≠ 0 → 256 < x.rampCyc → exec (.rampStep core) s = .next (bump (setCore s core { x with ramp := x.ramp - 1, rampCyc := 1 }))) ∧
      (x.ramp = 0 ∨ x.rampCyc ≤ 256 → exec (.rampStep core) s = .refused .notEnabled) ∧
      (x.filling = none → x.lastKind ≠ 0 → (arrayWork x = false ∨ x.fillFor ≠ x.tile ∨ (pilotPaused s core = true ∧ pilotAtRest x = true)) → exec (.arrayFillDown core) s =
        .next (bump (setCore s core { x with filling := some 1, lastArray := s.now / 105 }))) ∧
      (∀ n, x.filling = some n → s.now / 105 < x.lastArray + 300 → exec (.arrayFillDown core) s = .refused .notEnabled) ∧
      (∀ n, x.filling = some n → x.lastArray + 300 ≤ s.now / 105 →
        (n < 8 → exec (.arrayFillDown core) s = .next (bump (setCore s core { x with filling := some (n + 1), lastArray := x.lastArray + 300 }))) ∧
        (8 ≤ n → exec (.arrayFillDown core) s = .next (bump (setCore (quietGain s (core / 4)) core
          { x with filling := none, lastKind := 0, fillFor := none, ramp := 7, rampCyc := 0 }))))) ∧
    (∀ pwr, let c := s.caps
      let e := (pwr :: c.e1).take 1000000
      let e10 := (e.take 10).sum
      (s.now / 105 < (c.made + 1) * 1200 → exec (.capMeasurement pwr) s = .refused .notEnabled) ∧
      ((c.made + 1) * 1200 ≤ s.now / 105 → ∃ t, exec (.capMeasurement pwr) s = .next t ∧ t.caps.e1 = e ∧ t.caps.made = c.made + 1 ∧ t.caps.pwr = pwr ∧
        t.caps.avg = c.avg ∧ t.caps.peak = c.peak ∧ t.waves = s.waves ∧ t.cores = s.cores ∧
        (c.peak * 10 < e10 → t.caps.f = max (c.f / 2) 1) ∧
        (e10 ≤ c.peak * 10 → (c.peak * 10 * 15 < 16 * e10 ∨ c.avg * 1000000 * 15 < 16 * e.sum) → t.caps.f = max (c.f - 16) 1) ∧
        (8 * e10 < c.peak * 10 * 7 → 8 * e.sum < c.avg * 1000000 * 7 → t.caps.f = min (c.f + 1) 256))) ∧
    (∀ wid w, waveOf s wid = some w →
      (192 ≤ w.withheld → w.exempt = false → exec (.powerExempt wid) s = .next (bump (setWave s wid { w with exempt := true }))) ∧
      (w.withheld < 192 ∨ w.exempt = true → exec (.powerExempt wid) s = .refused .notEnabled) ∧
      (∀ y, w.yielded = some y → 1024 ≤ y.age → exec (.yieldMarkExpiry wid) s = .next (bump (setWave s wid { w with yielded := none }))) ∧
      ((∀ y, w.yielded = some y → y.age < 1024) → exec (.yieldMarkExpiry wid) s = .refused .notEnabled))

/-- DROOP, SLICE RAILS, SENSORS AND SAMPLES (R174, R284, R293, R295, R296): an alarm stretches six cycles of each core of its cluster, restarts a halving and is ignored
while stretching; 64 halved cycles in fresh pairs follow the stretch; the rail loop integrates the detections of an undervolted slice that has worked against their expectation and moves the offset of the core's
point by one step, within its window, or counts a limited step, the sixteenth of which holds the slice on the core rail for the tile party; a sample is checked and a die with more than two invalid sensors is held;
at each grid point every core in use takes a sample and begins the next, and a launch that has drawn energy or had traffic since the last is charged with its function.
The model's choices: the offset stepped is that of the point in force at the interval's end, and offsets outside the window move to its edge also with LOOPEN 0 (log 54);
a sensor's first sample passes the checks that need an earlier one (log 9); the energy of a sample is a free value (log 19). -/
def Obligations.DetectorsAndSensorsAct : Prop :=
  ∀ s : State,
    (∀ cl, ∃ t, exec (.droopAlarm cl) s = .next t ∧ t.waves = s.waves ∧ t.mem = s.mem ∧ (∀ c, c / 4 ≠ cl → coreOf t c = coreOf s c) ∧
      let now := fun c => coreOf (catchUp s c) c
      (∀ c, c / 4 = cl → coreOf t c = match (now c).stretch, (now c).halve with
        | some _, _ => now c
        | none, some _ => { now c with halve := some 64 }
        | none, none => { now c with stretch := some 6 }) ∧
      ((∃ c, c / 4 = cl ∧ (now c).stretch = none) → (clus t cl).alarms.toNat = min ((clus s cl).alarms.toNat + 1) (2 ^ 32 - 1)) ∧
      ((∀ c, c / 4 = cl → (now c).stretch ≠ none) → (clus t cl).alarms = (clus s cl).alarms)) ∧
    (∀ cl, let due := ∃ c, c / 4 = cl ∧ (coreOf s c).stretch = some 0
      (¬ due → exec (.droopStretchEnd cl) s = .refused .notEnabled) ∧
      (due → ∃ t, exec (.droopStretchEnd cl) s = .next t ∧ t.waves = s.waves ∧ ∀ c, coreOf t c =
        if c / 4 = cl ∧ (coreOf s c).stretch = some 0 then { coreOf s c with stretch := none, halve := some 64, pair := 0 } else coreOf s c)) ∧
    (∀ cl, let due := ∃ c, c / 4 = cl ∧ (coreOf s c).halve = some 0
      (¬ due → exec (.droopHalvingEnd cl) s = .refused .notEnabled) ∧
      (due → ∃ t, exec (.droopHalvingEnd cl) s = .next t ∧ t.waves = s.waves ∧ ∀ c, coreOf t c =
        if c / 4 = cl ∧ (coreOf s c).halve = some 0 then { coreOf s c with halve := none } else coreOf s c)) ∧
    (∀ core (n : BitVec 2), let c := coreOf s core
      let d := dieOf s (core / 32)
      let x := c.slices.getD n.toNat Slice.init
      let off := max d.minoff (min (x.offs.getD c.op 0) d.maxoff)
      let i := x.int + x.det * 2 ^ 40 - (2 ^ d.texp * x.ops : Nat)
      let runs := n.toNat ∈ undervolted s core (tileLevel s core)
      (n = 3 ∨ s.now / 105 < x.since + 60000 → exec (.sliceRailLoop core n) s = .refused .notEnabled) ∧
      (n ≠ 3 → x.since + 60000 ≤ s.now / 105 → d.minoff ≤ d.maxoff → c.op < x.offs.length → n.toNat < c.slices.length →
        ∃ t y, exec (.sliceRailLoop core n) s = .next t ∧ t.waves = s.waves ∧ t.mem = s.mem ∧
          y = (coreOf t core).slices.getD n.toNat Slice.init ∧ y.ops = 0 ∧ y.det = 0 ∧ y.since = x.since + 60000 ∧
          (d.loopen = false ∨ x.ops = 0 ∨ ¬ runs → y.int = x.int ∧ y.lim = x.lim ∧ y.offs.getD c.op 0 = off) ∧
          (d.loopen = true → x.ops ≠ 0 → runs →
          (4 * 2 ^ 40 ≤ i → y.int = 0 ∧ (d.minoff < off → y.offs.getD c.op 0 = off - 1 ∧ y.lim = 0) ∧
            (off = d.minoff → y.offs.getD c.op 0 = off ∧ y.lim = x.lim + 1)) ∧
          (i ≤ -(4 * 2 ^ 40) → y.int = 0 ∧ y.offs.getD c.op 0 = min (off + 1) d.maxoff ∧ y.lim = 0) ∧
          (-(4 * 2 ^ 40) < i → i < 4 * 2 ^ 40 → y.int = i ∧ y.offs.getD c.op 0 = off ∧ y.lim = x.lim) ∧
          y.held = (if y.lim = 16 then c.tile else x.held) ∧
          (dieOf t (core / 32)).limit.getLsbD n.toNat = (d.limit.getLsbD n.toNat || y.lim == 16)))) ∧
    (∀ x : Sample, let d := dieOf s x.die.toNat
      let n := x.sensor.toNat
      let y := Tab.findD (sensorTab d x.current) n Sensor.init
      (x.current = true → 8 ≤ n → exec (.sensorSample x) s = .refused .notEnabled) ∧
      (x.current = false ∨ n < 8 → ∃ t u z, exec (.sensorSample x) s = .next t ∧ u = dieOf t x.die.toNat ∧ t.waves = s.waves ∧ t.mem = s.mem ∧
        Tab.find (sensorTab u x.current) n = some z ∧ z.last = some x.value ∧ z.lastAt = s.now / 105 ∧ z.rearm = false ∧
        (∀ k, k ≠ n → Tab.find (sensorTab u x.current) k = Tab.find (sensorTab d x.current) k) ∧
        ((if x.current then x.value < 0 ∨ 4000 < x.value else x.value < -400 ∨ 1500 < x.value) → z.valid = false) ∧
        (y.valid = false → y.rearm = false → z.valid = false) ∧
        ((if x.current then 0 ≤ x.value ∧ x.value ≤ 4000 else -400 ≤ x.value ∧ x.value ≤ 1500) → y.last = none →
          (nearMean (sensorTab d x.current) x.current n).2 = 0 → z.valid = (y.valid || y.rearm)) ∧
        (u.held = true ↔ 2 < ((u.thermal ++ u.current).filter fun e => !e.2.valid).length))) ∧
    (s.now / 105 < (s.grid + 1) * 12000 → exec .counterSample s = .refused .notEnabled) ∧
    ((s.grid + 1) * 12000 ≤ s.now / 105 → ∃ t, exec .counterSample s = .next t ∧ t.grid = s.grid + 1 ∧ t.waves = s.waves ∧ t.mem = s.mem ∧
      (∀ c, (coreOf s c).shares = [] → coreOf t c = coreOf s c) ∧
      (∀ c, (coreOf s c).shares ≠ [] → let x := coreOf s c
        let y := coreOf t c
        y.stallSeq = x.stallSeq + 1 ∧ y.smpCyc = 0 ∧ y.smpIssue = 0 ∧ y.smpMem = 0 ∧ y.op = x.op ∧
        (x.smpCyc ≠ 0 → y.stallIssue.toNat = min (x.smpIssue * 65536 / x.smpCyc) 65535 ∧ y.stallMem.toNat = min (x.smpMem * 65536 / x.smpCyc) 65535)) ∧
      ∀ lid l, s.launches = [(lid, l)] → let e := if l.drew then Config.sampleEnergy s.serial lid else 0
        ∃ m, launchOf t lid = some m ∧ m.energy = l.energy + e ∧ (funcOf t l.vf).energy = (funcOf s l.vf).energy + e ∧
          (m.drew = true ↔ (∃ x ∈ s.acc, x.2.lid = lid) ∨ (∃ x ∈ s.copies, x.2.lid = lid) ∨ (∃ x ∈ s.pops, x.2.lid = lid) ∨
            ∃ x ∈ s.streams, ∃ p ∈ x.2.pend, p.lid = lid))

/-! ### Resets and the security processor -/

/-- RESETS AND FIRMWARE (R204, R274, R299 to R301): a device reset leaves nothing resident, the host's memory, the fuses and the flash as they were, and the
boot at a stage or in recovery; a function-level reset kills the function's launches and returns its queues and its handler block to
their reset values; a die in reset is off, has no translation, no line in a cache and no live launch on it; a firmware push starts in recovery only, and
ends with the image taken only where it passes its check. That a push runs for a while before it ends is the model's (log 43). That a device reset goes through the
whole boot order in one step, and leaves device memory zero also where the boot ends in recovery before R300's step 4, is the model's reading (log 13, DEDUCED). -/
def Obligations.ResetsAndFirmware : Prop :=
  ∀ s : State,
    (∃ t, exec .deviceReset s = .next t ∧ t.mem = [] ∧ t.hostMem = s.hostMem ∧ t.waves = [] ∧ t.launches = [] ∧ t.parties = [] ∧ t.queues = [] ∧
      t.cores = [] ∧ t.dies = [] ∧ t.acc = [] ∧ t.copies = [] ∧ t.streams = [] ∧ t.convoys = [] ∧ t.funcs = [] ∧ t.now = 0 ∧
      t.sec.flash = s.sec.flash ∧ t.sec.fused = s.sec.fused ∧ t.sec.blown = s.sec.blown ∧ t.sec.chal = 0 ∧ t.sec.ckpt = none ∧
      (t.sec.stage = 1 ∨ t.sec.stage = 3 ∧ t.sec.recov = true ∨ t.sec.stage = 4 ∧ t.sec.recov = true ∨ t.sec.stage = 5 ∧ t.sec.recov = false) ∧
      (s.sec.blown = true → t.sec.stage = 1 ∨ t.sec.recov = true)) ∧
    (∀ v : BitVec 4, ∃ t, exec (.functionLevelReset v) s = .next t ∧
      (∀ lid l, launchOf t lid = some l → l.vf = v.toNat → l.st ≠ .accepted) ∧ (∀ k, k / 64 = v.toNat → queueOf t k = Queue.init) ∧
      (funcOf t v.toNat).hen = false ∧ (funcOf t v.toNat).himage = 0 ∧ (funcOf t v.toNat).key = none ∧
      (funcOf t v.toNat).weight = (funcOf s v.toNat).weight ∧ (funcOf t v.toNat).floor = (funcOf s v.toNat).floor ∧ t.sec = s.sec ∧
      (∀ k w l, waveOf s k = some w → (∀ m, (w.lid, m) ∈ s.launches → m.vf ≠ v.toNat) → launchOf s w.lid = some l → waveOf t k = some w)) ∧
    (∀ die : BitVec 3, ∃ t, exec (.stageDieReset die) s = .next t ∧ (dieOf t die.toNat).off = true ∧ (dieOf t die.toNat).xlat = [] ∧
      (dieOf t die.toNat).l2 = [] ∧ (dieOf t die.toNat).rdc = [] ∧
      (∀ c, c / 32 = die.toNat → (coreOf t c).atlb = [] ∧ (coreOf t c).l1 = []) ∧ t.sec = s.sec ∧
      (∀ lid l, launchOf t lid = some l → launchOf s lid = some l → l.st = .accepted → l.die = die.toNat → resident s lid = false)) ∧
    (∀ len : BitVec 31,
      (s.sec.stage = 1 → exec (.firmwarePush len) s = .next (bump s)) ∧
      (s.sec.stage ≠ 1 → s.sec.go = none → s.sec.recov = false → exec (.firmwarePush len) s =
        .next (bump { s with sec := { s.sec with len := len.toNat, result := 3 } })) ∧
      (s.sec.stage ≠ 1 → s.sec.go = none → s.sec.recov = true → exec (.firmwarePush len) s =
        .next (bump { s with sec := { s.sec with len := len.toNat, go := some (s.sec.fwsrc.toNat, len.toNat) } })) ∧
      (∀ at_ n, s.sec.stage ≠ 1 → s.sec.go = some (at_, n) →
        let img := getBytes s.hostMem at_ (4096 * n)
        (s.sec.blown = true ∨ firmwareGood s.sec img = false → exec (.firmwarePush len) s =
          .next (bump { s with sec := { s.sec with go := none, result := 2 } })) ∧
        (firmwareGood s.sec img = true → ∃ t, exec (.firmwarePush len) s = .next t ∧ (t.sec.result = 1 ∨ t.sec.stage = 1) ∧ t.sec.go = none ∧
          t.sec.flash = img ∧ (t.sec.recov = false → t.sec.stage = 5 ∨ t.sec.stage = 1) ∧ (t.sec.stage = 5 → t.mem = []))))

/-- COMMANDS OF THE SECURITY PROCESSOR (R302 to R307): while a command runs a new one is ignored; each ends with its status, 3 outside its lifecycle
states and 1 for a bad argument; an image key is measured and kept; a challenge is drawn; an unlock whose token does not check leaves
the part secured, and one whose token checks ends every launch, faults every queue, leaves device memory undefined and enters the debug-unlocked state; a checkpoint first stops every body; a
restored checkpoint must carry the header of its data; decommissioning is final. Measurements and certificates reach the host.
The model's choices: MR3 is extended by the function's number as one byte, before the hash (log 26); the checkpoint begins with its 4,096-byte
header, the data after it (log 27); the lifecycle is checked before the arguments and a command without a number ends with status 1 (log 28). -/
def Obligations.SecurityCommands : Prop :=
  ∀ s : State,
    let x := s.sec
    let serves := x.lc = 1 ∨ x.lc = 2
    let ends (i : Instr) (op : BitVec 8) (st : Nat) : Prop := exec i s = .next (bump { s with sec := { x with op := op, status := st, busy := false } })
    (x.busy = true ∨ x.stage = 1 → ∀ i, i ∈ [Instr.registerImageKey, .newDebugChallenge, .debugUnlock, .restoreFromCheckpoint, .decommission] →
      exec i s = .next (bump s)) ∧
    (x.busy = true ∨ x.stage = 1 → x.ckpt = none → exec .checkpoint s = .next (bump s)) ∧
    (x.busy = false → x.stage ≠ 1 →
      (¬ serves → ends .registerImageKey 1 3 ∧ ends .restoreFromCheckpoint 5 3) ∧
      (serves → 15 < x.arg0.toNat → ends .registerImageKey 1 1) ∧
      (serves → x.arg0.toNat ≤ 15 → let key := getBytes s.hostMem x.arg1.toNat 384
        ∃ t f, exec .registerImageKey s = .next t ∧ f = funcOf t x.arg0.toNat ∧ f.key = some (beNat key) ∧ f.keyid = sha256 key ∧
          t.sec.status = 0 ∧ t.sec.mr[3]? = (x.mr[3]?).map (fun m => extend m (BitVec.ofNat 8 x.arg0.toNat :: hashBytes (sha256 key))) ∧
          t.waves = s.waves ∧ t.mem = s.mem) ∧
      (x.lc ≠ 1 → ends .newDebugChallenge 2 3 ∧ ends .debugUnlock 3 3) ∧
      (x.lc = 1 → exec .newDebugChallenge s =
        .next (bump { s with sec := { x with chal := Config.freshNonce s.serial, op := 2, status := 0, busy := false } })) ∧
      (x.lc = 1 → let tok := getBytes s.hostMem x.arg0.toNat 448
        (tokenGood x tok = false → ends .debugUnlock 3 2) ∧
        (tokenGood x tok = true → ∃ t, exec .debugUnlock s = .next t ∧ t.sec.lc = 2 ∧ t.sec.status = 0 ∧ t.sec.chal = 0 ∧ t.sec.ideSecure = false ∧
          t.sec.dbgPerm = leNat ((tok.drop 48).take 4) ∧ (∀ lid l, launchOf t lid = some l → l.st ≠ .accepted) ∧
          (∀ k, k < 1024 → (queueOf t k).fault = true) ∧ t.mem = [] ∧ t.wiped = [(0, Config.devSize)])) ∧
      (serves → x.arg1.toNat < Config.devSize + 4096 → ends .restoreFromCheckpoint 5 1) ∧
      (serves → Config.devSize + 4096 ≤ x.arg1.toNat →
        let a := x.arg0.toNat
        let good := getBytes s.hostMem a 4096 = (Config.ckptHeader Config.devId ((List.range 1152).map fun g =>
          sha256 (getBytes s.hostMem (a + 4096 + g * 2 ^ 30) (2 ^ 30)))).take 4096
        (¬ good → ends .restoreFromCheckpoint 5 2) ∧
        (good → ∃ t, exec .restoreFromCheckpoint s = .next t ∧ t.sec.status = 0 ∧ t.waves = s.waves ∧
          (Memory.wf s.hostMem = true → ∀ n, n < Config.devSize → devByte t n = getByte s.hostMem (a + 4096 + n)))) ∧
      (x.lc = 3 → ends .decommission 6 3) ∧ (x.lc ≠ 3 → x.arg0 ≠ 0x4445434F → ends .decommission 6 1) ∧
      (x.lc ≠ 3 → x.arg0 = 0x4445434F → ∃ t, exec .decommission s = .next t ∧ t.sec.lc = 3 ∧ t.sec.blown = true ∧ t.sec.recov = true ∧ t.sec.status = 0 ∧
        t.waves = s.waves ∧ t.mem = s.mem) ∧
      (∀ op : BitVec 8, (op = 0 ∨ 6 < op.toNat) → ends (.unknownCommand op) op 1)) ∧
    (x.ckpt = none → x.busy = false → x.stage ≠ 1 →
      (¬ serves → ends .checkpoint 4 3) ∧ (serves → x.arg1.toNat < Config.devSize + 4096 → ends .checkpoint 4 1) ∧
      (serves → Config.devSize + 4096 ≤ x.arg1.toNat → (∃ lid ∈ allBodies s, canStop s lid = false) → ends .checkpoint 4 4) ∧
      (serves → Config.devSize + 4096 ≤ x.arg1.toNat → (∀ lid ∈ allBodies s, canStop s lid = true) → ∃ t, exec .checkpoint s = .next t ∧
        t.sec.busy = true ∧ t.sec.ckpt = some (x.arg0.toNat, allBodies s) ∧ t.mem = s.mem ∧
        ∀ k w l, waveOf s k = some w → launchOf s w.lid = some l → l.st = .accepted → l.stopping = false → w.st ≠ .retired →
          ∃ v, waveOf t k = some v ∧ v.preempt = true)) ∧
    (∀ a, x.ckpt = some (a, []) → ∃ t, exec .checkpoint s = .next t ∧ t.sec.ckpt = none ∧ t.sec.busy = false ∧ t.sec.status = 0 ∧ t.mem = s.mem ∧
      t.waves = s.waves ∧ (Memory.wf s.mem = true → Memory.wf s.hostMem = true → ∀ n, n < Config.devSize → getByte t.hostMem (a + 4096 + n) = devByte s n)) ∧
    (x.blown = false → x.stage ≠ 1 → ∀ nonce, exec (.spdmMeasurements nonce) s = .next (bump { s with
      spdm := s.spdm ++ [.measurements nonce x.mr (Config.identitySign (hashBytes nonce ++ x.mr.flatMap hashBytes))] })) ∧
    (x.stage ≠ 1 → exec .getCertificate s = .next (bump { s with spdm := s.spdm ++ [.certificate Config.certificateChain] }))
end

