-- ==== Sys2Proof/Laws/State.lean ====
section
/-! SUPPORT. What each writer of State leaves alone, one lemma a field, and what its reader then answers. -/

set_option Elab.async false

namespace Sys2Proof.Machine

variable (s : State)

/-! `setWave` -/

@[simp] theorem setWave_turns (k : Nat) (x : Wave) : (setWave s k x).turns = s.turns := rfl
@[simp] theorem setWave_serial (k : Nat) (x : Wave) : (setWave s k x).serial = s.serial := rfl
@[simp] theorem setWave_now (k : Nat) (x : Wave) : (setWave s k x).now = s.now := rfl
@[simp] theorem setWave_cur (k : Nat) (x : Wave) : (setWave s k x).cur = s.cur := rfl
@[simp] theorem setWave_mem (k : Nat) (x : Wave) : (setWave s k x).mem = s.mem := rfl
@[simp] theorem setWave_wiped (k : Nat) (x : Wave) : (setWave s k x).wiped = s.wiped := rfl
@[simp] theorem setWave_hostMem (k : Nat) (x : Wave) : (setWave s k x).hostMem = s.hostMem := rfl
@[simp] theorem setWave_hist (k : Nat) (x : Wave) : (setWave s k x).hist = s.hist := rfl
@[simp] theorem setWave_commits (k : Nat) (x : Wave) : (setWave s k x).commits = s.commits := rfl
@[simp] theorem setWave_parties (k : Nat) (x : Wave) : (setWave s k x).parties = s.parties := rfl
@[simp] theorem setWave_cores (k : Nat) (x : Wave) : (setWave s k x).cores = s.cores := rfl
@[simp] theorem setWave_clusters (k : Nat) (x : Wave) : (setWave s k x).clusters = s.clusters := rfl
@[simp] theorem setWave_dies (k : Nat) (x : Wave) : (setWave s k x).dies = s.dies := rfl
@[simp] theorem setWave_convoys (k : Nat) (x : Wave) : (setWave s k x).convoys = s.convoys := rfl
@[simp] theorem setWave_launches (k : Nat) (x : Wave) : (setWave s k x).launches = s.launches := rfl
@[simp] theorem setWave_queues (k : Nat) (x : Wave) : (setWave s k x).queues = s.queues := rfl
@[simp] theorem setWave_funcs (k : Nat) (x : Wave) : (setWave s k x).funcs = s.funcs := rfl
@[simp] theorem setWave_routes (k : Nat) (x : Wave) : (setWave s k x).routes = s.routes := rfl
@[simp] theorem setWave_streams (k : Nat) (x : Wave) : (setWave s k x).streams = s.streams := rfl
@[simp] theorem setWave_pops (k : Nat) (x : Wave) : (setWave s k x).pops = s.pops := rfl
@[simp] theorem setWave_acc (k : Nat) (x : Wave) : (setWave s k x).acc = s.acc := rfl
@[simp] theorem setWave_rels (k : Nat) (x : Wave) : (setWave s k x).rels = s.rels := rfl
@[simp] theorem setWave_copies (k : Nat) (x : Wave) : (setWave s k x).copies = s.copies := rfl
@[simp] theorem setWave_bodies (k : Nat) (x : Wave) : (setWave s k x).bodies = s.bodies := rfl
@[simp] theorem setWave_nextId (k : Nat) (x : Wave) : (setWave s k x).nextId = s.nextId := rfl
@[simp] theorem setWave_feXlat (k : Nat) (x : Wave) : (setWave s k x).feXlat = s.feXlat := rfl
@[simp] theorem setWave_trbase (k : Nat) (x : Wave) : (setWave s k x).trbase = s.trbase := rfl
@[simp] theorem setWave_tren (k : Nat) (x : Wave) : (setWave s k x).tren = s.tren := rfl
@[simp] theorem setWave_quantum (k : Nat) (x : Wave) : (setWave s k x).quantum = s.quantum := rfl
@[simp] theorem setWave_caps (k : Nat) (x : Wave) : (setWave s k x).caps = s.caps := rfl
@[simp] theorem setWave_grid (k : Nat) (x : Wave) : (setWave s k x).grid = s.grid := rfl
@[simp] theorem setWave_bias (k : Nat) (x : Wave) : (setWave s k x).bias = s.bias := rfl
@[simp] theorem setWave_biasOld (k : Nat) (x : Wave) : (setWave s k x).biasOld = s.biasOld := rfl
@[simp] theorem setWave_biasWait (k : Nat) (x : Wave) : (setWave s k x).biasWait = s.biasWait := rfl
@[simp] theorem setWave_sec (k : Nat) (x : Wave) : (setWave s k x).sec = s.sec := rfl
@[simp] theorem setWave_spdm (k : Nat) (x : Wave) : (setWave s k x).spdm = s.spdm := rfl
@[simp] theorem setWave_ecc (k : Nat) (x : Wave) : (setWave s k x).ecc = s.ecc := rfl
@[simp] theorem setWave_eccPad (k : Nat) (x : Wave) : (setWave s k x).eccPad = s.eccPad := rfl
@[simp] theorem setWave_eccLog (k : Nat) (x : Wave) : (setWave s k x).eccLog = s.eccLog := rfl
@[simp] theorem setWave_invpg (k : Nat) (x : Wave) : (setWave s k x).invpg = s.invpg := rfl

/-! `setCore` -/

@[simp] theorem setCore_turns (k : Nat) (x : Core) : (setCore s k x).turns = s.turns := rfl
@[simp] theorem setCore_serial (k : Nat) (x : Core) : (setCore s k x).serial = s.serial := rfl
@[simp] theorem setCore_now (k : Nat) (x : Core) : (setCore s k x).now = s.now := rfl
@[simp] theorem setCore_cur (k : Nat) (x : Core) : (setCore s k x).cur = s.cur := rfl
@[simp] theorem setCore_mem (k : Nat) (x : Core) : (setCore s k x).mem = s.mem := rfl
@[simp] theorem setCore_wiped (k : Nat) (x : Core) : (setCore s k x).wiped = s.wiped := rfl
@[simp] theorem setCore_hostMem (k : Nat) (x : Core) : (setCore s k x).hostMem = s.hostMem := rfl
@[simp] theorem setCore_hist (k : Nat) (x : Core) : (setCore s k x).hist = s.hist := rfl
@[simp] theorem setCore_commits (k : Nat) (x : Core) : (setCore s k x).commits = s.commits := rfl
@[simp] theorem setCore_waves (k : Nat) (x : Core) : (setCore s k x).waves = s.waves := rfl
@[simp] theorem setCore_parties (k : Nat) (x : Core) : (setCore s k x).parties = s.parties := rfl
@[simp] theorem setCore_clusters (k : Nat) (x : Core) : (setCore s k x).clusters = s.clusters := rfl
@[simp] theorem setCore_dies (k : Nat) (x : Core) : (setCore s k x).dies = s.dies := rfl
@[simp] theorem setCore_convoys (k : Nat) (x : Core) : (setCore s k x).convoys = s.convoys := rfl
@[simp] theorem setCore_launches (k : Nat) (x : Core) : (setCore s k x).launches = s.launches := rfl
@[simp] theorem setCore_queues (k : Nat) (x : Core) : (setCore s k x).queues = s.queues := rfl
@[simp] theorem setCore_funcs (k : Nat) (x : Core) : (setCore s k x).funcs = s.funcs := rfl
@[simp] theorem setCore_routes (k : Nat) (x : Core) : (setCore s k x).routes = s.routes := rfl
@[simp] theorem setCore_streams (k : Nat) (x : Core) : (setCore s k x).streams = s.streams := rfl
@[simp] theorem setCore_pops (k : Nat) (x : Core) : (setCore s k x).pops = s.pops := rfl
@[simp] theorem setCore_acc (k : Nat) (x : Core) : (setCore s k x).acc = s.acc := rfl
@[simp] theorem setCore_rels (k : Nat) (x : Core) : (setCore s k x).rels = s.rels := rfl
@[simp] theorem setCore_copies (k : Nat) (x : Core) : (setCore s k x).copies = s.copies := rfl
@[simp] theorem setCore_bodies (k : Nat) (x : Core) : (setCore s k x).bodies = s.bodies := rfl
@[simp] theorem setCore_nextId (k : Nat) (x : Core) : (setCore s k x).nextId = s.nextId := rfl
@[simp] theorem setCore_feXlat (k : Nat) (x : Core) : (setCore s k x).feXlat = s.feXlat := rfl
@[simp] theorem setCore_trbase (k : Nat) (x : Core) : (setCore s k x).trbase = s.trbase := rfl
@[simp] theorem setCore_tren (k : Nat) (x : Core) : (setCore s k x).tren = s.tren := rfl
@[simp] theorem setCore_quantum (k : Nat) (x : Core) : (setCore s k x).quantum = s.quantum := rfl
@[simp] theorem setCore_caps (k : Nat) (x : Core) : (setCore s k x).caps = s.caps := rfl
@[simp] theorem setCore_grid (k : Nat) (x : Core) : (setCore s k x).grid = s.grid := rfl
@[simp] theorem setCore_bias (k : Nat) (x : Core) : (setCore s k x).bias = s.bias := rfl
@[simp] theorem setCore_biasOld (k : Nat) (x : Core) : (setCore s k x).biasOld = s.biasOld := rfl
@[simp] theorem setCore_biasWait (k : Nat) (x : Core) : (setCore s k x).biasWait = s.biasWait := rfl
@[simp] theorem setCore_sec (k : Nat) (x : Core) : (setCore s k x).sec = s.sec := rfl
@[simp] theorem setCore_spdm (k : Nat) (x : Core) : (setCore s k x).spdm = s.spdm := rfl
@[simp] theorem setCore_ecc (k : Nat) (x : Core) : (setCore s k x).ecc = s.ecc := rfl
@[simp] theorem setCore_eccPad (k : Nat) (x : Core) : (setCore s k x).eccPad = s.eccPad := rfl
@[simp] theorem setCore_eccLog (k : Nat) (x : Core) : (setCore s k x).eccLog = s.eccLog := rfl
@[simp] theorem setCore_invpg (k : Nat) (x : Core) : (setCore s k x).invpg = s.invpg := rfl

/-! `modCore` -/

@[simp] theorem modCore_turns (k : Nat) (f : Core → Core) : (modCore s k f).turns = s.turns := rfl
@[simp] theorem modCore_serial (k : Nat) (f : Core → Core) : (modCore s k f).serial = s.serial := rfl
@[simp] theorem modCore_now (k : Nat) (f : Core → Core) : (modCore s k f).now = s.now := rfl
@[simp] theorem modCore_cur (k : Nat) (f : Core → Core) : (modCore s k f).cur = s.cur := rfl
@[simp] theorem modCore_mem (k : Nat) (f : Core → Core) : (modCore s k f).mem = s.mem := rfl
@[simp] theorem modCore_wiped (k : Nat) (f : Core → Core) : (modCore s k f).wiped = s.wiped := rfl
@[simp] theorem modCore_hostMem (k : Nat) (f : Core → Core) : (modCore s k f).hostMem = s.hostMem := rfl
@[simp] theorem modCore_hist (k : Nat) (f : Core → Core) : (modCore s k f).hist = s.hist := rfl
@[simp] theorem modCore_commits (k : Nat) (f : Core → Core) : (modCore s k f).commits = s.commits := rfl
@[simp] theorem modCore_waves (k : Nat) (f : Core → Core) : (modCore s k f).waves = s.waves := rfl
@[simp] theorem modCore_parties (k : Nat) (f : Core → Core) : (modCore s k f).parties = s.parties := rfl
@[simp] theorem modCore_clusters (k : Nat) (f : Core → Core) : (modCore s k f).clusters = s.clusters := rfl
@[simp] theorem modCore_dies (k : Nat) (f : Core → Core) : (modCore s k f).dies = s.dies := rfl
@[simp] theorem modCore_convoys (k : Nat) (f : Core → Core) : (modCore s k f).convoys = s.convoys := rfl
@[simp] theorem modCore_launches (k : Nat) (f : Core → Core) : (modCore s k f).launches = s.launches := rfl
@[simp] theorem modCore_queues (k : Nat) (f : Core → Core) : (modCore s k f).queues = s.queues := rfl
@[simp] theorem modCore_funcs (k : Nat) (f : Core → Core) : (modCore s k f).funcs = s.funcs := rfl
@[simp] theorem modCore_routes (k : Nat) (f : Core → Core) : (modCore s k f).routes = s.routes := rfl
@[simp] theorem modCore_streams (k : Nat) (f : Core → Core) : (modCore s k f).streams = s.streams := rfl
@[simp] theorem modCore_pops (k : Nat) (f : Core → Core) : (modCore s k f).pops = s.pops := rfl
@[simp] theorem modCore_acc (k : Nat) (f : Core → Core) : (modCore s k f).acc = s.acc := rfl
@[simp] theorem modCore_rels (k : Nat) (f : Core → Core) : (modCore s k f).rels = s.rels := rfl
@[simp] theorem modCore_copies (k : Nat) (f : Core → Core) : (modCore s k f).copies = s.copies := rfl
@[simp] theorem modCore_bodies (k : Nat) (f : Core → Core) : (modCore s k f).bodies = s.bodies := rfl
@[simp] theorem modCore_nextId (k : Nat) (f : Core → Core) : (modCore s k f).nextId = s.nextId := rfl
@[simp] theorem modCore_feXlat (k : Nat) (f : Core → Core) : (modCore s k f).feXlat = s.feXlat := rfl
@[simp] theorem modCore_trbase (k : Nat) (f : Core → Core) : (modCore s k f).trbase = s.trbase := rfl
@[simp] theorem modCore_tren (k : Nat) (f : Core → Core) : (modCore s k f).tren = s.tren := rfl
@[simp] theorem modCore_quantum (k : Nat) (f : Core → Core) : (modCore s k f).quantum = s.quantum := rfl
@[simp] theorem modCore_caps (k : Nat) (f : Core → Core) : (modCore s k f).caps = s.caps := rfl
@[simp] theorem modCore_grid (k : Nat) (f : Core → Core) : (modCore s k f).grid = s.grid := rfl
@[simp] theorem modCore_bias (k : Nat) (f : Core → Core) : (modCore s k f).bias = s.bias := rfl
@[simp] theorem modCore_biasOld (k : Nat) (f : Core → Core) : (modCore s k f).biasOld = s.biasOld := rfl
@[simp] theorem modCore_biasWait (k : Nat) (f : Core → Core) : (modCore s k f).biasWait = s.biasWait := rfl
@[simp] theorem modCore_sec (k : Nat) (f : Core → Core) : (modCore s k f).sec = s.sec := rfl
@[simp] theorem modCore_spdm (k : Nat) (f : Core → Core) : (modCore s k f).spdm = s.spdm := rfl
@[simp] theorem modCore_ecc (k : Nat) (f : Core → Core) : (modCore s k f).ecc = s.ecc := rfl
@[simp] theorem modCore_eccPad (k : Nat) (f : Core → Core) : (modCore s k f).eccPad = s.eccPad := rfl
@[simp] theorem modCore_eccLog (k : Nat) (f : Core → Core) : (modCore s k f).eccLog = s.eccLog := rfl
@[simp] theorem modCore_invpg (k : Nat) (f : Core → Core) : (modCore s k f).invpg = s.invpg := rfl

/-! `setDie` -/

@[simp] theorem setDie_turns (k : Nat) (x : Die) : (setDie s k x).turns = s.turns := rfl
@[simp] theorem setDie_serial (k : Nat) (x : Die) : (setDie s k x).serial = s.serial := rfl
@[simp] theorem setDie_now (k : Nat) (x : Die) : (setDie s k x).now = s.now := rfl
@[simp] theorem setDie_cur (k : Nat) (x : Die) : (setDie s k x).cur = s.cur := rfl
@[simp] theorem setDie_mem (k : Nat) (x : Die) : (setDie s k x).mem = s.mem := rfl
@[simp] theorem setDie_wiped (k : Nat) (x : Die) : (setDie s k x).wiped = s.wiped := rfl
@[simp] theorem setDie_hostMem (k : Nat) (x : Die) : (setDie s k x).hostMem = s.hostMem := rfl
@[simp] theorem setDie_hist (k : Nat) (x : Die) : (setDie s k x).hist = s.hist := rfl
@[simp] theorem setDie_commits (k : Nat) (x : Die) : (setDie s k x).commits = s.commits := rfl
@[simp] theorem setDie_waves (k : Nat) (x : Die) : (setDie s k x).waves = s.waves := rfl
@[simp] theorem setDie_parties (k : Nat) (x : Die) : (setDie s k x).parties = s.parties := rfl
@[simp] theorem setDie_cores (k : Nat) (x : Die) : (setDie s k x).cores = s.cores := rfl
@[simp] theorem setDie_clusters (k : Nat) (x : Die) : (setDie s k x).clusters = s.clusters := rfl
@[simp] theorem setDie_convoys (k : Nat) (x : Die) : (setDie s k x).convoys = s.convoys := rfl
@[simp] theorem setDie_launches (k : Nat) (x : Die) : (setDie s k x).launches = s.launches := rfl
@[simp] theorem setDie_queues (k : Nat) (x : Die) : (setDie s k x).queues = s.queues := rfl
@[simp] theorem setDie_funcs (k : Nat) (x : Die) : (setDie s k x).funcs = s.funcs := rfl
@[simp] theorem setDie_routes (k : Nat) (x : Die) : (setDie s k x).routes = s.routes := rfl
@[simp] theorem setDie_streams (k : Nat) (x : Die) : (setDie s k x).streams = s.streams := rfl
@[simp] theorem setDie_pops (k : Nat) (x : Die) : (setDie s k x).pops = s.pops := rfl
@[simp] theorem setDie_acc (k : Nat) (x : Die) : (setDie s k x).acc = s.acc := rfl
@[simp] theorem setDie_rels (k : Nat) (x : Die) : (setDie s k x).rels = s.rels := rfl
@[simp] theorem setDie_copies (k : Nat) (x : Die) : (setDie s k x).copies = s.copies := rfl
@[simp] theorem setDie_bodies (k : Nat) (x : Die) : (setDie s k x).bodies = s.bodies := rfl
@[simp] theorem setDie_nextId (k : Nat) (x : Die) : (setDie s k x).nextId = s.nextId := rfl
@[simp] theorem setDie_feXlat (k : Nat) (x : Die) : (setDie s k x).feXlat = s.feXlat := rfl
@[simp] theorem setDie_trbase (k : Nat) (x : Die) : (setDie s k x).trbase = s.trbase := rfl
@[simp] theorem setDie_tren (k : Nat) (x : Die) : (setDie s k x).tren = s.tren := rfl
@[simp] theorem setDie_quantum (k : Nat) (x : Die) : (setDie s k x).quantum = s.quantum := rfl
@[simp] theorem setDie_caps (k : Nat) (x : Die) : (setDie s k x).caps = s.caps := rfl
@[simp] theorem setDie_grid (k : Nat) (x : Die) : (setDie s k x).grid = s.grid := rfl
@[simp] theorem setDie_bias (k : Nat) (x : Die) : (setDie s k x).bias = s.bias := rfl
@[simp] theorem setDie_biasOld (k : Nat) (x : Die) : (setDie s k x).biasOld = s.biasOld := rfl
@[simp] theorem setDie_biasWait (k : Nat) (x : Die) : (setDie s k x).biasWait = s.biasWait := rfl
@[simp] theorem setDie_sec (k : Nat) (x : Die) : (setDie s k x).sec = s.sec := rfl
@[simp] theorem setDie_spdm (k : Nat) (x : Die) : (setDie s k x).spdm = s.spdm := rfl
@[simp] theorem setDie_ecc (k : Nat) (x : Die) : (setDie s k x).ecc = s.ecc := rfl
@[simp] theorem setDie_eccPad (k : Nat) (x : Die) : (setDie s k x).eccPad = s.eccPad := rfl
@[simp] theorem setDie_eccLog (k : Nat) (x : Die) : (setDie s k x).eccLog = s.eccLog := rfl
@[simp] theorem setDie_invpg (k : Nat) (x : Die) : (setDie s k x).invpg = s.invpg := rfl

/-! `modDie` -/

@[simp] theorem modDie_turns (k : Nat) (f : Die → Die) : (modDie s k f).turns = s.turns := rfl
@[simp] theorem modDie_serial (k : Nat) (f : Die → Die) : (modDie s k f).serial = s.serial := rfl
@[simp] theorem modDie_now (k : Nat) (f : Die → Die) : (modDie s k f).now = s.now := rfl
@[simp] theorem modDie_cur (k : Nat) (f : Die → Die) : (modDie s k f).cur = s.cur := rfl
@[simp] theorem modDie_mem (k : Nat) (f : Die → Die) : (modDie s k f).mem = s.mem := rfl
@[simp] theorem modDie_wiped (k : Nat) (f : Die → Die) : (modDie s k f).wiped = s.wiped := rfl
@[simp] theorem modDie_hostMem (k : Nat) (f : Die → Die) : (modDie s k f).hostMem = s.hostMem := rfl
@[simp] theorem modDie_hist (k : Nat) (f : Die → Die) : (modDie s k f).hist = s.hist := rfl
@[simp] theorem modDie_commits (k : Nat) (f : Die → Die) : (modDie s k f).commits = s.commits := rfl
@[simp] theorem modDie_waves (k : Nat) (f : Die → Die) : (modDie s k f).waves = s.waves := rfl
@[simp] theorem modDie_parties (k : Nat) (f : Die → Die) : (modDie s k f).parties = s.parties := rfl
@[simp] theorem modDie_cores (k : Nat) (f : Die → Die) : (modDie s k f).cores = s.cores := rfl
@[simp] theorem modDie_clusters (k : Nat) (f : Die → Die) : (modDie s k f).clusters = s.clusters := rfl
@[simp] theorem modDie_convoys (k : Nat) (f : Die → Die) : (modDie s k f).convoys = s.convoys := rfl
@[simp] theorem modDie_launches (k : Nat) (f : Die → Die) : (modDie s k f).launches = s.launches := rfl
@[simp] theorem modDie_queues (k : Nat) (f : Die → Die) : (modDie s k f).queues = s.queues := rfl
@[simp] theorem modDie_funcs (k : Nat) (f : Die → Die) : (modDie s k f).funcs = s.funcs := rfl
@[simp] theorem modDie_routes (k : Nat) (f : Die → Die) : (modDie s k f).routes = s.routes := rfl
@[simp] theorem modDie_streams (k : Nat) (f : Die → Die) : (modDie s k f).streams = s.streams := rfl
@[simp] theorem modDie_pops (k : Nat) (f : Die → Die) : (modDie s k f).pops = s.pops := rfl
@[simp] theorem modDie_acc (k : Nat) (f : Die → Die) : (modDie s k f).acc = s.acc := rfl
@[simp] theorem modDie_rels (k : Nat) (f : Die → Die) : (modDie s k f).rels = s.rels := rfl
@[simp] theorem modDie_copies (k : Nat) (f : Die → Die) : (modDie s k f).copies = s.copies := rfl
@[simp] theorem modDie_bodies (k : Nat) (f : Die → Die) : (modDie s k f).bodies = s.bodies := rfl
@[simp] theorem modDie_nextId (k : Nat) (f : Die → Die) : (modDie s k f).nextId = s.nextId := rfl
@[simp] theorem modDie_feXlat (k : Nat) (f : Die → Die) : (modDie s k f).feXlat = s.feXlat := rfl
@[simp] theorem modDie_trbase (k : Nat) (f : Die → Die) : (modDie s k f).trbase = s.trbase := rfl
@[simp] theorem modDie_tren (k : Nat) (f : Die → Die) : (modDie s k f).tren = s.tren := rfl
@[simp] theorem modDie_quantum (k : Nat) (f : Die → Die) : (modDie s k f).quantum = s.quantum := rfl
@[simp] theorem modDie_caps (k : Nat) (f : Die → Die) : (modDie s k f).caps = s.caps := rfl
@[simp] theorem modDie_grid (k : Nat) (f : Die → Die) : (modDie s k f).grid = s.grid := rfl
@[simp] theorem modDie_bias (k : Nat) (f : Die → Die) : (modDie s k f).bias = s.bias := rfl
@[simp] theorem modDie_biasOld (k : Nat) (f : Die → Die) : (modDie s k f).biasOld = s.biasOld := rfl
@[simp] theorem modDie_biasWait (k : Nat) (f : Die → Die) : (modDie s k f).biasWait = s.biasWait := rfl
@[simp] theorem modDie_sec (k : Nat) (f : Die → Die) : (modDie s k f).sec = s.sec := rfl
@[simp] theorem modDie_spdm (k : Nat) (f : Die → Die) : (modDie s k f).spdm = s.spdm := rfl
@[simp] theorem modDie_ecc (k : Nat) (f : Die → Die) : (modDie s k f).ecc = s.ecc := rfl
@[simp] theorem modDie_eccPad (k : Nat) (f : Die → Die) : (modDie s k f).eccPad = s.eccPad := rfl
@[simp] theorem modDie_eccLog (k : Nat) (f : Die → Die) : (modDie s k f).eccLog = s.eccLog := rfl
@[simp] theorem modDie_invpg (k : Nat) (f : Die → Die) : (modDie s k f).invpg = s.invpg := rfl

/-! `setClus` -/

@[simp] theorem setClus_turns (k : Nat) (x : Cluster4) : (setClus s k x).turns = s.turns := rfl
@[simp] theorem setClus_serial (k : Nat) (x : Cluster4) : (setClus s k x).serial = s.serial := rfl
@[simp] theorem setClus_now (k : Nat) (x : Cluster4) : (setClus s k x).now = s.now := rfl
@[simp] theorem setClus_cur (k : Nat) (x : Cluster4) : (setClus s k x).cur = s.cur := rfl
@[simp] theorem setClus_mem (k : Nat) (x : Cluster4) : (setClus s k x).mem = s.mem := rfl
@[simp] theorem setClus_wiped (k : Nat) (x : Cluster4) : (setClus s k x).wiped = s.wiped := rfl
@[simp] theorem setClus_hostMem (k : Nat) (x : Cluster4) : (setClus s k x).hostMem = s.hostMem := rfl
@[simp] theorem setClus_hist (k : Nat) (x : Cluster4) : (setClus s k x).hist = s.hist := rfl
@[simp] theorem setClus_commits (k : Nat) (x : Cluster4) : (setClus s k x).commits = s.commits := rfl
@[simp] theorem setClus_waves (k : Nat) (x : Cluster4) : (setClus s k x).waves = s.waves := rfl
@[simp] theorem setClus_parties (k : Nat) (x : Cluster4) : (setClus s k x).parties = s.parties := rfl
@[simp] theorem setClus_cores (k : Nat) (x : Cluster4) : (setClus s k x).cores = s.cores := rfl
@[simp] theorem setClus_dies (k : Nat) (x : Cluster4) : (setClus s k x).dies = s.dies := rfl
@[simp] theorem setClus_convoys (k : Nat) (x : Cluster4) : (setClus s k x).convoys = s.convoys := rfl
@[simp] theorem setClus_launches (k : Nat) (x : Cluster4) : (setClus s k x).launches = s.launches := rfl
@[simp] theorem setClus_queues (k : Nat) (x : Cluster4) : (setClus s k x).queues = s.queues := rfl
@[simp] theorem setClus_funcs (k : Nat) (x : Cluster4) : (setClus s k x).funcs = s.funcs := rfl
@[simp] theorem setClus_routes (k : Nat) (x : Cluster4) : (setClus s k x).routes = s.routes := rfl
@[simp] theorem setClus_streams (k : Nat) (x : Cluster4) : (setClus s k x).streams = s.streams := rfl
@[simp] theorem setClus_pops (k : Nat) (x : Cluster4) : (setClus s k x).pops = s.pops := rfl
@[simp] theorem setClus_acc (k : Nat) (x : Cluster4) : (setClus s k x).acc = s.acc := rfl
@[simp] theorem setClus_rels (k : Nat) (x : Cluster4) : (setClus s k x).rels = s.rels := rfl
@[simp] theorem setClus_copies (k : Nat) (x : Cluster4) : (setClus s k x).copies = s.copies := rfl
@[simp] theorem setClus_bodies (k : Nat) (x : Cluster4) : (setClus s k x).bodies = s.bodies := rfl
@[simp] theorem setClus_nextId (k : Nat) (x : Cluster4) : (setClus s k x).nextId = s.nextId := rfl
@[simp] theorem setClus_feXlat (k : Nat) (x : Cluster4) : (setClus s k x).feXlat = s.feXlat := rfl
@[simp] theorem setClus_trbase (k : Nat) (x : Cluster4) : (setClus s k x).trbase = s.trbase := rfl
@[simp] theorem setClus_tren (k : Nat) (x : Cluster4) : (setClus s k x).tren = s.tren := rfl
@[simp] theorem setClus_quantum (k : Nat) (x : Cluster4) : (setClus s k x).quantum = s.quantum := rfl
@[simp] theorem setClus_caps (k : Nat) (x : Cluster4) : (setClus s k x).caps = s.caps := rfl
@[simp] theorem setClus_grid (k : Nat) (x : Cluster4) : (setClus s k x).grid = s.grid := rfl
@[simp] theorem setClus_bias (k : Nat) (x : Cluster4) : (setClus s k x).bias = s.bias := rfl
@[simp] theorem setClus_biasOld (k : Nat) (x : Cluster4) : (setClus s k x).biasOld = s.biasOld := rfl
@[simp] theorem setClus_biasWait (k : Nat) (x : Cluster4) : (setClus s k x).biasWait = s.biasWait := rfl
@[simp] theorem setClus_sec (k : Nat) (x : Cluster4) : (setClus s k x).sec = s.sec := rfl
@[simp] theorem setClus_spdm (k : Nat) (x : Cluster4) : (setClus s k x).spdm = s.spdm := rfl
@[simp] theorem setClus_ecc (k : Nat) (x : Cluster4) : (setClus s k x).ecc = s.ecc := rfl
@[simp] theorem setClus_eccPad (k : Nat) (x : Cluster4) : (setClus s k x).eccPad = s.eccPad := rfl
@[simp] theorem setClus_eccLog (k : Nat) (x : Cluster4) : (setClus s k x).eccLog = s.eccLog := rfl
@[simp] theorem setClus_invpg (k : Nat) (x : Cluster4) : (setClus s k x).invpg = s.invpg := rfl

/-! `setLaunch` -/

@[simp] theorem setLaunch_turns (k : Nat) (x : Launch) : (setLaunch s k x).turns = s.turns := rfl
@[simp] theorem setLaunch_serial (k : Nat) (x : Launch) : (setLaunch s k x).serial = s.serial := rfl
@[simp] theorem setLaunch_now (k : Nat) (x : Launch) : (setLaunch s k x).now = s.now := rfl
@[simp] theorem setLaunch_cur (k : Nat) (x : Launch) : (setLaunch s k x).cur = s.cur := rfl
@[simp] theorem setLaunch_mem (k : Nat) (x : Launch) : (setLaunch s k x).mem = s.mem := rfl
@[simp] theorem setLaunch_wiped (k : Nat) (x : Launch) : (setLaunch s k x).wiped = s.wiped := rfl
@[simp] theorem setLaunch_hostMem (k : Nat) (x : Launch) : (setLaunch s k x).hostMem = s.hostMem := rfl
@[simp] theorem setLaunch_hist (k : Nat) (x : Launch) : (setLaunch s k x).hist = s.hist := rfl
@[simp] theorem setLaunch_commits (k : Nat) (x : Launch) : (setLaunch s k x).commits = s.commits := rfl
@[simp] theorem setLaunch_waves (k : Nat) (x : Launch) : (setLaunch s k x).waves = s.waves := rfl
@[simp] theorem setLaunch_parties (k : Nat) (x : Launch) : (setLaunch s k x).parties = s.parties := rfl
@[simp] theorem setLaunch_cores (k : Nat) (x : Launch) : (setLaunch s k x).cores = s.cores := rfl
@[simp] theorem setLaunch_clusters (k : Nat) (x : Launch) : (setLaunch s k x).clusters = s.clusters := rfl
@[simp] theorem setLaunch_dies (k : Nat) (x : Launch) : (setLaunch s k x).dies = s.dies := rfl
@[simp] theorem setLaunch_convoys (k : Nat) (x : Launch) : (setLaunch s k x).convoys = s.convoys := rfl
@[simp] theorem setLaunch_queues (k : Nat) (x : Launch) : (setLaunch s k x).queues = s.queues := rfl
@[simp] theorem setLaunch_funcs (k : Nat) (x : Launch) : (setLaunch s k x).funcs = s.funcs := rfl
@[simp] theorem setLaunch_routes (k : Nat) (x : Launch) : (setLaunch s k x).routes = s.routes := rfl
@[simp] theorem setLaunch_streams (k : Nat) (x : Launch) : (setLaunch s k x).streams = s.streams := rfl
@[simp] theorem setLaunch_pops (k : Nat) (x : Launch) : (setLaunch s k x).pops = s.pops := rfl
@[simp] theorem setLaunch_acc (k : Nat) (x : Launch) : (setLaunch s k x).acc = s.acc := rfl
@[simp] theorem setLaunch_rels (k : Nat) (x : Launch) : (setLaunch s k x).rels = s.rels := rfl
@[simp] theorem setLaunch_copies (k : Nat) (x : Launch) : (setLaunch s k x).copies = s.copies := rfl
@[simp] theorem setLaunch_bodies (k : Nat) (x : Launch) : (setLaunch s k x).bodies = s.bodies := rfl
@[simp] theorem setLaunch_nextId (k : Nat) (x : Launch) : (setLaunch s k x).nextId = s.nextId := rfl
@[simp] theorem setLaunch_feXlat (k : Nat) (x : Launch) : (setLaunch s k x).feXlat = s.feXlat := rfl
@[simp] theorem setLaunch_trbase (k : Nat) (x : Launch) : (setLaunch s k x).trbase = s.trbase := rfl
@[simp] theorem setLaunch_tren (k : Nat) (x : Launch) : (setLaunch s k x).tren = s.tren := rfl
@[simp] theorem setLaunch_quantum (k : Nat) (x : Launch) : (setLaunch s k x).quantum = s.quantum := rfl
@[simp] theorem setLaunch_caps (k : Nat) (x : Launch) : (setLaunch s k x).caps = s.caps := rfl
@[simp] theorem setLaunch_grid (k : Nat) (x : Launch) : (setLaunch s k x).grid = s.grid := rfl
@[simp] theorem setLaunch_bias (k : Nat) (x : Launch) : (setLaunch s k x).bias = s.bias := rfl
@[simp] theorem setLaunch_biasOld (k : Nat) (x : Launch) : (setLaunch s k x).biasOld = s.biasOld := rfl
@[simp] theorem setLaunch_biasWait (k : Nat) (x : Launch) : (setLaunch s k x).biasWait = s.biasWait := rfl
@[simp] theorem setLaunch_sec (k : Nat) (x : Launch) : (setLaunch s k x).sec = s.sec := rfl
@[simp] theorem setLaunch_spdm (k : Nat) (x : Launch) : (setLaunch s k x).spdm = s.spdm := rfl
@[simp] theorem setLaunch_ecc (k : Nat) (x : Launch) : (setLaunch s k x).ecc = s.ecc := rfl
@[simp] theorem setLaunch_eccPad (k : Nat) (x : Launch) : (setLaunch s k x).eccPad = s.eccPad := rfl
@[simp] theorem setLaunch_eccLog (k : Nat) (x : Launch) : (setLaunch s k x).eccLog = s.eccLog := rfl
@[simp] theorem setLaunch_invpg (k : Nat) (x : Launch) : (setLaunch s k x).invpg = s.invpg := rfl

/-! `setParty` -/

@[simp] theorem setParty_turns (k p : Nat) (x : Party) : (setParty s k p x).turns = s.turns := rfl
@[simp] theorem setParty_serial (k p : Nat) (x : Party) : (setParty s k p x).serial = s.serial := rfl
@[simp] theorem setParty_now (k p : Nat) (x : Party) : (setParty s k p x).now = s.now := rfl
@[simp] theorem setParty_cur (k p : Nat) (x : Party) : (setParty s k p x).cur = s.cur := rfl
@[simp] theorem setParty_mem (k p : Nat) (x : Party) : (setParty s k p x).mem = s.mem := rfl
@[simp] theorem setParty_wiped (k p : Nat) (x : Party) : (setParty s k p x).wiped = s.wiped := rfl
@[simp] theorem setParty_hostMem (k p : Nat) (x : Party) : (setParty s k p x).hostMem = s.hostMem := rfl
@[simp] theorem setParty_hist (k p : Nat) (x : Party) : (setParty s k p x).hist = s.hist := rfl
@[simp] theorem setParty_commits (k p : Nat) (x : Party) : (setParty s k p x).commits = s.commits := rfl
@[simp] theorem setParty_waves (k p : Nat) (x : Party) : (setParty s k p x).waves = s.waves := rfl
@[simp] theorem setParty_cores (k p : Nat) (x : Party) : (setParty s k p x).cores = s.cores := rfl
@[simp] theorem setParty_clusters (k p : Nat) (x : Party) : (setParty s k p x).clusters = s.clusters := rfl
@[simp] theorem setParty_dies (k p : Nat) (x : Party) : (setParty s k p x).dies = s.dies := rfl
@[simp] theorem setParty_convoys (k p : Nat) (x : Party) : (setParty s k p x).convoys = s.convoys := rfl
@[simp] theorem setParty_launches (k p : Nat) (x : Party) : (setParty s k p x).launches = s.launches := rfl
@[simp] theorem setParty_queues (k p : Nat) (x : Party) : (setParty s k p x).queues = s.queues := rfl
@[simp] theorem setParty_funcs (k p : Nat) (x : Party) : (setParty s k p x).funcs = s.funcs := rfl
@[simp] theorem setParty_routes (k p : Nat) (x : Party) : (setParty s k p x).routes = s.routes := rfl
@[simp] theorem setParty_streams (k p : Nat) (x : Party) : (setParty s k p x).streams = s.streams := rfl
@[simp] theorem setParty_pops (k p : Nat) (x : Party) : (setParty s k p x).pops = s.pops := rfl
@[simp] theorem setParty_acc (k p : Nat) (x : Party) : (setParty s k p x).acc = s.acc := rfl
@[simp] theorem setParty_rels (k p : Nat) (x : Party) : (setParty s k p x).rels = s.rels := rfl
@[simp] theorem setParty_copies (k p : Nat) (x : Party) : (setParty s k p x).copies = s.copies := rfl
@[simp] theorem setParty_bodies (k p : Nat) (x : Party) : (setParty s k p x).bodies = s.bodies := rfl
@[simp] theorem setParty_nextId (k p : Nat) (x : Party) : (setParty s k p x).nextId = s.nextId := rfl
@[simp] theorem setParty_feXlat (k p : Nat) (x : Party) : (setParty s k p x).feXlat = s.feXlat := rfl
@[simp] theorem setParty_trbase (k p : Nat) (x : Party) : (setParty s k p x).trbase = s.trbase := rfl
@[simp] theorem setParty_tren (k p : Nat) (x : Party) : (setParty s k p x).tren = s.tren := rfl
@[simp] theorem setParty_quantum (k p : Nat) (x : Party) : (setParty s k p x).quantum = s.quantum := rfl
@[simp] theorem setParty_caps (k p : Nat) (x : Party) : (setParty s k p x).caps = s.caps := rfl
@[simp] theorem setParty_grid (k p : Nat) (x : Party) : (setParty s k p x).grid = s.grid := rfl
@[simp] theorem setParty_bias (k p : Nat) (x : Party) : (setParty s k p x).bias = s.bias := rfl
@[simp] theorem setParty_biasOld (k p : Nat) (x : Party) : (setParty s k p x).biasOld = s.biasOld := rfl
@[simp] theorem setParty_biasWait (k p : Nat) (x : Party) : (setParty s k p x).biasWait = s.biasWait := rfl
@[simp] theorem setParty_sec (k p : Nat) (x : Party) : (setParty s k p x).sec = s.sec := rfl
@[simp] theorem setParty_spdm (k p : Nat) (x : Party) : (setParty s k p x).spdm = s.spdm := rfl
@[simp] theorem setParty_ecc (k p : Nat) (x : Party) : (setParty s k p x).ecc = s.ecc := rfl
@[simp] theorem setParty_eccPad (k p : Nat) (x : Party) : (setParty s k p x).eccPad = s.eccPad := rfl
@[simp] theorem setParty_eccLog (k p : Nat) (x : Party) : (setParty s k p x).eccLog = s.eccLog := rfl
@[simp] theorem setParty_invpg (k p : Nat) (x : Party) : (setParty s k p x).invpg = s.invpg := rfl

/-! `setQueue` -/

@[simp] theorem setQueue_turns (k : Nat) (x : Queue) : (setQueue s k x).turns = s.turns := rfl
@[simp] theorem setQueue_serial (k : Nat) (x : Queue) : (setQueue s k x).serial = s.serial := rfl
@[simp] theorem setQueue_now (k : Nat) (x : Queue) : (setQueue s k x).now = s.now := rfl
@[simp] theorem setQueue_cur (k : Nat) (x : Queue) : (setQueue s k x).cur = s.cur := rfl
@[simp] theorem setQueue_mem (k : Nat) (x : Queue) : (setQueue s k x).mem = s.mem := rfl
@[simp] theorem setQueue_wiped (k : Nat) (x : Queue) : (setQueue s k x).wiped = s.wiped := rfl
@[simp] theorem setQueue_hostMem (k : Nat) (x : Queue) : (setQueue s k x).hostMem = s.hostMem := rfl
@[simp] theorem setQueue_hist (k : Nat) (x : Queue) : (setQueue s k x).hist = s.hist := rfl
@[simp] theorem setQueue_commits (k : Nat) (x : Queue) : (setQueue s k x).commits = s.commits := rfl
@[simp] theorem setQueue_waves (k : Nat) (x : Queue) : (setQueue s k x).waves = s.waves := rfl
@[simp] theorem setQueue_parties (k : Nat) (x : Queue) : (setQueue s k x).parties = s.parties := rfl
@[simp] theorem setQueue_cores (k : Nat) (x : Queue) : (setQueue s k x).cores = s.cores := rfl
@[simp] theorem setQueue_clusters (k : Nat) (x : Queue) : (setQueue s k x).clusters = s.clusters := rfl
@[simp] theorem setQueue_dies (k : Nat) (x : Queue) : (setQueue s k x).dies = s.dies := rfl
@[simp] theorem setQueue_convoys (k : Nat) (x : Queue) : (setQueue s k x).convoys = s.convoys := rfl
@[simp] theorem setQueue_launches (k : Nat) (x : Queue) : (setQueue s k x).launches = s.launches := rfl
@[simp] theorem setQueue_funcs (k : Nat) (x : Queue) : (setQueue s k x).funcs = s.funcs := rfl
@[simp] theorem setQueue_routes (k : Nat) (x : Queue) : (setQueue s k x).routes = s.routes := rfl
@[simp] theorem setQueue_streams (k : Nat) (x : Queue) : (setQueue s k x).streams = s.streams := rfl
@[simp] theorem setQueue_pops (k : Nat) (x : Queue) : (setQueue s k x).pops = s.pops := rfl
@[simp] theorem setQueue_acc (k : Nat) (x : Queue) : (setQueue s k x).acc = s.acc := rfl
@[simp] theorem setQueue_rels (k : Nat) (x : Queue) : (setQueue s k x).rels = s.rels := rfl
@[simp] theorem setQueue_copies (k : Nat) (x : Queue) : (setQueue s k x).copies = s.copies := rfl
@[simp] theorem setQueue_bodies (k : Nat) (x : Queue) : (setQueue s k x).bodies = s.bodies := rfl
@[simp] theorem setQueue_nextId (k : Nat) (x : Queue) : (setQueue s k x).nextId = s.nextId := rfl
@[simp] theorem setQueue_feXlat (k : Nat) (x : Queue) : (setQueue s k x).feXlat = s.feXlat := rfl
@[simp] theorem setQueue_trbase (k : Nat) (x : Queue) : (setQueue s k x).trbase = s.trbase := rfl
@[simp] theorem setQueue_tren (k : Nat) (x : Queue) : (setQueue s k x).tren = s.tren := rfl
@[simp] theorem setQueue_quantum (k : Nat) (x : Queue) : (setQueue s k x).quantum = s.quantum := rfl
@[simp] theorem setQueue_caps (k : Nat) (x : Queue) : (setQueue s k x).caps = s.caps := rfl
@[simp] theorem setQueue_grid (k : Nat) (x : Queue) : (setQueue s k x).grid = s.grid := rfl
@[simp] theorem setQueue_bias (k : Nat) (x : Queue) : (setQueue s k x).bias = s.bias := rfl
@[simp] theorem setQueue_biasOld (k : Nat) (x : Queue) : (setQueue s k x).biasOld = s.biasOld := rfl
@[simp] theorem setQueue_biasWait (k : Nat) (x : Queue) : (setQueue s k x).biasWait = s.biasWait := rfl
@[simp] theorem setQueue_sec (k : Nat) (x : Queue) : (setQueue s k x).sec = s.sec := rfl
@[simp] theorem setQueue_spdm (k : Nat) (x : Queue) : (setQueue s k x).spdm = s.spdm := rfl
@[simp] theorem setQueue_ecc (k : Nat) (x : Queue) : (setQueue s k x).ecc = s.ecc := rfl
@[simp] theorem setQueue_eccPad (k : Nat) (x : Queue) : (setQueue s k x).eccPad = s.eccPad := rfl
@[simp] theorem setQueue_eccLog (k : Nat) (x : Queue) : (setQueue s k x).eccLog = s.eccLog := rfl
@[simp] theorem setQueue_invpg (k : Nat) (x : Queue) : (setQueue s k x).invpg = s.invpg := rfl

/-! `modQueue` -/

@[simp] theorem modQueue_turns (k : Nat) (f : Queue → Queue) : (modQueue s k f).turns = s.turns := rfl
@[simp] theorem modQueue_serial (k : Nat) (f : Queue → Queue) : (modQueue s k f).serial = s.serial := rfl
@[simp] theorem modQueue_now (k : Nat) (f : Queue → Queue) : (modQueue s k f).now = s.now := rfl
@[simp] theorem modQueue_cur (k : Nat) (f : Queue → Queue) : (modQueue s k f).cur = s.cur := rfl
@[simp] theorem modQueue_mem (k : Nat) (f : Queue → Queue) : (modQueue s k f).mem = s.mem := rfl
@[simp] theorem modQueue_wiped (k : Nat) (f : Queue → Queue) : (modQueue s k f).wiped = s.wiped := rfl
@[simp] theorem modQueue_hostMem (k : Nat) (f : Queue → Queue) : (modQueue s k f).hostMem = s.hostMem := rfl
@[simp] theorem modQueue_hist (k : Nat) (f : Queue → Queue) : (modQueue s k f).hist = s.hist := rfl
@[simp] theorem modQueue_commits (k : Nat) (f : Queue → Queue) : (modQueue s k f).commits = s.commits := rfl
@[simp] theorem modQueue_waves (k : Nat) (f : Queue → Queue) : (modQueue s k f).waves = s.waves := rfl
@[simp] theorem modQueue_parties (k : Nat) (f : Queue → Queue) : (modQueue s k f).parties = s.parties := rfl
@[simp] theorem modQueue_cores (k : Nat) (f : Queue → Queue) : (modQueue s k f).cores = s.cores := rfl
@[simp] theorem modQueue_clusters (k : Nat) (f : Queue → Queue) : (modQueue s k f).clusters = s.clusters := rfl
@[simp] theorem modQueue_dies (k : Nat) (f : Queue → Queue) : (modQueue s k f).dies = s.dies := rfl
@[simp] theorem modQueue_convoys (k : Nat) (f : Queue → Queue) : (modQueue s k f).convoys = s.convoys := rfl
@[simp] theorem modQueue_launches (k : Nat) (f : Queue → Queue) : (modQueue s k f).launches = s.launches := rfl
@[simp] theorem modQueue_funcs (k : Nat) (f : Queue → Queue) : (modQueue s k f).funcs = s.funcs := rfl
@[simp] theorem modQueue_routes (k : Nat) (f : Queue → Queue) : (modQueue s k f).routes = s.routes := rfl
@[simp] theorem modQueue_streams (k : Nat) (f : Queue → Queue) : (modQueue s k f).streams = s.streams := rfl
@[simp] theorem modQueue_pops (k : Nat) (f : Queue → Queue) : (modQueue s k f).pops = s.pops := rfl
@[simp] theorem modQueue_acc (k : Nat) (f : Queue → Queue) : (modQueue s k f).acc = s.acc := rfl
@[simp] theorem modQueue_rels (k : Nat) (f : Queue → Queue) : (modQueue s k f).rels = s.rels := rfl
@[simp] theorem modQueue_copies (k : Nat) (f : Queue → Queue) : (modQueue s k f).copies = s.copies := rfl
@[simp] theorem modQueue_bodies (k : Nat) (f : Queue → Queue) : (modQueue s k f).bodies = s.bodies := rfl
@[simp] theorem modQueue_nextId (k : Nat) (f : Queue → Queue) : (modQueue s k f).nextId = s.nextId := rfl
@[simp] theorem modQueue_feXlat (k : Nat) (f : Queue → Queue) : (modQueue s k f).feXlat = s.feXlat := rfl
@[simp] theorem modQueue_trbase (k : Nat) (f : Queue → Queue) : (modQueue s k f).trbase = s.trbase := rfl
@[simp] theorem modQueue_tren (k : Nat) (f : Queue → Queue) : (modQueue s k f).tren = s.tren := rfl
@[simp] theorem modQueue_quantum (k : Nat) (f : Queue → Queue) : (modQueue s k f).quantum = s.quantum := rfl
@[simp] theorem modQueue_caps (k : Nat) (f : Queue → Queue) : (modQueue s k f).caps = s.caps := rfl
@[simp] theorem modQueue_grid (k : Nat) (f : Queue → Queue) : (modQueue s k f).grid = s.grid := rfl
@[simp] theorem modQueue_bias (k : Nat) (f : Queue → Queue) : (modQueue s k f).bias = s.bias := rfl
@[simp] theorem modQueue_biasOld (k : Nat) (f : Queue → Queue) : (modQueue s k f).biasOld = s.biasOld := rfl
@[simp] theorem modQueue_biasWait (k : Nat) (f : Queue → Queue) : (modQueue s k f).biasWait = s.biasWait := rfl
@[simp] theorem modQueue_sec (k : Nat) (f : Queue → Queue) : (modQueue s k f).sec = s.sec := rfl
@[simp] theorem modQueue_spdm (k : Nat) (f : Queue → Queue) : (modQueue s k f).spdm = s.spdm := rfl
@[simp] theorem modQueue_ecc (k : Nat) (f : Queue → Queue) : (modQueue s k f).ecc = s.ecc := rfl
@[simp] theorem modQueue_eccPad (k : Nat) (f : Queue → Queue) : (modQueue s k f).eccPad = s.eccPad := rfl
@[simp] theorem modQueue_eccLog (k : Nat) (f : Queue → Queue) : (modQueue s k f).eccLog = s.eccLog := rfl
@[simp] theorem modQueue_invpg (k : Nat) (f : Queue → Queue) : (modQueue s k f).invpg = s.invpg := rfl

/-! `setFunc` -/

@[simp] theorem setFunc_turns (k : Nat) (x : Func) : (setFunc s k x).turns = s.turns := rfl
@[simp] theorem setFunc_serial (k : Nat) (x : Func) : (setFunc s k x).serial = s.serial := rfl
@[simp] theorem setFunc_now (k : Nat) (x : Func) : (setFunc s k x).now = s.now := rfl
@[simp] theorem setFunc_cur (k : Nat) (x : Func) : (setFunc s k x).cur = s.cur := rfl
@[simp] theorem setFunc_mem (k : Nat) (x : Func) : (setFunc s k x).mem = s.mem := rfl
@[simp] theorem setFunc_wiped (k : Nat) (x : Func) : (setFunc s k x).wiped = s.wiped := rfl
@[simp] theorem setFunc_hostMem (k : Nat) (x : Func) : (setFunc s k x).hostMem = s.hostMem := rfl
@[simp] theorem setFunc_hist (k : Nat) (x : Func) : (setFunc s k x).hist = s.hist := rfl
@[simp] theorem setFunc_commits (k : Nat) (x : Func) : (setFunc s k x).commits = s.commits := rfl
@[simp] theorem setFunc_waves (k : Nat) (x : Func) : (setFunc s k x).waves = s.waves := rfl
@[simp] theorem setFunc_parties (k : Nat) (x : Func) : (setFunc s k x).parties = s.parties := rfl
@[simp] theorem setFunc_cores (k : Nat) (x : Func) : (setFunc s k x).cores = s.cores := rfl
@[simp] theorem setFunc_clusters (k : Nat) (x : Func) : (setFunc s k x).clusters = s.clusters := rfl
@[simp] theorem setFunc_dies (k : Nat) (x : Func) : (setFunc s k x).dies = s.dies := rfl
@[simp] theorem setFunc_convoys (k : Nat) (x : Func) : (setFunc s k x).convoys = s.convoys := rfl
@[simp] theorem setFunc_launches (k : Nat) (x : Func) : (setFunc s k x).launches = s.launches := rfl
@[simp] theorem setFunc_queues (k : Nat) (x : Func) : (setFunc s k x).queues = s.queues := rfl
@[simp] theorem setFunc_routes (k : Nat) (x : Func) : (setFunc s k x).routes = s.routes := rfl
@[simp] theorem setFunc_streams (k : Nat) (x : Func) : (setFunc s k x).streams = s.streams := rfl
@[simp] theorem setFunc_pops (k : Nat) (x : Func) : (setFunc s k x).pops = s.pops := rfl
@[simp] theorem setFunc_acc (k : Nat) (x : Func) : (setFunc s k x).acc = s.acc := rfl
@[simp] theorem setFunc_rels (k : Nat) (x : Func) : (setFunc s k x).rels = s.rels := rfl
@[simp] theorem setFunc_copies (k : Nat) (x : Func) : (setFunc s k x).copies = s.copies := rfl
@[simp] theorem setFunc_bodies (k : Nat) (x : Func) : (setFunc s k x).bodies = s.bodies := rfl
@[simp] theorem setFunc_nextId (k : Nat) (x : Func) : (setFunc s k x).nextId = s.nextId := rfl
@[simp] theorem setFunc_feXlat (k : Nat) (x : Func) : (setFunc s k x).feXlat = s.feXlat := rfl
@[simp] theorem setFunc_trbase (k : Nat) (x : Func) : (setFunc s k x).trbase = s.trbase := rfl
@[simp] theorem setFunc_tren (k : Nat) (x : Func) : (setFunc s k x).tren = s.tren := rfl
@[simp] theorem setFunc_quantum (k : Nat) (x : Func) : (setFunc s k x).quantum = s.quantum := rfl
@[simp] theorem setFunc_caps (k : Nat) (x : Func) : (setFunc s k x).caps = s.caps := rfl
@[simp] theorem setFunc_grid (k : Nat) (x : Func) : (setFunc s k x).grid = s.grid := rfl
@[simp] theorem setFunc_bias (k : Nat) (x : Func) : (setFunc s k x).bias = s.bias := rfl
@[simp] theorem setFunc_biasOld (k : Nat) (x : Func) : (setFunc s k x).biasOld = s.biasOld := rfl
@[simp] theorem setFunc_biasWait (k : Nat) (x : Func) : (setFunc s k x).biasWait = s.biasWait := rfl
@[simp] theorem setFunc_sec (k : Nat) (x : Func) : (setFunc s k x).sec = s.sec := rfl
@[simp] theorem setFunc_spdm (k : Nat) (x : Func) : (setFunc s k x).spdm = s.spdm := rfl
@[simp] theorem setFunc_ecc (k : Nat) (x : Func) : (setFunc s k x).ecc = s.ecc := rfl
@[simp] theorem setFunc_eccPad (k : Nat) (x : Func) : (setFunc s k x).eccPad = s.eccPad := rfl
@[simp] theorem setFunc_eccLog (k : Nat) (x : Func) : (setFunc s k x).eccLog = s.eccLog := rfl
@[simp] theorem setFunc_invpg (k : Nat) (x : Func) : (setFunc s k x).invpg = s.invpg := rfl

/-! `modFunc` -/

@[simp] theorem modFunc_turns (k : Nat) (f : Func → Func) : (modFunc s k f).turns = s.turns := rfl
@[simp] theorem modFunc_serial (k : Nat) (f : Func → Func) : (modFunc s k f).serial = s.serial := rfl
@[simp] theorem modFunc_now (k : Nat) (f : Func → Func) : (modFunc s k f).now = s.now := rfl
@[simp] theorem modFunc_cur (k : Nat) (f : Func → Func) : (modFunc s k f).cur = s.cur := rfl
@[simp] theorem modFunc_mem (k : Nat) (f : Func → Func) : (modFunc s k f).mem = s.mem := rfl
@[simp] theorem modFunc_wiped (k : Nat) (f : Func → Func) : (modFunc s k f).wiped = s.wiped := rfl
@[simp] theorem modFunc_hostMem (k : Nat) (f : Func → Func) : (modFunc s k f).hostMem = s.hostMem := rfl
@[simp] theorem modFunc_hist (k : Nat) (f : Func → Func) : (modFunc s k f).hist = s.hist := rfl
@[simp] theorem modFunc_commits (k : Nat) (f : Func → Func) : (modFunc s k f).commits = s.commits := rfl
@[simp] theorem modFunc_waves (k : Nat) (f : Func → Func) : (modFunc s k f).waves = s.waves := rfl
@[simp] theorem modFunc_parties (k : Nat) (f : Func → Func) : (modFunc s k f).parties = s.parties := rfl
@[simp] theorem modFunc_cores (k : Nat) (f : Func → Func) : (modFunc s k f).cores = s.cores := rfl
@[simp] theorem modFunc_clusters (k : Nat) (f : Func → Func) : (modFunc s k f).clusters = s.clusters := rfl
@[simp] theorem modFunc_dies (k : Nat) (f : Func → Func) : (modFunc s k f).dies = s.dies := rfl
@[simp] theorem modFunc_convoys (k : Nat) (f : Func → Func) : (modFunc s k f).convoys = s.convoys := rfl
@[simp] theorem modFunc_launches (k : Nat) (f : Func → Func) : (modFunc s k f).launches = s.launches := rfl
@[simp] theorem modFunc_queues (k : Nat) (f : Func → Func) : (modFunc s k f).queues = s.queues := rfl
@[simp] theorem modFunc_routes (k : Nat) (f : Func → Func) : (modFunc s k f).routes = s.routes := rfl
@[simp] theorem modFunc_streams (k : Nat) (f : Func → Func) : (modFunc s k f).streams = s.streams := rfl
@[simp] theorem modFunc_pops (k : Nat) (f : Func → Func) : (modFunc s k f).pops = s.pops := rfl
@[simp] theorem modFunc_acc (k : Nat) (f : Func → Func) : (modFunc s k f).acc = s.acc := rfl
@[simp] theorem modFunc_rels (k : Nat) (f : Func → Func) : (modFunc s k f).rels = s.rels := rfl
@[simp] theorem modFunc_copies (k : Nat) (f : Func → Func) : (modFunc s k f).copies = s.copies := rfl
@[simp] theorem modFunc_bodies (k : Nat) (f : Func → Func) : (modFunc s k f).bodies = s.bodies := rfl
@[simp] theorem modFunc_nextId (k : Nat) (f : Func → Func) : (modFunc s k f).nextId = s.nextId := rfl
@[simp] theorem modFunc_feXlat (k : Nat) (f : Func → Func) : (modFunc s k f).feXlat = s.feXlat := rfl
@[simp] theorem modFunc_trbase (k : Nat) (f : Func → Func) : (modFunc s k f).trbase = s.trbase := rfl
@[simp] theorem modFunc_tren (k : Nat) (f : Func → Func) : (modFunc s k f).tren = s.tren := rfl
@[simp] theorem modFunc_quantum (k : Nat) (f : Func → Func) : (modFunc s k f).quantum = s.quantum := rfl
@[simp] theorem modFunc_caps (k : Nat) (f : Func → Func) : (modFunc s k f).caps = s.caps := rfl
@[simp] theorem modFunc_grid (k : Nat) (f : Func → Func) : (modFunc s k f).grid = s.grid := rfl
@[simp] theorem modFunc_bias (k : Nat) (f : Func → Func) : (modFunc s k f).bias = s.bias := rfl
@[simp] theorem modFunc_biasOld (k : Nat) (f : Func → Func) : (modFunc s k f).biasOld = s.biasOld := rfl
@[simp] theorem modFunc_biasWait (k : Nat) (f : Func → Func) : (modFunc s k f).biasWait = s.biasWait := rfl
@[simp] theorem modFunc_sec (k : Nat) (f : Func → Func) : (modFunc s k f).sec = s.sec := rfl
@[simp] theorem modFunc_spdm (k : Nat) (f : Func → Func) : (modFunc s k f).spdm = s.spdm := rfl
@[simp] theorem modFunc_ecc (k : Nat) (f : Func → Func) : (modFunc s k f).ecc = s.ecc := rfl
@[simp] theorem modFunc_eccPad (k : Nat) (f : Func → Func) : (modFunc s k f).eccPad = s.eccPad := rfl
@[simp] theorem modFunc_eccLog (k : Nat) (f : Func → Func) : (modFunc s k f).eccLog = s.eccLog := rfl
@[simp] theorem modFunc_invpg (k : Nat) (f : Func → Func) : (modFunc s k f).invpg = s.invpg := rfl

/-! `setAcc` -/

@[simp] theorem setAcc_turns (k : Nat) (x : Acc) : (setAcc s k x).turns = s.turns := rfl
@[simp] theorem setAcc_serial (k : Nat) (x : Acc) : (setAcc s k x).serial = s.serial := rfl
@[simp] theorem setAcc_now (k : Nat) (x : Acc) : (setAcc s k x).now = s.now := rfl
@[simp] theorem setAcc_cur (k : Nat) (x : Acc) : (setAcc s k x).cur = s.cur := rfl
@[simp] theorem setAcc_mem (k : Nat) (x : Acc) : (setAcc s k x).mem = s.mem := rfl
@[simp] theorem setAcc_wiped (k : Nat) (x : Acc) : (setAcc s k x).wiped = s.wiped := rfl
@[simp] theorem setAcc_hostMem (k : Nat) (x : Acc) : (setAcc s k x).hostMem = s.hostMem := rfl
@[simp] theorem setAcc_hist (k : Nat) (x : Acc) : (setAcc s k x).hist = s.hist := rfl
@[simp] theorem setAcc_commits (k : Nat) (x : Acc) : (setAcc s k x).commits = s.commits := rfl
@[simp] theorem setAcc_waves (k : Nat) (x : Acc) : (setAcc s k x).waves = s.waves := rfl
@[simp] theorem setAcc_parties (k : Nat) (x : Acc) : (setAcc s k x).parties = s.parties := rfl
@[simp] theorem setAcc_cores (k : Nat) (x : Acc) : (setAcc s k x).cores = s.cores := rfl
@[simp] theorem setAcc_clusters (k : Nat) (x : Acc) : (setAcc s k x).clusters = s.clusters := rfl
@[simp] theorem setAcc_dies (k : Nat) (x : Acc) : (setAcc s k x).dies = s.dies := rfl
@[simp] theorem setAcc_convoys (k : Nat) (x : Acc) : (setAcc s k x).convoys = s.convoys := rfl
@[simp] theorem setAcc_launches (k : Nat) (x : Acc) : (setAcc s k x).launches = s.launches := rfl
@[simp] theorem setAcc_queues (k : Nat) (x : Acc) : (setAcc s k x).queues = s.queues := rfl
@[simp] theorem setAcc_funcs (k : Nat) (x : Acc) : (setAcc s k x).funcs = s.funcs := rfl
@[simp] theorem setAcc_routes (k : Nat) (x : Acc) : (setAcc s k x).routes = s.routes := rfl
@[simp] theorem setAcc_streams (k : Nat) (x : Acc) : (setAcc s k x).streams = s.streams := rfl
@[simp] theorem setAcc_pops (k : Nat) (x : Acc) : (setAcc s k x).pops = s.pops := rfl
@[simp] theorem setAcc_rels (k : Nat) (x : Acc) : (setAcc s k x).rels = s.rels := rfl
@[simp] theorem setAcc_copies (k : Nat) (x : Acc) : (setAcc s k x).copies = s.copies := rfl
@[simp] theorem setAcc_bodies (k : Nat) (x : Acc) : (setAcc s k x).bodies = s.bodies := rfl
@[simp] theorem setAcc_nextId (k : Nat) (x : Acc) : (setAcc s k x).nextId = s.nextId := rfl
@[simp] theorem setAcc_feXlat (k : Nat) (x : Acc) : (setAcc s k x).feXlat = s.feXlat := rfl
@[simp] theorem setAcc_trbase (k : Nat) (x : Acc) : (setAcc s k x).trbase = s.trbase := rfl
@[simp] theorem setAcc_tren (k : Nat) (x : Acc) : (setAcc s k x).tren = s.tren := rfl
@[simp] theorem setAcc_quantum (k : Nat) (x : Acc) : (setAcc s k x).quantum = s.quantum := rfl
@[simp] theorem setAcc_caps (k : Nat) (x : Acc) : (setAcc s k x).caps = s.caps := rfl
@[simp] theorem setAcc_grid (k : Nat) (x : Acc) : (setAcc s k x).grid = s.grid := rfl
@[simp] theorem setAcc_bias (k : Nat) (x : Acc) : (setAcc s k x).bias = s.bias := rfl
@[simp] theorem setAcc_biasOld (k : Nat) (x : Acc) : (setAcc s k x).biasOld = s.biasOld := rfl
@[simp] theorem setAcc_biasWait (k : Nat) (x : Acc) : (setAcc s k x).biasWait = s.biasWait := rfl
@[simp] theorem setAcc_sec (k : Nat) (x : Acc) : (setAcc s k x).sec = s.sec := rfl
@[simp] theorem setAcc_spdm (k : Nat) (x : Acc) : (setAcc s k x).spdm = s.spdm := rfl
@[simp] theorem setAcc_ecc (k : Nat) (x : Acc) : (setAcc s k x).ecc = s.ecc := rfl
@[simp] theorem setAcc_eccPad (k : Nat) (x : Acc) : (setAcc s k x).eccPad = s.eccPad := rfl
@[simp] theorem setAcc_eccLog (k : Nat) (x : Acc) : (setAcc s k x).eccLog = s.eccLog := rfl
@[simp] theorem setAcc_invpg (k : Nat) (x : Acc) : (setAcc s k x).invpg = s.invpg := rfl

/-! `delAcc` -/

@[simp] theorem delAcc_turns (k : Nat) : (delAcc s k).turns = s.turns := rfl
@[simp] theorem delAcc_serial (k : Nat) : (delAcc s k).serial = s.serial := rfl
@[simp] theorem delAcc_now (k : Nat) : (delAcc s k).now = s.now := rfl
@[simp] theorem delAcc_cur (k : Nat) : (delAcc s k).cur = s.cur := rfl
@[simp] theorem delAcc_mem (k : Nat) : (delAcc s k).mem = s.mem := rfl
@[simp] theorem delAcc_wiped (k : Nat) : (delAcc s k).wiped = s.wiped := rfl
@[simp] theorem delAcc_hostMem (k : Nat) : (delAcc s k).hostMem = s.hostMem := rfl
@[simp] theorem delAcc_hist (k : Nat) : (delAcc s k).hist = s.hist := rfl
@[simp] theorem delAcc_commits (k : Nat) : (delAcc s k).commits = s.commits := rfl
@[simp] theorem delAcc_waves (k : Nat) : (delAcc s k).waves = s.waves := rfl
@[simp] theorem delAcc_parties (k : Nat) : (delAcc s k).parties = s.parties := rfl
@[simp] theorem delAcc_cores (k : Nat) : (delAcc s k).cores = s.cores := rfl
@[simp] theorem delAcc_clusters (k : Nat) : (delAcc s k).clusters = s.clusters := rfl
@[simp] theorem delAcc_dies (k : Nat) : (delAcc s k).dies = s.dies := rfl
@[simp] theorem delAcc_convoys (k : Nat) : (delAcc s k).convoys = s.convoys := rfl
@[simp] theorem delAcc_launches (k : Nat) : (delAcc s k).launches = s.launches := rfl
@[simp] theorem delAcc_queues (k : Nat) : (delAcc s k).queues = s.queues := rfl
@[simp] theorem delAcc_funcs (k : Nat) : (delAcc s k).funcs = s.funcs := rfl
@[simp] theorem delAcc_routes (k : Nat) : (delAcc s k).routes = s.routes := rfl
@[simp] theorem delAcc_streams (k : Nat) : (delAcc s k).streams = s.streams := rfl
@[simp] theorem delAcc_pops (k : Nat) : (delAcc s k).pops = s.pops := rfl
@[simp] theorem delAcc_rels (k : Nat) : (delAcc s k).rels = s.rels := rfl
@[simp] theorem delAcc_copies (k : Nat) : (delAcc s k).copies = s.copies := rfl
@[simp] theorem delAcc_bodies (k : Nat) : (delAcc s k).bodies = s.bodies := rfl
@[simp] theorem delAcc_nextId (k : Nat) : (delAcc s k).nextId = s.nextId := rfl
@[simp] theorem delAcc_feXlat (k : Nat) : (delAcc s k).feXlat = s.feXlat := rfl
@[simp] theorem delAcc_trbase (k : Nat) : (delAcc s k).trbase = s.trbase := rfl
@[simp] theorem delAcc_tren (k : Nat) : (delAcc s k).tren = s.tren := rfl
@[simp] theorem delAcc_quantum (k : Nat) : (delAcc s k).quantum = s.quantum := rfl
@[simp] theorem delAcc_caps (k : Nat) : (delAcc s k).caps = s.caps := rfl
@[simp] theorem delAcc_grid (k : Nat) : (delAcc s k).grid = s.grid := rfl
@[simp] theorem delAcc_bias (k : Nat) : (delAcc s k).bias = s.bias := rfl
@[simp] theorem delAcc_biasOld (k : Nat) : (delAcc s k).biasOld = s.biasOld := rfl
@[simp] theorem delAcc_biasWait (k : Nat) : (delAcc s k).biasWait = s.biasWait := rfl
@[simp] theorem delAcc_sec (k : Nat) : (delAcc s k).sec = s.sec := rfl
@[simp] theorem delAcc_spdm (k : Nat) : (delAcc s k).spdm = s.spdm := rfl
@[simp] theorem delAcc_ecc (k : Nat) : (delAcc s k).ecc = s.ecc := rfl
@[simp] theorem delAcc_eccPad (k : Nat) : (delAcc s k).eccPad = s.eccPad := rfl
@[simp] theorem delAcc_eccLog (k : Nat) : (delAcc s k).eccLog = s.eccLog := rfl
@[simp] theorem delAcc_invpg (k : Nat) : (delAcc s k).invpg = s.invpg := rfl

/-! `setCopy` -/

@[simp] theorem setCopy_turns (k : Nat) (x : Copy) : (setCopy s k x).turns = s.turns := rfl
@[simp] theorem setCopy_serial (k : Nat) (x : Copy) : (setCopy s k x).serial = s.serial := rfl
@[simp] theorem setCopy_now (k : Nat) (x : Copy) : (setCopy s k x).now = s.now := rfl
@[simp] theorem setCopy_cur (k : Nat) (x : Copy) : (setCopy s k x).cur = s.cur := rfl
@[simp] theorem setCopy_mem (k : Nat) (x : Copy) : (setCopy s k x).mem = s.mem := rfl
@[simp] theorem setCopy_wiped (k : Nat) (x : Copy) : (setCopy s k x).wiped = s.wiped := rfl
@[simp] theorem setCopy_hostMem (k : Nat) (x : Copy) : (setCopy s k x).hostMem = s.hostMem := rfl
@[simp] theorem setCopy_hist (k : Nat) (x : Copy) : (setCopy s k x).hist = s.hist := rfl
@[simp] theorem setCopy_commits (k : Nat) (x : Copy) : (setCopy s k x).commits = s.commits := rfl
@[simp] theorem setCopy_waves (k : Nat) (x : Copy) : (setCopy s k x).waves = s.waves := rfl
@[simp] theorem setCopy_parties (k : Nat) (x : Copy) : (setCopy s k x).parties = s.parties := rfl
@[simp] theorem setCopy_cores (k : Nat) (x : Copy) : (setCopy s k x).cores = s.cores := rfl
@[simp] theorem setCopy_clusters (k : Nat) (x : Copy) : (setCopy s k x).clusters = s.clusters := rfl
@[simp] theorem setCopy_dies (k : Nat) (x : Copy) : (setCopy s k x).dies = s.dies := rfl
@[simp] theorem setCopy_convoys (k : Nat) (x : Copy) : (setCopy s k x).convoys = s.convoys := rfl
@[simp] theorem setCopy_launches (k : Nat) (x : Copy) : (setCopy s k x).launches = s.launches := rfl
@[simp] theorem setCopy_queues (k : Nat) (x : Copy) : (setCopy s k x).queues = s.queues := rfl
@[simp] theorem setCopy_funcs (k : Nat) (x : Copy) : (setCopy s k x).funcs = s.funcs := rfl
@[simp] theorem setCopy_routes (k : Nat) (x : Copy) : (setCopy s k x).routes = s.routes := rfl
@[simp] theorem setCopy_streams (k : Nat) (x : Copy) : (setCopy s k x).streams = s.streams := rfl
@[simp] theorem setCopy_pops (k : Nat) (x : Copy) : (setCopy s k x).pops = s.pops := rfl
@[simp] theorem setCopy_acc (k : Nat) (x : Copy) : (setCopy s k x).acc = s.acc := rfl
@[simp] theorem setCopy_rels (k : Nat) (x : Copy) : (setCopy s k x).rels = s.rels := rfl
@[simp] theorem setCopy_bodies (k : Nat) (x : Copy) : (setCopy s k x).bodies = s.bodies := rfl
@[simp] theorem setCopy_nextId (k : Nat) (x : Copy) : (setCopy s k x).nextId = s.nextId := rfl
@[simp] theorem setCopy_feXlat (k : Nat) (x : Copy) : (setCopy s k x).feXlat = s.feXlat := rfl
@[simp] theorem setCopy_trbase (k : Nat) (x : Copy) : (setCopy s k x).trbase = s.trbase := rfl
@[simp] theorem setCopy_tren (k : Nat) (x : Copy) : (setCopy s k x).tren = s.tren := rfl
@[simp] theorem setCopy_quantum (k : Nat) (x : Copy) : (setCopy s k x).quantum = s.quantum := rfl
@[simp] theorem setCopy_caps (k : Nat) (x : Copy) : (setCopy s k x).caps = s.caps := rfl
@[simp] theorem setCopy_grid (k : Nat) (x : Copy) : (setCopy s k x).grid = s.grid := rfl
@[simp] theorem setCopy_bias (k : Nat) (x : Copy) : (setCopy s k x).bias = s.bias := rfl
@[simp] theorem setCopy_biasOld (k : Nat) (x : Copy) : (setCopy s k x).biasOld = s.biasOld := rfl
@[simp] theorem setCopy_biasWait (k : Nat) (x : Copy) : (setCopy s k x).biasWait = s.biasWait := rfl
@[simp] theorem setCopy_sec (k : Nat) (x : Copy) : (setCopy s k x).sec = s.sec := rfl
@[simp] theorem setCopy_spdm (k : Nat) (x : Copy) : (setCopy s k x).spdm = s.spdm := rfl
@[simp] theorem setCopy_ecc (k : Nat) (x : Copy) : (setCopy s k x).ecc = s.ecc := rfl
@[simp] theorem setCopy_eccPad (k : Nat) (x : Copy) : (setCopy s k x).eccPad = s.eccPad := rfl
@[simp] theorem setCopy_eccLog (k : Nat) (x : Copy) : (setCopy s k x).eccLog = s.eccLog := rfl
@[simp] theorem setCopy_invpg (k : Nat) (x : Copy) : (setCopy s k x).invpg = s.invpg := rfl

/-! `delCopy` -/

@[simp] theorem delCopy_turns (k : Nat) : (delCopy s k).turns = s.turns := rfl
@[simp] theorem delCopy_serial (k : Nat) : (delCopy s k).serial = s.serial := rfl
@[simp] theorem delCopy_now (k : Nat) : (delCopy s k).now = s.now := rfl
@[simp] theorem delCopy_cur (k : Nat) : (delCopy s k).cur = s.cur := rfl
@[simp] theorem delCopy_mem (k : Nat) : (delCopy s k).mem = s.mem := rfl
@[simp] theorem delCopy_wiped (k : Nat) : (delCopy s k).wiped = s.wiped := rfl
@[simp] theorem delCopy_hostMem (k : Nat) : (delCopy s k).hostMem = s.hostMem := rfl
@[simp] theorem delCopy_hist (k : Nat) : (delCopy s k).hist = s.hist := rfl
@[simp] theorem delCopy_commits (k : Nat) : (delCopy s k).commits = s.commits := rfl
@[simp] theorem delCopy_waves (k : Nat) : (delCopy s k).waves = s.waves := rfl
@[simp] theorem delCopy_parties (k : Nat) : (delCopy s k).parties = s.parties := rfl
@[simp] theorem delCopy_cores (k : Nat) : (delCopy s k).cores = s.cores := rfl
@[simp] theorem delCopy_clusters (k : Nat) : (delCopy s k).clusters = s.clusters := rfl
@[simp] theorem delCopy_dies (k : Nat) : (delCopy s k).dies = s.dies := rfl
@[simp] theorem delCopy_convoys (k : Nat) : (delCopy s k).convoys = s.convoys := rfl
@[simp] theorem delCopy_launches (k : Nat) : (delCopy s k).launches = s.launches := rfl
@[simp] theorem delCopy_queues (k : Nat) : (delCopy s k).queues = s.queues := rfl
@[simp] theorem delCopy_funcs (k : Nat) : (delCopy s k).funcs = s.funcs := rfl
@[simp] theorem delCopy_routes (k : Nat) : (delCopy s k).routes = s.routes := rfl
@[simp] theorem delCopy_streams (k : Nat) : (delCopy s k).streams = s.streams := rfl
@[simp] theorem delCopy_pops (k : Nat) : (delCopy s k).pops = s.pops := rfl
@[simp] theorem delCopy_acc (k : Nat) : (delCopy s k).acc = s.acc := rfl
@[simp] theorem delCopy_rels (k : Nat) : (delCopy s k).rels = s.rels := rfl
@[simp] theorem delCopy_bodies (k : Nat) : (delCopy s k).bodies = s.bodies := rfl
@[simp] theorem delCopy_nextId (k : Nat) : (delCopy s k).nextId = s.nextId := rfl
@[simp] theorem delCopy_feXlat (k : Nat) : (delCopy s k).feXlat = s.feXlat := rfl
@[simp] theorem delCopy_trbase (k : Nat) : (delCopy s k).trbase = s.trbase := rfl
@[simp] theorem delCopy_tren (k : Nat) : (delCopy s k).tren = s.tren := rfl
@[simp] theorem delCopy_quantum (k : Nat) : (delCopy s k).quantum = s.quantum := rfl
@[simp] theorem delCopy_caps (k : Nat) : (delCopy s k).caps = s.caps := rfl
@[simp] theorem delCopy_grid (k : Nat) : (delCopy s k).grid = s.grid := rfl
@[simp] theorem delCopy_bias (k : Nat) : (delCopy s k).bias = s.bias := rfl
@[simp] theorem delCopy_biasOld (k : Nat) : (delCopy s k).biasOld = s.biasOld := rfl
@[simp] theorem delCopy_biasWait (k : Nat) : (delCopy s k).biasWait = s.biasWait := rfl
@[simp] theorem delCopy_sec (k : Nat) : (delCopy s k).sec = s.sec := rfl
@[simp] theorem delCopy_spdm (k : Nat) : (delCopy s k).spdm = s.spdm := rfl
@[simp] theorem delCopy_ecc (k : Nat) : (delCopy s k).ecc = s.ecc := rfl
@[simp] theorem delCopy_eccPad (k : Nat) : (delCopy s k).eccPad = s.eccPad := rfl
@[simp] theorem delCopy_eccLog (k : Nat) : (delCopy s k).eccLog = s.eccLog := rfl
@[simp] theorem delCopy_invpg (k : Nat) : (delCopy s k).invpg = s.invpg := rfl

/-! `bump` -/

@[simp] theorem bump_turns : (bump s).turns = s.turns := rfl
@[simp] theorem bump_now : (bump s).now = s.now := rfl
@[simp] theorem bump_cur : (bump s).cur = s.cur := rfl
@[simp] theorem bump_mem : (bump s).mem = s.mem := rfl
@[simp] theorem bump_wiped : (bump s).wiped = s.wiped := rfl
@[simp] theorem bump_hostMem : (bump s).hostMem = s.hostMem := rfl
@[simp] theorem bump_hist : (bump s).hist = s.hist := rfl
@[simp] theorem bump_commits : (bump s).commits = s.commits := rfl
@[simp] theorem bump_waves : (bump s).waves = s.waves := rfl
@[simp] theorem bump_parties : (bump s).parties = s.parties := rfl
@[simp] theorem bump_cores : (bump s).cores = s.cores := rfl
@[simp] theorem bump_clusters : (bump s).clusters = s.clusters := rfl
@[simp] theorem bump_dies : (bump s).dies = s.dies := rfl
@[simp] theorem bump_convoys : (bump s).convoys = s.convoys := rfl
@[simp] theorem bump_launches : (bump s).launches = s.launches := rfl
@[simp] theorem bump_queues : (bump s).queues = s.queues := rfl
@[simp] theorem bump_funcs : (bump s).funcs = s.funcs := rfl
@[simp] theorem bump_routes : (bump s).routes = s.routes := rfl
@[simp] theorem bump_streams : (bump s).streams = s.streams := rfl
@[simp] theorem bump_pops : (bump s).pops = s.pops := rfl
@[simp] theorem bump_acc : (bump s).acc = s.acc := rfl
@[simp] theorem bump_rels : (bump s).rels = s.rels := rfl
@[simp] theorem bump_copies : (bump s).copies = s.copies := rfl
@[simp] theorem bump_bodies : (bump s).bodies = s.bodies := rfl
@[simp] theorem bump_nextId : (bump s).nextId = s.nextId := rfl
@[simp] theorem bump_feXlat : (bump s).feXlat = s.feXlat := rfl
@[simp] theorem bump_trbase : (bump s).trbase = s.trbase := rfl
@[simp] theorem bump_tren : (bump s).tren = s.tren := rfl
@[simp] theorem bump_quantum : (bump s).quantum = s.quantum := rfl
@[simp] theorem bump_caps : (bump s).caps = s.caps := rfl
@[simp] theorem bump_grid : (bump s).grid = s.grid := rfl
@[simp] theorem bump_bias : (bump s).bias = s.bias := rfl
@[simp] theorem bump_biasOld : (bump s).biasOld = s.biasOld := rfl
@[simp] theorem bump_biasWait : (bump s).biasWait = s.biasWait := rfl
@[simp] theorem bump_sec : (bump s).sec = s.sec := rfl
@[simp] theorem bump_spdm : (bump s).spdm = s.spdm := rfl
@[simp] theorem bump_ecc : (bump s).ecc = s.ecc := rfl
@[simp] theorem bump_eccPad : (bump s).eccPad = s.eccPad := rfl
@[simp] theorem bump_eccLog : (bump s).eccLog = s.eccLog := rfl
@[simp] theorem bump_invpg : (bump s).invpg = s.invpg := rfl

/-! `endEvent` -/

@[simp] theorem endEvent_turns : (endEvent s).turns = s.turns := rfl
@[simp] theorem endEvent_serial : (endEvent s).serial = s.serial := rfl
@[simp] theorem endEvent_now : (endEvent s).now = s.now := rfl
@[simp] theorem endEvent_cur : (endEvent s).cur = s.cur := rfl
@[simp] theorem endEvent_mem : (endEvent s).mem = s.mem := rfl
@[simp] theorem endEvent_wiped : (endEvent s).wiped = s.wiped := rfl
@[simp] theorem endEvent_hostMem : (endEvent s).hostMem = s.hostMem := rfl
@[simp] theorem endEvent_hist : (endEvent s).hist = s.hist := rfl
@[simp] theorem endEvent_waves : (endEvent s).waves = s.waves := rfl
@[simp] theorem endEvent_parties : (endEvent s).parties = s.parties := rfl
@[simp] theorem endEvent_cores : (endEvent s).cores = s.cores := rfl
@[simp] theorem endEvent_clusters : (endEvent s).clusters = s.clusters := rfl
@[simp] theorem endEvent_dies : (endEvent s).dies = s.dies := rfl
@[simp] theorem endEvent_convoys : (endEvent s).convoys = s.convoys := rfl
@[simp] theorem endEvent_launches : (endEvent s).launches = s.launches := rfl
@[simp] theorem endEvent_queues : (endEvent s).queues = s.queues := rfl
@[simp] theorem endEvent_funcs : (endEvent s).funcs = s.funcs := rfl
@[simp] theorem endEvent_routes : (endEvent s).routes = s.routes := rfl
@[simp] theorem endEvent_streams : (endEvent s).streams = s.streams := rfl
@[simp] theorem endEvent_pops : (endEvent s).pops = s.pops := rfl
@[simp] theorem endEvent_acc : (endEvent s).acc = s.acc := rfl
@[simp] theorem endEvent_rels : (endEvent s).rels = s.rels := rfl
@[simp] theorem endEvent_copies : (endEvent s).copies = s.copies := rfl
@[simp] theorem endEvent_bodies : (endEvent s).bodies = s.bodies := rfl
@[simp] theorem endEvent_nextId : (endEvent s).nextId = s.nextId := rfl
@[simp] theorem endEvent_feXlat : (endEvent s).feXlat = s.feXlat := rfl
@[simp] theorem endEvent_trbase : (endEvent s).trbase = s.trbase := rfl
@[simp] theorem endEvent_tren : (endEvent s).tren = s.tren := rfl
@[simp] theorem endEvent_quantum : (endEvent s).quantum = s.quantum := rfl
@[simp] theorem endEvent_caps : (endEvent s).caps = s.caps := rfl
@[simp] theorem endEvent_grid : (endEvent s).grid = s.grid := rfl
@[simp] theorem endEvent_bias : (endEvent s).bias = s.bias := rfl
@[simp] theorem endEvent_biasOld : (endEvent s).biasOld = s.biasOld := rfl
@[simp] theorem endEvent_biasWait : (endEvent s).biasWait = s.biasWait := rfl
@[simp] theorem endEvent_sec : (endEvent s).sec = s.sec := rfl
@[simp] theorem endEvent_spdm : (endEvent s).spdm = s.spdm := rfl
@[simp] theorem endEvent_ecc : (endEvent s).ecc = s.ecc := rfl
@[simp] theorem endEvent_eccPad : (endEvent s).eccPad = s.eccPad := rfl
@[simp] theorem endEvent_eccLog : (endEvent s).eccLog = s.eccLog := rfl
@[simp] theorem endEvent_invpg : (endEvent s).invpg = s.invpg := rfl

end Sys2Proof.Machine
end

