-- ==== Sys2Proof/Laws/Tab.lean ====
section
/-! SUPPORT. Tables: what a find answers after a put, a removal or a filter, and that each of them keeps one entry a key; the readers
of State's tables after their writers. -/

set_option Elab.async false

namespace Sys2Proof

open Machine

variable {α β : Type}

/-! ### Finding -/

theorem Tab.find_put_same (t : Tab α) (k : Nat) (x : α) : Tab.find (Tab.put t k x) k = some x := by
  induction t with
  | nil => simp [Tab.put, Tab.find]
  | cons e t ih =>
    obtain ⟨j, y⟩ := e
    simp only [Tab.put]
    split
    · simp [Tab.find]
    · split
      · simp [Tab.find]
      · next h => simp [Tab.find, ih, show ¬ j = k from fun h' => h h'.symm]

theorem Tab.find_put_ne (t : Tab α) (k n : Nat) (x : α) (h : n ≠ k) : Tab.find (Tab.put t k x) n = Tab.find t n := by
  have h' : ¬ k = n := fun e => h e.symm
  induction t with
  | nil => simp [Tab.put, Tab.find, h']
  | cons e t ih =>
    obtain ⟨j, y⟩ := e
    simp only [Tab.put]
    split
    · simp [Tab.find, h']
    · split
      · next hk => subst hk; simp [Tab.find, h']
      · simp only [Tab.find]; split <;> simp_all

/-- A find after a put, in one line. -/
theorem Tab.find_put (t : Tab α) (k n : Nat) (x : α) : Tab.find (Tab.put t k x) n = if n = k then some x else Tab.find t n := by
  split
  · next h => subst h; exact Tab.find_put_same t n x
  · next h => exact Tab.find_put_ne t k n x h

theorem Tab.findD_put (t : Tab α) (k n : Nat) (x d : α) : Tab.findD (Tab.put t k x) n d = if n = k then x else Tab.findD t n d := by
  unfold Tab.findD; rw [Tab.find_put]; split <;> rfl

/-- A find after a filter that decides by the key alone. -/
theorem Tab.find_filter_key (t : Tab α) (p : Nat → Bool) (n : Nat) :
    Tab.find (t.filter fun e => p e.1) n = if p n then Tab.find t n else none := by
  induction t with
  | nil => simp [Tab.find]
  | cons e t ih =>
    obtain ⟨j, y⟩ := e
    by_cases hj : j = n
    · subst hj
      cases hp : p j <;> simp_all [Tab.find]
    · cases hp : p j <;> simp_all [Tab.find]

theorem Tab.find_del (t : Tab α) (k n : Nat) : Tab.find (Tab.del t k) n = if n = k then none else Tab.find t n := by
  have h := Tab.find_filter_key t (fun j => decide (j ≠ k)) n
  simp only [Tab.del]
  rw [h]
  by_cases hn : n = k <;> simp [hn]

theorem Tab.findD_del (t : Tab α) (k n : Nat) (d : α) : Tab.findD (Tab.del t k) n d = if n = k then d else Tab.findD t n d := by
  unfold Tab.findD; rw [Tab.find_del]; split <;> rfl

/-- A filter keeps an entry that it passes. -/
theorem Tab.find_filter_keep (t : Tab α) (p : Nat × α → Bool) (n : Nat) (x : α) (h : Tab.find t n = some x) (hp : p (n, x) = true) :
    Tab.find (t.filter p) n = some x := by
  induction t with
  | nil => simp [Tab.find] at h
  | cons e t ih =>
    obtain ⟨j, y⟩ := e
    by_cases hj : j = n
    · subst hj
      simp [Tab.find] at h; subst h
      simp [hp, Tab.find]
    · have h2 : Tab.find t n = some x := by simpa [Tab.find, hj] using h
      rw [List.filter_cons]
      split
      · simp [Tab.find, hj, ih h2]
      · exact ih h2

/-- What a find answers stands in the table. -/
theorem Tab.mem_of_find (t : Tab α) (n : Nat) (x : α) (h : Tab.find t n = some x) : (n, x) ∈ t := by
  induction t with
  | nil => simp [Tab.find] at h
  | cons e t ih =>
    obtain ⟨j, y⟩ := e
    by_cases hj : j = n
    · subst hj; simp [Tab.find] at h; simp [h]
    · exact List.mem_cons_of_mem _ (ih (by simpa [Tab.find, hj] using h))

/-- A map of the values leaves the keys. -/
theorem Tab.find_map (t : Tab α) (f : Nat → α → β) (n : Nat) :
    Tab.find (t.map fun e => (e.1, f e.1 e.2)) n = (Tab.find t n).map (f n) := by
  induction t with
  | nil => simp [Tab.find]
  | cons e t ih =>
    obtain ⟨j, y⟩ := e
    by_cases hj : j = n
    · subst hj; simp [Tab.find]
    · simp [Tab.find, hj, ih]

/-! ### One entry a key -/

theorem Machine.TabOk.put_from {t : Tab α} (n : Nat) (x : α) (j : Nat) (hj : j < n) (h : ∀ e ∈ t, j < e.1) : ∀ e ∈ Tab.put t n x, j < e.1 := by
  induction t with
  | nil => simp [Tab.put]; exact hj
  | cons e t ih =>
    obtain ⟨k, y⟩ := e
    simp only [Tab.put]
    have h1 : j < k := h (k, y) (by simp)
    have h2 : ∀ e ∈ t, j < e.1 := fun e he => h e (by simp [he])
    split
    · intro e he; simp at he; rcases he with rfl | rfl | he
      · exact hj
      · exact h1
      · exact h _ (by simp [he])
    · split
      · intro e he; simp at he; rcases he with rfl | he
        · exact hj
        · exact h2 _ (by simpa using he)
      · intro e he; simp at he; rcases he with rfl | he
        · exact h1
        · exact ih h2 _ (by simpa using he)

theorem Machine.TabOk.put {t : Tab α} (h : TabOk t) (n : Nat) (x : α) : TabOk (Tab.put t n x) := by
  induction t with
  | nil => simp [TabOk, Tab.put]
  | cons e t ih =>
    obtain ⟨k, y⟩ := e
    have h1 : ∀ e ∈ t, k < e.1 := (List.pairwise_cons.1 h).1
    have h2 : TabOk t := (List.pairwise_cons.1 h).2
    simp only [Tab.put]
    split
    · next hlt =>
      refine List.pairwise_cons.2 ⟨?_, h⟩
      intro e he; simp at he; rcases he with rfl | he
      · exact hlt
      · exact Nat.lt_trans hlt (h1 _ he)
    · split
      · next heq => subst heq; exact List.pairwise_cons.2 ⟨h1, h2⟩
      · next hlt hne => exact List.pairwise_cons.2 ⟨Machine.TabOk.put_from n x k (by omega) h1, ih h2⟩

theorem Machine.TabOk.filter {t : Tab α} (h : TabOk t) (p : Nat × α → Bool) : TabOk (t.filter p) := List.Pairwise.filter p h

theorem Machine.TabOk.del {t : Tab α} (h : TabOk t) (n : Nat) : TabOk (Tab.del t n) := List.Pairwise.filter _ h

theorem Machine.TabOk.map {t : Tab α} (h : TabOk t) (f : Nat × α → β) : TabOk (t.map fun e => (e.1, f e)) :=
  List.pairwise_map.2 (List.Pairwise.imp (fun h => h) h)

/-! ### The readers of State after its writers -/

namespace Machine

variable (s : State)

theorem waveOf_setWave (k n : Nat) (w : Wave) : waveOf (setWave s k w) n = if n = k then some w else waveOf s n := Tab.find_put ..
theorem coreOf_setCore (k n : Nat) (x : Core) : coreOf (setCore s k x) n = if n = k then x else coreOf s n := Tab.findD_put ..
theorem coreOf_modCore (k n : Nat) (f : Core → Core) : coreOf (modCore s k f) n = if n = k then f (coreOf s k) else coreOf s n := Tab.findD_put ..
theorem dieOf_setDie (k n : Nat) (x : Die) : dieOf (setDie s k x) n = if n = k then x else dieOf s n := Tab.findD_put ..
theorem dieOf_modDie (k n : Nat) (f : Die → Die) : dieOf (modDie s k f) n = if n = k then f (dieOf s k) else dieOf s n := Tab.findD_put ..
theorem clus_setClus (k n : Nat) (x : Cluster4) : clus (setClus s k x) n = if n = k then x else clus s n := Tab.findD_put ..
theorem launchOf_setLaunch (k n : Nat) (l : Launch) : launchOf (setLaunch s k l) n = if n = k then some l else launchOf s n := Tab.find_put ..
theorem queueOf_setQueue (k n : Nat) (q : Queue) : queueOf (setQueue s k q) n = if n = k then q else queueOf s n := Tab.findD_put ..
theorem queueOf_modQueue (k n : Nat) (f : Queue → Queue) : queueOf (modQueue s k f) n = if n = k then f (queueOf s k) else queueOf s n :=
  Tab.findD_put ..
theorem funcOf_setFunc (k n : Nat) (x : Func) : funcOf (setFunc s k x) n = if n = k then x else funcOf s n := Tab.findD_put ..
theorem funcOf_modFunc (k n : Nat) (f : Func → Func) : funcOf (modFunc s k f) n = if n = k then f (funcOf s k) else funcOf s n := Tab.findD_put ..
theorem accOf_setAcc (k n : Nat) (a : Acc) : accOf (setAcc s k a) n = if n = k then some a else accOf s n := Tab.find_put ..
theorem accOf_delAcc (k n : Nat) : accOf (delAcc s k) n = if n = k then none else accOf s n := Tab.find_del ..
theorem copyOf_setCopy (k n : Nat) (c : Copy) : copyOf (setCopy s k c) n = if n = k then some c else copyOf s n := Tab.find_put ..
theorem copyOf_delCopy (k n : Nat) : copyOf (delCopy s k) n = if n = k then none else copyOf s n := Tab.find_del ..
theorem partyOf_setParty (lid p : Nat) (q : Party) : partyOf (setParty s lid p q) lid p = some q := Tab.find_put_same ..

theorem waveOf_bump (n : Nat) : waveOf (bump s) n = waveOf s n := rfl
theorem coreOf_bump (n : Nat) : coreOf (bump s) n = coreOf s n := rfl

end Machine

end Sys2Proof
end

