-- ==== Sys2Proof/Laws/Memory.lean ====
section
/-! SUPPORT. The canonical form of memory: what a byte reads as after a write, and that every operation on memory keeps the form. -/

set_option Elab.async false

namespace Sys2Proof.Machine

/-! ### Lists of cells -/

theorem getByte_putByte (m : List Host.Cell) (a x : Nat) (v : Byte) : getByte (putByte m a v) x = if x = a then v else getByte m x := by
  unfold getByte putByte
  split
  · next h => subst h; rw [Tab.findD_del]
  · rw [Tab.findD_put]

theorem cellsFrom_weaken {n k : Nat} (h : k ≤ n) : ∀ m : List Host.Cell, cellsFrom n m = true → cellsFrom k m = true
  | [], _ => rfl
  | (a, v) :: t, hm => by
    simp only [cellsFrom, Bool.and_eq_true, decide_eq_true_eq] at hm ⊢
    exact ⟨⟨by omega, hm.1.2⟩, hm.2⟩

theorem cellsFrom_filter (p : Host.Cell → Bool) : ∀ (m : List Host.Cell) (n : Nat), cellsFrom n m = true → cellsFrom n (m.filter p) = true
  | [], _, _ => rfl
  | (a, v) :: t, n, hm => by
    simp only [cellsFrom, Bool.and_eq_true, decide_eq_true_eq] at hm
    rw [List.filter_cons]
    split
    · simp only [cellsFrom, Bool.and_eq_true, decide_eq_true_eq]
      exact ⟨hm.1, cellsFrom_filter p t _ hm.2⟩
    · exact cellsFrom_filter p t n (cellsFrom_weaken (by omega) t hm.2)

theorem cellsFrom_put (v : Byte) (hv : v ≠ 0) (a : Nat) : ∀ (m : List Host.Cell) (n : Nat), n ≤ a → cellsFrom n m = true →
    cellsFrom n (Tab.put m a v) = true
  | [], n, h, _ => by simpa [Tab.put, cellsFrom, h] using hv
  | (b, w) :: t, n, h, hm => by
    simp only [cellsFrom, Bool.and_eq_true, decide_eq_true_eq] at hm
    simp only [Tab.put]
    split
    · simp only [cellsFrom, Bool.and_eq_true, decide_eq_true_eq]
      exact ⟨⟨h, bne_iff_ne.2 hv⟩, ⟨by omega, hm.1.2⟩, hm.2⟩
    · split
      · next hab =>
        simp only [cellsFrom, Bool.and_eq_true, decide_eq_true_eq]
        exact ⟨⟨h, bne_iff_ne.2 hv⟩, by rw [hab]; exact hm.2⟩
      · simp only [cellsFrom, Bool.and_eq_true, decide_eq_true_eq]
        exact ⟨hm.1, cellsFrom_put v hv a t (b + 1) (by omega) hm.2⟩

theorem Memory.wf_nil : Memory.wf [] = true := rfl

theorem Memory.wf_filter {m : List Host.Cell} (h : Memory.wf m = true) (p : Host.Cell → Bool) : Memory.wf (m.filter p) = true := cellsFrom_filter p m 0 h

theorem Memory.wf_putByte {m : List Host.Cell} (h : Memory.wf m = true) (a : Nat) (v : Byte) : Memory.wf (putByte m a v) = true := by
  unfold putByte
  split
  · exact cellsFrom_filter _ m 0 h
  · next hv => exact cellsFrom_put v hv a m 0 (Nat.zero_le a) h

theorem Memory.wf_putBytes : ∀ (bs : List Byte) {m : List Host.Cell} (a : Nat), Memory.wf m = true → Memory.wf (putBytes m a bs) = true
  | [], _, _, h => h
  | v :: t, _, a, h => Memory.wf_putBytes t (a + 1) (Memory.wf_putByte h a v)

/-! ### Every memory of the part -/

/-- What writes no memory keeps its form. -/
theorem MemOk.same {s t : State} (h : MemOk s) (h1 : t.mem = s.mem) (h2 : t.hostMem = s.hostMem) (h3 : t.cores = s.cores) : MemOk t := by
  unfold MemOk; rw [h1, h2, h3]; exact h

theorem MemOk.pad {s : State} (h : MemOk s) (c : Nat) : Memory.wf (coreOf s c).pad = true := by
  unfold coreOf Tab.findD
  cases hf : Tab.find s.cores c with
  | none => rfl
  | some x => exact h.2.2 _ (Tab.mem_of_find _ _ _ hf)

theorem Tab.mem_put {α : Type} (t : Tab α) (k : Nat) (x : α) (e : Nat × α) (h : e ∈ Tab.put t k x) : e = (k, x) ∨ e ∈ t := by
  induction t with
  | nil => simp [Tab.put] at h; exact Or.inl h
  | cons d t ih =>
    obtain ⟨j, y⟩ := d
    simp only [Tab.put] at h
    split at h
    · simpa using h
    · split at h
      · simp at h; rcases h with h | h
        · exact Or.inl h
        · exact Or.inr (by simp [h])
      · simp at h; rcases h with h | h
        · exact Or.inr (by simp [h])
        · rcases ih h with h | h
          · exact Or.inl h
          · exact Or.inr (by simp [h])

theorem MemOk.setCore {s : State} (h : MemOk s) (c : Nat) {x : Core} (hx : Memory.wf x.pad = true) : MemOk (setCore s c x) := by
  refine ⟨h.1, h.2.1, fun e he => ?_⟩
  rcases Tab.mem_put _ _ _ _ he with rfl | he
  · exact hx
  · exact h.2.2 e he

theorem MemOk.modCore {s : State} (h : MemOk s) (c : Nat) {f : Core → Core} (hf : ∀ x, (f x).pad = x.pad) : MemOk (modCore s c f) :=
  h.setCore c (by rw [hf]; exact h.pad c)

theorem MemOk.padWrite {s : State} (h : MemOk s) (core a : Nat) (bs : List Byte) : MemOk (padWrite s core a bs) :=
  h.setCore core (Memory.wf_putBytes bs a (h.pad core))

theorem MemOk.putCommit {s : State} (h : MemOk s) (o : Origin) (loc : Nat) (v : Byte) :
    MemOk (putCommit s o loc v) := ⟨Memory.wf_putByte h.1 loc v, h.2.1, h.2.2⟩

theorem MemOk.putCommits (o : Origin) : ∀ (bs : List Byte) {s : State} (loc : Nat), MemOk s →
    MemOk (putCommits s o loc bs)
  | [], _, _, h => h
  | v :: t, _, loc, h => MemOk.putCommits o t (loc + 1) (h.putCommit o loc v)

theorem MemOk.endEvent {s : State} (h : MemOk s) : MemOk (endEvent s) := h.same rfl rfl rfl

theorem MemOk.commitByte {s : State} (h : MemOk s) (o : Origin) (loc : Nat) (v : Byte) :
    MemOk (commitByte s o loc v) := (h.putCommit o loc v).endEvent

theorem MemOk.commitBytes {s : State} (h : MemOk s) (o : Origin) (loc : Nat) (bs : List Byte) :
    MemOk (commitBytes s o loc bs) := (MemOk.putCommits o bs loc h).endEvent

theorem MemOk.devWrite {s : State} (h : MemOk s) (loc : Nat) (bs : List Byte) : MemOk (devWrite s loc bs) := h.commitBytes Origin.device loc bs

theorem MemOk.hostWrite {s : State} (h : MemOk s) (a : Nat) (bs : List Byte) : MemOk (hostWrite s a bs) :=
  ⟨h.1, Memory.wf_putBytes bs a h.2.1, h.2.2⟩

theorem MemOk.writeSide {s : State} (h : MemOk s) (host : Bool) (a : Nat) (bs : List Byte) : MemOk (writeSide s host a bs) := by
  unfold Machine.writeSide; split
  · exact h.hostWrite a bs
  · exact h.devWrite _ bs

theorem MemOk.snapRead {s : State} (h : MemOk s) (core loc n tag : Nat) : MemOk (snapRead s core loc n tag).2 := h.modCore core fun _ => rfl

theorem MemOk.refresh {s : State} (h : MemOk s) (core : Nat) : MemOk (refresh s core) := h.modCore core fun _ => rfl

theorem MemOk.slotWrite {s : State} (h : MemOk s) (core o a : Nat) (bs : List Byte) : MemOk (slotWrite s core o a bs) := h.modCore core fun _ => rfl

/-- Memory at reset is in canonical form. -/
theorem MemOk.reset : MemOk State.reset := ⟨rfl, rfl, by intro e he; exact absurd he (by simp [State.reset])⟩

/-! ### What a write of memory does to one byte -/

theorem isWiped_cutRun (loc x : Nat) (r : Nat × Nat) : isWiped (cutRun loc r) x = (decide (x ≠ loc) && isWiped [r] x) := by
  obtain ⟨a, n⟩ := r
  rw [Bool.eq_iff_iff]
  unfold cutRun isWiped
  split
  · simp only [List.any_filter, List.any_cons, List.any_nil, Bool.or_false, Bool.or_eq_true, Bool.and_eq_true, decide_eq_true_eq, bne_iff_ne, ne_eq]
    omega
  · simp only [List.any_cons, List.any_nil, Bool.or_false, Bool.and_eq_true, decide_eq_true_eq]
    omega

/-- A write takes its byte out of the undefined runs. -/
theorem isWiped_flatMap (loc x : Nat) (l : List (Nat × Nat)) : isWiped (l.flatMap (cutRun loc)) x = (decide (x ≠ loc) && isWiped l x) := by
  induction l with
  | nil => simp [isWiped]
  | cons r l ih =>
    have h1 : isWiped ((r :: l).flatMap (cutRun loc)) x = (isWiped (cutRun loc r) x || isWiped (l.flatMap (cutRun loc)) x) := by
      simp [isWiped, List.flatMap_cons]
    have h2 : isWiped (r :: l) x = (isWiped [r] x || isWiped l x) := by simp [isWiped]
    rw [h1, h2, ih, isWiped_cutRun, Bool.and_or_distrib_left]

theorem putCommit_devByte (s : State) (o : Origin) (loc x : Nat) (v : Byte) :
    devByte (putCommit s o loc v) x = if x = loc then v else devByte s x := by
  unfold devByte
  rw [show (putCommit s o loc v).wiped = s.wiped.flatMap (cutRun loc) from rfl,
    show (putCommit s o loc v).mem = putByte s.mem loc v from rfl, isWiped_flatMap, getByte_putByte,
    show free (putCommit s o loc v) (70000000 + x) = free s (70000000 + x) from rfl]
  by_cases h : x = loc <;> simp [h]

theorem putCommits_devByte_out (o : Origin) : ∀ (bs : List Byte) (s : State) (loc x : Nat),
    (x < loc ∨ loc + bs.length ≤ x) → devByte (putCommits s o loc bs) x = devByte s x
  | [], _, _, _, _ => rfl
  | v :: t, s, loc, x, h => by
    simp only [List.length_cons] at h
    rw [putCommits, putCommits_devByte_out o t _ (loc + 1) x (by omega), putCommit_devByte, if_neg (by omega)]

/-- A device write changes no register table. -/
theorem putCommits_waves (o : Origin) : ∀ (bs : List Byte) (s : State) (loc : Nat),
    (putCommits s o loc bs).waves = s.waves
  | [], _, _ => rfl
  | _ :: t, _, loc => putCommits_waves o t _ (loc + 1)

theorem putCommits_cores (o : Origin) : ∀ (bs : List Byte) (s : State) (loc : Nat),
    (putCommits s o loc bs).cores = s.cores
  | [], _, _ => rfl
  | _ :: t, _, loc => putCommits_cores o t _ (loc + 1)

theorem devWrite_waves (s : State) (loc : Nat) (bs : List Byte) : (devWrite s loc bs).waves = s.waves := putCommits_waves ..

theorem writeSide_waves (s : State) (host : Bool) (a : Nat) (bs : List Byte) : (writeSide s host a bs).waves = s.waves := by
  unfold writeSide; split
  · rfl
  · exact devWrite_waves ..

end Sys2Proof.Machine
end

