-- ==== Sys2Proof/Laws/Alias.lean ====
section
/-! SUPPORT. What reads and stores through a broken alias can do (R190): which state they leave, and what holds where no alias is broken. -/

set_option Elab.async false

namespace Sys2Proof.Machine

@[simp] theorem aliasRead_state (s : State) (v : Via) (loc n tag : Nat) (r : List Byte × State) : (aliasRead s v loc n tag r).2 = r.2 := by
  unfold aliasRead
  split <;> rfl

theorem aliasRead_sound {s : State} {v : Via} {loc n : Nat} (h : brokenAlias s v loc n = false) (tag : Nat) (r : List Byte × State) :
    aliasRead s v loc n tag r = r := by simp [aliasRead, h]

theorem aliasStore_sound {s before : State} {o : Origin} {loc n : Nat} (h : ∀ v, o.via = some v → brokenAlias before v loc n = false) :
    aliasStore s before o loc n = s := by
  unfold aliasStore
  split
  · next v hv => simp [h v hv]
  · rfl

theorem MemOk.aliasStore {s : State} (h : MemOk s) (before : State) (o : Origin) (loc n : Nat) : MemOk (aliasStore s before o loc n) := by
  unfold Machine.aliasStore
  split
  · dsimp only
    split
    · rename_i hc
      clear hc
      refine MemOk.endEvent ?_
      generalize pick s (4800000 + loc) (s.commits + 1) = cut
      generalize List.range n = l
      induction l generalizing s with
      | nil => exact h
      | cons i t ih =>
        simp only [List.foldl_cons]
        apply ih
        split
        · exact h.putCommit _ _ _
        · exact h
    · exact h
  · exact h

end Sys2Proof.Machine
end

