-- ==== Sys2Proof/Laws/Encode.lean ====
section
/-! SUPPORT. The fields of a slot word come back from its packing, and each code from its encoder (R75 to R95). -/

set_option Elab.async false

namespace Sys2Proof
theorem bn_lt (b : Bool) : bn b < 2 := by cases b <;> decide
theorem fld_eq {n : Nat} (w lo : Nat) (v : BitVec n) (h : w / 2 ^ lo % 2 ^ n = v.toNat) : fld w lo n = v := by
  apply BitVec.eq_of_toNat_eq; simp [fld, h]
theorem bit1_eq (w lo : Nat) (b : Bool) (h : w / 2 ^ lo % 2 = bn b) : bit1 w lo = b := by
  cases b <;> simp_all [bit1, bn]
theorem SAw.unpack_pack (r : SAw) : SAw.unpack r.pack = r := by
  obtain ⟨op, d, a, b, imm, cc, w, md⟩ := r
  have h_op := op.isLt
  have h_d := d.isLt
  have h_a := a.isLt
  have h_b := b.isLt
  have h_imm := imm.isLt
  have h_cc := cc.isLt
  have h_w := w.isLt
  have h_md := md.isLt
  simp only [SAw.unpack, SAw.pack, SAw.mk.injEq]
  refine ⟨?_, ?_, ?_, ?_, ?_, ?_, ?_, ?_⟩
  · exact fld_eq _ _ _ (by omega)
  · exact fld_eq _ _ _ (by omega)
  · exact fld_eq _ _ _ (by omega)
  · exact fld_eq _ _ _ (by omega)
  · exact fld_eq _ _ _ (by omega)
  · exact fld_eq _ _ _ (by omega)
  · exact fld_eq _ _ _ (by omega)
  · exact fld_eq _ _ _ (by omega)
theorem SBw.unpack_pack (r : SBw) : SBw.unpack r.pack = r := by
  obtain ⟨op, a, k, cc, disp, md⟩ := r
  have h_op := op.isLt
  have h_a := a.isLt
  have h_k := k.isLt
  have h_cc := cc.isLt
  have h_disp := disp.isLt
  have h_md := md.isLt
  simp only [SBw.unpack, SBw.pack, SBw.mk.injEq]
  refine ⟨?_, ?_, ?_, ?_, ?_, ?_⟩
  · exact fld_eq _ _ _ (by omega)
  · exact fld_eq _ _ _ (by omega)
  · exact fld_eq _ _ _ (by omega)
  · exact fld_eq _ _ _ (by omega)
  · exact fld_eq _ _ _ (by omega)
  · exact fld_eq _ _ _ (by omega)
theorem SCw.unpack_pack (r : SCw) : SCw.unpack r.pack = r := by
  obtain ⟨op, a, idx, scope, ord, mode, imm, md⟩ := r
  have h_op := op.isLt
  have h_a := a.isLt
  have h_idx := idx.isLt
  have h_scope := scope.isLt
  have h_ord := ord.isLt
  have h_mode := mode.isLt
  have h_imm := imm.isLt
  have h_md := md.isLt
  simp only [SCw.unpack, SCw.pack, SCw.mk.injEq]
  refine ⟨?_, ?_, ?_, ?_, ?_, ?_, ?_, ?_⟩
  · exact fld_eq _ _ _ (by omega)
  · exact fld_eq _ _ _ (by omega)
  · exact fld_eq _ _ _ (by omega)
  · exact fld_eq _ _ _ (by omega)
  · exact fld_eq _ _ _ (by omega)
  · exact fld_eq _ _ _ (by omega)
  · exact fld_eq _ _ _ (by omega)
  · exact fld_eq _ _ _ (by omega)
theorem Vw.unpack_pack (r : Vw) : Vw.unpack r.pack = r := by
  obtain ⟨op, d, a, b, c, ty, k, rm, na, nb, ab, sat, sub⟩ := r
  have h_op := op.isLt
  have h_d := d.isLt
  have h_a := a.isLt
  have h_b := b.isLt
  have h_c := c.isLt
  have h_ty := ty.isLt
  have h_k := k.isLt
  have h_rm := rm.isLt
  have h_na := bn_lt na
  have h_nb := bn_lt nb
  have h_ab := bn_lt ab
  have h_sat := bn_lt sat
  have h_sub := sub.isLt
  simp only [Vw.unpack, Vw.pack, Vw.mk.injEq]
  refine ⟨?_, ?_, ?_, ?_, ?_, ?_, ?_, ?_, ?_, ?_, ?_, ?_, ?_⟩
  · exact fld_eq _ _ _ (by omega)
  · exact fld_eq _ _ _ (by omega)
  · exact fld_eq _ _ _ (by omega)
  · exact fld_eq _ _ _ (by omega)
  · exact fld_eq _ _ _ (by omega)
  · exact fld_eq _ _ _ (by omega)
  · exact fld_eq _ _ _ (by omega)
  · exact fld_eq _ _ _ (by omega)
  · exact bit1_eq _ _ _ (by omega)
  · exact bit1_eq _ _ _ (by omega)
  · exact bit1_eq _ _ _ (by omega)
  · exact bit1_eq _ _ _ (by omega)
  · exact fld_eq _ _ _ (by omega)
theorem Fw.unpack_pack (r : Fw) : Fw.unpack r.pack = r := by
  obtain ⟨op, d, dc, a, ac, k, na, ab, z⟩ := r
  have h_op := op.isLt
  have h_d := d.isLt
  have h_dc := bn_lt dc
  have h_a := a.isLt
  have h_ac := bn_lt ac
  have h_k := k.isLt
  have h_na := bn_lt na
  have h_ab := bn_lt ab
  have h_z := z.isLt
  simp only [Fw.unpack, Fw.pack, Fw.mk.injEq]
  refine ⟨?_, ?_, ?_, ?_, ?_, ?_, ?_, ?_, ?_⟩
  · exact fld_eq _ _ _ (by omega)
  · exact fld_eq _ _ _ (by omega)
  · exact bit1_eq _ _ _ (by omega)
  · exact fld_eq _ _ _ (by omega)
  · exact bit1_eq _ _ _ (by omega)
  · exact fld_eq _ _ _ (by omega)
  · exact bit1_eq _ _ _ (by omega)
  · exact bit1_eq _ _ _ (by omega)
  · exact fld_eq _ _ _ (by omega)
theorem Lw.unpack_pack (r : Lw) : Lw.unpack r.pack = r := by
  obtain ⟨op, d, a, b, kd, ka, kb, dir, md⟩ := r
  have h_op := op.isLt
  have h_d := d.isLt
  have h_a := a.isLt
  have h_b := b.isLt
  have h_kd := kd.isLt
  have h_ka := ka.isLt
  have h_kb := kb.isLt
  have h_dir := dir.isLt
  have h_md := md.isLt
  simp only [Lw.unpack, Lw.pack, Lw.mk.injEq]
  refine ⟨?_, ?_, ?_, ?_, ?_, ?_, ?_, ?_, ?_⟩
  · exact fld_eq _ _ _ (by omega)
  · exact fld_eq _ _ _ (by omega)
  · exact fld_eq _ _ _ (by omega)
  · exact fld_eq _ _ _ (by omega)
  · exact fld_eq _ _ _ (by omega)
  · exact fld_eq _ _ _ (by omega)
  · exact fld_eq _ _ _ (by omega)
  · exact fld_eq _ _ _ (by omega)
  · exact fld_eq _ _ _ (by omega)
theorem Mw.unpack_pack (r : Mw) : Mw.unpack r.pack = r := by
  obtain ⟨op, d, dc, seg, a, ac, wid, k, scope, ord, hint, disp, sub⟩ := r
  have h_op := op.isLt
  have h_d := d.isLt
  have h_dc := dc.isLt
  have h_seg := seg.isLt
  have h_a := a.isLt
  have h_ac := ac.isLt
  have h_wid := wid.isLt
  have h_k := k.isLt
  have h_scope := scope.isLt
  have h_ord := ord.isLt
  have h_hint := hint.isLt
  have h_disp := disp.isLt
  have h_sub := sub.isLt
  simp only [Mw.unpack, Mw.pack, Mw.mk.injEq]
  refine ⟨?_, ?_, ?_, ?_, ?_, ?_, ?_, ?_, ?_, ?_, ?_, ?_, ?_⟩
  · exact fld_eq _ _ _ (by omega)
  · exact fld_eq _ _ _ (by omega)
  · exact fld_eq _ _ _ (by omega)
  · exact fld_eq _ _ _ (by omega)
  · exact fld_eq _ _ _ (by omega)
  · exact fld_eq _ _ _ (by omega)
  · exact fld_eq _ _ _ (by omega)
  · exact fld_eq _ _ _ (by omega)
  · exact fld_eq _ _ _ (by omega)
  · exact fld_eq _ _ _ (by omega)
  · exact fld_eq _ _ _ (by omega)
  · exact fld_eq _ _ _ (by omega)
  · exact fld_eq _ _ _ (by omega)
theorem Tw.unpack_pack (r : Tw) : Tw.unpack r.pack = r := by
  obtain ⟨op, c, oa, ob, p, fmt, orb, seg, a, n, ms, k, sub⟩ := r
  have h_op := op.isLt
  have h_c := c.isLt
  have h_oa := oa.isLt
  have h_ob := ob.isLt
  have h_p := p.isLt
  have h_fmt := fmt.isLt
  have h_orb := orb.isLt
  have h_seg := seg.isLt
  have h_a := a.isLt
  have h_n := n.isLt
  have h_ms := ms.isLt
  have h_k := k.isLt
  have h_sub := sub.isLt
  simp only [Tw.unpack, Tw.pack, Tw.mk.injEq]
  refine ⟨?_, ?_, ?_, ?_, ?_, ?_, ?_, ?_, ?_, ?_, ?_, ?_, ?_⟩
  · exact fld_eq _ _ _ (by omega)
  · exact fld_eq _ _ _ (by omega)
  · exact fld_eq _ _ _ (by omega)
  · exact fld_eq _ _ _ (by omega)
  · exact fld_eq _ _ _ (by omega)
  · exact fld_eq _ _ _ (by omega)
  · exact fld_eq _ _ _ (by omega)
  · exact fld_eq _ _ _ (by omega)
  · exact fld_eq _ _ _ (by omega)
  · exact fld_eq _ _ _ (by omega)
  · exact fld_eq _ _ _ (by omega)
  · exact fld_eq _ _ _ (by omega)
  · exact fld_eq _ _ _ (by omega)

@[simp] theorem swidth_code (x : SWidth) : swidth (swidthC x) = some x := by cases x <;> rfl
@[simp] theorem cond_code (x : Cond) : cond (condC x) = some x := by cases x <;> rfl
@[simp] theorem vty_code (x : Ty) : vty (vtyC x) = some x := by cases x <;> rfl
@[simp] theorem tfmt_code (x : Fmt) : tfmt (tfmtC x) = some x := by cases x <;> rfl
@[simp] theorem vrm_code (x : Rm) : vrm (vrmC x) = some x := by cases x <;> rfl
@[simp] theorem scopeOf_code (x : Scope) : scopeOf (scopeOfC x) = some x := by cases x <;> rfl
@[simp] theorem orderOf_code (x : Order) : orderOf (orderOfC x) = some x := by cases x <;> rfl
@[simp] theorem widOf_code (x : Wid) : widOf (widOfC x) = some x := by cases x <;> rfl
@[simp] theorem hintOf_code (x : Hint) : hintOf (hintOfC x) = some x := by cases x <;> rfl
@[simp] theorem aclsOf_code (x : ACls) : aclsOf (aclsOfC x) = some x := by cases x <;> rfl
@[simp] theorem dclsOf_code (x : DCls) : dclsOf (dclsOfC x) = some x := by cases x <;> rfl
@[simp] theorem vcondOf_code (x : VCond) : vcondOf (vcondOfC x) = some x := by cases x <;> rfl
@[simp] theorem redOf_code (x : RedOp) : redOf (redOfC x) = some x := by cases x <;> rfl
@[simp] theorem atomOf_code (x : AtomOp) : atomOf (atomOfC x) = some x := by cases x <;> rfl
@[simp] theorem patOf_code (x : PatKind) : patOf (patOfC x) = some x := by cases x <;> rfl
@[simp] theorem tmsOf_code (x : TMs) : tmsOf (tmsOfC x) = some x := by cases x <;> rfl
@[simp] theorem hadOf_code (x : Had) : hadOf (hadOfC x) = some x := by cases x <;> rfl
@[simp] theorem phaseOf_code (x : PhaseMode) : phaseOf (phaseOfC x) = some x := by cases x <;> rfl
@[simp] theorem flushOf_code (x : FlushOp) : flushOf (flushOfC x) = some x := by cases x <;> rfl
theorem SAw.fld_pack (r : SAw) : fld r.pack 0 6 = r.op := congrArg SAw.op (unpack_pack r)
theorem SBw.fld_pack (r : SBw) : fld r.pack 0 6 = r.op := congrArg SBw.op (unpack_pack r)
theorem SCw.fld_pack (r : SCw) : fld r.pack 0 6 = r.op := congrArg SCw.op (unpack_pack r)
@[simp] theorem clus_code (c : Cluster) : clus (clusC c) = c := by cases c <;> rfl
@[simp] theorem simm_code (i : SImm) : simm (simmSt i) (simmC i) = i := by cases i <;> rfl
@[simp] theorem simm_zero (i : SImm) : (simmSt i = false ∨ simmC i = 0#12) := by cases i <;> simp [simmSt, simmC]
theorem cat66 (v : BitVec 12) : v.extractLsb' 6 6 ++ v.extractLsb' 0 6 = v := by
  apply BitVec.eq_of_getLsbD_eq
  intro i hi
  rw [BitVec.getLsbD_append]
  by_cases h : i < 6
  · simp [h]
  · have e : 6 + (i - 6) = i := by omega
    have e2 : i - 6 < 6 := by omega
    simp [h, e, e2]
@[simp] theorem vimm_code (i : VImm) : vimm (vimmSt i) (vimmB i) (vimmCF i) = i := by cases i <;> simp [vimm, vimmSt, vimmB, vimmCF, cat66]
@[simp] theorem vimm_zero (i : VImm) : (vimmSt i = false ∨ vimmB i = 0#6 ∧ vimmCF i = 0#6) := by cases i <;> simp [vimmSt, vimmB, vimmCF]
@[simp] theorem mdisp_code (i : MDisp) : mdisp (mdispSt i) (mdispC i) = i := by cases i <;> rfl
@[simp] theorem mdisp_zero (i : MDisp) : (mdispSt i = false ∨ mdispC i = 0#16) := by cases i <;> simp [mdispSt, mdispC]
theorem scop_code (o : ScOp) (h : o.wf = true) : scop (scopA o) (scopI o) = o := by
  cases o <;> simp_all [scop, scopA, scopI, ScOp.wf]
theorem scop_zero (o : ScOp) : (scopA o = 63#6 ∨ scopI o = 0#16) := by cases o <;> simp [scopA, scopI]
@[simp] theorem cond_le (c : Cond) : (condC c).toNat ≤ 9 ↔ c.isCompare = true := by cases c <;> decide
@[simp] theorem cond_ge (c : Cond) : 10 ≤ (condC c).toNat ↔ c.isCompare = false := by cases c <;> decide
@[simp] theorem ty_le (t : Ty) : (vtyC t).toNat ≤ 2 ↔ t.isFloat = true := by cases t <;> decide
@[simp] theorem ty_ge (t : Ty) : 3 ≤ (vtyC t).toNat ↔ t.isFloat = false := by cases t <;> decide
@[simp] theorem rm_zero (r : Rm) : vrmC r = 0#3 ↔ r = .rne := by cases r <;> decide
@[simp] theorem vcond_le (c : VCond) : (vcondOfC c).toNat ≤ 5 ↔ ¬(c = .uo ∨ c = .ord) := by cases c <;> decide
@[simp] theorem ord_zero (o : Order) : orderOfC o = 0#2 ↔ o = .relaxed := by cases o <;> decide
@[simp] theorem ord_le (o : Order) : (orderOfC o).toNat ≤ 1 ↔ (o = .relaxed ∨ o = .acquire) := by cases o <;> decide
@[simp] theorem ord_two (o : Order) : orderOfC o = 2#2 ↔ o = .release := by cases o <;> decide
@[simp] theorem ord_three (o : Order) : orderOfC o = 3#2 ↔ o = .acqRel := by cases o <;> decide
@[simp] theorem scope_ge (c : Scope) : 3 ≤ (scopeOfC c).toNat ↔ c.isPlain = false := by cases c <;> decide
@[simp] theorem scope_zero (c : Scope) : scopeOfC c = 0#3 ↔ c = .wave := by cases c <;> decide
@[simp] theorem wid_le (w : Wid) : (widOfC w).toNat ≤ 3 ↔ w.uniOk = true := by cases w <;> decide
@[simp] theorem pairOk_code (w : Wid) (d : BitVec 6) : pairOk (widOfC w) d = w.regOk d := by cases w <;> rfl
@[simp] theorem dc_code (c : Cluster) : clus ((dcC c).getLsbD 0) = c := by cases c <;> rfl
@[simp] theorem dc_le (c : Cluster) : (dcC c).toNat ≤ 1 := by cases c <;> decide
@[simp] theorem tfmt_zero (f : Fmt) : tfmtC f = 0#4 ↔ f = .f32 := by cases f <;> decide
@[simp] theorem tfmt_seven (f : Fmt) : tfmtC f = 7#4 ↔ f = .fp4 := by cases f <;> decide
theorem tfmt_le (f : Fmt) : (1 ≤ (tfmtC f).toNat ∧ (tfmtC f).toNat ≤ 6) ↔ f.isTmma = true := by cases f <;> decide
@[simp] theorem acls_two (a : ACls) : aclsOfC a = 2#2 ↔ a = .unif := by cases a <;> decide
@[simp] theorem dcls_two (a : DCls) : dclsOfC a = 2#2 ↔ a = .s := by cases a <;> decide
@[simp] theorem atom_nine (a : AtomOp) : atomOfC a = 9#4 ↔ a = .fadd := by cases a <;> decide
@[simp] theorem dir_code (s d : Cluster) : clus ((dirC s d).getLsbD 1) = s ∧ clus ((dirC s d).getLsbD 0) = d := by cases s <;> cases d <;> decide
@[simp] theorem dir1_code (s d : Cluster) : clus ((dirC s d).getLsbD 1) = s := by cases s <;> cases d <;> decide
@[simp] theorem dir0_code (s d : Cluster) : clus ((dirC s d).getLsbD 0) = d := by cases s <;> cases d <;> decide
@[simp] theorem dir1_code' (s d : Cluster) : clus ((dirC s d)[1]) = s := by cases s <;> cases d <;> decide
@[simp] theorem dir0_code' (s d : Cluster) : clus ((dirC s d)[0]) = d := by cases s <;> cases d <;> decide
@[simp] theorem or_code (a b : Bool) : (orC a b).getLsbD 0 = a ∧ (orC a b).getLsbD 1 = b := by cases a <;> cases b <;> decide
@[simp] theorem or0_code (a b : Bool) : (orC a b).getLsbD 0 = a := by cases a <;> cases b <;> decide
@[simp] theorem or1_code (a b : Bool) : (orC a b).getLsbD 1 = b := by cases a <;> cases b <;> decide
@[simp] theorem or0_code' (a b : Bool) : (orC a b)[0] = a := by cases a <;> cases b <;> decide
@[simp] theorem or1_code' (a b : Bool) : (orC a b)[1] = b := by cases a <;> cases b <;> decide
@[simp] theorem simm_imp (i : SImm) : (simmSt i = true → simmC i = 0#12) := by cases i <;> simp [simmSt, simmC]
@[simp] theorem vimm_imp (i : VImm) : (vimmSt i = true → vimmB i = 0#6 ∧ vimmCF i = 0#6) := by cases i <;> simp [vimmSt, vimmB, vimmCF]
@[simp] theorem mdisp_imp (i : MDisp) : (mdispSt i = true → mdispC i = 0#16) := by cases i <;> simp [mdispSt, mdispC]
theorem b1_shift6 (u : Bool) : (b1 u).setWidth 6 >>> 1 = 0#6 ∧ ((b1 u).setWidth 6).getLsbD 0 = u := by cases u <;> decide
theorem b1_mode (u : Bool) : (((b1 u).setWidth 3 : BitVec 3) == 1#3) = u ∧ ((b1 u).setWidth 3 : BitVec 3).toNat ≤ 1 := by cases u <;> decide
@[simp] theorem shift12 (v : BitVec 8) : v.setWidth 12 >>> 8 = 0#12 := by revert v; decide
@[simp] theorem shift24 (v : BitVec 8) : v.setWidth 24 >>> 8 = 0#24 := by revert v; decide
@[simp] theorem scop_imp (o : ScOp) : ¬scopA o = 63#6 → scopI o = 0#16 := by cases o <;> simp [scopA, scopI]
@[simp] theorem ty_f32 : vtyC .f32 = 0#4 := rfl
@[simp] theorem shift4_6 (v : BitVec 4) : v.setWidth 6 >>> 4 = 0#6 := by revert v; decide
theorem even_bit (v : BitVec 6) (h : v.toNat % 2 = 0) : v.getLsbD 0 = false := by revert v; decide
theorem low4 (v : BitVec 6) : ¬v = 0#6 → v.toNat < 16 → v >>> 4 = 0#6 ∧ ¬BitVec.setWidth 4 v = 0#4 := by revert v; decide
theorem ty_mulh (t : Ty) : (((t = .s32 ∨ t = .n32) ∨ t = .s16x2) ∨ t = .n16x2) → t.isFloat = false ∧ (vtyC t).toNat ≤ 6 := by cases t <;> decide
@[simp] theorem dc_code' (c : Cluster) : clus ((dcC c)[0]) = c := by cases c <;> rfl
theorem pat_code (p : PatKind) (n : BitVec 5) :
    patOf (BitVec.extractLsb' 1 1 (patOfC p) ++ BitVec.extractLsb' 5 1 (BitVec.extractLsb' 0 1 (patOfC p) ++ n)) = some p ∧
    BitVec.setWidth 4 (BitVec.extractLsb' 1 1 (patOfC p)) >>> 1 = 0#4 ∧
    (BitVec.extractLsb' 0 1 (patOfC p) ++ n).getLsbD 5 = (patOfC p).getLsbD 0 ∧
    BitVec.setWidth 5 (BitVec.extractLsb' 0 1 (patOfC p) ++ n) = n := by
  revert n; cases p <;> decide
theorem pat_rev (p : PatKind) : ((patOfC p).getLsbD 0 = false ∨ (patOfC p).getLsbD 1 = false) ↔ ¬p = .rev := by cases p <;> decide
theorem dir_same (c : Cluster) : (dirC c .A).getLsbD 0 = false ∧ (dirC c c).getLsbD 0 = (dirC c c).getLsbD 1 := by cases c <;> decide
theorem atom_sub (u : Bool) (o : AtomOp) : BitVec.setWidth 4 (b1 u ++ (0 : BitVec 1) ++ atomOfC o) = atomOfC o ∧
    (b1 u ++ (0 : BitVec 1) ++ atomOfC o).getLsbD 4 = false ∧ (b1 u ++ (0 : BitVec 1) ++ atomOfC o).getLsbD 5 = u := by
  cases u <;> cases o <;> decide
theorem copy_sub (x y : Bool) (c : BitVec 2) : BitVec.setWidth 2 (b1 x ++ b1 y ++ c) = c ∧ (b1 x ++ b1 y ++ c).getLsbD 2 = y ∧
    (b1 x ++ b1 y ++ c).getLsbD 3 = x := by
  revert c; cases x <;> cases y <;> decide
theorem ctx_sub (c : BitVec 2) : BitVec.setWidth 6 c >>> 2 = 0#6 := by revert c; decide
theorem cast_sub (t : BitVec 4) (c : BitVec 2) : ((t ++ c) >>> 2 = 0#6 ↔ t = 0#4) ∧ BitVec.setWidth 2 (t ++ c) = c ∧
    BitVec.extractLsb' 2 4 (t ++ c) = t := by
  revert t c; decide
theorem stream_sub (x : Bool) (y : BitVec 1) (c : BitVec 2) : BitVec.setWidth 2 (b1 x ++ y ++ c) = c ∧
    (b1 x ++ y ++ c).getLsbD 2 = y.getLsbD 0 ∧ (b1 x ++ y ++ c).getLsbD 3 = x := by
  revert y c; cases x <;> decide
theorem tmem_sub (l m : Bool) (c : Scope) : BitVec.setWidth 3 (b1 l ++ b1 m ++ scopeOfC c) = scopeOfC c ∧
    (b1 l ++ b1 m ++ scopeOfC c).getLsbD 3 = m ∧ (b1 l ++ b1 m ++ scopeOfC c).getLsbD 4 = l := by
  cases l <;> cases m <;> cases c <;> decide
theorem movv_sub (r : BitVec 3) (x y : Bool) : (r ++ b1 x ++ b1 y).getLsbD 0 = y ∧ (r ++ b1 x ++ b1 y).getLsbD 1 = x ∧
    BitVec.extractLsb' 2 3 (r ++ b1 x ++ b1 y) = r ∧ (r ++ b1 x ++ b1 y).toNat / 4 = r.toNat := by
  revert r; cases x <;> cases y <;> decide
theorem quant_sub (m : Bool) (h : Had) : ((b1 m ++ hadOfC h).setWidth 5 : BitVec 5).getLsbD 2 = m ∧
    (((b1 m ++ hadOfC h).setWidth 5 : BitVec 5).setWidth 2 : BitVec 2) = hadOfC h ∧ ((b1 m ++ hadOfC h).setWidth 5 : BitVec 5) >>> 3 = 0#5 := by
  cases m <;> cases h <;> decide
theorem decS_sa (r : SAw) (st : Bool) (h : (r.op.toNat < 0x20 ∨ r.op.toNat = 0x36)) : decS r.pack st = decSA r st := by
  simp only [decS, SAw.fld_pack, SAw.unpack_pack, h, if_true]
theorem decS_sb (r : SBw) (st : Bool) (h : 0x20 ≤ r.op.toNat ∧ r.op.toNat < 0x30) : decS r.pack st = decSB r st := by
  have h1 : ¬(r.op.toNat < 0x20 ∨ r.op.toNat = 0x36) := by omega
  simp only [decS, SBw.fld_pack, SBw.unpack_pack, h1, h.2, if_true, if_false]
theorem decS_sc (r : SCw) (st : Bool) (h : 0x30 ≤ r.op.toNat ∧ r.op.toNat ≠ 0x36) : decS r.pack st = decSC r st := by
  have h1 : ¬(r.op.toNat < 0x20 ∨ r.op.toNat = 0x36) := by omega
  have h2 : ¬(r.op.toNat < 0x30) := by omega
  simp only [decS, SCw.fld_pack, SCw.unpack_pack, h1, h2, if_false]
theorem dec_F (r : Fw) (st : Bool) : decodeSlot ⟨.F, r.pack, st⟩ = decFf r st := by
  simp only [decodeSlot, decSlot, decF, Fw.unpack_pack]
theorem dec_L (r : Lw) (st : Bool) : decodeSlot ⟨.L, r.pack, st⟩ = decLf r st := by
  simp only [decodeSlot, decSlot, decL, Lw.unpack_pack]
theorem dec_M (r : Mw) (st : Bool) : decodeSlot ⟨.M, r.pack, st⟩ = decMf r st := by
  simp only [decodeSlot, decSlot, decM, Mw.unpack_pack]
theorem dec_T (r : Tw) (st : Bool) : decodeSlot ⟨.T, r.pack, st⟩ = decTf r st := by
  simp only [decodeSlot, decSlot, decT, Tw.unpack_pack]
theorem dec_V (c : Cluster) (r : Vw) (st : Bool) : decodeSlot ⟨vslot c, r.pack, st⟩ = decVf c r st := by
  cases c <;> simp only [decodeSlot, decSlot, vslot, decV, Vw.unpack_pack]

end Sys2Proof
end

