-- ==== Sys2Proof/Laws/Ops.lean ====
section
/-! SUPPORT. What each shared operation can do: the issue of a slot operation, and the frames of queue faults, kills, traps, publications
and releases. -/

set_option Elab.async false

namespace Sys2Proof.Machine

/-! ### The issue of a slot operation -/

theorem slotOp_empty {i : Instr} {s : State} {body : Nat → Wave → State → State} (h : waveOf s s.cur.wid = none) :
    slotOp i s body = .refused .notEnabled := by unfold slotOp; rw [h]; rfl

/-- In a bundle that has passed its checks an operation takes effect. -/
theorem slotOp_go {i : Instr} {s : State} {w : Wave} {body : Nat → Wave → State → State} (h : Issuing s w) (hg : s.cur.go = true) :
    slotOp i s body = .next (bump (body s.cur.wid w s)) := by
  unfold slotOp; rw [show waveOf s s.cur.wid = some w from h]; simp [hg, done]

/-- An operation that raises nothing and that nothing holds takes effect. -/
theorem slotOp_issues {i : Instr} {s : State} {w : Wave} {body : Nat → Wave → State → State} (h : Issues i s w) :
    slotOp i s body = .next (bump (body s.cur.wid w s)) := by
  obtain ⟨h1, h2, h3, h4, h5⟩ := h
  unfold slotOp; rw [show waveOf s s.cur.wid = some w from h1]; simp [h2, h3, h4, h5, done]

/-- An operation whose registers are back traps where its checks say so. -/
theorem slotOp_trap {i : Instr} {s : State} {w : Wave} {x : Trap} {body : Nat → Wave → State → State} (h : Issuing s w)
    (hg : s.cur.go = false) (hs : scoreHeld i w = false) (ht : issueTrap i s s.cur.wid w = some x) :
    slotOp i s body = .next (bump (takeTrap s s.cur.wid w x)) := by
  unfold slotOp; rw [show waveOf s s.cur.wid = some w from h]; simp [hg, hs, ht, done]

/-- Everything a slot operation can do. -/
theorem slotOp_cases {i : Instr} {s t : State} {body : Nat → Wave → State → State} (h : slotOp i s body = .next t) :
    ∃ w, Issuing s w ∧ (t = bump (body s.cur.wid w s) ∨ t = bump s ∨ (∃ x, issueTrap i s s.cur.wid w = some x ∧ t = bump (takeTrap s s.cur.wid w x)) ∨
      t = bump (deliver s s.cur.wid w)) := by
  unfold slotOp at h
  cases hw : waveOf s s.cur.wid with
  | none => rw [hw] at h; exact absurd h (by simp [notEnabled])
  | some w =>
    rw [hw] at h
    refine ⟨w, hw, ?_⟩
    simp only [done] at h
    split at h
    · exact Or.inl (by simpa using h.symm)
    · split at h
      · exact Or.inr (Or.inl (by simpa using h.symm))
      · split at h
        · next x hx => exact Or.inr (Or.inr (Or.inl ⟨x, hx, by simpa using h.symm⟩))
        · split at h
          · exact Or.inr (Or.inl (by simpa using h.symm))
          · split at h
            · exact Or.inr (Or.inr (Or.inr (by simpa using h.symm)))
            · exact Or.inl (by simpa using h.symm)

/-! ### The invariant -/

theorem Inv.same {s t : State} (h : Inv s) (h1 : t.mem = s.mem) (h2 : t.hostMem = s.hostMem) (h3 : t.cores = s.cores) (h4 : t.waves = s.waves) : Inv t :=
  ⟨h.1.same h1 h2 h3, by rw [h4]; exact h.2⟩

theorem Inv.bump {s : State} (h : Inv s) : Inv (bump s) := h.same rfl rfl rfl rfl

theorem Inv.setWave {s : State} (h : Inv s) (k : Nat) (w : Wave) : Inv (setWave s k w) := ⟨h.1.same rfl rfl rfl, h.2.put k w⟩

theorem Inv.modWave {s : State} (h : Inv s) (k : Nat) (f : Wave → Wave) : Inv (modWave s k f) := by
  unfold Machine.modWave; split
  · exact h.setWave _ _
  · exact h

theorem Inv.modCore {s : State} (h : Inv s) (c : Nat) {f : Core → Core} (hf : ∀ x, (f x).pad = x.pad) : Inv (modCore s c f) := ⟨h.1.modCore c hf, h.2⟩

theorem Inv.setCore {s : State} (h : Inv s) (c : Nat) {x : Core} (hx : Memory.wf x.pad = true) : Inv (setCore s c x) := ⟨h.1.setCore c hx, h.2⟩

theorem Inv.filterWaves {s : State} (h : Inv s) (p : Nat × Wave → Bool) : Inv { s with waves := s.waves.filter p } := ⟨h.1.same rfl rfl rfl, h.2.filter p⟩

theorem Inv.mapWaves {s : State} (h : Inv s) (f : Nat × Wave → Wave) : Inv { s with waves := s.waves.map fun e => (e.1, f e) } :=
  ⟨h.1.same rfl rfl rfl, h.2.map f⟩

theorem Inv.devWrite {s : State} (h : Inv s) (loc : Nat) (bs : List Byte) : Inv (devWrite s loc bs) :=
  ⟨h.1.devWrite loc bs, by rw [devWrite_waves]; exact h.2⟩

theorem Inv.writeSide {s : State} (h : Inv s) (host : Bool) (a : Nat) (bs : List Byte) : Inv (writeSide s host a bs) :=
  ⟨h.1.writeSide host a bs, by rw [writeSide_waves]; exact h.2⟩

theorem Inv.padWrite {s : State} (h : Inv s) (core a : Nat) (bs : List Byte) : Inv (padWrite s core a bs) := ⟨h.1.padWrite core a bs, h.2⟩

theorem Inv.commitByte {s : State} (h : Inv s) (o : Origin) (loc : Nat) (v : Byte) :
    Inv (commitByte s o loc v) := ⟨h.1.commitByte o loc v, h.2⟩

theorem Inv.commitBytes {s : State} (h : Inv s) (o : Origin) (loc : Nat) (bs : List Byte) :
    Inv (commitBytes s o loc bs) := ⟨h.1.commitBytes o loc bs, by
      rw [show (Machine.commitBytes s o loc bs).waves = s.waves from putCommits_waves ..]; exact h.2⟩

/-- A fold of steps that each keep it keeps it. -/
theorem Inv.foldl {α : Type} {f : State → α → State} (hf : ∀ s x, Inv s → Inv (f s x)) : ∀ (l : List α) {s : State}, Inv s → Inv (l.foldl f s)
  | [], _, h => h
  | x :: t, _, h => Inv.foldl hf t (hf _ x h)

/-! ### Operating points and queue faults -/

theorem retarget_waves (s : State) (c : Nat) : (retarget s c).waves = s.waves := by
  unfold retarget; dsimp only; repeat' split
  all_goals rfl
theorem retarget_mem (s : State) (c : Nat) : (retarget s c).mem = s.mem := by
  unfold retarget; dsimp only; repeat' split
  all_goals rfl

theorem Inv.retarget {s : State} (h : Inv s) (c : Nat) : Inv (retarget s c) := by
  unfold Machine.retarget
  dsimp only
  split
  · exact h
  · split
    · exact h
    · exact h.setCore c (h.1.pad c)

theorem faultQueue_waves (s : State) (k pkt code die core slot addr detail : Nat) : (faultQueue s k pkt code die core slot addr detail).waves = s.waves :=
  writeSide_waves ..

/-- A faulted queue (R250). -/
theorem faultQueue_queue (s : State) (k pkt code die core slot addr detail : Nat) :
    queueOf (faultQueue s k pkt code die core slot addr detail) k = { queueOf s k with fault := true, st := .faulted, poll := none } :=
  (queueOf_setQueue ..).trans (if_pos rfl)

theorem Inv.faultQueue {s : State} (h : Inv s) (k pkt code die core slot addr detail : Nat) : Inv (faultQueue s k pkt code die core slot addr detail) :=
  (h.writeSide _ _ _).same rfl rfl rfl rfl

/-! ### Kills -/

theorem Inv.settlePieces (id : Nat) (a : Acc) (tag : Nat) : ∀ (ps : List Piece) (n : Nat) {s : State}, Inv s → Inv (settlePieces s id a tag ps n)
  | [], _, _, h => h
  | p :: t, n, _, h => by
    unfold Machine.settlePieces
    refine Inv.settlePieces id a tag t (n + 1) ?_
    split
    · split
      · exact h
      · exact h.commitBytes ..
    · exact h

theorem Inv.settleTile {s : State} (h : Inv s) (id : Nat) (a : Acc) (tag : Nat) (ps : List Piece) : Inv (settleTile s id a tag ps) := by
  unfold Machine.settleTile
  split
  · exact h
  · refine Inv.same (s := ps.foldl _ s) (Inv.foldl (fun s p h => ?_) ps h) rfl rfl rfl rfl
    split
    · exact ⟨MemOk.putCommits _ _ _ h.1, by rw [putCommits_waves]; exact h.2⟩
    · exact h

theorem Inv.settleAcc {s : State} (h : Inv s) (e : Nat × Acc) : Inv (settleAcc s e) := by
  unfold Machine.settleAcc
  split
  · exact h
  · split
    · exact Inv.settlePieces _ _ _ _ _ h
    · exact h.settleTile _ _ _ _
    · exact h

theorem Inv.settleBytes (c : Copy) (tag : Nat) : ∀ (l : List Nat) {s : State}, Inv s → Inv (settleBytes s c tag l)
  | [], _, h => h
  | k :: t, _, h => by
    unfold Machine.settleBytes
    refine Inv.settleBytes c tag t ?_
    split
    · split
      · exact h
      · exact h.commitByte ..
    · exact h

theorem Inv.settleCopy {s : State} (h : Inv s) (e : Nat × Copy) : Inv (settleCopy s e) := by
  unfold Machine.settleCopy
  split <;> first | exact Inv.settleBytes _ _ _ h | exact h

theorem modLaunch_waves (s : State) (lid : Nat) (f : Launch → Launch) : (modLaunch s lid f).waves = s.waves := by unfold modLaunch; split <;> rfl
theorem modLaunch_mem (s : State) (lid : Nat) (f : Launch → Launch) : (modLaunch s lid f).mem = s.mem := by unfold modLaunch; split <;> rfl

theorem Inv.modLaunch {s : State} (h : Inv s) (lid : Nat) (f : Launch → Launch) : Inv (modLaunch s lid f) := by
  unfold Machine.modLaunch; split
  · exact h.same rfl rfl rfl rfl
  · exact h

theorem Inv.modFunc {s : State} (h : Inv s) (v : Nat) (f : Func → Func) : Inv (modFunc s v f) := h.same rfl rfl rfl rfl

theorem leaveCore_pad (lid : Nat) (c : Core) : (leaveCore lid c).pad = c.pad := by
  unfold leaveCore dropTile; split <;> rfl

theorem freeHolds_pad (gone : Nat × Nat → Bool) (c : Core) : (freeHolds gone c).pad = c.pad := rfl

theorem Inv.endLaunch {s : State} (h : Inv s) (lid : Nat) : Inv (endLaunch s lid) := by
  unfold Machine.endLaunch
  extract_lets s1 onCores vf back s2 s3
  have h1 : Inv s1 := Inv.foldl (fun s e h => h.settleAcc e) _ h
  have h2 : Inv s2 := by
    refine ⟨⟨h1.1.1, h1.1.2.1, fun e he => ?_⟩, h1.2.filter _⟩
    obtain ⟨d, hd, rfl⟩ := List.mem_map.1 he
    rw [freeHolds_pad, leaveCore_pad]; exact h1.1.2.2 d hd
  have h3 : Inv s3 := (h2.modLaunch lid _).modFunc vf _
  exact Inv.foldl (fun s c h => h.retarget c) onCores h3

theorem Inv.killLaunch {s : State} (h : Inv s) (lid code die core slot addr detail : Nat) : Inv (killLaunch s lid code die core slot addr detail) := by
  unfold Machine.killLaunch
  split
  · exact h
  · extract_lets ks s1 s2 s3
    have h1 : Inv s1 := Inv.foldl (fun s e h => h.settleCopy e) _ h
    have h2 : Inv s2 := Inv.foldl (fun s x h => h.endLaunch x) _ h1
    have h3 : Inv s3 := h2.same rfl rfl rfl rfl
    exact h3.faultQueue ..

theorem Inv.killWave {s : State} (h : Inv s) (wid : Nat) (w : Wave) (code : Nat) (addr : Word) (detail : Nat) : Inv (killWave s wid w code addr detail) :=
  h.killLaunch _ _ _ _ _ _ _

/-! ### Taking an exception -/

theorem unpin_waves (s : State) (wid : Nat) : (unpin s wid).waves = s.waves := rfl
theorem unpin_mem (s : State) (wid : Nat) : (unpin s wid).mem = s.mem := rfl

theorem Inv.unpin {s : State} (h : Inv s) (wid : Nat) : Inv (unpin s wid) := h.modCore _ fun _ => rfl

/-- Handler entry with a valid entry (R267): the wave becomes `enterWave` of itself, and nothing else changes. -/
theorem enterHandler_enters {s : State} {wid : Nat} {w : Wave} {cause code : Nat} {svc inwait : Bool} {a pc e : Word} (hs : w.sup = false)
    (he : entryFor s w.lid cause = some e) : enterHandler s wid w cause code svc inwait a pc =
      setWave s wid (enterWave s w e (trapWord cause code svc inwait (!inwait)) pc (trapLanes s w cause) inwait) := by
  unfold enterHandler; simp [hs, he]

/-- Handler entry without one, or from the handler, is a kill; the trap's code is in its detail only from the handler (R265, R270, R411). -/
theorem enterHandler_kills {s : State} {wid : Nat} {w : Wave} {cause code : Nat} {svc inwait : Bool} {a pc : Word}
    (h : w.sup = true ∨ entryFor s w.lid cause = none) :
    enterHandler s wid w cause code svc inwait a pc = killWave s wid w cause a (if w.sup then code else 0) := by
  unfold enterHandler
  rcases h with h | h
  · simp [h]
  · cases w.sup <;> simp [h]

theorem Inv.enterHandler {s : State} (h : Inv s) (wid : Nat) (w : Wave) (cause code : Nat) (svc inwait : Bool) (a pc : Word) :
    Inv (enterHandler s wid w cause code svc inwait a pc) := by
  unfold Machine.enterHandler
  split
  · exact h.killWave ..
  · split
    · exact h.killWave ..
    · exact h.setWave _ _

theorem recWrite_waves (s : State) (wid loc : Nat) (bs : List Byte) : (recWrite s wid loc bs).waves = s.waves := devWrite_waves ..

theorem Inv.recWrite {s : State} (h : Inv s) (wid loc : Nat) (bs : List Byte) : Inv (recWrite s wid loc bs) :=
  (h.devWrite loc bs).modCore _ fun _ => rfl

theorem Inv.pushRecord {s : State} (h : Inv s) (wid : Nat) (w : Wave) (r : FRec) : Inv (pushRecord s wid w r).1 := by
  unfold Machine.pushRecord
  split
  · exact h
  · dsimp only; split
    · exact h.recWrite _ _ _
    · exact h

theorem Inv.pushRecords (wid : Nat) : ∀ (rs : List FRec) {s : State} (w : Wave), Inv s → Inv (pushRecords s wid w rs).1
  | [], _, _, h => h
  | r :: t, _, w, h => by
    unfold Machine.pushRecords
    dsimp only
    split
    · exact Inv.pushRecords wid t _ (h.pushRecord wid w r)
    · exact h.pushRecord wid w r

theorem Inv.freeRecord {s : State} (h : Inv s) (wid : Nat) (w : Wave) (k : Nat) : Inv (freeRecord s wid w k) := by
  unfold Machine.freeRecord
  split
  · exact h
  · refine Inv.setWave ?_ _ _
    split
    · exact h.recWrite _ _ _
    · exact h

theorem Inv.takeTrap {s : State} (h : Inv s) (wid : Nat) (w : Wave) (t : Trap) : Inv (takeTrap s wid w t) := by
  unfold Machine.takeTrap
  split
  · exact ((Inv.pushRecords wid _ _ h).setWave _ _).enterHandler ..
  · exact h.killWave ..

theorem Inv.deliver {s : State} (h : Inv s) (wid : Nat) (w : Wave) : Inv (deliver s wid w) := h.enterHandler ..

/-- A slot operation keeps the invariant where its effect does. -/
theorem Inv.slotOp {i : Instr} {s t : State} {body : Nat → Wave → State → State} (h : Inv s) (hb : ∀ wid w s, Inv s → Inv (body wid w s))
    (ht : slotOp i s body = .next t) : Inv t := by
  obtain ⟨w, -, h1 | h1 | ⟨x, -, h1⟩ | h1⟩ := slotOp_cases ht <;> subst h1
  · exact (hb _ _ _ h).bump
  · exact h.bump
  · exact (h.takeTrap ..).bump
  · exact (h.deliver ..).bump

/-! ### Publications, releases and acquires -/

theorem publish_waves (s : State) (core : Nat) : (publish s core).waves = s.waves := rfl
theorem publish_mem (s : State) (core : Nat) : (publish s core).mem = s.mem := rfl
theorem publish_epoch (s : State) (core : Nat) : (coreOf (publish s core) core).epoch = (coreOf s core).epoch + 1 := by
  simp only [publish, coreOf_modCore, if_pos]

theorem Inv.publish {s : State} (h : Inv s) (core : Nat) : Inv (publish s core) := by
  unfold Machine.publish
  extract_lets e
  exact Inv.modCore (h.same rfl rfl rfl rfl) core (f := fun c => { c with epoch := e }) fun _ => rfl

theorem release_waves (s : State) (wid : Nat) (w : Wave) (t : RelTarget) : (release s wid w t).waves = s.waves := rfl
theorem release_mem (s : State) (wid : Nat) (w : Wave) (t : RelTarget) : (release s wid w t).mem = s.mem := rfl

theorem Inv.release {s : State} (h : Inv s) (wid : Nat) (w : Wave) (t : RelTarget) : Inv (release s wid w t) := (h.publish _).same rfl rfl rfl rfl

theorem Inv.refresh {s : State} (h : Inv s) (core : Nat) : Inv (refresh s core) := ⟨h.1.refresh core, h.2⟩

theorem Inv.refreshFor {s : State} (h : Inv s) (core : Nat) (l : List Sync) : Inv (refreshFor s core l) :=
  (h.refresh core).modCore core fun _ => rfl

theorem Inv.endAcquire {s : State} (h : Inv s) (wid : Nat) : Inv (endAcquire s wid) := by
  unfold Machine.endAcquire
  split
  · exact h
  · split
    · exact h
    · split
      · exact (h.refreshFor _ _).setWave _ _
      · exact h

theorem Inv.endSupAcquire {s : State} (h : Inv s) (wid : Nat) : Inv (endSupAcquire s wid) := by
  unfold Machine.endSupAcquire
  split
  · exact h
  · split
    · exact h
    · split
      · exact (h.refreshFor _ _).setWave _ _
      · exact h

theorem Inv.tryAcquire {s : State} (h : Inv s) (wid : Nat) : Inv (tryAcquire s wid) := (h.endAcquire wid).endSupAcquire wid

theorem Inv.acquireOp {s : State} (h : Inv s) (wid : Nat) (w : Wave) : Inv (acquireOp s wid w) := (h.setWave _ _).tryAcquire _

/-! ### What a core's next accesses follow (R221, R222) -/

/-- A core that takes a view keeps its wave slots, its memories and what is in flight. -/
theorem takeView_frame (s : State) (core : Nat) (v : View) : (takeView s core v).waves = s.waves ∧ (takeView s core v).mem = s.mem ∧
    (takeView s core v).hostMem = s.hostMem ∧ (takeView s core v).acc = s.acc ∧ (takeView s core v).hist = s.hist ∧
    (takeView s core v).commits = s.commits := ⟨rfl, rfl, rfl, rfl, rfl, rfl⟩

/-- The latitude that stays is that of locations to which no store happens before. -/
theorem mem_stillLow (s : State) (clock : Tab Nat) (l : List Nat) (n : Nat) :
    n ∈ stillLow s clock l ↔ n ∈ l ∧ ∀ c ∈ s.hist, c.loc = n → happened clock c = false := by
  simp [stillLow]

end Sys2Proof.Machine
end

