-- ==== Sys2Proof/Laws/PerInstr.lean ====
section
/-! SUPPORT. Statements made per instruction. RoundTrip: the decoder reads back every well-formed operation from the slot word that the
encoder writes, and no check of the hazard filter on that slot fails (R57, R75 to R95); a step that no slot holds has no word. -/

set_option Elab.async false

namespace Sys2Proof.Laws.RoundTrip

/-- What RoundTrip says of one instruction. -/
def Statement (i : Instr) : Prop := i.wf = true → ∀ x, encode i = some x → decodeSlot x = { fails := [], i := some i }

theorem sadd (f : SaReg) : Statement (.sadd f) := by
  intro hw x hx
  cases hx
  show decS _ _ = _
  rw [decS_sa _ _ (by simp)]
  show chk _ _ = _
  simp_all [chk, z, Instr.wf]
theorem ssub (f : SaReg) : Statement (.ssub f) := by
  intro hw x hx
  cases hx
  show decS _ _ = _
  rw [decS_sa _ _ (by simp)]
  show chk _ _ = _
  simp_all [chk, z, Instr.wf]
theorem smul (f : SaReg) : Statement (.smul f) := by
  intro hw x hx
  cases hx
  show decS _ _ = _
  rw [decS_sa _ _ (by simp)]
  show chk _ _ = _
  simp_all [chk, z, Instr.wf]
theorem smulh (f : SaReg) : Statement (.smulh f) := by
  intro hw x hx
  cases hx
  show decS _ _ = _
  rw [decS_sa _ _ (by simp)]
  show chk _ _ = _
  simp_all [chk, z, Instr.wf]
theorem sand (f : SaReg) : Statement (.sand f) := by
  intro hw x hx
  cases hx
  show decS _ _ = _
  rw [decS_sa _ _ (by simp)]
  show chk _ _ = _
  simp_all [chk, z, Instr.wf]
theorem sor (f : SaReg) : Statement (.sor f) := by
  intro hw x hx
  cases hx
  show decS _ _ = _
  rw [decS_sa _ _ (by simp)]
  show chk _ _ = _
  simp_all [chk, z, Instr.wf]
theorem sxor (f : SaReg) : Statement (.sxor f) := by
  intro hw x hx
  cases hx
  show decS _ _ = _
  rw [decS_sa _ _ (by simp)]
  show chk _ _ = _
  simp_all [chk, z, Instr.wf]
theorem sshl (f : SaReg) : Statement (.sshl f) := by
  intro hw x hx
  cases hx
  show decS _ _ = _
  rw [decS_sa _ _ (by simp)]
  show chk _ _ = _
  simp_all [chk, z, Instr.wf]
theorem sshr (f : SaReg) : Statement (.sshr f) := by
  intro hw x hx
  cases hx
  show decS _ _ = _
  rw [decS_sa _ _ (by simp)]
  show chk _ _ = _
  simp_all [chk, z, Instr.wf]
theorem ssar (f : SaReg) : Statement (.ssar f) := by
  intro hw x hx
  cases hx
  show decS _ _ = _
  rw [decS_sa _ _ (by simp)]
  show chk _ _ = _
  simp_all [chk, z, Instr.wf]
theorem smin (f : SaMinReg) : Statement (.smin f) := by
  intro hw x hx
  cases hx
  show decS _ _ = _
  rw [decS_sa _ _ (by simp)]
  show chk _ _ = _
  obtain ⟨r, u⟩ := f
  cases u <;> simp_all [chk, z, Instr.wf, b1]
theorem smax (f : SaMinReg) : Statement (.smax f) := by
  intro hw x hx
  cases hx
  show decS _ _ = _
  rw [decS_sa _ _ (by simp)]
  show chk _ _ = _
  obtain ⟨r, u⟩ := f
  cases u <;> simp_all [chk, z, Instr.wf, b1]
theorem sset (f : SsetReg) : Statement (.sset f) := by
  intro hw x hx
  cases hx
  show decS _ _ = _
  rw [decS_sa _ _ (by simp)]
  show chk _ _ = _
  simp_all [chk, z, Instr.wf]
theorem ssel (f : SselF) : Statement (.ssel f) := by
  intro hw x hx
  cases hx
  show decS _ _ = _
  rw [decS_sa _ _ (by simp)]
  show chk _ _ = _
  simp_all [chk, z, Instr.wf]
theorem srd (f : SrdF) : Statement (.srd f) := by
  intro hw x hx
  cases hx
  show decS _ _ = _
  rw [decS_sa _ _ (by simp)]
  show chk _ _ = _
  simp_all [chk, z, Instr.wf, SAw.zero]
theorem saddI (f : SaImm) : Statement (.saddI f) := by
  intro hw x hx
  cases hx
  show decS _ _ = _
  rw [decS_sa _ _ (by simp)]
  show chk _ _ = _
  simp_all [chk, z, Instr.wf]
theorem ssubI (f : SaImm) : Statement (.ssubI f) := by
  intro hw x hx
  cases hx
  show decS _ _ = _
  rw [decS_sa _ _ (by simp)]
  show chk _ _ = _
  simp_all [chk, z, Instr.wf]
theorem smulI (f : SaImm) : Statement (.smulI f) := by
  intro hw x hx
  cases hx
  show decS _ _ = _
  rw [decS_sa _ _ (by simp)]
  show chk _ _ = _
  simp_all [chk, z, Instr.wf]
theorem sandI (f : SaImm) : Statement (.sandI f) := by
  intro hw x hx
  cases hx
  show decS _ _ = _
  rw [decS_sa _ _ (by simp)]
  show chk _ _ = _
  simp_all [chk, z, Instr.wf]
theorem sorI (f : SaImm) : Statement (.sorI f) := by
  intro hw x hx
  cases hx
  show decS _ _ = _
  rw [decS_sa _ _ (by simp)]
  show chk _ _ = _
  simp_all [chk, z, Instr.wf]
theorem sxorI (f : SaImm) : Statement (.sxorI f) := by
  intro hw x hx
  cases hx
  show decS _ _ = _
  rw [decS_sa _ _ (by simp)]
  show chk _ _ = _
  simp_all [chk, z, Instr.wf]
theorem sshlI (f : SaImm) : Statement (.sshlI f) := by
  intro hw x hx
  cases hx
  show decS _ _ = _
  rw [decS_sa _ _ (by simp)]
  show chk _ _ = _
  simp_all [chk, z, Instr.wf]
theorem sshrI (f : SaImm) : Statement (.sshrI f) := by
  intro hw x hx
  cases hx
  show decS _ _ = _
  rw [decS_sa _ _ (by simp)]
  show chk _ _ = _
  simp_all [chk, z, Instr.wf]
theorem ssarI (f : SaImm) : Statement (.ssarI f) := by
  intro hw x hx
  cases hx
  show decS _ _ = _
  rw [decS_sa _ _ (by simp)]
  show chk _ _ = _
  simp_all [chk, z, Instr.wf]
theorem sminI (f : SaMinImm) : Statement (.sminI f) := by
  intro hw x hx
  cases hx
  show decS _ _ = _
  rw [decS_sa _ _ (by simp)]
  show chk _ _ = _
  obtain ⟨r, u⟩ := f
  cases u <;> simp_all [chk, z, Instr.wf, b1]
theorem smaxI (f : SaMinImm) : Statement (.smaxI f) := by
  intro hw x hx
  cases hx
  show decS _ _ = _
  rw [decS_sa _ _ (by simp)]
  show chk _ _ = _
  obtain ⟨r, u⟩ := f
  cases u <;> simp_all [chk, z, Instr.wf, b1]
theorem ssetI (f : SsetImm) : Statement (.ssetI f) := by
  intro hw x hx
  cases hx
  show decS _ _ = _
  rw [decS_sa _ _ (by simp)]
  show chk _ _ = _
  simp_all [chk, z, Instr.wf]
theorem sli (f : SliF) : Statement (.sli f) := by
  intro hw x hx
  cases hx
  show decS _ _ = _
  rw [decS_sa _ _ (by simp)]
  show chk _ _ = _
  simp_all [chk, z, Instr.wf, SAw.zero]
theorem swr (f : SwrF) : Statement (.swr f) := by
  intro hw x hx
  cases hx
  show decS _ _ = _
  rw [decS_sa _ _ (by simp)]
  show chk _ _ = _
  simp_all [chk, z, Instr.wf, SAw.zero]
theorem br (disp : BitVec 24) : Statement (.br disp) := by
  intro hw x hx
  cases hx
  show decS _ _ = _
  rw [decS_sb _ _ (by simp)]
  show chk _ _ = _
  simp_all [chk, z, Instr.wf, SBw.zero]
theorem brc (f : BrcF) : Statement (.brc f) := by
  intro hw x hx
  cases hx
  show decS _ _ = _
  rw [decS_sb _ _ (by simp)]
  show chk _ _ = _
  obtain ⟨c, a, k, d⟩ := f
  simp only [Instr.wf] at hw
  split at hw <;> simp_all [chk, z, SBw.zero]
theorem brx (a : BitVec 6) : Statement (.brx a) := by
  intro hw x hx
  cases hx
  show decS _ _ = _
  rw [decS_sb _ _ (by simp)]
  show chk _ _ = _
  simp_all [chk, z, Instr.wf, SBw.zero]
theorem call (f : LinkF) : Statement (.call f) := by
  intro hw x hx
  cases hx
  show decS _ _ = _
  rw [decS_sb _ _ (by simp)]
  show chk _ _ = _
  simp_all [chk, z, Instr.wf, SBw.zero]
theorem ret (a : BitVec 6) : Statement (.ret a) := by
  intro hw x hx
  cases hx
  show decS _ _ = _
  rw [decS_sb _ _ (by simp)]
  show chk _ _ = _
  simp_all [chk, z, Instr.wf, SBw.zero]
theorem loop (f : LinkF) : Statement (.loop f) := by
  intro hw x hx
  cases hx
  show decS _ _ = _
  rw [decS_sb _ _ (by simp)]
  show chk _ _ = _
  simp_all [chk, z, Instr.wf, SBw.zero]
theorem exit (k : BitVec 4) : Statement (.exit k) := by
  intro hw x hx
  cases hx
  show decS _ _ = _
  rw [decS_sb _ _ (by simp)]
  show chk _ _ = _
  simp_all [chk, z, Instr.wf, SBw.zero]
theorem yield : Statement (.yield) := by
  intro hw x hx
  cases hx
  decide
theorem trap (code : BitVec 8) : Statement (.trap code) := by
  intro hw x hx
  cases hx
  show decS _ _ = _
  rw [decS_sb _ _ (by simp)]
  show chk _ _ = _
  simp_all [chk, z, Instr.wf, SBw.zero]
theorem bkpt (code : BitVec 8) : Statement (.bkpt code) := by
  intro hw x hx
  cases hx
  show decS _ _ = _
  rw [decS_sb _ _ (by simp)]
  show chk _ _ = _
  simp_all [chk, z, Instr.wf, SBw.zero]
theorem svc (code : BitVec 8) : Statement (.svc code) := by
  intro hw x hx
  cases hx
  show decS _ _ = _
  rw [decS_sb _ _ (by simp)]
  show chk _ _ = _
  simp_all [chk, z, Instr.wf, SBw.zero]
theorem eret : Statement (.eret) := by
  intro hw x hx
  cases hx
  decide
theorem bar (f : BarF) : Statement (.bar f) := by
  intro hw x hx
  cases hx
  show decS _ _ = _
  rw [decS_sc _ _ (by simp)]
  show chk _ _ = _
  obtain ⟨v, u⟩ := f
  have := v.isLt
  have e : v.toNat % 64 ≤ 3 := by omega
  cases u <;> simp_all [chk, z, Instr.wf, SCw.zero, b1]
theorem fence (f : FenceF) : Statement (.fence f) := by
  intro hw x hx
  cases hx
  show decS _ _ = _
  rw [decS_sc _ _ (by simp)]
  show chk _ _ = _
  obtain ⟨a, b, u⟩ := f
  cases u <;> simp_all [chk, z, Instr.wf, SCw.zero, b1]
theorem phase (f : PhaseMode) : Statement (.phase f) := by
  intro hw x hx
  cases hx
  show decS _ _ = _
  rw [decS_sc _ _ (by simp)]
  show chk _ _ = _
  simp_all [chk, z, Instr.wf, SCw.zero]
theorem mwait (f : ScWait) : Statement (.mwait f) := by
  intro hw x hx
  cases hx
  show decS _ _ = _
  rw [decS_sc _ _ (by simp)]
  show chk _ _ = _
  simp_all [chk, z, Instr.wf, SCw.zero, scop_code]
theorem gwait (f : ScWait) : Statement (.gwait f) := by
  intro hw x hx
  cases hx
  show decS _ _ = _
  rw [decS_sc _ _ (by simp)]
  show chk _ _ = _
  simp_all [chk, z, Instr.wf, SCw.zero, scop_code]
theorem gopen (f : ScWait) : Statement (.gopen f) := by
  intro hw x hx
  cases hx
  show decS _ _ = _
  rw [decS_sc _ _ (by simp)]
  show chk _ _ = _
  simp_all [chk, z, Instr.wf, SCw.zero, scop_code]
theorem felrd (f : FelrdF) : Statement (.felrd f) := by
  intro hw x hx
  cases hx
  show decS _ _ = _
  rw [decS_sa _ _ (by simp)]
  show chk _ _ = _
  obtain ⟨r, u⟩ := f
  cases u <;> simp_all [chk, z, Instr.wf, SAw.zero, b1]
theorem replay (f : ScOp) : Statement (.replay f) := by
  intro hw x hx
  cases hx
  show decS _ _ = _
  rw [decS_sc _ _ (by simp)]
  show chk _ _ = _
  cases f <;> simp_all [chk, z, Instr.wf, SCw.zero]
  all_goals simp_all [scopA, scopI, scop]
theorem invpg (f : InvpgF) : Statement (.invpg f) := by
  intro hw x hx
  cases hx
  show decS _ _ = _
  rw [decS_sc _ _ (by simp)]
  show chk _ _ = _
  obtain ⟨a, v, u⟩ := f
  have h0 := v.isLt
  have e : v.toNat % 64 = v.toNat := Nat.mod_eq_of_lt (by omega)
  simp only [Instr.wf] at hw
  cases u <;> simp_all [chk, z, SCw.zero, b1]
  all_goals omega
theorem vadd (f : VArith) : Statement (.vadd f) := by
  intro hw x hx
  cases hx
  refine (dec_V _ _ _).trans ?_
  show chk _ _ = _
  obtain ⟨⟨cl, k, d, a⟩, b, t, ⟨rm, na, nb, ab, sat⟩⟩ := f
  by_cases ht : t.isFloat = true <;> simp_all [chk, z, Instr.wf, decVArith, vmods, vmodOf, vhdr, VMod.wfArith, VMod.noSign]
theorem vsub (f : VArith) : Statement (.vsub f) := by
  intro hw x hx
  cases hx
  refine (dec_V _ _ _).trans ?_
  show chk _ _ = _
  obtain ⟨⟨cl, k, d, a⟩, b, t, ⟨rm, na, nb, ab, sat⟩⟩ := f
  by_cases ht : t.isFloat = true <;> simp_all [chk, z, Instr.wf, decVArith, vmods, vmodOf, vhdr, VMod.wfArith, VMod.noSign]
theorem vmul (f : VArith) : Statement (.vmul f) := by
  intro hw x hx
  cases hx
  refine (dec_V _ _ _).trans ?_
  show chk _ _ = _
  obtain ⟨⟨cl, k, d, a⟩, b, t, ⟨rm, na, nb, ab, sat⟩⟩ := f
  by_cases ht : t.isFloat = true <;> simp_all [chk, z, Instr.wf, decVArith, vmods, vmodOf, vhdr, VMod.wfArith, VMod.noSign]
theorem vfma (f : VFmaF) : Statement (.vfma f) := by
  intro hw x hx
  cases hx
  refine (dec_V _ _ _).trans ?_
  show chk _ _ = _
  obtain ⟨⟨cl, k, d, a⟩, b, c, t, ⟨rm, na, nb, ab, sat⟩⟩ := f
  simp_all [chk, z, Instr.wf, vmodOf, vhdr, VMod.wfFma]
theorem vmin (f : VArith) : Statement (.vmin f) := by
  intro hw x hx
  cases hx
  refine (dec_V _ _ _).trans ?_
  show chk _ _ = _
  obtain ⟨⟨cl, k, d, a⟩, b, t, ⟨rm, na, nb, ab, sat⟩⟩ := f
  by_cases ht : t.isFloat = true <;> simp_all [chk, z, Instr.wf, decVMinMax, vmods, vmodOf, vhdr, VMod.wfCompare, VMod.noSign]
theorem vmax (f : VArith) : Statement (.vmax f) := by
  intro hw x hx
  cases hx
  refine (dec_V _ _ _).trans ?_
  show chk _ _ = _
  obtain ⟨⟨cl, k, d, a⟩, b, t, ⟨rm, na, nb, ab, sat⟩⟩ := f
  by_cases ht : t.isFloat = true <;> simp_all [chk, z, Instr.wf, decVMinMax, vmods, vmodOf, vhdr, VMod.wfCompare, VMod.noSign]
theorem vcmp (f : VCmpF) : Statement (.vcmp f) := by
  intro hw x hx
  cases hx
  refine (dec_V _ _ _).trans ?_
  show chk _ _ = _
  obtain ⟨⟨cl, k, d, a⟩, b, t, cc, ⟨rm, na, nb, ab, sat⟩⟩ := f
  have l4 := low4 d
  by_cases ht : t.isFloat = true <;> simp_all [chk, z, Instr.wf, vmods, vmodOf, vhdr, VMod.wfCompare, VMod.noSign, vcmpOk]
theorem vsel (f : VSelF) : Statement (.vsel f) := by
  intro hw x hx
  cases hx
  refine (dec_V _ _ _).trans ?_
  show chk _ _ = _
  simp_all [chk, z, Instr.wf, vplain, vhdr, VMod.zero]
theorem vand (f : VBitF) : Statement (.vand f) := by
  intro hw x hx
  cases hx
  refine (dec_V _ _ _).trans ?_
  show chk _ _ = _
  simp_all [chk, z, Instr.wf, vplain, vhdr, VMod.zero]
theorem vor (f : VBitF) : Statement (.vor f) := by
  intro hw x hx
  cases hx
  refine (dec_V _ _ _).trans ?_
  show chk _ _ = _
  simp_all [chk, z, Instr.wf, vplain, vhdr, VMod.zero]
theorem vxor (f : VBitF) : Statement (.vxor f) := by
  intro hw x hx
  cases hx
  refine (dec_V _ _ _).trans ?_
  show chk _ _ = _
  simp_all [chk, z, Instr.wf, vplain, vhdr, VMod.zero]
theorem vshl (f : VTyF) : Statement (.vshl f) := by
  intro hw x hx
  cases hx
  refine (dec_V _ _ _).trans ?_
  show chk _ _ = _
  simp_all [chk, z, Instr.wf, vplain, vhdr, VMod.zero]
theorem vshr (f : VTyF) : Statement (.vshr f) := by
  intro hw x hx
  cases hx
  refine (dec_V _ _ _).trans ?_
  show chk _ _ = _
  simp_all [chk, z, Instr.wf, vplain, vhdr, VMod.zero]
theorem vsar (f : VTyF) : Statement (.vsar f) := by
  intro hw x hx
  cases hx
  refine (dec_V _ _ _).trans ?_
  show chk _ _ = _
  simp_all [chk, z, Instr.wf, vplain, vhdr, VMod.zero]
theorem vmov (f : VHdr) : Statement (.vmov f) := by
  intro hw x hx
  cases hx
  refine (dec_V _ _ _).trans ?_
  show chk _ _ = _
  simp_all [chk, z, Instr.wf, vplain, vhdr, VMod.zero]
theorem vpop (f : VUn) : Statement (.vpop f) := by
  intro hw x hx
  cases hx
  refine (dec_V _ _ _).trans ?_
  show chk _ _ = _
  simp_all [chk, z, Instr.wf, vplain, vhdr, VMod.zero]
theorem vclz (f : VUn) : Statement (.vclz f) := by
  intro hw x hx
  cases hx
  refine (dec_V _ _ _).trans ?_
  show chk _ _ = _
  simp_all [chk, z, Instr.wf, vplain, vhdr, VMod.zero]
theorem vcvt (f : VCvtF) : Statement (.vcvt f) := by
  intro hw x hx
  cases hx
  refine (dec_V _ _ _).trans ?_
  show chk _ _ = _
  simp_all [chk, z, Instr.wf, vhdr]
theorem vmulh (f : VTyF) : Statement (.vmulh f) := by
  intro hw x hx
  cases hx
  refine (dec_V _ _ _).trans ?_
  show chk _ _ = _
  have e := ty_mulh f.ty
  simp_all [chk, z, Instr.wf, vplain, vhdr, VMod.zero]
theorem vrnd (f : VRndF) : Statement (.vrnd f) := by
  intro hw x hx
  cases hx
  refine (dec_V _ _ _).trans ?_
  show chk _ _ = _
  simp_all [chk, z, Instr.wf, vhdr]
theorem vidx (f : VDst) : Statement (.vidx f) := by
  intro hw x hx
  cases hx
  refine (dec_V _ _ _).trans ?_
  show chk _ _ = _
  simp_all [chk, z, Instr.wf, vplain, VMod.zero]
theorem vaddI (f : VArithI) : Statement (.vaddI f) := by
  intro hw x hx
  cases hx
  refine (dec_V _ _ _).trans ?_
  show chk _ _ = _
  obtain ⟨⟨cl, k, d, a⟩, b, t, ⟨rm, na, nb, ab, sat⟩⟩ := f
  by_cases ht : t.isFloat = true <;> simp_all [chk, z, Instr.wf, decVArith, vmods, vmodOf, vhdr, VMod.wfArith, VMod.noSign]
theorem vsubI (f : VArithI) : Statement (.vsubI f) := by
  intro hw x hx
  cases hx
  refine (dec_V _ _ _).trans ?_
  show chk _ _ = _
  obtain ⟨⟨cl, k, d, a⟩, b, t, ⟨rm, na, nb, ab, sat⟩⟩ := f
  by_cases ht : t.isFloat = true <;> simp_all [chk, z, Instr.wf, decVArith, vmods, vmodOf, vhdr, VMod.wfArith, VMod.noSign]
theorem vmulI (f : VArithI) : Statement (.vmulI f) := by
  intro hw x hx
  cases hx
  refine (dec_V _ _ _).trans ?_
  show chk _ _ = _
  obtain ⟨⟨cl, k, d, a⟩, b, t, ⟨rm, na, nb, ab, sat⟩⟩ := f
  by_cases ht : t.isFloat = true <;> simp_all [chk, z, Instr.wf, decVArith, vmods, vmodOf, vhdr, VMod.wfArith, VMod.noSign]
theorem vfmaI (f : VArithI) : Statement (.vfmaI f) := by
  intro hw x hx
  cases hx
  refine (dec_V _ _ _).trans ?_
  show chk _ _ = _
  obtain ⟨⟨cl, k, d, a⟩, b, t, ⟨rm, na, nb, ab, sat⟩⟩ := f
  by_cases ht : t.isFloat = true <;> simp_all [chk, z, Instr.wf, vmodOf, vhdr, VMod.wfFma]
theorem vminI (f : VArithI) : Statement (.vminI f) := by
  intro hw x hx
  cases hx
  refine (dec_V _ _ _).trans ?_
  show chk _ _ = _
  obtain ⟨⟨cl, k, d, a⟩, b, t, ⟨rm, na, nb, ab, sat⟩⟩ := f
  by_cases ht : t.isFloat = true <;> simp_all [chk, z, Instr.wf, decVMinMax, vmods, vmodOf, vhdr, VMod.wfCompare, VMod.noSign]
theorem vmaxI (f : VArithI) : Statement (.vmaxI f) := by
  intro hw x hx
  cases hx
  refine (dec_V _ _ _).trans ?_
  show chk _ _ = _
  obtain ⟨⟨cl, k, d, a⟩, b, t, ⟨rm, na, nb, ab, sat⟩⟩ := f
  by_cases ht : t.isFloat = true <;> simp_all [chk, z, Instr.wf, decVMinMax, vmods, vmodOf, vhdr, VMod.wfCompare, VMod.noSign]
theorem vcmpI (f : VCmpI) : Statement (.vcmpI f) := by
  intro hw x hx
  cases hx
  refine (dec_V _ _ _).trans ?_
  show chk _ _ = _
  obtain ⟨⟨cl, k, d, a⟩, b, t, cc, ⟨rm, na, nb, ab, sat⟩⟩ := f
  have l4 := low4 d
  by_cases ht : t.isFloat = true <;> simp_all [chk, z, Instr.wf, vmods, vmodOf, vhdr, VMod.wfCompare, VMod.noSign, vcmpOk]
theorem vselI (f : VSelI) : Statement (.vselI f) := by
  intro hw x hx
  cases hx
  refine (dec_V _ _ _).trans ?_
  show chk _ _ = _
  simp_all [chk, z, Instr.wf, vhdr, VMod.zero]
theorem vandI (f : VBitI) : Statement (.vandI f) := by
  intro hw x hx
  cases hx
  refine (dec_V _ _ _).trans ?_
  show chk _ _ = _
  simp_all [chk, z, Instr.wf, vplain, vhdr, VMod.zero]
theorem vorI (f : VBitI) : Statement (.vorI f) := by
  intro hw x hx
  cases hx
  refine (dec_V _ _ _).trans ?_
  show chk _ _ = _
  simp_all [chk, z, Instr.wf, vplain, vhdr, VMod.zero]
theorem vxorI (f : VBitI) : Statement (.vxorI f) := by
  intro hw x hx
  cases hx
  refine (dec_V _ _ _).trans ?_
  show chk _ _ = _
  simp_all [chk, z, Instr.wf, vplain, vhdr, VMod.zero]
theorem vshlI (f : VTyI) : Statement (.vshlI f) := by
  intro hw x hx
  cases hx
  refine (dec_V _ _ _).trans ?_
  show chk _ _ = _
  simp_all [chk, z, Instr.wf, vplain, vhdr, VMod.zero]
theorem vshrI (f : VTyI) : Statement (.vshrI f) := by
  intro hw x hx
  cases hx
  refine (dec_V _ _ _).trans ?_
  show chk _ _ = _
  simp_all [chk, z, Instr.wf, vplain, vhdr, VMod.zero]
theorem vsarI (f : VTyI) : Statement (.vsarI f) := by
  intro hw x hx
  cases hx
  refine (dec_V _ _ _).trans ?_
  show chk _ _ = _
  simp_all [chk, z, Instr.wf, vplain, vhdr, VMod.zero]
theorem vmovI (f : VMovI) : Statement (.vmovI f) := by
  intro hw x hx
  cases hx
  refine (dec_V _ _ _).trans ?_
  show chk _ _ = _
  simp_all [chk, z, Instr.wf, vplain, VMod.zero]
theorem fdiv (f : FOp) : Statement (.fdiv f) := by
  intro hw x hx
  cases hx
  refine (dec_F _ _).trans ?_
  show chk _ _ = _
  obtain ⟨x, y, k, c, a, e, d⟩ := f
  have e : a.getLsbD 0 = false := even_bit a (by simpa [Instr.wf] using hw)
  simp_all [chk, z, Instr.wf]
theorem fsqrt (f : FOp) : Statement (.fsqrt f) := by
  intro hw x hx
  cases hx
  refine (dec_F _ _).trans ?_
  show chk _ _ = _
  simp_all [chk, z, Instr.wf]
theorem frcp (f : FOp) : Statement (.frcp f) := by
  intro hw x hx
  cases hx
  refine (dec_F _ _).trans ?_
  show chk _ _ = _
  simp_all [chk, z, Instr.wf]
theorem frsq (f : FOp) : Statement (.frsq f) := by
  intro hw x hx
  cases hx
  refine (dec_F _ _).trans ?_
  show chk _ _ = _
  simp_all [chk, z, Instr.wf]
theorem fexp2 (f : FOp) : Statement (.fexp2 f) := by
  intro hw x hx
  cases hx
  refine (dec_F _ _).trans ?_
  show chk _ _ = _
  simp_all [chk, z, Instr.wf]
theorem flog2 (f : FOp) : Statement (.flog2 f) := by
  intro hw x hx
  cases hx
  refine (dec_F _ _).trans ?_
  show chk _ _ = _
  simp_all [chk, z, Instr.wf]
theorem ftanh (f : FOp) : Statement (.ftanh f) := by
  intro hw x hx
  cases hx
  refine (dec_F _ _).trans ?_
  show chk _ _ = _
  simp_all [chk, z, Instr.wf]
theorem kand (f : KOp) : Statement (.kand f) := by
  intro hw x hx
  cases hx
  refine (dec_L _ _).trans ?_
  show chk _ _ = _
  simp_all [chk, z, Instr.wf, Lw.zero]
theorem kor (f : KOp) : Statement (.kor f) := by
  intro hw x hx
  cases hx
  refine (dec_L _ _).trans ?_
  show chk _ _ = _
  simp_all [chk, z, Instr.wf, Lw.zero]
theorem kxor (f : KOp) : Statement (.kxor f) := by
  intro hw x hx
  cases hx
  refine (dec_L _ _).trans ?_
  show chk _ _ = _
  simp_all [chk, z, Instr.wf, Lw.zero]
theorem kandn (f : KOp) : Statement (.kandn f) := by
  intro hw x hx
  cases hx
  refine (dec_L _ _).trans ?_
  show chk _ _ = _
  simp_all [chk, z, Instr.wf, Lw.zero]
theorem kset (k : BitVec 4) : Statement (.kset k) := by
  intro hw x hx
  cases hx
  refine (dec_L _ _).trans ?_
  show chk _ _ = _
  simp_all [chk, z, Instr.wf, Lw.zero]
theorem ksetSreg (f : KsetS) : Statement (.ksetSreg f) := by
  intro hw x hx
  cases hx
  refine (dec_L _ _).trans ?_
  show chk _ _ = _
  simp_all [chk, z, Instr.wf, Lw.zero]
theorem kpop (f : KpopF) : Statement (.kpop f) := by
  intro hw x hx
  cases hx
  refine (dec_L _ _).trans ?_
  show chk _ _ = _
  simp_all [chk, z, Instr.wf, Lw.zero]
theorem kfirst (f : KfirstF) : Statement (.kfirst f) := by
  intro hw x hx
  cases hx
  refine (dec_L _ _).trans ?_
  show chk _ _ = _
  simp_all [chk, z, Instr.wf, Lw.zero]
theorem lmov (f : LHdr) : Statement (.lmov f) := by
  intro hw x hx
  cases hx
  refine (dec_L _ _).trans ?_
  show chk _ _ = _
  simp_all [chk, z, Instr.wf, lhdr]
theorem lshuf (f : LshufF) : Statement (.lshuf f) := by
  intro hw x hx
  cases hx
  refine (dec_L _ _).trans ?_
  show chk _ _ = _
  simp_all [chk, z, Instr.wf, lhdr]
theorem lshufPat (f : LpatF) : Statement (.lshufPat f) := by
  intro hw x hx
  cases hx
  obtain ⟨h, p, n⟩ := f
  refine (dec_L _ _).trans ?_
  show chk _ _ = _
  have e := pat_code p n
  have e2 := pat_rev p
  simp_all [chk, z, Instr.wf, lhdr]
  intro h0 h1
  by_cases hp : p = .rev
  · simp_all
  · have := e2.2 hp
    simp_all
theorem lbcast (f : LbcastF) : Statement (.lbcast f) := by
  intro hw x hx
  cases hx
  refine (dec_L _ _).trans ?_
  show chk _ _ = _
  simp_all [chk, z, Instr.wf, lhdr]
theorem lred (f : LredF) : Statement (.lred f) := by
  intro hw x hx
  cases hx
  refine (dec_L _ _).trans ?_
  show chk _ _ = _
  simp_all [chk, z, Instr.wf, lhdr]
theorem lscan (f : LscanF) : Statement (.lscan f) := by
  intro hw x hx
  cases hx
  refine (dec_L _ _).trans ?_
  show chk _ _ = _
  obtain ⟨r, o, u⟩ := f
  cases u <;> simp_all [chk, z, Instr.wf, lhdr, b1]
theorem lget (f : LgetF) : Statement (.lget f) := by
  intro hw x hx
  cases hx
  refine (dec_L _ _).trans ?_
  show chk _ _ = _
  have e := dir_same f.sc
  simp_all [chk, z, Instr.wf, Lw.zero]
theorem lput (f : LputF) : Statement (.lput f) := by
  intro hw x hx
  cases hx
  refine (dec_L _ _).trans ?_
  show chk _ _ = _
  have e := dir_same f.dc
  simp_all [chk, z, Instr.wf, Lw.zero]
theorem mld (f : MAcc) : Statement (.mld f) := by
  intro hw x hx
  cases hx
  refine (dec_M _ _).trans ?_
  show chk _ _ = _
  obtain ⟨h, dc, d, ac, a, w, sc, o⟩ := f
  cases o <;> simp_all [chk, z, Instr.wf, ordLoad, mhdr, mdcOk, mdc, loadOrd]
theorem mldStride (f : MStr) : Statement (.mldStride f) := by
  intro hw x hx
  cases hx
  refine (dec_M _ _).trans ?_
  show chk _ _ = _
  obtain ⟨h, dc, d, a, w, sc, o⟩ := f
  cases o <;> simp_all [chk, z, Instr.wf, ordLoad, mhdr, mdcOk, mdc, loadOrd]
theorem mst (f : MAcc) : Statement (.mst f) := by
  intro hw x hx
  cases hx
  refine (dec_M _ _).trans ?_
  show chk _ _ = _
  obtain ⟨h, dc, d, ac, a, w, sc, o⟩ := f
  cases o <;> simp_all [chk, z, Instr.wf, ordStore, mhdr, mdcOk, mdc, storeOrd]
theorem mstStride (f : MStr) : Statement (.mstStride f) := by
  intro hw x hx
  cases hx
  refine (dec_M _ _).trans ?_
  show chk _ _ = _
  obtain ⟨h, dc, d, a, w, sc, o⟩ := f
  cases o <;> simp_all [chk, z, Instr.wf, ordStore, mhdr, mdcOk, mdc, storeOrd]
theorem mldl (f : MLoc) : Statement (.mldl f) := by
  intro hw x hx
  cases hx
  refine (dec_M _ _).trans ?_
  show chk _ _ = _
  simp_all [chk, z, Instr.wf, mdcOk, mdc, locZero]
theorem mldlStride (f : MLocStr) : Statement (.mldlStride f) := by
  intro hw x hx
  cases hx
  refine (dec_M _ _).trans ?_
  show chk _ _ = _
  simp_all [chk, z, Instr.wf, mdcOk, mdc, locZero]
theorem mstl (f : MLoc) : Statement (.mstl f) := by
  intro hw x hx
  cases hx
  refine (dec_M _ _).trans ?_
  show chk _ _ = _
  simp_all [chk, z, Instr.wf, mdcOk, mdc, locZero]
theorem mstlStride (f : MLocStr) : Statement (.mstlStride f) := by
  intro hw x hx
  cases hx
  refine (dec_M _ _).trans ?_
  show chk _ _ = _
  simp_all [chk, z, Instr.wf, mdcOk, mdc, locZero]
theorem mldu (f : MUni) : Statement (.mldu f) := by
  intro hw x hx
  cases hx
  refine (dec_M _ _).trans ?_
  show chk _ _ = _
  obtain ⟨h, d, a, w, sc, o⟩ := f
  cases o <;> simp_all [chk, z, Instr.wf, ordLoad, mhdr, loadOrd]
theorem mstu (f : MUni) : Statement (.mstu f) := by
  intro hw x hx
  cases hx
  refine (dec_M _ _).trans ?_
  show chk _ _ = _
  obtain ⟨h, d, a, w, sc, o⟩ := f
  cases o <;> simp_all [chk, z, Instr.wf, ordStore, mhdr, storeOrd]
theorem matom (f : MAtomF) : Statement (.matom f) := by
  intro hw x hx
  cases hx
  refine (dec_M _ _).trans ?_
  show chk _ _ = _
  obtain ⟨k, hi, seg, disp, dc, d, ac, a, w, sc, o, op, u⟩ := f
  have e := atom_sub u op
  cases w <;> simp_all [chk, Instr.wf, atomCls, pairOk]
theorem mcas (f : MCasF) : Statement (.mcas f) := by
  intro hw x hx
  cases hx
  refine (dec_M _ _).trans ?_
  show chk _ _ = _
  obtain ⟨k, hi, seg, disp, dc, d, ac, a, w, sc, o⟩ := f
  cases w <;> simp_all [chk, z, Instr.wf, atomCls]
theorem mwatch (f : MWatchF) : Statement (.mwatch f) := by
  intro hw x hx
  cases hx
  refine (dec_M _ _).trans ?_
  show chk _ _ = _
  obtain ⟨h, d, a, w, sc, q⟩ := f
  cases w <;> cases q <;> simp_all [chk, z, Instr.wf, mhdr]
theorem mpref (f : MPrefF) : Statement (.mpref f) := by
  intro hw x hx
  cases hx
  refine (dec_M _ _).trans ?_
  show chk _ _ = _
  simp_all [chk, z, Instr.wf, mhdr]
theorem mflush (f : MFlushF) : Statement (.mflush f) := by
  intro hw x hx
  cases hx
  refine (dec_M _ _).trans ?_
  show chk _ _ = _
  simp_all [chk, z, Instr.wf, mhdr]
theorem mcopy (f : MCopyF) : Statement (.mcopy f) := by
  intro hw x hx
  cases hx
  refine (dec_M _ _).trans ?_
  show chk _ _ = _
  have e := copy_sub f.slot f.out f.ctx
  simp_all [chk, z, Instr.wf, mhdr, copyZero]
theorem mgather (f : MGatherF) : Statement (.mgather f) := by
  intro hw x hx
  cases hx
  refine (dec_M _ _).trans ?_
  show chk _ _ = _
  have e := ctx_sub f.ctx
  simp_all [chk, z, Instr.wf, mhdr, copyZero]
theorem mcast (f : MCastF) : Statement (.mcast f) := by
  intro hw x hx
  cases hx
  refine (dec_M _ _).trans ?_
  show chk _ _ = _
  have e := cast_sub f.targets f.ctx
  simp_all [chk, z, Instr.wf, mhdr, copyZero]
theorem mspush (f : MStream) : Statement (.mspush f) := by
  intro hw x hx
  cases hx
  refine (dec_M _ _).trans ?_
  show chk _ _ = _
  have e := stream_sub f.ms7 0 f.ep
  simp_all [chk, z, Instr.wf, copyZero]
theorem mspop (f : MStream) : Statement (.mspop f) := by
  intro hw x hx
  cases hx
  refine (dec_M _ _).trans ?_
  show chk _ _ = _
  have e := stream_sub f.ms7 1 f.ep
  simp_all [chk, z, Instr.wf, copyZero]
theorem msfree (f : MSfreeF) : Statement (.msfree f) := by
  intro hw x hx
  cases hx
  refine (dec_M _ _).trans ?_
  show chk _ _ = _
  have e := stream_sub f.ms7 1 f.ep
  simp_all [chk, z, Instr.wf, copyZero]
theorem tclaim (f : TClaimF) : Statement (.tclaim f) := by
  intro hw x hx
  cases hx
  refine (dec_T _ _).trans ?_
  show chk _ _ = _
  simp_all [chk, z, Instr.wf, Tw.zero]
theorem trel (f : TClaimF) : Statement (.trel f) := by
  intro hw x hx
  cases hx
  refine (dec_T _ _).trans ?_
  show chk _ _ = _
  simp_all [chk, z, Instr.wf, Tw.zero]
theorem tload (f : TMem) : Statement (.tload f) := by
  intro hw x hx
  cases hx
  refine (dec_T _ _).trans ?_
  show chk _ _ = _
  obtain ⟨k, m, a, seg, kc, fm, da, l, sc, im⟩ := f
  have e1 := tmem_sub l true sc
  have e2 := tmem_sub l false sc
  cases da <;> cases l <;> cases fm <;> simp_all [chk, z, Instr.wf, TMem.wf]
theorem tstore (f : TMem) : Statement (.tstore f) := by
  intro hw x hx
  cases hx
  refine (dec_T _ _).trans ?_
  show chk _ _ = _
  obtain ⟨k, m, a, seg, kc, fm, da, l, sc, im⟩ := f
  have e1 := tmem_sub l true sc
  have e2 := tmem_sub l false sc
  cases da <;> cases l <;> cases fm <;> simp_all [chk, z, Instr.wf, TMem.wf]
theorem tzero (f : TZeroF) : Statement (.tzero f) := by
  intro hw x hx
  cases hx
  obtain ⟨k, t⟩ := f
  cases t
  all_goals
    refine (dec_T _ _).trans ?_
    show chk _ _ = _
    simp_all [chk, z, Instr.wf, Tw.zero]
theorem tmma (f : TMmaF) : Statement (.tmma f) := by
  intro hw x hx
  cases hx
  refine (dec_T _ _).trans ?_
  show chk _ _ = _
  simp_all [chk, z, Instr.wf, Tw.zero, tfmt_le]
theorem tbmm (f : TBmmF) : Statement (.tbmm f) := by
  intro hw x hx
  cases hx
  refine (dec_T _ _).trans ?_
  show chk _ _ = _
  simp_all [chk, z, Instr.wf, Tw.zero]
theorem tscac (f : TScacF) : Statement (.tscac f) := by
  intro hw x hx
  cases hx
  refine (dec_T _ _).trans ?_
  show chk _ _ = _
  simp_all [chk, z, Instr.wf, Tw.zero]
theorem tquant (f : TQuantF) : Statement (.tquant f) := by
  intro hw x hx
  cases hx
  refine (dec_T _ _).trans ?_
  show chk _ _ = _
  obtain ⟨k, m, a, kc, hd, c, de⟩ := f
  have e1 := quant_sub true hd
  have e2 := quant_sub false hd
  cases de <;> simp_all [chk, z, Instr.wf, Tw.zero]
theorem tcvt (f : TCvtF) : Statement (.tcvt f) := by
  intro hw x hx
  cases hx
  refine (dec_T _ _).trans ?_
  show chk _ _ = _
  obtain ⟨k, m, kc, fm, u, oa, c⟩ := f
  cases fm <;> cases u <;> simp_all [chk, z, Instr.wf, Tw.zero, TCvtF.wf, b1, tfmtC, tfmt]
theorem tmovv (f : TMovvF) : Statement (.tmovv f) := by
  intro hw x hx
  cases hx
  refine (dec_T _ _).trans ?_
  show chk _ _ = _
  have e := movv_sub f.row4 f.toAcc (clusC f.cl)
  simp_all [chk, z, Instr.wf, Tw.zero]
theorem tstat (f : TStatF) : Statement (.tstat f) := by
  intro hw x hx
  cases hx
  refine (dec_T _ _).trans ?_
  show chk _ _ = _
  simp_all [chk, z, Instr.wf, Tw.zero]
theorem tmmao (f : TMmaoF) : Statement (.tmmao f) := by
  intro hw x hx
  cases hx
  refine (dec_T _ _).trans ?_
  show chk _ _ = _
  simp_all [chk, z, Instr.wf, Tw.zero]
theorem tldo (f : TLdoF) : Statement (.tldo f) := by
  intro hw x hx
  cases hx
  refine (dec_T _ _).trans ?_
  show chk _ _ = _
  simp_all [chk, z, Instr.wf, Tw.zero]
theorem emptyBundle : Statement (.emptyBundle) := fun _ _ h => nomatch h
theorem deviceReset : Statement (.deviceReset) := fun _ _ h => nomatch h
theorem functionLevelReset (v : BitVec 4) : Statement (.functionLevelReset v) := fun _ _ h => nomatch h
theorem stageDieReset (die : BitVec 3) : Statement (.stageDieReset die) := fun _ _ h => nomatch h
theorem firmwarePush (len : BitVec 31) : Statement (.firmwarePush len) := fun _ _ h => nomatch h
theorem registerImageKey : Statement (.registerImageKey) := fun _ _ h => nomatch h
theorem newDebugChallenge : Statement (.newDebugChallenge) := fun _ _ h => nomatch h
theorem debugUnlock : Statement (.debugUnlock) := fun _ _ h => nomatch h
theorem checkpoint : Statement (.checkpoint) := fun _ _ h => nomatch h
theorem restoreFromCheckpoint : Statement (.restoreFromCheckpoint) := fun _ _ h => nomatch h
theorem decommission : Statement (.decommission) := fun _ _ h => nomatch h
theorem unknownCommand (op : BitVec 8) : Statement (.unknownCommand op) := fun _ _ h => nomatch h
theorem spdmMeasurements (nonce : BitVec 256) : Statement (.spdmMeasurements nonce) := fun _ _ h => nomatch h
theorem getCertificate : Statement (.getCertificate) := fun _ _ h => nomatch h
theorem hostMemAccess (a : HostAcc) : Statement (.hostMemAccess a) := fun _ _ h => nomatch h
theorem biasTableWrite (n : BitVec 4) (val : DWord) : Statement (.biasTableWrite n val) := fun _ _ h => nomatch h
theorem queueEnable (q : QId) (val : DWord) : Statement (.queueEnable q val) := fun _ _ h => nomatch h
theorem queueDisable (q : QId) : Statement (.queueDisable q) := fun _ _ h => nomatch h
theorem qtailDoorbell (q : QId) (tail : Word) : Statement (.qtailDoorbell q tail) := fun _ _ h => nomatch h
theorem queueReset (q : QId) : Statement (.queueReset q) := fun _ _ h => nomatch h
theorem handlerTableEnable (v : BitVec 4) (val : DWord) : Statement (.handlerTableEnable v val) := fun _ _ h => nomatch h
theorem debugHaltRequest (val : DWord) : Statement (.debugHaltRequest val) := fun _ _ h => nomatch h
theorem debugResume (val : DWord) : Statement (.debugResume val) := fun _ _ h => nomatch h
theorem sliceLimitClear (die : BitVec 3) (mask : BitVec 3) : Statement (.sliceLimitClear die mask) := fun _ _ h => nomatch h
theorem fwinWrite (die : BitVec 3) (val : DWord) : Statement (.fwinWrite die val) := fun _ _ h => nomatch h
theorem sensorRevalidate (die : BitVec 3) (val : DWord) : Statement (.sensorRevalidate die val) := fun _ _ h => nomatch h
theorem clbudWrite (die : BitVec 3) (val : DWord) : Statement (.clbudWrite die val) := fun _ _ h => nomatch h
theorem tollBucketEnable (die : BitVec 3) (v : BitVec 4) (far : Bool) (val : DWord) : Statement (.tollBucketEnable die v far val) := fun _ _ h => nomatch h
theorem oppwinWrite (die : BitVec 3) (v : BitVec 4) (lo : BitVec 3) (hi : BitVec 3) : Statement (.oppwinWrite die v lo hi) := fun _ _ h => nomatch h
theorem registerWrite (w : RegW) : Statement (.registerWrite w) := fun _ _ h => nomatch h
theorem launch (q : QId) : Statement (.launch q) := fun _ _ h => nomatch h
theorem route (q : QId) : Statement (.route q) := fun _ _ h => nomatch h
theorem mark (q : QId) : Statement (.mark q) := fun _ _ h => nomatch h
theorem waitmark (q : QId) : Statement (.waitmark q) := fun _ _ h => nomatch h
theorem waitmarkPoll (q : QId) : Statement (.waitmarkPoll q) := fun _ _ h => nomatch h
theorem gatecfg (q : QId) : Statement (.gatecfg q) := fun _ _ h => nomatch h
theorem timestamp (q : QId) : Statement (.timestamp q) := fun _ _ h => nomatch h
theorem energy (q : QId) : Statement (.energy q) := fun _ _ h => nomatch h
theorem hostcopy (q : QId) : Statement (.hostcopy q) := fun _ _ h => nomatch h
theorem nopkt (q : QId) : Statement (.nopkt q) := fun _ _ h => nomatch h
theorem gateRaise (lid : Nat) : Statement (.gateRaise lid) := fun _ _ h => nomatch h
theorem partyPlace (lid : Nat) : Statement (.partyPlace lid) := fun _ _ h => nomatch h
theorem waveRelease (wid : Nat) : Statement (.waveRelease wid) := fun _ _ h => nomatch h
theorem tokenFetch (wid : Nat) : Statement (.tokenFetch wid) := fun _ _ h => nomatch h
theorem ostlerRefill (core : Nat) : Statement (.ostlerRefill core) := fun _ _ h => nomatch h
theorem exposedResultLand (wid : Nat) : Statement (.exposedResultLand wid) := fun _ _ h => nomatch h
theorem loadReturn (id : Nat) : Statement (.loadReturn id) := fun _ _ h => nomatch h
theorem pageWalk (id : Nat) (va : Nat) : Statement (.pageWalk id va) := fun _ _ h => nomatch h
theorem storeTranslate (id : Nat) : Statement (.storeTranslate id) := fun _ _ h => nomatch h
theorem storeCommit (id : Nat) : Statement (.storeCommit id) := fun _ _ h => nomatch h
theorem publicationComplete (core : Nat) : Statement (.publicationComplete core) := fun _ _ h => nomatch h
theorem releaseApply (id : Nat) : Statement (.releaseApply id) := fun _ _ h => nomatch h
theorem convoyPhaseComplete (cv : Nat) : Statement (.convoyPhaseComplete cv) := fun _ _ h => nomatch h
theorem milestoneAdvance (party : Nat) (ctx : BitVec 3) : Statement (.milestoneAdvance party ctx) := fun _ _ h => nomatch h
theorem gateWaitWake (wid : Nat) : Statement (.gateWaitWake wid) := fun _ _ h => nomatch h
theorem mwatchWake (wid : Nat) : Statement (.mwatchWake wid) := fun _ _ h => nomatch h
theorem mwatchTimeout (wid : Nat) : Statement (.mwatchTimeout wid) := fun _ _ h => nomatch h
theorem handlerEntry (wid : Nat) : Statement (.handlerEntry wid) := fun _ _ h => nomatch h
theorem copyComplete (id : Nat) : Statement (.copyComplete id) := fun _ _ h => nomatch h
theorem mcastLanding (id : Nat) (pos : BitVec 2) : Statement (.mcastLanding id pos) := fun _ _ h => nomatch h
theorem streamPushComplete (ep : Nat) : Statement (.streamPushComplete ep) := fun _ _ h => nomatch h
theorem mspopAcquire (wid : Nat) : Statement (.mspopAcquire wid) := fun _ _ h => nomatch h
theorem overflowLodging (ep : Nat) : Statement (.overflowLodging ep) := fun _ _ h => nomatch h
theorem cyclicWait (route : Nat) : Statement (.cyclicWait route) := fun _ _ h => nomatch h
theorem tollRefill (die : BitVec 3) (v : BitVec 4) : Statement (.tollRefill die v) := fun _ _ h => nomatch h
theorem tileFillComplete (core : Nat) (id : Nat) : Statement (.tileFillComplete core id) := fun _ _ h => nomatch h
theorem tileDrainComplete (core : Nat) (id : Nat) : Statement (.tileDrainComplete core id) := fun _ _ h => nomatch h
theorem tileOpRetire (core : Nat) : Statement (.tileOpRetire core) := fun _ _ h => nomatch h
theorem preemptRequest (lid : Nat) : Statement (.preemptRequest lid) := fun _ _ h => nomatch h
theorem safePointStop (wid : Nat) : Statement (.safePointStop wid) := fun _ _ h => nomatch h
theorem bodySave (lid : Nat) : Statement (.bodySave lid) := fun _ _ h => nomatch h
theorem bodyResume (lid : Nat) (die : BitVec 3) : Statement (.bodyResume lid die) := fun _ _ h => nomatch h
theorem watchdogExpiry (wid : Nat) : Statement (.watchdogExpiry wid) := fun _ _ h => nomatch h
theorem sliceEnd (die : BitVec 3) : Statement (.sliceEnd die) := fun _ _ h => nomatch h
theorem waveHalt (wid : Nat) : Statement (.waveHalt wid) := fun _ _ h => nomatch h
theorem waveRetire (wid : Nat) : Statement (.waveRetire wid) := fun _ _ h => nomatch h
theorem launchComplete (lid : Nat) : Statement (.launchComplete lid) := fun _ _ h => nomatch h
theorem yieldMarkExpiry (wid : Nat) : Statement (.yieldMarkExpiry wid) := fun _ _ h => nomatch h
theorem powerExempt (wid : Nat) : Statement (.powerExempt wid) := fun _ _ h => nomatch h
theorem oppPhaseEnd (core : Nat) : Statement (.oppPhaseEnd core) := fun _ _ h => nomatch h
theorem oppTransitionEnd (core : Nat) : Statement (.oppTransitionEnd core) := fun _ _ h => nomatch h
theorem allowStep (core : Nat) : Statement (.allowStep core) := fun _ _ h => nomatch h
theorem rampStep (core : Nat) : Statement (.rampStep core) := fun _ _ h => nomatch h
theorem arrayFillDown (core : Nat) : Statement (.arrayFillDown core) := fun _ _ h => nomatch h
theorem capMeasurement (pwr : Nat) : Statement (.capMeasurement pwr) := fun _ _ h => nomatch h
theorem droopAlarm (cluster : Nat) : Statement (.droopAlarm cluster) := fun _ _ h => nomatch h
theorem droopStretchEnd (cluster : Nat) : Statement (.droopStretchEnd cluster) := fun _ _ h => nomatch h
theorem droopHalvingEnd (cluster : Nat) : Statement (.droopHalvingEnd cluster) := fun _ _ h => nomatch h
theorem sliceRailLoop (core : Nat) (slice : BitVec 2) : Statement (.sliceRailLoop core slice) := fun _ _ h => nomatch h
theorem sensorSample (x : Sample) : Statement (.sensorSample x) := fun _ _ h => nomatch h
theorem counterSample : Statement (.counterSample) := fun _ _ h => nomatch h
theorem eccErrorNoConsumer (loc : Nat) : Statement (.eccErrorNoConsumer loc) := fun _ _ h => nomatch h
theorem allowanceGain (cluster : Nat) : Statement (.allowanceGain cluster) := fun _ _ h => nomatch h
theorem l1DirtyEviction (id : Nat) : Statement (.l1DirtyEviction id) := fun _ _ h => nomatch h
theorem ideKmKeySet (key : BitVec 256) : Statement (.ideKmKeySet key) := fun _ _ h => nomatch h

end Sys2Proof.Laws.RoundTrip
end

