-- ==== Sys2Proof/Laws/Tile.lean ====
section
/-! SUPPORT. The bound on what undervolted slices give (R165). -/

namespace Sys2Proof.Laws
open Sys2Proof.Machine

/-- Truncated division goes no further than its dividend, on the same side of 0. -/
theorem tdiv_mul_between (a u : Int) (hu : 0 < u) : min a 0 ≤ a.tdiv u * u ∧ a.tdiv u * u ≤ max a 0 := by
  rcases Int.le_total 0 a with h | h
  · have h1 := Int.tdiv_nonneg h hu.le
    have h2 := Int.mul_tdiv_add_tmod a u
    have h3 := Int.tmod_nonneg u h
    have h4 := mul_nonneg h1 hu.le
    rw [mul_comm] at h2
    omega
  · have h5 : a = -(-a) := by omega
    have hn : 0 ≤ -a := by omega
    have h1 := Int.tdiv_nonneg hn hu.le
    have h2 := Int.mul_tdiv_add_tmod (-a) u
    have h3 := Int.tmod_nonneg u hn
    have h4 := mul_nonneg h1 hu.le
    have h6 : a.tdiv u = -((-a).tdiv u) := by rw [Int.neg_tdiv, neg_neg]
    rw [mul_comm] at h2
    rw [h6, neg_mul]
    omega

/-- The deviations of a product keep its sum within the bound of its level and never take it below zero (R163, R165). -/
theorem deviate_sum (serial : Nat) (f : Fmt) (lvl p tag : Nat) (l : List Nat) (sum : Int)
    (hl : max (1 - 2 ^ (railCol f lvl + 2)) (-(p : Int)) ≤ sum) (hh : sum < 2 ^ (railCol f lvl + 2)) :
    max (1 - 2 ^ (railCol f lvl + 2)) (-(p : Int)) ≤ sum + (deviate serial f lvl p tag l sum).sum ∧
      sum + (deviate serial f lvl p tag l sum).sum < 2 ^ (railCol f lvl + 2) := by
  induction l generalizing sum with
  | nil => simpa [deviate] using ⟨by simpa using hl, hh⟩
  | cons q t ih =>
    simp only [deviate, List.sum_cons]
    generalize he : (2 : Int) ^ (railCol f lvl + 2) = e at *
    generalize hlow : max (1 - e) (-(p : Int)) = low at *
    have hpos : 0 < e - low := by omega
    have hm := Int.emod_nonneg (Config.sliceError serial (4 * tag + q)) hpos.ne'
    have hm2 := Int.emod_lt_of_pos (Config.sliceError serial (4 * tag + q)) hpos
    have hb := tdiv_mul_between (Config.sliceError serial (4 * tag + q) % (e - low) + low - sum) (2 ^ (prodWidth f / 4 * q)) (by positivity)
    rw [← Int.add_assoc]
    exact ih _ (by omega) (by omega)

/-- The deviation of a delivered product: within the bound of R165, and never below minus the product. -/
theorem sliceDev_bound (serial : Nat) (f : Fmt) (lvl : Nat) (und : List Nat) (tag : Nat) (x y : FVal) :
    -(prodMag x y : Int) ≤ sliceDev serial f lvl und tag x y ∧ (sliceDev serial f lvl und tag x y).natAbs < 2 ^ (railCol f lvl + 2) := by
  have hp : (1 : Int) ≤ 2 ^ (railCol f lvl + 2) := one_le_pow₀ (by norm_num)
  have h := deviate_sum serial f lvl (prodMag x y) tag und 0 (by omega) (by omega)
  have hs : sliceDev serial f lvl und tag x y = (deviate serial f lvl (prodMag x y) tag und 0).sum := by
    simp [sliceDev, sliceDevs, List.sum_eq_foldl]
  have hc : ((2 ^ (railCol f lvl + 2) : Nat) : Int) = 2 ^ (railCol f lvl + 2) := by norm_cast
  rw [hs]
  constructor <;> omega

/-- No slice is undervolted at full fidelity (R165). -/
theorem undervolted_full (s : State) (core : Nat) : undervolted s core 3 = [] := by
  simp [undervolted]

/-- Where no slice is undervolted the delivered product is exact (R165). -/
theorem sliceDev_nil (serial : Nat) (f : Fmt) (lvl tag : Nat) (x y : FVal) : sliceDev serial f lvl [] tag x y = 0 := rfl

end Sys2Proof.Laws
end

