-- ==== Sys2Proof/Tests/Slice0.lean ====
section
/-! SUPPORT. Tests: ill-formed terms that the checks refuse, slot words of the manual and what they decode to, one step from reset, worked
examples of the manual, and for every statement of Obligations.lean states and operands that meet its hypotheses. -/

set_option Elab.async false

namespace Sys2Proof.Tests

open Sys2Proof Sys2Proof.Machine

/-! ### Ill-formed terms (R57, R75 to R97) -/

def hA : VHdr := ⟨.A, 0, 1, 2⟩
def mPlain : VMod := ⟨.rne, false, false, false, false⟩
def mSat : VMod := ⟨.rne, false, false, false, true⟩
def mUp : VMod := ⟨.rup, false, false, false, false⟩
def saR : SaReg := ⟨1, 2, 3, .w64⟩
def saI : SaImm := ⟨1, 2, .inWord 0, .w64⟩
def mHdr : MHdr := ⟨0, .normal, 0, .inWord 0⟩
def lHdr : LHdr := ⟨.A, .A, 0, 1, 2⟩

/-! One term for each check of Instr.wf. -/

def illS : List Instr :=
  [.sset ⟨saR, .any⟩, .ssetI ⟨saI, .none⟩, .ssel ⟨saR, .all, 0⟩, .srd ⟨0, 0x13⟩, .swr ⟨0, 0x08⟩, .brc ⟨.eq, 0, 1, 0⟩, .brc ⟨.any, 1, 0, 0⟩,
   .fence ⟨.die, .relaxed, false⟩, .fence ⟨.die, .acquire, true⟩, .fence ⟨.wave, .acqRel, true⟩, .mwait ⟨8, .imm 0⟩, .mwait ⟨0, .reg 63⟩,
   .gwait ⟨0, .reg 63⟩, .gopen ⟨0, .reg 63⟩, .replay (.reg 63), .replay (.imm 64), .invpg ⟨63, 0, false⟩, .invpg ⟨0, 6, false⟩, .invpg ⟨0, 1, true⟩]

def illV : List Instr :=
  [.vadd ⟨hA, 0, .f32, mSat⟩, .vsub ⟨hA, 0, .s32, mUp⟩, .vmul ⟨hA, 0, .f32, mSat⟩, .vaddI ⟨hA, .stream, .f32, mSat⟩, .vsubI ⟨hA, .stream, .s32, mUp⟩,
   .vmulI ⟨hA, .stream, .f32, mSat⟩, .vmin ⟨hA, 0, .f32, mUp⟩, .vmax ⟨hA, 0, .s32, mSat⟩, .vminI ⟨hA, .stream, .f32, mUp⟩,
   .vmaxI ⟨hA, .stream, .s32, mSat⟩, .vfma ⟨hA, 0, 0, .s32, mPlain⟩, .vfmaI ⟨hA, .stream, .f32, mSat⟩, .vcmp ⟨⟨.A, 0, 0, 2⟩, 0, .f32, .eq, mPlain⟩,
   .vcmp ⟨⟨.A, 0, 16, 2⟩, 0, .f32, .eq, mPlain⟩, .vcmpI ⟨hA, .stream, .s32, .uo, mPlain⟩, .vshl ⟨hA, 0, .f32⟩, .vshr ⟨hA, 0, .f32⟩,
   .vsar ⟨hA, 0, .f32⟩, .vshlI ⟨hA, .stream, .f32⟩, .vshrI ⟨hA, .stream, .f32⟩, .vsarI ⟨hA, .stream, .f32⟩, .vpop ⟨hA, .f32⟩, .vclz ⟨hA, .f32⟩,
   .vmulh ⟨hA, 0, .s8x4⟩, .vrnd ⟨hA, .s32, .rne⟩]

def illFL : List Instr :=
  [.fdiv ⟨false, false, 0, .A, 1, .A, 0⟩, .kand ⟨0, 1, 1⟩, .kor ⟨0, 1, 1⟩, .kxor ⟨0, 1, 1⟩, .kandn ⟨0, 1, 1⟩, .kset 0, .ksetSreg ⟨0, 1⟩, .kfirst ⟨0, 1⟩,
   .lshufPat ⟨lHdr, .rev, 1⟩]

def illM : List Instr :=
  [.mld ⟨mHdr, .A, 0, .perA, 0, .b32, .wave, .acquire⟩, .mld ⟨mHdr, .A, 1, .perA, 0, .b64, .wave, .relaxed⟩,
   .mldStride ⟨mHdr, .A, 0, 63, .b32, .wave, .relaxed⟩, .mst ⟨mHdr, .A, 0, .perA, 0, .b32, .die, .acquire⟩,
   .mstStride ⟨mHdr, .A, 2, 0, .b128, .wave, .relaxed⟩, .mldl ⟨0, .normal, .stream, .A, 1, .perA, 0, .b64⟩, .mstl ⟨0, .normal, .stream, .A, 1, .perA, 0, .b64⟩,
   .mldlStride ⟨0, .normal, .stream, .A, 0, 63, .b32⟩, .mstlStride ⟨0, .normal, .stream, .A, 0, 63, .b32⟩, .mldu ⟨mHdr, 0, 0, .b128, .wave, .relaxed⟩,
   .mstu ⟨mHdr, 0, 0, .b32, .wave, .release⟩, .matom ⟨0, .normal, 0, 0, .A, 0, .unif, 0, false, .wave, .relaxed, .add, true⟩,
   .matom ⟨0, .normal, 0, 0, .s, 0, .perA, 0, false, .die, .relaxed, .add, true⟩, .matom ⟨0, .normal, 0, 0, .A, 0, .unif, 0, true, .die, .relaxed, .fadd, true⟩,
   .mcas ⟨0, .normal, 0, 0, .A, 1, .unif, 0, false, .die, .relaxed⟩, .mwatch ⟨mHdr, 1, 0, false, .die, false⟩]

def illT : List Instr :=
  [.mcopy ⟨mHdr, 0, 62, 0, false, false⟩, .mgather ⟨mHdr, 0, 61, 0⟩, .mcast ⟨mHdr, 0, 0, 0, 0⟩, .mspush ⟨0, .normal, 0, 62, 0, false⟩, .mspop ⟨0, .normal, 0, 62, 0, false⟩,
   .tclaim ⟨0, 31, 2⟩, .trel ⟨0, 31, 2⟩, .tload ⟨0, .none, 0, 0, false, .f32, .slot 0, false, .wave, false⟩,
   .tstore ⟨0, .none, 0, 1, false, .bf16, .slot 0, true, .wave, false⟩, .tmma ⟨0, .none, 1, false, false, .fp4, 0, 0, 0⟩,
   .tmma ⟨0, .none, 2, false, false, .s8, 31, 0, 0⟩, .tcvt ⟨0, .none, false, .f32, false, 0, 0⟩,
   .tcvt ⟨0, .none, false, .e4m3, false, 0, 2⟩, .tquant ⟨0, .none, 0, false, .none, 4, .slot 0⟩, .tquant ⟨0, .none, 61, false, .none, 8, .mem 0 false⟩,
   .tmovv ⟨0, 5, 0, 0, .A, true, 7⟩, .tmovv ⟨0, 4, 61, 0, .A, true, 0⟩, .tldo ⟨0, .none, 63, 0, 0, false⟩]

theorem test_ill_formed_refused : (illS.all (fun i => !i.wf) && illV.all (fun i => !i.wf) && illFL.all (fun i => !i.wf) && illM.all (fun i => !i.wf) && illT.all (fun i => !i.wf)) = true := by decide

/-- Terms of the same shapes that are as the tables say. -/
theorem test_well_formed : ([.sset ⟨saR, .geu⟩, .srd ⟨0, 0x28⟩, .brc ⟨.any, 0, 1, 0⟩, .replay (.imm 63), .vadd ⟨hA, 0, .f32, mUp⟩, .kset 1,
    .mld ⟨mHdr, .A, 2, .perA, 0, .b64, .die, .acquire⟩, .tclaim ⟨0, 30, 2⟩] : List Instr).all Instr.wf = true := by decide

/-! ### Words of the manual -/

def reads (x : SlotId) (w : Nat) (i : Instr) : Bool := decodeSlot { slot := x, bits := w, stream := false } == { fails := [], i := some i }

/-- S slots: `srd s2, cyc`, `sadd s4, s4, #8` (R358), `swr landbusy, s6` (R364), `gopen gt5, #1`, `replay h1` (R356). -/
theorem test_words_S : (reads .S 0x00000800008F (.srd ⟨2, 8⟩) && reads .S 0x000008004111 (.saddI ⟨4, 4, .inWord 8, .w64⟩) &&
    reads .S 0x00002800601F (.swr ⟨6, 0x28⟩) && reads .S 0x000004005FF5 (.gopen ⟨5, .imm 1⟩) && reads .S 0x000000000E78 (.replay (.reg 57))) = true := by
  decide

/-- V, F and L slots: R383, R386, R388, `fsqrt`, `lshuf.xor a4:k1, a4, #1` (R337), `kandn k2, k0, k1` (R326). -/
theorem test_words_VFL : (reads .V0 0x0008000810C1 (.vadd ⟨⟨.A, 2, 3, 1⟩, 2, .f32, mPlain⟩) &&
    reads .V0 0x000407185104 (.vfma ⟨⟨.A, 1, 4, 5⟩, 6, 7, .f32, mPlain⟩) && reads .V0 0x014080001092 (.vcvt ⟨⟨.A, 0, 2, 1⟩, .bf16x2, .f32, .rsr, false⟩) &&
    reads .F 0x00005102 (.fsqrt ⟨false, false, 0, .A, 2, .B, 4⟩) && reads .L 0x0010044112 (.lshufPat ⟨⟨.A, .A, 1, 4, 4⟩, .xor, 1⟩) &&
    reads .L 0x0102000004 (.kandn ⟨2, 0, 1⟩)) = true := by decide

/-- M and T slots. -/
theorem test_words_MT : (reads .M 0x0000000020100081 (.mld ⟨⟨0, .normal, 0, .inWord 0⟩, .A, 2, .perA, 1, .b32, .wave, .relaxed⟩) &&
    reads .M 0x840000E0A860C14B (.matom ⟨1, .normal, 3, 0, .A, 5, .unif, 6, false, .device, .acqRel, .add, true⟩) &&
    reads .T 0x002040404B801003 (.tload ⟨0, .ms4, 8, 2, true, .fp4, .slot 4, false, .device, false⟩) &&
    reads .T 0x0000680001880006 (.tmma ⟨0, .ms5, 4, false, false, .e4m3, 16, 0, 0⟩)) = true := by decide

/-- A destination k0 of KANDN is refused under check 5 or the check that R23 names, and an S code that no row has under check 3. -/
theorem test_words_refused : ((decodeSlot { slot := .L, bits := 0x0100000004, stream := false }).i.isSome &&
    (decodeSlot { slot := .L, bits := 0x0100000004, stream := false }).fails.isEmpty) = false ∧
    (decodeSlot { slot := .S, bits := 0x3F, stream := false }).fails = [3] := by decide

/-! ### A small part: one launch of one party of one wave on core 0 of die 0 -/

def pkt0 : LPkt :=
  { flags := 0x10, image := 0, far := true, parties := 2, die := 0, oppLo := 0, oppHi := 7, window := 8, cwaves := 1, pwaves := 0, centry := 0,
    pentry := 0, callotA := 64, callotB := 64, pallotA := 0, pallotB := 0, fidel := 3, gate := 0, gcount := 1, region := 2, route := 0,
    stage := 0, cvaddr := 0, cvcount := 0, energy := 0 }

def hdr0 : ImgHdr :=
  { pages := 1, dictN := 1, dictOff := 0, streamLen := 8, streamOff := 48, mapOff := 56, segOff := 64, segs := 1, ceiling := 7, fidelity := 0,
    window := 8, roles := 1, roleOff := 96, constOff := 0, constLen := 0, keyid := 0 }

/-- Segment 0: readable and writable far memory from 0x10000 on, not pageable. -/
def seg0 : Seg := { base := 0x10000, limit := 0x10000, flags := 0x17, pbase := 0x10000 }

def role0 : RoleDesc := { role := 0, minA := 0, minB := 0, maxWaves := 1, entry := 0, convoys := [0] }

def img0 : Image := { far := true, phys := true, addr := 0, hdr := hdr0, hashes := [], segs := [seg0], roles := [role0] }

/-- A handler table whose only valid entries are those of TRAP and SVC, breakpoints and landing conflicts. -/
def htab0 : HTab :=
  { en := true, image := some img0, wd := 20,
    entries := [(0x08, { valid := true, entry := 4 }), (0x09, { valid := true, entry := 4 }), (0x0B, { valid := true, entry := 4 }),
      (0x10, { valid := true, entry := 4 }), (0x11, { valid := true, entry := 8 })] }

def launch0 : Launch :=
  { vf := 1, q := 0, pkt := 0, asid := 1, p := pkt0, img := img0, htab := htab0, floor := 0, asked := 0, level := 3, cvs := [], cvmap := [(0, 0)],
    die := 0, placed := 1, retired := 0, st := .accepted, energy := 0, drew := false, verified := [{ die := 0, hand := false, page := 0, loc := Config.farBase, seq := 0 }], born := 0, checked := true, saved := false,
    stopping := false, raised := false }

def party0 : Party := { core := 0, waves := 1, prod := false, tile := true, released := true, left := 1, ms := [], acq := [] }

def wave0 : Wave := { Wave.init with lid := 1, aAllot := 64, bAllot := 64, a := [(0, { val := Lanes.all 0, und := 0 })] }

def share0 : Share := { Share.init with window := 8, units := 2 }

def core0 : Core := { Core.init with shares := [(1, share0)], tile := some (1, 0) }

def queue0 : Queue := { Queue.init with en := true, st := .running, tail := 4, head := 1 }

def conv0 : Convoy := { lid := 1, index := 0, members := [(0, 0)], arrived := [], reported := [], retired := [], phase := 0, syncs := [], past := [] }

def st0 : State :=
  { State.reset with
    waves := [(0, wave0)]
    launches := [(1, launch0)]
    parties := [(65536, party0)]
    cores := [(0, core0)]
    queues := [(64, queue0)]
    convoys := [(0, conv0)] }

def withW (w : Wave) : State := { st0 with waves := [(0, w)] }

def sup0 : Wave := { wave0 with sup := true, st := .handler }

/-! ### One step from reset -/

/-- The F-slot word of `fsqrt b4, a2` placed for the first fetch: the step is the instruction's own effect, one exposed write of every lane
of b4. -/
theorem test_first_step : decodeTableWord 32 0x00005102 = some (.fsqrt ⟨false, false, 0, .A, 2, .B, 4⟩) ∧
    (match step (State.reset.withFetchWord 32 0x00005102) with
      | .next t => (waveOf t t.cur.wid).map fun w => w.wins.map fun x => (match x.w with | .v cl d m _ => (cl, d, m) | _ => (.A, 0, 0), x.total)
      | _ => none) = some [((.B, 4, 0xFFFFFFFF), 14)] := by
  set_option maxRecDepth 10000 in decide

/-! ### Hypotheses of the statements on encodings and the S slot -/

theorem wit_DecodeEncodeRoundTrip : (Instr.sadd ⟨63, 63, 63, .n32⟩).wf = true ∧ (encode (.sadd ⟨63, 63, 63, .n32⟩)).isSome = true ∧
    (Instr.tldo ⟨15, .ms5, 62, 63, 31, true⟩).wf = true ∧ (encode (.tldo ⟨15, .ms5, 62, 63, 31, true⟩)).isSome = true := by decide

theorem wit_TokenRoundTrip : decTok (encTok 16383 none) = .ok 16383 2 .plain ∧ decTok (encTok 127 none) = .ok 127 1 .plain ∧
    decTok (encTok 4095 (some (false, 0xFFFFFFFF))) = .ok 4095 6 (.imm false (-1)) := by decide

/-- The wave issues, and every register of the wave is back. -/
theorem wit_ScalarArithmetic : Issuing st0 wave0 ∧ AllBack wave0 [sR 63, sR 0] ∧ Issuing (withW sup0) sup0 := by
  unfold Issuing AllBack; decide

theorem wit_ScalarCompareAndSelect : Issuing st0 wave0 ∧ AllBack wave0 [sR 0, sR 1] ∧ Compares .geu 0 0 ∧ ¬ Compares .ltu 0 0 ∧
    Compares .lt (-1) 0 ∧ ¬ Compares .gt (-1) 0 := by
  unfold Issuing AllBack Compares; decide

theorem wit_SpecialRegisterAccess : Issuing st0 wave0 ∧ launchOf st0 wave0.lid = some launch0 ∧ partyOf st0 wave0.lid wave0.party = some party0 ∧
    logHeld st0 0 wave0 = false ∧ Issuing (withW sup0) sup0 ∧ sup0.sup = true ∧ launchOf (withW sup0) sup0.lid = some launch0 := by
  unfold Issuing; decide

theorem wit_BranchesAndLinks : Issuing st0 wave0 ∧ AllBack wave0 [sR 5, kR 3] ∧ Cond.isCompare .geu = true ∧ Compares .eq (rdS st0 wave0 (tagOf 0 0) 5) 0 ∧
    ¬ Compares .ne (rdS st0 wave0 (tagOf 0 0) 5) 0 ∧ rdS st0 wave0 (tagOf 0 0) 5 ≠ 1 ∧
    (let w := { wave0 with s := [(5, { val := 1, und := false })], k := [(3, { val := 1, und := 0 })] }
     rdS (withW w) w (tagOf 0 0) 5 = 1 ∧ rdK (withW w) w (tagOf 0 0) 3 &&& w.live ≠ 0 ∧ rdK (withW w) w (tagOf 0 0) 3 &&& w.live ≠ w.live ∧
     rdK (withW w) w (tagOf 0 0) 4 &&& w.live = 0 ∧ rdK (withW w) w (tagOf 0 0) 0 &&& w.live = w.live) := by
  unfold Issuing AllBack Compares; decide

/-! ### Exceptions -/

theorem wit_SoftwareTrapEntersHandler : Issuing st0 wave0 ∧ wave0.sup = false ∧ entryFor st0 wave0.lid 0x10 = some 4 ∧
    entryFor st0 wave0.lid 0x11 = some 8 ∧ st0.cur.wid ∉ st0.sec.bkhalt := by
  unfold Issuing; decide

/-- The launch without a handler table. -/
def stNoHand : State := { st0 with launches := [(1, { launch0 with htab := { htab0 with en := false } })] }

theorem wit_TrapsWithoutHandlerKill : Issuing (withW sup0) sup0 ∧ sup0.sup = true ∧ Issuing stNoHand wave0 ∧
    entryFor stNoHand wave0.lid 0x10 = none ∧ st0.cur.go = false ∧
    ([.eret, .replay (.imm 0), .invpg ⟨0, 0, false⟩, .srd ⟨0, 0x19⟩, .swr ⟨0, 0x19⟩, .swr ⟨0, 0x1B⟩, .swr ⟨0, 0x1C⟩] : List Instr).all
      (fun i => !scoreHeld i wave0) = true ∧ scoreHeld (.exit 0) sup0 = false := by
  unfold Issuing; decide

theorem wit_KillEndsLaunchWithItsRecord : launchOf st0 1 = some launch0 ∧ launch0.p.route = 0 ∧ waveOf st0 0 = some wave0 ∧ wave0.lid = 1 ∧
    (2 ^ 32 - 1 < 2 ^ 32 ∧ 255 < 256 ∧ 2 ^ 64 - 1 < 2 ^ 64) := by decide

/-- A wait for gate 0 that a trap has ended. -/
def waitG : Waiting := { on := .gwait 4096 1, here := 0, next := 2, sp := false, mask := 0, rearm := none, also := none, since := 0 }
def supW : Wave := { sup0 with trapcause := 0x209, outer := some waitG }

theorem wit_EretReturns : Issuing (withW sup0) sup0 ∧ sup0.sup = true ∧ sup0.trapcause.getLsbD 9 = false ∧
    Issuing (withW supW) supW ∧ supW.sup = true ∧ supW.trapcause.getLsbD 9 = true ∧ supW.wrotePc = false ∧ supW.outer = some waitG := by
  unfold Issuing; decide

/-! ### Synchronisation and the end of a wave -/

def wavePre : Wave := { wave0 with preempt := true }

theorem wit_WaveControl : Issues (.exit 0) st0 wave0 ∧ Issues .yield st0 wave0 ∧ Issues .yield (withW sup0) sup0 ∧
    Issues .yield (withW wavePre) wavePre ∧ Issues (.felrd ⟨63, true⟩) st0 wave0 := by
  unfold Issues Issuing; decide

def stArr : State := { st0 with convoys := [(0, { conv0 with arrived := [(0, 0)] })] }

theorem wit_BarArrivesAndWaits : Issues (.bar ⟨1, false⟩) st0 wave0 ∧ cvEntry st0 wave0 1 = none ∧ Issues (.bar ⟨0, true⟩) st0 wave0 ∧
    cvEntry st0 wave0 0 = some 0 ∧ Tab.find st0.convoys 0 = some conv0 ∧ (wave0.party, wave0.num) ∉ conv0.arrived ∧
    (wave0.party, wave0.num) ∉ conv0.reported ∧ Issues (.bar ⟨0, false⟩) stArr wave0 ∧
    Tab.find stArr.convoys 0 = some { conv0 with arrived := [(0, 0)] } := by
  unfold Issues Issuing; decide

theorem wit_PhasesFencesWaitsAndGates : (∀ i ∈ ([.phase .pub, .phase .ref, .phase .full, .fence ⟨.convoy, .acquire, false⟩, .fence ⟨.die, .acquire, false⟩,
      .fence ⟨.die, .release, false⟩, .fence ⟨.system, .acqRel, true⟩, .mwait ⟨7, .imm 0⟩, .mwait ⟨0, .imm 1⟩, .gwait ⟨0, .reg 0⟩, .gwait ⟨63, .imm 1⟩,
      .gopen ⟨63, .imm 65535⟩] : List Instr), Issues i st0 wave0) ∧
    0 ≤ msCount st0 wave0 7 ∧ msCount st0 wave0 0 < 1 ∧ gateVal st0 (gateKey st0 wave0 63) < 1 ∧ acqDone st0 0 false st0.nextId = true := by
  unfold Issues Issuing; decide

/-- A pageable load of one lane that failed and left a record. -/
def piece0 : Piece := { lane := 0, va := 0, size := 4, pa := none, fault := none, data := [], cmp := [], val := [], done := false }
def load0 : Acc :=
  { wid := 0, sup := false, loc := false, lid := 1, core := 0, party := 0, num := 0, asid := 1, kind := .load, addr := 0, slot := 5, opcode := 1, seg := 0,
    widCode := 2, scope := .die, ord := .relaxed, seq := 1, far := true, pageable := true, direct := false, l1 := true, sent := false, cls := 0, pieces := [piece0],
    dest := .lanes .A 1 .b32, ret := true, epoch := none, rel := none, view := { clock := [], low := [] }, born := 0, asdt := some 0, resolved := false, held := false, unrecorded := false, watch := 0,
    deadline := 0, ms := none, step := 0, accepted := false }

def words0 : RecWords :=
  { addr := 0, slot := 5, lane := 0, cause := 2, asid := 1, va := 0, widc := 2, seg := 0, seq := 1, step := 0, opcode := 1, scope := 3, ord := 0,
    again := false, cls := 0, whr := 0 }

def rec0 : FRec := { bits := recBits words0, acc := 1, lanes := 1, cause := 2, store := false, copy := false, watch := false, loc := none }

def supR : Wave := { sup0 with recs := [(0, rec0)], count := 1 }

/-- The cached translation of page 0 of address space 1 (R192). -/
def xl0 : Tab (List XEntry) := [(0, [{ asid := 1, page := 0, cls := 0, frame := 8192, r := true, w := true }])]

def stRec : State := { withW supR with acc := [(1, { load0 with pieces := [{ piece0 with fault := some 2 }] })], feXlat := xl0, tren := true }
def supGone : Wave := { sup0 with recs := [(63, { rec0 with acc := 7 })], head := 63, count := 1 }

/-- A slot without a record, one whose access has gone, and one whose load now translates; slot numbers wrap at 64. -/
theorem wit_ReplayAndInvpg : Issues (.replay (.imm 0)) (withW sup0) sup0 ∧ Tab.find sup0.recs 0 = none ∧
    Issues (.replay (.imm 63)) (withW supGone) supGone ∧ Tab.find supGone.recs 63 = some { rec0 with acc := 7 } ∧ accOf (withW supGone) 7 = none ∧
    Issues (.replay (.imm 0)) stRec supR ∧ Tab.find supR.recs 0 = some rec0 ∧
    accOf stRec 1 = some { load0 with pieces := [{ piece0 with fault := some 2 }] } ∧ recPage rec0 0 = piecePage load0 piece0 ∧
    (lookAt stRec 0 true 1 0 true false 0).1 = .at_ (Config.farBase + 8192) ∧ (∀ e ∈ stRec.acc, e.2.unrecorded = false) ∧
    Issues (.invpg ⟨62, 5, false⟩) (withW sup0) sup0 ∧ Issues (.invpg ⟨0, 0, true⟩) (withW sup0) sup0 := by
  unfold Issues Issuing; set_option maxRecDepth 10000 in decide

/-! ### The V, F and L slots -/

def hB : VHdr := ⟨.B, 15, 63, 63⟩
def hK : VHdr := ⟨.A, 0, 15, 63⟩

theorem wit_VectorAddSubMul : ∀ i ∈ ([.vadd ⟨hA, 63, .f16x2, mUp⟩, .vaddI ⟨hB, .stream, .s8x4, mSat⟩, .vsub ⟨hB, 0, .n16x2, mPlain⟩, .vsubI ⟨hA, .inWord 0x800, .f32, mUp⟩,
    .vmul ⟨hA, 0, .bf16x2, ⟨.rsr, true, true, true, false⟩⟩, .vmulI ⟨hB, .inWord 0xFFF, .s32, mSat⟩] : List Instr), RegsReady i st0 wave0 := by
  unfold RegsReady Issuing; decide

theorem wit_VectorFmaMinMax : ∀ i ∈ ([.vfma ⟨hA, 63, 62, .f32, mUp⟩, .vfmaI ⟨hB, .stream, .f16x2, mUp⟩, .vmin ⟨hA, 1, .f32, mPlain⟩, .vminI ⟨hB, .stream, .s8x4, mPlain⟩,
    .vmax ⟨hB, 1, .n32, mPlain⟩, .vmaxI ⟨hA, .inWord 0x7FF, .bf16x2, mPlain⟩] : List Instr), RegsReady i st0 wave0 := by
  unfold RegsReady Issuing; decide

theorem wit_VectorCompareSelectAndBits : ∀ i ∈ ([.vcmp ⟨hK, 0, .f32, .uo, mPlain⟩, .vcmpI ⟨hK, .stream, .n8x4, .ge, mPlain⟩, .vsel ⟨hA, 0, 15⟩, .vselI ⟨hB, .stream, 7⟩,
    .vand ⟨hA, 63⟩, .vandI ⟨hB, .stream⟩, .vor ⟨hA, 0⟩, .vorI ⟨hB, .inWord 0xFFF⟩, .vxor ⟨hA, 0⟩, .vxorI ⟨hB, .inWord 0⟩, .vmov hA, .vmovI ⟨⟨.A, 0, 63⟩, .stream⟩,
    .vidx ⟨.B, 15, 63⟩] : List Instr), RegsReady i st0 wave0 := by
  unfold RegsReady Issuing; decide

theorem wit_VectorShiftsCountsConversions : ∀ i ∈ ([.vshl ⟨hA, 63, .s8x4⟩, .vshlI ⟨hB, .stream, .n32⟩, .vshr ⟨hA, 0, .n16x2⟩, .vshrI ⟨hB, .stream, .s32⟩,
    .vsar ⟨hA, 0, .n8x4⟩, .vsarI ⟨hB, .inWord 0xFFF, .s16x2⟩, .vmulh ⟨hA, 0, .n32⟩, .vpop ⟨hA, .s8x4⟩, .vclz ⟨hB, .n32⟩, .vcvt ⟨hA, .s8x4, .f32, .rsr, true⟩,
    .vrnd ⟨hB, .bf16x2, .rsr⟩] : List Instr), RegsReady i st0 wave0 := by
  unfold RegsReady Issuing; decide

/-- An empty log, one that an earlier operation filled, one that a later operation filled, and the least and greatest event codes. -/
theorem wit_EventLogAndLaneState : Fel.init.valid = false ∧ { Fel.init with valid := true, ord := 3 }.ord ≤ 3 ∧ 2 < { Fel.init with valid := true, ord := 3 }.ord ∧
    [(31, Ev.invalid)] ≠ [] ∧ lfsrSeed 2047 15 31 ≠ 0 ∧ lfsrStep 1 ≠ 0 := by decide

theorem wit_FunctionsInTheFSlot : ∀ i ∈ ([.fdiv ⟨true, true, 15, .B, 62, .A, 63⟩, .fsqrt ⟨false, false, 0, .A, 63, .B, 0⟩, .frcp ⟨false, true, 1, .A, 0, .A, 0⟩,
    .frsq ⟨false, false, 0, .A, 0, .A, 1⟩, .fexp2 ⟨false, false, 0, .A, 0, .A, 1⟩, .flog2 ⟨false, false, 0, .A, 0, .A, 1⟩,
    .ftanh ⟨false, false, 0, .B, 0, .A, 1⟩] : List Instr), RegsReady i st0 wave0 := by
  unfold RegsReady Issuing; decide

theorem wit_MaskLogicAndLaneMoves : ∀ i ∈ ([.kand ⟨15, 0, 1⟩, .kor ⟨1, 15, 1⟩, .kxor ⟨1, 1, 1⟩, .kandn ⟨2, 0, 1⟩, .kset 15, .ksetSreg ⟨1, 63⟩, .kfirst ⟨1, 15⟩, .kpop ⟨63, 0⟩,
    .lmov ⟨.A, .B, 0, 63, 63⟩, .lbcast ⟨⟨.B, .A, 15, 0, 63⟩, 31⟩, .lshuf ⟨⟨.A, .A, 0, 1, 1⟩, 63⟩, .lshufPat ⟨⟨.A, .A, 0, 1, 1⟩, .rotUp, 31⟩,
    .lshufPat ⟨⟨.A, .A, 0, 1, 1⟩, .rev, 0⟩, .lget ⟨63, .B, 63, 31⟩, .lput ⟨.B, 63, 63, 31⟩] : List Instr), RegsReady i st0 wave0 := by
  unfold RegsReady Issuing; decide

theorem wit_ReductionsAndScans : (∀ i ∈ ([.lred ⟨lHdr, .bxor⟩, .lred ⟨lHdr, .minS⟩, .lscan ⟨lHdr, .addI, true⟩, .lscan ⟨lHdr, .maxN, false⟩, .lred ⟨lHdr, .addF⟩, .lscan ⟨lHdr, .maxF, true⟩] :
    List Instr), RegsReady i st0 wave0) ∧ RedOp.addI ≠ .addF ∧ effMask st0 wave0 (tagOf 4 0) 0 = 0xFFFFFFFF := by
  unfold RegsReady Issuing; decide

/-! ### The M slot -/

def mI (n : BitVec 16) : MHdr := ⟨0, .normal, 0, .inWord n⟩

/-- With no lane, with the lanes of the live mask, at the first and at the last bytes of the segment. -/
theorem wit_GlobalLoadsIssue : (∀ i ∈ ([.mld ⟨mI 0, .A, 1, .perA, 0, .b8, .wave, .relaxed⟩, .mld ⟨mI 0x7FF0, .B, 60, .unif, 0, .b128, .system, .acquire⟩,
    .mld ⟨⟨1, .keep, 0, .inWord 0⟩, .A, 63, .perB, 1, .b32, .die, .relaxed⟩, .mldStride ⟨mI 0, .A, 1, 62, .b16, .wave, .relaxed⟩,
    .mldu ⟨mI 0, 63, 0, .b64, .device, .acquire⟩] : List Instr), Issues i st0 wave0) ∧ maskLanes (effMask st0 wave0 (tagOf 5 0) 1) = [] ∧
    (maskLanes (effMask st0 wave0 (tagOf 5 0) 0)).length = 32 := by
  unfold Issues Issuing; decide

theorem wit_GlobalStoresIssue : ∀ i ∈ ([.mst ⟨mI 0, .A, 0, .perA, 0, .b32, .wave, .relaxed⟩, .mst ⟨mI 0x7FF0, .A, 0, .unif, 0, .b8, .die, .release⟩,
    .mstStride ⟨mI 0, .A, 0, 62, .b16, .wave, .relaxed⟩, .mstu ⟨mI 0, 63, 0, .b64, .system, .release⟩,
    .mst ⟨⟨1, .normal, 0, .inWord 0⟩, .A, 0, .perA, 0, .b32, .die, .release⟩] : List Instr), Issues i st0 wave0 := by
  unfold Issues Issuing; decide

theorem wit_AtomicsAndWatchesIssue : (∀ i ∈ ([.matom ⟨0, .normal, 0, 0, .A, 0, .unif, 0, false, .die, .acqRel, .fadd, true⟩,
    .matom ⟨0, .normal, 0, 8, .s, 0, .unif, 0, true, .system, .relaxed, .umax, false⟩, .mcas ⟨0, .normal, 0, 0, .s, 62, .unif, 0, true, .device, .release⟩,
    .mwatch ⟨mI 0, 62, 0, true, .die, true⟩, .mwatch ⟨⟨1, .normal, 0, .inWord 0⟩, 0, 0, false, .die, false⟩] : List Instr), Issues i st0 wave0) ∧
    effMask st0 wave0 (tagOf 5 0) 0 ≠ 0 ∧ effMask st0 wave0 (tagOf 5 0) 1 = 0 := by
  unfold Issues Issuing; decide

/-- Two regions of 6,144 bytes: the last 4 bytes, overlapping lanes, and no lane. -/
theorem wit_LocalAccesses : (∀ i ∈ ([.mldl ⟨0, .normal, .inWord 12284, .A, 1, .unif, 0, .b32⟩, .mldlStride ⟨0, .normal, .inWord 0, .B, 4, 0, .b128⟩,
    .mstl ⟨0, .normal, .inWord 12284, .A, 0, .unif, 0, .b32⟩, .mstlStride ⟨1, .normal, .inWord 0, .A, 0, 0, .b32⟩] : List Instr), Issues i st0 wave0) ∧
    st0.eccPad = [] := by
  unfold Issues Issuing; decide

theorem wit_CacheHintsChangeNoValue : ∀ i ∈ ([.mpref ⟨mI 0, .perA, 0⟩, .mpref ⟨⟨1, .normal, 0, .stream⟩, .unif, 0⟩, .mflush ⟨mI 0, .unif, 0, .wbinv⟩] : List Instr),
    Issues i st0 wave0 := by
  unfold Issues Issuing; decide

/-- Tables in far memory: ASDT entry 1 with its root at 0x1000, a window from 0, and four levels that map the page of 0x10000 to frame 0x5000. -/
def tables0 : List Host.Cell :=
  [(129, 0x10), (201, 1), (219, 0x40), (0x1000, 1), (0x1001, 0x20), (0x2000, 1), (0x2001, 0x30), (0x3000, 1), (0x3001, 0x40), (0x4080, 0x0F),
   (0x4081, 0x50)].map fun x => (Config.farBase + x.1, x.2)

/-- An untranslated store of the core's L1 that the tables place, which MFLUSH names. -/
theorem wit_CacheHintsChangeNoValue_place :
    (let p : Piece := { piece0 with va := 0x10000, data := [1, 2, 3, 4] }
     let a : Acc := { load0 with kind := .store, scope := .wave, pieces := [p], dest := .none, ret := false }
     let s : State := { st0 with mem := tables0, acc := [(1, a)], tren := true }
     inL1 0 a = true ∧ a.asid = asidOf s wave0 ∧ unlooked p = true ∧ p.va / 128 ∈ flushLines ⟨mI 0, .unif, 0, .wb⟩ s 0 wave0 ∧
       backLoc s a p.va = some (Config.farBase + 0x5000)) := by
  set_option maxRecDepth 10000 in decide

/-- One byte past the region, one past the segment, and an odd place of a word: each alone. -/
theorem wit_SegmentAndAlignmentTraps : Issuing st0 wave0 ∧ st0.cur.go = false ∧
    (∀ i ∈ ([.mldl ⟨0, .normal, .inWord 12285, .A, 1, .unif, 0, .b32⟩, .mst ⟨mI 0x7FFD, .A, 0, .unif, 0, .b32, .wave, .relaxed⟩,
      .mld ⟨⟨0, .normal, 1, .inWord 0⟩, .A, 1, .unif, 0, .b32, .wave, .relaxed⟩, .mldl ⟨0, .normal, .inWord 2, .A, 1, .unif, 0, .b32⟩] : List Instr),
      scoreHeld i wave0 = false ∧ allotBad i wave0 = false ∧ (memReq i st0 wave0).isSome = true) ∧
    (12285 + 4 > 6144 * (shareOf st0 0 1).units ∧ segValid (segOf st0 0 wave0 1) = false ∧ (0x7FFD + 0x10000) % 4 ≠ 0) := by
  unfold Issuing; decide

/-! ### Accesses in flight -/

def placed0 : Piece := { piece0 with pa := some 128 }
def flight (a : Acc) : State := { st0 with acc := [(1, a)] }
def ldP : Acc := { load0 with scope := .wave, pageable := false, pieces := [{ placed0 with lane := 31 }], resolved := true }

theorem wit_LoadReturnWritesItsLane : Tab.find (flight ldP).invpg 1 = none ∧ accOf (flight ldP) 1 = some ldP ∧ ldP.kind = .load ∧ ldP.loc = false ∧
    ldP.dest = .lanes .A 1 .b32 ∧ ldP.pieces = [{ placed0 with lane := 31 }] ∧ loadReady (flight ldP) 1 ldP { placed0 with lane := 31 } = true ∧
    eccLoad (flight ldP) 1 ldP 0 128 4 = false ∧ waveOf (flight ldP) 0 = some wave0 ∧ wave0.st ≠ .halted ∧ atHome (flight ldP) ldP 128 = false ∧
    atHome (flight { ldP with direct := true }) { ldP with direct := true } 128 = true ∧ ldP.scope.isPlain = true ∧
    (∀ e ∈ (flight ldP).acc, e.1 < 1 → e.2.core = 0 → isStore e.2.kind = false) ∧
    (let a := { ldP with scope := .die, pieces := [placed0] }
     accOf (flight a) 1 = some a ∧ loadReady (flight a) 1 a placed0 = true ∧ a.scope.isPlain = false) := by
  set_option maxRecDepth 10000 in decide

/-- A uniform load, one of 8 bits and one of 128; lanes of atomics that have been performed, wide, uniform and without a return. -/
theorem wit_LoadReturnWritesItsLane_forms :
    (∀ x ∈ [(Dest.uni 63 false .b64, 8), (.uni 57 true .b16, 2), (.lanes .B 63 .b8, 1), (.lanes .A 60 .b128, 16)],
      let p : Piece := { placed0 with lane := 31, size := x.2 }
      let a : Acc := { ldP with dest := x.1, pieces := [p] }
      accOf (flight a) 1 = some a ∧ a.kind = .load ∧ loadReady (flight a) 1 a p = true ∧ eccLoad (flight a) 1 a 0 128 x.2 = false) ∧
    (∀ x ∈ [(Dest.lanes .A 62 .b64, AKind.cas), (.none, .atomic .add), (.lanes .B 0 .b32, .atomic .swap)],
      let p : Piece := { placed0 with done := true, val := [1, 2, 3, 4] }
      let a : Acc := { ldP with dest := x.1, kind := x.2, pieces := [p, { p with lane := 31 }] }
      accOf (flight a) 1 = some a ∧ (∀ p ∈ a.pieces, p.done = true ∧ p.fault = none ∧ p.lane < 32) ∧ a.pieces.map (·.lane) = [0, 31]) := by
  set_option maxRecDepth 10000 in decide

def stP : Piece := { placed0 with data := [1, 2, 3, 4] }
def str : Acc := { load0 with kind := .store, scope := .system, pieces := [stP], dest := .none, ret := false, resolved := true }

/-- A store of two pieces, and a tile store of two rows that overlap. -/
theorem wit_StoreCommitWritesItsBytes :
    (let a := { str with pieces := [stP, { stP with lane := 1, pa := some 132, va := 4 }] }
     accOf (flight a) 1 = some a ∧ a.kind = .store ∧ (∀ p ∈ a.pieces, p.data.length = p.size) ∧ readyAt (flight a) 1 a = [0, 1]) ∧
    (let a := { str with kind := .tstore, pieces := [stP, { stP with pa := some 130, va := 2 }] }
     accOf (flight a) 1 = some a ∧ (∀ p ∈ a.pieces, p.data.length = p.size) ∧ tileReady (flight a) 1 a = true ∧
       ∀ p ∈ a.pieces, brokenAlias (flight a) (accVia a p.va (p.pa.getD 0)) (p.pa.getD 0) p.size = false) := by
  set_option maxRecDepth 10000 in decide

def atP (n : Nat) : Piece := { placed0 with size := n, data := List.replicate n 1, cmp := List.replicate n 0 }
def atA (k : AKind) (n : Nat) : Acc := { load0 with kind := k, pieces := [atP n], resolved := true }

theorem wit_AtomicRunIsReadModifyWrite : ∀ a ∈ [atA (.atomic .swap) 4, atA (.atomic .add) 8, atA (.atomic .band) 4, atA (.atomic .bor) 8, atA (.atomic .bxor) 4,
      atA (.atomic .smin) 4, atA (.atomic .smax) 8, atA (.atomic .umin) 4, atA (.atomic .umax) 8, atA (.atomic .fadd) 4, atA .cas 8],
    accOf (flight a) 1 = some a ∧ atomReady (flight a) 1 a = true ∧ (∀ p ∈ a.pieces, a.pieces = [p] ∧ p.fault = none ∧ p.done = false ∧
      (p.size = 4 ∨ p.size = 8) ∧ p.data.length = p.size ∧ p.cmp.length = p.size ∧ eccHit (flight a) 128 p.size = false) ∧
    (∀ e ∈ (flight a).acc, e.2.wid = a.wid → e.2.kind ≠ .store) := by
  set_option maxRecDepth 10000 in decide

/-- A load and a store whose page translates, and both where nothing translates. -/
theorem wit_TranslationPlacesOrRecords : ∀ a ∈ [load0, { load0 with kind := .store, pieces := [{ piece0 with data := [1, 2, 3, 4] }], dest := .none }],
    (∀ p ∈ a.pieces, a.pieces = [p] ∧ unlooked p = true ∧ lineHeld (flight a) 1 a (isStore a.kind) p = false ∧
      (lookAt { flight a with feXlat := xl0, tren := true } 0 a.far a.asid a.cls (accRd a.kind) (accWr a.kind) p.va).1 = .at_ (Config.farBase + 8192) ∧
      (lookAt (flight a) 0 a.far a.asid a.cls (accRd a.kind) (accWr a.kind) p.va).1 = .fault 6) ∧
    accOf (flight a) 1 = some a ∧ wave0.count < 64 ∧ wave0.recs = [] ∧ a.slot = 5 := by
  set_option maxRecDepth 10000 in decide

def pubCore : Core := { core0 with epoch := 1 }
def stPub : State := { st0 with cores := [(0, pubCore)] }
def rel0 : Rel := { target := .fence, core := 0, wid := 0, lid := 1, epoch := 1, before := 2, view := { clock := [], low := [] }, full := none }
def unpub : Acc := { str with scope := .wave, resolved := false, pieces := [{ stP with pa := none }] }

/-- A publication with nothing left and one with a store left; a release that is ready, at each target, and one that is not; an unpublished store that
can be translated, one that has been, and one that a publication has taken. -/
theorem wit_PublicationsAndReleasesComplete : (coreOf stPub 0).pubDone < (coreOf stPub 0).epoch ∧ (∀ e ∈ stPub.acc, e.2.core = 0 → e.2.epoch ≠ some 1) ∧
    (∃ e ∈ [((1 : Nat), { str with epoch := some 1 })], e.2.core = 0 ∧ e.2.epoch = some (0 + 1)) ∧ (coreOf st0 0).epoch ≤ (coreOf st0 0).pubDone ∧
    releaseReady stPub rel0 = false ∧ releaseReady st0 { rel0 with epoch := 0 } = true ∧
    releaseReady st0 { rel0 with epoch := 0, target := .gate 4159 1 } = true ∧ releaseReady st0 { rel0 with epoch := 0, target := .arrival 0 (0, 0) } = true ∧
    Tab.find st0.convoys 0 = some conv0 ∧ accOf (flight unpub) 1 = some unpub ∧ isStore unpub.kind = true ∧ unpublished 0 unpub = true ∧
    inL1 0 unpub = true ∧ canLook (flight unpub) 1 unpub none = true ∧
    (let b := { unpub with pieces := [stP] }
     unpublished 0 b = true ∧ inL1 0 b = true ∧ canLook (flight b) 1 b none = false ∧ unlooked stP = false ∧ stP.done = false ∧ 0 < stP.size) ∧
    unpublished 0 { unpub with epoch := some 1 } = false ∧ inL1 0 { unpub with epoch := some 1 } = false := by
  set_option maxRecDepth 10000 in decide

/-- A wait on a watch of the bytes at 128, which read 0: expected 0 and not, before the timeout and at it. -/
def watchW : Wave := { wave0 with st := .waiting, wait := some { waitG with on := .mwatch 1 } }
def watchA (e : DWord) : Acc := { load0 with kind := .watch, pieces := [placed0], dest := .uni 62 false .b32, resolved := true, watch := e }
def stWatch (e : DWord) : State := { withW watchW with acc := [(1, watchA e)] }

theorem wit_WatchEndsOnChangeOrTimeout : ∀ e ∈ [0, 1], watchOf (stWatch (BitVec.ofNat 64 e)) 0 = some (1, watchA (BitVec.ofNat 64 e), placed0) ∧
    waveOf (stWatch (BitVec.ofNat 64 e)) 0 = some watchW ∧ watchW.wait = some { waitG with on := .mwatch 1 } ∧ waitG.also = none ∧ (watchA (BitVec.ofNat 64 e)).kind = .watch ∧
    loadReady (stWatch (BitVec.ofNat 64 e)) 1 (watchA (BitVec.ofNat 64 e)) placed0 = true ∧ eccHit (stWatch (BitVec.ofNat 64 e)) 128 4 = false ∧ (watchA (BitVec.ofNat 64 e)).ord = .relaxed ∧
    leNat (devBytes (stWatch (BitVec.ofNat 64 e)) 128 4) = 0 ∧ (watchA (BitVec.ofNat 64 e)).deadline ≤ (stWatch (BitVec.ofNat 64 e)).now / 105 ∧ (stWatch (BitVec.ofNat 64 e)).now / 105 < { watchA (BitVec.ofNat 64 e) with deadline := 1 }.deadline := by
  set_option maxRecDepth 10000 in decide

/-! ### Copies and streams -/

def copyW : Wave := { wave0 with s := [(2, { val := 0x20, und := false }), (3, { val := 0x100, und := false })] }

theorem wit_CopiesIssue : partyOf (withW copyW) 1 0 = some party0 ∧ (∀ i ∈ ([.mcopy ⟨mI 0, 63, 0, 3, false, false⟩, .mcopy ⟨mI 0, 0, 1, 0, true, false⟩,
      .mcopy ⟨⟨1, .normal, 0, .inWord 0⟩, 0, 1, 0, false, false⟩, .mcopy ⟨mI 0, 0, 4, 0, false, false⟩, .mgather ⟨⟨1, .normal, 0, .inWord 0⟩, 0, 60, 0⟩,
      .mcast ⟨⟨1, .normal, 0, .inWord 0⟩, 0, 60, 0, 15⟩] : List Instr), Issues i (withW copyW) copyW) ∧
    effMask (withW copyW) copyW (tagOf 5 0) 0 ≠ 0 ∧ effMask (withW copyW) copyW (tagOf 5 0) 1 = 0 ∧
    (rdS (withW copyW) copyW (tagOf 5 3) 3).toNat ≠ 0 ∧ (rdS (withW copyW) copyW (tagOf 5 3) 6).toNat = 0 := by
  unfold Issues Issuing; set_option maxRecDepth 10000 in decide

/-- Registers of an MGATHER (one row of 32 bytes, pitch 1, its list at 0x400) and an MCAST of 32 bytes. -/
def gathW : Wave :=
  { wave0 with s := [(2, { val := 0x100000020, und := false }), (3, { val := 0x100000400, und := false }), (12, { val := 0x20, und := false })] }

theorem wit_CopiesIssue_gather : ∀ i ∈ ([.mgather ⟨mI 0, 63, 0, 1⟩, .mcast ⟨mI 0, 63, 10, 2, 8⟩] : List Instr), Issues i (withW gathW) gathW := by
  unfold Issues Issuing; set_option maxRecDepth 10000 in decide

def copy0 : Copy :=
  { kind := .inLocal, wid := 0, lid := 1, core := 0, party := 0, wnum := 0, op := 1, asid := 1, addr := 0, seq := 1, opcode := 0x10, seg := 0, far := true,
    direct := false, cls := 0,
    runs := [(0x10000, 64)], lin := some (0x10000, 0x20000), pages := [], fails := [], todo := [(0, 64)], loff := 0, len := 64, rowlen := 0, count := 0,
    pitch := 0, list := 0, row0 := 0, base := 0, lim := 0, ctx := 3, num := 1, dreg := .s 5, tick := 0, got := [], drained := false, targets := [],
    faulted := false }

def target0 : Target := { pos := 0, done := false, refused := false, norecv := false }
def cast0 : Copy := { copy0 with kind := .cast, todo := [], targets := [target0] }
def inCopy (c : Copy) : State := { st0 with copies := [(1, c)] }

/-- A copy of 64 bytes; a multicast to its own core with its buffers free, with one busy, and to a core without a receiver. -/
theorem wit_InboundCopiesMoveAndComplete : copyOf (inCopy copy0) 1 = some copy0 ∧ copy0.kind = .inLocal ∧ waveOf (inCopy copy0) copy0.wid = some wave0 ∧
    partyOf (inCopy copy0) copy0.lid copy0.party = some party0 ∧ (inCopy copy0).ecc = [] ∧ copyOf (inCopy cast0) 1 = some cast0 ∧
    cast0.tick ≤ (inCopy cast0).now / 105 ∧ (lowestWave (inCopy cast0) 0 1).isSome = true ∧
    (shareOf (inCopy cast0) 0 1).landbusy &&& buffers cast0.loff cast0.len = 0 ∧ (lowestWave (inCopy cast0) 3 1).isSome = false ∧
    (let s := { inCopy cast0 with cores := [(0, { core0 with shares := [(1, { share0 with landbusy := 1 })] })] }
     (shareOf s 0 1).landbusy &&& buffers cast0.loff cast0.len ≠ 0 ∧ ownerOf s 0 1 0 = some 0 ∧ waveOf s 0 = some wave0) := by
  set_option maxRecDepth 10000 in decide

def push0 : Push :=
  { id := 9, addr := 0, wid := 0, lid := 1, core := 0, party := 0, wnum := 0, src := 0, len := 4, tag := 7, ctx := 6, num := 1, dreg := .s 5, since := 0,
    src0 := [1, 2, 3, 4], fixed := true }

def stream0 : Stream :=
  { sLid := 1, sEp := 0, rLid := 1, rEp := 3, slots := 2, size := 4096, head := 0x40000, die := 0, ring := [(0, { RSlot.init with full := true, len := 4, tag := 7 })],
    wr := 1, acq := 0, old := 0, inUse := 1, pend := [push0], lodged := [], todo := none, moved := 0 }

def inStream (x : Stream) : State := { st0 with streams := [(1, x)] }
def acqParty : Party := { party0 with acq := [(3, [0])] }
def pop0 : Pop :=
  { addr := 0, wid := 0, lid := 1, core := 0, party := 0, stream := 1, dst := 0, len := 4, ctx := 6, num := 1, dreg := .s 5, slot := none,
    took := RSlot.init, todo := [] }
def popW : Wave := { wave0 with st := .waiting, wait := some { waitG with on := .mspop 8 } }
def lenW : Wave := { wave0 with s := [(2, { val := 4, und := false })] }
def strW (w : Wave) : State := { inStream stream0 with waves := [(0, w)] }

theorem wit_StreamsIssueAndMove_issue : partyOf (strW lenW) 1 0 = some party0 ∧
    (∀ i ∈ ([.mspush ⟨0, .normal, 63, 0, 0, true⟩, .mspush ⟨1, .normal, 63, 0, 0, false⟩, .mspop ⟨1, .normal, 63, 0, 3, true⟩, .mspop ⟨0, .normal, 63, 0, 3, false⟩,
      .msfree ⟨1, .normal, 63, 3, false⟩, .msfree ⟨0, .normal, 63, 3, false⟩] : List Instr), Issues i (strW lenW) lenW) ∧
    streamOf (strW lenW) 1 true 0 = some (1, stream0) ∧ streamOf (strW lenW) 1 false 3 = some (1, stream0) ∧ Tab.findD party0.acq 3 [] = [] ∧
    (let s := { strW lenW with parties := [(65536, acqParty)] }
     Issues (.msfree ⟨0, .normal, 63, 3, false⟩) s lenW ∧ partyOf s 1 0 = some acqParty ∧ Tab.findD acqParty.acq 3 [] = 0 :: [] ∧ (0 : Nat) = stream0.old ∧
     (ringAt stream0 1).freed = false ∧ 2 ≤ stream0.slots ∧ stream0.old < stream0.slots) := by
  unfold Issues Issuing; set_option maxRecDepth 10000 in decide

/-- A free slot for a push, a full slot for a pop, and a full ring for 100 microseconds, within and past the lodging budget. -/
theorem wit_StreamsIssueAndMove_move : (inStream stream0).ecc = [] ∧ (inStream stream0).eccPad = [] ∧ (inStream stream0).bodies = [] ∧
    stream0.inUse < stream0.slots ∧ stream0.pend = push0 :: [] ∧ push0.src0.length = push0.len ∧ waveOf (inStream stream0) push0.wid = some wave0 ∧
    (let s := { strW popW with pops := [(8, pop0)] }
     popReady s 0 = some (8, pop0, stream0, popW) ∧ (popW.wait.bind fun y => y.also) = none) ∧
    (let s := { inStream { stream0 with inUse := 2 } with now := 120000 * 105 }
     launchOf s 1 = some launch0 ∧ 2 ≤ ({ stream0 with inUse := 2 } : Stream).inUse ∧ push0.since + 120000 ≤ s.now / 105 ∧
     (funcOf s 1).lodgeBud < (funcOf s 1).lodgeUse + 1 ∧
     (funcOf { s with funcs := [(1, { Func.init with lodgeBud := 1 })] } 1).lodgeUse + 1 ≤ (funcOf { s with funcs := [(1, { Func.init with lodgeBud := 1 })] } 1).lodgeBud) := by
  set_option maxRecDepth 10000 in decide

/-! ### The step and the invariant -/

/-- A bundle of one SADD, as its dictionary word (R50), resident, and its token fetched. -/
def oneWord : Nat := 1 + 2 ^ 12 + 0x000008004111 * 2 ^ 32
def tok0 : Fetched := { idx := 0, len := 1, imm := none, immWide := false, mask := none }
def issW : Wave := { wave0 with tok := some tok0 }
def stIss : State :=
  { withW issW with cores := [(0, { core0 with dtab := [{ key := { lid := 1, hand := false, idx := 0 }, word := oneWord, pins := [] }] })] }

theorem wit_StepRunsTheDecodedBundle : { st0 with turns := [.event .emptyBundle] }.turns = .event .emptyBundle :: [] ∧
    { st0 with turns := [.cycle 0] }.turns = .cycle 0 :: [] ∧ (candOf stIss 0 [] 0).isSome = true ∧ bundleOps (bundleOf oneWord) = [.saddI ⟨4, 4, .inWord 8, .w64⟩] ∧
    (bundleOf oneWord).opp = none ∧ bundleOps (bundleOf 1) = [] := by
  set_option maxRecDepth 10000 in decide

/-- A state in canonical form that is not reset, and the step of its empty bundle. -/
theorem wit_EveryStepKeepsTheInvariant : Memory.wf [(5, 1), (7, 255)] = true ∧ st0.waves.map (·.1) = [0] ∧
    (match step { st0 with turns := [.event .emptyBundle], mem := [(5, 1), (7, 255)] } with | .next t => t.serial == 1 | _ => false) = true ∧
    Inv { st0 with turns := [.event .emptyBundle], mem := [(5, 1), (7, 255)] } := by
  refine ⟨by decide, by decide, by decide, ⟨rfl, rfl, ?_⟩, ?_⟩
  · intro e he; simp [st0] at he; subst he; rfl
  · simp [st0, TabOk]

theorem wit_MemoryReadAfterWrite : Memory.wf [(3, 1), (4, 2)] = true ∧ getBytes (putBytes [(3, 1), (4, 2)] 4 [0, 9]) 4 2 = [0, 9] ∧
    putBytes [(3, 1), (4, 2)] 4 [0, 9] = [(3, 1), (5, 9)] := by decide

/-! ### The tile engine -/

/-- Slots 0 and 1 ready in bf16, claimed by the wave; slots 2 and 3 claimed and empty; slot 4 in the fp4 format; slot 5 in f16; slot 8 of signed bytes. -/
def ready (f : Fmt) : TEntry := { TEntry.init with claimed := true, st := .ready, fmtt := fmtCode f }
def claimed0 : TEntry := { TEntry.init with claimed := true }
def tileCore : Core :=
  { core0 with table := [(0, ready .bf16), (1, ready .bf16), (2, claimed0), (3, claimed0), (4, ready .fp4), (5, ready .fp4), (8, ready .s8)] }
def stTile : State := { st0 with cores := [(0, tileCore)] }

theorem wit_TileClaimsAndPilotQueue : partyOf stTile 1 0 = some party0 ∧
    (∀ i ∈ ([.tclaim ⟨0, 30, 2⟩, .tclaim ⟨0, 0, 0⟩, .trel ⟨0, 0, 4⟩, .tstat ⟨0, 63, 31⟩, .tzero ⟨0, .acc 15⟩, .tzero ⟨0, .part 7⟩,
      .tmma ⟨0, .ms5, 1, false, false, .bf16, 1, 0, 15⟩, .tbmm ⟨0, .none, false, false, 7, 5, 4⟩, .tscac ⟨0, .ms4, 7, 5, 4, 15⟩,
      .tcvt ⟨0, .none, false, .bf16, false, 2, 14⟩, .tcvt ⟨0, .ms4, true, .e5m2, true, 3, 12⟩, .tmmao ⟨0, .none, false, false, 1, 0, 0⟩,
      .tmovv ⟨0, 4, 0, 0, .A, false, 7⟩, .tmovv ⟨0, 4, 60, 0, .B, true, 0⟩, .tquant ⟨0, .ms4, 0, false, .none, 0, .slot 2⟩,
      .tquant ⟨0, .none, 0, true, .h32, 8, .slot 3⟩] : List Instr), Issues i stTile wave0) := by
  unfold Issues Issuing; set_option maxRecDepth 20000 in decide

/-- The registers of tile accesses: offset 0 and a pitch of 128 bytes (64 for fp4 rows), and those of TQUANT's memory form. -/
def tileW : Wave := { wave0 with s := [(1, { val := 128, und := false }), (11, { val := 64, und := false }), (12, { val := 0x1000, und := false }), (21, { val := 64, und := false }), (22, { val := 0x2000, und := false })] }
def stTileW : State := { stTile with waves := [(0, tileW)] }

theorem wit_TileAccessesIssue : stTileW.eccPad = [] ∧
    (∀ i ∈ ([.tload ⟨0, .ms4, 0, 0, false, .bf16, .slot 2, false, .die, false⟩, .tload ⟨0, .none, 0, 0, false, .f32, .acc 15, true, .wave, false⟩,
      .tstore ⟨0, .ms5, 0, 0, false, .bf16, .slot 1, false, .wave, false⟩, .tstore ⟨0, .none, 0, 0, false, .f32, .acc 0, true, .wave, false⟩,
      .tldo ⟨0, .none, 0, 0, 3, false⟩] : List Instr), Issues i stTileW tileW ∧ (tileReq i stTileW tileW).isSome = true) ∧
    Issues (.tquant ⟨0, .ms5, 20, false, .none, 8, .mem 0 false⟩) stTileW tileW := by
  unfold Issues Issuing; set_option maxRecDepth 20000 in decide

def rowP (v : Nat) : Piece := { piece0 with lane := 0, va := v, size := 128, pa := some v }
def tldA : Acc :=
  { load0 with kind := .tload, slot := 6, scope := .device, pieces := [rowP 0, rowP 128], dest := .slot 2 .bf16 false, resolved := true, ms := some (4, 1) }
def tstA (l : Bool) : Acc :=
  { load0 with kind := .tstore, slot := 6, loc := l, pieces := [{ rowP 0 with size := 4096 }], dest := .slot 1 .bf16 false, resolved := true }
def inTile (a : Acc) : State := { stTile with acc := [(1, a)] }
def outC : Copy := { copy0 with kind := .outSlot, loff := 8192 * 31 + 4159, len := 1, todo := [(0, 1)] }

theorem wit_TileAccessesComplete : accOf (inTile tldA) 1 = some tldA ∧ (inTile tldA).ecc = [] ∧
    (∀ p ∈ tldA.pieces, p.done = false ∧ loadReady (inTile tldA) 1 tldA p = true) ∧ tldA.scope.isPlain = false ∧ partyOf (inTile tldA) 1 0 = some party0 ∧
    accOf (inTile (tstA false)) 1 = some (tstA false) ∧ (∀ p ∈ (tstA false).pieces, p.data = []) ∧
    accOf (inTile (tstA true)) 1 = some (tstA true) ∧ accOf { stTile with copies := [(1, outC)] } 1 = none ∧
    copyOf { stTile with copies := [(1, outC)] } 1 = some outC := by
  set_option maxRecDepth 20000 in decide

/-- The bytes of a bf16 slot are as many as the tile store's access covers. -/
theorem wit_TileAccessesComplete_store : ((tstA false).pieces.map (·.size)).sum = (sourceBytes (inTile (tstA false)) 0 (.slot 1 .bf16 false)).length := by
  simp [sourceBytes, tstA, rowP, slotRow, tileRows, bytesFrom]

def pil (op : POp) (n k : Nat) : PilotOp := { id := 5, op := op, wid := 0, addr := 0, steps := n, step := k, ms := some (5, 1), serial := 0 }
def stPil (op : POp) (n k : Nat) : State := { st0 with cores := [(0, { tileCore with pilot := [pil op n k] })] }

/-- Before its last step and after it; each operation that the clauses name. -/
theorem wit_TileOperationRetires : (coreOf (stPil (.zero (.acc 15)) 1 0) 0).pilot = pil (.zero (.acc 15)) 1 0 :: [] ∧ (pil (.zero (.acc 15)) 1 0).step < 1 ∧
    waveOf (stPil (.zero (.acc 15)) 1 1) 0 = some wave0 ∧ partyOf (stPil (.zero (.acc 15)) 1 1) 1 0 = some party0 ∧
    (∀ op ∈ ([.zero (.part 7), .movv ⟨0, 1, 0, 0, .A, true, 7⟩ [Lanes.all 1], .movv ⟨0, 4, 60, 0, .B, false, 7⟩ [], .mma ⟨0, .none, 1, false, false, .s8, 8, 8, 15⟩,
      .cvt ⟨0, .none, true, .e4m3, true, 2, 12⟩, .quant ⟨0, .none, 0, true, .none, 8, .slot 2⟩ 3 0] : List POp),
      (coreOf (stPil op 8 8) 0).pilot = pil op 8 8 :: [] ∧ (pil op 8 8).steps ≤ (pil op 8 8).step) ∧
    launchOf (stPil (.zero (.acc 0)) 1 1) 1 = some launch0 ∧ launch0.level = 3 := by
  set_option maxRecDepth 20000 in decide

def quantA : Acc :=
  { load0 with kind := .tstore, slot := 6, pieces := [{ rowP 0 with size := 4096 }, { rowP 4096 with size := 64 }], dest := .none, resolved := true }

/-- TMMA of formats that round, TMMAO with an element outside its quadrant, TBMM, TSCAC and TQUANT's memory form. -/
theorem wit_TileOperationRetires_results :
    (∀ op ∈ ([.mma ⟨0, .ms5, 0, false, false, .bf16, 31, 0, 15⟩, .mma ⟨0, .none, 0, true, true, .e5m2, 8, 8, 0⟩, .mmao ⟨0, .none, false, false, 1, 0, 15⟩,
      .bmm ⟨0, .none, false, false, 7, 5, 4⟩, .sca ⟨0, .ms4, 7, 5, 4, 15⟩, .quant ⟨0, .none, 0, true, .h32, 8, .mem 1 true⟩ 3 1] : List POp),
      (coreOf (stPil op 8 8) 0).pilot = pil op 8 8 :: [] ∧ (pil op 8 8).steps ≤ (pil op 8 8).step) ∧
    Tab.find (tileRowsOf { st0 with cores := [(0, { tileCore with accs := [(15, [(31, knownRow (Lanes.all 1))])] })] } 0 15) 31 = some (knownRow (Lanes.all 1)) ∧
    (knownRow (Lanes.all 1)).und.getLsbD 16 = false ∧
    accOf { stPil (.quant ⟨0, .none, 0, true, .h32, 8, .mem 1 true⟩ 3 1) 8 8 with acc := [(1, quantA)] } 1 = some quantA ∧ quantA.loc = false ∧
    (quantA.pieces.map (·.size)).sum = 4160 := by
  set_option maxRecDepth 20000 in decide

/-! ### Fetch, landing and handler entry -/

/-- An image whose stream, map and dictionary lie in one checked page: the stream's bytes from 48 and the map from 56. -/
def imgS (m : List Host.Cell) : State := { st0 with mem := m }

theorem wit_ImageReady : ImageReady (imgS []) 1 launch0 false img0 0 := by
  refine ⟨rfl, rfl, rfl, rfl, rfl, ?_, by decide, by decide, by decide⟩
  intro page h
  have : page = 0 := by have : img0.hdr.pages = 1 := rfl; omega
  subst this
  exact ⟨{ die := 0, hand := false, page := 0, loc := Config.farBase, seq := 0 }, by decide, by decide, fun x hx => by simp [imgS, st0, State.reset] at hx⟩

/-- A byte 0 token on a marked start, an unmarked start, an end of the stream, a reserved token and an index past the dictionary. -/
theorem wit_TokenFetchAndRefill_fetch : waveOf (imgS []) 0 = some wave0 ∧ fetches (imgS []) 0 wave0 = true ∧
    ¬ (((imgAt (imgS []) img0 56 1).headD 0).toNat / 2 ^ 0 % 2 = 1) ∧ hdr0.streamLen ≤ 8 ∧
    ((imgAt (imgS [(Config.farBase + 56, 0x81)]) img0 56 1).headD 0).toNat / 2 ^ 7 % 2 = 1 ∧
    (let s := imgS [(Config.farBase + 56, 1)]
     decTok (imgAt s img0 48 (max 1 (tokLen ((imgAt s img0 48 1).headD 0).toNat))) = .ok 0 1 .plain ∧ 0 < hdr0.dictN ∧
     (entryIn s 0 { lid := 1, hand := false, idx := 0 }).isNone = true ∧ ((imgAt s img0 56 1).headD 0).toNat / 2 ^ 0 % 2 = 1) ∧
    decTok (encTok 1 none) = .ok 1 1 .plain ∧ hdr0.dictN ≤ 1 ∧ decTok [0xFF] = .reserved ∧ hdr0.streamLen < 7 + 2 := by
  set_option maxRecDepth 20000 in decide

def missW : Wave := { wave0 with tok := some tok0, missed := true }
def key0 : DKey := { lid := 1, hand := false, idx := 0 }
def stMiss : State := { withW missW with cores := [(0, { core0 with ostler := [(key0, [{ wid := 0, pc := 0, live := true }])] })] }

/-- The filter passes the word of one SADD and refuses the word of zeros. -/
theorem wit_TokenFetchAndRefill_refill : (coreOf stMiss 0).ostler = [(key0, [{ wid := 0, pc := 0, live := true }])] ∧ windowUse (coreOf stMiss 0) 1 < (shareOf stMiss 0 1).window ∧
    waveOf stMiss 0 = some missW ∧ key0.idx < hdr0.dictN ∧ missW.missed = true ∧ missW.tok = some tok0 ∧ filterWord oneWord 7 = none ∧
    filterWord (leNat (imgAt stMiss img0 0 48)) 7 = some 1 := by
  set_option exponentiation.threshold 400 in set_option maxRecDepth 20000 in decide

def win (x : RegWrite) (l : Nat) (c : Bool) : Window := { w := x, total := 4, left := l, clash := c }

/-- Windows on each kind of register that have run out, with a clash and without, and one with time left. -/
theorem wit_ResultsLandAndRecordsTrap_land : ∀ x ∈ [win (.s 63 1) 0 true, win (.h 7 1) 0 false, win (.k 15 1 1) 0 true, win (.v .B 63 0x80000000 (Lanes.all 1)) 0 false],
    (let w := { wave0 with wins := [win (.s 1 1) 1 false, x] }
     waveOf (withW w) 0 = some w ∧ w.wins.filter (fun y => y.left == 0) = [x]) ∧
    (let w := { wave0 with wins := [win (.s 1 1) 1 false] }
     ∀ y ∈ w.wins, y.left ≠ 0) := by decide

def recW : Wave := { wave0 with recs := [(0, rec0)], count := 1 }
def recS : Wave := { wave0 with recs := [(0, { rec0 with store := true, cause := 1 })], count := 1, st := .waiting, wait := some waitG }
def landW : Wave := { wave0 with landDue := true }

theorem wit_ResultsLandAndRecordsTrap_enter : waveOf (withW recW) 0 = some recW ∧ recW.sup = false ∧ recW.stopping = none ∧ recW.st = .running ∧
    Tab.find recW.recs recW.head = some rec0 ∧ loadRec recW = true ∧ entryFor (withW recW) 1 (recCause rec0) = some 4 ∧
    recS.st = .waiting ∧ recS.wait = some waitG ∧ storeRec recS = true ∧ entryFor (withW recS) 1 (recCause { rec0 with store := true, cause := 1 }) = some 4 ∧
    landW.recs = [] ∧ landW.count = 0 ∧ landW.landDue = true ∧ ((withW landW).acc.all fun a => a.2.wid != 0) = true ∧
    entryFor (withW landW) 1 0x0B = some 4 := by decide

/-! ### Launches, parties and waves -/

/-- A launch with a party to place, at the head of its queue, on a die whose function holds it. -/
def launchP : Launch := { launch0 with placed := 1, raised := false, p := { pkt0 with flags := 0x50 } }
def stPlace (l : Launch) : State := { st0 with launches := [(1, l)], dies := [(0, { Die.init with granted := 1 })] }

/-- The first party of a launch, on core 0; the second, on core 1, because core 0's tile engine is taken. -/
theorem wit_PartiesArePlacedAndRetire_place :
    (let s : State := { stPlace { launchP with placed := 0 } with waves := [], parties := [], cores := [], convoys := [] }
     launchOf s 1 = some { launchP with placed := 0 } ∧ wantsPlace s 1 { launchP with placed := 0 } = true ∧
       dieServes s { launchP with placed := 0 } = true ∧ chooseCore s 1 { launchP with placed := 0 } 0 = some 0 ∧ launchP.cvs.length ≤ (freeConvoys s 0).length) ∧
    wantsPlace (stPlace launchP) 1 launchP = true ∧ dieServes (stPlace launchP) launchP = true ∧ chooseCore (stPlace launchP) 1 launchP 0 = some 1 ∧
    launchP.checked = true := by
  set_option maxRecDepth 20000 in decide

def carved0 : Wave := { wave0 with st := .carved }
def cvTwo : CvDesc := { index := 0, waves := 1, nparty := 2, first := 0 }

/-- A wave without a convoy; a wave of a convoy over two parties, of which one has been placed, then both; gates of an early launch. -/
theorem wit_PartiesArePlacedAndRetire_release : waveOf (withW carved0) 0 = some carved0 ∧ launchOf (withW carved0) 1 = some launch0 ∧
    convoysPlaced launch0 carved0 = true ∧ convoysPlaced { launch0 with cvs := [cvTwo] } carved0 = false ∧
    convoysPlaced { launch0 with cvs := [cvTwo], placed := 2 } carved0 = true ∧ wave0.st ≠ .carved ∧
    launchOf (stPlace launchP) 1 = some launchP ∧ launchP.p.flags.getLsbD 6 = true ∧ launchP.p.gcount < 2 ^ 32 ∧
    earlierDone (stPlace launchP) 1 launchP = true ∧
    (let s : State := { stPlace launchP with launches := [(1, { launchP with p := { launchP.p with parties := 1 } }), (2, launchP)] }
     launchOf s 2 = some launchP ∧ earlierDone s 2 launchP = false) := by decide

def exitW : Wave := { wave0 with exiting := true, live := 0 }

theorem wit_PartiesArePlacedAndRetire_retire : waveOf (withW exitW) 0 = some exitW ∧ wavesWorkDone (withW exitW) 0 exitW = true ∧
    exitW.sup = false ∧ exitW.st = .running ∧ exitW.stopping = none ∧ partyOf (withW exitW) 1 0 = some party0 ∧ party0.left ≤ 1 ∧
    (let p := { party0 with waves := 2, left := 2 }
     partyOf { withW exitW with parties := [(65536, p)] } 1 0 = some p ∧ 1 < p.left ∧ (0, 0) ∈ conv0.members) ∧ wave0.exiting = false := by decide

def doneL (k : Nat) : Launch := { launch0 with retired := 2, placed := 2, pkt := k }

/-- Complete in ring order and out of it, with INTR; a party to retire, a held store and an ended launch. -/
theorem wit_PartiesArePlacedAndRetire_complete : ∀ k ∈ [0, 5],
    (let s : State := { stPlace (doneL k) with queues := [(64, { queue0 with intr := [k] })] }
     launchOf s 1 = some (doneL k) ∧ (doneL k).st = .accepted ∧ (doneL k).retired = (doneL k).p.parties ∧ storeHeld s 1 = false ∧
       (doneL k).p.energy = 0 ∧ s.routes = [] ∧ (queueOf s 64).ended = [] ∧ k ∈ (queueOf s 64).intr ∧ (k = (queueOf s 64).done.toNat ↔ k = 0) ∧
       queueOfLaunch (doneL k) = 64) ∧
    launch0.retired ≠ launch0.p.parties ∧ storeHeld { st0 with acc := [(1, { load0 with kind := .store, lid := 1, held := true })] } 1 = true := by decide

/-! ### Waits, cyclic waits and tolls -/

def waiter (o : WaitOn) : Wave := { wave0 with st := .waiting, back := .running, wait := some { waitG with on := o, rearm := none, also := none, since := 0 } }
def stConv (w : Wave) (c : Convoy) : State := { st0 with waves := [(0, w)], convoys := [(0, c)] }

/-- A phase that the last report fills, with no wave waiting and with one; one member short. -/
theorem wit_WaitsEndTollsRefill_convoy :
    (let c : Convoy := { conv0 with reported := [(0, 0)] }
     Tab.find (stConv wave0 c).convoys 0 = some c ∧ lateWaiters (stConv wave0 c) 0 c.phase = [] ∧ phaseFull c = true ∧ c.reported ≠ [] ∧
       barWaiters (stConv wave0 c) 0 c.phase = [] ∧
       barWaiters (stConv (waiter (.bar 0 0)) c) 0 c.phase = [(0, waiter (.bar 0 0))] ∧ lateWaiters (stConv (waiter (.bar 0 0)) c) 0 c.phase = []) ∧
    phaseFull { conv0 with members := [(0, 0), (0, 1)], reported := [(0, 1)] } = false := by decide

def msPty (d : List Nat) : Party := { party0 with ms := [(7, { taken := 9, count := 3, done := d })] }

/-- Numbers 4 and 5 have completed, 7 before 6; only 5 has. -/
theorem wit_WaitsEndTollsRefill_milestone :
    (let s : State := { withW (waiter (.mwait 7 5)) with parties := [(65536, msPty [5, 4, 7])] }
     Tab.find s.parties 65536 = some (msPty [5, 4, 7]) ∧ (msOf (msPty [5, 4, 7]) (7 : BitVec 3).toNat).count + 1 ∈ (msOf (msPty [5, 4, 7]) (7 : BitVec 3).toNat).done ∧
       msWaiters s (65536 / 65536) (65536 % 65536) (7 : BitVec 3).toNat 5 = [(0, waiter (.mwait 7 5))] ∧
       ((waiter (.mwait 7 5)).wait.bind fun x => x.also) = none ∧ acqDone s 0 false s.nextId = true) ∧
    (msOf (msPty [5]) (7 : BitVec 3).toNat).count + 1 ∉ (msOf (msPty [5]) (7 : BitVec 3).toNat).done ∧
    msWaiters { st0 with parties := [(65536, msPty [4])] } 1 0 7 4 = [] := by decide

/-- The gate at the awaited count, and one short of it. -/
theorem wit_WaitsEndTollsRefill_gate :
    (let s : State := { withW (waiter (.gwait 63 5)) with queues := [(0, { queue0 with gates := [(63, 5)] })] }
     waveOf s 0 = some (waiter (.gwait 63 5)) ∧ 5 ≤ gateVal s 63) ∧
    gateVal { withW (waiter (.gwait 63 6)) with queues := [(0, { queue0 with gates := [(63, 5)] })] } 63 < 6 := by decide

def routeC : Route := { vf := 1, q := 0, tag := 1, pkt := 0, first := 0, stages := 1, binds := [], lids := [1], done := [], stirred := 0 }
def stCyc (n : Nat) : State :=
  { withW (waiter (.bar 0 0)) with launches := [(1, { launch0 with placed := 2 })], routes := [(3, routeC)], now := n * 105 }

/-- A blocked route at 120,000 ticks and one tick before it; a wave that runs. -/
theorem wit_WaitsEndTollsRefill_cyclic : Tab.find (stCyc 120000).routes 3 = some routeC ∧
    (routeC.lids.find? fun n => match launchOf (stCyc 120000) n with | some l => l.st == .accepted | none => false) = some 1 ∧
    cyclicNow (stCyc 120000) routeC = true ∧ cyclicSince (stCyc 120000) routeC + 120000 ≤ (stCyc 120000).now / 105 ∧
    (stCyc 119999).now / 105 < cyclicSince (stCyc 119999) routeC + 120000 ∧
    cyclicNow { stCyc 120000 with waves := [(0, wave0)] } routeC = false := by decide

/-- A bucket of depth 0, which counts as 1, that is one microsecond behind. -/
theorem wit_WaitsEndTollsRefill_toll :
    (let s : State := { st0 with now := 105 * 1200, dies := [(7, { Die.init with tollF := [(15, { Toll.init with en := true, rate := 5, level := 1023 })] })] }
     let b := Tab.findD (dieOf s (7 : BitVec 3).toNat).tollF (15 : BitVec 4).toNat Toll.init
     b.en = true ∧ b.depth = 0 ∧ b.at_ + 1200 ≤ s.now / 105 ∧ b.level < 1024) := by decide

/-! ### Pre-emption and halts -/

/-- Function 0 holds die 0 with the launch's body on it, and function 3 has a launch that waits for the die. -/
def launchN : Launch := { launch0 with vf := 3, placed := 0, p := { pkt0 with parties := 1, pwaves := 15 } }
def dieA : Die := { Die.init with granted := 1, outgoing := 1, sliceEnd := 10, areas := [(1, 0, 0, 0)], coreAreas := [(1, 0, 40)] }
def stSlice (d : Die) (n : Nat) : State := { st0 with launches := [(1, launch0), (2, launchN)], dies := [(0, d)], now := 105 * n }

/-- At the end of the slice and a tick before it; a die in reset; a body without a save area; no other function. -/
theorem wit_SlicesRequestsAndWatchdog_slice : dieA.sliceEnd ≤ (stSlice dieA 10).now / 105 ∧ dieA.off = false ∧
    (∀ e ∈ onDie (stSlice dieA 10) 0, canStop (stSlice dieA 10) e.1 = true) ∧ onDie (stSlice dieA 10) 0 ≠ [] ∧
    nextFunc (stSlice dieA 10) 0 1 = some 3 ∧ (stSlice dieA 9).now / 105 < dieA.sliceEnd ∧
    (∃ e ∈ onDie (stSlice { dieA with areas := [] } 10) 0, canStop (stSlice { dieA with areas := [] } 10) e.1 = false) ∧
    nextFunc { stSlice dieA 10 with launches := [(1, launch0)] } 0 1 = none := by
  set_option maxRecDepth 20000 in decide

/-- The outgoing function's launch has the whole decode table of each core of the die, so the incoming launch fits nowhere. -/
def stFull : State :=
  { stSlice dieA 10 with
    waves := (List.range 32).map fun c => (16 * c, { wave0 with party := c })
    dies := [(0, { dieA with granted := 3, areas := (List.range 32).map fun c => (1, c, 0, c), coreAreas := (List.range 32).map fun c => (1, c, c) })]
    cores := (List.range 32).map fun c => (c, { core0 with tile := none, shares := [(1, { share0 with window := 512 })] }) }

theorem wit_SlicesRequestsAndWatchdog_request : launchOf stFull 1 = some launch0 ∧ (dieOf stFull 0).granted ≠ (dieOf stFull 0).outgoing ∧
    (toStop stFull 0).head? = some 1 ∧ (∀ e ∈ onDie stFull 0, e.2.stopping = false) ∧ waitsOn stFull (dieOf stFull 0).granted 0 = true ∧
    incomingFits stFull (dieOf stFull 0).granted 0 = false ∧ (dieOf (stSlice dieA 10) 0).granted = (dieOf (stSlice dieA 10) 0).outgoing ∧
    waitsOn { stFull with launches := [(1, launch0)] } 3 0 = false ∧ incomingFits { stFull with waves := [], cores := [] } 3 0 = true := by
  set_option maxRecDepth 40000 in decide

def asked (n : Nat) : Wave := { wave0 with preempt := true, watchdog := n }

theorem wit_SlicesRequestsAndWatchdog_watchdog : waveOf (withW (asked 1048576)) 0 = some (asked 1048576) ∧ launchOf (withW (asked 1048576)) 1 = some launch0 ∧
    (asked 1048576).preempt = true ∧ 2 ^ launch0.htab.wd ≤ (asked 1048576).watchdog ∧ (asked 1048575).watchdog < 2 ^ launch0.htab.wd := by decide

def safeW : Wave := { asked 0 with tok := some { tok0 with mask := some 0xFFFFFFFF00000000 } }
def waitW (sp : Bool) : Wave := { asked 0 with st := .waiting, back := .running, wait := some { waitG with sp := sp } }

/-- A safe-point token with and without an access that still moves; a wait in a safe-point bundle and in another; a token without a mask. -/
theorem wit_BodiesStopAndResume_stop : TabOk (withW safeW).waves ∧ waveOf (withW safeW) 0 = some safeW ∧ safeW.preempt = true ∧ safeW.sup = false ∧
    inInvpg (withW safeW) 0 = false ∧ safeW.stopping = none ∧ safeW.st = .running ∧ safeW.waitCnt = 0 ∧ safeW.exiting = false ∧
    (safeW.tok.bind fun f => f.mask) = some 0xFFFFFFFF00000000 ∧ storeRec safeW = false ∧ stopDrained (withW safeW) 0 safeW = true ∧
    stopDrained { withW safeW with acc := [(1, load0)] } 0 safeW = false ∧ waveOf (withW (waitW true)) 0 = some (waitW true) ∧
    (waitW true).back = .running ∧ stopDrained (withW (waitW true)) 0 (waitW true) = true ∧ ((asked 0).tok.bind fun f => f.mask) = none ∧
    (∀ x, (waitW false).wait = some x → x.sp = false) := by
  refine ⟨by unfold TabOk; decide, by decide, rfl, rfl, by decide, rfl, rfl, rfl, rfl, rfl, by decide, by decide, by decide, by decide, rfl, by decide, rfl, ?_⟩
  intro x h; cases h; rfl

def launchS : Launch := { launch0 with stopping := true }
def stStop (l : Launch) (w : Wave) : State := { withW w with launches := [(1, l)], dies := [(0, dieA)] }
def stoppedW : Wave := { wave0 with st := .stopped, back := .running, stopping := some 0xFFFFFFFFFFFFFFFF }

/-- A body whose wave has stopped; one without a request, one whose wave runs, and one with a load in flight. -/
theorem wit_BodiesStopAndResume_save : launchOf (stStop launchS stoppedW) 1 = some launchS ∧ resident (stStop launchS stoppedW) 1 = true ∧
    bodyStopped (stStop launchS stoppedW) 1 = true ∧ bodyDrained (stStop launchS stoppedW) 1 = true ∧ canStop (stStop launchS stoppedW) 1 = true ∧
    launch0.stopping = false ∧ bodyStopped (stStop launchS wave0) 1 = false ∧
    bodyDrained { stStop launchS stoppedW with acc := [(1, load0)] } 1 = false := by decide

/-- A stopped wave as its body holds it, and a unit of it with a byte of scratchpad and a claimed slot. -/
def savedW : Wave := { stoppedW with st := .saved, stopping := some 0x1FFFFFFFFFFFFFF }
def unit0 : SavedCore :=
  { old := 0, share := share0, dict := [], waves := [(0, savedW)], tile := some (1, 0), slerr := 0,
    pilot := [], accs := [], parts := [], images := [], table := [(2, claimed0)], pad := [(0, 7)], view := { clock := [], low := [] }, did := [] }
def body0 : Body := { lid := 1, die := 0, cores := [unit0], convoys := [(0, conv0)], accs := [], copies := [], byCkpt := false }
def launchR : Launch := { launch0 with saved := true }
def stBody : State :=
  { st0 with waves := [], cores := [], convoys := [], launches := [(1, launchR)], bodies := [(1, body0)],
             dies := [(0, { dieA with areas := [(1, 0, 0, 0)] }), (1, { Die.init with granted := 1 })] }

/-- On its own die, and on another to which it may move; its wave has an area before and after. -/
theorem wit_BodiesStopAndResume_resume : launchOf stBody 1 = some launchR ∧ Tab.find stBody.bodies 1 = some body0 ∧ launchR.st = .accepted ∧
    stBody.sec.ckpt = none ∧ (∀ die : BitVec 3, die = 0 ∨ die = 1 → (dieOf stBody die.toNat).off = false ∧ (dieOf stBody die.toNat).granted = launchR.vf ∧
      (die.toNat = body0.die ∨ mayMigrate launchR body0 = true) ∧ (match resumeBody stBody 1 launchR body0 die.toNat with
        | some r => !launchEnded r 1 && match waveOf r (512 * die.toNat) with
          | some v => v.lid == 1 && (waveArea r (512 * die.toNat) v).isSome
          | none => false
        | none => false) = true) ∧ stBody.waves = [] ∧
    (∀ c ∈ body0.cores, (∀ e ∈ c.waves, e.2.lid = 1) ∧ ∀ k ∈ c.dict, k.lid = 1) ∧ savedW.stopping = some 0x1FFFFFFFFFFFFFF ∧
    waveArea stBody 0 savedW = some (Config.nearBase 0 + Config.ctxBase) ∧ (dieOf stBody 1).areas = [] ∧
    Config.nearBase 0 + Config.ctxBase < Config.nearBase (0 / 512 + 1) - 32768 := by
  set_option maxRecDepth 100000 in decide +kernel

def secDbg : Sec := { Sec.reset with lc := 2, dbgPerm := 3, halt := [0], bkhalt := [0] }

/-- A marked slot at a BKPT and at its next issue opportunity; an unmarked slot; the part unlocked with leave to halt, without it, and
secured; a halted wave under the debug register and one that runs. -/
theorem wit_BreakpointsAndHalts : (let s : State := { st0 with sec := secDbg }
      Issuing s wave0 ∧ wave0.sup = false ∧ s.cur.wid ∈ s.sec.bkhalt ∧ waveOf s 0 = some wave0 ∧ 0 ∈ s.sec.halt ∧ wave0.waitCnt = 0 ∧
        wave0.stopping = none ∧ wave0.exiting = false ∧ inInvpg s 0 = false) ∧
    waveArea { withW wave0 with dies := [(0, dieA)] } 0 wave0 = some (Config.nearBase 0 + Config.ctxBase) ∧ 0 ∉ Sec.reset.halt ∧
    (1 : DWord).getLsbD 0 = true ∧ (2 : DWord).getLsbD 0 = false ∧ secDbg.lc = 2 ∧ secDbg.dbgPerm % 2 = 1 ∧ ¬ ({ secDbg with dbgPerm := 2 }.dbgPerm % 2 = 1) ∧
    Sec.reset.lc ≠ 2 ∧ (∀ st ∈ [WState.halted, .running], waveOf (withW { wave0 with st := st }) Sec.reset.dbgSel = some { wave0 with st := st }) := by
  unfold Issuing; decide

/-! ### Packets -/

def qid0 : QId := ⟨1, 0⟩

/-- A queue of revision 4 whose ring of 16 packets lies at address 0 of the host's memory, with the packet at `head` to read. -/
def queueP (head done : Word) : Queue := { queue0 with loc := true, addr := 0, asid := 1, rev := 4, log2 := 4, head := head, tail := head + 1, done := done }
def stPkt (m : List Host.Cell) (q : Queue) : State :=
  { st0 with hostMem := m, queues := [(64, q)], launches := [], feXlat := xl0, tren := true, now := 105 * 7 }
def pktCells (typ : Byte) (l : List Host.Cell) : List Host.Cell := [(0, typ), (1, 4), (2, 4)] ++ l

/-- The packet at the head of the ring is read. -/
def readsAs (typ : Nat) (l : List Host.Cell) : Prop :=
  let s := stPkt (pktCells (BitVec.ofNat 8 typ) l) (queueP 0 0)
  let p := packetAt s (queueP 0 0) 0
  queueOf s (qKey qid0) = queueP 0 0 ∧ Machine.reads s (qKey qid0) = true ∧ pByte p 0 = typ ∧ headerBad 4 p = none ∧ (pFlag p 0 = true → (queueP 0 0).done = (queueP 0 0).head)

/-- Bytes lo to hi − 1 of the packet of those cells are 0. -/
def zeroIn (typ : Nat) (l : List Host.Cell) (lo hi : Nat) : Prop :=
  ∀ i < hi, lo ≤ i → pByte (packetAt (stPkt (pktCells (BitVec.ofNat 8 typ) l) (queueP 0 0)) (queueP 0 0) 0) i = 0

/-- NOPKT, alone and with its last reserved byte set. -/
theorem wit_PacketsSignalAndReport_nopkt : readsAs 9 [] ∧ zeroIn 9 [] 4 64 ∧ readsAs 9 [(63, 1)] ∧ zeroIn 9 [(63, 1)] 4 63 ∧ ¬ zeroIn 9 [(63, 1)] 4 64 := by
  unfold readsAs zeroIn; decide

/-- An aligned address on the one page that translates, and one that does not, for MARK, TIMESTAMP and ENERGY; the last byte of the page. -/
theorem wit_PacketsSignalAndReport_write : (∀ typ ∈ [3, 6, 7], readsAs typ [(8, 0xF8), (9, 0x0F)] ∧ zeroIn typ [(8, 0xF8), (9, 0x0F)] 4 8 ∧
      zeroIn typ [(8, 0xF8), (9, 0x0F)] 16 64) ∧
    (let s := stPkt [] (queueP 0 0)
     LiesAt s 1 0xFF8 8 (Config.farBase + 8192 + 0xFF8) false true ∧ LiesAt s 1 0xFFF 1 (Config.farBase + 8192 + 0xFFF) true false ∧
       (asidSpans true 0 1 false true (rangeCuts 0x1000 8) s).1 = none) ∧
    (queueP 0 0).done = (queueP 0 0).head ∧ (queueP 1 0).done ≠ (queueP 1 0).head := by
  unfold readsAs zeroIn LiesAt; set_option maxRecDepth 10000 in decide

/-- GATECFG on gate 63 in both modes, with and without a launch that still runs. -/
theorem wit_PacketsSignalAndReport_gate : (∀ m ∈ [0, 1], readsAs 5 [(8, 63), (9, BitVec.ofNat 8 m), (12, 9)] ∧ zeroIn 5 [(8, 63), (9, BitVec.ofNat 8 m), (12, 9)] 4 8 ∧
      zeroIn 5 [(8, 63), (9, BitVec.ofNat 8 m), (12, 9)] 10 12 ∧ zeroIn 5 [(8, 63), (9, BitVec.ofNat 8 m), (12, 9)] 16 64) ∧
    launchesDone (stPkt [] (queueP 0 0)) (qKey qid0) = true ∧
    launchesDone { stPkt [] (queueP 0 0) with launches := [(1, { launch0 with placed := 2 })] } (qKey qid0) = false ∧
    Machine.reads { stPkt [] (queueP 0 0) with launches := [(1, { launch0 with placed := 2 })] } (qKey qid0) = true := by
  unfold readsAs zeroIn; decide

/-- HOSTCOPY of one byte each way. -/
theorem wit_PacketsSignalAndReport_copy : ∀ d ∈ [0, 1], readsAs 8 [(24, 1), (32, BitVec.ofNat 8 d)] ∧ zeroIn 8 [(24, 1), (32, BitVec.ofNat 8 d)] 4 8 ∧
    zeroIn 8 [(24, 1), (32, BitVec.ofNat 8 d)] 33 64 ∧ fieldAt (packetAt (stPkt (pktCells 8 [(24, 1), (32, BitVec.ofNat 8 d)]) (queueP 0 0)) (queueP 0 0) 0) 24 8 = 1 ∧
    LiesAt (stPkt (pktCells 8 [(24, 1), (32, BitVec.ofNat 8 d)]) (queueP 0 0)) 1 0 1 (Config.farBase + 8192) (d == 1) (d == 0) := by
  unfold readsAs zeroIn LiesAt; set_option maxRecDepth 10000 in decide

def pollQ (n : Nat) : Queue := { queueP 0 0 with poll := some (n, List.replicate 64 0) }

/-- WAITMARK whose condition holds at its bound and not one above it, in both conditions; the poll at its tick and before it. -/
theorem wit_PacketsSignalAndReport_waitmark : (∀ c ∈ [0, 1], readsAs 4 [(24, BitVec.ofNat 8 c)] ∧ zeroIn 4 [(24, BitVec.ofNat 8 c)] 4 8 ∧ zeroIn 4 [(24, BitVec.ofNat 8 c)] 25 64 ∧ readsAs 4 [(16, 1), (24, BitVec.ofNat 8 c)] ∧
      LiesAt (stPkt (pktCells 4 [(24, BitVec.ofNat 8 c)]) (queueP 0 0)) 1 0 8 (Config.farBase + 8192) true false) ∧
    leNat (devBytes (stPkt [] (queueP 0 0)) (Config.farBase + 8192) 8) = 0 ∧ (pollQ 7).st = .running ∧ 7 ≤ (stPkt [] (pollQ 7)).now / 105 ∧
    (stPkt [] (pollQ 8)).now / 105 < 8 ∧ queueOf (stPkt [] (pollQ 8)) (qKey qid0) = pollQ 8 := by
  unfold readsAs zeroIn LiesAt; set_option maxRecDepth 10000 in decide

/-! ### Launches and routes: an image signed with a key made for this test (a prime modulus of 529 bits) -/

def keyT : Nat :=
  0x1b2864fe04802f435a5736e8cd94e7223c68aa5529b0566567bc4627292f83f9aa884e59409c145619fc017b4834c37495c5ed93ff716dce47b21ca51e152a12f3a95
def sigT : Nat :=
  0x575c45248d63611d5bb9f47daffbdf95a1cac367b0d9f6381b94e583e75a4a6009430c64d6b24d3d4020f4a55ee5015d7d9638eb12a44bf81d9a0fdf4e67b1a7890e

def cellsAt : Nat → List Byte → List Host.Cell
  | _, [] => []
  | a, v :: t => (a, v) :: cellsAt (a + 1) t

/-- The image's page: one dictionary page, one segment in near memory that may only be read, role 0 of one wave; and a binding at 0x800. -/
def memT : List Host.Cell :=
  cellsAt (Config.farBase + 8192) [0x5A, 0x48, 0x45, 0x4E, 1, 0, 0, 0, 1] ++ cellsAt (Config.farBase + 8192 + 17) [16] ++
    cellsAt (Config.farBase + 8192 + 33) [4, 0, 0, 1, 0, 64, 0, 8, 0, 1, 0, 0, 2] ++ cellsAt (Config.farBase + 8192 + 445) (beBytes 67 sigT) ++
    cellsAt (Config.farBase + 8192 + 515) [1, 0, 0, 0, 0, 0xFF, 0xFF, 0xFF, 0xFF] ++ cellsAt (Config.farBase + 8192 + 1026) [1, 0, 0, 0, 0, 0, 0, 32, 0, 0, 0, 0, 0, 0, 3] ++
    cellsAt (Config.farBase + 8192 + 0x800) [0, 0, 1, 12, 0]

/-- A LAUNCH packet at a place of the ring: one party of one wave on a die, with a route's tag and stage. -/
def launchCells (a : Nat) (parties die tag stage : Byte) : List Host.Cell :=
  cellsAt a ([1, 4, 4, 0, 1, 0, 0, 0, 0, 0, 0, 0, parties, 0, die, 56, 0, 0, 1, 0] ++ List.replicate 8 0 ++ [0x11, 0, 0, 0, 0, 0, 0, 0, 1, tag, stage])

def stLaunch (m : List Host.Cell) (n : Word) : State :=
  { stPkt m { queueP 0 0 with tail := n } with
    mem := memT
    tren := true, feXlat := [(0, [{ asid := 1, page := 0, cls := 0, frame := 8192, r := true, w := false }]), (1, [{ asid := 1, page := 1, cls := 0, frame := 4096, r := true, w := false }])]
    funcs := [(1, { Func.init with key := some keyT, keyid := 0 })] }

def isOk (v : Verdict) : Bool := match v with | .ok _ => true | .bad _ _ => false

/-- A LAUNCH that passes every check (the signature among them), one with no party, one whose image has no key, and one that names a route. -/
theorem wit_LaunchesAndRoutesAccepted_launch :
    (let s := stLaunch (launchCells 0 1 7 0 0) 1
     let q := queueOf s 64
     let p := packetAt s q 0
     Machine.reads s (qKey qid0) = true ∧ pByte p 0 = 1 ∧ headerBad q.rev p = none ∧ pFlag p 0 = false ∧ pByte p 37 = 0 ∧
       firstBad (launchFields s 1 4 p) = none ∧ isOk (judgeLaunch s 1 0 0 q p).1 = true ∧
       (judgeLaunch { s with funcs := [] } 1 0 0 q p).1 = .bad 0x42 2) ∧
    (let s := stLaunch (launchCells 0 0 0 5 0) 1
     let p := packetAt s (queueOf s 64) 0
     firstBad (launchFields s 1 4 p) = some 12 ∧ headerBad 4 p = none ∧ pByte p 37 ≠ 0) := by
  set_option exponentiation.threshold 4000 in set_option maxRecDepth 100000 in decide +kernel

/-- A ROUTE of two stages with its LAUNCH packets written, and with one of them still to come. -/
theorem wit_LaunchesAndRoutesAccepted_route :
    (let s := stLaunch (cellsAt 0 [2, 4, 4, 0, 0, 0, 0, 0, 9, 0, 2, 1, 0, 0, 0, 0, 0, 8] ++ launchCells 64 1 0 9 0 ++ launchCells 128 1 1 9 1) 3
     let q := queueOf s 64
     let p := packetAt s q 0
     Machine.reads s (qKey qid0) = true ∧ pByte p 0 = 2 ∧ headerBad q.rev p = none ∧ pFlag p 0 = false ∧ firstBad (routeFields p) = none ∧ s.routes = [] ∧ pByte p 10 = 2 ∧
       1 + 2 ≤ (q.tail - q.head).toNat ∧
       (match judgeStages 1 0 q 9 0 0 (List.range 2) s with
         | (.inl ls, s1) => (match asidRead s1 true 0 q.asid (leNat ((p.drop 16).take 8)) (16 * pByte p 11) with
           | (some bb, _) => (entriesOf 16 (pByte p 11) bb).map (bindOf 2) == [[0, 0, 0, 2, 12, 0]].map some && !bindTwice [[0, 0, 0, 2, 12, 0]] &&
               [[0, 0, 0, 2, 12, 0]].all (ringOk ls) && ls.length == 2
           | _ => false)
         | _ => false) = true) ∧
    (let q := queueOf (stLaunch [] 2) 64
     (q.tail - q.head).toNat < 1 + 2) := by
  set_option exponentiation.threshold 4000 in set_option maxRecDepth 100000 in decide +kernel

/-! ### The host -/

def asdt1 : List Host.Cell := [(Config.farBase + 200, 1), (Config.farBase + 201, 1)]
def stQ (q : Queue) (ls : Tab Launch) : State := { st0 with mem := asdt1, queues := [(64, q)], launches := ls }

def qctlGood (val : DWord) (s : State) : Prop :=
  (val.toNat / 2 ^ 16 % 2 ^ 8 = 3 ∨ val.toNat / 2 ^ 16 % 2 ^ 8 = 4) ∧ 4 ≤ val.toNat / 2 ^ 4 % 2 ^ 4 ∧
    asdtValid (asdtEntry s (val.toNat / 2 ^ 24 % 2 ^ 16)) = true ∧ asdtVf (asdtEntry s (val.toNat / 2 ^ 24 % 2 ^ 16)) = 1 ∧ launchesDone s 64 = true

/-- The QCTL values that enable a queue (the least ring and the greatest, both revisions) and ones that do not: ring, revision, address
space, a launch that still runs. -/
theorem wit_HostWrites_queue : (∀ val ∈ [0x1030041, 0x10400F1], (BitVec.ofNat 64 val).getLsbD 0 = true ∧ qctlGood (BitVec.ofNat 64 val) (stQ Queue.init [])) ∧
    (∀ val ∈ [0x1030031, 0x1020041, 0x1050041, 0x2030041], ¬ qctlGood (BitVec.ofNat 64 val) (stQ Queue.init [])) ∧
    ¬ qctlGood 0x1030041 (stQ Queue.init [(1, launch0)]) := by
  unfold qctlGood; set_option maxRecDepth 100000 in decide +kernel

theorem wit_HostWrites_queueState : Queue.init.en = false ∧ Sec.reset.stage = 5 ∧ Sec.reset.recov = false ∧ queue0.en = true ∧ queue0.fault = false ∧
    ({ queue0 with fault := true, st := .faulted } : Queue).fault = true ∧ launchOf st0 1 = some launch0 ∧ queueOfLaunch launch0 = qKey qid0 := by
  decide

/-- An access whose last byte is the last of far memory, and one a byte further. -/
theorem wit_HostWrites_access : Config.farSize - 1 + ([1] : List Byte).length ≤ Config.farSize ∧ Config.farSize < Config.farSize + ([1] : List Byte).length ∧
    Config.devSize - 1 < Config.devSize := by decide +kernel

def dieR : Die := { Die.init with limit := 7, thermal := [(31, { Sensor.init with valid := false })], current := [(7, { Sensor.init with valid := false }), (0, Sensor.init)] }
def coreR : Core := { Core.init with slices := [{ Slice.init with held := some (1, 0), lim := 16 }, Slice.init, Slice.init, Slice.init] }

theorem wit_HostWrites_registers : (dieOf { st0 with dies := [(7, dieR)] } 7).limit.getLsbD 2 = true ∧ (3 : BitVec 3).getLsbD 2 = false ∧
    Tab.find (dieOf { st0 with dies := [(7, dieR)] } 7).thermal 31 = some { Sensor.init with valid := false } ∧
    Tab.find (dieOf { st0 with dies := [(7, dieR)] } 7).current 7 = some { Sensor.init with valid := false } ∧
    ((coreOf { st0 with cores := [(255, coreR)] } 255).slices.getD 0 Slice.init).held = some (1, 0) ∧
    (∀ far ∈ [true, false], (tollAt st0 7 15 far).en = false) ∧ (0x8000000000000000 : DWord).getLsbD 63 = true ∧ (0x7FFFFFFFFFFFFFFF : DWord).getLsbD 63 = false ∧
    (0x10000 : DWord).getLsbD 16 = true ∧ (funcOf st0 15).hen = false ∧ (checkHandler st0 15 0).isNone = true := by
  set_option maxRecDepth 10000 in decide

/-- The image of `memT`, untranslated, passes as a handler image of function 1, to which address space 0 gives 8,192 bytes of near memory. -/
theorem wit_HostWrites_handler :
    (checkHandler { stLaunch [] 1 with mem := cellsAt (Config.farBase + 72) [1, 1] ++ cellsAt (Config.farBase + 105) [32] ++ memT } 1 8192).isSome = true := by
  set_option exponentiation.threshold 4000 in set_option maxRecDepth 100000 in decide +kernel

/-! ### Power and sensors -/

def trans0 : Trans := { target := 7, up := true, phase2 := false, end_ := 100 }
def coreT (t : Trans) : Core := { core0 with trans := some t, shares := [(1, { share0 with req := 7 })] }

/-- Both phases at their end and a moment before it; the target still the core's and no more. -/
theorem wit_PowerControlsMove_transition : (coreOf { st0 with cores := [(0, coreT trans0)], now := 100 } 0).trans = some trans0 ∧ trans0.phase2 = false ∧
    trans0.end_ ≤ ({ st0 with now := 100 } : State).now ∧ ({ st0 with now := 99 } : State).now < trans0.end_ ∧
    (coreOf { st0 with cores := [(0, coreT { trans0 with phase2 := true })] } 0).trans = some { trans0 with phase2 := true } ∧
    targetOf { st0 with cores := [(0, coreT { trans0 with phase2 := true })] } 0 = trans0.target ∧
    targetOf { st0 with cores := [(0, { coreT trans0 with shares := [] })] } 0 ≠ trans0.target := by decide

def coreP : Core := { Core.init with ramp := 7, rampCyc := 257, allow := 1, above := 1024, lastKind := 12 }

theorem wit_PowerControlsMove_core : (Machine.clus st0 63).due = 0 ∧ (Machine.clus { st0 with clusters := [(63, { Cluster4.init with due := 1 })] } 63).due ≠ 0 ∧
    coreP.allow ≠ 0 ∧ 1024 ≤ coreP.above ∧ Core.init.allow = 0 ∧ ({ coreP with above := 1023 } : Core).above < 1024 ∧ coreP.ramp ≠ 0 ∧ 256 < coreP.rampCyc ∧
    ({ coreP with rampCyc := 256 } : Core).rampCyc ≤ 256 ∧ coreP.filling = none ∧ coreP.lastKind ≠ 0 ∧ arrayWork coreP = false ∧
    (∀ n ∈ [7, 8], (coreOf { st0 with cores := [(255, { coreP with filling := some n, lastArray := 5 })], now := 105 * 305 } 255).lastArray + 300 ≤ 105 * 305 / 105) ∧
    105 * 304 / 105 < 5 + 300 := by decide

/-- The third measurement of 10 microseconds when it is due and a tick before; the ten-measurement sum above the peak, within a fifteenth and an eighth of it. -/
theorem wit_PowerControlsMove_caps :
    (let c : Caps := { Caps.reset with made := 2, e1 := [2300, 2300, 2300, 2300, 2300, 2300, 2300, 2300, 2300], avg := 1600 }
     (c.made + 1) * 1200 ≤ 3600 ∧ ¬ (c.made + 1) * 1200 ≤ 3599 ∧ c.peak * 10 < ((2301 :: c.e1).take 10).sum ∧ ((2300 :: c.e1).take 10).sum ≤ c.peak * 10 ∧
       c.peak * 10 * 15 < 16 * ((2300 :: c.e1).take 10).sum) ∧
    8 * (([0] : List Nat).take 10).sum < Caps.reset.peak * 10 * 7 ∧ 8 * ([0] : List Nat).sum < Caps.reset.avg * 1000000 * 7 := by decide

theorem wit_PowerControlsMove_wave : waveOf (withW { wave0 with withheld := 192 }) 0 = some { wave0 with withheld := 192 } ∧ wave0.exempt = false ∧
    191 < 192 ∧ ({ wave0 with yielded := some { others := [], age := 1024 } } : Wave).yielded = some { others := [], age := 1024 } ∧
    wave0.yielded = none := by decide

def coreD (a b : Option Nat) : Core := { Core.init with stretch := a, halve := b }
def stD : State :=
  { State.reset with cores := [(252, coreD (some 0) none), (253, coreD none (some 0)), (254, coreD (some 3) none), (255, coreD none (some 9))] }

/-- Cluster 63 with a core in each phase, and cluster 0 with none in any. -/
theorem wit_DetectorsAndSensorsAct_droop : (∃ c ∈ [252, 253, 254, 255], c / 4 = 63 ∧ (coreOf stD c).stretch = none) ∧
    (∃ c ∈ [252, 253, 254, 255], c / 4 = 63 ∧ (coreOf stD c).stretch = some 0) ∧ (∃ c ∈ [252, 253, 254, 255], c / 4 = 63 ∧ (coreOf stD c).halve = some 0) ∧
    (∀ c ∈ [0, 1, 2, 3], (coreOf stD c).stretch ≠ some 0 ∧ (coreOf stD c).halve ≠ some 0) := by decide

def sliceX (det ops : Nat) (int : Int) (o : Nat) : Slice := { Slice.init with det := det, ops := ops, int := int, offs := [o, 0, 0, 0, 0, 0, 0, 0], lim := 15 }

/-- Integrals of exactly plus and minus 4 and just within them; offsets at both ends of the window; the sixteenth limited step. -/
theorem wit_DetectorsAndSensorsAct_slice : (∀ x ∈ [sliceX 5 1024 (2 ^ 20 - 2 ^ 40) 0, sliceX 4 1024 (2 ^ 20) 16, sliceX 0 1024 (2 ^ 20 - 4 * 2 ^ 40) 16, sliceX 0 1024 (2 ^ 20 + 1 - 4 * 2 ^ 40) 3],
      x.ops ≠ 0 ∧ x.since + 60000 ≤ 60000 ∧ Core.init.op < x.offs.length) ∧ Die.init.loopen = true ∧ Die.init.minoff ≤ Die.init.maxoff ∧
    (2 : BitVec 2) ≠ 3 ∧ Core.init.slices.length = 4 ∧ 59999 < 0 + 60000 := by decide

def smp (c : Bool) (n : Nat) (v : Int) : Sample := { die := 7, current := c, sensor := BitVec.ofNat _ n, value := v }

/-- The ends of both ranges and a step outside them, on sensors 31 and 7; sensor 8 has no current; the grid at its time and a tick before. -/
theorem wit_DetectorsAndSensorsAct_sample : (∀ x ∈ [smp true 7 0, smp true 7 4000, smp false 31 (-400), smp false 31 1500, smp true 7 (-1), smp false 31 1501],
      (x.current = false ∨ x.sensor.toNat < 8)) ∧ 8 ≤ (smp true 8 0).sensor.toNat ∧ (nearMean (sensorTab Die.init true) true 7).2 = 0 ∧
    (st0.grid + 1) * 12000 ≤ ({ st0 with now := 105 * 12000 } : State).now / 105 ∧ ({ st0 with now := 105 * 11999 } : State).now / 105 < (st0.grid + 1) * 12000 ∧
    (coreOf st0 0).shares ≠ [] ∧ (coreOf st0 1).shares = [] ∧ st0.launches = [(1, launch0)] ∧ launch0.st = .accepted := by decide

/-! ### Resets and the security processor -/

/-- A launch of the function and one of another; a body that is not resident on a die; a part in recovery and one after a fuse error. -/
theorem wit_ResetsAndFirmware : launchOf st0 1 = some launch0 ∧ launch0.vf = (1 : BitVec 4).toNat ∧ launch0.vf ≠ (2 : BitVec 4).toNat ∧
    launch0.die = (0 : BitVec 3).toNat ∧ resident stBody 1 = false ∧ ({ Sec.reset with stage := 1 } : Sec).stage = 1 ∧
    ({ Sec.reset with recov := true, stage := 3 } : Sec).stage ≠ 1 ∧ Sec.reset.recov = false ∧ Sec.reset.blown = false := by decide

/-- Each lifecycle state, a running command, the last function and one past it, the least good address bound and one below it, the magic
of 0x06, a body that can and one that cannot be stopped, a checkpoint whose bodies have all stopped. -/
theorem wit_SecurityCommands : Sec.reset.busy = false ∧ Sec.reset.stage ≠ 1 ∧ Sec.reset.lc = 1 ∧ (∀ lc ∈ [0, 3], ¬ (lc = 1 ∨ lc = 2)) ∧
    (15 : DWord).toNat ≤ 15 ∧ 15 < (16 : DWord).toNat ∧ Config.devSize + 4096 ≤ (BitVec.ofNat 64 (Config.devSize + 4096)).toNat ∧
    (BitVec.ofNat 64 (Config.devSize + 4095)).toNat < Config.devSize + 4096 ∧ tokenGood Sec.reset [] = false ∧
    (0x4445434F : DWord) ≠ 0 ∧ (6 : BitVec 8).toNat ≤ 6 ∧ 6 < (7 : BitVec 8).toNat ∧ st0.sec.ckpt = none ∧
    (∃ lid ∈ allBodies st0, canStop st0 lid = false) ∧ allBodies { st0 with dies := [(0, dieA)] } = [1] ∧
    (∀ lid ∈ allBodies { st0 with dies := [(0, dieA)] }, canStop { st0 with dies := [(0, dieA)] } lid = true) ∧
    ({ Sec.reset with ckpt := some (0, []) } : Sec).ckpt = some (0, []) ∧ launch0.stopping = false ∧ Sec.reset.blown = false ∧
    Memory.wf st0.mem = true ∧ Memory.wf st0.hostMem = true := by decide

/-! ### Further clauses of the statements -/

/-- A store finds an entry for its lines. -/
theorem wit_TranslationPlacesOrRecords_room : lateRoom (flight { load0 with kind := .store, pieces := [{ piece0 with data := [1, 2, 3, 4] }], dest := .none })
    { load0 with kind := .store, pieces := [{ piece0 with data := [1, 2, 3, 4] }], dest := .none } = true := by
  set_option maxRecDepth 10000 in decide

/-- A copy of the 64 bytes from address 0 whose page translates, does not, and whose address space has a word with bad check bits. -/
def copyT : Copy := { copy0 with lin := none, runs := [(0, 64)] }
theorem wit_TranslationPlacesOrRecords_copy :
    (let s := { inCopy copyT with feXlat := xl0, tren := true }
     accOf s 1 = none ∧ copyOf s 1 = some copyT ∧ copyT.faulted = false ∧ 0 / 4096 ∈ copyRegions copyT ∧ Tab.find copyT.pages (0 / 4096) = none ∧
       Tab.find copyT.fails (0 / 4096) = none ∧ (lookAt s 0 true 1 0 true false 0).1 = .at_ (Config.farBase + 8192)) ∧
    (lookAt (inCopy copyT) 0 true 1 0 true false 0).1 = .fault 6 ∧
    (lookAt { inCopy copyT with tren := true, ecc := [(Config.farBase + 128) / 32] } 0 true 1 0 true false 0).1 = .ecc := by
  set_option maxRecDepth 10000 in decide

/-- Nothing that moves has bad check bits; a buffer of a wave that is in its handler. -/
theorem wit_InboundCopiesMoveAndComplete_more : (∀ k, k < 64 → eccHit (inCopy copy0) (0x20000 + k) 1 = false) ∧ wave0.st ≠ .halted ∧ Reg.s 5 ∉ wave0.tainted ∧
    copy0.lin = some (0x10000, 0x20000) ∧ copy0.fails = [] ∧ copy0.todo = [(0, 64)] ∧ copy0.runs = [(0x10000, 64)] ∧ copy0.dreg = .s 5 ∧
    (let s := { inCopy cast0 with cores := [(0, { core0 with shares := [(1, { share0 with landbusy := 1 })] })], waves := [(0, sup0)] }
     (lowestWave s 0 1).isSome = true ∧ ownerOf s 0 1 (lowBit ((shareOf s 0 1).landbusy &&& buffers cast0.loff cast0.len)) = some 0 ∧ waveOf s 0 = some sup0 ∧ sup0.sup = true) := by
  set_option maxRecDepth 10000 in decide

/-- The push and the pop of a stream whose bytes can move; a ring that is full, and one with a push lodged. -/
def lodged0 : Lodged := { len := 4, tag := 7, bytes := [1, 2, 3, 4] }
theorem wit_StreamsIssueAndMove_bytes : Tab.find (inStream stream0).streams 1 = some stream0 ∧ stream0.todo = none ∧ stream0.lodged = [] ∧ push0.fixed = true ∧
    0 < push0.len ∧ push0.dreg = .s 5 ∧ wave0.st ≠ .halted ∧
    (let s := { strW popW with pops := [(8, pop0)] }
     popReady s 0 = some (8, pop0, stream0, popW) ∧ popW.st ≠ .halted ∧ pop0.slot = none ∧ popW.wait = some { waitG with on := .mspop 8 } ∧
       waitG.also = none) ∧
    ({ stream0 with lodged := [lodged0] } : Stream).lodged ≠ [] ∧
    (let s := { inStream { stream0 with inUse := 2 } with now := 120000 * 105 }
     Tab.find s.streams 1 = some { stream0 with inUse := 2 } ∧ 2 ≤ ({ stream0 with inUse := 2 } : Stream).inUse ∧ push0.since + 120000 ≤ s.now / 105) := by
  set_option maxRecDepth 10000 in decide

theorem wit_TileAccessesComplete_clean : (∀ p ∈ tldA.pieces, eccLoad (inTile tldA) 1 tldA p.va (p.pa.getD 0) p.size = false) ∧
    wave0.st ≠ .halted ∧ waveOf (stPil (.zero (.acc 15)) 1 1) 0 = some wave0 := by
  set_option maxRecDepth 20000 in decide

theorem wit_TokenFetchAndRefill_general : launchOf (imgS []) wave0.lid = some launch0 ∧ imageOf launch0 wave0.sup = some img0 ∧
    (∃ o ∈ (coreOf stMiss 0).ostler, canInstall stMiss 0 o.1.lid = true) := by decide

theorem wit_ResultsLandAndRecordsTrap_more : heldNow (withW landW) 0 landW = false := by decide

theorem wit_PartiesArePlacedAndRetire_more : img0.hdr.constLen = 0 ∧ slotsRest (withW exitW) 0 exitW = true ∧ (0 : Nat) / 32 = launchP.die ∧
    fitsCore { stPlace { launchP with placed := 0 } with waves := [], parties := [], cores := [], convoys := [] } 1 { launchP with placed := 0 } 0 = true := by
  set_option maxRecDepth 20000 in decide

/-- A wave whose number the counter had reached before it came back to its wait; a gate wait that is stopping. -/
theorem wit_WaitsEndTollsRefill_more :
    (let s : State := { withW (waiter (.mwait 7 3)) with parties := [(65536, msPty [])] }
     (msOf (msPty []) (7 : BitVec 3).toNat).count + 1 ∉ (msOf (msPty []) (7 : BitVec 3).toNat).done ∧
       msWaiters s (65536 / 65536) (65536 % 65536) (7 : BitVec 3).toNat 3 = [(0, waiter (.mwait 7 3))]) ∧
    (waiter (.gwait 63 5)).stopping = none ∧ ({ waiter (.gwait 63 5) with stopping := some 0 } : Wave).stopping ≠ none := by decide

/-- A safe-point bundle of one SADD, resident: what the wave stops at. A bundle without SP, and one whose wave waits for a register. -/
def safeWord : Nat := oneWord + 2
def stSafe (n : Nat) (w : Wave) : State :=
  { withW w with cores := [(0, { core0 with dtab := [{ key := { lid := 1, hand := false, idx := 0 }, word := n, pins := [] }] })] }
def tokS : Fetched := { tok0 with mask := some 0xFFFFFFFF00000000 }

theorem wit_BodiesStopAndResume_point : nextBundle (stSafe safeWord safeW) 0 safeW = some (tokS, bundleOf safeWord) ∧ tokenBad tokS (bundleOf safeWord) = false ∧
    tokS.mask = some 0xFFFFFFFF00000000 ∧ heldNow (stSafe safeWord safeW) 0 safeW = false ∧ storeRec safeW = false ∧
    stopDrained (stSafe safeWord safeW) 0 safeW = true ∧ stopDrained { stSafe safeWord safeW with acc := [(1, load0)] } 0 safeW = false ∧
    tokenBad tokS (bundleOf oneWord) = true ∧
    (let w := { safeW with busy := [{ reg := .s 4, by_ := 9 }] }
     heldNow (stSafe safeWord w) 0 w = true) ∧
    (∀ x, (waitW true).wait = some x → popEnds (withW (waitW true)) x = false) ∧ storeRec { waitW true with recs := recS.recs, count := 1 } = true := by
  refine ⟨by decide, by decide, rfl, by decide, by decide, by decide, by decide, by decide, by decide, ?_, by decide⟩
  intro x h; cases h; rfl

theorem wit_BreakpointsAndHalts_held : heldNow { st0 with sec := secDbg } 0 wave0 = false ∧ wave0.st = .running ∧
    (let w := { wave0 with tok := some tok0, busy := [{ reg := .s 4, by_ := 9 }] }
     heldNow (stSafe oneWord w) 0 w = true) := by decide

/-- The queue of the packet is the Steward's next; one before it in the round is not ready. -/
theorem wit_PacketsSignalAndReport_turn : inTurn (stPkt (pktCells 9 []) (queueP 0 0)) 64 = true ∧
    inTurn { stPkt (pktCells 9 []) (queueP 0 0) with queues := [(64, queueP 0 0), (67, { queueP 0 0 with head := 1 })], funcs := [(1, { Func.init with turn := 1 })] } 64 = true ∧
    inTurn (stLaunch (launchCells 0 1 7 0 0) 1) 64 = true := by
  set_option maxRecDepth 20000 in decide

/-- A gate that its last change has let no wave pass; one that the Steward has raised in this very cycle. -/
theorem wit_PacketsSignalAndReport_raised : gateSettled (stPkt [] (queueP 0 0)) (64 * 64 + 63) = true ∧
    gateSettled { stPkt [] { queueP 0 0 with gates := [(63, 1)] } with waves := [(0, waiter (.gwait (64 * 64 + 63) 1))] } (64 * 64 + 63) = false ∧
    Tab.find ({ queueP 0 0 with raised := [(63, 7, 4, 5)] } : Queue).raised 63 = some ((stPkt [] (queueP 0 0)).now / 105, 4, 5) := by
  set_option maxRecDepth 20000 in decide

/-- Boot has ended, has not, and in recovery; the area of a halted wave that the debugger reaches. -/
theorem wit_HostWrites_answers : answers st0 = true ∧ answers { st0 with sec := { Sec.reset with stage := 4 } } = false ∧
    answers { st0 with sec := { Sec.reset with recov := true } } = false ∧ biasStores st0 (biasWith st0 15 1) = [] ∧
    (let s := { withW { wave0 with st := .halted } with dies := [(0, dieA)], sec := secDbg }
     inHaltedArea s (Config.nearBase 0 + Config.ctxBase) 4 = true ∧ inHaltedArea s (Config.nearBase 0 + Config.ctxBase + 32768) 4 = false) := by
  set_option maxRecDepth 10000 in decide

/-- SECSTAT after boot, FWCTL while a push of three pages runs, the head of the list and its last entry as a host reads them (R10, R264, R302). -/
theorem test_host_reads : hostRead { st0 with sec := { Sec.reset with go := some (0, 3), len := 3, result := 2 } } none 7 0x18 = some (BitVec.ofNat 64 (2 * 2 ^ 32 + 7)) ∧
    hostRead { st0 with sec := { Sec.reset with recov := true } } none 5 0 = none := by
  set_option maxRecDepth 10000 in decide

theorem wit_PowerControlsMove_fill : (∀ c ∈ [coreP, { coreP with fillFor := some (1, 0) }], c.fillFor = c.tile ∨ c.fillFor ≠ c.tile) ∧ coreP.lastKind ≠ 0 ∧
    coreP.filling = none ∧ arrayWork coreP = false ∧ ({ coreP with fillFor := some (1, 0) } : Core).fillFor ≠ coreP.tile ∧ pilotPaused st0 0 = false := by decide

/-- A slice that runs undervolted and one that is held; each with slice-operations. -/
theorem wit_DetectorsAndSensorsAct_runs :
    (let s := { stTile with cores := [(0, { tileCore with slices := [sliceX 5 1024 0 0, { sliceX 5 1024 0 0 with held := some (1, 0) }, Slice.init, Slice.init] })], launches := [(1, { launch0 with level := 0 })] }
     0 ∈ undervolted s 0 (tileLevel s 0) ∧ 1 ∉ undervolted s 0 (tileLevel s 0)) := by decide

theorem wit_ResetsAndFirmware_push : ({ Sec.reset with recov := true, stage := 3, go := some (0, 1) } : Sec).go = some (0, 1) ∧ Sec.reset.go = none ∧
    firmwareGood { Sec.reset with blown := true } [] = false := by decide

/-! ### Further witnesses: aliases, whole queues of records, copies and streams that go on, several waiters, areas -/

/-- A store of the wave's launch to location 128 through another address, without ALIAS. -/
def otherOrg : Origin :=
  { Origin.device with
    by_ := some { key := 0, id := { lid := 1, party := 0, num := 0 } }
    via := some { asid := 1, delta := 64, isAlias := false, paged := false } }
def otherVia : Commit := { seq := 1, loc := 128, old := 0, new := 1, org := otherOrg, fenced := false }

/-- Accesses at a location that is reachable through one address, and through two. -/
theorem wit_ReadsAndStoresOfAliases : ∀ n ∈ [4, 8], brokenAlias (flight ldP) (accVia ldP 0 128) 128 n = false ∧
    brokenAlias { flight ldP with hist := [otherVia], commits := 1 } (accVia ldP 0 128) 128 n = true ∧
    loadReady { flight ldP with hist := [otherVia], commits := 1 } 1 ldP { placed0 with lane := 31 } = true ∧
    commitReady { flight str with hist := [otherVia], commits := 1 } 1 str stP = true ∧
    atomReady { flight (atA .cas 8) with hist := [otherVia], commits := 1 } 1 (atA .cas 8) = true := by
  set_option maxRecDepth 20000 in decide

/-- A wave with another access's record in slot 63 as its newest; a tile load and a tile store, both of a page that does not translate. -/
def recO : Wave := { wave0 with recs := [(63, { rec0 with acc := 9 })], head := 63, count := 1 }
theorem wit_TranslationPlacesOrRecords_tile : ∀ a ∈ [load0, { load0 with kind := .tload, slot := 6, dest := .slot 2 .bf16 false, pieces := [{ piece0 with size := 128 }] },
      { load0 with kind := .tstore, slot := 6, dest := .slot 1 .bf16 false, pieces := [{ piece0 with size := 128 }] }],
    (let s := { flight a with waves := [(0, recO)] }
     accOf s 1 = some a ∧ waveOf s a.wid = some recO ∧ recO.count < 64 ∧ (∀ e ∈ recO.recs, e.2.acc ≠ 1) ∧ (isStore a.kind = true → lateRoom s a = true) ∧
       (recO.head + recO.count) % 64 = 0 ∧ ∀ p ∈ a.pieces, a.pieces = [p] ∧ unlooked p = true ∧ lineHeld s 1 a (isStore a.kind) p = false ∧
       (lookAt s 0 a.far a.asid a.cls (accRd a.kind) (accWr a.kind) p.va).1 = .fault 6) := by
  set_option maxRecDepth 20000 in decide

/-- A record that stands in the wave's area. -/
theorem wit_ReplayAndInvpg_written : (let r := { rec0 with loc := some 64 }
    let w := { supR with recs := [(0, r)] }
    let s : State := { withW w with acc := [(1, { load0 with pieces := [{ piece0 with fault := some 2 }] })], feXlat := xl0, tren := true }
    Issues (.replay (.imm 0)) s w ∧ Tab.find w.recs 0 = some r ∧ r.copy = false ∧ (accOf s 1).isSome = true ∧ recPage r 0 = piecePage load0 piece0 ∧ w.more = [] ∧
      (lookAt s 0 true 1 0 true false 0).1 = .at_ (Config.farBase + 8192)) ∧
    (∀ e ∈ (withW sup0).acc, isStore e.2.kind = true → e.2.scope.isPlain = true → e.2.loc = true ∨ e.2.direct = true ∨ ∀ p ∈ e.2.pieces, p.done = true) := by
  unfold Issues Issuing; set_option maxRecDepth 10000 in decide

/-- A copy with 8 of its bytes left and one of its last byte, to either kind of status register; a slot copy that has been drained; a multicast
that is over. -/
theorem wit_InboundCopiesMoveAndComplete_left : ∀ c ∈ [{ copy0 with todo := [(4, 4), (60, 4)] }, { copy0 with todo := [(63, 1)], dreg := .h 7 },
      { copy0 with kind := .outSlot, todo := [(0, 1)], drained := true }],
    copyOf (inCopy c) 1 = some c ∧ c.faulted = false ∧ (c.kind = .outSlot → c.drained = true) ∧ movable c ≠ [] ∧ 0 < (numbers c.todo).length ∧
    (∀ r ∈ c.todo, 0 < r.2) ∧ (∀ k ∈ numbers c.todo, k < c.len) ∧
    (let d := { cast0 with targets := [{ target0 with done := true }, { target0 with pos := 3, done := true, refused := true }] }
     copyOf (inCopy d) 1 = some d ∧ (∀ x ∈ d.targets, x.done = true) ∧ d.todo = []) := by
  set_option maxRecDepth 10000 in decide

/-- A push with its last byte left, and pops that have acquired their slot, one with a byte left and one with none. -/
theorem wit_StreamsIssueAndMove_left :
    (let x := { stream0 with todo := some [(3, 1)] }
     Tab.find (inStream x).streams 1 = some x ∧ x.todo.getD [(0, push0.len)] = [(3, 1)] ∧ 0 < (numbers [(3, 1)]).length ∧
       (∀ k ∈ numbers [(3, 1)], k < push0.len) ∧ Tab.find (inStream x).bodies push0.lid = none) ∧
    (∀ p ∈ [{ pop0 with slot := some 0, took := { RSlot.init with full := true, len := 4, tag := 7 }, todo := [(3, 1)] }, { pop0 with slot := some 0, dreg := .h 0 }],
      let s := { strW wave0 with pops := [(8, p)] }
      popReady s 0 = some (8, p, stream0, wave0) ∧ wave0.st ≠ .halted ∧ p.slot = some 0 ∧ (∀ r ∈ p.todo, 0 < r.2) ∧ eccHit s (0x40000 + 0 * 4096) p.len = false) := by
  set_option maxRecDepth 10000 in decide

theorem wit_ResultsLandAndRecordsTrap_raises : raisesNow (withW recW) 0 recW = false ∧ raisesNow (withW landW) 0 landW = false ∧ landW.st = .running := by decide

theorem wit_PartiesArePlacedAndRetire_raise : (queueOf (stPlace launchP) (queueOfLaunch launchP)).base ≤ 1 ∧
    (let l := { doneL 0 with st := .complete, p := { (doneL 0).p with flags := 0x50 } }
     (queueOf (stPlace l) (queueOfLaunch l)).base ≤ 1 ∧ l.st ≠ .accepted ∧ l.raised = false ∧ l.p.flags.getLsbD 6 = true ∧ earlierDone (stPlace l) 1 l = true) := by
  decide

/-- Two waves in one BAR, one of them still to arrive in the next phase; one that waits for a phase that is over; two that wait for one number. -/
def waiterR (o : WaitOn) (b : Bool) : Wave := { waiter o with num := 1, wait := some { waitG with on := o, rearm := some b, also := none, since := 0 } }
theorem wit_WaitsEndTollsRefill_several :
    (let c : Convoy := { conv0 with members := [(0, 0), (0, 1)], reported := [(0, 0), (0, 1)], phase := 1 }
     let s : State := { stConv wave0 c with waves := [(0, waiter (.bar 0 1)), (1, waiterR (.bar 0 1) false)] }
     Tab.find s.convoys 0 = some c ∧ lateWaiters s 0 c.phase = [] ∧ phaseFull c = true ∧ c.reported ≠ [] ∧
       (barWaiters s 0 c.phase).map (·.1) = [0, 1] ∧ TabOk s.waves ∧
       (let l : State := { s with waves := [(0, waiter (.bar 0 0)), (1, waiterR (.bar 0 0) true)] }
        (lateWaiters l 0 c.phase).map (·.1) = [0, 1])) ∧
    (let s : State := { withW (waiter (.mwait 7 5)) with waves := [(0, waiter (.mwait 7 5)), (1, { waiter (.mwait 7 4) with num := 1 })], parties := [(65536, msPty [5, 4, 7])] }
     (msWaiters s (65536 / 65536) (65536 % 65536) (7 : BitVec 3).toNat 5).map (·.1) = [0, 1] ∧ TabOk s.waves) := by
  unfold TabOk; decide

/-- Areas of a body that do not overlap: its wave's at the low end of the region and its core's 41 MiB below the high end. -/
theorem wit_BodiesStopAndResume_areas : TabOk (stStop launchS stoppedW).waves ∧ coresOf (stStop launchS stoppedW) 1 = [0] ∧
    waveArea (stStop launchS stoppedW) 0 stoppedW = some (Config.nearBase 0 + Config.ctxBase) ∧
    coreArea (stStop launchS stoppedW) 0 1 = some (Config.nearBase 0 + Config.ctxBase + Config.ctxSize - 0x100000 * 41) ∧
    Config.nearBase 0 + Config.ctxBase + 0x8000 ≤ Config.nearBase 0 + Config.ctxBase + Config.ctxSize - 0x100000 * 41 ∧
    (shareOf (stStop launchS stoppedW) 0 1).units ≤ 128 ∧ (coreOf (stStop launchS stoppedW) 0).images = [] ∧ (coreOf st0 0).tile = some (1, 0) ∧
    stoppedW.stopping.getD allLive = 0xFFFFFFFFFFFFFFFF ∧ Tab.find stoppedW.a 0 = some { val := Lanes.all 0, und := 0 } := by
  unfold TabOk; decide

/-- The address 0 that the stored packet names holds 0, and its condition is at least 0 or exactly 0. -/
theorem wit_PacketsSignalAndReport_poll : (pollQ 7).poll = some (7, List.replicate 64 0) ∧ (queueOf (stPkt [] (pollQ 7)) (qKey qid0)).st = .running ∧
    LiesAt (stPkt [] (pollQ 7)) 1 (leNat ((List.replicate 64 (0 : Byte)).drop 8 |>.take 8)) 8 (Config.farBase + 8192) true false := by
  unfold LiesAt; set_option maxRecDepth 10000 in decide

/-- The Pilot told to stop, standing between two quarters of an operation, and within one. -/
theorem wit_PowerControlsMove_rest :
    (let s : State := { stStop launchS { wave0 with stopping := some 0 } with cores := [(0, { tileCore with pilot := [pil (.zero (.acc 0)) 128 64], lastKind := 12 })] }
     pilotPaused s 0 = true ∧ pilotAtRest (coreOf s 0) = true ∧ pilotAtRest { tileCore with pilot := [pil (.zero (.acc 0)) 128 63] } = false) := by
  decide

/-- A launch that is over and one that is not, with traffic of a pending push and without any. -/
theorem wit_DetectorsAndSensorsAct_charge : (∀ l ∈ [launch0, { launch0 with st := .complete, drew := true }], ({ st0 with launches := [(1, l)] } : State).launches = [(1, l)]) ∧
    (∃ x ∈ (inStream stream0).streams, ∃ p ∈ x.2.pend, p.lid = 1) ∧ st0.streams = [] := by
  decide

theorem wit_TileAccessesComplete_alias : ∀ p ∈ tldA.pieces, brokenAlias (inTile tldA) (accVia tldA p.va (p.pa.getD 0)) (p.pa.getD 0) p.size = false := by
  set_option maxRecDepth 20000 in decide
end Sys2Proof.Tests
end

/-! PROOF. What bytes of memory read as after a write, that canonical memories which read alike are equal (R5, R6), and a host access that
writes a plain store back before it is served (R298). -/

namespace Sys2Proof.Machine

/-! ### Bytes of memory (R5, R6) -/

theorem getByte_cons (a : Nat) (v : Byte) (m : List Host.Cell) (x : Nat) :
    getByte ((a, v) :: m) x = if a = x then v else getByte m x := by
  unfold getByte Tab.findD
  simp only [Tab.find]
  split <;> rfl

/-- A write leaves every byte outside it. -/
theorem getByte_putBytes_outside : ∀ (bs : List Byte) (m : List Host.Cell) (a x : Nat), x < a ∨ a + bs.length ≤ x →
    getByte (putBytes m a bs) x = getByte m x
  | [], _, _, _, _ => rfl
  | v :: bs, m, a, x, h => by
    rw [List.length_cons] at h
    rw [putBytes, getByte_putBytes_outside bs _ (a + 1) x (by omega), getByte_putByte, if_neg (by omega)]

/-- What was written reads back in its order. -/
theorem getBytes_putBytes_same : ∀ (bs : List Byte) (m : List Host.Cell) (a : Nat), getBytes (putBytes m a bs) a bs.length = bs
  | [], _, _ => rfl
  | v :: bs, m, a => by
    have first : getByte (putBytes (putByte m a v) (a + 1) bs) a = v := by
      rw [getByte_putBytes_outside bs _ (a + 1) a (by omega), getByte_putByte, if_pos rfl]
    rw [putBytes, List.length_cons, getBytes, first, getBytes_putBytes_same bs _ (a + 1)]

/-! ### The canonical form -/

theorem cellsFrom_cons {n a : Nat} {v : Byte} {m : List Host.Cell} :
    cellsFrom n ((a, v) :: m) = true ↔ n ≤ a ∧ v ≠ 0 ∧ cellsFrom (a + 1) m = true := by
  simp [cellsFrom, and_assoc]

/-- Below its bound a canonical memory lists nothing. -/
theorem getByte_below : ∀ {m : List Host.Cell} {n x : Nat}, cellsFrom n m = true → x < n → getByte m x = 0
  | [], _, _, _, _ => rfl
  | (a, v) :: m, n, x, hm, hx => by
    obtain ⟨hna, -, hm⟩ := cellsFrom_cons.1 hm
    rw [getByte_cons, if_neg (by omega), getByte_below hm (by omega)]

/-- Of two canonical memories that read alike the first entry of one lies no higher than that of the other, which would read 0 there. -/
theorem first_le_of_reads_alike {n k a b : Nat} {v w : Byte} {m m' : List Host.Cell} (hm : cellsFrom n ((a, v) :: m) = true)
    (hm' : cellsFrom k ((b, w) :: m') = true) (h : ∀ x, getByte ((a, v) :: m) x = getByte ((b, w) :: m') x) : b ≤ a := by
  obtain ⟨-, hv, -⟩ := cellsFrom_cons.1 hm
  obtain ⟨-, hw, hm'⟩ := cellsFrom_cons.1 hm'
  by_contra hab
  have from_b : cellsFrom b ((b, w) :: m') = true := cellsFrom_cons.2 ⟨Nat.le_refl b, hw, hm'⟩
  exact hv (by simpa [getByte_cons a, getByte_below from_b (Nat.lt_of_not_le hab)] using h a)

/-- A canonical memory that reads 0 everywhere lists nothing. -/
theorem eq_nil_of_reads_zero {n : Nat} : ∀ {m : List Host.Cell}, cellsFrom n m = true → (∀ x, getByte m x = 0) → m = []
  | [], _, _ => rfl
  | (a, v) :: m, hm, h => by
    obtain ⟨-, hv, -⟩ := cellsFrom_cons.1 hm
    exact absurd (by simpa [getByte_cons] using h a) hv

/-- Canonical memories are equal where they read alike. -/
theorem cellsFrom_ext : ∀ {m m' : List Host.Cell} {n k : Nat}, cellsFrom n m = true → cellsFrom k m' = true →
    (∀ x, getByte m x = getByte m' x) → m = m'
  | [], _, _, _, _, hm', h => (eq_nil_of_reads_zero hm' fun x => (h x).symm).symm
  | _ :: _, [], _, _, hm, _, h => eq_nil_of_reads_zero hm h
  | (a, v) :: m, (b, w) :: m', n, k, hm, hm', h => by
    have hab : a = b := Nat.le_antisymm (first_le_of_reads_alike hm' hm fun x => (h x).symm) (first_le_of_reads_alike hm hm' h)
    subst hab
    have hvw : v = w := by simpa [getByte_cons] using h a
    obtain ⟨-, -, hm⟩ := cellsFrom_cons.1 hm
    obtain ⟨-, -, hm'⟩ := cellsFrom_cons.1 hm'
    have rest : ∀ x, getByte m x = getByte m' x := fun x => by
      by_cases hx : a = x
      · rw [getByte_below hm (by omega), getByte_below hm' (by omega)]
      · simpa [getByte_cons, hx] using h x
    rw [hvw, cellsFrom_ext hm hm' rest]

/-- Settles O42: the written bytes by induction along them, the equality of canonical memories along their entries. -/
theorem memoryReadAfterWrite : Obligations.MemoryReadAfterWrite := by
  unfold Obligations.MemoryReadAfterWrite
  intro m m' a bs hm
  exact ⟨getBytes_putBytes_same bs m a, Memory.wf_putBytes bs a hm, fun x hx => getByte_putBytes_outside bs m a x hx,
    fun hm' h => cellsFrom_ext hm hm' h⟩

/-! ### A host access writes plain stores back (R298) -/

/-- A host write within far memory is served once boot has ended (R298, R300). -/
theorem exec_hostMemAccess_far_write {s : State} {a : HostAcc} (hstage : s.sec.stage = 5) (hrecov : s.sec.recov = false)
    (hw : a.write = true) (hfar : a.addr + a.data.length ≤ Config.farSize) : exec (.hostMemAccess a) s = .next (bump (hostAccess s a)) := by
  have hans : answers s = true := by simp [answers, hstage, hrecov]
  change execHostMemAccess a s = _
  simp [execHostMemAccess, hans, hw, hfar, done]

/-- A plain store of one byte to a pageable segment of far memory, which its core's L1 still holds and which has not been translated. -/
def waitingStore : Acc :=
  { wid := 0, sup := false, loc := false, lid := 1, core := 0, party := 0, num := 0, asid := 1, kind := .store, addr := 0, slot := 5,
    opcode := 4, seg := 0, widCode := 0, scope := .wave, ord := .relaxed, seq := 1, far := true, pageable := true, direct := false, l1 := true,
    sent := false, cls := 0,
    pieces := [{ lane := 0, va := 0, size := 1, pa := none, fault := none, data := [7], cmp := [], val := [], done := false }],
    dest := .none, ret := false, epoch := none, rel := none, view := { clock := [], low := [] }, born := 0, asdt := none, resolved := false,
    held := false, unrecorded := false, watch := 0, deadline := 0, ms := none, step := 0, accepted := false }

/-- The part after its boot order, with the wave that issued the store; TRBASE.EN is 0, so that no address translates (R184). -/
def storeInL1 : State :=
  { State.reset with waves := [(0, { Wave.init with lid := 1, seq := 1 })], acc := [(1, waitingStore)], nextId := 2 }

/-- A host write of the first byte of far memory. -/
def hostByte : HostAcc := { addr := 0, len := 1, data := [1], write := true }

/-- The write-back translates the store, which faults: its wave gets a fault record (R193, R199). -/
theorem hostAccess_records_fault : (waveOf storeInL1 0).map (·.count) = some 0 ∧
    (waveOf (hostAccess storeInL1 hostByte) 0).map (·.count) = some 1 := by decide

/-- Refutes O56: a host write of far memory need not leave the waves as they were. It first has plain stores written back whose place is not
known yet, and one whose page does not translate queues a fault record at its wave. -/
theorem not_hostWrites : ¬ Obligations.HostWrites := by
  unfold Obligations.HostWrites
  rintro ⟨-, h⟩
  obtain ⟨haccess, -⟩ := h storeInL1
  obtain ⟨hwrite, -⟩ := haccess hostByte rfl rfl
  have hfar : hostByte.addr + hostByte.data.length ≤ Config.farSize := by decide
  obtain ⟨t, ht, hwaves, -⟩ := hwrite rfl hfar
  rw [exec_hostMemAccess_far_write rfl rfl rfl hfar] at ht
  cases ht
  have hkept : waveOf (hostAccess storeInL1 hostByte) 0 = waveOf storeInL1 0 := congrArg (Tab.find · 0) hwaves
  obtain ⟨hbefore, hafter⟩ := hostAccess_records_fault
  rw [hkept, hbefore] at hafter
  exact absurd hafter (by decide)

end Sys2Proof.Machine

/-! PROOF. What SRD reads and SWR writes, register by register (R96, R360, R364). -/

namespace Sys2Proof.Machine

/-! ### The issue of SRD and SWR -/

theorem scoreHeld_of_allBack {i : Instr} {w : Wave} (hr : AllBack w (readsOf i)) (hw : AllBack w (writesOf i)) : scoreHeld i w = false := by
  simp only [scoreHeld, Bool.or_eq_false_iff, List.any_eq_false, Bool.not_eq_true]
  exact ⟨hr, hw⟩

/-- An access to a special register makes no memory, copy or tile access: only its registers, its privilege and the log can keep it back. -/
theorem issues_special {i : Instr} {s : State} {w : Wave} (hspecial : (∃ f, i = .srd f) ∨ ∃ f, i = .swr f) (hi : Issuing s w)
    (hscore : scoreHeld i w = false) (hpriv : privTrap i w = false) (hlog : scalarHold i s s.cur.wid w = false) : Issues i s w := by
  obtain ⟨f, rfl⟩ | ⟨f, rfl⟩ := hspecial
  all_goals
    refine ⟨hi, hscore, ?_, ?_, rfl⟩
    · simp [issueTrap, isTile, hpriv, allotBad, readsOf, writesOf, overAllot, sR, copyClass, memReq]
    · simp [holds, interlocks, hscore, hlog, memHold, memReq, isTile, slotWaits, slotReads, slotFills, isPublish, tollStops, tollWaits, tileReq]

/-- SRD of a register that the wave's mode lets it read leaves what the register reads as an exposed result with bound 1. -/
theorem exec_srd {s : State} {w : Wave} {d : BitVec 6} {n : BitVec 8} (hi : Issuing s w) (hb : AllBack w [sR d])
    (hmode : srdPriv n.toNat = false ∨ w.sup = true) (hlog : n.toNat ∉ [0x10, 0x11, 0x12] ∨ logHeld s s.cur.wid w = false) :
    exec (.srd ⟨d, n⟩) s = .next (issued s w (sWrite w.sup d.toNat (specialRead s s.cur.wid w n.toNat)) 1) := by
  have hscore : scoreHeld (.srd ⟨d, n⟩) w = false := scoreHeld_of_allBack (fun _ h => nomatch h) hb
  have hpriv : privTrap (.srd ⟨d, n⟩) w = false := by
    obtain h | h := hmode <;> simp [privTrap, h]
  have hheld : scalarHold (.srd ⟨d, n⟩) s s.cur.wid w = false := by
    simp only [scalarHold, Bool.and_eq_false_iff, decide_eq_false_iff_not]
    exact hlog
  exact slotOp_issues (issues_special (.inl ⟨_, rfl⟩) hi hscore hpriv hheld)

/-- SWR of a register that the wave's mode lets it write. -/
theorem exec_swr {s : State} {w : Wave} {a : BitVec 6} {n : BitVec 8} (hi : Issuing s w) (hb : AllBack w [sR a])
    (hmode : swrPriv n.toNat = false ∨ w.sup = true) :
    exec (.swr ⟨a, n⟩) s = .next (bump (specialWrite s s.cur.wid w n.toNat (rdS s w (tagOf 0 0) a.toNat))) := by
  have hscore : scoreHeld (.swr ⟨a, n⟩) w = false := scoreHeld_of_allBack hb fun _ h => nomatch h
  have hpriv : privTrap (.swr ⟨a, n⟩) w = false := by
    obtain h | h := hmode <;> simp [privTrap, h]
  exact slotOp_issues (body := fun wid w s => specialWrite s wid w n.toNat (rdS s w (tagOf 0 0) a.toNat))
    (issues_special (.inr ⟨_, rfl⟩) hi hscore hpriv rfl)

/-! ### The words of the special registers -/

/-- `role` of a wave whose party is placed (R29). -/
theorem roleWord_eq {s : State} {w : Wave} {p : Party} (hp : partyOf s w.lid w.party = some p) :
    roleWord s w = BitVec.ofNat 64 (w.role + (if p.prod then 2 ^ 8 else 0) + (if p.prod then p.waves - 1 else p.waves) * 2 ^ 16 +
      w.aAllot * 2 ^ 32 + w.bAllot * 2 ^ 40) := by
  simp only [roleWord, hp, show (2 : Nat) ^ 8 = 256 from rfl]
  congr 1; omega

/-- `thrstat` (R290). -/
theorem thrWord_eq (s : State) (c : Nat) :
    thrWord s c = BitVec.ofNat 64 (matrixStep s c + (coreOf s c).ramp * 2 ^ 3 + (coreOf s c).allow * 2 ^ 6 +
      (if (coreOf s c).halve.isSome then 2 ^ 9 else 0) + (if s.caps.f < 256 then 2 ^ 10 else 0) +
      (if (dieOf s (dieOfCore c)).held then 2 ^ 11 else 0) + (coreOf s c).whled.toNat * 2 ^ 16) := by
  unfold thrWord
  congr 1; omega

/-- `oppstat` of a wave whose launch stands (R286). -/
theorem oppWord_eq {s : State} {w : Wave} {l : Launch} (wid : Nat) (hl : launchOf s w.lid = some l) :
    oppWord s wid w = BitVec.ofNat 64 ((coreOf s (coreNo wid)).op + (shareOf s (coreNo wid) w.lid).req * 2 ^ 3 + (granted s l).1 * 2 ^ 6 +
      (granted s l).2 * 2 ^ 9 + (if (coreOf s (coreNo wid)).trans.isSome then 2 ^ 12 else 0) + (if w.denied then 2 ^ 13 else 0) +
      w.dencnt.toNat * 2 ^ 16) := by
  simp only [oppWord, hl]
  congr 1; omega

/-- `fidelity` of a wave whose launch stands (R170). -/
theorem fidelWord_eq {s : State} {w : Wave} {l : Launch} (hl : launchOf s w.lid = some l) :
    fidelWord s w = BitVec.ofNat 64 (l.level + l.asked * 2 ^ 2 + l.img.hdr.fidelity % 4 * 2 ^ 4 + l.floor * 2 ^ 6) := by
  simp only [fidelWord, hl]
  congr 1; omega

/-- `stallr` (R295). -/
theorem stallWord_eq (c : Core) : stallWord c = BitVec.ofNat 64 (c.stallMem.toNat + c.stallIssue.toNat * 2 ^ 16 + c.stallSeq.toNat * 2 ^ 32) := by
  unfold stallWord
  congr 1; omega

/-- `droopth` (R294). -/
theorem droopWord_eq (c : Cluster4) : droopWord c = BitVec.ofNat 64 (c.thresh.toNat + c.alarms.toNat * 2 ^ 8) := by
  unfold droopWord
  congr 1; omega

/-- `landbusy` gives the bits of the region's units and no others (R234). -/
theorem landWord_eq (s : State) (wid : Nat) (w : Wave) :
    landWord s wid w = BitVec.ofNat 64 ((shareOf s (coreNo wid) w.lid).landbusy.toNat % 2 ^ (shareOf s (coreNo wid) w.lid).units) := by
  apply BitVec.eq_of_getLsbD_eq
  intro i hi
  simp only [landWord, landMask, BitVec.getLsbD_and, BitVec.getLsbD_ofNat, Nat.testBit_two_pow_sub_one, Nat.testBit_mod_two_pow, hi, decide_true,
    Bool.true_and, BitVec.testBit_toNat, Bool.and_comm]

theorem shareOf_modShare (s : State) (c lid : Nat) (f : Share → Share) : shareOf (modShare s c lid f) c lid = f (shareOf s c lid) := by
  simp [shareOf, modShare, coreOf_modCore, Tab.findD_put]

theorem clearLand_landbusy (s : State) (wid : Nat) (w : Wave) (v : DWord) :
    (shareOf (clearLand s wid w v) (coreNo wid) w.lid).landbusy = (shareOf s (coreNo wid) w.lid).landbusy &&& ~~~v :=
  congrArg Share.landbusy (shareOf_modShare s (coreNo wid) w.lid _)

/-- A milestone counter of the wave's party (R219). -/
theorem msWord_eq {s : State} {w : Wave} {p : Party} (n : Nat) (hp : partyOf s w.lid w.party = some p) :
    msWord s w n = BitVec.ofNat 64 (msOf p n).count := by
  simp only [msWord, hp]

/-- SRD 0x20 + n reads milestone counter n (R96). -/
theorem specialRead_milestone (s : State) (wid : Nat) (w : Wave) : ∀ n < 8, specialRead s wid w (0x20 + n) = msWord s w n
  | 0, _ | 1, _ | 2, _ | 3, _ | 4, _ | 5, _ | 6, _ | 7, _ => rfl
  | n + 8, h => absurd h (by omega)

/-- A milestone counter's number is not privileged and names no register of the log. -/
theorem milestone_unheld : ∀ n < 8, (BitVec.ofNat 8 (0x20 + n)).toNat = 0x20 + n ∧ srdPriv (0x20 + n) = false ∧
    0x20 + n ∉ [0x10, 0x11, 0x12] := by decide

/-- Settles O6: an access that the mode allows and that the log does not keep back takes effect, and each register has its word. -/
theorem specialRegisterAccess : Obligations.SpecialRegisterAccess := by
  unfold Obligations.SpecialRegisterAccess
  refine ⟨fun s w l p d hi hb hl hp => ?_, fun s w a hi hb => ?_⟩
  · intro wid gives
    have unheld : ∀ {n : BitVec 8} {r : DWord}, srdPriv n.toNat = false ∧ n.toNat ∉ [0x10, 0x11, 0x12] →
        specialRead s wid w n.toNat = r → gives n r := by
      rintro n _ ⟨hmode, hlog⟩ rfl
      exact exec_srd hi hb (.inl hmode) (.inl hlog)
    have logged : ∀ {n : BitVec 8} {r : DWord}, logHeld s wid w = false → srdPriv n.toNat = false →
        specialRead s wid w n.toNat = r → gives n r := by
      rintro n _ hlog hmode rfl
      exact exec_srd hi hb (.inl hmode) (.inr hlog)
    have supervisor : w.sup = true → gives 0x19 w.faultbase := fun hsup => exec_srd hi hb (.inr hsup) (.inl (by decide))
    have vf : specialRead s wid w 0x07 = BitVec.ofNat 64 l.vf := by simp only [specialRead, hl]
    have energy : specialRead s wid w 0x0A = BitVec.ofNat 64 l.energy := by simp only [specialRead, hl]
    have milestone : ∀ n < 8, gives (BitVec.ofNat 8 (0x20 + n)) (BitVec.ofNat 64 (msOf p n).count) := fun n hn => by
      obtain ⟨hnum, hfree⟩ := milestone_unheld n hn
      exact unheld (by rwa [hnum]) (by rw [hnum, specialRead_milestone s wid w n hn, msWord_eq n hp])
    refine ⟨unheld (by decide) rfl, unheld (by decide) rfl, unheld (by decide) rfl, unheld (by decide) rfl, unheld (by decide) rfl,
      unheld (by decide) rfl, unheld (by decide) vf, unheld (by decide) rfl, unheld (by decide) rfl, unheld (by decide) energy,
      unheld (by decide) rfl, unheld (by decide) rfl, unheld (by decide) rfl, unheld (by decide) rfl, supervisor, milestone, ?_, unheld (by decide) rfl,
      fun hlog => ⟨logged hlog (by decide) rfl, logged hlog (by decide) rfl, logged hlog (by decide) rfl⟩⟩
    intro c x die y step
    have cluster : clusterOf (coreNo wid) = wid / 64 := by simp only [clusterOf, coreNo]; omega
    have dieOf_core : dieOfCore (coreNo wid) = wid / 512 := by simp only [dieOfCore, coreNo]; omega
    have throttle : thrWord s (coreNo wid) = _ := thrWord_eq s (coreNo wid)
    have droop : specialRead s wid w 0x30 = BitVec.ofNat 64 (y.thresh.toNat + y.alarms.toNat * 2 ^ 8) := by
      rw [show y = clus s (clusterOf (coreNo wid)) by rw [cluster]]
      exact droopWord_eq _
    simp only [matrixStep, dieOf_core] at throttle
    exact ⟨unheld (by decide) (roleWord_eq hp), unheld (by decide) throttle, unheld (by decide) (oppWord_eq wid hl),
      unheld (by decide) (fidelWord_eq hl), unheld (by decide) rfl, unheld (by decide) (stallWord_eq c), unheld (by decide) (landWord_eq s wid w), unheld (by decide) droop,
      unheld (by decide) rfl, unheld (by decide) rfl, unheld (by decide) rfl, unheld (by decide) rfl⟩
  · intro v
    refine ⟨fun hsup => ⟨exec_swr hi hb (.inr hsup), exec_swr hi hb (.inr hsup), exec_swr hi hb (.inr hsup)⟩, ?_⟩
    exact ⟨_, exec_swr hi hb (.inl (by decide)), rfl, rfl, clearLand_landbusy s s.cur.wid w v⟩

end Sys2Proof.Machine

/-! PROOF. The placement and release of parties, and the end of waves, parties and launches (R33, R35, R36, R49, R253, R258). -/

namespace Sys2Proof.Machine

/-! ### Steps that change cores, clusters and dies alone -/

/-- A state that differs from another in its cores, clusters and dies alone. -/
def MachineryMoved (s t : State) : Prop := ∃ cores clusters dies, t = { s with cores := cores, clusters := clusters, dies := dies }

namespace MachineryMoved

variable {s t u : State}

theorem refl (s : State) : MachineryMoved s s := ⟨_, _, _, rfl⟩

theorem trans (h : MachineryMoved s t) (h' : MachineryMoved t u) : MachineryMoved s u := by
  obtain ⟨_, _, _, rfl⟩ := h
  obtain ⟨_, _, _, rfl⟩ := h'
  exact ⟨_, _, _, rfl⟩

theorem waves (h : MachineryMoved s t) : t.waves = s.waves := by obtain ⟨_, _, _, rfl⟩ := h; rfl
theorem parties (h : MachineryMoved s t) : t.parties = s.parties := by obtain ⟨_, _, _, rfl⟩ := h; rfl
theorem launches (h : MachineryMoved s t) : t.launches = s.launches := by obtain ⟨_, _, _, rfl⟩ := h; rfl
theorem convoys (h : MachineryMoved s t) : t.convoys = s.convoys := by obtain ⟨_, _, _, rfl⟩ := h; rfl
theorem mem (h : MachineryMoved s t) : t.mem = s.mem := by obtain ⟨_, _, _, rfl⟩ := h; rfl

theorem waveOf (h : MachineryMoved s t) (k : Nat) : waveOf t k = waveOf s k := congrArg (Tab.find · k) h.waves
theorem partyOf (h : MachineryMoved s t) (lid p : Nat) : partyOf t lid p = partyOf s lid p := congrArg (Tab.find · _) h.parties
theorem launchOf (h : MachineryMoved s t) (lid : Nat) : launchOf t lid = launchOf s lid := congrArg (Tab.find · lid) h.launches

theorem setCore (s : State) (c : Nat) (x : Core) : MachineryMoved s (setCore s c x) := ⟨_, _, _, rfl⟩
theorem modCore (s : State) (c : Nat) (f : Core → Core) : MachineryMoved s (modCore s c f) := ⟨_, _, _, rfl⟩
theorem setDie (s : State) (d : Nat) (x : Die) : MachineryMoved s (setDie s d x) := ⟨_, _, _, rfl⟩

theorem foldl {α : Type} {f : State → α → State} (hf : ∀ s x, MachineryMoved s (f s x)) :
    ∀ (l : List α) (s : State), MachineryMoved s (l.foldl f s)
  | [], s => refl s
  | x :: l, s => (hf s x).trans (foldl hf l (f s x))

theorem retarget (s : State) (c : Nat) : MachineryMoved s (retarget s c) := by
  unfold Machine.retarget
  extract_lets x t
  split
  · exact refl s
  · split
    · exact refl s
    · exact setCore ..

theorem quietGain (s : State) (cl : Nat) : MachineryMoved s (quietGain s cl) := by
  unfold Machine.quietGain
  split
  · exact ⟨_, _, _, rfl⟩
  · exact refl s

theorem catchUp (s : State) (c : Nat) : MachineryMoved s (catchUp s c) := by
  unfold Machine.catchUp
  extract_lets x
  split
  · exact refl s
  · exact setCore ..

theorem wake (s : State) (c : Nat) : MachineryMoved s (wake s c) := (quietGain ..).trans (catchUp ..)

theorem freshCore (s : State) (core lid : Nat) : MachineryMoved s (freshCore s core lid) := ⟨_, _, _, rfl⟩

theorem giveArea (s : State) (die lid party num : Nat) : MachineryMoved s (giveArea s die lid party num) := by
  unfold Machine.giveArea
  extract_lets d
  split
  · exact setDie ..
  · exact refl s

theorem giveCoreArea (s : State) (lid core : Nat) : MachineryMoved s (giveCoreArea s lid core) := by
  unfold Machine.giveCoreArea
  extract_lets die d
  split
  · exact refl s
  · split
    · exact setDie ..
    · exact refl s

theorem freeTile (core : Nat) (s : State) (o : Nat) : MachineryMoved s (freeTile core s o) := ⟨_, _, _, rfl⟩

theorem unpin (s : State) (wid : Nat) : MachineryMoved s (unpin s wid) := modCore ..

theorem leaveIfLast (s : State) (core lid : Nat) : MachineryMoved s (leaveIfLast s core lid) := by
  unfold Machine.leaveIfLast
  split
  · exact refl s
  · exact (modCore ..).trans (retarget ..)

end MachineryMoved

/-! ### Launches and waves that a step changes -/

theorem modLaunch_of_launch {s : State} {lid : Nat} {l : Launch} (f : Launch → Launch) (hl : launchOf s lid = some l) :
    modLaunch s lid f = setLaunch s lid (f l) := by
  simp only [modLaunch, hl]

theorem launchOf_modLaunch {s : State} {lid : Nat} {l : Launch} (f : Launch → Launch) (hl : launchOf s lid = some l) :
    launchOf (modLaunch s lid f) lid = some (f l) := by
  rw [modLaunch_of_launch f hl, launchOf_setLaunch, if_pos rfl]

theorem modLaunch_parties (s : State) (lid : Nat) (f : Launch → Launch) : (modLaunch s lid f).parties = s.parties := by
  unfold modLaunch; split <;> rfl

/-! ### The core that is chosen (R258) -/

/-- The chosen core lies on the die, has room, and no lower one of the die has. -/
theorem chooseCore_lowest {s : State} {lid die core : Nat} {l : Launch} (h : chooseCore s lid l die = some core) :
    core / 32 = die ∧ fitsCore s lid l core = true ∧ ∀ c, c / 32 = die → c < core → fitsCore s lid l c = false := by
  simp only [chooseCore, List.find?_map, Option.map_eq_some_iff, List.find?_range_eq_some, Function.comp_apply, List.mem_range] at h
  obtain ⟨i, ⟨hfits, hi, hlower⟩, rfl⟩ := h
  refine ⟨by omega, hfits, fun c hc hlt => ?_⟩
  have hj := hlower (c - 32 * die) (by omega)
  rw [show 32 * die + (c - 32 * die) = c by omega] at hj
  simpa using hj

theorem freeSlots_nodup (s : State) (core : Nat) : (freeSlots s core).Nodup := List.nodup_range.filter _

theorem freeSlots_congr {s t : State} (h : t.waves = s.waves) (core : Nat) : freeSlots t core = freeSlots s core := by
  simp only [freeSlots, waveOf, h]

/-! ### A carved wave (R33, R126) -/

/-- Every role of a launch's waves has its registers and its entry (R28, R113). -/
theorem carve_role (lid : Nat) (l : Launch) (party num : Nat) : (carve lid l party num).role = roleOf l.p num := by
  have hrole : (useOf l num).role = roleOf l.p num := by
    unfold useOf roleUses roleOf
    by_cases hsplit : isSplit l.p = true
    · by_cases hnum : num < l.p.pwaves
      · simp [hsplit, hnum, show l.p.pwaves ≠ 0 by omega]
      · simp [hsplit, hnum]
    · simp [hsplit]
  exact hrole

/-- The seed's fields lie in bits of their own, so that they add. -/
theorem lfsrSeed_eq (p i n : Nat) (hn : n < 32) :
    lfsrSeed p i n = 0xACE10000#32 ^^^ BitVec.ofNat 32 (2 ^ 9 * (p % 2 ^ 11) + 2 ^ 5 * (i % 16) + n) := by
  have hlane : n < 2 ^ 5 := hn
  have hwave : 2 ^ 5 * (i % 16) + n < 2 ^ 9 := by omega
  have bits : BitVec.ofNat 32 (2 ^ 9 * (p % 2 ^ 11) + (2 ^ 5 * (i % 16) + n)) =
      (BitVec.ofNat 32 (p % 2048) <<< 9) ^^^ (BitVec.ofNat 32 (i % 16) <<< 5) ^^^ BitVec.ofNat 32 n := by
    apply BitVec.eq_of_getLsbD_eq
    intro j hj
    simp only [BitVec.getLsbD_xor, BitVec.getLsbD_shiftLeft, BitVec.getLsbD_ofNat, hj, Nat.testBit_two_pow_mul_add _ hwave,
      Nat.testBit_two_pow_mul_add _ hlane]
    by_cases h5 : j < 5
    · simp [h5, show j < 9 by omega]
    · have lane_low : n.testBit j = false := Nat.testBit_lt_two_pow (hlane.trans_le (Nat.pow_le_pow_right (by omega) (by omega)))
      by_cases h9 : j < 9
      · simp [h5, h9, lane_low, show j - 5 < 32 by omega]
      · have wave_low : (i % 16).testBit (j - 5) = false :=
          Nat.testBit_lt_two_pow ((show i % 16 < 2 ^ 4 by omega).trans_le (Nat.pow_le_pow_right (by omega) (by omega)))
        simp [h5, h9, lane_low, wave_low, show j - 9 < 32 by omega]
  rw [lfsrSeed, Nat.add_assoc, bits]
  simp only [BitVec.xor_assoc]

theorem carve_lfsr (lid : Nat) (l : Launch) (party num : Nat) {n : Nat} (hn : n < 32) :
    (carve lid l party num).lfsr.at n = 0xACE10000#32 ^^^ BitVec.ofNat 32 (2 ^ 9 * (party % 2 ^ 11) + 2 ^ 5 * (num % 16) + n) := by
  rw [← lfsrSeed_eq party num n hn]
  simp [carve, Lanes.at, Lanes.of, hn]

/-! ### What a placement puts in its place (R258) -/

theorem putWaves_parties (lid : Nat) (l : Launch) (party core : Nat) : ∀ (slots : List Nat) (num : Nat) (s : State),
    (putWaves lid l party core slots num s).parties = s.parties
  | [], _, _ => rfl
  | _ :: slots, num, _ => (putWaves_parties lid l party core slots (num + 1) _).trans (MachineryMoved.giveArea ..).parties

theorem putWaves_launches (lid : Nat) (l : Launch) (party core : Nat) : ∀ (slots : List Nat) (num : Nat) (s : State),
    (putWaves lid l party core slots num s).launches = s.launches
  | [], _, _ => rfl
  | _ :: slots, num, _ => (putWaves_launches lid l party core slots (num + 1) _).trans (MachineryMoved.giveArea ..).launches

/-- Waves outside the slots stay as they are. -/
theorem waveOf_putWaves_outside (lid : Nat) (l : Launch) (party core k : Nat) : ∀ (slots : List Nat) (num : Nat) (s : State),
    (∀ slot ∈ slots, k ≠ 16 * core + slot) → waveOf (putWaves lid l party core slots num s) k = waveOf s k
  | [], _, _, _ => rfl
  | slot :: slots, num, s, h => by
    obtain ⟨hslot, hslots⟩ := List.forall_mem_cons.1 h
    rw [putWaves, waveOf_putWaves_outside lid l party core k slots (num + 1) _ hslots, (MachineryMoved.giveArea ..).waveOf, waveOf_setWave,
      if_neg hslot]

/-- Slot i of the list holds wave num + i. -/
theorem waveOf_putWaves_slot (lid : Nat) (l : Launch) (party core : Nat) {slots : List Nat} {i slot : Nat} (num : Nat) (s : State)
    (hnodup : slots.Nodup) (hi : slots[i]? = some slot) :
    waveOf (putWaves lid l party core slots num s) (16 * core + slot) = some (carve lid l party (num + i)) := by
  induction slots generalizing num s i with
  | nil => simp at hi
  | cons first slots ih =>
    obtain ⟨hfirst, hslots⟩ := List.nodup_cons.1 hnodup
    rw [putWaves]
    cases i with
    | zero =>
      obtain rfl : first = slot := by simpa using hi
      have hother : ∀ other ∈ slots, 16 * core + first ≠ 16 * core + other := fun other hmem heq =>
        hfirst (by rwa [show first = other by omega])
      rw [waveOf_putWaves_outside lid l party core _ slots _ _ hother, (MachineryMoved.giveArea ..).waveOf, waveOf_setWave, if_pos rfl,
        Nat.add_zero]
    | succ i => rw [ih (num + 1) _ hslots (by simpa using hi), Nat.add_right_comm, Nat.add_assoc]

/-- Mapping convoys changes the convoy table and the launch's map of it. -/
theorem mapConvoys_frame (lid : Nat) (l : Launch) : ∀ (ds : List CvDesc) (es : List Nat) {s : State} {m : Launch}, launchOf s lid = some m →
    (mapConvoys lid l ds es s).waves = s.waves ∧ ∃ map, launchOf (mapConvoys lid l ds es s) lid = some { m with cvmap := map }
  | [], _, _, m, h => ⟨rfl, m.cvmap, h⟩
  | _ :: _, [], _, m, h => ⟨rfl, m.cvmap, h⟩
  | d :: ds, e :: es, s, m, h => by
    obtain ⟨hwaves, map, hmap⟩ := mapConvoys_frame lid l ds es
      (launchOf_modLaunch (s := { s with convoys := Tab.put s.convoys e _ }) (fun x => { x with cvmap := Tab.put x.cvmap d.index e }) h)
    exact ⟨hwaves.trans (modLaunch_waves ..), map, hmap⟩

theorem firstConvoys_frame {s : State} {lid : Nat} {l m : Launch} (h : launchOf s lid = some m) :
    (firstConvoys s lid l).waves = s.waves ∧ ∃ map, launchOf (firstConvoys s lid l) lid = some { m with cvmap := map } := by
  unfold firstConvoys
  split
  · exact mapConvoys_frame lid l l.cvs _ h
  · exact ⟨rfl, m.cvmap, h⟩

/-- A party as a placement leaves it (R33, R49). -/
def freshParty (l : Launch) (core : Nat) : Party :=
  { core := core, waves := partyWaves l.p, prod := l.p.pwaves != 0, tile := l.p.flags.getLsbD 4, released := false, left := partyWaves l.p,
    ms := [], acq := [] }

/-- A placement gives the launch one party more, with its waves in the lowest free slots of the core; no other slot changes. -/
theorem placeOn_places {s : State} {lid core : Nat} {l : Launch} (hl : launchOf s lid = some l) :
    (∃ m, launchOf (placeOn s lid l core) lid = some m ∧ m.placed = l.placed + 1 ∧ m.st = l.st ∧ m.p = l.p) ∧
    partyOf (placeOn s lid l core) lid l.placed = some (freshParty l core) ∧
    (∀ i slot, ((freeSlots s core).take (partyWaves l.p))[i]? = some slot →
      waveOf (placeOn s lid l core) (16 * core + slot) = some (carve lid l l.placed i)) ∧
    ∀ k, (∀ slot ∈ (freeSlots s core).take (partyWaves l.p), k ≠ 16 * core + slot) → waveOf (placeOn s lid l core) k = waveOf s k := by
  unfold placeOn
  extract_lets party slots tile s1 n s2 s3 s4
  obtain ⟨hwaves1, map, hlaunch1⟩ := firstConvoys_frame (l := l) hl
  have tileJoined : MachineryMoved s3 s4 := by
    unfold s4
    split
    · exact .modCore ..
    · exact .refl s3
  have last (u : State) : MachineryMoved u (retarget (freshCore u core lid) core) := (MachineryMoved.freshCore u core lid).trans (.retarget ..)
  have hlaunch4 : launchOf s4 lid = some { l with cvmap := map } := by
    rw [tileJoined.launchOf]
    exact (congrArg (Tab.find · lid) (putWaves_launches ..)).trans hlaunch1
  have hparty4 : partyOf s4 lid party = some (freshParty l core) := by
    rw [tileJoined.partyOf]
    exact (congrArg (Tab.find · _) (putWaves_parties ..)).trans (partyOf_setParty ..)
  have hwave2 (k : Nat) : waveOf s2 k = waveOf s k := congrArg (Tab.find · k) hwaves1
  have hwave4 (f : Launch → Launch) (k : Nat) : waveOf (modLaunch s4 lid f) k = waveOf s3 k :=
    (congrArg (Tab.find · k) (modLaunch_waves ..)).trans (tileJoined.waveOf k)
  refine ⟨⟨_, ((last _).launchOf lid).trans (launchOf_modLaunch _ hlaunch4), rfl, rfl, rfl⟩, ?_, fun i slot hi => ?_, fun k hk => ?_⟩
  · rw [(last _).partyOf]
    exact (congrArg (Tab.find · _) (modLaunch_parties ..)).trans hparty4
  · have hnodup : slots.Nodup := (freeSlots_nodup s core).sublist (List.take_sublist ..)
    rw [(last _).waveOf, hwave4, waveOf_putWaves_slot lid l party core 0 s2 hnodup hi, Nat.zero_add]
  · rw [(last _).waveOf, hwave4, waveOf_putWaves_outside lid l party core k slots 0 s2 hk, hwave2]

/-! ### PARTY_PLACE -/

theorem catchUp_shares (s : State) (c : Nat) : (coreOf (catchUp s c) c).shares = (coreOf s c).shares := by
  unfold catchUp
  extract_lets x
  split
  · rfl
  · simp [coreOf_setCore, x]

theorem quietGain_cores (s : State) (cl : Nat) : (quietGain s cl).cores = s.cores := by
  unfold quietGain; split <;> rfl

theorem wake_shares (s : State) (c : Nat) : (coreOf (wake s c) c).shares = (coreOf s c).shares := by
  rw [wake, catchUp_shares, coreOf, quietGain_cores]; rfl

/-- A launch that stands on a core, or has no constants, joins it without a kill and without a byte of memory. -/
theorem joinCore_joins {s : State} {lid core : Nat} {l : Launch}
    (h : l.img.hdr.constLen = 0 ∨ (Tab.find (coreOf s core).shares lid).isSome = true) :
    (joinCore s lid l core).1 = none ∧ MachineryMoved s (joinCore s lid l core).2 := by
  unfold joinCore
  by_cases hshare : (Tab.find (coreOf s core).shares lid).isSome = true
  · rw [if_pos hshare]
    exact ⟨rfl, .refl s⟩
  · have hlen := h.resolve_right hshare
    rw [if_neg hshare]
    simp only [copyConsts, hlen, if_true, true_and]
    exact (MachineryMoved.modCore ..).trans (.giveCoreArea ..)

theorem convoys_fit {s : State} {l : Launch} (h : l.placed = 0 → l.cvs.length ≤ (freeConvoys s l.die).length) :
    (l.placed == 0 && decide ((freeConvoys s l.die).length < l.cvs.length)) = false := by
  simp only [Bool.and_eq_false_iff, beq_eq_false_iff_ne, decide_eq_false_iff_not]
  exact or_iff_not_imp_left.2 fun hfirst => Nat.not_lt.2 (h (not_not.1 hfirst))

section Placement

variable {s : State} {lid core : Nat} {l : Launch} (hl : launchOf s lid = some l) (hwants : wantsPlace s lid l = true)
  (hserves : dieServes s l = true) (hcore : chooseCore s lid l l.die = some core)
  (hconvoys : l.placed = 0 → l.cvs.length ≤ (freeConvoys s l.die).length)

include hl hwants hserves hcore hconvoys

/-- With a party to place, a core for it and entries for its convoys the event takes place: a placement or a kill (R114, R258). -/
theorem exec_partyPlace_due : ∃ t, exec (.partyPlace lid) s = .next t := by
  have hroom := convoys_fit hconvoys
  change ∃ t, execPartyPlace lid s = .next t
  simp only [execPartyPlace, hl, hwants, hserves, hroom, hcore, Bool.not_true, Bool.or_self, Bool.false_eq_true, if_false]
  split <;> exact ⟨_, rfl⟩

/-- Where the launch's pages are checked and nothing is to be copied the party is placed. -/
theorem exec_partyPlace_checked (hchecked : l.checked = true)
    (hconsts : l.img.hdr.constLen = 0 ∨ (Tab.find (coreOf s core).shares lid).isSome = true) :
    ∃ j, MachineryMoved s j ∧ exec (.partyPlace lid) s = .next (bump (placeOn j lid l core)) := by
  have hroom := convoys_fit hconvoys
  have hwake : launchOf (wake s core) lid = some l := ((MachineryMoved.wake s core).launchOf lid).trans hl
  obtain ⟨hnone, hmoved⟩ := joinCore_joins (s := wake s core) (lid := lid) (core := core) (l := l) (by rwa [wake_shares])
  have hj : launchOf (joinCore (wake s core) lid l core).2 lid = some l := (hmoved.launchOf lid).trans hwake
  refine ⟨_, (MachineryMoved.wake s core).trans hmoved, ?_⟩
  change execPartyPlace lid s = _
  simp only [execPartyPlace, hl, hwants, hserves, hroom, hcore, Bool.not_true, Bool.or_self, Bool.false_eq_true, if_false, checkLaunch,
    hchecked, if_true, Option.isSome_none, Option.getD_some, hnone, hj, done]

end Placement

/-! ### Release and gates (R33, R35, R253) -/

theorem modParty_waves (s : State) (lid p : Nat) (f : Party → Party) : (modParty s lid p f).waves = s.waves := by
  unfold modParty; split <;> rfl
theorem modParty_mem (s : State) (lid p : Nat) (f : Party → Party) : (modParty s lid p f).mem = s.mem := by
  unfold modParty; split <;> rfl

/-- A wave is released, which its party keeps a note of. -/
def waveReleased (s : State) (wid : Nat) (w : Wave) : State :=
  modParty (setWave s wid { w with st := .running, age := 0 }) w.lid w.party fun p => { p with released := true }

theorem waveOf_waveReleased (s : State) (wid : Nat) (w : Wave) (k : Nat) :
    waveOf (waveReleased s wid w) k = if k = wid then some { w with st := .running, age := 0 } else waveOf s k := by
  rw [waveOf, waveReleased, modParty_waves]
  exact waveOf_setWave ..

theorem waveReleased_mem (s : State) (wid : Nat) (w : Wave) : (waveReleased s wid w).mem = s.mem := modParty_mem ..

/-- A carved wave is released once its convoys are placed. -/
theorem exec_waveRelease_due {s : State} {wid : Nat} {w : Wave} {l : Launch} (hw : waveOf s wid = some w) (hl : launchOf s w.lid = some l)
    (hst : w.st = .carved) (hplaced : convoysPlaced l w = true) : exec (.waveRelease wid) s = .next (bump (waveReleased s wid w)) := by
  change execWaveRelease wid s = _
  simp [execWaveRelease, hw, hl, hst, hplaced, done, waveReleased]

theorem exec_waveRelease_refused {s : State} {wid : Nat} {w : Wave} {l : Launch} (hw : waveOf s wid = some w) (hl : launchOf s w.lid = some l)
    (h : w.st ≠ .carved ∨ convoysPlaced l w = false) : exec (.waveRelease wid) s = .refused .notEnabled := by
  change execWaveRelease wid s = _
  obtain h | h := h <;> simp [execWaveRelease, hw, hl, h, notEnabled]

/-- A raised gate stands at the larger of its value and the count (R253). -/
theorem gateOf_gateRaise (q : Queue) (g n now : Nat) (hn : n < 2 ^ 32) : (gateOf (gateRaise q g n now) g).toNat = max (gateOf q g).toNat n := by
  have hmax : max (gateOf q g).toNat n < 2 ^ 32 := max_lt (gateOf q g).isLt hn
  simp only [gateRaise, setGate, gateOf, Tab.findD_put, if_true, BitVec.toNat_ofNat]
  exact Nat.mod_eq_of_lt hmax

section Gate

variable {s : State} {lid : Nat} {l : Launch} (hl : launchOf s lid = some l)
include hl

theorem exec_gateRaise_due (hbase : (queueOf s (queueOfLaunch l)).base ≤ lid) (hearly : l.p.flags.getLsbD 6 = true) (hraised : l.raised = false)
    (hdone : earlierDone s lid l = true) :
    exec (.gateRaise lid) s = .next (bump (setLaunch (modQueue s (queueOfLaunch l) fun q => gateRaise q l.p.gate l.p.gcount (ticks s)) lid
      { l with raised := true })) := by
  change execGateRaise lid s = _
  simp [execGateRaise, hl, hbase, hearly, hraised, hdone, done]

theorem exec_gateRaise_refused (hdone : earlierDone s lid l = false) : exec (.gateRaise lid) s = .refused .notEnabled := by
  change execGateRaise lid s = _
  simp [execGateRaise, hl, hdone, notEnabled]

end Gate

/-! ### The end of a wave (R36, R49) -/

/-- What a wave's own end makes of the state, before its party counts it: its operand slots are free, its convoys count it as arrived. -/
def waveGone (s : State) (wid : Nat) (w : Wave) : State :=
  let s1 := (ownSlots s wid w).foldl (freeTile (coreNo wid)) s
  let s2 := leaveConvoys { s1 with acc := s1.acc.map fun e => (e.1, if e.2.wid = wid then { e.2 with wid := nobody } else e.2) } w
  unpin (setWave (leaveWave s2 wid w) wid { w with st := .retired, tok := none, missed := false }) wid

/-- A party that is one wave short (R49). -/
def oneFewer (q : Party) : Party := { q with left := q.left - 1 }

theorem retireWave_of_party {s : State} {wid : Nat} {w : Wave} {q : Party} (hq : partyOf (waveGone s wid w) w.lid w.party = some q) :
    retireWave s wid w = if q.left ≤ 1 then retireParty (setParty (waveGone s wid w) w.lid w.party (oneFewer q)) (coreNo wid) w.lid w.party
      else setParty (waveGone s wid w) w.lid w.party (oneFewer q) := by
  unfold waveGone at hq
  simp only [retireWave, hq]
  rfl

section WaveGone

variable (s : State) (wid : Nat) (w : Wave)

theorem ownSlots_freed : MachineryMoved s ((ownSlots s wid w).foldl (freeTile (coreNo wid)) s) := .foldl (MachineryMoved.freeTile (coreNo wid)) _ s

theorem waveGone_waves : (waveGone s wid w).waves = Tab.put s.waves wid { w with st := .retired, tok := none, missed := false } :=
  congrArg (Tab.put · wid _) (ownSlots_freed s wid w).waves
theorem waveOf_waveGone (k : Nat) : waveOf (waveGone s wid w) k =
    if k = wid then some { w with st := .retired, tok := none, missed := false } else waveOf s k := by
  rw [waveOf, waveGone_waves, Tab.find_put, waveOf]
theorem waveGone_parties : (waveGone s wid w).parties = s.parties := by
  simp only [waveGone, unpin, leaveWave, modShare, modCore_parties, setWave_parties, leaveConvoys, (ownSlots_freed s wid w).parties]
theorem partyOf_waveGone (lid p : Nat) : partyOf (waveGone s wid w) lid p = partyOf s lid p := congrArg (Tab.find · _) (waveGone_parties s wid w)
theorem waveGone_launches : (waveGone s wid w).launches = s.launches := by
  simp only [waveGone, unpin, leaveWave, modShare, modCore_launches, setWave_launches, leaveConvoys, (ownSlots_freed s wid w).launches]
theorem waveGone_mem : (waveGone s wid w).mem = s.mem := by
  simp only [waveGone, unpin, leaveWave, modShare, modCore_mem, setWave_mem, leaveConvoys, (ownSlots_freed s wid w).mem]
theorem waveGone_convoys : (waveGone s wid w).convoys = (leaveConvoys s w).convoys := by
  have h := (ownSlots_freed s wid w).convoys
  simp only [leaveConvoys, ← h]
  rfl

/-- A convoy of the wave's launch counts it, as one of its members, as arrived from now on; its phase stays. -/
theorem leaveConvoys_retired {e : Nat} {c : Convoy} (hc : Tab.find s.convoys e = some c) (hlid : c.lid = w.lid) (hmem : member w ∈ c.members) :
    ∃ d, Tab.find (leaveConvoys s w).convoys e = some d ∧ member w ∈ d.retired ∧ d.phase = c.phase := by
  have hfind := (Tab.find_map s.convoys (fun _ x => if x.lid == w.lid && x.members.contains (member w) && !x.retired.contains (member w) then
    { x with retired := x.retired ++ [member w] } else x) e)
  rw [hc] at hfind
  refine ⟨_, hfind, ?_⟩
  by_cases hold : member w ∈ c.retired
  · simp [hold]
  · simp [hlid, hmem, hold]

end WaveGone

/-! ### The end of a party (R49) -/

section PartyGone

variable (s : State) (core lid party : Nat)

theorem retireParty_frame : ∃ u, MachineryMoved { s with
      waves := s.waves.filter fun e => !(e.2.lid == lid && e.2.party == party)
      parties := Tab.del s.parties (partyKey lid party) } u ∧
    MachineryMoved (modLaunch u lid fun l => { l with retired := l.retired + 1 }) (retireParty s core lid party) := by
  unfold retireParty
  extract_lets s1 s2 s3
  refine ⟨s3, ?_, .leaveIfLast ..⟩
  have hs2 : MachineryMoved s1 s2 := by
    unfold s2
    split
    · exact .modCore ..
    · exact .refl s1
  exact hs2.trans ⟨_, _, _, rfl⟩

theorem retireParty_mem : (retireParty s core lid party).mem = s.mem := by
  obtain ⟨u, hu, ht⟩ := retireParty_frame s core lid party
  rw [ht.mem, modLaunch_mem, hu.mem]

theorem partyOf_retireParty : partyOf (retireParty s core lid party) lid party = none := by
  obtain ⟨u, hu, ht⟩ := retireParty_frame s core lid party
  rw [partyOf, ht.parties, modLaunch_parties, hu.parties, Tab.find_del, if_pos rfl]

/-- No wave of the party is left. -/
theorem waveOf_retireParty {k : Nat} {v : Wave} (hv : waveOf (retireParty s core lid party) k = some v) (hlid : v.lid = lid) : v.party ≠ party := by
  obtain ⟨u, hu, ht⟩ := retireParty_frame s core lid party
  rw [waveOf, ht.waves, modLaunch_waves, hu.waves] at hv
  have hkept := (List.mem_filter.1 (Tab.mem_of_find _ _ _ hv)).2
  rintro rfl
  simp [hlid] at hkept

theorem launchOf_retireParty {l : Launch} (hl : launchOf s lid = some l) :
    launchOf (retireParty s core lid party) lid = some { l with retired := l.retired + 1 } := by
  obtain ⟨u, hu, ht⟩ := retireParty_frame s core lid party
  rw [ht.launchOf]
  exact launchOf_modLaunch _ ((hu.launchOf lid).trans hl)

end PartyGone

/-! ### WAVE_RETIRE -/

/-- What a wave must have come to before it retires (logs 15 and 49). -/
def RetireReady (s : State) (wid : Nat) (w : Wave) : Prop :=
  w.exiting = true ∧ w.sup = false ∧ w.st = .running ∧ w.stopping = none ∧ wavesWorkDone s wid w = true ∧ slotsRest s wid w = true

theorem retireReady_iff {s : State} {wid : Nat} {w : Wave} :
    (w.exiting && !w.sup && w.st == .running && w.stopping.isNone && wavesWorkDone s wid w && slotsRest s wid w) = true ↔ RetireReady s wid w := by
  simp [RetireReady, and_assoc]

theorem exec_waveRetire_due {s : State} {wid : Nat} {w : Wave} (hw : waveOf s wid = some w) (h : RetireReady s wid w) :
    exec (.waveRetire wid) s = .next (bump (retireWave s wid w)) := by
  change execWaveRetire wid s = _
  simp only [execWaveRetire, hw, retireReady_iff.2 h, if_true, done]

/-- With others of its party left the wave ends and is counted. -/
theorem exec_waveRetire_others {s : State} {wid : Nat} {w : Wave} {q : Party} (hw : waveOf s wid = some w) (hq : partyOf s w.lid w.party = some q)
    (h : RetireReady s wid w) (hleft : 1 < q.left) :
    exec (.waveRetire wid) s = .next (bump (setParty (waveGone s wid w) w.lid w.party (oneFewer q))) := by
  have hgone := (partyOf_waveGone s wid w w.lid w.party).trans hq
  rw [exec_waveRetire_due hw h, retireWave_of_party hgone, if_neg (Nat.not_le.2 hleft)]

/-- The last wave of its party takes the party with it. -/
theorem exec_waveRetire_last {s : State} {wid : Nat} {w : Wave} {q : Party} (hw : waveOf s wid = some w) (hq : partyOf s w.lid w.party = some q)
    (h : RetireReady s wid w) (hleft : q.left ≤ 1) : ∃ u, u.mem = s.mem ∧ u.launches = s.launches ∧
    exec (.waveRetire wid) s = .next (bump (retireParty u (coreNo wid) w.lid w.party)) := by
  have hgone := (partyOf_waveGone s wid w w.lid w.party).trans hq
  refine ⟨setParty (waveGone s wid w) w.lid w.party (oneFewer q), ?_, ?_, ?_⟩
  · rw [setParty_mem, waveGone_mem]
  · rw [setParty_launches, waveGone_launches]
  · rw [exec_waveRetire_due hw h, retireWave_of_party hgone, if_pos hleft]

theorem exec_waveRetire_refused {s : State} {wid : Nat} {w : Wave} (hw : waveOf s wid = some w) (h : ¬ RetireReady s wid w) :
    exec (.waveRetire wid) s = .refused .notEnabled := by
  change execWaveRetire wid s = _
  simp only [execWaveRetire, hw, if_neg (mt retireReady_iff.1 h), notEnabled]

/-! ### A packet completes (R246, R248) -/

theorem advanceDone_irq : ∀ (n : Nat) (q : Queue), (advanceDone n q).irq = q.irq
  | 0, _ => rfl
  | n + 1, q => by
    rw [advanceDone]
    split
    · exact advanceDone_irq n _
    · rfl

/-- A packet with INTR sets IRQ. -/
theorem completePkt_irq {q : Queue} {n : Nat} (h : n ∈ q.intr) : (completePkt q n).irq = true := by
  rw [completePkt, advanceDone_irq]
  simp [h]

/-- With nothing completed out of order, the packet next to DONE advances it. -/
theorem completePkt_next {q : Queue} (h : q.ended = []) :
    (completePkt q q.done.toNat).done = q.done + 1 ∧ (completePkt q q.done.toNat).ended = [] := by
  simp [completePkt, h, advanceDone]

/-- Any other packet waits for those before it. -/
theorem completePkt_later {q : Queue} {n : Nat} (h : q.ended = []) (hn : n ≠ q.done.toNat) :
    (completePkt q n).done = q.done ∧ (completePkt q n).ended = [n] := by
  simp [completePkt, h, advanceDone, Ne.symm hn]

/-! ### LAUNCH_COMPLETE (R19, R295) -/

/-- A launch's convoys and areas are free. -/
def launchFreed (s : State) (lid : Nat) : State :=
  { s with
    convoys := s.convoys.filter fun e => e.2.lid != lid
    dies := s.dies.map fun e => (e.1, leaveDie lid e.2) }

/-- A launch charged for what it drew since the last sample (log 19). -/
def chargedLaunch (s : State) (lid : Nat) (l : Launch) : Launch :=
  { l with energy := l.energy + (if l.drew then Config.sampleEnergy s.serial lid else 0), drew := hasTraffic s lid }

/-- The end of a launch that is part of no route and has no energy slot. -/
def launchDone (s : State) (lid : Nat) (l : Launch) : State :=
  modQueue (setLaunch (launchFreed (chargeLaunch s lid l) lid) lid { chargedLaunch s lid l with st := .complete }) (queueOfLaunch l)
    fun q => completePkt q l.pkt

theorem launchOf_launchDone (s : State) (lid : Nat) (l : Launch) :
    launchOf (launchDone s lid l) lid = some { chargedLaunch s lid l with st := .complete } := Tab.find_put_same ..

theorem launchDone_waves (s : State) (lid : Nat) (l : Launch) : (launchDone s lid l).waves = s.waves := by
  simp only [launchDone, launchFreed, chargeLaunch, modQueue_waves, setLaunch_waves, modFunc_waves]
theorem launchDone_mem (s : State) (lid : Nat) (l : Launch) : (launchDone s lid l).mem = s.mem := by
  simp only [launchDone, launchFreed, chargeLaunch, modQueue_mem, setLaunch_mem, modFunc_mem]
theorem launchDone_routes (s : State) (lid : Nat) (l : Launch) : (launchDone s lid l).routes = s.routes := by
  simp only [launchDone, launchFreed, chargeLaunch, modQueue_routes, setLaunch_routes, modFunc_routes]
theorem launchDone_convoys (s : State) (lid : Nat) (l : Launch) : (launchDone s lid l).convoys = s.convoys.filter fun e => e.2.lid != lid := by
  simp only [launchDone, launchFreed, chargeLaunch, modQueue_convoys, setLaunch_convoys, modFunc_convoys]

theorem queueOf_launchDone (s : State) (lid : Nat) (l : Launch) :
    queueOf (launchDone s lid l) (queueOfLaunch l) = completePkt (queueOf s (queueOfLaunch l)) l.pkt := by
  rw [launchDone, queueOf_modQueue, if_pos rfl]; rfl

theorem energy_launchDone (s : State) (lid : Nat) (l : Launch) :
    (funcOf (launchDone s lid l) l.vf).energy = (funcOf s l.vf).energy + (if l.drew then Config.sampleEnergy s.serial lid else 0) := by
  have h : funcOf (launchDone s lid l) l.vf = funcOf (chargeLaunch s lid l) l.vf := rfl
  rw [h, chargeLaunch, funcOf_modFunc, if_pos rfl]; rfl

section Complete

variable {s : State} {lid : Nat} {l : Launch} (hl : launchOf s lid = some l)
include hl

theorem exec_launchComplete_due (hst : l.st = .accepted) (hretired : l.retired = l.p.parties) (hheld : storeHeld s lid = false) :
    ∃ t, exec (.launchComplete lid) s = .next t := by
  change ∃ t, execLaunchComplete lid s = .next t
  simp [execLaunchComplete, hl, hst, hretired, hheld, done]

theorem exec_launchComplete_refused (h : l.st ≠ .accepted ∨ l.retired ≠ l.p.parties ∨ storeHeld s lid = true) :
    exec (.launchComplete lid) s = .refused .notEnabled := by
  change execLaunchComplete lid s = _
  obtain h | h | h := h <;> simp [execLaunchComplete, hl, h, notEnabled]

/-- Without an energy slot and without a route the launch ends as `launchDone` says. -/
theorem exec_launchComplete_alone (hst : l.st = .accepted) (hretired : l.retired = l.p.parties) (hheld : storeHeld s lid = false)
    (henergy : l.p.energy = 0) (hroutes : ∀ r ∈ s.routes, lid ∉ r.2.lids) :
    exec (.launchComplete lid) s = .next (bump (launchDone s lid l)) := by
  have hcharged : launchOf (chargeLaunch s lid l) lid = some (chargedLaunch s lid l) := Tab.find_put_same ..
  have hslot : writeEnergy (chargeLaunch s lid l) lid l = chargeLaunch s lid l := by
    simp only [writeEnergy, hcharged, Option.getD_some, chargedLaunch, henergy, if_true]
  have hcomplete : modLaunch (launchFreed (chargeLaunch s lid l) lid) lid (fun x => { x with st := .complete }) = _ :=
    modLaunch_of_launch _ hcharged
  have hstage : completeStage (launchDone s lid l) (queueOfLaunch l) lid = launchDone s lid l := by
    have hnone : (launchDone s lid l).routes.find? (fun e => e.2.lids.contains lid) = none := by
      rw [launchDone_routes]
      simpa using hroutes
    simp only [completeStage, hnone]
  change execLaunchComplete lid s = _
  simp only [execLaunchComplete, hl, hst, hretired, hheld, beq_self_eq_true, Bool.not_false, Bool.and_self, if_true, hslot, done]
  rw [← hstage, launchDone, ← hcomplete]
  rfl

end Complete

/-! ### The statement -/

/-- Settles O49: each event's outcome from its conditions, and what the state after it holds from the frames of the steps that make it up. -/
theorem partiesArePlacedAndRetire : Obligations.PartiesArePlacedAndRetire := by
  unfold Obligations.PartiesArePlacedAndRetire
  refine ⟨fun s => ⟨fun lid l core hl hwants hserves hcore hconvoys => ⟨?_, fun hchecked hconsts => ?_⟩, fun wid w l hw hl => ⟨?_, ?_⟩,
    fun lid l hl hbase hearly hraised hcount => ⟨fun hdone => ?_, ?_⟩⟩, fun s => ⟨fun wid w q hw hq => ?_, fun lid l hl => ?_⟩⟩
  · exact exec_partyPlace_due hl hwants hserves hcore hconvoys
  · obtain ⟨hdie, hfits, hlower⟩ := chooseCore_lowest hcore
    obtain ⟨j, hj, hexec⟩ := exec_partyPlace_checked hl hwants hserves hcore hconvoys hchecked hconsts
    obtain ⟨⟨m, hm, hplaced, hst, hp⟩, hparty, hslots, hothers⟩ := placeOn_places (core := core) ((hj.launchOf lid).trans hl)
    rw [freeSlots_congr hj.waves] at hslots hothers
    refine ⟨hdie, hfits, hlower, _, m, _, hexec, hm, hplaced, hst, hp, hparty, rfl, rfl, rfl, rfl, fun i slot hi => ?_,
      fun k hk => (hothers k hk).trans (hj.waveOf k)⟩
    exact ⟨_, hslots i slot hi, rfl, rfl, rfl, carve_role .., rfl, rfl, rfl, fun n => rfl, fun n => rfl, fun cl n => by cases cl <;> rfl,
      rfl, rfl, rfl, rfl, fun n hn => carve_lfsr lid l l.placed i hn⟩
  · exact fun hst hplaced => ⟨_, exec_waveRelease_due hw hl hst hplaced, (waveOf_waveReleased s wid w wid).trans (if_pos rfl),
      waveReleased_mem s wid w, fun k hk => (waveOf_waveReleased s wid w k).trans (if_neg hk)⟩
  · exact exec_waveRelease_refused hw hl
  · refine ⟨_, _, exec_gateRaise_due hl hbase hearly hraised hdone, Tab.find_put_same .., rfl, rfl, ?_⟩
    have hqueue := queueOf_modQueue s (queueOfLaunch l) (queueOfLaunch l) fun q => gateRaise q l.p.gate l.p.gcount (ticks s)
    rw [if_pos rfl] at hqueue
    exact (congrArg (fun q => (gateOf q l.p.gate).toNat) hqueue).trans (gateOf_gateRaise _ _ _ _ hcount)
  · exact exec_gateRaise_refused hl
  · intro ready
    refine ⟨fun hready hleft => ?_, fun hready hleft => ?_, exec_waveRetire_refused hw⟩
    · refine ⟨_, _, exec_waveRetire_others hw hq hready hleft, (waveOf_waveGone s wid w wid).trans (if_pos rfl), partyOf_setParty .., rfl,
        waveGone_mem s wid w, fun k hk => (waveOf_waveGone s wid w k).trans (if_neg hk), fun e c hc hlid hmem => ?_⟩
      obtain ⟨d, hd, hretired, hphase⟩ := leaveConvoys_retired s w hc hlid hmem
      exact ⟨d, (congrArg (Tab.find · e) (waveGone_convoys s wid w)).trans hd, hretired, hphase⟩
    · obtain ⟨u, hmem, hlaunches, hexec⟩ := exec_waveRetire_last hw hq hready hleft
      exact ⟨_, hexec, partyOf_retireParty .., (retireParty_mem ..).trans hmem, fun k v hv => waveOf_retireParty _ _ _ _ hv,
        fun l hl => ⟨_, launchOf_retireParty _ _ _ _ ((congrArg (Tab.find · w.lid) hlaunches).trans hl), rfl⟩⟩
  · intro k q
    refine ⟨exec_launchComplete_due hl, fun hst hretired hheld henergy hroutes => ?_, exec_launchComplete_refused hl⟩
    have hqueue : queueOf (bump (launchDone s lid l)) k = completePkt q l.pkt := queueOf_launchDone s lid l
    refine ⟨_, _, exec_launchComplete_alone hl hst hretired hheld henergy hroutes, launchOf_launchDone s lid l,
      ⟨rfl, energy_launchDone s lid l⟩, launchDone_waves s lid l, launchDone_mem s lid l, fun e he => ?_, ?_, ?_, ?_⟩
    · rw [bump_convoys, launchDone_convoys] at he
      simpa using (List.mem_filter.1 he).2
    · rw [hqueue]
      exact completePkt_irq
    · rw [hqueue]
      intro hended hpkt
      rw [hpkt]
      exact completePkt_next hended
    · rw [hqueue]
      exact completePkt_later

end Sys2Proof.Machine

/-! PROOF. Frames that several of the statements below need: folds of steps, tables, and the tables that a step leaves alone. -/

namespace Sys2Proof.Machine

/-- A reading that every step of a fold leaves is left by the fold. -/
theorem foldl_reads {α β σ : Type} {f : σ → α → σ} (read : σ → β) (h : ∀ s x, read (f s x) = read s) :
    ∀ (l : List α) (s : σ), read (l.foldl f s) = read s
  | [], _ => rfl
  | x :: l, s => (foldl_reads read h l (f s x)).trans (h s x)

theorem Tab.find_eq_none_iff {α : Type} {t : Tab α} {n : Nat} : Tab.find t n = none ↔ ∀ e ∈ t, e.1 ≠ n := by
  induction t with
  | nil => simp [Tab.find]
  | cons e t ih =>
    obtain ⟨j, y⟩ := e
    by_cases hj : j = n
    · simp [Tab.find, hj]
    · simp [Tab.find, hj, ih]

/-- An entry of a table with one entry a key is what the table answers. -/
theorem TabOk.find_of_mem {α : Type} {e : Nat × α} : ∀ {t : Tab α}, TabOk t → e ∈ t → Tab.find t e.1 = some e.2
  | [], _, he => absurd he List.not_mem_nil
  | x :: t, ht, he => by
    obtain ⟨hfirst, hrest⟩ := List.pairwise_cons.1 ht
    obtain rfl | he := List.mem_cons.1 he
    · simp [Tab.find]
    · rw [Tab.find, if_neg (Nat.ne_of_lt (hfirst e he))]
      exact TabOk.find_of_mem hrest he

theorem waveOf_of_mem {s : State} (h : TabOk s.waves) {e : Nat × Wave} (he : e ∈ s.waves) : waveOf s e.1 = some e.2 := h.find_of_mem he

/-- The turn of one entry of a table in a fold: its key stands neither before it nor after it. -/
theorem TabOk.split_at {α : Type} {l : Tab α} (hl : TabOk l) {e : Nat × α} (he : e ∈ l) :
    ∃ l1 l2, l = l1 ++ e :: l2 ∧ e.1 ∉ l1.map (·.1) ∧ e.1 ∉ l2.map (·.1) := by
  obtain ⟨l1, l2, rfl⟩ := List.append_of_mem he
  obtain ⟨-, hafter, hacross⟩ := List.pairwise_append.1 hl
  refine ⟨l1, l2, rfl, fun h => ?_, fun h => ?_⟩
  · obtain ⟨x, hx, hkey⟩ := List.mem_map.1 h
    exact absurd (hacross x hx e (List.mem_cons_self ..)) (by omega)
  · obtain ⟨x, hx, hkey⟩ := List.mem_map.1 h
    exact absurd ((List.pairwise_cons.1 hafter).1 x hx) (by omega)

/-- Two tables with one entry a key that answer alike are the same. -/
theorem TabOk.ext {α : Type} {t u : Tab α} (ht : TabOk t) (hu : TabOk u) (h : ∀ k, Tab.find t k = Tab.find u k) : t = u := by
  have hmem : ∀ e, e ∈ t ↔ e ∈ u := fun e =>
    ⟨fun he => Tab.mem_of_find _ _ _ ((h e.1).symm.trans (ht.find_of_mem he)), fun he => Tab.mem_of_find _ _ _ ((h e.1).trans (hu.find_of_mem he))⟩
  have hne : ∀ {l : Tab α}, TabOk l → l.Nodup := fun hl => hl.imp fun hlt heq => absurd (congrArg Prod.fst heq) (Nat.ne_of_lt hlt)
  exact ((List.perm_ext_iff_of_nodup (hne ht) (hne hu)).2 hmem).eq_of_pairwise
    (fun _ _ _ _ hab hba => absurd hab (Nat.not_lt.2 (Nat.le_of_lt hba))) ht hu

theorem coreOf_modCore_same (s : State) (c : Nat) (f : Core → Core) : coreOf (modCore s c f) c = f (coreOf s c) :=
  (coreOf_modCore ..).trans (if_pos rfl)

end Sys2Proof.Machine

/-! PROOF. A step is the named event or a cycle of a core, and what an issued bundle runs (R47, R52, R59, R228, R262). -/

namespace Sys2Proof.Machine

/-! ### The candidates of a cycle (R59, R262) -/

theorem nextBundle_entry {s : State} {wid : Nat} {w : Wave} {t : Fetched} {b : Bundle} (h : nextBundle s wid w = some (t, b)) :
    w.tok = some t ∧ ∃ d, entryIn s (coreNo wid) (keyOf w t.idx) = some d ∧ b = bundleOf d.word := by
  unfold nextBundle at h
  cases htok : w.tok with
  | none => simp [htok] at h
  | some t' =>
    simp only [htok, Option.map_eq_some_iff, Prod.mk.injEq] at h
    obtain ⟨d, hd, rfl, rfl⟩ := h
    exact ⟨rfl, d, hd, rfl⟩

theorem nextOf_wave {s u : State} {idle : List Nat} {wid : Nat} {w : Wave} {t : Fetched} {b : Bundle} (h : nextOf s idle wid = some (w, t, b, u)) :
    waveOf s wid = some w ∧ nextBundle s wid w = some (t, b) := by
  unfold nextOf at h
  cases hw : waveOf s wid with
  | none => simp [hw] at h
  | some v =>
    simp only [hw] at h
    split at h
    · simp only [Option.map_eq_some_iff, Prod.mk.injEq] at h
      obtain ⟨x, hx, rfl, rfl, rfl, rfl⟩ := h
      exact ⟨rfl, hx⟩
    · exact absurd h (by simp)

/-- A candidate is the wave that its slot holds, with the token and bundle that it would issue. -/
theorem candOf_next {s : State} {core wid : Nat} {idle : List Nat} {c : Cand} (h : candOf s core idle wid = some c) :
    c.wid = wid ∧ waveOf s wid = some c.w ∧ nextBundle s wid c.w = some (c.t, c.b) := by
  unfold candOf at h
  cases hnext : nextOf s idle wid with
  | none => simp [hnext] at h
  | some x =>
    obtain ⟨w, t, b, u⟩ := x
    simp only [hnext] at h
    split at h
    · exact absurd h (by simp)
    · simp only [Option.some.injEq] at h
      subst h
      exact ⟨rfl, nextOf_wave hnext⟩

/-! ### The issue of a bundle (R52) -/

theorem modLaunch_cur (s : State) (lid : Nat) (f : Launch → Launch) : (modLaunch s lid f).cur = s.cur := by
  unfold modLaunch; split <;> rfl

/-- Before the slots act the bundle is the current one. -/
theorem beginIssue_cur (s : State) (core : Nat) (c : Cand) : (beginIssue s core c).cur =
    { wid := c.wid, here := c.w.pc, next := c.w.pc + BitVec.ofNat 32 c.t.len, imm := c.t.imm.getD 0, immWide := c.t.immWide,
      sp := c.b.sp, mask := c.t.mask.getD 0, ser := s.serial, go := true } := modLaunch_cur ..

theorem beginIssue_mem (s : State) (core : Nat) (c : Cand) : (beginIssue s core c).mem = s.mem := modLaunch_mem ..

/-- Before the slots act the wave stands behind the token. -/
theorem waveOf_beginIssue (s : State) (core : Nat) (c : Cand) : waveOf (beginIssue s core c) c.wid = some { c.w with
    pc := c.w.pc + BitVec.ofNat 32 c.t.len
    tok := none
    waitCnt := c.b.wait.toNat
    age := 0
    withheld := 0
    exempt := false
    yielded := none } := Tab.find_put_same ..

/-- A bundle of one operation carries out that one, the bundle of none the empty bundle. -/
theorem issueOrder_single {b : Bundle} {i : Instr} (h : bundleOps b = [i] ∨ (bundleOps b = [] ∧ i = .emptyBundle)) : issueOrder b = [i] := by
  obtain h | ⟨h, rfl⟩ := h
  · simp only [issueOrder, h, List.filter_cons, List.filter_nil]
    cases comesLast i <;> rfl
  · simp only [issueOrder, h]

theorem attemptAll_single {ex : Exec} {i : Instr} {s t : State} (h : ex i s = .next t) : attemptAll ex [i] s = .next t := by
  simp only [attemptAll, attempt, h, andThen]

/-- What the issue of a bundle adds to its operations where it makes no request of an operating point. -/
theorem issueBundle_of_ops {ex : Exec} {core : Nat} {c : Cand} {cs : List Cand} {s t : State} (hopp : c.b.opp = none)
    (h : attemptAll ex (issueOrder c.b) (beginIssue s core c) = .next t) :
    issueBundle ex core c cs s = .next (bump (unmark core c.wid (markYield
      (modWave { t with cur := { t.cur with go := false } } c.wid fun w => { w with
        tainted := w.tainted ++ (taints s c.wid c.w c.b).filter fun r => t.copies.any fun e => e.2.wid == c.wid && e.2.dreg == r })
      c cs))) := by
  simp only [issueBundle, h, andThen, hopp]

/-- Settles O39: the move by the order of moves, a candidate by what it was made from, an issue by its one operation. -/
theorem stepRunsTheDecodedBundle : Obligations.StepRunsTheDecodedBundle := by
  unfold Obligations.StepRunsTheDecodedBundle
  refine fun s => ⟨fun i t h => ?_, fun c t h => ?_, fun core idle wid c hc => ?_, fun core c => ?_, fun core c cs i t hops hopp ht => ?_⟩
  · simp only [step, move, h]
  · simp only [step, move, h]
  · obtain ⟨hwid, hwave, hnext⟩ := candOf_next hc
    obtain ⟨htok, d, hd, hb⟩ := nextBundle_entry hnext
    exact ⟨d, hwid, hwave, htok, hd, hb⟩
  · exact ⟨beginIssue_cur s core c, beginIssue_mem s core c, waveOf_beginIssue s core c⟩
  · refine issueBundle_of_ops hopp ?_
    rw [issueOrder_single hops]
    exact attemptAll_single ht

end Sys2Proof.Machine

/-! PROOF. EXIT, YIELD, FELRD and the empty bundle (R49, R51, R317, R321, R396). -/

namespace Sys2Proof.Machine

/-! ### EXIT (R317) -/

/-- Only the live lanes of a mask leave the live mask. -/
theorem and_not_effective {n : Nat} (live m : BitVec n) : live &&& ~~~(m &&& live) = live &&& ~~~m := by
  apply BitVec.eq_of_getLsbD_eq
  intro i hi
  simp only [BitVec.getLsbD_and, BitVec.getLsbD_not, hi, decide_true, Bool.true_and]
  cases live.getLsbD i <;> simp

theorem release_epoch (s : State) (wid : Nat) (w : Wave) (t : RelTarget) :
    (coreOf (release s wid w t) (coreNo wid)).epoch = (coreOf s (coreNo wid)).epoch + 1 := publish_epoch s (coreNo wid)

/-- The release that a wave starts: of the publication that it starts with it. -/
theorem release_rels (s : State) (wid : Nat) (w : Wave) (t : RelTarget) : ∃ r, Tab.find (release s wid w t).rels s.nextId = some r ∧
    r.target = t ∧ r.epoch = (coreOf s (coreNo wid)).epoch + 1 ∧ r.wid = wid :=
  ⟨_, Tab.find_put_same .., rfl, publish_epoch s (coreNo wid), rfl⟩

/-- A wave whose lanes in a mask have left it (R317). -/
def exitWave (w : Wave) (m : Word) : Wave := { w with live := w.live &&& ~~~m, exiting := (w.live &&& ~~~m) == 0 }

theorem exec_exit {s : State} {w : Wave} {k : BitVec 4} (hi : Issues (.exit k) s w) : exec (.exit k) s =
    .next (bump (setWave (release s s.cur.wid w .fence) s.cur.wid (exitWave w (rdK s w (tagOf 0 0) k.toNat)))) := by
  change execExit k s = _
  refine (slotOp_issues hi).trans ?_
  simp only [effMask, and_not_effective, exitWave]

theorem waveOf_released (s : State) (wid k : Nat) (w v : Wave) (t : RelTarget) :
    waveOf (setWave (release s wid w t) wid v) k = if k = wid then some v else waveOf s k := waveOf_setWave ..

/-! ### YIELD (R396) -/

section Yield

variable {s : State} {w : Wave} (hi : Issues .yield s w)
include hi

theorem exec_yield_handler (hsup : w.sup = true) : exec .yield s = .next (waveBecomes s { w with age := 0 }) := by
  change execYield s = _
  refine (slotOp_issues hi).trans ?_
  simp only [hsup, if_true, waveBecomes]

theorem exec_yield_requested (hsup : w.sup = false) (hreq : w.preempt = true) :
    exec .yield s = .next (waveBecomes s { w with stopping := some (BitVec.allOnes 64) }) := by
  change execYield s = _
  refine (slotOp_issues hi).trans ?_
  simp only [hsup, hreq, if_true, Bool.false_eq_true, if_false, waveBecomes, allLive]

theorem exec_yield_marks (hsup : w.sup = false) (hreq : w.preempt = false) :
    exec .yield s = .next (waveBecomes s { w with age := 0, yielded := some (yieldMark s s.cur.wid w) }) := by
  change execYield s = _
  refine (slotOp_issues hi).trans ?_
  simp only [hsup, hreq, Bool.false_eq_true, if_false, waveBecomes]

end Yield

/-! ### FELRD and the empty bundle (R51, R321) -/

theorem exec_felrd {s : State} {w : Wave} {f : FelrdF} (hi : Issues (.felrd f) s w) : exec (.felrd f) s = .next (waveBecomes s
    { pushWin w (sWrite w.sup f.d.toNat (felWord w.fel)) 1 with fel := if f.clr then Fel.init else w.fel }) := by
  change execFelrd f s = _
  refine (slotOp_issues hi).trans ?_
  cases f.clr <;> rfl

theorem felWord_eq (e : Fel) : felWord e = BitVec.ofNat 64 (if e.valid then
    2 ^ 63 + e.sticky.toNat * 2 ^ 43 + e.kind * 2 ^ 40 + e.lane * 2 ^ 35 + e.slot * 2 ^ 32 + e.addr.toNat else e.sticky.toNat * 2 ^ 43) := by
  unfold felWord
  split <;> rfl

theorem exec_emptyBundle {s : State} {w : Wave} (hw : Issuing s w) : exec .emptyBundle s = .next (bump s) := by
  change execEmptyBundle s = _
  simp only [execEmptyBundle, show waveOf s s.cur.wid = some w from hw, done]

/-- Settles O12: what each operation makes of its wave and, for EXIT, of its core's publications and releases. -/
theorem waveControl : Obligations.WaveControl := by
  unfold Obligations.WaveControl
  refine fun s w hw => ⟨fun k hi => ?_, fun hi => ⟨exec_yield_handler hi, exec_yield_requested hi, fun hsup hreq => ⟨_, exec_yield_marks hi hsup hreq⟩⟩,
    fun f hi => ?_, exec_emptyBundle hw⟩
  · refine ⟨_, exec_exit hi, (waveOf_released ..).trans (if_pos rfl), release_epoch s s.cur.wid w .fence, release_rels s s.cur.wid w .fence, rfl,
      fun x hx => (waveOf_released ..).trans (if_neg hx)⟩
  · intro e r
    rw [exec_felrd hi, felWord_eq]

end Sys2Proof.Machine

/-! PROOF. Slices of the dies, pre-emption requests and the watchdog (R46, R261, R275). -/

namespace Sys2Proof.Machine

/-! ### The end of a slice (R261) -/

theorem waitsOn_of_nextFunc {s : State} {die vf v : Nat} (h : nextFunc s die vf = some v) : waitsOn s v die = true :=
  List.find?_some (p := fun v => waitsOn s v die) h

/-- What keeps a die from passing on: its slice runs, it is off, or a body on it cannot be stopped. -/
def SliceHeld (s : State) (die : Nat) : Prop :=
  s.now / 105 < (dieOf s die).sliceEnd ∨ (dieOf s die).off = true ∨ ∃ e ∈ onDie s die, canStop s e.1 = false

theorem sliceHeld_iff {s : State} {die : Nat} : SliceHeld s die ↔
    (ticks s < (dieOf s die).sliceEnd ∨ (dieOf s die).off = true ∨ ((onDie s die).any fun e => !canStop s e.1) = true) := by
  simp [SliceHeld, ticks, Config.tickUnits]

theorem exec_sliceEnd_held {s : State} {die : BitVec 3} (h : SliceHeld s die.toNat) : exec (.sliceEnd die) s = .refused .notEnabled := by
  change execSliceEnd die s = _
  simp only [execSliceEnd, if_pos (sliceHeld_iff.1 h), notEnabled]

theorem exec_sliceEnd_nobody {s : State} {die : BitVec 3} (h : nextFunc s die.toNat (dieOf s die.toNat).granted = none) :
    exec (.sliceEnd die) s = .refused .notEnabled := by
  change execSliceEnd die s = _
  simp only [execSliceEnd, h, notEnabled, ite_self]

theorem exec_sliceEnd_passes {s : State} {die : BitVec 3} {v : Nat} (hfree : ¬ SliceHeld s die.toNat)
    (hv : nextFunc s die.toNat (dieOf s die.toNat).granted = some v) :
    exec (.sliceEnd die) s = .next (bump (setDie s die.toNat { dieOf s die.toNat with
      granted := v
      outgoing := (dieOf s die.toNat).granted
      sliceEnd := s.now / 105 + (funcOf s v).weight * s.quantum })) := by
  change execSliceEnd die s = _
  simp only [execSliceEnd, if_neg (mt sliceHeld_iff.2 hfree), hv, done]
  rfl

/-! ### The request (R275 step 1) -/

theorem waveOf_postRequest (s : State) (lid k : Nat) : waveOf (postRequest s lid) k = (waveOf s k).map fun w =>
    if w.lid = lid ∧ w.st ≠ .retired then { w with preempt := true, watchdog := 0 } else w := by
  rw [waveOf, postRequest, modLaunch_waves]
  exact Tab.find_map s.waves (fun _ w => if w.lid = lid ∧ w.st ≠ .retired then { w with preempt := true, watchdog := 0 } else w) k

theorem postRequest_mem (s : State) (lid : Nat) : (postRequest s lid).mem = s.mem := modLaunch_mem ..

theorem launchOf_postRequest {s : State} {lid : Nat} {l : Launch} (hl : launchOf s lid = some l) :
    launchOf (postRequest s lid) lid = some { l with stopping := true } := launchOf_modLaunch _ hl

section Request

variable {s : State} {lid : Nat} {l : Launch} (hl : launchOf s lid = some l)
include hl

theorem exec_preemptRequest_due (hpass : (dieOf s l.die).granted ≠ (dieOf s l.die).outgoing) (hfirst : (toStop s l.die).head? = some lid)
    (hnone : ∀ e ∈ onDie s l.die, e.2.stopping = false) (hwaits : waitsOn s (dieOf s l.die).granted l.die = true)
    (hfits : incomingFits s (dieOf s l.die).granted l.die = false) : exec (.preemptRequest lid) s = .next (bump (postRequest s lid)) := by
  have hquiet : ((onDie s l.die).any fun e => e.2.stopping) = false := by simpa using hnone
  change execPreemptRequest lid s = _
  simp [execPreemptRequest, hl, hpass, hfirst, hquiet, hwaits, hfits, done]

theorem exec_preemptRequest_refused (h : (dieOf s l.die).granted = (dieOf s l.die).outgoing ∨ waitsOn s (dieOf s l.die).granted l.die = false ∨
    incomingFits s (dieOf s l.die).granted l.die = true) : exec (.preemptRequest lid) s = .refused .notEnabled := by
  change execPreemptRequest lid s = _
  obtain h | h | h := h <;> simp [execPreemptRequest, hl, h, notEnabled]

end Request

/-! ### The watchdog (R46) -/

section Watchdog

variable {s : State} {wid : Nat} {w : Wave} {l : Launch} (hw : waveOf s wid = some w) (hl : launchOf s w.lid = some l)
include hw hl

theorem exec_watchdogExpiry_due (hreq : w.preempt = true) (hstopped : w.st ≠ .stopped) (hhalted : w.st ≠ .halted) (hretired : w.st ≠ .retired)
    (hlimit : 2 ^ l.htab.wd ≤ w.watchdog) : exec (.watchdogExpiry wid) s = .next (bump (killWave s wid w 0x0E w.pc 0)) := by
  change execWatchdogExpiry wid s = _
  simp [execWatchdogExpiry, hw, hl, hreq, hstopped, hhalted, hretired, hlimit, done]

theorem exec_watchdogExpiry_early (h : w.watchdog < 2 ^ l.htab.wd) : exec (.watchdogExpiry wid) s = .refused .notEnabled := by
  change execWatchdogExpiry wid s = _
  simp [execWatchdogExpiry, hw, hl, Nat.not_le.2 h, notEnabled]

end Watchdog

/-- Settles O51: each event's outcome from its conditions, and the request's effect wave by wave. -/
theorem slicesRequestsAndWatchdog : Obligations.SlicesRequestsAndWatchdog := by
  unfold Obligations.SlicesRequestsAndWatchdog
  refine fun s => ⟨fun die => ⟨?_, fun v hend hoff hcan hv => ?_⟩, fun lid l hl => ⟨fun hpass hfirst hnone hwaits hfits => ?_, ?_⟩,
    fun wid w l hw hl hreq => ⟨exec_watchdogExpiry_due hw hl hreq, exec_watchdogExpiry_early hw hl⟩⟩
  · rintro (h | h | h | h)
    · exact exec_sliceEnd_held (.inl h)
    · exact exec_sliceEnd_held (.inr (.inl h))
    · exact exec_sliceEnd_held (.inr (.inr h))
    · exact exec_sliceEnd_nobody h
  · refine ⟨waitsOn_of_nextFunc hv, exec_sliceEnd_passes ?_ hv⟩
    rintro (h | h | ⟨e, he, h⟩)
    · omega
    · simp [hoff] at h
    · simp [hcan e he] at h
  · refine ⟨_, exec_preemptRequest_due hl hpass hfirst hnone hwaits hfits, launchOf_postRequest hl, postRequest_mem s lid, fun k w hw => ?_⟩
    exact (waveOf_postRequest s lid k).trans (by rw [hw]; rfl)
  · exact exec_preemptRequest_refused hl

end Sys2Proof.Machine

/-! PROOF. Operating points, the allowance, the matrix throttle, the caps and withholding (R42, R47, R285, R287 to R289, R291). -/

namespace Sys2Proof.Machine

/-! ### Operating points (R285) -/

section OperatingPoint

variable {s : State} {core : Nat} {t : Trans} (ht : (coreOf s core).trans = some t)
include ht

theorem exec_oppPhaseEnd_due (hphase : t.phase2 = false) (hend : t.end_ ≤ s.now) :
    exec (.oppPhaseEnd core) s = .next (bump (setCore s core { coreOf s core with
      trans := some { t with phase2 := true, end_ := t.end_ + if t.up then 48 * Config.period (coreOf s core).op else 150 * 126 } })) := by
  change execOppPhaseEnd core s = _
  simp only [execOppPhaseEnd, ht, hphase, hend, Bool.not_false, decide_true, Bool.and_self, if_true, done, slewTime]

theorem exec_oppPhaseEnd_refused (h : t.phase2 = true ∨ s.now < t.end_) : exec (.oppPhaseEnd core) s = .refused .notEnabled := by
  change execOppPhaseEnd core s = _
  have hnot : ¬ ((!t.phase2 && decide (t.end_ ≤ s.now)) = true) := by
    obtain h | h := h <;> simp [h]
  simp only [execOppPhaseEnd, ht, if_neg hnot, notEnabled]

theorem exec_oppTransitionEnd_due (hphase : t.phase2 = true) (hend : t.end_ ≤ s.now) :
    exec (.oppTransitionEnd core) s =
      .next (bump (retarget (modCore (wake s core) core fun x => { x with op := t.target, trans := none }) core)) := by
  change execOppTransitionEnd core s = _
  simp only [execOppTransitionEnd, ht, hphase, hend, decide_true, Bool.and_self, if_true, done]

theorem exec_oppTransitionEnd_refused (h : t.phase2 = false ∨ s.now < t.end_) : exec (.oppTransitionEnd core) s = .refused .notEnabled := by
  change execOppTransitionEnd core s = _
  have hnot : ¬ ((t.phase2 && decide (t.end_ ≤ s.now)) = true) := by
    obtain h | h := h <;> simp [h]
  simp only [execOppTransitionEnd, ht, if_neg hnot, notEnabled]

end OperatingPoint

theorem quietGain_dies (s : State) (cl : Nat) : (quietGain s cl).dies = s.dies := by
  unfold quietGain; split <;> rfl

theorem catchUp_dies (s : State) (c : Nat) : (catchUp s c).dies = s.dies := by
  unfold catchUp; extract_lets; split <;> rfl

theorem coreOf_catchUp_ne (s : State) {c k : Nat} (h : k ≠ c) : coreOf (catchUp s c) k = coreOf s k := by
  unfold catchUp
  extract_lets
  split
  · rfl
  · rw [coreOf_setCore, if_neg h]

theorem coreOf_quietGain (s : State) (cl k : Nat) : coreOf (quietGain s cl) k = coreOf s k :=
  congrArg (Tab.findD · k Core.init) (quietGain_cores s cl)

theorem wake_dies (s : State) (c : Nat) : (wake s c).dies = s.dies := by
  rw [wake, catchUp_dies, quietGain_dies]

theorem coreOf_wake_ne (s : State) {c k : Nat} (h : k ≠ c) : coreOf (wake s c) k = coreOf s k := by
  rw [wake, coreOf_catchUp_ne _ h, coreOf_quietGain]

/-- A core's target follows its shares, the launches and the dies alone (R284). -/
theorem targetOf_congr {s t : State} {c : Nat} (hshares : (coreOf t c).shares = (coreOf s c).shares) (hlaunches : t.launches = s.launches)
    (hdies : t.dies = s.dies) : targetOf t c = targetOf s c := by
  have hgranted : granted t = granted s := by
    unfold granted oppWin dieOf
    rw [hdies]
  unfold targetOf launchOf
  rw [hshares, hlaunches, hgranted]

/-- A core without a transition begins one where it does not stand at its target. -/
theorem retarget_of_settled {s : State} {c : Nat} (h : (coreOf s c).trans = none) :
    retarget s c = if targetOf s c = (coreOf s c).op then s else
      setCore s c { coreOf s c with
        trans := some {
          target := targetOf s c
          up := decide ((coreOf s c).op < targetOf s c)
          phase2 := false
          end_ := s.now + if (coreOf s c).op < targetOf s c then slewTime else 48 * Config.period (coreOf s c).op } } := by
  simp only [retarget, h]

theorem coreOf_retarget_ne (s : State) {c k : Nat} (h : k ≠ c) : coreOf (retarget s c) k = coreOf s k := by
  unfold retarget
  extract_lets
  split
  · rfl
  · split
    · rfl
    · rw [coreOf_setCore, if_neg h]

/-- A core that has reached a point stands there, and sets out again where its target is another one. -/
theorem retarget_reached {s : State} {core : Nat} (op : Nat) :
    let u := retarget (modCore (wake s core) core fun x => { x with op := op, trans := none }) core
    (coreOf u core).op = op ∧ (targetOf s core = op → (coreOf u core).trans = none) ∧
    (targetOf s core ≠ op → ∃ v, (coreOf u core).trans = some v ∧ v.target = targetOf s core ∧ v.phase2 = false) := by
  intro u
  let m := modCore (wake s core) core fun x => { x with op := op, trans := none }
  have hcore : coreOf m core = { coreOf (wake s core) core with op := op, trans := none } := (coreOf_modCore ..).trans (if_pos rfl)
  have htarget : targetOf m core = targetOf s core :=
    targetOf_congr (by rw [hcore]; exact wake_shares s core) (MachineryMoved.wake s core).launches (wake_dies s core)
  have hu : u = if targetOf m core = (coreOf m core).op then m else _ := retarget_of_settled (s := m) (by rw [hcore])
  rw [htarget, hcore] at hu
  by_cases hreached : targetOf s core = op
  · rw [if_pos hreached] at hu
    rw [hu, hcore]
    exact ⟨rfl, fun _ => rfl, fun h => absurd hreached h⟩
  · rw [if_neg hreached] at hu
    rw [hu, coreOf_setCore, if_pos rfl]
    exact ⟨rfl, fun h => absurd h hreached, fun _ => ⟨_, rfl, rfl, rfl⟩⟩

/-! ### The allowance and the matrix throttle (R287 to R289) -/

theorem exec_allowanceGain_idle {s : State} {cl : Nat} (h : (clus s cl).due = 0) : exec (.allowanceGain cl) s = .refused .notEnabled := by
  change execAllowanceGain cl s = _
  simp only [execAllowanceGain, h, if_true, notEnabled]

theorem exec_allowanceGain_due {s : State} {cl : Nat} (h : (clus s cl).due ≠ 0) :
    exec (.allowanceGain cl) s = .next (bump (setClus s cl { clus s cl with
      due := (clus s cl).due - 1
      allow := min ((clus s cl).allow + (dieOf s (cl / 8)).clbud * s.caps.f) (1024 * (dieOf s (cl / 8)).clbud) })) := by
  have hdie : dieOfCore (4 * cl) = cl / 8 := by unfold dieOfCore; omega
  change execAllowanceGain cl s = _
  simp only [execAllowanceGain, if_neg h, budget, hdie, done]

/-- When the array has no work for the party that used it last (R289). -/
theorem fillIdle_iff {s : State} {core : Nat} : fillIdle s core = true ↔ arrayWork (coreOf s core) = false ∨
    (coreOf s core).fillFor ≠ (coreOf s core).tile ∨ (pilotPaused s core = true ∧ pilotAtRest (coreOf s core) = true) := by
  simp [fillIdle, or_assoc]

section Throttle

variable {s : State} {core : Nat}

theorem exec_allowStep_eq : exec (.allowStep core) s = if (coreOf s core).allow ≠ 0 ∧ 1024 ≤ (coreOf s core).above then
    .next (bump (setCore s core { coreOf s core with allow := (coreOf s core).allow - 1, above := 0 })) else .refused .notEnabled := rfl

theorem exec_rampStep_eq : exec (.rampStep core) s = if (coreOf s core).ramp ≠ 0 ∧ 256 < (coreOf s core).rampCyc then
    .next (bump (setCore s core { coreOf s core with ramp := (coreOf s core).ramp - 1, rampCyc := 1 })) else .refused .notEnabled := rfl

theorem exec_arrayFillDown_begins (hnone : (coreOf s core).filling = none) (hkind : (coreOf s core).lastKind ≠ 0)
    (hidle : fillIdle s core = true) :
    exec (.arrayFillDown core) s = .next (bump (setCore s core { coreOf s core with filling := some 1, lastArray := s.now / 105 })) := by
  change execArrayFillDown core s = _
  simp only [execArrayFillDown, hnone, if_pos (And.intro hkind hidle), done]
  rfl

variable {n : Nat} (hlevel : (coreOf s core).filling = some n)
include hlevel

theorem exec_arrayFillDown_early (h : s.now / 105 < (coreOf s core).lastArray + 300) :
    exec (.arrayFillDown core) s = .refused .notEnabled := by
  change execArrayFillDown core s = _
  have hnot : ¬ (coreOf s core).lastArray + 300 ≤ ticks s := Nat.not_le.2 h
  simp only [execArrayFillDown, hlevel, if_neg hnot, notEnabled]

theorem exec_arrayFillDown_next (hdue : (coreOf s core).lastArray + 300 ≤ s.now / 105) (hn : n < 8) :
    exec (.arrayFillDown core) s = .next (bump (setCore s core { coreOf s core with
      filling := some (n + 1), lastArray := (coreOf s core).lastArray + 300 })) := by
  change execArrayFillDown core s = _
  have hticks : (coreOf s core).lastArray + 300 ≤ ticks s := hdue
  simp only [execArrayFillDown, hlevel, if_pos hticks, if_neg (Nat.not_le.2 hn), done]

theorem exec_arrayFillDown_ends (hdue : (coreOf s core).lastArray + 300 ≤ s.now / 105) (hn : 8 ≤ n) :
    exec (.arrayFillDown core) s = .next (bump (setCore (quietGain s (core / 4)) core { coreOf s core with
      filling := none, lastKind := 0, fillFor := none, ramp := 7, rampCyc := 0 })) := by
  change execArrayFillDown core s = _
  have hticks : (coreOf s core).lastArray + 300 ≤ ticks s := hdue
  simp only [execArrayFillDown, hlevel, if_pos hticks, if_pos hn, done, clusterOf]

end Throttle

/-! ### The caps (R291) -/

theorem nextF_over {f peak avg e10 e1 : Nat} (h : peak * 10 < e10) : nextF f peak avg e10 e1 = max (f / 2) 1 := if_pos h

theorem nextF_near {f peak avg e10 e1 : Nat} (hpeak : e10 ≤ peak * 10) (h : peak * 10 * 15 < 16 * e10 ∨ avg * 1000000 * 15 < 16 * e1) :
    nextF f peak avg e10 e1 = max (f - 16) 1 := by
  rw [nextF, if_neg (Nat.not_lt.2 hpeak), if_pos (by omega)]

theorem nextF_below {f peak avg e10 e1 : Nat} (hpeak : 8 * e10 < peak * 10 * 7) (havg : 8 * e1 < avg * 1000000 * 7) :
    nextF f peak avg e10 e1 = min (f + 1) 256 := by
  rw [nextF, if_neg (by omega), if_neg (by omega), if_pos (by omega)]

/-- Every idle cluster is credited up to the present. -/
def creditClusters (s : State) : State := s.clusters.foldl (fun a e => quietGain a e.1) s

theorem quietGain_caps (s : State) (cl : Nat) : (quietGain s cl).caps = s.caps := by
  unfold quietGain; split <;> rfl

theorem quietGain_now (s : State) (cl : Nat) : (quietGain s cl).now = s.now := by
  unfold quietGain; split <;> rfl

/-- A reading of the state that no credit changes reads the same after all of them. -/
theorem creditClusters_reads {α : Type} (read : State → α) (h : ∀ s cl, read (quietGain s cl) = read s) (s : State) :
    read (creditClusters s) = read s := by
  have hfold : ∀ (l : List (Nat × Cluster4)) (u : State), read (l.foldl (fun a e => quietGain a e.1) u) = read u := by
    intro l
    induction l with
    | nil => exact fun u => rfl
    | cons e l ih => exact fun u => (ih _).trans (h u e.1)
  exact hfold ..

section Caps

variable {s : State} {pwr : Nat}

theorem exec_capMeasurement_early (h : s.now / 105 < (s.caps.made + 1) * 1200) : exec (.capMeasurement pwr) s = .refused .notEnabled := by
  have hnot : ¬ ((creditClusters s).caps.made + 1) * 1200 ≤ ticks (creditClusters s) := by
    rw [creditClusters_reads State.caps quietGain_caps, ticks, creditClusters_reads State.now quietGain_now]
    exact Nat.not_le.2 h
  exact if_neg hnot

theorem exec_capMeasurement_due (h : (s.caps.made + 1) * 1200 ≤ s.now / 105) :
    let e := (pwr :: s.caps.e1).take 1000000
    ∃ t, exec (.capMeasurement pwr) s = .next t ∧ t.caps.e1 = e ∧ t.caps.made = s.caps.made + 1 ∧ t.caps.pwr = pwr ∧
      t.caps.avg = s.caps.avg ∧ t.caps.peak = s.caps.peak ∧ t.waves = s.waves ∧ t.cores = s.cores ∧
      t.caps.f = nextF s.caps.f s.caps.peak s.caps.avg (e.take 10).sum e.sum := by
  have hcaps := creditClusters_reads State.caps quietGain_caps s
  have hdue : ((creditClusters s).caps.made + 1) * 1200 ≤ ticks (creditClusters s) := by
    rw [hcaps, ticks, creditClusters_reads State.now quietGain_now]
    exact h
  intro e
  refine ⟨_, if_pos hdue, ?_, ?_, rfl, ?_, ?_, creditClusters_reads State.waves (fun s cl => (MachineryMoved.quietGain s cl).waves) s,
    creditClusters_reads State.cores quietGain_cores s, ?_⟩
  · exact (congrArg (fun c : Caps => (pwr :: c.e1).take 1000000) hcaps :)
  · exact (congrArg (fun c : Caps => c.made + 1) hcaps :)
  · exact (congrArg Caps.avg hcaps :)
  · exact (congrArg Caps.peak hcaps :)
  · exact (congrArg (fun c : Caps => nextF c.f c.peak c.avg (((pwr :: c.e1).take 1000000).take 10).sum ((pwr :: c.e1).take 1000000).sum) hcaps :)

end Caps

/-! ### Withholding and yielded marks (R42, R47) -/

section Wave

variable {s : State} {wid : Nat} {w : Wave} (hw : waveOf s wid = some w)
include hw

theorem exec_powerExempt_due (h : 192 ≤ w.withheld) (hexempt : w.exempt = false) :
    exec (.powerExempt wid) s = .next (bump (setWave s wid { w with exempt := true })) := by
  have hcond : (Config.exemptAfter ≤ w.withheld && !w.exempt) = true := by simp [Config.exemptAfter, h, hexempt]
  change execPowerExempt wid s = _
  simp only [execPowerExempt, hw, hcond, if_true, done]

theorem exec_powerExempt_refused (h : w.withheld < 192 ∨ w.exempt = true) : exec (.powerExempt wid) s = .refused .notEnabled := by
  have hcond : (Config.exemptAfter ≤ w.withheld && !w.exempt) = false := by
    obtain h | h := h
    · simp [show ¬ Config.exemptAfter ≤ w.withheld from Nat.not_le.2 h]
    · simp [h]
  change execPowerExempt wid s = _
  simp only [execPowerExempt, hw, hcond, Bool.false_eq_true, if_false, notEnabled]

theorem exec_yieldMarkExpiry_due {y : Yield} (hy : w.yielded = some y) (hage : 1024 ≤ y.age) :
    exec (.yieldMarkExpiry wid) s = .next (bump (setWave s wid { w with yielded := none })) := by
  change execYieldMarkExpiry wid s = _
  simp only [execYieldMarkExpiry, hw, hy, hage, if_true, done]

theorem exec_yieldMarkExpiry_refused (h : ∀ y, w.yielded = some y → y.age < 1024) : exec (.yieldMarkExpiry wid) s = .refused .notEnabled := by
  change execYieldMarkExpiry wid s = _
  cases hy : w.yielded with
  | none => simp only [execYieldMarkExpiry, hw, hy, notEnabled]
  | some y => simp only [execYieldMarkExpiry, hw, hy, if_neg (Nat.not_le.2 (h y hy)), notEnabled]

end Wave

/-- Settles O57: each event's outcome from its conditions; F by the three bands of `nextF`. -/
theorem powerControlsMove : Obligations.PowerControlsMove := by
  unfold Obligations.PowerControlsMove
  intro s
  refine ⟨?_, fun cl => ⟨exec_allowanceGain_idle, exec_allowanceGain_due⟩, fun core => ?_, fun pwr => ?_, fun wid w hw => ?_⟩
  · rintro core _ t rfl ht
    refine ⟨exec_oppPhaseEnd_due ht, exec_oppPhaseEnd_refused ht, fun hphase hend => ?_, exec_oppTransitionEnd_refused ht⟩
    obtain ⟨hop, hstay, hleave⟩ := retarget_reached (s := s) (core := core) t.target
    refine ⟨_, exec_oppTransitionEnd_due ht hphase hend, hop, ?_, fun c hc => ?_, hstay, hleave⟩
    · exact (retarget_waves ..).trans (MachineryMoved.wake s core).waves
    · exact (coreOf_retarget_ne _ hc).trans ((coreOf_modCore ..).trans ((if_neg hc).trans (coreOf_wake_ne s hc)))
  · refine ⟨fun hallow habove => ?_, fun h => ?_, fun hramp hcyc => ?_, fun h => ?_, fun hnone hkind hidle => ?_, ?_, fun n hlevel hdue => ?_⟩
    · exact exec_allowStep_eq.trans (if_pos ⟨hallow, habove⟩)
    · exact exec_allowStep_eq.trans (if_neg (by omega))
    · exact exec_rampStep_eq.trans (if_pos ⟨hramp, hcyc⟩)
    · exact exec_rampStep_eq.trans (if_neg (by omega))
    · exact exec_arrayFillDown_begins hnone hkind (fillIdle_iff.2 hidle)
    · exact fun n hlevel => exec_arrayFillDown_early hlevel
    · exact ⟨exec_arrayFillDown_next hlevel hdue, exec_arrayFillDown_ends hlevel hdue⟩
  · intro c e e10
    refine ⟨exec_capMeasurement_early, fun hdue => ?_⟩
    obtain ⟨t, ht, he1, hmade, hpwr, havg, hpeak, hwaves, hcores, hf⟩ := exec_capMeasurement_due (pwr := pwr) hdue
    refine ⟨t, ht, he1, hmade, hpwr, havg, hpeak, hwaves, hcores, fun hover => ?_, fun hunder hnear => ?_, fun hlow10 hlow1 => ?_⟩
    · exact hf.trans (nextF_over hover)
    · exact hf.trans (nextF_near hunder hnear)
    · exact hf.trans (nextF_below hlow10 hlow1)
  · exact ⟨exec_powerExempt_due hw, exec_powerExempt_refused hw, fun y hy => exec_yieldMarkExpiry_due hw hy, exec_yieldMarkExpiry_refused hw⟩

end Sys2Proof.Machine

/-! PROOF. Publications, releases and early evictions (R37, R211, R217, R254). -/

namespace Sys2Proof.Machine

/-! ### Steps that start no release -/

/-- No release stands in the second state that did not stand in the first. -/
structure NoNewRels (s t : State) : Prop where
  none_of_none : ∀ k, Tab.find s.rels k = none → Tab.find t.rels k = none

namespace NoNewRels

variable {s t u : State}

theorem of_eq (h : t.rels = s.rels) : NoNewRels s t := ⟨fun k hk => by rw [h]; exact hk⟩

theorem trans (h : NoNewRels s t) (h' : NoNewRels t u) : NoNewRels s u :=
  ⟨fun k hk => h'.none_of_none k (h.none_of_none k hk)⟩

theorem foldl {α : Type} {f : State → α → State} (hf : ∀ s x, NoNewRels s (f s x)) : ∀ (l : List α) (s : State), NoNewRels s (l.foldl f s)
  | [], _ => of_eq rfl
  | x :: l, s => (hf s x).trans (foldl hf l (f s x))

end NoNewRels

theorem putCommits_rels (o : Origin) : ∀ (bs : List Byte) (s : State) (loc : Nat), (putCommits s o loc bs).rels = s.rels
  | [], _, _ => rfl
  | _ :: bs, _, loc => putCommits_rels o bs _ (loc + 1)

theorem commitBytes_rels (s : State) (o : Origin) (loc : Nat) (bs : List Byte) : (commitBytes s o loc bs).rels = s.rels := putCommits_rels ..

theorem writeSide_rels (s : State) (host : Bool) (a : Nat) (bs : List Byte) : (writeSide s host a bs).rels = s.rels := by
  unfold writeSide
  split
  · rfl
  · exact commitBytes_rels ..

theorem putAcc_rels (s : State) (id : Nat) (a : Acc) : (putAcc s id a).rels = s.rels := by
  unfold putAcc; split <;> rfl

theorem passStores_rels (s : State) (id wid lo hi : Nat) : (passStores s id wid lo hi).rels = s.rels := by
  unfold passStores
  exact foldl_reads State.rels (fun t (e : Nat × Acc) => putAcc_rels t e.1 _) _ s

theorem spoil_rels (s : State) (ws : List Nat) : (spoil s ws).rels = s.rels := by
  unfold spoil; split <;> rfl

theorem holdL2_rels (s : State) (asid va loc n : Nat) (direct : Bool) : (holdL2 s asid va loc n direct).rels = s.rels := by
  unfold holdL2; split <;> rfl

theorem atL2_rels (s : State) (a : Acc) (va loc n : Nat) : (atL2 s a va loc n).rels = s.rels := by
  unfold atL2
  extract_lets s1 spans
  refine (spoil_rels ..).trans ?_
  unfold s1
  split
  · rfl
  · exact holdL2_rels ..

theorem aliasStore_rels (s before : State) (o : Origin) (loc n : Nat) : (aliasStore s before o loc n).rels = s.rels := by
  unfold aliasStore
  split
  · extract_lets cut
    split
    · refine foldl_reads State.rels (fun t i => ?_) (List.range n) s
      split <;> rfl
    · rfl
  · rfl

theorem commitAt_rels (s : State) (id : Nat) (a : Acc) (va loc : Nat) (bs : List Byte) (atom : Bool) :
    (commitAt s id a va loc bs atom).rels = s.rels := by
  unfold commitAt
  extract_lets s1 o s2
  have h1 : s1.rels = s.rels := by
    unfold s1
    split
    · rfl
    · exact passStores_rels ..
  calc s2.rels = (atL2 (commitBytes s1 o loc bs) a va loc bs.length).rels := aliasStore_rels ..
    _ = s1.rels := (atL2_rels ..).trans (commitBytes_rels ..)
    _ = s.rels := h1

theorem commitPiece_rels (s : State) (id i : Nat) : (commitPiece s id i).rels = s.rels := by
  unfold commitPiece
  split
  · rfl
  · split
    · rfl
    · split
      · rfl
      · exact (putAcc_rels ..).trans (commitAt_rels ..)

theorem runGo_rels (id : Nat) (a : Acc) (loc : Nat) : ∀ (ps : List Piece) (s : State), (runGo id a loc ps s).2.rels = s.rels
  | [], _ => rfl
  | p :: ps, s => by
    unfold runGo
    split
    · extract_lets old s1 r
      refine (runGo_rels id a loc ps s1).trans ?_
      unfold s1
      split
      · exact commitAt_rels ..
      · rfl
    · exact runGo_rels id a loc ps s

theorem modWave_rels (s : State) (wid : Nat) (f : Wave → Wave) : (modWave s wid f).rels = s.rels := by
  unfold modWave; split <;> rfl

theorem noteSyncs_rels (s : State) (id : Nat) (a : Acc) (loc : Nat) : (noteSyncs s id a loc).rels = s.rels := by
  unfold noteSyncs
  split
  · exact modWave_rels ..
  · rfl

/-! A kill drops releases and starts none. -/

theorem settlePieces_rels (id : Nat) (a : Acc) (tag : Nat) : ∀ (ps : List Piece) (n : Nat) (s : State), (settlePieces s id a tag ps n).rels = s.rels
  | [], _, _ => rfl
  | p :: ps, n, s => by
    unfold settlePieces
    refine (settlePieces_rels id a tag ps (n + 1) _).trans ?_
    split
    · split
      · rfl
      · exact commitBytes_rels ..
    · rfl

theorem settleTile_rels (s : State) (id : Nat) (a : Acc) (tag : Nat) (ps : List Piece) : (settleTile s id a tag ps).rels = s.rels := by
  unfold settleTile
  split
  · rfl
  · refine foldl_reads State.rels (fun t p => ?_) ps s
    split
    · exact putCommits_rels ..
    · rfl

theorem settleAcc_rels (s : State) (e : Nat × Acc) : (settleAcc s e).rels = s.rels := by
  unfold settleAcc
  split
  · rfl
  · split
    · exact settlePieces_rels ..
    · exact settleTile_rels ..
    · rfl

theorem settleBytes_rels (c : Copy) (tag : Nat) : ∀ (l : List Nat) (s : State), (settleBytes s c tag l).rels = s.rels
  | [], _ => rfl
  | k :: l, s => by
    unfold settleBytes
    refine (settleBytes_rels c tag l _).trans ?_
    split
    · split <;> rfl
    · rfl

theorem settleCopy_rels (s : State) (e : Nat × Copy) : (settleCopy s e).rels = s.rels := by
  unfold settleCopy
  split
  · exact settleBytes_rels ..
  · exact settleBytes_rels ..
  · rfl

theorem modLaunch_rels (s : State) (lid : Nat) (f : Launch → Launch) : (modLaunch s lid f).rels = s.rels := by
  unfold modLaunch; split <;> rfl

theorem retarget_rels (s : State) (c : Nat) : (retarget s c).rels = s.rels := by
  obtain ⟨_, _, _, h⟩ := MachineryMoved.retarget s c
  rw [h]

theorem NoNewRels.endLaunch (s : State) (lid : Nat) : NoNewRels s (endLaunch s lid) := by
  unfold Machine.endLaunch
  extract_lets s1 onCores vf back s2 s3
  have h1 : NoNewRels s s1 := .of_eq (foldl_reads State.rels settleAcc_rels _ s)
  have h2 : NoNewRels s1 s2 := ⟨fun k hk =>
    Tab.find_eq_none_iff.2 fun e he => Tab.find_eq_none_iff.1 hk e (List.mem_filter.1 he).1⟩
  have h3 : NoNewRels s2 s3 := .of_eq (modLaunch_rels ..)
  exact ((h1.trans h2).trans h3).trans (.of_eq (foldl_reads State.rels retarget_rels onCores s3))

theorem NoNewRels.killLaunch (s : State) (lid code die core slot addr detail : Nat) :
    NoNewRels s (killLaunch s lid code die core slot addr detail) := by
  unfold Machine.killLaunch
  split
  · exact .of_eq rfl
  · extract_lets ks s1 s2 s3
    have h1 : NoNewRels s s1 := .of_eq (foldl_reads State.rels settleCopy_rels _ s)
    have h2 : NoNewRels s1 s2 := .foldl NoNewRels.endLaunch ks s1
    exact (h1.trans h2).trans (.of_eq (writeSide_rels ..))

theorem NoNewRels.dataError (s : State) (wid : Nat) (addr : Word) : NoNewRels s (dataError s wid addr) := by
  unfold Machine.dataError
  split
  · exact .killLaunch ..
  · exact .of_eq rfl

theorem NoNewRels.runAtom (s : State) (id : Nat) (a : Acc) : NoNewRels s (runAtom s id a) := by
  unfold Machine.runAtom
  split
  · exact .of_eq rfl
  · split
    · exact .of_eq rfl
    · split
      · exact .dataError ..
      · extract_lets r
        have hrun : r.2.rels = s.rels := (runGo_rels ..).trans ((noteSyncs_rels ..).trans (holdL2_rels ..))
        split <;> exact .of_eq hrun

/-- What a released access commits starts no release. -/
theorem NoNewRels.commitAll : ∀ (n id : Nat) (s : State), NoNewRels s (commitAll n id s)
  | 0, _, _ => .of_eq rfl
  | n + 1, id, s => by
    unfold Machine.commitAll
    split
    · exact .of_eq rfl
    · split
      · split
        · exact .trans (.of_eq (commitPiece_rels ..)) (NoNewRels.commitAll n id _)
        · exact .of_eq rfl
      · split
        · exact .trans (.runAtom ..) (NoNewRels.commitAll n id _)
        · exact .of_eq rfl
      · split
        · exact .trans (.runAtom ..) (NoNewRels.commitAll n id _)
        · exact .of_eq rfl
      · exact .of_eq rfl

theorem fenceWalks_frame (s : State) (r : Rel) : ∃ hist, fenceWalks s r = { s with hist := hist } := by
  unfold fenceWalks
  split
  · exact ⟨_, rfl⟩
  · exact ⟨_, rfl⟩

theorem NoNewRels.applyRelease (s : State) (r : Rel) : NoNewRels s (applyRelease s r) := by
  unfold Machine.applyRelease
  split
  · split
    · exact NoNewRels.trans (t := setAcc s _ _) (.of_eq rfl) (.commitAll ..)
    · exact .of_eq rfl
  · split <;> exact .of_eq rfl
  · exact .of_eq rfl
  · obtain ⟨hist, h⟩ := fenceWalks_frame s r
    exact .of_eq (by rw [h])

/-! ### Publications (R211) -/

/-- The oldest publication of a core is complete. -/
def publicationDone (s : State) (core : Nat) : State := modCore s core fun c => { c with pubDone := c.pubDone + 1 }

theorem publicationDone_pubDone (s : State) (core : Nat) :
    (coreOf (publicationDone s core) core).pubDone = (coreOf s core).pubDone + 1 := by
  rw [publicationDone, coreOf_modCore_same]

theorem exec_publicationComplete_due {s : State} {core : Nat} (hleft : (coreOf s core).pubDone < (coreOf s core).epoch)
    (hnone : ∀ e ∈ s.acc, e.2.core = core → e.2.epoch ≠ some ((coreOf s core).pubDone + 1)) :
    exec (.publicationComplete core) s = .next (bump (publicationDone s core)) := by
  have hany : (s.acc.any fun e => e.2.core == core && e.2.epoch == some ((coreOf s core).pubDone + 1)) = false := by
    simpa using fun n a ha hcore => hnone (n, a) ha hcore
  change execPublicationComplete core s = _
  simp [execPublicationComplete, hleft, hany, done, publicationDone]

theorem exec_publicationComplete_refused {s : State} {core : Nat} (h : (coreOf s core).epoch ≤ (coreOf s core).pubDone ∨
    ∃ e ∈ s.acc, e.2.core = core ∧ e.2.epoch = some ((coreOf s core).pubDone + 1)) :
    exec (.publicationComplete core) s = .refused .notEnabled := by
  have hnot : (decide ((coreOf s core).pubDone < (coreOf s core).epoch) &&
      !(s.acc.any fun e => e.2.core == core && e.2.epoch == some ((coreOf s core).pubDone + 1))) = false := by
    obtain h | ⟨e, he, hcore, hepoch⟩ := h
    · simp [Nat.not_lt.2 h]
    · have hany : (s.acc.any fun e => e.2.core == core && e.2.epoch == some ((coreOf s core).pubDone + 1)) = true :=
        List.any_eq_true.2 ⟨e, he, by simp [hcore, hepoch]⟩
      simp [hany]
  change execPublicationComplete core s = _
  simp only [execPublicationComplete, hnot, Bool.false_eq_true, if_false, notEnabled]

/-! ### Releases (R217) -/

section Release

variable {s : State} {id : Nat} {r : Rel} (hr : Tab.find s.rels id = some r)
include hr

theorem exec_releaseApply_early (h : releaseReady s r = false) : exec (.releaseApply id) s = .refused .notEnabled := by
  change execReleaseApply id s = _
  simp only [execReleaseApply, hr, h, Bool.false_eq_true, if_false, notEnabled]

theorem exec_releaseApply_due (h : releaseReady s r = true) :
    exec (.releaseApply id) s = .next (bump (applyRelease { s with rels := Tab.del s.rels id } r)) := by
  change execReleaseApply id s = _
  simp only [execReleaseApply, hr, h, if_true, done]

end Release

/-- An applied release is gone. -/
theorem applyRelease_gone (s : State) (id : Nat) (r : Rel) : Tab.find (applyRelease { s with rels := Tab.del s.rels id } r).rels id = none :=
  (NoNewRels.applyRelease _ r).none_of_none id (by rw [Tab.find_del, if_pos rfl])

theorem applyRelease_fence {s : State} {r : Rel} (h : r.target = .fence) : ∃ hist, applyRelease s r = { s with hist := hist } := by
  simp only [applyRelease, h]
  exact fenceWalks_frame s r

theorem applyRelease_arrival {s : State} {r : Rel} {e : Nat} {m : Nat × Nat} {c : Convoy} (h : r.target = .arrival e m)
    (hc : Tab.find s.convoys e = some c) : ∃ d, Tab.find (applyRelease s r).convoys e = some d ∧ d.phase = c.phase ∧ m ∈ d.reported ∧
      m ∉ d.arrived := by
  simp only [applyRelease, h, hc]
  exact ⟨_, Tab.find_put_same .., rfl, by simp, by simp⟩

theorem noteOpen_gates (s : State) (r : Rel) (q : Queue) (g : Nat) : (noteOpen s r q g).gates = q.gates := by
  unfold noteOpen
  split
  · dsimp only
    split <;> rfl
  · rfl

theorem applyRelease_gate {s : State} {r : Rel} {g n : Nat} (h : r.target = .gate g n) : applyRelease s r =
    modQueue s (g / 64) fun q => noteOpen s r (gateAdd q (g % 64) n (ticks s)) (g % 64) := by
  simp only [applyRelease, h]

/-- The gate after the release: its value and the amount, saturated (R37); with a raise of the Steward at the same tick the larger of that
sum and GCOUNT (R254). -/
theorem gateOf_gateAdd (q : Queue) (g n now : Nat) :
    (gateOf (gateAdd q g n now) g).toNat =
      if (Tab.findD q.raised g (now + 1, 0, 0)).1 = now then
        max (min ((Tab.findD q.raised g (now + 1, 0, 0)).2.1 + n) (2 ^ 32 - 1)) (Tab.findD q.raised g (now + 1, 0, 0)).2.2 % 2 ^ 32
      else min ((gateOf q g).toNat + n) (2 ^ 32 - 1) := by
  unfold gateAdd
  extract_lets x v
  split
  · exact (congrArg BitVec.toNat (Tab.findD_put ..)).trans (by simp only [if_true, BitVec.toNat_ofNat, v, x])
  · have hlt : min ((gateOf q g).toNat + n) (2 ^ 32 - 1) < 2 ^ 32 := by omega
    simp only [setGate, gateOf, Tab.findD_put, if_true, BitVec.toNat_ofNat]
    exact Nat.mod_eq_of_lt hlt

theorem gateOf_applyRelease {s : State} {r : Rel} {g n : Nat} (h : r.target = .gate g n) :
    gateOf (queueOf (applyRelease s r) (g / 64)) (g % 64) = gateOf (gateAdd (queueOf s (g / 64)) (g % 64) n (ticks s)) (g % 64) := by
  rw [applyRelease_gate h, queueOf_modQueue, if_pos rfl, gateOf, noteOpen_gates]
  rfl

/-! ### Early evictions (R211) -/

section Eviction

variable {s : State} {id : Nat} {a : Acc} (ha : accOf s id = some a)
include ha

theorem exec_l1DirtyEviction_refused (h : inL1 a.core a = false) : exec (.l1DirtyEviction id) s = .refused .notEnabled := by
  change execL1DirtyEviction id s = _
  simp only [execL1DirtyEviction, ha, h, Bool.false_eq_true, if_false, notEnabled]

/-- The stores that leave with a store: those that the L1 holds on its lines. -/
theorem exec_l1DirtyEviction_due (h : inL1 a.core a = true) :
    let lines := fun n => (pieceLines a.pieces).contains n
    let l := storesOn s a.core a.asid lines
    exec (.l1DirtyEviction id) s = .next (bump (lookStores (dropL1 (sendStores s l) a.core a.asid lines) l)) := by
  intro lines l
  change execL1DirtyEviction id s = _
  simp only [execL1DirtyEviction, ha, h, if_true, done]
  rfl

end Eviction

theorem canLook_of_looked {s : State} {id : Nat} {a : Acc} {region : Option Nat} (h : ∀ p ∈ a.pieces, unlooked p = false) :
    canLook s id a region = false := by
  simp only [canLook, List.any_eq_false, Bool.and_eq_true, not_and, Bool.not_eq_true]
  intro p hp hun
  simp [h p hp] at hun

/-- Where every store is translated nothing is left to look up. -/
theorem lookStores_of_looked {s : State} (h : ∀ k a, accOf s k = some a → ∀ p ∈ a.pieces, unlooked p = false) :
    ∀ l : List (Nat × Acc), lookStores s l = s
  | [] => rfl
  | e :: l => by
    have hfirst : lookStore s e.1 = s := by
      unfold lookStore
      cases ha : accOf s e.1 with
      | none => simp only [ha]
      | some a => simp only [canLook_of_looked (h _ _ ha), Bool.false_eq_true, if_false, ha, Bool.false_and]
    rw [lookStores, List.foldl_cons, hfirst]
    exact lookStores_of_looked h l

theorem accOf_sendStores (s : State) (l : List (Nat × Acc)) (k : Nat) :
    accOf (sendStores s l) k = (accOf s k).map fun a => if l.any fun x => x.1 == k then { a with sent := true } else a := by
  have hmap : (sendStores s l).acc = s.acc.map fun e => (e.1, if l.any fun x => x.1 == e.1 then { e.2 with sent := true } else e.2) := by
    refine List.map_congr_left fun e _ => ?_
    split <;> rfl
  rw [accOf, hmap]
  exact Tab.find_map s.acc (fun n a => if l.any fun x => x.1 == n then { a with sent := true } else a) k

theorem mem_distinct {x : Nat} : ∀ {l : List Nat}, x ∈ distinct l ↔ x ∈ l
  | [] => by simp [distinct]
  | y :: l => by
    simp only [distinct, List.mem_cons, List.mem_filter, mem_distinct (l := l), bne_iff_ne]
    exact ⟨fun h => h.imp_right And.left, fun h => (em (x = y)).imp_right fun hne => ⟨h.resolve_left hne, hne⟩⟩

/-- A piece of some bytes lies on a line. -/
theorem linesOf_ne_nil {a n : Nat} (h : 0 < n) : linesOf a n ≠ [] := by
  simp [linesOf, Nat.ne_of_gt h]

/-- A store leaves with itself. -/
theorem mem_storesOn {s : State} {id : Nat} {a : Acc} {p : Piece} (ha : accOf s id = some a) (h : inL1 a.core a = true) (hp : p ∈ a.pieces)
    (hdone : p.done = false) (hsize : 0 < p.size) : (id, a) ∈ storesOn s a.core a.asid fun n => (pieceLines a.pieces).contains n := by
  obtain ⟨n, hn⟩ := List.exists_mem_of_ne_nil _ (linesOf_ne_nil (a := p.va) hsize)
  have hline : ∀ ps : List Piece, p ∈ ps → n ∈ pieceLines ps := fun ps hps => mem_distinct.2 (List.mem_flatMap.2 ⟨p, hps, hn⟩)
  have hopen : p ∈ a.pieces.filter fun q => !q.done := List.mem_filter.2 ⟨hp, by simp [hdone]⟩
  refine List.mem_filter.2 ⟨Tab.mem_of_find _ _ _ ha, ?_⟩
  simp only [h, beq_self_eq_true, Bool.true_and, List.any_eq_true, List.contains_iff_mem]
  exact ⟨n, hline _ hopen, hline _ hp⟩

/-- Settles O34: each event's outcome from its conditions; a release is gone since nothing that it applies starts another. -/
theorem publicationsAndReleasesComplete : Obligations.PublicationsAndReleasesComplete := by
  unfold Obligations.PublicationsAndReleasesComplete
  refine fun s => ⟨fun core => ⟨fun hleft hnone => ?_, exec_publicationComplete_refused⟩, fun id r hr => ⟨exec_releaseApply_early hr, fun hready => ?_⟩,
    fun id a ha _ => ⟨exec_l1DirtyEviction_refused ha, fun hin => ?_⟩⟩
  · exact ⟨_, exec_publicationComplete_due hleft hnone, publicationDone_pubDone s core, rfl, rfl⟩
  · refine ⟨_, exec_releaseApply_due hr hready, applyRelease_gone s id r, fun hfence => ?_, fun g n hgate => ?_,
      fun e m c harrival hc => applyRelease_arrival harrival hc⟩
    · obtain ⟨hist, h⟩ := applyRelease_fence (s := { s with rels := Tab.del s.rels id }) hfence
      rw [h]
      exact ⟨rfl, rfl, rfl, rfl⟩
    · have happly := applyRelease_gate (s := { s with rels := Tab.del s.rels id }) hgate
      have hvalue := (congrArg BitVec.toNat (gateOf_applyRelease (s := { s with rels := Tab.del s.rels id }) hgate)).trans (gateOf_gateAdd ..)
      refine ⟨by rw [happly]; rfl, by rw [happly]; rfl, ?_⟩
      intro raise now
      exact ⟨fun hother => hvalue.trans (if_neg hother), fun hsame => hvalue.trans (if_pos hsame)⟩
  · refine ⟨_, exec_l1DirtyEviction_due ha hin, fun ⟨p, hp, hdone, hsize⟩ hlooked => ?_⟩
    have hself := mem_storesOn ha hin hp hdone hsize
    have hsent : ∀ l lines k b, accOf (dropL1 (sendStores s l) a.core a.asid lines) k = some b → ∀ q ∈ b.pieces, unlooked q = false := by
      intro l lines k b hb q hq
      change accOf (sendStores s l) k = some b at hb
      rw [accOf_sendStores, Option.map_eq_some_iff] at hb
      obtain ⟨c, hc, rfl⟩ := hb
      refine hlooked _ (Tab.mem_of_find _ _ _ hc) q ?_
      split at hq <;> exact hq
    rw [lookStores_of_looked (hsent _ _)]
    refine ⟨(accOf_sendStores ..).trans ?_, rfl, rfl, rfl⟩
    rw [ha, Option.map_some, if_pos (List.any_eq_true.2 ⟨_, hself, beq_self_eq_true id⟩)]

end Sys2Proof.Machine

/-! PROOF. Waits that end: a publication stops no acquire that could perform, and what the end of a wait changes (R36, R195, R212, R215,
R217). -/

namespace Sys2Proof.Machine

/-! ### Publications and what REPLAY holds

A publication takes more stores into epochs. That holds more pieces back and lets none go on, so that the handler, which does not wait for what
REPLAY alone lets go on (log 45), waits for no more than before. -/

/-- An access with another publication. -/
def Acc.takenBy (a : Acc) (epoch : Option Nat) : Acc := { a with epoch := epoch }

/-- An entry with the publication that `f` gives its access. -/
def published (f : Nat × Acc → Option Nat) (e : Nat × Acc) : Nat × Acc := (e.1, e.2.takenBy (f e))

/-- The second state has the accesses of the first, some of which a publication has taken meanwhile. -/
def AccPublished (s t : State) : Prop :=
  ∃ f : Nat × Acc → Option Nat, t.acc = s.acc.map (published f) ∧ ∀ e, e.2.epoch.isSome = true → (f e).isSome = true

theorem AccPublished.of_eq {s t : State} (h : t.acc = s.acc) : AccPublished s t :=
  ⟨fun e => e.2.epoch, by rw [h]; exact (List.map_id' s.acc).symm, fun _ he => he⟩

theorem AccPublished.trans {s t u : State} (h : AccPublished s t) (h' : AccPublished t u) : AccPublished s u := by
  obtain ⟨f, hf, hf'⟩ := h
  obtain ⟨g, hg, hg'⟩ := h'
  exact ⟨fun e => g (published f e), by rw [hg, hf, List.map_map]; rfl, fun e he => hg' _ (hf' e he)⟩

/-- The pieces of one list of stalled pieces stand in another, of which more accesses have been taken by a publication. -/
def StallsWithin (l l' : List (Nat × Acc × Piece)) : Prop :=
  ∀ x ∈ l, ∃ ep, (x.1, x.2.1.takenBy ep, x.2.2) ∈ l' ∧ (x.2.1.epoch.isSome = true → ep.isSome = true)

theorem StallsWithin.nil (l : List (Nat × Acc × Piece)) : StallsWithin [] l := fun _ h => absurd h List.not_mem_nil

theorem StallsWithin.cons_right {l l' : List (Nat × Acc × Piece)} (h : StallsWithin l l') (y : Nat × Acc × Piece) : StallsWithin l (y :: l') :=
  fun x hx => (h x hx).imp fun _ h => h.imp_left (List.mem_cons_of_mem y)

theorem StallsWithin.cons {l l' : List (Nat × Acc × Piece)} (h : StallsWithin l l') (id : Nat) {a : Acc} {ea : Option Nat} (p : Piece)
    (ha : a.epoch.isSome = true → ea.isSome = true) : StallsWithin ((id, a, p) :: l) ((id, a.takenBy ea, p) :: l') := by
  intro x hx
  obtain rfl | hx := List.mem_cons.1 hx
  · exact ⟨ea, List.mem_cons_self .., ha⟩
  · exact h.cons_right _ x hx

theorem StallsWithin.append {k k' l l' : List (Nat × Acc × Piece)} (hk : StallsWithin k k') (hl : StallsWithin l l') :
    StallsWithin (k ++ l) (k' ++ l') := by
  intro x hx
  obtain hx | hx := List.mem_append.1 hx
  · exact (hk x hx).imp fun _ h => h.imp_left (List.mem_append_left l')
  · exact (hl x hx).imp fun _ h => h.imp_left (List.mem_append_right k')

theorem holdsBack_of_published {b a : Acc} {q p : Piece} {eb ea : Option Nat} (hb : b.epoch.isSome = true → eb.isSome = true)
    (h : holdsBack b q a p = true) : holdsBack (b.takenBy eb) q (a.takenBy ea) p = true := by
  have hmeet : mayMeet (a.takenBy ea) (b.takenBy eb) p q = mayMeet a b p q := rfl
  have hheld : inHeld (b.takenBy eb) q = inHeld b q := rfl
  simp only [holdsBack, hmeet, hheld, Bool.or_eq_true, Bool.and_eq_true] at h ⊢
  exact h.imp_left fun ⟨hwave, hwhy⟩ => ⟨hwave, hwhy.imp_left fun h => h.imp_right fun ⟨hmeets, hkind⟩ =>
    ⟨hmeets, hkind.imp_right fun ⟨hstrong, htaken⟩ => ⟨hstrong, hb htaken⟩⟩⟩

/-- A piece of an access that does not go on, behind the stalled pieces of a list. -/
def pieceStalls (id : Nat) (a : Acc) (l : List (Nat × Acc × Piece)) (behind : Bool) (p : Piece) : Bool :=
  !p.done && (behind || p.fault.isSome || inHeld a p || l.any fun x => (x.1 < id || isStore a.kind) && holdsBack x.2.1 x.2.2 a p)

theorem stallPieces_cons (id : Nat) (a : Acc) (l : List (Nat × Acc × Piece)) (behind : Bool) (p : Piece) (ps : List Piece) :
    stallPieces id a l behind (p :: ps) = if pieceStalls id a l behind p then
      (id, a, p) :: stallPieces id a ((id, a, p) :: l) (behind || (loadClass a.kind && p.fault.isNone)) ps
    else stallPieces id a l behind ps := rfl

theorem pieceStalls_of_published {id : Nat} {a : Acc} {ea : Option Nat} {l l' : List (Nat × Acc × Piece)} {behind behind' : Bool} {p : Piece}
    (hl : StallsWithin l l') (hb : behind = true → behind' = true) (h : pieceStalls id a l behind p = true) :
    pieceStalls id (a.takenBy ea) l' behind' p = true := by
  simp only [pieceStalls, Bool.and_eq_true, Bool.or_eq_true, List.any_eq_true] at h ⊢
  obtain ⟨hdone, hwhy⟩ := h
  refine ⟨hdone, hwhy.imp (fun h => h.imp_left fun h => h.imp_left hb) ?_⟩
  rintro ⟨x, hx, hid, hholds⟩
  obtain ⟨ep, hmem, hep⟩ := hl x hx
  exact ⟨_, hmem, hid, holdsBack_of_published hep hholds⟩

/-- What stalls the pieces of an access stalls them still where more has been published. -/
theorem stallPieces_of_published {id : Nat} {a : Acc} {ea : Option Nat} (ha : a.epoch.isSome = true → ea.isSome = true) :
    ∀ (ps : List Piece) {l l' : List (Nat × Acc × Piece)} {behind behind' : Bool}, StallsWithin l l' → (behind = true → behind' = true) →
      StallsWithin (stallPieces id a l behind ps) (stallPieces id (a.takenBy ea) l' behind' ps)
  | [], _, _, _, _, _, _ => .nil _
  | p :: ps, l, l', behind, behind', hl, hb => by
    rw [stallPieces_cons, stallPieces_cons]
    split
    · next hstalls =>
      rw [if_pos (pieceStalls_of_published hl hb hstalls)]
      refine (stallPieces_of_published ha ps (hl.cons id p ha) fun h => ?_).cons id p ha
      exact Bool.or_eq_true_iff.2 ((Bool.or_eq_true_iff.1 h).imp_left hb)
    · split
      · exact (stallPieces_of_published ha ps (hl.cons_right _) fun h => Bool.or_eq_true_iff.2 (.inl (hb h))).cons_right _
      · exact stallPieces_of_published ha ps hl hb

theorem mem_stallPieces {id : Nat} {a : Acc} : ∀ {ps : List Piece} {l : List (Nat × Acc × Piece)} {behind : Bool} {x : Nat × Acc × Piece},
    x ∈ stallPieces id a l behind ps → ∃ p ∈ ps, p.done = false ∧ x = (id, a, p)
  | [], _, _, _, h => absurd h (by simp [stallPieces])
  | p :: ps, l, behind, x, h => by
    rw [stallPieces_cons] at h
    split at h
    · next hstalls =>
      obtain rfl | h := List.mem_cons.1 h
      · exact ⟨p, List.mem_cons_self .., by simpa using (Bool.and_eq_true_iff.1 hstalls).1, rfl⟩
      · obtain ⟨q, hq, hrest⟩ := mem_stallPieces h
        exact ⟨q, List.mem_cons_of_mem _ hq, hrest⟩
    · obtain ⟨q, hq, hrest⟩ := mem_stallPieces h
      exact ⟨q, List.mem_cons_of_mem _ hq, hrest⟩

/-- What one access adds to the stalled pieces: its own, of a tile all that are left. -/
def stallsOf (e : Nat × Acc) (l : List (Nat × Acc × Piece)) : List (Nat × Acc × Piece) :=
  let r := if e.2.loc || e.2.kind == .watch then [] else stallPieces e.1 e.2 l false e.2.pieces
  if (e.2.kind == .tstore || e.2.kind == .tload) && !r.isEmpty then (e.2.pieces.filter fun p => !p.done).map fun p => (e.1, e.2, p) else r

theorem stallsGo_cons (e : Nat × Acc) (t : List (Nat × Acc)) (l : List (Nat × Acc × Piece)) :
    stallsGo (e :: t) l = stallsGo t (stallsOf e l ++ l) := rfl

theorem stallsOf_of_published {f : Nat × Acc → Option Nat} {e : Nat × Acc} (hf : e.2.epoch.isSome = true → (f e).isSome = true)
    {l l' : List (Nat × Acc × Piece)} (hl : StallsWithin l l') : StallsWithin (stallsOf e l) (stallsOf (published f e) l') := by
  unfold stallsOf
  extract_lets r r'
  have hr : StallsWithin r r' := by
    by_cases hout : (e.2.loc || e.2.kind == .watch) = true
    · rw [show r = [] from if_pos hout]
      exact .nil _
    · rw [show r = _ from if_neg hout, show r' = _ from if_neg hout]
      exact stallPieces_of_published hf e.2.pieces hl id
  have hall : StallsWithin r ((e.2.pieces.filter fun p => !p.done).map fun p => (e.1, e.2.takenBy (f e), p)) := by
    intro x hx
    unfold r at hx
    split at hx
    · exact absurd hx List.not_mem_nil
    · obtain ⟨p, hp, hdone, rfl⟩ := mem_stallPieces hx
      exact ⟨f e, List.mem_map.2 ⟨p, List.mem_filter.2 ⟨hp, by simp [hdone]⟩, rfl⟩, hf⟩
  have hsome : r.isEmpty = false → r'.isEmpty = false := by
    simp only [List.isEmpty_eq_false_iff_exists_mem]
    rintro ⟨x, hx⟩
    obtain ⟨ep, hmem, -⟩ := hr x hx
    exact ⟨_, hmem⟩
  by_cases htile : (e.2.kind == .tstore || e.2.kind == .tload) = true
  · rw [show ((published f e).2.kind == .tstore || (published f e).2.kind == .tload) = true from htile, htile, Bool.true_and, Bool.true_and]
    cases hr0 : r.isEmpty
    · rw [hsome hr0]
      intro y hy
      obtain ⟨p, hp, rfl⟩ := List.mem_map.1 hy
      exact ⟨f e, List.mem_map.2 ⟨p, hp, rfl⟩, hf⟩
    · cases r'.isEmpty
      · exact hall
      · exact hr
  · have hrows : (e.2.kind == .tstore || e.2.kind == .tload) = false := by simpa using htile
    rw [show ((published f e).2.kind == .tstore || (published f e).2.kind == .tload) = false from hrows, hrows]
    exact hr

theorem stallsGo_of_published {f : Nat × Acc → Option Nat} (hf : ∀ e, e.2.epoch.isSome = true → (f e).isSome = true) :
    ∀ (t : List (Nat × Acc)) {l l' : List (Nat × Acc × Piece)}, StallsWithin l l' →
      StallsWithin (stallsGo t l) (stallsGo (t.map (published f)) l')
  | [], _, _, hl => hl
  | e :: t, l, l', hl => by
    rw [List.map_cons, stallsGo_cons, stallsGo_cons]
    exact stallsGo_of_published hf t ((stallsOf_of_published (hf e) hl).append hl)

theorem needsReplay_of_published {s t : State} (h : AccPublished s t) {id : Nat} {p : Piece} (hp : needsReplay s id p = true) :
    needsReplay t id p = true := by
  obtain ⟨f, hacc, hf⟩ := h
  obtain ⟨x, hx, hmatch⟩ := List.any_eq_true.1 hp
  obtain ⟨ep, hmem, -⟩ := stallsGo_of_published hf s.acc (.nil []) x hx
  refine List.any_eq_true.2 ⟨(x.1, x.2.1.takenBy ep, x.2.2), ?_, hmatch⟩
  rw [stalls, hacc]
  exact hmem

theorem awaited_of_published {s t : State} (h : AccPublished s t) {sup : Bool} {id : Nat} {a : Acc} {ep : Option Nat}
    (hlater : awaited t sup id (a.takenBy ep) = true) : awaited s sup id a = true := by
  simp only [awaited, Bool.and_eq_true, List.any_eq_true, Bool.not_eq_true', Bool.and_eq_false_iff] at hlater ⊢
  obtain ⟨⟨hkind, p, hp, hfault, hreplay⟩, htile⟩ := hlater
  refine ⟨⟨hkind, p, hp, hfault, hreplay.imp_right fun h' => ?_⟩, htile⟩
  by_contra hneeds
  rw [needsReplay_of_published h (by simpa using hneeds)] at h'
  exact absurd h' (by simp)

theorem parked_congr {s t : State} {wid : Nat} (h : (waveOf t wid).bind (·.outer) = (waveOf s wid).bind (·.outer)) (id : Nat) :
    parked t wid id = parked s wid id := by
  simp only [parked, h]

/-- An acquire that could perform can perform after a publication. -/
theorem acqDone_of_published {s t : State} {wid : Nat} {sup : Bool} {n : Nat} (h : AccPublished s t)
    (houter : (waveOf t wid).bind (·.outer) = (waveOf s wid).bind (·.outer)) (hdone : acqDone s wid sup n = true) : acqDone t wid sup n = true := by
  have hacc := h
  obtain ⟨f, hf, -⟩ := h
  simp only [acqDone, Bool.not_eq_true', List.any_eq_false, Bool.and_eq_true, Bool.or_eq_true, not_and, not_or] at hdone ⊢
  rw [hf]
  intro x hx
  obtain ⟨e, he, rfl⟩ := List.mem_map.1 hx
  intro hmine
  obtain ⟨hloads, hacquires⟩ := hdone e he hmine
  refine ⟨fun hawaited => ?_, hacquires⟩
  rw [parked_congr houter]
  exact hloads (awaited_of_published hacc hawaited)

end Sys2Proof.Machine

/-! PROOF. What the end of a wait changes and leaves (R36, R37, R212, R215, R218, R310). -/

namespace Sys2Proof.Machine

/-- What the ends of waits of the waves of some slots leave: memory, queues and parties, the other waves, every access but for its publication,
and each core's floor, unless the core has refreshed. -/
structure Calm (slots : List Nat) (s t : State) : Prop where
  mem : t.mem = s.mem
  queues : t.queues = s.queues
  parties : t.parties = s.parties
  commits : t.commits = s.commits
  now : t.now = s.now
  nextId : s.nextId ≤ t.nextId
  acc : AccPublished s t
  others : ∀ k, k ∉ slots → waveOf t k = waveOf s k
  floors : ∀ c, (coreOf t c).floor = (coreOf s c).floor ∨ (coreOf t c).floor = s.commits

theorem Calm.refl (slots : List Nat) (s : State) : Calm slots s s :=
  ⟨rfl, rfl, rfl, rfl, rfl, le_rfl, .of_eq rfl, fun _ _ => rfl, fun _ => .inl rfl⟩

theorem Calm.mono {slots slots' : List Nat} {s t : State} (h : Calm slots s t) (hsub : ∀ k ∈ slots, k ∈ slots') : Calm slots' s t :=
  { h with others := fun k hk => h.others k fun h' => hk (hsub k h') }

theorem Calm.trans {slots : List Nat} {s t u : State} (h : Calm slots s t) (h' : Calm slots t u) : Calm slots s u where
  mem := h'.mem.trans h.mem
  queues := h'.queues.trans h.queues
  parties := h'.parties.trans h.parties
  commits := h'.commits.trans h.commits
  now := h'.now.trans h.now
  nextId := h.nextId.trans h'.nextId
  acc := h.acc.trans h'.acc
  others k hk := (h'.others k hk).trans (h.others k hk)
  floors c := by
    rcases h'.floors c with hc | hc
    · exact hc ▸ h.floors c
    · exact .inr (hc.trans h.commits)

/-- A change of the table of convoys alone. -/
theorem Calm.convoys (slots : List Nat) (s : State) (x : Tab Convoy) : Calm slots s { s with convoys := x } :=
  ⟨rfl, rfl, rfl, rfl, rfl, le_rfl, .of_eq rfl, fun _ _ => rfl, fun _ => .inl rfl⟩

theorem Calm.setWave (s : State) (k : Nat) (w : Wave) : Calm [k] s (setWave s k w) where
  mem := rfl
  queues := rfl
  parties := rfl
  commits := rfl
  now := rfl
  nextId := le_rfl
  acc := .of_eq rfl
  others _ hj := (waveOf_setWave ..).trans (if_neg fun h => hj (List.mem_singleton.2 h))
  floors _ := .inl rfl

/-- A change of one core that keeps its floor, or sets it to the commits. -/
theorem Calm.modCore (slots : List Nat) (s : State) (c : Nat) (f : Core → Core)
    (hf : (f (coreOf s c)).floor = (coreOf s c).floor ∨ (f (coreOf s c)).floor = s.commits) : Calm slots s (modCore s c f) where
  mem := rfl
  queues := rfl
  parties := rfl
  commits := rfl
  now := rfl
  nextId := le_rfl
  acc := .of_eq rfl
  others _ _ := rfl
  floors n := by
    rw [coreOf_modCore]
    split
    · next hn => exact hn ▸ hf
    · exact .inl rfl

theorem Calm.waitCopies (slots : List Nat) (s : State) (core : Nat) : Calm slots s (waitCopies s core) :=
  Calm.modCore slots s core (fun c => { c with lowered := _, clock := _ }) (.inl rfl)

theorem Calm.refreshFor (slots : List Nat) (s : State) (core : Nat) (l : List Sync) : Calm slots s (refreshFor s core l) :=
  (Calm.modCore slots s core (fun c => { c with floor := _, raised := _, l1 := _ }) (.inr rfl)).trans
    (Calm.modCore slots (refresh s core) core (fun c => { c with lowered := _, clock := _ }) (.inl rfl))

theorem refreshFor_floor (s : State) (core : Nat) (l : List Sync) : (coreOf (refreshFor s core l) core).floor = s.commits := by
  rw [refreshFor, takeView, coreOf_modCore_same, refresh, coreOf_modCore_same]

theorem Calm.publish (slots : List Nat) (s : State) (core : Nat) : Calm slots s (publish s core) where
  mem := rfl
  queues := rfl
  parties := rfl
  commits := rfl
  now := rfl
  nextId := le_rfl
  acc := by
    refine ⟨fun e => if unpublished core e.2 then some ((coreOf s core).epoch + 1) else e.2.epoch, List.map_congr_left fun e _ => ?_, fun e he => ?_⟩
    · by_cases hp : unpublished core e.2 = true <;> simp [published, Acc.takenBy, hp]
    · by_cases hp : unpublished core e.2 = true <;> simp [hp, he]
  others _ _ := rfl
  floors n := by
    rw [Machine.publish, coreOf_modCore]
    split
    · next hn => exact .inl (hn ▸ rfl)
    · exact .inl rfl

theorem Calm.arrive (slots : List Nat) (s : State) (k : Nat) (w : Wave) (cv : Nat) (c : Convoy) : Calm slots s (arrive s k w cv c) := by
  have hpub := Calm.publish slots s (coreNo k)
  exact { hpub with nextId := Nat.le_succ _ }

/-! ### Acquires -/

/-- The wave but for its acquires and the releases that they are to read. -/
def AcquireMarks (w v : Wave) : Prop := ∃ a b c d, v = { w with acqUpto := a, supAcq := b, sync := c, supSync := d }

theorem AcquireMarks.refl (w : Wave) : AcquireMarks w w := ⟨_, _, _, _, rfl⟩

theorem AcquireMarks.trans {u v w : Wave} (h : AcquireMarks u v) (h' : AcquireMarks v w) : AcquireMarks u w := by
  obtain ⟨_, _, _, _, rfl⟩ := h
  obtain ⟨a, b, c, d, rfl⟩ := h'
  exact ⟨a, b, c, d, rfl⟩

theorem withSyncs_marks (w : Wave) (l : List Sync) : AcquireMarks w (withSyncs w l) := by
  unfold withSyncs
  split <;> exact ⟨_, _, _, _, rfl⟩

theorem wantAcquire_marks (w : Wave) (n : Nat) : AcquireMarks w (wantAcquire w n) := by
  unfold wantAcquire
  split <;> exact ⟨_, _, _, _, rfl⟩

/-- The end of a wave's acquire, or nothing. -/
def EndsAcquire (s : State) (k : Nat) (t : State) : Prop :=
  t = s ∨ ∃ w v l, waveOf s k = some w ∧ AcquireMarks w v ∧ t = setWave (refreshFor s (coreNo k) l) k v

theorem endAcquire_ends (s : State) (k : Nat) : EndsAcquire s k (endAcquire s k) := by
  unfold endAcquire
  split
  · exact .inl rfl
  · next w hw =>
    split
    · exact .inl rfl
    · split
      · exact .inr ⟨w, _, _, hw, ⟨_, _, _, _, rfl⟩, rfl⟩
      · exact .inl rfl

theorem endSupAcquire_ends (s : State) (k : Nat) : EndsAcquire s k (endSupAcquire s k) := by
  unfold endSupAcquire
  split
  · exact .inl rfl
  · next w hw =>
    split
    · exact .inl rfl
    · split
      · exact .inr ⟨w, _, _, hw, ⟨_, _, _, _, rfl⟩, rfl⟩
      · exact .inl rfl

theorem EndsAcquire.calm {s t : State} {k : Nat} (h : EndsAcquire s k t) : Calm [k] s t := by
  obtain rfl | ⟨w, v, l, -, -, rfl⟩ := h
  · exact .refl ..
  · exact (Calm.refreshFor ..).trans (.setWave ..)

theorem EndsAcquire.convoys {s t : State} {k : Nat} (h : EndsAcquire s k t) : t.convoys = s.convoys := by
  obtain rfl | ⟨w, v, l, -, -, rfl⟩ := h <;> rfl

theorem EndsAcquire.nextId {s t : State} {k : Nat} (h : EndsAcquire s k t) : t.nextId = s.nextId := by
  obtain rfl | ⟨w, v, l, -, -, rfl⟩ := h <;> rfl

theorem EndsAcquire.acc {s t : State} {k : Nat} (h : EndsAcquire s k t) : t.acc = s.acc := by
  obtain rfl | ⟨w, v, l, -, -, rfl⟩ := h <;> rfl

theorem EndsAcquire.wave {s t : State} {k : Nat} {w : Wave} (h : EndsAcquire s k t) (hw : waveOf s k = some w) :
    ∃ v, waveOf t k = some v ∧ AcquireMarks w v := by
  obtain rfl | ⟨w', v, l, hw', hmarks, rfl⟩ := h
  · exact ⟨w, hw, .refl w⟩
  · obtain rfl := Option.some.inj (hw.symm.trans hw')
    exact ⟨v, (waveOf_setWave ..).trans (if_pos rfl), hmarks⟩

theorem endAcquire_floor {s : State} {k : Nat} {w : Wave} {n : Nat} (hw : waveOf s k = some w) (hn : w.acqUpto = some n)
    (hdone : acqDone s k false n = true) : (coreOf (endAcquire s k) (coreNo k)).floor = s.commits := by
  simp only [endAcquire, hw, hn, hdone, if_true]
  exact refreshFor_floor ..

theorem endSupAcquire_floor {s : State} {k : Nat} {w : Wave} {n : Nat} (hw : waveOf s k = some w) (hn : w.supAcq = some n)
    (hdone : acqDone s k true n = true) : (coreOf (endSupAcquire s k) (coreNo k)).floor = s.commits := by
  simp only [endSupAcquire, hw, hn, hdone, if_true]
  exact refreshFor_floor ..

theorem endAcquire_supAcq {s : State} {k : Nat} {w : Wave} (hw : waveOf s k = some w) :
    ∃ v, waveOf (endAcquire s k) k = some v ∧ v.supAcq = w.supAcq := by
  simp only [endAcquire, hw]
  split
  · exact ⟨w, hw, rfl⟩
  · split
    · exact ⟨_, (waveOf_setWave ..).trans (if_pos rfl), rfl⟩
    · exact ⟨w, hw, rfl⟩

theorem acquireOp_calm (s : State) (k : Nat) (w : Wave) : Calm [k] s (acquireOp s k w) :=
  ((Calm.setWave ..).trans (endAcquire_ends ..).calm).trans (endSupAcquire_ends ..).calm

theorem acquireOp_convoys (s : State) (k : Nat) (w : Wave) : (acquireOp s k w).convoys = s.convoys :=
  (endSupAcquire_ends ..).convoys.trans (endAcquire_ends ..).convoys

theorem acquireOp_nextId (s : State) (k : Nat) (w : Wave) : (acquireOp s k w).nextId = s.nextId :=
  (endSupAcquire_ends ..).nextId.trans (endAcquire_ends ..).nextId

theorem acquireOp_wave (s : State) (k : Nat) (w : Wave) : ∃ v, waveOf (acquireOp s k w) k = some v ∧ AcquireMarks w v := by
  obtain ⟨v, hv, hmarks⟩ := (endAcquire_ends (setWave s k (wantAcquire w s.nextId)) k).wave ((waveOf_setWave ..).trans (if_pos rfl))
  obtain ⟨u, hu, hmarks'⟩ := (endSupAcquire_ends _ k).wave hv
  exact ⟨u, hu, ((wantAcquire_marks ..).trans hmarks).trans hmarks'⟩

theorem AcquireMarks.outer {w v : Wave} (h : AcquireMarks w v) : v.outer = w.outer := by
  obtain ⟨_, _, _, _, rfl⟩ := h
  rfl

theorem AcquireMarks.sup {w v : Wave} (h : AcquireMarks w v) : v.sup = w.sup := by
  obtain ⟨_, _, _, _, rfl⟩ := h
  rfl

/-- With no earlier load outstanding the acquire performs: its core has refreshed (R215). -/
theorem acquireOp_floor {s : State} {k : Nat} {w : Wave} (houter : (waveOf s k).bind (·.outer) = w.outer)
    (hdone : acqDone s k w.sup s.nextId = true) : (coreOf (acquireOp s k w) (coreNo k)).floor = s.commits := by
  have hset : waveOf (setWave s k (wantAcquire w s.nextId)) k = some (wantAcquire w s.nextId) := (waveOf_setWave ..).trans (if_pos rfl)
  have hdone1 : acqDone (setWave s k (wantAcquire w s.nextId)) k w.sup s.nextId = true := by
    refine acqDone_of_published (s := s) (.of_eq rfl) ?_ hdone
    rw [hset, houter]
    exact (wantAcquire_marks ..).outer
  obtain ⟨v, hv, hmarks⟩ := (endAcquire_ends (setWave s k (wantAcquire w s.nextId)) k).wave hset
  have hends := endSupAcquire_ends (endAcquire (setWave s k (wantAcquire w s.nextId)) k) k
  have hcommits : (endAcquire (setWave s k (wantAcquire w s.nextId)) k).commits = s.commits := (endAcquire_ends ..).calm.commits
  cases hsup : w.sup
  · rw [hsup] at hdone1
    have hfloor := endAcquire_floor hset (by simp [wantAcquire, hsup]) hdone1
    rcases hends.calm.floors (coreNo k) with hf | hf
    · exact hf.trans hfloor
    · exact hf.trans hcommits
  · rw [hsup] at hdone1
    obtain ⟨u, hu, hwants⟩ := endAcquire_supAcq hset
    have hwants' : (wantAcquire w s.nextId).supAcq = some s.nextId := by simp [wantAcquire, hsup]
    refine (endSupAcquire_floor hu (hwants.trans hwants') ?_).trans hcommits
    refine acqDone_of_published (.of_eq (endAcquire_ends ..).acc) ?_ hdone1
    rw [hv, hset]
    exact hmarks.outer

/-! ### A wait that ends -/

/-- The wave is back in the state in which its wait began (R48). -/
def WokenFrom (w : Wave) (t : State) (k : Nat) : Prop :=
  ∃ v, waveOf t k = some v ∧ v.st = w.back ∧ v.wait = none ∧ v.s = w.s ∧ v.k = w.k ∧ v.pc = w.pc

theorem wakeW_of_single {w : Wave} (h : (w.wait.bind fun x => x.also) = none) : wakeW w = { w with st := w.back, wait := none } := by
  unfold wakeW
  cases hw : w.wait with
  | none => rfl
  | some x =>
    rw [hw] at h
    simp only [Option.bind_some] at h ⊢
    rw [h]
    rfl

theorem wakeW_keeps (w : Wave) : (wakeW w).outer = w.outer ∧ (wakeW w).sup = w.sup := by
  unfold wakeW
  split <;> exact ⟨rfl, rfl⟩

theorem AcquireMarks.wakeW {w v : Wave} (h : AcquireMarks w v) : AcquireMarks (wakeW w) (wakeW v) := by
  obtain ⟨a, b, c, d, rfl⟩ := h
  unfold Machine.wakeW
  exact ⟨a, b, c, d, by dsimp only; split <;> rfl⟩

theorem wokenFrom_setWave {s : State} {k : Nat} {w : Wave} (h : (w.wait.bind fun x => x.also) = none) : WokenFrom w (setWave s k (wakeW w)) k :=
  ⟨wakeW w, (waveOf_setWave ..).trans (if_pos rfl), by rw [wakeW_of_single h]; exact ⟨rfl, rfl, rfl, rfl, rfl⟩⟩

theorem wokenFrom_wakeAcquire (s : State) (k : Nat) {w u : Wave} (hmarks : AcquireMarks w u) (h : (w.wait.bind fun x => x.also) = none) :
    WokenFrom w (wakeAcquire s k u) k := by
  obtain ⟨v, hv, hmarks'⟩ := acquireOp_wave (setWave s k (wakeW u)) k (wakeW u)
  refine ⟨v, hv, ?_⟩
  obtain ⟨_, _, _, _, rfl⟩ := wakeW_of_single h ▸ hmarks.wakeW.trans hmarks'
  exact ⟨rfl, rfl, rfl, rfl, rfl⟩

theorem WokenFrom.congr {w : Wave} {s t : State} {k : Nat} (h : WokenFrom w s k) (heq : waveOf t k = waveOf s k) : WokenFrom w t k := by
  unfold WokenFrom
  rw [heq]
  exact h

theorem wakeAcquire_calm (s : State) (k : Nat) (w : Wave) : Calm [k] s (wakeAcquire s k w) := (Calm.setWave ..).trans (acquireOp_calm ..)

theorem wakeAcquire_convoys (s : State) (k : Nat) (w : Wave) : (wakeAcquire s k w).convoys = s.convoys := acquireOp_convoys ..

theorem wakeAcquire_nextId (s : State) (k : Nat) (w : Wave) : (wakeAcquire s k w).nextId = s.nextId := acquireOp_nextId ..

/-- A wave whose wait ends with no earlier load outstanding has its core refreshed. -/
theorem wakeAcquire_floor {s : State} {k : Nat} {w u : Wave} (hw : waveOf s k = some w) (hmarks : AcquireMarks w u)
    (hdone : acqDone s k w.sup s.nextId = true) : (coreOf (wakeAcquire s k u) (coreNo k)).floor = s.commits := by
  have houter : (wakeW u).outer = w.outer := (wakeW_keeps u).1.trans hmarks.outer
  have hsup : (wakeW u).sup = w.sup := (wakeW_keeps u).2.trans hmarks.sup
  have hset : waveOf (setWave s k (wakeW u)) k = some (wakeW u) := (waveOf_setWave ..).trans (if_pos rfl)
  refine acquireOp_floor (by rw [hset]; rfl) ?_
  rw [hsup]
  refine acqDone_of_published (s := s) (.of_eq rfl) ?_ hdone
  rw [hset, hw]
  exact houter

/-! ### Waits that end one after another -/

theorem foldl_calm {f : State → Nat × Wave → State} (h : ∀ s e, Calm [e.1] s (f s e)) :
    ∀ (l : List (Nat × Wave)) (s : State), Calm (l.map (·.1)) s (l.foldl f s)
  | [], s => .refl _ s
  | e :: l, s => ((h s e).mono fun k hk => by simpa using Or.inl (List.mem_singleton.1 hk)).trans
      ((foldl_calm h l (f s e)).mono fun _ hk => List.mem_cons_of_mem _ hk)

end Sys2Proof.Machine

/-! PROOF. Barriers, milestone and gate waits end (R36, R148, R254, R310); cyclic waits are killed (R241); tolls refill (R242). -/

namespace Sys2Proof.Machine

/-- A wave that waited alone goes on, and with no earlier load outstanding when it was woken its core has refreshed. -/
def Wakes (s t : State) (k : Nat) (w : Wave) : Prop :=
  ((w.wait.bind fun x => x.also) = none → WokenFrom w t k) ∧ (acqDone s k w.sup s.nextId = true → (coreOf t (k / 16)).floor = s.commits)

/-- A wave that waited at a barrier is released. -/
def Released (s t : State) (cv phase k : Nat) (w : Wave) : Prop := ∀ x, w.wait = some x →
  (x.rearm = none → ((w.wait.bind fun x => x.also) = none → WokenFrom w t k) ∧
    ((∀ n, s.nextId ≤ n → acqDone s k w.sup n = true) → (coreOf t (k / 16)).floor = s.commits)) ∧
  (x.rearm = some true → (w.wait.bind fun x => x.also) = none → WokenFrom w t k) ∧
  (x.rearm = some false → waveOf t k = some { w with wait := some { x with on := .bar cv phase, rearm := none, since := s.now / 105 } })

/-- A floor that has come to the commits stays there through the ends of other waits. -/
theorem Calm.floor_kept {slots : List Nat} {s t : State} (h : Calm slots s t) {c : Nat} (hc : (coreOf s c).floor = s.commits) :
    (coreOf t c).floor = s.commits :=
  (h.floors c).elim (·.trans hc) id

/-! ### The waves of a barrier -/

/-- The wave's BAR has still to arrive. -/
def rearms (w : Wave) : Bool := (w.wait.bind fun x => x.rearm).isSome

theorem barWake_arrived {s : State} {k cv : Nat} {w : Wave} {c : Convoy} {x : Waiting} (hx : w.wait = some x)
    (hc : Tab.find s.convoys cv = some c) (hre : x.rearm = none) : barWake s k w cv = wakeAcquire s k (withSyncs w c.past) := by
  simp only [barWake, hx, hc, hre]

theorem barWake_arriveOnly {s : State} {k cv : Nat} {w : Wave} {c : Convoy} {x : Waiting} (hx : w.wait = some x)
    (hc : Tab.find s.convoys cv = some c) (hre : x.rearm = some true) :
    barWake s k w cv = setWave (arrive s k w cv c) k (wakeW w) := by
  simp only [barWake, hx, hc, hre, if_true]

theorem barWake_waits {s : State} {k cv : Nat} {w : Wave} {c : Convoy} {x : Waiting} (hx : w.wait = some x)
    (hc : Tab.find s.convoys cv = some c) (hre : x.rearm = some false) :
    barWake s k w cv = setWave (arrive s k w cv c) k
      { w with wait := some { x with on := .bar cv c.phase, rearm := none, since := ticks s } } := by
  simp only [barWake, hx, hc, hre]
  rfl

theorem barWake_calm (s : State) (k : Nat) (w : Wave) (cv : Nat) : Calm [k] s (barWake s k w cv) := by
  unfold barWake
  split
  · split
    · exact wakeAcquire_calm ..
    · split
      · exact (Calm.arrive ..).trans (.setWave ..)
      · exact (Calm.arrive ..).trans (.setWave ..)
  · exact .refl ..

theorem arrive_convoy (s : State) (k : Nat) (w : Wave) (cv : Nat) (c : Convoy) :
    Tab.find (arrive s k w cv c).convoys cv = some { c with arrived := c.arrived ++ [member w] } := Tab.find_put_same ..

/-- A wave whose BAR had still to arrive arrives in the entry's phase; nothing else of the entry changes. -/
theorem barWake_convoy {s : State} {cv : Nat} {c : Convoy} (hc : Tab.find s.convoys cv = some c) (k : Nat) (w : Wave) :
    Tab.find (barWake s k w cv).convoys cv = some { c with arrived := c.arrived ++ if rearms w then [member w] else [] } := by
  unfold rearms
  cases hx : w.wait with
  | none => simpa [barWake, hx] using hc
  | some x =>
    cases hre : x.rearm with
    | none =>
      rw [barWake_arrived hx hc hre, wakeAcquire_convoys]
      simpa [hre] using hc
    | some only =>
      rw [Option.bind_some, hre, Option.isSome_some, if_pos rfl, ← arrive_convoy s k w cv c]
      cases only with
      | false => rw [barWake_waits hx hc hre]; rfl
      | true => rw [barWake_arriveOnly hx hc hre]; rfl

/-- The members whose BARs arrive in the new phase. -/
def rearmed (l : List (Nat × Wave)) : List (Nat × Nat) := (l.filter fun e => rearms e.2).map fun e => member e.2

theorem barWakes_convoy {cv : Nat} : ∀ (l : List (Nat × Wave)) {s : State} {c : Convoy}, Tab.find s.convoys cv = some c →
    Tab.find (l.foldl (fun a x => barWake a x.1 x.2 cv) s).convoys cv = some { c with arrived := c.arrived ++ rearmed l }
  | [], _, _, hc => by simpa [rearmed] using hc
  | e :: l, s, c, hc => by
    rw [List.foldl_cons, barWakes_convoy l (barWake_convoy hc e.1 e.2), List.append_assoc]
    cases hre : rearms e.2 <;> simp [rearmed, hre]

theorem mem_rearmed {l : List (Nat × Wave)} {m : Nat × Nat} :
    m ∈ rearmed l ↔ ∃ e ∈ l, (e.2.party, e.2.num) = m ∧ (e.2.wait.bind fun x => x.rearm).isSome = true := by
  simp only [rearmed, List.mem_map, List.mem_filter, and_assoc]
  exact exists_congr fun _ => and_congr_right fun _ => and_comm

theorem barWakes_calm (l : List (Nat × Wave)) (s : State) (cv : Nat) :
    Calm (l.map (·.1)) s (l.foldl (fun a x => barWake a x.1 x.2 cv) s) := foldl_calm (fun _ _ => barWake_calm ..) l s

theorem barWake_released {s a : State} {slots : List Nat} (h : Calm slots s a) {cv k : Nat} {w : Wave} (hw : waveOf a k = some w)
    (hsame : waveOf a k = waveOf s k) {c : Convoy} (hc : Tab.find a.convoys cv = some c) : Released s (barWake a k w cv) cv c.phase k w := by
  intro x hx
  refine ⟨fun hre => ?_, fun hre halone => ?_, fun hre => ?_⟩
  · rw [barWake_arrived hx hc hre]
    refine ⟨wokenFrom_wakeAcquire a k (withSyncs_marks ..), fun hdone => ?_⟩
    refine (wakeAcquire_floor hw (withSyncs_marks ..) ?_).trans h.commits
    exact acqDone_of_published h.acc (by rw [hsame]) (hdone _ h.nextId)
  · rw [barWake_arriveOnly hx hc hre]
    exact wokenFrom_setWave halone
  · rw [barWake_waits hx hc hre, waveOf_setWave, if_pos rfl, ticks, h.now]
    rfl

/-- What stays of a released wave through the ends of other waits. -/
theorem Released.calm {s a t : State} {slots slots' : List Nat} {cv phase k : Nat} {w : Wave} (h : Released s a cv phase k w)
    (ha : Calm slots s a) (ht : Calm slots' a t) (hk : k ∉ slots') : Released s t cv phase k w := by
  intro x hx
  obtain ⟨harrived, honly, hwaits⟩ := h x hx
  have hwave := ht.others k hk
  refine ⟨fun hre => ?_, fun hre halone => (honly hre halone).congr hwave, fun hre => hwave.trans (hwaits hre)⟩
  obtain ⟨hwoken, hfloor⟩ := harrived hre
  exact ⟨fun halone => (hwoken halone).congr hwave,
    fun hdone => (ht.floor_kept ((hfloor hdone).trans ha.commits.symm)).trans ha.commits⟩

/-- Every wave of a list is released in one step (R36, R310). -/
theorem barWakes_released {s : State} {cv : Nat} {c : Convoy} (hc : Tab.find s.convoys cv = some c) {l : List (Nat × Wave)} (hl : TabOk l)
    (hmem : ∀ e ∈ l, waveOf s e.1 = some e.2) {e : Nat × Wave} (he : e ∈ l) :
    Released s (l.foldl (fun a x => barWake a x.1 x.2 cv) s) cv c.phase e.1 e.2 := by
  obtain ⟨l1, l2, rfl, hfirst, hlast⟩ := hl.split_at he
  rw [List.foldl_append, List.foldl_cons]
  have hbefore := barWakes_calm l1 s cv
  have hsame := hbefore.others e.1 hfirst
  have hturn := barWake_released hbefore (hsame.trans (hmem e he)) hsame (barWakes_convoy l1 hc)
  exact hturn.calm ((hbefore.mono fun k hk => List.mem_append_left [e.1] hk).trans
    ((barWake_calm ..).mono fun k hk => List.mem_append_right _ hk)) (barWakes_calm l2 _ cv) hlast

theorem barWaiters_mem {s : State} {cv phase : Nat} {e : Nat × Wave} (h : e ∈ barWaiters s cv phase) : e ∈ s.waves := List.mem_of_mem_filter h
theorem lateWaiters_mem {s : State} {cv phase : Nat} {e : Nat × Wave} (h : e ∈ lateWaiters s cv phase) : e ∈ s.waves := List.mem_of_mem_filter h
theorem msWaiters_mem {s : State} {lid p ctx n : Nat} {e : Nat × Wave} (h : e ∈ msWaiters s lid p ctx n) : e ∈ s.waves :=
  List.mem_of_mem_filter h

/-! ### CONVOY_PHASE_COMPLETE -/

/-- A full convoy in its next phase. -/
def Convoy.next (c : Convoy) : Convoy := { c with phase := c.phase + 1, arrived := [], reported := [], past := c.syncs, syncs := [] }

/-- The state in which a convoy has gone on, its waiting waves not yet released. -/
def phaseOver (s : State) (cv : Nat) (c : Convoy) : State := { s with convoys := Tab.put s.convoys cv c.next }

theorem phaseOver_convoy (s : State) (cv : Nat) (c : Convoy) : Tab.find (phaseOver s cv c).convoys cv = some c.next := Tab.find_put_same ..

section
variable {s : State} {cv : Nat} {c : Convoy} (hc : Tab.find s.convoys cv = some c)
include hc

theorem execConvoyPhaseComplete_late (h : lateWaiters s cv c.phase ≠ []) : execConvoyPhaseComplete cv s =
    .next (bump ((lateWaiters s cv c.phase).foldl (fun a x => barWake a x.1 x.2 cv) s)) := by
  have hlate : (lateWaiters s cv c.phase).isEmpty = false := by simpa using h
  simp only [execConvoyPhaseComplete, hc, hlate]
  rfl

theorem execConvoyPhaseComplete_full (hlate : lateWaiters s cv c.phase = []) (hfull : phaseFull c = true)
    (hsome : c.reported ≠ [] ∨ barWaiters s cv c.phase ≠ []) : execConvoyPhaseComplete cv s =
    .next (bump ((barWaiters s cv c.phase).foldl (fun a x => barWake a x.1 x.2 cv) (phaseOver s cv c))) := by
  have hgo : (!c.reported.isEmpty || !(barWaiters s cv c.phase).isEmpty) = true := by simpa using hsome
  simp only [execConvoyPhaseComplete, hc, hlate, hfull, hgo]
  rfl

theorem execConvoyPhaseComplete_not_full (hlate : lateWaiters s cv c.phase = []) (hfull : phaseFull c = false) :
    execConvoyPhaseComplete cv s = .refused .notEnabled := by
  simp only [execConvoyPhaseComplete, hc, hlate, hfull]
  rfl

end

theorem convoyPhaseCompletes (s : State) (cv : Nat) (c : Convoy) (hc : Tab.find s.convoys cv = some c) :
    (lateWaiters s cv c.phase ≠ [] → ∃ t, exec (.convoyPhaseComplete cv) s = .next t ∧ t.mem = s.mem ∧
      (TabOk s.waves → ∀ e ∈ lateWaiters s cv c.phase, Released s t cv c.phase e.1 e.2)) ∧
    (lateWaiters s cv c.phase = [] →
      (phaseFull c = true → c.reported ≠ [] → barWaiters s cv c.phase = [] →
        exec (.convoyPhaseComplete cv) s = .next (bump (phaseOver s cv c))) ∧
      (phaseFull c = true → c.reported ≠ [] ∨ barWaiters s cv c.phase ≠ [] → ∃ t d, exec (.convoyPhaseComplete cv) s = .next t ∧ t.mem = s.mem ∧
        Tab.find t.convoys cv = some d ∧ d.phase = c.phase + 1 ∧ d.reported = [] ∧ d.members = c.members ∧ d.retired = c.retired ∧
        (∀ m, m ∈ d.arrived ↔ ∃ e ∈ barWaiters s cv c.phase, (e.2.party, e.2.num) = m ∧ (e.2.wait.bind fun x => x.rearm).isSome = true) ∧
        (TabOk s.waves → (∀ e ∈ barWaiters s cv c.phase, Released s t cv (c.phase + 1) e.1 e.2) ∧
          ∀ k, (∀ e ∈ barWaiters s cv c.phase, e.1 ≠ k) → waveOf t k = waveOf s k)) ∧
      (phaseFull c = false → exec (.convoyPhaseComplete cv) s = .refused .notEnabled)) := by
  refine ⟨fun hlate => ⟨_, execConvoyPhaseComplete_late hc hlate, (barWakes_calm ..).mem, fun htab e he => ?_⟩, fun hlate => ⟨?_, ?_, ?_⟩⟩
  · exact barWakes_released hc (htab.filter _) (fun e he => waveOf_of_mem htab (lateWaiters_mem he)) he
  · intro hfull hrep hnone
    have hexec := execConvoyPhaseComplete_full hc hlate hfull (.inl hrep)
    rw [hnone] at hexec
    exact hexec
  · intro hfull hsome
    have hcalm := barWakes_calm (barWaiters s cv c.phase) (phaseOver s cv c) cv
    refine ⟨_, _, execConvoyPhaseComplete_full hc hlate hfull hsome, hcalm.mem, barWakes_convoy _ (phaseOver_convoy s cv c), rfl, rfl, rfl, rfl,
      fun m => ?_, fun htab => ⟨fun e he => ?_, fun k hk => hcalm.others k ?_⟩⟩
    · exact mem_rearmed
    · exact barWakes_released (phaseOver_convoy s cv c) (htab.filter _) (fun e he => waveOf_of_mem htab (barWaiters_mem he)) he
    · rintro hmem
      obtain ⟨e, he, rfl⟩ := List.mem_map.1 hmem
      exact hk e he rfl
  · exact execConvoyPhaseComplete_not_full hc hlate

/-! ### MILESTONE_ADVANCE -/

/-- The counter passes exactly the numbers that have completed in order. -/
theorem advanceMs_spec : ∀ (n : Nat) (m : Ms), m.done.length ≤ n →
    m.count ≤ (advanceMs n m).count ∧ (∀ j, m.count < j → j ≤ (advanceMs n m).count → j ∈ m.done) ∧
      (advanceMs n m).count + 1 ∉ m.done ∧ (advanceMs n m).taken = m.taken
  | 0, m, h => by
    rw [List.length_eq_zero_iff.1 (Nat.le_zero.1 h)]
    exact ⟨le_rfl, fun j h1 h2 => absurd h2 (Nat.not_le.2 h1), List.not_mem_nil, rfl⟩
  | n + 1, m, h => by
    unfold advanceMs
    split
    · next hnext =>
      have hin : m.count + 1 ∈ m.done := by simpa using hnext
      have hshorter : (m.done.filter (· != m.count + 1)).length ≤ n := by
        have := List.length_filter_lt_length_iff_exists (p := (· != m.count + 1)) (l := m.done) |>.2 ⟨_, hin, by simp⟩
        omega
      obtain ⟨hle, hpassed, hstop, htaken⟩ :=
        advanceMs_spec n { m with count := m.count + 1, done := m.done.filter (· != m.count + 1) } hshorter
      refine ⟨Nat.le_of_succ_le hle, fun j h1 h2 => ?_, fun hmem => hstop (List.mem_filter.2 ⟨hmem, ?_⟩), htaken⟩
      · rcases Nat.eq_or_lt_of_le h1 with rfl | h1
        · exact hin
        · exact List.mem_of_mem_filter (hpassed j h1 h2)
      · have : m.count + 1 ≤ (advanceMs n { m with count := m.count + 1, done := m.done.filter (· != m.count + 1) }).count := hle
        simp only [bne_iff_ne, ne_eq]
        omega
    · next hnext => exact ⟨le_rfl, fun j h1 h2 => absurd h2 (Nat.not_le.2 h1), by simpa using hnext, rfl⟩

theorem advanceMs_passes {m : Ms} (h : m.count + 1 ∈ m.done) : m.count < (advanceMs m.done.length m).count := by
  obtain ⟨hle, -, hstop, -⟩ := advanceMs_spec m.done.length m le_rfl
  exact Nat.lt_of_le_of_ne hle fun heq => hstop (heq ▸ h)

/-- A wave that waits for a milestone is woken. -/
def msWake (s : State) (e : Nat × Wave) : State := wakeAcquire (waitCopies s (coreNo e.1)) e.1 e.2

theorem msWake_calm (s : State) (e : Nat × Wave) : Calm [e.1] s (msWake s e) := (Calm.waitCopies ..).trans (wakeAcquire_calm ..)

theorem wakeMs_calm (s : State) (lid p ctx n : Nat) : Calm ((msWaiters s lid p ctx n).map (·.1)) s (wakeMs s lid p ctx n) :=
  foldl_calm msWake_calm _ s

theorem msWake_wakes {s a : State} {slots : List Nat} (h : Calm slots s a) (hid : a.nextId = s.nextId) {e : Nat × Wave}
    (hw : waveOf a e.1 = some e.2) (hsame : waveOf a e.1 = waveOf s e.1) : Wakes s (msWake a e) e.1 e.2 := by
  refine ⟨wokenFrom_wakeAcquire _ _ (.refl _), fun hdone => ?_⟩
  have hcopies : Calm slots s (waitCopies a (coreNo e.1)) := h.trans (.waitCopies ..)
  refine (wakeAcquire_floor (s := waitCopies a (coreNo e.1)) (w := e.2) hw (.refl _) ?_).trans hcopies.commits
  refine acqDone_of_published hcopies.acc (congrArg (fun o : Option Wave => o.bind (·.outer)) hsame) ?_
  exact hid ▸ hdone

theorem Wakes.calm {s a t : State} {slots slots' : List Nat} {k : Nat} {w : Wave} (h : Wakes s a k w)
    (ha : Calm slots s a) (ht : Calm slots' a t) (hk : k ∉ slots') : Wakes s t k w :=
  ⟨fun halone => (h.1 halone).congr (ht.others k hk),
    fun hdone => (ht.floor_kept ((h.2 hdone).trans ha.commits.symm)).trans ha.commits⟩

/-- Every wave whose number has been reached is woken in one step. -/
theorem wakeMs_wakes {s : State} (htab : TabOk s.waves) (lid p ctx n : Nat) {e : Nat × Wave} (he : e ∈ msWaiters s lid p ctx n) :
    Wakes s (wakeMs s lid p ctx n) e.1 e.2 := by
  unfold wakeMs
  have hmem := waveOf_of_mem htab (msWaiters_mem he)
  obtain ⟨l1, l2, hl, hfirst, hlast⟩ := (htab.filter _).split_at he
  rw [show msWaiters s lid p ctx n = l1 ++ e :: l2 from hl, List.foldl_append, List.foldl_cons]
  have hbefore := foldl_calm msWake_calm l1 s
  have hsame := hbefore.others e.1 hfirst
  have hid : (l1.foldl msWake s).nextId = s.nextId := foldl_reads (f := msWake) (·.nextId) (fun _ _ => wakeAcquire_nextId ..) l1 s
  have hturn := msWake_wakes hbefore hid (hsame.trans hmem) hsame
  exact hturn.calm ((hbefore.mono fun k hk => List.mem_append_left [e.1] hk).trans
    ((msWake_calm ..).mono fun k hk => List.mem_append_right _ hk)) (foldl_calm msWake_calm l2 _) hlast

/-- A party whose counter has passed the numbers completed in order. -/
def Party.passed (p : Party) (ctx : Nat) : Party := { p with ms := Tab.put p.ms ctx (advanceMs (msOf p ctx).done.length (msOf p ctx)) }

/-- The state with that party, its waiting waves not yet woken. -/
def msPassed (s : State) (party ctx : Nat) (p : Party) : State := { s with parties := Tab.put s.parties party (p.passed ctx) }

section
variable {s : State} {party : Nat} {ctx : BitVec 3} {p : Party} (hp : Tab.find s.parties party = some p)
include hp

theorem execMilestoneAdvance_passes (h : (msOf p ctx.toNat).count + 1 ∈ (msOf p ctx.toNat).done) : execMilestoneAdvance party ctx s =
    .next (bump (wakeMs (msPassed s party ctx.toNat p) (party / 65536) (party % 65536) ctx.toNat
      (advanceMs (msOf p ctx.toNat).done.length (msOf p ctx.toNat)).count)) := by
  have hin : (msOf p ctx.toNat).done.contains ((msOf p ctx.toNat).count + 1) = true := by simpa using h
  simp only [execMilestoneAdvance, hp, hin, if_true]
  rfl

theorem execMilestoneAdvance_stays (h : (msOf p ctx.toNat).count + 1 ∉ (msOf p ctx.toNat).done) : execMilestoneAdvance party ctx s =
    if (msWaiters s (party / 65536) (party % 65536) ctx.toNat (msOf p ctx.toNat).count).isEmpty then .refused .notEnabled
    else .next (bump (wakeMs s (party / 65536) (party % 65536) ctx.toNat (msOf p ctx.toNat).count)) := by
  have hout : (msOf p ctx.toNat).done.contains ((msOf p ctx.toNat).count + 1) = false := by simpa using h
  simp only [execMilestoneAdvance, hp, hout]
  rfl

end

theorem milestoneAdvances (s : State) (party : Nat) (ctx : BitVec 3) (p : Party) (hp : Tab.find s.parties party = some p) :
    let m := msOf p ctx.toNat
    (m.count + 1 ∉ m.done → msWaiters s (party / 65536) (party % 65536) ctx.toNat m.count = [] →
      exec (.milestoneAdvance party ctx) s = .refused .notEnabled) ∧
    (m.count + 1 ∉ m.done → msWaiters s (party / 65536) (party % 65536) ctx.toNat m.count ≠ [] → ∃ t,
      exec (.milestoneAdvance party ctx) s = .next t ∧ t.mem = s.mem ∧
      (TabOk s.waves → ∀ e ∈ msWaiters s (party / 65536) (party % 65536) ctx.toNat m.count, Wakes s t e.1 e.2)) ∧
    (m.count + 1 ∈ m.done → ∃ t u, exec (.milestoneAdvance party ctx) s = .next t ∧ Tab.find t.parties party = some u ∧ t.mem = s.mem ∧
      (let c := (msOf u ctx.toNat).count
       m.count < c ∧ (∀ n, m.count < n → n ≤ c → n ∈ m.done) ∧ c + 1 ∉ m.done ∧ (msOf u ctx.toNat).taken = m.taken ∧
       (TabOk s.waves → ∀ e ∈ msWaiters s (party / 65536) (party % 65536) ctx.toNat c, Wakes s t e.1 e.2) ∧
       (msWaiters s (party / 65536) (party % 65536) ctx.toNat c = [] → t.waves = s.waves))) := by
  intro m
  refine ⟨fun hout hnone => ?_, fun hout hsome => ?_, fun hin => ?_⟩
  · exact (execMilestoneAdvance_stays hp hout).trans (if_pos (by rw [hnone]; rfl))
  · exact ⟨_, (execMilestoneAdvance_stays hp hout).trans (if_neg fun h => hsome (List.isEmpty_iff.1 h)), (wakeMs_calm ..).mem,
      fun htab e he => wakeMs_wakes htab _ _ _ _ he⟩
  · have hcalm := wakeMs_calm (msPassed s party ctx.toNat p) (party / 65536) (party % 65536) ctx.toNat (advanceMs m.done.length m).count
    obtain ⟨-, hpassed, hstop, htaken⟩ := advanceMs_spec m.done.length m le_rfl
    refine ⟨_, p.passed ctx.toNat, execMilestoneAdvance_passes hp hin, ?_, hcalm.mem, ?_⟩
    · exact (congrArg (fun x => Tab.find x party) hcalm.parties).trans (Tab.find_put_same s.parties party (p.passed ctx.toNat))
    · have hms : msOf (p.passed ctx.toNat) ctx.toNat = advanceMs m.done.length m := (Tab.findD_put ..).trans (if_pos rfl)
      rw [hms]
      refine ⟨advanceMs_passes hin, hpassed, hstop, htaken, fun htab e he => ?_, fun hnone => ?_⟩
      · exact wakeMs_wakes (s := msPassed s party ctx.toNat p) htab _ _ _ _ he
      · have hnone' : msWaiters (msPassed s party ctx.toNat p) (party / 65536) (party % 65536) ctx.toNat (advanceMs m.done.length m).count = [] := hnone
        unfold wakeMs
        rw [hnone']
        rfl

/-! ### GATE_WAIT_WAKE -/

theorem gateWaitWakes (s : State) (k : Nat) (w : Wave) (x : Waiting) (g n : Nat) (hw : waveOf s k = some w) (hst : w.st = .waiting)
    (hx : w.wait = some x) (hon : x.on = .gwait g n) :
    (n ≤ gateVal s g → w.stopping = none → ∃ t, exec (.gateWaitWake k) s = .next t ∧ t.mem = s.mem ∧ t.queues = s.queues ∧ Wakes s t k w) ∧
    (gateVal s g < n ∨ w.stopping ≠ none → exec (.gateWaitWake k) s = .refused .notEnabled) := by
  have hexec : exec (.gateWaitWake k) s = if n ≤ gateVal s g ∧ mayEnd w then done (wakeAcquire s k (withSyncs w (gateSyncs s g)))
      else notEnabled := by
    change execGateWaitWake k s = _
    simp only [execGateWaitWake, hw, hst, hx, hon]
  have hmay : mayEnd w = true ↔ w.stopping = none := by simp [mayEnd, hst]
  rw [hexec]
  refine ⟨fun hle hnot => ⟨_, if_pos ⟨hle, hmay.2 hnot⟩, (wakeAcquire_calm ..).mem, (wakeAcquire_calm ..).queues,
    wokenFrom_wakeAcquire s k (withSyncs_marks ..), wakeAcquire_floor hw (withSyncs_marks ..)⟩, fun hwhy => if_neg ?_⟩
  rintro ⟨hle, hmayEnd⟩
  exact hwhy.elim (fun hlt => absurd hle (Nat.not_le.2 hlt)) fun hstops => hstops (hmay.1 hmayEnd)

/-! ### CYCLIC_WAIT and TOLL_REFILL -/

/-- The launches of a route that have been accepted. -/
def acceptedStage (s : State) (lid : Nat) : Bool := match launchOf s lid with | some l => l.st == .accepted | none => false

theorem cyclicWaitKills (s : State) (k lid : Nat) (r : Route) (hr : Tab.find s.routes k = some r)
    (hlid : r.lids.find? (acceptedStage s) = some lid) :
    (cyclicNow s r = true → cyclicSince s r + 120000 ≤ s.now / 105 →
      exec (.cyclicWait k) s = .next (bump (killLaunch s lid 0x0F 0xFF 0xFF 0xFF 0 2))) ∧
    ((cyclicNow s r = false ∨ s.now / 105 < cyclicSince s r + 120000) → exec (.cyclicWait k) s = .refused .notEnabled) := by
  have hexec : exec (.cyclicWait k) s = if cyclicNow s r && cyclicSince s r + lodgeTicks ≤ ticks s
      then done (killLaunch s lid 0x0F 0xFF 0xFF 0xFF 0 2) else notEnabled := by
    change execCyclicWait k s = _
    unfold acceptedStage at hlid
    simp only [execCyclicWait, hr]
    split
    · next hnone => exact absurd (hlid.symm.trans hnone) (by simp)
    · next n hn => rw [Option.some.inj (hn.symm.trans hlid)]
  rw [hexec]
  refine ⟨fun hnow hlong => if_pos ?_, fun hwhy => if_neg ?_⟩
  · simp only [hnow, Bool.true_and, decide_eq_true_eq]
    exact hlong
  · simp only [Bool.and_eq_true, decide_eq_true_eq, not_and]
    intro hnow hlong
    exact hwhy.elim (fun h => absurd (hnow.symm.trans h) (by simp)) fun h => absurd hlong (Nat.not_le.2 h)

/-- The fast bucket of a function on a die. -/
def fastToll (s : State) (die : BitVec 3) (v : BitVec 4) : Toll := Tab.findD (dieOf s die.toNat).tollF v.toNat Toll.init

theorem tollRefills {s : State} {die : BitVec 3} {v : BitVec 4} (hdue : tollDue (ticks s) (fastToll s die v) = true) :
    ∃ t, exec (.tollRefill die v) s = .next t ∧ t.waves = s.waves ∧ t.mem = s.mem ∧
      fastToll t die v = refillToll (ticks s) (fastToll s die v) := by
  refine ⟨_, if_pos (Bool.or_eq_true_iff.2 (.inr hdue)), rfl, rfl, ?_⟩
  unfold fastToll
  have hdie : ∀ f : Die → Die, dieOf (bump (modDie s die.toNat f)) die.toNat = f (dieOf s die.toNat) := fun f =>
    (dieOf_modDie ..).trans (if_pos rfl)
  rw [hdie]
  exact (Tab.findD_put ..).trans (if_pos rfl)

/-- A bucket gains its rate for each whole microsecond, and is not due again before the next. -/
theorem refillToll_due {now : Nat} {t : Toll} (hen : t.en = true) (hdue : t.at_ + 1200 ≤ now) (hlow : t.level < tollDepth t) :
    (refillToll now t).level = min (t.level + ((now - t.at_) / 1200 : Nat) * t.rate) (tollDepth t) ∧ now < (refillToll now t).at_ + 1200 := by
  constructor
  · simp only [refillToll, hen, hlow, decide_true, Bool.and_self, if_true]
  · simp only [refillToll]
    omega

/-- Settles O50. A wait that ends leaves the other waves, and its acquire performs where no earlier load is outstanding, which no arrival of
another wave undoes: a publication holds more pieces back, and the handler waits for none that REPLAY alone lets go on. -/
theorem waitsEndTollsRefill : Obligations.WaitsEndTollsRefill := by
  unfold Obligations.WaitsEndTollsRefill
  refine ⟨fun s => ⟨?_, ?_, ?_⟩, fun s => ⟨?_, ?_⟩⟩
  · exact convoyPhaseCompletes s
  · exact milestoneAdvances s
  · exact gateWaitWakes s
  · exact cyclicWaitKills s
  · intro die v b depth hen hdue hlow
    have htoll : tollDue (ticks s) (fastToll s die v) = true := by
      rw [tollDue, show (fastToll s die v).en = true from hen, Bool.true_and, decide_eq_true_eq]
      exact hdue
    obtain ⟨t, hexec, hwaves, hmem, hb⟩ := tollRefills htoll
    obtain ⟨hlevel, hnext⟩ := refillToll_due (t := fastToll s die v) hen hdue hlow
    refine ⟨t, hexec, hwaves, hmem, ?_, ?_⟩
    · exact (congrArg (·.level) hb).trans hlevel
    · rw [show b t = refillToll (ticks s) (fastToll s die v) from hb]
      exact hnext

end Sys2Proof.Machine

/-! PROOF. What device memory holds after the device has written bytes into it (R5, R6, R207). -/

namespace Sys2Proof.Machine

/-! ### Bytes of a number -/

theorem length_leBytes : ∀ (n v : Nat), (leBytes n v).length = n
  | 0, _ => rfl
  | n + 1, v => congrArg Nat.succ (length_leBytes n (v / 256))

theorem leNat_leBytes : ∀ (n v : Nat), v < 256 ^ n → leNat (leBytes n v) = v
  | 0, v, h => by simpa [leBytes, leNat] using (Nat.lt_one_iff.1 h).symm
  | n + 1, v, h => by
    have hrest : v / 256 < 256 ^ n := Nat.div_lt_of_lt_mul (by rwa [Nat.pow_succ, Nat.mul_comm] at h)
    rw [leBytes, leNat, leNat_leBytes n _ hrest, BitVec.toNat_ofNat]
    omega

theorem length_rangeBytes {k : Nat} {f : Nat → List Byte} (hf : ∀ i, (f i).length = k) (n : Nat) : (rangeBytes n f).length = n * k := by
  simp [rangeBytes, List.length_flatMap, hf]

/-! ### Bytes that stand at a location -/

/-- These bytes stand at a location of device memory. -/
structure Holds (s : State) (loc : Nat) (bs : List Byte) : Prop where
  byte : ∀ i (h : i < bs.length), devByte s (loc + i) = bs[i]
  written : ∀ i, i < bs.length → isWiped s.wiped (loc + i) = false

/-- The written bytes of a range of device memory stay as they are. An undefined one has another free value in a later step, and is not meant. -/
structure SameBytes (s t : State) (loc n : Nat) : Prop where
  byte : ∀ x, loc ≤ x → x < loc + n → isWiped s.wiped x = false → devByte t x = devByte s x
  written : ∀ x, loc ≤ x → x < loc + n → isWiped s.wiped x = false → isWiped t.wiped x = false

/-- A state with the same memory. -/
theorem SameBytes.of_mem {s t : State} (hmem : t.mem = s.mem) (hwiped : t.wiped = s.wiped) (loc n : Nat) : SameBytes s t loc n := by
  refine ⟨fun x _ _ h => ?_, fun x _ _ h => by rw [hwiped, h]⟩
  rw [devByte, devByte, hwiped, hmem, h]
  rfl

theorem SameBytes.refl (s : State) (loc n : Nat) : SameBytes s s loc n := .of_mem rfl rfl loc n

theorem SameBytes.trans {s t u : State} {loc n : Nat} (h : SameBytes s t loc n) (h' : SameBytes t u loc n) : SameBytes s u loc n :=
  ⟨fun x h1 h2 hx => (h'.byte x h1 h2 (h.written x h1 h2 hx)).trans (h.byte x h1 h2 hx),
    fun x h1 h2 hx => h'.written x h1 h2 (h.written x h1 h2 hx)⟩

theorem Holds.same {s t : State} {loc a n : Nat} {bs : List Byte} (h : Holds s loc bs) (hs : SameBytes s t a n) (hlo : a ≤ loc)
    (hhi : loc + bs.length ≤ a + n) : Holds t loc bs :=
  ⟨fun i hi => (hs.byte _ (by omega) (by omega) (h.written i hi)).trans (h.byte i hi), fun i hi => hs.written _ (by omega) (by omega) (h.written i hi)⟩

theorem devGo_eq_map (s : State) : ∀ (n loc : Nat), devGo s loc n = (List.range n).map fun i => devByte s (loc + i)
  | 0, _ => rfl
  | n + 1, loc => by
    rw [devGo, devGo_eq_map s n, List.range_succ_eq_map, List.map_cons, List.map_map]
    exact congrArg (_ :: ·) (List.map_congr_left fun i _ => congrArg (devByte s) (by simp only [Nat.succ_eq_add_one]; omega))

theorem getBytes_eq_devGo {s : State} (h : s.wiped = []) : ∀ (n loc : Nat), getBytes s.mem loc n = devGo s loc n
  | 0, _ => rfl
  | n + 1, loc => by
    rw [getBytes, devGo, getBytes_eq_devGo h n, devByte, h]
    rfl

theorem devBytes_eq_map (s : State) (loc n : Nat) : devBytes s loc n = (List.range n).map fun i => devByte s (loc + i) := by
  unfold devBytes
  split
  · next h => rw [getBytes_eq_devGo (List.isEmpty_iff.1 h), devGo_eq_map]
  · exact devGo_eq_map ..

theorem devBytes_congr {s t : State} {loc n : Nat} (h : ∀ x, loc ≤ x → x < loc + n → devByte t x = devByte s x) :
    devBytes t loc n = devBytes s loc n := by
  rw [devBytes_eq_map, devBytes_eq_map]
  exact List.map_congr_left fun i hi => h _ (by omega) (by have := List.mem_range.1 hi; omega)

theorem Holds.bytes {s : State} {loc : Nat} {bs : List Byte} (h : Holds s loc bs) {n : Nat} (hn : bs.length = n) : devBytes s loc n = bs := by
  subst hn
  rw [devBytes_eq_map]
  refine List.ext_getElem (by simp) fun i h1 h2 => ?_
  rw [List.getElem_map, List.getElem_range]
  exact h.byte i h2

/-- A number that stands at a location is read there. -/
theorem Holds.number {s : State} {loc n v : Nat} (h : Holds s loc (leBytes n v)) (hv : v < 256 ^ n) : leNat (devBytes s loc n) = v := by
  rw [h.bytes (length_leBytes n v), leNat_leBytes n v hv]

theorem Holds.left {s : State} {loc : Nat} {xs ys : List Byte} (h : Holds s loc (xs ++ ys)) : Holds s loc xs :=
  ⟨fun i hi => (h.byte i (by rw [List.length_append]; omega)).trans (List.getElem_append_left hi),
    fun i hi => h.written i (by rw [List.length_append]; omega)⟩

theorem Holds.right {s : State} {loc : Nat} {xs ys : List Byte} (h : Holds s loc (xs ++ ys)) : Holds s (loc + xs.length) ys := by
  refine ⟨fun i hi => ?_, fun i hi => ?_⟩
  · rw [Nat.add_assoc, h.byte (xs.length + i) (by rw [List.length_append]; omega), List.getElem_append_right (by omega)]
    simp only [Nat.add_sub_cancel_left]
  · rw [Nat.add_assoc]
    exact h.written _ (by rw [List.length_append]; omega)

/-- The piece of index `i` of equal pieces. -/
theorem Holds.flatMap {s : State} {k : Nat} {f : Nat → List Byte} (hf : ∀ i, (f i).length = k) :
    ∀ {l : List Nat} {loc : Nat}, Holds s loc (l.flatMap f) → ∀ i (hi : i < l.length), Holds s (loc + k * i) (f l[i])
  | [], _, _, i, hi => absurd hi (Nat.not_lt_zero i)
  | x :: l, loc, h, i, hi => by
    rw [List.flatMap_cons] at h
    cases i with
    | zero => exact h.left
    | succ i =>
      have hrest := Holds.flatMap hf h.right i (Nat.lt_of_succ_lt_succ hi)
      rwa [hf, Nat.add_assoc, Nat.add_comm k, ← Nat.mul_succ] at hrest

theorem Holds.rangeBytes {s : State} {loc n k : Nat} {f : Nat → List Byte} (h : Holds s loc (rangeBytes n f)) (hf : ∀ i, (f i).length = k)
    {i : Nat} (hi : i < n) : Holds s (loc + k * i) (f i) := by
  have hpiece := Holds.flatMap hf h i (by rwa [List.length_range])
  rwa [List.getElem_range] at hpiece

/-! ### Device writes -/

theorem devWrite_devByte_out (s : State) {loc x : Nat} {bs : List Byte} (h : x < loc ∨ loc + bs.length ≤ x) :
    devByte (devWrite s loc bs) x = devByte s x := putCommits_devByte_out _ bs s loc x h

/-- A write takes its bytes out of the undefined runs, and adds none to them. -/
theorem isWiped_putCommits (o : Origin) : ∀ (bs : List Byte) (s : State) (loc x : Nat), isWiped (putCommits s o loc bs).wiped x =
    (decide (¬ (loc ≤ x ∧ x < loc + bs.length)) && isWiped s.wiped x)
  | [], s, loc, x => by
    rw [decide_eq_true (by simp only [List.length_nil]; omega), Bool.true_and]
    rfl
  | v :: t, s, loc, x => by
    rw [putCommits, isWiped_putCommits o t, show (putCommit s o loc v).wiped = s.wiped.flatMap (cutRun loc) from rfl, isWiped_flatMap, ← Bool.and_assoc,
      ← Bool.decide_and]
    refine congrArg (· && _) (decide_eq_decide.2 ?_)
    rw [List.length_cons]
    omega

theorem putCommits_holds (o : Origin) : ∀ (bs : List Byte) (s : State) (loc : Nat), Holds (putCommits s o loc bs) loc bs
  | [], _, _ => ⟨fun i hi => absurd hi (Nat.not_lt_zero i), fun i hi => absurd hi (Nat.not_lt_zero i)⟩
  | v :: t, s, loc => by
    refine ⟨fun i hi => ?_, fun i hi => ?_⟩
    · cases i with
      | zero =>
        have hlater := putCommits_devByte_out o t (putCommit s o loc v) (loc + 1) loc (.inl (Nat.lt_succ_self loc))
        exact hlater.trans ((putCommit_devByte ..).trans (if_pos rfl))
      | succ i =>
        have hrest := (putCommits_holds o t (putCommit s o loc v) (loc + 1)).byte i (Nat.lt_of_succ_lt_succ hi)
        rwa [Nat.add_right_comm] at hrest
    · rw [isWiped_putCommits, decide_eq_false (by omega), Bool.false_and]

/-- What the device writes stands there. -/
theorem devWrite_holds (s : State) (loc : Nat) (bs : List Byte) : Holds (devWrite s loc bs) loc bs :=
  ⟨(putCommits_holds _ bs s loc).byte, (putCommits_holds _ bs s loc).written⟩

theorem devWrite_same (s : State) {loc a n : Nat} {bs : List Byte} (h : a + n ≤ loc ∨ loc + bs.length ≤ a) :
    SameBytes s (devWrite s loc bs) a n := by
  refine ⟨fun _ h1 h2 _ => devWrite_devByte_out s (by omega), fun x _ _ hx => ?_⟩
  refine (isWiped_putCommits _ bs s loc x).trans ?_
  rw [hx, Bool.and_false]

/-- A state that differs from another in what the device has written to memory alone. -/
def DevWritten (s t : State) : Prop := ∃ mem wiped hist commits, t = { s with mem := mem, wiped := wiped, hist := hist, commits := commits }

theorem DevWritten.refl (s : State) : DevWritten s s := ⟨_, _, _, _, rfl⟩

theorem DevWritten.trans {s t u : State} (h : DevWritten s t) (h' : DevWritten t u) : DevWritten s u := by
  obtain ⟨_, _, _, _, rfl⟩ := h
  obtain ⟨_, _, _, _, rfl⟩ := h'
  exact ⟨_, _, _, _, rfl⟩

theorem DevWritten.putCommits (o : Origin) : ∀ (bs : List Byte) (s : State) (loc : Nat), DevWritten s (putCommits s o loc bs)
  | [], s, _ => .refl s
  | _ :: t, _, loc => DevWritten.trans ⟨_, _, _, _, rfl⟩ (DevWritten.putCommits o t _ (loc + 1))

theorem DevWritten.devWrite (s : State) (loc : Nat) (bs : List Byte) : DevWritten s (devWrite s loc bs) :=
  (DevWritten.putCommits _ bs s loc).trans ⟨_, _, _, _, rfl⟩

theorem DevWritten.foldl {α : Type} {f : State → α → State} (hf : ∀ s x, DevWritten s (f s x)) :
    ∀ (l : List α) (s : State), DevWritten s (l.foldl f s)
  | [], s => .refl s
  | x :: l, s => (hf s x).trans (DevWritten.foldl hf l (f s x))

/-! ### Equal pieces written one after another -/

/-- Pieces of one size at the places that their numbers name. -/
def writePieces {α : Type} (base size : Nat) (g : Nat → List Byte) (l : List (Nat × α)) (s : State) : State :=
  l.foldl (fun a e => devWrite a (base + size * e.1) (g e.1)) s

section
variable {α : Type} {base size : Nat} {g : Nat → List Byte} (hg : ∀ n, (g n).length = size)

theorem writePieces_written (l : List (Nat × α)) (s : State) : DevWritten s (writePieces base size g l s) :=
  .foldl (fun _ _ => .devWrite ..) l s

include hg

theorem writePieces_same {a n : Nat} : ∀ (l : List (Nat × α)) (s : State),
    (∀ e ∈ l, a + n ≤ base + size * e.1 ∨ base + size * e.1 + size ≤ a) → SameBytes s (writePieces base size g l s) a n
  | [], s, _ => .refl ..
  | e :: l, s, h => (devWrite_same s (by rw [hg]; exact h e (List.mem_cons_self ..))).trans
      (writePieces_same l _ fun x hx => h x (List.mem_cons_of_mem _ hx))

theorem writePieces_holds_of_holds {n : Nat} : ∀ (l : List (Nat × α)) {s : State}, Holds s (base + size * n) (g n) →
    Holds (writePieces base size g l s) (base + size * n) (g n)
  | [], _, h => h
  | e :: l, s, h => by
    refine writePieces_holds_of_holds l ?_
    by_cases hn : e.1 = n
    · subst hn
      exact devWrite_holds ..
    · refine h.same (devWrite_same (a := base + size * n) (n := size) s ?_) le_rfl (by rw [hg])
      rw [hg]
      rcases Nat.lt_or_gt_of_ne hn with hlt | hgt
      · exact .inr (by have := Nat.mul_le_mul_left size hlt; rw [Nat.mul_succ] at this; omega)
      · exact .inl (by have := Nat.mul_le_mul_left size hgt; rw [Nat.mul_succ] at this; omega)

theorem writePieces_holds {n : Nat} : ∀ {l : List (Nat × α)} {s : State}, n ∈ l.map (·.1) →
    Holds (writePieces base size g l s) (base + size * n) (g n)
  | [], _, h => absurd h List.not_mem_nil
  | e :: l, s, h => by
    obtain rfl | h := List.mem_cons.1 h
    · exact writePieces_holds_of_holds hg l (devWrite_holds ..)
    · exact writePieces_holds (l := l) h

end

end Sys2Proof.Machine

/-! PROOF. A wave stops at a safe point (R45, R63, R71, R275). -/

namespace Sys2Proof.Machine

/-! ### Windows close -/

/-- The wave but for its registers. -/
def RegsMoved (w v : Wave) : Prop := ∃ s h k a b, v = { w with s := s, h := h, k := k, a := a, b := b }

theorem applyWrite_regs (w : Wave) (x : RegWrite) (clash : Bool) : RegsMoved w (applyWrite w x clash) := by
  cases x with
  | s n v => exact ⟨_, _, _, _, _, rfl⟩
  | h n v => exact ⟨_, _, _, _, _, rfl⟩
  | k n m v => exact ⟨_, _, _, _, _, rfl⟩
  | v cl n m v => cases cl <;> exact ⟨_, _, _, _, _, rfl⟩

theorem applyWrites_regs : ∀ (l : List Window) (w : Wave), RegsMoved w (l.foldl (fun a x => applyWrite a x.w x.clash) w)
  | [], _ => ⟨_, _, _, _, _, rfl⟩
  | x :: l, w => by
    obtain ⟨_, _, _, _, _, hx⟩ := applyWrite_regs w x.w x.clash
    obtain ⟨s, h, k, a, b, hl⟩ := applyWrites_regs l (applyWrite w x.w x.clash)
    exact ⟨s, h, k, a, b, by rw [List.foldl_cons, hl, hx]⟩

/-- The windows of a wave close: only its registers change with them (R71). -/
theorem drainWins_regs (w : Wave) : RegsMoved { w with wins := [] } (drainWins w) := applyWrites_regs ..

/-! ### The stop -/

/-- The wave stops with a live mask, in the state that its wait or its token leaves it in. -/
def StopsAt (s : State) (wid : Nat) (w : Wave) (m : DWord) (back : WState) : Prop :=
  ∃ t v, exec (.safePointStop wid) s = .next t ∧ waveOf t wid = some v ∧ v.st = .stopped ∧ v.back = back ∧ v.stopping = some m ∧ v.wins = [] ∧
    v.tok = none ∧ v.pc = w.pc ∧ v.wait = w.wait ∧ v.live = w.live ∧ t.mem = s.mem

theorem stopWave_wave (s : State) (wid : Nat) (w : Wave) (m : DWord) : waveOf (stopWave s wid w m) wid =
    some { drainWins w with st := .stopped, back := w.st, stopping := some m, tok := none, missed := false } := waveOf_setWave s wid wid _ |>.trans (if_pos rfl)

section
variable {s : State} {wid : Nat} {w : Wave} (hw : waveOf s wid = some w) (hpre : w.preempt = true) (hsup : w.sup = false)
  (hinv : inInvpg s wid = false) (hstop : w.stopping = none)
include hw hpre hsup hinv

theorem execSafePointStop_eq (hst : w.st = .running ∨ w.st = .waiting) : exec (.safePointStop wid) s =
    match safePoint s wid w with
    | none => .refused .notEnabled
    | some m => if !storeRec w && stopDrained s wid w then .next (bump (stopWave s wid w m))
        else if w.stopping.isNone then .next (bump (setWave s wid { w with stopping := some m })) else .refused .notEnabled := by
  have hgo : (!w.preempt || w.sup || inInvpg s wid || !(w.st == .running || w.st == .waiting)) = false := by
    rcases hst with hst | hst <;> simp [hpre, hsup, hinv, hst]
  change execSafePointStop wid s = _
  simp only [execSafePointStop, hw, hgo, Bool.false_eq_true, if_false] <;> rfl

/-- Without a safe point the wave does not stop. -/
theorem safePointStop_elsewhere (hst : w.st = .running ∨ w.st = .waiting) (hpoint : safePoint s wid w = none) :
    exec (.safePointStop wid) s = .refused .notEnabled := by
  have hexec := execSafePointStop_eq hw hpre hsup hinv hst
  rwa [hpoint] at hexec

include hstop

/-- At a safe point the wave stops once its work has drained, and until then stands there. -/
theorem safePointStop_at {m : DWord} (hst : w.st = .running ∨ w.st = .waiting) (hpoint : safePoint s wid w = some m) :
    (storeRec w = false → stopDrained s wid w = true → StopsAt s wid w m w.st) ∧
    (storeRec w = true ∨ stopDrained s wid w = false →
      exec (.safePointStop wid) s = .next (bump (setWave s wid { w with stopping := some m }))) := by
  have hexec := execSafePointStop_eq hw hpre hsup hinv hst
  rw [hpoint] at hexec
  refine ⟨fun hrec hdrained => ?_, fun hwhy => ?_⟩
  · refine ⟨_, _, hexec.trans (if_pos (by simp [hrec, hdrained])), stopWave_wave s wid w m, ?_⟩
    obtain ⟨_, _, _, _, _, hregs⟩ := drainWins_regs w
    simp only [hregs, true_and]
    rfl
  · refine hexec.trans ((if_neg ?_).trans (if_pos (by rw [hstop]; rfl)))
    rcases hwhy with h | h <;> simp [h]

end

/-! ### Safe points -/

section
variable {s : State} {wid : Nat} {w : Wave} (hstop : w.stopping = none)
include hstop

theorem safePoint_running (hst : w.st = .running) : safePoint s wid w =
    if w.waitCnt = 0 ∧ !w.exiting ∧ !heldNow s wid w then
      (match nextBundle s wid w with
      | some (t, b) => if tokenBad t b then none else t.mask
      | none => none)
    else none := by
  simp only [safePoint, hstop, hst] <;> rfl

theorem safePoint_waiting {x : Waiting} (hst : w.st = .waiting) (hx : w.wait = some x) :
    safePoint s wid w = if x.sp ∧ w.back = .running ∧ !popEnds s x then some x.mask else none := by
  simp only [safePoint, hstop, hst, hx]

theorem safePoint_token {f : Fetched} {b : Bundle} (hst : w.st = .running) (hcnt : w.waitCnt = 0) (hexit : w.exiting = false)
    (hheld : heldNow s wid w = false) (hnext : nextBundle s wid w = some (f, b)) (hgood : tokenBad f b = false) :
    safePoint s wid w = f.mask := by
  simp only [safePoint_running hstop hst, hcnt, hexit, hheld, hnext, hgood, Bool.not_false, and_self, if_true, Bool.false_eq_true, if_false]

theorem safePoint_none_running (hst : w.st = .running)
    (h : heldNow s wid w = true ∨ ∀ f b, nextBundle s wid w = some (f, b) → f.mask = none ∨ tokenBad f b = true) :
    safePoint s wid w = none := by
  rw [safePoint_running hstop hst]
  split
  · next hgo =>
    have hheld : heldNow s wid w = false := by simpa using hgo.2.2
    split
    · next f b hnext =>
      split
      · rfl
      · next hbad =>
        rcases h with h | h
        · exact absurd (hheld.symm.trans h) (by simp)
        · exact (h f b hnext).resolve_right hbad
    · rfl
  · rfl

theorem safePoint_none_waiting (hst : w.st = .waiting) (h : ∀ x, w.wait = some x → x.sp = false) : safePoint s wid w = none := by
  cases hx : w.wait with
  | none => simp only [safePoint, hstop, hst, hx]
  | some x => rw [safePoint_waiting hstop hst hx, if_neg (by simp [h x hx])]

end

/-- A requested wave stops at its safe point and nowhere else. -/
theorem wavesStop (s : State) (wid : Nat) (w : Wave) (hw : waveOf s wid = some w) (hpre : w.preempt = true) (hsup : w.sup = false)
    (hinv : inInvpg s wid = false) (hstop : w.stopping = none) :
    (∀ f b m, w.st = .running → w.waitCnt = 0 → w.exiting = false → heldNow s wid w = false → nextBundle s wid w = some (f, b) →
        tokenBad f b = false → f.mask = some m →
      (storeRec w = false → stopDrained s wid w = true → StopsAt s wid w m .running) ∧
      (storeRec w = true ∨ stopDrained s wid w = false →
        exec (.safePointStop wid) s = .next (bump (setWave s wid { w with stopping := some m })))) ∧
    (∀ x, w.st = .waiting → w.wait = some x → x.sp = true → w.back = .running → popEnds s x = false →
      (storeRec w = false → stopDrained s wid w = true → StopsAt s wid w x.mask .waiting) ∧
      (storeRec w = true ∨ stopDrained s wid w = false →
        exec (.safePointStop wid) s = .next (bump (setWave s wid { w with stopping := some x.mask })))) ∧
    ((w.st = .running ∧ (heldNow s wid w = true ∨ ∀ f b, nextBundle s wid w = some (f, b) → f.mask = none ∨ tokenBad f b = true)) ∨
        (w.st = .waiting ∧ ∀ x, w.wait = some x → x.sp = false) →
      exec (.safePointStop wid) s = .refused .notEnabled) := by
  refine ⟨fun f b m hst hcnt hexit hheld hnext hgood hm => ?_, fun x hst hx hsp hback hpop => ?_, ?_⟩
  · exact hst ▸ safePointStop_at hw hpre hsup hinv hstop (.inl hst) ((safePoint_token hstop hst hcnt hexit hheld hnext hgood).trans hm)
  · have hpoint : safePoint s wid w = some x.mask := by simp [safePoint_waiting hstop hst hx, hsp, hback, hpop]
    exact hst ▸ safePointStop_at hw hpre hsup hinv hstop (.inr hst) hpoint
  · rintro (⟨hst, hwhy⟩ | ⟨hst, hsp⟩)
    · exact safePointStop_elsewhere hw hpre hsup hinv (.inl hst) (safePoint_none_running hstop hst hwhy)
    · exact safePointStop_elsewhere hw hpre hsup hinv (.inr hst) (safePoint_none_waiting hstop hst hsp)

end Sys2Proof.Machine

/-! PROOF. What stands in a wave's area (R276), what of its registers a live mask keeps (R62, R63), and what is read back from the area
(R278). -/

namespace Sys2Proof.Machine

/-! ### The registers that a live mask keeps -/

/-- Entries put one after another. -/
theorem Tab.find_foldl_put {α : Type} (p : Nat → Bool) (g : Nat → Nat) (x : α) (k : Nat) : ∀ (l : List Nat) (t : Tab α),
    Tab.find (l.foldl (fun t n => if p n then Tab.put t (g n) x else t) t) k =
      if ∃ n ∈ l, p n = true ∧ g n = k then some x else Tab.find t k
  | [], _ => by simp
  | n :: l, t => by
    rw [List.foldl_cons, Tab.find_foldl_put p g x k l]
    by_cases hp : p n = true
    · by_cases hk : g n = k
      · simp [hp, hk, Tab.find_put]
      · simp [hp, hk, Tab.find_put_ne _ _ _ _ (Ne.symm hk)]
    · simp [hp]

/-- Entries dropped one after another. -/
theorem Tab.find_foldl_del {α : Type} (p : Nat → Bool) (k : Nat) : ∀ (l : List Nat) (t : Tab α),
    Tab.find (l.foldl (fun t n => if p n then Tab.del t n else t) t) k = if ∃ n ∈ l, p n = true ∧ n = k then none else Tab.find t k
  | [], _ => by simp
  | n :: l, t => by
    rw [List.foldl_cons, Tab.find_foldl_del p k l]
    by_cases hk : n = k
    · subst hk
      by_cases hp : p n = true <;> simp [hp, Tab.find_del]
    · by_cases hp : p n = true <;> simp [hp, Tab.find_del, Ne.symm hk]

section
variable (w : Wave) (m : DWord) {n : Nat}

theorem reduceWave_s (hn : n < 64) : Tab.find (reduceWave w m).s n = if m.getLsbD (16 + n / 8) = true then Tab.find w.s n else some SReg.undef := by
  refine (Tab.find_foldl_put (fun n => !m.getLsbD (16 + n / 8)) id SReg.undef n (List.range 64) w.s).trans ?_
  by_cases hm : m.getLsbD (16 + n / 8) = true <;> simp [hm, hn]

theorem reduceWave_k (h1 : 1 ≤ n) (hn : n < 16) : Tab.find (reduceWave w m).k n =
    if m.getLsbD (24 + n) = true then Tab.find w.k n else some { val := 0, und := BitVec.allOnes 32 } := by
  refine (Tab.find_foldl_put (fun n => !m.getLsbD (24 + (n + 1))) (· + 1) ({ val := 0, und := BitVec.allOnes 32 } : KReg) n (List.range 15) w.k).trans ?_
  by_cases hm : m.getLsbD (24 + n) = true
  · rw [if_neg, if_pos hm]
    rintro ⟨j, -, hj, rfl⟩
    simp [hm] at hj
  · rw [if_pos ⟨n - 1, List.mem_range.2 (by omega), by simp [Nat.sub_add_cancel h1, hm], Nat.sub_add_cancel h1⟩, if_neg hm]

theorem reduceWave_a (hn : n < 64) : Tab.find (reduceWave w m).a n = if m.getLsbD (n / 8) = true then Tab.find w.a n else none := by
  refine (Tab.find_foldl_del (fun n => !m.getLsbD (0 + n / 8)) n (List.range 64) w.a).trans ?_
  by_cases hm : m.getLsbD (n / 8) = true <;> simp [hm, hn]

theorem reduceWave_b (hn : n < 64) : Tab.find (reduceWave w m).b n = if m.getLsbD (8 + n / 8) = true then Tab.find w.b n else none := by
  refine (Tab.find_foldl_del (fun n => !m.getLsbD (8 + n / 8)) n (List.range 64) w.b).trans ?_
  by_cases hm : m.getLsbD (8 + n / 8) = true <;> simp [hm, hn]

end

/-! ### The bytes of an area -/

theorem length_sBytes (s : State) (w : Wave) (n : Nat) : (sBytes s w n).length = 8 := length_leBytes ..
theorem length_hBytes (s : State) (w : Wave) (n : Nat) : (hBytes s w n).length = 8 := length_leBytes ..
theorem length_kBytes (s : State) (w : Wave) (n : Nat) : (kBytes s w n).length = 4 := length_leBytes ..
theorem length_vBytes (s : State) (w : Wave) (cl : Cluster) (n : Nat) : (vBytes s w cl n).length = 128 :=
  length_rangeBytes (fun _ => length_leBytes ..) 32

theorem length_streamBytes (s : State) (w : Wave) : (streamBytes s w).length = 40 := by
  unfold streamBytes
  extract_lets pend acq
  have hpend : (rangeBytes 4 fun e => leBytes 1 (pend e)).length = 4 := length_rangeBytes (fun _ => length_leBytes ..) 4
  have hacq : (rangeBytes 4 fun e => leBytes 4 (acq e)).length = 16 := length_rangeBytes (fun _ => length_leBytes ..) 4
  rw [List.length_append, List.length_append, hpend, hacq, length_leBytes]

theorem length_areaHead (s : State) (w : Wave) (st : WState) (m : DWord) : (areaHead s w st m).length = 0x400 := by
  have hs : (rangeBytes 64 (sBytes s w)).length = 512 := length_rangeBytes (length_sBytes s w) 64
  have hh : (rangeBytes 8 (hBytes s w)).length = 64 := length_rangeBytes (length_hBytes s w) 8
  have hk : (rangeBytes 16 (kBytes s w)).length = 64 := length_rangeBytes (length_kBytes s w) 16
  have hlfsr : (rangeBytes 32 fun i => leBytes 4 (w.lfsr.at i).toNat).length = 128 := length_rangeBytes (fun _ => length_leBytes ..) 32
  unfold areaHead
  simp only [List.length_append, length_leBytes, length_streamBytes, hs, hh, hk, hlfsr]

/-- The two register files of an area. -/
theorem length_vFile (s : State) (w : Wave) (cl : Cluster) : (rangeBytes 64 (vBytes s w cl)).length = 0x2000 :=
  length_rangeBytes (length_vBytes s w cl) 64

/-- A wave's area holds what is saved of the wave; `u` is the state in which it was saved. -/
structure AreaHolds (u t : State) (a : Nat) (w : Wave) (m : DWord) : Prop where
  head : Holds t a (areaHead u w .saved m)
  fileA : Holds t (a + 0x1000) (rangeBytes 64 (vBytes u w .A))
  fileB : Holds t (a + 0x3000) (rangeBytes 64 (vBytes u w .B))

theorem AreaHolds.same {u t t' : State} {a : Nat} {w : Wave} {m : DWord} (h : AreaHolds u t a w m) (hs : SameBytes t t' a 0x8000) :
    AreaHolds u t' a w m where
  head := h.head.same hs le_rfl (by rw [length_areaHead]; omega)
  fileA := h.fileA.same hs (by omega) (by rw [length_vFile]; omega)
  fileB := h.fileB.same hs (by omega) (by rw [length_vFile]; omega)

theorem writeArea_written (s : State) (k : Nat) (w : Wave) (st : WState) (m : DWord) : DevWritten s (writeArea s k w st m) := by
  unfold writeArea
  split
  · exact .refl s
  · exact (((DevWritten.devWrite ..).trans (.devWrite ..)).trans (.devWrite ..)).trans (.devWrite ..)

theorem writeArea_same {s : State} {k : Nat} {w : Wave} (st : WState) (m : DWord) {b n : Nat}
    (h : ∀ a, waveArea s k w = some a → b + n ≤ a ∨ a + 0x8000 ≤ b) : SameBytes s (writeArea s k w st m) b n := by
  unfold writeArea
  split
  · exact .refl ..
  · next a ha =>
    have hout := h a ha
    refine (((devWrite_same _ ?_).trans (devWrite_same _ ?_)).trans (devWrite_same _ ?_)).trans (devWrite_same _ ?_)
    · rw [length_areaHead]; omega
    · rw [length_leBytes]; omega
    · rw [length_vFile]; omega
    · rw [List.length_append, length_vFile, length_leBytes]; omega

theorem writeArea_eq {s : State} {k : Nat} {w : Wave} (st : WState) (m : DWord) {a : Nat} (h : waveArea s k w = some a) :
    writeArea s k w st m =
      devWrite (devWrite (devWrite (devWrite s a (areaHead s w st m)) (a + 0xC00) (leBytes 1024 0)) (a + 0x1000) (rangeBytes 64 (vBytes s w .A)))
        (a + 0x3000) (rangeBytes 64 (vBytes s w .B) ++ leBytes 12288 0) := by
  simp only [writeArea, h]

theorem writeArea_holds {s : State} {k : Nat} {w : Wave} {m : DWord} {a : Nat} (h : waveArea s k w = some a) :
    AreaHolds s (writeArea s k w .saved m) a w m := by
  rw [writeArea_eq _ _ h]
  refine ⟨?_, ?_, (devWrite_holds ..).left⟩
  · have hqueue := (devWrite_holds s a (areaHead s w .saved m)).same (a := a) (n := 0x400) (devWrite_same (loc := a + 0xC00) (bs := leBytes 1024 0) _
      (.inl (by omega))) le_rfl (by rw [length_areaHead])
    have hA := hqueue.same (a := a) (n := 0x400) (devWrite_same (loc := a + 0x1000) (bs := rangeBytes 64 (vBytes s w .A)) _ (.inl (by omega))) le_rfl
      (by rw [length_areaHead])
    exact hA.same (a := a) (n := 0x400) (devWrite_same _ (.inl (by omega))) le_rfl (by rw [length_areaHead])
  · exact (devWrite_holds ..).same (a := a + 0x1000) (n := 0x2000) (devWrite_same _ (.inl (by omega))) le_rfl (by rw [length_vFile])

/-! ### What an area reads as -/

/-- A word of the area. -/
def areaWord (t : State) (a : Nat) : Nat := leNat (devBytes t a 4)

theorem Holds.word {t : State} {a : Nat} {v : Word} (h : Holds t a (leBytes 4 v.toNat)) : areaWord t a = v.toNat :=
  h.number (Nat.lt_of_lt_of_eq v.isLt (by norm_num))

theorem Holds.dword {t : State} {a : Nat} {v : DWord} (h : Holds t a (leBytes 8 v.toNat)) : leNat (devBytes t a 8) = v.toNat :=
  h.number (Nat.lt_of_lt_of_eq v.isLt (by norm_num))

theorem Lanes.of_at (f : Fin 32 → Word) {i : Nat} (hi : i < 32) : (Lanes.of f).at i = f ⟨i, hi⟩ := by
  simp [Lanes.at, Lanes.of, hi]

/-- A defined lane, no window being open, is read as it stands. -/
theorem rdV_lane (s : State) {w : Wave} (tag : Nat) (cl : Cluster) {n i : Nat} (hwins : w.wins = []) (hi : i < 32)
    (hdef : (holdV w cl n).und.getLsbD i = false) : (rdV s w tag cl n).at i = (holdV w cl n).val.at i := by
  have hopen : (holdV w cl n).und ||| openMask w.wins (.v cl n) = (holdV w cl n).und := by
    rw [hwins]
    exact BitVec.or_zero
  simp only [rdV, hopen]
  split
  · rfl
  · rw [Lanes.of_at _ hi, if_neg (by simp [hdef])]

theorem rdK_defined (s : State) {w : Wave} (tag : Nat) {n : Nat} (hn : 1 ≤ n) (hwins : w.wins = []) (hdef : (holdK w n).und = 0) :
    rdK s w tag n = (holdK w n).val := by
  have hopen : (holdK w n).und ||| openMask w.wins (.k n) = 0 := by
    rw [hwins, hdef]
    exact BitVec.or_zero
  simp only [rdK, hopen, Nat.ne_of_gt hn, if_false, if_true]

/-- The read by which a vector register is saved. -/
def savedV (u : State) (w : Wave) (cl : Cluster) (n : Nat) : Lanes :=
  rdV u { w with wins := [] } (areaTag + 4096 + 64 * n + (match cl with | .A => 0 | .B => 8192)) cl n

theorem vBytes_eq (u : State) (w : Wave) (cl : Cluster) (n : Nat) :
    vBytes u w cl n = rangeBytes 32 fun i => leBytes 4 ((savedV u w cl n).at i).toNat := rfl

theorem holdV_wins (w : Wave) (l : List Window) (cl : Cluster) (n : Nat) : holdV { w with wins := l } cl n = holdV w cl n := by cases cl <;> rfl

theorem savedV_lane (u : State) {w : Wave} {cl : Cluster} {n i : Nat} (hi : i < 32) (hdef : (holdV w cl n).und.getLsbD i = false) :
    (savedV u w cl n).at i = (holdV w cl n).val.at i :=
  (rdV_lane u (w := { w with wins := [] }) _ cl rfl hi (by rwa [holdV_wins])).trans (by rw [holdV_wins])

theorem vFile_word {u t : State} {base n i : Nat} {w : Wave} {cl : Cluster} (h : Holds t base (rangeBytes 64 (vBytes u w cl)))
    (hn : n < 64) (hi : i < 32) (hdef : (holdV w cl n).und.getLsbD i = false) :
    areaWord t (base + 128 * n + 4 * i) = ((holdV w cl n).val.at i).toNat := by
  have hreg := h.rangeBytes (length_vBytes u w cl) hn
  rw [vBytes_eq] at hreg
  exact (hreg.rangeBytes (fun _ => length_leBytes 4 _) hi).word.trans (congrArg BitVec.toNat (savedV_lane u hi hdef))

/-- The parts of the front of an area that are read below. -/
theorem areaHead_parts {u t : State} {a : Nat} {w : Wave} {m : DWord} (h : Holds t a (areaHead u w .saved m)) :
    Holds t a (leBytes 4 w.pc.toNat) ∧ Holds t (a + 4) (leBytes 4 (6 + (if w.sup then 8 else 0) + 16 * waitCode w)) ∧
      Holds t (a + 8) (leBytes 8 m.toNat) ∧ Holds t (a + 0x100) (rangeBytes 64 (sBytes u w)) ∧
      Holds t (a + 0x340) (rangeBytes 16 (kBytes u w)) := by
  have hk := h.left.right
  have hs := h.left.left.left.right
  have hfront : Holds t a (leBytes 4 w.pc.toNat ++ leBytes 4 (6 + (if w.sup then 8 else 0) + 16 * waitCode w) ++ leBytes 8 m.toNat) :=
    h.left.left.left.left.left.left.left.left.left.left.left.left.left.left.left.left
  have hmask := hfront.right
  have hstate := hfront.left.right
  simp only [List.length_append, length_leBytes, length_streamBytes, length_rangeBytes (length_sBytes u w),
    length_rangeBytes (length_hBytes u w)] at hk hs hmask hstate
  exact ⟨hfront.left.left, hstate, hmask, hs, hk⟩

/-- What a saved wave's area reads as: its bundle address, state and wait, its live mask, and every register that is defined. -/
structure AreaReads (t : State) (a : Nat) (w : Wave) (m : DWord) : Prop where
  pc : areaWord t a = w.pc.toNat
  state : areaWord t (a + 4) = 6 + (if w.sup then 8 else 0) + 16 * waitCode w
  mask : leNat (devBytes t (a + 8) 8) = m.toNat
  sregs : ∀ n x, n < 64 → Tab.find w.s n = some x → x.und = false → leNat (devBytes t (a + 0x100 + 8 * n) 8) = x.val.toNat
  kregs : ∀ n x, 1 ≤ n → n < 16 → Tab.find w.k n = some x → x.und = 0 → areaWord t (a + 0x340 + 4 * n) = x.val.toNat
  aregs : ∀ n x i, n < 64 → i < 32 → Tab.find w.a n = some x → x.und.getLsbD i = false →
    areaWord t (a + 0x1000 + 128 * n + 4 * i) = (x.val.at i).toNat
  bregs : ∀ n x i, n < 64 → i < 32 → Tab.find w.b n = some x → x.und.getLsbD i = false →
    areaWord t (a + 0x3000 + 128 * n + 4 * i) = (x.val.at i).toNat

theorem waitCode_lt (w : Wave) : waitCode w < 6 := by
  unfold waitCode
  split
  · omega
  · split <;> omega

theorem AreaHolds.reads {u t : State} {a : Nat} {w : Wave} {m : DWord} (h : AreaHolds u t a w m) : AreaReads t a w m := by
  obtain ⟨hpc, hstate, hmask, hs, hk⟩ := areaHead_parts h.head
  refine ⟨hpc.word, hstate.number ?_, hmask.dword, ?_, ?_, ?_, ?_⟩
  · have := waitCode_lt w
    split <;> omega
  · intro n x hn hx hdef
    have hreg := hs.rangeBytes (length_sBytes u w) hn
    rw [show sBytes u w n = leBytes 8 x.val.toNat by simp [sBytes, Tab.findD, hx, hdef]] at hreg
    exact hreg.dword
  · intro n x h1 hn hx hdef
    have hhold : holdK { w with wins := [] } n = x := by simp only [holdK, Tab.findD, hx, Option.getD_some]
    have hreg := hk.rangeBytes (length_kBytes u w) hn
    rw [kBytes, rdK_defined u _ h1 rfl (by rw [hhold]; exact hdef), hhold] at hreg
    exact hreg.word
  · intro n x i hn hi hx hdef
    have hhold : holdV w .A n = x := by simp only [holdV, Tab.findD, hx, Option.getD_some]
    exact (vFile_word h.fileA hn hi (hhold ▸ hdef)).trans (by rw [hhold])
  · intro n x i hn hi hx hdef
    have hhold : holdV w .B n = x := by simp only [holdV, Tab.findD, hx, Option.getD_some]
    exact (vFile_word h.fileB hn hi (hhold ▸ hdef)).trans (by rw [hhold])

end Sys2Proof.Machine

/-! PROOF. A body is saved: its waves in their areas, and its units in those of their cores (R275 to R277). -/

namespace Sys2Proof.Machine

/-! ### The waves of a body are saved -/

/-- A wave of a saved body. -/
def savedAs (w : Wave) : Wave := if w.st = .stopped then { reduceWave w (w.stopping.getD allLive) with st := .saved } else w

/-- The wave as its area is written: what the live mask keeps, at its safe-point bundle. -/
def areaWave (w : Wave) : Wave :=
  { reduceWave w (w.stopping.getD allLive) with pc := stopPc (reduceWave w (w.stopping.getD allLive)) }

/-- A state that differs from another in waves, in the bytes of pushes and in what the device has written alone. -/
def SaveMoved (s t : State) : Prop :=
  ∃ waves streams mem wiped hist commits,
    t = { s with waves := waves, streams := streams, mem := mem, wiped := wiped, hist := hist, commits := commits }

theorem SaveMoved.refl (s : State) : SaveMoved s s := ⟨_, _, _, _, _, _, rfl⟩

theorem SaveMoved.trans {s t u : State} (h : SaveMoved s t) (h' : SaveMoved t u) : SaveMoved s u := by
  obtain ⟨_, _, _, _, _, _, rfl⟩ := h
  obtain ⟨_, _, _, _, _, _, rfl⟩ := h'
  exact ⟨_, _, _, _, _, _, rfl⟩

theorem DevWritten.saveMoved {s t : State} (h : DevWritten s t) : SaveMoved s t := by
  obtain ⟨_, _, _, _, rfl⟩ := h
  exact ⟨_, _, _, _, _, _, rfl⟩

theorem SaveMoved.fixPushes (s : State) (lid : Nat) : SaveMoved s (fixPushes s lid) := ⟨_, _, _, _, _, _, rfl⟩

theorem saveWave_stopped {s : State} {e : Nat × Wave} (h : e.2.st = .stopped) :
    saveWave s e = setWave (writeArea s e.1 (areaWave e.2) .saved (e.2.stopping.getD allLive)) e.1 (savedAs e.2) := by
  simp only [saveWave, savedAs, h, if_true]
  rfl

theorem saveWave_other {s : State} {e : Nat × Wave} (h : e.2.st ≠ .stopped) : saveWave s e = s := if_neg h

theorem saveWave_moved (s : State) (e : Nat × Wave) : SaveMoved s (saveWave s e) := by
  by_cases h : e.2.st = .stopped
  · rw [saveWave_stopped h]
    exact (writeArea_written ..).saveMoved.trans ⟨_, _, _, _, _, _, rfl⟩
  · rw [saveWave_other h]
    exact .refl s

theorem saveWaves_moved : ∀ (l : List (Nat × Wave)) (s : State), SaveMoved s (l.foldl saveWave s)
  | [], s => .refl s
  | e :: l, s => (saveWave_moved s e).trans (saveWaves_moved l _)

theorem DevWritten.waves {s t : State} (h : DevWritten s t) : t.waves = s.waves := by
  obtain ⟨_, _, _, _, rfl⟩ := h
  rfl

theorem saveWave_waves_of_stopped {s : State} {e : Nat × Wave} (h : e.2.st = .stopped) :
    (saveWave s e).waves = Tab.put s.waves e.1 (savedAs e.2) := by
  rw [saveWave_stopped h]
  exact congrArg (Tab.put · e.1 (savedAs e.2)) (writeArea_written ..).waves

theorem waveOf_saveWave_same {s : State} {e : Nat × Wave} (h : waveOf s e.1 = some e.2) : waveOf (saveWave s e) e.1 = some (savedAs e.2) := by
  by_cases hst : e.2.st = .stopped
  · rw [waveOf, saveWave_waves_of_stopped hst, Tab.find_put_same]
  · rw [saveWave_other hst, h, savedAs, if_neg hst]

theorem waveOf_saveWave_other {s : State} {e : Nat × Wave} {k : Nat} (h : k ≠ e.1) : waveOf (saveWave s e) k = waveOf s k := by
  by_cases hst : e.2.st = .stopped
  · rw [waveOf, saveWave_waves_of_stopped hst, Tab.find_put_ne _ _ _ _ h]
    rfl
  · rw [saveWave_other hst]

theorem waveOf_saveWaves_other {k : Nat} : ∀ (l : List (Nat × Wave)) (s : State), k ∉ l.map (·.1) →
    waveOf (l.foldl saveWave s) k = waveOf s k
  | [], _, _ => rfl
  | e :: l, s, h => by
    obtain ⟨hk, hrest⟩ := not_or.1 (List.mem_cons.not.1 h)
    exact (waveOf_saveWaves_other l _ hrest).trans (waveOf_saveWave_other hk)

theorem tabOk_saveWave {s : State} (h : TabOk s.waves) (e : Nat × Wave) : TabOk (saveWave s e).waves := by
  by_cases hst : e.2.st = .stopped
  · rw [saveWave_waves_of_stopped hst]
    exact h.put _ _
  · rwa [saveWave_other hst]

theorem tabOk_saveWaves : ∀ (l : List (Nat × Wave)) {s : State}, TabOk s.waves → TabOk (l.foldl saveWave s).waves
  | [], _, h => h
  | e :: l, _, h => tabOk_saveWaves l (tabOk_saveWave h e)

/-- The waves of a launch saved, and no other. -/
def savedIn (lid : Nat) (w : Wave) : Wave := if w.lid = lid then savedAs w else w

theorem mem_wavesOf {s : State} {lid : Nat} {e : Nat × Wave} : e ∈ wavesOf s lid ↔ e ∈ s.waves ∧ e.2.lid = lid := by
  simp [wavesOf]

theorem waveOf_saveWaves {s : State} (htab : TabOk s.waves) (lid k : Nat) :
    waveOf ((wavesOf s lid).foldl saveWave s) k = (waveOf s k).map (savedIn lid) := by
  by_cases hmine : ∃ w, waveOf s k = some w ∧ w.lid = lid
  · obtain ⟨w, hw, hlid⟩ := hmine
    have hin : (k, w) ∈ wavesOf s lid := mem_wavesOf.2 ⟨Tab.mem_of_find _ _ _ hw, hlid⟩
    obtain ⟨l1, l2, hl, hfirst, hlast⟩ := (htab.filter _).split_at hin
    rw [show wavesOf s lid = l1 ++ (k, w) :: l2 from hl, List.foldl_append, List.foldl_cons, waveOf_saveWaves_other l2 _ hlast, hw]
    have hturn : waveOf (l1.foldl saveWave s) k = some w := (waveOf_saveWaves_other l1 s hfirst).trans hw
    exact (waveOf_saveWave_same (e := (k, w)) hturn).trans (congrArg some (if_pos hlid).symm)
  · have hout : k ∉ (wavesOf s lid).map (·.1) := by
      intro h
      obtain ⟨e, he, rfl⟩ := List.mem_map.1 h
      obtain ⟨hmem, hlid⟩ := mem_wavesOf.1 he
      exact hmine ⟨e.2, waveOf_of_mem htab hmem, hlid⟩
    rw [waveOf_saveWaves_other _ s hout]
    cases hw : waveOf s k with
    | none => rfl
    | some w => exact congrArg some (if_neg fun hlid => hmine ⟨w, hw, hlid⟩).symm

theorem saveWaves_waves {s : State} (htab : TabOk s.waves) (lid : Nat) :
    ((wavesOf s lid).foldl saveWave s).waves = s.waves.map fun e => (e.1, savedIn lid e.2) :=
  (tabOk_saveWaves _ htab).ext (htab.map fun e => savedIn lid e.2) fun k =>
    (waveOf_saveWaves htab lid k).trans (Tab.find_map s.waves (fun _ => savedIn lid) k).symm

/-- A saved wave keeps what its unit is known by. -/
theorem savedIn_keeps (lid : Nat) (w : Wave) :
    (savedIn lid w).lid = w.lid ∧ (savedIn lid w).party = w.party ∧ (savedIn lid w).num = w.num ∧ (savedIn lid w).stopping = w.stopping := by
  unfold savedIn savedAs
  split
  · split <;> exact ⟨rfl, rfl, rfl, rfl⟩
  · exact ⟨rfl, rfl, rfl, rfl⟩

/-! ### Their areas -/

theorem waveArea_congr {s t : State} (h : t.dies = s.dies) (k : Nat) {w v : Wave} (hlid : v.lid = w.lid) (hparty : v.party = w.party)
    (hnum : v.num = w.num) : waveArea t k v = waveArea s k w := by
  simp only [waveArea, dieOf, h, hlid, hparty, hnum]

theorem waveArea_areaWave (s : State) (k : Nat) (w : Wave) : waveArea s k (areaWave w) = waveArea s k w :=
  waveArea_congr rfl k rfl rfl rfl

theorem SaveMoved.dies {s t : State} (h : SaveMoved s t) : t.dies = s.dies := by
  obtain ⟨_, _, _, _, _, _, rfl⟩ := h
  rfl

theorem setWave_bytes (s : State) (k : Nat) (w : Wave) (a n : Nat) : SameBytes s (setWave s k w) a n := .of_mem (by rfl) (by rfl) a n

theorem saveWave_same {s : State} {e : Nat × Wave} {b n : Nat} (h : ∀ a, waveArea s e.1 e.2 = some a → b + n ≤ a ∨ a + 0x8000 ≤ b) :
    SameBytes s (saveWave s e) b n := by
  by_cases hst : e.2.st = .stopped
  · rw [saveWave_stopped hst]
    exact (writeArea_same .saved _ fun a ha => h a ((waveArea_areaWave ..).symm.trans ha)).trans (setWave_bytes ..)
  · rw [saveWave_other hst]
    exact .refl ..

theorem saveWaves_same {b n : Nat} : ∀ (l : List (Nat × Wave)) {s : State},
    (∀ e ∈ l, ∀ a, waveArea s e.1 e.2 = some a → b + n ≤ a ∨ a + 0x8000 ≤ b) → SameBytes s (l.foldl saveWave s) b n
  | [], _, _ => .refl ..
  | e :: l, s, h => by
    refine (saveWave_same (h e (List.mem_cons_self ..))).trans (saveWaves_same l fun x hx a ha => ?_)
    exact h x (List.mem_cons_of_mem _ hx) a ((waveArea_congr (saveWave_moved s e).dies x.1 rfl rfl rfl).symm.trans ha)

/-- Areas of other waves of the launch lie elsewhere. -/
def AreasApart (s : State) (lid : Nat) : Prop := ∀ k k' a a', (∃ w, waveOf s k = some w ∧ w.lid = lid ∧ waveArea s k w = some a) →
  (∃ w, waveOf s k' = some w ∧ w.lid = lid ∧ waveArea s k' w = some a') → k ≠ k' → a + 0x8000 ≤ a' ∨ a' + 0x8000 ≤ a

/-- The area of every stopped wave of a launch holds it. -/
theorem saveWaves_areas {s : State} (htab : TabOk s.waves) {lid : Nat} (hapart : AreasApart s lid) {k a : Nat} {w : Wave}
    (hw : waveOf s k = some w) (hlid : w.lid = lid) (hst : w.st = .stopped) (ha : waveArea s k w = some a) :
    ∃ u, AreaHolds u ((wavesOf s lid).foldl saveWave s) a (areaWave w) (w.stopping.getD allLive) := by
  have hin : (k, w) ∈ wavesOf s lid := mem_wavesOf.2 ⟨Tab.mem_of_find _ _ _ hw, hlid⟩
  obtain ⟨l1, l2, hl, hfirst, hlast⟩ := (htab.filter _).split_at hin
  have hwaves : wavesOf s lid = l1 ++ (k, w) :: l2 := hl
  rw [hwaves, List.foldl_append, List.foldl_cons]
  have hmoved := saveWaves_moved l1 s
  have harea : waveArea (l1.foldl saveWave s) k (areaWave w) = some a :=
    (waveArea_areaWave ..).trans ((waveArea_congr hmoved.dies k rfl rfl rfl).trans ha)
  refine ⟨l1.foldl saveWave s, ?_⟩
  have hturn : AreaHolds (l1.foldl saveWave s) (saveWave (l1.foldl saveWave s) (k, w)) a (areaWave w) (w.stopping.getD allLive) := by
    rw [saveWave_stopped (e := (k, w)) hst]
    exact (writeArea_holds harea).same (setWave_bytes ..)
  refine hturn.same (saveWaves_same l2 fun e he a' ha' => ?_)
  have hsame : waveArea s e.1 e.2 = some a' :=
    (waveArea_congr (hmoved.trans (saveWave_moved _ (k, w))).dies e.1 rfl rfl rfl).symm.trans ha'
  obtain ⟨hmem, helid⟩ := mem_wavesOf.1 (hwaves.symm ▸ List.mem_append_right l1 (List.mem_cons_of_mem _ he) : e ∈ wavesOf s lid)
  have hne : k ≠ e.1 := fun h => hlast (List.mem_map.2 ⟨e, he, h.symm⟩)
  exact hapart k e.1 a a' ⟨w, hw, hlid, ha⟩ ⟨e.2, waveOf_of_mem htab hmem, helid, hsame⟩ hne

/-- What a saved wave's area reads as, by the offsets of R276. -/
theorem areaReads_areaWave {t : State} {a : Nat} {w : Wave} (h : AreaReads t a (areaWave w) (w.stopping.getD allLive)) :
    let m := w.stopping.getD allLive
    areaWord t a = (stopPc w).toNat ∧ areaWord t (a + 4) = 6 + (if w.sup then 8 else 0) + 16 * waitCode w ∧
      leNat (devBytes t (a + 8) 8) = m.toNat ∧
      (∀ n x, n < 64 → m.getLsbD (16 + n / 8) = true → Tab.find w.s n = some x → x.und = false →
        leNat (devBytes t (a + 0x100 + 8 * n) 8) = x.val.toNat) ∧
      (∀ n x, 1 ≤ n → n < 16 → m.getLsbD (24 + n) = true → Tab.find w.k n = some x → x.und = 0 →
        areaWord t (a + 0x340 + 4 * n) = x.val.toNat) ∧
      (∀ n x i, n < 64 → i < 32 → m.getLsbD (n / 8) = true → Tab.find w.a n = some x → x.und.getLsbD i = false →
        areaWord t (a + 0x1000 + 128 * n + 4 * i) = (x.val.at i).toNat) ∧
      (∀ n x i, n < 64 → i < 32 → m.getLsbD (8 + n / 8) = true → Tab.find w.b n = some x → x.und.getLsbD i = false →
        areaWord t (a + 0x3000 + 128 * n + 4 * i) = (x.val.at i).toNat) := by
  intro m
  refine ⟨h.pc, h.state, h.mask, fun n x hn hm hx => h.sregs n x hn ?_, fun n x h1 hn hm hx => h.kregs n x h1 hn ?_,
    fun n x i hn hi hm hx => h.aregs n x i hn hi ?_, fun n x i hn hi hm hx => h.bregs n x i hn hi ?_⟩
  · exact (reduceWave_s w m hn).trans ((if_pos hm).trans hx)
  · exact (reduceWave_k w m h1 hn).trans ((if_pos hm).trans hx)
  · exact (reduceWave_a w m hn).trans ((if_pos hm).trans hx)
  · exact (reduceWave_b w m hn).trans ((if_pos hm).trans hx)

end Sys2Proof.Machine

/-! PROOF. What stands in a core's area (R277). -/

namespace Sys2Proof.Machine

/-! ### The parts of a core area -/

theorem length_headerBytes (s : State) (lid core : Nat) : (headerBytes s lid core).length = 1024 := by simp [headerBytes]
theorem length_msBytes (s : State) (core lid : Nat) : (msBytes s core lid).length = 1024 := by
  refine (length_rangeBytes (k := 64) (fun i => length_rangeBytes (k := 8) (fun n => ?_) 8) 16)
  split <;> exact length_leBytes ..
theorem length_dictBytes (l : List DKey) : (dictBytes l).length = 1024 := length_rangeBytes (fun _ => length_leBytes ..) 512
theorem length_tableBytes (s : State) (core lid : Nat) : (tableBytes s core lid).length = 256 := by
  unfold tableBytes
  split
  · exact length_rangeBytes (fun _ => length_leBytes ..) 32
  · exact length_leBytes ..
theorem length_accImage (s : State) (tag : Nat) (t : Tab TileRows) (n : Nat) : (accImage s tag t n).length = 4096 :=
  length_rangeBytes (fun _ => length_rangeBytes (fun _ => length_leBytes ..) 32) 32
theorem length_slotBytes (s : State) (core o a n tag : Nat) : (slotBytes s core o a n tag).length = n := by simp [slotBytes]

/-- The counters, the dictionary list and the tile table, behind the header. -/
def coreFront (s : State) (lid : Nat) (u : SavedCore) : List Byte :=
  msBytes s u.old lid ++ dictBytes u.dict ++ tableBytes s u.old lid ++ leBytes 768 0

theorem length_coreFront (s : State) (lid : Nat) (u : SavedCore) : (coreFront s lid u).length = 0xC00 := by
  simp only [coreFront, List.length_append, length_msBytes, length_dictBytes, length_tableBytes, length_leBytes]

/-- The scratchpad allotment. -/
def corePad (u : SavedCore) : List Byte := (List.range (6144 * u.share.units)).map fun i => Tab.findD u.pad i 0

theorem length_corePad (u : SavedCore) : (corePad u).length = 6144 * u.share.units := by simp [corePad]

/-- The pieces of a slot's image. -/
def coreSlot (s : State) (u : SavedCore) (o : Nat) : List Byte := slotBytes s u.old o 0 4160 (9800000 + 8192 * o)

theorem length_coreSlot (s : State) (u : SavedCore) (o : Nat) : (coreSlot s u o).length = 4160 := length_slotBytes ..

/-- A unit that fits its area. -/
structure UnitFits (u : SavedCore) : Prop where
  accs : ∀ e ∈ u.accs, e.1 < 24
  parts : ∀ e ∈ u.parts, e.1 < 8
  images : ∀ e ∈ u.images, e.1 < 32
  units : u.share.units ≤ 128

/-- The area of a unit's core holds it. -/
structure CoreHolds (s t : State) (lid a : Nat) (u : SavedCore) : Prop where
  front : Holds t (a + 0x400) (coreFront s lid u)
  accs : ∀ n, n < 16 → n ∈ u.accs.map (·.1) → Holds t (a + 0x1000 + 4096 * n) (accImage s 9600000 u.accs n)
  parts : ∀ n, n < 8 → n ∈ u.parts.map (·.1) → Holds t (a + 0x11000 + 4096 * n) (accImage s 9700000 u.parts n)
  images : ∀ n, n < 32 → n ∈ u.images.map (·.1) → Holds t (a + 0x19000 + 4160 * n) (coreSlot s u n)
  pad : Holds t (a + 0x40000) (corePad u)

theorem CoreHolds.same {s t t' : State} {lid a : Nat} {u : SavedCore} (h : CoreHolds s t lid a u) (hfits : UnitFits u)
    (hs : SameBytes t t' a 0x100000) : CoreHolds s t' lid a u where
  front := h.front.same hs (by omega) (by rw [length_coreFront]; omega)
  accs n hn hin := (h.accs n hn hin).same hs (by omega) (by rw [length_accImage]; omega)
  parts n hn hin := (h.parts n hn hin).same hs (by omega) (by rw [length_accImage]; omega)
  images n hn hin := (h.images n hn hin).same hs (by omega) (by rw [length_coreSlot]; omega)
  pad := h.pad.same hs (by omega) (by have := hfits.units; rw [length_corePad]; omega)

/-- The area as it is written, its parts one after another. -/
theorem writeCoreArea_eq {s : State} {lid a : Nat} {u : SavedCore} (h : coreArea s u.old lid = some a) : writeCoreArea s lid u =
    devWrite (writePieces (a + 0x19000) 4160 (coreSlot s u) u.images (writePieces (a + 0x11000) 4096 (accImage s 9700000 u.parts) u.parts
      (writePieces (a + 0x1000) 4096 (accImage s 9600000 u.accs) u.accs
        (devWrite (devWrite s a (headerBytes s lid u.old)) (a + 0x400) (coreFront s lid u))))) (a + 0x40000) (corePad u) := by
  simp only [writeCoreArea, h]
  rfl

theorem writeCoreArea_written (s : State) (lid : Nat) (u : SavedCore) : DevWritten s (writeCoreArea s lid u) := by
  cases h : coreArea s u.old lid with
  | none =>
    rw [writeCoreArea, h]
    exact .refl s
  | some a =>
    rw [writeCoreArea_eq h]
    exact ((((DevWritten.devWrite ..).trans (.devWrite ..)).trans (writePieces_written ..)).trans (writePieces_written ..)).trans
      ((writePieces_written ..).trans (.devWrite ..))

section
variable {s : State} {lid : Nat} {u : SavedCore} (hfits : UnitFits u)
include hfits

/-- A core area is written inside its mebibyte. -/
theorem writeCoreArea_same {b n : Nat} (h : ∀ a, coreArea s u.old lid = some a → b + n ≤ a ∨ a + 0x100000 ≤ b) :
    SameBytes s (writeCoreArea s lid u) b n := by
  cases ha : coreArea s u.old lid with
  | none =>
    rw [writeCoreArea, ha]
    exact .refl ..
  | some a =>
    have hout := h a ha
    have hunits := hfits.units
    rw [writeCoreArea_eq ha]
    refine (((devWrite_same _ ?_).trans (devWrite_same _ ?_)).trans ((writePieces_same (length_accImage s 9600000 u.accs) _ _ fun e he => ?_).trans
      (writePieces_same (length_accImage s 9700000 u.parts) _ _ fun e he => ?_))).trans
      ((writePieces_same (length_coreSlot s u) _ _ fun e he => ?_).trans (devWrite_same _ ?_))
    · rw [length_headerBytes]; omega
    · rw [length_coreFront]; omega
    · have := hfits.accs e he; omega
    · have := hfits.parts e he; omega
    · have := hfits.images e he; omega
    · rw [length_corePad]; omega

end

/-- A core area, once written, holds its unit. -/
theorem writeCoreArea_holds {s : State} {lid : Nat} {u : SavedCore} {a : Nat} (h : coreArea s u.old lid = some a) : CoreHolds s (writeCoreArea s lid u) lid a u := by
  rw [writeCoreArea_eq h]
  have hafterImages : ∀ {t : State} {b n : Nat}, b + n ≤ a + 0x40000 → SameBytes t (devWrite t (a + 0x40000) (corePad u)) b n :=
    fun hle => devWrite_same _ (.inl hle)
  have hafterParts : ∀ {t : State} {b n : Nat}, b + n ≤ a + 0x19000 → SameBytes t
      (devWrite (writePieces (a + 0x19000) 4160 (coreSlot s u) u.images t) (a + 0x40000) (corePad u)) b n :=
    fun hle => (writePieces_same (length_coreSlot s u) _ _ fun e _ => .inl (by omega)).trans (hafterImages (by omega))
  have hafterAccs : ∀ {t : State} {b n : Nat}, b + n ≤ a + 0x11000 → SameBytes t
      (devWrite (writePieces (a + 0x19000) 4160 (coreSlot s u) u.images
        (writePieces (a + 0x11000) 4096 (accImage s 9700000 u.parts) u.parts t)) (a + 0x40000) (corePad u)) b n :=
    fun hle => (writePieces_same (length_accImage s 9700000 u.parts) _ _ fun e _ => .inl (by omega)).trans (hafterParts (by omega))
  have hafterFront : ∀ {t : State} {b n : Nat}, b + n ≤ a + 0x1000 → SameBytes t
      (devWrite (writePieces (a + 0x19000) 4160 (coreSlot s u) u.images
        (writePieces (a + 0x11000) 4096 (accImage s 9700000 u.parts) u.parts
          (writePieces (a + 0x1000) 4096 (accImage s 9600000 u.accs) u.accs t))) (a + 0x40000) (corePad u)) b n :=
    fun hle => (writePieces_same (length_accImage s 9600000 u.accs) _ _ fun e _ => .inl (by omega)).trans (hafterAccs (by omega))
  refine ⟨?_, fun n hn hin => ?_, fun n hn hin => ?_, fun n hn hin => ?_, devWrite_holds ..⟩
  · exact (devWrite_holds ..).same (hafterFront (b := a + 0x400) (n := 0xC00) (by omega)) le_rfl (by rw [length_coreFront])
  · exact (writePieces_holds (length_accImage s 9600000 u.accs) hin).same (hafterAccs (b := a + 0x1000) (n := 0x10000) (by omega)) (by omega)
      (by rw [length_accImage]; omega)
  · exact (writePieces_holds (length_accImage s 9700000 u.parts) hin).same (hafterParts (b := a + 0x11000) (n := 0x8000) (by omega)) (by omega)
      (by rw [length_accImage]; omega)
  · exact (writePieces_holds (length_coreSlot s u) hin).same (hafterImages (b := a + 0x19000) (n := 0x27000) (by omega)) (by omega)
      (by rw [length_coreSlot]; omega)

end Sys2Proof.Machine

/-! PROOF. BODY_SAVE (R275 to R277). -/

namespace Sys2Proof.Machine

/-! ### The core areas of a body -/

theorem coreArea_congr {s t : State} (h : t.dies = s.dies) (c lid : Nat) : coreArea t c lid = coreArea s c lid := by
  simp only [coreArea, dieOf, h]

theorem DevWritten.dies {s t : State} (h : DevWritten s t) : t.dies = s.dies := by
  obtain ⟨_, _, _, _, rfl⟩ := h
  rfl

theorem CoreHolds.of_written {s t t' : State} {lid a : Nat} {u : SavedCore} (hw : DevWritten s t) (h : CoreHolds t t' lid a u) :
    CoreHolds s t' lid a u := by
  obtain ⟨_, _, _, _, rfl⟩ := hw
  exact ⟨h.front, h.accs, h.parts, h.images, h.pad⟩

/-- The areas of a list of units are written. -/
def writeCoreAreas (lid : Nat) (us : List SavedCore) (s : State) : State := us.foldl (fun a u => writeCoreArea a lid u) s

theorem writeCoreAreas_written (lid : Nat) (us : List SavedCore) (s : State) : DevWritten s (writeCoreAreas lid us s) :=
  .foldl (fun _ _ => writeCoreArea_written ..) us s

theorem writeCoreAreas_same {lid b n : Nat} : ∀ {us : List SavedCore} {s : State}, (∀ u ∈ us, UnitFits u) →
    (∀ u ∈ us, ∀ a, coreArea s u.old lid = some a → b + n ≤ a ∨ a + 0x100000 ≤ b) → SameBytes s (writeCoreAreas lid us s) b n
  | [], _, _, _ => .refl ..
  | u :: _, s, hfits, h => (writeCoreArea_same (hfits u (List.mem_cons_self ..)) (h u (List.mem_cons_self ..))).trans
      (writeCoreAreas_same (fun v hv => hfits v (List.mem_cons_of_mem _ hv)) fun v hv a ha => h v (List.mem_cons_of_mem _ hv) a
        ((coreArea_congr (writeCoreArea_written s lid u).dies v.old lid).symm.trans ha))

/-- Units that the areas of a state can hold side by side: each fits, no two differ on one core, and their areas lie apart. -/
structure UnitsApart (s : State) (lid : Nat) (us : List SavedCore) : Prop where
  fits : ∀ u ∈ us, UnitFits u
  unique : ∀ u ∈ us, ∀ v ∈ us, u.old = v.old → u = v
  apart : ∀ u ∈ us, ∀ v ∈ us, u.old ≠ v.old → ∀ a b, coreArea s u.old lid = some a → coreArea s v.old lid = some b →
    a + 0x100000 ≤ b ∨ b + 0x100000 ≤ a

theorem writeCoreArea_keeps {s t : State} {lid a : Nat} {us : List SavedCore} (h : UnitsApart s lid us) (hw : DevWritten s t) {u v : SavedCore}
    (hu : u ∈ us) (hv : v ∈ us) (ha : coreArea s u.old lid = some a) (hold : CoreHolds s t lid a u) :
    CoreHolds s (writeCoreArea t lid v) lid a u := by
  by_cases hsame : u.old = v.old
  · obtain rfl := h.unique u hu v hv hsame
    exact (writeCoreArea_holds ((coreArea_congr hw.dies ..).trans ha)).of_written hw
  · exact hold.same (h.fits u hu) (writeCoreArea_same (h.fits v hv) fun b hb =>
      h.apart u hu v hv hsame a b ha ((coreArea_congr hw.dies ..).symm.trans hb))

theorem writeCoreAreas_keeps {s : State} {lid a : Nat} {us : List SavedCore} (h : UnitsApart s lid us) {u : SavedCore}
    (hu : u ∈ us) (ha : coreArea s u.old lid = some a) : ∀ {l : List SavedCore} {t : State}, (∀ v ∈ l, v ∈ us) → DevWritten s t →
    CoreHolds s t lid a u → CoreHolds s (writeCoreAreas lid l t) lid a u
  | [], _, _, _, hold => hold
  | v :: l, t, hsub, hw, hold => writeCoreAreas_keeps h hu ha (l := l) (fun x hx => hsub x (List.mem_cons_of_mem _ hx))
      (hw.trans (writeCoreArea_written t lid v)) (writeCoreArea_keeps h hw hu (hsub v (List.mem_cons_self ..)) ha hold)

/-- Every unit stands in the area of its core once all have been written. -/
theorem writeCoreAreas_holds {s : State} {lid a : Nat} {us : List SavedCore} (h : UnitsApart s lid us) {u : SavedCore}
    (hu : u ∈ us) (ha : coreArea s u.old lid = some a) : CoreHolds s (writeCoreAreas lid us s) lid a u := by
  obtain ⟨l1, l2, rfl⟩ := List.append_of_mem hu
  rw [writeCoreAreas, List.foldl_append, List.foldl_cons]
  have hw := writeCoreAreas_written lid l1 s
  refine writeCoreAreas_keeps h hu ha (fun v hv => List.mem_append_right _ (List.mem_cons_of_mem _ hv)) (hw.trans (writeCoreArea_written ..)) ?_
  exact (writeCoreArea_holds ((coreArea_congr hw.dies ..).trans ha)).of_written hw

/-! ### A unit as it is saved -/

/-- The state in which the waves of a body have been saved. -/
def savedWaves (s : State) (lid : Nat) : State := fixPushes ((wavesOf s lid).foldl saveWave s) lid

theorem savedWaves_moved (s : State) (lid : Nat) : SaveMoved s (savedWaves s lid) := (saveWaves_moved ..).trans (.fixPushes ..)

theorem savedWaves_waves {s : State} (htab : TabOk s.waves) (lid : Nat) :
    (savedWaves s lid).waves = s.waves.map fun e => (e.1, savedIn lid e.2) := saveWaves_waves htab lid

theorem waveOf_savedWaves {s : State} (htab : TabOk s.waves) (lid k : Nat) :
    waveOf (savedWaves s lid) k = (waveOf s k).map (savedIn lid) := waveOf_saveWaves htab lid k

/-- A wave's live mask keeps a tile of its party on a core. -/
def keepsTile (core lid party n : Nat) (e : Nat × Wave) : Bool :=
  (coreNo e.1 == core && (e.2.lid == lid && e.2.party == party)) && match e.2.stopping with
    | some m => m.getLsbD (if n < 16 then 40 + n / 2 else 32 + n)
    | none => false

theorem keptTiles_eq (s : State) (core lid party : Nat) : keptTiles s core lid party = (List.range 24).filter fun n =>
    ((coreOf s core).pilot.flatMap fun p => pilotUse p.op).contains n || s.waves.any (keepsTile core lid party n) := by
  refine List.filter_congr fun n _ => ?_
  rw [wavesOn, List.filter_filter, List.any_filter]
  refine congrArg _ (congrArg (List.any s.waves) (funext fun e => ?_))
  simp only [keepsTile, Bool.and_comm (coreNo e.1 == core)] <;> rfl

theorem keptTiles_savedWaves {s : State} (htab : TabOk s.waves) (lid core party : Nat) :
    keptTiles (savedWaves s lid) core lid party = keptTiles s core lid party := by
  have hcores : (savedWaves s lid).cores = s.cores := by
    obtain ⟨_, _, _, _, _, _, h⟩ := savedWaves_moved s lid
    rw [h]
  have hany : ∀ n, (savedWaves s lid).waves.any (keepsTile core lid party n) = s.waves.any (keepsTile core lid party n) := by
    intro n
    rw [savedWaves_waves htab, List.any_map]
    refine congrArg (List.any s.waves) (funext fun e => ?_)
    obtain ⟨hlid, hparty, -, hstop⟩ := savedIn_keeps lid e.2
    simp only [keepsTile, Function.comp_apply, hlid, hparty, hstop]
  simp only [keptTiles_eq, coreOf, hcores, hany]

theorem saveUnit_savedWaves {s : State} (htab : TabOk s.waves) (lid core : Nat) :
    { saveUnit (savedWaves s lid) lid core with waves := [] } = { saveUnit s lid core with waves := [] } := by
  have hkept := fun party => keptTiles_savedWaves htab lid core party
  obtain ⟨_, _, _, _, _, _, h⟩ := savedWaves_moved s lid
  rw [h] at hkept ⊢
  simp only [saveUnit, hkept]
  rfl

end Sys2Proof.Machine

/-! PROOF. What BODY_SAVE leaves (R275 to R277). -/

namespace Sys2Proof.Machine

/-! ### The saved body and its launch -/

/-- The units of a body as they are saved. -/
def savedUnits (s : State) (lid : Nat) : List SavedCore := (coresOf s lid).map fun c => saveUnit (savedWaves s lid) lid c

/-- What the Innkeeper keeps of a body. -/
def savedBody (s : State) (lid : Nat) (l : Launch) (ckpt : Bool) : Body :=
  { lid := lid, die := l.die, cores := savedUnits s lid, convoys := (savedWaves s lid).convoys.filter fun e => e.2.lid == lid,
    accs := (savedWaves s lid).acc.filter (travels (savedWaves s lid) lid),
    copies := (savedWaves s lid).copies.filter fun e => e.2.lid == lid, byCkpt := ckpt }

/-- The state in which a body's areas have been written. -/
def savedAreas (s : State) (lid : Nat) : State := writeCoreAreas lid (savedUnits s lid) (savedWaves s lid)

/-- The state in which a saved body stands nowhere but in its cores' shares. -/
def bodyGone (s : State) (lid : Nat) (l : Launch) (ckpt : Bool) : State :=
  { savedAreas s lid with
    waves := (savedAreas s lid).waves.filter fun e => e.2.lid != lid
    convoys := (savedAreas s lid).convoys.filter fun e => e.2.lid != lid
    acc := ((savedAreas s lid).acc.filter fun e => !travels (savedWaves s lid) lid e).map fun e =>
      (e.1, if e.2.lid = lid then { e.2 with wid := nobody } else e.2)
    copies := (savedAreas s lid).copies.filter fun e => e.2.lid != lid
    bodies := Tab.put (savedAreas s lid).bodies lid (savedBody s lid l ckpt) }

/-- The launch of a saved body. -/
def Launch.leftSaved (l : Launch) : Launch := { l with saved := true, stopping := false, cvmap := [] }

theorem saveBody_eq (s : State) (lid : Nat) (l : Launch) (ckpt : Bool) : saveBody s lid l ckpt =
    modLaunch ((coresOf s lid).foldl (vacate lid) (bodyGone s lid l ckpt)) lid Launch.leftSaved := rfl

theorem vacate_moved (lid : Nat) (s : State) (core : Nat) : MachineryMoved s (vacate lid s core) :=
  (MachineryMoved.modCore ..).trans (.retarget ..)

theorem savedAreas_written (s : State) (lid : Nat) : DevWritten (savedWaves s lid) (savedAreas s lid) := writeCoreAreas_written ..

/-- A saved body's state: that in which it has gone, but for machinery and its launch. -/
theorem saveBody_moved {s : State} {lid : Nat} {l : Launch} (hl : launchOf s lid = some l) (ckpt : Bool) :
    ∃ cores clusters dies, saveBody s lid l ckpt = { bodyGone s lid l ckpt with
      cores := cores, clusters := clusters, dies := dies, launches := Tab.put s.launches lid l.leftSaved } := by
  obtain ⟨cores, clusters, dies, hv⟩ := MachineryMoved.foldl (f := vacate lid) (vacate_moved lid) (coresOf s lid) (bodyGone s lid l ckpt)
  have hlaunches : (bodyGone s lid l ckpt).launches = s.launches := by
    obtain ⟨_, _, _, _, hw⟩ := savedAreas_written s lid
    obtain ⟨_, _, _, _, _, _, hm⟩ := savedWaves_moved s lid
    rw [bodyGone, hw, hm]
  refine ⟨cores, clusters, dies, ?_⟩
  have hlaunch : launchOf ((coresOf s lid).foldl (vacate lid) (bodyGone s lid l ckpt)) lid = some l := by
    rw [hv, launchOf, show State.launches _ = (bodyGone s lid l ckpt).launches from rfl, hlaunches]
    exact hl
  rw [saveBody_eq, modLaunch_of_launch _ hlaunch, hv, setLaunch, hlaunches]

theorem saveBody_waves {s : State} {lid : Nat} {l : Launch} (hl : launchOf s lid = some l) (ckpt : Bool) :
    (saveBody s lid l ckpt).waves = (savedWaves s lid).waves.filter fun e => e.2.lid != lid := by
  obtain ⟨_, _, _, h⟩ := saveBody_moved hl ckpt
  rw [h]
  exact congrArg (List.filter _) (savedAreas_written s lid).waves

theorem saveBody_bytes {s : State} {lid : Nat} {l : Launch} (hl : launchOf s lid = some l) (ckpt : Bool) (a n : Nat) :
    SameBytes (savedAreas s lid) (bump (saveBody s lid l ckpt)) a n := by
  obtain ⟨_, _, _, h⟩ := saveBody_moved hl ckpt
  exact .of_mem (by rw [h]; rfl) (by rw [h]; rfl) a n

/-! ### The cores that it leaves -/

/-- A core's target changes nothing else of any core. -/
theorem coreOf_retarget (s : State) (c n : Nat) : ∃ tr, coreOf (retarget s c) n = { coreOf s n with trans := tr } := by
  unfold retarget
  extract_lets x t
  split
  · exact ⟨_, rfl⟩
  · split
    · exact ⟨_, rfl⟩
    · rw [coreOf_setCore]
      split
      · next hn =>
        subst hn
        exact ⟨_, rfl⟩
      · exact ⟨_, rfl⟩

theorem shares_vacate (lid : Nat) (s : State) (c n : Nat) : Tab.find (coreOf (vacate lid s c) n).shares lid =
    if n = c then none else Tab.find (coreOf s n).shares lid := by
  obtain ⟨tr, h⟩ := coreOf_retarget (modCore s c (leaveCore lid)) c n
  rw [vacate, h, coreOf_modCore]
  split
  · exact (Tab.find_del ..).trans (if_pos rfl)
  · rfl

theorem shares_vacates {lid c : Nat} : ∀ {l : List Nat} {s : State}, c ∈ l ∨ Tab.find (coreOf s c).shares lid = none →
    Tab.find (coreOf (l.foldl (vacate lid) s) c).shares lid = none
  | [], _, h => h.resolve_left List.not_mem_nil
  | x :: l, s, h => by
    refine shares_vacates (l := l) ?_
    rw [shares_vacate, List.mem_cons] at *
    by_cases hx : c = x
    · exact .inr (if_pos hx)
    · exact (h.imp_left fun h => h.resolve_left hx).imp_right (if_neg hx).trans

/-! ### The areas that it fills -/

theorem Tab.find_map_range {α : Type} (f : Nat → α) {n k : Nat} (h : n < k) : Tab.find ((List.range k).map fun i => (i, f i)) n = some (f n) := by
  have hfrom : ∀ (l : List Nat), n ∈ l → Tab.find (l.map fun i => (i, f i)) n = some (f n) := by
    intro l
    induction l with
    | nil => exact fun h => absurd h List.not_mem_nil
    | cons i l ih =>
      intro h
      by_cases hi : i = n
      · simp [Tab.find, hi]
      · rw [List.map_cons, Tab.find, if_neg hi]
        exact ih ((List.mem_cons.1 h).resolve_left (Ne.symm hi))
  exact hfrom _ (List.mem_range.2 h)

theorem CoreHolds.of_moved {s t t' : State} {lid a : Nat} {u : SavedCore} (hm : SaveMoved s t) (h : CoreHolds t t' lid a u) :
    CoreHolds s t' lid a u := by
  obtain ⟨_, _, _, _, _, _, rfl⟩ := hm
  exact ⟨h.front, h.accs, h.parts, h.images, h.pad⟩

/-- The waves of a unit stand in areas of their own. -/
theorem CoreHolds.of_waves {s t : State} {lid a : Nat} {u v : SavedCore} (huv : { u with waves := [] } = { v with waves := [] })
    (h : CoreHolds s t lid a u) : CoreHolds s t lid a v := by
  have hu : CoreHolds s t lid a { u with waves := [] } := ⟨h.front, h.accs, h.parts, h.images, h.pad⟩
  rw [huv] at hu
  exact ⟨hu.front, hu.accs, hu.parts, hu.images, hu.pad⟩

theorem UnitFits.of_waves {u v : SavedCore} (huv : { u with waves := [] } = { v with waves := [] }) (h : UnitFits u) : UnitFits v := by
  have hu : UnitFits { u with waves := [] } := ⟨h.accs, h.parts, h.images, h.units⟩
  rw [huv] at hu
  exact ⟨hu.accs, hu.parts, hu.images, hu.units⟩

theorem mem_keptTiles_lt {s : State} {core lid party n : Nat} (h : n ∈ keptTiles s core lid party) : n < 24 := by
  rw [keptTiles_eq] at h
  exact List.mem_range.1 (List.mem_of_mem_filter h)

theorem saveUnit_fits {s : State} {lid c : Nat} (hunits : (shareOf s c lid).units ≤ 128) (himages : ∀ e ∈ (coreOf s c).images, e.1 < 32) :
    UnitFits (saveUnit s lid c) := by
  refine ⟨fun e he => ?_, fun e he => ?_, fun e he => ?_, hunits⟩
  · simp only [saveUnit] at he
    split at he
    · exact mem_keptTiles_lt (by simpa using (List.mem_filter.1 he).2)
    · exact absurd he List.not_mem_nil
  · simp only [saveUnit] at he
    split at he
    · have := mem_keptTiles_lt (n := 16 + e.1) (by simpa using (List.mem_filter.1 he).2)
      omega
    · exact absurd he List.not_mem_nil
  · simp only [saveUnit] at he
    split at he
    · exact himages e (List.mem_of_mem_filter he)
    · exact absurd he List.not_mem_nil

/-- The tile contents that a launch's own party leaves in its unit. -/
theorem saveUnit_tile {s : State} {lid c p : Nat} (h : (coreOf s c).tile = some (lid, p)) :
    (saveUnit s lid c).accs = (coreOf s c).accs.filter (fun e => (keptTiles s c lid p).contains e.1) ∧
    (saveUnit s lid c).parts = (coreOf s c).parts.filter (fun e => (keptTiles s c lid p).contains (16 + e.1)) ∧
    (saveUnit s lid c).images = (coreOf s c).images.filter (fun e => (entryOf s c e.1).claimed) := by
  simp [saveUnit, h]

/-- An element of an image of an accumulator or a partial. -/
theorem accImage_word {s t : State} {base tag n i j : Nat} {tab : Tab TileRows} {rows : TileRows} {v : VReg}
    (h : Holds t base (accImage s tag tab n)) (hrows : Tab.find tab n = some rows) (hi : i < 32) (hj : j < 32)
    (hv : Tab.find rows i = some v) (hdef : v.und.getLsbD j = false) : areaWord t (base + 128 * i + 4 * j) = (v.val.at j).toNat := by
  have hrow := h.rangeBytes (fun _ => length_rangeBytes (fun _ => length_leBytes 4 _) 32) hi
  have hword := hrow.rangeBytes (fun _ => length_leBytes 4 _) hj
  simp only [Tab.findD, hrows, Option.getD_some, hv, hdef, Bool.false_eq_true, if_false] at hword
  exact hword.word

/-- What a core's area reads as, by the offsets of R277. -/
theorem CoreHolds.reads {s t : State} {lid c a : Nat} (himages : ∀ e ∈ (coreOf s c).images, e.1 < 32)
    (h : CoreHolds s t lid a (saveUnit s lid c)) :
    let x := coreOf s c
    devBytes t (a + 0x400) 1024 = msBytes s c lid ∧ devBytes t (a + 0x800) 1024 = dictBytes (dictList x lid) ∧
    devBytes t (a + 0xC00) 256 = tableBytes s c lid ∧
    (∀ p n i j rows v, x.tile = some (lid, p) → i < 32 → j < 32 → Tab.find rows i = some v → v.und.getLsbD j = false →
      (n < 16 → n ∈ keptTiles s c lid p → Tab.find x.accs n = some rows → areaWord t (a + 0x1000 + 4096 * n + 128 * i + 4 * j) = (v.val.at j).toNat) ∧
      (n < 8 → 16 + n ∈ keptTiles s c lid p → Tab.find x.parts n = some rows →
        areaWord t (a + 0x11000 + 4096 * n + 128 * i + 4 * j) = (v.val.at j).toNat)) ∧
    (∀ p o img i v, x.tile = some (lid, p) → (entryOf s c o).claimed = true → Tab.find x.images o = some img → i < 4160 → Tab.find img i = some v →
      devByte t (a + 0x19000 + 4160 * o + i) = v) ∧
    ∀ i, i < 6144 * (shareOf s c lid).units → devByte t (a + 0x40000 + i) = getByte x.pad (6144 * (shareOf s c lid).unit + i) := by
  intro x
  have hms := h.front.left.left.left
  have hdict := h.front.left.left.right
  have htable := h.front.left.right
  rw [length_msBytes, Nat.add_assoc] at hdict
  rw [List.length_append, length_msBytes, length_dictBytes, Nat.add_assoc] at htable
  refine ⟨hms.bytes (length_msBytes ..), hdict.bytes (length_dictBytes _), htable.bytes (length_tableBytes ..), ?_, ?_, ?_⟩
  · intro p n i j rows v htile hi hj hv hdef
    obtain ⟨haccs, hparts, -⟩ := saveUnit_tile htile
    refine ⟨fun hn hkept hrows => ?_, fun hn hkept hrows => ?_⟩
    · have hfind : Tab.find (saveUnit s lid c).accs n = some rows := by
        rw [haccs]
        exact Tab.find_filter_keep _ _ _ _ hrows (by simpa using hkept)
      exact accImage_word (h.accs n hn (List.mem_map_of_mem (Tab.mem_of_find _ _ _ hfind))) hfind hi hj hv hdef
    · have hfind : Tab.find (saveUnit s lid c).parts n = some rows := by
        rw [hparts]
        exact Tab.find_filter_keep _ _ _ _ hrows (by simpa using hkept)
      exact accImage_word (h.parts n hn (List.mem_map_of_mem (Tab.mem_of_find _ _ _ hfind))) hfind hi hj hv hdef
  · intro p o img i v htile hclaimed himg hi hv
    obtain ⟨-, -, hslots⟩ := saveUnit_tile htile
    have hfind : Tab.find (saveUnit s lid c).images o = some img := by
      rw [hslots]
      exact Tab.find_filter_keep _ _ _ _ himg hclaimed
    have hslot := h.images o (himages _ (Tab.mem_of_find _ _ _ himg)) (List.mem_map_of_mem (Tab.mem_of_find _ _ _ hfind))
    refine (hslot.byte i (by rwa [length_coreSlot])).trans ?_
    have hcell : Tab.find (Tab.findD (coreOf s c).images o []) (0 + i) = some v := by rw [Nat.zero_add, Tab.findD, himg]; exact hv
    simp only [coreSlot, slotBytes, List.getElem_map, List.getElem_range]
    rw [show (saveUnit s lid c).old = c from rfl, hcell]
  · intro i hi
    have hi' : i < 6144 * (saveUnit s lid c).share.units := hi
    refine (h.pad.byte i (by rwa [length_corePad])).trans ?_
    have hcell : Tab.find (saveUnit s lid c).pad i = some (getByte x.pad (6144 * (shareOf s c lid).unit + i)) := Tab.find_map_range _ hi
    simp only [corePad, List.getElem_map, List.getElem_range, Tab.findD, hcell, Option.getD_some]

/-! ### BODY_SAVE -/

section
variable {s : State} {lid : Nat} (htab : TabOk s.waves)
include htab

theorem mem_savedUnits {u : SavedCore} (hu : u ∈ savedUnits s lid) :
    ∃ c ∈ coresOf s lid, u = saveUnit (savedWaves s lid) lid c ∧ { u with waves := [] } = { saveUnit s lid c with waves := [] } := by
  obtain ⟨c, hc, rfl⟩ := List.mem_map.1 hu
  exact ⟨c, hc, rfl, saveUnit_savedWaves htab lid c⟩

/-- The waves of a saved unit. -/
theorem savedUnit_waves {u : SavedCore} (hu : u ∈ savedUnits s lid) {k : Nat} {w : Wave} (hw : waveOf s k = some w) (hlid : w.lid = lid)
    (hcore : k / 16 = u.old) : Tab.find u.waves k = some (savedAs w) := by
  obtain ⟨c, -, rfl, -⟩ := mem_savedUnits htab hu
  have hsaved : waveOf (savedWaves s lid) k = some (savedAs w) := by
    rw [waveOf_savedWaves htab, hw]
    exact congrArg some (if_pos hlid)
  have hkeeps : (savedAs w).lid = lid := by
    have := (savedIn_keeps lid w).1
    rwa [savedIn, if_pos hlid, hlid] at this
  refine Tab.find_filter_keep _ _ _ _ (Tab.find_filter_keep _ _ _ _ hsaved ?_) ?_
  · exact beq_iff_eq.2 hcore
  · exact beq_iff_eq.2 hkeeps

/-- Where no two areas of a body overlap, each holds what is saved in it. -/
theorem saveBody_areas {l : Launch} (hl : launchOf s lid = some l) (ckpt : Bool)
    (hwaves : AreasApart s lid)
    (hcores : ∀ c c' a a', (c ∈ coresOf s lid ∧ coreArea s c lid = some a) → (c' ∈ coresOf s lid ∧ coreArea s c' lid = some a') → c ≠ c' →
      a + 0x100000 ≤ a' ∨ a' + 0x100000 ≤ a)
    (hacross : ∀ k c a a', (∃ w, waveOf s k = some w ∧ w.lid = lid ∧ waveArea s k w = some a) →
      (c ∈ coresOf s lid ∧ coreArea s c lid = some a') → a + 0x8000 ≤ a' ∨ a' + 0x100000 ≤ a)
    (hfit : ∀ c ∈ coresOf s lid, (shareOf s c lid).units ≤ 128 ∧ ∀ e ∈ (coreOf s c).images, e.1 < 32) :
    (∀ k w a, waveOf s k = some w → w.lid = lid → w.st = .stopped → waveArea s k w = some a →
      AreaReads (bump (saveBody s lid l ckpt)) a (areaWave w) (w.stopping.getD allLive)) ∧
    ∀ c a, c ∈ coresOf s lid → coreArea s c lid = some a → CoreHolds s (bump (saveBody s lid l ckpt)) lid a (saveUnit s lid c) := by
  have hmoved := savedWaves_moved s lid
  have hfits : ∀ u ∈ savedUnits s lid, UnitFits u := by
    intro u hu
    obtain ⟨c, hc, -, heq⟩ := mem_savedUnits htab hu
    obtain ⟨hunits, himages⟩ := hfit c hc
    exact (saveUnit_fits hunits himages).of_waves heq.symm
  have hapart : UnitsApart (savedWaves s lid) lid (savedUnits s lid) := by
    refine ⟨hfits, fun u hu v hv hold => ?_, fun u hu v hv hold a b ha hb => ?_⟩
    · obtain ⟨c, -, rfl, -⟩ := mem_savedUnits htab hu
      obtain ⟨c', -, rfl, -⟩ := mem_savedUnits htab hv
      exact congrArg _ hold
    · obtain ⟨c, hc, rfl, -⟩ := mem_savedUnits htab hu
      obtain ⟨c', hc', rfl, -⟩ := mem_savedUnits htab hv
      rw [coreArea_congr hmoved.dies] at ha hb
      exact hcores c c' a b ⟨hc, ha⟩ ⟨hc', hb⟩ hold
  refine ⟨fun k w a hw hlid hst ha => ?_, fun c a hc ha => ?_⟩
  · obtain ⟨u, hu⟩ := saveWaves_areas htab hwaves hw hlid hst ha
    have hpushes : SameBytes ((wavesOf s lid).foldl saveWave s) (savedWaves s lid) a 0x8000 := .of_mem (by rfl) (by rfl) a 0x8000
    refine (((hu.same hpushes).same (writeCoreAreas_same hfits fun v hv b hb => ?_)).same (saveBody_bytes hl ckpt a 0x8000)).reads
    obtain ⟨c, hc, rfl, -⟩ := mem_savedUnits htab hv
    exact hacross k c a b ⟨w, hw, hlid, ha⟩ ⟨hc, (coreArea_congr hmoved.dies c lid).symm.trans hb⟩
  · have hu : saveUnit (savedWaves s lid) lid c ∈ savedUnits s lid := List.mem_map_of_mem hc
    have hold := writeCoreAreas_holds hapart hu ((coreArea_congr hmoved.dies c lid).trans ha)
    exact ((hold.same (hfits _ hu) (saveBody_bytes hl ckpt a 0x100000)).of_moved hmoved).of_waves (saveUnit_savedWaves htab lid c)

end

theorem execBodySave_due {s : State} {lid : Nat} {l : Launch} (hl : launchOf s lid = some l) (hstop : l.stopping = true)
    (hres : resident s lid = true) (hstopped : bodyStopped s lid = true) (hdrained : bodyDrained s lid = true) (hcan : canStop s lid = true) :
    exec (.bodySave lid) s = .next (bump (saveBody s lid l s.sec.ckpt.isSome)) := by
  change execBodySave lid s = _
  simp only [execBodySave, hl, hstop, hres, hstopped, hdrained, hcan, Bool.and_self, if_true]
  rfl

theorem execBodySave_not_due {s : State} {lid : Nat} {l : Launch} (hl : launchOf s lid = some l)
    (h : l.stopping = false ∨ bodyStopped s lid = false ∨ bodyDrained s lid = false) : exec (.bodySave lid) s = .refused .notEnabled := by
  change execBodySave lid s = _
  simp only [execBodySave, hl]
  refine if_neg ?_
  rcases h with h | h | h <;> simp [h]

/-- A saved body: its launch, its units and what it leaves of the part. -/
theorem saveBody_leaves {s : State} (htab : TabOk s.waves) {lid : Nat} {l : Launch} (hl : launchOf s lid = some l) (ckpt : Bool) :
    let t := saveBody s lid l ckpt
    let b := savedBody s lid l ckpt
    Tab.find t.bodies lid = some b ∧ b.cores.map (·.old) = coresOf s lid ∧ b.convoys = s.convoys.filter (fun e => e.2.lid == lid) ∧
    launchOf t lid = some l.leftSaved ∧
    (∀ k w, waveOf t k = some w → w.lid ≠ lid) ∧ (∀ k w, waveOf s k = some w → w.lid ≠ lid → waveOf t k = some w) ∧
    (∀ e ∈ t.convoys, e.2.lid ≠ lid) ∧ ∀ c ∈ coresOf s lid, Tab.find (coreOf t c).shares lid = none := by
  intro t b
  have hwaves := saveBody_waves hl ckpt
  have hcores : t.cores = ((coresOf s lid).foldl (vacate lid) (bodyGone s lid l ckpt)).cores := by
    change (saveBody s lid l ckpt).cores = _
    rw [saveBody_eq, modLaunch]
    split <;> rfl
  obtain ⟨_, _, _, ht⟩ := saveBody_moved hl ckpt
  have hconvoys : (savedWaves s lid).convoys = s.convoys := by
    obtain ⟨_, _, _, _, _, _, h⟩ := savedWaves_moved s lid
    rw [h]
  refine ⟨?_, ?_, ?_, ?_, fun k w hw => ?_, fun k w hw hlid => ?_, fun e he => ?_, fun c hc => ?_⟩
  · change Tab.find (saveBody s lid l ckpt).bodies lid = _
    rw [ht]
    exact Tab.find_put_same ..
  · rw [show b.cores = savedUnits s lid from rfl, savedUnits, List.map_map]
    exact List.map_id _
  · exact congrArg (List.filter _) hconvoys
  · change launchOf (saveBody s lid l ckpt) lid = _
    rw [ht]
    exact Tab.find_put_same ..
  · have hin : (k, w) ∈ (saveBody s lid l ckpt).waves := Tab.mem_of_find _ _ _ hw
    rw [hwaves] at hin
    simpa using (List.mem_filter.1 hin).2
  · change Tab.find (saveBody s lid l ckpt).waves k = _
    rw [hwaves]
    refine Tab.find_filter_keep _ _ _ _ ?_ (by simpa using hlid)
    refine (waveOf_savedWaves htab lid k).trans ?_
    rw [hw]
    exact congrArg some (if_neg hlid)
  · have hin : e ∈ (saveBody s lid l ckpt).convoys := he
    rw [ht] at hin
    simpa using (List.mem_filter.1 hin).2
  · rw [coreOf, hcores]
    exact shares_vacates (.inl hc)

end Sys2Proof.Machine

/-! PROOF. A wave is read back from its area (R278), which moves with it to another die (R279). -/

namespace Sys2Proof.Machine

/-! ### A wave as it is loaded -/

/-- The state in which a wave's area stands on the die of its new slot. -/
def areaState (s : State) (old wid : Nat) (w : Wave) : State :=
  if dieNo old = dieNo wid then s else moveArea (giveArea s (dieNo wid) w.lid w.party w.num) old wid w

/-- The wave as it is read back. -/
def reloaded (s : State) (old wid : Nat) (w : Wave) : Wave :=
  let s1 := areaState s old wid w
  { reload s1 wid w with
    recs := (reload s1 wid w).recs.map fun r => (r.1, movedRec (waveArea s1 old w) (waveArea s1 wid w) r.2) }

theorem loadWaves_cons (core old slot : Nat) (w : Wave) (t : List (Nat × Wave)) (ts : List Nat) (s : State) :
    loadWaves core ((old, w) :: t) (slot :: ts) s =
      ((loadWaves core t ts (setWave (areaState s old (16 * core + slot) w) (16 * core + slot) (resumed s (reloaded s old (16 * core + slot) w)))).1,
        (old, 16 * core + slot) ::
          (loadWaves core t ts (setWave (areaState s old (16 * core + slot) w) (16 * core + slot) (resumed s (reloaded s old (16 * core + slot) w)))).2) :=
  rfl

/-- What a wave keeps of itself as it is read back. -/
structure KeptOf (w v : Wave) : Prop where
  lid : v.lid = w.lid
  party : v.party = w.party
  num : v.num = w.num
  st : v.st = w.st
  back : v.back = w.back
  wait : v.wait = w.wait
  stopped : ∀ live, w.stopping = some live → v.stopping = none ∧ v.sup = false ∧ v.pc = w.pc

theorem readArea_keeps (s : State) (wid : Nat) (w : Wave) : (readArea s wid w).lid = w.lid ∧ (readArea s wid w).party = w.party ∧
    (readArea s wid w).num = w.num ∧ (readArea s wid w).st = w.st ∧ (readArea s wid w).back = w.back ∧ (readArea s wid w).wait = w.wait := by
  unfold readArea
  split <;> exact ⟨rfl, rfl, rfl, rfl, rfl, rfl⟩

theorem reload_keeps (s : State) (wid : Nat) (w : Wave) : KeptOf w (reload s wid w) := by
  unfold reload
  split
  · next m hm =>
    obtain ⟨hlid, hparty, hnum, hst, hback, hwait⟩ := readArea_keeps s wid w
    exact ⟨hlid, hparty, hnum, hst, hback, hwait, fun _ _ => ⟨rfl, rfl, rfl⟩⟩
  · next hnone => exact ⟨rfl, rfl, rfl, rfl, rfl, rfl, fun live h => absurd (hnone.symm.trans h) (by simp)⟩

theorem reloaded_keeps (s : State) (old wid : Nat) (w : Wave) : KeptOf w (reloaded s old wid w) := by
  have h := reload_keeps (areaState s old wid w) wid w
  exact ⟨h.lid, h.party, h.num, h.st, h.back, h.wait, h.stopped⟩

/-! ### Its registers -/

/-- A wave has the registers of an area, given by its bytes, under a live mask, and the others undefined. -/
structure RegsRead (bytes : Nat → Nat → List Byte) (live : DWord) (v : Wave) : Prop where
  word : v.live = BitVec.ofNat 32 (leNat (bytes 0x340 4))
  sregs : ∀ n, n < 64 → Tab.find v.s n = some (if live.getLsbD (16 + n / 8) = true then
    { val := BitVec.ofNat 64 (leNat (bytes (0x100 + 8 * n) 8)), und := false } else SReg.undef)
  kregs : ∀ n, 1 ≤ n → n < 16 → Tab.find v.k n = some (if live.getLsbD (24 + n) = true then
    { val := BitVec.ofNat 32 (leNat (bytes (0x340 + 4 * n) 4)), und := 0 } else { val := 0, und := BitVec.allOnes 32 })
  aregs : ∀ n, n < 64 → Tab.find v.a n = if live.getLsbD (n / 8) = true then
    some { val := Lanes.of fun i => BitVec.ofNat 32 (leNat (bytes (0x1000 + 128 * n + 4 * i.val) 4)), und := 0 } else none
  bregs : ∀ n, n < 64 → Tab.find v.b n = if live.getLsbD (8 + n / 8) = true then
    some { val := Lanes.of fun i => BitVec.ofNat 32 (leNat (bytes (0x3000 + 128 * n + 4 * i.val) 4)), und := 0 } else none

/-- Only the bytes of the area count. -/
theorem RegsRead.congr {f g : Nat → Nat → List Byte} {live : DWord} {v : Wave} (h : RegsRead f live v)
    (hfg : ∀ o n, o + n ≤ 0x8000 → f o n = g o n) : RegsRead g live v := by
  refine ⟨?_, fun n hn => ?_, fun n h1 hn => ?_, fun n hn => ?_, fun n hn => ?_⟩
  · rw [h.word, hfg _ _ (by omega)]
  · rw [h.sregs n hn, hfg _ _ (by omega)]
  · rw [h.kregs n h1 hn, hfg _ _ (by omega)]
  · rw [h.aregs n hn]
    exact ite_congr rfl (fun _ => congrArg some (by congr 2; exact funext fun i => by rw [hfg _ _ (by omega)])) fun _ => rfl
  · rw [h.bregs n hn]
    exact ite_congr rfl (fun _ => congrArg some (by congr 2; exact funext fun i => by rw [hfg _ _ (by omega)])) fun _ => rfl

theorem readArea_eq {s : State} {wid : Nat} {w : Wave} {b : Nat} (h : waveArea s wid w = some b) :
    (readArea s wid w).live = BitVec.ofNat 32 (areaNat s (b + 0x340) 4) ∧ (readArea s wid w).s = loadS s (b + 0x100) 64 ∧
    (readArea s wid w).k = loadK s (b + 0x340) ∧ (readArea s wid w).a = loadV s (b + 0x1000) ∧ (readArea s wid w).b = loadV s (b + 0x3000) := by
  simp only [readArea, h, and_self]

theorem reload_regs {s : State} {wid : Nat} {w : Wave} {live : DWord} {b : Nat} (hlive : w.stopping = some live) (h : waveArea s wid w = some b) :
    RegsRead (fun o n => devBytes s (b + o) n) live (reload s wid w) := by
  obtain ⟨hmask, hs, hk, ha, hb⟩ := readArea_eq h
  simp only [reload, hlive]
  refine ⟨hmask, fun n hn => ?_, fun n h1 hn => ?_, fun n hn => ?_, fun n hn => ?_⟩
  · refine (reduceWave_s _ live hn).trans ?_
    rw [hs, loadS, Tab.find_map_range _ hn, areaNat, Nat.add_assoc]
    split <;> rfl
  · refine (reduceWave_k _ live h1 hn).trans ?_
    rw [hk, loadK, Tab.find_map_range _ hn, areaNat, Nat.add_assoc]
    split <;> rfl
  · refine (reduceWave_a _ live hn).trans ?_
    rw [ha, loadV, Tab.find_map_range _ hn]
    simp only [areaNat, Nat.add_assoc]
  · refine (reduceWave_b _ live hn).trans ?_
    rw [hb, loadV, Tab.find_map_range _ hn]
    simp only [areaNat, Nat.add_assoc]

theorem reloaded_regs {s : State} {old wid : Nat} {w : Wave} {live : DWord} {b : Nat} (hlive : w.stopping = some live)
    (h : waveArea (areaState s old wid w) wid w = some b) :
    RegsRead (fun o n => devBytes (areaState s old wid w) (b + o) n) live (reloaded s old wid w) := by
  have hregs := reload_regs hlive h
  exact ⟨hregs.word, hregs.sregs, hregs.kregs, hregs.aregs, hregs.bregs⟩

/-! ### Areas that are given -/

/-- No area of a die is free. -/
def NoArea (d : Die) : Prop := (List.range (min (areaRoom d) (d.areas.length + 1))).find? (fun n => !(d.areas.any fun a => a.2.2.2 == n)) = none

theorem noArea_congr {d e : Die} (ha : e.areas = d.areas) (hc : e.coreAreas = d.coreAreas) (h : NoArea d) : NoArea e := by
  unfold NoArea areaRoom at *
  rwa [ha, hc]

/-- The areas of a die, of which the launch has been given some since. -/
structure Grown (die lid : Nat) (s t : State) : Prop where
  other : ∀ d, d ≠ die → (dieOf t d).areas = (dieOf s d).areas
  coreAreas : (dieOf t die).coreAreas = (dieOf s die).coreAreas
  grown : ∃ more : List (Nat × Nat × Nat × Nat), (dieOf t die).areas = (dieOf s die).areas ++ more ∧
    ∀ e ∈ more, e.1 = lid ∧ e.2.2.2 < 32768 ∧ ∀ x ∈ (dieOf s die).areas, x.2.2.2 ≠ e.2.2.2
  full : NoArea (dieOf s die) → (dieOf t die).areas = (dieOf s die).areas

theorem Grown.of_areas {die lid : Nat} {s t : State} (ha : ∀ d, (dieOf t d).areas = (dieOf s d).areas)
    (hc : (dieOf t die).coreAreas = (dieOf s die).coreAreas) : Grown die lid s t :=
  ⟨fun d _ => ha d, hc, ⟨[], by rw [ha, List.append_nil], fun _ h => absurd h List.not_mem_nil⟩, fun _ => ha die⟩

theorem Grown.refl (die lid : Nat) (s : State) : Grown die lid s s := .of_areas (fun _ => rfl) rfl

theorem Grown.trans {die lid : Nat} {s t u : State} (h : Grown die lid s t) (h' : Grown die lid t u) : Grown die lid s u := by
  obtain ⟨more, hm, hmore⟩ := h.grown
  obtain ⟨more', hm', hmore'⟩ := h'.grown
  refine ⟨fun d hd => (h'.other d hd).trans (h.other d hd), h'.coreAreas.trans h.coreAreas, ⟨more ++ more', by rw [hm', hm, List.append_assoc], ?_⟩, ?_⟩
  · intro e he
    obtain he | he := List.mem_append.1 he
    · exact hmore e he
    · obtain ⟨hlid, hlt, hfresh⟩ := hmore' e he
      exact ⟨hlid, hlt, fun x hx => hfresh x (hm ▸ List.mem_append_left more hx)⟩
  · intro hfull
    exact (h'.full (noArea_congr (h.full hfull) h.coreAreas hfull)).trans (h.full hfull)

/-- A wave that asks for an area is given a fresh one, or there is none. -/
theorem giveArea_cases (s : State) (die lid party num : Nat) :
    (∃ n, n < 32768 ∧ (∀ x ∈ (dieOf s die).areas, x.2.2.2 ≠ n) ∧ ¬ NoArea (dieOf s die) ∧
      giveArea s die lid party num = setDie s die { dieOf s die with areas := (dieOf s die).areas ++ [(lid, party, num, n)] }) ∨
    (NoArea (dieOf s die) ∧ giveArea s die lid party num = s) := by
  unfold giveArea
  extract_lets d
  split
  · next n hn =>
    refine .inl ⟨n, ?_, fun x hx => ?_, ?_, rfl⟩
    · have hroom : n < areaRoom d := by
        have := List.mem_range.1 (List.mem_of_find?_eq_some hn)
        omega
      refine Nat.lt_of_lt_of_le hroom ?_
      unfold areaRoom Config.ctxSize
      omega
    · have hfree := List.find?_some hn
      simp only [Bool.not_eq_true', List.any_eq_false, beq_iff_eq] at hfree
      exact hfree x hx
    · unfold NoArea
      rw [hn]
      simp
  · next hn => exact .inr ⟨hn, rfl⟩

theorem giveArea_grown (s : State) (die lid party num : Nat) : Grown die lid s (giveArea s die lid party num) := by
  rcases giveArea_cases s die lid party num with ⟨n, hn, hfresh, hfull, h⟩ | ⟨-, h⟩
  · rw [h]
    refine ⟨fun d hd => by rw [dieOf_setDie, if_neg hd], by rw [dieOf_setDie, if_pos rfl], ⟨[(lid, party, num, n)], by rw [dieOf_setDie, if_pos rfl], ?_⟩,
      fun hno => absurd hno hfull⟩
    intro e he
    obtain rfl := List.mem_singleton.1 he
    exact ⟨rfl, hn, hfresh⟩
  · rw [h]
    exact .refl ..

end Sys2Proof.Machine

/-! PROOF. The areas of a body move with it, and the bytes that its waves are read from stay (R276, R279). -/

namespace Sys2Proof.Machine

/-! ### Where areas lie -/

/-- The area of a number on a die. -/
def areaLoc (die n : Nat) : Nat := Config.nearBase die + Config.ctxBase + 32768 * n

/-- An entry of a die's areas is the wave's. -/
def isArea (w : Wave) (a : Nat × Nat × Nat × Nat) : Bool := a.1 == w.lid && a.2.1 == w.party && a.2.2.1 == w.num

theorem waveArea_eq (s : State) (wid : Nat) (w : Wave) :
    waveArea s wid w = ((dieOf s (dieNo wid)).areas.find? (isArea w)).map fun a => areaLoc (dieNo wid) a.2.2.2 := rfl

theorem waveArea_mem {s : State} {wid a : Nat} {w : Wave} (h : waveArea s wid w = some a) :
    ∃ e ∈ (dieOf s (dieNo wid)).areas, e.1 = w.lid ∧ a = areaLoc (dieNo wid) e.2.2.2 := by
  rw [waveArea_eq] at h
  obtain ⟨e, he, rfl⟩ := Option.map_eq_some_iff.1 h
  have hmine := List.find?_some he
  simp only [isArea, Bool.and_eq_true, beq_iff_eq] at hmine
  exact ⟨e, List.mem_of_find?_eq_some he, hmine.1.1, rfl⟩

/-- The first areas of a die answer before those given later. -/
theorem waveArea_grown {s t : State} {wid a : Nat} {w : Wave} {more : List (Nat × Nat × Nat × Nat)}
    (hgrown : (dieOf t (dieNo wid)).areas = (dieOf s (dieNo wid)).areas ++ more) (h : waveArea s wid w = some a) : waveArea t wid w = some a := by
  rw [waveArea_eq] at h ⊢
  obtain ⟨e, he, rfl⟩ := Option.map_eq_some_iff.1 h
  rw [hgrown, List.find?_append, he]
  rfl

theorem waveArea_of_areas {s t : State} {wid wid' : Nat} {w v : Wave} (hdie : dieNo wid' = dieNo wid)
    (h : (dieOf t (dieNo wid)).areas = (dieOf s (dieNo wid)).areas) (hlid : v.lid = w.lid) (hparty : v.party = w.party) (hnum : v.num = w.num) :
    waveArea t wid' v = waveArea s wid w := by
  simp only [waveArea, hdie, h, hlid, hparty, hnum]

/-- The numbers of areas that a die gives lie in its near memory. -/
theorem areaLoc_div {die n x : Nat} (hn : n < 32768) (hlo : areaLoc die n ≤ x) (hhi : x < areaLoc die n + 32768) : x / Config.nearSize = die := by
  simp only [areaLoc, Config.nearBase, Config.ctxBase, Config.nearSize] at *
  omega

/-! ### Bytes that loading a body leaves -/

/-- A byte of another die's near memory or of far memory, or of an area of the die that is in use. -/
def Kept (die : Nat) (s : State) (x : Nat) : Prop :=
  x / Config.nearSize ≠ die ∨ ∃ e ∈ (dieOf s die).areas, areaLoc die e.2.2.2 ≤ x ∧ x < areaLoc die e.2.2.2 + 32768

/-- Those bytes are as they were. -/
structure BytesKept (die : Nat) (s t : State) : Prop where
  byte : ∀ x, Kept die s x → devByte t x = devByte s x

theorem BytesKept.of_bytes {die : Nat} {s t u : State} (h : BytesKept die s t) (hu : ∀ x, devByte u x = devByte t x) : BytesKept die s u :=
  ⟨fun x hx => (hu x).trans (h.byte x hx)⟩

theorem BytesKept.devBytes {die : Nat} {s t : State} (h : BytesKept die s t) {loc n : Nat} (hkept : ∀ x, loc ≤ x → x < loc + n → Kept die s x) :
    devBytes t loc n = devBytes s loc n :=
  devBytes_congr fun x h1 h2 => h.byte x (hkept x h1 h2)

/-- Of two areas with other numbers none reaches into the other. -/
theorem not_kept_of_given {die : Nat} {s : State} {n x : Nat} (hn : n < 32768) (hfresh : ∀ e ∈ (dieOf s die).areas, e.2.2.2 ≠ n)
    (hlo : areaLoc die n ≤ x) (hhi : x < areaLoc die n + 32768) : ¬ Kept die s x := by
  rintro (h | ⟨e, he, h1, h2⟩)
  · exact h (areaLoc_div hn hlo hhi)
  · have hne := hfresh e he
    simp only [areaLoc] at *
    omega

theorem moveArea_written (s : State) (old wid : Nat) (w : Wave) : DevWritten s (moveArea s old wid w) := by
  unfold moveArea
  split
  · split
    · exact .refl s
    · exact .devWrite ..
  · exact .refl s

theorem giveArea_bytes (s : State) (die lid party num x : Nat) : devByte (giveArea s die lid party num) x = devByte s x := by
  obtain ⟨_, _, _, h⟩ := MachineryMoved.giveArea s die lid party num
  rw [h]
  rfl

theorem length_devBytes (s : State) (loc n : Nat) : (devBytes s loc n).length = n := by simp [devBytes_eq_map]

theorem DevWritten.dieOf {s t : State} (h : DevWritten s t) (d : Nat) : dieOf t d = dieOf s d := congrArg (Tab.findD · d Die.init) h.dies

/-! ### The area of a wave that is loaded -/

section
variable {die lid old wid : Nat} {s st : State} {w : Wave} (hlid : w.lid = lid) (hdie : dieNo wid = die)
include hlid hdie

theorem areaState_grown (st : State) : Grown die lid st (areaState st old wid w) := by
  unfold areaState
  split
  · exact .refl ..
  · have hmove := moveArea_written (giveArea st (dieNo wid) w.lid w.party w.num) old wid w
    subst hlid hdie
    exact (giveArea_grown ..).trans (.of_areas (fun d => by rw [hmove.dieOf]) (by rw [hmove.dieOf]))

variable (hgrown : Grown die lid s st) (hfrom : dieNo old = die ∨ ∀ a ∈ (dieOf s die).areas, a.1 ≠ lid)
include hgrown

/-- A wave's area on the die, where the launch had none at first, is one that has been given since. -/
theorem given_of_waveArea (hnone : ∀ a ∈ (dieOf s die).areas, a.1 ≠ lid) {b : Nat} (hb : waveArea st wid w = some b) :
    ∃ n, n < 32768 ∧ (∀ e ∈ (dieOf s die).areas, e.2.2.2 ≠ n) ∧ b = areaLoc die n := by
  obtain ⟨e, he, helid, rfl⟩ := waveArea_mem hb
  obtain ⟨more, hmore, hgiven⟩ := hgrown.grown
  rw [hdie, hmore] at he
  obtain he | he := List.mem_append.1 he
  · exact absurd (helid.trans hlid) (hnone e he)
  · obtain ⟨-, hlt, hfresh⟩ := hgiven e he
    exact ⟨e.2.2.2, hlt, hfresh, by rw [hdie]⟩

include hfrom

theorem areaState_bytes (hbytes : BytesKept die s st) : BytesKept die s (areaState st old wid w) := by
  unfold areaState
  split
  · exact hbytes
  · next hother =>
    have hnone := hfrom.resolve_left fun h => hother (h.trans hdie.symm)
    have hgiven : BytesKept die s (giveArea st (dieNo wid) w.lid w.party w.num) := hbytes.of_bytes fun x => giveArea_bytes ..
    have hgrown' : Grown die lid s (giveArea st (dieNo wid) w.lid w.party w.num) := by
      rw [hlid, hdie]
      exact hgrown.trans (giveArea_grown ..)
    unfold moveArea
    split
    · next a b _ hb =>
      split
      · exact hgiven
      · obtain ⟨n, hn, hfresh, rfl⟩ := given_of_waveArea hlid hdie hgrown' hnone hb
        refine ⟨fun x hx => (devWrite_devByte_out _ ?_).trans (hgiven.byte x hx)⟩
        rw [length_devBytes]
        by_contra hin
        exact not_kept_of_given hn hfresh (by omega) (by omega) hx
    · exact hgiven

end

/-- The bytes that a loaded wave is read from are those of the area in which it was saved. -/
theorem areaState_reads {die lid old wid : Nat} {s st : State} {w : Wave} (hlid : w.lid = lid) (hdie : dieNo wid = die)
    (hgrown : Grown die lid s st) (hbytes : BytesKept die s st) {a b : Nat} (ha : waveArea s old w = some a)
    (hfrom : dieNo old = die ∨ (∀ x ∈ (dieOf s die).areas, x.1 ≠ lid) ∧ a < Config.nearBase (dieNo old + 1) - 32768)
    (hb : waveArea (areaState st old wid w) wid w = some b) {o n : Nat} (hn : o + n ≤ 0x8000) :
    devBytes (areaState st old wid w) (b + o) n = devBytes s (a + o) n := by
  obtain ⟨e, he, -, hloc⟩ := waveArea_mem ha
  by_cases hsame : dieNo old = dieNo wid
  · have hstate : areaState st old wid w = st := if_pos hsame
    rw [hstate] at hb ⊢
    obtain ⟨more, hmore, -⟩ := hgrown.grown
    have hwas : waveArea s wid w = some a := (waveArea_of_areas hsame.symm rfl rfl rfl rfl).trans ha
    obtain rfl := Option.some.inj ((waveArea_grown (by rw [hdie]; exact hmore) hwas).symm.trans hb)
    refine hbytes.devBytes fun x h1 h2 => .inr ⟨e, by rwa [← hdie, ← hsame], ?_⟩
    rw [hsame, hdie] at hloc
    omega
  · obtain ⟨hnone, hbound⟩ := hfrom.resolve_left fun h => hsame (h.trans hdie.symm)
    have hother : dieNo old ≠ die := fun h => hsame (h.trans hdie.symm)
    have hkept : ∀ x, a ≤ x → x < a + 0x8000 → Kept die s x := by
      intro x h1 h2
      refine .inl fun h => hother (h ▸ ?_)
      simp only [areaLoc, Config.nearBase, Config.ctxBase, Config.nearSize] at *
      omega
    have hgiven : BytesKept die s (giveArea st (dieNo wid) w.lid w.party w.num) := hbytes.of_bytes fun x => giveArea_bytes ..
    have hgrown' : Grown die lid s (giveArea st (dieNo wid) w.lid w.party w.num) := by
      rw [hlid, hdie]
      exact hgrown.trans (giveArea_grown ..)
    have hstate : areaState st old wid w = moveArea (giveArea st (dieNo wid) w.lid w.party w.num) old wid w := if_neg hsame
    have hfar : waveArea (giveArea st (dieNo wid) w.lid w.party w.num) old w = some a :=
      (waveArea_of_areas rfl (hgrown'.other _ hother) rfl rfl rfl).trans ha
    have hnear : waveArea (giveArea st (dieNo wid) w.lid w.party w.num) wid w = some b := by
      rw [hstate] at hb
      rw [← hb]
      exact (waveArea_congr (moveArea_written ..).dies wid rfl rfl rfl).symm
    obtain ⟨k, hk, hfresh, hbloc⟩ := given_of_waveArea hlid hdie hgrown' hnone hnear
    have hne : a ≠ b := by
      intro h
      exact not_kept_of_given hk hfresh (le_of_eq hbloc.symm) (by omega) (h ▸ hkept a le_rfl (by omega))
    have hmoved : moveArea (giveArea st (dieNo wid) w.lid w.party w.num) old wid w =
        devWrite (giveArea st (dieNo wid) w.lid w.party w.num) b (devBytes (giveArea st (dieNo wid) w.lid w.party w.num) a 32768) := by
      simp only [moveArea, hfar, hnear, hne, if_false]
    rw [hstate, hmoved, hgiven.devBytes hkept, devBytes_eq_map _ (b + o), devBytes_eq_map s (a + o)]
    refine List.map_congr_left fun i hi => ?_
    have hi := List.mem_range.1 hi
    have hcell := (devWrite_holds (giveArea st (dieNo wid) w.lid w.party w.num) b (devBytes s a 32768)).byte (o + i)
      (by rw [length_devBytes]; omega)
    rw [Nat.add_assoc, hcell, Nat.add_assoc]
    simp [devBytes_eq_map]

/-- A wave that is found to have an area in the end had it when it was read. -/
theorem areaState_some {die lid old wid : Nat} {s st fin : State} {w : Wave} (hdie : dieNo wid = die)
    (hgrown : Grown die lid s st) (hfin : Grown die lid (areaState st old wid w) fin) (ha : (waveArea s old w).isSome = true)
    (hb : (waveArea fin wid w).isSome = true) : (waveArea (areaState st old wid w) wid w).isSome = true := by
  by_cases hsame : dieNo old = dieNo wid
  · obtain ⟨a, ha⟩ := Option.isSome_iff_exists.1 ha
    obtain ⟨more, hmore, -⟩ := hgrown.grown
    have hwas : waveArea s wid w = some a := (waveArea_of_areas hsame.symm rfl rfl rfl rfl).trans ha
    rw [show areaState st old wid w = st from if_pos hsame, waveArea_grown (by rw [hdie]; exact hmore) hwas]
    rfl
  · have hstate : areaState st old wid w = moveArea (giveArea st (dieNo wid) w.lid w.party w.num) old wid w := if_neg hsame
    have hmoved := moveArea_written (giveArea st (dieNo wid) w.lid w.party w.num) old wid w
    rcases giveArea_cases st (dieNo wid) w.lid w.party w.num with ⟨n, -, -, -, h⟩ | ⟨hfull, h⟩
    · rw [hstate, waveArea_eq, hmoved.dieOf, h, dieOf_setDie, if_pos rfl, Option.isSome_map, List.find?_isSome]
      exact ⟨_, List.mem_append_right _ (List.mem_singleton_self _), by simp [isArea]⟩
    · have hdies : ∀ d, dieOf (areaState st old wid w) d = dieOf st d := by
        intro d
        rw [hstate, hmoved.dieOf, h]
      have hareas := hfin.full (by rw [hdies, ← hdie]; exact hfull)
      rwa [waveArea_of_areas (s := areaState st old wid w) (t := fin) (w := w) rfl (by rw [hdie]; exact hareas) rfl rfl rfl] at hb

end Sys2Proof.Machine

/-! PROOF. Loading a unit of a body (R278): what the reads of its dictionary leave, and that a page found bad ends the launch (R58, R114,
R273). -/

namespace Sys2Proof.Machine

/-! ### A kill ends its launch (R273) -/

theorem settlePieces_written (id : Nat) (a : Acc) (tag : Nat) : ∀ (ps : List Piece) (n : Nat) (s : State),
    DevWritten s (settlePieces s id a tag ps n)
  | [], _, s => .refl s
  | p :: ps, n, s => by
    rw [settlePieces]
    refine DevWritten.trans ?_ (settlePieces_written id a tag ps (n + 1) _)
    split
    · split
      · exact .refl s
      · exact (DevWritten.putCommits ..).trans ⟨_, _, _, _, rfl⟩
    · exact .refl s

theorem settleTile_written (s : State) (id : Nat) (a : Acc) (tag : Nat) (ps : List Piece) : DevWritten s (settleTile s id a tag ps) := by
  unfold settleTile
  split
  · exact .refl s
  · refine (DevWritten.foldl (fun t p => ?_) ps s).trans ⟨_, _, _, _, rfl⟩
    split
    · exact .putCommits ..
    · exact .refl t

theorem settleAcc_written (s : State) (e : Nat × Acc) : DevWritten s (settleAcc s e) := by
  unfold settleAcc
  split
  · exact .refl s
  · split
    · exact settlePieces_written ..
    · exact settleTile_written ..
    · exact .refl s

theorem settleBytes_written (c : Copy) (tag : Nat) : ∀ (l : List Nat) (s : State), DevWritten s (settleBytes s c tag l)
  | [], s => .refl s
  | k :: l, s => by
    rw [settleBytes]
    refine DevWritten.trans ?_ (settleBytes_written c tag l _)
    split
    · split
      · exact .refl s
      · exact (DevWritten.putCommits _ [_] ..).trans ⟨_, _, _, _, rfl⟩
    · exact .refl s

theorem settleCopy_written (s : State) (e : Nat × Copy) : DevWritten s (settleCopy s e) := by
  unfold settleCopy
  split
  · exact settleBytes_written ..
  · exact settleBytes_written ..
  · exact .refl s

theorem DevWritten.launches {s t : State} (h : DevWritten s t) : t.launches = s.launches := by
  obtain ⟨_, _, _, _, rfl⟩ := h
  rfl

theorem writeSide_launches (s : State) (host : Bool) (a : Nat) (bs : List Byte) : (writeSide s host a bs).launches = s.launches := by
  unfold writeSide
  split
  · rfl
  · exact (DevWritten.devWrite ..).launches

theorem launchEnded_congr {s t : State} {n : Nat} (h : launchOf t n = launchOf s n) : launchEnded t n = launchEnded s n := by
  simp only [launchEnded, h]

theorem launchEnded_modLaunch_killed (s : State) (lid n : Nat) (h : n = lid ∨ launchEnded s n = true) :
    launchEnded (modLaunch s lid fun l => { l with st := .killed }) n = true := by
  cases hl : launchOf s lid with
  | none =>
    have hsame : modLaunch s lid (fun l => { l with st := .killed }) = s := by simp only [modLaunch, hl]
    rw [hsame]
    rcases h with rfl | h
    · simp only [launchEnded, hl]
    · exact h
  | some l =>
    rw [modLaunch_of_launch _ hl, launchEnded, launchOf_setLaunch]
    by_cases hn : n = lid
    · rw [if_pos hn]
      rfl
    · rw [if_neg hn]
      exact h.resolve_left hn

theorem launchEnded_endLaunch (s : State) (lid n : Nat) (h : n = lid ∨ launchEnded s n = true) : launchEnded (endLaunch s lid) n = true := by
  have hsettled := (DevWritten.foldl settleAcc_written (s.acc.filter fun e => e.2.lid == lid) s).launches
  unfold endLaunch
  extract_lets s1 onCores vf lodgedBack s2 s3
  have hs2 : launchEnded s2 n = launchEnded s n := launchEnded_congr (congrArg (Tab.find · n) hsettled)
  have hs3 : launchEnded s3 n = launchEnded (modLaunch s2 lid fun l => { l with st := .killed }) n := launchEnded_congr rfl
  rw [launchEnded_congr ((MachineryMoved.foldl MachineryMoved.retarget onCores s3).launchOf n), hs3]
  exact launchEnded_modLaunch_killed s2 lid n (h.imp_right hs2.trans)

theorem launchEnded_endLaunches {n : Nat} : ∀ (l : List Nat) (s : State), n ∈ l ∨ launchEnded s n = true →
    launchEnded (l.foldl endLaunch s) n = true
  | [], _, h => h.resolve_left List.not_mem_nil
  | x :: l, s, h => by
    refine launchEnded_endLaunches l _ ?_
    by_cases hx : n = x
    · exact .inr (launchEnded_endLaunch s x n (.inl hx))
    · exact (h.imp_left fun h => (List.mem_cons.1 h).resolve_left hx).imp_right fun h => launchEnded_endLaunch s x n (.inr h)

theorem mem_killSet {s : State} {lid : Nat} {l : Launch} (hl : launchOf s lid = some l) : lid ∈ killSet s lid ∨ launchEnded s lid = true := by
  simp only [killSet, hl]
  split
  · exact .inl (List.mem_singleton_self _)
  · by_cases hst : l.st = .accepted
    · refine .inl (List.mem_map.2 ⟨(lid, l), List.mem_filter.2 ⟨Tab.mem_of_find _ _ _ hl, ?_⟩, rfl⟩)
      simp [hst]
    · exact .inr (by simp [launchEnded, hl, hst])

/-- A launch that is killed has ended. -/
theorem launchEnded_killLaunch (s : State) (lid code die core slot addr detail : Nat) :
    launchEnded (killLaunch s lid code die core slot addr detail) lid = true := by
  cases hl : launchOf s lid with
  | none => simp only [killLaunch, hl, launchEnded]
  | some l =>
    simp only [killLaunch, hl]
    have hcopies := (DevWritten.foldl settleCopy_written (s.copies.filter fun e => (killSet s lid).contains e.2.lid) s).launches
    have hended := launchEnded_endLaunches (n := lid) (killSet s lid) ((s.copies.filter fun e => (killSet s lid).contains e.2.lid).foldl settleCopy s)
      ((mem_killSet hl).imp_right (launchEnded_congr (congrArg (Tab.find · lid) hcopies)).trans)
    refine (launchEnded_congr ?_).trans hended
    exact congrArg (Tab.find · lid) (writeSide_launches ..)

/-! ### Reads of an image -/

/-- What reads of an image leave: all but translation caches and the launches' checked pages. -/
structure ImageRead (s t : State) : Prop where
  moved : ∃ feXlat dies launches, t = { s with feXlat := feXlat, dies := dies, launches := launches }
  areas : ∀ d, (dieOf t d).areas = (dieOf s d).areas ∧ (dieOf t d).coreAreas = (dieOf s d).coreAreas

theorem ImageRead.refl (s : State) : ImageRead s s := ⟨⟨_, _, _, rfl⟩, fun _ => ⟨rfl, rfl⟩⟩

theorem ImageRead.trans {s t u : State} (h : ImageRead s t) (h' : ImageRead t u) : ImageRead s u := by
  refine ⟨?_, fun d => ⟨(h'.areas d).1.trans (h.areas d).1, (h'.areas d).2.trans (h.areas d).2⟩⟩
  obtain ⟨_, _, _, ht⟩ := h.moved
  obtain ⟨_, _, _, hu⟩ := h'.moved
  exact ⟨_, _, _, by rw [hu, ht]⟩

theorem ImageRead.modLaunch (s : State) (lid : Nat) (f : Launch → Launch) : ImageRead s (modLaunch s lid f) := by
  unfold Machine.modLaunch
  split
  · exact ⟨⟨_, _, _, rfl⟩, fun _ => ⟨rfl, rfl⟩⟩
  · exact .refl s

theorem ImageRead.setXcache (s : State) (far : Bool) (die n : Nat) (l : List XEntry) : ImageRead s (setXcache s far die n l) := by
  unfold Machine.setXcache
  split
  · exact ⟨⟨_, _, _, rfl⟩, fun _ => ⟨rfl, rfl⟩⟩
  · refine ⟨⟨_, _, _, rfl⟩, fun d => ?_⟩
    rw [dieOf_modDie]
    split
    · next hd => exact hd ▸ ⟨rfl, rfl⟩
    · exact ⟨rfl, rfl⟩

theorem ImageRead.translate (s : State) (far : Bool) (die asid va : Nat) (cls : Option Nat) (rd wr : Bool) :
    ImageRead s (translate s far die asid va cls rd wr).2 := by
  unfold Machine.translate
  extract_lets n l
  split
  · exact .setXcache ..
  · split
    · dsimp only
      split
      · exact .setXcache ..
      · exact .refl s
    · exact .refl s

theorem ImageRead.imgPlace (s : State) (l : Launch) (im : Image) (page : Nat) : ImageRead s (imgPlace s l im page).2 := by
  unfold Machine.imgPlace
  extract_lets va t
  have ht : ImageRead s t.2 := .translate ..
  split
  · exact .refl s
  · split
    · split <;> exact ht
    · exact ht
    · exact ht

theorem ImageRead.imgPage (s : State) (lid : Nat) (l : Launch) (hand : Bool) (im : Image) (die page : Nat) :
    ImageRead s (imgPage s lid l hand im die page).2 := by
  unfold Machine.imgPage
  have hplace := ImageRead.imgPlace s l im page
  split
  · exact .refl s
  · extract_lets x
    split
    · extract_lets cut
      split
      · exact hplace
      · split
        · exact hplace.trans (.modLaunch ..)
        · exact hplace
    · exact hplace

theorem ImageRead.imgGo (lid : Nat) (hand : Bool) (die off n : Nat) : ∀ (l : List Nat) (s : State), ImageRead s (imgGo lid hand die off n l s).2
  | [], s => .refl s
  | pg :: t, s => by
    unfold Machine.imgGo
    split
    · exact .refl s
    · split
      · exact .refl s
      · next l _ _ im _ =>
        have hpage := ImageRead.imgPage s lid l hand im die pg
        extract_lets x
        have hrest : ImageRead s (Machine.imgGo lid hand die off n t x.2).2 := hpage.trans (ImageRead.imgGo lid hand die off n t x.2)
        split
        · split
          · exact hpage
          · split <;> exact hrest
        · exact hpage
        · exact hpage

theorem ImageRead.fetchWord (s : State) (die : Nat) (k : DKey) : ImageRead s (fetchWord s die k).2 := by
  unfold Machine.fetchWord
  split
  · exact .refl s
  · next im _ =>
    extract_lets r
    have hr : ImageRead s r.2 := .imgGo ..
    split
    · exact hr
    · exact hr
    · split <;> exact hr

/-! ### The dictionary of a unit -/

/-- A core with another decode table. -/
def Core.withTable (c : Core) (dtab : List DEntry) : Core := { c with dtab := dtab }

/-- What the preload of a dictionary list leaves where no page is bad: reads of the image, and a decode table. -/
structure Preloaded (core : Nat) (s t : State) : Prop where
  moved : ∃ feXlat dies launches cores, t = { s with feXlat := feXlat, dies := dies, launches := launches, cores := cores }
  areas : ∀ d, (dieOf t d).areas = (dieOf s d).areas ∧ (dieOf t d).coreAreas = (dieOf s d).coreAreas
  others : ∀ n, n ≠ core → coreOf t n = coreOf s n
  core : ∃ dtab, coreOf t core = (coreOf s core).withTable dtab

theorem Preloaded.refl (core : Nat) (s : State) : Preloaded core s s := ⟨⟨_, _, _, _, rfl⟩, fun _ => ⟨rfl, rfl⟩, fun _ _ => rfl, ⟨_, rfl⟩⟩

theorem Preloaded.trans {core : Nat} {s t u : State} (h : Preloaded core s t) (h' : Preloaded core t u) : Preloaded core s u := by
  obtain ⟨d, hd⟩ := h.core
  obtain ⟨d', hd'⟩ := h'.core
  refine ⟨?_, fun n => ⟨(h'.areas n).1.trans (h.areas n).1, (h'.areas n).2.trans (h.areas n).2⟩,
    fun n hn => (h'.others n hn).trans (h.others n hn), ⟨d', by rw [hd', hd]; rfl⟩⟩
  obtain ⟨_, _, _, _, ht⟩ := h.moved
  obtain ⟨_, _, _, _, hu⟩ := h'.moved
  exact ⟨_, _, _, _, by rw [hu, ht]⟩

theorem ImageRead.preloaded {s t : State} (h : ImageRead s t) (core : Nat) : Preloaded core s t := by
  obtain ⟨_, _, _, ht⟩ := h.moved
  have hcores : ∀ n, coreOf t n = coreOf s n := fun n => by rw [ht]; rfl
  exact ⟨⟨_, _, _, _, ht⟩, h.areas, fun n _ => hcores n, ⟨(coreOf s core).dtab, hcores core⟩⟩

theorem Preloaded.addEntry (core : Nat) (s : State) (e : DEntry) : Preloaded core s (modCore s core fun c => { c with dtab := c.dtab ++ [e] }) :=
  ⟨⟨_, _, _, _, rfl⟩, fun _ => ⟨rfl, rfl⟩, fun _ hn => (coreOf_modCore ..).trans (if_neg hn), ⟨_, coreOf_modCore_same ..⟩⟩

/-- A preload leaves the part as it was, or has ended the launch (R58, R64). -/
theorem preload_cases {core lid : Nat} : ∀ (ks : List DKey) (s : State), (∀ k ∈ ks, k.lid = lid) →
    Preloaded core s (preload core ks s) ∨ launchEnded (preload core ks s) lid = true
  | [], s, _ => .inl (.refl core s)
  | k :: ks, s, h => by
    obtain ⟨hk, hks⟩ := List.forall_mem_cons.1 h
    unfold preload
    split
    · exact .inl (.refl core s)
    · extract_lets r
      have hr : Preloaded core s r.2 := (ImageRead.fetchWord s (dieOfCore core) k).preloaded core
      split
      · next cw _ =>
        exact (preload_cases ks _ hks).imp_left fun hrest => (hr.trans (.addEntry ..)).trans hrest
      · right
        subst hk
        exact launchEnded_killLaunch ..

end Sys2Proof.Machine

/-! PROOF. The units of a body are loaded (R278). -/

namespace Sys2Proof.Machine

/-! ### The waves of a unit -/

theorem areaState_waves (s : State) (old wid : Nat) (w : Wave) : (areaState s old wid w).waves = s.waves := by
  unfold areaState
  split
  · rfl
  · exact (moveArea_written ..).waves.trans (MachineryMoved.giveArea ..).waves

theorem areaState_cores (s : State) (old wid : Nat) (w : Wave) : (areaState s old wid w).cores = s.cores := by
  unfold areaState
  split
  · rfl
  · obtain ⟨_, _, _, _, hm⟩ := moveArea_written (giveArea s (dieNo wid) w.lid w.party w.num) old wid w
    rw [hm]
    rcases giveArea_cases s (dieNo wid) w.lid w.party w.num with ⟨n, -, -, -, h⟩ | ⟨-, h⟩
    · rw [h]
      rfl
    · rw [h]

/-- The wave that is put into a slot. -/
def resumedWave (s : State) (old wid : Nat) (w : Wave) : Wave := resumed s (reloaded s old wid w)

/-- The state in which one wave has been put into its slot. -/
def loadWave (s : State) (old wid : Nat) (w : Wave) : State := setWave (areaState s old wid w) wid (resumedWave s old wid w)

theorem waveOf_loadWave (s : State) (old wid k : Nat) (w : Wave) :
    waveOf (loadWave s old wid w) k = if k = wid then some (resumedWave s old wid w) else waveOf s k := by
  rw [loadWave, waveOf_setWave, waveOf, areaState_waves]
  rfl

theorem loadWave_grown (die lid : Nat) (s : State) (old wid : Nat) (w : Wave) : Grown die lid (areaState s old wid w) (loadWave s old wid w) :=
  .of_areas (fun _ => rfl) rfl

section
variable (H : Prop) (die lid : Nat) (s : State)

/-- Where `H` holds, the areas of a body and the bytes that its waves are read from are those of `s`, but for areas given since. -/
def Loading (t : State) : Prop := H → Grown die lid s t ∧ BytesKept die s t

/-- A wave stands in a slot of the last state, as it was loaded in a state on the way. -/
structure WaveLoaded (fin : State) (e : Nat × Wave) (k : Nat) (st : State) : Prop where
  wave : waveOf fin k = some (resumedWave st e.1 k e.2)
  start : Loading H die lid s st
  after : H → Grown die lid (areaState st e.1 k e.2) fin

/-- What loading waves into slots of a core does. -/
structure WavesLoaded (core : Nat) (ws : List (Nat × Wave)) (ts : List Nat) (st fin : State) : Prop where
  others : ∀ k, (∀ t ∈ ts, k ≠ 16 * core + t) → waveOf fin k = waveOf st k
  waves : ∀ e ∈ ws, ∃ t ∈ ts, ∃ mid, WaveLoaded H die lid s fin e (16 * core + t) mid
  fresh : ∀ k w, waveOf fin k = some w → waveOf st k = some w ∨ ∃ (e : Nat × Wave) (mid : State), w = resumedWave mid e.1 k e.2
  grown : H → Grown die lid st fin
  bytes : H → BytesKept die s fin
  cores : fin.cores = st.cores

end

section
variable {H : Prop} {die lid core : Nat} {s : State}

theorem loadWaves_loaded (hcore : core / 32 = die) : ∀ (ws : List (Nat × Wave)) (ts : List Nat) (st : State), ws.length ≤ ts.length → ts.Nodup →
    (∀ t ∈ ts, t < 16) → (∀ e ∈ ws, e.2.lid = lid) → (H → ∀ e ∈ ws, dieNo e.1 = die ∨ ∀ a ∈ (dieOf s die).areas, a.1 ≠ lid) →
    Loading H die lid s st → WavesLoaded H die lid s core ws ts st (loadWaves core ws ts st).1
  | [], ts, st, _, _, _, _, _, hload => by
    have hnone : loadWaves core [] ts st = (st, []) := by cases ts <;> rfl
    rw [hnone]
    exact ⟨fun _ _ => rfl, fun _ h => absurd h List.not_mem_nil, fun _ _ h => .inl h, fun _ => .refl .., fun h => (hload h).2, rfl⟩
  | _ :: _, [], _, hlen, _, _, _, _, _ => absurd hlen (by simp)
  | (old, w) :: ws, t :: ts, st, hlen, hnodup, hlt, hlid, hfrom, hload => by
    obtain ⟨hw, hws⟩ := List.forall_mem_cons.1 hlid
    obtain ⟨ht, hts⟩ := List.forall_mem_cons.1 hlt
    obtain ⟨hfirst, hrest⟩ := List.nodup_cons.1 hnodup
    have hdie : dieNo (16 * core + t) = die := by
      simp only [dieNo]
      omega
    have harea : H → Grown die lid st (areaState st old (16 * core + t) w) := fun _ => areaState_grown hw hdie st
    have hbytes : H → BytesKept die s (areaState st old (16 * core + t) w) := fun h =>
      areaState_bytes hw hdie (hload h).1 (hfrom h _ (List.mem_cons_self ..)) (hload h).2
    have hnext : Loading H die lid s (loadWave st old (16 * core + t) w) := fun h =>
      ⟨(hload h).1.trans ((harea h).trans (loadWave_grown ..)), (hbytes h).of_bytes fun _ => rfl⟩
    have ih := loadWaves_loaded hcore ws ts (loadWave st old (16 * core + t) w) (Nat.le_of_succ_le_succ hlen) hrest hts hws
      (fun h e he => hfrom h e (List.mem_cons_of_mem _ he)) hnext
    have hother : ∀ x ∈ ts, 16 * core + t ≠ 16 * core + x := fun x hx heq => hfirst (by rwa [show t = x by omega])
    have hafter : H → Grown die lid (areaState st old (16 * core + t) w) (loadWaves core ws ts (loadWave st old (16 * core + t) w)).1 := fun h =>
      (loadWave_grown ..).trans (ih.grown h)
    rw [loadWaves_cons]
    refine ⟨fun k hk => ?_, fun e he => ?_, fun k v hv => ?_, fun h => (harea h).trans (hafter h), ih.bytes, ih.cores.trans (areaState_cores ..)⟩
    · obtain ⟨hkt, hkts⟩ := List.forall_mem_cons.1 hk
      exact (ih.others k hkts).trans ((waveOf_loadWave ..).trans (if_neg hkt))
    · obtain rfl | he := List.mem_cons.1 he
      · exact ⟨t, List.mem_cons_self .., st, (ih.others _ hother).trans ((waveOf_loadWave ..).trans (if_pos rfl)), hload, hafter⟩
      · obtain ⟨x, hx, mid, hmid⟩ := ih.waves e he
        exact ⟨x, List.mem_cons_of_mem _ hx, mid, hmid⟩
    · refine (ih.fresh k v hv).elim (fun hst => ?_) .inr
      rw [waveOf_loadWave] at hst
      split at hst
      · next hk => exact .inr ⟨(old, w), st, by rw [hk]; exact (Option.some.inj hst).symm⟩
      · exact .inl hst

end

/-! ### The core of a unit -/

/-- A core holds a unit of a launch: its allotment, its bytes and its tile contents. -/
structure UnitAt (lid : Nat) (b : SavedCore) (x : Core) : Prop where
  share : ∃ sh, Tab.find x.shares lid = some sh ∧ sh.units = b.share.units ∧
    ∀ i, i < 6144 * sh.units → getByte x.pad (6144 * sh.unit + i) = Tab.findD b.pad i 0
  tile : ∀ p, b.tile = some p → x.tile = some p ∧ x.accs = b.accs ∧ x.parts = b.parts ∧ x.images = b.images ∧ x.table = b.table

/-- A step that changes one core, and what of the machinery bears on no area. -/
structure CoreStep (core : Nat) (s t : State) : Prop where
  waves : t.waves = s.waves
  bytes : ∀ x, devByte t x = devByte s x
  areas : ∀ d, (dieOf t d).areas = (dieOf s d).areas ∧ (dieOf t d).coreAreas = (dieOf s d).coreAreas
  others : ∀ n, n ≠ core → coreOf t n = coreOf s n

theorem CoreStep.trans {core : Nat} {s t u : State} (h : CoreStep core s t) (h' : CoreStep core t u) : CoreStep core s u :=
  ⟨h'.waves.trans h.waves, fun x => (h'.bytes x).trans (h.bytes x), fun d => ⟨(h'.areas d).1.trans (h.areas d).1, (h'.areas d).2.trans (h.areas d).2⟩,
    fun n hn => (h'.others n hn).trans (h.others n hn)⟩

theorem CoreStep.refl (core : Nat) (s : State) : CoreStep core s s := ⟨rfl, fun _ => rfl, fun _ => ⟨rfl, rfl⟩, fun _ _ => rfl⟩

theorem CoreStep.modCore (core : Nat) (s : State) (f : Core → Core) : CoreStep core s (modCore s core f) :=
  ⟨rfl, fun _ => rfl, fun _ => ⟨rfl, rfl⟩, fun _ hn => (coreOf_modCore ..).trans (if_neg hn)⟩

theorem CoreStep.quietGain (core : Nat) (s : State) (cl : Nat) : CoreStep core s (quietGain s cl) := by
  unfold Machine.quietGain
  split
  · exact ⟨rfl, fun _ => rfl, fun _ => ⟨rfl, rfl⟩, fun _ _ => rfl⟩
  · exact .refl ..

theorem CoreStep.catchUp (core : Nat) (s : State) : CoreStep core s (catchUp s core) := by
  unfold Machine.catchUp
  extract_lets x
  split
  · exact .refl ..
  · exact ⟨rfl, fun _ => rfl, fun _ => ⟨rfl, rfl⟩, fun _ hn => (coreOf_setCore ..).trans (if_neg hn)⟩

theorem CoreStep.wake (core : Nat) (s : State) : CoreStep core s (wake s core) := (CoreStep.quietGain ..).trans (.catchUp ..)

theorem Preloaded.coreStep {core : Nat} {s t : State} (h : Preloaded core s t) : CoreStep core s t := by
  obtain ⟨_, _, _, _, ht⟩ := h.moved
  exact ⟨by rw [ht], fun _ => by rw [ht]; rfl, h.areas, h.others⟩

theorem CoreStep.padWrite (core : Nat) (s : State) (a : Nat) (bs : List Byte) (n : Nat) :
    CoreStep core s (eccPadClear (padWrite s core a bs) core a n) :=
  (CoreStep.modCore core s fun c => { c with pad := putBytes c.pad a bs }).trans ⟨rfl, fun _ => rfl, fun _ => ⟨rfl, rfl⟩, fun _ _ => rfl⟩

theorem getByte_putBytes_inside (bs : List Byte) (m : List Host.Cell) (a : Nat) {i : Nat} (hi : i < bs.length) :
    getByte (putBytes m a bs) (a + i) = bs[i] := by
  have hall := getBytes_putBytes_same bs m a
  have hlist : ∀ (n b : Nat), getBytes (putBytes m a bs) b n = (List.range n).map fun i => getByte (putBytes m a bs) (b + i) := by
    intro n b
    have hstate := devBytes_eq_map { State.reset with mem := putBytes m a bs, wiped := [] } b n
    exact hstate
  rw [hlist] at hall
  have hcell := congrArg (·[i]?) hall
  simpa [hi] using hcell

/-- A unit that is loaded: its core, and then its waves; or a page of its dictionary is found bad, which ends the launch (R114). -/
theorem loadUnit_cases {s : State} {lid core : Nat} {l : Launch} {b : SavedCore} (hdict : ∀ k ∈ b.dict, k.lid = lid) :
    launchEnded (loadUnit s lid l b core).1 lid = true ∨ ∃ base, CoreStep core s base ∧ UnitAt lid b (coreOf base core) ∧
      (loadUnit s lid l b core).1 = freshCore (loadWaves core b.waves (freeSlots s core) base).1 core lid := by
  unfold loadUnit
  extract_lets s0 c unit slots m share sh s1 sp s2 s3 s4 r
  by_cases hended : launchEnded sp lid = true
  · exact .inl (by rw [if_pos hended]; exact hended)
  · right
    have hpre : Preloaded core s1 sp := (preload_cases b.dict s1 hdict).resolve_right hended
    have hslots : slots = freeSlots s core := freeSlots_congr (CoreStep.wake core s).waves core
    obtain ⟨dtab, hsp⟩ := hpre.core
    have hs1 : coreOf s1 core = { coreOf s0 core with shares := Tab.put (coreOf s0 core).shares lid sh } := coreOf_modCore_same ..
    have hs2 : coreOf s2 core = { coreOf sp core with pad := putBytes (coreOf sp core).pad (6144 * unit) (corePad b) } :=
      coreOf_modCore_same sp core fun c => { c with pad := putBytes c.pad (6144 * unit) (corePad b) }
    have hs3 : CoreStep core s2 s3 ∧ (coreOf s3 core).shares = (coreOf s2 core).shares ∧ (coreOf s3 core).pad = (coreOf s2 core).pad ∧
        ∀ p, b.tile = some p → (coreOf s3 core).tile = some p ∧ (coreOf s3 core).accs = b.accs ∧ (coreOf s3 core).parts = b.parts ∧
          (coreOf s3 core).images = b.images ∧ (coreOf s3 core).table = b.table := by
      unfold s3
      split
      · next hnone => exact ⟨.refl .., rfl, rfl, fun p hp => absurd (hnone.symm.trans hp) (by simp)⟩
      · next t ht =>
        refine ⟨.modCore .., ?_, ?_, fun p hp => ?_⟩ <;> rw [coreOf_modCore_same]
        · rfl
        · rfl
        · obtain rfl := Option.some.inj (ht.symm.trans hp)
          exact ⟨rfl, rfl, rfl, rfl, rfl⟩
    obtain ⟨hstep, hshares, hpad, htile⟩ := hs3
    have hs4 : ∃ low clock gone, coreOf s4 core = { coreOf s3 core with lowered := low, clock := clock, gone := gone } :=
      ⟨_, _, _, (coreOf_modCore_same ..).trans (by rw [takeView, coreOf_modCore_same])⟩
    obtain ⟨low, clock, gone, hs4⟩ := hs4
    refine ⟨s4, ?_, ?_, ?_⟩
    · exact (((((CoreStep.wake ..).trans (.modCore ..)).trans hpre.coreStep).trans (.padWrite ..)).trans hstep).trans
        ((CoreStep.modCore ..).trans (.modCore ..))
    · rw [hs4]
      refine ⟨⟨sh, ?_, rfl, fun i hi => ?_⟩, htile⟩
      · change Tab.find (coreOf s3 core).shares lid = some sh
        rw [hshares, hs2, hsp, hs1]
        exact Tab.find_put_same ..
      · change getByte (coreOf s3 core).pad (6144 * unit + i) = _
        have hi' : i < 6144 * b.share.units := hi
        rw [hpad, hs2]
        refine (getByte_putBytes_inside _ _ _ (by rwa [length_corePad])).trans ?_
        simp [corePad]
    · rw [if_neg hended]
      unfold r
      rw [hslots]

theorem UnitAt.of_same {lid : Nat} {b : SavedCore} {x y : Core} (h : UnitAt lid b x) (hpad : y.pad = x.pad)
    (htile : y.tile = x.tile ∧ y.accs = x.accs ∧ y.parts = x.parts ∧ y.images = x.images ∧ y.table = x.table)
    (hshare : ∀ sh, Tab.find x.shares lid = some sh → ∃ sh', Tab.find y.shares lid = some sh' ∧ sh'.unit = sh.unit ∧ sh'.units = sh.units) :
    UnitAt lid b y := by
  obtain ⟨sh, hsh, hunits, hbytes⟩ := h.share
  obtain ⟨sh', hsh', hunit', hunits'⟩ := hshare sh hsh
  obtain ⟨h1, h2, h3, h4, h5⟩ := htile
  refine ⟨⟨sh', hsh', hunits'.trans hunits, fun i hi => ?_⟩, fun p hp => ?_⟩
  · rw [hpad, hunit']
    exact hbytes i (by rwa [hunits'] at hi)
  · rw [h1, h2, h3, h4, h5]
    exact h.tile p hp

theorem CoreStep.freshCore (core : Nat) (s : State) (lid : Nat) : CoreStep core s (freshCore s core lid) := by
  unfold Machine.freshCore modShare refresh
  exact ((CoreStep.modCore ..).trans (.modCore ..)).trans (.modCore ..)

theorem UnitAt.freshCore {s : State} {lid core : Nat} {b : SavedCore} (h : UnitAt lid b (coreOf s core)) :
    UnitAt lid b (coreOf (freshCore s core lid) core) := by
  unfold Machine.freshCore modShare refresh
  rw [coreOf_modCore_same, coreOf_modCore_same, coreOf_modCore_same]
  refine h.of_same rfl ⟨rfl, rfl, rfl, rfl, rfl⟩ fun sh hsh => ⟨_, Tab.find_put_same .., ?_⟩
  change (Tab.findD (coreOf s core).shares lid Share.init).unit = _ ∧ (Tab.findD (coreOf s core).shares lid Share.init).units = _
  rw [Tab.findD, hsh]
  exact ⟨rfl, rfl⟩

/-! ### The units of a body -/

/-- A wave as one of a body that has just been loaded. -/
def Fresh (w : Wave) : Prop := w.preempt = false ∧ w.tok = none ∧ w.age = 0

section
variable (H : Prop) (die lid : Nat) (s : State)

/-- What loading some units of a body does, from a state on the way to another. -/
structure UnitsLoaded (units : List SavedCore) (st fin : State) : Prop where
  kept : ∀ k w, waveOf st k = some w → waveOf fin k = some w
  fresh : ∀ k w, waveOf fin k = some w → waveOf st k = some w ∨ Fresh w
  grown : H → Grown die lid st fin
  bytes : H → BytesKept die s fin
  cores : ∀ n, (Tab.find (coreOf st n).shares lid).isSome = true → coreOf fin n = coreOf st n
  units : ∀ b ∈ units, ∃ core, core / 32 = die ∧ UnitAt lid b (coreOf fin core) ∧
    ∀ e ∈ b.waves, ∃ k mid, k / 16 = core ∧ waveOf st k = none ∧ WaveLoaded H die lid s fin e k mid

end

section
variable {H : Prop} {die lid : Nat} {s : State}

theorem UnitsLoaded.nil {st : State} (hload : Loading H die lid s st) : UnitsLoaded H die lid s [] st st :=
  ⟨fun _ _ h => h, fun _ _ h => .inl h, fun _ => .refl .., fun h => (hload h).2, fun _ _ => rfl, fun _ h => absurd h List.not_mem_nil⟩

/-- A unit stays where it is while others are loaded. -/
theorem UnitsLoaded.cons {b : SavedCore} {units : List SavedCore} {st mid fin : State} (h : UnitsLoaded H die lid s [b] st mid)
    (h' : UnitsLoaded H die lid s units mid fin) : UnitsLoaded H die lid s (b :: units) st fin where
  kept k w hw := h'.kept k w (h.kept k w hw)
  fresh k w hw := (h'.fresh k w hw).elim (h.fresh k w) .inr
  grown hH := (h.grown hH).trans (h'.grown hH)
  bytes := h'.bytes
  cores n hn := (h'.cores n (by rw [h.cores n hn]; exact hn)).trans (h.cores n hn)
  units u hu := by
    obtain rfl | hu := List.mem_cons.1 hu
    · obtain ⟨core, hcore, hat, hwaves⟩ := h.units u (List.mem_cons_self ..)
      obtain ⟨sh, hsh, -⟩ := hat.share
      refine ⟨core, hcore, by rw [h'.cores core (by rw [hsh]; rfl)]; exact hat, fun e he => ?_⟩
      obtain ⟨k, m, hk, hnone, hwave⟩ := hwaves e he
      exact ⟨k, m, hk, hnone, h'.kept _ _ hwave.wave, hwave.start, fun hH => (hwave.after hH).trans (h'.grown hH)⟩
    · obtain ⟨core, hcore, hat, hwaves⟩ := h'.units u hu
      refine ⟨core, hcore, hat, fun e he => ?_⟩
      obtain ⟨k, m, hk, hnone, hwave⟩ := hwaves e he
      refine ⟨k, m, hk, ?_, hwave⟩
      cases hst : waveOf st k with
      | none => rfl
      | some w => exact absurd ((h.kept k w hst).symm.trans hnone) (by simp)

/-- One unit: its core has no other unit of the launch, and room for its waves. -/
theorem loadUnit_loaded {l : Launch} {b : SavedCore} {st : State} {core : Nat} (hcore : core / 32 = die) (hfits : fitsUnit st lid b core = true)
    (hlid : ∀ e ∈ b.waves, e.2.lid = lid) (hdict : ∀ k ∈ b.dict, k.lid = lid)
    (hfrom : H → ∀ e ∈ b.waves, dieNo e.1 = die ∨ ∀ a ∈ (dieOf s die).areas, a.1 ≠ lid) (hload : Loading H die lid s st)
    (hended : launchEnded (loadUnit st lid l b core).1 lid = false) : UnitsLoaded H die lid s [b] st (loadUnit st lid l b core).1 := by
  obtain ⟨base, hbase, hat, heq⟩ := (loadUnit_cases (l := l) (b := b) (core := core) hdict).resolve_left (by rw [hended]; simp)
  rw [heq]
  have hroom : b.waves.length ≤ (freeSlots st core).length := by
    simp only [fitsUnit, Bool.and_eq_true, decide_eq_true_eq] at hfits
    exact hfits.1.1.1.1.1.2
  have halone : Tab.find (coreOf st core).shares lid = none := by
    simp only [fitsUnit, Bool.and_eq_true, Option.isNone_iff_eq_none] at hfits
    exact hfits.1.1.1.1.1.1
  have hslots : ∀ t ∈ freeSlots st core, t < 16 ∧ waveOf st (16 * core + t) = none := fun t ht => by
    simpa [freeSlots] using ht
  have hgrown : Grown die lid st base := .of_areas (fun d => (hbase.areas d).1) (hbase.areas die).2
  have hloadBase : Loading H die lid s base := fun hH => ⟨(hload hH).1.trans hgrown, (hload hH).2.of_bytes hbase.bytes⟩
  have hwaves := loadWaves_loaded hcore b.waves (freeSlots st core) base hroom (List.nodup_range.filter _) (fun t ht => (hslots t ht).1) hlid hfrom
    hloadBase
  have hlast := CoreStep.freshCore core (loadWaves core b.waves (freeSlots st core) base).1 lid
  have hlastGrown : Grown die lid (loadWaves core b.waves (freeSlots st core) base).1 (freshCore (loadWaves core b.waves (freeSlots st core) base).1 core lid) :=
    .of_areas (fun d => (hlast.areas d).1) (hlast.areas die).2
  have hwaveOf : ∀ k, waveOf (freshCore (loadWaves core b.waves (freeSlots st core) base).1 core lid) k =
      waveOf (loadWaves core b.waves (freeSlots st core) base).1 k := fun k => congrArg (Tab.find · k) hlast.waves
  have hbaseWave : ∀ k, waveOf base k = waveOf st k := fun k => congrArg (Tab.find · k) hbase.waves
  refine ⟨fun k w hw => ?_, fun k w hw => ?_, fun hH => (hgrown.trans (hwaves.grown hH)).trans hlastGrown,
    fun hH => (hwaves.bytes hH).of_bytes hlast.bytes, fun n hn => ?_, fun u hu => ?_⟩
  · rw [hwaveOf, hwaves.others k fun t ht heq => ?_, hbaseWave, hw]
    exact absurd (hw.symm.trans (heq ▸ (hslots t ht).2)) (by simp)
  · rw [hwaveOf] at hw
    refine (hwaves.fresh k w hw).imp (hbaseWave k).symm.trans ?_
    rintro ⟨e, mid, rfl⟩
    exact ⟨rfl, rfl, rfl⟩
  · have hne : n ≠ core := by
      rintro rfl
      rw [halone] at hn
      exact absurd hn (by simp)
    rw [hlast.others n hne, coreOf, hwaves.cores]
    exact hbase.others n hne
  · obtain rfl := List.mem_singleton.1 hu
    refine ⟨core, hcore, UnitAt.freshCore (by rw [coreOf, hwaves.cores]; exact hat), fun e he => ?_⟩
    obtain ⟨t, ht, mid, hwave⟩ := hwaves.waves e he
    refine ⟨16 * core + t, mid, ?_, (hslots t ht).2, (hwaveOf _).trans hwave.wave, hwave.start, fun hH => (hwave.after hH).trans hlastGrown⟩
    have := (hslots t ht).1
    omega

theorem unitCore_some {b : SavedCore} {st : State} {core : Nat} (h : unitCore st lid b die = some core) :
    core / 32 = die ∧ fitsUnit st lid b core = true := by
  refine ⟨?_, List.find?_some h⟩
  have hin := List.mem_of_find?_eq_some h
  simp only [List.mem_map, List.mem_range] at hin
  obtain ⟨i, hi, rfl⟩ := hin
  omega

/-- The units of a body are loaded one after another, or the launch has ended. -/
theorem loadUnits_loaded {l : Launch} : ∀ (units : List SavedCore) (st : State) {r : State × List (Nat × Nat)},
    loadUnits lid l die units st = some r → launchEnded r.1 lid = false → (∀ c ∈ units, (∀ e ∈ c.waves, e.2.lid = lid) ∧ ∀ k ∈ c.dict, k.lid = lid) →
    (H → ∀ c ∈ units, ∀ e ∈ c.waves, dieNo e.1 = die ∨ ∀ a ∈ (dieOf s die).areas, a.1 ≠ lid) → Loading H die lid s st →
    UnitsLoaded H die lid s units st r.1
  | [], st, r, h, _, _, _, hload => by
    obtain rfl := Option.some.inj h
    exact .nil hload
  | b :: units, st, r, h, hended, hmine, hfrom, hload => by
    obtain ⟨⟨hlid, hdict⟩, hrest⟩ := List.forall_mem_cons.1 hmine
    unfold loadUnits at h
    split at h
    · exact absurd h (by simp)
    · next core hcore =>
      obtain ⟨hdie, hfits⟩ := unitCore_some hcore
      extract_lets u at h
      by_cases hu : launchEnded u.1 lid = true
      · rw [if_pos hu] at h
        obtain rfl := Option.some.inj h
        exact absurd (hu.symm.trans hended) (by simp)
      · rw [if_neg hu] at h
        obtain ⟨x, hx, rfl⟩ := Option.map_eq_some_iff.1 h
        have hunit : UnitsLoaded H die lid s [b] st u.1 := loadUnit_loaded hdie hfits hlid hdict (fun hH => hfrom hH b (List.mem_cons_self ..)) hload
          (by simpa using hu)
        have hnext : Loading H die lid s u.1 := fun hH => ⟨(hload hH).1.trans (hunit.grown hH), hunit.bytes hH⟩
        exact hunit.cons (loadUnits_loaded (r := x) units u.1 hx hended hrest (fun hH c hc => hfrom hH c (List.mem_cons_of_mem _ hc)) hnext)

end

end Sys2Proof.Machine

/-! PROOF. BODY_RESUME (R278, R279), and bodies that stop, are saved and resume (R45, R275 to R279). -/

namespace Sys2Proof.Machine

/-! ### After the units -/

/-- A step after the units have been loaded: waves, cores and bodies stand, and so do the areas of the die. -/
structure LateStep (lid die : Nat) (s t : State) : Prop where
  waves : t.waves = s.waves
  cores : t.cores = s.cores
  bodies : t.bodies = s.bodies
  areas : (dieOf t die).areas = (dieOf s die).areas
  launch : (launchOf s lid).isSome = true → (launchOf t lid).isSome = true

theorem LateStep.refl (lid die : Nat) (s : State) : LateStep lid die s s := ⟨rfl, rfl, rfl, rfl, id⟩

theorem LateStep.trans {lid die : Nat} {s t u : State} (h : LateStep lid die s t) (h' : LateStep lid die t u) : LateStep lid die s u :=
  ⟨h'.waves.trans h.waves, h'.cores.trans h.cores, h'.bodies.trans h.bodies, h'.areas.trans h.areas, fun hl => h'.launch (h.launch hl)⟩

theorem LateStep.foldl {α : Type} {lid die : Nat} {f : State → α → State} (hf : ∀ s x, LateStep lid die s (f s x)) :
    ∀ (l : List α) (s : State), LateStep lid die s (l.foldl f s)
  | [], s => .refl lid die s
  | x :: l, s => (hf s x).trans (LateStep.foldl hf l (f s x))

theorem LateStep.modDie {lid die : Nat} (s : State) (d : Nat) (f : Die → Die) (hf : d = die → (f (dieOf s d)).areas = (dieOf s d).areas) :
    LateStep lid die s (modDie s d f) := by
  refine ⟨rfl, rfl, rfl, ?_, id⟩
  rw [dieOf_modDie]
  split
  · next hd => exact (hf hd.symm).trans (by rw [hd])
  · rfl

theorem LateStep.giveCoreArea (lid die : Nat) (s : State) (n core : Nat) : LateStep lid die s (giveCoreArea s n core) := by
  unfold Machine.giveCoreArea
  extract_lets d x
  split
  · exact .refl ..
  · split
    · refine ⟨rfl, rfl, rfl, ?_, id⟩
      rw [dieOf_setDie]
      split
      · next hd =>
        subst hd
        rfl
      · rfl
    · exact .refl ..

theorem LateStep.moveCoreAreas (lid die : Nat) (s : State) (n old new : Nat) (m : List (Nat × Nat)) :
    LateStep lid die s (moveCoreAreas s n old new m) := by
  unfold Machine.moveCoreAreas
  split
  · exact .modDie _ _ _ fun _ => rfl
  · exact .foldl (fun _ _ => .giveCoreArea ..) m s

theorem LateStep.modLaunch (lid die : Nat) (s : State) (n : Nat) (f : Launch → Launch) : LateStep lid die s (modLaunch s n f) := by
  unfold Machine.modLaunch
  split
  · refine ⟨rfl, rfl, rfl, rfl, fun hl => ?_⟩
    rw [launchOf_setLaunch]
    split
    · rfl
    · exact hl
  · exact .refl ..

theorem LateStep.putConvoys (lid die n : Nat) (m : List (Nat × Nat)) : ∀ (cs : List (Nat × Convoy)) (s : State),
    LateStep lid die s (putConvoys n m cs s)
  | [], s => .refl ..
  | (old, c) :: cs, s => by
    rw [Machine.putConvoys]
    refine LateStep.trans ?_ (LateStep.putConvoys lid die n m cs _)
    exact LateStep.trans (t := { s with convoys := Tab.put s.convoys (newSlot m old) c }) ⟨rfl, rfl, rfl, rfl, id⟩ (.modLaunch ..)

theorem LateStep.modParty (lid die : Nat) (s : State) (n p : Nat) (f : Party → Party) : LateStep lid die s (modParty s n p f) := by
  unfold Machine.modParty
  split
  · exact ⟨rfl, rfl, rfl, rfl, id⟩
  · exact .refl ..

theorem LateStep.resumeStreams (lid die : Nat) (s : State) (n : Nat) : LateStep lid die s (resumeStreams s n) := by
  refine .foldl (fun a party => ?_) _ s
  split
  · split
    · exact .modParty ..
    · exact .refl ..
  · exact .refl ..

theorem LateStep.reparty (lid die : Nat) (s : State) (n : Nat) : LateStep lid die s (reparty s n) := .foldl (fun _ _ => .modParty ..) _ s

/-- A wave of the body under its convoys' new entries. -/
def renamed (lid : Nat) (cm : List (Nat × Nat)) (w : Wave) : Wave := if w.lid = lid then moveWait cm w else w

/-- What is done to the part once a body's units have been loaded. -/
structure UnitsJoined (lid die : Nat) (s t : State) : Prop where
  launch : ∃ m, launchOf t lid = some m ∧ m.die = die ∧ m.saved = false ∧ m.stopping = false
  bodies : Tab.find t.bodies lid = none
  waves : ∃ cm, ∀ k, waveOf t k = (waveOf s k).map (renamed lid cm)
  cores : ∀ n, ∃ tr, coreOf t n = { coreOf s n with trans := tr }
  areas : (dieOf t die).areas = (dieOf s die).areas

theorem coreOf_retargets (n : Nat) : ∀ (l : List Nat) (s : State), ∃ tr, coreOf (l.foldl retarget s) n = { coreOf s n with trans := tr }
  | [], s => ⟨_, rfl⟩
  | c :: l, s => by
    obtain ⟨tr, h⟩ := coreOf_retarget s c n
    obtain ⟨tr', h'⟩ := coreOf_retargets n l (retarget s c)
    exact ⟨tr', by rw [List.foldl_cons, h', h]⟩

theorem retarget_rest (s : State) (c : Nat) : ∃ cores, retarget s c = { s with cores := cores } := by
  unfold retarget
  extract_lets x t
  split
  · exact ⟨_, rfl⟩
  · split <;> exact ⟨_, rfl⟩

theorem retargets_rest : ∀ (l : List Nat) (s : State), ∃ cores, l.foldl retarget s = { s with cores := cores }
  | [], s => ⟨_, rfl⟩
  | c :: l, s => by
    obtain ⟨_, h⟩ := retarget_rest s c
    obtain ⟨cores, h'⟩ := retargets_rest l (retarget s c)
    exact ⟨cores, by rw [List.foldl_cons, h', h]⟩

theorem UnitsJoined.retargets {lid die : Nat} {s t : State} (h : UnitsJoined lid die s t) (l : List Nat) :
    UnitsJoined lid die s (l.foldl retarget t) := by
  obtain ⟨cores, hrest⟩ := retargets_rest l t
  refine ⟨?_, ?_, ?_, fun n => ?_, ?_⟩
  · rw [hrest]
    exact h.launch
  · rw [hrest]
    exact h.bodies
  · rw [hrest]
    exact h.waves
  · obtain ⟨tr, ht⟩ := coreOf_retargets n l t
    obtain ⟨tr', ht'⟩ := h.cores n
    exact ⟨tr, by rw [ht, ht']⟩
  · rw [hrest]
    exact h.areas

theorem launchOf_isSome_of_not_ended {s : State} {lid : Nat} (h : launchEnded s lid = false) : (launchOf s lid).isSome = true := by
  unfold launchEnded at h
  split at h
  · next hl => rw [hl]; rfl
  · exact absurd h (by simp)

/-- A body that resumes: its units have been loaded, and then the rest of the part knows it by its new slots. -/
theorem resumeBody_joined {s t : State} {lid die : Nat} {l : Launch} {b : Body} (h : resumeBody s lid l b die = some t)
    (hended : launchEnded t lid = false) : ∃ r, loadUnits lid { l with die := die } die b.cores s = some r ∧ launchEnded r.1 lid = false ∧
      UnitsJoined lid die r.1 t := by
  unfold resumeBody at h
  split at h
  · exact absurd h (by simp)
  · split at h
    · exact absurd h (by simp)
    · next r hr =>
      split at h
      · next hend =>
        obtain rfl := Option.some.inj h
        exact absurd (hend.symm.trans hended) (by simp)
      · next hend =>
        extract_lets cm s1 s2 s3 s4 at h
        obtain rfl := Option.some.inj h
        have hend' : launchEnded r.1 lid = false := by simpa using hend
        refine ⟨r, hr, hend', .retargets ?_ _⟩
        have hearly : LateStep lid die r.1 (putConvoys lid cm b.convoys
            (moveCoreAreas r.1 lid b.die die (r.2.map fun e => (coreNo e.1, coreNo e.2)))) := (LateStep.moveCoreAreas ..).trans (.putConvoys ..)
        have hdie : LateStep lid die s1 s2 := by
          unfold s2
          split
          · exact .refl ..
          · next hne => exact .modDie _ _ _ fun heq => absurd heq.symm hne
        have hlate : LateStep lid die { s2 with bodies := Tab.del s2.bodies lid } s3 := (LateStep.reparty ..).trans (.resumeStreams ..)
        have hlast : LateStep lid die s3 s4 := .modLaunch ..
        have hlaunch : (launchOf s3 lid).isSome = true :=
          hlate.launch (hdie.launch (hearly.launch (launchOf_isSome_of_not_ended hend')))
        obtain ⟨m, hm⟩ := Option.isSome_iff_exists.1 hlaunch
        have hwaves : s1.waves = r.1.waves.map fun e => (e.1, renamed lid cm e.2) := congrArg (List.map _) hearly.waves
        have hcores : s1.cores = r.1.cores := hearly.cores
        refine ⟨⟨_, launchOf_modLaunch _ hm, rfl, rfl, rfl⟩, ?_, ⟨cm, fun k => ?_⟩, fun n => ⟨(coreOf r.1 n).trans, ?_⟩, ?_⟩
        · rw [hlast.bodies, hlate.bodies]
          exact (Tab.find_del ..).trans (if_pos rfl)
        · rw [waveOf, hlast.waves, hlate.waves]
          change Tab.find s2.waves k = _
          rw [hdie.waves, hwaves]
          exact Tab.find_map r.1.waves (fun _ => renamed lid cm) k
        · rw [coreOf, hlast.cores, hlate.cores]
          change Tab.findD s2.cores n Core.init = _
          rw [hdie.cores, hcores]
          rfl
        · rw [hlast.areas, hlate.areas]
          exact hdie.areas.trans hearly.areas

/-! ### BODY_RESUME -/

theorem resumedWave_keeps (s : State) (old k : Nat) (w : Wave) (cm : List (Nat × Nat)) :
    let v := moveWait cm (resumedWave s old k w)
    v.lid = w.lid ∧ v.party = w.party ∧ v.num = w.num ∧ v.st = (if w.st = .retired ∨ w.st = .carved then w.st else w.back) ∧
      v.wait.isSome = w.wait.isSome ∧ ∀ live, w.stopping = some live → v.stopping = none ∧ v.sup = false ∧ v.pc = w.pc := by
  have h := reloaded_keeps s old k w
  refine ⟨h.lid, h.party, h.num, ?_, ?_, h.stopped⟩
  · change (if (reloaded s old k w).st = .retired ∨ (reloaded s old k w).st = .carved then (reloaded s old k w).st else (reloaded s old k w).back) = _
    rw [h.st, h.back]
  · change (((reloaded s old k w).wait.map _).map _).isSome = _
    rw [h.wait, Option.isSome_map, Option.isSome_map]

theorem RegsRead.resumed {bytes : Nat → Nat → List Byte} {live : DWord} {s : State} {old k : Nat} {w : Wave} (cm : List (Nat × Nat))
    (h : RegsRead bytes live (reloaded s old k w)) : RegsRead bytes live (moveWait cm (resumedWave s old k w)) :=
  ⟨h.word, h.sregs, h.kregs, h.aregs, h.bregs⟩

/-- The registers of a resumed wave are those of the area in which it was saved. -/
theorem resumedWave_regs {H : Prop} (hH : H) {die lid k : Nat} {s fin t : State} {e : Nat × Wave} {mid : State} (hlid : e.2.lid = lid)
    (hdie : k / 512 = die) (hwave : WaveLoaded H die lid s fin e k mid) (hareas : (dieOf t die).areas = (dieOf fin die).areas)
    (cm : List (Nat × Nat)) {live : DWord} (hlive : e.2.stopping = some live) {a : Nat} (ha : waveArea s e.1 e.2 = some a)
    (hfrom : dieNo e.1 = die ∨ (∀ x ∈ (dieOf s die).areas, x.1 ≠ lid) ∧ a < Config.nearBase (dieNo e.1 + 1) - 32768)
    (hsome : (waveArea t k (moveWait cm (resumedWave mid e.1 k e.2))).isSome = true) :
    RegsRead (fun o n => devBytes s (a + o) n) live (moveWait cm (resumedWave mid e.1 k e.2)) := by
  obtain ⟨hkeptLid, hkeptParty, hkeptNum, -⟩ := resumedWave_keeps mid e.1 k e.2 cm
  obtain ⟨hgrown, hbytes⟩ := hwave.start hH
  have hfin : (waveArea fin k e.2).isSome = true := by
    rwa [waveArea_of_areas (s := fin) (w := e.2) (wid := k) rfl (by rw [show dieNo k = die from hdie]; exact hareas) hkeptLid hkeptParty hkeptNum] at hsome
  obtain ⟨b, hb⟩ := Option.isSome_iff_exists.1 (areaState_some hdie hgrown (hwave.after hH) (by rw [ha]; rfl) hfin)
  refine ((reloaded_regs hlive hb).congr fun o n hn => ?_).resumed cm
  exact areaState_reads hlid hdie hgrown hbytes ha hfrom hb hn

end Sys2Proof.Machine

/-! PROOF. Bodies that stop, are saved and resume (R45, R63, R71, R275 to R279). -/

namespace Sys2Proof.Machine

/-! ### A body that has resumed -/

theorem execBodyResume_due {s r : State} {lid : Nat} {die : BitVec 3} {l : Launch} {b : Body} (hl : launchOf s lid = some l)
    (hb : Tab.find s.bodies lid = some b) (hst : l.st = .accepted) (hon : (dieOf s die.toNat).off = false) (hckpt : s.sec.ckpt = none)
    (hgranted : (dieOf s die.toNat).granted = l.vf ∨ b.byCkpt = true) (hdie : die.toNat = b.die ∨ mayMigrate l b = true)
    (hr : resumeBody s lid l b die.toNat = some r) : exec (.bodyResume lid die) s = .next (bump r) := by
  have hgo : (l.st == .accepted && !(dieOf s die.toNat).off && s.sec.ckpt.isNone && ((dieOf s die.toNat).granted == l.vf || b.byCkpt) &&
      (die.toNat == b.die || mayMigrate l b)) = true := by
    simpa [hst, hon, hckpt] using And.intro hgranted hdie
  change execBodyResume lid die s = _
  simp only [execBodyResume, hl, hb, hgo, if_true, hr]
  rfl

/-- Every wave of a body comes back to the die on which it stopped, or to one on which its launch has no area. -/
def AreasFollow (s : State) (lid die : Nat) (b : Body) : Prop :=
  ∀ c ∈ b.cores, ∀ y ∈ c.waves, dieNo y.1 = die ∨ ∀ a ∈ (dieOf s die).areas, a.1 ≠ lid

/-- A body that has resumed on a die: its units were loaded, and the rest of the part was told. -/
structure Resumed (s : State) (lid die : Nat) (b : Body) (fin r : State) : Prop where
  loaded : UnitsLoaded (AreasFollow s lid die b) die lid s b.cores s fin
  joined : UnitsJoined lid die fin r

theorem resumeBody_resumed {s r : State} {lid die : Nat} {l : Launch} {b : Body} (hr : resumeBody s lid l b die = some r)
    (hmine : ∀ c ∈ b.cores, (∀ e ∈ c.waves, e.2.lid = lid) ∧ ∀ k ∈ c.dict, k.lid = lid) (hended : launchEnded r lid = false) :
    ∃ fin, Resumed s lid die b fin r := by
  obtain ⟨x, hx, hgoes, hjoined⟩ := resumeBody_joined hr hended
  have hstart : Loading (AreasFollow s lid die b) die lid s s := fun _ => ⟨.refl .., ⟨fun _ _ => rfl⟩⟩
  exact ⟨x.1, loadUnits_loaded b.cores s hx hgoes hmine (fun h => h) hstart, hjoined⟩

section
variable {s fin r : State} {lid die : Nat} {b : Body} (h : Resumed s lid die b fin r) (hnone : ∀ k w, waveOf s k = some w → w.lid ≠ lid)
include h hnone

/-- Other launches' waves stay as they are. -/
theorem Resumed.others {k : Nat} {w : Wave} (hw : waveOf s k = some w) : waveOf r k = some w := by
  obtain ⟨cm, hmoved⟩ := h.joined.waves
  rw [hmoved, h.loaded.kept k w hw]
  exact congrArg some (if_neg (hnone k w hw))

/-- No request of a body that has resumed is outstanding, and it has fetched nothing. -/
theorem Resumed.fresh {k : Nat} {w : Wave} (hw : waveOf r k = some w) (hlid : w.lid = lid) : w.preempt = false ∧ w.tok = none ∧ w.age = 0 := by
  obtain ⟨cm, hmoved⟩ := h.joined.waves
  rw [hmoved] at hw
  obtain ⟨v, hv, rfl⟩ := Option.map_eq_some_iff.1 hw
  have hkeeps : (renamed lid cm v).lid = v.lid ∧ (Fresh v → Fresh (renamed lid cm v)) := by
    unfold renamed
    split
    · exact ⟨rfl, id⟩
    · exact ⟨rfl, id⟩
  exact hkeeps.2 ((h.loaded.fresh k v hv).resolve_left fun hs => hnone k v hs (hkeeps.1.symm.trans hlid))

end

/-- The registers read from an area at `a`, by the offsets of R276. -/
theorem RegsRead.area {s : State} {a : Nat} {live : DWord} {v : Wave} (h : RegsRead (fun o n => devBytes s (a + o) n) live v) :
    let word := fun (o : Nat) => BitVec.ofNat 32 (leNat (devBytes s (a + o) 4))
    v.live = word 0x340 ∧
    (∀ n, n < 64 → Tab.find v.s n = some (if live.getLsbD (16 + n / 8) = true then
      { val := BitVec.ofNat 64 (leNat (devBytes s (a + 0x100 + 8 * n) 8)), und := false } else SReg.undef)) ∧
    (∀ n, 1 ≤ n → n < 16 → Tab.find v.k n = some (if live.getLsbD (24 + n) = true then { val := word (0x340 + 4 * n), und := 0 }
      else { val := 0, und := BitVec.allOnes 32 })) ∧
    (∀ n, n < 64 → Tab.find v.a n = if live.getLsbD (n / 8) = true then
      some { val := Lanes.of fun i => word (0x1000 + 128 * n + 4 * i.val), und := 0 } else none) ∧
    ∀ n, n < 64 → Tab.find v.b n = if live.getLsbD (8 + n / 8) = true then
      some { val := Lanes.of fun i => word (0x3000 + 128 * n + 4 * i.val), und := 0 } else none := by
  refine ⟨h.word, fun n hn => ?_, h.kregs, h.aregs, h.bregs⟩
  rw [Nat.add_assoc]
  exact h.sregs n hn

/-- Every wave of a unit that has resumed stands in a slot that was free. -/
theorem Resumed.wave {s fin r : State} {lid die core k : Nat} {b : Body} {e : Nat × Wave} {mid : State} (h : Resumed s lid die b fin r)
    (hcore : core / 32 = die) (hk : k / 16 = core) (hlid : e.2.lid = lid) (hwave : WaveLoaded (AreasFollow s lid die b) die lid s fin e k mid) :
    ∃ v, waveOf r k = some v ∧ v.lid = lid ∧ v.party = e.2.party ∧ v.num = e.2.num ∧
      v.st = (if e.2.st = .retired ∨ e.2.st = .carved then e.2.st else e.2.back) ∧ v.wait.isSome = e.2.wait.isSome ∧
      ∀ live, e.2.stopping = some live → v.stopping = none ∧ v.sup = false ∧ v.pc = e.2.pc ∧
        (AreasFollow s lid die b → ∀ a, waveArea s e.1 e.2 = some a →
          (dieNo e.1 = die ∨ (∀ x ∈ (dieOf s die).areas, x.1 ≠ lid) ∧ a < Config.nearBase (dieNo e.1 + 1) - 32768) →
          (waveArea r k v).isSome = true → RegsRead (fun o n => devBytes s (a + o) n) live v) := by
  obtain ⟨cm, hmoved⟩ := h.joined.waves
  obtain ⟨hlid', hparty, hnum, hst, hwait, hstopped⟩ := resumedWave_keeps mid e.1 k e.2 cm
  have hmine : (resumedWave mid e.1 k e.2).lid = lid := hlid'.trans hlid
  refine ⟨moveWait cm (resumedWave mid e.1 k e.2), ?_, hmine, hparty, hnum, hst, hwait, fun live hlive => ?_⟩
  · rw [hmoved, hwave.wave]
    exact congrArg some (if_pos hmine)
  · obtain ⟨hnot, hsup, hpc⟩ := hstopped live hlive
    have hdie : k / 512 = die := by omega
    exact ⟨hnot, hsup, hpc, fun hfollow a ha hfrom hsome => resumedWave_regs hfollow hlid hdie hwave h.joined.areas cm hlive ha hfrom hsome⟩

/-- Every unit of a body that has resumed has a core of the die. -/
theorem Resumed.unit {s fin r : State} {lid die : Nat} {b : Body} (h : Resumed s lid die b fin r) {c : SavedCore} (hc : c ∈ b.cores) :
    ∃ core, core / 32 = die ∧ UnitAt lid c (coreOf r core) ∧
      ∀ e ∈ c.waves, ∃ k mid, k / 16 = core ∧ waveOf s k = none ∧ WaveLoaded (AreasFollow s lid die b) die lid s fin e k mid := by
  obtain ⟨core, hcore, hat, hwaves⟩ := h.loaded.units c hc
  obtain ⟨tr, hsame⟩ := h.joined.cores core
  refine ⟨core, hcore, ?_, hwaves⟩
  rw [hsame]
  exact ⟨hat.share, hat.tile⟩

/-! ### The obligation -/

/-- Settles O52: what BODY_SAVE writes is followed through the areas of the body's waves and cores, none of which reaches into another, and what
BODY_RESUME reads is followed through the loading of the units, in which an area that is in use keeps its bytes. -/
theorem bodiesStopAndResume : Obligations.BodiesStopAndResume := by
  unfold Obligations.BodiesStopAndResume
  intro s htab
  refine ⟨fun wid w => wavesStop s wid w, fun lid l hl => ⟨fun hstop hres hstopped hdrained hcan => ?_, execBodySave_not_due hl⟩, ?_⟩
  · obtain ⟨hbody, hold, hconvoys, hlaunch, hgone, hothers, hnoConvoy, hshares⟩ := saveBody_leaves htab hl s.sec.ckpt.isSome
    refine ⟨_, savedBody s lid l s.sec.ckpt.isSome, l.leftSaved, execBodySave_due hl hstop hres hstopped hdrained hcan, hbody, rfl, rfl, hold, hconvoys,
      hlaunch, rfl, rfl, rfl, hgone, hothers, hnoConvoy, hshares, fun u hu => ?_, fun hwaves hcores hacross hfit => ?_⟩
    · obtain ⟨c, -, hunit, heq⟩ := mem_savedUnits htab hu
      have hc : c = u.old := by rw [hunit]; rfl
      exact ⟨hc ▸ heq, fun k w => savedUnit_waves htab hu⟩
    · obtain ⟨hareas, hcoreAreas⟩ := saveBody_areas htab hl s.sec.ckpt.isSome hwaves hcores hacross hfit
      exact ⟨fun k w a hw hlid hst ha => areaReads_areaWave (hareas k w a hw hlid hst ha),
        fun c a hc ha => (hcoreAreas c a hc ha).reads (hfit c hc).2⟩
  · intro lid die l b r hl hb hst hon hckpt hgranted hdie hr hnone hmine
    refine ⟨execBodyResume_due hl hb hst hon hckpt hgranted hdie hr, fun hended => ?_⟩
    obtain ⟨fin, hresumed⟩ := resumeBody_resumed hr hmine hended
    obtain ⟨m, hm, hmdie, hsaved, hstopping⟩ := hresumed.joined.launch
    refine ⟨m, hm, hmdie, hsaved, hstopping, hresumed.joined.bodies, fun k w => hresumed.others hnone, fun k w => hresumed.fresh hnone, fun c hc => ?_⟩
    obtain ⟨core, hcore, ⟨⟨sh, hsh, hunits, hpad⟩, htile⟩, hwaves⟩ := hresumed.unit hc
    refine ⟨core, _, sh, hcore, rfl, hsh, hunits, hpad, htile, fun e he => ?_⟩
    obtain ⟨k, mid, hk, hfree, hwave⟩ := hwaves e he
    obtain ⟨v, hv, hlid, hparty, hnum, hvst, hwait, hstop⟩ := hresumed.wave hcore hk ((hmine c hc).1 e he) hwave
    refine ⟨k, v, hk, hfree, hv, hlid, hparty, hnum, hvst, hwait, fun live hlive => ?_⟩
    obtain ⟨hnot, hsup, hpc, hregs⟩ := hstop live hlive
    refine ⟨hnot, hsup, hpc, fun _ hfrom a ha hsome => (hregs ?_ a ha ?_ hsome).area⟩
    · exact fun d hd y hy => (hfrom d hd y hy).imp_right And.left
    · exact (hfrom c hc e he).imp_right fun ⟨hareas, hbound⟩ => ⟨hareas, hbound a ha⟩

end Sys2Proof.Machine

/-! PROOF. Encodings: every slot operation comes back from its word (R57, R75 to R95), a token from its bytes (R59, R81). -/

namespace Sys2Proof.Laws.RoundTrip

/-- Every constructor's operation comes back from its slot word, by that constructor's own round trip. -/
theorem every : ∀ i : Instr, Statement i
  | .sadd f => sadd f | .ssub f => ssub f | .smul f => smul f | .smulh f => smulh f | .sand f => sand f | .sor f => sor f | .sxor f => sxor f
  | .sshl f => sshl f | .sshr f => sshr f | .ssar f => ssar f | .smin f => smin f | .smax f => smax f | .sset f => sset f | .ssel f => ssel f
  | .srd f => srd f | .saddI f => saddI f | .ssubI f => ssubI f | .smulI f => smulI f | .sandI f => sandI f | .sorI f => sorI f | .sxorI f => sxorI f
  | .sshlI f => sshlI f | .sshrI f => sshrI f | .ssarI f => ssarI f | .sminI f => sminI f | .smaxI f => smaxI f | .ssetI f => ssetI f
  | .sli f => sli f | .swr f => swr f | .br disp => br disp | .brc f => brc f | .brx a => brx a | .call f => call f | .ret a => ret a
  | .loop f => loop f | .exit k => exit k | .yield => yield | .trap code => trap code | .bkpt code => bkpt code | .svc code => svc code
  | .eret => eret | .bar f => bar f | .fence f => fence f | .phase f => phase f | .mwait f => mwait f | .gwait f => gwait f | .gopen f => gopen f
  | .felrd f => felrd f | .replay f => replay f | .invpg f => invpg f | .vadd f => vadd f | .vsub f => vsub f | .vmul f => vmul f | .vfma f => vfma f
  | .vmin f => vmin f | .vmax f => vmax f | .vcmp f => vcmp f | .vsel f => vsel f | .vand f => vand f | .vor f => vor f | .vxor f => vxor f
  | .vshl f => vshl f | .vshr f => vshr f | .vsar f => vsar f | .vmov f => vmov f | .vpop f => vpop f | .vclz f => vclz f | .vcvt f => vcvt f
  | .vmulh f => vmulh f | .vrnd f => vrnd f | .vidx f => vidx f | .vaddI f => vaddI f | .vsubI f => vsubI f | .vmulI f => vmulI f
  | .vfmaI f => vfmaI f | .vminI f => vminI f | .vmaxI f => vmaxI f | .vcmpI f => vcmpI f | .vselI f => vselI f | .vandI f => vandI f
  | .vorI f => vorI f | .vxorI f => vxorI f | .vshlI f => vshlI f | .vshrI f => vshrI f | .vsarI f => vsarI f | .vmovI f => vmovI f
  | .fdiv f => fdiv f | .fsqrt f => fsqrt f | .frcp f => frcp f | .frsq f => frsq f | .fexp2 f => fexp2 f | .flog2 f => flog2 f | .ftanh f => ftanh f
  | .kand f => kand f | .kor f => kor f | .kxor f => kxor f | .kandn f => kandn f | .kset k => kset k | .ksetSreg f => ksetSreg f | .kpop f => kpop f
  | .kfirst f => kfirst f | .lmov f => lmov f | .lshuf f => lshuf f | .lshufPat f => lshufPat f | .lbcast f => lbcast f | .lred f => lred f
  | .lscan f => lscan f | .lget f => lget f | .lput f => lput f | .mld f => mld f | .mldStride f => mldStride f | .mst f => mst f
  | .mstStride f => mstStride f | .mldl f => mldl f | .mldlStride f => mldlStride f | .mstl f => mstl f | .mstlStride f => mstlStride f
  | .mldu f => mldu f | .mstu f => mstu f | .matom f => matom f | .mcas f => mcas f | .mwatch f => mwatch f | .mpref f => mpref f
  | .mflush f => mflush f | .mcopy f => mcopy f | .mgather f => mgather f | .mcast f => mcast f | .mspush f => mspush f | .mspop f => mspop f
  | .msfree f => msfree f | .tclaim f => tclaim f | .trel f => trel f | .tload f => tload f | .tstore f => tstore f | .tzero f => tzero f
  | .tmma f => tmma f | .tbmm f => tbmm f | .tscac f => tscac f | .tquant f => tquant f | .tcvt f => tcvt f | .tmovv f => tmovv f
  | .tstat f => tstat f | .tmmao f => tmmao f | .tldo f => tldo f | .emptyBundle => emptyBundle | .deviceReset => deviceReset
  | .functionLevelReset v => functionLevelReset v | .stageDieReset die => stageDieReset die | .firmwarePush len => firmwarePush len
  | .registerImageKey => registerImageKey | .newDebugChallenge => newDebugChallenge | .debugUnlock => debugUnlock | .checkpoint => checkpoint
  | .restoreFromCheckpoint => restoreFromCheckpoint | .decommission => decommission | .unknownCommand op => unknownCommand op
  | .spdmMeasurements nonce => spdmMeasurements nonce | .getCertificate => getCertificate | .hostMemAccess a => hostMemAccess a
  | .biasTableWrite n val => biasTableWrite n val | .queueEnable q val => queueEnable q val | .queueDisable q => queueDisable q
  | .qtailDoorbell q tail => qtailDoorbell q tail | .queueReset q => queueReset q | .handlerTableEnable v val => handlerTableEnable v val
  | .debugHaltRequest val => debugHaltRequest val | .debugResume val => debugResume val | .sliceLimitClear die mask => sliceLimitClear die mask
  | .fwinWrite die val => fwinWrite die val | .sensorRevalidate die val => sensorRevalidate die val | .clbudWrite die val => clbudWrite die val
  | .tollBucketEnable die v far val => tollBucketEnable die v far val | .oppwinWrite die v lo hi => oppwinWrite die v lo hi
  | .registerWrite w => registerWrite w | .launch q => launch q | .route q => route q | .mark q => mark q | .waitmark q => waitmark q
  | .waitmarkPoll q => waitmarkPoll q | .gatecfg q => gatecfg q | .timestamp q => timestamp q | .energy q => energy q | .hostcopy q => hostcopy q
  | .nopkt q => nopkt q | .gateRaise lid => gateRaise lid | .partyPlace lid => partyPlace lid | .waveRelease wid => waveRelease wid
  | .tokenFetch wid => tokenFetch wid | .ostlerRefill core => ostlerRefill core | .exposedResultLand wid => exposedResultLand wid
  | .loadReturn id => loadReturn id | .pageWalk id va => pageWalk id va | .storeTranslate id => storeTranslate id | .storeCommit id => storeCommit id
  | .publicationComplete core => publicationComplete core | .releaseApply id => releaseApply id | .convoyPhaseComplete cv => convoyPhaseComplete cv
  | .milestoneAdvance party ctx => milestoneAdvance party ctx | .gateWaitWake wid => gateWaitWake wid | .mwatchWake wid => mwatchWake wid
  | .mwatchTimeout wid => mwatchTimeout wid | .handlerEntry wid => handlerEntry wid | .copyComplete id => copyComplete id
  | .mcastLanding id pos => mcastLanding id pos | .streamPushComplete ep => streamPushComplete ep | .mspopAcquire wid => mspopAcquire wid
  | .overflowLodging ep => overflowLodging ep | .cyclicWait route => cyclicWait route | .tollRefill die v => tollRefill die v
  | .tileFillComplete core id => tileFillComplete core id | .tileDrainComplete core id => tileDrainComplete core id
  | .tileOpRetire core => tileOpRetire core | .preemptRequest lid => preemptRequest lid | .safePointStop wid => safePointStop wid
  | .bodySave lid => bodySave lid | .bodyResume lid die => bodyResume lid die | .watchdogExpiry wid => watchdogExpiry wid
  | .sliceEnd die => sliceEnd die | .waveHalt wid => waveHalt wid | .waveRetire wid => waveRetire wid | .launchComplete lid => launchComplete lid
  | .yieldMarkExpiry wid => yieldMarkExpiry wid | .powerExempt wid => powerExempt wid | .oppPhaseEnd core => oppPhaseEnd core
  | .oppTransitionEnd core => oppTransitionEnd core | .allowStep core => allowStep core | .rampStep core => rampStep core
  | .arrayFillDown core => arrayFillDown core | .capMeasurement pwr => capMeasurement pwr | .droopAlarm cluster => droopAlarm cluster
  | .droopStretchEnd cluster => droopStretchEnd cluster | .droopHalvingEnd cluster => droopHalvingEnd cluster
  | .sliceRailLoop core slice => sliceRailLoop core slice | .sensorSample x => sensorSample x | .counterSample => counterSample
  | .eccErrorNoConsumer loc => eccErrorNoConsumer loc | .allowanceGain cluster => allowanceGain cluster | .l1DirtyEviction id => l1DirtyEviction id
  | .ideKmKeySet key => ideKmKeySet key

/-- Settles O2: constructor by constructor. -/
theorem decodeEncodeRoundTrip : Obligations.DecodeEncodeRoundTrip := every

end Sys2Proof.Laws.RoundTrip

namespace Sys2Proof.Machine

/-! ### Tokens (R59) -/

/-- A token of one byte (R59). -/
theorem decTok_byte {b : Byte} (rest : List Byte) (h : b.toNat < 0x80) : decTok (b :: rest) = .ok b.toNat 1 .plain := by
  simp [decTok, tokLen, h]

/-- A token of two bytes: the first holds the high bits of its index. -/
theorem decTok_pair {idx : Nat} (rest : List Byte) (h : idx < 16384) :
    decTok (BitVec.ofNat 8 (0x80 + idx / 256) :: BitVec.ofNat 8 idx :: rest) = .ok idx 2 .plain := by
  have hfirst : (BitVec.ofNat 8 (0x80 + idx / 256)).toNat = 0x80 + idx / 256 := by rw [BitVec.toNat_ofNat]; omega
  have hrange : ¬ 0x80 + idx / 256 < 0x80 ∧ 0x80 + idx / 256 < 0xC0 := by omega
  have hidx : (0x80 + idx / 256) % 64 * 256 + idx % 256 = idx := by omega
  simp [decTok, tokLen, hfirst, hrange, leNat, hidx]

/-- A token with a 4-byte immediate, which is delivered sign-extended (R59, R81). -/
theorem decTok_narrow {idx : Nat} {imm : List Byte} (rest : List Byte) (h : idx < 4096) (himm : imm.length = 4) :
    decTok (BitVec.ofNat 8 (0xC0 + idx / 256) :: BitVec.ofNat 8 idx :: (imm ++ rest)) =
      .ok idx 6 (.imm false ((BitVec.ofNat 32 (leNat imm)).signExtend 64)) := by
  have hfirst : (BitVec.ofNat 8 (0xC0 + idx / 256)).toNat = 0xC0 + idx / 256 := by rw [BitVec.toNat_ofNat]; omega
  have hrange : ¬ 0xC0 + idx / 256 < 0x80 ∧ ¬ 0xC0 + idx / 256 < 0xC0 ∧ 0xC0 + idx / 256 < 0xD0 ∧ 0xC0 + idx / 256 < 0xE0 := by omega
  have hkind : (0xC0 + idx / 256) / 16 % 2 = 0 := by omega
  have hidx : (0xC0 + idx / 256) % 16 * 256 + idx % 256 = idx := by omega
  have hlong : ¬ 4 + rest.length + 1 + 1 < 6 := by omega
  simp [decTok, tokLen, hfirst, hrange, hkind, leNat, hidx, himm, hlong, List.take_append]

/-- A token with an 8-byte immediate. -/
theorem decTok_wide {idx : Nat} {imm : List Byte} (rest : List Byte) (h : idx < 4096) (himm : imm.length = 8) :
    decTok (BitVec.ofNat 8 (0xD0 + idx / 256) :: BitVec.ofNat 8 idx :: (imm ++ rest)) = .ok idx 10 (.imm true (BitVec.ofNat 64 (leNat imm))) := by
  have hfirst : (BitVec.ofNat 8 (0xD0 + idx / 256)).toNat = 0xD0 + idx / 256 := by rw [BitVec.toNat_ofNat]; omega
  have hrange : ¬ 0xD0 + idx / 256 < 0x80 ∧ ¬ 0xD0 + idx / 256 < 0xC0 ∧ ¬ 0xD0 + idx / 256 < 0xD0 ∧ 0xD0 + idx / 256 < 0xE0 := by omega
  have hkind : (0xD0 + idx / 256) / 16 % 2 = 1 := by omega
  have hidx : (0xD0 + idx / 256) % 16 * 256 + idx % 256 = idx := by omega
  have hlong : ¬ 8 + rest.length + 1 + 1 < 10 := by omega
  simp [decTok, tokLen, hfirst, hrange, hkind, leNat, hidx, himm, hlong, List.take_append]

/-- The low 4 bytes of a doubleword are those of its low word. -/
theorem leBytes_four_truncate (v : DWord) : leBytes 4 v.toNat = leBytes 4 (v.truncate 32).toNat := by
  have hmod : ∀ n : Nat, leBytes 4 n = leBytes 4 (n % 2 ^ 32) := fun n => by
    simp only [leBytes, List.cons.injEq, and_true]
    refine ⟨?_, ?_, ?_, ?_⟩ <;> congr 1 <;> omega
  rw [hmod, BitVec.truncate_eq_setWidth, BitVec.toNat_setWidth]

/-- Settles O3: each form of token by the first byte that the encoder gives it. -/
theorem tokenRoundTrip : Obligations.TokenRoundTrip := by
  unfold Obligations.TokenRoundTrip
  refine fun idx v rest => ⟨fun h => ?_, fun h => ?_, fun h => ?_⟩
  · by_cases hshort : idx < 128
    · have hbyte : (BitVec.ofNat 8 idx).toNat = idx := by rw [BitVec.toNat_ofNat]; omega
      simpa [encTok, hshort, hbyte] using decTok_byte (b := BitVec.ofNat 8 idx) rest (by omega)
    · simpa [encTok, hshort] using decTok_pair rest h
  · have himm : leNat (leBytes 8 v.toNat) = v.toNat := leNat_leBytes 8 _ v.isLt
    simpa [encTok, himm] using decTok_wide rest h (length_leBytes 8 v.toNat)
  · have himm : BitVec.ofNat 32 (leNat (leBytes 4 v.toNat)) = v.truncate 32 := by
      rw [leBytes_four_truncate, leNat_leBytes 4 _ (v.truncate 32).isLt, BitVec.ofNat_toNat]
      rfl
    rw [← himm]
    exact decTok_narrow rest h (length_leBytes 4 v.toNat)

end Sys2Proof.Machine

/-! PROOF. The S-slot arithmetic, register and immediate forms (R65, R68, R79, R81, R358). -/

namespace Sys2Proof.Machine

/-! ### The issue of S arithmetic -/

/-- The operations of S arithmetic (R358). -/
inductive SArith : Instr → Prop
  | sadd f : SArith (.sadd f) | ssub f : SArith (.ssub f) | smul f : SArith (.smul f) | smulh f : SArith (.smulh f)
  | sand f : SArith (.sand f) | sor f : SArith (.sor f) | sxor f : SArith (.sxor f) | sshl f : SArith (.sshl f)
  | sshr f : SArith (.sshr f) | ssar f : SArith (.ssar f) | smin f : SArith (.smin f) | smax f : SArith (.smax f)
  | saddI f : SArith (.saddI f) | ssubI f : SArith (.ssubI f) | smulI f : SArith (.smulI f) | sandI f : SArith (.sandI f)
  | sorI f : SArith (.sorI f) | sxorI f : SArith (.sxorI f) | sshlI f : SArith (.sshlI f) | sshrI f : SArith (.sshrI f)
  | ssarI f : SArith (.ssarI f) | sminI f : SArith (.sminI f) | smaxI f : SArith (.smaxI f)

/-- It names s registers alone and makes no access: once they are back, nothing keeps it from taking effect (R70). -/
theorem SArith.issues {i : Instr} (h : SArith i) {s : State} {w : Wave} (hi : Issuing s w) (hb : AllBack w (readsOf i ++ writesOf i)) :
    Issues i s w := by
  have hscore : scoreHeld i w = false :=
    scoreHeld_of_allBack (fun r hr => hb r (List.mem_append_left _ hr)) fun r hr => hb r (List.mem_append_right _ hr)
  have hfree : issueTrap i s s.cur.wid w = none ∧ delivers i w = false := by cases h <;> exact ⟨rfl, rfl⟩
  have hheld : holds i s s.cur.wid w = scoreHeld i w := by
    cases h <;> simp [holds, interlocks, scalarHold, memHold, memReq, isTile, slotWaits, slotReads, slotFills, isPublish, tollStops, tollWaits, tileReq]
  exact ⟨hi, hscore, hfree.1, hheld.trans hscore, hfree.2⟩

/-- An operation that leaves an s result leaves it as an exposed write, and nothing else changes. -/
theorem slotOp_putS {i : Instr} {s : State} {w : Wave} {d : BitVec 6} {L : Nat} {v : State → Wave → DWord} (h : Issues i s w) :
    slotOp i s (putS d L v) = .next (issued s w (sWrite w.sup d.toNat (v s w)) L) := slotOp_issues h

/-! ### The results (R79, R358) -/

theorem opAdd_eq (wd : SWidth) (x y : DWord) : opAdd wd x y = BitVec.ofInt 64 (x.toInt + y.toInt) := by simp [opAdd, BitVec.ofInt_add]

theorem opSub_eq (wd : SWidth) (x y : DWord) : opSub wd x y = BitVec.ofInt 64 (x.toInt - y.toInt) := by
  rw [Int.sub_eq_add_neg, BitVec.ofInt_add, BitVec.ofInt_neg, BitVec.ofInt_toInt, BitVec.ofInt_toInt, ← BitVec.sub_eq_add_neg]
  rfl

theorem opMul_eq (wd : SWidth) (x y : DWord) : opMul wd x y = BitVec.ofInt 64 (x.toInt * y.toInt) := by simp [opMul, BitVec.ofInt_mul]

theorem shiftMod_eq (wd : SWidth) : shiftMod wd = if wd = .w64 then 64 else 32 := by cases wd <;> rfl

theorem opMulh_eq (wd : SWidth) (x y : DWord) : opMulh wd x y = BitVec.ofInt 64 (x.toInt * y.toInt / 2 ^ (if wd = .w64 then 64 else 32)) := by
  cases wd <;> rfl

theorem opShl_eq (wd : SWidth) (x y : DWord) :
    opShl wd x y = BitVec.ofNat 64 (x.toNat * 2 ^ (y.toNat % if wd = .w64 then 64 else 32)) := by
  apply BitVec.eq_of_toNat_eq
  rw [opShl, shiftMod_eq, BitVec.toNat_shiftLeft, Nat.shiftLeft_eq, BitVec.toNat_ofNat]

theorem opShr_eq (wd : SWidth) (x y : DWord) :
    opShr wd x y = BitVec.ofNat 64 (x.toNat / 2 ^ (y.toNat % if wd = .w64 then 64 else 32)) := by
  apply BitVec.eq_of_toNat_eq
  rw [opShr, shiftMod_eq, BitVec.toNat_ushiftRight, Nat.shiftRight_eq_div_pow, BitVec.toNat_ofNat,
    Nat.mod_eq_of_lt (Nat.lt_of_le_of_lt (Nat.div_le_self ..) x.isLt)]

theorem opSar_eq (wd : SWidth) (x y : DWord) :
    opSar wd x y = BitVec.ofInt 64 (x.toInt / 2 ^ (y.toNat % if wd = .w64 then 64 else 32)) := by
  rw [opSar, shiftMod_eq, BitVec.sshiftRight, Int.shiftRight_eq_div_pow]
  norm_cast

/-- The order that SMIN and SMAX follow (R358). -/
def belowS (u : Bool) (p q : DWord) : Prop := if u then p.toNat < q.toNat else p.toInt < q.toInt

theorem condS_belowS (u : Bool) (p q : DWord) : condS (if u then .ltu else .lt) p q = true ↔ belowS u p q := by
  cases u <;> simp [condS, belowS]

theorem belowS_asymm {u : Bool} {p q : DWord} (h : belowS u p q) : ¬ belowS u q p := by
  cases u
  · exact Int.not_lt.2 (Int.le_of_lt h)
  · exact Nat.not_lt.2 (Nat.le_of_lt h)

theorem belowS_irrefl (u : Bool) (p : DWord) : ¬ belowS u p p := fun h => belowS_asymm h h

/-- The lesser of two values is one of them, and neither lies below it. -/
theorem opMin_least (u : Bool) (wd : SWidth) (x y : DWord) :
    (opMin u wd x y = x ∨ opMin u wd x y = y) ∧ ¬ belowS u x (opMin u wd x y) ∧ ¬ belowS u y (opMin u wd x y) := by
  by_cases h : condS (if u then .ltu else .lt) y x = true
  · rw [opMin, if_pos h]
    exact ⟨.inr rfl, belowS_asymm ((condS_belowS u y x).1 h), belowS_irrefl u y⟩
  · rw [opMin, if_neg h]
    exact ⟨.inl rfl, belowS_irrefl u x, fun hlt => h ((condS_belowS u y x).2 hlt)⟩

/-- The greater of two values is one of them, and lies below neither. -/
theorem opMax_greatest (u : Bool) (wd : SWidth) (x y : DWord) :
    (opMax u wd x y = x ∨ opMax u wd x y = y) ∧ ¬ belowS u (opMax u wd x y) x ∧ ¬ belowS u (opMax u wd x y) y := by
  by_cases h : condS (if u then .ltu else .lt) x y = true
  · rw [opMax, if_pos h]
    exact ⟨.inr rfl, belowS_asymm ((condS_belowS u x y).1 h), belowS_irrefl u y⟩
  · rw [opMax, if_neg h]
    exact ⟨.inl rfl, belowS_irrefl u x, fun hlt => h ((condS_belowS u x y).2 hlt)⟩

/-- Settles O4: every form issues and leaves its result, which is the one that R358 names. -/
theorem scalarArithmetic : Obligations.ScalarArithmetic := by
  unfold Obligations.ScalarArithmetic
  refine ⟨fun f u s w hi hb => ?_, fun f u s w hi hb => ?_⟩
  · intro x y m below gives
    have leaves : ∀ {i : Instr} {L : Nat} {op : SWidth → DWord → DWord → DWord} {r : DWord}, SArith i →
        readsOf i ++ writesOf i = [sR f.a, sR f.b, sR f.d] → exec i s = slotOp i s (putS f.d L (binR op f)) → op f.w x y = r →
        exec i s = gives L r := by
      rintro i L op _ harith hregs hexec rfl
      exact hexec.trans (slotOp_putS (harith.issues hi (hregs ▸ hb)))
    exact ⟨leaves (.sadd f) rfl rfl (opAdd_eq ..), leaves (.ssub f) rfl rfl (opSub_eq ..), leaves (.smul f) rfl rfl (opMul_eq ..),
      leaves (.smulh f) rfl rfl (opMulh_eq ..), leaves (.sand f) rfl rfl rfl, leaves (.sor f) rfl rfl rfl, leaves (.sxor f) rfl rfl rfl,
      leaves (.sshl f) rfl rfl (opShl_eq ..), leaves (.sshr f) rfl rfl (opShr_eq ..), leaves (.ssar f) rfl rfl (opSar_eq ..),
      ⟨_, leaves (.smin ⟨f, u⟩) rfl rfl rfl, opMin_least u f.w x y⟩, ⟨_, leaves (.smax ⟨f, u⟩) rfl rfl rfl, opMax_greatest u f.w x y⟩⟩
  · intro x y m below gives
    have second : ext f.w (sImm s f.imm) = y := by
      show ext f.w (sImm s f.imm) = ext f.w _
      cases f.imm <;> rfl
    have leaves : ∀ {i : Instr} {L : Nat} {op : SWidth → DWord → DWord → DWord} {r : DWord}, SArith i →
        readsOf i ++ writesOf i = [sR f.a, sR f.d] → exec i s = slotOp i s (putS f.d L (binI op f)) → op f.w x y = r →
        exec i s = gives L r := by
      rintro i L op _ harith hregs hexec rfl
      rw [← second]
      exact hexec.trans (slotOp_putS (harith.issues hi (hregs ▸ hb)))
    exact ⟨leaves (.saddI f) rfl rfl (opAdd_eq ..), leaves (.ssubI f) rfl rfl (opSub_eq ..), leaves (.smulI f) rfl rfl (opMul_eq ..),
      leaves (.sandI f) rfl rfl rfl, leaves (.sorI f) rfl rfl rfl, leaves (.sxorI f) rfl rfl rfl,
      leaves (.sshlI f) rfl rfl (opShl_eq ..), leaves (.sshrI f) rfl rfl (opShr_eq ..), leaves (.ssarI f) rfl rfl (opSar_eq ..),
      ⟨_, leaves (.sminI ⟨f, u⟩) rfl rfl rfl, opMin_least u f.w x y⟩, ⟨_, leaves (.smaxI ⟨f, u⟩) rfl rfl rfl, opMax_greatest u f.w x y⟩⟩

end Sys2Proof.Machine

/-! PROOF. The first-event log and the stochastic-rounding state of a lane (R72, R73, R126). -/

namespace Sys2Proof.Machine

/-! ### The first-event log (R72, R73) -/

theorem report_sticky (f : Fel) (ord : Nat) (addr : Word) (slot lane : Nat) (e : Ev) :
    (report f ord addr slot lane e).sticky = f.sticky ||| BitVec.ofNat 5 (2 ^ evCode e) := by
  simp only [report]
  split <;> rfl

theorem report_sticky_bit (f : Fel) (ord : Nat) (addr : Word) (slot lane : Nat) (e : Ev) {k : Nat} (hk : k < 5) :
    (report f ord addr slot lane e).sticky.getLsbD k = true ↔ f.sticky.getLsbD k = true ∨ evCode e = k := by
  have hbit : ∀ k < 5, (BitVec.ofNat 5 (2 ^ evCode e)).getLsbD k = decide (evCode e = k) := by cases e <;> decide
  rw [report_sticky, BitVec.getLsbD_or, hbit k hk, Bool.or_eq_true, decide_eq_true_iff]

/-- A log that an earlier operation filled, or one of the same step, keeps its entry. -/
theorem report_kept {f : Fel} {ord : Nat} (addr : Word) (slot lane : Nat) (e : Ev) (hv : f.valid = true) (ho : f.ord ≤ ord) :
    ∃ st, report f ord addr slot lane e = { f with sticky := st } := by
  simp [report, hv, ho]

/-- An empty log, or one that a later operation filled, takes the event. -/
theorem report_fills {f : Fel} {ord : Nat} (addr : Word) (slot lane : Nat) (e : Ev) (h : f.valid = false ∨ ord < f.ord) :
    ∃ st, report f ord addr slot lane e =
      { valid := true, ord := ord, addr := addr, slot := slot, lane := lane, kind := evCode e, sticky := st } := by
  have hnot : ¬ (f.valid && decide (f.ord ≤ ord)) = true := by
    obtain h | h := h
    · simp [h]
    · simp [Nat.not_le.2 h]
  simp [report, hnot]

/-- Every event sets its sticky bit, and none is lost. -/
theorem reportAll_sticky (ord : Nat) (addr : Word) (slot : Nat) {k : Nat} (hk : k < 5) : ∀ (es : List (Nat × Ev)) (f : Fel),
    (reportAll f ord addr slot es).sticky.getLsbD k = true ↔ f.sticky.getLsbD k = true ∨ ∃ e ∈ es, evCode e.2 = k
  | [], f => by simp [reportAll]
  | e :: es, f => by
    refine (reportAll_sticky ord addr slot hk es (report f ord addr slot e.1 e.2)).trans ?_
    simp [report_sticky_bit f ord addr slot e.1 e.2 hk, or_assoc]

/-- The events of one operation leave an entry that is its own or an earlier one's. -/
theorem reportAll_kept (addr : Word) (slot : Nat) {ord : Nat} : ∀ (es : List (Nat × Ev)) {f : Fel}, f.valid = true → f.ord ≤ ord →
    ∃ st, reportAll f ord addr slot es = { f with sticky := st }
  | [], f, _, _ => ⟨f.sticky, rfl⟩
  | e :: es, f, hv, ho => by
    obtain ⟨st, hfirst⟩ := report_kept addr slot e.1 e.2 hv ho
    show ∃ st, reportAll (report f ord addr slot e.1 e.2) ord addr slot es = _
    rw [hfirst]
    exact reportAll_kept addr slot es (f := { f with sticky := st }) hv ho

/-! ### The lane state (R126) -/

/-- Bit 31 after a step is the bit that was shifted out. -/
theorem lfsrStep_top (x : Word) : (lfsrStep x).getLsbD 31 = x.getLsbD 0 := by
  unfold lfsrStep
  split
  case isTrue h => simp [h]
  case isFalse h => simpa using h

/-- The state before a step, from the one after it. -/
theorem lfsrStep_injective {x y : Word} (h : lfsrStep x = lfsrStep y) : x = y := by
  have hlow : x.getLsbD 0 = y.getLsbD 0 := by rw [← lfsrStep_top, ← lfsrStep_top, h]
  have hhigh : x >>> 1 = y >>> 1 := by
    unfold lfsrStep at h
    rw [hlow] at h
    split at h
    · exact (BitVec.xor_left_inj _).1 h
    · exact h
  apply BitVec.eq_of_getLsbD_eq
  intro i _
  cases i with
  | zero => exact hlow
  | succ i => simpa [Nat.add_comm] using congrArg (·.getLsbD i) hhigh

theorem lfsrStep_ne_zero {x : Word} (h : x ≠ 0) : lfsrStep x ≠ 0 := fun h0 => h (lfsrStep_injective (h0.trans (by decide)))

theorem lfsrSteps_ne_zero : ∀ (n : Nat) {x : Word}, x ≠ 0 → lfsrSteps n x ≠ 0
  | 0, _, h => h
  | n + 1, _, h => lfsrSteps_ne_zero n (lfsrStep_ne_zero h)

/-- Bit 31 of a seed is that of the constant word: no party, wave or lane number reaches it. -/
theorem lfsrSeed_top (p w : Nat) {i : Nat} (hi : i < 32) : (lfsrSeed p w i).getLsbD 31 = true := by
  have hp : (p % 2048).testBit 22 = false := Nat.testBit_lt_two_pow (by omega)
  have hw : (w % 16).testBit 26 = false := Nat.testBit_lt_two_pow (by omega)
  have hlane : i.testBit 31 = false := Nat.testBit_lt_two_pow (by omega)
  simp only [lfsrSeed, BitVec.getLsbD_xor, BitVec.getLsbD_shiftLeft, BitVec.getLsbD_ofNat, hp, hw, hlane]
  decide

/-- Settles O20: the log by induction over the events, the lane state by the bit that a step shifts out. -/
theorem eventLogAndLaneState : Obligations.EventLogAndLaneState := by
  unfold Obligations.EventLogAndLaneState
  refine ⟨fun f ord addr slot es => ⟨fun k hk => reportAll_sticky ord addr slot hk es f, ?_, fun hv ho => ?_, ?_⟩,
    fun x => lfsrStep_ne_zero, fun x y => lfsrStep_injective, fun p w i hi h => ?_, fun n x => lfsrSteps_ne_zero n⟩
  · rintro rfl
    rfl
  · obtain ⟨st, hkept⟩ := reportAll_kept addr slot es hv ho
    rw [hkept]
  · rintro e rest rfl hfree
    obtain ⟨st, hfirst⟩ := report_fills addr slot e.1 e.2 hfree
    have hall : reportAll f ord addr slot (e :: rest) = reportAll (report f ord addr slot e.1 e.2) ord addr slot rest := rfl
    rw [hall, hfirst]
    obtain ⟨st', hkept⟩ := reportAll_kept addr slot rest (f := ⟨true, ord, addr, slot, e.1, evCode e.2, st⟩) rfl (Nat.le_refl ord)
    rw [hkept]
    exact ⟨rfl, rfl, rfl, rfl, rfl, rfl⟩
  · exact absurd (lfsrSeed_top p w hi) (by simp [h])

end Sys2Proof.Machine

/-! PROOF. Loads and stores that leave their segment or their region, or are misaligned (R71, R181, R183). -/

namespace Sys2Proof.Machine

/-- An operation that accesses memory lane by lane is no tile operation and no copy, is open to every mode, and issues as a slot operation. -/
theorem kind_of_memReq {i : Instr} {s : State} {w : Wave} {r : MReq} (h : memReq i s w = some r) :
    isTile i = false ∧ privTrap i w = false ∧ copyClass i = false ∧ ∃ body, exec i s = slotOp i s body := by
  unfold memReq at h
  split at h
  case h_14 => cases h
  all_goals exact ⟨rfl, rfl, rfl, _, rfl⟩

/-- Its own checks alone can make it trap once its registers lie in the allotment. -/
theorem issueTrap_of_memReq {i : Instr} {s : State} {w : Wave} {r : MReq} (wid : Nat) (h : memReq i s w = some r)
    (hallot : allotBad i w = false) : issueTrap i s wid w = accessTrap s wid w r := by
  obtain ⟨htile, hpriv, hcopy, -⟩ := kind_of_memReq h
  simp [issueTrap, htile, hpriv, hcopy, hallot, h]

/-- A trap that no handler takes ends the launch at the trapping bundle (R71, R265). -/
theorem takeTrap_kills {s : State} {wid c : Nat} {w : Wave} (h : handlerCause c = false) :
    takeTrap s wid w (trapOf c) = killWave s wid w c s.cur.here 0 := by
  simp [takeTrap, trapOf, h]

/-- An access whose check fails with a cause that no handler takes ends its launch and has no effect. -/
theorem exec_access_kills {i : Instr} {s : State} {w : Wave} {r : MReq} {c : Nat} (hi : Issuing s w) (hgo : s.cur.go = false)
    (hscore : scoreHeld i w = false) (hallot : allotBad i w = false) (hreq : memReq i s w = some r)
    (htrap : accessTrap s s.cur.wid w r = some (trapOf c)) (hc : handlerCause c = false) :
    exec i s = .next (bump (killWave s s.cur.wid w c s.cur.here 0)) := by
  obtain ⟨-, -, -, body, hexec⟩ := kind_of_memReq hreq
  rw [hexec, slotOp_trap hi hgo hscore ((issueTrap_of_memReq _ hreq hallot).trans htrap), takeTrap_kills hc]

/-- The bytes at an offset lie in the region of a local access, or in the segment of a global one (R181, R183). -/
def insideOf (s : State) (wid : Nat) (w : Wave) (r : MReq) (off : Int) : Prop :=
  0 ≤ off ∧ off + r.size ≤ (if r.loc then 6144 * (shareOf s (wid / 16) w.lid).units else (segOf s wid w r.seg).limit : Nat)

/-- The segment of a global access is valid and grants it (R181). -/
def grantedTo (s : State) (wid : Nat) (w : Wave) (r : MReq) : Prop :=
  r.loc = true ∨ (segValid (segOf s wid w r.seg) = true ∧ (r.rd = true → segRd (segOf s wid w r.seg) = true) ∧
    (r.wr = true → segW (segOf s wid w r.seg) = true))

/-- An address is a multiple of the access's size (R181, R183). -/
def alignedAt (s : State) (wid : Nat) (w : Wave) (r : MReq) (off : Int) : Prop :=
  ((if r.loc then 0 else ((segOf s wid w r.seg).base : Int)) + off) % r.size = 0

/-- The range check of an access fails on an offset exactly where the offset lies outside or the segment does not grant the access. -/
theorem segCheck_iff (g : Seg) (rd wr : Bool) (off : Int) (n : Nat) : segCheck g rd wr off n = true ↔
    (0 ≤ off ∧ off + n ≤ g.limit) ∧ segValid g = true ∧ (rd = true → segRd g = true) ∧ (wr = true → segW g = true) := by
  cases rd <;> cases wr <;> simp [segCheck] <;> tauto

/-- What the range check of an access asks of an offset. -/
def inRange (s : State) (wid : Nat) (w : Wave) (r : MReq) (off : Int) : Bool :=
  if r.loc then decide (0 ≤ off) && decide (off + r.size ≤ regionSize s wid w) else segCheck (segOf s wid w r.seg) r.rd r.wr off r.size

theorem inRange_iff (s : State) (wid : Nat) (w : Wave) (r : MReq) (off : Int) :
    inRange s wid w r off = true ↔ insideOf s wid w r off ∧ grantedTo s wid w r := by
  cases hloc : r.loc with
  | true => simp [inRange, insideOf, grantedTo, hloc, regionSize, coreNo]
  | false => simp [inRange, insideOf, grantedTo, hloc, segCheck_iff]

/-- A lane outside or not granted traps with 0x06, before any alignment (R181, R183). -/
theorem accessTrap_outside {s : State} {wid : Nat} {w : Wave} {r : MReq} (h : ∃ n ∈ r.lanes, inRange s wid w r (offsetOf r.addr n) = false) :
    accessTrap s wid w r = some (trapOf 0x06) := by
  obtain ⟨n, hn, hbad⟩ := h
  have hany : (spansOf r).any (fun x => !inRange s wid w r x.2) = true :=
    List.any_eq_true.2 ⟨(n, offsetOf r.addr n), List.mem_map_of_mem hn, by simp [hbad]⟩
  cases hloc : r.loc with
  | true =>
    simp only [inRange, hloc, if_true] at hany
    simp only [accessTrap, hloc, if_true, hany]
  | false =>
    simp only [inRange, hloc, Bool.false_eq_true, if_false] at hany
    simp [accessTrap, hloc, hany]

/-- With every lane in range one that is misaligned traps with 0x14. -/
theorem accessTrap_misaligned {s : State} {wid : Nat} {w : Wave} {r : MReq} (hin : ∀ n ∈ r.lanes, inRange s wid w r (offsetOf r.addr n) = true)
    (h : ∃ n ∈ r.lanes, ¬ alignedAt s wid w r (offsetOf r.addr n)) : accessTrap s wid w r = some (trapOf 0x14) := by
  obtain ⟨n, hn, hbad⟩ := h
  have hnone : (spansOf r).any (fun x => !inRange s wid w r x.2) = false := by
    simpa [spansOf] using hin
  have hany : (spansOf r).any (fun x => ((if r.loc then 0 else ((segOf s wid w r.seg).base : Int)) + x.2) % r.size != 0) = true :=
    List.any_eq_true.2 ⟨(n, offsetOf r.addr n), List.mem_map_of_mem hn, by simpa [alignedAt] using hbad⟩
  cases hloc : r.loc with
  | true =>
    simp only [inRange, hloc, if_true] at hnone
    simp only [hloc, if_true, Int.zero_add] at hany
    simp only [accessTrap, hloc, if_true, hnone, hany, Bool.false_eq_true, if_false]
  | false =>
    simp only [inRange, hloc, Bool.false_eq_true, if_false] at hnone
    simp only [hloc, Bool.false_eq_true, if_false] at hany
    simp [accessTrap, hloc, hnone, hany]

/-- Settles O29: the access's own checks are all that can make it trap, in the order of R181, and neither cause has the handler disposition. -/
theorem segmentAndAlignmentTraps : Obligations.SegmentAndAlignmentTraps := by
  unfold Obligations.SegmentAndAlignmentTraps
  intro i s w r hi hgo hscore hallot hreq g inside granted aligned
  have range : ∀ n, inRange s s.cur.wid w r (offsetOf r.addr n) = true ↔ inside n ∧ granted := fun n => inRange_iff ..
  refine ⟨fun ⟨n, hn, hbad⟩ => ?_, fun hin hmis => ?_⟩
  · have hout : inRange s s.cur.wid w r (offsetOf r.addr n) = false :=
      Bool.eq_false_iff.2 fun h => hbad.elim (· ((range n).1 h).1) (· ((range n).1 h).2)
    exact exec_access_kills hi hgo hscore hallot hreq (accessTrap_outside ⟨n, hn, hout⟩) rfl
  · exact exec_access_kills hi hgo hscore hallot hreq (accessTrap_misaligned (fun n hn => (range n).2 (hin n hn)) hmis) rfl

end Sys2Proof.Machine

/-! PROOF. What a load reads as it is performed, and what it leaves (R189 to R191, R210). -/

namespace Sys2Proof.Machine

/-! ### States that a read leaves -/

/-- A state that a read leaves: it differs in cores, in the caches of dies, and in the releases that waves have noted. -/
def ReadMoved (s t : State) : Prop := ∃ cores dies waves, t = { s with cores := cores, dies := dies, waves := waves } ∧
  (∀ d, (dieOf t d).xlat = (dieOf s d).xlat) ∧ ∀ k w, waveOf s k = some w → ∃ v, waveOf t k = some v ∧ AcquireMarks w v

namespace ReadMoved

variable {s t u : State}

theorem refl (s : State) : ReadMoved s s := ⟨_, _, _, rfl, fun _ => rfl, fun _ w hw => ⟨w, hw, .refl w⟩⟩

theorem trans (h : ReadMoved s t) (h' : ReadMoved t u) : ReadMoved s u := by
  obtain ⟨_, _, _, rfl, hx, hw⟩ := h
  obtain ⟨_, _, _, rfl, hx', hw'⟩ := h'
  refine ⟨_, _, _, rfl, fun d => (hx' d).trans (hx d), fun k w hk => ?_⟩
  obtain ⟨v, hv, hmarks⟩ := hw k w hk
  obtain ⟨v', hv', hmarks'⟩ := hw' k v hv
  exact ⟨v', hv', hmarks.trans hmarks'⟩

theorem mem (h : ReadMoved s t) : t.mem = s.mem := by obtain ⟨_, _, _, rfl, -⟩ := h; rfl
theorem acc (h : ReadMoved s t) : t.acc = s.acc := by obtain ⟨_, _, _, rfl, -⟩ := h; rfl
theorem hist (h : ReadMoved s t) : t.hist = s.hist := by obtain ⟨_, _, _, rfl, -⟩ := h; rfl
theorem commits (h : ReadMoved s t) : t.commits = s.commits := by obtain ⟨_, _, _, rfl, -⟩ := h; rfl
theorem devByte (h : ReadMoved s t) (loc : Nat) : devByte t loc = devByte s loc := by obtain ⟨_, _, _, rfl, -⟩ := h; rfl
theorem devBytes (h : ReadMoved s t) (loc n : Nat) : devBytes t loc n = devBytes s loc n := devBytes_congr fun x _ _ => h.devByte x
theorem wave (h : ReadMoved s t) {k : Nat} {w : Wave} (hw : waveOf s k = some w) : ∃ v, waveOf t k = some v ∧ AcquireMarks w v := by
  obtain ⟨_, _, _, -, -, hwaves⟩ := h
  exact hwaves k w hw

theorem modCore (s : State) (c : Nat) (f : Core → Core) : ReadMoved s (modCore s c f) :=
  ⟨_, _, _, rfl, fun _ => rfl, fun _ w hw => ⟨w, hw, .refl w⟩⟩

/-- A change of a die's caches. -/
theorem modDie (s : State) (d : Nat) {f : Die → Die} (hf : ∀ x, (f x).xlat = x.xlat) : ReadMoved s (modDie s d f) := by
  refine ⟨_, _, _, rfl, fun e => ?_, fun _ w hw => ⟨w, hw, .refl w⟩⟩
  rw [dieOf_modDie]
  split
  · next he => rw [he, hf]
  · rfl

theorem holdL2 (s : State) (asid va loc n : Nat) (direct : Bool) : ReadMoved s (holdL2 s asid va loc n direct) := by
  unfold Machine.holdL2
  split
  · exact refl s
  · exact modDie s _ fun _ => rfl

theorem holdLines (s : State) (a : Acc) (va loc n : Nat) : ReadMoved s (holdLines s a va loc n) := by
  unfold Machine.holdLines
  split
  · exact holdL2 ..
  · split
    · exact refl s
    · extract_lets s1
      have h1 : ReadMoved s s1 := by
        unfold s1
        split
        · exact modCore ..
        · exact refl s
      split
      · exact h1.trans (modDie _ _ fun _ => rfl)
      · exact h1.trans (holdL2 ..)

theorem noteSyncs (s : State) (id : Nat) (a : Acc) (loc : Nat) : ReadMoved s (noteSyncs s id a loc) := by
  unfold Machine.noteSyncs
  split
  · extract_lets l
    unfold modWave
    split
    · next w hw =>
      refine ⟨_, _, _, rfl, fun _ => rfl, fun k x hx => ?_⟩
      rw [waveOf_setWave]
      split
      · next hk =>
        rw [hk, hw, Option.some.injEq] at hx
        subst hx
        refine ⟨_, rfl, ?_⟩
        split <;> exact ⟨_, _, _, _, rfl⟩
      · exact ⟨x, hx, .refl x⟩
    · exact refl s
  · exact refl s

/-! ### Broken aliases -/

/-- A walk of a past moment reads memory and its history alone. -/
theorem walkBytes_past (h : ReadMoved s t) {m : WalkAt} (hm : m.past = true) (loc n : Nat) : walkBytes t m loc n = walkBytes s m loc n := by
  simp only [walkBytes, hm, Bool.not_true, Bool.false_and, Bool.or_false, if_true, h.hist, h.devBytes, h.devByte]

theorem asdtAt (h : ReadMoved s t) (base : Nat) (m : WalkAt) (asid : Nat) : asdtAt t base m asid = asdtAt s base m asid := by
  simp only [Machine.asdtAt, h.hist, h.devBytes, h.devByte]

theorem walkEcc_past (s : State) {m : WalkAt} (hm : m.past = true) (loc n : Nat) : walkEcc s m loc n = false := by simp [walkEcc, hm]

theorem walkGo_past (h : ReadMoved s t) {m : WalkAt} (hm : m.past = true) (far : Bool) (die asid va : Nat) (win : Nat × Nat) :
    ∀ (lvls : List Nat) (table : Nat), walkGo t m far die asid va win lvls table = walkGo s m far die asid va win lvls table
  | [], _ => rfl
  | lvl :: lvls, table => by
    have htable : ∀ a n, tableNat t m far die a n = tableNat s m far die a n := fun a n => by
      rw [tableNat, tableNat, h.walkBytes_past hm]
    simp only [walkGo, leafPage, walkEcc_past _ hm, htable, h.walkGo_past hm far die asid va win lvls]

theorem walkWith_past (h : ReadMoved s t) {m : WalkAt} (hm : m.past = true) (far : Bool) (die asid va : Nat) :
    walkWith t m far die asid va = walkWith s m far die asid va := by
  have hbase : asdtBase t = asdtBase s := by obtain ⟨_, _, _, rfl, -⟩ := h; rfl
  simp only [walkWith, hbase, walkFrom, walkEcc_past _ hm, h.asdtAt, h.walkGo_past hm]

theorem reaches (h : ReadMoved s t) (far : Bool) (die asid va loc : Nat) : reaches t far die asid va loc = reaches s far die asid va loc := by
  have hcache : xcache t far die (ctlOf va) = xcache s far die (ctlOf va) := by
    obtain ⟨_, _, _, rfl, hx, -⟩ := h
    simp only [xcache, hx]
  simp only [Machine.reaches, hcache, h.commits, h.walkWith_past]

theorem brokenAlias (h : ReadMoved s t) (v : Via) (loc n : Nat) : brokenAlias t v loc n = brokenAlias s v loc n := by
  have hlaunch : ∀ lid, launchOf t lid = launchOf s lid := fun lid => by obtain ⟨_, _, _, rfl, -⟩ := h; rfl
  simp only [Machine.brokenAlias, otherVia, viaLive, h.hist, hlaunch, h.reaches]

end ReadMoved

/-! ### What is read -/

theorem homeRead_moved (s : State) (core loc n : Nat) : ReadMoved s (homeRead s core loc n).2 :=
  ReadMoved.modCore s core fun c => raiseTo c loc n s.commits

theorem snapRead_moved (s : State) (core loc n tag : Nat) : ReadMoved s (snapRead s core loc n tag).2 :=
  ReadMoved.modCore s core fun c => raiseTo c loc n (cutOf s core loc n tag)

theorem plainRead_moved (s : State) (id : Nat) (a : Acc) (va loc n tag : Nat) : ReadMoved s (plainRead s id a va loc n tag).2 := by
  unfold plainRead
  extract_lets own r
  split
  · exact .refl s
  · show ReadMoved s r.2
    unfold r
    rw [aliasRead_state]
    split
    · exact homeRead_moved ..
    · exact snapRead_moved ..

theorem performLoad_moved (s : State) (id : Nat) (a : Acc) (p : Piece) (loc : Nat) : ReadMoved s (performLoad s id a p loc).2 := by
  have hlines := ReadMoved.holdLines s a p.va loc p.size
  unfold performLoad
  split
  · exact hlines.trans (plainRead_moved ..)
  · extract_lets s1
    rw [aliasRead_state]
    exact (hlines.trans (.noteSyncs ..)).trans (homeRead_moved ..)

theorem length_aliasRead (s : State) (v : Via) (loc n tag : Nat) {r : List Byte × State} (h : r.1.length = n) :
    (aliasRead s v loc n tag r).1.length = n := by
  unfold aliasRead
  split
  · simp
  · exact h

theorem length_snapRead (s : State) (core loc n tag : Nat) : (snapRead s core loc n tag).1.length = n := by simp [snapRead, bytesAt]

/-- Bytes read through a broken alias are bytes that memory holds or that a store left (R190; log 44). -/
def OneOfEither (s : State) (loc n : Nat) (val : List Byte) : Prop :=
  ∀ i, i < n → val.getD i 0 = devByte s (loc + i) ∨ ∃ c ∈ s.hist, c.loc = loc + i ∧ val.getD i 0 = c.new

theorem aliasRead_oneOf {s : State} {v : Via} {loc n : Nat} (h : brokenAlias s v loc n = true) (tag : Nat) (r : List Byte × State) :
    OneOfEither s loc n (aliasRead s v loc n tag r).1 := by
  intro i hi
  simp only [aliasRead, h, if_true, List.getD_eq_getElem?_getD, List.getElem?_map, List.getElem?_range hi, Option.map_some, Option.getD_some]
  cases hc : aliasCommit s v (loc + i) (pick s (4700000 + tag) (s.commits + 1)) with
  | none => exact .inl rfl
  | some c =>
    have hloc := List.find?_some hc
    simp only [Bool.and_eq_true, beq_iff_eq] at hloc
    exact .inr ⟨c, List.mem_of_find?_eq_some hc, hloc.1.1, rfl⟩

theorem ReadMoved.oneOf {s t : State} (h : ReadMoved s t) {loc n : Nat} {val : List Byte} (hval : OneOfEither t loc n val) :
    OneOfEither s loc n val := fun i hi => by
  have hbyte := hval i hi
  rwa [h.hist, h.devByte] at hbyte

/-- The moment of a snapshot is the present, or no earlier than the floor of its bytes (R210). -/
theorem cutOf_cases (s : State) (core loc n tag : Nat) :
    cutOf s core loc n tag = s.commits ∨ floorMax (coreOf s core) loc n ≤ cutOf s core loc n tag := by
  unfold cutOf
  extract_lets cs
  rw [List.getD_eq_getElem?_getD]
  cases hc : cs[pick s tag cs.length]? with
  | none => exact .inl rfl
  | some c =>
    obtain rfl | hc := List.mem_cons.1 (List.mem_of_getElem? hc)
    · exact .inl rfl
    · obtain ⟨x, hx, rfl⟩ := List.mem_map.1 hc
      have hfloor := (List.mem_filter.1 hx).2
      simp only [Bool.and_eq_true, decide_eq_true_eq] at hfloor
      refine .inr ?_
      simp only [Option.getD_some]
      omega

/-- Without a store of the core to see, no byte of a read is its own. -/
theorem ownByte_none {s : State} {id : Nat} {a : Acc} (h : ∀ e ∈ s.acc, e.1 < id → e.2.core = a.core → isStore e.2.kind = false) (va loc : Nat) :
    ownByte s id a va loc = none := by
  unfold ownByte
  generalize s.acc = l at h
  induction l with
  | nil => rfl
  | cons e l ih =>
    have hfirst := h e (List.mem_cons_self ..)
    rw [List.foldl_cons, if_neg fun ⟨hid, hcore, hstore, _⟩ => by simp [hfirst hid hcore] at hstore]
    exact ih fun x hx => h x (List.mem_cons_of_mem _ hx)

/-- What lies under no store of its own core is read as it is. -/
theorem zipWith_none (n : Nat) : ∀ (bs : List Byte), bs.length = n →
    List.zipWith (fun o b => Option.getD o b) (List.replicate n (none : Option Byte)) bs = bs := by
  induction n with
  | zero => intro bs h; simp [List.length_eq_zero_iff.1 h]
  | succ n ih =>
    rintro (_ | ⟨b, bs⟩) h
    · simp at h
    · simp [List.replicate_succ, ih bs (by simpa using h)]

theorem ReadMoved.atHome {s t : State} (h : ReadMoved s t) (a : Acc) (loc : Nat) : atHome t a loc = atHome s a loc := by
  obtain ⟨_, _, _, rfl, -⟩ := h
  rfl

theorem ReadMoved.bytesAt {s t : State} (h : ReadMoved s t) (loc n c : Nat) : bytesAt t loc n c = bytesAt s loc n c := by
  simp only [Machine.bytesAt, h.hist, h.devByte]

/-- Holding lines in caches moves no floor. -/
theorem floorOf_holdLines (s : State) (a : Acc) (va loc n c x : Nat) : floorOf (coreOf (holdLines s a va loc n) c) x = floorOf (coreOf s c) x := by
  have hl1 : floorOf (coreOf (holdL1 s a.core a.asid va n) c) x = floorOf (coreOf s c) x := by
    rw [holdL1, coreOf_modCore]
    split
    · next hc => rw [hc]; rfl
    · rfl
  have hl2 : ∀ (u : State) (direct : Bool), coreOf (holdL2 u a.asid va loc n direct) c = coreOf u c := fun u direct => by
    unfold holdL2
    split <;> rfl
  unfold holdLines
  split
  · rw [hl2]
  · split
    · rfl
    · extract_lets s1
      have h1 : floorOf (coreOf s1 c) x = floorOf (coreOf s c) x := by
        unfold s1
        split
        · exact hl1
        · rfl
      split
      · exact h1
      · rw [hl2, h1]

/-- A plain load with no store of its own core to see reads the home or a snapshot. -/
theorem plainRead_alone {s : State} {id : Nat} {a : Acc} (h : ∀ e ∈ s.acc, e.1 < id → e.2.core = a.core → isStore e.2.kind = false)
    (va loc n tag : Nat) : (plainRead s id a va loc n tag).1 =
      (aliasRead s (accVia a va loc) loc n tag (if atHome s a loc then homeRead s a.core loc n else snapRead s a.core loc n tag)).1 := by
  have hlen : (aliasRead s (accVia a va loc) loc n tag (if atHome s a loc then homeRead s a.core loc n else snapRead s a.core loc n tag)).1.length = n := by
    refine length_aliasRead s _ loc n tag ?_
    split
    · exact length_devBytes ..
    · exact length_snapRead ..
  have hown : ((List.range n).map fun i => ownByte s id a (va + i) (loc + i)) = List.replicate n none := by
    simp [ownByte_none h, List.map_const']
  simp only [plainRead, hown]
  split
  · next hall =>
    have hn : n = 0 := by simpa using hall
    subst hn
    exact (List.length_eq_zero_iff.1 hlen).symm
  · exact zipWith_none n _ hlen

/-! ### What a load performs -/

theorem length_performLoad (s : State) (id : Nat) (a : Acc) (p : Piece) (loc : Nat) : (performLoad s id a p loc).1.length = p.size := by
  unfold performLoad
  split
  · unfold plainRead
    extract_lets own r
    split
    · simp [own]
    · have hr : r.1.length = p.size := by
        refine length_aliasRead _ _ loc p.size _ ?_
        split
        · exact length_devBytes ..
        · exact length_snapRead ..
      simp [own, hr]
  · exact length_aliasRead _ _ loc p.size _ (length_devBytes ..)

section
variable {s : State} {id : Nat} {a : Acc} {p : Piece} {loc : Nat}

/-- A strong load takes the home's bytes (R213). -/
theorem performLoad_strong (hscope : a.scope.isPlain = false) (halias : brokenAlias s (accVia a p.va loc) loc p.size = false) :
    (performLoad s id a p loc).1 = devBytes s loc p.size := by
  have hmoved := (ReadMoved.holdLines s a p.va loc p.size).trans (.noteSyncs _ id a loc)
  simp only [performLoad, hscope, Bool.false_eq_true, if_false]
  rw [aliasRead_sound ((hmoved.brokenAlias ..).trans halias)]
  exact hmoved.devBytes ..

theorem performLoad_strong_alias (hscope : a.scope.isPlain = false) (halias : brokenAlias s (accVia a p.va loc) loc p.size = true) :
    OneOfEither s loc p.size (performLoad s id a p loc).1 := by
  have hmoved := (ReadMoved.holdLines s a p.va loc p.size).trans (.noteSyncs _ id a loc)
  simp only [performLoad, hscope, Bool.false_eq_true, if_false]
  exact hmoved.oneOf (aliasRead_oneOf ((hmoved.brokenAlias ..).trans halias) _ _)

variable (hscope : a.scope.isPlain = true) (halone : ∀ e ∈ s.acc, e.1 < id → e.2.core = a.core → isStore e.2.kind = false)
include hscope halone

theorem performLoad_plain_eq : ∃ u tag, u = holdLines s a p.va loc p.size ∧ (performLoad s id a p loc).1 =
    (aliasRead u (accVia a p.va loc) loc p.size tag (if atHome u a loc then homeRead u a.core loc p.size else snapRead u a.core loc p.size tag)).1 := by
  have halone' : ∀ e ∈ (holdLines s a p.va loc p.size).acc, e.1 < id → e.2.core = a.core → isStore e.2.kind = false := by
    rwa [(ReadMoved.holdLines s a p.va loc p.size).acc]
  refine ⟨_, 4000000 + 64 * id + p.lane, rfl, ?_⟩
  simp only [performLoad, hscope, if_true]
  exact plainRead_alone halone' ..

/-- A plain load that is performed at the home takes its bytes (R191, R298). -/
theorem performLoad_home (halias : brokenAlias s (accVia a p.va loc) loc p.size = false) (hhome : atHome s a loc = true) :
    (performLoad s id a p loc).1 = devBytes s loc p.size := by
  have hmoved := ReadMoved.holdLines s a p.va loc p.size
  obtain ⟨u, tag, rfl, hval⟩ := performLoad_plain_eq hscope halone (p := p) (loc := loc)
  rw [hval, aliasRead_sound ((hmoved.brokenAlias ..).trans halias), hmoved.atHome, hhome]
  exact hmoved.devBytes ..

/-- Any other takes the bytes of one moment not before its core's floor (R210). -/
theorem performLoad_snapshot (halias : brokenAlias s (accVia a p.va loc) loc p.size = false) (hhome : atHome s a loc = false) :
    ∃ c, (performLoad s id a p loc).1 = bytesAt s loc p.size c ∧ (c = s.commits ∨ floorMax (coreOf s a.core) loc p.size ≤ c) := by
  have hmoved := ReadMoved.holdLines s a p.va loc p.size
  obtain ⟨u, tag, rfl, hval⟩ := performLoad_plain_eq hscope halone (p := p) (loc := loc)
  rw [hval, aliasRead_sound ((hmoved.brokenAlias ..).trans halias), hmoved.atHome, hhome]
  have hcut := cutOf_cases (holdLines s a p.va loc p.size) a.core loc p.size tag
  simp only [floorMax, floorOf_holdLines, hmoved.commits] at hcut
  exact ⟨_, hmoved.bytesAt .., hcut⟩

theorem performLoad_plain_alias (halias : brokenAlias s (accVia a p.va loc) loc p.size = true) :
    OneOfEither s loc p.size (performLoad s id a p loc).1 := by
  have hmoved := ReadMoved.holdLines s a p.va loc p.size
  obtain ⟨u, tag, rfl, hval⟩ := performLoad_plain_eq hscope halone (p := p) (loc := loc)
  rw [hval]
  exact hmoved.oneOf (aliasRead_oneOf ((hmoved.brokenAlias ..).trans halias) _ _)

end

end Sys2Proof.Machine

/-! PROOF. What register writes leave: exposed results as they land, and lanes that return (R65, R67, R70, R339). -/

namespace Sys2Proof.Machine

/-! ### One write -/

/-- A write to a vector register changes that register alone. -/
theorem holdV_applyWrite (w : Wave) (cl : Cluster) (n : Nat) (m : Word) (v : Lanes) (clash : Bool) (c : Cluster) (k : Nat) :
    holdV (applyWrite w (.v cl n m v) clash) c k = if c = cl ∧ k = n then
      { val := Lanes.merge m v (holdV w cl n).val, und := if clash then BitVec.allOnes 32 else (holdV w cl n).und &&& ~~~m } else holdV w c k := by
  cases cl <;> cases c <;> simp [applyWrite, holdV, Tab.findD_put]

/-- A write to a mask register changes that register alone. -/
theorem holdK_applyWrite (w : Wave) (n : Nat) (m v : Word) (clash : Bool) (k : Nat) :
    holdK (applyWrite w (.k n m v) clash) k = if k = n then
      { val := ((holdK w n).val &&& ~~~m) ||| (v &&& m), und := if clash then BitVec.allOnes 32 else (holdK w n).und &&& ~~~m } else holdK w k :=
  Tab.findD_put ..

theorem Lanes.merge_at (m : Word) (new old : Lanes) {i : Nat} (hi : i < 32) :
    (Lanes.merge m new old).at i = if m.getLsbD i then new.at i else old.at i := Lanes.of_at _ hi

theorem Lanes.all_at (x : Word) {i : Nat} (hi : i < 32) : (Lanes.all x).at i = x := Lanes.of_at _ hi

/-- The wave but for its vector registers. -/
def VectorsMoved (w v : Wave) : Prop := ∃ a b, v = { w with a := a, b := b }

theorem VectorsMoved.trans {u v w : Wave} (h : VectorsMoved u v) (h' : VectorsMoved v w) : VectorsMoved u w := by
  obtain ⟨_, _, rfl⟩ := h
  obtain ⟨_, _, rfl⟩ := h'
  exact ⟨_, _, rfl⟩

theorem applyWrite_vector (w : Wave) (cl : Cluster) (n : Nat) (m : Word) (v : Lanes) (clash : Bool) :
    VectorsMoved w (applyWrite w (.v cl n m v) clash) := by cases cl <;> exact ⟨_, _, rfl⟩

/-! ### Lanes that return (R339) -/

/-- One lane of a vector register, and whether it is undefined. -/
def laneAt (w : Wave) (cl : Cluster) (n i : Nat) : Word × Bool := ((holdV w cl n).val.at i, (holdV w cl n).und.getLsbD i)

/-- The write of one lane. -/
def oneLane (cl : Cluster) (n lane : Nat) (v : Word) : RegWrite := .v cl n (BitVec.ofNat 32 (2 ^ lane)) (Lanes.all v)

theorem bit_lane {lane i : Nat} (hi : i < 32) : (BitVec.ofNat 32 (2 ^ lane)).getLsbD i = decide (lane = i) := by
  rw [BitVec.getLsbD_ofNat, Nat.testBit_two_pow]
  simp [hi]

/-- A masked write takes the lanes of its mask and leaves the others. -/
theorem laneAt_applyWrite (w : Wave) (cl : Cluster) (n : Nat) (m : Word) (v : Lanes) {i : Nat} (hi : i < 32) :
    laneAt (applyWrite w (.v cl n m v) false) cl n i = if m.getLsbD i then (v.at i, false) else laneAt w cl n i := by
  simp only [laneAt, holdV_applyWrite, and_self, if_true, Bool.false_eq_true, if_false, Lanes.merge_at _ _ _ hi, BitVec.getLsbD_and,
    BitVec.getLsbD_not, hi, decide_true, Bool.true_and]
  cases m.getLsbD i
  · rw [if_neg Bool.false_ne_true, if_neg Bool.false_ne_true, Bool.not_false, Bool.and_true]
  · rw [if_pos rfl, if_pos rfl, Bool.not_true, Bool.and_false]

theorem laneAt_oneLane (w : Wave) (cl : Cluster) (n : Nat) {lane : Nat} (v : Word) (c : Cluster) (k : Nat) {i : Nat} (hi : i < 32) :
    laneAt (applyWrite w (oneLane cl n lane v) false) c k i = if c = cl ∧ k = n ∧ lane = i then (v, false) else laneAt w c k i := by
  by_cases hreg : c = cl ∧ k = n
  · obtain ⟨rfl, rfl⟩ := hreg
    rw [oneLane, laneAt_applyWrite _ _ _ _ _ hi, bit_lane hi, Lanes.all_at _ hi]
    simp
  · rw [if_neg fun ⟨hc, hk, _⟩ => hreg ⟨hc, hk⟩, laneAt, oneLane, holdV_applyWrite, if_neg hreg]
    rfl

/-- Registers that a datum of a width takes. -/
def widWords (wd : Wid) : Nat := (dataRegs wd 0).length

/-- Word q of a lane's bytes. -/
def wordOf (bs : List Byte) (q : Nat) : Word := BitVec.ofNat 32 (leNat ((bs.drop (4 * q)).take 4))

/-- A lane's bytes go to consecutive registers, one word each. -/
theorem returnWrites_lanes (cl : Cluster) (d : Nat) (wd : Wid) (p : Piece) : returnWrites (.lanes cl d wd) p =
    (List.range (widWords wd)).map fun q => oneLane cl (d + q) p.lane (wordOf p.val q) := by
  cases wd <;> rfl

theorem landNow_append (w : Wave) (xs ys : List RegWrite) : landNow w (xs ++ ys) = landNow (landNow w xs) ys := List.foldl_append

theorem laneAt_landNow_range (w : Wave) (cl : Cluster) (d lane : Nat) (v : Nat → Word) (c : Cluster) (k : Nat) {i : Nat} (hi : i < 32) : ∀ n : Nat,
    laneAt (landNow w ((List.range n).map fun q => oneLane cl (d + q) lane (v q))) c k i =
      if c = cl ∧ d ≤ k ∧ k < d + n ∧ lane = i then (v (k - d), false) else laneAt w c k i
  | 0 => (if_neg fun ⟨_, hlo, hhi, _⟩ => by omega).symm
  | n + 1 => by
    rw [List.range_succ, List.map_append, landNow_append]
    refine (laneAt_oneLane _ cl (d + n) (v n) c k hi).trans ?_
    rw [laneAt_landNow_range w cl d lane v c k hi n]
    by_cases hlast : c = cl ∧ k = d + n ∧ lane = i
    · obtain ⟨rfl, rfl, rfl⟩ := hlast
      simp
    · rw [if_neg hlast]
      refine if_congr ⟨fun ⟨hc, hlo, hhi, hl⟩ => ⟨hc, hlo, by omega, hl⟩, fun ⟨hc, hlo, hhi, hl⟩ => ⟨hc, hlo, ?_, hl⟩⟩ rfl rfl
      exact Nat.lt_of_le_of_ne (by omega) fun hk => hlast ⟨hc, hk, hl⟩

/-- A returned lane takes its words and leaves every other. -/
theorem laneAt_returned (w : Wave) (cl : Cluster) (d : Nat) (wd : Wid) (p : Piece) (c : Cluster) (k : Nat) {i : Nat} (hi : i < 32) :
    laneAt (landNow w (returnWrites (.lanes cl d wd) p)) c k i =
      if c = cl ∧ d ≤ k ∧ k < d + widWords wd ∧ p.lane = i then (wordOf p.val (k - d), false) else laneAt w c k i := by
  rw [returnWrites_lanes]
  exact laneAt_landNow_range w cl d p.lane _ c k hi _

/-- The wave after lanes of an access have returned. -/
def returned (w : Wave) (dest : Dest) (ps : List Piece) : Wave := landNow w (ps.flatMap (returnWrites dest))

theorem returned_cons (w : Wave) (dest : Dest) (p : Piece) (ps : List Piece) :
    returned w dest (p :: ps) = returned (landNow w (returnWrites dest p)) dest ps := by
  rw [returned, List.flatMap_cons, landNow_append]
  rfl

theorem laneAt_returned_outside (cl : Cluster) (d : Nat) (wd : Wid) {c : Cluster} {k i : Nat} (hi : i < 32) : ∀ (ps : List Piece) (w : Wave),
    (c ≠ cl ∨ k < d ∨ d + widWords wd ≤ k ∨ ∀ p ∈ ps, p.lane ≠ i) → laneAt (returned w (.lanes cl d wd) ps) c k i = laneAt w c k i
  | [], _, _ => rfl
  | p :: ps, w, h => by
    rw [returned_cons, laneAt_returned_outside cl d wd hi ps _ (h.imp_right (Or.imp_right (Or.imp_right fun h q hq => h q (List.mem_cons_of_mem _ hq)))),
      laneAt_returned w cl d wd p c k hi]
    refine if_neg fun ⟨hc, hlo, hhi, hlane⟩ => ?_
    obtain h | h | h | h := h
    · exact h hc
    · omega
    · omega
    · exact h p (List.mem_cons_self ..) hlane

/-- Of lanes that are all different each takes its own words. -/
theorem laneAt_returned_inside (cl : Cluster) (d : Nat) (wd : Wid) : ∀ (ps : List Piece) (w : Wave), (ps.map (·.lane)).Nodup →
    ∀ p ∈ ps, p.lane < 32 → ∀ n, n < widWords wd → laneAt (returned w (.lanes cl d wd) ps) cl (d + n) p.lane = (wordOf p.val n, false)
  | [], _, _, _, hp, _, _, _ => absurd hp List.not_mem_nil
  | q :: ps, w, hnd, p, hp, hlane, n, hn => by
    obtain ⟨hfirst, hrest⟩ := List.nodup_cons.1 hnd
    rw [returned_cons]
    obtain rfl | hp := List.mem_cons.1 hp
    · rw [laneAt_returned_outside cl d wd hlane ps _ (.inr (.inr (.inr fun x hx hxl => hfirst (List.mem_map.2 ⟨x, hx, hxl⟩)))),
        laneAt_returned w cl d wd p cl (d + n) hlane, if_pos ⟨rfl, by omega, by omega, rfl⟩, Nat.add_sub_cancel_left]
    · exact laneAt_returned_inside cl d wd ps _ hrest p hp hlane n hn

theorem landNow_vector : ∀ (xs : List RegWrite) (w : Wave), (∀ x ∈ xs, ∃ cl n m v, x = .v cl n m v) → VectorsMoved w (landNow w xs)
  | [], _, _ => ⟨_, _, rfl⟩
  | x :: xs, w, h => by
    obtain ⟨cl, n, m, v, rfl⟩ := h x (List.mem_cons_self ..)
    exact (applyWrite_vector ..).trans (landNow_vector xs _ fun y hy => h y (List.mem_cons_of_mem _ hy))

theorem returned_vector (w : Wave) (cl : Cluster) (d : Nat) (wd : Wid) (ps : List Piece) : VectorsMoved w (returned w (.lanes cl d wd) ps) := by
  refine landNow_vector _ w fun x hx => ?_
  obtain ⟨p, -, hx⟩ := List.mem_flatMap.1 hx
  rw [returnWrites_lanes] at hx
  obtain ⟨q, -, rfl⟩ := List.mem_map.1 hx
  exact ⟨_, _, _, _, rfl⟩

/-- Writes move registers alone. -/
theorem landNow_regs : ∀ (xs : List RegWrite) (w : Wave), RegsMoved w (landNow w xs)
  | [], _ => ⟨_, _, _, _, _, rfl⟩
  | x :: xs, w => by
    obtain ⟨_, _, _, _, _, hx⟩ := applyWrite_regs w x false
    obtain ⟨s, h, k, a, b, hl⟩ := landNow_regs xs (applyWrite w x false)
    exact ⟨s, h, k, a, b, hl.trans (by rw [hx])⟩

/-- The acquires that a wave awaits take no part in its writes. -/
theorem AcquireMarks.landNow {w v : Wave} (h : AcquireMarks w v) : ∀ xs : List RegWrite, AcquireMarks (landNow w xs) (landNow v xs)
  | [] => h
  | x :: xs => by
    have hfirst : AcquireMarks (applyWrite w x false) (applyWrite v x false) := by
      obtain ⟨a, b, c, d, rfl⟩ := h
      refine ⟨a, b, c, d, ?_⟩
      cases x with
      | v cl n m v => cases cl <;> rfl
      | _ => rfl
    exact hfirst.landNow xs

theorem AcquireMarks.clearBusy {w v : Wave} (h : AcquireMarks w v) (id : Nat) : AcquireMarks (clearBusy w id) (clearBusy v id) := by
  obtain ⟨a, b, c, d, rfl⟩ := h
  exact ⟨a, b, c, d, rfl⟩

end Sys2Proof.Machine

/-! PROOF. LOAD_RETURN (R70, R207, R210, R213, R339, R343, R344). -/

namespace Sys2Proof.Machine

/-! ### A wave that a result reaches (R281) -/

/-- What a result changes but for its wave is the area of a halted wave. -/
theorem reach_written (s : State) (k : Nat) (v : Wave) : DevWritten (setWave s k v) (reach s k v) := by
  unfold reach
  extract_lets s1
  split
  · split
    · exact .foldl (fun _ _ => .devWrite ..) _ _
    · exact .refl _
  · exact .refl _

theorem reach_mem {s : State} {k : Nat} {w v : Wave} (hw : waveOf s k = some w) (hst : w.st ≠ .halted) : (reach s k v).mem = s.mem := by
  unfold reach
  rw [hw]
  split
  · next w' _ hw' _ =>
    obtain rfl := Option.some.inj hw'
    rw [if_neg fun h => hst h.2]
    rfl
  · rfl

theorem waveOf_reach (s : State) (k : Nat) (v : Wave) : waveOf (reach s k v) k = some v := by
  rw [waveOf, (reach_written s k v).waves]
  exact Tab.find_put_same ..

theorem reach_acc (s : State) (k : Nat) (v : Wave) : (reach s k v).acc = s.acc := by
  obtain ⟨_, _, _, _, h⟩ := reach_written s k v
  rw [h]
  rfl

/-! ### The end of an access -/

theorem prefHit_moved (s : State) (core lid : Nat) (lines : List Nat) : MachineryMoved s (prefHit s core lid lines) := by
  unfold prefHit
  split
  · exact .modCore ..
  · exact .refl s

theorem MachineryMoved.acc {s t : State} (h : MachineryMoved s t) : t.acc = s.acc := by
  obtain ⟨_, _, _, rfl⟩ := h
  rfl

theorem tryAcquire_acc (s : State) (k : Nat) : (tryAcquire s k).acc = s.acc := (endSupAcquire_ends ..).acc.trans (endAcquire_ends ..).acc

theorem tryAcquire_mem (s : State) (k : Nat) : (tryAcquire s k).mem = s.mem := (endSupAcquire_ends ..).calm.mem.trans (endAcquire_ends ..).calm.mem

theorem tryAcquire_wave {s : State} {k : Nat} {w : Wave} (hw : waveOf s k = some w) : ∃ v, waveOf (tryAcquire s k) k = some v ∧ AcquireMarks w v := by
  obtain ⟨v, hv, hmarks⟩ := (endAcquire_ends s k).wave hw
  obtain ⟨u, hu, hmarks'⟩ := (endSupAcquire_ends _ k).wave hv
  exact ⟨u, hu, hmarks.trans hmarks'⟩

theorem finishAcc_acc (s : State) (id : Nat) (a : Acc) : accOf (finishAcc s id a) id = none := by
  have hacc : (modWave (delAcc s id) a.wid fun w => clearBusy w id).acc = (delAcc s id).acc := by
    unfold modWave
    split <;> rfl
  rw [accOf, finishAcc, tryAcquire_acc, hacc]
  exact (accOf_delAcc s id id).trans (if_pos rfl)

theorem finishAcc_mem (s : State) (id : Nat) (a : Acc) : (finishAcc s id a).mem = s.mem := by
  rw [finishAcc, tryAcquire_mem]
  unfold modWave
  split <;> rfl

theorem finishAcc_wave {s : State} {id : Nat} {a : Acc} {w : Wave} (hw : waveOf s a.wid = some w) :
    ∃ v, waveOf (finishAcc s id a) a.wid = some v ∧ AcquireMarks (clearBusy w id) v := by
  have hw' : waveOf (delAcc s id) a.wid = some w := hw
  refine tryAcquire_wave ?_
  rw [modWave, hw']
  exact (waveOf_setWave ..).trans (if_pos rfl)

/-! ### The event -/

/-- What a LOAD_RETURN leaves: `back` has returned, `left` is still to return. -/
structure LanesBack (id : Nat) (s : State) (a : Acc) (w : Wave) (left back : List Piece) (t : State) : Prop where
  mem : w.st ≠ .halted → t.mem = s.mem
  acc : accOf t id = if left.isEmpty then none else some { a with pieces := left }
  wave : ∃ v, waveOf t a.wid = some v ∧
    AcquireMarks (if left.isEmpty then clearBusy (returned w a.dest back) id else returned w a.dest back) v

/-- Lanes of a load, an atomic or a compare-and-swap that return are written to their destination. -/
theorem exec_loadReturn {id : Nat} {s : State} {a : Acc} {w : Wave} {left back : List Piece} {u : State} (hnone : Tab.find s.invpg id = none)
    (ha : accOf s id = some a) (hw : waveOf s a.wid = some w) (hkind : a.kind = .load ∨ a.kind = .cas ∨ ∃ op, a.kind = .atomic op)
    (hgo : returnGo s id a (1 + pick s 52 a.pieces.length) a.pieces = (left, back, u, false)) (hback : back ≠ []) (hu : ReadMoved s u) :
    ∃ t, exec (.loadReturn id) s = .next t ∧ LanesBack id s a w left back t := by
  obtain ⟨w', hw', hmarks⟩ := hu.wave hw
  let s1 := reach u a.wid (returned w' a.dest back)
  let s2 := if a.loc then s1 else prefHit s1 a.core a.lid (pieceLines back)
  let s3 := if left.isEmpty then finishAcc s2 id a else setAcc s2 id { a with pieces := left }
  have hexec : exec (.loadReturn id) s = .next (bump s3) := by
    have hempty : back.isEmpty = false := by simpa using hback
    change execLoadReturn id s = _
    unfold execLoadReturn
    rw [hnone, ha]
    dsimp only
    split
    case h_4 hload hatomic hcas =>
      obtain hk | hk | ⟨op, hk⟩ := hkind
      · exact absurd hk hload
      · exact absurd hk hcas
      · exact absurd hk (hatomic op)
    all_goals
      simp only [hgo, hempty, Bool.false_eq_true, if_false, modReach, hw']
      cases hl : left.isEmpty <;> simp only [s3, hl, Bool.false_eq_true, if_false, if_true] <;> rfl
  have hmoved : MachineryMoved s1 s2 := by
    unfold s2
    split
    · exact .refl _
    · exact prefHit_moved ..
  have hwave2 : waveOf s2 a.wid = some (returned w' a.dest back) := (hmoved.waveOf _).trans (waveOf_reach ..)
  have hmem2 : w.st ≠ .halted → s2.mem = s.mem := fun hst => by
    have hst' : w'.st ≠ .halted := by
      obtain ⟨_, _, _, _, rfl⟩ := hmarks
      exact hst
    rw [hmoved.mem, reach_mem hw' hst', hu.mem]
  have hret : AcquireMarks (returned w a.dest back) (returned w' a.dest back) := hmarks.landNow _
  refine ⟨bump s3, hexec, ?_⟩
  unfold s3
  cases hl : left.isEmpty with
  | true =>
    obtain ⟨v, hv, hv'⟩ := finishAcc_wave (id := id) hwave2
    exact ⟨fun hst => (finishAcc_mem ..).trans (hmem2 hst), by rw [hl]; exact finishAcc_acc .., v, hv, by
      rw [hl]; exact (hret.clearBusy id).trans hv'⟩
  | false =>
    refine ⟨hmem2, ?_, _, hwave2, by rw [hl]; exact hret⟩
    rw [hl]
    exact (accOf_setAcc ..).trans (if_pos rfl)

end Sys2Proof.Machine

namespace Sys2Proof.Machine

/-! ### What has landed -/

theorem applyWrite_k {w : Wave} {x : RegWrite} (h : ∀ n m v, x ≠ .k n m v) : (applyWrite w x false).k = w.k := by
  cases x with
  | k n m v => exact absurd rfl (h n m v)
  | v cl n m v => cases cl <;> rfl
  | s n v => rfl
  | h n v => rfl

theorem sWrite_cases (sup : Bool) (n : Nat) (v : DWord) :
    (sup = true ∧ 56 ≤ n ∧ sWrite sup n v = .h (n - 56) v) ∨ ((sup = false ∨ n < 56) ∧ sWrite sup n v = .s n v) := by
  unfold sWrite
  by_cases h : sup = true ∧ 56 ≤ n
  · exact .inl ⟨h.1, h.2, if_pos (by simpa using h)⟩
  · refine .inr ⟨?_, if_neg (by simpa using h)⟩
    cases sup
    · exact .inl rfl
    · exact .inr (by simpa using h)

/-- No access returns to a mask register. -/
theorem returnWrites_not_k {dest : Dest} {p : Piece} {x : RegWrite} (hx : x ∈ returnWrites dest p) : ∀ n m v, x ≠ .k n m v := by
  intro n m v
  cases dest with
  | lanes cl d wd =>
    rw [returnWrites_lanes] at hx
    obtain ⟨q, -, rfl⟩ := List.mem_map.1 hx
    exact fun h => nomatch h
  | uni d sup wd =>
    obtain rfl := List.mem_singleton.1 hx
    obtain ⟨-, -, h⟩ | ⟨-, h⟩ := sWrite_cases sup d (BitVec.ofNat 64 (leNat p.val)) <;> exact h ▸ fun h => nomatch h
  | _ => exact absurd hx List.not_mem_nil

theorem landNow_k : ∀ (xs : List RegWrite) (w : Wave), (∀ x ∈ xs, ∀ n m v, x ≠ .k n m v) → (landNow w xs).k = w.k
  | [], _, _ => rfl
  | x :: xs, _, h => (landNow_k xs _ fun y hy => h y (List.mem_cons_of_mem _ hy)).trans (applyWrite_k (h x (List.mem_cons_self ..)))

theorem returned_k (w : Wave) (dest : Dest) (ps : List Piece) : (returned w dest ps).k = w.k := by
  refine landNow_k _ w fun x hx => ?_
  obtain ⟨p, -, hx⟩ := List.mem_flatMap.1 hx
  exact returnWrites_not_k hx

theorem returned_fel (w : Wave) (dest : Dest) (ps : List Piece) : (returned w dest ps).fel = w.fel := by
  obtain ⟨_, _, _, _, _, h⟩ := landNow_regs (ps.flatMap (returnWrites dest)) w
  rw [returned, h]

theorem returned_none (w : Wave) (ps : List Piece) : returned w .none ps = w := by
  have hempty : ps.flatMap (returnWrites .none) = [] := List.flatMap_eq_nil_iff.2 fun _ _ => rfl
  rw [returned, hempty]
  rfl

/-- A uniform access writes its one register (R269, R339). -/
theorem returned_uni (w : Wave) (d : Nat) (sup : Bool) (wd : Wid) (p : Piece) :
    returned w (.uni d sup wd) [p] = applyWrite w (sWrite sup d (BitVec.ofNat 64 (leNat p.val))) false := rfl

/-- The wave after lanes have returned, register by register; the marks of an access that is over are gone. -/
theorem LanesBack.regs {id : Nat} {s t : State} {a : Acc} {w : Wave} {left back : List Piece} (h : LanesBack id s a w left back t) :
    ∃ v, waveOf t a.wid = some v ∧ v.s = (returned w a.dest back).s ∧ v.h = (returned w a.dest back).h ∧ v.k = (returned w a.dest back).k ∧
      v.a = (returned w a.dest back).a ∧ v.b = (returned w a.dest back).b ∧ v.fel = (returned w a.dest back).fel ∧
      (accOf t id = none → ∀ b ∈ v.busy, b.by_ ≠ id) := by
  obtain ⟨v, hv, hmarks⟩ := h.wave
  refine ⟨v, hv, ?_⟩
  cases hl : left.isEmpty with
  | true =>
    rw [hl, if_pos rfl] at hmarks
    obtain ⟨_, _, _, _, rfl⟩ := hmarks
    refine ⟨rfl, rfl, rfl, rfl, rfl, rfl, fun _ b hb => ?_⟩
    exact bne_iff_ne.1 (List.mem_filter.1 hb).2
  | false =>
    rw [hl, if_neg Bool.false_ne_true] at hmarks
    obtain ⟨_, _, _, _, rfl⟩ := hmarks
    refine ⟨rfl, rfl, rfl, rfl, rfl, rfl, fun hnone => ?_⟩
    rw [h.acc, hl, if_neg Bool.false_ne_true] at hnone
    exact absurd hnone (by simp)

/-! ### Which lanes return -/

/-- A load of one lane that can be performed is performed and returns. -/
theorem returnGo_single {s : State} {id : Nat} {a : Acc} {p : Piece} {loc : Nat} (hkind : a.kind = .load) (hpa : p.pa = some loc)
    (hready : loadReady s id a p = true) (hecc : eccLoad s id a p.va loc p.size = false) : returnGo s id a 1 [p] =
      ([], [{ p with val := (performLoad s id a p loc).1, done := true }], (performLoad s id a p loc).2, false) := by
  have hfault : p.fault.isSome = false ∧ p.done = false := by
    simp only [loadReady, Bool.and_eq_true, Bool.not_eq_true', Option.isNone_iff_eq_none] at hready
    obtain ⟨⟨⟨⟨-, hfault⟩, hdone⟩, -⟩, -⟩ := hready
    exact ⟨by rw [hfault]; rfl, hdone⟩
  simp [returnGo, hfault, hkind, hready, hpa, hecc]

/-- Of lanes that have all been performed the first return. -/
theorem returnGo_done (s : State) (id : Nat) (a : Acc) : ∀ (n : Nat) (ps : List Piece), (∀ p ∈ ps, p.done = true ∧ p.fault = none) →
    returnGo s id a n ps = (ps.drop n, ps.take n, s, false)
  | n, [], _ => by simp [returnGo]
  | 0, p :: ps, h => by
    obtain ⟨-, hfault⟩ := h p (List.mem_cons_self ..)
    simp [returnGo, hfault]
  | n + 1, p :: ps, h => by
    obtain ⟨hdone, hfault⟩ := h p (List.mem_cons_self ..)
    simp [returnGo, hfault, hdone, returnGo_done s id a n ps fun q hq => h q (List.mem_cons_of_mem _ hq)]

theorem pick_le_pred (s : State) (tag n : Nat) : pick s tag n ≤ n - 1 := by
  unfold pick
  split
  · omega
  · have := Nat.mod_lt (Config.freePick s.serial tag) (show 0 < n by omega)
    omega

/-- Settles O30: what each returning lane writes, register by register, and what a lane that is performed as it returns reads. -/
theorem loadReturnWritesItsLane : Obligations.LoadReturnWritesItsLane := by
  unfold Obligations.LoadReturnWritesItsLane
  intro id s a w hnone ha hw words lands
  have hwords : ∀ wd, words wd = widWords wd := fun wd => by cases wd <;> rfl
  have lands_of : ∀ {left back : List Piece} {t : State}, LanesBack id s a w left back t → (back.map (·.lane)).Nodup →
      (∀ p ∈ back, p.lane < 32) → lands t back := by
    intro left back t h hnd hlanes
    obtain ⟨v, hv, hs, hh, hk, ha, hb, hfel, hbusy⟩ := h.regs
    have hlane : ∀ cl n m, laneAt v cl n m = laneAt (returned w a.dest back) cl n m := fun cl n m => by
      cases cl
      · simp only [laneAt, holdV, ha]
      · simp only [laneAt, holdV, hb]
    refine ⟨h.mem, v, hv, hk.trans (returned_k ..), hfel.trans (returned_fel ..), hbusy, fun cl d wd hdest => ?_,
      fun d sup wd p hdest hps => ?_, fun hdest => ?_⟩
    · rw [hdest] at hs hh hlane
      obtain ⟨_, _, hvec⟩ := returned_vector w cl d wd back
      refine ⟨hs.trans (by rw [hvec]), hh.trans (by rw [hvec]), fun p hp n hn => ?_, fun c n m hm hout => ?_⟩
      · rw [hwords] at hn
        exact Prod.mk.inj ((hlane ..).trans (laneAt_returned_inside cl d wd back w hnd p hp (hlanes p hp) n hn))
      · rw [hwords] at hout
        exact Prod.mk.inj ((hlane ..).trans (laneAt_returned_outside cl d wd hm back w hout))
    · subst hps
      rw [hdest, returned_uni] at hs hh ha hb
      obtain ⟨hsup, hd, hwrite⟩ | ⟨hnot, hwrite⟩ := sWrite_cases sup d (BitVec.ofNat 64 (leNat p.val))
      · rw [hwrite] at hs hh ha hb
        refine ⟨ha, hb, fun _ => ⟨hs, ?_, fun n hn => ?_⟩, fun hno => ?_⟩
        · rw [hh]
          exact Tab.find_put_same ..
        · rw [hh]
          exact Tab.find_put_ne _ _ _ _ hn
        · exact absurd hno (by simp [hsup, hd])
      · rw [hwrite] at hs hh ha hb
        refine ⟨ha, hb, fun hyes => ?_, fun _ => ⟨hh, ?_, fun n hn => ?_⟩⟩
        · obtain ⟨hsup, hd⟩ := hyes
          exact absurd hnot (by simp [hsup, hd])
        · rw [hs]
          exact Tab.find_put_same ..
        · rw [hs]
          exact Tab.find_put_ne _ _ _ _ hn
    · rw [hdest, returned_none] at hs hh ha hb
      exact ⟨hs, hh, ha, hb⟩
  refine ⟨fun p loc hkind hpieces hlane hpa hready hecc => ?_, fun hkind hsome hdone hnd => ?_⟩
  · have hgo : returnGo s id a (1 + pick s 52 a.pieces.length) a.pieces =
        ([], [{ p with val := (performLoad s id a p loc).1, done := true }], (performLoad s id a p loc).2, false) := by
      rw [hpieces]
      exact returnGo_single hkind hpa hready hecc
    obtain ⟨t, hexec, hback⟩ := exec_loadReturn hnone ha hw (.inl hkind) hgo (by simp) (performLoad_moved ..)
    refine ⟨t, _, hexec, hback.acc, length_performLoad .., lands_of hback (by simp) (by simpa using hlane), ?_, ?_⟩
    · exact fun hscope => ⟨performLoad_strong hscope, performLoad_strong_alias hscope⟩
    · exact fun hscope halone => ⟨performLoad_home hscope halone, performLoad_snapshot hscope halone, performLoad_plain_alias hscope halone⟩
  · have hlen : 0 < a.pieces.length := List.length_pos_iff.2 hsome
    have hpick := pick_le_pred s 52 a.pieces.length
    have hgo := returnGo_done s id a (1 + pick s 52 a.pieces.length) a.pieces fun p hp => ⟨(hdone p hp).1, (hdone p hp).2.1⟩
    have htake : a.pieces.take (1 + pick s 52 a.pieces.length) ≠ [] := fun h => by
      rw [List.take_eq_nil_iff] at h
      exact h.elim (by omega) hsome
    obtain ⟨t, hexec, hback⟩ := exec_loadReturn hnone ha hw hkind hgo htake (.refl s)
    have hnd' : ((a.pieces.take (1 + pick s 52 a.pieces.length)).map (·.lane)).Nodup := hnd.sublist ((List.take_sublist ..).map _)
    refine ⟨t, _, hexec, by omega, by omega, lands_of hback hnd' fun p hp => (hdone p (List.mem_of_mem_take hp)).2.2, hback.acc.trans ?_⟩
    refine if_congr ?_ rfl rfl
    rw [List.isEmpty_iff, List.drop_eq_nil_iff]
    omega

end Sys2Proof.Machine

/-! PROOF. Exposed results land; records and landing conflicts take a wave to its handler (R65, R67, R71, R195 to R197, R266 to R268). -/

namespace Sys2Proof.Machine

/-! ### Exposed results land -/

/-- The wave without the windows whose bound has run out. -/
def openWins (w : Wave) : Wave := { w with wins := w.wins.filter fun y => y.left != 0 }

theorem landDone_single {w : Wave} {x : Window} (hx : w.wins.filter (fun y => y.left == 0) = [x]) :
    landDone w = applyWrite (openWins w) x.w x.clash := by
  rw [landDone, hx]
  rfl

theorem exposedResultLand_none {wid : Nat} {s : State} {w : Wave} (hw : waveOf s wid = some w) (h : ∀ x ∈ w.wins, x.left ≠ 0) :
    exec (.exposedResultLand wid) s = .refused .notEnabled := by
  have hnone : (w.wins.any fun x => x.left == 0) = false := List.any_eq_false.2 fun x hx => by simpa using h x hx
  change execExposedResultLand wid s = _
  rw [execExposedResultLand, hw]
  exact if_neg (by simp [hnone])

theorem exposedResultLand_single {wid : Nat} {s : State} {w : Wave} {x : Window} (hw : waveOf s wid = some w)
    (hx : w.wins.filter (fun y => y.left == 0) = [x]) :
    exec (.exposedResultLand wid) s = .next (bump (setWave s wid (applyWrite (openWins w) x.w x.clash))) := by
  have hdue : x ∈ w.wins.filter (fun y => y.left == 0) := hx ▸ List.mem_singleton_self x
  have hany : (w.wins.any fun y => y.left == 0) = true := List.any_eq_true.2 ⟨x, List.mem_filter.1 hdue⟩
  change execExposedResultLand wid s = _
  rw [execExposedResultLand, hw, ← landDone_single hx]
  exact if_pos hany

/-- What a masked write leaves undefined, without a clash. -/
theorem undefined_at (u m : Word) {i : Nat} (hi : i < 32) : (u &&& ~~~m).getLsbD i = (!m.getLsbD i && u.getLsbD i) := by
  rw [BitVec.getLsbD_and, BitVec.getLsbD_not, decide_eq_true hi, Bool.true_and, Bool.and_comm]

/-- A mask register takes the lanes of the write's mask, or is undefined whole after a clash. -/
theorem landed_mask (w : Wave) (n : Nat) (m d : Word) (clash : Bool) :
    let v := applyWrite w (.k n m d) clash
    (∀ r, r ≠ n → holdK v r = holdK w r) ∧ (clash = true → (holdK v n).und = BitVec.allOnes 32) ∧
      ∀ i, i < 32 → (holdK v n).val.getLsbD i = (if m.getLsbD i then d.getLsbD i else (holdK w n).val.getLsbD i) ∧
        (clash = false → (holdK v n).und.getLsbD i = (!m.getLsbD i && (holdK w n).und.getLsbD i)) := by
  refine ⟨fun r hr => (holdK_applyWrite ..).trans (if_neg hr), fun hc => ?_, fun i hi => ⟨?_, fun hc => ?_⟩⟩
  · rw [holdK_applyWrite, if_pos rfl, if_pos hc]
  · rw [holdK_applyWrite, if_pos rfl, BitVec.getLsbD_or, BitVec.getLsbD_and, BitVec.getLsbD_and, BitVec.getLsbD_not, decide_eq_true hi]
    cases m.getLsbD i <;> simp
  · rw [holdK_applyWrite, if_pos rfl, hc]
    exact undefined_at _ _ hi

/-- A vector register takes the lanes of the write's mask, or is undefined whole after a clash. -/
theorem landed_vector (w : Wave) (cl : Cluster) (n : Nat) (m : Word) (d : Lanes) (clash : Bool) :
    let v := applyWrite w (.v cl n m d) clash
    (∀ c r, (c, r) ≠ (cl, n) → holdV v c r = holdV w c r) ∧ (clash = true → (holdV v cl n).und = BitVec.allOnes 32) ∧
      ∀ i, i < 32 → (holdV v cl n).val.at i = (if m.getLsbD i then d.at i else (holdV w cl n).val.at i) ∧
        (clash = false → (holdV v cl n).und.getLsbD i = (!m.getLsbD i && (holdV w cl n).und.getLsbD i)) := by
  refine ⟨fun c r hr => (holdV_applyWrite ..).trans (if_neg fun ⟨hc, hn⟩ => hr (by rw [hc, hn])), fun hc => ?_, fun i hi => ⟨?_, fun hc => ?_⟩⟩
  · rw [holdV_applyWrite, if_pos ⟨rfl, rfl⟩, if_pos hc]
  · rw [holdV_applyWrite, if_pos ⟨rfl, rfl⟩]
    exact Lanes.merge_at m d _ hi
  · rw [holdV_applyWrite, if_pos ⟨rfl, rfl⟩, hc]
    exact undefined_at _ _ hi

/-! ### Handler entry -/

/-- The wave after HANDLER_ENTRY: what the handler finds. -/
def EnteredWith (s : State) (wid : Nat) (w : Wave) (e : Word) (cause : Nat) (pc : Word) (word : Nat) (lanes : Word) (outer : Option Waiting) : Prop :=
  ∃ t v, exec (.handlerEntry wid) s = .next t ∧ waveOf t wid = some v ∧ v.sup = true ∧ v.st = .handler ∧ v.pc = e ∧ v.tok = none ∧
    v.trappc = pc ∧ v.trapcause = BitVec.ofNat 64 word ∧ holdK v 15 = { val := lanes, und := 0 } ∧
    v.trapmask = rdK s (drainWins w) (tagOf 7 0) 15 ∧ v.outer = outer ∧ v.wins = [] ∧ v.live = w.live ∧ v.fel = w.fel ∧ v.recs = w.recs ∧
    (cause = 0x0B → v.landDue = false) ∧ t.mem = s.mem ∧ ∀ x, x ≠ wid → waveOf t x = waveOf s x

/-- The wave with its mark of a landing conflict set or cleared. -/
def markLanding (due : Bool) (w : Wave) : Wave := { w with landDue := due }

/-- A window lands. -/
def landWin (w : Wave) (x : Window) : Wave := applyWrite w x.w x.clash

/-- A write does not look at a landing conflict. -/
theorem applyWrite_markLanding (due : Bool) (w : Wave) (x : RegWrite) (clash : Bool) :
    applyWrite (markLanding due w) x clash = markLanding due (applyWrite w x clash) := by
  cases x with
  | v cl n m v => cases cl <;> rfl
  | _ => rfl

theorem drainWins_markLanding (due : Bool) (w : Wave) : drainWins (markLanding due w) = markLanding due (drainWins w) :=
  List.foldl_hom (init := { w with wins := [] }) (markLanding due) (g₁ := landWin) (g₂ := landWin)
    fun a x => applyWrite_markLanding due a x.w x.clash

theorem drainWins_keeps (w : Wave) : (drainWins w).wins = [] ∧ (drainWins w).live = w.live ∧ (drainWins w).fel = w.fel ∧
    (drainWins w).recs = w.recs ∧ (drainWins w).landDue = w.landDue ∧ (drainWins w).wait = w.wait ∧ (drainWins w).pc = w.pc := by
  obtain ⟨_, _, _, _, _, hregs⟩ := drainWins_regs w
  rw [hregs]
  exact ⟨rfl, rfl, rfl, rfl, rfl, rfl, rfl⟩

theorem recCause_record (r : FRec) : recCause r = 0x07 ∨ recCause r = 0x08 ∨ recCause r = 0x09 := by
  unfold recCause
  split_ifs <;> simp

theorem recCause_ne_landing (r : FRec) : recCause r ≠ 0x0B := by
  have h := recCause_record r
  omega

/-- The cause and the faulting lanes of a record at HEAD (R266, R267). -/
theorem headCause_record {w : Wave} {r : FRec} (hr : Tab.find w.recs w.head = some r) : headCause w = recCause r := by
  rw [headCause, headRec, hr]

theorem trapLanes_record {s : State} {w : Wave} {r : FRec} (hr : Tab.find w.recs w.head = some r) :
    trapLanes s w (recCause r) = instrLanes s w r := by
  rw [trapLanes, if_pos (recCause_record r), headRec, hr]

theorem trapWord_reissued (cause : Nat) : trapWord cause 0 false false true = BitVec.ofNat 64 (cause + 2 ^ 8) := by simp [trapWord]

theorem trapWord_inwait (cause : Nat) : trapWord cause 0 false true false = BitVec.ofNat 64 (cause + 2 ^ 9) := by simp [trapWord]

/-- A step that enters the handler from the wave, its landing conflict taken or not, leaves what R267 says. -/
theorem enteredWith {s s' : State} {wid : Nat} {w : Wave} {e pc lanes : Word} {cause word : Nat} {inwait due : Bool} {outer : Option Waiting}
    (hexec : exec (.handlerEntry wid) s =
      .next (bump (setWave s' wid (enterWave s' (markLanding due w) e (BitVec.ofNat 64 word) pc lanes inwait))))
    (hdue : cause = 0x0B → due = false) (hs : s' = s ∨ s' = setWave s wid (markLanding due w))
    (houter : (if inwait then w.wait.map fun x => { x with next := w.pc } else none) = outer) :
    EnteredWith s wid w e cause pc word lanes outer := by
  have hmem : s'.mem = s.mem := by obtain rfl | rfl := hs <;> rfl
  have hothers : ∀ x, x ≠ wid → waveOf s' x = waveOf s x := by
    obtain rfl | rfl := hs
    · exact fun _ _ => rfl
    · exact fun x hx => (waveOf_setWave ..).trans (if_neg hx)
  have hread : rdK s' (drainWins (markLanding due w)) (tagOf 7 0) 15 = rdK s (drainWins w) (tagOf 7 0) 15 := by
    rw [drainWins_markLanding]
    obtain rfl | rfl := hs <;> rfl
  obtain ⟨hwins, hlive, hfel, hrecs, hland, hwait, hpc⟩ := drainWins_keeps (markLanding due w)
  have hkept : (if inwait then (drainWins (markLanding due w)).wait.map fun x => { x with next := (drainWins (markLanding due w)).pc } else none) = outer := by
    rw [hwait, hpc]
    exact houter
  exact ⟨_, _, hexec, (waveOf_setWave ..).trans (if_pos rfl), rfl, rfl, rfl, rfl, rfl, rfl, (Tab.findD_put ..).trans (if_pos rfl), hread, hkept, hwins,
    hlive, hfel, hrecs, fun h => hland.trans (hdue h), hmem, fun x hx => (waveOf_setWave ..).trans ((if_neg hx).trans (hothers x hx))⟩

section
variable {s : State} {wid : Nat} {w : Wave} {e : Word} (hw : waveOf s wid = some w) (hsup : w.sup = false)
include hw hsup

/-- A running wave enters for a record that is due, where its bundle raises nothing. -/
theorem exec_handlerEntry_record (hst : w.st = .running) (hraise : raisesNow s wid w = false) (hdue : recordDue s wid w = true) :
    exec (.handlerEntry wid) s = .next (bump (enterHandler s wid w (headCause w) 0 false false w.pc w.pc)) := by
  change execHandlerEntry wid s = _
  simp only [execHandlerEntry, hw, hsup, hst, hraise, hdue, Bool.false_eq_true, if_false, if_true]
  rfl

/-- A running wave enters for a landing conflict where no record is due and its bundle does not wait. -/
theorem exec_handlerEntry_landing (hst : w.st = .running) (hraise : raisesNow s wid w = false) (hrec : recordDue s wid w = false)
    (hstop : w.stopping = none) (hheld : heldNow s wid w = false) (hland : w.landDue = true) :
    exec (.handlerEntry wid) s =
      .next (bump (enterHandler (setWave s wid (markLanding false w)) wid (markLanding false w) 0x0B 0 false false w.pc w.pc)) := by
  change execHandlerEntry wid s = _
  simp only [execHandlerEntry, markLanding, hw, hsup, hst, hraise, hrec, hstop, hheld, hland, Bool.false_eq_true, if_false, if_true, Option.isNone_none,
    Bool.not_false, Bool.and_self]
  rfl

/-- A waiting wave enters for what ends its wait. -/
theorem exec_handlerEntry_waiting {x : Waiting} (hst : w.st = .waiting) (hwait : w.wait = some x) (hends : endsWait w x = true) :
    exec (.handlerEntry wid) s = .next (bump (enterHandler s wid w (headCause w) 0 false true x.here x.here)) := by
  change execHandlerEntry wid s = _
  simp only [execHandlerEntry, hw, hsup, hst, hwait, hends, Bool.false_eq_true, if_false, if_true]
  rfl

omit hw in
/-- Handler entry for the record at HEAD, at issue or out of a wait. -/
theorem enteredWith_record {r : FRec} {inwait : Bool} {pc : Word}
    (hexec : exec (.handlerEntry wid) s = .next (bump (enterHandler s wid w (headCause w) 0 false inwait pc pc)))
    (hr : Tab.find w.recs w.head = some r) (he : entryFor s w.lid (recCause r) = some e) :
    EnteredWith s wid w e (recCause r) pc (recCause r + if inwait then 2 ^ 9 else 2 ^ 8) (instrLanes s w r)
      (if inwait then w.wait.map fun x => { x with next := w.pc } else none) := by
  have hword : trapWord (recCause r) 0 false inwait (!inwait) = BitVec.ofNat 64 (recCause r + if inwait then 2 ^ 9 else 2 ^ 8) := by
    cases inwait
    · exact trapWord_reissued _
    · exact trapWord_inwait _
  rw [headCause_record hr, enterHandler_enters hsup he, hword, trapLanes_record hr] at hexec
  exact enteredWith (due := w.landDue) hexec (fun h => absurd h (recCause_ne_landing r)) (.inl rfl) rfl

end

/-- Settles O48: a window that has run out is one register write; an entry is `enterWave` of the wave, whose drained windows change its
registers alone. -/
theorem resultsLandAndRecordsTrap : Obligations.ResultsLandAndRecordsTrap := by
  unfold Obligations.ResultsLandAndRecordsTrap
  refine ⟨fun wid s w hw => ⟨exposedResultLand_none hw, fun x hx => ⟨_, exposedResultLand_single hw hx, ?_⟩⟩,
    fun wid s w e hw hsup hstop => ⟨fun r hst hraise hr hload he => ?_, fun r x hst hwait hr hstore he => ?_,
      fun hst hraise hrecs hcount hheld hland he => ?_⟩⟩
  · obtain ⟨_, _, _, _, _, hregs⟩ := applyWrite_regs (openWins w) x.w x.clash
    refine ⟨?_, ?_, ?_, ?_, ?_, fun n d hn => ?_, fun n d hn => ?_, fun n m d hn => ?_, fun cl n m d hn => ?_⟩
    iterate 5 rw [hregs]; rfl
    · rw [hn]
      exact ⟨rfl, rfl, rfl, rfl, rfl⟩
    · rw [hn]
      exact ⟨rfl, rfl, rfl, rfl, rfl⟩
    · rw [hn]
      exact ⟨rfl, rfl, rfl, rfl, landed_mask (openWins w) n m d x.clash⟩
    · rw [hn]
      obtain ⟨_, _, hvec⟩ := applyWrite_vector (openWins w) cl n m d x.clash
      refine ⟨?_, ?_, ?_, landed_vector (openWins w) cl n m d x.clash⟩
      iterate 3 rw [hvec]; rfl
  · have hdue : recordDue s wid w = true := by simp [recordDue, hstop, hload]
    exact enteredWith_record hsup (exec_handlerEntry_record hw hsup hst hraise hdue) hr he
  · have hends : endsWait w x = true := by simp [endsWait, hstore]
    have hin := enteredWith_record hsup (exec_handlerEntry_waiting hw hsup hst hwait hends) hr he
    rwa [hwait] at hin
  · have hrec : recordDue s wid w = false := by simp [recordDue, hstop, loadRec, storeRec, hrecs, hcount]
    have hexec := exec_handlerEntry_landing hw hsup hst hraise hrec hstop hheld hland
    rw [enterHandler_enters (s := setWave s wid (markLanding false w)) (w := markLanding false w) hsup he, Bool.not_false, trapWord_reissued] at hexec
    exact enteredWith hexec (fun _ => rfl) (.inr rfl) rfl

end Sys2Proof.Machine

/-! PROOF. A fetch that passes over a pad (R59, R60) and then ends its launch (R61): where the launch's kill ends no launch, its wave stays, with
its bundle address as it was. -/

namespace Sys2Proof.Machine

/-! ### A kill that ends no launch -/

/-- A kill ends the accepted launches of its route alone (R273): from a stage that is accepted no longer, and with no other, it leaves the
waves. -/
theorem killLaunch_waves_of_killSet_nil {s : State} {lid : Nat} (h : killSet s lid = []) (code die core slot addr detail : Nat) :
    (killLaunch s lid code die core slot addr detail).waves = s.waves := by
  unfold killLaunch
  split
  · rfl
  · have hcopies : (s.copies.filter fun e => ([] : List Nat).contains e.2.lid) = [] := List.filter_eq_nil_iff.2 fun e _ => by simp
    simp only [h, hcopies, List.foldl_nil]
    exact writeSide_waves ..

/-! ### The counterexample -/

/-- An untranslated image of one page: a stream of 8 bytes from 48, its map at 56, a dictionary of one word. -/
def padImage : Image :=
  { far := true, phys := true, addr := 0, hashes := [], segs := [], roles := []
    hdr := { pages := 1, dictN := 1, dictOff := 0, streamLen := 8, streamOff := 48, mapOff := 56, segOff := 64, segs := 0, ceiling := 7, fidelity := 0,
             window := 8, roles := 0, roleOff := 96, constOff := 0, constLen := 0, keyid := 0 } }

/-- The check of the image's page. -/
def padPage : Checked := { die := 0, hand := false, page := 0, loc := Config.farBase, seq := 0 }

/-- A stage of a route that has completed. -/
def endedStage : Launch :=
  { vf := 1, q := 0, pkt := 0, asid := 1, img := padImage, htab := { en := false, image := none, wd := 20, entries := [] }, floor := 0, asked := 0,
    level := 3, cvs := [], cvmap := [], die := 0, placed := 1, retired := 1, st := .complete, energy := 0, drew := false, verified := [padPage],
    born := 0, checked := true, saved := false, stopping := false, raised := false
    p := { flags := 0, image := 0, far := true, parties := 1, die := 0, oppLo := 0, oppHi := 7, window := 8, cwaves := 1, pwaves := 0, centry := 0,
           pentry := 0, callotA := 64, callotB := 64, pallotA := 0, pallotB := 0, fidel := 3, gate := 0, gcount := 1, region := 2, route := 1,
           stage := 0, cvaddr := 0, cvcount := 0, energy := 0 } }

/-- A wave of the stage, in front of the first byte of the stream. -/
def padWave : Wave := { Wave.init with lid := 1 }

/-- The stream begins with a pad on a marked byte; its second byte is not marked. -/
def padState : State :=
  { State.reset with waves := [(0, padWave)], launches := [(1, endedStage)], mem := [(Config.farBase + 48, 0xF0), (Config.farBase + 56, 1)] }

/-- The wave past the pad, and the part with it. -/
def padPassed : Wave := { padWave with pc := padWave.pc + 1 }
def passedState : State := setWave padState 0 padPassed

theorem padState_imageReady : ImageReady padState 1 endedStage false padImage 0 := by
  refine ⟨rfl, rfl, rfl, rfl, rfl, fun page hpage => ?_, by decide, by decide, by decide⟩
  have hfirst : page = 0 := Nat.lt_one_iff.1 hpage
  subst hfirst
  exact ⟨padPage, rfl, rfl, fun x hx => absurd hx List.not_mem_nil⟩

/-- The fetch passes over the pad and kills at the byte after it. -/
theorem exec_padState : exec (.tokenFetch 0) padState = .next (bump (killWave padState 0 padWave 0x15 1 0)) := by
  set_option maxRecDepth 20000 in rfl

theorem exec_passedState : exec (.tokenFetch 0) passedState = .next (bump (killWave passedState 0 padPassed 0x15 1 0)) := by
  set_option maxRecDepth 20000 in rfl

/-- Both kills leave their wave as it stood. -/
theorem padState_killed : (killWave padState 0 padWave 0x15 1 0).waves = [(0, padWave)] := killLaunch_waves_of_killSet_nil rfl ..

theorem passedState_killed : (killWave passedState 0 padPassed 0x15 1 0).waves = [(0, padPassed)] := killLaunch_waves_of_killSet_nil rfl ..

/-- Steps with one outcome leave the same waves. -/
theorem waves_of_next {s t : State} (h : (.next (bump s) : Out) = .next (bump t)) : s.waves = t.waves := by
  have hwaves : (bump s).waves = (bump t).waves := congrArg State.waves (Host.Outcome.next.inj h)
  exact hwaves

/-- Refutes O47: its clause of a pad says that the fetch is that of the wave one byte further, and does not ask that the launch be accepted. A
stage of a route that has ended is not ended again by the kill of the next byte's fetch, so its wave is seen to stand before the pad or after it. -/
theorem not_tokenFetchAndRefill : ¬ Obligations.TokenFetchAndRefill := by
  unfold Obligations.TokenFetchAndRefill
  rintro ⟨hfetch, -⟩
  obtain ⟨-, htoken⟩ := hfetch padState 0 padWave endedStage padImage rfl (by decide)
  obtain ⟨-, hmarked⟩ := htoken padState_imageReady
  obtain ⟨-, hpad, -⟩ := hmarked (by decide) (by decide)
  have hsame : exec (.tokenFetch 0) padState = exec (.tokenFetch 0) passedState := hpad (by decide) (by decide) (by decide)
  rw [exec_padState, exec_passedState] at hsame
  have hwaves := waves_of_next hsame
  rw [padState_killed, passedState_killed] at hwaves
  exact absurd hwaves (by decide)

end Sys2Proof.Machine

/-! PROOF. Traps that no handler takes: TRAP and SVC without a valid entry or from the handler, and the privilege trap (R96, R99, R265,
R267, R270, R316, R317, R325, R356, R376). -/

namespace Sys2Proof.Machine

/-! ### TRAP and SVC (R363, R376) -/

/-- TRAP and SVC name no register and wait for nothing, so that they take effect in every wave that issues. -/
theorem issues_softwareTrap {i : Instr} {s : State} {w : Wave} {c : BitVec 8} (h : i = .trap c ∨ i = .svc c) (hi : Issuing s w) :
    Issues i s w := by
  obtain rfl | rfl := h
  all_goals
    refine ⟨hi, rfl, rfl, ?_, rfl⟩
    simp [holds, interlocks, scoreHeld, readsOf, writesOf, scalarHold, memHold, memReq, isTile, slotWaits, slotReads, slotFills, isPublish,
      tollStops, tollWaits, tileReq]

/-- With no valid entry, or in the handler, either ends the launch with cause 0x10 at its own bundle. -/
theorem exec_softwareTrap_kills {i : Instr} {s : State} {w : Wave} {c : BitVec 8} (h : i = .trap c ∨ i = .svc c) (hi : Issuing s w)
    (hno : w.sup = true ∨ entryFor s w.lid 0x10 = none) :
    exec i s = .next (bump (killWave s s.cur.wid w 0x10 s.cur.here (if w.sup then c.toNat else 0))) := by
  have hissues := issues_softwareTrap h hi
  obtain rfl | rfl := h
  · change execTrap c s = _
    rw [execTrap, slotOp_issues hissues, enterHandler_kills hno]
  · change execSvc c s = _
    rw [execSvc, slotOp_issues hissues, enterHandler_kills hno]

/-! ### The privilege trap (R96, R99) -/

/-- What the privilege trap refuses is a slot operation of the S slot. -/
theorem kind_of_privTrap {i : Instr} {w : Wave} (s : State) (h : privTrap i w = true) :
    isTile i = false ∧ ∃ body, exec i s = slotOp i s body := by
  unfold privTrap at h
  split at h
  case h_7 => cases h
  all_goals
    refine ⟨rfl, ?_⟩
    dsimp only [exec]
    exact ⟨_, rfl⟩

/-- The privilege trap comes before the other checks of an operation and ends the launch. -/
theorem exec_privTrap_kills {i : Instr} {s : State} {w : Wave} (hi : Issuing s w) (hgo : s.cur.go = false) (hscore : scoreHeld i w = false)
    (hpriv : privTrap i w = true) : exec i s = .next (bump (killWave s s.cur.wid w 0x12 s.cur.here 0)) := by
  obtain ⟨htile, body, hexec⟩ := kind_of_privTrap s hpriv
  have htrap : issueTrap i s s.cur.wid w = some (trapOf 0x12) := by simp [issueTrap, htile, hpriv]
  rw [hexec, slotOp_trap hi hgo hscore htrap, takeTrap_kills rfl]

/-- Settles O9: a handler cause that finds no entry is a kill, and so is the privilege trap, whose cause no handler takes. -/
theorem trapsWithoutHandlerKill : Obligations.TrapsWithoutHandlerKill := by
  unfold Obligations.TrapsWithoutHandlerKill
  refine ⟨fun s w c hi hno => ⟨exec_softwareTrap_kills (.inl rfl) hi hno, exec_softwareTrap_kills (.inr rfl) hi hno⟩,
    fun s w i hi hgo hscore hrefused => exec_privTrap_kills hi hgo hscore ?_⟩
  obtain ⟨hsup, rfl | ⟨o, rfl⟩ | ⟨f, rfl⟩ | ⟨d, rfl⟩ | ⟨a, rfl | rfl | rfl⟩⟩ | ⟨hsup, k, rfl⟩ := hrefused
  all_goals simp [privTrap, srdPriv, swrPriv, hsup]

end Sys2Proof.Machine

/-! PROOF. VADD, VSUB and VMUL, register and immediate forms (R72, R83, R116, R117, R126, R127, R382, R383), with the frame that every
elementwise V operation shares. -/

namespace Sys2Proof.Machine

/-! ### The issue of V operations -/

/-- The operations of the V slots (R382 to R395). -/
inductive VectorOp : Instr → Prop
  | vadd f : VectorOp (.vadd f) | vsub f : VectorOp (.vsub f) | vmul f : VectorOp (.vmul f) | vfma f : VectorOp (.vfma f)
  | vmin f : VectorOp (.vmin f) | vmax f : VectorOp (.vmax f) | vcmp f : VectorOp (.vcmp f) | vsel f : VectorOp (.vsel f)
  | vand f : VectorOp (.vand f) | vor f : VectorOp (.vor f) | vxor f : VectorOp (.vxor f) | vshl f : VectorOp (.vshl f)
  | vshr f : VectorOp (.vshr f) | vsar f : VectorOp (.vsar f) | vmov h : VectorOp (.vmov h) | vpop f : VectorOp (.vpop f)
  | vclz f : VectorOp (.vclz f) | vcvt f : VectorOp (.vcvt f) | vmulh f : VectorOp (.vmulh f) | vrnd f : VectorOp (.vrnd f)
  | vidx h : VectorOp (.vidx h) | vaddI f : VectorOp (.vaddI f) | vsubI f : VectorOp (.vsubI f) | vmulI f : VectorOp (.vmulI f)
  | vfmaI f : VectorOp (.vfmaI f) | vminI f : VectorOp (.vminI f) | vmaxI f : VectorOp (.vmaxI f) | vcmpI f : VectorOp (.vcmpI f)
  | vselI f : VectorOp (.vselI f) | vandI f : VectorOp (.vandI f) | vorI f : VectorOp (.vorI f) | vxorI f : VectorOp (.vxorI f)
  | vshlI f : VectorOp (.vshlI f) | vshrI f : VectorOp (.vshrI f) | vsarI f : VectorOp (.vsarI f) | vmovI f : VectorOp (.vmovI f)

/-- It touches registers alone: once they are back and lie in the allotment, nothing keeps it from taking effect (R32, R70). -/
theorem VectorOp.issues {i : Instr} (h : VectorOp i) {s : State} {w : Wave} (hr : RegsReady i s w) : Issues i s w := by
  obtain ⟨hi, hscore, hallot⟩ := hr
  have htrap : issueTrap i s s.cur.wid w = if allotBad i w then some (trapOf 0x05) else none := by cases h <;> rfl
  have hfree : scalarHold i s s.cur.wid w = false ∧ memHold i s s.cur.wid w = false ∧ isTile i = false ∧ slotWaits i s s.cur.wid w = false ∧
      isPublish i w = false ∧ tollStops i s s.cur.wid w = false := by cases h <;> exact ⟨rfl, rfl, rfl, rfl, rfl, rfl⟩
  obtain ⟨hscalar, hmem, htile, hslot, hpublish, htoll⟩ := hfree
  have hheld : holds i s s.cur.wid w = false := by simp [holds, interlocks, hscore, hscalar, hmem, htile, hslot, hpublish, htoll]
  exact ⟨hi, hscore, by simp [htrap, hallot], hheld, by simp [delivers, hpublish]⟩

/-! ### The frame over lanes (R382) -/

/-- What a lane delivers in the frame: a lane that the mask leaves out keeps its state and reports nothing. -/
def laneResult (mask : Word) (g : Nat → Word → LaneOut) (w : Wave) (i : Nat) : LaneOut :=
  if mask.getLsbD i then g i (w.lfsr.at i) else rawLane 0 (w.lfsr.at i)

/-- Only the lanes of the mask have events. -/
theorem flatMap_laneResult_evs (mask : Word) (g : Nat → Word → LaneOut) (w : Wave) :
    ((List.range 32).flatMap fun i => (laneResult mask g w i).evs.map fun e => (i, e)) =
      (maskLanes mask).flatMap fun i => (g i (w.lfsr.at i)).evs.map fun e => (i, e) := by
  rw [maskLanes]
  induction List.range 32 with
  | nil => rfl
  | cons i is ih =>
    rw [List.flatMap_cons, ih, List.filter_cons, laneResult]
    split
    case isTrue => rw [List.flatMap_cons]
    case isFalse => rfl

/-- The wave after the frame, from what each lane delivers and the events that are reported. -/
def framedWave (slot : Nat) (mask : Word) (cl : Cluster) (d : BitVec 6) (L : Nat) (s : State) (w : Wave) (lane : Fin 32 → LaneOut)
    (evs : List (Nat × Ev)) : Wave :=
  { pushWin w (.v cl d.toNat mask (Lanes.of fun i => (lane i).val)) L with
    lfsr := Lanes.of fun i => (lane i).lfsr
    fel := reportAll w.fel s.serial s.cur.here slot evs }

theorem laneWrite_eq (slot : Nat) (mask : Word) (cl : Cluster) (d : BitVec 6) (L : Nat) (g : Nat → Word → LaneOut) (wid : Nat) (w : Wave)
    (s : State) : laneWrite slot mask cl d L g wid w s = setWave s wid (framedWave slot mask cl d L s w (fun i => laneResult mask g w i.val)
      ((maskLanes mask).flatMap fun i => (g i (w.lfsr.at i)).evs.map fun e => (i, e))) := by
  let out := fun i => ((List.range 32).map (laneResult mask g w)).getD i (rawLane 0 0)
  have hout : ∀ i, i < 32 → out i = laneResult mask g w i := fun i hi => by simp [out, hi]
  have hlanes : (fun i : Fin 32 => out i.val) = fun i : Fin 32 => laneResult mask g w i.val := funext fun i => hout i.val i.isLt
  have hevs : ((List.range 32).flatMap fun i => (out i).evs.map fun e => (i, e)) =
      (List.range 32).flatMap fun i => (laneResult mask g w i).evs.map fun e => (i, e) :=
    List.flatMap_congr fun i hi => by rw [hout i (List.mem_range.1 hi)]
  rw [← flatMap_laneResult_evs, ← hevs, ← hlanes]
  rfl

/-- The frame is an exposed write of the active lanes, their draws and their events. -/
theorem laneWrite_issued (slot : Nat) (mask : Word) (cl : Cluster) (d : BitVec 6) (L : Nat) (g : Nat → Word → LaneOut) (s : State) (w : Wave) :
    LanesIssued slot cl d mask L (fun i => g i (w.lfsr.at i)) s w (bump (laneWrite slot mask cl d L g s.cur.wid w s)) := by
  refine ⟨_, _, congrArg bump (laneWrite_eq ..), fun i hi => ?_⟩
  simp only [Lanes.of_at _ hi, laneResult]
  split
  case isTrue => exact ⟨rfl, rfl⟩
  case isFalse => rfl

/-! ### The elements of a lane (R116, R126, R127) -/

theorem lfsrSteps_add (m : Nat) : ∀ (n : Nat) (x : Word), lfsrSteps (n + m) x = lfsrSteps m (lfsrSteps n x)
  | 0, x => by rw [Nat.zero_add]; rfl
  | n + 1, x => by rw [Nat.succ_add]; exact lfsrSteps_add m n (lfsrStep x)

/-- The state of a lane after its first n elements: only under RSR do they step it (R127). -/
def lfsrAfter (rsr : Bool) (n : Nat) (l : Word) : Word := lfsrSteps (if rsr then 16 * n else 0) l

theorem lfsrAfter_zero (rsr : Bool) (l : Word) : lfsrAfter rsr 0 l = l := by cases rsr <;> rfl

theorem lfsrAfter_succ (rsr : Bool) (n : Nat) (l : Word) : lfsrAfter rsr (n + 1) l = lfsrAfter rsr n (if rsr then lfsrDraw l else l) := by
  cases rsr with
  | false => rfl
  | true =>
    simp only [lfsrAfter, if_true, lfsrDraw, Nat.mul_succ]
    rw [Nat.add_comm, lfsrSteps_add]

/-- Each element has the draw after its own steps. -/
theorem elemsGo_eq (rsr : Bool) (op : Nat → Nat → Rounded) : ∀ (js : List Nat) (l : Word),
    elemsGo rsr op js l = (js.mapIdx fun i j => op (lfsrV (lfsrAfter rsr (i + 1) l)) j, lfsrAfter rsr js.length l)
  | [], l => by rw [elemsGo, List.mapIdx_nil, List.length_nil, lfsrAfter_zero]
  | j :: js, l => by simp only [elemsGo, elemsGo_eq rsr op js, List.mapIdx_cons, List.length_cons, lfsrAfter_succ, lfsrAfter_zero]

theorem elemsGo_range (rsr : Bool) (op : Nat → Nat → Rounded) (n : Nat) (l : Word) :
    elemsGo rsr op (List.range n) l = ((List.range n).map fun j => op (lfsrV (lfsrAfter rsr (j + 1) l)) j, lfsrAfter rsr n l) := by
  rw [elemsGo_eq, List.length_range]
  congr 1
  exact List.ext_getElem (by simp) fun _ _ _ => by simp

/-- Digit j of a number that is written digit by digit. -/
theorem digit_foldr (b : Nat) : ∀ (es : List Nat) (j : Nat),
    es.foldr (fun e a => e % 2 ^ b + 2 ^ b * a) 0 / 2 ^ (b * j) % 2 ^ b = es.getD j 0 % 2 ^ b
  | [], j => by simp
  | e :: es, 0 => by simp
  | e :: es, j + 1 => by
    have hpos : 0 < 2 ^ b := Nat.two_pow_pos b
    rw [List.foldr_cons, List.getD_cons_succ, ← digit_foldr b es j, Nat.mul_succ, Nat.add_comm (b * j), Nat.pow_add, ← Nat.div_div_eq_div_mul,
      Nat.add_mul_div_left _ _ hpos, Nat.div_eq_of_lt (Nat.mod_lt _ hpos), Nat.zero_add]

/-- A digit that lies below bit 32 is seen in the low 32 bits. -/
theorem elem_ofNat {t : Ty} {j : Nat} (hj : j < Ty.count t) (v : Nat) : elem t (BitVec.ofNat 32 v) j = v / 2 ^ (Ty.bits t * j) % 2 ^ Ty.bits t := by
  have hfits : Ty.bits t * j + Ty.bits t ≤ 32 := by
    have h := Nat.mul_le_of_le_div _ _ _ hj
    rwa [Nat.succ_mul, Nat.mul_comm] at h
  obtain ⟨r, hr⟩ := Nat.exists_eq_add_of_le hfits
  rw [elem, BitVec.toNat_ofNat, hr, Nat.add_assoc, Nat.pow_add, Nat.mod_mul_right_div_self,
    Nat.mod_mod_of_dvd _ (Nat.pow_dvd_pow 2 (Nat.le_add_right ..))]

/-- Each element of a lane is the one it was made from. -/
theorem elem_pack {t : Ty} {j : Nat} (hj : j < Ty.count t) (es : List Nat) : elem t (pack t es) j = es.getD j 0 % 2 ^ Ty.bits t := by
  rw [pack, elem_ofNat hj, digit_foldr]

/-- A lane that is made element by element. -/
theorem elemLane_laneIs (t : Ty) (n : Nat) (rsr : Bool) (op : Nat → Nat → Rounded) (l : Word) : LaneIs t n rsr l op (elemLane t n rsr op l) := by
  simp only [elemLane, elemsGo_range]
  refine ⟨fun j hj => ?_, ?_, rfl⟩
  · rw [elem_pack hj]
    split
    case isTrue hjn => simp [hjn, lfsrAfter]
    case isFalse hjn => simp [hjn]
  · simp [List.filterMap_map, lfsrAfter]

/-! ### Sums, differences and products (R117, R383) -/

/-- An integer result as R117 says: clamped under SAT, else wrapped. -/
theorem fits_eq (sg : Bool) (b : Nat) (sat : Bool) (r : Int) : fits sg b sat r = if sat then satInt sg b r else ⟨wrapInt b r, none⟩ := by
  cases sat with
  | false => simp [fits, wrapInt]
  | true =>
    simp only [fits, satInt, true_and, if_true]
    rfl

/-- One element of VADD, VSUB and VMUL, on the patterns of its sources. -/
theorem arithElem_eq (t : Ty) (m : VMod) (fop : FFmt → Rm → Nat → FVal → FVal → Rounded) (iop : Int → Int → Int) (x y : Word) :
    arithElem t m fop iop x y = fun v j =>
      if t.isFloat then fop (Ty.fmt t) m.rm v (fSrcA t m (elem t x j)) (fSrcB t m (elem t y j))
      else fits (Ty.signed t) (Ty.bits t) m.sat
        (iop (toInt (Ty.signed t) (Ty.bits t) (elem t x j)) (toInt (Ty.signed t) (Ty.bits t) (elem t y j))) := by
  funext v j
  rw [fits_eq, arithElem]

/-- A two-operand elementwise form issues, and each lane is made element by element. -/
theorem slotOp_vecBin {i : Instr} {s : State} {w : Wave} (hop : VectorOp i) (hr : RegsReady i s w) (h : VHdr) (t : Ty) (rsr : Bool) (L : Nat)
    (second : State → Wave → Nat → Word) (op : Word → Word → Nat → Nat → Rounded) :
    ∃ t' out, slotOp i s (vecBin h t rsr L second op) = .next t' ∧
      LanesIssued (vSlot h.cl) h.cl h.d (effMask s w (tagOf (vSlot h.cl) 0) h.k.toNat) L out s w t' ∧
      ∀ n, n < 32 → LaneIs t (Ty.count t) rsr (w.lfsr.at n)
        (op ((rdV s w (tagOf (vSlot h.cl) 1) h.cl h.a.toNat).at n) (second s w n)) (out n) :=
  ⟨_, _, slotOp_issues (hop.issues hr), laneWrite_issued .., fun _ _ => elemLane_laneIs ..⟩

/-- Settles O16: every form issues in the shared frame, and its elements are those of R117 and R383. -/
theorem vectorAddSubMul : Obligations.VectorAddSubMul := by
  unfold Obligations.VectorAddSubMul
  intro h b imm ty m s w a mask rsr is yr yi
  have leaves : ∀ {i : Instr} {second : State → Wave → Nat → Word} {fop : FFmt → Rm → Nat → FVal → FVal → Rounded}
      {iop : Int → Int → Int}, VectorOp i →
      exec i s = slotOp i s (vecBin h ty rsr 4 second (arithElem ty m fop iop)) → is i (second s w) fop iop := by
    intro i second fop iop hop hexec hr
    rw [hexec]
    simpa only [arithElem_eq] using slotOp_vecBin hop hr h ty rsr 4 second (arithElem ty m fop iop)
  refine ⟨?_, ?_, ?_, ?_, ?_, ?_⟩
  · exact leaves (second := regB h.cl b) (.vadd _) rfl
  · exact leaves (second := immB ty imm) (.vaddI _) rfl
  · exact leaves (second := regB h.cl b) (fop := fSub) (.vsub _) rfl
  · exact leaves (second := immB ty imm) (fop := fSub) (.vsubI _) rfl
  · exact leaves (second := regB h.cl b) (.vmul _) rfl
  · exact leaves (second := immB ty imm) (.vmulI _) rfl

end Sys2Proof.Machine

/-! PROOF. VFMA, VMIN, VMAX, shifts, high products, counts, roundings and conversions (R118, R119, R121, R130, R385, R387, R388, R390,
R392 to R394). -/

namespace Sys2Proof.Machine

/-! ### Elementwise operations (R382) -/

/-- An elementwise V operation issues, and each lane is made element by element. -/
theorem slotOp_vecElems {i : Instr} {s : State} {w : Wave} (hop : VectorOp i) (hr : RegsReady i s w) (h : VHdr) (t : Ty) (n : Nat) (rsr : Bool)
    (L : Nat) (op : State → Wave → Lanes → Nat → Nat → Nat → Rounded) :
    ∃ t' out, slotOp i s (vecOp h L fun s w a q l => elemLane t n rsr (op s w a q) l) = .next t' ∧
      LanesIssued (vSlot h.cl) h.cl h.d (effMask s w (tagOf (vSlot h.cl) 0) h.k.toNat) L out s w t' ∧
      ∀ q, q < 32 → LaneIs t n rsr (w.lfsr.at q) (op s w (rdV s w (tagOf (vSlot h.cl) 1) h.cl h.a.toNat) q) (out q) :=
  ⟨_, _, slotOp_issues (hop.issues hr), laneWrite_issued .., fun _ _ => elemLane_laneIs ..⟩

/-- An integer result that only wraps (R117). -/
theorem fits_wraps (sg : Bool) (b : Nat) (r : Int) : fits sg b false r = ⟨wrapInt b r, none⟩ := by
  rw [fits_eq, if_neg Bool.false_ne_true]

/-! ### VFMA, VMIN and VMAX (R388, R390) -/

/-- One element of VMIN and VMAX: the chosen floating operand, or the chosen integer. -/
theorem minElem_eq (t : Ty) (m : VMod) (fop : FFmt → FVal → FVal → Nat) (iop : Int → Int → Int) (x y : Word) :
    minElem t m fop iop x y = fun _ j =>
      if t.isFloat then ⟨fop (Ty.fmt t) (fSrcA t m (elem t x j)) (fSrcB t m (elem t y j)), none⟩
      else fits (Ty.signed t) (Ty.bits t) false
        (iop (toInt (Ty.signed t) (Ty.bits t) (elem t x j)) (toInt (Ty.signed t) (Ty.bits t) (elem t y j))) := by
  funext v j
  rw [fits_wraps, minElem]

/-- Settles O17: VFMA rounds its one sum of three sources, and VMIN and VMAX choose element by element. -/
theorem vectorFmaMinMax : Obligations.VectorFmaMinMax := by
  unfold Obligations.VectorFmaMinMax
  intro h b c imm ty m s w a mask is yr yi third pickOf
  have picks : ∀ {i : Instr} {second : State → Wave → Nat → Word} {fop : FFmt → FVal → FVal → Nat} {iop : Int → Int → Int},
      VectorOp i → exec i s = slotOp i s (vecBin h ty false 4 second (minElem ty m fop iop)) → is i 4 false (second s w) (pickOf fop iop) := by
    intro i second fop iop hop hexec hr
    rw [hexec]
    simpa only [minElem_eq] using slotOp_vecBin hop hr h ty false 4 second (minElem ty m fop iop)
  refine ⟨?_, ?_, ?_, ?_, ?_, ?_⟩
  · intro hr
    exact slotOp_vecElems (.vfma ⟨h, b, c, ty, m⟩) hr h ty (Ty.count ty) (m.rm == .rsr) 5 fun s w a q =>
      fmaElem ty m (a.at q) (regB h.cl b s w q) ((vOp s w h.cl 3 c).at q)
  · intro hr
    exact slotOp_vecElems (.vfmaI ⟨h, imm, ty, m⟩) hr h ty (Ty.count ty) (m.rm == .rsr) 5 fun s w a q =>
      fmaElem ty m (a.at q) (vImm s ty imm) ((vOp s w h.cl 3 h.d).at q)
  · exact picks (second := regB h.cl b) (.vmin _) rfl
  · exact picks (second := immB ty imm) (.vminI _) rfl
  · exact picks (second := regB h.cl b) (.vmax _) rfl
  · exact picks (second := immB ty imm) (.vmaxI _) rfl

/-! ### Shifts (R118, R394) -/

theorem elem_lt (t : Ty) (x : Word) (j : Nat) : elem t x j < 2 ^ Ty.bits t := Nat.mod_lt _ (Nat.two_pow_pos _)

/-- A natural number wraps to its low bits. -/
theorem wrapInt_natCast (b n : Nat) : wrapInt b (n : Int) = n % 2 ^ b := by
  have hcast : (n : Int) % 2 ^ b = ((n % 2 ^ b : Nat) : Int) := by push_cast; rfl
  rw [wrapInt, hcast, Int.toNat_natCast]

theorem eShl_eq (b x k : Nat) : eShl b x k = wrapInt b ((x : Int) * 2 ^ k) := by
  rw [eShl, ← wrapInt_natCast]
  push_cast
  rfl

/-- A right shift of a b-bit element needs no wrapping. -/
theorem eShr_eq {b x : Nat} (hx : x < 2 ^ b) (k : Nat) : eShr b x k = wrapInt b ((x : Int) / 2 ^ k) := by
  have hcast : (x : Int) / 2 ^ k = ((x / 2 ^ k : Nat) : Int) := by push_cast; rfl
  rw [hcast, wrapInt_natCast, eShr, Nat.mod_eq_of_lt (Nat.lt_of_le_of_lt (Nat.div_le_self ..) hx)]

/-- One element of a shift, from the integer that it stands for. -/
theorem shiftElem_eq {t : Ty} {op : Nat → Nat → Nat → Nat} {iop : Nat → Nat → Int}
    (hop : ∀ x k, x < 2 ^ Ty.bits t → op (Ty.bits t) x k = wrapInt (Ty.bits t) (iop x k)) (x y : Word) :
    shiftElem t op x y = fun _ j => fits false (Ty.bits t) false (iop (elem t x j) (elem t y j % Ty.bits t)) := by
  funext v j
  rw [fits_wraps, shiftElem, hop _ _ (elem_lt ..)]

/-- Settles O19: each operation is elementwise, and a shift, a product, a count, a conversion or a rounding of its elements. -/
theorem vectorShiftsCountsConversions : Obligations.VectorShiftsCountsConversions := by
  unfold Obligations.VectorShiftsCountsConversions
  intro h b imm ty src rm sat s w a mask yr yi wd num is shifts left right arith
  have shift : ∀ {i : Instr} {second : State → Wave → Nat → Word} {op : Nat → Nat → Nat → Nat} {iop : Nat → Nat → Int},
      VectorOp i → exec i s = slotOp i s (vecBin h ty false 4 second (shiftElem ty op)) →
      (∀ x k, x < 2 ^ wd → op wd x k = wrapInt wd (iop x k)) → is i 4 (Ty.count ty) false (shifts (second s w) iop) := by
    intro i second op iop hop hexec hshift hr
    rw [hexec]
    simpa only [shiftElem_eq hshift] using slotOp_vecBin hop hr h ty false 4 second (shiftElem ty op)
  have unary : ∀ {i : Instr} {n L : Nat} {rsr : Bool} {op : Word → Nat → Nat → Rounded}, VectorOp i →
      exec i s = slotOp i s (vecUn h ty n rsr L op) → is i L n rsr fun q => op (a.at q) := by
    intro i n L rsr op hop hexec hr
    rw [hexec]
    exact slotOp_vecElems hop hr h ty n rsr L fun _ _ a q => op (a.at q)
  refine ⟨?_, ?_, ?_, ?_, ?_, ?_, ?_, ?_, ?_, ?_, ?_⟩
  · exact shift (second := regB h.cl b) (.vshl _) rfl fun x k _ => eShl_eq wd x k
  · exact shift (second := immB ty imm) (.vshlI _) rfl fun x k _ => eShl_eq wd x k
  · exact shift (second := regB h.cl b) (.vshr _) rfl fun x k hx => eShr_eq hx k
  · exact shift (second := immB ty imm) (.vshrI _) rfl fun x k hx => eShr_eq hx k
  · exact shift (second := regB h.cl b) (.vsar _) rfl fun _ _ _ => rfl
  · exact shift (second := immB ty imm) (.vsarI _) rfl fun _ _ _ => rfl
  · intro hr
    simp only [wd, num, fits_wraps]
    exact slotOp_vecBin (.vmulh ⟨h, b, ty⟩) hr h ty false 5 (regB h.cl b) _
  · exact unary (op := fun x _ j => ⟨bitCount wd (elem ty x j), none⟩) (.vpop _) rfl
  · exact unary (op := fun x _ j => ⟨leadZeros wd (elem ty x j), none⟩) (.vclz _) rfl
  · exact unary (op := fun x v j => convert ty src rm sat v (elem src x j)) (.vcvt _) rfl
  · exact unary (op := fun x v j => ⟨roundIntegral (Ty.fmt ty) rm v (elem ty x j), none⟩) (.vrnd _) rfl

end Sys2Proof.Machine

/-! PROOF. The F-slot functions (R128, R318, R319), with the issue that the operations of the F and L slots share. -/

namespace Sys2Proof.Machine

/-! ### The issue of F and L operations -/

/-- The lane functions of the F slot (R318) and the operations of the L slot (R326 to R337). -/
inductive LaneOp : Instr → Prop
  | fdiv f : LaneOp (.fdiv f) | fsqrt f : LaneOp (.fsqrt f) | frcp f : LaneOp (.frcp f) | frsq f : LaneOp (.frsq f)
  | fexp2 f : LaneOp (.fexp2 f) | flog2 f : LaneOp (.flog2 f) | ftanh f : LaneOp (.ftanh f) | kand f : LaneOp (.kand f)
  | kor f : LaneOp (.kor f) | kxor f : LaneOp (.kxor f) | kandn f : LaneOp (.kandn f) | kset k : LaneOp (.kset k)
  | ksetSreg f : LaneOp (.ksetSreg f) | kfirst f : LaneOp (.kfirst f) | kpop f : LaneOp (.kpop f) | lmov h : LaneOp (.lmov h)
  | lbcast f : LaneOp (.lbcast f) | lshuf f : LaneOp (.lshuf f) | lshufPat f : LaneOp (.lshufPat f) | lget f : LaneOp (.lget f)
  | lput f : LaneOp (.lput f) | lred f : LaneOp (.lred f) | lscan f : LaneOp (.lscan f)

/-- Like a V operation it touches registers alone, and takes effect once they are back and lie in the allotment (R32, R70). -/
theorem LaneOp.issues {i : Instr} (h : LaneOp i) {s : State} {w : Wave} (hr : RegsReady i s w) : Issues i s w := by
  obtain ⟨hi, hscore, hallot⟩ := hr
  have htrap : issueTrap i s s.cur.wid w = if allotBad i w then some (trapOf 0x05) else none := by cases h <;> rfl
  have hfree : interlocks i s s.cur.wid w = scoreHeld i w ∧ tollStops i s s.cur.wid w = false ∧ delivers i w = false := by
    cases h <;> exact ⟨by simp [interlocks, scalarHold, memHold, memReq, isTile, slotWaits, slotReads, slotFills, isPublish], rfl, rfl⟩
  obtain ⟨hinter, htoll, hdeliver⟩ := hfree
  exact ⟨hi, hscore, by simp [htrap, hallot], by simp [holds, hinter, hscore, htoll], hdeliver⟩

/-! ### The frame of the F slot (R318) -/

/-- What a lane delivers that takes one f32 result: its bits and its event, with no draw. -/
def roundedLane (r : Rounded) (l : Word) : LaneOut := { val := BitVec.ofNat 32 r.bits, evs := r.ev.toList, lfsr := l }

/-- An F operation issues, and each lane has the function's result for its source. -/
theorem slotOp_fRun {i : Instr} {s : State} {w : Wave} (hop : LaneOp i) (hr : RegsReady i s w) (f : FOp) (L : Nat)
    (g : State → Nat → FVal → Word → Rounded) :
    ∃ t, slotOp i s (fRun f L g) = .next t ∧ LanesIssued 3 f.dc f.d (effMask s w (tagOf 3 0) f.k.toNat) L
      (fun n => roundedLane (g s n (fSource f ((rdV s w (tagOf 3 1) f.ac f.a.toNat).at n)) ((rdV s w (tagOf 3 2) f.ac (f.a.toNat + 1)).at n))
        (w.lfsr.at n)) s w t :=
  ⟨_, slotOp_issues (hop.issues hr), laneWrite_issued ..⟩

/-- A rounding that the enclosures decide is not free (log 23). -/
theorem orFree_decided {o : Option Rounded} {e : Rounded} (h : o = some e) (s : State) (tag : Nat) : orFree s tag o = e := by rw [h, orFree]

/-- Settles O21: every function issues in the frame of the F slot, and gives its result where its rounding is decided. -/
theorem functionsInTheFSlot : Obligations.FunctionsInTheFSlot := by
  unfold Obligations.FunctionsInTheFSlot
  intro f s w src den x is known
  have leaf : ∀ {i : Instr} {L : Nat} {g : State → Nat → FVal → Word → Rounded} {res : Nat → Rounded → Prop}, LaneOp i →
      exec i s = slotOp i s (fRun f L g) → (∀ n, res n (g s n (x n) (den.at n))) → is i L res := by
    intro i L g res hop hexec hres hr
    obtain ⟨t, hnext, hissued⟩ := slotOp_fRun hop hr f L g
    exact ⟨t, _, hexec.trans hnext, hissued, fun n _ => ⟨_, hres n, rfl, rfl, rfl⟩⟩
  refine ⟨?_, ?_, ?_, ?_, ?_, ?_, ?_⟩
  · exact leaf (.fdiv f) rfl fun _ => rfl
  · exact leaf (.fsqrt f) rfl fun _ => rfl
  · exact leaf (.frcp f) rfl fun _ => rfl
  · exact leaf (.frsq f) rfl fun _ => rfl
  · exact leaf (.fexp2 f) rfl fun _ _ h => orFree_decided h ..
  · exact leaf (.flog2 f) rfl fun _ _ h => orFree_decided h ..
  · exact leaf (.ftanh f) rfl fun _ _ h => orFree_decided h ..

end Sys2Proof.Machine

/-! PROOF. LRED and LSCAN (R129, R335, R336). -/

namespace Sys2Proof.Machine

/-! ### The active lanes (R24) -/

theorem mem_maskLanes {m : Word} {i : Nat} : i ∈ maskLanes m ↔ i < 32 ∧ m.getLsbD i = true := by
  rw [maskLanes, List.mem_filter, List.mem_range]

theorem maskLanes_rising (m : Word) : (maskLanes m).Pairwise (· < ·) := List.pairwise_lt_range.filter _

/-- The first of a rising list is its least. -/
theorem headD_le_of_rising : ∀ {l : List Nat}, l.Pairwise (· < ·) → ∀ {n : Nat}, n ∈ l → l.headD 0 ∈ l ∧ l.headD 0 ≤ n
  | i :: l, hl, n, hn => by
    refine ⟨List.mem_cons_self, ?_⟩
    obtain rfl | hn := List.mem_cons.1 hn
    · exact Nat.le_refl _
    · exact Nat.le_of_lt (List.rel_of_pairwise_cons hl hn)

/-- An active lane is the lowest exactly where no lane below it is active. -/
theorem eq_headD_maskLanes_iff {m : Word} {n : Nat} (hn : n < 32) (hm : m.getLsbD n = true) :
    n = (maskLanes m).headD 0 ↔ ∀ i, i < n → m.getLsbD i = false := by
  have hmem : n ∈ maskLanes m := mem_maskLanes.2 ⟨hn, hm⟩
  obtain ⟨hlow, hle⟩ := headD_le_of_rising (maskLanes_rising m) hmem
  constructor
  · intro heq i hi
    refine Bool.eq_false_iff.2 fun hbit => ?_
    have hmin := (headD_le_of_rising (maskLanes_rising m) (mem_maskLanes.2 ⟨hi.trans hn, hbit⟩)).2
    omega
  · intro hbelow
    refine Nat.le_antisymm (Nat.not_lt.1 fun hlt => ?_) hle
    have hbit := (mem_maskLanes.1 hlow).2
    rw [hbelow _ hlt] at hbit
    cases hbit

/-- Of a rising list, the elements up to one of them are those below it and that one. -/
theorem filter_le_of_rising : ∀ {l : List Nat}, l.Pairwise (· < ·) → ∀ {n : Nat}, n ∈ l → l.filter (· ≤ n) = l.filter (· < n) ++ [n]
  | i :: l, hl, n, hn => by
    obtain ⟨habove, hrest⟩ := List.pairwise_cons.1 hl
    obtain rfl | hn := List.mem_cons.1 hn
    · have hle : l.filter (· ≤ n) = [] := List.filter_eq_nil_iff.2 fun m hm => by simpa using habove m hm
      have hlt : l.filter (· < n) = [] := List.filter_eq_nil_iff.2 fun m hm => by simpa using Nat.le_of_lt (habove m hm)
      simp [hle, hlt]
    · have hi : i < n := habove n hn
      simp [hi, Nat.le_of_lt hi, filter_le_of_rising hrest hn]

/-! ### Values that are moved between lanes (R330) -/

theorem Lanes.ext_at {u v : Lanes} (h : ∀ i, i < 32 → u.at i = v.at i) : u = v :=
  Vector.ext fun i hi => by simpa [Lanes.at, hi] using h i hi

/-- Active lanes that report nothing and draw nothing leave the log and the lane states as they were. -/
theorem LanesIssued.moved {slot : Nat} {cl : Cluster} {d : BitVec 6} {mask : Word} {L : Nat} {out : Nat → LaneOut} {val : Nat → Word}
    {s t : State} {w : Wave} (h : LanesIssued slot cl d mask L out s w t)
    (hraw : ∀ i, i < 32 → mask.getLsbD i = true → out i = rawLane (val i) (w.lfsr.at i)) : LanesMoved cl d mask L val s w t := by
  obtain ⟨vals, lf, rfl, hlanes⟩ := h
  have hactive : ∀ i, i < 32 → mask.getLsbD i = true → vals.at i = val i ∧ lf.at i = w.lfsr.at i := fun i hi hm => by
    have hlane := hlanes i hi
    rwa [if_pos hm, hraw i hi hm] at hlane
  have hlf : lf = w.lfsr := Lanes.ext_at fun i hi => by
    by_cases hm : mask.getLsbD i = true
    · exact (hactive i hi hm).2
    · simpa [hm] using hlanes i hi
  have hnone : ((maskLanes mask).flatMap fun i => (out i).evs.map fun e => (i, e)) = [] :=
    List.flatMap_eq_nil_iff.2 fun i hi => by
      obtain ⟨hlt, hm⟩ := mem_maskLanes.1 hi
      rw [hraw i hlt hm, rawLane, List.map_nil]
  exact ⟨vals, by rw [hlf, hnone]; rfl, fun i hi hm => (hactive i hi hm).1⟩

/-! ### The operations (R335) -/

/-- The floating operations of R129. -/
def FloatRed (op : RedOp) : Prop := op = .addF ∨ op = .minF ∨ op = .maxF

/-- `Comb` of the model is that of R335 on floating lanes. -/
theorem comb_eq_floatComb {op : RedOp} (h : FloatRed op) (x y : Option Word) :
    comb op x y = ((floatComb op x y).1, (floatComb op x y).2.toList) := by
  obtain rfl | rfl | rfl := h
  all_goals
    match x, y with
    | none, none => rfl
    | none, some _ => rfl
    | some _, none => rfl
    | some _, some _ => rfl

/-- The order that an integer minimum or maximum goes by. -/
def wordKey (sg : Bool) (x : Word) : Int := if sg then x.toInt else x.toNat

theorem wordKey_injective (sg : Bool) : Function.Injective (wordKey sg) := by
  intro x y h
  cases sg with
  | true => exact BitVec.eq_of_toInt_eq h
  | false => exact BitVec.eq_of_toNat_eq (Int.ofNat.inj h)

theorem wordKey_wordMinMax (sg isMax : Bool) (x y : Word) :
    wordKey sg (wordMinMax sg isMax x y) = if isMax then max (wordKey sg x) (wordKey sg y) else min (wordKey sg x) (wordKey sg y) := by
  have hlt : (if sg then x.toInt < y.toInt else x.toNat < y.toNat) ↔ wordKey sg x < wordKey sg y := by cases sg <;> simp [wordKey]
  cases isMax with
  | true => simp only [wordMinMax, hlt, decide_eq_true_eq, apply_ite (wordKey sg), if_true, max_def_lt]
  | false => simp only [wordMinMax, hlt, decide_eq_false_iff_not, ite_not, apply_ite (wordKey sg), Bool.false_eq_true, if_false, min_def_lt]

theorem wordMinMax_assoc (sg isMax : Bool) (x y z : Word) :
    wordMinMax sg isMax (wordMinMax sg isMax x y) z = wordMinMax sg isMax x (wordMinMax sg isMax y z) := by
  apply wordKey_injective sg
  cases isMax with
  | true => simp only [wordKey_wordMinMax, if_true, max_assoc]
  | false => simp only [wordKey_wordMinMax, Bool.false_eq_true, if_false, min_assoc]

theorem wordMinMax_comm (sg isMax : Bool) (x y : Word) : wordMinMax sg isMax x y = wordMinMax sg isMax y x := by
  apply wordKey_injective sg
  rw [wordKey_wordMinMax, wordKey_wordMinMax, max_comm, min_comm]

/-- The minimum and the maximum as R335 writes them. -/
theorem wordMinMax_min (sg : Bool) (x y : Word) : wordMinMax sg false x y = if wordKey sg x ≤ wordKey sg y then x else y := by
  apply wordKey_injective sg
  rw [wordKey_wordMinMax, apply_ite (wordKey sg), ← min_def]
  rfl

theorem wordMinMax_max (sg : Bool) (x y : Word) : wordMinMax sg true x y = if wordKey sg x ≤ wordKey sg y then y else x := by
  apply wordKey_injective sg
  rw [wordKey_wordMinMax, apply_ite (wordKey sg), ← max_def]
  rfl

/-- An integer or bitwise operation of R335 on two lanes. -/
def intOp (op : RedOp) (x y : Word) : Word :=
  match op with
  | .addI => x + y
  | .minS => wordMinMax true false x y
  | .maxS => wordMinMax true true x y
  | .minN => wordMinMax false false x y
  | .maxN => wordMinMax false true x y
  | .band => x &&& y
  | .bor => x ||| y
  | _ => x ^^^ y

/-- Its minima and maxima are those of the types' orders. -/
theorem intOp_eq (op : RedOp) (x y : Word) : intOp op x y = match op with
    | .addI => x + y
    | .minS => if x.toInt ≤ y.toInt then x else y
    | .maxS => if x.toInt ≤ y.toInt then y else x
    | .minN => if x.toNat ≤ y.toNat then x else y
    | .maxN => if x.toNat ≤ y.toNat then y else x
    | .band => x &&& y
    | .bor => x ||| y
    | _ => x ^^^ y := by
  cases op
  case minS => exact wordMinMax_min true x y
  case maxS => exact wordMinMax_max true x y
  case minN => exact (wordMinMax_min false x y).trans (if_congr Int.ofNat_le rfl rfl)
  case maxN => exact (wordMinMax_max false x y).trans (if_congr Int.ofNat_le rfl rfl)
  all_goals rfl

theorem redOp_eq_intOp {op : RedOp} (h : ¬ FloatRed op) (x y : Word) : redOp op x y = ⟨(intOp op x y).toNat, none⟩ := by
  cases op
  case addF | minF | maxF => exact absurd (by simp [FloatRed]) h
  all_goals rfl

theorem loneVal_of_int {op : RedOp} (h : ¬ FloatRed op) (x : Word) : loneVal op x = x := by
  cases op
  case addF | minF | maxF => exact absurd (by simp [FloatRed]) h
  all_goals rfl

theorem intOp_assoc (op : RedOp) : Std.Associative (intOp op) := by
  constructor
  intro x y z
  cases op
  case addI => exact BitVec.add_assoc x y z
  case minS | maxS | minN | maxN => exact wordMinMax_assoc ..
  case band => exact BitVec.and_assoc x y z
  case bor => exact BitVec.or_assoc x y z
  all_goals exact BitVec.xor_assoc x y z

theorem intOp_comm (op : RedOp) (x y : Word) : intOp op x y = intOp op y x := by
  cases op
  case addI => exact BitVec.add_comm x y
  case minS | maxS | minN | maxN => exact wordMinMax_comm ..
  case band => exact BitVec.and_comm x y
  case bor => exact BitVec.or_comm x y
  all_goals exact BitVec.xor_comm x y

/-- `Ident` changes no lane (R336). -/
theorem intOp_ident {op : RedOp} (h : ¬ FloatRed op) (x : Word) : intOp op x (ident op) = x := by
  cases op
  case addF | minF | maxF => exact absurd (by simp [FloatRed]) h
  case addI => exact BitVec.add_zero x
  case band => exact BitVec.and_allOnes
  case bor => exact BitVec.or_zero
  case bxor => exact BitVec.xor_zero
  case minS => exact (wordMinMax_min ..).trans (if_pos (Int.le_of_lt_add_one x.toInt_lt))
  case minN => exact (wordMinMax_min ..).trans (if_pos (Int.ofNat_le.2 (Nat.le_of_lt_succ x.isLt)))
  case maxS => exact (wordMinMax_comm ..).trans ((wordMinMax_max ..).trans (if_pos x.le_toInt))
  case maxN => exact (wordMinMax_comm ..).trans ((wordMinMax_max false 0 x).trans (if_pos (Int.natCast_nonneg x.toNat)))

/-- Where a value is missing, an integer combination is that with the identity; nothing is reported. -/
theorem comb_of_int {op : RedOp} (h : ¬ FloatRed op) (x y : Option Word) :
    (comb op x y).1.getD (ident op) = intOp op (x.getD (ident op)) (y.getD (ident op)) ∧ (comb op x y).2 = [] := by
  match x, y with
  | none, none => exact ⟨(intOp_ident h _).symm, rfl⟩
  | some a, none => exact ⟨(loneVal_of_int h a).trans (intOp_ident h a).symm, rfl⟩
  | none, some b => exact ⟨(loneVal_of_int h b).trans ((intOp_comm ..).trans (intOp_ident h b)).symm, rfl⟩
  | some a, some b => simp [comb, redOp_eq_intOp h]

/-! ### The tree of LRED (R335) -/

/-- What the tree holds for run q of 2^lv lanes. -/
def combOver (op : RedOp) (t : Nat → Option Word) : Nat → Nat → Option Word
  | 0, q => t q
  | lv + 1, q => (comb op (combOver op t lv (2 * q)) (combOver op t lv (2 * q + 1))).1

/-- The first n runs of a level, and the events of making them. -/
def treeRow (op : RedOp) (t : Nat → Option Word) (lv n : Nat) : List (Option Word) := (List.range n).map (combOver op t lv)
def treeRowEvents (op : RedOp) (t : Nat → Option Word) (lv n : Nat) : List Ev :=
  (List.range n).flatMap fun q => (comb op (combOver op t lv (2 * q)) (combOver op t lv (2 * q + 1))).2

/-- Neighbours combine pair by pair. -/
theorem combLevel_range' (op : RedOp) (c : Nat → Option Word) : ∀ n k, combLevel op ((List.range' (2 * k) (2 * n)).map c) =
    ((List.range' k n).map fun q => (comb op (c (2 * q)) (c (2 * q + 1))).1,
      (List.range' k n).flatMap fun q => (comb op (c (2 * q)) (c (2 * q + 1))).2)
  | 0, _ => rfl
  | n + 1, k => by
    have ih := combLevel_range' op c n (k + 1)
    simp only [Nat.mul_succ, List.range'_succ, List.map_cons, List.flatMap_cons, combLevel] at ih ⊢
    rw [ih]

/-- One level of the tree makes the next row. -/
theorem combTree_row (op : RedOp) (t : Nat → Option Word) (m lv n : Nat) (es : List Ev) :
    combTree op (m + 1) (treeRow op t lv (2 * n), es) = combTree op m (treeRow op t (lv + 1) n, es ++ treeRowEvents op t lv n) := by
  have hlevel := combLevel_range' op (combOver op t lv) n 0
  simp only [Nat.mul_zero, ← List.range_eq_range'] at hlevel
  rw [combTree, treeRow, hlevel]
  rfl

/-- The lanes that take part. -/
def activeLanes (mask : Word) (a : Lanes) (i : Nat) : Option Word := if mask.getLsbD i then some (a.at i) else none

/-- The five levels of LRED. -/
theorem redTree_eq (op : RedOp) (mask : Word) (a : Lanes) : redTree op mask a =
    ((combOver op (activeLanes mask a) 5 0).getD 0, (List.range 5).flatMap fun lv => treeRowEvents op (activeLanes mask a) lv (16 / 2 ^ lv)) := by
  let t := activeLanes mask a
  let e := treeRowEvents op t
  have hlevels : combTree op 5 (treeRow op t 0 32, []) = (treeRow op t 5 1, [] ++ e 0 16 ++ e 1 8 ++ e 2 4 ++ e 3 2 ++ e 4 1) :=
    calc combTree op 5 (treeRow op t 0 32, []) = combTree op 4 (treeRow op t 1 16, [] ++ e 0 16) := combTree_row op t 4 0 16 _
      _ = combTree op 3 (treeRow op t 2 8, [] ++ e 0 16 ++ e 1 8) := combTree_row op t 3 1 8 _
      _ = combTree op 2 (treeRow op t 3 4, [] ++ e 0 16 ++ e 1 8 ++ e 2 4) := combTree_row op t 2 2 4 _
      _ = combTree op 1 (treeRow op t 4 2, [] ++ e 0 16 ++ e 1 8 ++ e 2 4 ++ e 3 2) := combTree_row op t 1 3 2 _
      _ = (treeRow op t 5 1, [] ++ e 0 16 ++ e 1 8 ++ e 2 4 ++ e 3 2 ++ e 4 1) := combTree_row op t 0 4 1 _
  have hevents : [] ++ e 0 16 ++ e 1 8 ++ e 2 4 ++ e 3 2 ++ e 4 1 = (List.range 5).flatMap fun lv => e lv (16 / 2 ^ lv) := by
    simp [List.range_succ]
  rw [redTree, show (List.range 32).map (fun i => if mask.getLsbD i then some (a.at i) else none) = treeRow op t 0 32 from rfl, hlevels, hevents]
  rfl

theorem comb_isSome (op : RedOp) (x y : Option Word) : (comb op x y).1.isSome = (x.isSome || y.isSome) := by
  match x, y with
  | none, none => rfl
  | none, some _ => rfl
  | some _, none => rfl
  | some _, some _ => rfl

/-- The tree has a value wherever one of its lanes has. -/
theorem combOver_isSome (op : RedOp) {t : Nat → Option Word} {i : Nat} (hi : (t i).isSome = true) :
    ∀ {lv q}, i / 2 ^ lv = q → (combOver op t lv q).isSome = true
  | 0, q, h => by
    have hq : i = q := by simpa using h
    rwa [← hq]
  | lv + 1, q, h => by
    rw [Nat.pow_succ, ← Nat.div_div_eq_div_mul] at h
    rw [combOver, comb_isSome, Bool.or_eq_true]
    obtain hside | hside : i / 2 ^ lv = 2 * q ∨ i / 2 ^ lv = 2 * q + 1 := by omega
    · exact .inl (combOver_isSome op hi hside)
    · exact .inr (combOver_isSome op hi hside)

/-- An active lane makes LRED's value that of the tree. -/
theorem some_redTree {op : RedOp} {mask : Word} {a : Lanes} {n : Nat} (hn : n < 32) (hm : mask.getLsbD n = true) :
    some (redTree op mask a).1 = combOver op (activeLanes mask a) 5 0 := by
  have hactive : (activeLanes mask a n).isSome = true := by simp [activeLanes, hm]
  obtain ⟨x, hx⟩ := Option.isSome_iff_exists.1 (combOver_isSome op hactive (lv := 5) (Nat.div_eq_of_lt hn))
  rw [redTree_eq, hx]
  rfl

/-! ### Floating lanes (R129) -/

/-- On floating operations the tree is that of R335, with its events. -/
theorem combOver_eq_treeOver {op : RedOp} (h : FloatRed op) (t : Nat → Option Word) : ∀ lv q, combOver op t lv q = treeOver op t lv q
  | 0, _ => rfl
  | lv + 1, q => by rw [combOver, treeOver, combOver_eq_treeOver h t lv, combOver_eq_treeOver h t lv, comb_eq_floatComb h]

theorem treeRowEvents_eq_treeEvents {op : RedOp} (h : FloatRed op) (t : Nat → Option Word) :
    ((List.range 5).flatMap fun lv => treeRowEvents op t lv (16 / 2 ^ lv)) = treeEvents op t := by
  refine List.flatMap_congr fun lv _ => ?_
  simp only [treeRowEvents, combOver_eq_treeOver h, comb_eq_floatComb h, ← List.filterMap_eq_flatMap_toList]

/-! ### Integer lanes -/

section
variable {op : RedOp} (hint : ¬ FloatRed op)
include hint

/-- A run of the tree is the combination of its lanes one after another. -/
theorem combOver_getD (t : Nat → Option Word) : ∀ lv q, (combOver op t lv q).getD (ident op) =
    ((List.range' (q * 2 ^ lv) (2 ^ lv)).map fun i => (t i).getD (ident op)).foldl (intOp op) (ident op)
  | 0, q => by simp [combOver, intOp_comm op (ident op), intOp_ident hint]
  | lv + 1, q => by
    have hassoc := intOp_assoc op
    have hruns : List.range' (q * 2 ^ (lv + 1)) (2 ^ (lv + 1)) =
        List.range' (2 * q * 2 ^ lv) (2 ^ lv) ++ List.range' ((2 * q + 1) * 2 ^ lv) (2 ^ lv) := by
      rw [Nat.succ_mul (2 * q), List.range'_append_1]
      congr 1 <;> ring
    rw [combOver, (comb_of_int hint ..).1, combOver_getD t lv, combOver_getD t lv, hruns, List.map_append, List.foldl_append, 
      ← List.foldl_assoc (op := intOp op), intOp_ident hint]

/-- Lanes that take no part leave a combination as it is. -/
theorem foldl_activeLanes (mask : Word) (a : Lanes) : ∀ (l : List Nat) (x : Word),
    (l.map fun i => (activeLanes mask a i).getD (ident op)).foldl (intOp op) x = ((l.filter fun i => mask.getLsbD i).map a.at).foldl (intOp op) x
  | [], _ => rfl
  | i :: l, x => by
    rw [List.map_cons, List.foldl_cons, foldl_activeLanes mask a l, List.filter_cons, activeLanes]
    split
    · rfl
    · rw [Option.getD_none, intOp_ident hint]

/-- LRED's value, whatever the order of combining. -/
theorem redTree_of_int {mask : Word} {a : Lanes} {n : Nat} (hn : n < 32) (hm : mask.getLsbD n = true) :
    (redTree op mask a).1 = ((maskLanes mask).map a.at).foldl (intOp op) (ident op) := by
  have htree := combOver_getD hint (activeLanes mask a) 5 0
  rw [← some_redTree hn hm, Option.getD_some, Nat.zero_mul, foldl_activeLanes hint] at htree
  rw [maskLanes, List.range_eq_range']
  exact htree

theorem redTree_events_of_int (mask : Word) (a : Lanes) : (redTree op mask a).2 = [] := by
  simp [redTree_eq, treeRowEvents, (comb_of_int hint ..).2]

end

/-! ### LSCAN (R336) -/

/-- The combination of lanes one after another, from what has been made so far. -/
def scanFold (op : RedOp) (a : Lanes) (ls : List Nat) (acc : Option Word) : Option Word :=
  ls.foldl (fun c i => (comb op c (some (a.at i))).1) acc

/-- What a scan gives an active lane, from the lanes below it. -/
theorem findD_scanGo (op : RedOp) (excl : Bool) (a : Lanes) (d : Word × List Ev) : ∀ {ls : List Nat}, ls.Pairwise (· < ·) →
    ∀ {n : Nat}, n ∈ ls → ∀ acc, Tab.findD (scanGo op excl a ls acc) n d =
      (let below := scanFold op a (ls.filter (· < n)) acc
       let c := comb op below (some (a.at n))
       (if excl then below.getD (ident op) else c.1.getD 0, c.2))
  | i :: ls, hls, n, hn, acc => by
    obtain ⟨habove, hrest⟩ := List.pairwise_cons.1 hls
    rw [scanGo]
    obtain rfl | hn := List.mem_cons.1 hn
    · have hnone : ls.filter (· < n) = [] := List.filter_eq_nil_iff.2 fun m hm => by simpa using Nat.le_of_lt (habove m hm)
      simp [Tab.findD, Tab.find, scanFold, hnone]
    · have hi : i < n := habove n hn
      have ih := findD_scanGo op excl a d hrest hn (comb op acc (some (a.at i))).1
      rw [Tab.findD] at ih
      simp only [Tab.findD, Tab.find, if_neg (Nat.ne_of_lt hi), ih]
      simp [scanFold, hi]

/-- On floating operations the combination is that of R336. -/
theorem scanFold_eq_scanOver {op : RedOp} (h : FloatRed op) (a : Lanes) (ls : List Nat) : scanFold op a ls none = scanOver op (ls.map a.at) := by
  simp only [scanFold, scanOver, List.foldl_map, comb_eq_floatComb h]

theorem scanFold_getD {op : RedOp} (h : ¬ FloatRed op) (a : Lanes) : ∀ (ls : List Nat) (acc : Option Word),
    (scanFold op a ls acc).getD (ident op) = (ls.map a.at).foldl (intOp op) (acc.getD (ident op))
  | [], _ => rfl
  | i :: ls, acc => by
    refine (scanFold_getD h a ls _).trans ?_
    rw [(comb_of_int h ..).1]
    rfl

/-! ### The two operations -/

/-- What a lane delivers in LRED: the tree's value, and in the lowest active lane its events. -/
def lredLane (op : RedOp) (mask : Word) (a : Lanes) (n : Nat) (l : Word) : LaneOut :=
  { val := (redTree op mask a).1, evs := if n = (maskLanes mask).headD 0 then (redTree op mask a).2 else [], lfsr := l }

theorem exec_lred {h : LHdr} {op : RedOp} {s : State} {w : Wave} (hr : RegsReady (.lred ⟨h, op⟩) s w) :
    ∃ t, exec (.lred ⟨h, op⟩) s = .next t ∧ LanesIssued 4 h.dc h.d (effMask s w (tagOf 4 0) h.k.toNat) 6 (fun n =>
      lredLane op (effMask s w (tagOf 4 0) h.k.toNat) (rdV s w (tagOf 4 1) h.sc h.a.toNat) n (w.lfsr.at n)) s w t := by
  change ∃ t, execLred ⟨h, op⟩ s = .next t ∧ _
  exact ⟨_, slotOp_issues (LaneOp.issues (.lred _) hr), laneWrite_issued ..⟩

/-- What a lane delivers in LSCAN. -/
def lscanLane (op : RedOp) (excl : Bool) (mask : Word) (a : Lanes) (n : Nat) (l : Word) : LaneOut :=
  let r := Tab.findD (scanGo op excl a (maskLanes mask) none) n (0, [])
  { val := r.1, evs := r.2, lfsr := l }

theorem exec_lscan {h : LHdr} {op : RedOp} {excl : Bool} {s : State} {w : Wave} (hr : RegsReady (.lscan ⟨h, op, excl⟩) s w) :
    ∃ t, exec (.lscan ⟨h, op, excl⟩) s = .next t ∧ LanesIssued 4 h.dc h.d (effMask s w (tagOf 4 0) h.k.toNat) 6 (fun n =>
      lscanLane op excl (effMask s w (tagOf 4 0) h.k.toNat) (rdV s w (tagOf 4 1) h.sc h.a.toNat) n (w.lfsr.at n)) s w t := by
  change ∃ t, execLscan ⟨h, op, excl⟩ s = .next t ∧ _
  exact ⟨_, slotOp_issues (LaneOp.issues (.lscan _) hr), laneWrite_issued ..⟩

/-- In an integer LRED an active lane takes the combination of all, and reports nothing. -/
theorem lredLane_of_int {op : RedOp} (hint : ¬ FloatRed op) {mask : Word} {n : Nat} (hn : n < 32) (hm : mask.getLsbD n = true) (a : Lanes)
    (l : Word) : lredLane op mask a n l = rawLane (((maskLanes mask).map a.at).foldl (intOp op) (ident op)) l := by
  rw [lredLane, redTree_of_int hint hn hm, redTree_events_of_int hint, ite_self, rawLane]

/-- An active lane of LSCAN combines what the lanes below it have made with its own value. -/
theorem lscanLane_active {op : RedOp} {excl : Bool} {mask : Word} {n : Nat} (hn : n < 32) (hm : mask.getLsbD n = true) (a : Lanes) (l : Word) :
    lscanLane op excl mask a n l =
      (let below := scanFold op a ((maskLanes mask).filter (· < n)) none
       let c := comb op below (some (a.at n))
       { val := if excl then below.getD (ident op) else c.1.getD 0, evs := c.2, lfsr := l }) := by
  rw [lscanLane, findD_scanGo op excl a _ (maskLanes_rising mask) (mem_maskLanes.2 ⟨hn, hm⟩)]

theorem lscanLane_of_int {op : RedOp} (hint : ¬ FloatRed op) {excl : Bool} {mask : Word} {n : Nat} (hn : n < 32) (hm : mask.getLsbD n = true)
    (a : Lanes) (l : Word) : lscanLane op excl mask a n l = rawLane
      ((((maskLanes mask).filter fun m => if excl then m < n else m ≤ n).map a.at).foldl (intOp op) (ident op)) l := by
  have hsome : ∀ x, (comb op x (some (a.at n))).1.getD 0 = (comb op x (some (a.at n))).1.getD (ident op) := fun x => by cases x <;> rfl
  rw [lscanLane_active hn hm, rawLane]
  simp only [hsome, (comb_of_int hint ..).1, (comb_of_int hint ..).2, scanFold_getD hint, Option.getD_some, Option.getD_none]
  cases excl with
  | true => rfl
  | false => simp [filter_le_of_rising (maskLanes_rising mask) (mem_maskLanes.2 ⟨hn, hm⟩)]

theorem lscanLane_of_float {op : RedOp} (hfloat : FloatRed op) {excl : Bool} {mask : Word} {n : Nat} (hn : n < 32)
    (hm : mask.getLsbD n = true) (a : Lanes) (l : Word) : lscanLane op excl mask a n l =
      (let below := scanOver op (((maskLanes mask).filter (· < n)).map a.at)
       let c := floatComb op below (some (a.at n))
       { val := if excl then below.getD (ident op) else c.1.getD 0, evs := c.2.toList, lfsr := l }) := by
  simp only [lscanLane_active hn hm, scanFold_eq_scanOver hfloat, comb_eq_floatComb hfloat]

/-- Settles O23: on integers every order of combining agrees, and on floating lanes the model's tree and scan are those of R335 and R336. -/
theorem reductionsAndScans : Obligations.ReductionsAndScans := by
  unfold Obligations.ReductionsAndScans
  constructor
  · intro s w op hadd hmin hmax f unit
    have hint : ¬ FloatRed op := by simp [FloatRed, hadd, hmin, hmax]
    have hf : f = intOp op := funext₂ fun x y => (intOp_eq op x y).symm
    have hunit : unit = ident op := by
      cases op
      case minF => exact absurd rfl hmin
      case maxF => exact absurd rfl hmax
      all_goals rfl
    rw [hf, hunit]
    refine ⟨fun h hr => ?_, fun h excl hr => ?_⟩
    · obtain ⟨t, hnext, hissued⟩ := exec_lred hr
      exact ⟨t, hnext, hissued.moved fun n hn hm => lredLane_of_int hint hn hm _ _⟩
    · obtain ⟨t, hnext, hissued⟩ := exec_lscan hr
      exact ⟨t, hnext, hissued.moved fun n hn hm => lscanLane_of_int hint hn hm _ _⟩
  · intro s w h op excl hop mask a active below unit
    have hfloat : FloatRed op := hop
    have hunit : unit = ident op := by obtain rfl | rfl | rfl := hop <;> rfl
    refine ⟨fun hr => ?_, fun hr => ?_⟩
    · obtain ⟨t, hnext, hissued⟩ := exec_lred hr
      refine ⟨t, _, hnext, hissued, fun n hn hm => ⟨?_, rfl, fun hlow => ?_, fun hlow => ?_⟩⟩
      · exact (some_redTree hn hm).trans (combOver_eq_treeOver hfloat ..)
      · rw [lredLane, if_pos ((eq_headD_maskLanes_iff hn hm).2 hlow), redTree_eq]
        exact treeRowEvents_eq_treeEvents hfloat _
      · obtain ⟨m, hlt, hbit⟩ := hlow
        refine if_neg fun hfirst => ?_
        rw [(eq_headD_maskLanes_iff hn hm).1 hfirst m hlt] at hbit
        cases hbit
    · obtain ⟨t, hnext, hissued⟩ := exec_lscan hr
      refine ⟨t, _, hnext, hissued, fun n hn hm => ?_⟩
      have hlane := lscanLane_of_float hfloat hn hm (excl := excl) (rdV s w (tagOf 4 1) h.sc h.a.toNat) (w.lfsr.at n)
      rw [hunit]
      exact ⟨congrArg LaneOut.lfsr hlane, congrArg LaneOut.val hlane, congrArg LaneOut.evs hlane⟩

end Sys2Proof.Machine

/-! PROOF. STORE_COMMIT of a store and of a tile store (R152, R190, R207, R209, R211, R213, R223, R224). -/

namespace Sys2Proof.Machine

/-! ### What a commit changes beside memory -/

/-- A state that differs in caches and in errors alone. -/
def CachesMoved (s t : State) : Prop := ∃ cores dies ecc eccLog, t = { s with cores := cores, dies := dies, ecc := ecc, eccLog := eccLog }

namespace CachesMoved

variable {s t u : State}

theorem refl (s : State) : CachesMoved s s := ⟨_, _, _, _, rfl⟩

theorem trans (h : CachesMoved s t) (h' : CachesMoved t u) : CachesMoved s u := by
  obtain ⟨_, _, _, _, rfl⟩ := h
  obtain ⟨_, _, _, _, rfl⟩ := h'
  exact ⟨_, _, _, _, rfl⟩

theorem foldl {α : Type} {f : State → α → State} (hf : ∀ s x, CachesMoved s (f s x)) : ∀ (l : List α) (s : State), CachesMoved s (l.foldl f s)
  | [], s => refl s
  | x :: l, s => (hf s x).trans (foldl hf l (f s x))

theorem modCore (s : State) (c : Nat) (f : Core → Core) : CachesMoved s (modCore s c f) := ⟨_, _, _, _, rfl⟩

theorem dropRdc (s : State) (asid : Nat) (lines : Nat → Bool) : CachesMoved s (dropRdc s asid lines) := ⟨_, _, _, _, rfl⟩

theorem holdL2 (s : State) (asid va loc n : Nat) (direct : Bool) : CachesMoved s (holdL2 s asid va loc n direct) := by
  unfold Machine.holdL2
  split
  · exact refl s
  · exact ⟨_, _, _, _, rfl⟩

theorem spoil (s : State) (ws : List Nat) : CachesMoved s (spoil s ws) := by
  unfold Machine.spoil
  split
  · exact refl s
  · exact ⟨_, _, _, _, rfl⟩

theorem eccClearAll (s : State) (spans : List (Nat × Nat)) : CachesMoved s (eccClearAll s spans) := ⟨_, _, _, _, rfl⟩

theorem atL2 (s : State) (a : Acc) (va loc n : Nat) : CachesMoved s (atL2 s a va loc n) := by
  unfold Machine.atL2
  extract_lets s1 spans
  have h1 : CachesMoved s s1 := by
    unfold s1
    split
    · exact dropRdc ..
    · exact holdL2 ..
  exact (h1.trans (eccClearAll ..)).trans (spoil ..)

theorem tileAtL2 (s : State) (a : Acc) : CachesMoved s (tileAtL2 s a) := by
  unfold Machine.tileAtL2
  extract_lets s1
  have h1 : CachesMoved s s1 := foldl (fun t p => by
    split
    · split
      · exact dropRdc ..
      · exact holdL2 ..
    · exact refl t) _ _
  exact (h1.trans (eccClearAll ..)).trans (spoil ..)

end CachesMoved

/-! ### Aliases are judged by history, translations and memory, not by accesses (R190) -/

section
variable (s : State) (acc : Tab Acc) {m : WalkAt} (hm : m.past = true)
include hm

theorem tableNat_acc (far : Bool) (die a n : Nat) : tableNat { s with acc := acc } m far die a n = tableNat s m far die a n := by
  have hbytes : ∀ loc, devBytes { s with acc := acc } loc n = devBytes s loc n := fun loc => by
    rw [devBytes_eq_map, devBytes_eq_map]; rfl
  simp only [tableNat, walkBytes, hm, Bool.not_true, Bool.false_and, Bool.or_false, if_true, hbytes]
  rfl

theorem walkGo_acc (far : Bool) (die asid va : Nat) (win : Nat × Nat) : ∀ (lvls : List Nat) (table : Nat),
    walkGo { s with acc := acc } m far die asid va win lvls table = walkGo s m far die asid va win lvls table
  | [], _ => rfl
  | lvl :: lvls, table => by
    simp only [walkGo, leafPage, ReadMoved.walkEcc_past _ hm, tableNat_acc s acc hm, walkGo_acc far die asid va win lvls]

theorem walkWith_acc (far : Bool) (die asid va : Nat) : walkWith { s with acc := acc } m far die asid va = walkWith s m far die asid va := by
  have hbytes : ∀ loc, devBytes { s with acc := acc } loc 128 = devBytes s loc 128 := fun loc => by
    rw [devBytes_eq_map, devBytes_eq_map]; rfl
  have hasdt : ∀ base, asdtAt { s with acc := acc } base m asid = asdtAt s base m asid := fun base => by
    simp only [asdtAt, hbytes]; rfl
  have hbase : asdtBase { s with acc := acc } = asdtBase s := rfl
  simp only [walkWith, hbase, walkFrom, ReadMoved.walkEcc_past _ hm, hasdt, walkGo_acc s acc hm]

end

theorem brokenAlias_acc (s : State) (acc : Tab Acc) (v : Via) (loc n : Nat) : brokenAlias { s with acc := acc } v loc n = brokenAlias s v loc n := by
  have hlaunch : launchOf { s with acc := acc } = launchOf s := rfl
  have hx : xcache { s with acc := acc } = xcache s := rfl
  simp only [brokenAlias, otherVia, viaLive, reaches, hlaunch, hx, walkWith_acc]

/-! ### What a strong write passes (R209, R211, R213) -/

/-- A state that differs in its accesses alone, of which those from a number on stand as they stood. -/
def EarlierMoved (id : Nat) (s t : State) : Prop := ∃ acc, t = { s with acc := acc } ∧ ∀ k, id ≤ k → Tab.find acc k = Tab.find s.acc k

namespace EarlierMoved

variable {id : Nat} {s t u : State}

theorem refl (id : Nat) (s : State) : EarlierMoved id s s := ⟨_, rfl, fun _ _ => rfl⟩

theorem trans (h : EarlierMoved id s t) (h' : EarlierMoved id t u) : EarlierMoved id s u := by
  obtain ⟨_, rfl, hk⟩ := h
  obtain ⟨_, rfl, hk'⟩ := h'
  exact ⟨_, rfl, fun k hle => (hk' k hle).trans (hk k hle)⟩

theorem putAcc (s : State) {k : Nat} (hk : k < id) (a : Acc) : EarlierMoved id s (putAcc s k a) := by
  unfold Machine.putAcc
  split
  · exact ⟨_, rfl, fun j hj => (Tab.find_del ..).trans (if_neg (by omega))⟩
  · exact ⟨_, rfl, fun j hj => (Tab.find_put ..).trans (if_neg (by omega))⟩

theorem foldl {α : Type} {f : State → α → State} : ∀ (l : List α) (s : State), (∀ x ∈ l, ∀ s, EarlierMoved id s (f s x)) →
    EarlierMoved id s (l.foldl f s)
  | [], s, _ => refl id s
  | x :: l, s, h => (h x (List.mem_cons_self ..) s).trans (foldl l _ fun y hy => h y (List.mem_cons_of_mem _ hy))

theorem passStores (s : State) (id wid lo hi : Nat) : EarlierMoved id s (passStores s id wid lo hi) := by
  refine foldl _ s fun e he t => putAcc t ?_ _
  have := (List.mem_filter.1 he).2
  simp only [Bool.and_eq_true, decide_eq_true_eq] at this
  exact this.1.1.1.1

theorem accOf (h : EarlierMoved id s t) : accOf t id = accOf s id := by
  obtain ⟨_, rfl, hk⟩ := h
  exact hk id le_rfl

theorem brokenAlias (h : EarlierMoved id s t) (v : Via) (loc n : Nat) : brokenAlias t v loc n = brokenAlias s v loc n := by
  obtain ⟨_, rfl, -⟩ := h
  exact brokenAlias_acc ..

end EarlierMoved

/-! ### Bytes of an event -/

theorem ByteKept.trans {s t u : State} {x : Nat} (h : ByteKept s t x) (h' : ByteKept t u x) : ByteKept s u x :=
  ⟨h'.1.trans h.1, h'.2.trans h.2⟩

theorem ByteKept.of_mem {s t : State} (hmem : t.mem = s.mem) (hwiped : t.wiped = s.wiped) (x : Nat) : ByteKept s t x :=
  ⟨by rw [hmem], by rw [hwiped]⟩

/-- An event keeps the bytes that it does not write. -/
theorem byteKept_putCommits (o : Origin) : ∀ (bs : List Byte) (s : State) (loc : Nat) {x : Nat}, x < loc ∨ loc + bs.length ≤ x →
    ByteKept s (putCommits s o loc bs) x
  | [], s, _, x, _ => .of_mem rfl rfl x
  | v :: t, s, loc, x, h => by
    rw [List.length_cons] at h
    refine ByteKept.trans (t := putCommit s o loc v) ⟨?_, ?_⟩ (byteKept_putCommits o t _ (loc + 1) (by omega))
    · exact (getByte_putByte ..).trans (if_neg (by omega))
    · refine (isWiped_flatMap ..).trans ?_
      rw [decide_eq_true (by omega), Bool.true_and]

theorem putCommits_hist (o : Origin) : ∀ (bs : List Byte) (s : State) (loc : Nat), ∀ c ∈ (putCommits s o loc bs).hist,
    c ∈ s.hist ∨ c.seq = s.commits + 1
  | [], _, _, c, hc => .inl hc
  | v :: t, s, loc, c, hc => (putCommits_hist o t _ (loc + 1) c hc).elim
      (fun h => (List.mem_cons.1 h).elim (fun h => .inr (by rw [h])) .inl) .inr

theorem putCommits_commits (o : Origin) : ∀ (bs : List Byte) (s : State) (loc : Nat), (putCommits s o loc bs).commits = s.commits
  | [], _, _ => rfl
  | _ :: t, _, loc => putCommits_commits o t _ (loc + 1)

theorem devByte_of_written {s : State} {x : Nat} (h : isWiped s.wiped x = false) : devByte s x = getByte s.mem x := by
  rw [devByte, h]
  rfl

/-- A byte that stands written with a value. -/
def Stands (s : State) (x : Nat) (v : Byte) : Prop := getByte s.mem x = v ∧ isWiped s.wiped x = false

theorem Stands.devByte {s : State} {x : Nat} {v : Byte} (h : Stands s x v) : devByte s x = v := (devByte_of_written h.2).trans h.1

theorem Stands.kept {s t : State} {x : Nat} {v : Byte} (h : Stands s x v) (hk : ByteKept s t x) : Stands t x v :=
  ⟨hk.1.trans h.1, hk.2.trans h.2⟩

theorem stands_putCommits (o : Origin) (bs : List Byte) (s : State) (loc : Nat) {n : Nat} (hn : n < bs.length) :
    Stands (putCommits s o loc bs) (loc + n) bs[n] := by
  obtain ⟨hbyte, hwritten⟩ := putCommits_holds o bs s loc
  exact ⟨(devByte_of_written (hwritten n hn)).symm.trans (hbyte n hn), hwritten n hn⟩

/-! ### Stores through a broken alias (R190; log 44) -/

/-- A byte stays, or an earlier store to it stands there again. -/
def KeptOrRestored (hist : List Commit) (s t : State) (x : Nat) : Prop := ByteKept s t x ∨ ∃ c ∈ hist, c.loc = x ∧ Stands t x c.new

theorem KeptOrRestored.trans {hist : List Commit} {s t u : State} {x : Nat} (h : KeptOrRestored hist s t x) (h' : KeptOrRestored hist t u x) :
    KeptOrRestored hist s u x := by
  obtain hkept' | hrest' := h'
  · obtain hkept | ⟨c, hc, hloc, hstands⟩ := h
    · exact .inl (hkept.trans hkept')
    · exact .inr ⟨c, hc, hloc, hstands.kept hkept'⟩
  · exact .inr hrest'

theorem putCommit_kept (s : State) (o : Origin) {loc x : Nat} (v : Byte) (h : x ≠ loc) : ByteKept s (putCommit s o loc v) x :=
  byteKept_putCommits o [v] s loc (by rw [List.length_singleton]; omega)

theorem putCommit_stands (s : State) (o : Origin) (loc : Nat) (v : Byte) : Stands (putCommit s o loc v) loc v :=
  stands_putCommits o [v] s loc Nat.one_pos

theorem aliasCommit_some {s : State} {v : Via} {loc cut : Nat} {c : Commit} (h : aliasCommit s v loc cut = some c) : c ∈ s.hist ∧ c.loc = loc := by
  refine ⟨List.mem_of_find?_eq_some h, ?_⟩
  have := List.find?_some h
  simp only [Bool.and_eq_true, beq_iff_eq] at this
  exact this.1.1

/-- What a store through an alias may do to the bytes of a store. -/
structure AliasMoved (hist : List Commit) (loc n : Nat) (s t : State) : Prop where
  written : DevWritten s t
  commits : s.commits ≤ t.commits
  kept : ∀ x, x < loc ∨ loc + n ≤ x → ByteKept s t x
  restored : ∀ x, KeptOrRestored hist s t x

theorem AliasMoved.refl (hist : List Commit) (loc n : Nat) (s : State) : AliasMoved hist loc n s s :=
  ⟨.refl s, le_rfl, fun x _ => .of_mem rfl rfl x, fun x => .inl (.of_mem rfl rfl x)⟩

theorem AliasMoved.trans {hist : List Commit} {loc n : Nat} {s t u : State} (h : AliasMoved hist loc n s t) (h' : AliasMoved hist loc n t u) :
    AliasMoved hist loc n s u :=
  ⟨h.written.trans h'.written, h.commits.trans h'.commits, fun x hx => (h.kept x hx).trans (h'.kept x hx),
    fun x => (h.restored x).trans (h'.restored x)⟩

theorem AliasMoved.putCommit {hist : List Commit} {loc n : Nat} {c : Commit} (s : State) (hc : c ∈ hist) (hlo : loc ≤ c.loc) (hhi : c.loc < loc + n) :
    AliasMoved hist loc n s (putCommit s c.org c.loc c.new) := by
  refine ⟨.putCommits c.org [c.new] s c.loc, le_rfl, fun x hx => putCommit_kept s _ _ (by omega), fun x => ?_⟩
  by_cases hx : x = c.loc
  · subst hx
    exact .inr ⟨c, hc, rfl, putCommit_stands ..⟩
  · exact .inl (putCommit_kept s _ _ hx)

theorem AliasMoved.restores (before : State) (v : Via) (loc n cut : Nat) : ∀ (l : List Nat) (s : State), (∀ i ∈ l, i < n) →
    AliasMoved before.hist loc n s (l.foldl (fun t i => match aliasCommit before v (loc + i) cut with
      | some c => Machine.putCommit t c.org (loc + i) c.new
      | none => t) s)
  | [], s, _ => .refl ..
  | i :: l, s, h => by
    refine .trans ?_ (restores before v loc n cut l _ fun j hj => h j (List.mem_cons_of_mem _ hj))
    have hi := h i (List.mem_cons_self ..)
    dsimp only
    split
    · next c hc =>
      obtain ⟨hmem, hloc⟩ := aliasCommit_some hc
      rw [← hloc]
      exact .putCommit s hmem (by omega) (by omega)
    · exact .refl ..

theorem aliasStore_moved (s before : State) (o : Origin) (loc n : Nat) : AliasMoved before.hist loc n s (aliasStore s before o loc n) := by
  unfold aliasStore
  split
  · next v _ =>
    extract_lets cut
    split
    · exact (AliasMoved.restores before v loc n cut (List.range n) s fun i hi => List.mem_range.1 hi).trans
        ⟨⟨_, _, _, _, rfl⟩, Nat.le_succ _, fun x _ => .of_mem rfl rfl x, fun x => .inl (.of_mem rfl rfl x)⟩
    · exact .refl ..
  · exact .refl ..

/-! ### One piece of a store -/

/-- What the commit of a piece's bytes leaves. -/
structure BytesCommitted (id : Nat) (s : State) (via : Via) (loc : Nat) (bs : List Byte) (t : State) : Prop where
  commits : s.commits < t.commits
  waves : t.waves = s.waves
  kept : ∀ x, x < loc ∨ loc + bs.length ≤ x → ByteKept s t x
  sound : brokenAlias s via loc bs.length = false → ∀ n (h : n < bs.length), Stands t (loc + n) bs[n]
  either : ∀ n (h : n < bs.length), Stands t (loc + n) bs[n] ∨ ∃ c ∈ s.hist, c.loc = loc + n ∧ Stands t (loc + n) c.new

theorem CachesMoved.kept {s t : State} (h : CachesMoved s t) (x : Nat) : ByteKept s t x := by
  obtain ⟨_, _, _, _, rfl⟩ := h
  exact .of_mem rfl rfl x

theorem CachesMoved.commits {s t : State} (h : CachesMoved s t) : t.commits = s.commits := by obtain ⟨_, _, _, _, rfl⟩ := h; rfl
theorem CachesMoved.waves {s t : State} (h : CachesMoved s t) : t.waves = s.waves := by obtain ⟨_, _, _, _, rfl⟩ := h; rfl
theorem CachesMoved.hist {s t : State} (h : CachesMoved s t) : t.hist = s.hist := by obtain ⟨_, _, _, _, rfl⟩ := h; rfl

theorem commitAt_committed (s : State) (id : Nat) (a : Acc) (va loc : Nat) (bs : List Byte) (atom : Bool) :
    BytesCommitted id s (accVia a va loc) loc bs (commitAt s id a va loc bs atom) := by
  unfold commitAt
  extract_lets s1 o s2
  have h1 : EarlierMoved id s s1 := by
    unfold s1
    split
    · exact .refl ..
    · exact .passStores ..
  let u := atL2 (commitBytes s1 o loc bs) a va loc bs.length
  have hcaches : CachesMoved (commitBytes s1 o loc bs) u := .atL2 ..
  have halias : AliasMoved s1.hist loc bs.length u s2 := aliasStore_moved ..
  have hlast : CachesMoved s2 (modCore s2 a.core fun c => raiseTo c loc bs.length s2.commits) := .modCore ..
  have hkept1 : ∀ x, ByteKept s s1 x := fun x => by obtain ⟨_, h, -⟩ := h1; rw [h]; exact .of_mem rfl rfl x
  have hhist : s1.hist = s.hist := by obtain ⟨_, h, -⟩ := h1; rw [h]
  have hstands : ∀ n (h : n < bs.length), Stands u (loc + n) bs[n] := fun n h =>
    ((stands_putCommits o bs s1 loc h).kept (.of_mem rfl rfl _)).kept (hcaches.kept _)
  refine ⟨?_, ?_, fun x hx => ?_, fun hsound n hn => ?_, fun n hn => ?_⟩
  · have hcount : (commitBytes s1 o loc bs).commits = s.commits + 1 := by
      obtain ⟨_, h, -⟩ := h1
      exact congrArg (· + 1) ((putCommits_commits ..).trans (by rw [h]))
    have := halias.commits
    rw [hcaches.commits, hcount] at this
    exact this
  · obtain ⟨_, _, _, _, hw⟩ := halias.written
    calc (modCore s2 a.core fun c => raiseTo c loc bs.length s2.commits).waves = u.waves := by rw [hw]; rfl
      _ = s1.waves := hcaches.waves.trans (putCommits_waves ..)
      _ = s.waves := by obtain ⟨_, h, -⟩ := h1; rw [h]
  · have hput : ByteKept s1 (commitBytes s1 o loc bs) x := (byteKept_putCommits o bs s1 loc hx).trans (.of_mem rfl rfl x)
    exact ((((hkept1 x).trans hput).trans (hcaches.kept x)).trans (halias.kept x hx)).trans (hlast.kept x)
  · have hid : s2 = u := aliasStore_sound fun v hv => by
      obtain rfl := Option.some.inj hv
      exact (h1.brokenAlias ..).trans hsound
    exact (hid ▸ hstands n hn).kept (hlast.kept _)
  · obtain hkept | ⟨c, hc, hloc, hrest⟩ := halias.restored (loc + n)
    · exact .inl (((hstands n hn).kept hkept).kept (hlast.kept _))
    · exact .inr ⟨c, hhist ▸ hc, hloc, hrest.kept (hlast.kept _)⟩

theorem accOf_putAcc_same (s : State) (id : Nat) (a : Acc) : accOf (putAcc s id a) id = if a.pieces.all (·.done) then none else some a := by
  unfold putAcc
  split
  · exact (accOf_delAcc ..).trans (if_pos rfl)
  · exact (accOf_setAcc ..).trans (if_pos rfl)

theorem putAcc_kept (s : State) (id : Nat) (a : Acc) (x : Nat) : ByteKept s (putAcc s id a) x := by
  unfold putAcc
  split <;> exact .of_mem rfl rfl x

theorem putAcc_waves (s : State) (id : Nat) (a : Acc) : (putAcc s id a).waves = s.waves := by
  unfold putAcc
  split <;> rfl

theorem putAcc_commits (s : State) (id : Nat) (a : Acc) : (putAcc s id a).commits = s.commits := by
  unfold putAcc
  split <;> rfl

theorem mem_readyAt {s : State} {id : Nat} {a : Acc} {i : Nat} (h : i ∈ readyAt s id a) :
    ∃ p loc, a.pieces[i]? = some p ∧ p.pa = some loc ∧ commitReady s id a p = true := by
  have hready := (List.mem_filter.1 h).2
  split at hready
  · cases hready
  · next p hp =>
    have hcommit := (Bool.and_eq_true_iff.1 hready).1
    have hpa : p.pa.isSome = true := by
      simp only [commitReady, Bool.and_eq_true] at hcommit
      exact hcommit.1.1.1.1.1
    obtain ⟨loc, hloc⟩ := Option.isSome_iff_exists.1 hpa
    exact ⟨p, loc, hp, hloc, hcommit⟩

theorem pick_lt (s : State) (tag : Nat) {n : Nat} (h : 0 < n) : pick s tag n < n := by
  unfold pick
  split
  · exact h
  · exact Nat.mod_lt _ h

/-- One of the choices that a free value makes among those there are. -/
theorem getD_pick_mem (s : State) (tag : Nat) {l : List Nat} (h : l ≠ []) (d : Nat) : l.getD (pick s tag l.length) d ∈ l := by
  have hlt := pick_lt s tag (List.length_pos_iff.2 h)
  rw [List.getD_eq_getElem _ _ hlt]
  exact List.getElem_mem hlt

/-- A ready piece of a store commits. -/
theorem exec_storeCommit_piece {id : Nat} {s : State} {a : Acc} (ha : accOf s id = some a) (hkind : a.kind = .store) (hready : readyAt s id a ≠ []) :
    ∃ i p loc, a.pieces[i]? = some p ∧ p.pa = some loc ∧ commitReady s id a p = true ∧ exec (.storeCommit id) s =
      .next (bump (putAcc (commitAt s id a p.va loc p.data false) id { a with pieces := listSet a.pieces i { p with done := true } })) := by
  have hmem := getD_pick_mem s 60 hready 0
  obtain ⟨p, loc, hp, hloc, hcommit⟩ := mem_readyAt hmem
  refine ⟨_, p, loc, hp, hloc, hcommit, ?_⟩
  change execStoreCommit id s = _
  have hempty : (readyAt s id a).isEmpty = false := by simpa using hready
  simp only [execStoreCommit, ha, hkind, hempty, Bool.false_eq_true, if_false, commitPiece, hp, hloc, done]

/-! ### A tile store (R152, R223) -/

/-- A piece covers a location. -/
def Piece.Covers (p : Piece) (x : Nat) : Prop := ∃ loc, p.pa = some loc ∧ loc ≤ x ∧ x < loc + p.size

/-- What the rows of a tile leave: the last row that covers a location is the one that stands there. -/
structure RowsPut (s : State) (ps : List Piece) (t : State) : Prop where
  commits : t.commits = s.commits + 1
  waves : t.waves = s.waves
  hist : ∀ c ∈ t.hist, c ∈ s.hist ∨ c.seq = s.commits + 1
  kept : ∀ x, (∀ p ∈ ps, ¬ p.Covers x) → ByteKept s t x
  last : ∀ (i : Nat) (p : Piece) (loc x : Nat), ps[i]? = some p → p.pa = some loc → loc ≤ x → x < loc + p.size →
    (∀ (j : Nat) (q : Piece), i < j → ps[j]? = some q → ¬ q.Covers x) → ∃ v, p.data[x - loc]? = some v ∧ Stands t x v

theorem putRows_put (id : Nat) (a : Acc) : ∀ (ps : List Piece) (s : State), (∀ p ∈ ps, p.data.length = p.size) → RowsPut s ps (putRows s id a ps)
  | [], s, _ => ⟨rfl, rfl, fun _ h => .inl h, fun x _ => .of_mem rfl rfl x, fun i p _ _ h => by simp at h⟩
  | p :: ps, s, hlen => by
    have hrest := fun u => putRows_put id a ps u fun q hq => hlen q (List.mem_cons_of_mem _ hq)
    rw [putRows]
    cases hpa : p.pa with
    | none =>
      obtain ⟨hcommits, hwaves, hhist, hkept, hlast⟩ := hrest s
      refine ⟨hcommits, hwaves, hhist, fun x hx => hkept x fun q hq => hx q (List.mem_cons_of_mem _ hq), fun i q loc x hq hloc hlo hhi hlater => ?_⟩
      cases i with
      | zero =>
        obtain rfl := Option.some.inj hq
        rw [hpa] at hloc
        cases hloc
      | succ i => exact hlast i q loc x hq hloc hlo hhi fun j r hj hr => hlater (j + 1) r (Nat.succ_lt_succ hj) hr
    | some base =>
      have hsize := hlen p (List.mem_cons_self ..)
      let u := putCommits s (accOrigin id a p.va base false) base p.data
      obtain ⟨hcommits, hwaves, hhist, hkept, hlast⟩ := hrest u
      have hcount : u.commits = s.commits := putCommits_commits ..
      refine ⟨by rw [hcommits, hcount], hwaves.trans (putCommits_waves ..), fun c hc => ?_, fun x hx => ?_, fun i q loc x hq hloc hlo hhi hlater => ?_⟩
      · exact (hhist c hc).elim (putCommits_hist _ _ _ _ c) fun h => .inr (by rw [h, hcount])
      · have hout : x < base ∨ base + p.data.length ≤ x := by
          have := hx p (List.mem_cons_self ..)
          by_contra hin
          exact this ⟨base, hpa, by omega, by omega⟩
        exact (byteKept_putCommits _ _ _ _ hout).trans (hkept x fun q hq => hx q (List.mem_cons_of_mem _ hq))
      · cases i with
        | zero =>
          obtain rfl := Option.some.inj hq
          obtain rfl := Option.some.inj (hpa.symm.trans hloc)
          have hn : x - base < p.data.length := by omega
          refine ⟨_, List.getElem?_eq_getElem hn, ?_⟩
          have hstands := stands_putCommits (accOrigin id a p.va base false) p.data s base hn
          rw [Nat.add_sub_cancel' hlo] at hstands
          refine hstands.kept (hkept x fun q hq => ?_)
          obtain ⟨j, hj⟩ := List.mem_iff_getElem?.1 hq
          exact hlater (j + 1) q (Nat.succ_pos j) hj
        | succ i => exact hlast i q loc x hq hloc hlo hhi fun j r hj hr => hlater (j + 1) r (Nat.succ_lt_succ hj) hr

theorem finishMs_waves (s : State) (lid p ctx n : Nat) : (finishMs s lid p ctx n).waves = s.waves := modParty_waves ..

/-- A tile that is accepted changes its own entry and its party. -/
theorem tileAccept_moved (s : State) (id : Nat) : ∃ acc parties, tileAccept s id = { s with acc := acc, parties := parties } := by
  unfold tileAccept
  split
  · exact ⟨_, _, rfl⟩
  · split
    · extract_lets s1
      split
      · unfold finishMs modParty
        split <;> exact ⟨_, _, rfl⟩
      · exact ⟨_, _, rfl⟩
    · exact ⟨_, _, rfl⟩

theorem foldl_fixed {α σ : Type} {f : σ → α → σ} {s : σ} : ∀ {l : List α}, (∀ x ∈ l, f s x = s) → l.foldl f s = s
  | [], _ => rfl
  | x :: l, h => by
    rw [List.foldl_cons, h x (List.mem_cons_self ..)]
    exact foldl_fixed fun y hy => h y (List.mem_cons_of_mem _ hy)

/-- A tile store commits whole, where no alias of its places is broken. -/
theorem commitTile_committed {s : State} {id : Nat} {a : Acc} (hlen : ∀ p ∈ a.pieces, p.data.length = p.size)
    (hsound : ∀ p ∈ a.pieces, ∀ loc, p.pa = some loc → brokenAlias s (accVia a p.va loc) loc p.size = false) :
    RowsPut s a.pieces (commitTile s id a) ∧ accOf (commitTile s id a) id = none := by
  unfold commitTile
  extract_lets s1 s2 s3 s4
  have h1 : EarlierMoved id s s1 := by
    unfold s1
    split
    · exact .refl ..
    · refine .foldl _ s fun p _ t => ?_
      split
      · exact .passStores ..
      · exact .refl ..
  have hput := putRows_put id a a.pieces s1 hlen
  have hcaches : CachesMoved (putRows s1 id a a.pieces) s2 := by
    have halias : s2 = tileAtL2 (putRows s1 id a a.pieces) a := by
      refine foldl_fixed fun p hp => ?_
      split
      · next loc hloc =>
        refine aliasStore_sound fun v hv => ?_
        obtain rfl := Option.some.inj hv
        exact (h1.brokenAlias ..).trans (hsound p hp loc hloc)
      · rfl
    rw [halias]
    exact .tileAtL2 ..
  have hfloors : CachesMoved s2 s3 := .foldl (fun t p => by
    split
    · exact .modCore ..
    · exact .refl t) _ _
  obtain ⟨_, _, _, _, hmoved⟩ := hcaches.trans hfloors
  obtain ⟨_, _, haccept⟩ := tileAccept_moved s4 id
  obtain ⟨_, hs1, -⟩ := h1
  refine ⟨?_, (accOf_delAcc ..).trans (if_pos rfl)⟩
  rw [haccept]
  unfold s4
  rw [hmoved]
  rw [hs1] at hput ⊢
  exact ⟨hput.commits, hput.waves, hput.hist, hput.kept, hput.last⟩

theorem exec_storeCommit_tile {id : Nat} {s : State} {a : Acc} (ha : accOf s id = some a) (hkind : a.kind = .tstore)
    (hready : tileReady s id a = true) : exec (.storeCommit id) s = .next (bump (commitTile s id a)) := by
  change execStoreCommit id s = _
  simp only [execStoreCommit, ha, hkind, hready, if_true, done]

/-- Settles O31: a piece commits as `commitAt` does, a tile as its rows are put one after another. -/
theorem storeCommitWritesItsBytes : Obligations.StoreCommitWritesItsBytes := by
  unfold Obligations.StoreCommitWritesItsBytes
  refine fun id s a ha hlen => ⟨fun hkind hready => ?_, fun hkind hready hsound => ?_⟩
  · obtain ⟨i, p, loc, hp, hloc, hcommit, hexec⟩ := exec_storeCommit_piece ha hkind hready
    have hsize : p.data.length = p.size := hlen p (List.mem_of_getElem? hp)
    let u := commitAt s id a p.va loc p.data false
    have hu : BytesCommitted id s (accVia a p.va loc) loc p.data u := commitAt_committed ..
    let b : Acc := { a with pieces := listSet a.pieces i { p with done := true } }
    have hkept : ∀ x, ByteKept u (bump (putAcc u id b)) x := fun x => (putAcc_kept u id b x).trans (.of_mem rfl rfl x)
    refine ⟨_, i, p, loc, hexec, hp, hloc, hcommit, ?_, (putAcc_waves ..).trans hu.waves, accOf_putAcc_same u id b, fun hsound n hn => ?_,
      fun n hn => ?_, fun x hx => (hu.kept x (by omega)).trans (hkept x)⟩
    · exact lt_of_lt_of_eq hu.commits (putAcc_commits u id b).symm
    · have hn' : n < p.data.length := by omega
      rw [← hsize] at hsound
      rw [((hu.sound hsound n hn').kept (hkept _)).devByte, List.getElem?_eq_getElem hn']
    · have hn' : n < p.data.length := by omega
      obtain hnew | ⟨c, hc, hat, hold⟩ := hu.either n hn'
      · exact .inl (by rw [(hnew.kept (hkept _)).devByte, List.getElem?_eq_getElem hn'])
      · exact .inr ⟨c, hc, hat, (hold.kept (hkept _)).devByte⟩
  · obtain ⟨⟨hcommits, hwaves, hhist, hkept, hlast⟩, hgone⟩ := commitTile_committed (id := id) hlen hsound
    have hbump : ∀ x, ByteKept (commitTile s id a) (bump (commitTile s id a)) x := .of_mem rfl rfl
    refine ⟨_, exec_storeCommit_tile ha hkind hready, hgone, hcommits, hwaves, hhist, fun i p loc x hp hloc hlo hhi hlater => ?_,
      fun x hx => (hkept x hx).trans (hbump x)⟩
    obtain ⟨v, hv, hstands⟩ := hlast i p loc x hp hloc hlo hhi hlater
    rw [(hstands.kept (hbump x)).devByte, hv]

end Sys2Proof.Machine

/-! PROOF. COPY_COMPLETE of an inbound copy and MCAST_LANDING (R146, R218, R228 to R230, R233 to R236). -/

namespace Sys2Proof.Machine

/-! ### Numbers that complete (R148, R218) -/

theorem finishMs_moved (s : State) (lid p ctx n : Nat) : ∃ parties, finishMs s lid p ctx n = { s with parties := parties } := by
  unfold finishMs modParty
  split <;> exact ⟨_, rfl⟩

/-- A completed number is noted in its context. -/
theorem finishMs_done {s : State} {lid p : Nat} {q : Party} (hq : partyOf s lid p = some q) (ctx n : Nat) :
    ∃ u, partyOf (finishMs s lid p ctx n) lid p = some u ∧ n ∈ (msOf u ctx).done := by
  unfold finishMs modParty
  rw [hq]
  refine ⟨_, partyOf_setParty .., ?_⟩
  rw [msOf, Tab.findD_put, if_pos rfl]
  exact List.mem_append_right _ (List.mem_singleton.2 rfl)

/-! ### A wave that a result reaches and that does not stand halted (R281) -/

theorem modReach_eq {s : State} {k : Nat} {w : Wave} (hw : waveOf s k = some w) (hst : w.st ≠ .halted) (f : Wave → Wave) :
    modReach s k f = setWave s k (f w) := by
  have hreach : modReach s k f = reach s k (f w) := by rw [modReach, hw]
  rw [hreach]
  unfold reach
  extract_lets s1
  split
  · next w' _ hw' _ =>
    obtain rfl := Option.some.inj (hw.symm.trans hw')
    rw [if_neg fun h => hst h.2]
  · rfl

/-! ### The end of a copy (R228) -/

/-- A copy is over: it is gone, its status stands in the register that was marked until then, and its number has completed. -/
def CopyEnded (id : Nat) (c : Copy) (w : Wave) (status : DWord) (t : State) : Prop :=
  copyOf t id = none ∧ ∃ v u, waveOf t c.wid = some v ∧
    (∀ i, c.dreg = .s i → Tab.find v.s i = some { val := status, und := w.tainted.contains c.dreg }) ∧
    (∀ i, c.dreg = .h i → Tab.find v.h i = some { val := status, und := w.tainted.contains c.dreg }) ∧
    (∀ b ∈ v.busy, b.by_ ≠ id) ∧ partyOf t c.lid c.party = some u ∧ c.num ∈ (msOf u c.ctx).done

theorem statusWrite_s (w : Wave) (i : Nat) (v : DWord) :
    Tab.find (statusWrite w (.s i) v).s i = some { val := v, und := w.tainted.contains (.s i) } := by
  unfold statusWrite
  exact Tab.find_put_same ..

theorem statusWrite_h (w : Wave) (i : Nat) (v : DWord) :
    Tab.find (statusWrite w (.h i) v).h i = some { val := v, und := w.tainted.contains (.h i) } := by
  unfold statusWrite
  exact Tab.find_put_same ..

theorem clearBusy_gone (w : Wave) (id : Nat) : ∀ b ∈ (clearBusy w id).busy, b.by_ ≠ id := fun b hb => by
  simpa using (List.mem_filter.1 hb).2

theorem finishCopy_ends {s : State} {id : Nat} {c : Copy} {w : Wave} {q : Party} (hkind : c.kind ≠ .inSlot) (hw : waveOf s c.wid = some w)
    (hst : w.st ≠ .halted) (hq : partyOf s c.lid c.party = some q) (v : DWord) :
    CopyEnded id c w v (finishCopy s id c v) ∧ (finishCopy s id c v).mem = s.mem ∧ (finishCopy s id c v).cores = s.cores := by
  let s1 := setWave (delCopy s id) c.wid (clearBusy (statusWrite w c.dreg v) id)
  have hfinish : finishCopy s id c v = finishMs s1 c.lid c.party c.ctx c.num := by
    unfold finishCopy
    rw [modReach_eq (s := delCopy s id) hw hst]
    split
    · next h => exact absurd h hkind
    · rfl
  obtain ⟨parties, hmoved⟩ := finishMs_moved s1 c.lid c.party c.ctx c.num
  obtain ⟨u, hu, hdone⟩ := finishMs_done (s := s1) hq c.ctx c.num
  rw [hfinish]
  refine ⟨⟨?_, _, u, ?_, fun i hi => ?_, fun i hi => ?_, clearBusy_gone (statusWrite w c.dreg v) id, hu, hdone⟩, by rw [hmoved]; rfl, by rw [hmoved]; rfl⟩
  · rw [hmoved]
    exact (copyOf_delCopy s id id).trans (if_pos rfl)
  · rw [hmoved]
    exact (waveOf_setWave ..).trans (if_pos rfl)
  · rw [hi]
    exact statusWrite_s ..
  · rw [hi]
    exact statusWrite_h ..

/-! ### Intervals of bytes -/

theorem mem_numbers {l : List (Nat × Nat)} {k : Nat} : k ∈ numbers l ↔ ∃ r ∈ l, r.1 ≤ k ∧ k < r.1 + r.2 := by
  simp only [numbers, List.mem_flatMap, List.mem_map, List.mem_range]
  refine exists_congr fun r => and_congr_right fun _ => ⟨?_, fun ⟨hlo, hhi⟩ => ⟨k - r.1, by omega, by omega⟩⟩
  rintro ⟨i, hi, rfl⟩
  omega

theorem numbers_cons_length (r : Nat × Nat) (l : List (Nat × Nat)) : (numbers (r :: l)).length = r.2 + (numbers l).length := by
  simp [numbers]

/-- What of one interval lies outside another. -/
theorem mem_cutOut {a b : Nat} {l : List (Nat × Nat)} {x : Nat × Nat} : x ∈ cutOut a b l ↔ ∃ r ∈ l,
    ((b ≤ r.1 ∨ r.1 + r.2 ≤ a) ∧ x = r) ∨
      ((r.1 < b ∧ a < r.1 + r.2) ∧ ((r.1 < a ∧ x = (r.1, a - r.1)) ∨ (b < r.1 + r.2 ∧ x = (b, r.1 + r.2 - b)))) := by
  simp only [cutOut, List.mem_flatMap]
  refine exists_congr fun r => and_congr_right fun _ => ?_
  by_cases hout : b ≤ r.1 ∨ r.1 + r.2 ≤ a
  · have hin : ¬ (r.1 < b ∧ a < r.1 + r.2) := by omega
    simp [hout, hin]
  · have hin : r.1 < b ∧ a < r.1 + r.2 := by omega
    simp [hout, hin]

theorem mem_numbers_cutOut {a b : Nat} {l : List (Nat × Nat)} {k : Nat} :
    k ∈ numbers (cutOut a b l) ↔ k ∈ numbers l ∧ ¬ (a ≤ k ∧ k < b) := by
  simp only [mem_numbers, mem_cutOut]
  constructor
  · rintro ⟨x, ⟨r, hr, ⟨hout, rfl⟩ | ⟨hin, ⟨hlt, rfl⟩ | ⟨hlt, rfl⟩⟩⟩, hlo, hhi⟩
    · exact ⟨⟨_, hr, hlo, hhi⟩, by omega⟩
    · simp only at hlo hhi
      exact ⟨⟨r, hr, by omega, by omega⟩, by omega⟩
    · simp only at hlo hhi
      exact ⟨⟨r, hr, by omega, by omega⟩, by omega⟩
  · rintro ⟨⟨r, hr, hlo, hhi⟩, hk⟩
    by_cases hout : b ≤ r.1 ∨ r.1 + r.2 ≤ a
    · exact ⟨r, ⟨r, hr, .inl ⟨hout, rfl⟩⟩, hlo, hhi⟩
    · by_cases hka : k < a
      · exact ⟨_, ⟨r, hr, .inr ⟨by omega, .inl ⟨by omega, rfl⟩⟩⟩, hlo, by simp only; omega⟩
      · exact ⟨_, ⟨r, hr, .inr ⟨by omega, .inr ⟨by omega, rfl⟩⟩⟩, by simp only; omega, by simp only; omega⟩

theorem cutOut_pos {a b : Nat} {l : List (Nat × Nat)} (h : ∀ r ∈ l, 0 < r.2) : ∀ r ∈ cutOut a b l, 0 < r.2 := by
  intro x hx
  obtain ⟨r, hr, ⟨-, rfl⟩ | ⟨-, ⟨hlt, rfl⟩ | ⟨hlt, rfl⟩⟩⟩ := mem_cutOut.1 hx
  · exact h _ hr
  · simp only; omega
  · simp only; omega

theorem length_numbers_cutOut_cons (a b : Nat) (r : Nat × Nat) (l : List (Nat × Nat)) : (numbers (cutOut a b (r :: l))).length =
    (if b ≤ r.1 ∨ r.1 + r.2 ≤ a then r.2 else (a - r.1) + (r.1 + r.2 - b)) + (numbers (cutOut a b l)).length := by
  have happend : ∀ x y, (numbers (x ++ y)).length = (numbers x).length + (numbers y).length := fun x y => by simp [numbers]
  rw [cutOut, List.flatMap_cons, happend]
  refine congrArg (· + _) ?_
  split
  · simp [numbers]
  · rw [happend]
    congr 1
    · split
      · simp [numbers]
      · simp [numbers]; omega
    · split
      · simp [numbers]
      · simp [numbers]; omega

theorem length_numbers_cutOut_le {a b : Nat} (hab : a ≤ b) : ∀ l : List (Nat × Nat), (numbers (cutOut a b l)).length ≤ (numbers l).length
  | [] => le_rfl
  | r :: l => by
    have := length_numbers_cutOut_le hab l
    rw [length_numbers_cutOut_cons, numbers_cons_length]
    split <;> omega

/-- Fewer bytes are left where one of them is cut out. -/
theorem length_numbers_cutOut_lt {a b : Nat} (hab : a < b) : ∀ {l : List (Nat × Nat)}, a ∈ numbers l →
    (numbers (cutOut a b l)).length < (numbers l).length
  | [], h => absurd h List.not_mem_nil
  | r :: l, h => by
    have hle := length_numbers_cutOut_le hab.le l
    rw [length_numbers_cutOut_cons, numbers_cons_length]
    obtain ⟨x, hx, hlo, hhi⟩ := mem_numbers.1 h
    obtain rfl | hx := List.mem_cons.1 hx
    · rw [if_neg (by omega)]
      omega
    · have := length_numbers_cutOut_lt hab (mem_numbers.2 ⟨x, hx, hlo, hhi⟩)
      split <;> omega

/-! ### A run of bytes -/

theorem mem_of_lt_runLen : ∀ {l : List Nat} {a j : Nat}, j < runLen a l → a + j ∈ l
  | [], _, _, h => absurd h (Nat.not_lt_zero _)
  | k :: l, a, j, h => by
    rw [runLen] at h
    split at h
    · next hk =>
      cases j with
      | zero => exact hk ▸ List.mem_cons_self ..
      | succ j =>
        have := mem_of_lt_runLen (l := l) (a := a + 1) (j := j) (by omega)
        rw [Nat.add_right_comm] at this
        exact List.mem_cons_of_mem _ this
    · exact absurd h (Nat.not_lt_zero _)

/-- The first byte and the length of the run that a copy moves. -/
def chosenRun (s : State) (ks : List Nat) : Nat × Nat :=
  let i := pick s 70 ks.length
  let a := ks.getD i 0
  (a, 1 + pick s 71 (runLen a (ks.drop i)))

theorem chosenRun_pos (s : State) (ks : List Nat) : 0 < (chosenRun s ks).2 := Nat.lt_of_lt_of_le Nat.one_pos (Nat.le_add_right ..)

theorem mem_chosenRun {s : State} {ks : List Nat} (h : ks ≠ []) {j : Nat} (hj : j < (chosenRun s ks).2) : (chosenRun s ks).1 + j ∈ ks := by
  have hi := pick_lt s 70 (List.length_pos_iff.2 h)
  unfold chosenRun at hj ⊢
  dsimp only at hj ⊢
  generalize pick s 70 ks.length = i at hi hj ⊢
  have hdrop : ks.drop i = ks.getD i 0 :: ks.drop (i + 1) := by
    rw [List.getD_eq_getElem _ _ hi]
    exact List.drop_eq_getElem_cons hi
  have hmost : 0 < runLen (ks.getD i 0) (ks.drop i) := by
    rw [hdrop, runLen, if_pos rfl]
    exact Nat.succ_pos _
  have hlt : j < runLen (ks.getD i 0) (ks.drop i) := by
    have := pick_lt s 71 hmost
    omega
  exact List.mem_of_mem_drop (mem_of_lt_runLen hlt)

/-! ### Bytes that an inbound copy moves to the scratchpad (R230) -/

/-- A copy from a segment to the scratchpad, all whose bytes stand at known places with good check bits. -/
structure InboundLinear (s : State) (c : Copy) (base loc : Nat) : Prop where
  kind : c.kind = .inLocal
  lin : c.lin = some (base, loc)
  runs : c.runs = [(base, c.len)]
  targets : c.targets = []
  fails : c.fails = []
  within : ∀ k ∈ numbers c.todo, k < c.len
  good : ∀ k, k < c.len → eccHit s (loc + k) 1 = false

theorem shareOf_congr {s t : State} {core : Nat} (h : (coreOf t core).shares = (coreOf s core).shares) (lid : Nat) :
    shareOf t core lid = shareOf s core lid := congrArg (Tab.findD · lid Share.init) h

/-- What moves of bytes to a core's scratchpad leave: byte k of list l at `pad + k`, as it stood at `loc + k`. -/
structure PadMoved (c : Copy) (base loc pad : Nat) (l : List Nat) (s t : State) : Prop where
  caches : CachesMoved s t
  read : ReadMoved s t
  shares : (coreOf t c.core).shares = (coreOf s c.core).shares
  outside : ∀ x, (∀ k ∈ l, x ≠ pad + k) → getByte (coreOf t c.core).pad x = getByte (coreOf s c.core).pad x
  inside : ∀ k ∈ l, brokenAlias s (copyVia c (base + k) (loc + k)) (loc + k) 1 = false →
    getByte (coreOf t c.core).pad (pad + k) = devByte s (loc + k)

theorem InboundLinear.place {s : State} {c : Copy} {base loc : Nat} (h : InboundLinear s c base loc) {k : Nat} (hk : k < c.len) :
    runVa c.runs k = base + k ∧ copyLoc c (base + k) = some (loc + k) := by
  refine ⟨?_, ?_⟩
  · rw [h.runs, runVa, if_pos hk]
  · rw [copyLoc, h.lin]
    simp

theorem holdL2_cores (s : State) (asid va loc n : Nat) (direct : Bool) : (holdL2 s asid va loc n direct).cores = s.cores := by
  unfold holdL2
  split <;> rfl

/-- The move of one byte. -/
theorem moveByte_moved {c : Copy} {base loc k : Nat} (hkind : c.kind = .inLocal) (hva : runVa c.runs k = base + k)
    (hloc : copyLoc c (base + k) = some (loc + k)) (s : State) :
    PadMoved c base loc (padBase s c.core c.lid + c.loff) [k] s (moveByte c s k) := by
  let u := holdL2 s c.asid (base + k) (loc + k) 1 c.direct
  have hcore : ∀ n, coreOf u n = coreOf s n := fun n => congrArg (Tab.findD · n Core.init) (holdL2_cores ..)
  have hbase : padBase u c.core c.lid = padBase s c.core c.lid := by
    rw [padBase, padBase, shareOf_congr (congrArg Core.shares (hcore c.core))]
  have hmove : moveByte c s k = padWrite u c.core (padBase s c.core c.lid + c.loff + k) [copyByte u c (base + k) (loc + k)] := by
    simp only [moveByte, hva, hloc, hkind]
    rw [← hbase]
  have hread : ReadMoved s u := .holdL2 ..
  rw [hmove]
  have hpad : ∀ x, getByte (coreOf (padWrite u c.core (padBase s c.core c.lid + c.loff + k) [copyByte u c (base + k) (loc + k)]) c.core).pad x =
      if x = padBase s c.core c.lid + c.loff + k then copyByte u c (base + k) (loc + k) else getByte (coreOf s c.core).pad x := fun x => by
    rw [padWrite, coreOf_modCore_same, hcore]
    exact getByte_putByte ..
  refine ⟨(CachesMoved.holdL2 ..).trans (.modCore ..), hread.trans (.modCore ..), ?_, fun x hx => ?_, fun j hj hsound => ?_⟩
  · rw [padWrite, coreOf_modCore_same, hcore]
  · rw [hpad, if_neg (hx k (List.mem_singleton.2 rfl))]
  · obtain rfl := List.mem_singleton.1 hj
    rw [hpad, if_pos rfl, copyByte, aliasRead_sound ((hread.brokenAlias ..).trans hsound), hread.devBytes, devBytes_eq_map]
    rfl

theorem PadMoved.trans {c : Copy} {base loc pad : Nat} {l l' : List Nat} {s t u : State} (h : PadMoved c base loc pad l s t)
    (h' : PadMoved c base loc pad l' t u) : PadMoved c base loc pad (l ++ l') s u := by
  refine ⟨h.caches.trans h'.caches, h.read.trans h'.read, h'.shares.trans h.shares, fun x hx => ?_, fun k hk hsound => ?_⟩
  · exact (h'.outside x fun k hk => hx k (List.mem_append_right _ hk)).trans (h.outside x fun k hk => hx k (List.mem_append_left _ hk))
  · by_cases hlater : k ∈ l'
    · exact (h'.inside k hlater ((h.read.brokenAlias ..).trans hsound)).trans (h.read.devByte _)
    · have hkeep := h'.outside (pad + k) fun j hj heq => hlater ((Nat.add_left_cancel heq) ▸ hj)
      exact hkeep.trans (h.inside k ((List.mem_append.1 hk).resolve_right hlater) hsound)

theorem foldl_moveByte_moved {c : Copy} {base loc pad : Nat} (hkind : c.kind = .inLocal)
    (hplace : ∀ k, k < c.len → runVa c.runs k = base + k ∧ copyLoc c (base + k) = some (loc + k)) :
    ∀ (l : List Nat) (s : State), (∀ k ∈ l, k < c.len) → padBase s c.core c.lid + c.loff = pad → PadMoved c base loc pad l s (l.foldl (moveByte c) s)
  | [], s, _, _ => ⟨.refl s, .refl s, rfl, fun _ _ => rfl, fun _ h => absurd h List.not_mem_nil⟩
  | k :: l, s, hlen, hpad => by
    obtain ⟨hva, hloc⟩ := hplace k (hlen k (List.mem_cons_self ..))
    have hfirst := moveByte_moved hkind hva hloc s
    rw [hpad] at hfirst
    refine hfirst.trans (l := [k]) (foldl_moveByte_moved hkind hplace l _ (fun j hj => hlen j (List.mem_cons_of_mem _ hj)) ?_)
    rw [padBase, shareOf_congr hfirst.shares]
    exact hpad

theorem moveClear_pad {s : State} {c : Copy} (hkind : c.kind = .inLocal) (a n : Nat) :
    ∃ eccPad, moveClear s c a n = { s with eccPad := eccPad } := by
  unfold moveClear
  extract_lets moved
  simp only [hkind]
  split <;> exact ⟨_, rfl⟩

/-- What the move of a run of an inbound copy leaves: those bytes stand in the scratchpad, and the others are left to do. -/
structure RunMoved (id : Nat) (s : State) (c : Copy) (w : Wave) (base loc : Nat) (left : List (Nat × Nat)) (t : State) : Prop where
  mem : t.mem = s.mem
  fewer : (numbers left).length < (numbers c.todo).length
  pos : (∀ r ∈ c.todo, 0 < r.2) → ∀ r ∈ left, 0 < r.2
  subset : ∀ k ∈ numbers left, k ∈ numbers c.todo
  outside : ∀ x, (∀ k ∈ numbers c.todo, k ∉ numbers left → x ≠ padBase s c.core c.lid + c.loff + k) →
    getByte (coreOf t c.core).pad x = getByte (coreOf s c.core).pad x
  inside : ∀ k ∈ numbers c.todo, k ∉ numbers left → brokenAlias s (copyVia c (base + k) (loc + k)) (loc + k) 1 = false →
    getByte (coreOf t c.core).pad (padBase s c.core c.lid + c.loff + k) = devByte s (loc + k)
  goesOn : left ≠ [] → copyOf t id = some { c with todo := left } ∧ t.waves = s.waves
  ends : left = [] → CopyEnded id c w (BitVec.ofNat 64 (2 ^ 63 + c.len % 2 ^ 40)) t

theorem finalStatus_inbound {c : Copy} (hkind : c.kind = .inLocal) (htargets : c.targets = []) :
    finalStatus c = BitVec.ofNat 64 (2 ^ 63 + c.len % 2 ^ 40) := by
  simp [finalStatus, copyStatus, hkind, htargets]

theorem movable_eq {s : State} {c : Copy} {base loc : Nat} (h : InboundLinear s c base loc) : movable c = numbers c.todo :=
  List.filter_eq_self.2 fun k hk => by
    obtain ⟨hva, hloc⟩ := h.place (h.within k hk)
    rw [hva, hloc]
    rfl

/-- The run of n bytes from a. -/
def runFrom (a n : Nat) : List Nat := (List.range n).map (a + ·)

theorem mem_runFrom {a n k : Nat} : k ∈ runFrom a n ↔ a ≤ k ∧ k < a + n := by
  simp only [runFrom, List.mem_map, List.mem_range]
  exact ⟨by rintro ⟨j, hj, rfl⟩; omega, fun ⟨h1, h2⟩ => ⟨k - a, by omega, by omega⟩⟩

/-- The copy once a run has moved, cleared of the errors that it overwrote. -/
def runMoved (s : State) (c : Copy) (a n : Nat) : State := moveClear ((runFrom a n).foldl (moveByte c) s) c a n

theorem moveSome_eq {id : Nat} {s : State} {c : Copy} {base loc a n : Nat} (h : InboundLinear s c base loc)
    (hrun : chosenRun s (numbers c.todo) = (a, n)) (hmem : ∀ k ∈ runFrom a n, k ∈ numbers c.todo) :
    let d := { c with todo := cutOut a (a + n) c.todo }
    moveSome s id c (numbers c.todo) =
      if d.todo.isEmpty then finishCopy (runMoved s c a n) id d (finalStatus d) else setCopy (runMoved s c a n) id d := by
  have hbad : (runFrom a n).any (moveBad s c) = false := List.any_eq_false.2 fun k hk => by
    have hlen := h.within k (hmem k hk)
    obtain ⟨hva, hloc⟩ := h.place hlen
    simp [moveBad, hva, hloc, h.kind, h.good k hlen]
  obtain ⟨ha, hn⟩ := Prod.ext_iff.1 hrun
  simp only [chosenRun] at ha hn
  subst ha
  rw [runFrom] at hbad
  simp only [moveSome, hn]
  rw [if_neg (by rw [hbad]; exact Bool.false_ne_true)]
  simp [h.kind, runMoved, runFrom]

/-- Some bytes of an inbound copy move (R230). -/
theorem moveSome_moves {id : Nat} {s : State} {c : Copy} {w : Wave} {q : Party} {base loc : Nat} (h : InboundLinear s c base loc)
    (hw : waveOf s c.wid = some w) (hst : w.st ≠ .halted) (hq : partyOf s c.lid c.party = some q) (hleft : numbers c.todo ≠ []) :
    ∃ left, RunMoved id s c w base loc left (moveSome s id c (numbers c.todo)) := by
  obtain ⟨a, n, hrun, hpos, hmem⟩ : ∃ a n, chosenRun s (numbers c.todo) = (a, n) ∧ 0 < n ∧ ∀ j, j < n → a + j ∈ numbers c.todo :=
    ⟨_, _, rfl, chosenRun_pos .., fun j hj => mem_chosenRun hleft hj⟩
  have hmemrun : ∀ k ∈ runFrom a n, k ∈ numbers c.todo := fun k hk => by
    obtain ⟨hlo, hhi⟩ := mem_runFrom.1 hk
    have := hmem (k - a) (by omega)
    rwa [Nat.add_sub_cancel' hlo] at this
  have hmove := moveSome_eq (id := id) h hrun hmemrun
  have hmoved := foldl_moveByte_moved h.kind (fun k => h.place) (runFrom a n) s (fun k hk => h.within k (hmemrun k hk)) rfl
  obtain ⟨eccPad, hclear⟩ := moveClear_pad (s := (runFrom a n).foldl (moveByte c) s) h.kind a n
  have hs1 : (runMoved s c a n).mem = s.mem ∧ (runMoved s c a n).waves = s.waves ∧ (runMoved s c a n).parties = s.parties ∧
      (runMoved s c a n).cores = ((runFrom a n).foldl (moveByte c) s).cores := by
    obtain ⟨_, _, _, _, hcaches⟩ := hmoved.caches
    rw [runMoved, hclear, hcaches]
    exact ⟨rfl, rfl, rfl, rfl⟩
  generalize runMoved s c a n = s1 at hmove hs1
  generalize (runFrom a n).foldl (moveByte c) s = u at hmoved hs1
  obtain ⟨hmem1, hwaves1, hparties1, hcores1⟩ := hs1
  generalize hcutout : cutOut a (a + n) c.todo = left at hmove
  have hcut : ∀ k ∈ numbers c.todo, k ∉ numbers left ↔ k ∈ runFrom a n := fun k hk => by
    rw [← hcutout, mem_numbers_cutOut, mem_runFrom]
    exact ⟨fun hn => by_contra fun hr => hn ⟨hk, hr⟩, fun hr hn => hn.2 hr⟩
  obtain ⟨hended, hendmem, hendcores⟩ := finishCopy_ends (s := s1) (id := id) (c := { c with todo := left }) (by rw [h.kind]; simp)
    ((congrArg (Tab.find · c.wid) hwaves1).trans hw) hst ((congrArg (Tab.find · _) hparties1).trans hq) (finalStatus { c with todo := left })
  have ht : (moveSome s id c (numbers c.todo)).mem = s.mem ∧ (moveSome s id c (numbers c.todo)).cores = u.cores := by
    rw [hmove]
    split
    · exact ⟨hendmem.trans hmem1, hendcores.trans hcores1⟩
    · exact ⟨hmem1, hcores1⟩
  have hcore : coreOf (moveSome s id c (numbers c.todo)) c.core = coreOf u c.core := congrArg (Tab.findD · c.core Core.init) ht.2
  refine ⟨left, ht.1, ?_, ?_, fun k hk => ?_, fun x hx => ?_, fun k hk hdone hsound => ?_, fun hne => ?_, fun hnil => ?_⟩
  · rw [← hcutout]
    exact length_numbers_cutOut_lt (by omega) (hmem 0 hpos)
  · rw [← hcutout]
    exact cutOut_pos
  · rw [← hcutout] at hk
    exact (mem_numbers_cutOut.1 hk).1
  · rw [hcore]
    exact hmoved.outside x fun k hk => hx k (hmemrun k hk) ((hcut k (hmemrun k hk)).2 hk)
  · rw [hcore]
    exact hmoved.inside k ((hcut k hk).1 hdone) hsound
  · rw [hmove, if_neg (by simpa using hne)]
    exact ⟨(copyOf_setCopy ..).trans (if_pos rfl), hwaves1⟩
  · rw [hmove, if_pos (by simpa using hnil), ← finalStatus_inbound (c := c) h.kind h.targets]
    exact hended

theorem RunMoved.bump {id : Nat} {s t : State} {c : Copy} {w : Wave} {base loc : Nat} {left : List (Nat × Nat)} (h : RunMoved id s c w base loc left t) :
    RunMoved id s c w base loc left (bump t) :=
  ⟨h.mem, h.fewer, h.pos, h.subset, h.outside, h.inside, h.goesOn, h.ends⟩

/-! ### COPY_COMPLETE -/

theorem todo_ne_nil_of_movable {c : Copy} (h : movable c ≠ []) : c.todo.isEmpty = false := by
  cases htodo : c.todo with
  | nil => exact absurd (by rw [movable, htodo]; rfl) h
  | cons r l => rfl

/-- A copy with a byte to move takes its step. -/
theorem exec_copyComplete_moves {id : Nat} {s : State} {c : Copy} (hc : copyOf s id = some c) (hfault : c.faulted = false)
    (hdrained : c.kind = .outSlot → c.drained = true) (hmove : movable c ≠ []) : ∃ t, exec (.copyComplete id) s = .next t := by
  have hout : (c.faulted || (c.kind == .outSlot && !c.drained)) = false := by
    rw [hfault, Bool.false_or, Bool.and_eq_false_iff]
    by_cases hkind : c.kind = .outSlot
    · exact .inr (by rw [hdrained hkind]; rfl)
    · exact .inl (beq_eq_false_iff_ne.2 hkind)
  have hempty : (movable c).isEmpty = false := by simpa using hmove
  change ∃ t, execCopyComplete id s = .next t
  simp only [execCopyComplete, hc, hout, todo_ne_nil_of_movable hmove, Bool.and_false, Bool.false_eq_true, if_false, hempty]
  split
  · exact ⟨_, rfl⟩
  · split
    · exact ⟨_, rfl⟩
    · exact ⟨_, rfl⟩

theorem exec_copyComplete_inbound {id : Nat} {s : State} {c : Copy} {base loc : Nat} (hc : copyOf s id = some c) (hfault : c.faulted = false)
    (h : InboundLinear s c base loc) (hleft : numbers c.todo ≠ []) :
    exec (.copyComplete id) s = .next (bump (moveSome s id c (numbers c.todo))) := by
  have hmovable := movable_eq h
  have hempty : (numbers c.todo).isEmpty = false := by simpa using hleft
  change execCopyComplete id s = _
  simp [execCopyComplete, hc, hfault, h.kind, h.fails, hmovable, hempty, done]

theorem exec_copyComplete_cast {id : Nat} {s : State} {c : Copy} (hc : copyOf s id = some c) (hfault : c.faulted = false) (hkind : c.kind = .cast)
    (htodo : c.todo = []) (hdone : ∀ x ∈ c.targets, x.done = true) :
    exec (.copyComplete id) s = .next (bump (finishCopy s id c (finalStatus c))) := by
  have hall : c.targets.all (·.done) = true := List.all_eq_true.2 hdone
  change execCopyComplete id s = _
  simp [execCopyComplete, hc, hfault, hkind, htodo, hall, done]

/-! ### MCAST_LANDING (R233 to R236) -/

theorem setTarget_single {c : Copy} {x : Target} (h : c.targets = [x]) {pos : Nat} (hpos : x.pos = pos) (f : Target → Target) :
    (setTarget c pos f).targets = [f x] := by
  simp [setTarget, h, hpos]

section Landing

variable {id : Nat} {s : State} {c : Copy} {core pos : Nat}

theorem land_norecv (h : (lowestWave s core c.lid).isSome = false) :
    land s id c core pos = setCopy s id (setTarget c pos fun t => { t with done := true, norecv := true }) := by
  have hnone : (lowestWave s core c.lid).isNone = true := by simpa using h
  simp only [land, hnone, if_true]

/-- The bytes of a multicast as they land. -/
def castBytes (c : Copy) : List Byte := (List.range c.len).map fun k => Tab.findD c.got k 0

variable (hrecv : (lowestWave s core c.lid).isSome = true)
include hrecv

theorem land_free (hfree : (shareOf s core c.lid).landbusy &&& buffers c.loff c.len = 0) :
    land s id c core pos = setCopy (modShare (eccPadClear (padWrite s core (padBase s core c.lid + c.loff) (castBytes c)) core
      (padBase s core c.lid + c.loff) c.len) core c.lid fun x => { x with landbusy := x.landbusy ||| buffers c.loff c.len }) id
      (setTarget c pos fun t => { t with done := true }) := by
  have hsome : (lowestWave s core c.lid).isNone = false := by simpa [Option.isSome_iff_ne_none] using hrecv
  simp only [land, hsome, Bool.false_eq_true, if_false, hfree, if_true, castBytes]

/-- Where a buffer is busy, the copy's target is marked, and beside it the buffer's owner alone. -/
theorem land_refused (hbusy : ¬ (shareOf s core c.lid).landbusy &&& buffers c.loff c.len = 0) :
    let u := setCopy s id (setTarget c pos fun t => { t with done := true, refused := true })
    land s id c core pos = match ownerOf s core c.lid (lowBit ((shareOf s core c.lid).landbusy &&& buffers c.loff c.len)) with
      | some wid => modWave u wid fun w => if w.sup then { w with landSup := true } else { w with landDue := true }
      | none => u := by
  have hsome : (lowestWave s core c.lid).isNone = false := by simpa [Option.isSome_iff_ne_none] using hrecv
  simp only [land, hsome, Bool.false_eq_true, if_false, hbusy] <;> rfl

end Landing

theorem exec_mcastLanding {id : Nat} {pos : BitVec 2} {s : State} {c : Copy} {x : Target} (hc : copyOf s id = some c) (hkind : c.kind = .cast)
    (htodo : c.todo = []) (hfault : c.faulted = false) (htick : c.tick ≤ s.now / 105) (htargets : c.targets = [x]) (hpos : x.pos = pos.toNat)
    (hdone : x.done = false) : exec (.mcastLanding id pos) s = .next (bump (land s id c (c.core / 4 * 4 + pos.toNat) pos.toNat)) := by
  have htick' : c.tick ≤ ticks s := htick
  change execMcastLanding id pos s = _
  simp [execMcastLanding, hc, hkind, htodo, hfault, htick', htargets, hpos, hdone, done]

theorem padWrite_core (s : State) (core a : Nat) (bs : List Byte) :
    coreOf (padWrite s core a bs) core = { coreOf s core with pad := putBytes (coreOf s core).pad a bs } := coreOf_modCore_same s core _

theorem modShare_pad (s : State) (core lid : Nat) (f : Share → Share) : (coreOf (modShare s core lid f) core).pad = (coreOf s core).pad := by
  rw [modShare, coreOf_modCore_same]

/-- What a landing leaves beside its target's mark. -/
structure LandingLeaves (id : Nat) (s : State) (d : Copy) (t : State) : Prop where
  copy : copyOf t id = some d
  mem : t.mem = s.mem

/-- A landing in free buffers: the target's scratchpad takes the bytes in their place, its buffers are busy, and nothing else of it changes. -/
structure Landed (s : State) (c : Copy) (core : Nat) (t : State) : Prop where
  busy : (shareOf t core c.lid).landbusy = (shareOf s core c.lid).landbusy ||| buffers c.loff c.len
  inside : ∀ k, k < c.len → getByte (coreOf t core).pad (padBase s core c.lid + c.loff + k) = Tab.findD c.got k 0
  outside : ∀ k, k < padBase s core c.lid + c.loff ∨ padBase s core c.lid + c.loff + c.len ≤ k →
    getByte (coreOf t core).pad k = getByte (coreOf s core).pad k

theorem land_free_leaves {id : Nat} {s : State} {c : Copy} {core pos : Nat} (hrecv : (lowestWave s core c.lid).isSome = true)
    (hfree : (shareOf s core c.lid).landbusy &&& buffers c.loff c.len = 0) :
    LandingLeaves id s (setTarget c pos fun t => { t with done := true }) (land s id c core pos) ∧ Landed s c core (land s id c core pos) := by
  have hlen : (castBytes c).length = c.len := by simp [castBytes]
  rw [land_free hrecv hfree]
  refine ⟨⟨(copyOf_setCopy ..).trans (if_pos rfl), rfl⟩, ?_⟩
  generalize hbase : padBase s core c.lid + c.loff = base
  generalize hu : eccPadClear (padWrite s core base (castBytes c)) core base c.len = u
  have hcore : coreOf u core = { coreOf s core with pad := putBytes (coreOf s core).pad base (castBytes c) } := by
    rw [← hu]
    exact padWrite_core ..
  have hshare : shareOf u core c.lid = shareOf s core c.lid := shareOf_congr (by rw [hcore]) _
  let f := fun x : Share => { x with landbusy := x.landbusy ||| buffers c.loff c.len }
  have hpad : (coreOf (modShare u core c.lid f) core).pad = putBytes (coreOf s core).pad base (castBytes c) := by
    rw [modShare_pad, hcore]
  have hbusy : shareOf (modShare u core c.lid f) core c.lid = f (shareOf s core c.lid) := by rw [shareOf_modShare, hshare]
  refine ⟨congrArg Share.landbusy hbusy, fun k hk => ?_, fun k hk => ?_⟩
  · rw [hbase]
    refine (congrArg (getByte · (base + k)) hpad).trans ?_
    rw [getByte_putBytes_inside _ _ _ (by omega)]
    simp [castBytes]
  · rw [hbase] at hk
    refine (congrArg (getByte · k) hpad).trans ?_
    exact getByte_putBytes_outside _ _ _ _ (by omega)

/-- A landing that is refused leaves a landing conflict due at the buffer's owner. -/
theorem land_refused_leaves {id : Nat} {s : State} {c : Copy} {core pos : Nat} (hrecv : (lowestWave s core c.lid).isSome = true)
    (hbusy : ¬ (shareOf s core c.lid).landbusy &&& buffers c.loff c.len = 0) :
    LandingLeaves id s (setTarget c pos fun t => { t with done := true, refused := true }) (land s id c core pos) ∧
    (land s id c core pos).cores = s.cores ∧
    ∀ o w, ownerOf s core c.lid (lowBit ((shareOf s core c.lid).landbusy &&& buffers c.loff c.len)) = some o → waveOf s o = some w →
      ∃ v, waveOf (land s id c core pos) o = some v ∧ (w.sup = false → v.landDue = true) ∧ (w.sup = true → v.landSup = true) := by
  rw [land_refused hrecv hbusy]
  generalize hu : setCopy s id (setTarget c pos fun t => { t with done := true, refused := true }) = u
  have hcopy : copyOf u id = some (setTarget c pos fun t => { t with done := true, refused := true }) := by
    rw [← hu]
    exact (copyOf_setCopy ..).trans (if_pos rfl)
  have hframe : u.mem = s.mem ∧ u.cores = s.cores ∧ u.waves = s.waves := by rw [← hu]; exact ⟨rfl, rfl, rfl⟩
  obtain ⟨hmem, hcores, hwaves⟩ := hframe
  cases howner : ownerOf s core c.lid (lowBit ((shareOf s core c.lid).landbusy &&& buffers c.loff c.len)) with
  | none => exact ⟨⟨hcopy, hmem⟩, hcores, fun o w ho => by cases ho⟩
  | some o =>
    dsimp only
    unfold modWave
    cases hw : waveOf u o with
    | none =>
      refine ⟨⟨hcopy, hmem⟩, hcores, fun o' w ho hw' => ?_⟩
      obtain rfl := Option.some.inj ho
      have hnone : waveOf s o = none := (congrArg (Tab.find · o) hwaves).symm.trans hw
      rw [hnone] at hw'
      cases hw'
    | some w =>
      refine ⟨⟨hcopy, hmem⟩, hcores, fun o' w' ho hw' => ?_⟩
      obtain rfl := Option.some.inj ho
      obtain rfl := Option.some.inj (hw'.symm.trans ((congrArg (Tab.find · o) hwaves).symm.trans hw))
      refine ⟨_, (waveOf_setWave ..).trans (if_pos rfl), fun h => ?_, fun h => ?_⟩
      · simp [h]
      · simp [h]

/-- Settles O37: the bytes of a run one after another, the end of a copy, and the three outcomes of a landing. -/
theorem inboundCopiesMoveAndComplete : Obligations.InboundCopiesMoveAndComplete := by
  unfold Obligations.InboundCopiesMoveAndComplete
  refine ⟨fun id s c hc hfault hdrained hmove => exec_copyComplete_moves hc hfault hdrained hmove, fun id s c w q hc hfault hw hq hst => ?_,
    fun id pos s c x hc hkind htodo hfault htick htargets hpos hdone => ?_⟩
  · intro ended
    refine ⟨fun base loc hkind hlin hfails hruns htargets hsome hpos hwithin hgood => ?_, fun hkind htodo hdone => ?_⟩
    · have h : InboundLinear s c base loc := ⟨hkind, hlin, hruns, htargets, hfails, hwithin, hgood⟩
      have hne : numbers c.todo ≠ [] := List.length_pos_iff.1 hsome
      obtain ⟨left, hmoved⟩ := moveSome_moves (id := id) h hw hst hq hne
      have hexec := exec_copyComplete_inbound hc hfault h hne
      generalize moveSome s id c (numbers c.todo) = t at hmoved hexec
      obtain ⟨hmem, hfewer, hleft, hsubset, houtside, hinside, hgoesOn, hends⟩ := hmoved.bump
      exact ⟨_, left, hexec, hmem, hfewer, hleft hpos, hsubset, houtside, hinside, hgoesOn, hends⟩
    · obtain ⟨hended, hmem, -⟩ := finishCopy_ends (id := id) (by rw [hkind]; simp) hw hst hq (finalStatus c)
      have hexec := exec_copyComplete_cast hc hfault hkind htodo hdone
      generalize finishCopy s id c (finalStatus c) = t at hended hmem hexec
      exact ⟨_, hexec, hmem, hended⟩
  · intro core bits pad free_
    have hexec := exec_mcastLanding hc hkind htodo hfault htick htargets hpos hdone
    by_cases hrecv : (lowestWave s core c.lid).isSome = true
    · have hsome : ¬ (lowestWave s core c.lid).isSome = false := by simp [hrecv]
      by_cases hfree : free_
      · obtain ⟨⟨hcopy, hmem⟩, ⟨hbusy, hinside, houtside⟩⟩ := land_free_leaves (id := id) (pos := pos.toNat) hrecv hfree
        exact ⟨_, _, hexec, hcopy, hmem, fun _ _ => ⟨setTarget_single htargets hpos _, hbusy, hinside, houtside⟩, fun _ h => absurd hfree h,
          fun h => absurd h hsome⟩
      · obtain ⟨⟨hcopy, hmem⟩, hcores, howner⟩ := land_refused_leaves (id := id) (pos := pos.toNat) hrecv hfree
        exact ⟨_, _, hexec, hcopy, hmem, fun _ h => absurd h hfree, fun _ _ => ⟨setTarget_single htargets hpos _,
          congrArg (fun t => Core.pad (Tab.findD t core Core.init)) hcores, howner⟩, fun h => absurd h hsome⟩
    · have hland := land_norecv (id := id) (pos := pos.toNat) (Bool.eq_false_iff.2 hrecv)
      rw [hland] at hexec
      exact ⟨_, _, hexec, (copyOf_setCopy ..).trans (if_pos rfl), rfl, fun h => absurd h hrecv, fun h => absurd h hrecv,
        fun _ => ⟨setTarget_single htargets hpos _, rfl⟩⟩

end Sys2Proof.Machine

/-! PROOF. TLOAD, TSTORE and TLDO at issue (R143, R148, R151, R152, R371, R380). -/

namespace Sys2Proof.Machine

/-! ### Numbers that are taken (R148) -/

/-- The number that an operation takes in its context. -/
def takenNumber (q : Party) (m : TMs) : Option (Nat × Nat) :=
  match m with
  | .none => none
  | .ms4 => some (4, (msOf q 4).taken + 1)
  | .ms5 => some (5, (msOf q 5).taken + 1)

theorem takeMs_moved (s : State) (lid p ctx : Nat) : ∃ parties, (takeMs s lid p ctx).2 = { s with parties := parties } := by
  unfold takeMs
  split <;> exact ⟨_, rfl⟩

theorem takeTile_moved (s : State) (lid p : Nat) (m : TMs) : ∃ parties, (takeTile s lid p m).2 = { s with parties := parties } := by
  unfold takeTile
  split
  · exact ⟨_, rfl⟩
  · exact takeMs_moved ..

theorem takeMs_number {s : State} {lid p : Nat} {q : Party} (hq : partyOf s lid p = some q) (ctx : Nat) :
    (takeMs s lid p ctx).1 = (msOf q ctx).taken + 1 := by rw [takeMs, hq]

theorem takeTile_number {s : State} {lid p : Nat} {q : Party} (hq : partyOf s lid p = some q) (m : TMs) :
    (takeTile s lid p m).1 = takenNumber q m := by
  cases m with
  | none => rfl
  | ms4 => exact congrArg (fun n => some (4, n)) (takeMs_number hq 4)
  | ms5 => exact congrArg (fun n => some (5, n)) (takeMs_number hq 5)

/-! ### An access that is put in flight -/

theorem addAcc_moved (s : State) (wid : Nat) (w : Wave) (a : Acc) (regs : List Reg) (bytes : Nat) : ∃ dies, addAcc s wid w a regs bytes =
    { s with acc := Tab.put s.acc s.nextId a, nextId := s.nextId + 1, waves := Tab.put s.waves wid (addBusy w s.nextId regs), dies := dies } := by
  unfold addAcc
  extract_lets s1
  split
  · unfold tollDebit
    split <;> exact ⟨_, rfl⟩
  · exact ⟨_, rfl⟩

/-! ### The slot of a tile access (R143) -/

/-- The slot that a destination names. -/
def Dest.slotNo (d : Dest) : Option Nat :=
  match d with
  | .slot o _ _ => some o
  | .tldo o => some o
  | _ => Option.none

/-- A state that differs in tile tables alone. -/
def TablesMoved (s t : State) : Prop := ∃ cores, t = { s with cores := cores } ∧ ∀ k, ∃ table, coreOf t k = { coreOf s k with table := table }

theorem TablesMoved.refl (s : State) : TablesMoved s s := ⟨_, rfl, fun _ => ⟨_, rfl⟩⟩

theorem TablesMoved.modEntry (s : State) (core o : Nat) (f : TEntry → TEntry) : TablesMoved s (modEntry s core o f) := by
  refine ⟨_, rfl, fun k => ?_⟩
  rw [Machine.modEntry, setEntry, coreOf_modCore]
  split
  · next h => exact ⟨_, by rw [h]⟩
  · exact ⟨_, rfl⟩

theorem TablesMoved.markSlot (s : State) (core : Nat) (d : Dest) (st : OState) : TablesMoved s (markSlot s core d st) := by
  unfold Machine.markSlot
  split
  · exact .modEntry ..
  · exact .modEntry ..
  · exact .refl s

theorem entryOf_modEntry (s : State) (core o : Nat) (f : TEntry → TEntry) (x : Nat) :
    entryOf (modEntry s core o f) core x = if x = o then f (entryOf s core o) else entryOf s core x := by
  rw [entryOf, modEntry, setEntry, coreOf_modCore_same]
  exact Tab.findD_put ..

theorem markSlot_st (s : State) (core : Nat) (d : Dest) (st : OState) (x : Nat) :
    (entryOf (markSlot s core d st) core x).st = if d.slotNo = some x then st else (entryOf s core x).st := by
  unfold markSlot
  cases d with
  | slot o _ _ =>
    rw [entryOf_modEntry]
    by_cases h : x = o
    · simp [Dest.slotNo, h]
    · simp [Dest.slotNo, h, Ne.symm h]
  | tldo o =>
    rw [entryOf_modEntry]
    by_cases h : x = o
    · simp [Dest.slotNo, h]
    · simp [Dest.slotNo, h, Ne.symm h]
  | _ => rfl

/-! ### The places of a tile (R151) -/

/-- The addresses of a span. -/
def addresses (a n : Nat) : List Nat := (List.range n).map (a + ·)

theorem addresses_append (a m n : Nat) : addresses a m ++ addresses (a + m) n = addresses a (m + n) := by
  simp [addresses, List.range_add, Nat.add_assoc]

/-- Cuts at 4 KiB boundaries leave the addresses of a span in order. -/
theorem cutSpan_addresses : ∀ (k a n : Nat), n = 0 ∨ n + a % 4096 ≤ 4096 * k → (cutSpan k a n).flatMap (fun y => addresses y.1 y.2) = addresses a n
  | 0, a, n, h => by
    obtain rfl : n = 0 := by omega
    rfl
  | k + 1, a, n, h => by
    rw [cutSpan]
    split
    · next hn => rw [hn]; rfl
    · next hn =>
      rw [List.flatMap_cons, cutSpan_addresses k _ _ (by omega), addresses_append]
      congr 1
      omega

theorem tilePieces_addresses {s : State} {wid : Nat} {w : Wave} {r : TReq} (h : ∀ x ∈ r.spans, x.2 ≤ 4096) :
    (tilePieces s wid w r).flatMap (fun p => addresses p.va p.size) =
      r.spans.flatMap fun x => addresses (((segOf s wid w r.seg).base : Int) + x.1).toNat x.2 := by
  simp only [tilePieces, List.flatMap_assoc, List.flatMap_map]
  refine List.flatMap_congr fun x hx => cutSpan_addresses 3 _ _ (.inr ?_)
  have := h x hx
  omega

theorem sum_sizes_eq_length (ps : List Piece) : (ps.map (·.size)).sum = (ps.flatMap fun p => addresses p.va p.size).length := by
  simp [List.length_flatMap, addresses]

theorem tilePieces_sizes {s : State} {wid : Nat} {w : Wave} {r : TReq} (h : ∀ x ∈ r.spans, x.2 ≤ 4096) :
    ((tilePieces s wid w r).map (·.size)).sum = (r.spans.map (·.2)).sum := by
  rw [sum_sizes_eq_length, tilePieces_addresses h]
  simp [List.length_flatMap, addresses]

/-! ### Local tiles (R152, R208) -/

/-- The bytes of the scratchpad that spans name, from a base. -/
def localPlaces (base : Nat) (spans : List (Int × Nat)) : List Nat := spans.flatMap fun x => addresses (base + x.1.toNat) x.2

/-- Spans written one after another. -/
def padSpans (base : Nat) : List (Int × Nat) → List Byte → Tab Byte → Tab Byte
  | [], _, pad => pad
  | x :: t, bs, pad => padSpans base t (bs.drop x.2) (putBytes pad (base + x.1.toNat) (bs.take x.2))

theorem putLocal_pad (core base : Nat) : ∀ (spans : List (Int × Nat)) (bs : List Byte) (s : State),
    ∃ cores, putLocal s core base spans bs = { s with cores := cores } ∧
      coreOf (putLocal s core base spans bs) core = { coreOf s core with pad := padSpans base spans bs (coreOf s core).pad }
  | [], _, _ => ⟨_, rfl, rfl⟩
  | x :: t, bs, s => by
    obtain ⟨cores, hmoved, hcore⟩ := putLocal_pad core base t (bs.drop x.2) (padWrite s core (base + x.1.toNat) (bs.take x.2))
    rw [padWrite_core] at hcore
    exact ⟨cores, hmoved, hcore⟩

theorem padSpans_outside (base : Nat) : ∀ (spans : List (Int × Nat)) (bs : List Byte) (pad : Tab Byte) (b : Nat), b ∉ localPlaces base spans →
    getByte (padSpans base spans bs pad) b = getByte pad b
  | [], _, _, _, _ => rfl
  | x :: t, bs, pad, b, h => by
    rw [localPlaces, List.flatMap_cons, List.mem_append, not_or] at h
    rw [padSpans, padSpans_outside base t _ _ b h.2]
    refine getByte_putBytes_outside _ _ _ _ ?_
    have hout := h.1
    simp only [addresses, List.mem_map, List.mem_range, not_exists, not_and] at hout
    rw [List.length_take]
    by_contra hin
    exact hout (b - (base + x.1.toNat)) (by omega) (by omega)

/-- The span that is written last at a byte prevails. -/
theorem padSpans_last (base : Nat) : ∀ (spans : List (Int × Nat)) (bs : List Byte) (pad : Tab Byte) (n b : Nat),
    (spans.map (·.2)).sum ≤ bs.length → (localPlaces base spans)[n]? = some b → (∀ j, n < j → (localPlaces base spans)[j]? ≠ some b) →
    some (getByte (padSpans base spans bs pad) b) = bs[n]?
  | [], _, _, _, _, _, h, _ => by simp [localPlaces] at h
  | x :: t, bs, pad, n, b, hlen, hn, hlast => by
    rw [List.map_cons, List.sum_cons] at hlen
    have hfirst : (addresses (base + x.1.toNat) x.2).length = x.2 := by simp [addresses]
    rw [localPlaces, List.flatMap_cons] at hn hlast
    rw [padSpans]
    by_cases hin : n < x.2
    · rw [List.getElem?_append_left (by omega)] at hn
      have hb : b = base + x.1.toNat + n := by
        simp only [addresses, List.getElem?_map, List.getElem?_range hin, Option.map_some, Option.some.injEq] at hn
        exact hn.symm
      have hout : b ∉ localPlaces base t := fun hmem => by
        obtain ⟨j, hj⟩ := List.mem_iff_getElem?.1 hmem
        refine hlast (x.2 + j) (by omega) ?_
        rw [List.getElem?_append_right (by omega), hfirst, Nat.add_sub_cancel_left]
        exact hj
      have htake : n < (bs.take x.2).length := by rw [List.length_take]; omega
      rw [padSpans_outside base t _ _ b hout, hb, getByte_putBytes_inside _ _ _ htake, List.getElem_take, ← List.getElem?_eq_getElem]
    · rw [List.getElem?_append_right (by omega), hfirst] at hn
      have := padSpans_last base t (bs.drop x.2) (putBytes pad (base + x.1.toNat) (bs.take x.2)) (n - x.2) b (by rw [List.length_drop]; omega) hn
        fun j hj hat => hlast (x.2 + j) (by omega) (by rw [List.getElem?_append_right (by omega), hfirst, Nat.add_sub_cancel_left]; exact hat)
      rw [this, List.getElem?_drop, Nat.add_sub_cancel' (by omega)]

/-! ### The bytes of a source (R133, R151) -/

theorem length_flatMap_const {α β : Type} {n : Nat} {f : α → List β} (l : List α) (h : ∀ x ∈ l, (f x).length = n) :
    (l.flatMap f).length = l.length * n := by
  rw [List.length_flatMap, List.map_congr_left h]
  simp

theorem length_slotRow (g : Img) (f : Fmt) (kc : Bool) (r : Nat) : (slotRow g f kc r).length = (tileRows false f kc).2 := by
  cases kc with
  | false => cases f <;> simp [slotRow, bytesFrom, tileRows]
  | true =>
    cases f with
    | bf16 | f16 => exact length_flatMap_const (n := 2) _ fun _ _ => length_leBytes ..
    | _ => simp [slotRow, tileRows]

theorem length_scaleBytes (bs : List Byte) : (scaleBytes bs).length = bs.length := by simp [scaleBytes]

/-- A slot's memory image is its rows, and 64 bytes more with a scale array. -/
theorem length_sourceBytes_slot (s : State) (core o : Nat) (f : Fmt) (kc : Bool) : (sourceBytes s core (.slot o f kc)).length =
    (tileRows false f kc).1 * (tileRows false f kc).2 + if f = .fp4 then 64 else 0 := by
  rw [sourceBytes, List.length_append, length_flatMap_const _ fun r _ => length_slotRow _ f kc r, List.length_range]
  split <;> simp [length_scaleBytes, bytesFrom]

theorem length_sourceBytes_acc (s : State) (core c : Nat) (kc : Bool) : (sourceBytes s core (.acc c kc)).length = 32 * 128 := by
  rw [sourceBytes, length_flatMap_const (n := 128) _ fun r _ => ?_]
  · rfl
  · exact length_flatMap_const (n := 4) _ fun _ _ => length_leBytes ..

/-! ### The spans of a tile (R151) -/

theorem rowSpans_sizes (off pitch : Int) (n len : Nat) : ((rowSpans off pitch n len).map (·.2)).sum = n * len := by
  simp [rowSpans, Function.comp_def]

theorem scaleSpan_sizes (has : Bool) (off : Nat) : ((scaleSpan has off).map (·.2)).sum = if has then 64 else 0 := by
  cases has <;> rfl

theorem mem_rowSpans {off pitch : Int} {n len : Nat} {x : Int × Nat} (h : x ∈ rowSpans off pitch n len) : x.2 = len := by
  obtain ⟨_, _, rfl⟩ := List.mem_map.1 h
  rfl

theorem mem_scaleSpan {has : Bool} {off : Nat} {x : Int × Nat} (h : x ∈ scaleSpan has off) : x.2 = 64 := by
  cases has with
  | false => simp [scaleSpan] at h
  | true => simp [scaleSpan] at h; rw [h]

/-- Whether a tile access moves an accumulator. -/
def tmemAcc (f : TMem) : Bool := match f.data with | .acc _ => true | .slot _ => false

/-- Rows of a tile access and their length. -/
def tmemRows (f : TMem) : Nat × Nat := tileRows (tmemAcc f) f.fmt f.kc

/-- The tile access that a request describes: its rows, and then the scale array of an fp4 slot. -/
def TileOf (f : TMem) (r : TReq) : Prop :=
  ∃ (off pitch : Int) (scales : Nat), r.spans = rowSpans off pitch (tmemRows f).1 (tmemRows f).2 ++ scaleSpan (!(tmemAcc f) && f.fmt == .fp4) scales

theorem tileReq_tload {f : TMem} {s : State} {w : Wave} {r : TReq} (h : tileReq (.tload f) s w = some r) : TileOf f r := by
  rw [tileReq] at h
  obtain rfl := Option.some.inj h
  exact ⟨_, _, _, rfl⟩

theorem tileReq_tstore {f : TMem} {s : State} {w : Wave} {r : TReq} (h : tileReq (.tstore f) s w = some r) : TileOf f r := by
  rw [tileReq] at h
  obtain rfl := Option.some.inj h
  exact ⟨_, _, _, rfl⟩

theorem tileRows_le (acc : Bool) (f : Fmt) (kc : Bool) : (tileRows acc f kc).2 ≤ 4096 := by
  cases acc <;> cases f <;> cases kc <;> decide

/-- No span of a tile is longer than a region of 4 KiB. -/
theorem TileOf.span_le {f : TMem} {r : TReq} (h : TileOf f r) : ∀ x ∈ r.spans, x.2 ≤ 4096 := by
  obtain ⟨off, pitch, scales, hspans⟩ := h
  intro x hx
  rw [hspans, List.mem_append] at hx
  rcases hx with hx | hx
  · rw [mem_rowSpans hx]
    exact tileRows_le ..
  · rw [mem_scaleSpan hx]
    decide

/-- A tile covers as many bytes as its source has. -/
theorem TileOf.sizes {f : TMem} {r : TReq} (h : TileOf f r) (s : State) (core : Nat) : (r.spans.map (·.2)).sum = (sourceBytes s core (tileDest f)).length := by
  obtain ⟨off, pitch, scales, hspans⟩ := h
  rw [hspans, List.map_append, List.sum_append, rowSpans_sizes, scaleSpan_sizes, tmemRows, tmemAcc, tileDest]
  cases f.data with
  | slot o => simp [length_sourceBytes_slot]
  | acc c => simp [length_sourceBytes_acc, tileRows]

theorem tileReq_tldo_span_le {f : TLdoF} {s : State} {w : Wave} {r : TReq} (h : tileReq (.tldo f) s w = some r) : ∀ x ∈ r.spans, x.2 ≤ 4096 := by
  rw [tileReq] at h
  obtain rfl := Option.some.inj h
  intro x hx
  rw [mem_rowSpans hx]
  decide

/-! ### The slot that an access fills or drains (R143) -/

theorem tileDest_slotNo (f : TMem) (s : State) (w : Wave) (o : Nat) :
    (tileDest f).slotNo = some o ↔ o ∈ slotFills (.tload f) s w ∨ ∃ u ∈ slotReads (.tload f) s w, u.o = o := by
  simp only [tileDest, slotFills, slotReads]
  cases f.data <;> simp [Dest.slotNo, eq_comm]

theorem tileDest_slotNo_tstore (f : TMem) (s : State) (w : Wave) (o : Nat) :
    (tileDest f).slotNo = some o ↔ o ∈ slotFills (.tstore f) s w ∨ ∃ u ∈ slotReads (.tstore f) s w, u.o = o := by
  simp only [tileDest, slotFills, slotReads]
  cases f.data <;> simp [Dest.slotNo, slotUse]

/-! ### A tile access once it is in flight -/

/-- A tile access stands in flight in `t` as `a`, its slot marked, where the bytes of the scratchpad are `pad`. -/
structure TileInFlight (s t : State) (w : Wave) (a : Acc) (d : Dest) (st : OState) (pad : Tab Byte) : Prop where
  mem : t.mem = s.mem
  acc : accOf t s.nextId = some a
  wave : waveOf t s.cur.wid = some (addBusy (nextSeq w) s.nextId [])
  core : ∃ table, coreOf t (s.cur.wid / 16) = { coreOf s (s.cur.wid / 16) with table := table, pad := pad }
  slot : ∀ o, (entryOf t (s.cur.wid / 16) o).st = if d.slotNo = some o then st else (entryOf s (s.cur.wid / 16) o).st

/-- An access that is put in flight from a state whose parties, scratchpad and bad words of it may have changed already. -/
theorem tileInFlight_of_moved {s u : State} (hmem : u.mem = s.mem) (hid : u.nextId = s.nextId) {pad : Tab Byte}
    (hcore : coreOf u (s.cur.wid / 16) = { coreOf s (s.cur.wid / 16) with pad := pad }) (w : Wave) (a : Acc) (n : Nat) (d : Dest) (st : OState) :
    TileInFlight s (bump (markSlot (addAcc u s.cur.wid (nextSeq w) a [] n) (s.cur.wid / 16) d st)) w a d st pad := by
  obtain ⟨dies, hadd⟩ := addAcc_moved u s.cur.wid (nextSeq w) a [] n
  rw [hadd]
  obtain ⟨cores, hmoved, htables⟩ := TablesMoved.markSlot { u with
    acc := Tab.put u.acc u.nextId a, nextId := u.nextId + 1,
    waves := Tab.put u.waves s.cur.wid (addBusy (nextSeq w) u.nextId []), dies := dies } (s.cur.wid / 16) d st
  have hst := markSlot_st { u with
    acc := Tab.put u.acc u.nextId a, nextId := u.nextId + 1,
    waves := Tab.put u.waves s.cur.wid (addBusy (nextSeq w) u.nextId []), dies := dies } (s.cur.wid / 16) d st
  generalize markSlot _ (s.cur.wid / 16) d st = t at hmoved htables hst
  refine ⟨?_, ?_, ?_, ?_, fun o => (hst o).trans ?_⟩
  · rw [← hmem, hmoved]
    rfl
  · rw [← hid, hmoved]
    exact Tab.find_put_same ..
  · rw [← hid, hmoved]
    exact Tab.find_put_same ..
  · obtain ⟨table, htable⟩ := htables (s.cur.wid / 16)
    exact ⟨table, htable.trans (congrArg (fun k : Core => { k with table := table }) hcore)⟩
  · have hentry : entryOf u (s.cur.wid / 16) o = entryOf s (s.cur.wid / 16) o := by rw [entryOf, hcore, entryOf]
    exact ite_congr rfl (fun _ => rfl) fun _ => congrArg TEntry.st hentry


/-! ### Issue -/

theorem localBad_of_clean {s : State} (h : s.eccPad = []) (wid : Nat) (w : Wave) (r : TReq) : localBad s wid w r = false := by
  rw [localBad, List.any_eq_false]
  intro x _
  rw [eccPadHit, h]
  exact Bool.false_ne_true

theorem takeTile_carries (s : State) {w : Wave} (m : TMs) : ∀ q, partyOf s w.lid w.party = some q → (takeTile s w.lid w.party m).1 = match m with
    | .none => Option.none
    | .ms4 => some (4, (msOf q 4).taken + 1)
    | .ms5 => some (5, (msOf q 5).taken + 1) := by
  intro q hq
  rw [takeTile_number hq]
  cases m <;> rfl

/-- Bytes of the scratchpad that a local tile load takes. -/
def localLoadPiece (s : State) (wid : Nat) (w : Wave) (r : TReq) : Piece :=
  { lane := 31, va := 0, size := tileBytes r, pa := none, fault := none, data := [], cmp := [], val := localTile s wid w r, done := true }

/-- The access of a tile load. -/
def loadAcc (s : State) (w : Wave) (r : TReq) (d : Dest) (m : TMs) : Acc :=
  if r.loc then { tileAcc s s.cur.wid w r .tload d (takeTile s w.lid w.party m).1 with pieces := [localLoadPiece s s.cur.wid w r] }
  else tileAcc s s.cur.wid w r .tload d (takeTile s w.lid w.party m).1

theorem issueLoad_inFlight {s : State} (hpad : s.eccPad = []) (w : Wave) (r : TReq) (d : Dest) (m : TMs) :
    TileInFlight s (bump (issueLoad r d m s.cur.wid w s)) w (loadAcc s w r d m) d .filling (coreOf s (s.cur.wid / 16)).pad := by
  obtain ⟨parties, htake⟩ := takeTile_moved s w.lid w.party m
  have hissue : issueLoad r d m s.cur.wid w s =
      markSlot (addAcc (takeTile s w.lid w.party m).2 s.cur.wid (nextSeq w) (loadAcc s w r d m) [] (tileBytes r)) (s.cur.wid / 16) d .filling := by
    rw [issueLoad, localBad_of_clean hpad, Bool.and_false]
    rfl
  rw [hissue, htake]
  exact tileInFlight_of_moved (s := s) (u := { s with parties := parties }) (pad := (coreOf s (s.cur.wid / 16)).pad) rfl rfl rfl ..

/-- The scratchpad once a tile store of a request has issued. -/
def storedPad (s : State) (w : Wave) (r : TReq) (d : Dest) : Tab Byte :=
  if r.loc then padSpans (regionBase s s.cur.wid w) r.spans (sourceBytes s (s.cur.wid / 16) d) (coreOf s (s.cur.wid / 16)).pad
  else (coreOf s (s.cur.wid / 16)).pad

theorem sourceBytes_parties (s : State) (parties : Tab Party) (core : Nat) (d : Dest) :
    sourceBytes { s with parties := parties } core d = sourceBytes s core d := by
  cases d <;> rfl

/-- What a request says of the access that it becomes. -/
structure TileAccess (s : State) (w : Wave) (r : TReq) (kind : AKind) (ms : Option (Nat × Nat)) (a : Acc) : Prop where
  kind : a.kind = kind
  wid : a.wid = s.cur.wid
  loc : a.loc = r.loc
  seq : a.seq = w.seq + 1
  scope : a.scope = r.scope
  ms : a.ms = ms
  pieces : r.loc = false → a.pieces = tilePieces s s.cur.wid w r

theorem loadAcc_access (s : State) (w : Wave) (r : TReq) (d : Dest) (m : TMs) :
    TileAccess s w r .tload (takeTile s w.lid w.party m).1 (loadAcc s w r d m) := by
  unfold loadAcc
  split
  · next h => exact ⟨rfl, rfl, rfl, rfl, rfl, rfl, fun h' => absurd (h.symm.trans h') (by decide)⟩
  · next h => exact ⟨rfl, rfl, rfl, rfl, rfl, rfl, fun h' => if_neg h⟩

theorem tileAcc_access {s u : State} (hseg : ∀ wid w n, segOf u wid w n = segOf s wid w n) (w : Wave) (r : TReq) (kind : AKind) (d : Dest)
    (ms : Option (Nat × Nat)) : TileAccess s w r kind ms (tileAcc u s.cur.wid w r kind d ms) := by
  refine ⟨rfl, rfl, rfl, rfl, rfl, rfl, fun h => ?_⟩
  rw [tileAcc]
  simp only [h, Bool.false_eq_true, if_false, tilePieces, hseg]

theorem issueStore_inFlight (s : State) (w : Wave) (r : TReq) (d : Dest) (m : TMs) : ∃ a, TileAccess s w r .tstore (takeTile s w.lid w.party m).1 a ∧
    TileInFlight s (bump (issueStore r d (takeTile s w.lid w.party m).1 s.cur.wid w (takeTile s w.lid w.party m).2)) w a d .draining (storedPad s w r d) := by
  obtain ⟨parties, htake⟩ := takeTile_moved s w.lid w.party m
  rw [htake]
  generalize (takeTile s w.lid w.party m).1 = ms
  cases hloc : r.loc with
  | false =>
    have hissue : issueStore r d ms s.cur.wid w { s with parties := parties } =
        markSlot (addAcc { s with parties := parties } s.cur.wid (nextSeq w) (tileAcc { s with parties := parties } s.cur.wid w r .tstore d ms) []
          (tileBytes r)) (s.cur.wid / 16) d .draining := by
      rw [issueStore, hloc]
      rfl
    rw [hissue, storedPad, hloc]
    exact ⟨_, tileAcc_access (s := s) (u := { s with parties := parties }) (fun _ _ _ => rfl) ..,
      tileInFlight_of_moved (s := s) (u := { s with parties := parties }) (pad := (coreOf s (s.cur.wid / 16)).pad) rfl rfl rfl ..⟩
  | true =>
    obtain ⟨cores, hput, hcore⟩ := putLocal_pad (s.cur.wid / 16) (regionBase s s.cur.wid w) r.spans
      (sourceBytes s (s.cur.wid / 16) d) { s with parties := parties }
    generalize hu : putLocal { s with parties := parties } (s.cur.wid / 16) (regionBase s s.cur.wid w) r.spans (sourceBytes s (s.cur.wid / 16) d) = u
      at hput hcore
    obtain ⟨bad, hclear⟩ : ∃ bad, eccPadClearAll u (s.cur.wid / 16) (r.spans.map fun x => (regionBase s s.cur.wid w + x.1.toNat, x.2)) =
      { s with parties := parties, cores := cores, eccPad := bad } := ⟨_, by rw [hput]; rfl⟩
    have hissue : issueStore r d ms s.cur.wid w { s with parties := parties } =
        markSlot (addAcc { s with parties := parties, cores := cores, eccPad := bad } s.cur.wid (nextSeq w)
          (tileAcc { s with parties := parties } s.cur.wid w r .tstore d ms) [] (tileBytes r)) (s.cur.wid / 16) d .draining := by
      have hbase : regionBase { s with parties := parties } s.cur.wid w = regionBase s s.cur.wid w := rfl
      rw [← hclear, ← hu, issueStore, sourceBytes_parties, hbase, hloc, if_pos rfl]
      rfl
    rw [hissue, storedPad, hloc]
    refine ⟨_, tileAcc_access (s := s) (u := { s with parties := parties }) (fun _ _ _ => rfl) ..,
      tileInFlight_of_moved (s := s) (u := { s with parties := parties, cores := cores, eccPad := bad }) rfl rfl ?_ ..⟩
    rw [hput] at hcore
    exact hcore

/-! ### The obligation -/

/-- A tile access has issued: its place is known, its number is taken, and its slot waits for it. -/
def TileIssued (s : State) (w : Wave) (i : Instr) (r : TReq) (k : AKind) (st : OState) (m : TMs) (src : List Byte) : Prop :=
  let core := s.cur.wid / 16
  let region := 6144 * (shareOf s core w.lid).unit
  ∃ t a, exec i s = .next t ∧ t.mem = s.mem ∧
    (∀ q, partyOf s w.lid w.party = some q → a.ms = match m with
      | .none => none
      | .ms4 => some (4, (msOf q 4).taken + 1)
      | .ms5 => some (5, (msOf q 5).taken + 1)) ∧
    accOf t s.nextId = some a ∧ a.kind = k ∧ a.wid = s.cur.wid ∧ a.loc = r.loc ∧ a.seq = w.seq + 1 ∧ a.scope = r.scope ∧
    (r.loc = false → (a.pieces.map (·.size)).sum = (r.spans.map (·.2)).sum ∧ a.pieces.flatMap (fun p => (List.range p.size).map (p.va + ·)) =
      r.spans.flatMap fun x => (List.range x.2).map (((segOf s s.cur.wid w r.seg).base + x.1 : Int).toNat + ·)) ∧
    (∃ v, waveOf t s.cur.wid = some v ∧ v.seq = w.seq + 1 ∧ v.s = w.s ∧ v.a = w.a ∧ v.b = w.b ∧ v.k = w.k) ∧
    (coreOf t core).accs = (coreOf s core).accs ∧ (coreOf t core).images = (coreOf s core).images ∧
    (∀ o, (entryOf t core o).st = if o ∈ slotFills i s w ∨ ∃ u ∈ slotReads i s w, u.o = o then st else (entryOf s core o).st) ∧
    (k = .tload → r.loc = true → (coreOf t core).pad = (coreOf s core).pad ∧ a.pieces.flatMap (·.val) =
      r.spans.flatMap fun x => (List.range x.2).map fun n => getByte (coreOf s core).pad (region + x.1.toNat + n)) ∧
    (k = .tstore → r.loc = true →
      let dst := r.spans.flatMap fun x => (List.range x.2).map (region + x.1.toNat + ·)
      (∀ b : Nat, b ∉ dst → getByte (coreOf t core).pad b = getByte (coreOf s core).pad b) ∧
      ∀ (n b : Nat), dst[n]? = some b → (∀ j : Nat, n < j → dst[j]? ≠ some b) → some (getByte (coreOf t core).pad b) = src[n]?)

section
variable {s t : State} {w : Wave} {i : Instr} {r : TReq} {d : Dest} {a : Acc} {k : AKind} {st : OState} {m : TMs} {pad : Tab Byte} {src : List Byte}

/-- An access in flight has issued as its operation says, once its scratchpad bytes are shown. -/
theorem TileInFlight.issued (hexec : exec i s = .next t) (hflight : TileInFlight s t w a d st pad)
    (hacc : TileAccess s w r k (takeTile s w.lid w.party m).1 a) (hspans : ∀ x ∈ r.spans, x.2 ≤ 4096)
    (hslot : ∀ o, d.slotNo = some o ↔ o ∈ slotFills i s w ∨ ∃ u ∈ slotReads i s w, u.o = o)
    (hload : k = .tload → r.loc = true → pad = (coreOf s (s.cur.wid / 16)).pad ∧ a.pieces.flatMap (·.val) = localTile s s.cur.wid w r)
    (hstore : k = .tstore → r.loc = true → pad = padSpans (regionBase s s.cur.wid w) r.spans src (coreOf s (s.cur.wid / 16)).pad ∧
      (r.spans.map (·.2)).sum ≤ src.length) : TileIssued s w i r k st m src := by
  obtain ⟨table, hcore⟩ := hflight.core
  refine ⟨t, a, hexec, hflight.mem, fun q hq => hacc.ms.trans (takeTile_carries s m q hq), hflight.acc, hacc.kind, hacc.wid, hacc.loc, hacc.seq,
    hacc.scope, fun hloc => ?_, ⟨_, hflight.wave, rfl, rfl, rfl, rfl, rfl⟩, by rw [hcore], by rw [hcore], fun o => ?_,
    fun hk hloc => ?_, fun hk hloc => ?_⟩
  · rw [hacc.pieces hloc]
    exact ⟨tilePieces_sizes hspans, tilePieces_addresses hspans⟩
  · rw [hflight.slot o]
    exact if_congr (hslot o) rfl rfl
  · obtain ⟨hpad, hval⟩ := hload hk hloc
    rw [hcore]
    exact ⟨hpad, hval⟩
  · obtain ⟨hpad, hlen⟩ := hstore hk hloc
    rw [hcore, hpad]
    exact ⟨fun b hb => padSpans_outside _ _ _ _ b hb, fun n b hn hlast => padSpans_last _ _ _ _ n b hlen hn hlast⟩

end

theorem loadAcc_local {s : State} {w : Wave} {r : TReq} (h : r.loc = true) (d : Dest) (m : TMs) :
    (loadAcc s w r d m).pieces.flatMap (·.val) = localTile s s.cur.wid w r := by
  rw [loadAcc, if_pos h]
  exact List.append_nil _

/-- A tile load that issues takes its bytes at issue where it is local. -/
theorem load_issued {s : State} {w : Wave} {i : Instr} {r : TReq} {d : Dest} {m : TMs} (hpad : s.eccPad = [])
    (hexec : exec i s = .next (bump (issueLoad r d m s.cur.wid w s))) (hspans : ∀ x ∈ r.spans, x.2 ≤ 4096)
    (hslot : ∀ o, d.slotNo = some o ↔ o ∈ slotFills i s w ∨ ∃ u ∈ slotReads i s w, u.o = o) : TileIssued s w i r .tload .filling m [] :=
  (issueLoad_inFlight hpad w r d m).issued hexec (loadAcc_access s w r d m) hspans hslot (fun _ hloc => ⟨rfl, loadAcc_local hloc d m⟩) nofun

/-- Settles O44: an access is put in flight over its spans in order; a local one moves its bytes with the scratchpad as it stands. -/
theorem tileAccessesIssue : Obligations.TileAccessesIssue := by
  intro s w hpad
  refine ⟨fun f r hi hr => ?_, fun f r hi hr => ?_, fun f r hi hr => ?_⟩
  · have hexec : exec (.tload f) s = .next (bump (issueLoad r (tileDest f) f.ms s.cur.wid w s)) := by
      change execTload f s = _
      rw [execTload, slotOp_issues hi, withTile, hr]
    exact load_issued hpad hexec (tileReq_tload hr).span_le fun o => tileDest_slotNo f s w o
  · have hexec : exec (.tstore f) s = .next (bump (issueStore r (tileDest f) (takeTile s w.lid w.party f.ms).1 s.cur.wid w
        (takeTile s w.lid w.party f.ms).2)) := by
      change execTstore f s = _
      rw [execTstore, slotOp_issues hi, withTile, hr]
    obtain ⟨a, hacc, hflight⟩ := issueStore_inFlight s w r (tileDest f) f.ms
    exact hflight.issued hexec hacc (tileReq_tstore hr).span_le (fun o => tileDest_slotNo_tstore f s w o) nofun
      fun _ hloc => ⟨if_pos hloc, ((tileReq_tstore hr).sizes s _).le⟩
  · have hexec : exec (.tldo f) s = .next (bump (issueLoad r (.tldo f.oa.toNat) f.ms s.cur.wid w s)) := by
      change execTldo f s = _
      rw [execTldo, slotOp_issues hi, withTile, hr]
    exact load_issued hpad hexec (tileReq_tldo_span_le hr) fun o => by simp [Dest.slotNo, slotFills, slotReads, eq_comm]

end Sys2Proof.Machine

/-! PROOF. Tile loads fill, and tile stores and outbound copies drain, their slots (R143, R148, R152, R223, R230). -/

namespace Sys2Proof.Machine

/-- What every step of a fold keeps, the fold keeps. -/
theorem foldl_kept {α σ : Type} {R : σ → σ → Prop} (hrefl : ∀ s, R s s) (htrans : ∀ s t u, R s t → R t u → R s u) {f : σ → α → σ}
    (h : ∀ t x, R t (f t x)) : ∀ (l : List α) (s : σ), R s (l.foldl f s)
  | [], s => hrefl s
  | x :: l, s => htrans _ _ _ (h s x) (foldl_kept hrefl htrans h l (f s x))

/-! ### What keeps the tiles -/

/-- Memory, the parties, and every core's tile table and slot images stay as they are. -/
structure TilesKept (s t : State) : Prop where
  mem : t.mem = s.mem
  parties : t.parties = s.parties
  table : ∀ k, (coreOf t k).table = (coreOf s k).table
  images : ∀ k, (coreOf t k).images = (coreOf s k).images

namespace TilesKept

variable {s t u : State}

theorem refl (s : State) : TilesKept s s := ⟨rfl, rfl, fun _ => rfl, fun _ => rfl⟩

theorem trans (h : TilesKept s t) (h' : TilesKept t u) : TilesKept s u :=
  ⟨h'.mem.trans h.mem, h'.parties.trans h.parties, fun k => (h'.table k).trans (h.table k), fun k => (h'.images k).trans (h.images k)⟩

theorem foldl {α : Type} {f : State → α → State} (h : ∀ t x, TilesKept t (f t x)) (l : List α) (s : State) : TilesKept s (l.foldl f s) :=
  foldl_kept refl (fun _ _ _ => trans) h l s

theorem modCore (s : State) (c : Nat) {f : Core → Core} (hf : ∀ x, (f x).table = x.table ∧ (f x).images = x.images) : TilesKept s (modCore s c f) := by
  refine ⟨rfl, rfl, fun k => ?_, fun k => ?_⟩ <;> rw [coreOf_modCore] <;> split
  · next h => rw [(hf _).1, h]
  · rfl
  · next h => rw [(hf _).2, h]
  · rfl

/-- A change of anything but memory, parties and cores. -/
theorem of_cores (hmem : t.mem = s.mem) (hparties : t.parties = s.parties) (hcores : t.cores = s.cores) : TilesKept s t :=
  ⟨hmem, hparties, fun k => by rw [coreOf, hcores, coreOf], fun k => by rw [coreOf, hcores, coreOf]⟩

theorem modWave (s : State) (wid : Nat) (f : Wave → Wave) : TilesKept s (modWave s wid f) := by
  unfold Machine.modWave
  split
  · exact of_cores rfl rfl rfl
  · exact refl s

theorem holdL2 (s : State) (asid va loc n : Nat) (direct : Bool) : TilesKept s (holdL2 s asid va loc n direct) := by
  unfold Machine.holdL2
  split
  · exact refl s
  · exact of_cores rfl rfl rfl

theorem holdLines (s : State) (a : Acc) (va loc n : Nat) : TilesKept s (holdLines s a va loc n) := by
  unfold Machine.holdLines
  split
  · exact holdL2 ..
  · split
    · exact refl s
    · extract_lets s1
      have h1 : TilesKept s s1 := by
        unfold s1
        split
        · exact modCore _ _ fun _ => ⟨rfl, rfl⟩
        · exact refl s
      split
      · exact h1.trans (of_cores rfl rfl rfl)
      · exact h1.trans (holdL2 ..)

theorem refreshFor (s : State) (core : Nat) (l : List Sync) : TilesKept s (refreshFor s core l) := by
  have hfresh : TilesKept s (refresh s core) := modCore s core fun _ => ⟨rfl, rfl⟩
  exact hfresh.trans (modCore (refresh s core) core (f := fun c => { c with lowered := _, clock := _ }) fun _ => ⟨rfl, rfl⟩)

theorem endsAcquire {k : Nat} (h : EndsAcquire s k t) : TilesKept s t := by
  obtain rfl | ⟨_, _, _, -, -, rfl⟩ := h
  · exact refl _
  · exact (refreshFor ..).trans (of_cores rfl rfl rfl)

theorem tryAcquire (s : State) (k : Nat) : TilesKept s (tryAcquire s k) :=
  (endsAcquire (endAcquire_ends s k)).trans (endsAcquire (endSupAcquire_ends _ k))

theorem finishAcc (s : State) (id : Nat) (a : Acc) : TilesKept s (finishAcc s id a) := by
  have hdel : TilesKept s (delAcc s id) := of_cores rfl rfl rfl
  exact (hdel.trans (modWave _ a.wid fun w => clearBusy w id)).trans (tryAcquire _ a.wid)

theorem entryOf (h : TilesKept s t) (k x : Nat) : entryOf t k x = entryOf s k x := by rw [Machine.entryOf, h.table, Machine.entryOf]

end TilesKept

/-- A party's number changes no tile. -/
theorem doneMs_moved (s : State) (lid p : Nat) (m : Option (Nat × Nat)) : ∃ parties, doneMs s lid p m = { s with parties := parties } := by
  unfold doneMs
  split
  · exact finishMs_moved ..
  · exact ⟨_, rfl⟩

/-! ### The bytes of a tile at its home (R223) -/

theorem length_devBytes_pieces (s : State) (ps : List Piece) : (ps.flatMap fun p => devBytes s (p.pa.getD 0) p.size).length = (ps.map (·.size)).sum := by
  rw [List.length_flatMap]
  exact congrArg List.sum (List.map_congr_left fun p _ => length_devBytes ..)

/-- Where no alias is broken, a tile has the bytes that were read. -/
theorem aliasTile_sound {s : State} (id : Nat) (a : Acc) : ∀ (ps : List Piece) (bs : List Byte), bs.length = (ps.map (·.size)).sum →
    (∀ p ∈ ps, brokenAlias s (accVia a p.va (p.pa.getD 0)) (p.pa.getD 0) p.size = false) → aliasTile s id a ps bs = bs
  | [], bs, hlen, _ => (List.eq_nil_of_length_eq_zero hlen).symm
  | p :: ps, bs, hlen, h => by
    rw [List.map_cons, List.sum_cons] at hlen
    rw [aliasTile, aliasRead_sound (h p (List.mem_cons_self ..)),
      aliasTile_sound id a ps (bs.drop p.size) (by rw [List.length_drop]; omega) fun q hq => h q (List.mem_cons_of_mem _ hq)]
    exact List.take_append_drop ..

/-- A strong tile load reads its tile at the home, and keeps every tile. -/
theorem readTile_strong {s : State} {id : Nat} {a : Acc} (hloc : a.loc = false) (hscope : a.scope.isPlain = false) :
    TilesKept s (readTile s id a).2 ∧ ((∀ p ∈ a.pieces, brokenAlias s (accVia a p.va (p.pa.getD 0)) (p.pa.getD 0) p.size = false) →
      (readTile s id a).1 = a.pieces.flatMap fun p => devBytes s (p.pa.getD 0) p.size) := by
  unfold readTile
  extract_lets spans u r c
  have hread : ReadMoved s u := foldl_kept ReadMoved.refl (fun _ _ _ => .trans) (fun t p => by split <;> [exact .holdLines ..; exact .refl ..]) _ _
  have htiles : TilesKept s u := .foldl (fun t p => by split <;> [exact .holdLines ..; exact .refl ..]) _ _
  simp only [hloc, hscope, Bool.false_eq_true, if_false, Bool.not_false, if_true]
  refine ⟨htiles.trans (.foldl (fun t (x : Nat × Nat) => .modCore t a.core (f := fun y => raiseTo y x.1 x.2 u.commits) fun _ => ⟨rfl, rfl⟩) _ _),
    fun h => ?_⟩
  simp only [hread.devBytes]
  exact aliasTile_sound id a _ _ (length_devBytes_pieces ..) fun p hp => (hread.brokenAlias ..).trans (h p hp)

/-! ### A slot that is filled (R143, R151) -/

/-- Consecutive keys. -/
theorem Tab.find_zip_range' {α : Type} : ∀ (l : List α) (a i : Nat), Tab.find ((List.range' a l.length).zip l) (a + i) = l[i]?
  | [], _, _ => rfl
  | x :: l, a, 0 => if_pos rfl
  | x :: l, a, i + 1 => by
    rw [List.getElem?_cons_succ, ← Tab.find_zip_range' l (a + 1) i, Nat.add_right_comm, Nat.add_assoc]
    exact if_neg (by omega)

theorem find_tabOf (bs : List Byte) (i : Nat) : Tab.find (tabOf bs) i = bs[i]? := by
  have hfind := Tab.find_zip_range' bs 0 i
  rwa [Nat.zero_add, ← List.range_eq_range'] at hfind

theorem length_imgOf (row : Nat → Nat → Byte) (f : Fmt) (kc : Bool) (scale : Nat → Byte) : (imgOf row f kc scale).length = 4160 := by simp [imgOf]

theorem getElem?_imgOf {row : Nat → Nat → Byte} {f : Fmt} {kc : Bool} {scale : Nat → Byte} {i : Nat} (h : i < 4096) :
    (imgOf row f kc scale)[i]? = some (imgByte row f kc i) := by
  rw [imgOf, List.getElem?_append_left (by simpa using h), List.getElem?_map, List.getElem?_range h]
  rfl

/-- Without K-major form the image holds the rows one after another. -/
theorem imgByte_rows (row : Nat → Nat → Byte) (f : Fmt) (i : Nat) : imgByte row f false i = row (i / 128) (i % 128) := rfl

/-- The slot of an operation changes, and memory and every other slot stay. -/
structure SlotChanged (core o : Nat) (s t : State) : Prop where
  mem : t.mem = s.mem
  entry : ∀ x, x ≠ o → entryOf t core x = entryOf s core x
  image : ∀ x, x ≠ o → Tab.find (coreOf t core).images x = Tab.find (coreOf s core).images x

namespace SlotChanged

variable {core o : Nat} {s t u : State}

theorem trans (h : SlotChanged core o s t) (h' : SlotChanged core o t u) : SlotChanged core o s u :=
  ⟨h'.mem.trans h.mem, fun x hx => (h'.entry x hx).trans (h.entry x hx), fun x hx => (h'.image x hx).trans (h.image x hx)⟩

theorem of_kept (h : TilesKept s t) : SlotChanged core o s t := ⟨h.mem, fun x _ => h.entryOf core x, fun x _ => by rw [h.images]⟩

/-- A change of anything but memory and cores. -/
theorem of_cores (hmem : t.mem = s.mem) (hcores : t.cores = s.cores) : SlotChanged core o s t :=
  ⟨hmem, fun x _ => by rw [entryOf, coreOf, hcores, entryOf, coreOf], fun x _ => by rw [coreOf, hcores, coreOf]⟩

theorem modEntry (s : State) (core o : Nat) (f : TEntry → TEntry) : SlotChanged core o s (modEntry s core o f) where
  mem := rfl
  entry x hx := (entryOf_modEntry ..).trans (if_neg hx)
  image x _ := by rw [Machine.modEntry, setEntry, coreOf_modCore_same]

theorem putImg (s : State) (core o : Nat) (bs : List Byte) : SlotChanged core o s (putImg s core o bs) where
  mem := rfl
  entry x _ := by rw [entryOf, Machine.putImg, coreOf_modCore_same, entryOf]
  image x hx := by
    rw [Machine.putImg, coreOf_modCore_same]
    exact Tab.find_put_ne _ _ _ _ hx

theorem fillDone (s : State) (core o fmtt : Nat) (ort : Bool) : SlotChanged core o s (fillDone s core o fmtt ort) := modEntry ..

end SlotChanged

theorem entryOf_fillDone (s : State) (core o fmtt : Nat) (ort : Bool) :
    entryOf (fillDone s core o fmtt ort) core o = { entryOf s core o with st := .ready, fmtt := fmtt, ort := ort, flt := false, step := 0 } :=
  (entryOf_modEntry ..).trans (if_pos rfl)

theorem images_fillDone (s : State) (core o fmtt : Nat) (ort : Bool) : (coreOf (fillDone s core o fmtt ort) core).images = (coreOf s core).images := by
  rw [fillDone, modEntry, setEntry, coreOf_modCore_same]

theorem image_putImg (s : State) (core o : Nat) (bs : List Byte) : Tab.findD (coreOf (putImg s core o bs) core).images o [] = tabOf bs := by
  rw [putImg, coreOf_modCore_same]
  exact (Tab.findD_put ..).trans (if_pos rfl)

theorem entryOf_putImg (s : State) (core o : Nat) (bs : List Byte) (x : Nat) : entryOf (putImg s core o bs) core x = entryOf s core x := by
  rw [entryOf, putImg, coreOf_modCore_same, entryOf]

/-- A slot whose bytes and tags have been set. -/
theorem slot_filled (s : State) (core o fmtt : Nat) (ort : Bool) (bs : List Byte) :
    let t := fillDone (putImg s core o bs) core o fmtt ort
    SlotChanged core o s t ∧ t.parties = s.parties ∧
      entryOf t core o = { entryOf s core o with st := .ready, fmtt := fmtt, ort := ort, flt := false, step := 0 } ∧
      ∀ i, Tab.find (Tab.findD (coreOf t core).images o []) i = bs[i]? := by
  refine ⟨(SlotChanged.putImg ..).trans (.fillDone ..), rfl, ?_, fun i => ?_⟩
  · rw [entryOf_fillDone, entryOf_putImg]
  · rw [images_fillDone, image_putImg, find_tabOf]

/-- A tile whose form is not K-major stands in its slot byte for byte (R151). -/
theorem deliverTile_slot (s : State) (core o : Nat) (fmt : Fmt) (kc : Bool) (bs : List Byte) :
    let t := deliverTile s core (.slot o fmt kc) bs
    SlotChanged core o s t ∧ t.parties = s.parties ∧
      entryOf t core o = { entryOf s core o with st := .ready, fmtt := fmtCode fmt, ort := kc, flt := false, step := 0 } ∧
      (kc = false → ∀ i, i < 4096 → Tab.find (Tab.findD (coreOf t core).images o []) i = some (bs.getD i 0)) := by
  obtain ⟨hslot, hparties, hentry, himage⟩ := slot_filled s core o (fmtCode fmt) kc
    (imgOf (fun r b => bs.toArray.getD ((tileRows false fmt kc).2 * r + b) 0) fmt kc fun i => bs.toArray.getD (4096 + i) 0)
  refine ⟨hslot, hparties, hentry, fun hkc i hi => (himage i).trans ?_⟩
  subst hkc
  have hlen : (tileRows false fmt false).2 = 128 := by cases fmt <;> rfl
  rw [getElem?_imgOf hi, imgByte_rows, hlen]
  simp [Nat.div_add_mod]

/-! ### A tile load ends (R143, R148) -/

theorem tileLoadReady_of {s : State} {id : Nat} {a : Acc} (h : ∀ p ∈ a.pieces, loadReady s id a p = true) : tileLoadReady s id a = true :=
  List.all_eq_true.2 fun p hp => by rw [h p hp, Bool.or_true]

theorem exec_tileFillComplete {s : State} {core id o : Nat} {a : Acc} {fmt : Fmt} {kc : Bool} (hacc : accOf s id = some a) (hkind : a.kind = .tload)
    (hcore : a.core = core) (hdest : a.dest = .slot o fmt kc)
    (hready : ∀ p ∈ a.pieces, p.done = false ∧ loadReady s id a p = true ∧ eccLoad s id a p.va (p.pa.getD 0) p.size = false) :
    exec (.tileFillComplete core id) s = .next (bump (finishTile (readTile s id a).2 id a (readTile s id a).1)) := by
  change execTileFillComplete core id s = _
  have hecc : (a.pieces.any fun p => !p.done && eccLoad s id a p.va (p.pa.getD 0) p.size) = false :=
    List.any_eq_false.2 fun p hp => by simp [(hready p hp).2.2]
  simp only [execTileFillComplete, hacc, hkind, hcore, hdest, tileLoadReady_of fun p hp => (hready p hp).2.1, hecc, bne_self_eq_false, Bool.or_self,
    Bool.not_true, Bool.false_eq_true, if_false]
  rfl

/-- A tile load that has read its bytes fills its slot, and its number completes (R143, R148). -/
theorem finishTile_slot {s : State} {id core o : Nat} {a : Acc} {fmt : Fmt} {kc : Bool}
    (hcore : a.core = core) (hdest : a.dest = .slot o fmt kc) (bs : List Byte) :
    let t := finishTile s id a bs
    accOf t id = none ∧ SlotChanged core o s t ∧
      entryOf t core o = { entryOf s core o with st := .ready, fmtt := fmtCode fmt, ort := kc, flt := false, step := 0 } ∧
      (kc = false → ∀ i, i < 4096 → Tab.find (Tab.findD (coreOf t core).images o []) i = some (bs.getD i 0)) ∧
      ∀ c n q, a.ms = some (c, n) → partyOf s a.lid a.party = some q → ∃ u, partyOf t a.lid a.party = some u ∧ n ∈ (msOf u c).done := by
  subst hcore
  rw [finishTile, hdest]
  obtain ⟨hslot, hparties, hentry, himage⟩ := deliverTile_slot s a.core o fmt kc bs
  generalize deliverTile s a.core (.slot o fmt kc) bs = u at hslot hparties hentry himage
  obtain ⟨parties, hdone⟩ := doneMs_moved u a.lid a.party a.ms
  have hnumber : ∀ c n q, a.ms = some (c, n) → partyOf s a.lid a.party = some q →
      ∃ v, partyOf (doneMs u a.lid a.party a.ms) a.lid a.party = some v ∧ n ∈ (msOf v c).done := fun c n q hms hq => by
    rw [hms]
    exact finishMs_done (by rw [partyOf, hparties]; exact hq) c n
  generalize doneMs u a.lid a.party a.ms = v at hdone hnumber
  have hfinish := TilesKept.finishAcc v id a
  have hv : SlotChanged a.core o u v := .of_cores (by rw [hdone]) (by rw [hdone])
  have hventry : entryOf v a.core o = entryOf u a.core o := by rw [hdone]; rfl
  have hvimages : (coreOf v a.core).images = (coreOf u a.core).images := by rw [hdone]; rfl
  refine ⟨finishAcc_acc .., (hslot.trans hv).trans (.of_kept hfinish), by rw [hfinish.entryOf, hventry, hentry], fun hkc i hi => ?_, fun c n q hms hq => ?_⟩
  · rw [hfinish.images, hvimages]
    exact himage hkc i hi
  · rw [partyOf, hfinish.parties]
    exact hnumber c n q hms hq

/-! ### A tile store drains its slot (R143, R152) -/

theorem sliceData_bytes : ∀ (ps : List Piece) (bs : List Byte), bs.length = (ps.map (·.size)).sum → (sliceData ps bs).flatMap (·.data) = bs
  | [], bs, h => (List.eq_nil_of_length_eq_zero h).symm
  | p :: ps, bs, h => by
    rw [List.map_cons, List.sum_cons] at h
    rw [sliceData, List.flatMap_cons, sliceData_bytes ps (bs.drop p.size) (by rw [List.length_drop]; omega)]
    exact List.take_append_drop ..

/-- A tile that is accepted keeps its pieces. -/
theorem tileAccept_pieces {s : State} {id : Nat} {a : Acc} (h : accOf s id = some a) : ∃ b, accOf (tileAccept s id) id = some b ∧ b.pieces = a.pieces := by
  rw [tileAccept, h]
  have hset : ∀ b, accOf (setAcc s id b) id = some b := fun b => (accOf_setAcc ..).trans (if_pos rfl)
  dsimp only
  split
  · split
    · obtain ⟨parties, hparties⟩ := finishMs_moved (setAcc s id { a with accepted := true }) a.lid a.party _ _
      rw [hparties]
      exact ⟨_, hset _, rfl⟩
    · exact ⟨_, hset _, rfl⟩
  · exact ⟨a, h, rfl⟩

theorem fillStore_of_global {s : State} {a : Acc} (hloc : a.loc = false) (id : Nat) (bs : List Byte) : fillStore s id a bs =
    let u := tileAccept (setAcc s id { a with pieces := sliceData a.pieces bs }) id
    if a.scope.isPlain && !a.direct then eccL1Clear u a.core a.asid (a.pieces.map fun p => (p.va, p.size)) else u := by
  rw [fillStore, if_neg (ne_true_of_eq_false hloc)]

/-- A tile store that has read its source holds its bytes; waves, memory and the cores' tiles stay. -/
theorem fillStore_global {s : State} {id : Nat} {a : Acc} {bs : List Byte} (hloc : a.loc = false) (hlen : (a.pieces.map (·.size)).sum = bs.length) :
    (∃ b, accOf (fillStore s id a bs) id = some b ∧ b.pieces.flatMap (·.data) = bs) ∧ (fillStore s id a bs).waves = s.waves ∧
      (fillStore s id a bs).mem = s.mem ∧ ∀ k, (coreOf (fillStore s id a bs) k).table = (coreOf s k).table ∧
        (coreOf (fillStore s id a bs) k).images = (coreOf s k).images := by
  obtain ⟨b, hb, hpieces⟩ := tileAccept_pieces ((accOf_setAcc (s := s) id id { a with pieces := sliceData a.pieces bs }).trans (if_pos rfl))
  have hdata : b.pieces.flatMap (·.data) = bs := by rw [hpieces, sliceData_bytes _ _ hlen.symm]
  obtain ⟨acc, parties, haccept⟩ := tileAccept_moved (setAcc s id { a with pieces := sliceData a.pieces bs }) id
  rw [fillStore_of_global hloc]
  generalize tileAccept _ id = u at hb haccept
  have hcore : ∀ k, coreOf u k = coreOf s k := fun k => by rw [haccept]; rfl
  have hwaves : u.waves = s.waves := by rw [haccept]; rfl
  have hmem : u.mem = s.mem := by rw [haccept]; rfl
  dsimp only
  split
  · have hclear : TilesKept u (eccL1Clear u a.core a.asid (a.pieces.map fun p => (p.va, p.size))) := .modCore _ _ fun _ => ⟨rfl, rfl⟩
    exact ⟨⟨b, hb, hdata⟩, hwaves, hmem, fun k => ⟨by rw [hclear.table, hcore], by rw [hclear.images, hcore]⟩⟩
  · exact ⟨⟨b, hb, hdata⟩, hwaves, hmem, fun k => by rw [hcore]; exact ⟨rfl, rfl⟩⟩

/-- A store to the scratchpad is over once its slot has been read. -/
theorem fillStore_local {s : State} {id : Nat} {a : Acc} (hloc : a.loc = true) (bs : List Byte) : ∃ parties, fillStore s id a bs =
    delAcc { s with parties := parties } id := by
  obtain ⟨parties, hdone⟩ := doneMs_moved s a.lid a.party a.ms
  exact ⟨parties, by rw [fillStore, if_pos hloc, hdone]⟩

theorem entryOf_drained (s : State) (core o : Nat) (fmt : Fmt) (kc : Bool) :
    entryOf (drained s core (.slot o fmt kc)) core o = { entryOf s core o with st := .ready, step := 0 } := (entryOf_modEntry ..).trans (if_pos rfl)

theorem slotChanged_drained (s : State) (core o : Nat) (fmt : Fmt) (kc : Bool) : SlotChanged core o s (drained s core (.slot o fmt kc)) :=
  .modEntry s core o fun e => { e with st := .ready, step := 0 }

theorem exec_tileDrainComplete {s : State} {core id o : Nat} {a : Acc} {fmt : Fmt} {kc : Bool} (hacc : accOf s id = some a) (hkind : a.kind = .tstore)
    (hcore : a.core = core) (hdest : a.dest = .slot o fmt kc) (hunread : a.loc = true ∨ ∀ p ∈ a.pieces, p.data = []) :
    exec (.tileDrainComplete core id) s =
      .next (bump (drained (fillStore s id a (sourceBytes s core (.slot o fmt kc))) core (.slot o fmt kc))) := by
  change execTileDrainComplete core id s = _
  have hread : (a.loc || a.pieces.all fun p => p.data.isEmpty) = true := by
    rcases hunread with h | h
    · rw [h, Bool.true_or]
    · rw [List.all_eq_true.2 fun p hp => by rw [h p hp]; rfl, Bool.or_true]
  rw [execTileDrainComplete, hacc]
  dsimp only
  rw [hread, hkind, hcore, hdest, if_pos (by simp)]
  rfl

/-! ### An outbound copy drains its slot (R230) -/

/-- A copy that has read its slot. -/
def readCopy (s : State) (c : Copy) : Copy := { c with got := (List.range c.len).map fun k => (k, copySource s c k), drained := true }

theorem exec_copyDrainComplete {s : State} {core id : Nat} {c : Copy} (hacc : accOf s id = none) (hcopy : copyOf s id = some c) (hkind : c.kind = .outSlot)
    (hcore : c.core = core) (hdrained : c.drained = false) : exec (.tileDrainComplete core id) s =
      .next (bump (modEntry (setCopy s id (readCopy s c)) core (c.loff / 8192) fun e => { e with st := .ready, step := 0 })) := by
  change execTileDrainComplete core id s = _
  rw [execTileDrainComplete, hacc]
  dsimp only
  rw [hcopy]
  dsimp only
  exact if_pos (by simp [hkind, hcore, hdrained])

theorem Tab.find_map_self {α : Type} (f : Nat → α) {k : Nat} : ∀ {l : List Nat}, k ∈ l → Tab.find (l.map fun k => (k, f k)) k = some (f k)
  | x :: l, h => by
    rw [List.map_cons, Tab.find]
    split
    · next hx => rw [hx]
    · next hx => exact Tab.find_map_self f ((List.mem_cons.1 h).resolve_left fun he => hx he.symm)

/-! ### The obligation -/

theorem SlotChanged.bump {core o : Nat} {s t : State} (h : SlotChanged core o s t) : SlotChanged core o s (bump t) := h.trans (.of_cores rfl rfl)

theorem SlotChanged.kept {core o : Nat} {s t : State} (h : SlotChanged core o s t) (x : Nat) (hx : x ≠ o) :
    entryOf t core x = entryOf s core x ∧ Tab.find (coreOf t core).images x = Tab.find (coreOf s core).images x := ⟨h.entry x hx, h.image x hx⟩

/-- Settles O45: a tile load delivers what it reads at the home; a drained slot is ready and its bytes stand in the store or the copy. -/
theorem tileAccessesComplete : Obligations.TileAccessesComplete := by
  intro core id s
  refine ⟨fun a o fmt kc hacc hkind hcore hdest hloc hscope hready => ?_,
    fun a o fmt kc hacc hkind hcore hdest => ⟨fun hloc hdata hsize => ?_, fun hloc => ?_⟩, fun c hacc hcopy hkind hcore hdrained => ?_⟩
  · have hexec := exec_tileFillComplete hacc hkind hcore hdest hready
    obtain ⟨hread, hbytes⟩ := readTile_strong (s := s) (id := id) hloc hscope
    obtain ⟨hgone, hslot, hentry, himage, hnumber⟩ := finishTile_slot (s := (readTile s id a).2) (id := id) hcore hdest (readTile s id a).1
    generalize finishTile (readTile s id a).2 id a (readTile s id a).1 = t at hexec hgone hslot hentry himage hnumber
    have hchanged : SlotChanged core o s (bump t) := ((SlotChanged.of_kept hread).trans hslot).bump
    refine ⟨_, hexec, hgone, hchanged.mem, hchanged.kept, by rw [← hread.entryOf]; exact hentry, fun hkc hsound => ?_, fun c n q hms hq => ?_⟩
    · rw [← hbytes hsound]
      exact himage hkc
    · exact hnumber c n q hms (by rw [partyOf, hread.parties]; exact hq)
  · obtain ⟨⟨b, hb, hbytes⟩, hwaves, hmem, htiles⟩ := fillStore_global (s := s) (id := id) hloc hsize
    have hexec := exec_tileDrainComplete hacc hkind hcore hdest (.inr hdata)
    generalize fillStore s id a (sourceBytes s core (.slot o fmt kc)) = u at hexec hb hwaves hmem htiles
    have hu : SlotChanged core o s u := ⟨hmem, fun x _ => by rw [entryOf, (htiles core).1, entryOf], fun x _ => by rw [(htiles core).2]⟩
    have hchanged := (hu.trans (slotChanged_drained u core o fmt kc)).bump
    refine ⟨_, b, hexec, hchanged.mem, hwaves, hchanged.kept, (entryOf_drained u core o fmt kc).trans ?_, hb, hbytes⟩
    rw [entryOf, (htiles core).1, entryOf]
  · obtain ⟨parties, hfill⟩ := fillStore_local (s := s) (id := id) hloc (sourceBytes s core (.slot o fmt kc))
    have hexec := exec_tileDrainComplete hacc hkind hcore hdest (.inl hloc)
    rw [hfill] at hexec
    have hu : SlotChanged core o s (delAcc { s with parties := parties } id) := .of_cores rfl rfl
    have hchanged := (hu.trans (slotChanged_drained _ core o fmt kc)).bump
    exact ⟨_, hexec, hchanged.mem, rfl, hchanged.kept, (accOf_delAcc ..).trans (if_pos rfl), entryOf_drained _ core o fmt kc⟩
  · have hexec := exec_copyDrainComplete hacc hcopy hkind hcore hdrained
    have hu : SlotChanged core (c.loff / 8192) s (setCopy s id (readCopy s c)) := .of_cores rfl rfl
    have hchanged := (hu.trans (.modEntry _ core (c.loff / 8192) fun e => { e with st := .ready, step := 0 })).bump
    have hentry := (entryOf_modEntry (setCopy s id (readCopy s c)) core (c.loff / 8192) (fun e => { e with st := .ready, step := 0 }) (c.loff / 8192)).trans
      (if_pos rfl)
    exact ⟨_, readCopy s c, hexec, hchanged.mem, rfl, hchanged.kept, hentry, (copyOf_setCopy ..).trans (if_pos rfl), rfl, rfl,
      fun k hk => Tab.find_map_self _ (List.mem_range.2 hk)⟩

end Sys2Proof.Machine

/-! PROOF. What the retirement of a Pilot operation leaves as it was, and what it ends (R148, R149). -/

namespace Sys2Proof.Machine

/-! ### Rows of accumulators and partials (R147) -/

theorem tileRowsOf_setRows (s : State) (core c : Nat) (r : TileRows) (x : Nat) :
    tileRowsOf (setRows s core c r) core x = if x = c then r else tileRowsOf s core x := by
  rw [tileRowsOf, setRows, coreOf_modCore_same, tileRowsOf]
  by_cases hc : c < 16 <;> by_cases hx : x < 16 <;> simp only [hc, hx, if_true, if_false, Tab.findD_put]
  · exact (if_neg (by omega)).symm
  · exact (if_neg (by omega)).symm
  · exact if_congr (by omega) rfl rfl

/-- The rows of a core whose accumulators and partials are those of another state. -/
theorem tileRowsOf_congr {s t : State} {core : Nat} (haccs : (coreOf t core).accs = (coreOf s core).accs)
    (hparts : (coreOf t core).parts = (coreOf s core).parts) (c : Nat) : tileRowsOf t core c = tileRowsOf s core c := by
  rw [tileRowsOf, haccs, hparts, tileRowsOf]

/-- A defined element. -/
theorem elemAt_defined {s : State} {core c i j : Nat} {x : VReg} (h : Tab.find (tileRowsOf s core c) i = some x) (hdef : x.und.getLsbD j = false) :
    elemAt s core c i j = x.val.at j := by
  rw [elemAt, h]
  simp only [hdef, Bool.false_eq_true, if_false]

theorem elemAt_known {s : State} {core c i : Nat} {v : Lanes} (h : Tab.find (tileRowsOf s core c) i = some (knownRow v)) (j : Nat) :
    elemAt s core c i j = v.at j := elemAt_defined h (by simp [knownRow])

/-- Row i of rows made element by element. -/
theorem find_makeRows (g : Nat → Nat → Nat × List Ev) {i : Nat} (hi : i < 32) :
    Tab.find (makeRows g).1 i = some (knownRow (Lanes.of fun j => BitVec.ofNat 32 (g i j).1)) := by
  have hlen : ∀ f : List (Nat × List Ev) → VReg, (((List.range 32).map fun i => (List.range 32).map fun j => g i j).map f).length = 32 := fun f => by simp
  have hfind := Tab.find_zip_range' ((((List.range 32).map fun i => (List.range 32).map fun j => g i j)).map fun r =>
    knownRow (Lanes.of fun j => BitVec.ofNat 32 ((r.getD j.val (0, [])).1))) 0 i
  rw [hlen, Nat.zero_add, ← List.range_eq_range'] at hfind
  rw [makeRows]
  refine hfind.trans ?_
  simp [hi]

theorem elemAt_makeRows {s : State} {core c : Nat} {g : Nat → Nat → Nat × List Ev} (h : tileRowsOf s core c = (makeRows g).1) {i j : Nat} (hi : i < 32)
    (hj : j < 32) : elemAt s core c i j = BitVec.ofNat 32 (g i j).1 :=
  (elemAt_known (h ▸ find_makeRows g hi) j).trans (Lanes.of_at _ hj)

/-! ### Readers (R143) -/

theorem nodup_distinct : ∀ l : List Nat, (distinct l).Nodup
  | [] => List.nodup_nil
  | x :: l => List.nodup_cons.2 ⟨fun h => by simp at h, (nodup_distinct l).filter _⟩

theorem TablesMoved.trans {s t u : State} (h : TablesMoved s t) (h' : TablesMoved t u) : TablesMoved s u := by
  obtain ⟨cores, rfl, hcore⟩ := h
  obtain ⟨cores', hu, hcore'⟩ := h'
  refine ⟨cores', hu, fun k => ?_⟩
  obtain ⟨table, htable⟩ := hcore k
  obtain ⟨table', htable'⟩ := hcore' k
  exact ⟨table', htable'.trans (by rw [htable])⟩

theorem dropReaders_moved (s : State) (core : Nat) (l : List Nat) : TablesMoved s (dropReaders s core l) :=
  foldl_kept .refl (fun _ _ _ => .trans) (fun t o => .modEntry t core o _) l s

/-- A list without repeats takes one reader off each of its slots. -/
theorem entryOf_dropReaders (core o : Nat) : ∀ (l : List Nat) (s : State), l.Nodup →
    entryOf (dropReaders s core l) core o = { entryOf s core o with readers := (entryOf s core o).readers - if o ∈ l then 1 else 0 }
  | [], _, _ => rfl
  | x :: l, s, h => by
    obtain ⟨hx, hl⟩ := List.nodup_cons.1 h
    have hrest := entryOf_dropReaders core o l (modEntry s core x fun e => { e with readers := e.readers - 1 }) hl
    rw [entryOf_modEntry] at hrest
    refine hrest.trans ?_
    by_cases ho : o = x
    · subst ho
      simp [hx]
    · simp [ho]

theorem mem_pilotReads {s : State} {w : Wave} {p : POp} {o : Nat} : o ∈ pilotReads s w p ↔ ∃ u ∈ slotReads (pilotInstr p) s w, u.o = o := by
  rw [pilotReads, mem_distinct, List.mem_map]

/-! ### The end of an operation (R148, R149) -/

/-- The wave of an operation that has retired. -/
def retiredWave (p : PilotOp) (evs : List (Nat × Ev)) (w : Wave) : Wave := { clearBusy w p.id with fel := reportAll w.fel p.serial p.addr 6 evs }

/-- The state after an operation's result has been made: out of the queue, its marks and READERS gone, its number reached. -/
def afterResult (u : State) (core : Nat) (p : PilotOp) (rest : List PilotOp) (evs : List (Nat × Ev)) (reads : List Nat) (lid party : Nat) : State :=
  doneMs (dropReaders (modReach (modCore u core fun x => { x with pilot := rest }) p.wid (retiredWave p evs)) core reads) lid party p.ms

theorem exec_tileOpRetire {s : State} {core : Nat} {p : PilotOp} {rest : List PilotOp} {w : Wave} (hpilot : (coreOf s core).pilot = p :: rest)
    (hw : waveOf s p.wid = some w) : exec (.tileOpRetire core) s = if p.steps ≤ p.step then
      .next (bump (afterResult (pilotEffect s core w p).1 core p rest (pilotEffect s core w p).2 (pilotReads s w p.op) w.lid w.party))
    else .refused .notEnabled := by
  change execTileOpRetire core s = _
  rw [execTileOpRetire, hpilot]
  dsimp only
  rw [hw]
  rfl

/-- What the end of an operation makes of the state that its result has left. -/
structure OpEnded (u t : State) (core : Nat) (p : PilotOp) (rest : List PilotOp) (evs : List (Nat × Ev)) (reads : List Nat) (lid party : Nat) (v : Wave) :
    Prop where
  pilot : (coreOf t core).pilot = rest
  mem : t.mem = u.mem
  acc : t.acc = u.acc
  wave : waveOf t p.wid = some (retiredWave p evs v)
  others : ∀ x, x ≠ p.wid → waveOf t x = waveOf u x
  number : ∀ c n, p.ms = some (c, n) → ∃ x, partyOf t lid party = some x ∧ n ∈ (msOf x c).done
  entry : ∀ o, entryOf t core o = { entryOf u core o with readers := (entryOf u core o).readers - if o ∈ reads then 1 else 0 }
  rows : ∀ c, tileRowsOf t core c = tileRowsOf u core c
  images : (coreOf t core).images = (coreOf u core).images

theorem afterResult_ended {u : State} {core : Nat} {p : PilotOp} {rest : List PilotOp} {evs : List (Nat × Ev)} {reads : List Nat} {lid party : Nat} {v : Wave}
    {q : Party} (hv : waveOf u p.wid = some v) (hst : v.st ≠ .halted) (hq : partyOf u lid party = some q) (hreads : reads.Nodup) :
    OpEnded u (bump (afterResult u core p rest evs reads lid party)) core p rest evs reads lid party v := by
  have hv' : waveOf (modCore u core fun x => { x with pilot := rest }) p.wid = some v := hv
  rw [afterResult, modReach_eq hv' hst]
  have hcore : coreOf (setWave (modCore u core fun x => { x with pilot := rest }) p.wid (retiredWave p evs v)) core = { coreOf u core with pilot := rest } :=
    coreOf_modCore_same u core fun x => { x with pilot := rest }
  have hset : setWave (modCore u core fun x => { x with pilot := rest }) p.wid (retiredWave p evs v) =
    { u with waves := Tab.put u.waves p.wid (retiredWave p evs v), cores := (modCore u core fun x => { x with pilot := rest }).cores } := rfl
  generalize setWave (modCore u core fun x => { x with pilot := rest }) p.wid (retiredWave p evs v) = u1 at hcore hset
  have hentry := fun o => entryOf_dropReaders core o reads u1 hreads
  obtain ⟨cores, hdrop, htables⟩ := dropReaders_moved u1 core reads
  obtain ⟨table, htable⟩ := htables core
  generalize dropReaders u1 core reads = u2 at hentry hdrop htable
  have hcore2 : coreOf u2 core = { coreOf u core with pilot := rest, table := table } := htable.trans (by rw [hcore])
  have hwaves : u2.waves = Tab.put u.waves p.wid (retiredWave p evs v) := by rw [hdrop, hset]
  have hparties : u2.parties = u.parties := by rw [hdrop, hset]
  have hmem : u2.mem = u.mem := by rw [hdrop, hset]
  have hacc : u2.acc = u.acc := by rw [hdrop, hset]
  obtain ⟨parties, hdone⟩ := doneMs_moved u2 lid party p.ms
  have hnumber : ∀ c n, p.ms = some (c, n) → ∃ x, partyOf (doneMs u2 lid party p.ms) lid party = some x ∧ n ∈ (msOf x c).done := fun c n hms => by
    rw [hms]
    exact finishMs_done (by rw [partyOf, hparties]; exact hq) c n
  rw [hdone] at hnumber ⊢
  have hcore3 : coreOf (bump { u2 with parties := parties }) core = coreOf u2 core := rfl
  refine ⟨?_, hmem, hacc, ?_, fun x hx => ?_, hnumber, fun o => (hentry o).trans ?_, tileRowsOf_congr ?_ ?_, ?_⟩
  · rw [hcore3, hcore2]
  · exact (congrArg (Tab.find · p.wid) hwaves).trans (Tab.find_put_same ..)
  · exact (congrArg (Tab.find · x) hwaves).trans (Tab.find_put_ne _ _ _ _ hx)
  · rw [entryOf, hcore, entryOf]
  · rw [hcore3, hcore2]
  · rw [hcore3, hcore2]
  · rw [hcore3, hcore2]

/-! ### What a result leaves as it was -/

/-- The error counters of the slices are no state of tiles (R172, R173). -/
theorem countDets_moved (s : State) (core lvl : Nat) (dets : List Nat) : ∃ slerr slices dies,
    countDets s core lvl dets = { modCore s core (fun c => { c with slerr := slerr, slices := slices }) with dies := dies } := ⟨_, _, _, rfl⟩

/-- Whatever an operation's result is, memory and the other waves stay, its wave keeps all but its vector registers, and READERS stay. -/
structure ResultKept (s u : State) (core wid : Nat) : Prop where
  mem : u.mem = s.mem
  party : ∀ lid p q, partyOf s lid p = some q → ∃ x, partyOf u lid p = some x
  others : ∀ x, x ≠ wid → waveOf u x = waveOf s x
  wave : ∀ w, waveOf s wid = some w → w.st ≠ .halted → ∃ v, waveOf u wid = some v ∧ VectorsMoved w v
  readers : ∀ o, (entryOf u core o).readers = (entryOf s core o).readers

namespace ResultKept

variable {s t u : State} {core wid : Nat}

theorem trans_table (h : ResultKept s t core wid) (hmem : u.mem = t.mem) (hparties : u.parties = t.parties) (hwaves : u.waves = t.waves)
    (hreaders : ∀ o, (entryOf u core o).readers = (entryOf t core o).readers) : ResultKept s u core wid where
  mem := hmem.trans h.mem
  party lid p q hq := by rw [partyOf, hparties]; exact h.party lid p q hq
  others x hx := by rw [waveOf, hwaves]; exact h.others x hx
  wave w hw hst := by rw [waveOf, hwaves]; exact h.wave w hw hst
  readers o := (hreaders o).trans (h.readers o)

theorem refl (s : State) (core wid : Nat) : ResultKept s s core wid :=
  ⟨rfl, fun _ _ q hq => ⟨q, hq⟩, fun _ _ => rfl, fun w hw _ => ⟨w, hw, _, _, rfl⟩, fun _ => rfl⟩

theorem modCore (h : ResultKept s t core wid) {f : Core → Core} (hf : ∀ x, (f x).table = x.table) : ResultKept s (modCore t core f) core wid :=
  h.trans_table rfl rfl rfl fun o => by rw [entryOf, coreOf_modCore_same, hf, entryOf]

theorem setRows (h : ResultKept s t core wid) (c : Nat) (r : TileRows) : ResultKept s (setRows t core c r) core wid :=
  h.modCore fun x => by split <;> rfl

theorem putImg (h : ResultKept s t core wid) (o : Nat) (bs : List Byte) : ResultKept s (putImg t core o bs) core wid := h.modCore fun _ => rfl

theorem fillDone (h : ResultKept s t core wid) (o fmtt : Nat) (ort : Bool) : ResultKept s (fillDone t core o fmtt ort) core wid := by
  refine h.trans_table rfl rfl rfl fun x => ?_
  rw [Machine.fillDone, entryOf_modEntry]
  split
  · next hx => rw [hx]
  · rfl

theorem countDets (h : ResultKept s t core wid) (lvl : Nat) (dets : List Nat) : ResultKept s (countDets t core lvl dets) core wid := by
  obtain ⟨slerr, slices, dies, hdets⟩ := countDets_moved t core lvl dets
  rw [hdets]
  exact (h.modCore (f := fun c => { c with slerr := slerr, slices := slices }) fun _ => rfl).trans_table rfl rfl rfl fun _ => rfl

end ResultKept

theorem modParty_some {s : State} {lid p : Nat} {q : Party} (hq : partyOf s lid p = some q) (l x : Nat) (f : Party → Party) :
    ∃ u, partyOf (modParty s l x f) lid p = some u := by
  unfold modParty
  split
  · rw [partyOf, setParty, Tab.find_put]
    split
    · exact ⟨_, rfl⟩
    · exact ⟨q, hq⟩
  · exact ⟨q, hq⟩

theorem doneMs_party {s : State} {lid p : Nat} {q : Party} (hq : partyOf s lid p = some q) (l x : Nat) (m : Option (Nat × Nat)) :
    ∃ u, partyOf (doneMs s l x m) lid p = some u := by
  unfold doneMs
  split
  · exact modParty_some hq ..
  · exact ⟨q, hq⟩

theorem tileAccept_party {s : State} {lid p : Nat} {q : Party} (hq : partyOf s lid p = some q) (id : Nat) :
    ∃ u, partyOf (tileAccept s id) lid p = some u := by
  unfold tileAccept
  split
  · exact ⟨q, hq⟩
  · split
    · extract_lets s1
      have hq1 : partyOf s1 lid p = some q := hq
      split
      · exact modParty_some hq1 ..
      · exact ⟨q, hq1⟩
    · exact ⟨q, hq⟩

theorem fillStore_party {s : State} {lid p : Nat} {q : Party} (hq : partyOf s lid p = some q) (id : Nat) (a : Acc) (bs : List Byte) :
    ∃ u, partyOf (fillStore s id a bs) lid p = some u := by
  unfold fillStore
  split
  · exact doneMs_party hq ..
  · extract_lets s1
    have hq1 : partyOf (setAcc s id { a with pieces := sliceData a.pieces bs }) lid p = some q := hq
    split <;> exact tileAccept_party hq1 id

/-- A tile store that is given its bytes changes accesses, parties and the words of L1 alone. -/
theorem fillStore_moved (s : State) (id : Nat) (a : Acc) (bs : List Byte) : ∃ acc parties cores,
    fillStore s id a bs = { s with acc := acc, parties := parties, cores := cores } ∧
      ∀ k, ∃ l1, coreOf (fillStore s id a bs) k = { coreOf s k with l1 := l1 } := by
  cases hloc : a.loc with
  | true =>
    obtain ⟨parties, hfill⟩ := fillStore_local (s := s) (id := id) hloc bs
    exact ⟨_, _, _, hfill, fun k => ⟨_, by rw [hfill]; rfl⟩⟩
  | false =>
    obtain ⟨acc, parties, haccept⟩ := tileAccept_moved (setAcc s id { a with pieces := sliceData a.pieces bs }) id
    rw [fillStore_of_global hloc, haccept]
    dsimp only
    split
    · refine ⟨_, _, _, rfl, fun k => ?_⟩
      rw [eccL1Clear, coreOf_modCore]
      split
      · next hk => exact ⟨_, by rw [hk]; rfl⟩
      · exact ⟨_, rfl⟩
    · exact ⟨_, _, _, rfl, fun k => ⟨_, rfl⟩⟩

theorem ResultKept.fillStore (s : State) (core wid id : Nat) (a : Acc) (bs : List Byte) : ResultKept s (fillStore s id a bs) core wid := by
  obtain ⟨acc, parties, cores, hfill, hcore⟩ := fillStore_moved s id a bs
  obtain ⟨l1, hl1⟩ := hcore core
  have hwaves : (Machine.fillStore s id a bs).waves = s.waves := by rw [hfill]
  refine ⟨by rw [hfill], fun lid p q hq => fillStore_party hq .., fun x _ => by rw [waveOf, hwaves, waveOf], fun w hw _ => ⟨w, ?_, _, _, rfl⟩,
    fun o => by rw [entryOf, hl1, entryOf]⟩
  rw [waveOf, hwaves]
  exact hw

/-- What TMOVV writes to vector registers: rows of an accumulator. -/
def movedRows (s : State) (core : Nat) (f : TMovvF) : List RegWrite :=
  (List.range (tcount f.n)).map fun q =>
    .v f.cl (f.a.toNat + q) (BitVec.allOnes 32) (Lanes.of fun x => elemAt s core f.c.toNat (4 * f.row4.toNat + q) x.val)

theorem movedRows_vectors (s : State) (core : Nat) (f : TMovvF) : ∀ x ∈ movedRows s core f, ∃ cl n m v, x = .v cl n m v := fun x hx => by
  obtain ⟨q, -, rfl⟩ := List.mem_map.1 hx
  exact ⟨_, _, _, _, rfl⟩

theorem ResultKept.landNow {s : State} {wid : Nat} {w : Wave} (hw : waveOf s wid = some w) (hst : w.st ≠ .halted) (core : Nat) {xs : List RegWrite}
    (hxs : ∀ x ∈ xs, ∃ cl n m v, x = .v cl n m v) : ResultKept s (modReach s wid fun w => landNow w xs) core wid := by
  rw [modReach_eq hw hst]
  refine ⟨rfl, fun _ _ q hq => ⟨q, hq⟩, fun x hx => (waveOf_setWave ..).trans (if_neg hx), fun v hv _ => ?_, fun _ => rfl⟩
  obtain rfl := Option.some.inj (hw.symm.trans hv)
  exact ⟨_, (waveOf_setWave ..).trans (if_pos rfl), landNow_vector xs w hxs⟩

/-! ### The result of each operation (R153 to R161) -/

section
variable (s : State) (core : Nat) (w : Wave)

/-- The number of an accumulator or partial (R153). -/
def zeroTarget (t : TZTarget) : Nat := match t with | .acc c => c.toNat | .part q => 16 + q.toNat

def zeroRows : TileRows := (List.range 32).map fun i => (i, knownRow (Lanes.all 0))

/-- Lines of n slots from o on, as operands. -/
def slotLines (o n : Nat) (f : Fmt) : List (List (List FVal)) := (List.range n).map fun q => operandLines (slotImg s core (o + q)) f

def mmaCell (f : TMmaF) (i j : Nat) : Nat × List Ev :=
  mmaElem s.serial f.fmt (levelOf s w.lid) (undervolted s core (levelOf s w.lid)) (slotLines s core f.oa.toNat (tcount f.n) f.fmt)
    (slotLines s core f.ob.toNat (tcount f.n) f.fmt) i j (elemAt s core f.c.toNat i j).toNat

def bmmCell (f : TBmmF) (i j : Nat) : Nat × List Ev :=
  (bmmElem (codeLines (slotImg s core f.oa.toNat)) (codeLines (slotImg s core f.ob.toNat)) i j, [])

def scaSum (f : TScacF) (i j : Nat) : Rounded :=
  scacElem (scaleWord (slotImg s core f.oa.toNat) i) (scaleWord (slotImg s core f.ob.toNat) j) (elemAt s core (16 + f.p.toNat) i j).toNat
    (elemAt s core f.c.toNat i j).toNat

def scaCell (f : TScacF) (i j : Nat) : Nat × List Ev := ((scaSum s core f i j).bits, (scaSum s core f i j).ev.toList)

def mmaoCell (f : TMmaoF) (i j : Nat) : Nat × List Ev :=
  if i < 16 ∧ j < 16 then
    mmaoElem s.serial (levelOf s w.lid) (undervolted s core (levelOf s w.lid)) (operandLines (slotImg s core f.oa.toNat) .bf16)
      (operandLines (slotImg s core f.ob.toNat) .bf16) i j (elemAt s core f.c.toNat i j).toNat
  else (0, [])

/-- The image of the blocks that TQUANT makes (R157). -/
def quantImg (f : TQuantF) (typ : Nat) : List Byte :=
  blocksImg ((List.range 32).map fun i => quantBlock typ f.had (accLine s core f.c.toNat 8 f.kc i))

/-- The memory image of a slot that holds blocks. -/
def quantBytes (g : Img) (kc : Bool) : List Byte := (List.range (tileRows false .fp4 kc).1).flatMap (slotRow g .fp4 kc) ++ bytesFrom g 4096 64

/-- Line i that TCVT makes (R158). -/
def cvtBytes (f : TCvtF) (i : Nat) : List Byte :=
  (cvtLine f.fmt f.sat (accLine s core f.c.toNat (if f.fmt = .bf16 ∨ f.fmt = .f16 then 2 else 4) f.kc i)).1

def cvtImg (f : TCvtF) : List Byte := (List.range 32).flatMap (cvtBytes s core f) ++ leBytes 64 0

/-- Rows of an accumulator with registers' lanes put over some of them (R159). -/
def rowsMovedIn (f : TMovvF) (rows : List Lanes) : TileRows :=
  ((List.range rows.length).zip rows).foldl (fun t e => Tab.put t (4 * f.row4.toNat + e.1) (knownRow e.2)) (tileRowsOf s core f.c.toNat)

variable {s core w} {p : PilotOp}

theorem pilotEffect_zero {t : TZTarget} (h : p.op = .zero t) : (pilotEffect s core w p).1 = setRows s core (zeroTarget t) zeroRows := by
  rw [pilotEffect, h]
  cases t <;> rfl

theorem pilotEffect_mma {f : TMmaF} (h : p.op = .mma f) : ∃ dets, (pilotEffect s core w p).1 =
    countDets (setRows s core f.c.toNat (makeRows (mmaCell s core w f)).1) core (levelOf s w.lid) dets := by
  rw [pilotEffect, h]
  exact ⟨_, rfl⟩

theorem pilotEffect_bmm {f : TBmmF} (h : p.op = .bmm f) : (pilotEffect s core w p).1 = setRows s core (16 + f.p.toNat) (makeRows (bmmCell s core f)).1 := by
  rw [pilotEffect, h]
  rfl

theorem pilotEffect_sca {f : TScacF} (h : p.op = .sca f) : (pilotEffect s core w p).1 = setRows s core f.c.toNat (makeRows (scaCell s core f)).1 := by
  rw [pilotEffect, h]
  rfl

theorem pilotEffect_quant_slot {f : TQuantF} {typ id : Nat} {o : BitVec 5} (h : p.op = .quant f typ id) (hdest : f.dest = .slot o) :
    (pilotEffect s core w p).1 = fillDone (putImg s core o.toNat (quantImg s core f typ)) core o.toNat 7 f.kc := by
  rw [pilotEffect, h]
  dsimp only
  rw [hdest]
  rfl

theorem pilotEffect_quant_mem {f : TQuantF} {typ id : Nat} {seg : BitVec 6} {imm : Bool} (h : p.op = .quant f typ id) (hdest : f.dest = .mem seg imm) :
    (pilotEffect s core w p).1 = match accOf s id with
      | some a => fillStore s id a (quantBytes (quantImg s core f typ).toArray f.kc)
      | none => s := by
  rw [pilotEffect, h]
  dsimp only
  rw [hdest]
  dsimp only
  cases accOf s id <;> rfl

theorem pilotEffect_cvt {f : TCvtF} (h : p.op = .cvt f) :
    (pilotEffect s core w p).1 = fillDone (putImg s core f.oa.toNat (cvtImg s core f)) core f.oa.toNat (fmtCode f.fmt) f.kc := by
  rw [pilotEffect, h]
  dsimp only
  rw [List.flatMap_map]
  rfl

theorem pilotEffect_movv_toAcc {f : TMovvF} {rows : List Lanes} (h : p.op = .movv f rows) (hf : f.toAcc = true) :
    (pilotEffect s core w p).1 = setRows s core f.c.toNat (rowsMovedIn s core f rows) := by
  rw [pilotEffect, h]
  dsimp only
  rw [if_pos hf]
  rfl

theorem pilotEffect_movv_toReg {f : TMovvF} {rows : List Lanes} (h : p.op = .movv f rows) (hf : f.toAcc = false) :
    (pilotEffect s core w p).1 = modReach s p.wid fun w => landNow w (movedRows s core f) := by
  rw [pilotEffect, h]
  dsimp only
  rw [if_neg (ne_true_of_eq_false hf)]
  rfl

theorem pilotEffect_mmao {f : TMmaoF} (h : p.op = .mmao f) : ∃ dets, (pilotEffect s core w p).1 =
    countDets (setRows s core f.c.toNat (quadrant (tileRowsOf s core f.c.toNat) (makeRows (mmaoCell s core w f)).1)) core (levelOf s w.lid) dets := by
  rw [pilotEffect, h]
  exact ⟨_, rfl⟩

end

/-- Whatever the operation, its result leaves memory, READERS and the waves as the rules of its kind say (R149). -/
theorem pilotEffect_kept {s : State} {p : PilotOp} {w : Wave} (hw : waveOf s p.wid = some w) (hst : w.st ≠ .halted) (core : Nat) :
    ResultKept s (pilotEffect s core w p).1 core p.wid := by
  have hs := ResultKept.refl s core p.wid
  cases hop : p.op with
  | zero t =>
    rw [pilotEffect_zero hop]
    exact hs.setRows ..
  | mma f =>
    obtain ⟨dets, heffect⟩ := pilotEffect_mma (s := s) (core := core) (w := w) hop
    rw [heffect]
    exact (hs.setRows ..).countDets ..
  | bmm f =>
    rw [pilotEffect_bmm hop]
    exact hs.setRows ..
  | sca f =>
    rw [pilotEffect_sca hop]
    exact hs.setRows ..
  | quant f typ id =>
    cases hdest : f.dest with
    | slot o =>
      rw [pilotEffect_quant_slot hop hdest]
      exact (hs.putImg ..).fillDone ..
    | mem seg imm =>
      rw [pilotEffect_quant_mem hop hdest]
      split
      · exact .fillStore ..
      · exact hs
  | cvt f =>
    rw [pilotEffect_cvt hop]
    exact (hs.putImg ..).fillDone ..
  | movv f rows =>
    cases hf : f.toAcc with
    | true =>
      rw [pilotEffect_movv_toAcc hop hf]
      exact hs.setRows ..
    | false =>
      rw [pilotEffect_movv_toReg hop hf]
      exact .landNow hw hst core (movedRows_vectors s core f)
  | mmao f =>
    obtain ⟨dets, heffect⟩ := pilotEffect_mmao (s := s) (core := core) (w := w) hop
    rw [heffect]
    exact (hs.setRows ..).countDets ..

/-! ### The accumulator of an operation -/

/-- The accumulator or partial that an operation writes. -/
def pilotDest (p : POp) : Option Nat :=
  match p with
  | .zero (.acc c) => some c.toNat
  | .zero (.part n) => some (16 + n.toNat)
  | .mma f => some f.c.toNat
  | .bmm f => some (16 + f.p.toNat)
  | .sca f => some f.c.toNat
  | .mmao f => some f.c.toNat
  | .movv f _ => if f.toAcc then some f.c.toNat else none
  | _ => none

/-- A change of a core that keeps its accumulators and partials. -/
theorem tileRowsOf_modCore (s : State) (core : Nat) {f : Core → Core} (hf : ∀ x, (f x).accs = x.accs ∧ (f x).parts = x.parts) (c : Nat) :
    tileRowsOf (modCore s core f) core c = tileRowsOf s core c :=
  tileRowsOf_congr (by rw [coreOf_modCore_same, (hf _).1]) (by rw [coreOf_modCore_same, (hf _).2]) c

theorem tileRowsOf_countDets (s : State) (core lvl : Nat) (dets : List Nat) (c : Nat) :
    tileRowsOf (countDets s core lvl dets) core c = tileRowsOf s core c := by
  obtain ⟨slerr, slices, dies, hdets⟩ := countDets_moved s core lvl dets
  rw [hdets]
  exact tileRowsOf_modCore s core (f := fun c => { c with slerr := slerr, slices := slices }) (fun _ => ⟨rfl, rfl⟩) c

theorem tileRowsOf_fillDone (s : State) (core o fmtt : Nat) (ort : Bool) (c : Nat) : tileRowsOf (fillDone s core o fmtt ort) core c = tileRowsOf s core c :=
  tileRowsOf_modCore s core (f := fun x => { x with table := Tab.put x.table o _ }) (fun _ => ⟨rfl, rfl⟩) c

theorem tileRowsOf_putImg (s : State) (core o : Nat) (bs : List Byte) (c : Nat) : tileRowsOf (putImg s core o bs) core c = tileRowsOf s core c :=
  tileRowsOf_modCore s core (f := fun x => { x with images := Tab.put x.images o (tabOf bs) }) (fun _ => ⟨rfl, rfl⟩) c

theorem tileRowsOf_fillStore (s : State) (id : Nat) (a : Acc) (bs : List Byte) (core c : Nat) :
    tileRowsOf (fillStore s id a bs) core c = tileRowsOf s core c := by
  obtain ⟨_, _, _, -, hcore⟩ := fillStore_moved s id a bs
  obtain ⟨l1, hl1⟩ := hcore core
  exact tileRowsOf_congr (by rw [hl1]) (by rw [hl1]) c

/-- No accumulator but an operation's own changes. -/
theorem pilotEffect_rows {s : State} {p : PilotOp} {w : Wave} (hw : waveOf s p.wid = some w) (hst : w.st ≠ .halted) (core : Nat) {c : Nat}
    (hc : pilotDest p.op ≠ some c) : tileRowsOf (pilotEffect s core w p).1 core c = tileRowsOf s core c := by
  have hput : ∀ d r, some d ≠ some c → tileRowsOf (setRows s core d r) core c = tileRowsOf s core c := fun d r hd =>
    (tileRowsOf_setRows ..).trans (if_neg fun h => hd (congrArg some h.symm))
  generalize hop : p.op = op at hc
  cases op with
  | zero t =>
    rw [pilotEffect_zero hop]
    cases t <;> exact hput _ _ hc
  | mma f =>
    obtain ⟨dets, heffect⟩ := pilotEffect_mma (s := s) (core := core) (w := w) hop
    rw [heffect, tileRowsOf_countDets, hput _ _ (hc)]
  | bmm f => rw [pilotEffect_bmm hop, hput _ _ (hc)]
  | sca f => rw [pilotEffect_sca hop, hput _ _ (hc)]
  | quant f typ id =>
    cases hdest : f.dest with
    | slot o => rw [pilotEffect_quant_slot hop hdest, tileRowsOf_fillDone, tileRowsOf_putImg]
    | mem seg imm =>
      rw [pilotEffect_quant_mem hop hdest]
      split
      · exact tileRowsOf_fillStore ..
      · rfl
  | cvt f => rw [pilotEffect_cvt hop, tileRowsOf_fillDone, tileRowsOf_putImg]
  | movv f rows =>
    cases hf : f.toAcc with
    | true =>
      rw [pilotDest, if_pos hf] at hc
      rw [pilotEffect_movv_toAcc hop hf, hput _ _ hc]
    | false =>
      rw [pilotEffect_movv_toReg hop hf, modReach_eq hw hst]
      rfl
  | mmao f =>
    obtain ⟨dets, heffect⟩ := pilotEffect_mmao (s := s) (core := core) (w := w) hop
    rw [heffect, tileRowsOf_countDets, hput _ _ (hc)]

end Sys2Proof.Machine

/-! PROOF. The elements that Pilot operations leave in accumulators and registers (R153 to R156, R159, R161, R163 to R165). -/

namespace Sys2Proof.Machine

/-! ### TZERO and TMOVV (R153, R159) -/

theorem elemAt_zeroRows {s : State} {core c i j : Nat} (h : tileRowsOf s core c = zeroRows) (hi : i < 32) (hj : j < 32) : elemAt s core c i j = 0 := by
  have hrow : Tab.find (tileRowsOf s core c) i = some (knownRow (Lanes.all 0)) :=
    h ▸ Tab.find_map_self (fun _ => knownRow (Lanes.all 0)) (List.mem_range.2 hi)
  exact (elemAt_known hrow j).trans (Lanes.all_at 0 hj)

/-- Rows that are put above row k leave it. -/
theorem find_putRows_below (r0 : Nat) {k : Nat} : ∀ (rows : List Lanes) (a : Nat) (t : TileRows), k < r0 + a →
    Tab.find (((List.range' a rows.length).zip rows).foldl (fun t e => Tab.put t (r0 + e.1) (knownRow e.2)) t) k = Tab.find t k
  | [], _, _, _ => rfl
  | r :: rows, a, t, hk => by
    refine (find_putRows_below r0 rows (a + 1) (Tab.put t (r0 + a) (knownRow r)) (by omega)).trans ?_
    exact Tab.find_put_ne _ _ _ _ (by omega)

theorem find_putRows (r0 : Nat) {n : Nat} {r : Lanes} : ∀ (rows : List Lanes) (a : Nat) (t : TileRows), rows[n]? = some r →
    Tab.find (((List.range' a rows.length).zip rows).foldl (fun t e => Tab.put t (r0 + e.1) (knownRow e.2)) t) (r0 + (a + n)) = some (knownRow r)
  | x :: rows, a, t, h => by
    cases n with
    | zero =>
      obtain rfl := Option.some.inj h
      refine (find_putRows_below r0 rows (a + 1) (Tab.put t (r0 + a) (knownRow x)) (by omega)).trans ?_
      exact Tab.find_put_same ..
    | succ n =>
      have hrest := find_putRows r0 rows (a + 1) (Tab.put t (r0 + a) (knownRow x)) h
      rwa [Nat.add_right_comm, Nat.add_assoc a n 1] at hrest

theorem elemAt_rowsMovedIn {s t : State} {core : Nat} {f : TMovvF} {rows : List Lanes} (h : tileRowsOf t core f.c.toNat = rowsMovedIn s core f rows) {n : Nat}
    {r : Lanes} (hr : rows[n]? = some r) (j : Nat) : elemAt t core f.c.toNat (4 * f.row4.toNat + n) j = r.at j := by
  refine elemAt_known ?_ j
  have hrow := find_putRows (4 * f.row4.toNat) rows 0 (tileRowsOf s core f.c.toNat) hr
  rw [Nat.zero_add, ← List.range_eq_range'] at hrow
  rw [h, rowsMovedIn, hrow]

/-- Vector registers that are written whole, one after another. -/
theorem holdV_landNow_rows (w : Wave) (cl : Cluster) (d : Nat) (g : Nat → Lanes) {k : Nat} : ∀ n : Nat, k < n →
    (holdV (landNow w ((List.range n).map fun q => .v cl (d + q) (BitVec.allOnes 32) (g q))) cl (d + k)).und = 0 ∧
      ∀ j, j < 32 → (holdV (landNow w ((List.range n).map fun q => .v cl (d + q) (BitVec.allOnes 32) (g q))) cl (d + k)).val.at j = (g k).at j
  | n + 1, hk => by
    have hlast : landNow w ((List.range (n + 1)).map fun q => .v cl (d + q) (BitVec.allOnes 32) (g q)) =
        applyWrite (landNow w ((List.range n).map fun q => .v cl (d + q) (BitVec.allOnes 32) (g q))) (.v cl (d + n) (BitVec.allOnes 32) (g n)) false := by
      rw [List.range_succ, List.map_append, landNow_append]
      rfl
    rw [hlast, holdV_applyWrite]
    by_cases hkn : k = n
    · subst hkn
      rw [if_pos ⟨rfl, rfl⟩]
      refine ⟨by simp, fun j hj => ?_⟩
      rw [Lanes.merge_at _ _ _ hj, if_pos (by rw [BitVec.getLsbD_allOnes]; exact decide_eq_true hj)]
    · rw [if_neg (by omega)]
      exact holdV_landNow_rows w cl d g n (by omega)

theorem holdV_movedRows (s : State) (core : Nat) (f : TMovvF) (w : Wave) {n j : Nat} (hn : n < tcount f.n) (hj : j < 32) :
    (holdV (landNow w (movedRows s core f)) f.cl (f.a.toNat + n)).und = 0 ∧
      (holdV (landNow w (movedRows s core f)) f.cl (f.a.toNat + n)).val.at j = elemAt s core f.c.toNat (4 * f.row4.toNat + n) j := by
  obtain ⟨hund, hval⟩ := holdV_landNow_rows w f.cl f.a.toNat (fun q => Lanes.of fun x => elemAt s core f.c.toNat (4 * f.row4.toNat + q) x.val) _ hn
  exact ⟨hund, (hval j hj).trans (Lanes.of_at _ hj)⟩

/-! ### TBMM and TSCAC (R155, R156) -/

theorem codeLines_getD (g : Img) {i : Nat} (hi : i < 32) :
    (codeLines g).getD i [] = (List.range 256).map fun k => code8 (scTyp (scaleWord g i)) (lineElem g .fp4 i k) := by
  simp [codeLines, List.getD_eq_getElem?_getD, hi]

/-- The partial of two blocks is the exact sum of the products of their codes, rounded once. -/
theorem bmmElem_eq (ga gb : Img) {i j : Nat} (hi : i < 32) (hj : j < 32) :
    let sum := ((List.range 256).map fun k => code8 (scTyp (scaleWord ga i)) (lineElem ga .fp4 i k) *
      code8 (scTyp (scaleWord gb j)) (lineElem gb .fp4 j k)).sum
    bmmElem (codeLines ga) (codeLines gb) i j = (roundVal f32F .rne false 0 (.fin (decide (sum < 0)) sum.natAbs (-6))).bits := by
  have hsum : (List.zipWith (fun x y => x * y) ((codeLines ga).getD i []) ((codeLines gb).getD j [])).foldl (fun a x => a + x) (0 : Int) =
      ((List.range 256).map fun k => code8 (scTyp (scaleWord ga i)) (lineElem ga .fp4 i k) *
        code8 (scTyp (scaleWord gb j)) (lineElem gb .fp4 j k)).sum := by
    rw [codeLines_getD ga hi, codeLines_getD gb hj, List.zipWith_map_left, List.zipWith_map_right, List.zipWith_self, List.sum_eq_foldl]
  simp only [bmmElem, hsum]

/-- An underflow of a tile sum is no event, and changes no bit (R129). -/
theorem noUnder_bits (r : Rounded) : (noUnder r).bits = r.bits := by
  unfold noUnder
  split <;> rfl

/-! ### The groups of TMMA (R154, R163 to R165) -/

theorem delivered_delivers (serial : Nat) {f : Fmt} {lvl : Nat} {und : List Nat} (hund : lvl = 3 → und = []) (tag : Nat) (x y : FVal) :
    Delivers f lvl x y (delivered (sliceDev serial f lvl und tag x y) x y) := by
  unfold Delivers delivered
  split
  · next nx mx ex ny my ey =>
    obtain ⟨hlow, hhigh⟩ := Laws.sliceDev_bound serial f lvl und tag (.fin nx (mx + 1) ex) (.fin ny (my + 1) ey)
    have hmag : prodMag (.fin nx (mx + 1) ex) (.fin ny (my + 1) ey) = (mx + 1) * (my + 1) := rfl
    have hfull : lvl = 3 → sliceDev serial f lvl und tag (.fin nx (mx + 1) ex) (.fin ny (my + 1) ey) = 0 := fun h => by
      rw [hund h]
      exact Laws.sliceDev_nil ..
    generalize sliceDev serial f lvl und tag _ _ = dev at hlow hhigh hfull
    rw [hmag] at hlow
    refine ⟨_, rfl, fun h => ?_, ?_⟩
    · rw [hfull h, Int.add_zero, Int.toNat_natCast]
    · have hcast : ((mx : Int) + 1) * (my + 1) = (((mx + 1) * (my + 1) : Nat) : Int) := by push_cast; rfl
      rw [hcast]
      omega
  · next hother =>
    split
    · exact (hother _ _ _ _ _ _ rfl rfl).elim
    · rfl

/-- What the array delivers for the products of a group. -/
def deliveredGroup (serial : Nat) (f : Fmt) (lvl : Nat) (und : List Nat) (tag : Nat) (xs ys : List FVal) : List (Option FVal) :=
  ((List.range xs.length).zip (xs.zip ys)).map fun e => delivered (sliceDev serial f lvl und (tag + e.1) e.2.1 e.2.2) e.2.1 e.2.2

theorem length_deliveredGroup (serial : Nat) (f : Fmt) (lvl : Nat) (und : List Nat) (tag : Nat) {xs ys : List FVal} (h : xs.length = ys.length) :
    (deliveredGroup serial f lvl und tag xs ys).length = xs.length := by simp [deliveredGroup, h]

theorem getElem?_deliveredGroup (serial : Nat) (f : Fmt) (lvl : Nat) (und : List Nat) (tag : Nat) {xs ys : List FVal} {k : Nat} {x y : FVal}
    (hx : xs[k]? = some x) (hy : ys[k]? = some y) :
    (deliveredGroup serial f lvl und tag xs ys)[k]? = some (delivered (sliceDev serial f lvl und (tag + k) x y) x y) := by
  obtain ⟨hk, -⟩ := List.getElem?_eq_some_iff.1 hx
  rw [deliveredGroup, List.getElem?_map, List.getElem?_zip_eq_some (z := (k, x, y)) |>.2 ⟨List.getElem?_range hk, List.getElem?_zip_eq_some.2 ⟨hx, hy⟩⟩]
  rfl

/-- A group's sum is the exact sum of what is delivered, or a NaN (log 50). -/
theorem groupSum_eq (serial : Nat) (f : Fmt) (lvl : Nat) (und : List Nat) (tag : Nat) (xs ys : List FVal) :
    groupSum serial f lvl und tag xs ys =
      if xs.any FVal.isNan || ys.any FVal.isNan then some .nan else exactSum (deliveredGroup serial f lvl und tag xs ys) := by
  rw [groupSum, exactSum, deliveredGroup, List.foldl_map]
  rfl

/-- A group's sum is added with one rounding, or wraps (R154). -/
theorem addInt_or_addGroup_bits (f : Fmt) (c : Nat) (sum : Option FVal) :
    (if f = .s8 ∨ f = .n8 then addInt c sum else addGroup c sum).bits = groupAdded f c sum := by
  unfold groupAdded
  split
  · cases sum with
    | none => rfl
    | some v => cases v <;> rfl
  · exact noUnder_bits _

/-- The groups that TMMA adds, one after another, make the sums of R154. -/
theorem mmaGo_sums (serial : Nat) {f : Fmt} {lvl : Nat} {und : List Nat} (hund : lvl = 3 → und = []) : ∀ (gs : List (List FVal × List FVal)) (tag c : Nat),
    (∀ g ∈ gs, g.1.length = g.2.length) → MmaSums f lvl gs c (mmaGo serial f lvl und tag gs c).1
  | [], _, _, _ => rfl
  | g :: gs, tag, c, h => by
    refine ⟨deliveredGroup serial f lvl und tag g.1 g.2, length_deliveredGroup _ _ _ _ _ (h g (List.mem_cons_self ..)), fun k x y hx hy => ?_, ?_⟩
    · exact ⟨_, getElem?_deliveredGroup _ _ _ _ _ hx hy, delivered_delivers serial hund ..⟩
    · rw [← groupSum_eq, ← addInt_or_addGroup_bits]
      exact mmaGo_sums serial hund gs (tag + 32) _ fun g' hg => h g' (List.mem_cons_of_mem _ hg)

/-- The lines of a slot, cut into runs of 32. -/
theorem chunks_map (f : Nat → FVal) : ∀ (n a : Nat), chunks n ((List.range' a (32 * n)).map f) =
    (List.range n).map fun g => (List.range 32).map fun k => f (a + (32 * g + k))
  | 0, _ => rfl
  | n + 1, a => by
    have hsplit : List.range' a (32 * (n + 1)) = List.range' a 32 ++ List.range' (a + 32) (32 * n) := by
      rw [List.range'_append_1, Nat.mul_succ, Nat.add_comm]
    have hlen : ((List.range' a 32).map f).length = 32 := by simp
    rw [chunks, hsplit, List.map_append, List.take_left' hlen, List.drop_left' hlen, chunks_map f n (a + 32), List.range_succ_eq_map (n := n), List.map_cons,
      List.map_map, List.range'_eq_map_range, List.map_map]
    congr 1
    refine List.map_congr_left fun g _ => ?_
    rw [Function.comp_apply]
    exact List.map_congr_left fun k _ => congrArg f (by omega)

/-- Line i of a slot as operands, cut into its groups. -/
theorem chunks_operandLines (s : State) (core o : Nat) (f : Fmt) {i : Nat} (hi : i < 32) :
    chunks (if fmtBits f = 16 then 2 else 4) ((operandLines (slotImg s core o) f).getD i []) =
      (List.range (if fmtBits f = 16 then 2 else 4)).map (lineGroup s core o f i) := by
  have hline : (operandLines (slotImg s core o) f).getD i [] =
      (List.range' 0 (32 * if fmtBits f = 16 then 2 else 4)).map fun k => tileDecode f (lineElem (slotImg s core o) f i k) := by
    rw [operandLines, List.getD_eq_getElem?_getD, List.getElem?_map, List.getElem?_range hi, ← List.range_eq_range']
    split <;> rfl
  rw [hline, chunks_map]
  simp only [Nat.zero_add]
  rfl

/-- The groups that TMMA forms of its slots are those of R154. -/
theorem pairGroups_eq (s : State) (core oa ob n : Nat) (f : Fmt) {i j : Nat} (hi : i < 32) (hj : j < 32) :
    pairGroups f (slotLines s core oa n f) (slotLines s core ob n f) i j = mmaGroups s core oa ob n f i j := by
  unfold pairGroups slotLines mmaGroups
  rw [List.zip_map', List.flatMap_map]
  refine List.flatMap_congr fun p _ => ?_
  dsimp only
  rw [chunks_operandLines s core _ f hi, chunks_operandLines s core _ f hj, List.zip_map']

theorem mem_mmaGroups {s : State} {core oa ob n : Nat} {f : Fmt} {i j : Nat} {g : List FVal × List FVal} (h : g ∈ mmaGroups s core oa ob n f i j) :
    g.1.length = g.2.length := by
  simp only [mmaGroups, List.mem_flatMap, List.mem_map] at h
  obtain ⟨p, -, x, -, rfl⟩ := h
  simp [lineGroup]

/-- No slice is undervolted at level 3 (R165). -/
theorem undervolted_of_full (s : State) (core : Nat) {lvl : Nat} (h : lvl = 3) : undervolted s core lvl = [] := h ▸ Laws.undervolted_full s core

/-- TMMA's element ends as the sums of its groups (R154). -/
theorem mmaCell_sums (s : State) (core : Nat) (w : Wave) (f : TMmaF) {i j : Nat} (hi : i < 32) (hj : j < 32) :
    MmaSums f.fmt (levelOf s w.lid) (mmaGroups s core f.oa.toNat f.ob.toNat (tcount f.n) f.fmt i j) (elemAt s core f.c.toNat i j).toNat
      (mmaCell s core w f i j).1 := by
  unfold mmaCell mmaElem
  rw [pairGroups_eq s core _ _ _ _ hi hj]
  exact mmaGo_sums _ (undervolted_of_full s core) _ _ _ fun g hg => mem_mmaGroups hg

/-! ### TMMAO (R161) -/

/-- A lone group of 16 products. -/
theorem mmaoElem_sums (s : State) (core lvl : Nat) (oa ob : Nat) {i j : Nat} (hi : i < 32) (hj : j < 32) (c : Nat) :
    MmaSums .bf16 lvl [((lineGroup s core oa .bf16 i 0).take 16, (lineGroup s core ob .bf16 j 0).take 16)] c
      (mmaoElem s.serial lvl (undervolted s core lvl) (operandLines (slotImg s core oa) .bf16) (operandLines (slotImg s core ob) .bf16) i j c).1 := by
  have hline : ∀ {o n : Nat}, n < 32 → ((operandLines (slotImg s core o) .bf16).getD n []).take 16 =
      (lineGroup s core o .bf16 n 0).take 16 := fun {o n} hn => by
    rw [operandLines, List.getD_eq_getElem?_getD, List.getElem?_map, List.getElem?_range hn, lineGroup]
    simp only [Option.map_some, Option.getD_some, ← List.map_take, List.take_range, Nat.mul_zero, Nat.zero_add]
    rfl
  unfold mmaoElem
  rw [hline hi, hline hj]
  exact mmaGo_sums s.serial (undervolted_of_full s core) [(_, _)] (65536 * (32 * i + j)) c fun g hg => by
    obtain rfl := List.mem_singleton.1 hg
    simp [lineGroup]

theorem mmaoCell_sums (s : State) (core : Nat) (w : Wave) (f : TMmaoF) {i j : Nat} (hi : i < 16) (hj : j < 16) :
    MmaSums .bf16 (levelOf s w.lid) [((lineGroup s core f.oa.toNat .bf16 i 0).take 16, (lineGroup s core f.ob.toNat .bf16 j 0).take 16)]
      (elemAt s core f.c.toNat i j).toNat (mmaoCell s core w f i j).1 := by
  rw [mmaoCell, if_pos ⟨hi, hj⟩]
  exact mmaoElem_sums s core _ _ _ (by omega) (by omega) _

/-- A row of the quadrant's accumulator. -/
def quadrantRow (new : TileRows) (i : Nat) (x : VReg) : VReg :=
  { val := Lanes.merge 0xFFFF (Tab.findD new i VReg.undef).val x.val, und := x.und &&& ~~~0xFFFF#32 }

/-- The quadrant takes rows below 16 of the new elements, and leaves the rows from 16 on (R161). -/
theorem find_quadrant (old new : TileRows) (i : Nat) : Tab.find (quadrant old new) i =
    if i < 16 then some (quadrantRow new i (Tab.findD old i VReg.undef)) else Tab.find old i := by
  have hsteps : ∀ n, Tab.find ((List.range n).foldl (fun t i => Tab.put t i (quadrantRow new i (Tab.findD old i VReg.undef))) old) i =
      if i < n then some (quadrantRow new i (Tab.findD old i VReg.undef)) else Tab.find old i := fun n => by
    induction n with
    | zero => rfl
    | succ n ih =>
      rw [List.range_succ, List.foldl_append, List.foldl_cons, List.foldl_nil, Tab.find_put, ih]
      by_cases hin : i = n
      · subst hin
        simp
      · rw [if_neg hin]
        exact if_congr (by omega) rfl rfl
  exact hsteps 16

theorem getLsbD_low16 (j : Nat) : BitVec.getLsbD (0xFFFF : Word) j = decide (j < 16) := Nat.testBit_two_pow_sub_one 16 j

theorem quadrantRow_low (new : TileRows) (i : Nat) (x : VReg) {j : Nat} (hj : j < 16) :
    (quadrantRow new i x).und.getLsbD j = false ∧ (quadrantRow new i x).val.at j = (Tab.findD new i VReg.undef).val.at j := by
  have hlow : BitVec.getLsbD (0xFFFF : Word) j = true := (getLsbD_low16 j).trans (decide_eq_true hj)
  refine ⟨?_, (Lanes.merge_at _ _ _ (by omega)).trans (if_pos hlow)⟩
  rw [quadrantRow, BitVec.getLsbD_and, BitVec.getLsbD_not, show (0xFFFF#32).getLsbD j = true from hlow, Bool.not_true, Bool.and_false, Bool.and_false]

theorem quadrantRow_high (new : TileRows) (i : Nat) (x : VReg) {j : Nat} (hj : 16 ≤ j) (hj' : j < 32) (hdef : x.und.getLsbD j = false) :
    (quadrantRow new i x).und.getLsbD j = false ∧ (quadrantRow new i x).val.at j = x.val.at j := by
  have hhigh : ¬ BitVec.getLsbD (0xFFFF : Word) j = true := by
    rw [getLsbD_low16, decide_eq_true_iff]
    omega
  refine ⟨?_, (Lanes.merge_at _ _ _ hj').trans (if_neg hhigh)⟩
  rw [quadrantRow, BitVec.getLsbD_and, hdef, Bool.false_and]

section
variable {s t : State} {core : Nat} {w : Wave} {f : TMmaoF}
  (h : tileRowsOf t core f.c.toNat = quadrant (tileRowsOf s core f.c.toNat) (makeRows (mmaoCell s core w f)).1)
include h

theorem elemAt_quadrant_inside {i j : Nat} (hi : i < 16) (hj : j < 16) : elemAt t core f.c.toNat i j = BitVec.ofNat 32 (mmaoCell s core w f i j).1 := by
  obtain ⟨hund, hval⟩ := quadrantRow_low (makeRows (mmaoCell s core w f)).1 i (Tab.findD (tileRowsOf s core f.c.toNat) i VReg.undef) hj
  rw [elemAt_defined ((h ▸ find_quadrant ..).trans (if_pos hi)) hund, hval, Tab.findD, find_makeRows _ (by omega), Option.getD_some]
  exact Lanes.of_at _ (by omega)

theorem elemAt_quadrant_outside {i j : Nat} (hj : j < 32) (hout : 16 ≤ i ∨ 16 ≤ j) {x : VReg} (hx : Tab.find (tileRowsOf s core f.c.toNat) i = some x)
    (hdef : x.und.getLsbD j = false) : elemAt t core f.c.toNat i j = x.val.at j := by
  by_cases hi : i < 16
  · obtain ⟨hund, hval⟩ := quadrantRow_high (makeRows (mmaoCell s core w f)).1 i x (by omega) hj hdef
    have hold : Tab.findD (tileRowsOf s core f.c.toNat) i VReg.undef = x := by rw [Tab.findD, hx, Option.getD_some]
    rw [← hval]
    exact elemAt_defined ((h ▸ find_quadrant ..).trans ((if_pos hi).trans (by rw [hold]))) hund
  · exact elemAt_defined (((h ▸ find_quadrant ..).trans (if_neg hi)).trans hx) hdef

end

/-! ### Signed bytes at full fidelity (R154) -/

/-- An integer as a value in units of 1. -/
def intVal (v : Int) : FVal := .fin (decide (v < 0)) v.natAbs 0

theorem tileDecode_s8 (x : Nat) : tileDecode .s8 x = intVal (toInt true 8 x) := rfl

/-- A sum that is the integer z. -/
def SumIs (a : Option FVal) (z : Int) : Prop := ∃ n m, a = some (.fin n m 0) ∧ finInt n m 0 0 = z

theorem finInt_units (n : Bool) (m : Nat) : finInt n m 0 0 = if n then -(m : Int) else m := by simp [finInt]

theorem finInt_sign (z : Int) : finInt (decide (z < 0)) z.natAbs 0 0 = z := by
  rw [finInt_units]
  split
  · next h =>
    have := of_decide_eq_true h
    omega
  · next h =>
    have : ¬ z < 0 := fun hz => h (decide_eq_true hz)
    omega

theorem sumIs_intVal (z : Int) : SumIs (some (intVal z)) z := ⟨_, _, rfl, finInt_sign z⟩

theorem SumIs.add {x y : FVal} {a b : Int} (hx : SumIs (some x) a) (hy : SumIs (some y) b) : SumIs (x.add false y) (a + b) := by
  obtain ⟨n, m, hx, rfl⟩ := hx
  obtain ⟨n', m', hy, rfl⟩ := hy
  obtain rfl := Option.some.inj hx
  obtain rfl := Option.some.inj hy
  simp only [FVal.add, Int.le_refl, if_true]
  generalize finInt n m 0 0 + finInt n' m' 0 0 = z
  split
  · next hz =>
    split <;> exact ⟨_, 0, rfl, by rw [finInt_units, hz]; split <;> rfl⟩
  · exact ⟨_, _, rfl, finInt_sign z⟩

/-- The array delivers the exact product of two integers where no slice deviates. -/
theorem delivered_exact (n n' : Bool) (m m' : Nat) : delivered 0 (.fin n m 0) (.fin n' m' 0) = some (.fin (n != n') (m * m') 0) := by
  cases m with
  | zero => rfl
  | succ m =>
    cases m' with
    | zero => rfl
    | succ m' => simp only [delivered, Int.add_zero, Int.toNat_natCast]

theorem finInt_mul (n n' : Bool) (m m' : Nat) : finInt (n != n') (m * m') 0 0 = finInt n m 0 0 * finInt n' m' 0 0 := by
  cases n <;> cases n' <;> simp [finInt_units]

theorem delivered_intVal (a b : Int) : SumIs (delivered 0 (intVal a) (intVal b)) (a * b) :=
  ⟨_, _, delivered_exact .., by rw [finInt_mul, finInt_sign, finInt_sign]⟩

/-- A group of integer operands. -/
def intGroup (ls : List (Int × Int)) : List FVal × List FVal := (ls.map fun x => intVal x.1, ls.map fun x => intVal x.2)

/-- The dot product of a group of integers. -/
def dot (ls : List (Int × Int)) : Int := (ls.map fun x => x.1 * x.2).sum

theorem deliveredGroup_ints (serial tag : Nat) (ls : List (Int × Int)) :
    deliveredGroup serial .s8 3 [] tag (intGroup ls).1 (intGroup ls).2 = ls.map fun x => delivered 0 (intVal x.1) (intVal x.2) := by
  have hzip : (intGroup ls).1.zip (intGroup ls).2 = ls.map fun x => (intVal x.1, intVal x.2) := by rw [intGroup, List.zip_map']
  have hsnd : ((List.range (intGroup ls).1.length).zip ((intGroup ls).1.zip (intGroup ls).2)).map Prod.snd = (intGroup ls).1.zip (intGroup ls).2 :=
    List.map_snd_zip (by simp [intGroup])
  calc deliveredGroup serial .s8 3 [] tag (intGroup ls).1 (intGroup ls).2
      = (((List.range (intGroup ls).1.length).zip ((intGroup ls).1.zip (intGroup ls).2)).map Prod.snd).map fun e => delivered 0 e.1 e.2 := by
        rw [List.map_map]
        rfl
    _ = ls.map fun x => delivered 0 (intVal x.1) (intVal x.2) := by
        rw [hsnd, hzip, List.map_map]
        rfl

/-- One more product of a sum in order. -/
def addProduct (a p : Option FVal) : Option FVal :=
  match a, p with
  | some x, some y => x.add false y
  | _, _ => none

theorem SumIs.addProduct {a p : Option FVal} {z y : Int} (ha : SumIs a z) (hp : SumIs p y) : SumIs (addProduct a p) (z + y) := by
  obtain ⟨n, m, rfl, hz⟩ := ha
  obtain ⟨n', m', rfl, hy⟩ := hp
  exact SumIs.add ⟨n, m, rfl, hz⟩ ⟨n', m', rfl, hy⟩

theorem SumIs.products : ∀ (ls : List (Int × Int)) {a : Option FVal} {z : Int}, SumIs a z →
    SumIs ((ls.map fun x => delivered 0 (intVal x.1) (intVal x.2)).foldl Machine.addProduct a) (z + dot ls)
  | [], _, z, h => by
    rw [show z + dot [] = z from Int.add_zero z]
    exact h
  | x :: ls, a, z, h => by
    have hstep := SumIs.products ls (h.addProduct (delivered_intVal x.1 x.2))
    rwa [Int.add_assoc] at hstep

theorem exactSum_ints (ls : List (Int × Int)) : SumIs (exactSum (ls.map fun x => delivered 0 (intVal x.1) (intVal x.2))) (dot ls) := by
  have hsum := SumIs.products ls (a := some (.fin false 0 0)) ⟨_, _, rfl, rfl⟩
  rwa [show finInt false 0 0 0 = 0 from rfl, Int.zero_add] at hsum

/-- The integer that a group of signed bytes adds at full fidelity. -/
theorem addInt_ints (serial tag c : Nat) (ls : List (Int × Int)) :
    (addInt c (groupSum serial .s8 3 [] tag (intGroup ls).1 (intGroup ls).2)).bits = wrapInt 32 (c + dot ls) := by
  have hnan : ((intGroup ls).1.any FVal.isNan || (intGroup ls).2.any FVal.isNan) = false := by simp [intGroup, intVal, FVal.isNan]
  obtain ⟨n, m, hsum, hval⟩ := exactSum_ints ls
  rw [groupSum_eq, hnan, if_neg Bool.false_ne_true, deliveredGroup_ints, hsum, addInt, hval]

theorem ofNat_wrapInt (z : Int) : BitVec.ofNat 32 (wrapInt 32 z) = BitVec.ofInt 32 z := by
  refine BitVec.eq_of_toNat_eq ?_
  rw [BitVec.toNat_ofNat, BitVec.toNat_ofInt, wrapInt]
  omega

/-- Groups of signed bytes add up to their dot products, wrapped to 32 bits. -/
theorem mmaGo_ints (serial : Nat) : ∀ (gs : List (List (Int × Int))) (tag c : Nat),
    BitVec.ofNat 32 (mmaGo serial .s8 3 [] tag (gs.map intGroup) c).1 = BitVec.ofInt 32 (c + (gs.map dot).sum)
  | [], _, c => by simp [mmaGo]
  | g :: gs, tag, c => by
    rw [List.map_cons, mmaGo, if_pos (Or.inl rfl), mmaGo_ints serial gs, addInt_ints, BitVec.ofInt_add, BitVec.ofInt_natCast, ofNat_wrapInt,
      ← BitVec.ofInt_add, List.map_cons, List.sum_cons, Int.add_assoc]

/-- Byte k of line i of a slot, signed. -/
def signedByte (s : State) (core o i k : Nat) : Int := toInt true 8 ((slotImg s core o).getD (128 * i + k) 0).toNat

/-- Products 32 g to 32 g + 31 of slot pair p. -/
def bytePairs (s : State) (core oa ob i j p g : Nat) : List (Int × Int) :=
  (List.range 32).map fun k => (signedByte s core (oa + p) i (32 * g + k), signedByte s core (ob + p) j (32 * g + k))

theorem mmaGroups_s8 (s : State) (core oa ob n i j : Nat) : mmaGroups s core oa ob n .s8 i j =
    ((List.range n).flatMap fun p => (List.range 4).map (bytePairs s core oa ob i j p)).map intGroup := by
  rw [List.map_flatMap]
  refine List.flatMap_congr fun p _ => ?_
  rw [List.map_map]
  refine List.map_congr_left fun g _ => ?_
  simp only [Function.comp_apply, intGroup, bytePairs, List.map_map]
  rfl

theorem sum_flatMap {α : Type} (f : α → List Int) (l : List α) : (l.flatMap f).sum = (l.map fun x => (f x).sum).sum := by
  rw [List.flatMap, List.sum_flatten, List.map_map]
  rfl

/-- Sums over runs of m are the sum over all of them. -/
theorem sum_runs (f : Nat → Int) (m : Nat) : ∀ n : Nat, ((List.range n).map fun g => ((List.range m).map fun k => f (m * g + k)).sum).sum =
    ((List.range (m * n)).map f).sum
  | 0 => rfl
  | n + 1 => by
    rw [List.range_succ, List.map_append, List.sum_append, sum_runs f m n, Nat.mul_succ, List.range_add, List.map_append, List.sum_append, List.map_map]
    simp [Function.comp_def]

/-- TMMA of signed bytes at full fidelity adds the exact dot products, wrapped (R154). -/
theorem mmaCell_s8 (s : State) (core : Nat) {w : Wave} {f : TMmaF} (hf : f.fmt = .s8) (hlvl : levelOf s w.lid = 3) {i j : Nat} (hi : i < 32) (hj : j < 32) :
    BitVec.ofNat 32 (mmaCell s core w f i j).1 = BitVec.ofInt 32 ((elemAt s core f.c.toNat i j).toNat +
      ((List.range (tcount f.n)).flatMap fun n => (List.range 128).map fun k =>
        signedByte s core (f.oa.toNat + n) i k * signedByte s core (f.ob.toNat + n) j k).sum) := by
  unfold mmaCell mmaElem
  rw [hf, hlvl, undervolted_of_full s core rfl, pairGroups_eq s core _ _ _ _ hi hj, mmaGroups_s8, mmaGo_ints]
  congr 2
  rw [List.map_flatMap, sum_flatMap, sum_flatMap]
  congr 1
  refine List.map_congr_left fun p _ => ?_
  rw [List.map_map, ← sum_runs _ 32 4]
  simp only [Function.comp_def, dot, bytePairs, List.map_map]

end Sys2Proof.Machine

/-! PROOF. The slot images that TCVT and TQUANT leave (R133 to R136, R141, R157, R158). -/

namespace Sys2Proof.Machine

/-! ### Lists of runs -/

/-- Entry r of run k, where all runs have one length. -/
theorem getElem?_flatMap_const {α β : Type} {f : α → List β} {m r : Nat} (hr : r < m) {y : α} : ∀ {l : List α} {k : Nat},
    (∀ x ∈ l, (f x).length = m) → l[k]? = some y → (l.flatMap f)[m * k + r]? = (f y)[r]?
  | x :: l, 0, hlen, hy => by
    obtain rfl := Option.some.inj hy
    rw [List.flatMap_cons, Nat.mul_zero, Nat.zero_add, List.getElem?_append_left (by rw [hlen x (List.mem_cons_self ..)]; exact hr)]
  | x :: l, k + 1, hlen, hy => by
    have hx := hlen x (List.mem_cons_self ..)
    rw [List.flatMap_cons, List.getElem?_append_right (by rw [hx, Nat.mul_succ]; omega), hx, Nat.mul_succ, Nat.add_right_comm, Nat.add_sub_cancel]
    exact getElem?_flatMap_const hr (fun z hz => hlen z (List.mem_cons_of_mem _ hz)) hy

/-- Runs of m made one after another are one list over all numbers. -/
theorem flatMap_range_map {α : Type} (f : Nat → Nat → α) {m : Nat} (hm : 0 < m) : ∀ n : Nat,
    ((List.range n).flatMap fun q => (List.range m).map (f q)) = (List.range (m * n)).map fun k => f (k / m) (k % m)
  | 0 => rfl
  | n + 1 => by
    rw [List.range_succ, List.flatMap_append, flatMap_range_map f hm n, Nat.mul_succ, List.range_add, List.map_append, List.map_map]
    simp only [List.flatMap_cons, List.flatMap_nil, List.append_nil]
    congr 1
    refine List.map_congr_left fun k hk => ?_
    have hk' := List.mem_range.1 hk
    rw [Function.comp_apply, Nat.mul_add_div hm, Nat.div_eq_of_lt hk', Nat.add_zero, Nat.mul_add_mod, Nat.mod_eq_of_lt hk']

/-! ### A slot whose bytes are all known (R141) -/

/-- A slot image of 32 lines of 128 bytes and a side field of 64 bytes. -/
def LinesAre (g : Img) (line : Nat → List Byte) (side : List Byte) : Prop :=
  (∀ i, i < 32 → ∀ r, r < 128 → g.getD (128 * i + r) 0 = (line i).getD r 0) ∧ ∀ r, r < 64 → g.getD (4096 + r) 0 = side.getD r 0

theorem linesAre_image {line : Nat → List Byte} {side : List Byte} (hline : ∀ i, i < 32 → (line i).length = 128) :
    LinesAre ((List.range 32).flatMap line ++ side).toArray line side := by
  have hall : ∀ i ∈ List.range 32, (line i).length = 128 := fun i hi => hline i (List.mem_range.1 hi)
  have hlen : ((List.range 32).flatMap line).length = 4096 := by rw [length_flatMap_const _ hall, List.length_range]
  refine ⟨fun i hi r hr => ?_, fun r _ => ?_⟩
  · rw [Array.getD_eq_getD_getElem?, List.getElem?_toArray, List.getElem?_append_left (by rw [hlen]; omega),
      getElem?_flatMap_const hr hall (List.getElem?_range hi), List.getD_eq_getElem?_getD]
  · rw [Array.getD_eq_getD_getElem?, List.getElem?_toArray, List.getElem?_append_right (by rw [hlen]; omega), hlen, Nat.add_sub_cancel_left,
      List.getD_eq_getElem?_getD]

/-- A slot all of whose bytes have been written reads as they are. -/
theorem slotImg_of_written {s : State} {core o : Nat} {bs : List Byte} (h : ∀ i, Tab.find (Tab.findD (coreOf s core).images o []) i = bs[i]?)
    (hlen : bs.length = 4160) : slotImg s core o = bs.toArray := by
  rw [slotImg]
  refine congrArg List.toArray (List.ext_getElem? fun i => ?_)
  by_cases hi : i < 4160
  · rw [slotBytes, List.getElem?_map, List.getElem?_range (show i < Config.slotBytes from hi), Option.map_some, Nat.zero_add, h i,
      List.getElem?_eq_getElem (by omega)]
  · have hslot : (slotBytes s core o 0 Config.slotBytes (8100000 + 8192 * o)).length = 4160 := by
      rw [Machine.slotBytes, List.length_map, List.length_range]
      rfl
    rw [List.getElem?_eq_none (by rw [hslot]; omega), List.getElem?_eq_none (by omega)]

/-! ### TCVT (R158) -/

/-- Element k of a line that TCVT makes, rounded (R158). -/
def cvtRound (s : State) (core : Nat) (f : TCvtF) (i k : Nat) : Rounded :=
  roundVal (cvtFmt f.fmt) .rne f.sat 0 (accElem s core f.c.toNat f.kc i k)

/-- A line of TCVT: each rounded element in the bytes of its format. -/
theorem cvtBytes_eq (s : State) (core : Nat) (f : TCvtF) (i : Nat) : cvtBytes s core f i =
    (List.range (32 * if f.fmt = .bf16 ∨ f.fmt = .f16 then 2 else 4)).flatMap fun k => leBytes (fmtBits f.fmt / 8) (cvtRound s core f i k).bits := by
  rw [cvtBytes, cvtLine, accLine, List.map_map, List.flatMap_map]
  rfl

section
variable {s : State} {core i k : Nat} {f : TCvtF}

theorem getD_cvtBytes {m n : Nat} (hm : fmtBits f.fmt / 8 = m) (hn : (if f.fmt = .bf16 ∨ f.fmt = .f16 then 2 else 4) = n) (hk : k < 32 * n)
    {r : Nat} (hr : r < m) :
    (cvtBytes s core f i).getD (m * k + r) 0 = (leBytes m (cvtRound s core f i k).bits).getD r 0 := by
  rw [cvtBytes_eq, hm, hn, List.getD_eq_getElem?_getD, getElem?_flatMap_const hr (fun _ _ => length_leBytes ..) (List.getElem?_range hk),
    List.getD_eq_getElem?_getD]

theorem length_cvtBytes {m n : Nat} (hm : fmtBits f.fmt / 8 = m) (hn : (if f.fmt = .bf16 ∨ f.fmt = .f16 then 2 else 4) = n) (hmn : m * n = 4) (i : Nat) :
    (cvtBytes s core f i).length = 128 := by
  rw [cvtBytes_eq, hm, hn, length_flatMap_const _ fun _ _ => length_leBytes .., List.length_range, Nat.mul_assoc, Nat.mul_comm n, hmn]

/-- The image holds the rounded elements of 16 bits. -/
theorem lineElem_cvt_wide {g : Img} {side : List Byte} (hg : LinesAre g (cvtBytes s core f) side)
    (hf : f.fmt = .bf16 ∨ f.fmt = .f16) (hi : i < 32) (hk : k < 64) :
    lineElem g f.fmt i k = (cvtRound s core f i k).bits % 2 ^ 16 := by
  have hm : fmtBits f.fmt / 8 = 2 := by rcases hf with hf | hf <;> rw [hf] <;> rfl
  have hlow := getD_cvtBytes (s := s) (core := core) (i := i) (k := k) hm (if_pos hf) hk (r := 0) (by omega)
  have hhigh := getD_cvtBytes (s := s) (core := core) (i := i) (k := k) hm (if_pos hf) hk (r := 1) (by omega)
  have hpair : lineElem g f.fmt i k = leNat [g.getD (128 * i + 2 * k) 0, g.getD (128 * i + (2 * k + 1)) 0] := by
    rcases hf with hf | hf <;> rw [hf] <;> rfl
  rw [hpair, hg.1 i hi _ (by omega), hg.1 i hi _ (by omega), ← Nat.add_zero (2 * k), hlow, Nat.add_zero, hhigh]
  simp only [leBytes, leNat, List.getD_cons_zero, List.getD_cons_succ, BitVec.toNat_ofNat]
  omega

/-- The image holds the rounded elements of 8 bits. -/
theorem lineElem_cvt_narrow {g : Img} {side : List Byte} (hg : LinesAre g (cvtBytes s core f) side)
    (hf : f.fmt = .e4m3 ∨ f.fmt = .e5m2) (hi : i < 32) (hk : k < 128) :
    lineElem g f.fmt i k = (cvtRound s core f i k).bits % 2 ^ 8 := by
  have hm : fmtBits f.fmt / 8 = 1 := by rcases hf with hf | hf <;> rw [hf] <;> rfl
  have hn : (if f.fmt = .bf16 ∨ f.fmt = .f16 then 2 else 4) = 4 := by rcases hf with hf | hf <;> rw [hf] <;> rfl
  have hbyte := getD_cvtBytes (s := s) (core := core) (i := i) (k := k) hm hn hk (r := 0) (by omega)
  have hone : lineElem g f.fmt i k = (g.getD (128 * i + k) 0).toNat := by rcases hf with hf | hf <;> rw [hf] <;> rfl
  rw [Nat.one_mul, Nat.add_zero] at hbyte
  rw [hone, hg.1 i hi k hk, hbyte]
  simp only [leBytes, List.getD_cons_zero, BitVec.toNat_ofNat]
  omega

end

theorem scaleWord_side {g : Img} {line : Nat → List Byte} {side : List Byte} (hg : LinesAre g line side) {n : Nat} (hn : n < 32) :
    scaleWord g n = leNat [side.getD (2 * n) 0, side.getD (2 * n + 1) 0] := by
  rw [scaleWord, hg.2 (2 * n) (by omega), show 4097 + 2 * n = 4096 + (2 * n + 1) by omega, hg.2 (2 * n + 1) (by omega)]

theorem getD_leBytes_zero : ∀ n r : Nat, (leBytes n 0).getD r 0 = 0
  | 0, _ => rfl
  | _ + 1, 0 => rfl
  | n + 1, r + 1 => getD_leBytes_zero n r

/-- TCVT leaves the side field zero (R158). -/
theorem scaleWord_zero {g : Img} {line : Nat → List Byte} (hg : LinesAre g line (leBytes 64 0)) {n : Nat} (hn : n < 32) : scaleWord g n = 0 := by
  rw [scaleWord_side hg hn, getD_leBytes_zero, getD_leBytes_zero]
  rfl

/-- A slot image holds the elements of TCVT, rounded to its format, and no scales (R158). -/
def HoldsRounded (s : State) (core : Nat) (f : TCvtF) (g : Img) : Prop := ∀ i, i < 32 → scaleWord g i = 0 ∧
  ∀ k, k < 1024 / fmtBits f.fmt → lineElem g f.fmt i k = (cvtRound s core f i k).bits % 2 ^ fmtBits f.fmt

theorem cvtImg_holds (s : State) (core : Nat) {f : TCvtF} (hf : f.fmt ∈ [Fmt.bf16, .f16, .e4m3, .e5m2]) :
    (cvtImg s core f).length = 4160 ∧ HoldsRounded s core f (cvtImg s core f).toArray := by
  have hfmt : (f.fmt = .bf16 ∨ f.fmt = .f16) ∨ (f.fmt = .e4m3 ∨ f.fmt = .e5m2) := by simpa [or_assoc] using hf
  have hline : ∀ i, (cvtBytes s core f i).length = 128 := by
    rcases hfmt with hw | hn
    · exact length_cvtBytes (m := 2) (by rcases hw with hw | hw <;> rw [hw] <;> rfl) (if_pos hw) rfl
    · exact length_cvtBytes (m := 1) (n := 4) (by rcases hn with hn | hn <;> rw [hn] <;> rfl) (by rcases hn with hn | hn <;> rw [hn] <;> rfl) rfl
  have hg : LinesAre (cvtImg s core f).toArray (cvtBytes s core f) (leBytes 64 0) := linesAre_image fun i _ => hline i
  refine ⟨?_, fun i hi => ⟨scaleWord_zero hg hi, fun k hk => ?_⟩⟩
  · rw [cvtImg, List.length_append, length_flatMap_const _ fun i _ => hline i, length_leBytes, List.length_range]
  · rcases hfmt with hw | hn
    · have hbits : fmtBits f.fmt = 16 := by rcases hw with hw | hw <;> rw [hw] <;> rfl
      rw [hbits] at hk ⊢
      exact lineElem_cvt_wide hg hw hi hk
    · have hbits : fmtBits f.fmt = 8 := by rcases hn with hn | hn <;> rw [hn] <;> rfl
      rw [hbits] at hk ⊢
      exact lineElem_cvt_narrow hg hn hi hk

/-! ### The elements of a block (step 1 of R157) -/

theorem hadRuns_eq (h32 : Bool) (h : Nat) : ∀ (n : Nat) (ys : List FVal),
    hadRuns h32 h n ys = (List.range n).flatMap fun q => (List.range h).map (hadElem h32 ((ys.drop (h * q)).take h))
  | 0, _ => rfl
  | n + 1, ys => by
    rw [hadRuns, hadRuns_eq h32 h n, List.range_succ_eq_map, List.flatMap_cons, List.flatMap_map, Nat.mul_zero, List.drop_zero]
    congr 1
    refine List.flatMap_congr fun q _ => ?_
    rw [List.drop_drop, Nat.mul_succ, Nat.add_comm]

theorem take_drop_range_map (f : Nat → FVal) {h n a : Nat} (ha : a + h ≤ n) :
    (((List.range n).map f).drop a).take h = (List.range h).map fun x => f (a + x) := by
  refine List.ext_getElem? fun k => ?_
  by_cases hk : k < h
  · rw [List.getElem?_take_of_lt hk, List.getElem?_drop, List.getElem?_map, List.getElem?_range (by omega), List.getElem?_map, List.getElem?_range hk]
    rfl
  · rw [List.getElem?_eq_none (by simp; omega), List.getElem?_eq_none (by simp; omega)]

/-- A block of 256 elements transformed in runs of h. -/
theorem hadRuns_block (h32 : Bool) {h n : Nat} (hh : 0 < h) (hn : h * n = 256) (z : Nat → FVal) :
    hadRuns h32 h n ((List.range 256).map z) =
      (List.range 256).map fun k => hadElem h32 ((List.range h).map fun x => z (k / h * h + x)) (k % h) := by
  rw [hadRuns_eq, ← hn, ← flatMap_range_map (fun q r => hadElem h32 ((List.range h).map fun x => z (q * h + x)) r) hh]
  refine List.flatMap_congr fun q hq => ?_
  have hq' := List.mem_range.1 hq
  have hle : h * q + h ≤ h * n := by
    rw [← Nat.mul_succ]
    exact Nat.mul_le_mul_left h hq'
  rw [take_drop_range_map z hle, Nat.mul_comm h q]

/-- The values that a block quantises are those of step 1 (R157). -/
theorem quantBlock_eq (s : State) (core c : Nat) (kc : Bool) (had : Had) (typ i : Nat) : ∃ zs : List Rounded,
    quantBlock typ had (accLine s core c 8 kc i) = quantFrom typ zs ∧
      (zs.map fun z => f32F.decode z.bits) = (List.range 256).map (blockElem s core c kc had i) := by
  have hline : (accLine s core c 8 kc i).map f32F.decode = (List.range 256).map (accElem s core c kc i) := by
    rw [accLine, List.map_map]
    rfl
  cases had with
  | none =>
    refine ⟨_, rfl, ?_⟩
    rw [List.map_map]
    exact hline
  | h16 =>
    refine ⟨_, rfl, ?_⟩
    rw [hline, hadRuns_block false (by omega) rfl, List.map_map]
    rfl
  | h32 =>
    refine ⟨_, rfl, ?_⟩
    rw [hline, hadRuns_block true (by omega) rfl, List.map_map]
    rfl

/-! ### Scales and codes (steps 2 to 5 of R157) -/

/-- A magnitude: no NaN, and no sign. -/
def IsMag (v : FVal) : Prop := v = .inf false ∨ ∃ m e, v = .fin false m e

theorem magMax_isMag {a : FVal} (ha : IsMag a) (x : FVal) : IsMag (magMax a x) := by
  unfold magMax
  cases x with
  | nan => exact ha
  | inf n =>
    simp only [FVal.isNan, Bool.false_eq_true, if_false]
    split
    · exact .inl rfl
    · exact ha
  | fin n m e =>
    simp only [FVal.isNan, Bool.false_eq_true, if_false]
    split
    · exact .inr ⟨m, e, rfl⟩
    · exact ha

theorem foldl_magMax_isMag : ∀ (l : List FVal) {a : FVal}, IsMag a → IsMag (l.foldl magMax a)
  | [], _, h => h
  | x :: l, _, h => foldl_magMax_isMag l (magMax_isMag h x)

/-- A scale word's fields reach a magnitude over qmax. -/
def scaleReaches (typ : Nat) (big : FVal) (w : Nat) : Bool := !(FVal.lt (.fin false ((scale12 w).1 * qmax typ) (scale12 w).2) big)

theorem scaleList_eq : scaleList = List.range' 16 1008 := by
  rw [scaleList, List.range'_eq_map_range]
  exact List.map_congr_left fun x _ => Nat.add_comm x 16

/-- The chosen scale is the least that reaches the magnitude, or the largest. -/
theorem chooseScale_least (typ : Nat) {big : FVal} (h : IsMag big) : 16 ≤ chooseScale typ big ∧ chooseScale typ big ≤ 1023 ∧
    (chooseScale typ big ≠ 1023 → scaleReaches typ big (chooseScale typ big) = true) ∧
      ∀ x, 16 ≤ x → x < chooseScale typ big → scaleReaches typ big x = false := by
  obtain rfl | ⟨m, e, rfl⟩ := h
  · rw [show chooseScale typ (.inf false) = 1023 from rfl]
    exact ⟨by omega, le_rfl, fun h => absurd rfl h, fun _ _ _ => rfl⟩
  · have hchoose : chooseScale typ (.fin false m e) = ((List.range' 16 1008).find? (scaleReaches typ (.fin false m e))).getD 1023 := by
      rw [← scaleList_eq]
      rfl
    rw [hchoose]
    cases hfind : (List.range' 16 1008).find? (scaleReaches typ (.fin false m e)) with
    | none =>
      rw [List.find?_range'_eq_none] at hfind
      rw [Option.getD_none]
      exact ⟨by omega, le_rfl, fun h => absurd rfl h, fun x hx hx' => by simpa using hfind x hx (by omega)⟩
    | some w =>
      rw [List.find?_range'_eq_some] at hfind
      obtain ⟨hreach, hmem, hleast⟩ := hfind
      obtain ⟨hlow, hhigh⟩ := List.mem_range'_1.1 hmem
      rw [Option.getD_some]
      exact ⟨hlow, by omega, fun _ => hreach, fun x hx hx' => by simpa using hleast x hx hx'⟩

theorem codeMax_lt (typ : Nat) (neg : Bool) : codeMax typ neg < 16 := by
  unfold codeMax
  split <;> split <;> omega

theorem foldl_best_lt (p : Nat → Nat → Prop) [∀ b c, Decidable (p b c)] (n : Nat) :
    (List.range n).foldl (fun b c => if p b c then c + 1 else b) 0 ≤ n := by
  induction n with
  | zero => exact le_rfl
  | succ n ih =>
    rw [List.range_succ, List.foldl_append, List.foldl_cons, List.foldl_nil]
    split
    · exact le_rfl
    · omega

/-- Every code has four bits. -/
theorem quantElem_lt (typ w : Nat) (z : FVal) : (quantElem typ w z).bits < 16 := by
  unfold quantElem
  split
  · decide
  · exact codeMax_lt ..
  · decide
  · unfold quantCode
    extract_lets p t den dist best
    split
    · exact codeMax_lt ..
    · have hbest : best ≤ 15 := foldl_best_lt _ 15
      dsimp only
      split <;> omega

/-- What quantFrom makes of a block's values are the scale and codes of R157. -/
theorem quantFrom_quantised {typ : Nat} {zs : List Rounded} {z : Nat → FVal} (hz : (zs.map fun x => f32F.decode x.bits) = (List.range 256).map z) :
    ∃ code : Nat → Nat, (quantFrom typ zs).codes = (List.range 256).map code ∧ (∀ k, code k < 16) ∧ (quantFrom typ zs).scale < 1024 * typ + 1024 ∧
      BlockQuantised typ z (quantFrom typ zs).scale code := by
  have hmag : IsMag (((List.range 256).map z).foldl magMax (.fin false 0 0)) := foldl_magMax_isMag _ (.inr ⟨_, _, rfl⟩)
  unfold quantFrom BlockQuantised
  rw [hz]
  extract_lets vs big pre w cs
  split
  · refine ⟨fun _ => 0, ?_, fun _ => Nat.zero_lt_succ _, ?_, Nat.mul_comm .., fun _ _ => rfl⟩
    · exact List.map_map
    · dsimp only
      omega
  · obtain ⟨hlow, hhigh, hreach, hleast⟩ := chooseScale_least typ hmag
    refine ⟨fun k => (quantElem typ w (z k)).bits, ?_, fun k => quantElem_lt .., ?_, w, hlow, hhigh, hreach, hleast, ?_, fun _ _ => rfl⟩
    · show (vs.map (quantElem typ w)).map (·.bits) = _
      rw [List.map_map, List.map_map]
      rfl
    · have hw : w ≤ 1023 := hhigh
      dsimp only
      omega
    · exact congrArg (· + w) (Nat.mul_comm ..)

/-! ### The image of the blocks (R135, R141) -/

/-- Two codes lie in each byte. -/
theorem packCodes_map (code : Nat → Nat) : ∀ (n a : Nat), packCodes ((List.range' a (2 * n)).map code) =
    (List.range n).map fun k => BitVec.ofNat 8 (code (a + 2 * k) + 16 * code (a + 2 * k + 1))
  | 0, _ => rfl
  | n + 1, a => by
    rw [Nat.mul_succ, List.range'_succ, List.range'_succ, List.map_cons, List.map_cons, packCodes, packCodes_map code n, List.range_succ_eq_map, List.map_cons,
      List.map_map]
    congr 1
    refine List.map_congr_left fun k _ => ?_
    rw [Function.comp_apply, show a + 1 + 1 + 2 * k = a + 2 * (k + 1) by omega]

/-- The bytes of a block's codes. -/
def codeBytes (code : Nat → Nat) : List Byte := (List.range 128).map fun k => BitVec.ofNat 8 (code (2 * k) + 16 * code (2 * k + 1))

theorem lineElem_codes {g : Img} {line : Nat → List Byte} {side : List Byte} (hg : LinesAre g line side) {i : Nat} (hi : i < 32) {code : Nat → Nat}
    (hline : line i = codeBytes code) (hcode : ∀ k, code k < 16) {k : Nat} (hk : k < 256) : lineElem g .fp4 i k = code k := by
  have hbyte : g.getD (128 * i + k / 2) 0 = BitVec.ofNat 8 (code (2 * (k / 2)) + 16 * code (2 * (k / 2) + 1)) := by
    rw [hg.1 i hi _ (by omega), hline, codeBytes, List.getD_eq_getElem?_getD, List.getElem?_map, List.getElem?_range (by omega)]
    rfl
  rw [lineElem, hbyte, BitVec.toNat_ofNat]
  have hlow := hcode (2 * (k / 2))
  have hhigh := hcode (2 * (k / 2) + 1)
  rcases Nat.mod_two_eq_zero_or_one k with hpar | hpar
  · have hk2 : 2 * (k / 2) = k := by omega
    rw [hk2] at hlow hhigh ⊢
    rw [hpar]
    omega
  · have hk2 : 2 * (k / 2) + 1 = k := by omega
    rw [hk2] at hhigh ⊢
    rw [hpar]
    omega

theorem packCodes_block (code : Nat → Nat) : packCodes ((List.range 256).map code) = codeBytes code := by
  have hpack := packCodes_map code 128 0
  simp only [Nat.zero_add] at hpack
  rw [List.range_eq_range']
  exact hpack

/-- The side field of blocks holds their scale words. -/
theorem scaleWord_scales {g : Img} {line : Nat → List Byte} {scale : Nat → Nat}
    (hg : LinesAre g line ((List.range 32).flatMap fun i => leBytes 2 (scale i)))
    {n : Nat} (hn : n < 32) (hscale : scale n < 65536) : scaleWord g n = scale n := by
  have hbyte : ∀ r, r < 2 → ((List.range 32).flatMap fun i => leBytes 2 (scale i)).getD (2 * n + r) 0 = (leBytes 2 (scale n)).getD r 0 := fun r hr => by
    rw [List.getD_eq_getElem?_getD, getElem?_flatMap_const hr (fun _ _ => length_leBytes ..) (List.getElem?_range hn), List.getD_eq_getElem?_getD]
  have hlow := hbyte 0 (by omega)
  rw [Nat.add_zero] at hlow
  rw [scaleWord_side hg hn, hlow, hbyte 1 (by omega)]
  exact leNat_leBytes 2 (scale n) hscale

/-- Codes beyond the block do not count. -/
theorem BlockQuantised.congr {typ word : Nat} {z : Nat → FVal} {code code' : Nat → Nat} (h : BlockQuantised typ z word code)
    (hcode : ∀ k, k < 256 → code' k = code k) : BlockQuantised typ z word code' := by
  unfold BlockQuantised at h ⊢
  extract_lets at h ⊢
  split at h
  · next hzero =>
    obtain ⟨hword, hzeros⟩ := h
    rw [if_pos hzero]
    exact ⟨hword, fun k hk => (hcode k hk).trans (hzeros k hk)⟩
  · next hzero =>
    obtain ⟨w, hlow, hhigh, hreach, hleast, hword, hcodes⟩ := h
    rw [if_neg hzero]
    exact ⟨w, hlow, hhigh, hreach, hleast, hword, fun k hk => (hcode k hk).trans (hcodes k hk)⟩

/-- The image that TQUANT makes holds the blocks of R157. -/
theorem quantImg_holds (s : State) (core : Nat) (f : TQuantF) {typ : Nat} (htyp : typ < 4) : (quantImg s core f typ).length = 4160 ∧
    HoldsBlocks s core f.c.toNat f.kc f.had typ (quantImg s core f typ).toArray := by
  have hblock : ∀ i, ∃ code : Nat → Nat, (quantBlock typ f.had (accLine s core f.c.toNat 8 f.kc i)).codes = (List.range 256).map code ∧
      (∀ k, code k < 16) ∧ (quantBlock typ f.had (accLine s core f.c.toNat 8 f.kc i)).scale < 1024 * typ + 1024 ∧
      BlockQuantised typ (blockElem s core f.c.toNat f.kc f.had i) (quantBlock typ f.had (accLine s core f.c.toNat 8 f.kc i)).scale code := fun i => by
    obtain ⟨zs, hquant, hz⟩ := quantBlock_eq s core f.c.toNat f.kc f.had typ i
    rw [hquant]
    exact quantFrom_quantised hz
  choose code hcodes hlt hscale hquant using hblock
  have himg : quantImg s core f typ = (List.range 32).flatMap (fun i => codeBytes (code i)) ++
      (List.range 32).flatMap fun i => leBytes 2 (quantBlock typ f.had (accLine s core f.c.toNat 8 f.kc i)).scale := by
    rw [quantImg, blocksImg, List.flatMap_map, List.flatMap_map]
    congr 1
    exact List.flatMap_congr fun i _ => by rw [hcodes, packCodes_block]
  have hlen : ∀ i, (codeBytes (code i)).length = 128 := fun i => by simp [codeBytes]
  have hg := linesAre_image (line := fun i => codeBytes (code i))
    (side := (List.range 32).flatMap fun i => leBytes 2 (quantBlock typ f.had (accLine s core f.c.toNat 8 f.kc i)).scale) fun i _ => hlen i
  rw [← himg] at hg
  refine ⟨?_, fun i hi => ?_⟩
  · rw [himg, List.length_append, length_flatMap_const _ fun i _ => hlen i, length_flatMap_const _ fun _ _ => length_leBytes .., List.length_range]
  · have hcode : ∀ k, k < 256 → lineElem (quantImg s core f typ).toArray .fp4 i k = code i k := fun k hk => lineElem_codes hg hi rfl (hlt i) hk
    have hword := scaleWord_scales hg hi (by have := hscale i; omega)
    rw [hword]
    exact (hquant i).congr hcode

end Sys2Proof.Machine

/-! PROOF. The operation at the head of the Pilot queue retires with its result (R148, R149, R153 to R161, R163, R165). -/

namespace Sys2Proof.Machine

/-! ### The accumulator that each operation leaves -/

section
variable {s t : State} {core : Nat} {w : Wave} {p : PilotOp}

/-- The rows of a state are those that an operation has left. -/
def RowsLeft (s t : State) (core : Nat) (w : Wave) (p : PilotOp) : Prop := ∀ c, tileRowsOf t core c = tileRowsOf (pilotEffect s core w p).1 core c

variable (hrows : RowsLeft s t core w p)
include hrows

theorem RowsLeft.zero {z : TZTarget} (h : p.op = .zero z) {i j : Nat} (hi : i < 32) (hj : j < 32) : elemAt t core (zeroTarget z) i j = 0 := by
  refine elemAt_zeroRows ?_ hi hj
  rw [hrows, pilotEffect_zero h, tileRowsOf_setRows, if_pos rfl]

theorem RowsLeft.movv {f : TMovvF} {rows : List Lanes} (h : p.op = .movv f rows) (hf : f.toAcc = true) {n : Nat} {r : Lanes} (hr : rows[n]? = some r)
    (j : Nat) : elemAt t core f.c.toNat (4 * f.row4.toNat + n) j = r.at j := by
  refine elemAt_rowsMovedIn (s := s) ?_ hr j
  rw [hrows, pilotEffect_movv_toAcc h hf, tileRowsOf_setRows, if_pos rfl]

theorem RowsLeft.mma {f : TMmaF} (h : p.op = .mma f) {i j : Nat} (hi : i < 32) (hj : j < 32) :
    elemAt t core f.c.toNat i j = BitVec.ofNat 32 (mmaCell s core w f i j).1 := by
  obtain ⟨dets, heffect⟩ := pilotEffect_mma (s := s) (core := core) (w := w) h
  refine elemAt_makeRows ?_ hi hj
  rw [hrows, heffect, tileRowsOf_countDets, tileRowsOf_setRows, if_pos rfl]

theorem RowsLeft.mmao {f : TMmaoF} (h : p.op = .mmao f) :
    tileRowsOf t core f.c.toNat = quadrant (tileRowsOf s core f.c.toNat) (makeRows (mmaoCell s core w f)).1 := by
  obtain ⟨dets, heffect⟩ := pilotEffect_mmao (s := s) (core := core) (w := w) h
  rw [hrows, heffect, tileRowsOf_countDets, tileRowsOf_setRows, if_pos rfl]

theorem RowsLeft.bmm {f : TBmmF} (h : p.op = .bmm f) {i j : Nat} (hi : i < 32) (hj : j < 32) :
    elemAt t core (16 + f.p.toNat) i j = BitVec.ofNat 32 (bmmElem (codeLines (slotImg s core f.oa.toNat)) (codeLines (slotImg s core f.ob.toNat)) i j) := by
  refine elemAt_makeRows (g := bmmCell s core f) ?_ hi hj
  rw [hrows, pilotEffect_bmm h, tileRowsOf_setRows, if_pos rfl]

theorem RowsLeft.sca {f : TScacF} (h : p.op = .sca f) {i j : Nat} (hi : i < 32) (hj : j < 32) :
    let a := scale12 (scaleWord (slotImg s core f.oa.toNat) i)
    let b := scale12 (scaleWord (slotImg s core f.ob.toNat) j)
    elemAt t core f.c.toNat i j = BitVec.ofNat 32 (fFma f32F .rne 0 (f32F.decode (elemAt s core (16 + f.p.toNat) i j).toNat)
      (.fin false (a.1 * b.1) (a.2 + b.2)) (f32F.decode (elemAt s core f.c.toNat i j).toNat)).bits := by
  have hcell : elemAt t core f.c.toNat i j = BitVec.ofNat 32 (scaCell s core f i j).1 := by
    refine elemAt_makeRows ?_ hi hj
    rw [hrows, pilotEffect_sca h, tileRowsOf_setRows, if_pos rfl]
  exact hcell.trans (congrArg (BitVec.ofNat 32) (noUnder_bits _))

end

/-! ### The slot that an operation leaves (R157, R158) -/

section
variable {s u t : State} {core : Nat} {w v : Wave} {p : PilotOp} {rest : List PilotOp} {evs : List (Nat × Ev)} {reads : List Nat} {lid party : Nat}
  (hended : OpEnded u t core p rest evs reads lid party v)
include hended

variable {o fmtt : Nat} {ort : Bool} {bs : List Byte} (hu : u = fillDone (putImg s core o bs) core o fmtt ort)
include hu

/-- A slot that an operation has filled is ready. -/
theorem OpEnded.filled : (entryOf t core o).st = .ready ∧ (entryOf t core o).fmtt = fmtt ∧ (entryOf t core o).ort = ort := by
  obtain ⟨-, -, hentry, -⟩ := slot_filled s core o fmtt ort bs
  rw [hended.entry, hu, hentry]
  exact ⟨rfl, rfl, rfl⟩

/-- It holds the bytes of its image. -/
theorem OpEnded.slotImg (hlen : bs.length = 4160) : slotImg t core o = bs.toArray := by
  obtain ⟨-, -, -, himage⟩ := slot_filled s core o fmtt ort bs
  rw [← hu] at himage
  refine slotImg_of_written (fun i => ?_) hlen
  rw [hended.images]
  exact himage i

end

theorem length_quantBytes (g : Img) (kc : Bool) : (quantBytes g kc).length = 4160 := by
  rw [quantBytes, List.length_append, length_flatMap_const _ fun r _ => length_slotRow g .fp4 kc r, List.length_range]
  cases kc <;> simp [tileRows, bytesFrom]

/-- The memory form of TQUANT gives its tile store the memory image of a slot that holds the blocks (R157). -/
theorem quant_mem_filled {s : State} {core : Nat} {w : Wave} {p : PilotOp} {f : TQuantF} {typ id : Nat} {seg : BitVec 6} {imm : Bool} {a : Acc}
    (h : p.op = .quant f typ id) (hdest : f.dest = .mem seg imm) (ha : accOf s id = some a) (hloc : a.loc = false)
    (hsize : (a.pieces.map (·.size)).sum = 4160) : ∃ b, accOf (pilotEffect s core w p).1 id = some b ∧
      b.pieces.flatMap (·.data) = quantBytes (quantImg s core f typ).toArray f.kc := by
  obtain ⟨hb, -⟩ := fillStore_global (s := s) (id := id) hloc (hsize.trans (length_quantBytes (quantImg s core f typ).toArray f.kc).symm)
  rw [pilotEffect_quant_mem h hdest, ha]
  exact hb

/-! ### The waves after a result -/

/-- Only TMOVV toward the registers writes a wave. -/
theorem pilotEffect_waves {s : State} {core : Nat} {w : Wave} {p : PilotOp} (h : ∀ f rows, p.op = .movv f rows → f.toAcc = true) :
    (pilotEffect s core w p).1.waves = s.waves := by
  cases hop : p.op with
  | zero t =>
    rw [pilotEffect_zero hop]
    rfl
  | mma f =>
    obtain ⟨dets, heffect⟩ := pilotEffect_mma (s := s) (core := core) (w := w) hop
    rw [heffect]
    rfl
  | bmm f =>
    rw [pilotEffect_bmm hop]
    rfl
  | sca f =>
    rw [pilotEffect_sca hop]
    rfl
  | quant f typ id =>
    cases hdest : f.dest with
    | slot o =>
      rw [pilotEffect_quant_slot hop hdest]
      rfl
    | mem seg imm =>
      rw [pilotEffect_quant_mem hop hdest]
      split
      · next a _ =>
        obtain ⟨_, _, _, hfill, -⟩ := fillStore_moved s id a (quantBytes (quantImg s core f typ).toArray f.kc)
        rw [hfill]
      · rfl
  | cvt f =>
    rw [pilotEffect_cvt hop]
    rfl
  | movv f rows =>
    rw [pilotEffect_movv_toAcc hop (h f rows hop)]
    rfl
  | mmao f =>
    obtain ⟨dets, heffect⟩ := pilotEffect_mmao (s := s) (core := core) (w := w) hop
    rw [heffect]
    rfl

/-- TMOVV toward the registers lands its rows in them. -/
theorem pilotEffect_toReg_wave {s : State} {core : Nat} {w : Wave} {p : PilotOp} {f : TMovvF} {rows : List Lanes} (h : p.op = .movv f rows)
    (hf : f.toAcc = false) (hw : waveOf s p.wid = some w) (hst : w.st ≠ .halted) :
    waveOf (pilotEffect s core w p).1 p.wid = some (landNow w (movedRows s core f)) := by
  rw [pilotEffect_movv_toReg h hf, modReach_eq hw hst]
  exact (waveOf_setWave ..).trans (if_pos rfl)

/-! ### The obligation -/

/-- A wave whose operation has retired has no mark of it. -/
theorem retiredWave_busy (p : PilotOp) (evs : List (Nat × Ev)) (w : Wave) : ∀ b ∈ (retiredWave p evs w).busy, b.by_ ≠ p.id := fun b hb => by
  simpa using (List.mem_filter.1 hb).2

theorem holdV_retiredWave (p : PilotOp) (evs : List (Nat × Ev)) (w : Wave) (cl : Cluster) (n : Nat) : holdV (retiredWave p evs w) cl n = holdV w cl n := by
  cases cl <;> rfl

/-- Settles O46: the head of the queue ends when its last step is made, and its result is that of its operation's rule. -/
theorem tileOperationRetires : Obligations.TileOperationRetires := by
  intro core s p rest w q hpilot hw hst hq
  have hexec := exec_tileOpRetire hpilot hw
  refine ⟨fun hsteps => by rw [hexec, if_neg (by omega)], fun hsteps => ?_⟩
  rw [if_pos hsteps] at hexec
  have hkept := pilotEffect_kept hw hst core
  obtain ⟨v, hv, hvectors⟩ := hkept.wave w hw hst
  obtain ⟨x, hx⟩ := hkept.party _ _ _ hq
  have hvst : v.st ≠ .halted := by
    obtain ⟨a, b, rfl⟩ := hvectors
    exact hst
  have hended := afterResult_ended (core := core) (p := p) (rest := rest) (evs := (pilotEffect s core w p).2) (reads := pilotReads s w p.op)
    hv hvst hx (nodup_distinct _)
  generalize bump (afterResult (pilotEffect s core w p).1 core p rest (pilotEffect s core w p).2 (pilotReads s w p.op) w.lid w.party) = t at hexec hended
  have hrows : RowsLeft s t core w p := hended.rows
  obtain ⟨hregs, hks, hpc, hlive⟩ : v.s = w.s ∧ v.k = w.k ∧ v.pc = w.pc ∧ v.live = w.live := by
    obtain ⟨a, b, rfl⟩ := hvectors
    exact ⟨rfl, rfl, rfl, rfl⟩
  refine ⟨t, retiredWave p (pilotEffect s core w p).2 v, hexec, hended.pilot, hended.mem.trans hkept.mem, hended.wave, hregs, hks, hpc, hlive,
    retiredWave_busy p _ v, fun y hy => (hended.others y hy).trans (hkept.others y hy), hended.number, fun o => ?readers,
    fun c _ hc => (hrows c).trans (pilotEffect_rows hw hst core hc), fun hmovv => ?vectors,
    fun c h i j hi hj => hrows.zero h hi hj, fun n h i j hi hj => hrows.zero h hi hj, fun f rows h hf n j r hr _ => hrows.movv h hf hr j,
    fun f rows h hf n j hn hj => ?toReg, fun f l h hf hl hlvl i j hi hj => ?s8,
    fun f h i j hi hj => ⟨_, hrows.mma h hi hj, mmaCell_sums s core w f hi hj⟩,
    fun f h => ⟨fun i j hi hj => ⟨_, elemAt_quadrant_inside (hrows.mmao h) hi hj, mmaoCell_sums s core w f hi hj⟩,
      fun i j _ hj hout x hx hdef => elemAt_quadrant_outside (hrows.mmao h) hj hout hx hdef⟩,
    fun f h i j hi hj => ?bmm, fun f h i j hi hj => hrows.sca h hi hj, fun f h => ?cvt,
    fun f typ id h => ⟨fun o hdest => ?quantSlot, fun seg imm a htyp hdest ha hloc hsize => ?quantMem⟩⟩
  case readers =>
    rw [hended.entry, ← hkept.readers o]
    exact congrArg _ (if_congr mem_pilotReads rfl rfl)
  case vectors =>
    rw [waveOf, pilotEffect_waves hmovv] at hv
    obtain rfl := Option.some.inj (hw.symm.trans hv)
    exact ⟨rfl, rfl⟩
  case toReg =>
    rw [pilotEffect_toReg_wave h hf hw hst] at hv
    obtain rfl := Option.some.inj hv
    rw [holdV_retiredWave]
    exact holdV_movedRows s core f w hn hj
  case s8 =>
    have hlevel : levelOf s w.lid = 3 := by
      rw [levelOf, hl]
      exact hlvl
    rw [hrows.mma h hi hj]
    exact mmaCell_s8 s core hf hlevel hi hj
  case bmm =>
    rw [hrows.bmm h hi hj]
    exact congrArg _ (bmmElem_eq _ _ hi hj)
  case cvt =>
    obtain ⟨hready, hfmtt, hort⟩ := hended.filled (pilotEffect_cvt h)
    exact ⟨hready, hfmtt, hort, fun hfmt => by
      obtain ⟨hlen, hholds⟩ := cvtImg_holds s core hfmt
      rw [hended.slotImg (pilotEffect_cvt h) hlen]
      exact hholds⟩
  case quantSlot =>
    obtain ⟨hready, hfmtt, hort⟩ := hended.filled (pilotEffect_quant_slot h hdest)
    exact ⟨hready, hfmtt, hort, fun htyp => by
      obtain ⟨hlen, hholds⟩ := quantImg_holds s core f htyp
      rw [hended.slotImg (pilotEffect_quant_slot h hdest) hlen]
      exact hholds⟩
  case quantMem =>
    obtain ⟨b, hb, hdata⟩ := quant_mem_filled (core := core) (w := w) h hdest ha hloc hsize
    exact ⟨_, b, (quantImg_holds s core f htyp).2, by rw [accOf, hended.acc]; exact hb, hdata⟩

end Sys2Proof.Machine

/-! PROOF. LAUNCH packets are accepted or rejected (R248 to R253). -/

namespace Sys2Proof.Machine

/-! ### Reads in an address space (R192, R255) -/

/-- A state that differs from another in its translation caches alone. -/
def Translated (s t : State) : Prop := ∃ feXlat dies, t = { s with feXlat := feXlat, dies := dies }

namespace Translated

variable {s t u : State}

theorem refl (s : State) : Translated s s := ⟨_, _, rfl⟩

theorem trans (h : Translated s t) (h' : Translated t u) : Translated s u := by
  obtain ⟨_, _, rfl⟩ := h
  obtain ⟨_, _, rfl⟩ := h'
  exact ⟨_, _, rfl⟩

theorem waves (h : Translated s t) : t.waves = s.waves := by obtain ⟨_, _, rfl⟩ := h; rfl
theorem mem (h : Translated s t) : t.mem = s.mem := by obtain ⟨_, _, rfl⟩ := h; rfl
theorem launches (h : Translated s t) : t.launches = s.launches := by obtain ⟨_, _, rfl⟩ := h; rfl
theorem nextId (h : Translated s t) : t.nextId = s.nextId := by obtain ⟨_, _, rfl⟩ := h; rfl
theorem queueOf (h : Translated s t) (k : Nat) : queueOf t k = queueOf s k := by obtain ⟨_, _, rfl⟩ := h; rfl
theorem funcOf (h : Translated s t) (v : Nat) : funcOf t v = funcOf s v := by obtain ⟨_, _, rfl⟩ := h; rfl

theorem setXcache (s : State) (far : Bool) (die n : Nat) (l : List XEntry) : Translated s (setXcache s far die n l) := by
  unfold Machine.setXcache
  split <;> exact ⟨_, _, rfl⟩

theorem translate (s : State) (far : Bool) (die asid va : Nat) (cls : Option Nat) (rd wr : Bool) :
    Translated s (translate s far die asid va cls rd wr).2 := by
  unfold Machine.translate
  extract_lets n l
  split
  · exact setXcache ..
  · split
    · dsimp only
      split
      · exact setXcache ..
      · exact refl s
    · exact refl s

theorem asidSpans (far : Bool) (die asid : Nat) (rd wr : Bool) :
    ∀ (l : List (Nat × Nat)) (s : State), Translated s (asidSpans far die asid rd wr l s).2
  | [], s => refl s
  | x :: l, s => by
    unfold Machine.asidSpans
    split
    · exact refl s
    · extract_lets r
      have hr : Translated s r.2 := translate ..
      split
      · split
        · exact hr
        · exact hr.trans (asidSpans far die asid rd wr l r.2)
      · exact hr

theorem asidRead (s : State) (far : Bool) (die asid va n : Nat) : Translated s (asidRead s far die asid va n).2 := asidSpans ..

theorem readImage (s : State) (l : Bool × Nat × Nat × Nat) (off n : Nat) : Translated s (readImage s l off n).2 := by
  unfold Machine.readImage
  extract_lets r
  split <;> exact asidRead ..

end Translated

/-! ### The Steward's judgement (R252) -/

/-- What the Steward accepts under a function's block: a launch of the packet as it stands, none of whose parties has been placed (R253). -/
structure Accepted (f : Func) (vf qn pkt asid rev : Nat) (p : LPkt) (l : Launch) : Prop where
  ofVf : l.vf = vf
  ofQueue : l.q = qn
  ofPkt : l.pkt = pkt
  ofAsid : l.asid = asid
  fields : l.p = p
  accepted : l.st = .accepted
  placed : l.placed = 0
  handler : l.htab = captureHandler f
  level : l.level = max (if rev = 4 then p.fidel else 3) (max (l.img.hdr.fidelity % 4) f.floor)

/-- A judgement changes nothing but translation caches, and what it accepts is as it should be. -/
structure Judged (s : State) (good : Launch → Prop) (r : Verdict × State) : Prop where
  reads : Translated s r.2
  good : ∀ l, r.1 = .ok l → good l

theorem Judged.bad {s t : State} {good : Launch → Prop} (h : Translated s t) (c d : Nat) : Judged s good (.bad c d, t) :=
  ⟨h, fun _ hok => nomatch hok⟩

theorem Judged.after {s t : State} {good : Launch → Prop} {r : Verdict × State} (h : Translated s t) (hr : Judged t good r) : Judged s good r :=
  ⟨h.trans hr.reads, hr.good⟩

theorem judgeConvoys_judged (s : State) (l : Launch) : Judged s (fun m => ∃ cvs, m = { l with cvs := cvs }) (judgeConvoys s l) := by
  unfold judgeConvoys
  extract_lets p r
  have hr : Translated s r.2 := by
    unfold r
    split
    · exact .refl s
    · exact .asidRead ..
  split
  · exact .bad hr ..
  · extract_lets raw cvs
    split
    · exact .bad hr ..
    · split_ifs
      · exact .bad hr ..
      · exact .bad hr ..
      · exact .bad hr ..
      · exact ⟨hr, fun m hok => ⟨cvs, (Verdict.ok.inj hok).symm⟩⟩

theorem judgeBody_judged (s : State) (vf qn pkt asid rev : Nat) (p : LPkt) (h : ImgHdr) (hashes : List (BitVec 256)) :
    Judged s (Accepted (funcOf s vf) vf qn pkt asid rev p) (judgeBody s vf qn pkt asid rev p h hashes) := by
  unfold judgeBody
  extract_lets src r g f asked
  have hr : Translated s r.2 := .readImage ..
  have hg : Translated s g.2 := hr.trans (.readImage ..)
  split
  · exact .bad hr ..
  · extract_lets roles
    split_ifs
    · exact .bad hr ..
    · exact .bad hr ..
    · exact .bad hr ..
    · split
      · exact .bad hg ..
      · extract_lets segs
        split
        · exact .bad hg ..
        · refine .after hg ⟨(judgeConvoys_judged ..).reads, fun l hok => ?_⟩
          obtain ⟨cvs, rfl⟩ := (judgeConvoys_judged ..).good l hok
          exact ⟨rfl, rfl, rfl, rfl, rfl, rfl, rfl, rfl, rfl⟩

theorem judgeLaunch_judged (s : State) (vf qn pkt : Nat) (q : Queue) (b : List Byte) :
    Judged s (Accepted (funcOf s vf) vf qn pkt q.asid q.rev (lpktOf b)) (judgeLaunch s vf qn pkt q b) := by
  unfold judgeLaunch
  split
  · exact .bad (.refl s) ..
  · extract_lets p src r f
    have hr : Translated s r.2 := .readImage ..
    split
    · exact .bad hr ..
    · extract_lets h m
      have hm : Translated s m.2 := hr.trans (.readImage ..)
      split_ifs
      · exact .bad hr ..
      · exact .bad hr ..
      · split
        · exact .bad hm ..
        · split
          · exact .bad hm ..
          · exact .after hm (hm.funcOf vf ▸ judgeBody_judged ..)

/-- The fields come first: the lowest one outside its limits is the rejection. -/
theorem judgeLaunch_of_badField {s : State} {vf : Nat} (qn pkt : Nat) {q : Queue} {b : List Byte} {o : Nat}
    (h : firstBad (launchFields s vf q.rev b) = some o) : judgeLaunch s vf qn pkt q b = (.bad 0x41 o, s) := by
  simp only [judgeLaunch, h]

/-! ### The packet at HEAD (R248, R249) -/

/-- The packet that the Steward reads is the event's. -/
theorem packetStep_of_packetRead {s : State} {id : QId} {typ : Nat} {q : Queue} {p : List Byte} (h : PacketRead s id typ q p)
    (f : Nat → Queue → List Byte → State → Out) : packetStep s id typ f = f (qKey id) q p (served s id) := by
  obtain ⟨rfl, hreads, hturn, rfl, rfl, hheader, hbarrier⟩ := h
  have hwait : (pFlag (packetAt s (queueOf s (qKey id)) (queueOf s (qKey id)).head.toNat) 0 &&
      (queueOf s (qKey id)).done != (queueOf s (qKey id)).head) = false := by
    rw [Bool.and_eq_false_imp]
    exact fun hflag => by simp [hbarrier hflag]
  simp [packetStep, hreads, hturn, hwait, hheader]

theorem funcOf_served (s : State) (id : QId) : funcOf (served s id) id.vf.toNat = { funcOf s id.vf.toNat with turn := id.q.toNat } :=
  (funcOf_modFunc ..).trans (if_pos rfl)

theorem faultQueue_launches (s : State) (k pkt code die core slot addr detail : Nat) :
    (faultQueue s k pkt code die core slot addr detail).launches = s.launches := writeSide_launches ..

theorem served_routes (s : State) (id : QId) : (served s id).routes = s.routes := rfl

/-! ### LAUNCH (R251 to R253) -/

/-- A launch is added under the next identifier (R253). -/
def addLaunch (s : State) (l : Launch) : State := setLaunch { s with nextId := s.nextId + 1 } s.nextId l

theorem launchOf_addLaunch (s : State) (l : Launch) (n : Nat) : launchOf (addLaunch s l) n = if n = s.nextId then some l else launchOf s n :=
  launchOf_setLaunch ..

theorem addLaunch_nextId (s : State) (l : Launch) : (addLaunch s l).nextId = s.nextId + 1 := rfl

/-- The state after a launch has been accepted: it has been added, and its packet is consumed. -/
def launchAccepted (s : State) (k : Nat) (p : List Byte) (l : Launch) : State := modQueue (addLaunch s l) k (consumePkt p)

section Launch

variable {s : State} {id : QId} {q : Queue} {p : List Byte} (h : PacketRead s id 1 q p)
include h

theorem exec_launch_ok (htag : pByte p 37 = 0) {l : Launch}
    (hok : (judgeLaunch (served s id) id.vf.toNat id.q.toNat q.head.toNat q p).1 = .ok l) :
    exec (.launch id) s =
      .next (bump (launchAccepted (judgeLaunch (served s id) id.vf.toNat id.q.toNat q.head.toNat q p).2 (qKey id) p l)) := by
  change execLaunch id s = _
  rw [execLaunch, packetStep_of_packetRead h, if_neg (not_not.2 htag)]
  simp only [hok]
  rfl

theorem exec_launch_bad (htag : pByte p 37 = 0) {c d : Nat}
    (hbad : (judgeLaunch (served s id) id.vf.toNat id.q.toNat q.head.toNat q p).1 = .bad c d) :
    exec (.launch id) s = .next (bump (rejectLaunch (judgeLaunch (served s id) id.vf.toNat id.q.toNat q.head.toNat q p).2
      (qKey id) q.head.toNat c d p)) := by
  change execLaunch id s = _
  rw [execLaunch, packetStep_of_packetRead h, if_neg (not_not.2 htag)]
  simp only [hbad]
  rfl

/-- A stage's LAUNCH without its ROUTE is rejected (R260). -/
theorem exec_launch_tagged (htag : pByte p 37 ≠ 0) :
    ∃ c o, exec (.launch id) s = .next (bump (reject (served s id) (qKey id) q.head.toNat c o)) := by
  change ∃ c o, execLaunch id s = _
  rw [execLaunch, packetStep_of_packetRead h, if_pos htag]
  split <;> exact ⟨_, _, rfl⟩

end Launch

/-- A rejection leaves the launches and the waves, and a queue that is faulted at the same packet (R250, R252). -/
theorem rejectLaunch_leaves (s : State) (k pkt c d : Nat) (p : List Byte) :
    let t := rejectLaunch s k pkt c d p
    t.launches = s.launches ∧ queueOf t k = { queueOf s k with fault := true, st := .faulted, poll := none } ∧ t.waves = s.waves := by
  intro t
  unfold t rejectLaunch reject
  split <;> exact ⟨faultQueue_launches .., faultQueue_queue .., faultQueue_waves ..⟩

/-- An accepted launch stands under the next identifier, and its packet is consumed; memory and the waves are as they were. -/
theorem launchAccepted_leaves (s : State) (k : Nat) (p : List Byte) (l : Launch) :
    let t := launchAccepted s k p l
    launchOf t s.nextId = some l ∧ t.nextId = s.nextId + 1 ∧ queueOf t k = consumePkt p (queueOf s k) ∧ t.waves = s.waves ∧ t.mem = s.mem :=
  ⟨(launchOf_addLaunch ..).trans (if_pos rfl), rfl, (queueOf_modQueue ..).trans (if_pos rfl), rfl, rfl⟩

end Sys2Proof.Machine

/-! PROOF. ROUTE packets are accepted or rejected (R259, R260), and LAUNCH and ROUTE together. -/

namespace Sys2Proof.Machine

/-! ### The stages of a route (R260) -/

/-- The stages are judged by reads alone, and where all pass each has its accepted launch. -/
theorem judgeStages_reads (vf qn : Nat) (q : Queue) (tag first base : Nat) : ∀ (l : List Nat) (s : State),
    Translated s (judgeStages vf qn q tag first base l s).2 ∧
    ∀ ls, (judgeStages vf qn q tag first base l s).1 = .inl ls → ls.length = l.length ∧ ∀ m ∈ ls, m.st = .accepted
  | [], s => by
    refine ⟨.refl s, fun ls h => ?_⟩
    obtain rfl : [] = ls := Sum.inl.inj h
    exact ⟨rfl, fun _ hm => absurd hm List.not_mem_nil⟩
  | i :: l, s => by
    unfold judgeStages
    extract_lets n b
    split
    · exact ⟨.refl s, fun _ h => nomatch h⟩
    · exact ⟨.refl s, fun _ h => nomatch h⟩
    · next r y _ _ _ _ =>
      have hr := judgeLaunch_judged s vf qn n q b
      obtain ⟨hreads, hall⟩ := judgeStages_reads vf qn q tag first base l r.2
      split
      · exact ⟨hr.reads, fun _ h => nomatch h⟩
      · next m hm =>
        split
        · next ls hls =>
          refine ⟨hr.reads.trans hreads, fun _ h => ?_⟩
          cases h
          obtain ⟨hlen, hacc⟩ := hall ls hls
          exact ⟨congrArg (· + 1) hlen, List.forall_mem_cons.2 ⟨(hr.good m hm).accepted, hacc⟩⟩
        · next hnot => exact ⟨hr.reads.trans hreads, fun ls h => absurd h (hnot ls)⟩

/-! ### What the acceptance of a route puts in place (R260) -/

theorem addLaunches_cons (l : Launch) (ls : List Launch) (s : State) : addLaunches (l :: ls) s = addLaunches ls (addLaunch s l) := rfl

/-- A reading that adding a launch leaves is left by adding several. -/
theorem addLaunches_reads {α : Type} (read : State → α) (h : ∀ s l, read (addLaunch s l) = read s) : ∀ (ls : List Launch) (s : State),
    read (addLaunches ls s) = read s
  | [], _ => rfl
  | l :: ls, s => (addLaunches_reads read h ls (addLaunch s l)).trans (h s l)

theorem addLaunches_nextId : ∀ (ls : List Launch) (s : State), (addLaunches ls s).nextId = s.nextId + ls.length
  | [], _ => rfl
  | l :: ls, s => by rw [addLaunches_cons, addLaunches_nextId ls, addLaunch_nextId, List.length_cons, Nat.add_assoc, Nat.add_comm 1]

theorem launchOf_addLaunches_older {n : Nat} : ∀ (ls : List Launch) (s : State), n < s.nextId → launchOf (addLaunches ls s) n = launchOf s n
  | [], _, _ => rfl
  | l :: ls, s, h => by
    rw [addLaunches_cons, launchOf_addLaunches_older ls _ (Nat.lt_succ_of_lt h), launchOf_addLaunch, if_neg (Nat.ne_of_lt h)]

/-- Launches stand under consecutive identifiers. -/
theorem launchOf_addLaunches {l : Launch} : ∀ (ls : List Launch) (s : State) (i : Nat), ls[i]? = some l →
    launchOf (addLaunches ls s) (s.nextId + i) = some l
  | [], _, _, h => by simp at h
  | m :: ls, s, i, h => by
    rw [addLaunches_cons]
    cases i with
    | zero => rw [Nat.add_zero, launchOf_addLaunches_older ls _ (Nat.lt_succ_self _), launchOf_addLaunch, if_pos rfl, ← h, List.getElem?_cons_zero]
    | succ i => rw [← Nat.succ_add_eq_add_succ]; exact launchOf_addLaunches ls (addLaunch s m) i h

/-- A reading that a stream leaves is left by several. -/
theorem addStreams_reads {α : Type} (read : State → α) (h : ∀ (s : State) streams n, read { s with streams := streams, nextId := n } = read s)
    (ls : List Launch) (lid0 : Nat) : ∀ (bs : List (List Nat)) (s : State), read (addStreams ls lid0 bs s) = read s
  | [], _ => rfl
  | _ :: bs, s => (addStreams_reads read h ls lid0 bs _).trans (h s _ _)

theorem addStreams_nextId (ls : List Launch) (lid0 : Nat) : ∀ (bs : List (List Nat)) (s : State),
    (addStreams ls lid0 bs s).nextId = s.nextId + bs.length
  | [], _ => rfl
  | b :: bs, s => by
    rw [addStreams, addStreams_nextId ls lid0 bs, List.length_cons, Nat.add_assoc, Nat.add_comm 1]

theorem consumeAll_head : ∀ (ps : List (List Byte)) (q : Queue), (consumeAll ps q).head = q.head + BitVec.ofNat 32 ps.length
  | [], q => (BitVec.add_zero q.head).symm
  | p :: ps, q => by
    have hone : (consumePkt p q).head = q.head + 1 := rfl
    rw [consumeAll, consumeAll_head ps, hone, List.length_cons, BitVec.ofNat_add]
    ac_rfl

/-- An accepted route: its launches, its streams' identifiers, its entry, and its packets consumed. -/
theorem acceptRoute_leaves (s : State) (vf qn k : Nat) (q : Queue) (p : List Byte) (ls : List Launch) (bs : List (List Nat)) :
    let t := acceptRoute s vf qn k q p ls bs
    (∀ i l, ls[i]? = some l → launchOf t (s.nextId + i) = some l) ∧
    (queueOf t k).head = (queueOf s k).head + BitVec.ofNat 32 (1 + ls.length) ∧
    (∃ r e, Tab.find t.routes e = some r ∧ r.tag = pByte p 8 ∧ r.lids = (List.range ls.length).map (s.nextId + ·)) ∧
    t.nextId = s.nextId + ls.length + bs.length + 1 ∧ t.waves = s.waves ∧ t.mem = s.mem := by
  have hlaunches (n : Nat) : launchOf (addStreams ls s.nextId bs (addLaunches ls s)) n = launchOf (addLaunches ls s) n :=
    addStreams_reads (launchOf · n) (fun _ _ _ => rfl) ..
  have hqueue : queueOf (addStreams ls s.nextId bs (addLaunches ls s)) k = queueOf s k :=
    (addStreams_reads (queueOf · k) (fun _ _ _ => rfl) ..).trans (addLaunches_reads (queueOf · k) (fun _ _ => rfl) ..)
  have hnext : (addStreams ls s.nextId bs (addLaunches ls s)).nextId = s.nextId + ls.length + bs.length := by
    rw [addStreams_nextId, addLaunches_nextId]
  refine ⟨fun i l h => (hlaunches _).trans (launchOf_addLaunches ls s i h), ?_, ⟨_, _, Tab.find_put_same .., rfl, rfl⟩,
    congrArg (· + 1) hnext, ?_, ?_⟩
  · refine (congrArg Queue.head ((queueOf_modQueue ..).trans (if_pos rfl))).trans ?_
    rw [consumeAll_head, List.length_cons, List.length_map, List.length_range, Nat.add_comm ls.length 1]
    exact congrArg (fun u : Queue => u.head + BitVec.ofNat 32 (1 + ls.length)) hqueue
  · exact (addStreams_reads State.waves (fun _ _ _ => rfl) ..).trans (addLaunches_reads State.waves (fun _ _ => rfl) ..)
  · exact (addStreams_reads State.mem (fun _ _ _ => rfl) ..).trans (addLaunches_reads State.mem (fun _ _ => rfl) ..)

/-! ### ROUTE -/

section Route

variable {s : State} {qid : QId} {q : Queue} {p : List Byte} (h : PacketRead s qid 2 q p) (hfields : firstBad (routeFields p) = none)
  (htag : (s.routes.any fun e => queueKey e.2.vf e.2.q == qKey qid && e.2.tag == pByte p 8) = false)
include h hfields htag

theorem exec_route_waits (hshort : (q.tail - q.head).toNat < 1 + pByte p 10) : exec (.route qid) s = .refused .notEnabled := by
  change execRoute qid s = _
  rw [execRoute, packetStep_of_packetRead h]
  simp only [hfields, served_routes, htag, Bool.false_eq_true, if_false, if_pos hshort, notEnabled]

variable (hwritten : 1 + pByte p 10 ≤ (q.tail - q.head).toNat)
include hwritten

theorem exec_route_rejected {m d : Nat} {s1 : State}
    (hstages : judgeStages qid.vf.toNat qid.q.toNat q (pByte p 8) (pByte p 9) q.head.toNat (List.range (pByte p 10)) (served s qid) =
      (.inr (m, d), s1)) :
    exec (.route qid) s = .next (bump (reject s1 (qKey qid) m 0x46 d)) := by
  change execRoute qid s = _
  rw [execRoute, packetStep_of_packetRead h]
  simp only [hfields, served_routes, htag, Bool.false_eq_true, if_false, if_neg (Nat.not_lt.2 hwritten), hstages, done]

theorem exec_route_accepted {ls : List Launch} {s1 s2 : State} {bb : List Byte} {bs : List (List Nat)}
    (hstages : judgeStages qid.vf.toNat qid.q.toNat q (pByte p 8) (pByte p 9) q.head.toNat (List.range (pByte p 10)) (served s qid) = (.inl ls, s1))
    (hread : asidRead s1 true 0 q.asid (fieldAt p 16 8) (16 * pByte p 11) = (some bb, s2))
    (hbinds : (entriesOf 16 (pByte p 11) bb).map (bindOf (pByte p 10)) = bs.map some) (htwice : bindTwice bs = false)
    (hrings : bs.all (ringOk ls) = true) :
    exec (.route qid) s = .next (bump (acceptRoute s2 qid.vf.toNat qid.q.toNat (qKey qid) q p ls bs)) := by
  have hall : (bs.map some).any Option.isNone = false := by simp
  have hvalues : (bs.map some).filterMap id = bs := by simp
  change execRoute qid s = _
  rw [execRoute, packetStep_of_packetRead h]
  simp only [hfields, served_routes, htag, Bool.false_eq_true, if_false, if_neg (Nat.not_lt.2 hwritten), hstages, hread,
    hbinds, hall, hvalues, htwice, hrings, Bool.not_true, Bool.or_false, done]

end Route

/-! ### The obligation -/

/-- Settles O55: the judgement reads alone, so that what the acceptance puts in place is all that a packet changes. -/
theorem launchesAndRoutesAccepted : Obligations.LaunchesAndRoutesAccepted := by
  unfold Obligations.LaunchesAndRoutesAccepted
  intro s qid q p
  refine ⟨fun h htag => ⟨fun o ho => ?field, fun l hok => ?accepted, fun c d hbad => ?rejected⟩, fun h htag => ?tagged,
    fun h hfields hroutes => ⟨exec_route_waits h hfields hroutes, fun ls s1 bb s2 bs hwritten hstages hread hbinds htwice hrings => ?route,
      fun m d s1 hwritten hstages => ⟨_, exec_route_rejected h hfields hroutes hwritten hstages, rfl⟩⟩⟩
  case field => rw [judgeLaunch_of_badField _ _ ho]
  case accepted =>
    have hjudged := judgeLaunch_judged (served s qid) qid.vf.toNat qid.q.toNat q.head.toNat q p
    have hreads := hjudged.reads
    have hl := hjudged.good l hok
    rw [funcOf_served] at hl
    obtain ⟨hlaunch, hnext, hqueue, hwaves, hmem⟩ :=
      launchAccepted_leaves (judgeLaunch (served s qid) qid.vf.toNat qid.q.toNat q.head.toNat q p).2 (qKey qid) p l
    rw [hreads.nextId] at hlaunch hnext
    rw [hreads.queueOf, show queueOf (served s qid) (qKey qid) = q from h.1.symm] at hqueue
    have hhandler := hl.handler
    refine ⟨_, _, exec_launch_ok h htag hok, hlaunch, hnext, hqueue.symm, rfl, rfl, hl.ofVf, hl.ofQueue, hl.ofPkt, hl.ofAsid,
      hl.fields, hl.accepted, hl.placed, congrArg HTab.en hhandler, congrArg HTab.entries hhandler, ?_,
      hwaves.trans hreads.waves, hmem.trans hreads.mem⟩
    rw [hl.level, hl.fields]
  case rejected =>
    have hreads := (judgeLaunch_judged (served s qid) qid.vf.toNat qid.q.toNat q.head.toNat q p).reads
    obtain ⟨hlaunches, hqueue, hwaves⟩ :=
      rejectLaunch_leaves (judgeLaunch (served s qid) qid.vf.toNat qid.q.toNat q.head.toNat q p).2 (qKey qid) q.head.toNat c d p
    rw [hreads.queueOf, show queueOf (served s qid) (qKey qid) = q from h.1.symm] at hqueue
    exact ⟨_, exec_launch_bad h htag hbad, hlaunches.trans hreads.launches, congrArg Queue.fault hqueue, congrArg Queue.st hqueue,
      (congrArg Queue.head hqueue :), hwaves.trans hreads.waves⟩
  case tagged =>
    obtain ⟨c, o, hexec⟩ := exec_launch_tagged h htag
    exact ⟨_, hexec, faultQueue_launches .., congrArg Queue.fault (faultQueue_queue ..)⟩
  case route =>
    obtain ⟨hjudged, hall⟩ :=
      judgeStages_reads qid.vf.toNat qid.q.toNat q (pByte p 8) (pByte p 9) q.head.toNat (List.range (pByte p 10)) (served s qid)
    obtain ⟨hlen, hst⟩ := hall ls (congrArg Prod.fst hstages)
    rw [List.length_range] at hlen
    have hbinding := Translated.asidRead s1 true 0 q.asid (leNat ((p.drop 16).take 8)) (16 * pByte p 11)
    rw [hstages] at hjudged
    rw [hread] at hbinding
    have hreads : Translated (served s qid) s2 := hjudged.trans hbinding
    obtain ⟨hlaunches, hhead, ⟨r, e, hr, htag, hlids⟩, hnext, hwaves, hmem⟩ :=
      acceptRoute_leaves s2 qid.vf.toNat qid.q.toNat (qKey qid) q p ls bs
    rw [hreads.nextId] at hlaunches hlids hnext
    rw [hreads.queueOf, show queueOf (served s qid) (qKey qid) = q from h.1.symm] at hhead
    rw [hlen] at hhead hlids hnext
    exact ⟨_, r, exec_route_accepted h hfields hroutes hwritten hstages hread hbinds htwice hrings, hlen,
      fun i l hl => ⟨hlaunches i l hl, hst l (List.mem_of_getElem? hl)⟩, hhead, ⟨e, hr⟩, htag, hlids, hnext,
      hwaves.trans hreads.waves, hmem.trans hreads.mem⟩

end Sys2Proof.Machine

/-! PROOF. The droop detector's events (R293, R407). -/

namespace Sys2Proof.Machine

/-! ### Steps on the cores of a cluster -/

/-- A step on one core of a state, told by that core and the time. -/
structure CoreLocal (step : State → Nat → State) : Prop where
  others : ∀ s k n, n ≠ k → coreOf (step s k) n = coreOf s n
  own : ∀ s t k, coreOf t k = coreOf s k → t.now = s.now → coreOf (step t k) k = coreOf (step s k) k
  now : ∀ s k, (step s k).now = s.now

/-- Steps on different cores each find their core as it was. -/
theorem CoreLocal.coreOf_foldl {step : State → Nat → State} (h : CoreLocal step) (n : Nat) : ∀ (l : List Nat) (s : State), l.Nodup →
    coreOf (l.foldl step s) n = if n ∈ l then coreOf (step s n) n else coreOf s n
  | [], _, _ => rfl
  | k :: l, s, hl => by
    obtain ⟨hk, hl⟩ := List.nodup_cons.1 hl
    rw [List.foldl_cons, h.coreOf_foldl n l (step s k) hl]
    by_cases hn : n = k
    · subst hn
      rw [if_neg hk, if_pos List.mem_cons_self]
    · rw [h.own s (step s k) n (h.others s k n hn) (h.now s k), h.others s k n hn]
      exact if_congr (by rw [List.mem_cons, or_iff_right hn]) rfl rfl

theorem mem_cluster {cl n : Nat} : n ∈ (List.range 4).map (4 * cl + ·) ↔ n / 4 = cl := by
  simp only [List.mem_map, List.mem_range]
  exact ⟨fun ⟨i, hi, hn⟩ => by omega, fun h => ⟨n % 4, by omega, by omega⟩⟩

theorem nodup_cluster (cl : Nat) : ((List.range 4).map (4 * cl + ·)).Nodup := List.nodup_range.map fun _ _ h => Nat.add_left_cancel h

theorem any_cluster {cl : Nat} {p : Nat → Bool} : (List.range 4).any (fun i => p (4 * cl + i)) = true ↔ ∃ c, c / 4 = cl ∧ p c = true := by
  rw [show (fun i => p (4 * cl + i)) = p ∘ (4 * cl + ·) from rfl, ← List.any_map, List.any_eq_true]
  exact exists_congr fun c => and_congr_left' mem_cluster

/-- A step on each core of a cluster. -/
theorem CoreLocal.coreOf_cluster {step : State → Nat → State} (h : CoreLocal step) (s : State) (cl n : Nat) :
    coreOf ((List.range 4).foldl (fun a i => step a (4 * cl + i)) s) n = if n / 4 = cl then coreOf (step s n) n else coreOf s n := by
  rw [← List.foldl_map (f := (4 * cl + ·)), h.coreOf_foldl n _ s (nodup_cluster cl)]
  exact if_congr mem_cluster rfl rfl

theorem coreLocal_modCore (f : Core → Core) : CoreLocal fun s k => modCore s k f where
  others s k n h := (coreOf_modCore ..).trans (if_neg h)
  own s t k h _ := by simp only [coreOf_modCore, if_pos, h]
  now _ _ := rfl

theorem coreOf_modCluster (s : State) (cl : Nat) (f : Core → Core) (n : Nat) :
    coreOf (modCluster s cl f) n = if n / 4 = cl then f (coreOf s n) else coreOf s n :=
  ((coreLocal_modCore f).coreOf_cluster s cl n).trans (by simp only [coreOf_modCore, if_true])

theorem MachineryMoved.modCluster (s : State) (cl : Nat) (f : Core → Core) : MachineryMoved s (modCluster s cl f) :=
  .foldl (fun s i => .modCore s (4 * cl + i) f) ..

theorem modCluster_clusters (s : State) (cl : Nat) (f : Core → Core) : (modCluster s cl f).clusters = s.clusters :=
  foldl_reads (f := fun a i => modCore a (4 * cl + i) f) State.clusters (fun _ _ => rfl) _ s

/-! ### Cores brought up to the present (R295) -/

theorem MachineryMoved.now {s t : State} (h : MachineryMoved s t) : t.now = s.now := by obtain ⟨_, _, _, rfl⟩ := h; rfl

section

variable {s t : State} {c : Nat} (h : coreOf t c = coreOf s c)
include h

theorem flatPeriod_congr : flatPeriod t c = flatPeriod s c := by
  simp only [flatPeriod, periodOf, coreOf_modCore, if_true, h]

theorem coreOf_catchUp_congr (hnow : t.now = s.now) : coreOf (catchUp t c) c = coreOf (catchUp s c) c := by
  have hedges : idleEdges t c = idleEdges s c := by
    simp only [idleEdges, h, hnow, flatPeriod_congr h]
  simp only [catchUp, h, hedges, flatPeriod_congr h]
  split
  · exact h
  · simp only [coreOf_setCore, if_true]

end

theorem coreLocal_catchUp : CoreLocal catchUp where
  others s _ _ h := coreOf_catchUp_ne s h
  own _ _ _ := coreOf_catchUp_congr
  now s k := (MachineryMoved.catchUp s k).now

/-- The cores of a cluster as they stand at the present. -/
theorem coreOf_catchCluster (s : State) (cl n : Nat) :
    coreOf (catchCluster s cl) n = if n / 4 = cl then coreOf (catchUp s n) n else coreOf s n := by
  refine (coreLocal_catchUp.coreOf_cluster (quietGain s cl) cl n).trans ?_
  rw [coreOf_catchUp_congr (coreOf_quietGain s cl n) (quietGain_now s cl), coreOf_quietGain]

theorem MachineryMoved.catchCluster (s : State) (cl : Nat) : MachineryMoved s (catchCluster s cl) :=
  (MachineryMoved.quietGain s cl).trans (.foldl (fun s i => .catchUp s (4 * cl + i)) ..)

theorem catchCluster_dies (s : State) (cl : Nat) : (catchCluster s cl).dies = s.dies :=
  (foldl_reads State.dies (fun _ _ => catchUp_dies ..) ..).trans (quietGain_dies s cl)

theorem catchUp_clusters (s : State) (c : Nat) : (catchUp s c).clusters = s.clusters := by
  unfold catchUp; extract_lets; split <;> rfl

theorem quietGain_alarms (s : State) (cl n : Nat) : (clus (quietGain s cl) n).alarms = (clus s n).alarms := by
  unfold quietGain
  split
  · simp only [clus_setClus]
    split
    · next h => rw [h]
    · rfl
  · rfl

theorem catchCluster_alarms (s : State) (cl n : Nat) : (clus (catchCluster s cl) n).alarms = (clus s n).alarms := by
  refine Eq.trans ?_ (quietGain_alarms s cl n)
  exact congrArg (fun x => (Tab.findD x n Cluster4.init).alarms) (foldl_reads State.clusters (fun _ _ => catchUp_clusters ..) ..)

/-! ### DROOP_ALARM -/

/-- An alarm is counted, up to the largest count. -/
def countAlarm (c : Cluster4) : Cluster4 := { c with alarms := BitVec.ofNat 32 (min (c.alarms.toNat + 1) (2 ^ 32 - 1)) }

theorem toNat_countAlarm (c : Cluster4) : (countAlarm c).alarms.toNat = min (c.alarms.toNat + 1) (2 ^ 32 - 1) := by
  rw [countAlarm, BitVec.toNat_ofNat, Nat.mod_eq_of_lt (by omega)]

theorem clus_modClus_same (s : State) (cl : Nat) (f : Cluster4 → Cluster4) : clus (modClus s cl f) cl = f (clus s cl) :=
  (clus_setClus ..).trans (if_pos rfl)

/-- Each core of a cluster, at the present, after an alarm. -/
def alarmed (s : State) (cl : Nat) : State := modCluster (catchCluster s cl) cl alarmCore

/-- Some core of a cluster hears an alarm: it is not stretching. -/
def hears (s : State) (cl : Nat) : Bool := (List.range 4).any fun i => (coreOf (catchCluster s cl) (4 * cl + i)).stretch.isNone

theorem hears_iff {s : State} {cl : Nat} : hears s cl = true ↔ ∃ c, c / 4 = cl ∧ (coreOf (catchUp s c) c).stretch = none := by
  refine (any_cluster (p := fun c => (coreOf (catchCluster s cl) c).stretch.isNone)).trans (exists_congr fun c => and_congr_right fun hc => ?_)
  rw [coreOf_catchCluster, if_pos hc, Option.isNone_iff_eq_none]

theorem exec_droopAlarm (s : State) (cl : Nat) :
    exec (.droopAlarm cl) s = .next (bump (if hears s cl then modClus (alarmed s cl) cl countAlarm else alarmed s cl)) := rfl

theorem coreOf_alarmed (s : State) (cl c : Nat) :
    coreOf (alarmed s cl) c = if c / 4 = cl then alarmCore (coreOf (catchUp s c) c) else coreOf s c := by
  rw [alarmed, coreOf_modCluster, coreOf_catchCluster]
  split <;> rfl

theorem alarmed_alarms (s : State) (cl : Nat) : (clus (alarmed s cl) cl).alarms = (clus s cl).alarms :=
  (congrArg (fun x => (Tab.findD x cl Cluster4.init).alarms) (modCluster_clusters ..)).trans (catchCluster_alarms ..)

theorem MachineryMoved.alarmed (s : State) (cl : Nat) : MachineryMoved s (alarmed s cl) := (MachineryMoved.catchCluster s cl).trans (.modCluster ..)

/-- An alarm reaches the cores of its cluster, and is counted where one of them hears it. -/
theorem droopAlarm_acts (s : State) (cl : Nat) : ∃ t, exec (.droopAlarm cl) s = .next t ∧ t.waves = s.waves ∧ t.mem = s.mem ∧
    (∀ c, coreOf t c = if c / 4 = cl then alarmCore (coreOf (catchUp s c) c) else coreOf s c) ∧
    (hears s cl = true → (clus t cl).alarms.toNat = min ((clus s cl).alarms.toNat + 1) (2 ^ 32 - 1)) ∧
    (¬ hears s cl = true → (clus t cl).alarms = (clus s cl).alarms) := by
  have hexec := exec_droopAlarm s cl
  have hmoved := MachineryMoved.alarmed s cl
  have hcores := coreOf_alarmed s cl
  have halarms := alarmed_alarms s cl
  generalize alarmed s cl = u at hexec hmoved hcores halarms
  by_cases hh : hears s cl = true
  · rw [if_pos hh] at hexec
    refine ⟨_, hexec, hmoved.waves, hmoved.mem, hcores, fun _ => ?_, fun h => absurd hh h⟩
    rw [← halarms, ← toNat_countAlarm]
    exact congrArg (fun c : Cluster4 => c.alarms.toNat) (clus_modClus_same u cl countAlarm)
  · rw [if_neg hh] at hexec
    exact ⟨_, hexec, hmoved.waves, hmoved.mem, hcores, fun h => absurd h hh, fun _ => halarms⟩

/-! ### The ends of stretching and halving -/

/-- A step on the cores of a cluster that meet a condition. -/
theorem coreOf_modCluster_if (s : State) (cl n : Nat) (p : Core → Prop) [DecidablePred p] (f : Core → Core) :
    coreOf (modCluster s cl fun x => if p x then f x else x) n = if n / 4 = cl ∧ p (coreOf s n) then f (coreOf s n) else coreOf s n := by
  rw [coreOf_modCluster]
  by_cases hcl : n / 4 = cl
  · simp only [hcl, true_and, if_true]
  · simp only [hcl, false_and, if_false]

/-- A core whose stretching has run out begins its halving, in a fresh pair. -/
def endStretch (x : Core) : Core := if x.stretch = some 0 then { x with stretch := none, halve := some 64, pair := 0 } else x

/-- A core whose halving has run out. -/
def endHalving (x : Core) : Core := if x.halve = some 0 then { x with halve := none } else x

theorem coreOf_endStretch (s : State) (cl n : Nat) : coreOf (modCluster s cl endStretch) n =
    if n / 4 = cl ∧ (coreOf s n).stretch = some 0 then { coreOf s n with stretch := none, halve := some 64, pair := 0 } else coreOf s n :=
  coreOf_modCluster_if s cl n (fun x => x.stretch = some 0) fun x => { x with stretch := none, halve := some 64, pair := 0 }

theorem coreOf_endHalving (s : State) (cl n : Nat) : coreOf (modCluster s cl endHalving) n =
    if n / 4 = cl ∧ (coreOf s n).halve = some 0 then { coreOf s n with halve := none } else coreOf s n :=
  coreOf_modCluster_if s cl n (fun x => x.halve = some 0) fun x => { x with halve := none }

theorem exec_droopStretchEnd (s : State) (cl : Nat) :
    exec (.droopStretchEnd cl) s = if (List.range 4).any fun i => (coreOf s (4 * cl + i)).stretch == some 0 then
      .next (bump (modCluster s cl endStretch)) else .refused .notEnabled := rfl

theorem exec_droopHalvingEnd (s : State) (cl : Nat) :
    exec (.droopHalvingEnd cl) s = if (List.range 4).any fun i => (coreOf s (4 * cl + i)).halve == some 0 then
      .next (bump (modCluster s cl endHalving)) else .refused .notEnabled := rfl

theorem stretchOver_iff {s : State} {cl : Nat} : ((List.range 4).any fun i => (coreOf s (4 * cl + i)).stretch == some 0) = true ↔
    ∃ c, c / 4 = cl ∧ (coreOf s c).stretch = some 0 := by
  simpa only [beq_iff_eq] using any_cluster (cl := cl) (p := fun c => (coreOf s c).stretch == some 0)

theorem halvingOver_iff {s : State} {cl : Nat} : ((List.range 4).any fun i => (coreOf s (4 * cl + i)).halve == some 0) = true ↔
    ∃ c, c / 4 = cl ∧ (coreOf s c).halve = some 0 := by
  simpa only [beq_iff_eq] using any_cluster (cl := cl) (p := fun c => (coreOf s c).halve == some 0)

end Sys2Proof.Machine

/-! PROOF. The rail loop of a slice (R174, R176). -/

namespace Sys2Proof.Machine

/-! ### One interval -/

theorem getD_listSet {α : Type} (d v : α) : ∀ (l : List α) (n : Nat), n < l.length → (listSet l n v).getD n d = v
  | [], _, h => absurd h (Nat.not_lt_zero _)
  | _ :: _, 0, _ => rfl
  | _ :: l, n + 1, h => getD_listSet d v l n (Nat.lt_of_succ_lt_succ h)

/-- The integral of a slice at the end of an interval: its detections against their expectation (R174). -/
def railSum (x : Slice) (texp : Nat) : Int := x.int + x.det * 2 ^ 40 - (2 ^ texp * x.ops : Nat)

section Rail

variable {x : Slice} {op texp lo hi : Nat}

/-- Too many detections lower the offset by one step, or count a limited step at the edge of the window. -/
theorem railStep_over (hwindow : lo ≤ hi) (hop : op < x.offs.length) (h : 4 * 2 ^ 40 ≤ railSum x texp) :
    let y := railStep x op texp lo hi
    let off := x.offs.getD op 0
    y.int = 0 ∧ (lo < off → y.offs.getD op 0 = off - 1 ∧ y.lim = 0) ∧ (off = lo → y.offs.getD op 0 = off ∧ y.lim = x.lim + 1) := by
  intro y off
  have hy : y = if lo < off then { x with offs := listSet x.offs op (off - 1), lim := 0, int := 0 } else { x with lim := x.lim + 1, int := 0 } :=
    (if_pos h).trans (by rw [min_eq_left hwindow])
  by_cases hoff : lo < off
  · rw [if_pos hoff] at hy
    exact hy ▸ ⟨rfl, fun _ => ⟨getD_listSet _ _ _ _ hop, rfl⟩, fun hedge => absurd hedge (Nat.ne_of_gt hoff)⟩
  · rw [if_neg hoff] at hy
    exact hy ▸ ⟨rfl, fun hlt => absurd hlt hoff, fun _ => ⟨rfl, rfl⟩⟩

/-- Too few raise it. -/
theorem railStep_under (hop : op < x.offs.length) (h : railSum x texp ≤ -(4 * 2 ^ 40)) :
    let y := railStep x op texp lo hi
    y.int = 0 ∧ y.offs.getD op 0 = min (x.offs.getD op 0 + 1) hi ∧ y.lim = 0 := by
  intro y
  have hy : y = { x with offs := listSet x.offs op (min (x.offs.getD op 0 + 1) hi), int := 0, lim := 0 } :=
    (if_neg (show ¬ 4 * 2 ^ 40 ≤ railSum x texp by omega)).trans (if_pos h)
  exact hy ▸ ⟨rfl, getD_listSet _ _ _ _ hop, rfl⟩

/-- Otherwise the integral goes on. -/
theorem railStep_within (hlo : -(4 * 2 ^ 40) < railSum x texp) (hhi : railSum x texp < 4 * 2 ^ 40) :
    railStep x op texp lo hi = { x with int := railSum x texp } :=
  (if_neg (not_le.2 hhi)).trans (if_neg (not_le.2 hlo))

theorem railStep_held : (railStep x op texp lo hi).held = x.held := by
  unfold railStep
  extract_lets i off
  split_ifs <;> rfl

end Rail

/-! ### SLICE_RAIL_LOOP -/

/-- Slice n of a core. -/
def sliceAt (s : State) (core n : Nat) : Slice := (coreOf s core).slices.getD n Slice.init

/-- A slice with its offsets moved into the die's window (R176). -/
def clampedSlice (s : State) (core n : Nat) : Slice :=
  { sliceAt s core n with offs := (sliceAt s core n).offs.map (clampOff (dieOf s (core / 32)).minoff (dieOf s (core / 32)).maxoff) }

/-- The rail loop acts on a slice that is undervolted and has worked (R174). -/
def railActs (s : State) (core n : Nat) : Bool :=
  (dieOf s (core / 32)).loopen && (sliceAt s core n).ops != 0 && (undervolted s core (tileLevel s core)).contains n

/-- A slice after its interval, but for what the next interval begins with. -/
def railed (s : State) (core n : Nat) : Slice :=
  if railActs s core n then
    railStep (clampedSlice s core n) (coreOf s core).op (dieOf s (core / 32)).texp (dieOf s (core / 32)).minoff (dieOf s (core / 32)).maxoff
  else clampedSlice s core n

/-- The sixteenth limited step in a row holds a slice on the core rail. -/
def railHolds (s : State) (core n : Nat) : Bool := railActs s core n && (railed s core n).lim == 16

/-- A slice as its next interval begins. -/
def railedSlice (s : State) (core n : Nat) : Slice :=
  { railed s core n with
    ops := 0
    det := 0
    since := (sliceAt s core n).since + 60000
    held := if railHolds s core n then (coreOf s core).tile else (railed s core n).held }

/-- The state after an interval of a slice. -/
def railMoved (s : State) (core n : Nat) : State :=
  let s1 := setCore s core { coreOf s core with slices := listSet (coreOf s core).slices n (railedSlice s core n) }
  if railHolds s core n then modDie s1 (core / 32) fun d => { d with limit := d.limit ||| BitVec.ofNat 3 (2 ^ n) } else s1

theorem exec_sliceRailLoop_early {s : State} {core : Nat} {n : BitVec 2} (h : n = 3 ∨ s.now / 105 < (sliceAt s core n.toNat).since + 60000) :
    exec (.sliceRailLoop core n) s = .refused .notEnabled := if_pos h

theorem exec_sliceRailLoop_due {s : State} {core : Nat} {n : BitVec 2} (hn : n ≠ 3) (h : (sliceAt s core n.toNat).since + 60000 ≤ s.now / 105) :
    exec (.sliceRailLoop core n) s = .next (bump (railMoved s core n.toNat)) := if_neg (not_or.2 ⟨hn, Nat.not_lt.2 h⟩)

/-! ### What an interval leaves -/

section Railed

variable {s : State} {core n : Nat}

theorem MachineryMoved.railMoved (s : State) (core n : Nat) : MachineryMoved s (railMoved s core n) := by
  unfold Machine.railMoved
  extract_lets c s1
  split <;> exact ⟨_, _, _, rfl⟩

theorem sliceAt_railMoved (h : n < (coreOf s core).slices.length) : sliceAt (railMoved s core n) core n = railedSlice s core n := by
  have hcore : coreOf (railMoved s core n) core = { coreOf s core with slices := listSet (coreOf s core).slices n (railedSlice s core n) } := by
    unfold railMoved
    extract_lets c s1
    have hs1 : coreOf s1 core = _ := (coreOf_setCore ..).trans (if_pos rfl)
    split <;> exact hs1
  rw [sliceAt, hcore]
  exact getD_listSet _ _ _ _ h

theorem railed_held : (railed s core n).held = (sliceAt s core n).held := by
  unfold railed
  split
  · exact railStep_held
  · rfl

theorem railActs_iff : railActs s core n = true ↔ (dieOf s (core / 32)).loopen = true ∧ (sliceAt s core n).ops ≠ 0 ∧
    n ∈ undervolted s core (tileLevel s core) := by
  simp [railActs, and_assoc]

theorem not_railActs (h : (dieOf s (core / 32)).loopen = false ∨ (sliceAt s core n).ops = 0 ∨ n ∉ undervolted s core (tileLevel s core)) :
    ¬ railActs s core n = true := fun hacts => by
  obtain ⟨hloop, hops, hruns⟩ := railActs_iff.1 hacts
  obtain h | h | h := h
  · exact Bool.false_ne_true (h.symm.trans hloop)
  · exact hops h
  · exact h hruns

section Offset

variable (hwindow : (dieOf s (core / 32)).minoff ≤ (dieOf s (core / 32)).maxoff) (hop : (coreOf s core).op < (sliceAt s core n).offs.length)
include hwindow hop

theorem clampedSlice_off : (clampedSlice s core n).offs.getD (coreOf s core).op 0 =
    max (dieOf s (core / 32)).minoff (min ((sliceAt s core n).offs.getD (coreOf s core).op 0) (dieOf s (core / 32)).maxoff) := by
  simp [clampedSlice, clampOff, List.getD_eq_getElem?_getD, hop, min_eq_left hwindow]

/-- A slice on which the loop does not act keeps its integral and its count, and its offset moves into the window (R176, log 54). -/
theorem railedSlice_idle (h : ¬ railActs s core n = true) :
    (railedSlice s core n).int = (sliceAt s core n).int ∧ (railedSlice s core n).lim = (sliceAt s core n).lim ∧
      (railedSlice s core n).offs.getD (coreOf s core).op 0 =
        max (dieOf s (core / 32)).minoff (min ((sliceAt s core n).offs.getD (coreOf s core).op 0) (dieOf s (core / 32)).maxoff) := by
  have hrailed : railed s core n = clampedSlice s core n := if_neg h
  rw [railedSlice, hrailed]
  exact ⟨rfl, rfl, clampedSlice_off hwindow hop⟩

end Offset

section Acts

variable (h : railActs s core n = true)
include h

/-- The integral, the offsets and the count of a slice on which the loop acts are those of its step. -/
theorem railedSlice_acts : ∃ y, y = railStep (clampedSlice s core n) (coreOf s core).op (dieOf s (core / 32)).texp (dieOf s (core / 32)).minoff
      (dieOf s (core / 32)).maxoff ∧
    (railedSlice s core n).int = y.int ∧ (railedSlice s core n).offs = y.offs ∧ (railedSlice s core n).lim = y.lim := by
  have hrailed : railed s core n = railStep .. := if_pos h
  exact ⟨_, hrailed, rfl, rfl, rfl⟩

theorem railHolds_of_acts : railHolds s core n = ((railedSlice s core n).lim == 16) := by
  rw [railHolds, h, Bool.true_and, railedSlice]

/-- A slice that has been stepped is held where its step was the sixteenth limited one. -/
theorem railedSlice_held :
    (railedSlice s core n).held = if (railedSlice s core n).lim = 16 then (coreOf s core).tile else (sliceAt s core n).held := by
  have hheld : (railedSlice s core n).held = if railHolds s core n then (coreOf s core).tile else (railed s core n).held := rfl
  rw [hheld, railed_held]
  exact if_congr (by rw [railHolds_of_acts h, beq_iff_eq]) rfl rfl

theorem railMoved_limit (hn : n < 3) : (dieOf (railMoved s core n) (core / 32)).limit.getLsbD n =
    ((dieOf s (core / 32)).limit.getLsbD n || (railedSlice s core n).lim == 16) := by
  rw [← railHolds_of_acts h, railMoved]
  extract_lets s1
  split
  · next hholds =>
    rw [dieOf_modDie, if_pos rfl, hholds, Bool.or_true, BitVec.getLsbD_or, BitVec.getLsbD_ofNat, Nat.testBit_two_pow_self]
    simp [hn]
  · next hholds =>
    rw [Bool.eq_false_of_not_eq_true hholds, Bool.or_false]
    rfl

end Acts

end Railed

end Sys2Proof.Machine

/-! PROOF. Sensors and counter samples (R295, R296), and the detectors and sensors together. -/

namespace Sys2Proof.Machine

/-! ### What a sample makes of a sensor (R296) -/

/-- With no neighbour that has read, their sum is 0. -/
theorem nearMean_fst {t : Tab Sensor} {current : Bool} {n : Nat} (h : (nearMean t current n).2 = 0) : (nearMean t current n).1 = 0 := by
  have key : (nearMean t current n).2 = 0 → (nearMean t current n).1 = 0 := by
    refine List.foldlRecOn (motive := fun a : Int × Nat => a.2 = 0 → a.1 = 0) t _ (fun _ => rfl) fun a ha e _ => ?_
    split
    · split
      · exact fun h => absurd h (Nat.succ_ne_zero _)
      · exact ha
    · exact ha
  exact key h

/-- The range that a reading must lie in, in tenths (R296). -/
def InRange (current : Bool) (v : Int) : Prop := if current then 0 ≤ v ∧ v ≤ 4000 else -400 ≤ v ∧ v ≤ 1500

theorem not_inRange {current : Bool} {v : Int} (h : if current then v < 0 ∨ 4000 < v else v < -400 ∨ 1500 < v) : ¬ InRange current v := by
  cases current with
  | true => exact fun hin : 0 ≤ v ∧ v ≤ 4000 => (show v < 0 ∨ 4000 < v from h).elim (by omega) (by omega)
  | false => exact fun hin : -400 ≤ v ∧ v ≤ 1500 => (show v < -400 ∨ 1500 < v from h).elim (by omega) (by omega)

theorem sampleOk_outside {current : Bool} {v : Int} (h : ¬ InRange current v) (x : Sensor) (droop : Bool) (now : Nat) (m : Int × Nat) :
    sampleOk x current droop now m v = false := by
  cases current <;> simp_all [sampleOk, InRange]

/-- A first sample without a neighbour that has read has only its range to meet (log 9). -/
theorem sampleOk_first {current : Bool} {v : Int} {x : Sensor} (hv : InRange current v) (hlast : x.last = none) (droop : Bool) (now : Nat) :
    sampleOk x current droop now (0, 0) v = true := by
  cases current <;> simp_all [sampleOk, InRange]

theorem sampled_valid (x : Sensor) (ok : Bool) (now : Nat) (m : Int × Nat) (v : Int) :
    (sampled x ok now m v).valid = (ok && (x.valid || x.rearm)) := rfl

/-! ### The hold of a die (R284, R296) -/

theorem retarget_dies (s : State) (c : Nat) : (retarget s c).dies = s.dies := by
  obtain ⟨_, h⟩ := retarget_rest s c
  rw [h]

theorem dieOf_judgeHold (s : State) (die : Nat) :
    dieOf (judgeHold s die) die = { dieOf s die with held := decide (2 < invalidSensors (dieOf s die)) } := by
  unfold judgeHold
  extract_lets hold
  split
  · next h => exact congrArg (fun x => { dieOf s die with held := x }) h.symm
  · refine (congrArg (fun x => Tab.findD x die Die.init) (foldl_reads State.dies (fun _ _ => retarget_dies ..) ..)).trans ?_
    exact (dieOf_modDie ..).trans (if_pos rfl)

theorem MachineryMoved.judgeHold (s : State) (die : Nat) : MachineryMoved s (judgeHold s die) := by
  unfold Machine.judgeHold
  extract_lets hold
  split
  · exact .refl s
  · exact MachineryMoved.trans ⟨_, _, _, rfl⟩ (.foldl (fun s i => .retarget s (32 * die + i)) ..)

/-! ### SENSOR_SAMPLE -/

/-- The table of a sample's kind of sensors takes its place in the die. -/
def putSensors (d : Die) (current : Bool) (t : Tab Sensor) : Die := if current then { d with current := t } else { d with thermal := t }

theorem sensorTab_putSensors (d : Die) (current held : Bool) (t : Tab Sensor) :
    sensorTab { putSensors d current t with held := held } current = t := by
  cases current <;> rfl

/-- The sensor of a sample after it. -/
def sensorAfter (s : State) (x : Sample) : Sensor :=
  let t := sensorTab (dieOf s x.die.toNat) x.current
  let y := Tab.findD t x.sensor.toNat Sensor.init
  let m := nearMean t x.current x.sensor.toNat
  sampled y (sampleOk y x.current (inDroop s (8 * x.die.toNat + x.sensor.toNat)) (ticks s) m x.value) (ticks s) m x.value

/-- A state after a sample, from one whose cores stand at the present. -/
def sensed (s : State) (x : Sample) : State :=
  judgeHold (setDie s x.die.toNat (putSensors (dieOf s x.die.toNat) x.current
    (Tab.put (sensorTab (dieOf s x.die.toNat) x.current) x.sensor.toNat (sensorAfter s x)))) x.die.toNat

theorem MachineryMoved.sensed (s : State) (x : Sample) : MachineryMoved s (sensed s x) := (MachineryMoved.setDie ..).trans (.judgeHold ..)

theorem exec_sensorSample (s : State) (x : Sample) : exec (.sensorSample x) s =
    if (x.current && 8 ≤ x.sensor.toNat) = true then .refused .notEnabled
    else .next (bump (sensed (catchCluster s (8 * x.die.toNat + x.sensor.toNat % 8)) x)) := rfl

/-- The die of a sample after it: the sensor in its table, and the hold by the number of invalid sensors. -/
theorem dieOf_sensed (s : State) (x : Sample) : ∃ d, d = putSensors (dieOf s x.die.toNat) x.current
      (Tab.put (sensorTab (dieOf s x.die.toNat) x.current) x.sensor.toNat (sensorAfter s x)) ∧
    dieOf (sensed s x) x.die.toNat = { d with held := decide (2 < invalidSensors d) } := by
  refine ⟨_, rfl, ?_⟩
  rw [sensed, dieOf_judgeHold, dieOf_setDie, if_pos rfl]

theorem sensorTab_sensed (s : State) (x : Sample) : sensorTab (dieOf (sensed s x) x.die.toNat) x.current =
    Tab.put (sensorTab (dieOf s x.die.toNat) x.current) x.sensor.toNat (sensorAfter s x) := by
  obtain ⟨d, hd, hdie⟩ := dieOf_sensed s x
  rw [hdie, hd]
  exact sensorTab_putSensors ..

theorem sensed_held (s : State) (x : Sample) :
    (dieOf (sensed s x) x.die.toNat).held = true ↔ 2 < invalidSensors (dieOf (sensed s x) x.die.toNat) := by
  obtain ⟨d, -, hdie⟩ := dieOf_sensed s x
  rw [hdie]
  exact decide_eq_true_iff

theorem sensorAfter_outside {s : State} {x : Sample} (h : ¬ InRange x.current x.value) : (sensorAfter s x).valid = false := by
  rw [sensorAfter, sampled_valid, sampleOk_outside h, Bool.false_and]

theorem sensorAfter_invalid {s : State} {x : Sample}
    (hvalid : (Tab.findD (sensorTab (dieOf s x.die.toNat) x.current) x.sensor.toNat Sensor.init).valid = false)
    (hrearm : (Tab.findD (sensorTab (dieOf s x.die.toNat) x.current) x.sensor.toNat Sensor.init).rearm = false) :
    (sensorAfter s x).valid = false := by
  rw [sensorAfter, sampled_valid, hvalid, hrearm, Bool.or_self, Bool.and_false]

theorem sensorAfter_first {s : State} {x : Sample} (hv : InRange x.current x.value)
    (hlast : (Tab.findD (sensorTab (dieOf s x.die.toNat) x.current) x.sensor.toNat Sensor.init).last = none)
    (hnear : (nearMean (sensorTab (dieOf s x.die.toNat) x.current) x.current x.sensor.toNat).2 = 0) :
    let y := Tab.findD (sensorTab (dieOf s x.die.toNat) x.current) x.sensor.toNat Sensor.init
    (sensorAfter s x).valid = (y.valid || y.rearm) := by
  have hmean : nearMean _ _ _ = (0, 0) := Prod.ext (nearMean_fst hnear) hnear
  rw [sensorAfter, sampled_valid, hmean, sampleOk_first hv hlast, Bool.true_and]

/-! ### COUNTER_SAMPLE (R295) -/

/-- Every core in use takes a sample. -/
def coresSampled (s : State) : State := { s with grid := s.grid + 1, cores := s.cores.map fun e => (e.1, sampleCore e.2) }

theorem exec_counterSample (s : State) : exec .counterSample s = if (s.grid + 1) * 12000 ≤ s.now / 105 then
    .next (bump (s.launches.foldl (fun a e => chargeLaunch a e.1 e.2) (coresSampled s))) else .refused .notEnabled := rfl

/-- A reading that no charge changes. -/
theorem charged_reads {α : Type} (read : State → α) (h : ∀ s lid l, read (chargeLaunch s lid l) = read s) (l : Tab Launch) (s : State) :
    read (l.foldl (fun a e => chargeLaunch a e.1 e.2) s) = read s :=
  foldl_reads read (fun s (e : Nat × Launch) => h s e.1 e.2) l s

theorem coreOf_coresSampled (s : State) (c : Nat) : coreOf (coresSampled s) c = sampleCore (coreOf s c) := by
  have hfind : Tab.find (coresSampled s).cores c = (Tab.find s.cores c).map sampleCore := Tab.find_map s.cores (fun _ => sampleCore) c
  rw [coreOf, coreOf, Tab.findD, Tab.findD, hfind]
  cases Tab.find s.cores c <;> rfl

theorem sampleCore_unused {x : Core} (h : x.shares = []) : sampleCore x = x := by simp [sampleCore, h]

theorem sampleCore_used {x : Core} (h : x.shares ≠ []) : sampleCore x = { x with
    stallSeq := x.stallSeq + 1
    stallIssue := fraction x.smpIssue x.smpCyc
    stallMem := fraction x.smpMem x.smpCyc
    smpCyc := 0
    smpIssue := 0
    smpMem := 0 } := if_neg (by simpa using h)

theorem toNat_fraction {n total : Nat} (h : total ≠ 0) : (fraction n total).toNat = min (n * 65536 / total) 65535 := by
  rw [fraction, if_neg h, BitVec.toNat_ofNat, Nat.mod_eq_of_lt (by omega)]

theorem hasTraffic_iff {s : State} {lid : Nat} : hasTraffic s lid = true ↔
    (∃ x ∈ s.acc, x.2.lid = lid) ∨ (∃ x ∈ s.copies, x.2.lid = lid) ∨ (∃ x ∈ s.pops, x.2.lid = lid) ∨
      ∃ x ∈ s.streams, ∃ p ∈ x.2.pend, p.lid = lid := by
  simp only [hasTraffic, Bool.or_eq_true, List.any_eq_true, beq_iff_eq, or_assoc]

/-- A launch is charged, and its function with it. -/
theorem chargeLaunch_energy (s : State) (lid : Nat) (l : Launch) :
    let e := if l.drew then Config.sampleEnergy s.serial lid else 0
    launchOf (chargeLaunch s lid l) lid = some { l with energy := l.energy + e, drew := hasTraffic s lid } ∧
      (funcOf (chargeLaunch s lid l) l.vf).energy = (funcOf s l.vf).energy + e :=
  ⟨(launchOf_setLaunch ..).trans (if_pos rfl), congrArg Func.energy ((funcOf_modFunc ..).trans (if_pos rfl))⟩

/-! ### The obligation -/

/-- Settles O58: an alarm core by core, the rail loop by where the integral of its slice stands, a sensor by the checks of its sample. -/
theorem detectorsAndSensorsAct : Obligations.DetectorsAndSensorsAct := by
  unfold Obligations.DetectorsAndSensorsAct
  intro s
  refine ⟨fun cl => ?alarm, fun cl => ?stretch, fun cl => ?halving, fun core n => ?rail, fun x => ?sensor, fun hearly => ?early,
    fun hdue => ?sample⟩
  case alarm =>
    obtain ⟨t, hexec, hwaves, hmem, hcores, hheard, hignored⟩ := droopAlarm_acts s cl
    exact ⟨t, hexec, hwaves, hmem, fun c hc => (hcores c).trans (if_neg hc), fun c hc => (hcores c).trans (if_pos hc),
      fun h => hheard (hears_iff.2 h), fun h => hignored fun hh => (hears_iff.1 hh).elim fun c hc => h c hc.1 hc.2⟩
  case stretch =>
    have hmoved := MachineryMoved.modCluster s cl endStretch
    rw [exec_droopStretchEnd]
    exact ⟨fun h => if_neg (mt stretchOver_iff.1 h), fun h => ⟨_, if_pos (stretchOver_iff.2 h), hmoved.waves, coreOf_endStretch s cl⟩⟩
  case halving =>
    have hmoved := MachineryMoved.modCluster s cl endHalving
    rw [exec_droopHalvingEnd]
    exact ⟨fun h => if_neg (mt halvingOver_iff.1 h), fun h => ⟨_, if_pos (halvingOver_iff.2 h), hmoved.waves, coreOf_endHalving s cl⟩⟩
  case rail =>
    refine ⟨exec_sliceRailLoop_early, fun hn hdue hwindow hop hslices => ?_⟩
    have hmoved := MachineryMoved.railMoved s core n.toNat
    have hthree : n.toNat < 3 := by bv_omega
    refine ⟨_, _, exec_sliceRailLoop_due hn hdue, hmoved.waves, hmoved.mem, (sliceAt_railMoved hslices).symm, rfl, rfl, rfl,
      fun hidle => railedSlice_idle hwindow hop (not_railActs hidle), fun hloop hops hruns => ?_⟩
    have hacts := railActs_iff.2 ⟨hloop, hops, hruns⟩
    have hoff := clampedSlice_off hwindow hop
    have hlen : (coreOf s core).op < (clampedSlice s core n.toNat).offs.length := (List.length_map _).symm ▸ hop
    obtain ⟨y, hy, hint, hoffs, hlim⟩ := railedSlice_acts hacts
    refine ⟨fun hover => ?_, fun hunder => ?_, fun hlo hhi => ?_, railedSlice_held hacts, railMoved_limit hacts hthree⟩
    · have hstep := railStep_over hwindow hlen hover
      rw [← hy, hoff] at hstep
      rw [hint, hoffs, hlim]
      exact hstep
    · have hstep := railStep_under (lo := (dieOf s (core / 32)).minoff) (hi := (dieOf s (core / 32)).maxoff) hlen hunder
      rw [← hy, hoff] at hstep
      rw [hint, hoffs, hlim]
      exact hstep
    · rw [hint, hoffs, hlim, hy, railStep_within (x := clampedSlice ..) hlo hhi]
      exact ⟨rfl, hoff, rfl⟩
  case sensor =>
    have hmoved := (MachineryMoved.catchCluster s (8 * x.die.toNat + x.sensor.toNat % 8)).trans (.sensed _ x)
    have hdies : dieOf (catchCluster s (8 * x.die.toNat + x.sensor.toNat % 8)) x.die.toNat = dieOf s x.die.toNat :=
      congrArg (Tab.findD · _ Die.init) (catchCluster_dies ..)
    have hnow : ticks (catchCluster s (8 * x.die.toNat + x.sensor.toNat % 8)) = s.now / 105 :=
      congrArg (· / 105) (MachineryMoved.catchCluster ..).now
    rw [exec_sensorSample]
    generalize catchCluster s (8 * x.die.toNat + x.sensor.toNat % 8) = v at hmoved hdies hnow
    refine ⟨fun hcur hn => if_pos (by simp [hcur, hn]), fun h => ?_⟩
    have htab := sensorTab_sensed v x
    rw [hdies] at htab
    have hnot : ¬ (x.current && decide (8 ≤ x.sensor.toNat)) = true := by
      obtain h | h := h
      · simp [h]
      · simp [Nat.not_le.2 h]
    refine ⟨_, _, sensorAfter v x, if_neg hnot, rfl, hmoved.waves, hmoved.mem, ?_, rfl, hnow, rfl, fun k hk => ?_,
      fun hout => ?_, fun hvalid hrearm => ?_, fun hin hlast hnear => ?_, sensed_held v x⟩
    · exact (congrArg (Tab.find · _) htab).trans (Tab.find_put_same ..)
    · exact (congrArg (Tab.find · k) htab).trans (Tab.find_put_ne _ _ _ _ hk)
    · exact sensorAfter_outside (not_inRange hout)
    · exact sensorAfter_invalid (hdies ▸ hvalid) (hdies ▸ hrearm)
    · have hfirst := sensorAfter_first (s := v) hin (hdies ▸ hlast) (hdies ▸ hnear)
      rw [hdies] at hfirst
      exact hfirst
  case early => rw [exec_counterSample, if_neg (Nat.not_le.2 hearly)]
  case sample =>
    have hcores (c : Nat) : coreOf (s.launches.foldl (fun a e => chargeLaunch a e.1 e.2) (coresSampled s)) c = sampleCore (coreOf s c) :=
      (charged_reads (coreOf · c) (fun _ _ _ => rfl) ..).trans (coreOf_coresSampled s c)
    rw [exec_counterSample, if_pos hdue]
    refine ⟨_, rfl, charged_reads State.grid (fun _ _ _ => rfl) .., charged_reads State.waves (fun _ _ _ => rfl) ..,
      charged_reads State.mem (fun _ _ _ => rfl) .., fun c hc => (hcores c).trans (sampleCore_unused hc), fun c hc => ?_, fun lid l hl => ?_⟩
    · have hcore := (hcores c).trans (sampleCore_used hc)
      refine ⟨congrArg Core.stallSeq hcore, congrArg Core.smpCyc hcore, congrArg Core.smpIssue hcore, congrArg Core.smpMem hcore,
        (congrArg Core.op hcore :), fun hcyc => ⟨?_, ?_⟩⟩
      · exact (congrArg (fun y : Core => y.stallIssue.toNat) hcore).trans (toNat_fraction hcyc)
      · exact (congrArg (fun y : Core => y.stallMem.toNat) hcore).trans (toNat_fraction hcyc)
    · obtain ⟨hlaunch, hfunc⟩ := chargeLaunch_energy (coresSampled s) lid l
      rw [hl]
      exact ⟨_, hlaunch, rfl, hfunc, hasTraffic_iff⟩

end Sys2Proof.Machine

/-! PROOF. The part after a device reset (R176, R246, R261, R284, R287, R292, R294, R300, R302). -/

namespace Sys2Proof.Machine

/-! ### The empty tables (R300) -/

theorem inv_reset : Inv State.reset := ⟨MemOk.reset, List.Pairwise.nil⟩

theorem devByte_reset (a : Nat) : devByte State.reset a = 0 := rfl

theorem queueOf_reset (k : Nat) : queueOf State.reset k = Queue.init := rfl

theorem dieOf_reset (d : Nat) : dieOf State.reset d = Die.init := rfl

theorem coreOf_reset (c : Nat) : coreOf State.reset c = Core.init := rfl

theorem clus_reset (c : Nat) : clus State.reset c = Cluster4.init := rfl

theorem allow_reset : Cluster4.init.allow = 1024 * 24000 := by norm_num [Cluster4.init]

/-! ### The obligation -/

/-- Settles O40: every table of the reset state is empty, so that each reader answers what stands for an absent entry. -/
theorem resetState : Obligations.ResetState := by
  unfold Obligations.ResetState
  intro r
  refine ⟨inv_reset, devByte_reset, rfl, rfl, rfl, rfl, rfl, rfl, rfl, rfl, rfl, rfl, rfl, rfl, fun k => ?queue, fun d => ?die, fun c => ?core,
    fun c => ?cluster, rfl, rfl, rfl, rfl⟩
  case queue =>
    intro q
    have hq : q = Queue.init := queueOf_reset k
    rw [hq]
    exact ⟨rfl, rfl, rfl, rfl, rfl, rfl, rfl⟩
  case die =>
    intro x
    have hx : x = Die.init := dieOf_reset d
    rw [hx]
    exact ⟨rfl, rfl, rfl, rfl, rfl, rfl, rfl, rfl⟩
  case core =>
    have hc : coreOf r c = Core.init := coreOf_reset c
    rw [hc]
    exact ⟨rfl, rfl, rfl, rfl⟩
  case cluster =>
    have hc : clus r c = Cluster4.init := clus_reset c
    rw [hc]
    exact ⟨allow_reset, rfl, rfl⟩

end Sys2Proof.Machine

/-! PROOF. Global loads and stores issue: one access in flight, its destination marked, and a release store held at its location (R181, R193,
R217, R339, R349, R352). -/

namespace Sys2Proof.Machine

/-! ### The checks that an access has passed (R181, R183) -/

/-- An access that issues has passed its own checks. -/
theorem Issues.accessTrap_none {i : Instr} {s : State} {w : Wave} {r : MReq} (h : Issues i s w) (hreq : memReq i s w = some r) :
    accessTrap s s.cur.wid w r = none := by
  obtain ⟨-, -, htrap, -, -⟩ := h
  obtain ⟨htile, hpriv, hcopy, -⟩ := kind_of_memReq hreq
  cases hallot : allotBad i w with
  | true => simp [issueTrap, htile, hpriv, hallot] at htrap
  | false => exact (issueTrap_of_memReq _ hreq hallot).symm.trans htrap

/-- No lane of an access that issues starts before its segment or region. -/
theorem Issues.offset_nonneg {i : Instr} {s : State} {w : Wave} {r : MReq} (h : Issues i s w) (hreq : memReq i s w = some r) {n : Nat}
    (hn : n ∈ r.lanes) : 0 ≤ offsetOf r.addr n := by
  by_contra hneg
  have hout : inRange s s.cur.wid w r (offsetOf r.addr n) = false :=
    Bool.eq_false_iff.2 fun hin => hneg ((inRange_iff ..).1 hin).1.1
  exact absurd (h.accessTrap_none hreq) (by simp [accessTrap_outside ⟨n, hn, hout⟩])

/-! ### What starting an access moves -/

/-- A change of one core that keeps its publications keeps those of every core. -/
theorem epoch_modCore (s : State) (c : Nat) {f : Core → Core} (hf : ∀ x, (f x).epoch = x.epoch) (n : Nat) :
    (coreOf (modCore s c f) n).epoch = (coreOf s n).epoch := by
  rw [coreOf_modCore]
  split
  · next h => rw [hf, h]
  · rfl

theorem holdL1_moved (s : State) (core asid va n : Nat) : MachineryMoved s (holdL1 s core asid va n) := .modCore ..

theorem enterL1_moved (s : State) (a : Acc) : MachineryMoved s (enterL1 s a) := by
  unfold enterL1
  split
  · refine .trans ?_ (.modCore ..)
    split
    · exact .foldl (fun t p => holdL1_moved ..) _ _
    · exact .refl s
  · exact .refl s

theorem epoch_enterL1 (s : State) (a : Acc) (c : Nat) : (coreOf (enterL1 s a) c).epoch = (coreOf s c).epoch := by
  unfold enterL1
  split
  · refine (epoch_modCore _ _ (by intro; rfl) c).trans ?_
    split
    · exact foldl_reads (fun t => (coreOf t c).epoch) (fun t p => epoch_modCore t _ (by intro; rfl) c) _ _
    · rfl
  · rfl

theorem epoch_prefHit (s : State) (core lid : Nat) (lines : List Nat) (c : Nat) :
    (coreOf (prefHit s core lid lines) c).epoch = (coreOf s c).epoch := by
  unfold prefHit
  split
  · exact epoch_modCore _ _ (by intro; rfl) c
  · rfl

theorem MachineryMoved.hostMem {s t : State} (h : MachineryMoved s t) : t.hostMem = s.hostMem := by
  obtain ⟨_, _, _, rfl⟩ := h
  rfl

theorem MachineryMoved.nextId {s t : State} (h : MachineryMoved s t) : t.nextId = s.nextId := by
  obtain ⟨_, _, _, rfl⟩ := h
  rfl

theorem EndsAcquire.hostMem {s t : State} {k : Nat} (h : EndsAcquire s k t) : t.hostMem = s.hostMem := by
  obtain rfl | ⟨w, v, l, -, -, rfl⟩ := h <;> rfl

theorem epoch_refreshFor (s : State) (core : Nat) (l : List Sync) (c : Nat) : (coreOf (refreshFor s core l) c).epoch = (coreOf s c).epoch := by
  rw [refreshFor, takeView, epoch_modCore _ _ (by intro; rfl), refresh, epoch_modCore _ _ (by intro; rfl)]

theorem EndsAcquire.epoch {s t : State} {k : Nat} (h : EndsAcquire s k t) (c : Nat) : (coreOf t c).epoch = (coreOf s c).epoch := by
  obtain rfl | ⟨w, v, l, -, -, rfl⟩ := h
  · rfl
  · exact epoch_refreshFor ..

theorem acquireOp_acc (s : State) (k : Nat) (w : Wave) : (acquireOp s k w).acc = s.acc := tryAcquire_acc ..

theorem acquireOp_hostMem (s : State) (k : Nat) (w : Wave) : (acquireOp s k w).hostMem = s.hostMem :=
  (endSupAcquire_ends ..).hostMem.trans (endAcquire_ends ..).hostMem

theorem epoch_acquireOp (s : State) (k : Nat) (w : Wave) (c : Nat) : (coreOf (acquireOp s k w) c).epoch = (coreOf s c).epoch :=
  ((endSupAcquire_ends ..).epoch c).trans ((endAcquire_ends ..).epoch c)

/-! ### Releases (R217) -/

theorem AccPublished.keys {s t : State} (h : AccPublished s t) : t.acc.map (·.1) = s.acc.map (·.1) := by
  obtain ⟨f, hf, -⟩ := h
  rw [hf, List.map_map]
  rfl

/-- An access that a publication may have taken keeps all else. -/
theorem AccPublished.accOf {s t : State} (h : AccPublished s t) {id : Nat} {a : Acc} (ha : accOf s id = some a) :
    ∃ e, accOf t id = some (a.takenBy e) := by
  obtain ⟨f, hf, -⟩ := h
  refine ⟨f (id, a), ?_⟩
  have hfind := Tab.find_map s.acc (fun k b => b.takenBy (f (k, b))) id
  rw [show Tab.find s.acc id = some a from ha] at hfind
  rw [Machine.accOf, hf]
  exact hfind

theorem release_published (s : State) (wid : Nat) (w : Wave) (x : RelTarget) : AccPublished s (release s wid w x) :=
  (Calm.publish [] s (coreNo wid)).acc

theorem epoch_release (s : State) (wid : Nat) (w : Wave) (x : RelTarget) :
    (coreOf (release s wid w x) (coreNo wid)).epoch = (coreOf s (coreNo wid)).epoch + 1 := publish_epoch ..

/-- What the release half of an access leaves (R215, R217). -/
structure ReleaseHeld (s : State) (wid id : Nat) (a : Acc) (t : State) : Prop where
  waves : t.waves = s.waves
  mem : t.mem = s.mem
  hostMem : t.hostMem = s.hostMem
  epoch : (coreOf t (coreNo wid)).epoch = (coreOf s (coreNo wid)).epoch + 1
  acc : ∃ e v, accOf t id = some { a with epoch := e, rel := some s.nextId, view := v }
  rel : ∃ r, Tab.find t.rels s.nextId = some r ∧ r.target = .access id

theorem relAcc_holds {s : State} {id : Nat} {a : Acc} (ha : accOf s id = some a) (wid : Nat) (w : Wave) :
    ReleaseHeld s wid id a (relAcc s wid w id) := by
  obtain ⟨e, hrel⟩ := (release_published s wid w (.access id)).accOf ha
  obtain ⟨r, hr, htarget, -⟩ := release_rels s wid w (.access id)
  have hput : relAcc s wid w id = setAcc (release s wid w (.access id)) id
      { a.takenBy e with rel := some s.nextId, view := viewOf s (coreNo wid) } := by
    simp only [relAcc, hrel]
  rw [hput]
  exact ⟨rfl, rfl, rfl, epoch_release s wid w (.access id), ⟨e, _, (accOf_setAcc ..).trans (if_pos rfl)⟩, r, hr, htarget⟩

/-! ### What the issue of an access leaves -/

/-- The access that an instruction puts in flight. -/
def startedAcc (i : Instr) (s : State) (wid : Nat) (w : Wave) (r : MReq) (kind : AKind) (data cmp : Nat → List Byte) (dest : Dest) (ret : Bool) : Acc :=
  let b := baseAcc s wid w r kind ((spansOf r).map (mkPiece s wid w r data cmp)) dest ret
  { b with l1 := usesL1 i && r.scope.isPlain && !segAlias (segOf s wid w r.seg), sent := leavesL1 s b }

/-- What the issue of an access with no active lane leaves. -/
structure NoLaneIssued (s : State) (wid : Nat) (w : Wave) (ord : Order) (t : State) : Prop where
  mem : t.mem = s.mem
  hostMem : t.hostMem = s.hostMem
  keys : t.acc.map (·.1) = s.acc.map (·.1)
  wave : ∃ v, waveOf t wid = some v ∧ AcquireMarks (nextSeq w) v
  epoch : releases ord = true → (coreOf t (coreNo wid)).epoch = (coreOf s (coreNo wid)).epoch + 1

/-- What the issue of an access with an active lane leaves. -/
structure LanesIssuedAs (s : State) (wid : Nat) (w : Wave) (a : Acc) (regs : List Reg) (ord : Order) (t : State) : Prop where
  mem : t.mem = s.mem
  hostMem : t.hostMem = s.hostMem
  wave : ∃ v, waveOf t wid = some v ∧ AcquireMarks (addBusy (nextSeq w) s.nextId regs) v
  acc : ∃ e r v, accOf t s.nextId = some { a with epoch := e, rel := r, view := v }
  epoch : releases ord = true → (coreOf t (coreNo wid)).epoch = (coreOf s (coreNo wid)).epoch + 1
  held : releases ord = true → ∃ b r, accOf t s.nextId = some b ∧ b.rel = some (s.nextId + 1) ∧ Tab.find t.rels (s.nextId + 1) = some r ∧
    r.target = .access s.nextId

section
variable (i : Instr) (s : State) (wid : Nat) (w : Wave) (r : MReq) (kind : AKind) (data cmp : Nat → List Byte) (dest : Dest) (ret : Bool)

theorem issueAcc_idle (hlanes : r.lanes = []) : NoLaneIssued s wid w r.ord (issueAcc i s wid w r kind data cmp dest ret) := by
  have hset : waveOf (setWave s wid (nextSeq w)) wid = some (nextSeq w) := (waveOf_setWave ..).trans (if_pos rfl)
  unfold issueAcc
  extract_lets w1 s1 s2
  rw [hlanes, List.isEmpty_nil, if_pos rfl]
  have h2 : NoLaneIssued s wid w r.ord s2 := by
    unfold s2
    split
    · exact ⟨rfl, rfl, (release_published ..).keys, ⟨_, hset, .refl _⟩, fun _ => epoch_release ..⟩
    · next hno => exact ⟨rfl, rfl, rfl, ⟨_, hset, .refl _⟩, fun h => absurd h hno⟩
  split
  · exact ⟨(acquireOp_calm ..).mem.trans h2.mem, (acquireOp_hostMem ..).trans h2.hostMem, by rw [acquireOp_acc]; exact h2.keys,
      acquireOp_wave .., fun h => (epoch_acquireOp ..).trans (h2.epoch h)⟩
  · exact h2

theorem issueAcc_flies (hlanes : r.lanes ≠ []) : LanesIssuedAs s wid w (startedAcc i s wid w r kind data cmp dest ret)
    ((writesOf i).map (viewReg w.sup)) r.ord (issueAcc i s wid w r kind data cmp dest ret) := by
  unfold issueAcc
  extract_lets w1 _ _ b a w2 s0 s1
  have hempty : r.lanes.isEmpty = false := by simpa using hlanes
  rw [hempty, if_neg Bool.false_ne_true]
  obtain ⟨dies, h0⟩ := addAcc_moved s wid w2 a ((writesOf i).map (viewReg w.sup)) (reqBytes r)
  have h1 : MachineryMoved s0 s1 := by
    unfold s1
    split
    · exact (enterL1_moved ..).trans (prefHit_moved ..)
    · exact .refl s0
  have hepoch1 : ∀ c, (coreOf s1 c).epoch = (coreOf s c).epoch := fun c => by
    have hs0 : coreOf s0 c = coreOf s c := by unfold s0; rw [h0]; rfl
    unfold s1
    split
    · rw [epoch_prefHit, epoch_enterL1, hs0]
    · rw [hs0]
  have hacc1 : accOf s1 s.nextId = some a := by
    rw [accOf, h1.acc]
    unfold s0
    rw [h0]
    exact Tab.find_put_same ..
  have hwave1 : waveOf s1 wid = some (addBusy w2 s.nextId ((writesOf i).map (viewReg w.sup))) := by
    rw [h1.waveOf]
    unfold s0
    rw [h0]
    exact Tab.find_put_same ..
  have hmarks : AcquireMarks (addBusy (nextSeq w) s.nextId ((writesOf i).map (viewReg w.sup)))
      (addBusy w2 s.nextId ((writesOf i).map (viewReg w.sup))) := by
    obtain ⟨_, _, _, _, h⟩ : AcquireMarks w1 w2 := by
      unfold w2
      split
      · exact wantAcquire_marks ..
      · exact .refl _
    exact ⟨_, _, _, _, by rw [h]; rfl⟩
  have hmem1 : s1.mem = s.mem ∧ s1.hostMem = s.hostMem ∧ s1.nextId = s.nextId + 1 := by
    rw [h1.mem, h1.hostMem, h1.nextId]
    unfold s0
    rw [h0]
    exact ⟨rfl, rfl, rfl⟩
  obtain ⟨hmem, hhost, hnext⟩ := hmem1
  split
  · have hheld := relAcc_holds hacc1 wid w2
    obtain ⟨e, v, hacc⟩ := hheld.acc
    obtain ⟨x, hx, htarget⟩ := hheld.rel
    rw [hnext] at hacc hx
    exact ⟨hheld.mem.trans hmem, hheld.hostMem.trans hhost, ⟨_, by rw [waveOf, hheld.waves]; exact hwave1, hmarks⟩, ⟨_, _, _, hacc⟩,
      fun _ => by rw [hheld.epoch, hepoch1], fun _ => ⟨_, x, hacc, rfl, hx, htarget⟩⟩
  · next hno => exact ⟨hmem, hhost, ⟨_, hwave1, hmarks⟩, ⟨_, _, _, hacc1⟩, fun h => absurd h hno, fun h => absurd h hno⟩

/-- The pieces of an access lie at BASE plus their offsets, placed at once where the segment is not pageable (R181, R182). -/
theorem mkPiece_at {x : Nat × Int} (hx : 0 ≤ x.2) : ((mkPiece s wid w r data cmp x).va : Int) = (segOf s wid w r.seg).base + x.2 ∧
    (mkPiece s wid w r data cmp x).pa = (if segPage (segOf s wid w r.seg) then none else
      some (homeLoc (segFar (segOf s wid w r.seg)) (dieNo wid) ((segOf s wid w r.seg).pbase + x.2.toNat))) := by
  refine ⟨Int.toNat_of_nonneg (by omega), ?_⟩
  simp only [mkPiece]
  congr 4
  omega

end

/-- A release store or atomic starts a publication and is held at its location (R217). -/
def ReleaseStarts (s t : State) (lanes : List Nat) (ord : Order) : Prop :=
  (releases ord = true → (coreOf t (s.cur.wid / 16)).epoch = (coreOf s (s.cur.wid / 16)).epoch + 1) ∧
  (releases ord = true → lanes ≠ [] → ∃ a r, accOf t s.nextId = some a ∧ a.rel = some (s.nextId + 1) ∧
    Tab.find t.rels (s.nextId + 1) = some r ∧ r.target = .access s.nextId)

/-- A global access whose lanes start inside their segment issues as R181, R193 and R217 say. -/
theorem issueAcc_starts {i : Instr} {s : State} {w : Wave} {r : MReq} (hloc : r.loc = false)
    (hin : ∀ n ∈ r.lanes, 0 ≤ offsetOf r.addr n) (kind : AKind) (data cmp : Nat → List Byte) (dest : Dest) (ret : Bool) :
    ReleaseStarts s (bump (issueAcc i s s.cur.wid w r kind data cmp dest ret)) r.lanes r.ord ∧
    AccessStarts s w (bump (issueAcc i s s.cur.wid w r kind data cmp dest ret)) r.seg r.size r.lanes (offsetOf r.addr) kind dest data cmp
      (writesOf i) r.scope r.ord := by
  by_cases hlanes : r.lanes = []
  · obtain ⟨hmem, hhost, hkeys, ⟨v, hv, hmarks⟩, hepoch⟩ := issueAcc_idle i s s.cur.wid w r kind data cmp dest ret hlanes
    refine ⟨⟨hepoch, fun _ h => absurd hlanes h⟩, hmem, hhost, v, hv, ?_⟩
    obtain ⟨_, _, _, _, rfl⟩ := hmarks
    exact ⟨rfl, rfl, rfl, rfl, rfl, rfl, rfl, rfl, fun _ => ⟨hkeys, rfl⟩, fun h => absurd hlanes h⟩
  · obtain ⟨hmem, hhost, ⟨v, hv, hmarks⟩, ⟨e, x, view, hacc⟩, hepoch, hheld⟩ :=
      issueAcc_flies i s s.cur.wid w r kind data cmp dest ret hlanes
    refine ⟨⟨hepoch, fun h _ => hheld h⟩, hmem, hhost, v, hv, ?_⟩
    obtain ⟨_, _, _, _, rfl⟩ := hmarks
    refine ⟨rfl, rfl, rfl, rfl, rfl, rfl, rfl, rfl, fun h => absurd h hlanes, fun _ => ⟨fun q hq => ?busy, _, hacc, rfl, rfl, rfl, rfl, rfl, rfl,
      hloc, ?page, ?lanes, ?pieces⟩⟩
    case busy =>
      refine List.any_eq_true.2 ⟨⟨viewReg w.sup q, s.nextId⟩, List.mem_append_right _ ?_, beq_self_eq_true _⟩
      exact List.mem_map_of_mem (List.mem_map_of_mem hq)
    case page => simp [startedAcc, baseAcc, hloc]
    case lanes => simp [startedAcc, baseAcc, spansOf, mkPiece, Function.comp_def]
    case pieces =>
      intro p hp
      obtain ⟨x, hx, rfl⟩ := List.mem_map.1 hp
      obtain ⟨n, hn, rfl⟩ := List.mem_map.1 hx
      obtain ⟨hva, hpa⟩ := mkPiece_at s s.cur.wid w r data cmp (x := (n, offsetOf r.addr n)) (hin n hn)
      exact ⟨hva, rfl, rfl, rfl, rfl, rfl, hpa⟩

/-- A global access that issues starts. -/
theorem exec_access_starts {i : Instr} {s : State} {w : Wave} {r : MReq} {kind : AKind} {data cmp : State → Wave → Nat → List Byte}
    {dest : Wave → Dest} {ret : Bool} (h : Issues i s w) (hreq : memReq i s w = some r) (hloc : r.loc = false)
    (hexec : exec i s = slotOp i s (withReq i fun r wid w s => issueAcc i s wid w r kind (data s w) (cmp s w) (dest w) ret)) :
    ∃ t, exec i s = .next t ∧ ReleaseStarts s t r.lanes r.ord ∧
      AccessStarts s w t r.seg r.size r.lanes (offsetOf r.addr) kind (dest w) (data s w) (cmp s w) (writesOf i) r.scope r.ord := by
  refine ⟨_, ?_, issueAcc_starts hloc (fun n hn => h.offset_nonneg hreq hn) kind (data s w) (cmp s w) (dest w) ret⟩
  rw [hexec, slotOp_issues h, withReq, hreq]

/-- Settles O24: each load puts its lanes' access in flight, and makes no release. -/
theorem globalLoadsIssue : Obligations.GlobalLoadsIssue := by
  unfold Obligations.GlobalLoadsIssue
  intro s w lanes once base none_
  refine ⟨fun f h => ?_, fun f h => ?_, fun f h => ?_⟩
  · obtain ⟨t, hexec, -, hstarts⟩ := exec_access_starts (data := fun _ _ => noBytes) (cmp := fun _ _ => noBytes)
      (dest := fun _ => .lanes f.dc f.d.toNat f.wid) (ret := true) h rfl rfl rfl
    refine ⟨t, hexec, ?_⟩
    obtain ⟨hdr, dc, d, ac, a, wid, scope, ord⟩ := f
    cases ac <;> exact hstarts
  · obtain ⟨t, hexec, -, hstarts⟩ := exec_access_starts (data := fun _ _ => noBytes) (cmp := fun _ _ => noBytes)
      (dest := fun _ => .lanes f.dc f.d.toNat f.wid) (ret := true) h rfl rfl rfl
    exact ⟨t, hexec, hstarts⟩
  · obtain ⟨t, hexec, -, hstarts⟩ := exec_access_starts (data := fun _ _ => noBytes) (cmp := fun _ _ => noBytes)
      (dest := fun w => .uni f.d.toNat w.sup f.wid) (ret := true) h rfl rfl rfl
    exact ⟨t, hexec, hstarts⟩

theorem take_leBytes_four (n v : Nat) (hn : 4 ≤ n) : (leBytes 4 v).take n = leBytes 4 v := List.take_of_length_le (by rw [length_leBytes]; exact hn)

/-- The datum of a lane is the little-endian bytes of its registers, in order (R339). -/
theorem vecData_eq (s : State) (w : Wave) (dc : Cluster) (d : Nat) (wd : Wid) (i : Nat) : vecData s w dc d wd i =
    (let word := fun (n : Nat) => leBytes 4 ((rdV s w (tagOf 5 (8 + n)) dc n).at i).toNat
     match wd with
      | .b8 => (word d).take 1 | .b16 => (word d).take 2 | .b32 => word d
      | .b64 => word d ++ word (d + 1)
      | .b128 => word d ++ word (d + 1) ++ word (d + 2) ++ word (d + 3)) := by
  cases wd <;> simp [vecData, laneData, dataRegs, widBytes, length_leBytes, List.take_append, take_leBytes_four]

/-- Settles O25: each store puts its lanes' access in flight with its datum, and a release store starts its publication. -/
theorem globalStoresIssue : Obligations.GlobalStoresIssue := by
  unfold Obligations.GlobalStoresIssue
  intro s w lanes once base none_ word datum held
  have hdatum : ∀ dc d wd, datum dc d wd = vecData s w dc d wd := fun dc d wd => funext fun i =>
    .trans (by cases wd <;> rfl) (vecData_eq s w dc d wd i).symm
  refine ⟨fun f h => ?_, fun f h => ?_, fun f h => ?_⟩
  · obtain ⟨t, hexec, hheld, hstarts⟩ := exec_access_starts (data := fun s w => vecData s w f.dc f.d.toNat f.wid) (cmp := fun _ _ => noBytes)
      (dest := fun _ => .none) (ret := false) h rfl rfl rfl
    refine ⟨t, hexec, hheld, ?_⟩
    rw [hdatum]
    obtain ⟨hdr, dc, d, ac, a, wid, scope, ord⟩ := f
    cases ac <;> exact hstarts
  · obtain ⟨t, hexec, hheld, hstarts⟩ := exec_access_starts (data := fun s w => vecData s w f.dc f.d.toNat f.wid) (cmp := fun _ _ => noBytes)
      (dest := fun _ => .none) (ret := false) h rfl rfl rfl
    exact ⟨t, hexec, hheld, by rw [hdatum]; exact hstarts⟩
  · obtain ⟨t, hexec, hheld, hstarts⟩ := exec_access_starts (data := fun s w => uniData s w f.d.toNat f.wid) (cmp := fun _ _ => noBytes)
      (dest := fun _ => .none) (ret := false) h rfl rfl rfl
    exact ⟨t, hexec, hheld, hstarts⟩

end Sys2Proof.Machine

/-! PROOF. Scratchpad loads take their bytes at issue, and scratchpad stores put theirs, lane after lane (R183, R208, R340, R349, R352). -/

namespace Sys2Proof.Machine

/-! ### Local loads -/

/-- What the issue of a local load leaves: the bytes of its lanes are taken. -/
structure LocalTaken (s : State) (wid : Nat) (w : Wave) (r : MReq) (dest : Dest) (regs : List Reg) (t : State) : Prop where
  mem : t.mem = s.mem
  cores : t.cores = s.cores
  wave : ∃ v, waveOf t wid = some v ∧ v.seq = w.seq + 1 ∧ (r.lanes ≠ [] → ∀ q ∈ regs, isBusy v q = true)
  idle : r.lanes = [] → t.acc = s.acc
  acc : r.lanes ≠ [] → ∃ a, accOf t s.nextId = some a ∧ a.loc = r.loc ∧ a.kind = .load ∧ a.dest = dest ∧ a.pieces.map (·.lane) = r.lanes ∧
    ∀ p ∈ a.pieces, p.done = true ∧
      p.val = padBytes s (coreNo wid) (padAddr s wid w (offsetOf r.addr p.lane)) r.size

theorem isBusy_addBusy (w : Wave) (id : Nat) {rs : List Reg} {q : Reg} (hq : q ∈ rs) : isBusy (addBusy w id rs) q = true :=
  List.any_eq_true.2 ⟨⟨q, id⟩, List.mem_append_right _ (List.mem_map_of_mem hq), beq_self_eq_true _⟩

theorem localLoad_takes (i : Instr) (dest : Dest) (r : MReq) (wid : Nat) (w : Wave) {s : State} (hpad : s.eccPad = []) :
    LocalTaken s wid w r dest ((writesOf i).map (viewReg w.sup)) (localLoad i dest r wid w s) := by
  unfold localLoad
  split
  · next hempty =>
    have hlanes : r.lanes = [] := List.isEmpty_iff.1 hempty
    exact ⟨rfl, rfl, ⟨_, (waveOf_setWave ..).trans (if_pos rfl), rfl, fun h => absurd hlanes h⟩, fun _ => rfl, fun h => absurd hlanes h⟩
  · next hsome =>
    have hlanes : r.lanes ≠ [] := fun h => hsome (List.isEmpty_iff.2 h)
    have hecc : (spansOf r).any (fun x => eccPadHit s (coreNo wid) (padAddr s wid w x.2) r.size) = false := by
      simp [eccPadHit, hpad]
    rw [hecc, if_neg Bool.false_ne_true]
    extract_lets ps
    let a := baseAcc s wid w r .load ps dest true
    obtain ⟨dies, hadd⟩ := addAcc_moved s wid (nextSeq w) a ((writesOf i).map (viewReg w.sup)) 0
    rw [hadd]
    refine ⟨rfl, rfl, ⟨_, Tab.find_put_same .., rfl, fun _ q hq => isBusy_addBusy _ _ hq⟩, fun h => absurd h hlanes,
      fun _ => ⟨a, Tab.find_put_same .., rfl, rfl, rfl, ?_, fun p hp => ?_⟩⟩
    · simp [a, baseAcc, ps, spansOf, Function.comp_def]
    · obtain ⟨x, hx, rfl⟩ := List.mem_map.1 hp
      obtain ⟨n, -, rfl⟩ := List.mem_map.1 hx
      exact ⟨rfl, rfl⟩

/-- A local load that issues takes its bytes. -/
theorem exec_local_load {i : Instr} {s : State} {w : Wave} {r : MReq} {dest : Dest} (h : Issues i s w) (hreq : memReq i s w = some r)
    (hpad : s.eccPad = []) (hexec : exec i s = slotOp i s (withReq i (localLoad i dest))) :
    ∃ t, exec i s = .next t ∧ LocalTaken s s.cur.wid w r dest ((writesOf i).map (viewReg w.sup)) t := by
  obtain ⟨hmem, hcores, hwave, hidle, hacc⟩ := localLoad_takes i dest r s.cur.wid w hpad
  refine ⟨bump (localLoad i dest r s.cur.wid w s), ?_, hmem, hcores, hwave, hidle, hacc⟩
  rw [hexec, slotOp_issues h, withReq, hreq]

/-! ### Local stores -/

/-- The bytes of a lane's store cover a byte of the scratchpad. -/
def laneCovers (base : Nat) (data : Nat → List Byte) (e : Nat × Int) (x : Nat) : Prop :=
  base + e.2.toNat ≤ x ∧ x < base + e.2.toNat + (data e.1).length

/-- Local stores change one core's scratchpad. -/
theorem padStores_frame (core base : Nat) (data : Nat → List Byte) : ∀ (l : List (Nat × Int)) (s : State),
    ∃ cores, padStores s core base data l = { s with cores := cores } ∧
      ∀ c, c ≠ core → coreOf (padStores s core base data l) c = coreOf s c
  | [], _ => ⟨_, rfl, fun _ _ => rfl⟩
  | e :: l, s => by
    obtain ⟨cores, hmoved, hother⟩ := padStores_frame core base data l (padWrite s core (base + e.2.toNat) (data e.1))
    exact ⟨cores, hmoved, fun c hc => (hother c hc).trans ((coreOf_modCore ..).trans (if_neg hc))⟩

theorem padStores_outside (core base : Nat) (data : Nat → List Byte) (x : Nat) : ∀ (l : List (Nat × Int)) (s : State),
    (∀ e ∈ l, ¬ laneCovers base data e x) → getByte (coreOf (padStores s core base data l) core).pad x = getByte (coreOf s core).pad x
  | [], _, _ => rfl
  | e :: l, s, h => by
    have hfirst := h e (List.mem_cons_self ..)
    rw [padStores, padStores_outside core base data x l _ fun f hf => h f (List.mem_cons_of_mem _ hf), padWrite_core]
    refine getByte_putBytes_outside _ _ _ _ ?_
    unfold laneCovers at hfirst
    omega

/-- The highest lane that covers a byte prevails (R340). -/
theorem padStores_last (core base : Nat) (data : Nat → List Byte) (x : Nat) (e : Nat × Int) : ∀ (l : List (Nat × Int)) (s : State),
    l.Pairwise (fun e f => e.1 < f.1) → e ∈ l → laneCovers base data e x → (∀ f ∈ l, e.1 < f.1 → ¬ laneCovers base data f x) →
    getByte (coreOf (padStores s core base data l) core).pad x = (data e.1).getD (x - (base + e.2.toNat)) 0
  | [], _, _, he, _, _ => absurd he List.not_mem_nil
  | f :: l, s, hrising, he, hcovers, hlast => by
    obtain ⟨hfirst, hrest⟩ := List.pairwise_cons.1 hrising
    rw [padStores]
    obtain rfl | he := List.mem_cons.1 he
    · obtain ⟨hlo, hhi⟩ := hcovers
      have hn : x - (base + e.2.toNat) < (data e.1).length := by omega
      rw [padStores_outside core base data x l _ fun g hg => hlast g (List.mem_cons_of_mem _ hg) (hfirst g hg), padWrite_core,
        List.getD_eq_getElem _ _ hn]
      have hin := getByte_putBytes_inside (data e.1) (coreOf s core).pad (base + e.2.toNat) hn
      rwa [Nat.add_sub_cancel' hlo] at hin
    · exact padStores_last core base data x e l _ hrest he hcovers fun g hg => hlast g (List.mem_cons_of_mem _ hg)

theorem length_vecData (s : State) (w : Wave) (dc : Cluster) (d : Nat) (wd : Wid) (i : Nat) : (vecData s w dc d wd i).length = widBytes wd := by
  cases wd <;> simp [vecData, laneData, dataRegs, widBytes, length_leBytes]

/-- A local store that issues puts its lanes' data. -/
theorem exec_local_store {i : Instr} {s : State} {w : Wave} {r : MReq} {data : State → Wave → Nat → List Byte} (h : Issues i s w)
    (hreq : memReq i s w = some r) (hexec : exec i s = slotOp i s (withReq i fun r wid w s => localStore (data s w) r wid w s)) :
    ∃ t, exec i s = .next t ∧ waveOf t s.cur.wid = some (nextSeq w) ∧ t.mem = s.mem ∧ t.acc = s.acc ∧
      ∀ c, coreOf t c = coreOf (padStores s (coreNo s.cur.wid) (regionBase s s.cur.wid w) (data s w) (spansOf r)) c := by
  refine ⟨bump (localStore (data s w) r s.cur.wid w s), ?_, (waveOf_setWave ..).trans (if_pos rfl), ?_, ?_, fun c => rfl⟩
  · rw [hexec, slotOp_issues h, withReq, hreq]
  all_goals
    obtain ⟨cores, hmoved, -⟩ := padStores_frame (coreNo s.cur.wid) (regionBase s s.cur.wid w) (data s w) (spansOf r) s
    simp only [localStore, bump_mem, bump_acc, setWave_mem, setWave_acc, eccPadClearAll, hmoved]

theorem spansOf_rising {r : MReq} (h : r.lanes.Pairwise (· < ·)) : (spansOf r).Pairwise fun e f => e.1 < f.1 :=
  List.pairwise_map.2 h

/-- Settles O27: loads take, and stores put, the bytes of their lanes at the places of R183. -/
theorem localAccesses : Obligations.LocalAccesses := by
  unfold Obligations.LocalAccesses
  refine ⟨?_, ?_⟩
  · intro s w hpad core region lanes base takes
    have takes_of : ∀ (i : Instr) (k : BitVec 4) (wd : Wid) (dc : Cluster) (d : BitVec 6) (r : MReq), memReq i s w = some r → r.loc = true →
        r.lanes = lanes k → r.size = widBytes wd → writesOf i = widRun dc d wd →
        exec i s = slotOp i s (withReq i (localLoad i (.lanes dc d.toNat wd))) → takes i k wd dc d (offsetOf r.addr) := by
      intro i k wd dc d r hreq hloc hlanes hsize hwrites hexec hi
      obtain ⟨t, hnext, hmem, hcores, ⟨v, hv, hseq, hbusy⟩, hidle, hacc⟩ := exec_local_load hi hreq hpad hexec
      rw [hlanes] at hbusy hidle hacc
      refine ⟨t, v, hnext, hv, hseq, hmem, by rw [coreOf, hcores]; rfl, hidle, fun hne => ⟨fun q hq => hbusy hne q ?_, ?_⟩⟩
      · obtain ⟨n, -, rfl⟩ := List.mem_map.1 hq
        rw [hwrites]
        exact List.mem_map.2 ⟨_, hq, rfl⟩
      · obtain ⟨a, ha, hl, hkind, hdest, hmap, hpieces⟩ := hacc hne
        refine ⟨a, ha, hl.trans hloc, hkind, hdest, hmap, fun p hp => ⟨(hpieces p hp).1, ?_⟩⟩
        rw [(hpieces p hp).2, hsize]
        rfl
    refine ⟨fun f => ?_, fun f => ?_⟩
    · have htakes := takes_of (.mldl f) f.k f.wid f.dc f.d _ rfl rfl rfl rfl rfl rfl
      obtain ⟨k, hint, disp, dc, d, ac, a, wid⟩ := f
      cases ac <;> exact htakes
    · exact takes_of (.mldlStride f) f.k f.wid f.dc f.d _ rfl rfl rfl rfl rfl rfl
  · intro s w core region lanes base puts
    have puts_of : ∀ (i : Instr) (k : BitVec 4) (wd : Wid) (dc : Cluster) (d : BitVec 6) (r : MReq), memReq i s w = some r →
        r.lanes = lanes k →
        exec i s = slotOp i s (withReq i fun r wid w s => localStore (vecData s w dc d.toNat wd) r wid w s) →
        puts i k wd dc d (offsetOf r.addr) := by
      intro i k wd dc d r hreq hlanes hexec hi
      obtain ⟨t, hnext, hv, hmem, hacc, hcores⟩ := exec_local_store (data := fun s w => vecData s w dc d.toNat wd) hi hreq hexec
      obtain ⟨-, -, hother⟩ := padStores_frame core (regionBase s s.cur.wid w) (vecData s w dc d.toNat wd) (spansOf r) s
      have covers_iff : ∀ n x, laneCovers region (vecData s w dc d.toNat wd) (n, offsetOf r.addr n) x ↔
          region + (offsetOf r.addr n).toNat ≤ x ∧ x < region + (offsetOf r.addr n).toNat + widBytes wd := fun n x => by
        rw [laneCovers, length_vecData]
      have mem_spans : ∀ n, n ∈ lanes k → (n, offsetOf r.addr n) ∈ spansOf r := fun n hn => List.mem_map.2 ⟨n, hlanes ▸ hn, rfl⟩
      refine ⟨t, hnext, hv, hmem, hacc, fun c hc => (hcores c).trans (hother c hc), fun x hx => ?_, fun x n hn hcov hlast => ?_⟩
      · rw [hcores]
        refine padStores_outside core region _ x (spansOf r) s fun e he => ?_
        obtain ⟨n, hn, rfl⟩ := List.mem_map.1 he
        exact fun h => hx n (hlanes ▸ hn) ((covers_iff n x).1 h)
      · rw [hcores]
        refine padStores_last core region _ x (n, offsetOf r.addr n) (spansOf r) s (spansOf_rising ?_) (mem_spans n hn) ((covers_iff n x).2 hcov)
          fun e he hlt => ?_
        · rw [hlanes]
          exact maskLanes_rising _
        · obtain ⟨m, hm, rfl⟩ := List.mem_map.1 he
          exact fun h => hlast m (hlanes ▸ hm) hlt ((covers_iff m x).1 h)
    refine ⟨fun f => ?_, fun f => ?_⟩
    · have hputs := puts_of (.mstl f) f.k f.wid f.dc f.d _ rfl rfl rfl
      obtain ⟨k, hint, disp, dc, d, ac, a, wid⟩ := f
      cases ac <;> exact hputs
    · exact puts_of (.mstlStride f) f.k f.wid f.dc f.d _ rfl rfl rfl

end Sys2Proof.Machine

/-! PROOF. STORE_COMMIT of an atomic: its run reads, modifies and writes one location with nothing between (R190, R340, R343, R344). -/

namespace Sys2Proof.Machine

/-! ### Little-endian numbers (R6) -/

theorem leNat_lt : ∀ bs : List Byte, leNat bs < 256 ^ bs.length
  | [] => Nat.one_pos
  | b :: t => by
    have hb := b.isLt
    have ht := leNat_lt t
    rw [leNat, List.length_cons, Nat.pow_succ]
    omega

/-- The low bytes of a number hold it modulo their range. -/
theorem leNat_leBytes_mod : ∀ n v : Nat, leNat (leBytes n v) = v % 256 ^ n
  | 0, v => by simp [leBytes, leNat, Nat.mod_one]
  | n + 1, v => by
    have hpow : 256 ^ (n + 1) = 256 * 256 ^ n := by rw [Nat.pow_succ, Nat.mul_comm]
    rw [leBytes, leNat, leNat_leBytes_mod n, BitVec.toNat_ofNat, hpow, Nat.mod_mul, Nat.mod_mod]

theorem two_pow_bits (n : Nat) : 2 ^ (8 * n) = 256 ^ n := by rw [Nat.pow_mul]

/-- Where a number's low bytes stand, they read as it. -/
theorem leNat_of_stands {t : State} {loc n v : Nat} (h : ∀ i (hi : i < (leBytes n v).length), Stands t (loc + i) (leBytes n v)[i]) :
    leNat (devBytes t loc n) = v % 2 ^ (8 * n) := by
  have hbytes : devBytes t loc n = leBytes n v := by
    rw [devBytes_eq_map]
    refine List.ext_getElem (by simp [length_leBytes]) fun i _ hi => ?_
    simpa using (h i hi).devByte
  rw [hbytes, leNat_leBytes_mod, two_pow_bits]

/-! ### One run of one lane -/

/-- A commit keeps the entry of the access that makes it. -/
theorem accOf_commitAt (s : State) (id : Nat) (a : Acc) (va loc : Nat) (bs : List Byte) (atom : Bool) :
    accOf (commitAt s id a va loc bs atom) id = accOf s id := by
  unfold commitAt
  extract_lets s1 o s2
  have h1 : EarlierMoved id s s1 := by
    unfold s1
    split
    · exact .refl ..
    · exact .passStores ..
  have h2 : s2.acc = s1.acc := by
    obtain ⟨_, _, _, _, halias⟩ := (aliasStore_moved (atL2 (commitBytes s1 o loc bs) a va loc bs.length) s1 o loc bs.length).written
    obtain ⟨_, _, _, _, hcaches⟩ := CachesMoved.atL2 (commitBytes s1 o loc bs) a va loc bs.length
    obtain ⟨_, _, _, _, hput⟩ := DevWritten.putCommits o bs s1 loc
    unfold s2
    rw [halias, hcaches, commitBytes, hput]
    rfl
  calc accOf (modCore s2 a.core fun c => raiseTo c loc bs.length s2.commits) id = accOf s1 id := congrArg (Tab.find · id) h2
    _ = accOf s id := h1.accOf

section
variable (s : State) (id : Nat) (a : Acc) (p : Piece) (loc : Nat)

/-- The state in which a run reads: its line is held at the home, and the releases that it meets are noted. -/
def atomHome : State := noteSyncs (holdL2 s a.asid p.va loc p.size a.direct) id a loc

/-- The old value of a run. -/
def atomOld : Nat := leNat (aliasRead (atomHome s id a p loc) (accVia a p.va loc) loc p.size (64 * id + p.lane)
  (devBytes (atomHome s id a p loc) loc p.size, atomHome s id a p loc)).1

/-- The lane of a run once it has been performed. -/
def ranLane : Piece := { p with val := leBytes p.size (atomOld s id a p loc), done := true }

/-- The state that a run leaves, but for its own entry: the new value committed, or nothing. -/
def atomLeft : State :=
  match atomNew a.kind p (atomOld s id a p loc) with
  | some v => commitAt (atomHome s id a p loc) id a p.va loc (leBytes p.size v) true
  | none => modCore (atomHome s id a p loc) a.core fun c => raiseTo c loc p.size (atomHome s id a p loc).commits

theorem atomHome_moved : ReadMoved s (atomHome s id a p loc) := (ReadMoved.holdL2 ..).trans (.noteSyncs ..)

theorem atomOld_lt : atomOld s id a p loc < 2 ^ (8 * p.size) := by
  rw [two_pow_bits]
  exact (leNat_lt _).trans_eq (congrArg _ (length_aliasRead _ _ _ _ _ (length_devBytes ..)))

theorem atomOld_sound (h : brokenAlias s (accVia a p.va loc) loc p.size = false) : atomOld s id a p loc = leNat (devBytes s loc p.size) := by
  have hmoved := atomHome_moved s id a p loc
  rw [atomOld, aliasRead_sound ((hmoved.brokenAlias ..).trans h), hmoved.devBytes]

theorem accOf_atomLeft : accOf (atomLeft s id a p loc) id = accOf s id := by
  have hmoved : accOf (atomHome s id a p loc) id = accOf s id := congrArg (Tab.find · id) (atomHome_moved s id a p loc).acc
  unfold atomLeft
  split
  · exact (accOf_commitAt ..).trans hmoved
  · exact hmoved

variable {s id a p loc}

/-- The run of a one-lane atomic with nothing ahead of it. -/
theorem exec_storeCommit_atomic (hacc : accOf s id = some a) (hkind : a.kind = .cas ∨ ∃ op, a.kind = .atomic op) (hpieces : a.pieces = [p])
    (hpa : p.pa = some loc) (hfault : p.fault = none) (hdone : p.done = false) (hready : atomReady s id a = true)
    (hecc : eccHit s loc p.size = false) : exec (.storeCommit id) s =
      .next (bump (setAcc (atomLeft s id a p loc) id { a with pieces := [ranLane s id a p loc] })) := by
  have hnext : nextLane a = some p := by simp [nextLane, hpieces, hdone, hfault]
  have hrun : runGo id a loc a.pieces (atomHome s id a p loc) = ([ranLane s id a p loc], atomLeft s id a p loc) := by
    rw [hpieces, runGo, if_pos ⟨hpa, by simp [hdone]⟩]
    rfl
  have hatom : runAtom s id a = setAcc (atomLeft s id a p loc) id { a with pieces := [ranLane s id a p loc] } := by
    have hleft := (accOf_atomLeft s id a p loc).trans hacc
    unfold runAtom
    simp only [hnext, hpa, hecc, Bool.false_eq_true, if_false]
    rw [show noteSyncs (holdL2 s a.asid p.va loc p.size a.direct) id a loc = atomHome s id a p loc from rfl, hrun]
    simp only [hleft]
  change execStoreCommit id s = _
  obtain hk | ⟨op, hk⟩ := hkind
  · simp only [execStoreCommit, hacc, hk, hready, if_true, hatom, done]
  · simp only [execStoreCommit, hacc, hk, hready, if_true, hatom, done]

/-- A run that writes commits its value, and no other byte. -/
theorem atomLeft_writes {v : Nat} (hnew : atomNew a.kind p (atomOld s id a p loc) = some v) :
    (brokenAlias s (accVia a p.va loc) loc p.size = false →
      ∀ n (h : n < (leBytes p.size v).length), Stands (atomLeft s id a p loc) (loc + n) (leBytes p.size v)[n]) ∧
    ∀ x, x < loc ∨ loc + p.size ≤ x → ByteKept s (atomLeft s id a p loc) x := by
  have hmoved := atomHome_moved s id a p loc
  have hkept : ∀ x, ByteKept s (atomHome s id a p loc) x := fun x => by
    obtain ⟨_, _, _, h, -⟩ := hmoved
    rw [h]
    exact .of_mem rfl rfl x
  have hlen : (leBytes p.size v).length = p.size := length_leBytes ..
  have hleft : atomLeft s id a p loc = commitAt (atomHome s id a p loc) id a p.va loc (leBytes p.size v) true := by
    unfold atomLeft
    rw [hnew]
  have hcommit := commitAt_committed (atomHome s id a p loc) id a p.va loc (leBytes p.size v) true
  rw [← hleft] at hcommit
  refine ⟨fun hsound => ?_, fun x hx => (hkept x).trans (hcommit.kept x (by rwa [hlen]))⟩
  exact hcommit.sound (by rw [hlen]; exact (hmoved.brokenAlias ..).trans hsound)

/-- A run that does not write leaves every byte. -/
theorem atomLeft_keeps (hnew : atomNew a.kind p (atomOld s id a p loc) = none) (x : Nat) : ByteKept s (atomLeft s id a p loc) x := by
  have hleft : atomLeft s id a p loc =
      modCore (atomHome s id a p loc) a.core fun c => raiseTo c loc p.size (atomHome s id a p loc).commits := by
    unfold atomLeft
    rw [hnew]
  obtain ⟨_, _, _, h, -⟩ := atomHome_moved s id a p loc
  rw [hleft, h]
  exact .of_mem rfl rfl x

end

/-- Settles O32: the one run of a one-lane atomic, with the old value that it reads. -/
theorem atomicRunIsReadModifyWrite : Obligations.AtomicRunIsReadModifyWrite := by
  unfold Obligations.AtomicRunIsReadModifyWrite
  intro id s a p loc hacc hpieces hpa hfault hdone _ _ _ hready hecc _ one datum sgn
  refine ⟨atomOld s id a p loc, atomOld_lt .., atomOld_sound s id a p loc, ?_⟩
  intro writes keeps
  have runs := fun hkind => exec_storeCommit_atomic hacc hkind hpieces hpa hfault hdone hready hecc
  have hentry : ∀ u : State, accOf (bump (setAcc u id { a with pieces := [ranLane s id a p loc] })) id =
      some { a with pieces := [ranLane s id a p loc] } := fun u => (accOf_setAcc ..).trans (if_pos rfl)
  have writes_of : ∀ {v v' : Nat}, (a.kind = .cas ∨ ∃ op, a.kind = .atomic op) → atomNew a.kind p (atomOld s id a p loc) = some v' →
      v' % 2 ^ (8 * p.size) = v % 2 ^ (8 * p.size) → writes v := by
    intro v v' hkind hnew hmod
    obtain ⟨hvalue, hkept⟩ := atomLeft_writes hnew
    refine ⟨_, _, runs hkind, fun h => (leNat_of_stands fun i hi => ?_).trans hmod, hkept, hentry _, rfl⟩
    exact (hvalue h i hi).kept (.of_mem rfl rfl _)
  have op_writes : ∀ {op : AtomOp} {v : Nat}, a.kind = .atomic op →
      atomOp op p.size (atomOld s id a p loc) datum % 2 ^ (8 * p.size) = v % 2 ^ (8 * p.size) → writes v := fun hkind hmod =>
    writes_of (.inr ⟨_, hkind⟩) (by rw [hkind]; rfl) hmod
  refine ⟨(op_writes · rfl), (op_writes · (Nat.mod_mod ..)), (op_writes · rfl), (op_writes · rfl), (op_writes · rfl), (op_writes · ?smin),
    (op_writes · ?smax), (op_writes · ?umin), (op_writes · ?umax), fun hkind _ => op_writes hkind rfl, fun hkind => ⟨fun heq => ?same, fun hne => ?differs⟩⟩
  case smin =>
    refine congrArg (· % _) ?_
    simp only [atomOp, sgn, datum, ← not_lt, ite_not]
  case smax =>
    refine congrArg (· % _) ?_
    simp only [atomOp, sgn, datum, ← not_lt, ite_not]
  case umin =>
    refine congrArg (· % _) ?_
    simp only [atomOp]
    split <;> omega
  case umax =>
    refine congrArg (· % _) ?_
    simp only [atomOp]
    split <;> omega
  case same => exact writes_of (.inl hkind) (by rw [hkind]; exact if_pos heq) rfl
  case differs => exact ⟨_, _, runs (.inl hkind), atomLeft_keeps (by rw [hkind]; exact if_neg hne), hentry _, rfl⟩

end Sys2Proof.Machine

/-! PROOF. Resets and firmware pushes: what kills one by one leave (R250, R273, R274), a die in reset (R204), and the boot order (R300, R301). -/

namespace Sys2Proof.Machine

/-! ### What a kill leaves (R250, R273) -/

/-- One launch ended with its record, as `killEach` ends each. -/
def killOne (code : Nat) (e : Nat × Launch) (s : State) : State :=
  let s1 := endLaunch ((s.copies.filter fun c => c.2.lid == e.1).foldl settleCopy s) e.1
  let s2 := { s1 with routes := s1.routes.filter fun r => !r.2.lids.contains e.1 }
  faultQueue s2 (queueOfLaunch e.2) e.2.pkt code 0xFF 0xFF 0xFF 0 0

theorem killEach_cons (code : Nat) (e : Nat × Launch) (ls : List (Nat × Launch)) (s : State) :
    killEach code (e :: ls) s = killEach code ls (killOne code e s) := rfl

/-- A state after kills: launches change to killed alone, waves of the launches in `gone` alone may end, and the functions' shares and
the security block stay. -/
structure Killed (gone : Nat → Prop) (s t : State) : Prop where
  launch : ∀ n, launchOf t n = launchOf s n ∨ ∃ l, launchOf s n = some l ∧ launchOf t n = some { l with st := .killed }
  wave : ∀ k w, waveOf s k = some w → ¬ gone w.lid → waveOf t k = some w
  weight : ∀ v, (funcOf t v).weight = (funcOf s v).weight
  floor : ∀ v, (funcOf t v).floor = (funcOf s v).floor
  sec : t.sec = s.sec

namespace Killed

variable {gone : Nat → Prop} {s t u : State}

/-- A state whose launches, waves, functions and security block stand. -/
theorem of_eq (hlaunches : t.launches = s.launches) (hwaves : t.waves = s.waves) (hfuncs : t.funcs = s.funcs) (hsec : t.sec = s.sec) :
    Killed gone s t where
  launch n := .inl (congrArg (Tab.find · n) hlaunches)
  wave k _ h _ := (congrArg (Tab.find · k) hwaves).trans h
  weight v := congrArg (fun f => (Tab.findD f v Func.init).weight) hfuncs
  floor v := congrArg (fun f => (Tab.findD f v Func.init).floor) hfuncs
  sec := hsec

theorem trans (h : Killed gone s t) (h' : Killed gone t u) : Killed gone s u where
  launch n := by
    rcases h.launch n with hs | ⟨l, hl, ht⟩ <;> rcases h'.launch n with hu | ⟨m, hm, hu⟩
    · exact .inl (hu.trans hs)
    · exact .inr ⟨m, hs.symm.trans hm, hu⟩
    · exact .inr ⟨l, hl, hu.trans ht⟩
    · obtain rfl := Option.some.inj (ht.symm.trans hm)
      exact .inr ⟨l, hl, hu⟩
  wave k w hw hgone := h'.wave k w (h.wave k w hw hgone) hgone
  weight v := (h'.weight v).trans (h.weight v)
  floor v := (h'.floor v).trans (h.floor v)
  sec := h'.sec.trans h.sec

theorem mono {gone' : Nat → Prop} (h : Killed gone s t) (himp : ∀ n, gone n → gone' n) : Killed gone' s t :=
  { h with wave := fun k w hw hgone => h.wave k w hw fun hw' => hgone (himp _ hw') }

theorem foldl {α : Type} {f : State → α → State} (hf : ∀ s x, Killed gone s (f s x)) : ∀ (l : List α) (s : State), Killed gone s (l.foldl f s)
  | [], _ => .of_eq rfl rfl rfl rfl
  | x :: l, s => (hf s x).trans (foldl hf l (f s x))

theorem of_written (h : DevWritten s t) : Killed gone s t := by
  obtain ⟨_, _, _, _, rfl⟩ := h
  exact .of_eq rfl rfl rfl rfl

theorem of_machinery (h : MachineryMoved s t) : Killed gone s t := by
  obtain ⟨_, _, _, rfl⟩ := h
  exact .of_eq rfl rfl rfl rfl

theorem modLaunch (s : State) (lid : Nat) : Killed gone s (modLaunch s lid fun l => { l with st := .killed }) := by
  cases hl : launchOf s lid with
  | none =>
    simp only [Machine.modLaunch, hl]
    exact .of_eq rfl rfl rfl rfl
  | some l =>
    rw [modLaunch_of_launch _ hl]
    refine ⟨fun n => ?_, fun _ _ h _ => h, fun _ => rfl, fun _ => rfl, rfl⟩
    rw [launchOf_setLaunch]
    split
    · next hn => exact .inr ⟨l, hn ▸ hl, rfl⟩
    · exact .inl rfl

theorem modFunc (s : State) (v : Nat) (f : Func → Func) (hweight : ∀ x, (f x).weight = x.weight) (hfloor : ∀ x, (f x).floor = x.floor) :
    Killed gone s (modFunc s v f) where
  launch _ := .inl rfl
  wave _ _ h _ := h
  weight n := by
    rw [funcOf_modFunc]
    split
    · next hn => rw [hn, hweight]
    · rfl
  floor n := by
    rw [funcOf_modFunc]
    split
    · next hn => rw [hn, hfloor]
    · rfl
  sec := rfl

theorem endLaunch (s : State) (lid : Nat) : Killed (· = lid) s (endLaunch s lid) := by
  unfold Machine.endLaunch
  extract_lets s1 onCores vf lodgedBack s2 s3
  have h1 : Killed (· = lid) s s1 := .of_written (.foldl settleAcc_written ..)
  have h2 : Killed (· = lid) s1 s2 :=
    { launch := fun _ => .inl rfl
      wave := fun k w hw hlid => Tab.find_filter_keep _ _ k w hw (by simpa using hlid)
      weight := fun _ => rfl
      floor := fun _ => rfl
      sec := rfl }
  have h3 : Killed (· = lid) s2 s3 := (Killed.modLaunch s2 lid).trans (.modFunc _ _ _ (fun _ => rfl) fun _ => rfl)
  exact ((h1.trans h2).trans h3).trans (.of_machinery (.foldl MachineryMoved.retarget ..))

theorem writeSide (s : State) (host : Bool) (a : Nat) (bs : List Byte) : Killed gone s (writeSide s host a bs) := by
  unfold Machine.writeSide
  split
  · exact .of_eq rfl rfl rfl rfl
  · exact .of_written (.devWrite ..)

theorem faultQueue (s : State) (k pkt code die core slot addr detail : Nat) :
    Killed gone s (faultQueue s k pkt code die core slot addr detail) := .trans (.writeSide ..) (.of_eq rfl rfl rfl rfl)

theorem killLaunch (s : State) (lid code die core slot addr detail : Nat) :
    Killed (fun _ => True) s (killLaunch s lid code die core slot addr detail) := by
  unfold Machine.killLaunch
  split
  · exact .of_eq rfl rfl rfl rfl
  · extract_lets ks s1 s2 s3
    have h1 : Killed (fun _ => True) s s1 := .of_written (.foldl settleCopy_written ..)
    have h2 : Killed (fun _ => True) s1 s2 := .foldl (fun s lid => (Killed.endLaunch s lid).mono fun _ _ => trivial) ks s1
    have h3 : Killed (fun _ => True) s2 s3 := .of_eq rfl rfl rfl rfl
    exact ((h1.trans h2).trans h3).trans (.faultQueue ..)

/-- A launch that has ended stays so. -/
theorem launchEnded {n : Nat} (h : Killed gone s t) (hended : launchEnded s n = true) : launchEnded t n = true := by
  rcases h.launch n with hn | ⟨l, _, hn⟩
  · rwa [launchEnded_congr hn]
  · simp [Machine.launchEnded, hn]

/-- A launch that is accepted still is the one that it was. -/
theorem launchOf_of_accepted {n : Nat} {l : Launch} (h : Killed gone s t) (hl : launchOf t n = some l) (hst : l.st = .accepted) :
    launchOf s n = some l := by
  rcases h.launch n with hn | ⟨m, _, hn⟩
  · exact hn.symm.trans hl
  · obtain rfl := Option.some.inj (hn.symm.trans hl)
    cases hst

theorem killOne (code : Nat) (e : Nat × Launch) (s : State) : Killed (· = e.1) s (killOne code e s) := by
  unfold Machine.killOne
  extract_lets s1 s2
  have h1 : Killed (· = e.1) s s1 := .trans (.of_written (.foldl settleCopy_written ..)) (.endLaunch ..)
  have h2 : Killed (· = e.1) s1 s2 := .of_eq rfl rfl rfl rfl
  exact (h1.trans h2).trans (.faultQueue ..)

/-- Kills one by one end waves of the launches listed alone. -/
theorem killEach (code : Nat) : ∀ (ls : List (Nat × Launch)) (s : State), Killed (fun n => ∃ l, (n, l) ∈ ls) s (killEach code ls s)
  | [], _ => .of_eq rfl rfl rfl rfl
  | e :: ls, s => by
    rw [killEach_cons]
    refine ((Killed.killOne code e s).mono fun n hn => ?_).trans ((killEach code ls _).mono fun _ ⟨m, hm⟩ => ⟨m, List.mem_cons_of_mem _ hm⟩)
    exact ⟨e.2, hn ▸ List.mem_cons_self⟩

end Killed

theorem launchEnded_killOne (code : Nat) (e : Nat × Launch) (s : State) : launchEnded (killOne code e s) e.1 = true := by
  unfold killOne
  extract_lets s1 s2
  have h1 : launchEnded s2 e.1 = true := launchEnded_endLaunch _ e.1 e.1 (.inl rfl)
  exact (Killed.faultQueue (gone := fun _ => True) ..).launchEnded h1

/-- Kills one by one end every launch listed. -/
theorem launchEnded_killEach (code : Nat) {e : Nat × Launch} {ls : List (Nat × Launch)} (h : e ∈ ls) (s : State) :
    launchEnded (killEach code ls s) e.1 = true := by
  induction ls generalizing s with
  | nil => cases h
  | cons f ls ih =>
    rw [killEach_cons]
    rcases List.mem_cons.1 h with rfl | h
    · exact (Killed.killEach code ls _).launchEnded (launchEnded_killOne ..)
    · exact ih h _

theorem ne_accepted_of_launchEnded {s : State} {n : Nat} {l : Launch} (hl : launchOf s n = some l) (h : launchEnded s n = true) :
    l.st ≠ .accepted := by
  simpa [launchEnded, hl] using h

/-! ### Function-level reset (R274, R299) -/

/-- A table that has lost a function's queues reads each at its reset value. -/
theorem queueOf_of_dropped {v k : Nat} (queues : Tab Queue) (hk : k / 64 = v) :
    Tab.findD (queues.filter fun e => e.1 / 64 != v) k Queue.init = Queue.init := by
  rw [Tab.findD, Tab.find_filter_key queues (fun k => k / 64 != v)]
  simp [hk]

theorem exec_functionLevelReset (v : BitVec 4) (s : State) : ∃ t, exec (.functionLevelReset v) s = .next t ∧
    (∀ lid l, launchOf t lid = some l → l.vf = v.toNat → l.st ≠ .accepted) ∧ (∀ k, k / 64 = v.toNat → queueOf t k = Queue.init) ∧
    (∃ f : Func, funcOf t v.toNat = resetFunc f ∧ f.weight = (funcOf s v.toNat).weight ∧ f.floor = (funcOf s v.toNat).floor) ∧ t.sec = s.sec ∧
    (∀ k w, waveOf s k = some w → (∀ m, (w.lid, m) ∈ s.launches → m.vf ≠ v.toNat) → waveOf t k = some w) := by
  have hkilled := Killed.killEach 0x48 (acceptedOf s fun l => l.vf == v.toNat) s
  refine ⟨_, rfl, fun lid l hl hvf hst => ?_, fun k hk => ?_, ⟨_, (funcOf_modFunc ..).trans (if_pos rfl), hkilled.weight _, hkilled.floor _⟩,
    hkilled.sec, fun k w hw hother => ?_⟩
  · have hs := hkilled.launchOf_of_accepted hl hst
    have hmem : (lid, l) ∈ acceptedOf s fun l => l.vf == v.toNat :=
      List.mem_filter.2 ⟨Tab.mem_of_find _ _ _ hs, by simp [hst, hvf]⟩
    exact ne_accepted_of_launchEnded hl (launchEnded_killEach 0x48 hmem s) hst
  · exact queueOf_of_dropped (killEach 0x48 (acceptedOf s fun l => l.vf == v.toNat) s).queues hk
  · refine hkilled.wave k w hw fun ⟨l, hl⟩ => ?_
    obtain ⟨hmem, htest⟩ := List.mem_filter.1 hl
    have hvf : (l.st == .accepted && l.vf == v.toNat) = true := htest
    rw [Bool.and_eq_true, beq_iff_eq, beq_iff_eq] at hvf
    exact hother l hmem hvf.2

/-! ### A die in reset (R204) -/

theorem loseLine_written (s a : State) (n : Nat) (x : CLine) : DevWritten a (loseLine s a n x) := by
  unfold loseLine
  extract_lets cut
  exact .foldl (fun b loc => .putCommits Origin.device [_] b loc) _ a

/-- The lines lost with a die's caches leave launches, waves, functions and the security block. -/
theorem loseLines_killed (s : State) (die : Nat) : Killed (fun _ => True) s (loseLines s die) := by
  have hlost : Killed (fun _ => True) s ((dieOf s die).l2.foldl (fun a e => loseLine s a e.1 e.2) s) :=
    .of_written (.foldl (f := fun a (e : Nat × CLine) => loseLine s a e.1 e.2) (fun a e => loseLine_written s a e.1 e.2) _ s)
  exact hlost.trans (.of_eq rfl rfl rfl rfl)

theorem launchEnded_foldl {α : Type} {f : State → α → State} (hf : ∀ s x, Killed (fun _ => True) s (f s x)) {x : α} {n : Nat}
    (hx : ∀ s, launchEnded (f s x) n = true) {l : List α} (h : x ∈ l) (s : State) : launchEnded (l.foldl f s) n = true := by
  induction l generalizing s with
  | nil => cases h
  | cons y l ih =>
    rcases List.mem_cons.1 h with rfl | h
    · exact (Killed.foldl hf l _).launchEnded (hx s)
    · exact ih h _

/-- Kill a resident launch that is a stage of a route. -/
def killStage (code die : Nat) (a : State) (e : Nat × Launch) : State :=
  if e.2.p.route = 0 then a else killLaunch a e.1 code die 0xFF 0xFF 0 0

theorem killStage_killed (code die : Nat) (a : State) (e : Nat × Launch) : Killed (fun _ => True) a (killStage code die a e) := by
  unfold killStage
  split
  · exact .of_eq rfl rfl rfl rfl
  · exact .killLaunch ..

theorem killOnDie_eq (s : State) (die : Nat) : killOnDie s die = killEach ((free s 31).toNat % 256)
    ((onDie s die).filter fun e => e.2.p.route == 0) ((onDie s die).foldl (killStage ((free s 31).toNat % 256) die) s) := rfl

theorem killOnDie_killed (s : State) (die : Nat) : Killed (fun _ => True) s (killOnDie s die) := by
  rw [killOnDie_eq]
  exact (Killed.foldl (killStage_killed _ die) _ s).trans ((Killed.killEach ..).mono fun _ _ => trivial)

/-- Every launch resident on the die has ended. -/
theorem launchEnded_killOnDie {s : State} {die : Nat} {e : Nat × Launch} (h : e ∈ onDie s die) : launchEnded (killOnDie s die) e.1 = true := by
  rw [killOnDie_eq]
  by_cases hroute : e.2.p.route = 0
  · exact launchEnded_killEach _ (List.mem_filter.2 ⟨h, by simpa using hroute⟩) _
  · refine (Killed.killEach ..).launchEnded (launchEnded_foldl (killStage_killed _ die) (fun s => ?_) h s)
    rw [killStage, if_neg hroute]
    exact launchEnded_killLaunch ..

/-- A core of a die in reset has no translation and no line. -/
def emptyCore (x : Core) : Core := { x with atlb := [], l1 := [] }

/-- The caches and translations of a die in reset are empty, and INVPG no longer waits for it. -/
def emptyDie (s : State) (d : Nat) : State :=
  let t := modDie s d fun x => { x with off := true, xlat := [], l2 := [], rdc := [] }
  { t with
    cores := t.cores.map fun e => (e.1, if dieOfCore e.1 = d then emptyCore e.2 else e.2)
    invpg := t.invpg.map fun e => (e.1, (e.2.1, e.2.2 ||| 2 ^ d)) }

theorem dieOf_emptyDie (s : State) (d : Nat) : dieOf (emptyDie s d) d = { dieOf s d with off := true, xlat := [], l2 := [], rdc := [] } :=
  (dieOf_modDie s d d fun x => { x with off := true, xlat := [], l2 := [], rdc := [] }).trans (if_pos rfl)

theorem coreOf_emptyDie (s : State) {c d : Nat} (hc : c / 32 = d) : (coreOf (emptyDie s d) c).atlb = [] ∧ (coreOf (emptyDie s d) c).l1 = [] := by
  have hfind : Tab.find (emptyDie s d).cores c = (Tab.find s.cores c).map emptyCore :=
    (Tab.find_map s.cores (fun k x => if dieOfCore k = d then emptyCore x else x) c).trans
      (congrArg (Option.map · (Tab.find s.cores c)) (funext fun _ => if_pos hc))
  rw [coreOf, Tab.findD, hfind]
  cases Tab.find s.cores c with
  | none => exact ⟨rfl, rfl⟩
  | some x => exact ⟨rfl, rfl⟩

theorem exec_stageDieReset (die : BitVec 3) (s : State) : ∃ t, exec (.stageDieReset die) s = .next t ∧ (dieOf t die.toNat).off = true ∧
    (dieOf t die.toNat).xlat = [] ∧ (dieOf t die.toNat).l2 = [] ∧ (dieOf t die.toNat).rdc = [] ∧
    (∀ c, c / 32 = die.toNat → (coreOf t c).atlb = [] ∧ (coreOf t c).l1 = []) ∧ t.sec = s.sec ∧
    (∀ lid l, launchOf t lid = some l → launchOf s lid = some l → l.st = .accepted → l.die = die.toNat → resident s lid = false) := by
  have hlost := loseLines_killed (killOnDie s die.toNat) die.toNat
  have hdie := dieOf_emptyDie (loseLines (killOnDie s die.toNat) die.toNat) die.toNat
  refine ⟨bump (emptyDie (loseLines (killOnDie s die.toNat) die.toNat) die.toNat), rfl, congrArg Die.off hdie, congrArg Die.xlat hdie,
    congrArg Die.l2 hdie, congrArg Die.rdc hdie, fun _ hc => coreOf_emptyDie _ hc, hlost.sec.trans (killOnDie_killed ..).sec,
    fun lid l ht hs hst hl => ?_⟩
  by_contra hres
  have hmem : (lid, l) ∈ onDie s die.toNat :=
    List.mem_filter.2 ⟨Tab.mem_of_find _ _ _ hs, by simp [hst, hl, Bool.not_eq_false _ ▸ hres]⟩
  exact ne_accepted_of_launchEnded ht (hlost.launchEnded (launchEnded_killOnDie hmem)) hst

/-! ### The boot order (R300, R301) -/

/-- A fuse error ends the boot in step 1; else a firmware image that does not check, or a memory error, ends it in recovery; else it completes. -/
theorem boot_cases (s : State) :
    boot s = { s with sec := coldSec s.sec } ∨
    (∃ mr n, boot s = { s with sec := { s.sec with lc := fuseLc s.sec, mr := mr, stage := n, recov := true } } ∧ (n = 3 ∨ n = 4)) ∨
    firmwareGood s.sec s.sec.flash = true ∧ ∃ mr, boot s = { s with
      mem := [], wiped := [], ecc := [], hist := []
      sec := { s.sec with lc := fuseLc s.sec, mr := mr, stage := 5, recov := false, keyGen := s.sec.keyGen + 1 } } := by
  unfold boot
  extract_lets x x2 x3
  split
  · exact .inl rfl
  · split
    · exact .inr (.inl ⟨_, 3, rfl, .inl rfl⟩)
    · next hgood =>
      split
      · exact .inr (.inl ⟨_, 4, rfl, .inr rfl⟩)
      · exact .inr (.inr ⟨by simpa using hgood, _, rfl⟩)

theorem firmwareGood_of_blown {x : Sec} (b : List Byte) (h : x.blown = true) : firmwareGood x b = false := by
  simp only [firmwareGood, h, Bool.not_true, Bool.false_and]

/-- The boot order changes device memory and the security block alone, and neither fuses nor flash. -/
theorem boot_moved (s : State) : ∃ mem wiped ecc hist sec,
    boot s = { s with mem := mem, wiped := wiped, ecc := ecc, hist := hist, sec := sec } ∧
      (mem = s.mem ∨ mem = []) ∧ sec.flash = s.sec.flash ∧ sec.fused = s.sec.fused ∧ sec.blown = s.sec.blown := by
  rcases boot_cases s with h | ⟨_, _, h, _⟩ | ⟨_, _, h⟩
  · exact ⟨_, _, _, _, _, h, .inl rfl, rfl, rfl, rfl⟩
  · exact ⟨_, _, _, _, _, h, .inl rfl, rfl, rfl, rfl⟩
  · exact ⟨_, _, _, _, _, h, .inr rfl, rfl, rfl, rfl⟩

/-- Where the boot of a device reset ends. -/
theorem coldBoot_sec (s : State) : let x := (boot (coldState s)).sec
    x.chal = 0 ∧ x.ckpt = none ∧
      (x.stage = 1 ∨ x.stage = 3 ∧ x.recov = true ∨ x.stage = 4 ∧ x.recov = true ∨ x.stage = 5 ∧ x.recov = false) ∧
      (s.sec.blown = true → x.stage = 1 ∨ x.recov = true) := by
  intro x
  rcases boot_cases (coldState s) with h | ⟨mr, n, h, hn⟩ | ⟨hgood, mr, h⟩ <;> unfold x <;> rw [h]
  · exact ⟨rfl, rfl, .inl rfl, fun _ => .inl rfl⟩
  · exact ⟨rfl, rfl, .inr (hn.imp (⟨·, rfl⟩) fun hn => .inl ⟨hn, rfl⟩), fun _ => .inr rfl⟩
  · refine ⟨rfl, rfl, .inr (.inr (.inr ⟨rfl, rfl⟩)), fun hblown => ?_⟩
    exact absurd hgood (by simp [firmwareGood_of_blown (x := (coldState s).sec) _ hblown])

theorem endPush_bad {s : State} {at_ n : Nat} (h : firmwareGood s.sec (getBytes s.hostMem at_ (4096 * n)) = false) :
    endPush s at_ n = { s with sec := { s.sec with go := none, result := 2 } } := if_neg (Bool.eq_false_iff.1 h)

theorem endPush_good {s : State} {at_ n : Nat} (h : firmwareGood s.sec (getBytes s.hostMem at_ (4096 * n)) = true) :
    endPush s at_ n = boot { s with sec := { s.sec with go := none, result := 1, flash := getBytes s.hostMem at_ (4096 * n) } } := if_pos h

theorem exec_firmwarePush_idle {s : State} (len : BitVec 31) (hstage : s.sec.stage ≠ 1) (hgo : s.sec.go = none) :
    exec (.firmwarePush len) s = done (pushFirmware s len.toNat) := by
  change done (if s.sec.stage = 1 then s else _) = _
  rw [if_neg hstage, hgo]

/-- Settles O59: the three resets from what their kills and the boot order leave, and the ends of a push. -/
theorem resetsAndFirmware : Obligations.ResetsAndFirmware := by
  unfold Obligations.ResetsAndFirmware
  intro s
  refine ⟨?_, fun v => ?_, fun die => exec_stageDieReset die s, fun len => ⟨fun hstage => ?_, fun hstage hgo hrecov => ?_, fun hstage hgo hrecov => ?_, ?_⟩⟩
  · obtain ⟨mem, wiped, ecc, hist, sec, hmoved, hmem, hflash, hfused, hblown⟩ := boot_moved (coldState s)
    have hsec := coldBoot_sec s
    rw [hmoved] at hsec
    obtain ⟨hchal, hckpt, hstage, hdead⟩ := hsec
    refine ⟨bump (boot (coldState s)), rfl, ?_⟩
    rw [hmoved]
    exact ⟨hmem.elim id id, rfl, rfl, rfl, rfl, rfl, rfl, rfl, rfl, rfl, rfl, rfl, rfl, rfl, hflash, hfused, hblown, hchal, hckpt, hstage, hdead⟩
  · obtain ⟨t, hexec, hended, hqueues, ⟨f, hf, hweight, hfloor⟩, hsec, hwaves⟩ := exec_functionLevelReset v s
    refine ⟨t, hexec, hended, hqueues, ?_⟩
    rw [hf]
    exact ⟨rfl, rfl, rfl, hweight, hfloor, hsec, fun k w _ hw hother _ => hwaves k w hw hother⟩
  · exact congrArg done (if_pos hstage)
  · rw [exec_firmwarePush_idle len hstage hgo, pushFirmware]
    simp [hgo, hrecov, done]
  · rw [exec_firmwarePush_idle len hstage hgo, pushFirmware]
    simp [hgo, hrecov, done]
  · intro at_ n hstage hgo img
    have hexec : exec (.firmwarePush len) s = done (endPush s at_ n) := by
      change done (if s.sec.stage = 1 then s else _) = _
      rw [if_neg hstage, hgo]
    rw [hexec]
    refine ⟨fun hbad => congrArg done (endPush_bad (hbad.elim (firmwareGood_of_blown img) id)), fun hgood => ?_⟩
    · rw [endPush_good hgood]
      refine ⟨_, rfl, ?_⟩
      rcases boot_cases { s with sec := { s.sec with go := none, result := 1, flash := img } } with h | ⟨mr, m, h, hm⟩ | ⟨_, mr, h⟩
      · rw [h]
        exact ⟨.inr rfl, rfl, rfl, fun _ => .inr rfl, nofun⟩
      · rw [h]
        refine ⟨.inl rfl, rfl, rfl, nofun, fun hm' => ?_⟩
        have hm' : m = 5 := hm'
        omega
      · rw [h]
        exact ⟨.inl rfl, rfl, rfl, fun _ => .inl rfl, fun _ => rfl⟩

end Sys2Proof.Machine

/-! PROOF. Translation of accesses and copies: a piece gets its place, or its record enters the wave's queue (R186, R193 to R201). -/

namespace Sys2Proof.Machine

/-! ### What a translation changes (R188, R192) -/

/-- A state that differs from another in translation caches and cores alone. -/
def CachesFilled (s t : State) : Prop := ∃ feXlat dies cores, t = { s with feXlat := feXlat, dies := dies, cores := cores }

namespace CachesFilled

variable {s t : State}

theorem waveOf (h : CachesFilled s t) (k : Nat) : waveOf t k = waveOf s k := by obtain ⟨_, _, _, rfl⟩ := h; rfl
theorem waves (h : CachesFilled s t) : t.waves = s.waves := by obtain ⟨_, _, _, rfl⟩ := h; rfl
theorem mem (h : CachesFilled s t) : t.mem = s.mem := by obtain ⟨_, _, _, rfl⟩ := h; rfl

end CachesFilled

theorem lookAt_filled (s : State) (core : Nat) (far : Bool) (asid cls : Nat) (rd wr : Bool) (va : Nat) :
    CachesFilled s (lookAt s core far asid cls rd wr va).2 := by
  unfold lookAt
  extract_lets die t
  have ht : CachesFilled s t.2 := by
    unfold t
    split
    · obtain ⟨_, _, h⟩ := Translated.translate s far die asid va (some cls) rd wr
      rw [h]
      exact ⟨_, _, _, rfl⟩
    · exact ⟨_, _, _, rfl⟩
  split
  · exact ht
  · exact ht
  · split
    · exact ht
    · obtain ⟨_, _, _, h⟩ := ht
      rw [h]
      exact ⟨_, _, _, rfl⟩

theorem isStore_eq (k : AKind) : isStore k = (k == .store || k == .tstore) := by cases k <;> rfl

theorem fault_of_unlooked {p : Piece} (h : unlooked p = true) : p.fault = none := by
  simp only [unlooked, Bool.and_eq_true, Option.isNone_iff_eq_none] at h
  exact h.1.2

/-- The translation of a piece of an access. -/
def lookFor (s : State) (a : Acc) (p : Piece) : Looked × State := lookAt s a.core a.far a.asid a.cls (accRd a.kind) (accWr a.kind) p.va

/-! ### One piece is translated -/

section
variable {s : State} {id : Nat} {a : Acc} {p : Piece} {region : Option Nat} {loc cause : Nat}

/-- Nothing holds the piece back in the region that is looked at. -/
def Free (s : State) (id : Nat) (a : Acc) (region : Option Nat) (p : Piece) : Prop :=
  unlooked p = true ∧ (∀ r, region = some r → p.va / 4096 = r) ∧ lineHeld s id a (isStore a.kind) p = false

/-- What a look makes of a piece. -/
def lookedPiece (p : Piece) : Looked → Piece
  | .at_ loc => { p with pa := some loc }
  | .fault c => { p with fault := some c }
  | .ecc => p

/-- A look at the piece alone looks it up. -/
theorem lookPieces_free (h : Free s id a region p) (hecc : (lookFor s a p).1 ≠ .ecc) :
    lookPieces s id a region [p] = ([lookedPiece p (lookFor s a p).1], (lookFor s a p).2, false) := by
  obtain ⟨hun, hregion, hheld⟩ := h
  rw [isStore_eq] at hheld
  rw [lookFor] at hecc ⊢
  have hsome : ∀ r, region = some r → (p.va / 4096 == r) = true := fun r hr => beq_iff_eq.2 (hregion r hr)
  cases hlook : (lookAt s a.core a.far a.asid a.cls (accRd a.kind) (accWr a.kind) p.va).1 with
  | ecc => exact absurd hlook hecc
  | at_ loc => cases region <;> simp only [lookPieces, hun, hheld, hsome, hlook, lookedPiece, Bool.not_false, Bool.and_self, if_true]
  | fault c => cases region <;> simp only [lookPieces, hun, hheld, hsome, hlook, lookedPiece, Bool.not_false, Bool.and_self, if_true]

end

/-! ### The words of a record (R199) -/

theorem recBits_addr (r : RecWords) : (recBits r).toNat % 2 ^ 32 = r.addr.toNat := by
  have := r.addr.isLt
  simp only [recBits, BitVec.toNat_ofNat]
  split <;> omega

theorem recBits_lane (r : RecWords) (hslot : r.slot < 8) (hlane : r.lane < 32) : (recBits r).toNat / 2 ^ 35 % 32 = r.lane := by
  have := r.addr.isLt
  simp only [recBits, BitVec.toNat_ofNat]
  split <;> omega

/-- The bundle address and the lane of the record of one piece. -/
theorem accRecord_addr (s : State) (id : Nat) (a : Acc) (p : Piece) (again : Bool) :
    (accRecord s id a [p] again).bits.toNat % 2 ^ 32 = a.addr.toNat := recBits_addr _

theorem accRecord_lane (s : State) (id : Nat) {a : Acc} {p : Piece} (again : Bool) (hslot : a.slot < 8) (hlane : p.lane < 32) :
    (accRecord s id a [p] again).bits.toNat / 2 ^ 35 % 32 = p.lane := recBits_lane _ hslot hlane

/-- Bits summed below n, one for each number that meets a test. -/
def bitsBelow (p : Nat → Bool) (n : Nat) : Nat := (List.range n).foldl (fun a i => if p i then a + 2 ^ i else a) 0

theorem bitsBelow_succ (p : Nat → Bool) (n : Nat) : bitsBelow p (n + 1) = if p n then bitsBelow p n + 2 ^ n else bitsBelow p n := by
  simp [bitsBelow, List.range_succ]

theorem bitsBelow_lt (p : Nat → Bool) : ∀ n, bitsBelow p n < 2 ^ n
  | 0 => Nat.one_pos
  | n + 1 => by
    have h := bitsBelow_lt p n
    rw [bitsBelow_succ, Nat.pow_succ]
    split <;> omega

theorem testBit_bitsBelow (p : Nat → Bool) (i : Nat) : ∀ n, i < n → (bitsBelow p n).testBit i = p i
  | n + 1, h => by
    have hlt := bitsBelow_lt p n
    rw [bitsBelow_succ]
    by_cases hi : i = n
    · subst hi
      split
      · next hp => rw [Nat.add_comm, Nat.testBit_two_pow_add_eq, Nat.testBit_lt_two_pow hlt, hp, Bool.not_false]
      · next hp => rw [Nat.testBit_lt_two_pow hlt, Bool.eq_false_iff.2 hp]
    · have hlow := testBit_bitsBelow p i n (by omega)
      split
      · rw [Nat.add_comm, Nat.testBit_two_pow_add_gt (by omega), hlow]
      · exact hlow

theorem getLsbD_maskOf (p : Nat → Bool) {n : Nat} (h : n < 32) : (maskOf p).getLsbD n = p n := by
  rw [show maskOf p = BitVec.ofNat 32 (bitsBelow p 32) from rfl, BitVec.getLsbD_ofNat, testBit_bitsBelow p n 32 h, decide_eq_true h, Bool.true_and]

/-- The lanes that the record of one piece names. -/
theorem getLsbD_pieceLanes (a : Acc) (p : Piece) {n : Nat} (h : n < 32) : (pieceLanes a [p]).getLsbD n = true ↔ a.slot = 6 ∨ n = p.lane := by
  unfold pieceLanes
  split
  · next hslot => simp only [BitVec.getLsbD_allOnes, h, decide_true, hslot, true_or]
  · next hslot => simp only [getLsbD_maskOf _ h, List.any_cons, List.any_nil, Bool.or_false, beq_iff_eq, hslot, false_or, eq_comm (a := n)]

/-! ### The records of an access (R195, R196, R199, R201) -/

/-- An access of which no piece has failed has nothing to record. -/
theorem newPages_of_sound (w : Wave) (id : Nat) {a : Acc} (h : ∀ p ∈ a.pieces, p.fault = none) : newPages w id a = [] := by
  have hnone : ∀ q : Piece → Bool, (a.pieces.filter fun p => p.fault.isSome && q p) = [] := fun q =>
    List.filter_eq_nil_iff.2 fun p hp => by simp [h p hp]
  unfold newPages
  split
  · have hfault : (a.pieces.filter fun p => p.fault.isSome) = [] := by simpa using hnone fun _ => true
    simp [hfault]
  · simp [hnone, distinct]

/-- The one piece of an access that has failed has its page still to record, where no record of the access is queued. -/
theorem newPages_of_failed {w : Wave} {id : Nat} {a : Acc} {p : Piece} (hpieces : a.pieces = [p]) (hfault : p.fault.isSome = true)
    (hrecs : ∀ e ∈ w.recs, e.2.acc ≠ id) : newPages w id a = [piecePage a p] := by
  have hno : ∀ q : Nat × FRec → Bool, (w.recs.any fun e => e.2.acc == id && q e) = false := fun q =>
    List.any_eq_false.2 fun e he => by simp [hrecs e he]
  unfold newPages
  split
  · simp [hno, hpieces, hfault]
  · have hrecord : hasRecord w id a p = false := by
      simpa only [hasRecord, Bool.and_assoc] using hno fun e => !e.2.copy && recVa e.2 / classSize a.cls == piecePage a p
    simp [hpieces, hfault, hrecord, distinct]

theorem vChange_self (s : State) (w : Wave) (cl : Cluster) (base n : Nat) : vChange s w w cl base n = [] := by
  simp [vChange]

theorem areaChange_self (s : State) (w : Wave) : areaChange s w w = [] := by
  simp [areaChange, vChange_self]

/-- A wave that reaches itself changes nothing. -/
theorem reach_self {s : State} {k : Nat} {w : Wave} (hw : waveOf s k = some w) : reach s k w = setWave s k w := by
  unfold reach
  extract_lets s1
  split
  · next u _ hu _ =>
    obtain rfl := Option.some.inj (hw.symm.trans hu)
    rw [areaChange_self]
    exact ite_self _
  · rfl

theorem recordFaults_of_sound {s : State} {id : Nat} {a : Acc} {w : Wave} (hacc : accOf s id = some a) (hw : waveOf s a.wid = some w)
    (h : ∀ p ∈ a.pieces, p.fault = none) :
    recordFaults s id = setAcc (setWave s a.wid w) id { a with unrecorded := false, held := false, resolved := true } := by
  have hany : (a.pieces.any fun p => p.fault.isSome) = false := List.any_eq_false.2 fun p hp => by simp [h p hp]
  simp only [recordFaults, hacc, hw, newPages_of_sound w id h, List.map_nil, pushAll, reach_self hw, hany, Bool.and_false, Bool.not_true]

/-- A wave with one record more at its tail (R201). -/
def queued (w : Wave) (r : FRec) : Wave := { w with recs := Tab.put w.recs ((w.head + w.count) % 64) r, count := w.count + 1 }

theorem pushRecord_room (s : State) (k : Nat) {w : Wave} (r : FRec) (h : w.count < 64) :
    ∃ u loc, pushRecord s k w r = (u, queued w { r with loc := loc }, true) :=
  ⟨_, _, if_neg (Nat.not_le.2 h)⟩

/-- The record of an access's one failed piece is queued. -/
theorem recordFaults_of_failed {s : State} {id : Nat} {a : Acc} {p : Piece} {w : Wave} (hacc : accOf s id = some a) (hw : waveOf s a.wid = some w)
    (hpieces : a.pieces = [p]) (hfault : p.fault.isSome = true) (hcount : w.count < 64) (hrecs : ∀ e ∈ w.recs, e.2.acc ≠ id) :
    ∃ u loc, recordFaults s id = setAcc (reach u a.wid (queued w { accRecord s id a [p] false with loc := loc })) id
      { a with unrecorded := false, held := isStore a.kind, resolved := true } := by
  have hpage : (a.pieces.filter fun q => q.fault.isSome && piecePage a q == piecePage a p) = [p] := by simp [hpieces, hfault]
  have hany : (a.pieces.any fun p => p.fault.isSome) = true := by simp [hpieces, hfault]
  obtain ⟨u, loc, hpush⟩ := pushRecord_room s a.wid (accRecord s id a [p] false) hcount
  refine ⟨u, loc, ?_⟩
  simp only [recordFaults, hacc, hw, newPages_of_failed hpieces hfault hrecs, List.map_cons, List.map_nil, hpage, pushAll, hpush, hany,
    Bool.and_true, Bool.not_true]

/-! ### The end of a look (R143, R149, R152, R215) -/

/-- A tile that is accepted changes that of its entry alone. -/
theorem accOf_tileAccept {s : State} {id : Nat} {a : Acc} (h : accOf s id = some a) : ∃ x, accOf (tileAccept s id) id = some { a with accepted := x } := by
  have hset : accOf (setAcc s id { a with accepted := true }) id = some { a with accepted := true } := (accOf_setAcc ..).trans (if_pos rfl)
  simp only [tileAccept, h]
  split
  · split
    · obtain ⟨parties, hparties⟩ := finishMs_moved (setAcc s id { a with accepted := true }) a.lid a.party _ _
      rw [hparties]
      exact ⟨_, hset⟩
    · exact ⟨_, hset⟩
  · exact ⟨_, h⟩

theorem faultFill_moved (s : State) (id : Nat) : ∃ cores, faultFill s id = { s with cores := cores } := by
  unfold faultFill
  split
  · exact ⟨_, rfl⟩
  · split
    · split <;> exact ⟨_, rfl⟩
    · split <;> exact ⟨_, rfl⟩
    · exact ⟨_, rfl⟩

/-- The slot of a tile load that has failed is empty with FLT 1. -/
theorem faultFill_entry {s : State} {id : Nat} {a : Acc} {o : Nat} (h : accOf s id = some a) (hkind : a.kind = .tload)
    (hdest : (∃ f kc, a.dest = .slot o f kc) ∨ a.dest = .tldo o) (hfault : (a.pieces.any fun p => p.fault.isSome) = true) :
    (entryOf (faultFill s id) a.core o).st = .empty ∧ (entryOf (faultFill s id) a.core o).flt = true := by
  have hfill : faultFill s id =
      dropImage (modEntry s a.core o fun e => { e with st := .empty, flt := true, step := 0 }) a.core o := by
    obtain ⟨f, kc, hd⟩ | hd := hdest <;> simp only [faultFill, h, hd, hkind, hfault, BEq.rfl, Bool.and_self, if_true]
  have hentry : entryOf (faultFill s id) a.core o = { entryOf s a.core o with st := .empty, flt := true, step := 0 } := by
    rw [hfill, entryOf, dropImage, coreOf_modCore_same]
    exact (entryOf_modEntry ..).trans (if_pos rfl)
  rw [hentry]
  exact ⟨rfl, rfl⟩

/-- What follows the records of an access: it may be accepted, a slot's fill fails, and an acquire may end. -/
def lookEnd (s : State) (id k : Nat) : State := tryAcquire (faultFill (tileAccept s id) id) k

/-- The access and its wave after a look. -/
structure LookEnds (id k : Nat) (a : Acc) (w : Wave) (s t : State) : Prop where
  acc : ∃ x, accOf t id = some { a with accepted := x }
  wave : ∃ v, waveOf t k = some v ∧ AcquireMarks w v
  mem : t.mem = s.mem
  slot : a.kind = .tload → (a.pieces.any fun p => p.fault.isSome) = true → ∀ o, ((∃ f kc, a.dest = .slot o f kc) ∨ a.dest = .tldo o) →
    (entryOf t a.core o).st = .empty ∧ (entryOf t a.core o).flt = true

theorem lookEnd_ends {s : State} {id k : Nat} {a : Acc} {w : Wave} (hacc : accOf s id = some a) (hw : waveOf s k = some w) :
    LookEnds id k a w s (lookEnd s id k) := by
  obtain ⟨x, hx⟩ := accOf_tileAccept hacc
  obtain ⟨_, _, htile⟩ := tileAccept_moved s id
  obtain ⟨_, hfill⟩ := faultFill_moved (tileAccept s id) id
  refine ⟨⟨x, ?_⟩, ?_, ?_, fun hkind hfault o hdest => ?_⟩
  · rw [lookEnd, accOf, tryAcquire_acc, hfill]
    exact hx
  · refine tryAcquire_wave ?_
    rw [hfill, htile]
    exact hw
  · rw [lookEnd, tryAcquire_mem, hfill, htile]
  · rw [lookEnd, (TilesKept.tryAcquire ..).entryOf]
    exact faultFill_entry (a := { a with accepted := x }) hx hkind hdest hfault

theorem settleLook_looked {s : State} {id : Nat} {a : Acc} (hacc : accOf s id = some a) (h : a.pieces.any unlooked = false) :
    settleLook s id = lookEnd (recordFaults s id) id a.wid := by
  simp only [settleLook, hacc, h, Bool.false_eq_true, if_false, lookEnd]

/-! ### An access of one piece -/

section
variable {s : State} {id : Nat} {a : Acc} {p : Piece} {w : Wave} {region : Option Nat} {loc cause : Nat}

theorem canLook_of_free (hmem : p ∈ a.pieces) (h : Free s id a region p) : canLook s id a region = true := by
  obtain ⟨hun, hregion, hheld⟩ := h
  refine List.any_eq_true.2 ⟨p, hmem, ?_⟩
  cases region with
  | none => simp [hun, hheld]
  | some r => simp [hun, hheld, hregion r rfl]

/-- An access whose one piece has been looked up. -/
theorem lookAcc_free (hpieces : a.pieces = [p]) (h : Free s id a region p) (hecc : (lookFor s a p).1 ≠ .ecc) : lookAcc s id a region =
    settleLook (setAcc (lookFor s a p).2 id { a with pieces := [lookedPiece p (lookFor s a p).1] }) id := by
  simp only [lookAcc, hpieces, lookPieces_free h hecc, Bool.false_eq_true, if_false]

/-- The piece gets its place. -/
theorem lookAcc_placed (hpieces : a.pieces = [p]) (h : Free s id a region p) (hw : waveOf s a.wid = some w)
    (hlook : (lookFor s a p).1 = .at_ loc) : ∃ u, u.mem = s.mem ∧
      LookEnds id a.wid { a with pieces := [{ p with pa := some loc }], unrecorded := false, held := false, resolved := true } w u (lookAcc s id a region) := by
  have hfilled : CachesFilled s (lookFor s a p).2 := lookAt_filled ..
  have hacc : accOf (setAcc (lookFor s a p).2 id { a with pieces := [{ p with pa := some loc }] }) id =
      some { a with pieces := [{ p with pa := some loc }] } := (accOf_setAcc ..).trans (if_pos rfl)
  have hsound : ∀ q ∈ [{ p with pa := some loc }], q.fault = none := fun q hq => by
    obtain rfl := List.mem_singleton.1 hq
    exact fault_of_unlooked (p := p) h.1
  rw [lookAcc_free hpieces h (by rw [hlook]; nofun), hlook, lookedPiece, settleLook_looked hacc (by simp [unlooked]),
    recordFaults_of_sound hacc ((hfilled.waveOf a.wid).trans hw) hsound]
  refine ⟨_, ?_, lookEnd_ends ((accOf_setAcc ..).trans (if_pos rfl)) ((waveOf_setWave ..).trans (if_pos rfl))⟩
  exact hfilled.mem

/-- The piece's record enters the queue. -/
theorem lookAcc_failed (hpieces : a.pieces = [p]) (h : Free s id a region p) (hw : waveOf s a.wid = some w)
    (hlook : (lookFor s a p).1 = .fault cause) (hcount : w.count < 64) (hrecs : ∀ e ∈ w.recs, e.2.acc ≠ id) : ∃ v place u,
      LookEnds id a.wid { a with pieces := [{ p with fault := some cause }], unrecorded := false, held := isStore a.kind, resolved := true }
        (queued w { accRecord v id { a with pieces := [{ p with fault := some cause }] } [{ p with fault := some cause }] false with loc := place })
        u (lookAcc s id a region) := by
  have hfilled : CachesFilled s (lookFor s a p).2 := lookAt_filled ..
  have hacc : accOf (setAcc (lookFor s a p).2 id { a with pieces := [{ p with fault := some cause }] }) id =
      some { a with pieces := [{ p with fault := some cause }] } := (accOf_setAcc ..).trans (if_pos rfl)
  obtain ⟨v, place, hrecord⟩ := recordFaults_of_failed hacc ((hfilled.waveOf a.wid).trans hw) rfl rfl hcount hrecs
  rw [lookAcc_free hpieces h (by rw [hlook]; nofun), hlook, lookedPiece, settleLook_looked hacc (by simp [unlooked]), hrecord]
  exact ⟨_, place, _, lookEnd_ends ((accOf_setAcc ..).trans (if_pos rfl)) (waveOf_reach ..)⟩

end

/-! ### The steps -/

theorem exec_pageWalk {s : State} {id va : Nat} {a : Acc} (hacc : accOf s id = some a) (hkind : isStore a.kind = false)
    (hlook : canLook s id a (some (va / 4096)) = true) : exec (.pageWalk id va) s = .next (bump (lookAcc s id a (some (va / 4096)))) := by
  change execPageWalk id va s = _
  simp only [execPageWalk, hacc, hkind, hlook, Bool.not_false, Bool.and_self, if_true, done]

theorem exec_storeTranslate {s : State} {id : Nat} {a : Acc} (hacc : accOf s id = some a) (hkind : isStore a.kind = true)
    (hroom : lateRoom s a = true) (hlook : canLook s id a none = true) : exec (.storeTranslate id) s = .next (bump (lookAcc s id a none)) := by
  change execStoreTranslate id s = _
  simp only [execStoreTranslate, hacc, hkind, hlook, hroom, Bool.and_self, if_true, done]

theorem exec_pageWalk_copy {s : State} {id va : Nat} {c : Copy} (hacc : accOf s id = none) (hcopy : copyOf s id = some c) (hlin : c.lin = none)
    (hfaulted : c.faulted = false) (hregion : va / 4096 ∈ copyRegions c) (hpage : Tab.find c.pages (va / 4096) = none)
    (hfail : Tab.find c.fails (va / 4096) = none) : exec (.pageWalk id va) s = .next (bump (lookCopy s id c (va / 4096))) := by
  change execPageWalk id va s = _
  simp only [execPageWalk, hacc, hcopy, hlin, hfaulted, List.contains_iff_mem.2 hregion, hpage, hfail, Option.isNone_none, Bool.not_false,
    Bool.and_self, if_true, done]

section
variable {s : State} {id r : Nat} {c : Copy}

/-- The translation of a region of a copy. -/
def lookRegion (s : State) (c : Copy) (r : Nat) : Looked × State :=
  lookAt s c.core c.far c.asid c.cls (!isOut c.kind) (isOut c.kind) (r * 4096)

theorem lookCopy_placed {loc : Nat} (h : (lookRegion s c r).1 = .at_ loc) : lookCopy s id c r =
    setCopy (lookRegion s c r).2 id { c with pages := Tab.put c.pages r loc, fails := Tab.del c.fails r } := by
  rw [lookRegion] at h ⊢
  simp only [lookCopy, h]

theorem lookCopy_failed {k : Nat} (h : (lookRegion s c r).1 = .fault k) : lookCopy s id c r =
    setCopy (lookRegion s c r).2 id { c with fails := Tab.put c.fails r k } := by
  rw [lookRegion] at h ⊢
  simp only [lookCopy, h]

theorem lookCopy_ecc (h : (lookRegion s c r).1 = .ecc) : lookCopy s id c r = dataError (lookRegion s c r).2 c.wid c.addr := by
  rw [lookRegion] at h ⊢
  simp only [lookCopy, h]

end

/-- Settles O33: a free piece is looked up, and its place or its record is what the look found. -/
theorem translationPlacesOrRecords : Obligations.TranslationPlacesOrRecords := by
  unfold Obligations.TranslationPlacesOrRecords
  intro id s
  refine ⟨fun a va hacc hkind ⟨p, hmem, hun, hregion, hheld⟩ => ?_, fun a hacc hkind hroom ⟨p, hmem, hun, hheld⟩ => ?_, ?_, ?_⟩
  · have hfree : Free s id a (some (va / 4096)) p := ⟨hun, fun r hr => hregion.trans (Option.some.inj hr), by rwa [hkind]⟩
    exact ⟨_, exec_pageWalk hacc hkind (canLook_of_free hmem hfree)⟩
  · have hfree : Free s id a none p := ⟨hun, nofun, by rwa [hkind]⟩
    exact ⟨_, exec_storeTranslate hacc hkind hroom (canLook_of_free hmem hfree)⟩
  · intro a p w i hacc hpieces hun hheld hw hstep hcount hrecs l same
    obtain ⟨region, hfree, hexec⟩ : ∃ region, Free s id a region p ∧ exec i s = .next (bump (lookAcc s id a region)) := by
      have hmem : p ∈ a.pieces := by simp [hpieces]
      obtain ⟨hkind, rfl⟩ | ⟨hkind, rfl, hroom⟩ := hstep
      · have hfree : Free s id a (some (p.va / 4096)) p := ⟨hun, fun r hr => Option.some.inj hr, hheld⟩
        exact ⟨_, hfree, exec_pageWalk hacc hkind (canLook_of_free hmem hfree)⟩
      · have hfree : Free s id a none p := ⟨hun, nofun, hheld⟩
        exact ⟨_, hfree, exec_storeTranslate hacc hkind hroom (canLook_of_free hmem hfree)⟩
    refine ⟨fun loc hlook => ?_, fun c hlook => ?_⟩
    · obtain ⟨u, hmem, hacc', ⟨v, hv, hmarks⟩, hmem', -⟩ := lookAcc_placed hpieces hfree hw hlook
      obtain ⟨x, hx⟩ := hacc'
      obtain ⟨_, _, _, _, rfl⟩ := hmarks
      exact ⟨_, _, _, hexec, hv, rfl, hx, rfl, rfl, rfl, hmem'.trans hmem⟩
    · obtain ⟨y, place, u, ⟨x, hx⟩, ⟨v, hv, hmarks⟩, -, hslot⟩ := lookAcc_failed hpieces hfree hw hlook hcount hrecs
      obtain ⟨_, _, _, _, rfl⟩ := hmarks
      refine ⟨_, _, _, _, hexec, hx, rfl, rfl, hv, rfl, rfl, Tab.find_put_same .., rfl, rfl, rfl, accRecord_addr .., ?_, fun n hn => ?_,
        fun n hn => Tab.find_put_ne _ _ _ _ hn, fun hkind o hdest => hslot hkind rfl o hdest, rfl⟩
      · exact accRecord_lane y id (a := { a with pieces := [{ p with fault := some c }] }) (p := { p with fault := some c }) false
      · exact getLsbD_pieceLanes _ _ hn
  · intro c va hacc hcopy hlin hfaulted hregion hpage hfail l
    have hexec := exec_pageWalk_copy hacc hcopy hlin hfaulted hregion hpage hfail
    have hfilled : CachesFilled s l.2 := lookAt_filled ..
    refine ⟨fun loc hlook => ?_, fun k hlook => ?_, fun hlook => ?_⟩
    · exact ⟨_, _, hexec.trans (congrArg (fun u => Host.Outcome.next (bump u)) (lookCopy_placed hlook)),
        (copyOf_setCopy ..).trans (if_pos rfl), Tab.find_put_same .., hfilled.waves, hfilled.mem⟩
    · exact ⟨_, _, hexec.trans (congrArg (fun u => Host.Outcome.next (bump u)) (lookCopy_failed hlook)),
        (copyOf_setCopy ..).trans (if_pos rfl), Tab.find_put_same .., hfilled.waves, hfilled.mem⟩
    · exact hexec.trans (congrArg (fun u => Host.Outcome.next (bump u)) (lookCopy_ecc hlook))

end Sys2Proof.Machine

/-! PROOF. REPLAY of one record (R198, R202, R356) and INVPG with the acknowledgement of its dies (R203, R204, R325). -/

namespace Sys2Proof.Machine

/-! ### A record is freed (R198, R202) -/

/-- What freeing the record in a slot of a wave leaves. -/
structure Freed (s : State) (wid k : Nat) (w : Wave) (r : FRec) (t : State) : Prop where
  wave : ∃ v, waveOf t wid = some v ∧ v.recs = Tab.del w.recs k ∧ v.more = w.more
  cause : ∀ l, r.loc = some l → Stands t (l + 5) 0 ∧ ∀ x, x ≠ l + 5 → ByteKept s t x
  mem : r.loc = none → t.mem = s.mem
  acc : t.acc = s.acc
  copies : t.copies = s.copies
  others : ∀ n, n ≠ wid → waveOf t n = waveOf s n

theorem freeSlot_frees {s : State} {wid k : Nat} {w : Wave} {r : FRec} (hw : waveOf s wid = some w) (hr : Tab.find w.recs k = some r) :
    Freed s wid k w r (freeSlot s wid k) := by
  simp only [freeSlot, hw, freeRecord, hr]
  cases hloc : r.loc with
  | none =>
    exact ⟨⟨_, (waveOf_setWave ..).trans (if_pos rfl), rfl, rfl⟩, fun l h => by simp [hloc] at h, fun _ => rfl, rfl, rfl,
      fun n hn => (waveOf_setWave ..).trans (if_neg hn)⟩
  | some l =>
    have hdev : DevWritten s (devWrite s (l + 5) [0]) := .devWrite ..
    have hframe : (devWrite s (l + 5) [0]).acc = s.acc ∧ (devWrite s (l + 5) [0]).copies = s.copies := by
      obtain ⟨_, _, _, _, h⟩ := hdev
      rw [h]
      exact ⟨rfl, rfl⟩
    refine ⟨⟨_, (waveOf_setWave ..).trans (if_pos rfl), rfl, rfl⟩, fun l' h => ?_, fun h => by simp [hloc] at h, hframe.1, hframe.2, fun n hn => ?_⟩
    · obtain rfl : l = l' := Option.some.inj (hloc.symm.trans h)
      exact ⟨stands_putCommits Origin.device [0] s (l + 5) (n := 0) (by simp),
        fun x hx => byteKept_putCommits Origin.device [0] s (l + 5) (by simp; omega)⟩
    · exact ((waveOf_setWave ..).trans (if_neg hn)).trans (congrArg (Tab.find · n) hdev.waves)

/-! ### Records that wait for room (R196) -/

/-- No record of a wave waits for room in its queue. -/
structure NoneWaits (s : State) (wid : Nat) : Prop where
  acc : ∀ e ∈ s.acc, e.2.wid = wid → e.2.unrecorded = false
  copies : ∀ e ∈ s.copies, e.2.wid = wid → e.2.faulted = false
  more : ∀ w, waveOf s wid = some w → w.more = []

theorem recordWaiting_of_none {s : State} {wid : Nat} (h : NoneWaits s wid) : recordWaiting s wid = s := by
  have hacc : (s.acc.filter fun e => e.2.wid == wid && e.2.unrecorded) = [] :=
    List.filter_eq_nil_iff.2 fun e he => by simpa using h.acc e he
  rw [recordWaiting, hacc, List.foldl_nil, recordMore]
  split
  · next w hw => rw [h.more w hw, List.isEmpty_nil, if_pos rfl]
  · rfl

theorem recordCopies_of_none {s : State} {wid : Nat} (h : NoneWaits s wid) : recordCopies s wid = s := by
  have hcopies : (s.copies.filter fun e => e.2.wid == wid && e.2.faulted) = [] :=
    List.filter_eq_nil_iff.2 fun e he => by simpa using h.copies e he
  rw [recordCopies, hcopies, List.foldl_nil]

theorem NoneWaits.freed {s t : State} {wid k : Nat} {w : Wave} {r : FRec} (h : NoneWaits s wid) (hfreed : Freed s wid k w r t)
    (hw : waveOf s wid = some w) : NoneWaits t wid := by
  obtain ⟨v, hv, _, hmore⟩ := hfreed.wave
  refine ⟨?_, ?_, fun u hu => ?_⟩
  · rw [hfreed.acc]
    exact h.acc
  · rw [hfreed.copies]
    exact h.copies
  · rw [← Option.some.inj (hv.symm.trans hu), hmore]
    exact h.more w hw

/-! ### The record of a load whose page translates now (R198) -/

/-- An access all of whose records are queued: nothing but its own entry changes. -/
structure Recorded (id : Nat) (b : Acc) (s t : State) : Prop where
  entry : ∃ c, accOf t id = some c ∧ c.pieces = b.pieces
  acc : ∀ e ∈ t.acc, e ∈ s.acc ∨ e.2.unrecorded = false
  wave : ∀ n, waveOf t n = waveOf s n
  mem : t.mem = s.mem
  wiped : t.wiped = s.wiped
  copies : t.copies = s.copies

theorem recordFaults_sound {s : State} {id : Nat} {b : Acc} (hacc : accOf s id = some b) (h : ∀ p ∈ b.pieces, p.fault = none) :
    Recorded id b s (recordFaults s id) := by
  cases hw : waveOf s b.wid with
  | none =>
    have hsame : recordFaults s id = s := by simp only [recordFaults, hacc, hw]
    rw [hsame]
    exact ⟨⟨b, hacc, rfl⟩, fun _ => .inl, fun _ => rfl, rfl, rfl, rfl⟩
  | some w =>
    rw [recordFaults_of_sound hacc hw h]
    refine ⟨⟨_, (accOf_setAcc ..).trans (if_pos rfl), rfl⟩, fun e he => ?_, fun n => (waveOf_setWave ..).trans ?_, rfl, rfl, rfl⟩
    · obtain rfl | he := Tab.mem_put _ _ _ _ he
      · exact .inr rfl
      · exact .inl he
    · split
      · next hn => rw [hn, hw]
      · rfl

section
variable {s st : State} {wid k id : Nat} {a : Acc} {p : Piece} {r : FRec} {loc : Nat}

/-- The access of a load whose one failed piece has its place now. -/
def healed (a : Acc) (p : Piece) (loc : Nat) : Acc := { a with pieces := [{ p with pa := some loc, fault := none }], held := false }

theorem relook_placed (hfault : p.fault.isSome = true) (hpage : piecePage a p = recPage r a.cls) (hkind : a.kind = .load)
    (hlook : lookAt s a.core a.far a.asid a.cls true false p.va = (.at_ loc, st)) :
    relook s a (recPage r a.cls) [p] = ([{ p with pa := some loc, fault := none }], st, false) := by
  have hrights : lookAt s a.core a.far a.asid a.cls (accRd a.kind) (accWr a.kind) p.va = (.at_ loc, st) := by rw [hkind]; exact hlook
  simp only [relook, hfault, hpage, BEq.rfl, Bool.and_self, Bool.true_or, if_true, hrights]

/-- A record whose page no longer fails is freed, and the access gives the records that it has still to give. -/
theorem replayAcc_sound {b : Acc} {ps : List Piece} (hrelook : relook s a (recPage r a.cls) (unread a).pieces = (ps, st, false))
    (hb : b = { unread a with pieces := ps, held := a.held && ps.any fun p => p.fault.isSome }) (hnone : recPieces b (recPage r a.cls) = []) :
    replayAcc s wid k id a r = recordFaults (tileAccept (refill (freeSlot (setAcc st id b) wid k) b) id) id := by
  simp only [replayAcc, hrelook, ← hb, hnone, Bool.false_eq_true, if_false]

theorem replayAcc_placed (hpieces : a.pieces = [p]) (hfault : p.fault.isSome = true) (hpage : piecePage a p = recPage r a.cls) (hkind : a.kind = .load)
    (hldo : isLdo a.dest = false) (hlook : lookAt s a.core a.far a.asid a.cls true false p.va = (.at_ loc, st)) :
    replayAcc s wid k id a r = recordFaults (tileAccept (refill (freeSlot (setAcc st id (healed a p loc)) wid k) (healed a p loc)) id) id := by
  have hunread : unread a = a := by simp only [unread, hldo, Bool.false_eq_true, if_false]
  refine replayAcc_sound (st := st) (ps := [{ p with pa := some loc, fault := none }]) ?_ ?_ ?_
  · rw [hunread, hpieces]
    exact relook_placed hfault hpage hkind hlook
  · simp only [hunread, healed, List.any_cons, List.any_nil, Option.isSome_none, Bool.or_false, Bool.and_false]
  · unfold recPieces
    split
    · next o hdest =>
      have hdest : a.dest = .tldo o := hdest
      rw [hdest] at hldo
      cases hldo
    · simp [healed]

theorem refill_load (h : a.kind = .load) (u : State) : refill u a = u := by
  unfold refill
  split
  · simp [h]
  · simp [h]
  · rfl

theorem tileAccept_load {u : State} (hacc : accOf u id = some a) (h : a.kind = .load) : tileAccept u id = u := by
  simp [tileAccept, hacc, h]

end

section
variable {s st : State} {wid k : Nat} {w : Wave} {r : FRec} {a : Acc} {p : Piece} {loc : Nat}

/-- A record of a load whose page now translates for its one failing lane: the lane has its place, and the slot is free. -/
theorem replayRec_placed (hwaits : NoneWaits s wid) (hw : waveOf s wid = some w) (hr : Tab.find w.recs k = some r) (hcopy : r.copy = false)
    (hacc : accOf s r.acc = some a) (hpieces : a.pieces = [p]) (hfault : p.fault.isSome = true) (hpage : piecePage a p = recPage r a.cls)
    (hkind : a.kind = .load) (hldo : isLdo a.dest = false) (hlook : lookAt s a.core a.far a.asid a.cls true false p.va = (.at_ loc, st)) :
    ∃ u, Freed (setAcc st r.acc (healed a p loc)) wid k w r u ∧ Recorded r.acc (healed a p loc) u (replayRec s wid k w) := by
  have hfilled : CachesFilled s st := by
    have h := lookAt_filled s a.core a.far a.asid a.cls true false p.va
    rwa [hlook] at h
  have hfreed : Freed (setAcc st r.acc (healed a p loc)) wid k w r (freeSlot (setAcc st r.acc (healed a p loc)) wid k) :=
    freeSlot_frees ((hfilled.waveOf wid).trans hw) hr
  generalize hu : freeSlot (setAcc st r.acc (healed a p loc)) wid k = u at hfreed
  have hentry : accOf u r.acc = some (healed a p loc) := (congrArg (Tab.find · r.acc) hfreed.acc).trans ((accOf_setAcc ..).trans (if_pos rfl))
  have hrecorded : Recorded r.acc (healed a p loc) u (recordFaults u r.acc) := recordFaults_sound hentry fun q hq => by
    obtain rfl := List.mem_singleton.1 hq
    rfl
  have hreplay : replayAcc s wid k r.acc a r = recordFaults u r.acc := by
    rw [replayAcc_placed hpieces hfault hpage hkind hldo hlook, hu, refill_load (a := healed a p loc) hkind, tileAccept_load hentry hkind]
  have hnone : NoneWaits (recordFaults u r.acc) wid := by
    obtain ⟨v, hv, _, hmore⟩ := hfreed.wave
    obtain ⟨_, _, _, hst⟩ := hfilled
    refine ⟨fun e he hwid => ?_, ?_, fun v' hv' => ?_⟩
    · obtain he | he := hrecorded.acc e he
      · rw [hfreed.acc] at he
        obtain rfl | he := Tab.mem_put _ _ _ _ he
        · exact hwaits.acc (r.acc, a) (Tab.mem_of_find _ _ _ hacc) hwid
        · rw [hst] at he
          exact hwaits.acc e he hwid
      · exact he
    · rw [hrecorded.copies, hfreed.copies, hst]
      exact hwaits.copies
    · rw [hrecorded.wave] at hv'
      rw [← Option.some.inj (hv.symm.trans hv'), hmore]
      exact hwaits.more w hw
  refine ⟨u, hfreed, ?_⟩
  have hrec : replayRec s wid k w = recordFaults u r.acc := by
    simp only [replayRec, hr, hcopy, Bool.false_eq_true, if_false, hacc, hreplay, recordWaiting_of_none hnone, recordCopies_of_none hnone]
  rwa [hrec]

end

/-! ### REPLAY (R356) -/

theorem exec_replay {o : ScOp} {s : State} {w : Wave} (h : Issues (.replay o) s w) :
    exec (.replay o) s = .next (bump (replayRec s s.cur.wid ((scVal s w o).toNat % 64) w)) :=
  slotOp_issues (body := fun wid w s => replayRec s wid ((scVal s w o).toNat % 64) w) h

/-- A record of an access that is no longer there is freed. -/
theorem replayRec_gone {s : State} {wid k : Nat} {w : Wave} {r : FRec} (hwaits : NoneWaits s wid) (hw : waveOf s wid = some w)
    (hr : Tab.find w.recs k = some r) (hcopy : r.copy = false) (hacc : accOf s r.acc = none) : Freed s wid k w r (replayRec s wid k w) := by
  have hfreed := freeSlot_frees hw hr
  have hwaits' := hwaits.freed hfreed hw
  have hrec : replayRec s wid k w = freeSlot s wid k := by
    simp only [replayRec, hr, hcopy, Bool.false_eq_true, if_false, hacc, recordWaiting_of_none hwaits', recordCopies_of_none hwaits']
  rwa [hrec]

/-! ### What INVPG leaves of a region (R203, R206) -/

/-- A core's L1 keeps, of a region's lines, only those that have an error. -/
def L1Clean (asid : Nat) (g : Nat × Nat) (x : Core) : Prop := ∀ y ∈ x.l1, y.asid = asid → lineIn g y.line = true → y.bad ≠ []

theorem l1Clean_dropL1 {s : State} {asid : Nat} {g : Nat × Nat} {k c : Nat} (h : c = k ∨ L1Clean asid g (coreOf s c)) :
    L1Clean asid g (coreOf (dropL1 s k asid (lineIn g)) c) := by
  rw [dropL1, coreOf_modCore]
  split
  · intro y hy hasid hline hbad
    have hkept := (List.mem_filter.1 hy).2
    simp [hasid, hline, spoiling, hbad] at hkept
  · next hc => exact h.resolve_left hc

theorem l1Clean_dropEach {asid : Nat} {g : Nat × Nat} {c : Nat} (l : Tab Core) (s : State) (h : (∃ e ∈ l, e.1 = c) ∨ L1Clean asid g (coreOf s c)) :
    L1Clean asid g (coreOf (l.foldl (fun t e => dropL1 t e.1 asid (lineIn g)) s) c) := by
  induction l generalizing s with
  | nil => exact h.resolve_left fun ⟨_, he, _⟩ => List.not_mem_nil he
  | cons e l ih =>
    refine ih _ ?_
    rcases h with ⟨e', he', hc⟩ | h
    · rcases List.mem_cons.1 he' with rfl | he'
      · exact .inr (l1Clean_dropL1 (.inl hc.symm))
      · exact .inl ⟨e', he', hc⟩
    · exact .inr (l1Clean_dropL1 (.inr h))

/-- Every core's lines of the region are dropped. -/
theorem l1Clean_dropAll (s : State) (asid : Nat) (g : Nat × Nat) (c : Nat) :
    L1Clean asid g (coreOf (s.cores.foldl (fun t e => dropL1 t e.1 asid (lineIn g)) s) c) := by
  refine l1Clean_dropEach s.cores s ?_
  by_cases h : ∃ e ∈ s.cores, e.1 = c
  · exact .inl h
  · have hnone : Tab.find s.cores c = none := Tab.find_eq_none_iff.2 fun e he hc => h ⟨e, he, hc⟩
    rw [coreOf, Tab.findD, hnone]
    exact .inr fun y hy => absurd hy List.not_mem_nil

/-- INVPG with no plain store under way: the caches lose the region, and then the translations (R203). -/
def purge (s : State) (asid : Nat) (g : Nat × Nat) : State :=
  invalidate (flushL2 (dropRdc (s.cores.foldl (fun t e => dropL1 t e.1 asid (lineIn g)) s) asid (lineIn g)) asid g) asid g

/-- No translation and no line of a region is left, but for lines of L1 with an error. -/
structure Purged (asid : Nat) (g : Nat × Nat) (t : State) : Prop where
  atlb : ∀ e ∈ t.cores, ∀ x ∈ e.2.atlb, x.asid = asid → pageOverlaps x.cls x.page g = false
  xlat : ∀ e ∈ t.dies, ∀ c ∈ e.2.xlat, ∀ x ∈ c.2, x.asid = asid → pageOverlaps x.cls x.page g = false
  feXlat : ∀ c ∈ t.feXlat, ∀ x ∈ c.2, x.asid = asid → pageOverlaps x.cls x.page g = false
  l1 : ∀ c, L1Clean asid g (coreOf t c)
  rdc : ∀ e ∈ t.dies, ∀ x ∈ e.2.rdc, x.asid = asid → lineIn g x.line = false
  l2 : ∀ e ∈ t.dies, ∀ x ∈ e.2.l2, x.2.asid = asid → lineIn g x.2.line = false

theorem dropX_clean {asid : Nat} {g : Nat × Nat} {l : List XEntry} {x : XEntry} (hx : x ∈ dropX asid g l) (hasid : x.asid = asid) :
    pageOverlaps x.cls x.page g = false := by
  simpa [hasid] using (List.mem_filter.1 hx).2

theorem dropAll_moved (asid : Nat) (g : Nat × Nat) (l : Tab Core) (s : State) :
    MachineryMoved s (l.foldl (fun t e => dropL1 t e.1 asid (lineIn g)) s) := .foldl (fun _ _ => .modCore ..) l s

theorem spoil_moved (s : State) (ws : List Nat) : ∃ ecc log, spoil s ws = { s with ecc := ecc, eccLog := log } := by
  unfold spoil
  split <;> exact ⟨_, _, rfl⟩

theorem flushL2_moved (s : State) (asid : Nat) (g : Nat × Nat) : ∃ ecc log, flushL2 s asid g = { s with
    dies := s.dies.map fun d => (d.1, { d.2 with l2 := d.2.l2.filter fun x => !(x.2.asid == asid && lineIn g x.2.line) })
    ecc := ecc
    eccLog := log } := by
  obtain ⟨ecc, log, h⟩ := spoil_moved { s with
    dies := s.dies.map fun d => (d.1, { d.2 with l2 := d.2.l2.filter fun x => !(x.2.asid == asid && lineIn g x.2.line) }) } _
  exact ⟨ecc, log, h⟩

/-- The ATLB of a core loses the region, as `invalidate` does it. -/
def dropAtlb (asid : Nat) (g : Nat × Nat) (x : Core) : Core :=
  { x with atlb := x.atlb.filter fun y => !(y.asid == asid && pageOverlaps y.cls y.page g) }

/-- The invalidation of translations keeps the lines of L1. -/
theorem l1_invalidate (s : State) (asid : Nat) (g : Nat × Nat) (c : Nat) : (coreOf (invalidate s asid g) c).l1 = (coreOf s c).l1 := by
  have hfind : Tab.find (invalidate s asid g).cores c = (Tab.find s.cores c).map (dropAtlb asid g) :=
    Tab.find_map s.cores (fun _ => dropAtlb asid g) c
  rw [coreOf, Tab.findD, hfind, coreOf, Tab.findD]
  cases Tab.find s.cores c <;> rfl

theorem purge_purged (s : State) (asid : Nat) (g : Nat × Nat) : Purged asid g (purge s asid g) := by
  have hl1 := l1Clean_dropAll s asid g
  unfold purge
  generalize s.cores.foldl (fun t e => dropL1 t e.1 asid (lineIn g)) s = t at hl1
  obtain ⟨ecc, log, hflush⟩ := flushL2_moved (dropRdc t asid (lineIn g)) asid g
  refine ⟨?_, ?_, ?_, fun c => ?_, ?_, ?_⟩
  · rintro _ he x hx hasid
    obtain ⟨e, _, rfl⟩ := List.mem_map.1 he
    simpa [hasid] using (List.mem_filter.1 hx).2
  · rintro _ he _ hc x hx hasid
    obtain ⟨e, _, rfl⟩ := List.mem_map.1 he
    obtain ⟨c, _, rfl⟩ := List.mem_map.1 hc
    exact dropX_clean hx hasid
  · rintro _ hc x hx hasid
    obtain ⟨c, _, rfl⟩ := List.mem_map.1 hc
    exact dropX_clean hx hasid
  · rw [L1Clean, l1_invalidate, hflush]
    exact hl1 c
  · rw [hflush]
    rintro _ he x hx hasid
    obtain ⟨_, he1, rfl⟩ := List.mem_map.1 he
    obtain ⟨_, he2, rfl⟩ := List.mem_map.1 he1
    obtain ⟨e, _, rfl⟩ := List.mem_map.1 he2
    simpa [hasid] using (List.mem_filter.1 hx).2
  · rw [hflush]
    rintro _ he x hx hasid
    obtain ⟨_, he1, rfl⟩ := List.mem_map.1 he
    obtain ⟨e, _, rfl⟩ := List.mem_map.1 he1
    simpa [hasid] using (List.mem_filter.1 hx).2

theorem purge_frame (s : State) (asid : Nat) (g : Nat × Nat) : (purge s asid g).waves = s.waves ∧ (purge s asid g).mem = s.mem := by
  obtain ⟨_, _, _, hdrop⟩ := dropAll_moved asid g s.cores s
  obtain ⟨_, _, hflush⟩ := flushL2_moved (dropRdc (s.cores.foldl (fun t e => dropL1 t e.1 asid (lineIn g)) s) asid (lineIn g)) asid g
  rw [purge, hflush, hdrop]
  exact ⟨rfl, rfl⟩

theorem Purged.rdc_dieOf {asid : Nat} {g : Nat × Nat} {t : State} (h : Purged asid g t) (d : Nat) :
    ∀ x ∈ (dieOf t d).rdc, x.asid = asid → lineIn g x.line = false := by
  rw [dieOf, Tab.findD]
  cases hd : Tab.find t.dies d with
  | none => exact fun x hx => absurd hx List.not_mem_nil
  | some y => exact h.rdc (d, y) (Tab.mem_of_find _ _ _ hd)

/-- A state in which INVPG writes back no plain store. -/
def NoPlainStore (s : State) : Prop := ∀ e ∈ s.acc, isStore e.2.kind = true → e.2.scope.isPlain = true →
  e.2.loc = true ∨ e.2.direct = true ∨ ∀ p ∈ e.2.pieces, p.done = true

theorem sendStores_nil (s : State) : sendStores s [] = s := by
  simp [sendStores]

theorem flushL1_of_none {s : State} (h : NoPlainStore s) (asid : Nat) (g : Nat × Nat) :
    flushL1 s asid g = dropRdc (s.cores.foldl (fun t e => dropL1 t e.1 asid (lineIn g)) s) asid (lineIn g) := by
  have hnone : (s.acc.filter fun e => isStore e.2.kind && e.2.scope.isPlain && !e.2.loc && !e.2.direct && e.2.asid == asid &&
      (pieceLines (e.2.pieces.filter fun p => !p.done)).any (lineIn g)) = [] := by
    refine List.filter_eq_nil_iff.2 fun e he htest => ?_
    simp only [Bool.and_eq_true, Bool.not_eq_true'] at htest
    obtain ⟨⟨⟨⟨⟨hkind, hplain⟩, hloc⟩, hdirect⟩, _⟩, hlines⟩ := htest
    obtain h | h | hdone := h e he hkind hplain
    · simp [h] at hloc
    · simp [h] at hdirect
    · have hnil : (e.2.pieces.filter fun p => !p.done) = [] := List.filter_eq_nil_iff.2 fun p hp => by simp [hdone p hp]
      rw [hnil] at hlines
      cases hlines
  simp only [flushL1, hnone, sendStores_nil, lookStores, List.foldl_nil]

/-! ### The status of INVPG (R203, R204, R325) -/

/-- The wave of an INVPG awaits its status. -/
def invpgIssued (s : State) (w : Wave) (f : InvpgF) : State :=
  let u := purge s (asidOf s w) (invRegion f ((rdS s w (tagOf 0 0) f.a.toNat).toNat % 2 ^ 48))
  setWave { u with invpg := Tab.put u.invpg s.nextId (s.cur.wid, offMask s), nextId := s.nextId + 1 } s.cur.wid
    (addBusy w s.nextId [nameS w.sup f.a.toNat])

theorem exec_invpg {f : InvpgF} {s : State} {w : Wave} (h : Issues (.invpg f) s w) (hplain : NoPlainStore s) :
    exec (.invpg f) s = .next (bump (invpgIssued s w f)) := by
  have hw : waveOf (purge s (asidOf s w) (invRegion f ((rdS s w (tagOf 0 0) f.a.toNat).toNat % 2 ^ 48))) s.cur.wid = some w :=
    (congrArg (Tab.find · s.cur.wid) (purge_frame ..).1).trans h.1
  change execInvpg f s = _
  rw [execInvpg, slotOp_issues h]
  simp only [flushL1_of_none hplain]
  rw [purge] at hw
  simp only [hw]
  rfl

/-- What the acknowledgement writes to a register that INVPG has marked. -/
def markWrite (isol : Nat) (r : Reg) : RegWrite :=
  match r with
  | .h n => .h n (invpgStatus isol)
  | .s n => .s n (invpgStatus isol)
  | _ => .s 0 0

/-- What the acknowledgement of an INVPG writes: the status, to each register that it has marked. -/
def statusWrites (w : Wave) (id isol : Nat) : List RegWrite := (w.busy.filter fun b => b.by_ == id).map fun b => markWrite isol b.reg

theorem statusWrites_addBusy (w : Wave) (id isol : Nat) (r : Reg) :
    statusWrites (addBusy w id [r]) id isol = statusWrites w id isol ++ [markWrite isol r] := by
  simp [statusWrites, addBusy]

/-- A wave to which the status of its INVPG has come. -/
def acknowledged (w : Wave) (id isol : Nat) : Wave := clearBusy (landNow w (statusWrites w id isol)) id

theorem exec_loadReturn_invpg {s : State} {id wid isol : Nat} {w : Wave} (h : Tab.find s.invpg id = some (wid, isol)) (hw : waveOf s wid = some w) :
    ∃ t, exec (.loadReturn id) s = .next t ∧ waveOf t wid = some (acknowledged w id isol) := by
  have hexec : exec (.loadReturn id) s = .next (bump (invpgDone s id wid isol)) := by
    change execLoadReturn id s = _
    simp only [execLoadReturn, h, done]
  refine ⟨_, hexec, ?_⟩
  have hdone : invpgDone s id wid isol = reach { s with invpg := Tab.del s.invpg id } wid (acknowledged w id isol) := by
    unfold invpgDone modReach
    rw [show waveOf { s with invpg := Tab.del s.invpg id } wid = some w from hw]
    rfl
  rw [hdone]
  exact waveOf_reach ..

theorem holdS_markWrite (w : Wave) (isol n : Nat) :
    holdS (applyWrite w (markWrite isol (nameS w.sup n)) false) n = { val := invpgStatus isol, und := false } := by
  by_cases h : w.sup && 56 ≤ n
  · rw [nameS, if_pos h]
    exact (if_pos h).trans ((Tab.findD_put ..).trans (if_pos rfl))
  · rw [nameS, if_neg h]
    exact (if_neg h).trans ((Tab.findD_put ..).trans (if_pos rfl))

/-- The status reaches the register, which no mark holds any longer. -/
theorem acknowledged_status {w : Wave} {n : Nat} (id isol : Nat) (h : isBusy w (nameS w.sup n) = false) :
    holdS (acknowledged (addBusy w id [nameS w.sup n]) id isol) n = { val := invpgStatus isol, und := false } ∧
      isBusy (acknowledged (addBusy w id [nameS w.sup n]) id isol) (nameS w.sup n) = false := by
  constructor
  · obtain ⟨_, _, _, _, _, hregs⟩ := landNow_regs (statusWrites w id isol) (addBusy w id [nameS w.sup n])
    have hsup : (landNow (addBusy w id [nameS w.sup n]) (statusWrites w id isol)).sup = w.sup := by
      rw [hregs]
      rfl
    have hlast := holdS_markWrite (landNow (addBusy w id [nameS w.sup n]) (statusWrites w id isol)) isol n
    rw [hsup] at hlast
    rw [acknowledged, statusWrites_addBusy, landNow_append]
    exact hlast
  · obtain ⟨_, _, _, _, _, hregs⟩ := landNow_regs (statusWrites (addBusy w id [nameS w.sup n]) id isol) (addBusy w id [nameS w.sup n])
    rw [acknowledged, hregs]
    refine List.any_eq_false.2 fun b hb hreg => ?_
    obtain ⟨hmem, hby⟩ := List.mem_filter.1 hb
    obtain hmem | hmem := List.mem_append.1 hmem
    · exact List.any_eq_false.1 h b hmem hreg
    · obtain rfl := List.mem_singleton.1 hmem
      simp at hby

/-- Settles O15: REPLAY by what freeing one record leaves, INVPG by what its purge leaves of the region. -/
theorem replayAndInvpg : Obligations.ReplayAndInvpg := by
  unfold Obligations.ReplayAndInvpg
  refine ⟨?_, ?_⟩
  · intro o s w h hacc hcopies hmore k
    have hw : waveOf s s.cur.wid = some w := h.1
    have hwaits : NoneWaits s s.cur.wid := ⟨hacc, hcopies, fun v hv => Option.some.inj (hw.symm.trans hv) ▸ hmore⟩
    have hk : (scVal s w o).toNat % 64 = k := by cases o <;> rfl
    have hexec := exec_replay h
    rw [hk] at hexec
    refine ⟨fun hnone => ?_, fun r hr hcopy hgone => ?_, fun r a p loc st hr hcopy ha hkind hpieces hfault hpage hldo hlook => ?_⟩
    · simpa only [replayRec, hnone] using hexec
    · have hfreed := replayRec_gone hwaits hw hr hcopy hgone
      obtain ⟨v, hv, hrecs, _⟩ := hfreed.wave
      have hlast : ∀ x, ByteKept (replayRec s s.cur.wid k w) (bump (replayRec s s.cur.wid k w)) x := fun x => .of_mem rfl rfl x
      refine ⟨_, v, hexec, hv, hrecs, fun l hl => ?_, hfreed.mem⟩
      obtain ⟨hzero, hothers⟩ := hfreed.cause l hl
      exact ⟨(hzero.kept (hlast _)).devByte, fun x hx => (hothers x hx).trans (hlast x)⟩
    · obtain ⟨u, hfreed, hrecorded⟩ := replayRec_placed hwaits hw hr hcopy ha hpieces hfault hpage.symm hkind hldo hlook
      obtain ⟨v, hv, hrecs, _⟩ := hfreed.wave
      obtain ⟨_, _, _, hst⟩ : CachesFilled s st := by
        have h := lookAt_filled s a.core a.far a.asid a.cls true false p.va
        rwa [hlook] at h
      have hfirst : ∀ x, ByteKept s (setAcc st r.acc (healed a p loc)) x := fun x => .of_mem (by rw [hst]; rfl) (by rw [hst]; rfl) x
      have hlast : ∀ x, ByteKept u (bump (replayRec s s.cur.wid k w)) x := fun x => .of_mem hrecorded.mem hrecorded.wiped x
      obtain ⟨b, hb, hbp⟩ := hrecorded.entry
      refine ⟨_, v, hexec, (hrecorded.wave _).trans hv, hrecs, fun l hl => ?_, fun hl => ?_, b, hb, hbp⟩
      · obtain ⟨hzero, hothers⟩ := hfreed.cause l hl
        exact ⟨(hzero.kept (hlast _)).devByte, fun x hx => ((hfirst x).trans (hothers x hx)).trans (hlast x)⟩
      · exact (hrecorded.mem.trans (hfreed.mem hl)).trans (by rw [hst]; rfl)

  · intro f s w h hplain va size lo hi named
    have hpurged := purge_purged s (asidOf s w) (invRegion f va)
    have hexec := exec_invpg h hplain
    obtain ⟨hwaves, hmem⟩ := purge_frame s (asidOf s w) (invRegion f va)
    have hregion : lo = (invRegion f va).1 ∧ hi = (invRegion f va).1 + (invRegion f va).2 := by
      unfold lo hi invRegion
      split <;> exact ⟨by rfl, by simp [size]⟩
    have hpage : ∀ cls page, pageOverlaps cls page (invRegion f va) = false → ¬ named (page * classSize cls) (classSize cls) := by
      intro cls page hno hnamed
      simp only [named, hregion.1, hregion.2] at hnamed
      simp only [pageOverlaps, Nat.succ_mul, hnamed.1, hnamed.2, decide_true, Bool.and_self, Bool.true_eq_false] at hno
    have hline : ∀ line, named (128 * line) 128 → lineIn (invRegion f va) line = true := by
      intro line hnamed
      simp only [named, hregion.1, hregion.2] at hnamed
      simp only [lineIn, Nat.mul_succ, hnamed.1, hnamed.2, decide_true, Bool.and_self]
    have hwave : waveOf (invpgIssued s w f) s.cur.wid = some (addBusy w s.nextId [nameS w.sup f.a.toNat]) :=
      (waveOf_setWave ..).trans (if_pos rfl)
    have hfree : isBusy w (nameS w.sup f.a.toNat) = false := by
      have hscore := (Bool.or_eq_false_iff.1 h.2.1).2
      simpa [writesOf, sR, viewReg] using hscore
    obtain ⟨u, hreturn, hu⟩ := exec_loadReturn_invpg (s := bump (invpgIssued s w f)) (Tab.find_put_same _ s.nextId (s.cur.wid, offMask s)) hwave
    obtain ⟨hstatus, hback⟩ := acknowledged_status s.nextId (offMask s) hfree
    refine ⟨_, _, hexec, hwave, ?_, ?_, fun e he x hx hasid => hpage _ _ (hpurged.atlb e he x hx hasid),
      fun e he c hc x hx hasid => hpage _ _ (hpurged.xlat e he c hc x hx hasid), fun c hc x hx hasid => hpage _ _ (hpurged.feXlat c hc x hx hasid),
      fun c x hx hasid hnamed => hpurged.l1 c x hx hasid (hline _ hnamed), fun d x hx hasid hnamed => ?_,
      fun e he x hx hasid hnamed => ?_, hmem, u, _, hreturn, hu, hstatus, hback⟩
    · simp [isBusy, addBusy]
    · exact List.any_eq_true.2 ⟨(s.nextId, s.cur.wid, offMask s), Tab.mem_of_find _ _ _ (Tab.find_put_same ..), beq_self_eq_true _⟩
    · exact absurd (hline _ hnamed) (Bool.eq_false_iff.1 (hpurged.rdc_dieOf d x hx hasid))
    · exact absurd (hline _ hnamed) (Bool.eq_false_iff.1 (hpurged.l2 e he x hx hasid))

end Sys2Proof.Machine

/-! PROOF. A watch with a failed lane is not looked up afresh (R187, R354). -/

namespace Sys2Proof.Machine

/-- A lane of a watch: a word of far memory that reads 0. -/
def watchedLane : Piece := { lane := 31, va := 128, size := 4, pa := some 128, fault := none, data := [], cmp := [], val := [], done := false }

/-- A watch of a pageable word for a change from 0, of which a second lane has failed. -/
def failedWatch : Acc :=
  { wid := 0, sup := false, loc := false, lid := 1, core := 0, party := 0, num := 0, asid := 1, kind := .watch, addr := 0, slot := 5, opcode := 1,
    seg := 0, widCode := 2, scope := .die, ord := .relaxed, seq := 1, far := true, pageable := true, direct := false, l1 := false, sent := false,
    cls := 0, pieces := [watchedLane, { watchedLane with lane := 30, pa := none, fault := some 2 }], dest := .uni 0 false .b32, ret := true,
    epoch := none, rel := none, view := { clock := [], low := [] }, born := 0, asdt := none, resolved := true, held := false, unrecorded := false,
    watch := 0, deadline := 0, ms := none, step := 0, accepted := false }

/-- The wait in the watch. -/
def watchWait : Waiting := { on := .mwatch 1, here := 0, next := 1, sp := false, mask := 1, rearm := none, also := none, since := 0 }

/-- A wave that waits in the watch, in a part after its boot order. -/
def watchingWave : Wave := { Wave.init with lid := 1, seq := 1, st := .waiting, wait := some watchWait }
def watching : State := { State.reset with waves := [(0, watchingWave)], acc := [(1, failedWatch)], nextId := 2 }

theorem watchOf_watching : watchOf watching 0 = some (1, failedWatch, watchedLane) := by decide

theorem loadReady_watching : loadReady watching 1 failedWatch watchedLane = true := by decide

theorem eccHit_watching : eccHit watching 128 4 = false := by decide

theorem brokenAlias_watching : brokenAlias watching (accVia failedWatch 128 128) 128 4 = false := by decide

/-- The word reads 0. -/
theorem devBytes_watching : leNat (devBytes watching 128 4) = 0 := by decide

/-- The watch after the test. -/
def afterTest : Option Acc :=
  match exec (.mwatchWake 0) watching with
  | .next t => accOf t 1
  | _ => none

/-- The test leaves the watch as it is: a lane of it has failed, so that its address is not translated again. -/
theorem resolved_afterTest : afterTest.map (·.resolved) = some true := by decide

/-- Refutes O35: an equal value need not leave a pageable watch to be translated again: no hypothesis says that the watch has one lane, and where a
second one has failed the model keeps the place of the first. -/
theorem not_watchEndsOnChangeOrTimeout : ¬ Obligations.WatchEndsOnChangeOrTimeout := by
  unfold Obligations.WatchEndsOnChangeOrTimeout
  intro h
  obtain ⟨v, hv, -, hequal, -⟩ := h 0 watching watchingWave watchWait 1 failedWatch watchedLane 128 0 .b32 watchOf_watching rfl rfl rfl rfl rfl rfl rfl
    rfl rfl loadReady_watching eccHit_watching rfl
  obtain ⟨t, ht, -, hwatch⟩ := hequal ((hv brokenAlias_watching).trans devBytes_watching)
  have hafter : afterTest = accOf t 1 := by rw [afterTest, ht]
  have hresolved := resolved_afterTest
  rw [hafter, hwatch] at hresolved
  cases hresolved

end Sys2Proof.Machine

/-! PROOF. An MFLUSH in a part whose table of accesses holds one number twice (R189, R347). -/

namespace Sys2Proof.Machine

/-! ### The counterexample -/

/-- A pageable segment of far memory of one frame, with right to read and to write. -/
def flushSeg : Seg := { base := 0, limit := 2 ^ 30, flags := 0x041F, pbase := 0 }

/-- A launch whose image has that segment. -/
def flushLaunch : Launch := { endedStage with img := { padImage with segs := [flushSeg] }, st := .accepted }

/-- Address space 1 in far memory: its entry with a window of 2^40 bytes and the root table at 4096, whose first entry names the table at 8192,
whose first entry is a page of class 4 with both rights at frame 0 (R184, R185). -/
def flushTables : List Host.Cell :=
  [(Config.farBase + 129, 0x10), (Config.farBase + 201, 1), (Config.farBase + 221, 1), (Config.farBase + 4096, 1), (Config.farBase + 4097, 0x20),
   (Config.farBase + 8192, 0x4F)]

/-- A plain ALIAS store of one byte, which no L1 holds, still to be translated. -/
def aliasStoreAcc : Acc := { waitingStore with asid := 1, cls := 4, direct := true, asdt := some 0 }

/-- A plain store of one byte which the L1 holds, with its place. -/
def placedStore : Acc :=
  { aliasStoreAcc with
    direct := false, resolved := true
    pieces := [{ lane := 0, va := 0, size := 1, pa := some Config.farBase, fault := none, data := [7], cmp := [], val := [], done := false }] }

/-- The part with the two stores, both under number 1. -/
def twoAtOne : State :=
  { State.reset with waves := [(0, padWave)], launches := [(1, flushLaunch)], acc := [(1, aliasStoreAcc), (1, placedStore)], nextId := 2, mem := flushTables }

/-- MFLUSH.wb of the line at the segment's first byte. -/
def flushFirst : MFlushF := ⟨⟨0, .normal, 0, .inWord 0⟩, .unif, 0, .wb⟩

theorem flushFirst_issues : Issues (.mflush flushFirst) twoAtOne padWave := by
  unfold Issues Issuing
  decide

/-- Every store that the L1 holds has its place. -/
theorem twoAtOne_placed : ∀ e ∈ twoAtOne.acc, inL1 (twoAtOne.cur.wid / 16) e.2 = true → ∀ p ∈ e.2.pieces, unlooked p = false := by decide

/-- The access under number 1 after the flush. -/
def afterFlush : Option Acc :=
  match exec (.mflush flushFirst) twoAtOne with
  | .next t => accOf t 1
  | _ => none

/-- The flush has placed the access that stands first under the number of the store that it sends. -/
theorem unlooked_afterFlush : afterFlush.map (fun a => a.pieces.any unlooked) = some false := by decide

/-- Refutes O28: no hypothesis says that the accesses have a number each. Where an untranslated store that the L1 does not hold stands before a
store of the L1 under one number, MFLUSH of the second one's line finds the first under that number, and gives it a place. -/
theorem not_cacheHintsChangeNoValue : ¬ Obligations.CacheHintsChangeNoValue := by
  unfold Obligations.CacheHintsChangeNoValue
  intro h
  obtain ⟨-, hflush⟩ := h twoAtOne padWave
  obtain ⟨t, ht, -, -, hquiet, -⟩ := hflush flushFirst flushFirst_issues
  obtain ⟨-, -, -, -, -, -, hacc, -⟩ := hquiet twoAtOne_placed
  have hsame := congrArg (Option.map fun a => a.pieces.any unlooked) (hacc 1)
  have hafter : afterFlush = accOf t 1 := by rw [afterFlush, ht]
  have hplaced := unlooked_afterFlush
  rw [hafter] at hplaced
  simp only [Option.map_map] at hsame
  have hstill : (accOf t 1).map (fun a => a.pieces.any unlooked) = some true := hsame
  rw [hplaced] at hstill
  cases hstill

end Sys2Proof.Machine
